-- ==== Sys2Proof/Word.lean ====
section
/-! DEFINITION. The byte and the PAM4 level, and nothing else: every wider value of this block is a `Nat` cut to its
width where the spec gives one, or a list of bytes in message order. -/
namespace Sys2Proof

/-- A byte: what a datagram, a flit, a mailbox or a memory line is made of. -/
abbrev Byte := BitVec 8

/-- A PAM4 level; level 0 is the lowest (R167). -/
abbrev Level := Fin 4

end Sys2Proof
end

