-- ==== Sys2Proof/Syntax.lean ====
section
/-! DEFINITION. The commands of the block: one constructor of `Instr` per row of spec/opcode_table.json, with the
operands the environment brings. The first operand `dt` of every command is the time in nanoseconds that passed
since the command before it (log entry 1). -/
namespace Sys2Proof

/-- The path a dictionary command arrives on, which alone fixes its class (R39). `fm p pair` is fabric-manager port
`p`, over the switch mailbox (`pair = false`) or over the FM pair of R382 (`pair = true`). -/
inductive Path where
  | kdp (ip port : Nat)
  | i3c
  | fm (port : Nat) (pair : Bool)
  | tenant (port : Nat)
  deriving DecidableEq, Repr

/-- An operation record of R45: the object it names, its element number when RFLAGS bit 0 is set, and its data. -/
structure Rec where
  index : Nat
  sub   : Nat
  elem  : Option Nat
  data  : List Byte
  deriving DecidableEq, Repr

/-- A host's write to BAR 2/3 of the presented function (R114). -/
structure WindowWrite where
  port   : Nat
  offset : Nat
  width  : Nat
  value  : Nat
  deriving DecidableEq, Repr

/-- The registers that the spec's features put into a function's configuration space and its BAR 0/1 (R100, R101, R114,
R262). Where they lie there is the PCIe and CXL standards' (log entry 85). -/
inductive FnReg where
  | classCode
  | deviceControl
  | aerStatus
  | aerMask
  | dpcControl
  | dpcStatus
  | acsControl
  | slotControl
  | cxlCapability
  | biDecoder
  deriving DecidableEq, Repr

/-- Where a write comes from: a dictionary record, a window register with no row of its own, or a register of the function
at vPPB `vppb` of a host port, 0 the presented one. -/
inductive WriteSource where
  | record (path : Path) (r : Rec)
  | window (a : WindowWrite)
  | config (port vppb : Nat) (reg : FnReg) (value : Nat)
  deriving DecidableEq, Repr

/-- Where a read comes from: a dictionary record, a window register of BAR 2/3 (width 4 or 8 bytes), or a register of the
function at vPPB `vppb` of a host port, 0 the presented one. -/
inductive ReadSource where
  | record (path : Path) (r : Rec)
  | window (port offset width : Nat)
  | config (port vppb : Nat) (reg : FnReg)
  deriving DecidableEq, Repr

/-- What the FM API command Physical Port Control asks of a port (R97, R121). -/
inductive PortControl where
  | assertPerst
  | deassertPerst
  | resetPpb
  deriving DecidableEq, Repr

/-- One monitor-slicer measurement (R85), in the fields of `LANE.MARGIN`. -/
structure Margin where
  vTop   : Nat
  vBot   : Nat
  hLeft  : Nat
  hRight : Nat
  deriving DecidableEq, Repr

/-- The eyes a periodic measurement finds on a lane: the second and third exist on a PAM4 lane only (R85). -/
structure EyeMargins where
  middle : Margin
  upper  : Margin
  lower  : Margin
  deriving DecidableEq, Repr

/-- What the checker of a lane has received since it searches, oldest bit first (R88). -/
structure ReceivedBits where
  lane : Nat
  bits : List Bool
  deriving DecidableEq, Repr

/-- Get Physical Port State: the host port it comes from and the ports it asks about (R121). -/
structure PortsQuery where
  port  : Nat
  ports : List Nat
  deriving DecidableEq, Repr

/-- Get Virtual CXL Switch Info: the host port it comes from and the host whose switch it asks about (R121). -/
structure SwitchQuery where
  port : Nat
  host : Nat
  deriving DecidableEq, Repr

/-- A key exchange that has ended: the port's link stream, or a selective stream of its function (R119). -/
structure KeyedStream where
  port   : Nat
  stream : Option Nat
  deriving DecidableEq, Repr

/-- The size a host gives a decoder, and whether it commits with commit-lock (R115). -/
structure DecoderSize where
  size : Nat
  lock : Bool
  deriving DecidableEq, Repr

/-- A logical device that answers behind a downstream port when its link comes up (R109, R112, R117). -/
structure LdOffer where
  ldId     : Nat
  serial   : Nat
  capacity : Nat
  type3    : Bool
  dynamic  : Bool
  cache    : Bool
  deriving DecidableEq, Repr

/-- What a link partner's transmitter request asks of a lane while it equalises (R81): a PCIe preset, or coefficients. -/
inductive FfeRequest where
  | preset (n : Nat)
  | coefficients (pre main post : Nat)
  deriving DecidableEq, Repr

/-- What a link partner brings to an edge port's training (R99, R503). `version` is 0 for PCIe and 1, 2, 3 for
CXL 1.1, 2.0 and 3.x; `rate` is its highest rate in the code of `LANE.PORT_MAX_RATE`; `width` the lanes that
trained, `inverted` those of the port's lanes, counted from 0, that were found inverted, `ffe` the last request made of
each lane's transmitter; `mld` says that a multi-logical device answers, `lds` are the logical devices behind a downstream
port. -/
structure Offer where
  version  : Nat
  mem      : Bool
  cache    : Bool
  pcieFlit : Bool
  flit68   : Bool
  flit256  : Bool
  latOpt   : Bool
  rate     : Nat
  width    : Nat
  reversed : Bool
  inverted : List Nat
  ffe      : List FfeRequest
  mld      : Bool
  lds      : List LdOffer
  deriving DecidableEq, Repr

/-- Why a host port's link went down (R106): by surprise, or by a cause the device knows. -/
inductive LinkCause where
  | surprise
  | perst
  | ide
  | commit
  | reference
  | test
  | fatal
  | chipReset
  deriving DecidableEq, Repr

/-- The sender of a host message: the host of a host port, or a PBR host that reaches a fabric port with its SPID (R116). -/
inductive HostSource where
  | port (port : Nat)
  | pbr (port spid : Nat)
  deriving DecidableEq, Repr

/-- What a host's M2S message says in MetaField and MetaValue, as far as R260 reads it. -/
inductive HostMeta where
  | noOp
  | invalid
  | shared
  | any
  deriving DecidableEq, Repr

/-- SnpType of an M2S message. -/
inductive HostSnp where
  | noOp
  | data
  | inv
  | cur
  deriving DecidableEq, Repr

/-- The opcodes of M2S Req that R260 names; `other` is any further request, which expects data or not. BIConflict is a
command of its own. -/
inductive HostReqOp where
  | memRd | memRdData | memInv | memInvNT | memClnEvct | memSpecRd
  | other (data : Bool)
  deriving DecidableEq, Repr

/-- A host's M2S Req message; the address is a host physical address, or a DPA from a PBR host (R236). -/
structure HostReq where
  op   : HostReqOp
  meta_ : HostMeta
  snp  : HostSnp
  tag  : Nat
  addr : Nat
  deriving DecidableEq, Repr

/-- The opcodes of M2S RwD that R260 names. -/
inductive HostRwdOp where
  | memWr | memWrPtl | other
  deriving DecidableEq, Repr

/-- A host's M2S RwD message. -/
structure HostRwd where
  op     : HostRwdOp
  meta_  : HostMeta
  snp    : HostSnp
  tag    : Nat
  addr   : Nat
  data   : List Byte
  mask   : Nat
  poison : Bool
  deriving DecidableEq, Repr

/-- A host's M2S BIRsp message: the state it keeps, 0 I, 1 S, 2 E; none for the Blk forms. -/
structure HostBirsp where
  state : Option Nat
  addr  : Nat
  deriving DecidableEq, Repr
/-- The Basin classes of R129. -/
inductive BasinClass where
  | req
  | rsp
  | coh
  deriving DecidableEq, Repr

/-- What a message is, as far as its tenancy, traffic class and Basin class depend on it (R129, R150). -/
inductive MsgSort where
  /-- PCIe or CXL.io from an edge port, with the packet's TC; a completion is a response. -/
  | io (tc : Nat) (response : Bool)
  /-- A completion of the presented function, for a request of this tenancy and TC. -/
  | functionCompletion (tenancy : Option Nat) (tc : Nat)
  /-- CXL.mem; `tenancy` is that of the tract. -/
  | mem (tenancy : Option Nat) (response : Bool)
  /-- CXL.cache between a host port and a device bound in its virtual hierarchy (R117). -/
  | cache (response : Bool)
  /-- Coherence control: snoops, snoop responses, NACKs and retries (R26). -/
  | control (tenancy : Option Nat)
  /-- Glen mover traffic of a tenancy's channel. -/
  | glen (tenancy : Nat)
  /-- Received on a Pass port: TENANCY and TC of its header. -/
  | pass (tenancy : Option Nat) (tc : Nat) (response : Bool)
  | mirror
  | log
  | management
  deriving DecidableEq, Repr

/-- The link channels of an egress port (R127). -/
inductive LinkChannel where
  | posted | nonPosted | completion
  | m2sReq | m2sRwd | s2mNdr | s2mDrs | biSnp | biRsp
  | cache
  | request | response
  | internal
  deriving DecidableEq, Repr

/-- A target of a message (R137): an egress port (0..71), its link channel and a rewrite index. -/
structure Target where
  egress  : Nat
  channel : LinkChannel
  rewrite : Nat
  deriving DecidableEq, Repr

/-- A message that arrives at an ingress port of the Basin (R124): what it is, the link channel it comes on (R134), its
targets, its length in bytes, its bytes, how many of those are header (the rest is payload data for R144), and what
relaxed and ID-based ordering ask of it (R128): whether it carries either attribute, and its requester ID. `ld` is the
LD-ID of the downstream logical device it is from or for (R117), `dpid` the PBR ID it is for where a fabric port is to
carry it (R118), `viral` the viral status its link layer brings (R101). -/
structure FabricMsg where
  sort        : MsgSort
  channel     : LinkChannel
  targets     : List Target
  len         : Nat
  body        : List Byte
  headerBytes : Nat
  relaxed     : Bool
  ido         : Bool
  requester   : Nat
  ld          : Nat
  dpid        : Option Nat
  viral       : Bool
  deriving DecidableEq, Repr

/-- What the check of a cell read finds (R146). -/
inductive CellError where
  | none
  | unitCorrected
  | unitData
  | unitHeader
  | descCorrected
  | descUncorrectable
  | entryUncorrectable
  deriving DecidableEq, Repr

/-- What a lane's own receiver reports while it trains (R181, R182): lock, deskew ready, its requests done, and the
request it makes of the partner (0 hold, 1 up, 2 down). -/
structure LaneReport where
  lock    : Bool
  ready   : Bool
  eqDone  : Bool
  reqPre  : Nat
  reqPost : Nat
  deriving DecidableEq, Repr

/-- The symbol errors of a stored line (R198, R201): the bytes 0..79 that are wrong after the inner code, each with the
bits that are wrong in it; the line whose bytes come instead, where the read goes to the wrong place (R203); and, beyond the
errors the decode mode is guaranteed to handle, the codeword the decoder settles on, none where it reports the line. -/
structure DramErrors where
  flips   : List (Nat × Byte)
  place   : Option Nat
  settles : Option (List Byte)
  deriving DecidableEq, Repr

/-- A whole line as a writer supplies it (R205). -/
structure StoredLine where
  data    : List Byte
  poison  : Bool
  tracked : Bool
  tag     : Nat
  deriving DecidableEq, Repr

/-- A row of a bank (R194). -/
structure SpareRow where
  channel : Nat
  bank : Nat
  row : Nat
  deriving DecidableEq, Repr
inductive WindowId where
  | ten (t : Nat) | overflow | none
  deriving DecidableEq, Repr
/-- A coherence message (R170, R257). -/
structure CohMsg where
  kind    : Nat
  tc      : Nat
  tenancy : Option (Nat × Nat)
  dst     : Nat
  src     : Nat
  hops    : Nat
  arg     : Nat
  key     : Nat
  agent   : Nat
  switch  : Nat
  tag     : Nat
  epoch   : Nat
  mask    : Nat
  data    : List Byte
  deriving DecidableEq, Repr
/-- Where a snoop goes: a proxy Col engine, or the port agent of a local agent (R271). -/
inductive SnoopTarget where
  | proxy (col : Nat) | agent (a : Nat)
  deriving DecidableEq, Repr
/-- Who asks for a line or holds it: a local agent, a remote switch, or the device side (R265, R272). -/
inductive Requester where
  | agent (a : Nat) | switch (n : Nat) | device
  deriving DecidableEq, Repr
/-- The load of a Col engine over a window (R317), in per cent. -/
structure EngineLoad where
  engine  : Nat
  percent : Nat
  deriving DecidableEq, Repr
/-- How a host read of a Glen channel ends (R394): its completion data; UR, CA or a poisoned completion; or no read at
all, since Bus Master Enable of the presented function is clear. -/
inductive HostReadResult where
  | data (bytes : List Byte)
  | failed
  | masterOff
  deriving DecidableEq, Repr
/-- What returns for the oldest source access of a Glen channel (R391, R402): the completion of a host read (for a tract
the answer is a coherence message of its own), and whether the read buffer or the holding register fails on it. -/
structure SourceResult where
  host     : HostReadResult
  bufferUe : Bool
  deriving DecidableEq, Repr
/-- The JTAG instructions R478 names, and those of IEEE 1149.1 beside them; `debugPort` is the private one that reaches
the debug access port. -/
inductive JtagIns where
  | bypass | idcode | samplePreload | extest | extestPulse | extestTrain | debugPort
  deriving DecidableEq, Repr
/-- The kinds of wear monitors, in the element order of `WEAR.THRESHOLD` (R495). -/
inductive WearKind where
  | lane | col | steppe | package
  deriving DecidableEq, Repr
/-- An element of a counter object: the object's address and the element number. -/
structure CounterElem where
  object  : Nat
  element : Nat
  deriving DecidableEq, Repr
/-- Bytes that an external programmer has put into the boot flash while the device had no power (R467). -/
structure FlashPatch where
  offset : Nat
  bytes  : List Byte
  deriving DecidableEq, Repr

/-- What power-on meets: what an external programmer put into the flash while the device had no power, and the groups whose
reserve lane fails its power-on calibration (R89). -/
structure PowerOn where
  programmed  : List FlashPatch
  badReserves : List Nat
  deriving DecidableEq, Repr

/-- The commands: one per row of the table, in the table's order. -/
inductive Instr where
  /-- `KDP_DATAGRAM` (R52). A datagram to UDP port 47300 is received good; it is counted, policed, checked for retransmission and a well-formed header, and queued for the dictionary service. -/
  | kdpDatagram (dt : Nat) (srcIp : Nat) (srcPort : Nat) (payload : List Byte)
  /-- `ARP_FRAME` (R50). An ARP frame arrives on the management lane; it is policed and answered for the device's address. -/
  | arpFrame (dt : Nat) (senderIp : Nat) (targetIp : Nat)
  /-- `ICMP_ECHO` (R50). An ICMPv4 echo request arrives on the management lane; it is policed and answered. -/
  | icmpEcho (dt : Nat) (srcIp : Nat) (dstIp : Nat) (payload : List Byte)
  /-- `ETH_FRAME_DROP` (R50). A frame that is not ARP, ICMPv4 echo or UDP to port 47300 arrives; it is dropped and counted in MGP.ETH_DROPPED. -/
  | ethFrameDrop (dt : Nat)
  /-- `LINK_LOCAL_ANNOUNCE` (R51). The announcement interval of the link-local address expires, and the address is announced. -/
  | linkLocalAnnounce (dt : Nat)
  /-- `MCTP_MESSAGE` (R57). An MCTP message with the vendor type arrives on I3C; a body of the wrong form is dropped, and a good one is queued as a dictionary message. -/
  | mctpMessage (dt : Nat) (body : List Byte)
  /-- `I3C_ADDRESS_ASSIGN` (R56). The bus owner assigns the dynamic address by ENTDAA or SETDASA. -/
  | i3cAddressAssign (dt : Nat) (addr : Nat)
  /-- `SET_ENDPOINT_ID` (R56). The MCTP control command Set Endpoint ID is served. -/
  | setEndpointId (dt : Nat) (eid : Nat)
  /-- `GET_ENDPOINT_ID` (R56). The MCTP control command Get Endpoint ID is served. -/
  | getEndpointId (dt : Nat)
  /-- `GET_MCTP_VERSION_SUPPORT` (R56). The MCTP control command Get MCTP Version Support is served. -/
  | getMctpVersionSupport (dt : Nat) (msgType : Nat)
  /-- `GET_MESSAGE_TYPE_SUPPORT` (R56). The MCTP control command Get Message Type Support is served. -/
  | getMessageTypeSupport (dt : Nat)
  /-- `GET_VENDOR_DEFINED_MESSAGE_SUPPORT` (R56). The MCTP control command Get Vendor Defined Message Support is served. -/
  | getVendorDefinedMessageSupport (dt : Nat) (selector : Nat)
  /-- `DICTIONARY_ACCESS` (R58). Vendor opcode 0xC400 arrives on the switch mailbox or the memory-device mailbox, and its common message is queued or answered with Invalid Input. -/
  | dictionaryAccess (dt : Nat) (port : Nat) (payload : List Byte)
  /-- `TAKE_MESSAGE` (R47). The dictionary service takes the next message from the path queues in turn and checks its header, misdirection and response size before it runs any record. -/
  | takeMessage (dt : Nat)
  /-- `READ` (R45). A Read record returns the live value of an object, after the access, element and length checks. -/
  | read (dt : Nat) (src : ReadSource)
  /-- `WRITE` (R61). A Write record, or a window register write with no row of its own, is checked and acts at once or is staged for an on-commit object. -/
  | write (dt : Nat) (src : WriteSource)
  /-- `READ_STAGED` (R45). A Read staged record returns the staged value, or the live value when nothing is staged. -/
  | readStaged (dt : Nat) (path : Path) (r : Rec)
  /-- `DESCRIBE` (R45). A Describe record returns the type, element type, size, access, effect and element count of an object. -/
  | describe (dt : Nat) (path : Path) (r : Rec)
  /-- `COMMIT` (R62). A write of 1 to STG.COMMIT validates the whole staged set and either fails with COMMIT_FAILED or begins applying it. -/
  | commit (dt : Nat) (path : Path)
  /-- `COMMIT_APPLIED` (R501). The application of a commit ends; the staging area is emptied, STG.STATUS leaves Committing and the commit response is sent. -/
  | commitApplied (dt : Nat)
  /-- `DISCARD` (R61). A write of 1 to STG.DISCARD empties the staging area. -/
  | discard (dt : Nat) (path : Path)
  /-- `RECOVERY_WRITE_RESUME` (R63). A recovery-subset write that waited for a commit acts once the commit ends. -/
  | recoveryWriteResume (dt : Nat)
  /-- `IDENTIFY` (R121). The FM API command Identify is served on a fabric-manager port. -/
  | identify (dt : Nat) (port : Nat)
  /-- `BACKGROUND_OPERATION_STATUS` (R121). The FM API command Background Operation Status is served. -/
  | backgroundOperationStatus (dt : Nat) (port : Nat)
  /-- `GET_RESPONSE_MESSAGE_LIMIT` (R121). The FM API command Get Response Message Limit is served. -/
  | getResponseMessageLimit (dt : Nat) (port : Nat)
  /-- `SET_RESPONSE_MESSAGE_LIMIT` (R121). The FM API command Set Response Message Limit is served. -/
  | setResponseMessageLimit (dt : Nat) (port : Nat) (limit : Nat)
  /-- `GET_EVENT_RECORDS` (R121). The FM API command Get Event Records is served. -/
  | getEventRecords (dt : Nat) (port : Nat)
  /-- `CLEAR_EVENT_RECORDS` (R121). The FM API command Clear Event Records is served. -/
  | clearEventRecords (dt : Nat) (port : Nat)
  /-- `GET_TIMESTAMP` (R121). The FM API command Get Timestamp is served. -/
  | getTimestamp (dt : Nat) (port : Nat)
  /-- `SET_TIMESTAMP` (R433). The FM API command Set Timestamp sets the telemetry time base, which then runs on from the value written. -/
  | setTimestamp (dt : Nat) (port : Nat) (ns : Nat)
  /-- `IDENTIFY_SWITCH_DEVICE` (R121). The FM API command Identify Switch Device is served. -/
  | identifySwitchDevice (dt : Nat) (port : Nat)
  /-- `GET_PHYSICAL_PORT_STATE` (R121). The FM API command Get Physical Port State is served. -/
  | getPhysicalPortState (dt : Nat) (query : PortsQuery)
  /-- `PHYSICAL_PORT_CONTROL` (R97). The FM API command Physical Port Control acts on a port, including the assertion of PERST_L on a downstream port for at least 1 ms. -/
  | physicalPortControl (dt : Nat) (port : Nat) (target : Nat) (op : PortControl)
  /-- `SEND_PPB_CXL_IO_CONFIGURATION_REQUEST` (R121). The FM API command Send PPB CXL.io Configuration Request is served. -/
  | sendPpbCxlIoConfigurationRequest (dt : Nat) (port : Nat) (ppb : Nat) (request : Nat)
  /-- `GET_VIRTUAL_CXL_SWITCH_INFO` (R121). The FM API command Get Virtual CXL Switch Info is served. -/
  | getVirtualCxlSwitchInfo (dt : Nat) (query : SwitchQuery)
  /-- `BIND_VPPB` (R113). The FM API command Bind vPPB binds a Bindable logical device at once and updates the dictionary objects that describe the binding. -/
  | bindVppb (dt : Nat) (port : Nat) (host : Nat) (vppb : Nat) (dsp : Nat) (ldId : Nat)
  /-- `UNBIND_VPPB` (R113). The FM API command Unbind vPPB unbinds a logical device, with or without managed hot-remove. -/
  | unbindVppb (dt : Nat) (port : Nat) (host : Nat) (vppb : Nat) (managed : Bool)
  /-- `GENERATE_AER_EVENT` (R121). The FM API command Generate AER Event is served. -/
  | generateAerEvent (dt : Nat) (port : Nat) (host : Nat) (vppb : Nat) (event : Nat)
  /-- `TUNNEL_MANAGEMENT_COMMAND` (R121). The FM API command Tunnel Management Command carries an MLD component command to the MLD. -/
  | tunnelManagementCommand (dt : Nat) (port : Nat) (dsp : Nat) (command : List Byte)
  /-- `SEND_LD_CXL_IO_CONFIGURATION_REQUEST` (R121). The FM API command Send LD CXL.io Configuration Request is served. -/
  | sendLdCxlIoConfigurationRequest (dt : Nat) (port : Nat) (dsp : Nat) (ldId : Nat) (request : Nat)
  /-- `SEND_LD_CXL_IO_MEMORY_REQUEST` (R121). The FM API command Send LD CXL.io Memory Request is served. -/
  | sendLdCxlIoMemoryRequest (dt : Nat) (port : Nat) (dsp : Nat) (ldId : Nat) (request : Nat)
  /-- `UNSUPPORTED_OPCODE` (R121). Any other mailbox opcode returns Unsupported. -/
  | unsupportedOpcode (dt : Nat) (port : Nat) (opcode : Nat)
  /-- `SLACK_POSITION` (R80). A Pass receiver reaches a slack position and deletes, passes or inserts a slack block for the whole port, by the elastic-buffer fill of lane L0. -/
  | slackPosition (dt : Nat) (port : Nat) (fill : Nat)
  /-- `EB_ERROR` (R80). A lane's elastic buffer overflows or underflows; LANE.EB_ERRORS rises, and more than 16 errors in 1 s on a port raise the lane-adaptation source. -/
  | ebError (dt : Nat) (lane : Nat)
  /-- `ADAPTATION_STEP` (R82). A lane's adaptation interval expires and each unfrozen DFE tap or the CTLE moves by at most one step on live data. -/
  | adaptationStep (dt : Nat) (lane : Nat) (ctleMove : Int) (tapMoves : List Int)
  /-- `SAT` (R83). An adapted value has held at its range end for 100 ms; SAT is set, the training values are reloaded and the lane-adaptation source is raised. -/
  | sat (dt : Nat) (lane : Nat)
  /-- `RESTORE` (R84). A write of RESTORE in LANE.ADAPT_CTRL reloads the lane's training values at the next adaptation step. -/
  | restore (dt : Nat) (path : Path) (lane : Nat) (value : Nat)
  /-- `MARGIN_MEASUREMENT` (R85). The once-per-second monitor-slicer measurement of a lane completes and replaces LANE.MARGIN. -/
  | marginMeasurement (dt : Nat) (lane : Nat) (eyes : EyeMargins)
  /-- `MARGIN_REQ` (R85). A write of LANE.MARGIN_REQ starts an extra measurement of the named eye. -/
  | marginReq (dt : Nat) (path : Path) (lane : Nat) (eye : Nat)
  /-- `MARGIN_REQ_DONE` (R85). A requested margin measurement completes, within 10 ms, and replaces LANE.MARGIN. -/
  | marginReqDone (dt : Nat) (lane : Nat) (m : Margin)
  /-- `PRBS_START` (R87). A write that sets GEN_EN or CHK_EN in LANE.PRBS_CTRL starts the PRBS generator or checker, or is refused with REFUSED set. -/
  | prbsStart (dt : Nat) (path : Path) (lane : Nat) (value : Nat)
  /-- `PRBS_CLEAR` (R88). A write of CLEAR zeroes both PRBS counters and their overflow bits. -/
  | prbsClear (dt : Nat) (path : Path) (lane : Nat) (value : Nat)
  /-- `PRBS_LOCK` (R88). The checker has seen 64 consecutive error-free bits, locks and begins counting. -/
  | prbsLock (dt : Nat) (received : ReceivedBits)
  /-- `PRBS_LOCK_LOSS` (R88). More than half of 1,024 bits are in error; the checker drops lock and searches again. -/
  | prbsLockLoss (dt : Nat) (lane : Nat) (bits : Nat) (errors : Nat)
  /-- `PORT_TEST` (R87). A write of LANE.PORT_TEST in Test state takes the port down for test, or releases it so that the port trains again. -/
  | portTest (dt : Nat) (path : Path) (port : Nat) (value : Nat)
  /-- `RESERVE_SELF_TEST` (R89). The hourly timer of an unused reserve lane starts its 1 s PRBS31 loopback self-test. -/
  | reserveSelfTest (dt : Nat) (group : Nat)
  /-- `RESERVE_SELF_TEST_END` (R89). A reserve self-test ends; any error marks the reserve Failed until chip reset. -/
  | reserveSelfTestEnd (dt : Nat) (group : Nat) (errors : Nat)
  /-- `SWAP` (R90). A swap written to LANE.SWAP_CMD starts the reserve-lane swap for the named lane, or is rejected when the reserve is not Idle. -/
  | swap (dt : Nat) (path : Path) (group : Nat) (lane : Nat)
  /-- `REVERT` (R93). A revert written to LANE.SWAP_CMD in Test or Recovery state takes the port through the swap sequence in the opposite direction. -/
  | revert (dt : Nat) (path : Path) (group : Nat)
  /-- `TRANSCEIVER_SELF_CHECK_FAIL` (R90). An active lane fails its transceiver self-check, and a swap starts when LANE.AUTO_SWAP is set. -/
  | transceiverSelfCheckFail (dt : Nat) (lane : Nat)
  /-- `SWAP_SHADOW_TRAINED` (R91). The shadowing reserve receiver finishes training on live data, and the reserve transmitter takes the lane's FFE coefficients. -/
  | swapShadowTrained (dt : Nat) (group : Nat) (ctle : Nat)
  /-- `SWAP_SWITCH` (R91). At the next slack position, or with LTSSM Recovery on an edge port, the steering switch moves the pad pair to the reserve lane. -/
  | swapSwitch (dt : Nat) (group : Nat)
  /-- `REFERENCE_GATE` (R417). The 1 ms measurement gate of a reference ends; an out-of-window reference is held in reset and faulted, and 10 good gates release a lane group. -/
  | referenceGate (dt : Nat) (ref : Nat) (hz : Nat)
  /-- `REFERENCE_STOPPED` (R417). No edge of a reference has arrived for 2 µs; the reference is judged stopped and R30 applies. -/
  | referenceStopped (dt : Nat) (ref : Nat)
  /-- `HOST_PERST` (R98). PERST_L is asserted on a host port, or a hot reset arrives; the link, VCS, presented function, bound vPPBs and bound tenancy are reset. -/
  | hostPerst (dt : Nat) (port : Nat) (hot : Bool)
  /-- `PERST_DEASSERT` (R97). 100 ms after the slot gives PWRGD, or after the commit that gives the role, PERST_L of a downstream port is deasserted. -/
  | perstDeassert (dt : Nat) (port : Nat)
  /-- `FUNCTION_LEVEL_RESET` (R367). A function-level reset arrives at the presented function of a bound host port and resets its tenancy. -/
  | functionLevelReset (dt : Nat) (port : Nat)
  /-- `EDGE_LINK_UP` (R99). An edge port's training completes with the negotiated protocol, version and flit mode; a returning agent resumes, and held interrupt vectors are sent. -/
  | edgeLinkUp (dt : Nat) (port : Nat) (offer : Offer)
  /-- `FABRIC_RETRAIN` (R503). A fabric port that failed to negotiate CXL 3.x with 256-byte flits ends its 100 ms of electrical idle and trains again. -/
  | fabricRetrain (dt : Nat) (port : Nat)
  /-- `HOST_LINK_DOWN` (R106). A host port's link goes down; its queued cells are discarded, snoops to its agent stop, and its grace timer starts. -/
  | hostLinkDown (dt : Nat) (port : Nat) (cause : LinkCause)
  /-- `GRACE_EXPIRY` (R108). A host port's grace timer expires and its agent is declared dead. -/
  | graceExpiry (dt : Nat) (port : Nat)
  /-- `DOWNSTREAM_LINK_DOWN` (R109). A downstream port's link goes down; bound vPPBs take surprise-down action, and fronted tracts become unreachable. -/
  | downstreamLinkDown (dt : Nat) (port : Nat)
  /-- `LD_IDENTITY_READ` (R109). The re-read of a returned logical device's identity completes; its fronted tracts become reachable when the serial and capacity match. -/
  | ldIdentityRead (dt : Nat) (port : Nat) (ldId : Nat) (serial : Nat) (capacity : Nat)
  /-- `BIND_COMPLETE` (R113). A bind completes when the vPPB reports link-up toward the host. -/
  | bindComplete (dt : Nat) (host : Nat) (vppb : Nat)
  /-- `IDE_INTEGRITY_FAIL` (R120). An IDE integrity check fails; the flit is discarded, the stream becomes Insecure and the link goes down. -/
  | ideIntegrityFail (dt : Nat) (port : Nat)
  /-- `IDE_KEY_EXCHANGE_DONE` (R119). An IDE key exchange completes and the link stream becomes Secure, so that the link carries traffic. -/
  | ideKeyExchangeDone (dt : Nat) (keyed : KeyedStream)
  /-- `IDE_REFRESH` (R119). A write of REFRESH in EDGE.IDE_CTRL starts a key refresh on a requester port. -/
  | ideRefresh (dt : Nat) (path : Path) (port : Nat) (value : Nat)
  /-- `PBR_FLIT` (R118). A PBR flit arrives on a fabric port; it is delivered, converted or forwarded by its DPID, or dropped and counted. -/
  | pbrFlit (dt : Nat) (port : Nat) (spid : Nat) (dpid : Nat)
  /-- `HDM_DECODER_COMMIT` (R236). A host commits an HDM decoder of the presented function; a wrong size or an invalid decoder reports an error and does not commit. -/
  | hdmDecoderCommit (dt : Nat) (port : Nat) (decoder : Nat) (base : Nat) (extent : DecoderSize)
  /-- `HOST_M2S_REQ` (R260). A host M2S Req message arrives at a port agent and is mapped to a Koleel request, ignored, or answered as unsupported. -/
  | hostM2sReq (dt : Nat) (src : HostSource) (m : HostReq)
  /-- `HOST_M2S_RWD` (R260). A host M2S RwD message arrives at a port agent and is mapped to a Koleel write or writeback. -/
  | hostM2sRwd (dt : Nat) (src : HostSource) (m : HostRwd)
  /-- `HOST_BIRSP` (R260). A host BIRsp arrives at a port agent; one that answers no snoop is discarded and counted. -/
  | hostBirsp (dt : Nat) (src : HostSource) (m : HostBirsp)
  /-- `BIRSP_FORWARD` (R289). Once the host's earlier writebacks and evictions for the line are complete and sent on, the port agent forwards the BIRsp as SNP_RSP and frees the snoop slot. -/
  | birspForward (dt : Nat) (agent : Nat) (key : Nat)
  /-- `BICONFLICT` (R262). A host sends BIConflict for a line; it is counted and its acknowledgement becomes due. -/
  | biconflict (dt : Nat) (src : HostSource) (addr : Nat)
  /-- `BICONFLICT_ACK` (R262). After every earlier S2M message for the line to that host, the port agent sends S2M NDR BIConflictAck. -/
  | biconflictAck (dt : Nat) (agent : Nat) (key : Nat)
  /-- `POWER_CONTROLLER_CONTROL` (R446). The host writes Power Controller Control on the downstream vPPB bound to a slot's port, which sets HOST_ON. -/
  | powerControllerControl (dt : Nat) (host : Nat) (vppb : Nat) (on : Bool)
  /-- `MESSAGE_INGRESS` (R124). A message arrives at an ingress port and is packed into the open cell of its class or into its own cells. -/
  | messageIngress (dt : Nat) (ingress : Nat) (m : FabricMsg)
  /-- `OPEN_CELL_CLOSE` (R124). An open cell takes no message for one full core cycle after its last message, closes and is offered for admission. -/
  | openCellClose (dt : Nat) (ingress : Nat) (cls : BasinClass)
  /-- `CELL_ADMIT` (R131). A closed cell or chained message is admitted by the reserve and shared-pool rule and enqueued on each target's pointer list. -/
  | cellAdmit (dt : Nat) (ingress : Nat) (cls : BasinClass)
  /-- `CELL_WRITE` (R126). A waiting cell write is granted a bank slot and written to the bank with the most free cells. -/
  | cellWrite (dt : Nat) (ingress : Nat) (cls : BasinClass) (busy : List Nat)
  /-- `CELL_READ` (R138). An egress port is granted the read of a cell; errors are checked, REF falls, and a cell at REF 0 returns to its free list. -/
  | cellRead (dt : Nat) (egress : Nat) (ptr : Nat) (err : CellError)
  /-- `STALL` (R142). An egress stall episode reaches BASIN.STALL_LIMIT; one stall is counted and the Basin stall source is raised. -/
  | stall (dt : Nat) (egress : Nat)
  /-- `LOW_FREE_WRITE` (R148). A write of BASIN.LOW_FREE sets it to the present free cell count. -/
  | lowFreeWrite (dt : Nat) (path : Path) (value : Nat)
  /-- `PASS_POOL_TO_BASIN` (R135). A message in a Pass receive pool moves into the ingress FIFO of its class when there is room, and its Pass credits are freed. -/
  | passPoolToBasin (dt : Nat) (port : Nat) (index : Nat)
  /-- `EGRESS_SELECT` (R154). An egress port makes one selection: TC7 round-robin, otherwise weighted fair queueing over the groups and classes, and the shapers are charged. -/
  | egressSelect (dt : Nat) (egress : Nat) (blocked : List LinkChannel)
  /-- `QUEUE_ELIGIBLE` (R154). A queue becomes eligible, by a cell, link credit or shaper tokens, and takes its start tags by on_eligible. -/
  | queueEligible (dt : Nat) (queue : Nat)
  /-- `SHAPER_WRITE` (R158). A shaper write takes effect between two selections on its port and sets the bucket full or empty as FILL gives. -/
  | shaperWrite (dt : Nat) (path : Path) (ofPort : Bool) (elem : Nat) (value : Nat)
  /-- `GROUP_REBIND_DONE` (R151). Every queue of a rebinding group is empty and the group's new port binding takes effect. -/
  | groupRebindDone (dt : Nat) (group : Nat)
  /-- `FLIT_TX` (R169). A flit time comes; the Pass port sends a data flit, a replayed flit or an idle flit, with the current acknowledgement, credits and LINK_CMD. -/
  | flitTx (dt : Nat) (port : Nat)
  /-- `FLIT_RX` (R174). A flit arrives on a Pass port and is decoded, CRC-checked, classified by sequence number and fed into the slot stream; its header acts. -/
  | flitRx (dt : Nat) (port : Nat) (lanes : List (List Level))
  /-- `ACK_TIMER` (R176). A Pass receiver's acknowledgement timer expires and its ack point advances. -/
  | ackTimer (dt : Nat) (port : Nat)
  /-- `REPLAY_TIMER` (R178). A Pass transmitter's replay timer expires; the replay count rises and a pass starts at ACKED, or a protocol error is recorded. -/
  | replayTimer (dt : Nat) (port : Nat)
  /-- `RECEIVER_DETECT` (R183). A Pass port in Detect finds partner terminations on all lanes and begins training frames in phase 0. -/
  | receiverDetect (dt : Nat) (port : Nat)
  /-- `DETECT_TIMEOUT` (R183). Nothing is found within 12 ms in Detect, and detection is repeated. -/
  | detectTimeout (dt : Nat) (port : Nat)
  /-- `TRAINING_FRAME` (R181). A training frame arrives on a lane; equalisation requests are applied, and phases end as their conditions are met. -/
  | trainingFrame (dt : Nat) (port : Nat) (lane : Nat) (word : Nat) (inverted : Bool) (own : LaneReport)
  /-- `TRAINING_PHASE_TIMEOUT` (R182). A training phase overruns its limit; the failure is counted and the port enters 1 ms of electrical idle. -/
  | trainingPhaseTimeout (dt : Nat) (port : Nat)
  /-- `TRAINING_IDLE_END` (R182). The 1 ms of electrical idle after a failed training ends, and the port returns to Detect. -/
  | trainingIdleEnd (dt : Nat) (port : Nat)
  /-- `CONFIG_TIMEOUT` (R183). A Pass port stays in Config for 10 ms; link-down actions follow and it returns to Detect. -/
  | configTimeout (dt : Nat) (port : Nat)
  /-- `RECOVERY_TIMEOUT` (R183). A Pass port stays in Recovery for 10 ms; link-down actions follow and it returns to Detect. -/
  | recoveryTimeout (dt : Nat) (port : Nat)
  /-- `LANE_LOCK_LOSS` (R183). A lane of an Up Pass port loses lock, and the port enters Recovery. -/
  | laneLockLoss (dt : Nat) (port : Nat) (lane : Nat)
  /-- `GOING_DOWN` (R184). The 1 µs of LINK_CMD 2 of a port going down by its own choice ends, and its transmitters enter electrical idle. -/
  | goingDown (dt : Nat) (port : Nat)
  /-- `PASS_MESSAGE` (R190). A whole message is received from the slot stream; it is checked for kind and channel, and enters the Basin, is forwarded or is discarded. -/
  | passMessage (dt : Nat) (port : Nat) (msg : List Byte)
  /-- `HELLO` (R187). A HELLO is received in Config; it gives pool and reserves and is checked for switch conflict and twin conditions. -/
  | hello (dt : Nat) (port : Nat) (msg : List Byte)
  /-- `ROUTE` (R188). A ROUTE message is received; serials are checked for conflict and hop counts and routes are updated. -/
  | route (dt : Nat) (port : Nat) (msg : List Byte)
  /-- `ROUTE_SEND` (R188). The 100 ms ROUTE interval expires, and a ROUTE is sent on every Up and Config port. -/
  | routeSend (dt : Nat)
  /-- `ROUTE_ENTRY_CLEAR` (R188). A domain entry that has stayed unreachable for 1 s is cleared. -/
  | routeEntryClear (dt : Nat) (switch : Nat)
  /-- `ROUTE_RECOMPUTE` (R189). A write of 1 to PASS.ROUTE_RECOMPUTE recomputes the routes. -/
  | routeRecompute (dt : Nat) (path : Path)
  /-- `PROBE_SEND` (R191). In Config, or once a second in Up, a port sends a PROBE. -/
  | probeSend (dt : Nat) (port : Nat)
  /-- `PROBE` (R191). A PROBE is received and answered with a PROBE_REPLY as soon as one may start. -/
  | probe (dt : Nat) (port : Nat) (msg : List Byte)
  /-- `PROBE_REPLY` (R191). A PROBE_REPLY is received and the round trip is stored in PASS.RTT, or it is discarded when unmatched. -/
  | probeReply (dt : Nat) (port : Nat) (msg : List Byte)
  /-- `REPLAY_BUFFER_UE` (R192). An uncorrectable error is found in a replay buffer; the port goes down with reason replay buffer error. -/
  | replayBufferUe (dt : Nat) (port : Nat)
  /-- `STEPPE_READ` (R204). A line read reaches a Steppe channel and is decoded and checked in order, returning data, corrected data, zeros or poison. -/
  | steppeRead (dt : Nat) (addr : Nat) (expected : Nat) (errors : DramErrors)
  /-- `STEPPE_WRITE` (R197). A whole-line write is accepted into a channel's write queue when there is room. -/
  | steppeWrite (dt : Nat) (addr : Nat) (line : StoredLine)
  /-- `STEPPE_INIT` (R208). In Start-up the controllers apply saved remaps and hard repairs, erase every user line and test the free spare rows. -/
  | steppeInit (dt : Nat) (badSpares : List SpareRow) (failedStacks : List Nat)
  /-- `STEPPE_READY` (R208). Steppe initialisation completes and STP.STATE reads Ready. -/
  | steppeReady (dt : Nat)
  /-- `SCRUB_LINE` (R210). Patrol scrub takes one line as an indivisible step and writes back a corrected, poisoned or erased line as its outcome requires. -/
  | scrubLine (dt : Nat) (line : Nat) (errors : DramErrors)
  /-- `SCRUB_PASS_START` (R209). A new scrub pass starts in every channel, and the row-tracker counts are halved. -/
  | scrubPassStart (dt : Nat) (badSpares : List SpareRow)
  /-- `SCRUB_PASS_END` (R219). A scrub pass completes; Draining key slots whose pass began after their destruction return to Free. -/
  | scrubPassEnd (dt : Nat)
  /-- `SCRUB_LATE` (R211). A channel overruns its scrub period by more than 1 % and raises SCRUB_LATE. -/
  | scrubLate (dt : Nat) (channel : Nat)
  /-- `SPARE_ROW_START` (R213). A channel takes the next queued row and starts sparing it into the lowest free spare row of its bank. -/
  | spareRowStart (dt : Nat) (channel : Nat)
  /-- `SPARE_ROW_DONE` (R213). The copy of a spared row completes and the remap table switches to the spare. -/
  | spareRowDone (dt : Nat) (channel : Nat) (readBack : Bool) (errors : List (Nat × DramErrors))
  /-- `STEPPE_SPARE_CMD` (R212). A write of STP.SPARE_CMD in Test or Recovery state queues a row for sparing. -/
  | steppeSpareCmd (dt : Nat) (path : Path) (value : Nat)
  /-- `REMAP_SAVE` (R215). Firmware saves a completed remap with the wear record in boot flash. -/
  | remapSave (dt : Nat)
  /-- `SANITIZE` (R220). A write of 1 to STP.SANITIZE in Test or Recovery state destroys every Live key slot. -/
  | sanitize (dt : Nat) (path : Path)
  /-- `STACK_TEMP` (R221). A stack's temperature is read every 1 ms, and the refresh rate and THERMAL change as its band requires. -/
  | stackTemp (dt : Nat) (stack : Nat) (celsius : Int)
  /-- `INNER_CORRECTION_REPORT` (R202). Once a second each stack reports its inner corrections, which are summed per channel. -/
  | innerCorrectionReport (dt : Nat) (stack : Nat) (counts : List Nat)
  /-- `XLATE` (R196). A write of STP.XLATE_ADDR computes the placement of that Steppe address into STP.XLATE_RESULT. -/
  | xlate (dt : Nat) (path : Path) (value : Nat)
  /-- `NOTICE_WINDOW_CLOSE` (R247). A notice window closes and its record is written to GUARD.NOTICE, the tenant notice, the telemetry FIFO and the guard-notice source. -/
  | noticeWindowClose (dt : Nat) (window : WindowId)
  /-- `MEM_ADDR_WRITE` (R248). A write of TRACT.MEM_ADDR is checked for alignment and tract existence. -/
  | memAddrWrite (dt : Nat) (path : Path) (value : Nat)
  /-- `MEM_DATA_READ` (R248). A read of TRACT.MEM_DATA reads the addressed line coherently as a privileged requester. -/
  | memDataRead (dt : Nat) (path : Path)
  /-- `MEM_DATA_WRITE` (R248). A write of TRACT.MEM_DATA writes the addressed line as a privileged requester. -/
  | memDataWrite (dt : Nat) (path : Path) (value : Nat)
  /-- `RELEASE_SWEEP_DONE` (R234). A release sweep completes with every snoop closed, and its allocations become Free or Live with the new owner. -/
  | releaseSweepDone (dt : Nat)
  /-- `RD_SHARED` (R265). A RD_SHARED request reaches its home Col and is served, snooped, or NACKed. -/
  | rdShared (dt : Nat) (col : Nat) (m : CohMsg)
  /-- `RD_OWN` (R265). A RD_OWN request reaches its home Col and is served, snooped, or NACKed. -/
  | rdOwn (dt : Nat) (col : Nat) (m : CohMsg)
  /-- `RD_CUR` (R265). A RD_CUR request reaches its home Col and is served without an entry, with a snoop of an owner where needed. -/
  | rdCur (dt : Nat) (col : Nat) (m : CohMsg)
  /-- `UPGRADE` (R265). An UPGRADE request reaches its home Col and is served, snooped, or NACKed. -/
  | upgrade (dt : Nat) (col : Nat) (m : CohMsg)
  /-- `WR_FULL` (R265). A WR_FULL request reaches its home Col; holders are invalidated and the line is written. -/
  | wrFull (dt : Nat) (col : Nat) (m : CohMsg)
  /-- `WR_PTL` (R265). A WR_PTL request reaches its home Col; holders are invalidated and the masked bytes merge with memory. -/
  | wrPtl (dt : Nat) (col : Nat) (m : CohMsg)
  /-- `WRITEBACK` (R265). A WRITEBACK reaches its home, or a snooping context, and is written or discarded by the entry's state. -/
  | writeback (dt : Nat) (col : Nat) (m : CohMsg)
  /-- `WRITEBACK_PTL` (R265). A WRITEBACK_PTL reaches its home, or a snooping context, and is written or discarded by the entry's state. -/
  | writebackPtl (dt : Nat) (col : Nat) (m : CohMsg)
  /-- `EVICT_CLEAN` (R265). An EVICT_CLEAN reaches its home, which removes the holder and answers CMP I. -/
  | evictClean (dt : Nat) (col : Nat) (m : CohMsg)
  /-- `SNP_INV` (R271). A SNP_INV reaches a proxy Col or a port agent, which snoops its local holders or sends BISnpInv to the host. -/
  | snpInv (dt : Nat) (target : SnoopTarget) (m : CohMsg)
  /-- `SNP_DATA` (R271). A SNP_DATA reaches a proxy Col or a port agent, which snoops its local holders or sends BISnpData to the host. -/
  | snpData (dt : Nat) (target : SnoopTarget) (m : CohMsg)
  /-- `SNP_CUR` (R271). A SNP_CUR reaches a proxy Col or a port agent, which snoops its local holders or sends BISnpCur to the host. -/
  | snpCur (dt : Nat) (target : SnoopTarget) (m : CohMsg)
  /-- `DATA` (R270). A DATA answer reaches a port agent or proxy Col; the proxy entry is updated and MemData with its Cmp goes to the host. -/
  | data (dt : Nat) (m : CohMsg)
  /-- `CMP` (R270). A CMP answer reaches a port agent or proxy Col; the proxy entry is updated and an NDR goes to the host. -/
  | cmp (dt : Nat) (m : CohMsg)
  /-- `NACK` (R280). A NACK reaches the requester's port agent, which counts it and schedules a retry, or waits for the map epoch for reason MOVED. -/
  | nack (dt : Nat) (m : CohMsg)
  /-- `SNP_RSP` (R266). A SNP_RSP reaches its home or proxy context and closes a snoop; when all snoops are closed the context grants. -/
  | snpRsp (dt : Nat) (col : Nat) (m : CohMsg)
  /-- `RETRY` (R280). A retry delay expires and the port agent sends the request again on TC7, routed by the current slice map. -/
  | retry (dt : Nat) (slot : Nat)
  /-- `MOVED_RETRY` (R314). Once the port agent's map copy holds the NACK's epoch, it resends the request without delay. -/
  | movedRetry (dt : Nat) (slot : Nat)
  /-- `HOLD_WINDOW_EXPIRY` (R283). A line's hold window ends, and requests that would snoop the grantee may be served. -/
  | holdWindowExpiry (dt : Nat) (col : Nat) (key : Nat)
  /-- `AGED_SERVE` (R286). A line with aged entries has no context and no open hold window, and the oldest aged request is served. -/
  | agedServe (dt : Nat) (col : Nat) (key : Nat)
  /-- `AGED_ENTRY_DROP` (R286). An aged entry's requester has not retried within 20 µs; the entry is removed and counted as dropped. -/
  | agedEntryDrop (dt : Nat) (col : Nat) (key : Nat) (requester : Requester) (tag : Nat)
  /-- `SNOOP_TIMEOUT` (R294). A snoop passes COH.SNOOP_TIMEOUT, or twice it for a remote switch; the regime decides whether to wait or lose the line. -/
  | snoopTimeout (dt : Nat) (col : Nat) (key : Nat) (holder : Requester)
  /-- `SUSPECT_LIMIT` (R294). In the sweep regime a silent live agent reaches COH.SUSPECT_LIMIT and is declared dead. -/
  | suspectLimit (dt : Nat) (agent : Nat)
  /-- `DECLARE_DEAD` (R295). A write of an agent number to COH.DECLARE_DEAD declares that agent dead. -/
  | declareDead (dt : Nat) (path : Path) (value : Nat)
  /-- `SWEEP_PASS_START` (R296). A sweep pass begins on every Col engine for the agents that are Dead and not yet clean. -/
  | sweepPassStart (dt : Nat)
  /-- `SWEEP_PASS_END` (R299). A sweep pass ends; its agents are clean and a number reassigned or returning becomes Live. -/
  | sweepPassEnd (dt : Nat)
  /-- `TRANSACTION_TIMEOUT` (R301). A port agent transaction receives no DATA or CMP within its timeout; the host gets poisoned MemData or Cmp. -/
  | transactionTimeout (dt : Nat) (slot : Nat)
  /-- `TAG_HOLD_EXPIRY` (R302). One more timeout passes for a tag ended by timeout, and the tag may be used again. -/
  | tagHoldExpiry (dt : Nat) (slot : Nat)
  /-- `LOAD_WINDOW_END` (R317). A load window ends; the lease coordinator reads loads, pairs donors and takers, and starts steals and returns. -/
  | loadWindowEnd (dt : Nat) (loads : List EngineLoad)
  /-- `SLICE_QUIESCENT` (R321). A draining slice becomes quiescent; the donor writes back and drops its cached entries and hands hold windows and items to the taker. -/
  | sliceQuiescent (dt : Nat) (slice : Nat)
  /-- `EPOCH_CHANGE` (R310). After its minimum interval, the next epoch change carries ready slice moves into every Col engine's map copy. -/
  | epochChange (dt : Nat)
  /-- `PORT_AGENT_MAP_UPDATE` (R310). When all 256 engines hold the new epoch, every port agent's map copy is updated. -/
  | portAgentMapUpdate (dt : Nat)
  /-- `LEASE_DRAIN_EXPIRY` (R321). A slice is not quiescent within the drain limit, and the move is abandoned. -/
  | leaseDrainExpiry (dt : Nat) (slice : Nat)
  /-- `FORCED_MOVE_RETRY` (R321). 100 µs after an abandoned forced move, the move is tried again. -/
  | forcedMoveRetry (dt : Nat) (slice : Nat)
  /-- `LEASE_HOLDOFF_EXPIRY` (R318). A moved slice's holdoff ends and it may be moved again by a steal. -/
  | leaseHoldoffExpiry (dt : Nat) (slice : Nat)
  /-- `BACKGROUND_ITEM` (R323). A Col engine takes a background item from the head of its deque and runs it in a background context. -/
  | backgroundItem (dt : Nat) (col : Nat)
  /-- `ITEM_STEAL` (R324). An engine with an idle background context and an empty deque steals one free item from the fullest deque. -/
  | itemSteal (dt : Nat) (col : Nat)
  /-- `COL_SPARE_CMD` (R326). A write of COL.SPARE_CMD makes the named logical engine qualify for sparing. -/
  | colSpareCmd (dt : Nat) (path : Path) (value : Nat) (badSpares : List Nat)
  /-- `ROLE_EMPTIED` (R327). A role being spared or updated holds no slice and no context; its messages go to the new engine, and its slices return. -/
  | roleEmptied (dt : Nat) (role : Nat) (badSpares : List Nat)
  /-- `UCODE_LOAD` (R329). Firmware loads the Col microprogram into every engine, and each engine's digest is compared with the image. -/
  | ucodeLoad (dt : Nat) (badTests : List Nat) (badDigests : List Nat)
  /-- `IMEM_SCRUB` (R330). Each engine scrubs its instruction memory every 10 ms and corrects single-bit errors. -/
  | imemScrub (dt : Nat) (phys : Nat) (corrections : Nat) (badSpares : List Nat)
  /-- `HASH_LOOKUP` (R308). A write of COL.HASH_KEY computes the slice, set and live engine of that key into COL.HASH_RESULT. -/
  | hashLookup (dt : Nat) (path : Path) (value : Nat)
  /-- `PAIR_INFO` (R336). A PAIR_INFO is received; each listed allocation is compared with its counterpart and paired or listed as unpaired. -/
  | pairInfo (dt : Nat) (port : Nat) (msg : List Byte)
  /-- `MIRROR_WR` (R340). A MIRROR_WR is received and written into the Mirror copy allocation, or discarded when no paired copy exists. -/
  | mirrorWr (dt : Nat) (port : Nat) (msg : List Byte)
  /-- `LOG` (R345). A LOG message is received and its records are applied in LSN order to the twin entries and unit marks. -/
  | log (dt : Nat) (port : Nat) (msg : List Byte)
  /-- `HEARTBEAT` (R347). A HEARTBEAT is received on a Saddle port, keeping the message signal alive and giving the partner's state and agent count. -/
  | heartbeat (dt : Nat) (port : Nat) (msg : List Byte)
  /-- `HEARTBEAT_SEND` (R346). The 10 µs heartbeat interval expires; a HEARTBEAT is sent on each Up Saddle port and TWIN_HB_OUT toggles. -/
  | heartbeatSend (dt : Nat)
  /-- `KEY_XFER` (R339). A KEY_XFER is received and its key is unwrapped into the lowest Free slot for the counterpart allocation. -/
  | keyXfer (dt : Nat) (port : Nat) (msg : List Byte)
  /-- `RESYNC_DATA` (R360). A RESYNC_DATA is received and written into the Mirror copy allocation, unless a later MIRROR_WR supersedes it. -/
  | resyncData (dt : Nat) (port : Nat) (msg : List Byte)
  /-- `MIRRORED_WRITE_COMPLETE` (R22). A mirrored write has local acceptance and a Saddle acknowledgement covering its mirror flit, and the host's Cmp is sent. -/
  | mirroredWriteComplete (dt : Nat) (key : Nat)
  /-- `LOG_FLUSH` (R342). TWIN.LOG_FLUSH passes after the first record of an open LOG message, and the message is sent. -/
  | logFlush (dt : Nat)
  /-- `UNIT_CLEAN` (R344). A unit has had no change for TWIN.CLEAN_AFTER with every record acknowledged; it is marked Clean and UNIT_CLEAN is sent. -/
  | unitClean (dt : Nat) (unit : Nat)
  /-- `UNIT_DIRTY_ACKED` (R344). The acknowledgement covering a UNIT_DIRTY record arrives, and the waiting entry change proceeds. -/
  | unitDirtyAcked (dt : Nat) (unit : Nat)
  /-- `MESSAGE_SIGNAL_SILENT` (R347). No HEARTBEAT or counted training frame has arrived for 30 µs; the pair judgement is made. -/
  | messageSignalSilent (dt : Nat)
  /-- `PIN_SIGNAL_SILENT` (R347). TWIN_HB_IN has shown no edge for 30 µs; the pair judgement is made. -/
  | pinSignalSilent (dt : Nat)
  /-- `TAKEOVER_SERVE` (R350). After the drain, alias and role changes, the survivor serves the lost twin's homes and resends outstanding requests locally. -/
  | takeoverServe (dt : Nat)
  /-- `DECLARE_LOST` (R357). A write of 1 to TWIN.DECLARE_LOST in Split starts a takeover. -/
  | declareLost (dt : Nat) (path : Path)
  /-- `ALIAS_END` (R354). A write of 1 to TWIN.ALIAS_END in Recovery state ends the alias for the lost twin's switch number. -/
  | aliasEnd (dt : Nat) (path : Path)
  /-- `RESYNC_COPY_DONE` (R360). Both directions of a resync have copied every line and entry, and the pair becomes Paired. -/
  | resyncCopyDone (dt : Nat)
  /-- `TENANCY_RESET` (R367). A write of a tenancy number to TEN.RESET triggers a reset of that tenancy. -/
  | tenancyReset (dt : Nat) (path : Path) (value : Nat)
  /-- `TENANCY_RESET_START` (R368). Once 100 µs have passed since the last increment, the generation increments and open transactions, the Glen channel and the mailboxes are reset. -/
  | tenancyResetStart (dt : Nat) (tenancy : Nat)
  /-- `TENANCY_RESET_END` (R366). A tenancy's reset sequence ends; it becomes Live with RESET set in IRQ_STATUS, or Free after a merged removal. -/
  | tenancyResetEnd (dt : Nat) (tenancy : Nat)
  /-- `DLOG_CLEAR_DONE` (R372). The bitmap of a newly valid dirty-log range is cleared, and its waiting records are folded. -/
  | dlogClearDone (dt : Nat) (range : Nat)
  /-- `DLOG_TAKE` (R374). A read of TEN.DLOG_TAKE folds the tenancy's records, then returns and clears one 64-byte bitmap word and advances WORD. -/
  | dlogTake (dt : Nat) (path : Path)
  /-- `OUT_DATA_WRITE` (R375). The tenant writes OUT_DATA; it is stored while the outbound mailbox is Empty and rejected while Full. -/
  | outDataWrite (dt : Nat) (a : WindowWrite)
  /-- `OUT_DOORBELL` (R375). The tenant rings OUT_DOORBELL; the outbound mailbox becomes Full with its pending bits. -/
  | outDoorbell (dt : Nat) (a : WindowWrite)
  /-- `IN_TAKE` (R375). The tenant writes IN_TAKE; the inbound mailbox becomes Empty and the empty notice is given. -/
  | inTake (dt : Nat) (a : WindowWrite)
  /-- `IN_DATA_WRITE` (R379). The manager writes MBX.IN_DATA of a tenancy; it is stored while Empty and rejected with STATE while Full. -/
  | inDataWrite (dt : Nat) (path : Path) (tenancy : Nat) (value : Nat)
  /-- `IN_SEND` (R379). The manager writes MBX.IN_SEND; with a matching generation the inbound mailbox becomes Full and the doorbell interrupt may be raised. -/
  | inSend (dt : Nat) (path : Path) (tenancy : Nat) (value : Nat)
  /-- `OUT_TAKE` (R379). The manager writes 1 to MBX.OUT_TAKE; the outbound mailbox becomes Empty and the tenant gets OUT_EMPTY. -/
  | outTake (dt : Nat) (path : Path) (tenancy : Nat)
  /-- `SUMMARY_EVENT` (R380). The 10 µs spacing of MBX.SUMMARY events ends and a pending summary change is reported. -/
  | summaryEvent (dt : Nat) (element : Nat)
  /-- `FM_PAIR_REQUEST` (R382). Firmware takes a common message rung into the FM pair and runs it as an M-class request of that port. -/
  | fmPairRequest (dt : Nat)
  /-- `FM_PAIR_POST` (R382). When the FM inbound mailbox is Empty, firmware posts a waiting response or notice into it. -/
  | fmPairPost (dt : Nat)
  /-- `GLEN_START` (R390). A START in CH_CONTROL fetches the descriptor at CH_POINTER, or sets END for SPACE none. -/
  | glenStart (dt : Nat) (port : Nat)
  /-- `GLEN_STOP` (R390). A STOP in CH_CONTROL makes the channel stop at the next descriptor boundary. -/
  | glenStop (dt : Nat) (port : Nat)
  /-- `GLEN_RING` (R390). A RING in CH_CONTROL fetches the parked descriptor again, or sets RING_PENDING while Running. -/
  | glenRing (dt : Nat) (port : Nat)
  /-- `CH_POINTER_WRITE` (R390). A write of CH_POINTER is stored while the channel is Idle, Stopped or Faulted, and otherwise aborted. -/
  | chPointerWrite (dt : Nat) (a : WindowWrite)
  /-- `DESC_AREA_WRITE` (R387). A write to DESC_AREA is stored in the channel's descriptor area. -/
  | descAreaWrite (dt : Nat) (a : WindowWrite)
  /-- `CHAN_CMD_STOP` (R390). The manager writes 1 to GLEN.CHAN_CMD, with the effect of STOP. -/
  | chanCmdStop (dt : Nat) (path : Path) (channel : Nat)
  /-- `DESCRIPTOR_FETCH` (R390). A descriptor fetch completes; a runnable descriptor is stamped and run, otherwise the channel waits, and a failed fetch faults. -/
  | descriptorFetch (dt : Nat) (channel : Nat) (host : HostReadResult)
  /-- `GLEN_TURN` (R384). An engine gives a channel its round-robin turn of up to 4 KiB, and the channel issues source accesses within its rate bucket. -/
  | glenTurn (dt : Nat) (engine : Nat) (busMaster : Bool)
  /-- `SOURCE_DATA` (R391). Source data for a channel returns and passes through the holding register; full destination accesses are issued and checked. -/
  | sourceData (dt : Nat) (channel : Nat) (source : SourceResult) (busMaster : Bool)
  /-- `DESCRIPTOR_WRITE_BACK` (R397). Every destination access of a descriptor has reached its point; the 16-byte write-back, interrupts and next fetch follow. -/
  | descriptorWriteBack (dt : Nat) (channel : Nat) (busMaster : Bool)
  /-- `SOURCE_EVENT` (R406). A fault source event reaches the collector; a source that was clear latches, is logged and takes its reactions, otherwise it is only counted. -/
  | sourceEvent (dt : Nat) (group : Nat) (bit : Nat) (element : Nat)
  /-- `QUIET_TIMER_EXPIRY` (R412). A self-recovering source's quiet timer expires; the latch clears, the recovery counter rises, and escalation may follow. -/
  | quietTimerExpiry (dt : Nat) (source : Nat)
  /-- `FAULT_OUT_PULSE_END` (R410). The FAULT_OUT_L pulse ends 20 µs after the last latch, and the pin is released unless HOLD is set. -/
  | faultOutPulseEnd (dt : Nat)
  /-- `FAULT_EVENT_TIMER` (R408). The 10 µs spacing of a group's interrupt events ends, and a later latch is reported. -/
  | faultEventTimer (dt : Nat) (group : Nat)
  /-- `TRAP_SAVE_DONE` (R408). The trap handler has saved the log record to boot flash, and a waiting chip reset reaction begins. -/
  | trapSaveDone (dt : Nat)
  /-- `FORCE` (R415). A write of FLT.FORCE in Test state raises each named source as one event, with FORCED set. -/
  | force (dt : Nat) (path : Path) (group : Nat) (value : Nat)
  /-- `SOURCE_CLEAR` (R411). A W1C write of a group status bit clears the latch, or ends a forced hold. -/
  | sourceClear (dt : Nat) (path : Path) (group : Nat) (value : Nat)
  /-- `RECOVERIES_CLEAR` (R413). A write of 0 to FLT.RECOVERIES clears the counter and ESCALATED. -/
  | recoveriesClear (dt : Nat) (path : Path) (source : Nat)
  /-- `HOLD_WRITE` (R410). A write of HOLD in FLT.OUT_CTRL asserts FAULT_OUT_L or lets it be released when no pulse runs. -/
  | holdWrite (dt : Nat) (path : Path) (value : Nat)
  /-- `INTERVAL_BOUNDARY` (R424). The interval timer reaches a boundary; the latch pulse latches and resets every interval part. -/
  | intervalBoundary (dt : Nat) (bad : List CounterElem)
  /-- `DUMP_WRITE` (R429). The gatherer writes a latched set into the next ring slot, or merges a new set into a set that waits. -/
  | dumpWrite (dt : Nat)
  /-- `DUMP_DATA_READ` (R430). A read of STAT.DUMP_DATA returns 256 bytes at STAT.DUMP_ADDR and advances it. -/
  | dumpDataRead (dt : Nat) (path : Path)
  /-- `PROG_SELECT` (R431). A write of STAT.PROG_SELECT selects the events of a programmable counter and zeroes it. -/
  | progSelect (dt : Nat) (path : Path) (k : Nat) (value : Nat)
  /-- `TLM_READ` (R438). A read of TLM.READ returns the whole records from R that fit in 32 words and advances R. -/
  | tlmRead (dt : Nat) (path : Path) (bad : List Nat)
  /-- `TLM_MARK` (R437). A write of 1 to TLM.CTRL sets the mark to the read position. -/
  | tlmMark (dt : Nat) (path : Path)
  /-- `TLM_REWIND` (R437). A write of 2 to TLM.CTRL returns the read position to the mark. -/
  | tlmRewind (dt : Nat) (path : Path)
  /-- `TLM_RELEASE` (R437). A write of 3 to TLM.CTRL frees the words before the read position and re-evaluates TLM_WM_L. -/
  | tlmRelease (dt : Nat) (path : Path)
  /-- `TLM_RECORD_OFFER` (R439). A record is offered to the telemetry FIFO and written, with any owed TYPE 5 record first, or refused whole. -/
  | tlmRecordOffer (dt : Nat) (type : Nat) (body : List Nat)
  /-- `TIME_SET` (R433). A write of TLM.TIME sets the telemetry time base. -/
  | timeSet (dt : Nat) (path : Path) (value : Nat)
  /-- `WATERMARK_WRITE` (R440). A write of TLM.HIGH_WM or TLM.LOW_WM is checked and TLM_WM_L is evaluated again at once. -/
  | watermarkWrite (dt : Nat) (path : Path) (high : Bool) (value : Nat)
  /-- `PRESENCE_ASSERT` (R448). PRSNT_SHORT_L is sampled asserted and the debounce timer starts or restarts. -/
  | presenceAssert (dt : Nat) (slot : Nat)
  /-- `SEATED` (R448). The debounce completes; the card is Seated, and a ramp begins when no cooldown runs and the enable is 1. -/
  | seated (dt : Nat) (slot : Nat)
  /-- `REMOVED` (R448). PRSNT_SHORT_L is sampled deasserted in 20 consecutive samples; the slot turns off and the cooldown starts. -/
  | removed (dt : Nat) (slot : Nat)
  /-- `COOLDOWN_END` (R457). The cooldown ends; the slot ramps when the card is Seated, or returns to Empty or Seating. -/
  | cooldownEnd (dt : Nat) (slot : Nat)
  /-- `RAMP_START` (R449). A slot that waits for SLOT_VIN to rise above its threshold begins its ramp. -/
  | rampStart (dt : Nat) (slot : Nat) (vin : Nat)
  /-- `GATE_ON_COMPLETE` (R450). GATE reaches SLOT_VIN + 8 V; the slot goes On and PWRGD is asserted when no fault timer runs. -/
  | gateOnComplete (dt : Nat) (slot : Nat)
  /-- `FAULT_TIMER_START` (R452). The sense voltage reaches the limit; the fault timer starts and the gate is regulated. -/
  | faultTimerStart (dt : Nat) (slot : Nat) (sense : Nat)
  /-- `FAULT_TIMER_END` (R452). The sense voltage has been below the limit for 10 samples; the timer ends without a trip and PWRGD may be asserted. -/
  | faultTimerEnd (dt : Nat) (slot : Nat) (sense : Nat)
  /-- `SLOW_TRIP` (R452). The fault timer reaches SLOT.FAULT_TIME; the slot turns off at once and is Latched. -/
  | slowTrip (dt : Nat) (slot : Nat)
  /-- `FAST_TRIP` (R452). The sense voltage reaches twice the limit; the comparator turns the slot off within 1 µs and it is Latched. -/
  | fastTrip (dt : Nat) (slot : Nat) (sense : Nat)
  /-- `SLOT_CTRL_WRITE` (R446). A write of SLOT.CTRL changes the effective enable, starting a ramp or a commanded turn-off, or leaving Latched. -/
  | slotCtrlWrite (dt : Nat) (path : Path) (slot : Nat) (value : Nat)
  /-- `COMMANDED_GATE_OFF` (R455). 100 µs after a commanded turn-off deasserted PWRGD, GATE is pulled low. -/
  | commandedGateOff (dt : Nat) (slot : Nat)
  /-- `DAMAGE_DETECT` (R456). VOUT_MON stays above 1.0 V for 10 ms with GATE not driven; DAMAGED is set and the damage source raised. -/
  | damageDetect (dt : Nat) (slot : Nat) (vout : Nat)
  /-- `DAMAGED_CLEAR` (R456). A write of 1 to DAMAGED clears it when VOUT_MON reads below 1.0 V, and is rejected otherwise. -/
  | damagedClear (dt : Nat) (path : Path) (slot : Nat) (vout : Nat)
  /-- `RESET_SLOT_TURNOFF` (R458). During a chip reset, the next driven slot is turned off after SLOT.RESET_GAP, in ascending order. -/
  | resetSlotTurnoff (dt : Nat)
  /-- `VDD_AUX_LOW` (R459). VDD_AUX falls below 2.9 V; every GATE is pulled low within 10 µs and the device loses power. -/
  | vddAuxLow (dt : Nat)
  /-- `POWER_ON_RESET_RELEASE` (R489). 2 ms after the last rail enters its window and CHIP_RST_L is deasserted, the power-on reset releases and boot begins. -/
  | powerOnResetRelease (dt : Nat) (straps : Nat) (found : PowerOn)
  /-- `CHIP_RST_L` (R461). CHIP_RST_L is sampled asserted in 100 consecutive AON samples, and a chip reset begins. -/
  | chipRstL (dt : Nat)
  /-- `CHIP_RESET` (R461). A write of 1 to RST.CHIP_RESET sends its response and begins a chip reset within 1 ms. -/
  | chipReset (dt : Nat) (path : Path)
  /-- `INTERNAL_RESET_RELEASE` (R463). After the last slot is off and CHIP_RST_L is deasserted, the internal resets release, straps are sampled and boot runs. -/
  | internalResetRelease (dt : Nat) (straps : Nat)
  /-- `IMAGE_AUTHENTICATE` (R470). The boot ROM checks the chosen image slot, falls back to the other slot, or serves nothing when both fail. -/
  | imageAuthenticate (dt : Nat) (readErrors : List Nat)
  /-- `BOOT_WATCHDOG_EXPIRY` (R470). The 5 s boot watchdog expires before Steppe is Ready; a chip reset with cause 5 boots the other slot. -/
  | bootWatchdogExpiry (dt : Nat)
  /-- `ERASE` (R473). Update command 1 starts the erase of the inactive image slot. -/
  | erase (dt : Nat) (path : Path)
  /-- `ERASE_DONE` (R473). The erase of the inactive slot completes and the update status returns to Idle. -/
  | eraseDone (dt : Nat)
  /-- `VERIFY` (R473). Update command 2 starts the checks of R469 on the inactive slot. -/
  | verify (dt : Nat) (path : Path)
  /-- `VERIFY_DONE` (R473). The verification completes as Verified or Failed with a failure code. -/
  | verifyDone (dt : Nat) (readError : Bool)
  /-- `ACTIVATE` (R473). Update command 3 writes the boot header so that the verified slot runs as a trial from the next chip reset. -/
  | activate (dt : Nat) (path : Path)
  /-- `ACTIVATE_AND_LOAD_LIVE` (R473). Update command 4 activates the verified slot and loads its Col microprogram role by role. -/
  | activateAndLoadLive (dt : Nat) (path : Path)
  /-- `UPDATE_DATA` (R473). A write of BOOT.UPDATE_DATA stores 512 bytes in the inactive slot and advances the address. -/
  | updateData (dt : Nat) (path : Path) (data : List Byte)
  /-- `SVN_ADVANCE` (R471). A write of 1 to BOOT.SVN_ADVANCE raises the fused SVN to that of the running image. -/
  | svnAdvance (dt : Nat) (path : Path)
  /-- `KEY_REVOKE` (R471). A write of k to BOOT.KEY_REVOKE burns the revocation fuse of key k. -/
  | keyRevoke (dt : Nat) (path : Path) (k : Nat)
  /-- `REQUEST_SERVICE` (R474). A write of 1 to DEV.STATE_REQ requests Service state. -/
  | requestService (dt : Nat) (path : Path)
  /-- `REQUEST_TEST` (R474). A write of 2 to DEV.STATE_REQ requests Test state. -/
  | requestTest (dt : Nat) (path : Path)
  /-- `REQUEST_RECOVERY` (R474). A write of 3 to DEV.STATE_REQ requests Recovery state. -/
  | requestRecovery (dt : Nat) (path : Path)
  /-- `REQUEST_DEPLOYED` (R476). A LIFE.REQUEST with TARGET Deployed burns the lifecycle fuse, effective at the next chip reset. -/
  | requestDeployed (dt : Nat) (path : Path) (serialCheck : Nat)
  /-- `REQUEST_FIELD_RETURN` (R477). A LIFE.REQUEST with TARGET Field-return takes the links down, erases the keys, burns the fuse and resets the chip. -/
  | requestFieldReturn (dt : Nat) (path : Path) (serialCheck : Nat)
  /-- `DEBUG_UNLOCK` (R479). A debugger returns a signature over the nonce; a good one opens the debug access port, a bad one issues a new nonce. -/
  | debugUnlock (dt : Nat) (signature : List Byte)
  /-- `DEBUG_ACCESS` (R480). The debug access port reaches a locked region; a read returns zero, a write is dropped, and the access is counted and logged. -/
  | debugAccess (dt : Nat) (region : Nat) (write : Bool)
  /-- `JTAG_INSTRUCTION` (R478). A JTAG instruction is loaded; EXTEST family instructions load as BYPASS in Deployed while in Service or Recovery. -/
  | jtagInstruction (dt : Nat) (ins : JtagIns)
  /-- `RAIL_OUT_OF_WINDOW` (R491). A rail stays outside its operating window for more than 10 µs, and RAIL is raised. -/
  | railOutOfWindow (dt : Nat) (rail : Nat) (mv : Nat)
  /-- `RAIL_COLLAPSE` (R491). A rail other than VDD_AUX stays below 85 % of nominal for 2 µs, and a chip reset with cause 0 follows. -/
  | railCollapse (dt : Nat) (rail : Nat) (mv : Nat)
  /-- `TJ_SENSOR_READ` (R493). The 24 junction sensors are read every 100 µs and the junction temperature is updated. -/
  | tjSensorRead (dt : Nat) (celsius : List Int)
  /-- `TJ_WARN` (R493). The junction has been above FLT.TJ_WARN for 1 ms, and TJ_WARN is raised. -/
  | tjWarn (dt : Nat)
  /-- `TJ_CRIT` (R493). The junction has been above 105 °C for 1 ms, and the Fatal source TJ_CRIT is raised. -/
  | tjCrit (dt : Nat)
  /-- `WEAR_MEASUREMENT` (R495). A wear monitor's scheduled measurement completes, and a monitor below threshold raises its margin source. -/
  | wearMeasurement (dt : Nat) (kind : WearKind) (monitor : Nat) (margin : Nat) (badSpares : List Nat)
  /-- `VID_STEP` (R495). At least 24 h after the last step, with the lowest Col margin below 40 %, firmware lowers the VID code by one. -/
  | vidStep (dt : Nat)
  /-- `WEAR_RECORD_SAVE` (R496). Within 1 s of a swap, remap or sparing, or once an hour, firmware saves a complete copy of the wear record. -/
  | wearRecordSave (dt : Nat)
  /-- `LIFE_ACCOUNTING` (R497). Each second firmware adds AF(T) seconds of equivalent age from the junction temperature. -/
  | lifeAccounting (dt : Nat)
  /-- `FABRIC_LINK_DOWN` (R141). The link of an edge port in the fabric role goes down; the Basin discards its queued entries and the PBR traffic through it stops. -/
  | fabricLinkDown (dt : Nat) (port : Nat)
  /-- `ATTENTION_BUTTON` (R96). ATTN_L of a downstream port is asserted and the bound vPPB takes attention-button hot-plug action. -/
  | attentionButton (dt : Nat) (port : Nat)
  /-- `DOE_REQUEST` (R119). A host sends a DOE request (discovery, CMA/SPDM or IDE key management) to the presented function, which answers as responder. -/
  | doeRequest (dt : Nat) (port : Nat) (protocol : Nat) (request : List Byte)
  /-- `COMPLETION_TIMEOUT` (R394). A Glen host read reaches the presented function's completion timeout; its bytes are written poisoned with reason HOST_ERROR. -/
  | completionTimeout (dt : Nat) (channel : Nat)
  /-- `PRESENCE_BREAK` (R448). PRSNT_SHORT_L is sampled deasserted before the card is Seated; the debounce stops and a Seating slot returns to Empty. -/
  | presenceBreak (dt : Nat) (slot : Nat)
  /-- `SLOT_VIN_LOW` (R449). SLOT_VIN falls below its falling threshold; VIN_LOW is set and ramps wait, while slots that are On stay On. -/
  | slotVinLow (dt : Nat) (vin : Nat)
  /-- `TWIN_HB_IN_EDGE` (R347). An edge arrives on TWIN_HB_IN after silence, and the pin signal is alive again. -/
  | twinHbInEdge (dt : Nat)
  /-- `ETH_LINK_DOWN` (R418). The management Ethernet lane goes down and the self-recovering ETH_LINK source is raised. -/
  | ethLinkDown (dt : Nat)
  /-- `RAIL_IN_WINDOW` (R491). A rail that was outside its operating window returns inside it; IN_WINDOW is set and RAIL stops latching again. -/
  | railInWindow (dt : Nat) (rail : Nat) (mv : Nat)
  /-- `MEADOW_PAIR_RESTARTED` (R418). A Meadow pair restarted by a block reset completes its restart, and the paused dictionary service resumes taking messages. -/
  | meadowPairRestarted (dt : Nat)
  deriving DecidableEq, Repr

end Sys2Proof
end

