-- ==== Sys2Proof/Decode.lean ====
section
/-! DEFINITION. Decoding a command word. The opcode table of this block gives no row any bits, so no word spells a
command: commands come into the queue as they are (log entry 1). -/
namespace Sys2Proof

/-- The command a word of `nbits` bits spells by the table: none, for the table gives no row bits. -/
def decodeTableWord (_nbits _w : Nat) : Option Instr := none

end Sys2Proof
end

