-- ==== Sys2Proof/Config.lean ====
section
/-! DEFINITION. What the spec leaves open: free values (no body, so that no proof can see them) and the
functions of the standards the spec refers to without giving their contents (keys, digests, signatures,
command payloads). Each has a row in notes/assumptions. -/
namespace Sys2Proof.Config

/-- A free value: the `n`-th value the spec leaves open in a run. It is applied to the counter `State.free`,
which every use advances (log entry 2). -/
opaque freeValue : Nat → Nat

/-- SHA-384 of a byte string (R468, R469), 48 bytes read as one big-endian number. The spec names the
function and not its steps (log entry 3). -/
opaque sha384 : List Byte → Nat

/-- Whether an ECDSA P-384 signature (R469, R477, R479) over a digest verifies under a public key (log entry 3). -/
opaque ecdsaOk (publicKey digest signature : List Byte) : Bool

/-- The key that R339 derives for wrapping under a pair key, and the unwrapping of a wrapped key (log entry 3). -/
opaque unwrapKey (pairKey : Nat) (wrapped : List Byte) : Nat

/-- The pair key that both twins derive from the two public keys and the two serials (R339) (log entry 3). -/
opaque pairKey (partner : List Byte) : Nat

/-- AES-256-XTS over a line's 64 bytes, as one little-endian number, under a key and a tweak (R217): encryption, and with its
inverse decryption. The spec names the cipher and not its steps; a cipher it is, so what it encrypts it decrypts again
(log entry 3). -/
opaque xts (key tweak : Nat) : Equiv.Perm (BitVec 512)

/-- What a destroyed key is overwritten with (R219), by the slot: the spec does not say (log entry 89). -/
opaque overwrittenKey (slot : Nat) : Nat

/-- The bits per 10 ns at which a lane that serves no port runs PRBS (R87; log entry 82). -/
opaque idleLaneRate (lane : Nat) : Nat

/-- The transmitter coefficients of a PCIe preset at a rate, as a number that chooses among those R81 allows: the PCIe
standard gives them (log entry 84). -/
opaque presetFfe (rate preset : Nat) : Nat

/-- How many messages the ingress FIFO of a class at an ingress port holds (R124, R134 to R136; log entry 73). -/
opaque fifoDepth (port cls : Nat) : Nat

/-- What a byte of fronted memory holds before this device has written it: the contents of a memory device behind a
downstream port, by its address in the model's memory (log entry 21). -/
opaque frontedByte : Nat → Byte

/-- The acceleration factor AF(T) of R497 in units of 2^-20, for a junction temperature in degrees C. The spec
gives its exponential form in real numbers (log entry 4). -/
opaque accelerationFactor : Int → Nat

/-- The effective junction temperature of R497 in 0.1 degrees C, from the equivalent age in 2^-20 s and the powered time
in s: the inverse of the factor above (log entry 4). -/
opaque effectiveTemp : Nat → Nat → Int

/-- Koleel's debug key, under which an unlock signature must verify (R479) (log entry 3). -/
opaque debugKey : List Byte

/-- The public key of the device identity, from the lifecycle state (R472) (log entry 3). -/
opaque identityKey : Nat → Nat

/-- `ID.OBJECT_COUNT` of an image (R36: from image): no field of the image header of R468 holds it (log entry 5). -/
opaque objectCount (imageHeader : List Byte) : Nat

/-- The payload of a DOE or MCTP control response whose contents the spec leaves to those standards (log entry 6): the
command's number, and a fresh number for each response. -/
opaque standardPayload (command fresh : Nat) : List Byte

/-- The payload of a CXL FM API response, whose layout the spec leaves to that standard (log entry 6): the opcode, and the
values of the device's that it shows. -/
opaque standardLayout (opcode : Nat) (values : List Nat) : List Byte

end Sys2Proof.Config
end

