-- ==== Sys2Proof/Machine/ObjAddr.lean ====
section
/-! DEFINITION. The addresses of the dictionary objects, one name per row of the object tables of spec/ (R11, R36):
`0xIIIISS` is index `0xIIII`, subindex `0xSS`. -/
namespace Sys2Proof.Obj

/-! Objects of 02_object_dictionary.md. -/
abbrev ID_VENDOR : Nat := 0x100001
abbrev ID_PART : Nat := 0x100002
abbrev ID_REVISION : Nat := 0x100003
abbrev ID_SERIAL : Nat := 0x100004
abbrev ID_VENDOR_PEN : Nat := 0x100005
abbrev ID_FW_VERSION : Nat := 0x100006
abbrev ID_COL_UCODE_VERSION : Nat := 0x100007
abbrev ID_DICT_VERSION : Nat := 0x100008
abbrev ID_OBJECT_COUNT : Nat := 0x100009
abbrev ID_DESC_DIGEST : Nat := 0x10000A
abbrev ID_STRAPS : Nat := 0x10000B
abbrev MGP_ETH_MODE : Nat := 0x110001
abbrev MGP_MAC : Nat := 0x110002
abbrev MGP_IP_MODE : Nat := 0x110003
abbrev MGP_IPV4_ADDR : Nat := 0x110004
abbrev MGP_IPV4_MASK : Nat := 0x110005
abbrev MGP_IPV4_GATEWAY : Nat := 0x110006
abbrev MGP_KDP_UDP_PORT : Nat := 0x110007
abbrev MGP_KDP_POLICE_RATE : Nat := 0x110008
abbrev MGP_KDP_POLICE_BURST : Nat := 0x110009
abbrev MGP_EVENT_DEST_IPV4 : Nat := 0x11000A
abbrev MGP_EVENT_DEST_PORT : Nat := 0x11000B
abbrev MGP_FM_PORTS : Nat := 0x11000C
abbrev MGP_I3C_STATIC_ADDR : Nat := 0x11000D
abbrev MGP_KDP_RX : Nat := 0x11000E
abbrev MGP_KDP_POLICED : Nat := 0x11000F
abbrev MGP_KDP_REPLAYED : Nat := 0x110010
abbrev MGP_ETH_DROPPED : Nat := 0x110011
abbrev MGP_MISDIRECTED : Nat := 0x110012
abbrev MGP_MALFORMED : Nat := 0x110013
abbrev STG_COMMIT : Nat := 0x180001
abbrev STG_DISCARD : Nat := 0x180002
abbrev STG_STATUS : Nat := 0x180003
abbrev STG_COUNT : Nat := 0x180004
abbrev STG_FAIL_ADDR : Nat := 0x180005
abbrev STG_FAIL_RESULT : Nat := 0x180006
abbrev STG_WARNINGS : Nat := 0x180007
abbrev STG_COMMIT_COUNT : Nat := 0x180008
abbrev STG_LAST_WRITER_PATH : Nat := 0x180009
abbrev STG_LAST_WRITER_PORT : Nat := 0x18000A
abbrev STG_LAST_WRITER_ADDR : Nat := 0x18000B
abbrev STG_LAST_WRITER_TIME : Nat := 0x18000C

/-! Objects of 03_lanes.md. -/
abbrev LANE_GROUP_SPLIT : Nat := 0x200001
abbrev LANE_REF_SSC : Nat := 0x200002
abbrev LANE_AUTO_SWAP : Nat := 0x200003
abbrev LANE_GROUP_STATUS : Nat := 0x200004
abbrev LANE_SWAP_CMD : Nat := 0x200005
abbrev LANE_SWAP_V_MIN : Nat := 0x200006
abbrev LANE_SWAP_H_MIN : Nat := 0x200007
abbrev LANE_SWAP_DENIED : Nat := 0x200008
abbrev LANE_RESERVE_GROUPS_USED : Nat := 0x200009
abbrev LANE_PORT_KIND : Nat := 0x200101
abbrev LANE_PORT_MAX_RATE : Nat := 0x200102
abbrev LANE_PORT_STATUS : Nat := 0x200103
abbrev LANE_PORT_TEST : Nat := 0x200104
abbrev LANE_TX_FFE : Nat := 0x201001
abbrev LANE_ADAPT_CTRL : Nat := 0x201002
abbrev LANE_RX_STATE : Nat := 0x201003
abbrev LANE_DFE_TAPS : Nat := 0x20100A
abbrev LANE_PRBS_CTRL : Nat := 0x201004
abbrev LANE_PRBS_ERRORS : Nat := 0x201005
abbrev LANE_PRBS_BITS : Nat := 0x201006
abbrev LANE_MARGIN : Nat := 0x201007
abbrev LANE_MARGIN_REQ : Nat := 0x201008
abbrev LANE_EB_ERRORS : Nat := 0x201009

/-! Objects of 04_edge_ports.md. -/
abbrev EDGE_PORT_ROLE : Nat := 0x220001
abbrev EDGE_PROTOCOLS : Nat := 0x220002
abbrev EDGE_PORT_STATE : Nat := 0x220003
abbrev EDGE_AGENT_MAP : Nat := 0x220004
abbrev EDGE_LINKDOWN_GRACE : Nat := 0x220005
abbrev EDGE_SURPRISE_DOWN : Nat := 0x220006
abbrev EDGE_AGENT_STATE : Nat := 0x220007
abbrev EDGE_PERST_EVENTS : Nat := 0x220008
abbrev EDGE_VPPB : Nat := 0x221001
abbrev EDGE_LD_USE : Nat := 0x222001
abbrev EDGE_LD_CAPACITY : Nat := 0x222002
abbrev EDGE_PBR_ID : Nat := 0x223001
abbrev EDGE_PBR_ROUTE : Nat := 0x223002
abbrev EDGE_POOL_PBR_ID : Nat := 0x223003
abbrev EDGE_PBR_DROPPED : Nat := 0x223004
abbrev EDGE_IDE_CTRL : Nat := 0x224001
abbrev EDGE_IDE_STATUS : Nat := 0x224002

/-! Objects of 05_basin.md. -/
abbrev BASIN_RESERVE : Nat := 0x240001
abbrev BASIN_SHARED_CELLS : Nat := 0x240002
abbrev BASIN_EGRESS_ALPHA : Nat := 0x240003
abbrev BASIN_PACK_EN : Nat := 0x240004
abbrev BASIN_STALL_LIMIT : Nat := 0x240005
abbrev BASIN_FREE_CELLS : Nat := 0x241001
abbrev BASIN_LOW_FREE : Nat := 0x241002
abbrev BASIN_USE : Nat := 0x241003
abbrev BASIN_SHARED_USED : Nat := 0x241004
abbrev BASIN_EGRESS_USE : Nat := 0x241005
abbrev BASIN_MCAST_ENTRIES : Nat := 0x241006
abbrev BASIN_MSGS_IN : Nat := 0x241007
abbrev BASIN_CELLS_IN : Nat := 0x241008
abbrev BASIN_ADMIT_WAIT : Nat := 0x241009
abbrev BASIN_DISCARDED : Nat := 0x24100A
abbrev BASIN_STALLS : Nat := 0x24100B
abbrev BASIN_SAMPLE_N : Nat := 0x242001
abbrev BASIN_SAMPLE_DATA : Nat := 0x242002
abbrev BASIN_SAMPLES : Nat := 0x242003
abbrev BASIN_SAMPLE_LOST : Nat := 0x242004
abbrev BASIN_ERRORS : Nat := 0x243001
abbrev BASIN_ECC_CORRECTED : Nat := 0x243002
abbrev BASIN_ECC_POISONED : Nat := 0x243003
abbrev BASIN_ECC_DROPPED : Nat := 0x243004
abbrev BASIN_PEEK_PTR : Nat := 0x243005
abbrev BASIN_PEEK_DESC : Nat := 0x243006

/-! Objects of 06_egress_scheduling.md. -/
abbrev SCHED_GROUP_PORT : Nat := 0x260001
abbrev SCHED_PORT_DEFAULT : Nat := 0x260002
abbrev SCHED_GROUP_WEIGHT : Nat := 0x260003
abbrev SCHED_CLASS_WEIGHT : Nat := 0x260004
abbrev SCHED_IO_TC_MAP : Nat := 0x260005
abbrev SCHED_MEM_TC : Nat := 0x260006
abbrev SCHED_DEVICE_TC : Nat := 0x260007
abbrev SCHED_GROUP_STATE : Nat := 0x260008
abbrev SCHED_QUEUE_SHAPER : Nat := 0x261001
abbrev SCHED_PORT_SHAPER : Nat := 0x261002
abbrev SCHED_QUEUE_TOKENS : Nat := 0x261003
abbrev SCHED_PORT_TOKENS : Nat := 0x261004
abbrev SCHED_TX_MSGS : Nat := 0x262001
abbrev SCHED_TX_BYTES : Nat := 0x262002
abbrev SCHED_SHAPED_CYCLES : Nat := 0x262003
abbrev SCHED_VTIME : Nat := 0x262004
abbrev SCHED_SAMPLE_POLICE_RATE : Nat := 0x263001
abbrev SCHED_SAMPLE_POLICE_BURST : Nat := 0x263002
abbrev SCHED_SAMPLE_POLICED : Nat := 0x263003

/-! Objects of 07_pass_links.md. -/
abbrev PASS_SWITCH_NUMBER : Nat := 0x280001
abbrev PASS_HOP_LIMIT : Nat := 0x280002
abbrev PASS_DOMAIN_TABLE : Nat := 0x280003
abbrev PASS_CONFLICT : Nat := 0x280004
abbrev PASS_ROUTE_RECOMPUTE : Nat := 0x280005
abbrev PASS_ACK_TIMER : Nat := 0x280101
abbrev PASS_REPLAY_TIMER : Nat := 0x280102
abbrev PASS_REPLAY_LIMIT : Nat := 0x280103
abbrev PASS_RX_RESERVE : Nat := 0x280104
abbrev PASS_LINK_STATE : Nat := 0x280201
abbrev PASS_TX_STATE : Nat := 0x280202
abbrev PASS_RX_STATE : Nat := 0x280203
abbrev PASS_CREDIT_STATE : Nat := 0x280204
abbrev PASS_RTT : Nat := 0x280205
abbrev PASS_ERRORS : Nat := 0x280206
abbrev PASS_ROUTE : Nat := 0x281001
abbrev PASS_ROUTE_PIN : Nat := 0x281002
abbrev PASS_NO_ROUTE_DROPS : Nat := 0x281003
abbrev PASS_HOP_DROPS : Nat := 0x281004
abbrev PASS_BAD_KIND : Nat := 0x281005
abbrev PASS_TX_DATA : Nat := 0x282001
abbrev PASS_TX_IDLE : Nat := 0x282002
abbrev PASS_TX_REPLAYED : Nat := 0x282003
abbrev PASS_RX_ACCEPTED : Nat := 0x282004
abbrev PASS_FEC_CORRECTED : Nat := 0x282005
abbrev PASS_FEC_UE : Nat := 0x282006
abbrev PASS_CRC_ERRORS : Nat := 0x282007
abbrev PASS_RX_DUPLICATES : Nat := 0x282008
abbrev PASS_RX_GAP_DISCARDS : Nat := 0x282009
abbrev PASS_REPLAYS_TIMER : Nat := 0x28200A
abbrev PASS_REPLAYS_REQ : Nat := 0x28200B
abbrev PASS_STALLED : Nat := 0x28200C
abbrev PASS_RECOVERIES : Nat := 0x28200D
abbrev PASS_DOWNS : Nat := 0x28200E
abbrev PASS_PROTOCOL_ERRORS : Nat := 0x28200F
abbrev PASS_LOST_ON_DOWN : Nat := 0x282010
abbrev PASS_TRAIN_FAILS : Nat := 0x282011
abbrev PASS_SLACK_INSERTED : Nat := 0x282012
abbrev PASS_SLACK_DELETED : Nat := 0x282013
abbrev PASS_FEC_HIST : Nat := 0x282014

/-! Objects of 08_steppe_memory.md. -/
abbrev STP_DECODE_MODE : Nat := 0x300001
abbrev STP_SCRUB_PERIOD : Nat := 0x300002
abbrev STP_CE_REWRITE : Nat := 0x300003
abbrev STP_SPARE_CE_THRESHOLD : Nat := 0x300004
abbrev STP_SPARE_AUTO : Nat := 0x300005
abbrev STP_PPR_EN : Nat := 0x300006
abbrev STP_SPARE_CMD : Nat := 0x300007
abbrev STP_SANITIZE : Nat := 0x300008
abbrev STP_XLATE_ADDR : Nat := 0x300009
abbrev STP_XLATE_RESULT : Nat := 0x30000A
abbrev STP_STATE : Nat := 0x301001
abbrev STP_SCRUB_STATUS : Nat := 0x301002
abbrev STP_SPARE_USED : Nat := 0x301003
abbrev STP_SPARE_MAX_BANK : Nat := 0x301004
abbrev STP_TEMP : Nat := 0x301005
abbrev STP_SPARE_LOG : Nat := 0x301006
abbrev STP_KEY_STATE : Nat := 0x302001
abbrev STP_KEY_FREE : Nat := 0x302002
abbrev STP_ERRORS : Nat := 0x303001
abbrev STP_CE_LINES : Nat := 0x303002
abbrev STP_CE_SYMBOLS : Nat := 0x303003
abbrev STP_UE_LINES : Nat := 0x303004
abbrev STP_MISCORRECTED : Nat := 0x303005
abbrev STP_TAG_MISMATCH : Nat := 0x303006
abbrev STP_INNER_CORRECTED : Nat := 0x303007
abbrev STP_POISON_READS : Nat := 0x303008
abbrev STP_ERASED_READS : Nat := 0x303009
abbrev STP_LAST_UE : Nat := 0x30300A

/-! Objects of 09_pool_and_guard.md. -/
abbrev TRACT_FRONT_BASE : Nat := 0x320001
abbrev TRACT_FRONT_COUNT : Nat := 0x320002
abbrev TRACT_FRONTED_TOTAL : Nat := 0x320003
abbrev TRACT_ALLOC_EXTENT : Nat := 0x321001
abbrev TRACT_ALLOC_ATTR : Nat := 0x321002
abbrev TRACT_ALLOC_STATE : Nat := 0x321003
abbrev TRACT_SHARE_SETS : Nat := 0x321004
abbrev TRACT_DECODER : Nat := 0x322001
abbrev TRACT_DECODER_STATE : Nat := 0x322002
abbrev GUARD_REGION_BASE : Nat := 0x330001
abbrev GUARD_REGION_LIMIT : Nat := 0x330002
abbrev GUARD_REGION_READ : Nat := 0x330003
abbrev GUARD_REGION_WRITE : Nat := 0x330004
abbrev GUARD_SET_VERSION : Nat := 0x330005
abbrev GUARD_DEFAULT_BASE : Nat := 0x331001
abbrev GUARD_DEFAULT_LIMIT : Nat := 0x331002
abbrev GUARD_OVERLAP_COUNT : Nat := 0x332001
abbrev GUARD_OVERLAP : Nat := 0x332002
abbrev GUARD_NOTICE_WINDOW : Nat := 0x333001
abbrev GUARD_NOTICE : Nat := 0x333002
abbrev GUARD_NOTICE_COUNT : Nat := 0x333003
abbrev GUARD_NOTICE_OVERFLOW : Nat := 0x333004
abbrev GUARD_FAILED_WRITES : Nat := 0x333005
abbrev GUARD_POISONED_READS : Nat := 0x333006
abbrev GUARD_NOTICE_IRQ : Nat := 0x333007
abbrev GUARD_TENANT_NOTICE : Nat := 0x333008
abbrev TRACT_MEM_ADDR : Nat := 0x334001
abbrev TRACT_MEM_DATA : Nat := 0x334002
abbrev TRACT_MEM_STATUS : Nat := 0x334003

/-! Objects of 10_coherence_flows.md. -/
abbrev COH_EXCL_ON_READ : Nat := 0x340001
abbrev COH_DIR_WARN_PCT : Nat := 0x340002
abbrev COH_DIR_USED : Nat := 0x340003
abbrev COH_DIR_PROXY : Nat := 0x340004
abbrev COH_DIR_EVICTIONS : Nat := 0x340005
abbrev COH_BROKEN_SET_COUNT : Nat := 0x340006
abbrev COH_BROKEN_SETS : Nat := 0x340007
abbrev COH_PEEK_KEY : Nat := 0x340008
abbrev COH_PEEK_ENTRY : Nat := 0x340009
abbrev COH_ERRORS : Nat := 0x34000A
abbrev COH_CACHE_HITS : Nat := 0x342001
abbrev COH_CACHE_MISSES : Nat := 0x342002
abbrev COH_FAST_PATH : Nat := 0x342003
abbrev COH_MICRO_PATH : Nat := 0x342004
abbrev COH_NACKS : Nat := 0x342005
abbrev COH_SNOOPS_SENT : Nat := 0x342006
abbrev COH_STALE_WRITEBACKS : Nat := 0x342007
abbrev COH_HOST_UNSUPPORTED : Nat := 0x342008
abbrev COH_NXM : Nat := 0x342009
abbrev COH_BI_CONFLICTS : Nat := 0x34200A
abbrev COH_READ_ONLY_GRANTS : Nat := 0x34200B

/-! Objects of 11_races_and_progress.md. -/
abbrev COH_AGE_THRESHOLD : Nat := 0x341001
abbrev COH_HOLD_WINDOW : Nat := 0x341002
abbrev COH_AGED_CONTEXTS : Nat := 0x341003
abbrev COH_SNOOP_TIMEOUT : Nat := 0x341004
abbrev COH_RETRY_BASE : Nat := 0x341005
abbrev COH_TXN_TIMEOUT : Nat := 0x341006
abbrev COH_SUSPECT_LIMIT : Nat := 0x341007
abbrev COH_REGIME_FORCE : Nat := 0x341008
abbrev COH_REGIME : Nat := 0x341009
abbrev COH_DOMAIN_AGENTS : Nat := 0x34100A
abbrev COH_DECLARE_DEAD : Nat := 0x34100B
abbrev COH_AGENT_SUSPECT : Nat := 0x34100C
abbrev COH_SNOOP_CONTEXTS : Nat := 0x34100D
abbrev COH_LOST_LINES : Nat := 0x343001
abbrev COH_LOST_LOG : Nat := 0x343002
abbrev COH_SNOOP_TIMEOUTS : Nat := 0x343003
abbrev COH_AGED_REQUESTS : Nat := 0x343004
abbrev COH_LATE_ANSWERS : Nat := 0x343005
abbrev COH_TXN_TIMEOUTS : Nat := 0x343006
abbrev COH_SWEEP_STATE : Nat := 0x343007
abbrev COH_DEAD_DISCARDS : Nat := 0x343008
abbrev COH_HOLD_OVERFLOW : Nat := 0x343009
abbrev COH_PROGRESS_ERRORS : Nat := 0x34300A
abbrev COH_AGED_DROPPED : Nat := 0x34300B

/-! Objects of 12_col_engines.md. -/
abbrev COL_SLICE_MAP : Nat := 0x360001
abbrev COL_EPOCH : Nat := 0x360002
abbrev COL_SLICE_BASE : Nat := 0x360003
abbrev COL_SLICE_PIN : Nat := 0x360004
abbrev COL_SLICE_STATE : Nat := 0x360005
abbrev COL_SLICE_REQS : Nat := 0x360006
abbrev COL_HASH_KEY : Nat := 0x360007
abbrev COL_HASH_RESULT : Nat := 0x360008
abbrev COL_STEAL_EN : Nat := 0x361001
abbrev COL_LOAD_WINDOW : Nat := 0x361002
abbrev COL_STEAL_IDLE_PCT : Nat := 0x361003
abbrev COL_STEAL_BUSY_PCT : Nat := 0x361004
abbrev COL_LEASE_DRAIN : Nat := 0x361005
abbrev COL_LEASE_MIN_INTERVAL : Nat := 0x361006
abbrev COL_LEASE_HOLDOFF : Nat := 0x361007
abbrev COL_RETURN_AFTER : Nat := 0x361008
abbrev COL_MIN_SLICES : Nat := 0x361009
abbrev COL_MAX_SLICES : Nat := 0x36100A
abbrev COL_LEASES_PER_WINDOW : Nat := 0x36100B
abbrev COL_BG_CONTEXTS : Nat := 0x36100C
abbrev COL_ENGINE_STATE : Nat := 0x362001
abbrev COL_LOAD : Nat := 0x362002
abbrev COL_DEQUE_DEPTH : Nat := 0x362003
abbrev COL_PHYS_STATE : Nat := 0x362004
abbrev COL_SPARE_CMD : Nat := 0x362005
abbrev COL_SPARES_LEFT : Nat := 0x362006
abbrev COL_SPARE_CE_THRESHOLD : Nat := 0x362007
abbrev COL_UCODE_PROGRESS : Nat := 0x362008
abbrev COL_LEASES : Nat := 0x363001
abbrev COL_LEASE_ABANDONED : Nat := 0x363002
abbrev COL_MOVED_NACKS : Nat := 0x363003
abbrev COL_EPOCH_ERRORS : Nat := 0x363004
abbrev COL_STEALS : Nat := 0x363005
abbrev COL_ERRORS : Nat := 0x363006

/-! Objects of 13_twin_pairs.md. -/
abbrev TWIN_ENABLE : Nat := 0x380001
abbrev TWIN_PARTNER_SERIAL : Nat := 0x380002
abbrev TWIN_STATE : Nat := 0x380003
abbrev TWIN_PARTNER_SWITCH : Nat := 0x380004
abbrev TWIN_CLEAN_AFTER : Nat := 0x380005
abbrev TWIN_LOG_FLUSH : Nat := 0x380006
abbrev TWIN_DECLARE_LOST : Nat := 0x380007
abbrev TWIN_ALIAS_END : Nat := 0x380008
abbrev TWIN_RESYNC_RATE : Nat := 0x380009
abbrev TWIN_CHECK_FAIL : Nat := 0x38000A
abbrev TWIN_ERRORS : Nat := 0x381001
abbrev TWIN_MIRROR_SENT : Nat := 0x381002
abbrev TWIN_LOG_SENT : Nat := 0x381003
abbrev TWIN_LOG_APPLIED : Nat := 0x381004
abbrev TWIN_MIRROR_DISCARDS : Nat := 0x381005
abbrev TWIN_HB_MISSED : Nat := 0x381006
abbrev TWIN_TAKEOVERS : Nat := 0x381007
abbrev TWIN_TAKEOVER_TIME : Nat := 0x381008
abbrev TWIN_UNITS_LEFT : Nat := 0x381009
abbrev TWIN_RESYNC_PROGRESS : Nat := 0x38100A
abbrev TWIN_UNITS_DIRTY : Nat := 0x38100B
abbrev TWIN_UNPAIRED : Nat := 0x38100C

/-! Objects of 14_tenancies_and_mailboxes.md. -/
abbrev TEN_CTRL : Nat := 0x400001
abbrev TEN_STATE : Nat := 0x400002
abbrev TEN_PORT_BIND : Nat := 0x400003
abbrev TEN_PBR_BIND : Nat := 0x400004
abbrev TEN_RESET : Nat := 0x400005
abbrev TEN_RESETS : Nat := 0x400006
abbrev TEN_STALE_GEN : Nat := 0x400007
abbrev TEN_ABANDONED : Nat := 0x400008
abbrev TEN_RESET_CAUSE : Nat := 0x400009
abbrev TEN_DLOG_RANGE : Nat := 0x401001
abbrev TEN_DLOG_MAP : Nat := 0x401002
abbrev TEN_DLOG_STATE : Nat := 0x401003
abbrev TEN_DLOG_TAKE_ADDR : Nat := 0x401004
abbrev TEN_DLOG_TAKE : Nat := 0x401005
abbrev TEN_DLOG_DROPPED : Nat := 0x401006
abbrev TEN_DLOG_BUFFER : Nat := 0x401007
abbrev MBX_IN_DATA : Nat := 0x440001
abbrev MBX_IN_SEND : Nat := 0x440002
abbrev MBX_OUT_DATA : Nat := 0x440003
abbrev MBX_OUT_TAKE : Nat := 0x440004
abbrev MBX_STATE : Nat := 0x440005
abbrev MBX_OUT_MASK : Nat := 0x440006
abbrev MBX_SUMMARY : Nat := 0x440007
abbrev MBX_REJECTED : Nat := 0x440008
abbrev MBX_STALE : Nat := 0x440009
abbrev MBX_FM_STATE : Nat := 0x44000A

/-! Objects of 15_glen_movers.md. -/
abbrev GLEN_CHAN_CFG : Nat := 0x420001
abbrev GLEN_CHAN_RATE : Nat := 0x420002
abbrev GLEN_CHAN_STATUS : Nat := 0x420003
abbrev GLEN_CHAN_POINTER : Nat := 0x420004
abbrev GLEN_CHAN_CMD : Nat := 0x420005
abbrev GLEN_BYTES : Nat := 0x421001
abbrev GLEN_DESCRIPTORS : Nat := 0x421002
abbrev GLEN_FAULTS : Nat := 0x421003
abbrev GLEN_ENGINE_LOAD : Nat := 0x421004
abbrev GLEN_ERRORS : Nat := 0x422001

/-! Objects of 16_fault_collection.md. -/
abbrev FLT_STATUS : Nat := 0x500001
abbrev FLT_SEVERITY_MAX : Nat := 0x500002
abbrev FLT_OUT_CTRL : Nat := 0x500003
abbrev FLT_QUIET_PERIOD : Nat := 0x500004
abbrev FLT_ESCALATE_AT : Nat := 0x500005
abbrev FLT_TJ_WARN : Nat := 0x500006
abbrev FLT_SOURCE_STATUS : Nat := 0x500101
abbrev FLT_FORCE : Nat := 0x500102
abbrev FLT_SOURCE_CFG : Nat := 0x501001
abbrev FLT_RECOVERIES : Nat := 0x501002
abbrev FLT_RAISED : Nat := 0x501003
abbrev FLT_LOG : Nat := 0x502001
abbrev FLT_SAVED_LOG : Nat := 0x502002
abbrev FLT_REPLACE : Nat := 0x503001

/-! Objects of 17_counters_and_telemetry.md. -/
abbrev STAT_INTERVAL : Nat := 0x520001
abbrev STAT_INTERVAL_SEQ : Nat := 0x520002
abbrev STAT_DUMP_EN : Nat := 0x520003
abbrev STAT_DUMP_SLOT_SIZE : Nat := 0x520004
abbrev STAT_DUMP_SLOTS : Nat := 0x520005
abbrev STAT_DUMP_LAST : Nat := 0x520006
abbrev STAT_DUMP_ADDR : Nat := 0x520007
abbrev STAT_DUMP_DATA : Nat := 0x520008
abbrev STAT_DUMP_MERGED : Nat := 0x520009
abbrev STAT_CYCLES : Nat := 0x521001
abbrev STAT_PROG_SELECT : Nat := 0x521002
abbrev STAT_PROG_COUNT : Nat := 0x521003
abbrev TLM_READ : Nat := 0x522001
abbrev TLM_CTRL : Nat := 0x522002
abbrev TLM_STATE : Nat := 0x522003
abbrev TLM_HIGH_WM : Nat := 0x522004
abbrev TLM_LOW_WM : Nat := 0x522005
abbrev TLM_REFUSED : Nat := 0x522006
abbrev TLM_TIME : Nat := 0x522007
abbrev TLM_EVENT_EN : Nat := 0x522008

/-! Objects of 18_slot_power.md. -/
abbrev SLOT_CTRL : Nat := 0x540001
abbrev SLOT_PORT : Nat := 0x540002
abbrev SLOT_ILIMIT : Nat := 0x540003
abbrev SLOT_FAULT_TIME : Nat := 0x540004
abbrev SLOT_RAMP : Nat := 0x540005
abbrev SLOT_DEBOUNCE : Nat := 0x540006
abbrev SLOT_COOLDOWN : Nat := 0x540007
abbrev SLOT_RESET_GAP : Nat := 0x540008
abbrev SLOT_STATUS : Nat := 0x541001
abbrev SLOT_VOUT : Nat := 0x541002
abbrev SLOT_SENSE : Nat := 0x541003
abbrev SLOT_VIN : Nat := 0x541004
abbrev SLOT_TRIPS : Nat := 0x542001
abbrev SLOT_REINSERTIONS : Nat := 0x542002
abbrev SLOT_POWER_ONS : Nat := 0x542003

/-! Objects of 19_reset_boot_lifecycle.md. -/
abbrev RST_CHIP_RESET : Nat := 0x580001
abbrev BOOT_NEXT_IMAGE : Nat := 0x580002
abbrev RST_CAUSE : Nat := 0x580003
abbrev RST_COUNT : Nat := 0x580004
abbrev DEV_STATE : Nat := 0x581001
abbrev DEV_STATE_REQ : Nat := 0x581002
abbrev DEV_HOLD : Nat := 0x581003
abbrev DEV_AUTO_RECOVERY : Nat := 0x581004
abbrev DEV_STATE_CHANGES : Nat := 0x581005
abbrev BOOT_STATUS : Nat := 0x582001
abbrev BOOT_ACTIVE : Nat := 0x582002
abbrev BOOT_SLOT_VERSION : Nat := 0x582003
abbrev BOOT_UPDATE_ADDR : Nat := 0x582004
abbrev BOOT_UPDATE_DATA : Nat := 0x582005
abbrev BOOT_UPDATE_CMD : Nat := 0x582006
abbrev BOOT_UPDATE_STATUS : Nat := 0x582007
abbrev BOOT_SVN_FUSE : Nat := 0x582008
abbrev BOOT_SVN_ADVANCE : Nat := 0x582009
abbrev BOOT_ID_PUBKEY : Nat := 0x58200A
abbrev BOOT_KEY_REVOKE : Nat := 0x58200B
abbrev BOOT_KEY_REVOKED : Nat := 0x58200C
abbrev LIFE_STATE : Nat := 0x583001
abbrev LIFE_REQUEST : Nat := 0x583002
abbrev DBG_UNLOCK_EN : Nat := 0x584001
abbrev DBG_STATUS : Nat := 0x584002
abbrev DBG_REFUSED : Nat := 0x584003
abbrev DBG_REFUSED_LOG : Nat := 0x584004

/-! Objects of 20_package_power_life.md. -/
abbrev PKG_TJ : Nat := 0x600001
abbrev PKG_TJ_MAX : Nat := 0x600002
abbrev PKG_TJ_PEAK : Nat := 0x600003
abbrev PKG_RAIL_MV : Nat := 0x600004
abbrev PKG_RAIL_STATE : Nat := 0x600005
abbrev PKG_POWER_EST : Nat := 0x600006
abbrev PKG_COL_VID : Nat := 0x600007
abbrev WEAR_MARGIN_LANE : Nat := 0x601001
abbrev WEAR_MARGIN_COL : Nat := 0x601002
abbrev WEAR_MARGIN_STEPPE : Nat := 0x601003
abbrev WEAR_MARGIN_PACKAGE : Nat := 0x601004
abbrev WEAR_THRESHOLD : Nat := 0x601005
abbrev WEAR_STATE : Nat := 0x601006
abbrev WEAR_POWER_ON_HOURS : Nat := 0x602001
abbrev WEAR_EQUIV_HOURS : Nat := 0x602002
abbrev WEAR_LIFE_USED : Nat := 0x602003
abbrev WEAR_TEMP_HIST : Nat := 0x602004
abbrev WEAR_THERMAL_CYCLES : Nat := 0x602005
abbrev WEAR_T_EFFECTIVE : Nat := 0x602006

end Sys2Proof.Obj
end

