-- ==== Sys2Proof/Machine/ObjTable.lean ====
section
/-! DEFINITION. The object tables of spec/ as data: one row per dictionary object (R12, R34, R38, R40, R45). -/
namespace Sys2Proof

/-- A row of an object table. `ty` is the type code of R38 of one value or element, `size` its bytes, `count` the
elements of a TABLE (0 for no TABLE), `acc` the access bits of R45 (1 M r, 2 M w, 4 O r, 8 O rec, 16 T r, 32 T w),
`onCommit` the Effect column, `spans` the inclusive ranges a written value must lie in (none: any), `rw`, `w1c`
and `wo` the bits of those access codes (R8), and `dflt` the default. -/
structure ObjDef where
  addr     : Nat
  ty       : Nat
  size     : Nat
  count    : Nat
  acc      : Nat
  onCommit : Bool
  spans    : List (Nat × Nat)
  rw       : Nat
  w1c      : Nat
  wo       : Nat
  dflt     : Nat
  deriving DecidableEq, Repr

namespace Machine

/-- Objects of indices 0x1000 to 0x10FF, part 1. -/
def objs10a : List ObjDef := [
  ⟨Obj.ID_VENDOR, 12, 16, 0, 21, false, [], 0, 0, 0, 0x6c65656c6f4b⟩,
  ⟨Obj.ID_PART, 12, 16, 0, 21, false, [], 0, 0, 0, 0x3239312d303034364256⟩,
  ⟨Obj.ID_REVISION, 12, 4, 0, 21, false, [], 0, 0, 0, 0x3142⟩,
  ⟨Obj.ID_SERIAL, 11, 16, 0, 21, false, [], 0, 0, 0, 0⟩,
  ⟨Obj.ID_VENDOR_PEN, 4, 4, 0, 5, false, [], 0, 0, 0, 0⟩,
  ⟨Obj.ID_FW_VERSION, 8, 4, 0, 21, false, [], 0, 0, 0, 0⟩,
  ⟨Obj.ID_COL_UCODE_VERSION, 8, 4, 0, 5, false, [], 0, 0, 0, 0⟩,
  ⟨Obj.ID_DICT_VERSION, 3, 2, 0, 21, false, [], 0, 0, 0, 1⟩,
  ⟨Obj.ID_OBJECT_COUNT, 3, 2, 0, 5, false, [], 0, 0, 0, 0⟩,
  ⟨Obj.ID_DESC_DIGEST, 11, 48, 0, 5, false, [], 0, 0, 0, 0⟩,
  ⟨Obj.ID_STRAPS, 8, 4, 0, 5, false, [], 0, 0, 0, 0⟩]

/-- Objects of indices 0x1100 to 0x11FF, part 1. -/
def objs11a : List ObjDef := [
  ⟨Obj.MGP_ETH_MODE, 10, 1, 0, 11, true, [(0, 0), (1, 1), (2, 2)], 0xff, 0, 0, 2⟩,
  ⟨Obj.MGP_MAC, 11, 6, 0, 5, false, [], 0, 0, 0, 0⟩,
  ⟨Obj.MGP_IP_MODE, 10, 1, 0, 11, true, [(0, 0), (1, 1)], 0xff, 0, 0, 1⟩,
  ⟨Obj.MGP_IPV4_ADDR, 4, 4, 0, 11, true, [], 0xffffffff, 0, 0, 0⟩,
  ⟨Obj.MGP_IPV4_MASK, 4, 4, 0, 11, true, [], 0xffffffff, 0, 0, 0xffffff00⟩,
  ⟨Obj.MGP_IPV4_GATEWAY, 4, 4, 0, 11, true, [], 0xffffffff, 0, 0, 0⟩,
  ⟨Obj.MGP_KDP_UDP_PORT, 3, 2, 0, 5, false, [], 0, 0, 0, 0xb8c4⟩,
  ⟨Obj.MGP_KDP_POLICE_RATE, 4, 4, 0, 7, false, [(1000, 100000)], 0xffffffff, 0, 0, 0x4e20⟩,
  ⟨Obj.MGP_KDP_POLICE_BURST, 3, 2, 0, 7, false, [(1, 1024)], 0xffff, 0, 0, 0x40⟩,
  ⟨Obj.MGP_EVENT_DEST_IPV4, 4, 4, 0, 7, false, [], 0xffffffff, 0, 0, 0⟩,
  ⟨Obj.MGP_EVENT_DEST_PORT, 3, 2, 0, 7, false, [(1, 65535)], 0xffff, 0, 0, 0xb8c5⟩,
  ⟨Obj.MGP_FM_PORTS, 9, 8, 0, 7, true, [], 0xffffffffffffffff, 0, 0, 0⟩,
  ⟨Obj.MGP_I3C_STATIC_ADDR, 2, 1, 0, 7, true, [(8, 119)], 0xff, 0, 0, 0x70⟩,
  ⟨Obj.MGP_KDP_RX, 5, 8, 0, 7, false, [], 0, 0x8000000000000000, 0, 0⟩,
  ⟨Obj.MGP_KDP_POLICED, 5, 8, 0, 7, false, [], 0, 0x8000000000000000, 0, 0⟩,
  ⟨Obj.MGP_KDP_REPLAYED, 5, 8, 0, 7, false, [], 0, 0x8000000000000000, 0, 0⟩,
  ⟨Obj.MGP_ETH_DROPPED, 5, 8, 0, 7, false, [], 0, 0x8000000000000000, 0, 0⟩,
  ⟨Obj.MGP_MISDIRECTED, 5, 8, 0, 7, false, [], 0, 0x8000000000000000, 0, 0⟩,
  ⟨Obj.MGP_MALFORMED, 5, 8, 0, 7, false, [], 0, 0x8000000000000000, 0, 0⟩]

/-- Objects of indices 0x1800 to 0x18FF, part 1. -/
def objs18a : List ObjDef := [
  ⟨Obj.STG_COMMIT, 2, 1, 0, 2, false, [(1, 1)], 0xff, 0, 0, 0⟩,
  ⟨Obj.STG_DISCARD, 2, 1, 0, 2, false, [(1, 1)], 0xff, 0, 0, 0⟩,
  ⟨Obj.STG_STATUS, 10, 1, 0, 5, false, [], 0, 0, 0, 0⟩,
  ⟨Obj.STG_COUNT, 3, 2, 0, 5, false, [], 0, 0, 0, 0⟩,
  ⟨Obj.STG_FAIL_ADDR, 9, 8, 0, 5, false, [], 0, 0, 0, 0⟩,
  ⟨Obj.STG_FAIL_RESULT, 2, 1, 0, 5, false, [], 0, 0, 0, 0⟩,
  ⟨Obj.STG_WARNINGS, 3, 2, 0, 5, false, [], 0, 0, 0, 0⟩,
  ⟨Obj.STG_COMMIT_COUNT, 4, 4, 0, 5, false, [], 0, 0, 0, 0⟩,
  ⟨Obj.STG_LAST_WRITER_PATH, 10, 1, 0, 5, false, [], 0, 0, 0, 4⟩,
  ⟨Obj.STG_LAST_WRITER_PORT, 2, 1, 0, 5, false, [], 0, 0, 0, 0⟩,
  ⟨Obj.STG_LAST_WRITER_ADDR, 9, 8, 0, 5, false, [], 0, 0, 0, 0⟩,
  ⟨Obj.STG_LAST_WRITER_TIME, 5, 8, 0, 5, false, [], 0, 0, 0, 0⟩]

/-- Objects of indices 0x2000 to 0x20FF, part 1. -/
def objs20a : List ObjDef := [
  ⟨Obj.LANE_GROUP_SPLIT, 10, 1, 16, 7, true, [(0, 0), (1, 1), (2, 2), (3, 3)], 0xff, 0, 0, 0⟩,
  ⟨Obj.LANE_REF_SSC, 1, 1, 16, 7, true, [(0, 1)], 0xff, 0, 0, 0⟩,
  ⟨Obj.LANE_AUTO_SWAP, 1, 1, 16, 7, false, [(0, 1)], 0xff, 0, 0, 1⟩,
  ⟨Obj.LANE_GROUP_STATUS, 8, 4, 16, 5, false, [], 0, 0, 0, 0⟩,
  ⟨Obj.LANE_SWAP_CMD, 8, 4, 16, 2, false, [], 0, 0, 0xffffffff, 0⟩,
  ⟨Obj.LANE_SWAP_V_MIN, 2, 1, 0, 7, false, [(0, 127)], 0xff, 0, 0, 0xc⟩,
  ⟨Obj.LANE_SWAP_H_MIN, 2, 1, 0, 7, false, [(0, 32)], 0xff, 0, 0, 6⟩,
  ⟨Obj.LANE_SWAP_DENIED, 5, 8, 16, 7, false, [], 0, 0x8000000000000000, 0, 0⟩,
  ⟨Obj.LANE_RESERVE_GROUPS_USED, 2, 1, 0, 5, false, [], 0, 0, 0, 0⟩,
  ⟨Obj.LANE_PORT_KIND, 10, 1, 64, 7, true, [(0, 0), (1, 1), (2, 2), (3, 3)], 0xff, 0, 0, 0⟩,
  ⟨Obj.LANE_PORT_MAX_RATE, 10, 1, 64, 7, true, [(0, 0), (1, 1), (2, 2), (3, 3), (4, 4), (5, 5), (6, 6)], 0xff, 0, 0, 5⟩,
  ⟨Obj.LANE_PORT_STATUS, 8, 4, 64, 5, false, [], 0, 0, 0, 0⟩,
  ⟨Obj.LANE_PORT_TEST, 1, 1, 64, 7, false, [(0, 1)], 0xff, 0, 0, 0⟩,
  ⟨Obj.LANE_TX_FFE, 8, 4, 272, 7, false, [], 0x8003ffff, 0, 0, 0⟩,
  ⟨Obj.LANE_ADAPT_CTRL, 8, 4, 272, 7, false, [], 6, 0, 1, 0⟩,
  ⟨Obj.LANE_RX_STATE, 8, 4, 272, 5, false, [], 0, 0, 0, 0⟩,
  ⟨Obj.LANE_DFE_TAPS, 11, 12, 272, 5, false, [], 0, 0, 0, 0⟩,
  ⟨Obj.LANE_PRBS_CTRL, 8, 4, 272, 7, false, [], 0x1f3, 0x4000, 4, 0⟩,
  ⟨Obj.LANE_PRBS_ERRORS, 9, 8, 272, 7, false, [], 0, 0x8000000000000000, 0, 0⟩,
  ⟨Obj.LANE_PRBS_BITS, 5, 8, 272, 7, false, [], 0, 0x8000000000000000, 0, 0⟩,
  ⟨Obj.LANE_MARGIN, 8, 4, 272, 5, false, [], 0, 0, 0, 0⟩,
  ⟨Obj.LANE_MARGIN_REQ, 10, 1, 272, 2, false, [(0, 0), (1, 1), (2, 2)], 0xff, 0, 0, 0⟩,
  ⟨Obj.LANE_EB_ERRORS, 5, 8, 272, 7, false, [], 0, 0x8000000000000000, 0, 0⟩]

/-- Objects of indices 0x2200 to 0x22FF, part 1. -/
def objs22a : List ObjDef := [
  ⟨Obj.EDGE_PORT_ROLE, 10, 1, 64, 7, true, [(0, 0), (1, 1), (2, 2)], 0xff, 0, 0, 0⟩,
  ⟨Obj.EDGE_PROTOCOLS, 8, 4, 64, 7, true, [], 0x7f, 0, 0, 0x3f⟩,
  ⟨Obj.EDGE_PORT_STATE, 8, 4, 64, 5, false, [], 0, 0, 0, 0⟩,
  ⟨Obj.EDGE_AGENT_MAP, 8, 4, 64, 7, true, [], 0xc03f0fff, 0, 0, 0⟩,
  ⟨Obj.EDGE_LINKDOWN_GRACE, 4, 4, 0, 7, false, [(0, 1000000)], 0xffffffff, 0, 0, 0x2710⟩,
  ⟨Obj.EDGE_SURPRISE_DOWN, 5, 8, 64, 7, false, [], 0, 0x8000000000000000, 0, 0⟩,
  ⟨Obj.EDGE_AGENT_STATE, 10, 1, 64, 5, false, [], 0, 0, 0, 0⟩,
  ⟨Obj.EDGE_PERST_EVENTS, 5, 8, 64, 7, false, [], 0, 0x8000000000000000, 0, 0⟩,
  ⟨Obj.EDGE_VPPB, 8, 4, 4096, 7, true, [], 0x300003ff, 0, 0, 0⟩,
  ⟨Obj.EDGE_LD_USE, 10, 1, 1024, 7, true, [(0, 0), (1, 1), (2, 2)], 0xff, 0, 0, 0⟩,
  ⟨Obj.EDGE_LD_CAPACITY, 5, 8, 1024, 5, false, [], 0, 0, 0, 0⟩,
  ⟨Obj.EDGE_PBR_ID, 3, 2, 64, 7, true, [(0, 4095), (65535, 65535)], 0xffff, 0, 0, 0xffff⟩,
  ⟨Obj.EDGE_PBR_ROUTE, 2, 1, 4096, 7, true, [(0, 63), (255, 255)], 0xff, 0, 0, 0xff⟩,
  ⟨Obj.EDGE_POOL_PBR_ID, 3, 2, 0, 7, true, [(0, 4095), (65535, 65535)], 0xffff, 0, 0, 0xffff⟩,
  ⟨Obj.EDGE_PBR_DROPPED, 5, 8, 64, 7, false, [], 0, 0x8000000000000000, 0, 0⟩,
  ⟨Obj.EDGE_IDE_CTRL, 8, 4, 64, 7, false, [], 7, 0, 8, 0⟩,
  ⟨Obj.EDGE_IDE_STATUS, 8, 4, 64, 5, false, [], 0, 0, 0, 0⟩]

/-- Objects of indices 0x2400 to 0x24FF, part 1. -/
def objs24a : List ObjDef := [
  ⟨Obj.BASIN_RESERVE, 3, 2, 216, 7, true, [(0, 16384)], 0xffff, 0, 0, 0⟩,
  ⟨Obj.BASIN_SHARED_CELLS, 4, 4, 0, 5, false, [], 0, 0, 0, 0x39c00⟩,
  ⟨Obj.BASIN_EGRESS_ALPHA, 10, 1, 72, 7, false, [(0, 9)], 0xff, 0, 0, 6⟩,
  ⟨Obj.BASIN_PACK_EN, 1, 1, 72, 7, false, [(0, 1)], 0xff, 0, 0, 1⟩,
  ⟨Obj.BASIN_STALL_LIMIT, 4, 4, 0, 7, false, [(100, 1000000)], 0xffffffff, 0, 0, 0x2710⟩,
  ⟨Obj.BASIN_FREE_CELLS, 4, 4, 0, 5, false, [], 0, 0, 0, 0x40000⟩,
  ⟨Obj.BASIN_LOW_FREE, 4, 4, 0, 7, false, [], 0xffffffff, 0, 0, 0x40000⟩,
  ⟨Obj.BASIN_USE, 4, 4, 216, 5, false, [], 0, 0, 0, 0⟩,
  ⟨Obj.BASIN_SHARED_USED, 4, 4, 0, 5, false, [], 0, 0, 0, 0⟩,
  ⟨Obj.BASIN_EGRESS_USE, 4, 4, 72, 5, false, [], 0, 0, 0, 0⟩,
  ⟨Obj.BASIN_MCAST_ENTRIES, 4, 4, 0, 5, false, [], 0, 0, 0, 0⟩,
  ⟨Obj.BASIN_MSGS_IN, 5, 8, 72, 7, false, [], 0, 0x8000000000000000, 0, 0⟩,
  ⟨Obj.BASIN_CELLS_IN, 5, 8, 72, 7, false, [], 0, 0x8000000000000000, 0, 0⟩,
  ⟨Obj.BASIN_ADMIT_WAIT, 5, 8, 216, 7, false, [], 0, 0x8000000000000000, 0, 0⟩,
  ⟨Obj.BASIN_DISCARDED, 5, 8, 72, 7, false, [], 0, 0x8000000000000000, 0, 0⟩,
  ⟨Obj.BASIN_STALLS, 5, 8, 72, 7, false, [], 0, 0x8000000000000000, 0, 0⟩,
  ⟨Obj.BASIN_SAMPLE_N, 3, 2, 72, 7, false, [(0, 0), (1, 65535)], 0xffff, 0, 0, 0⟩,
  ⟨Obj.BASIN_SAMPLE_DATA, 1, 1, 0, 7, false, [(0, 1)], 0xff, 0, 0, 0⟩,
  ⟨Obj.BASIN_SAMPLES, 5, 8, 0, 7, false, [], 0, 0x8000000000000000, 0, 0⟩,
  ⟨Obj.BASIN_SAMPLE_LOST, 5, 8, 0, 7, false, [], 0, 0x8000000000000000, 0, 0⟩,
  ⟨Obj.BASIN_ERRORS, 8, 4, 0, 7, false, [], 0, 0x10f, 0, 0⟩,
  ⟨Obj.BASIN_ECC_CORRECTED, 5, 8, 0, 7, false, [], 0, 0x8000000000000000, 0, 0⟩,
  ⟨Obj.BASIN_ECC_POISONED, 5, 8, 0, 7, false, [], 0, 0x8000000000000000, 0, 0⟩,
  ⟨Obj.BASIN_ECC_DROPPED, 5, 8, 0, 7, false, [], 0, 0x8000000000000000, 0, 0⟩]

/-- Objects of indices 0x2400 to 0x24FF, part 2. -/
def objs24b : List ObjDef := [
  ⟨Obj.BASIN_PEEK_PTR, 4, 4, 0, 7, false, [(0, 262143)], 0xffffffff, 0, 0, 0⟩,
  ⟨Obj.BASIN_PEEK_DESC, 9, 8, 0, 5, false, [], 0, 0, 0, 0⟩]

/-- Objects of indices 0x2600 to 0x26FF, part 1. -/
def objs26a : List ObjDef := [
  ⟨Obj.SCHED_GROUP_PORT, 2, 1, 4096, 7, true, [(0, 71), (255, 255)], 0xff, 0, 0, 0⟩,
  ⟨Obj.SCHED_PORT_DEFAULT, 3, 2, 72, 7, true, [(0, 4095)], 0xffff, 0, 0, 0⟩,
  ⟨Obj.SCHED_GROUP_WEIGHT, 3, 2, 4096, 7, false, [(1, 65535)], 0xffff, 0, 0, 0x100⟩,
  ⟨Obj.SCHED_CLASS_WEIGHT, 3, 2, 32768, 7, false, [(1, 65535)], 0xffff, 0, 0, 0x100⟩,
  ⟨Obj.SCHED_IO_TC_MAP, 8, 4, 64, 7, true, [], 0x77777777, 0, 0, 0x66543210⟩,
  ⟨Obj.SCHED_MEM_TC, 2, 1, 4096, 7, true, [(0, 6)], 0xff, 0, 0, 3⟩,
  ⟨Obj.SCHED_DEVICE_TC, 2, 1, 3, 7, true, [(0, 6)], 0xff, 0, 0, 0⟩,
  ⟨Obj.SCHED_GROUP_STATE, 8, 4, 4096, 5, false, [], 0, 0, 0, 0⟩,
  ⟨Obj.SCHED_QUEUE_SHAPER, 9, 8, 32768, 7, false, [], 0xc003fffff001ffff, 0, 0, 0x4000000000000000⟩,
  ⟨Obj.SCHED_PORT_SHAPER, 9, 8, 64, 7, false, [], 0xc003fffff001ffff, 0, 0, 0x4000000000000000⟩,
  ⟨Obj.SCHED_QUEUE_TOKENS, 7, 4, 32768, 5, false, [], 0, 0, 0, 0⟩,
  ⟨Obj.SCHED_PORT_TOKENS, 7, 4, 64, 5, false, [], 0, 0, 0, 0⟩,
  ⟨Obj.SCHED_TX_MSGS, 5, 8, 32768, 7, false, [], 0, 0x8000000000000000, 0, 0⟩,
  ⟨Obj.SCHED_TX_BYTES, 5, 8, 32768, 7, false, [], 0, 0x8000000000000000, 0, 0⟩,
  ⟨Obj.SCHED_SHAPED_CYCLES, 5, 8, 64, 7, false, [], 0, 0x8000000000000000, 0, 0⟩,
  ⟨Obj.SCHED_VTIME, 5, 8, 72, 5, false, [], 0, 0, 0, 0⟩,
  ⟨Obj.SCHED_SAMPLE_POLICE_RATE, 4, 4, 0, 7, false, [(1000, 10000000)], 0xffffffff, 0, 0, 0xf4240⟩,
  ⟨Obj.SCHED_SAMPLE_POLICE_BURST, 3, 2, 0, 7, false, [(1, 65535)], 0xffff, 0, 0, 0x1000⟩,
  ⟨Obj.SCHED_SAMPLE_POLICED, 5, 8, 0, 7, false, [], 0, 0x8000000000000000, 0, 0⟩]

/-- Objects of indices 0x2800 to 0x28FF, part 1. -/
def objs28a : List ObjDef := [
  ⟨Obj.PASS_SWITCH_NUMBER, 2, 1, 0, 7, true, [(0, 15), (255, 255)], 0xff, 0, 0, 0xff⟩,
  ⟨Obj.PASS_HOP_LIMIT, 2, 1, 0, 7, true, [(1, 15)], 0xff, 0, 0, 3⟩,
  ⟨Obj.PASS_DOMAIN_TABLE, 11, 16, 16, 5, false, [], 0, 0, 0, 0⟩,
  ⟨Obj.PASS_CONFLICT, 8, 4, 0, 7, false, [], 0, 0x80000000, 0, 0⟩,
  ⟨Obj.PASS_ROUTE_RECOMPUTE, 2, 1, 0, 2, false, [(1, 1)], 0xff, 0, 0, 0⟩,
  ⟨Obj.PASS_ACK_TIMER, 3, 2, 64, 7, false, [(20, 2000)], 0xffff, 0, 0, 0xc8⟩,
  ⟨Obj.PASS_REPLAY_TIMER, 4, 4, 64, 7, false, [(500, 100000)], 0xffffffff, 0, 0, 0x7d0⟩,
  ⟨Obj.PASS_REPLAY_LIMIT, 2, 1, 64, 7, false, [(2, 64)], 0xff, 0, 0, 8⟩,
  ⟨Obj.PASS_RX_RESERVE, 3, 2, 128, 7, true, [(16, 496)], 0xffff, 0, 0, 0x40⟩,
  ⟨Obj.PASS_LINK_STATE, 8, 4, 64, 5, false, [], 0, 0, 0, 0⟩,
  ⟨Obj.PASS_TX_STATE, 9, 8, 64, 5, false, [], 0, 0, 0, 0⟩,
  ⟨Obj.PASS_RX_STATE, 8, 4, 64, 5, false, [], 0, 0, 0, 0⟩,
  ⟨Obj.PASS_CREDIT_STATE, 8, 4, 128, 5, false, [], 0, 0, 0, 0⟩,
  ⟨Obj.PASS_RTT, 4, 4, 64, 5, false, [], 0, 0, 0, 0⟩,
  ⟨Obj.PASS_ERRORS, 8, 4, 64, 7, false, [], 0, 0xff, 0, 0⟩,
  ⟨Obj.PASS_ROUTE, 8, 4, 16, 5, false, [], 0, 0, 0, 0⟩,
  ⟨Obj.PASS_ROUTE_PIN, 2, 1, 16, 7, true, [(0, 63), (255, 255)], 0xff, 0, 0, 0xff⟩,
  ⟨Obj.PASS_NO_ROUTE_DROPS, 5, 8, 0, 7, false, [], 0, 0x8000000000000000, 0, 0⟩,
  ⟨Obj.PASS_HOP_DROPS, 5, 8, 0, 7, false, [], 0, 0x8000000000000000, 0, 0⟩,
  ⟨Obj.PASS_BAD_KIND, 5, 8, 0, 7, false, [], 0, 0x8000000000000000, 0, 0⟩,
  ⟨Obj.PASS_TX_DATA, 5, 8, 64, 7, false, [], 0, 0x8000000000000000, 0, 0⟩,
  ⟨Obj.PASS_TX_IDLE, 5, 8, 64, 7, false, [], 0, 0x8000000000000000, 0, 0⟩,
  ⟨Obj.PASS_TX_REPLAYED, 5, 8, 64, 7, false, [], 0, 0x8000000000000000, 0, 0⟩,
  ⟨Obj.PASS_RX_ACCEPTED, 5, 8, 64, 7, false, [], 0, 0x8000000000000000, 0, 0⟩]

/-- Objects of indices 0x2800 to 0x28FF, part 2. -/
def objs28b : List ObjDef := [
  ⟨Obj.PASS_FEC_CORRECTED, 5, 8, 64, 7, false, [], 0, 0x8000000000000000, 0, 0⟩,
  ⟨Obj.PASS_FEC_UE, 5, 8, 64, 7, false, [], 0, 0x8000000000000000, 0, 0⟩,
  ⟨Obj.PASS_CRC_ERRORS, 5, 8, 64, 7, false, [], 0, 0x8000000000000000, 0, 0⟩,
  ⟨Obj.PASS_RX_DUPLICATES, 5, 8, 64, 7, false, [], 0, 0x8000000000000000, 0, 0⟩,
  ⟨Obj.PASS_RX_GAP_DISCARDS, 5, 8, 64, 7, false, [], 0, 0x8000000000000000, 0, 0⟩,
  ⟨Obj.PASS_REPLAYS_TIMER, 5, 8, 64, 7, false, [], 0, 0x8000000000000000, 0, 0⟩,
  ⟨Obj.PASS_REPLAYS_REQ, 5, 8, 64, 7, false, [], 0, 0x8000000000000000, 0, 0⟩,
  ⟨Obj.PASS_STALLED, 5, 8, 64, 7, false, [], 0, 0x8000000000000000, 0, 0⟩,
  ⟨Obj.PASS_RECOVERIES, 5, 8, 64, 7, false, [], 0, 0x8000000000000000, 0, 0⟩,
  ⟨Obj.PASS_DOWNS, 5, 8, 64, 7, false, [], 0, 0x8000000000000000, 0, 0⟩,
  ⟨Obj.PASS_PROTOCOL_ERRORS, 5, 8, 64, 7, false, [], 0, 0x8000000000000000, 0, 0⟩,
  ⟨Obj.PASS_LOST_ON_DOWN, 5, 8, 64, 7, false, [], 0, 0x8000000000000000, 0, 0⟩,
  ⟨Obj.PASS_TRAIN_FAILS, 5, 8, 64, 7, false, [], 0, 0x8000000000000000, 0, 0⟩,
  ⟨Obj.PASS_SLACK_INSERTED, 5, 8, 64, 7, false, [], 0, 0x8000000000000000, 0, 0⟩,
  ⟨Obj.PASS_SLACK_DELETED, 5, 8, 64, 7, false, [], 0, 0x8000000000000000, 0, 0⟩,
  ⟨Obj.PASS_FEC_HIST, 5, 8, 320, 7, false, [], 0, 0x8000000000000000, 0, 0⟩]

/-- Objects of indices 0x3000 to 0x30FF, part 1. -/
def objs30a : List ObjDef := [
  ⟨Obj.STP_DECODE_MODE, 10, 1, 0, 7, true, [(0, 0), (1, 1)], 0xff, 0, 0, 0⟩,
  ⟨Obj.STP_SCRUB_PERIOD, 3, 2, 0, 7, false, [(1, 168)], 0xffff, 0, 0, 0x18⟩,
  ⟨Obj.STP_CE_REWRITE, 2, 1, 0, 7, false, [(1, 6)], 0xff, 0, 0, 1⟩,
  ⟨Obj.STP_SPARE_CE_THRESHOLD, 3, 2, 0, 7, false, [(2, 1024)], 0xffff, 0, 0, 0x10⟩,
  ⟨Obj.STP_SPARE_AUTO, 1, 1, 0, 7, false, [(0, 1)], 0xff, 0, 0, 1⟩,
  ⟨Obj.STP_PPR_EN, 1, 1, 0, 7, true, [(0, 1)], 0xff, 0, 0, 1⟩,
  ⟨Obj.STP_SPARE_CMD, 8, 4, 0, 2, false, [], 0, 0, 0xffffffff, 0⟩,
  ⟨Obj.STP_SANITIZE, 2, 1, 0, 2, false, [(1, 1)], 0xff, 0, 0, 0⟩,
  ⟨Obj.STP_XLATE_ADDR, 5, 8, 0, 7, false, [], 0xffffffffffffffff, 0, 0, 0⟩,
  ⟨Obj.STP_XLATE_RESULT, 9, 8, 0, 5, false, [], 0, 0, 0, 0⟩,
  ⟨Obj.STP_STATE, 10, 1, 0, 5, false, [], 0, 0, 0, 0⟩,
  ⟨Obj.STP_SCRUB_STATUS, 9, 8, 0, 5, false, [], 0, 0, 0, 0⟩,
  ⟨Obj.STP_SPARE_USED, 3, 2, 2048, 5, false, [], 0, 0, 0, 0⟩,
  ⟨Obj.STP_SPARE_MAX_BANK, 3, 2, 0, 5, false, [], 0, 0, 0, 0⟩,
  ⟨Obj.STP_TEMP, 6, 2, 4, 5, false, [], 0, 0, 0, 0⟩,
  ⟨Obj.STP_SPARE_LOG, 9, 8, 64, 5, false, [], 0, 0, 0, 0⟩,
  ⟨Obj.STP_KEY_STATE, 10, 1, 4096, 5, false, [], 0, 0, 0, 0⟩,
  ⟨Obj.STP_KEY_FREE, 3, 2, 0, 5, false, [], 0, 0, 0, 0xffd⟩,
  ⟨Obj.STP_ERRORS, 8, 4, 0, 7, false, [], 0, 0x37f, 0, 0⟩,
  ⟨Obj.STP_CE_LINES, 5, 8, 128, 7, false, [], 0, 0x8000000000000000, 0, 0⟩,
  ⟨Obj.STP_CE_SYMBOLS, 5, 8, 128, 7, false, [], 0, 0x8000000000000000, 0, 0⟩,
  ⟨Obj.STP_UE_LINES, 5, 8, 128, 7, false, [], 0, 0x8000000000000000, 0, 0⟩,
  ⟨Obj.STP_MISCORRECTED, 5, 8, 128, 7, false, [], 0, 0x8000000000000000, 0, 0⟩,
  ⟨Obj.STP_TAG_MISMATCH, 5, 8, 0, 7, false, [], 0, 0x8000000000000000, 0, 0⟩]

/-- Objects of indices 0x3000 to 0x30FF, part 2. -/
def objs30b : List ObjDef := [
  ⟨Obj.STP_INNER_CORRECTED, 5, 8, 128, 7, false, [], 0, 0x8000000000000000, 0, 0⟩,
  ⟨Obj.STP_POISON_READS, 5, 8, 0, 7, false, [], 0, 0x8000000000000000, 0, 0⟩,
  ⟨Obj.STP_ERASED_READS, 5, 8, 0, 7, false, [], 0, 0x8000000000000000, 0, 0⟩,
  ⟨Obj.STP_LAST_UE, 4, 4, 0, 5, false, [], 0, 0, 0, 0⟩]

/-- Objects of indices 0x3200 to 0x32FF, part 1. -/
def objs32a : List ObjDef := [
  ⟨Obj.TRACT_FRONT_BASE, 4, 4, 1024, 7, true, [(0, 262143), (4294967295, 4294967295)], 0xffffffff, 0, 0, 0xffffffff⟩,
  ⟨Obj.TRACT_FRONT_COUNT, 4, 4, 1024, 5, false, [], 0, 0, 0, 0⟩,
  ⟨Obj.TRACT_FRONTED_TOTAL, 4, 4, 0, 5, false, [], 0, 0, 0, 0⟩,
  ⟨Obj.TRACT_ALLOC_EXTENT, 9, 8, 4096, 7, true, [], 0x87ffff00000fffff, 0, 0, 0⟩,
  ⟨Obj.TRACT_ALLOC_ATTR, 9, 8, 4096, 7, true, [], 0xfc00000000000fff, 0, 0x200000000000000, 0⟩,
  ⟨Obj.TRACT_ALLOC_STATE, 8, 4, 4096, 5, false, [], 0, 0, 0, 0⟩,
  ⟨Obj.TRACT_SHARE_SETS, 9, 8, 4096, 23, true, [], 0xffffffffffffffff, 0, 0, 0⟩,
  ⟨Obj.TRACT_DECODER, 9, 8, 512, 7, true, [], 0x8f07ffff000fffff, 0, 0, 0⟩,
  ⟨Obj.TRACT_DECODER_STATE, 8, 4, 512, 5, false, [], 0, 0, 0, 0⟩]

/-- Objects of indices 0x3300 to 0x33FF, part 1. -/
def objs33a : List ObjDef := [
  ⟨Obj.GUARD_REGION_BASE, 9, 8, 65536, 7, true, [], 0x8f00000fffffffff, 0, 0, 0⟩,
  ⟨Obj.GUARD_REGION_LIMIT, 9, 8, 65536, 7, true, [], 0x3cfffffffff, 0, 0, 0⟩,
  ⟨Obj.GUARD_REGION_READ, 9, 8, 65536, 7, true, [], 0xffffffffffffffff, 0, 0, 0⟩,
  ⟨Obj.GUARD_REGION_WRITE, 9, 8, 65536, 7, true, [], 0xffffffffffffffff, 0, 0, 0⟩,
  ⟨Obj.GUARD_SET_VERSION, 3, 2, 4096, 21, false, [], 0, 0, 0, 0⟩,
  ⟨Obj.GUARD_DEFAULT_BASE, 9, 8, 16, 7, true, [], 0x8f00000fffffffff, 0, 0, 0⟩,
  ⟨Obj.GUARD_DEFAULT_LIMIT, 9, 8, 16, 7, true, [], 0x3cfffffffff, 0, 0, 0⟩,
  ⟨Obj.GUARD_OVERLAP_COUNT, 3, 2, 0, 5, false, [], 0, 0, 0, 0⟩,
  ⟨Obj.GUARD_OVERLAP, 8, 4, 64, 5, false, [], 0, 0, 0, 0⟩,
  ⟨Obj.GUARD_NOTICE_WINDOW, 4, 4, 0, 7, false, [(10, 1000000)], 0xffffffff, 0, 0, 0x3e8⟩,
  ⟨Obj.GUARD_NOTICE, 11, 32, 256, 5, false, [], 0, 0, 0, 0⟩,
  ⟨Obj.GUARD_NOTICE_COUNT, 5, 8, 0, 7, false, [], 0, 0x8000000000000000, 0, 0⟩,
  ⟨Obj.GUARD_NOTICE_OVERFLOW, 5, 8, 0, 7, false, [], 0, 0x8000000000000000, 0, 0⟩,
  ⟨Obj.GUARD_FAILED_WRITES, 5, 8, 4096, 23, false, [], 0, 0x8000000000000000, 0, 0⟩,
  ⟨Obj.GUARD_POISONED_READS, 5, 8, 4096, 23, false, [], 0, 0x8000000000000000, 0, 0⟩,
  ⟨Obj.GUARD_NOTICE_IRQ, 1, 1, 4096, 7, false, [(0, 1)], 0xff, 0, 0, 0⟩,
  ⟨Obj.GUARD_TENANT_NOTICE, 11, 32, 4096, 21, false, [], 0, 0, 0, 0⟩,
  ⟨Obj.TRACT_MEM_ADDR, 5, 8, 0, 3, false, [], 0xffffffffffffffff, 0, 0, 0⟩,
  ⟨Obj.TRACT_MEM_DATA, 11, 64, 0, 3, false, [], 0xffffffffffffffffffffffffffffffffffffffffffffffffffffffffffffffffffffffffffffffffffffffffffffffffffffffffffffffffffffffffffffffff, 0, 0, 0⟩,
  ⟨Obj.TRACT_MEM_STATUS, 8, 4, 0, 1, false, [], 0, 0, 0, 0⟩]

/-- Objects of indices 0x3400 to 0x34FF, part 1. -/
def objs34a : List ObjDef := [
  ⟨Obj.COH_EXCL_ON_READ, 1, 1, 0, 7, false, [(0, 1)], 0xff, 0, 0, 1⟩,
  ⟨Obj.COH_DIR_WARN_PCT, 2, 1, 0, 7, false, [(50, 99)], 0xff, 0, 0, 0x5a⟩,
  ⟨Obj.COH_DIR_USED, 5, 8, 0, 5, false, [], 0, 0, 0, 0⟩,
  ⟨Obj.COH_DIR_PROXY, 5, 8, 0, 5, false, [], 0, 0, 0, 0⟩,
  ⟨Obj.COH_DIR_EVICTIONS, 5, 8, 0, 7, false, [], 0, 0x8000000000000000, 0, 0⟩,
  ⟨Obj.COH_BROKEN_SET_COUNT, 3, 2, 0, 5, false, [], 0, 0, 0, 0⟩,
  ⟨Obj.COH_BROKEN_SETS, 4, 4, 256, 5, false, [], 0, 0, 0, 0xffffffff⟩,
  ⟨Obj.COH_PEEK_KEY, 5, 8, 0, 7, false, [], 0x1fffffffffff, 0, 0, 0⟩,
  ⟨Obj.COH_PEEK_ENTRY, 11, 16, 0, 5, false, [], 0, 0, 0, 0⟩,
  ⟨Obj.COH_ERRORS, 8, 4, 0, 7, false, [], 0, 0xf, 0, 0⟩,
  ⟨Obj.COH_CACHE_HITS, 5, 8, 256, 7, false, [], 0, 0x8000000000000000, 0, 0⟩,
  ⟨Obj.COH_CACHE_MISSES, 5, 8, 256, 7, false, [], 0, 0x8000000000000000, 0, 0⟩,
  ⟨Obj.COH_FAST_PATH, 5, 8, 256, 7, false, [], 0, 0x8000000000000000, 0, 0⟩,
  ⟨Obj.COH_MICRO_PATH, 5, 8, 256, 7, false, [], 0, 0x8000000000000000, 0, 0⟩,
  ⟨Obj.COH_NACKS, 5, 8, 16, 7, false, [], 0, 0x8000000000000000, 0, 0⟩,
  ⟨Obj.COH_SNOOPS_SENT, 5, 8, 3, 7, false, [], 0, 0x8000000000000000, 0, 0⟩,
  ⟨Obj.COH_STALE_WRITEBACKS, 5, 8, 0, 7, false, [], 0, 0x8000000000000000, 0, 0⟩,
  ⟨Obj.COH_HOST_UNSUPPORTED, 5, 8, 0, 7, false, [], 0, 0x8000000000000000, 0, 0⟩,
  ⟨Obj.COH_NXM, 5, 8, 0, 7, false, [], 0, 0x8000000000000000, 0, 0⟩,
  ⟨Obj.COH_BI_CONFLICTS, 5, 8, 0, 7, false, [], 0, 0x8000000000000000, 0, 0⟩,
  ⟨Obj.COH_READ_ONLY_GRANTS, 5, 8, 0, 7, false, [], 0, 0x8000000000000000, 0, 0⟩,
  ⟨Obj.COH_AGE_THRESHOLD, 2, 1, 0, 7, false, [(1, 64)], 0xff, 0, 0, 8⟩,
  ⟨Obj.COH_HOLD_WINDOW, 3, 2, 0, 7, false, [(0, 2000)], 0xffff, 0, 0, 0xc8⟩,
  ⟨Obj.COH_AGED_CONTEXTS, 2, 1, 0, 7, true, [(1, 4)], 0xff, 0, 0, 2⟩]

/-- Objects of indices 0x3400 to 0x34FF, part 2. -/
def objs34b : List ObjDef := [
  ⟨Obj.COH_SNOOP_TIMEOUT, 4, 4, 0, 7, false, [(10, 100000)], 0xffffffff, 0, 0, 0x64⟩,
  ⟨Obj.COH_RETRY_BASE, 3, 2, 0, 7, false, [(10, 1000)], 0xffff, 0, 0, 0x28⟩,
  ⟨Obj.COH_TXN_TIMEOUT, 3, 2, 0, 7, false, [(5, 2000)], 0xffff, 0, 0, 0x64⟩,
  ⟨Obj.COH_SUSPECT_LIMIT, 3, 2, 0, 7, false, [(1, 1000)], 0xffff, 0, 0, 0x14⟩,
  ⟨Obj.COH_REGIME_FORCE, 10, 1, 0, 7, true, [(0, 0), (1, 1)], 0xff, 0, 0, 0⟩,
  ⟨Obj.COH_REGIME, 10, 1, 0, 5, false, [], 0, 0, 0, 0⟩,
  ⟨Obj.COH_DOMAIN_AGENTS, 2, 1, 0, 5, false, [], 0, 0, 0, 0⟩,
  ⟨Obj.COH_DECLARE_DEAD, 2, 1, 0, 2, false, [(0, 63)], 0xff, 0, 0, 0⟩,
  ⟨Obj.COH_AGENT_SUSPECT, 9, 8, 0, 7, false, [], 0, 0xffffffffffffffff, 0, 0⟩,
  ⟨Obj.COH_SNOOP_CONTEXTS, 2, 1, 0, 7, true, [(1, 4)], 0xff, 0, 0, 2⟩,
  ⟨Obj.COH_LOST_LINES, 5, 8, 0, 7, false, [], 0, 0x8000000000000000, 0, 0⟩,
  ⟨Obj.COH_LOST_LOG, 9, 8, 64, 5, false, [], 0, 0, 0, 0⟩,
  ⟨Obj.COH_SNOOP_TIMEOUTS, 5, 8, 0, 7, false, [], 0, 0x8000000000000000, 0, 0⟩,
  ⟨Obj.COH_AGED_REQUESTS, 5, 8, 0, 7, false, [], 0, 0x8000000000000000, 0, 0⟩,
  ⟨Obj.COH_LATE_ANSWERS, 5, 8, 0, 7, false, [], 0, 0x8000000000000000, 0, 0⟩,
  ⟨Obj.COH_TXN_TIMEOUTS, 5, 8, 0, 7, false, [], 0, 0x8000000000000000, 0, 0⟩,
  ⟨Obj.COH_SWEEP_STATE, 8, 4, 64, 5, false, [], 0, 0, 0, 0⟩,
  ⟨Obj.COH_DEAD_DISCARDS, 5, 8, 0, 7, false, [], 0, 0x8000000000000000, 0, 0⟩,
  ⟨Obj.COH_HOLD_OVERFLOW, 5, 8, 0, 7, false, [], 0, 0x8000000000000000, 0, 0⟩,
  ⟨Obj.COH_PROGRESS_ERRORS, 8, 4, 0, 7, false, [], 0, 0x3f, 0, 0⟩,
  ⟨Obj.COH_AGED_DROPPED, 5, 8, 0, 7, false, [], 0, 0x8000000000000000, 0, 0⟩]

/-- Objects of indices 0x3600 to 0x36FF, part 1. -/
def objs36a : List ObjDef := [
  ⟨Obj.COL_SLICE_MAP, 2, 1, 4096, 5, false, [], 0, 0, 0, 0⟩,
  ⟨Obj.COL_EPOCH, 3, 2, 0, 5, false, [], 0, 0, 0, 0⟩,
  ⟨Obj.COL_SLICE_BASE, 2, 1, 4096, 7, true, [(0, 255)], 0xff, 0, 0, 0⟩,
  ⟨Obj.COL_SLICE_PIN, 1, 1, 4096, 7, false, [(0, 1)], 0xff, 0, 0, 0⟩,
  ⟨Obj.COL_SLICE_STATE, 8, 4, 4096, 5, false, [], 0, 0, 0, 0⟩,
  ⟨Obj.COL_SLICE_REQS, 4, 4, 4096, 5, false, [], 0, 0, 0, 0⟩,
  ⟨Obj.COL_HASH_KEY, 5, 8, 0, 7, false, [], 0x1fffffffffff, 0, 0, 0⟩,
  ⟨Obj.COL_HASH_RESULT, 9, 8, 0, 5, false, [], 0, 0, 0, 0⟩,
  ⟨Obj.COL_STEAL_EN, 1, 1, 0, 7, false, [(0, 1)], 0xff, 0, 0, 1⟩,
  ⟨Obj.COL_LOAD_WINDOW, 3, 2, 0, 7, false, [(1, 1000)], 0xffff, 0, 0, 0xa⟩,
  ⟨Obj.COL_STEAL_IDLE_PCT, 2, 1, 0, 7, false, [(0, 50)], 0xff, 0, 0, 0xa⟩,
  ⟨Obj.COL_STEAL_BUSY_PCT, 2, 1, 0, 7, false, [(20, 100)], 0xff, 0, 0, 0x3c⟩,
  ⟨Obj.COL_LEASE_DRAIN, 3, 2, 0, 7, false, [(1, 100)], 0xffff, 0, 0, 0xa⟩,
  ⟨Obj.COL_LEASE_MIN_INTERVAL, 3, 2, 0, 7, false, [(1, 10000)], 0xffff, 0, 0, 0xa⟩,
  ⟨Obj.COL_LEASE_HOLDOFF, 3, 2, 0, 7, false, [(0, 1000)], 0xffff, 0, 0, 1⟩,
  ⟨Obj.COL_RETURN_AFTER, 3, 2, 0, 7, false, [(0, 10000)], 0xffff, 0, 0, 0x64⟩,
  ⟨Obj.COL_MIN_SLICES, 2, 1, 0, 7, true, [(1, 16)], 0xff, 0, 0, 4⟩,
  ⟨Obj.COL_MAX_SLICES, 2, 1, 0, 7, true, [(16, 255)], 0xff, 0, 0, 0x40⟩,
  ⟨Obj.COL_LEASES_PER_WINDOW, 2, 1, 0, 7, false, [(1, 64)], 0xff, 0, 0, 8⟩,
  ⟨Obj.COL_BG_CONTEXTS, 2, 1, 0, 7, true, [(0, 4)], 0xff, 0, 0, 2⟩,
  ⟨Obj.COL_ENGINE_STATE, 8, 4, 256, 5, false, [], 0, 0, 0, 0⟩,
  ⟨Obj.COL_LOAD, 2, 1, 256, 5, false, [], 0, 0, 0, 0⟩,
  ⟨Obj.COL_DEQUE_DEPTH, 4, 4, 256, 5, false, [], 0, 0, 0, 0⟩,
  ⟨Obj.COL_PHYS_STATE, 8, 4, 272, 5, false, [], 0, 0, 0, 0⟩]

/-- Objects of indices 0x3600 to 0x36FF, part 2. -/
def objs36b : List ObjDef := [
  ⟨Obj.COL_SPARE_CMD, 2, 1, 0, 2, false, [(0, 255)], 0xff, 0, 0, 0⟩,
  ⟨Obj.COL_SPARES_LEFT, 2, 1, 0, 5, false, [], 0, 0, 0, 0x10⟩,
  ⟨Obj.COL_SPARE_CE_THRESHOLD, 3, 2, 0, 7, false, [(1, 1000)], 0xffff, 0, 0, 0x20⟩,
  ⟨Obj.COL_UCODE_PROGRESS, 3, 2, 0, 5, false, [], 0, 0, 0, 0⟩,
  ⟨Obj.COL_LEASES, 5, 8, 0, 7, false, [], 0, 0x8000000000000000, 0, 0⟩,
  ⟨Obj.COL_LEASE_ABANDONED, 5, 8, 0, 7, false, [], 0, 0x8000000000000000, 0, 0⟩,
  ⟨Obj.COL_MOVED_NACKS, 5, 8, 0, 7, false, [], 0, 0x8000000000000000, 0, 0⟩,
  ⟨Obj.COL_EPOCH_ERRORS, 5, 8, 0, 7, false, [], 0, 0x8000000000000000, 0, 0⟩,
  ⟨Obj.COL_STEALS, 5, 8, 0, 7, false, [], 0, 0x8000000000000000, 0, 0⟩,
  ⟨Obj.COL_ERRORS, 8, 4, 0, 7, false, [], 0, 0x2f, 0, 0⟩]

/-- Objects of indices 0x3800 to 0x38FF, part 1. -/
def objs38a : List ObjDef := [
  ⟨Obj.TWIN_ENABLE, 1, 1, 0, 7, true, [(0, 1)], 0xff, 0, 0, 0⟩,
  ⟨Obj.TWIN_PARTNER_SERIAL, 11, 16, 0, 7, true, [], 0xffffffffffffffffffffffffffffffff, 0, 0, 0⟩,
  ⟨Obj.TWIN_STATE, 8, 4, 0, 5, false, [], 0, 0, 0, 0⟩,
  ⟨Obj.TWIN_PARTNER_SWITCH, 2, 1, 0, 5, false, [], 0, 0, 0, 0xff⟩,
  ⟨Obj.TWIN_CLEAN_AFTER, 3, 2, 0, 7, false, [(10, 10000)], 0xffff, 0, 0, 0x64⟩,
  ⟨Obj.TWIN_LOG_FLUSH, 3, 2, 0, 7, false, [(20, 1000)], 0xffff, 0, 0, 0x64⟩,
  ⟨Obj.TWIN_DECLARE_LOST, 2, 1, 0, 2, false, [(1, 1)], 0xff, 0, 0, 0⟩,
  ⟨Obj.TWIN_ALIAS_END, 2, 1, 0, 2, false, [(1, 1)], 0xff, 0, 0, 0⟩,
  ⟨Obj.TWIN_RESYNC_RATE, 3, 2, 0, 7, false, [(10, 400)], 0xffff, 0, 0, 0x64⟩,
  ⟨Obj.TWIN_CHECK_FAIL, 10, 1, 0, 5, false, [], 0, 0, 0, 0⟩,
  ⟨Obj.TWIN_ERRORS, 8, 4, 0, 7, false, [], 0, 0x39, 0, 0⟩,
  ⟨Obj.TWIN_MIRROR_SENT, 5, 8, 0, 7, false, [], 0, 0x8000000000000000, 0, 0⟩,
  ⟨Obj.TWIN_LOG_SENT, 5, 8, 0, 7, false, [], 0, 0x8000000000000000, 0, 0⟩,
  ⟨Obj.TWIN_LOG_APPLIED, 5, 8, 0, 7, false, [], 0, 0x8000000000000000, 0, 0⟩,
  ⟨Obj.TWIN_MIRROR_DISCARDS, 5, 8, 0, 7, false, [], 0, 0x8000000000000000, 0, 0⟩,
  ⟨Obj.TWIN_HB_MISSED, 5, 8, 0, 7, false, [], 0, 0x8000000000000000, 0, 0⟩,
  ⟨Obj.TWIN_TAKEOVERS, 5, 8, 0, 7, false, [], 0, 0x8000000000000000, 0, 0⟩,
  ⟨Obj.TWIN_TAKEOVER_TIME, 4, 4, 0, 5, false, [], 0, 0, 0, 0⟩,
  ⟨Obj.TWIN_UNITS_LEFT, 4, 4, 0, 5, false, [], 0, 0, 0, 0⟩,
  ⟨Obj.TWIN_RESYNC_PROGRESS, 2, 1, 0, 5, false, [], 0, 0, 0, 0⟩,
  ⟨Obj.TWIN_UNITS_DIRTY, 4, 4, 0, 5, false, [], 0, 0, 0, 0⟩,
  ⟨Obj.TWIN_UNPAIRED, 4, 4, 64, 5, false, [], 0, 0, 0, 0xffffffff⟩]

/-- Objects of indices 0x4000 to 0x40FF, part 1. -/
def objs40a : List ObjDef := [
  ⟨Obj.TEN_CTRL, 8, 4, 4096, 7, true, [], 0xc000007f, 0, 0, 0x7f⟩,
  ⟨Obj.TEN_STATE, 8, 4, 4096, 21, false, [], 0, 0, 0, 0⟩,
  ⟨Obj.TEN_PORT_BIND, 3, 2, 64, 7, true, [(0, 4095), (65535, 65535)], 0xffff, 0, 0, 0xffff⟩,
  ⟨Obj.TEN_PBR_BIND, 3, 2, 64, 7, true, [(0, 4095), (65535, 65535)], 0xffff, 0, 0, 0xffff⟩,
  ⟨Obj.TEN_RESET, 3, 2, 0, 2, false, [(0, 4095)], 0xffff, 0, 0, 0⟩,
  ⟨Obj.TEN_RESETS, 5, 8, 4096, 23, false, [], 0, 0x8000000000000000, 0, 0⟩,
  ⟨Obj.TEN_STALE_GEN, 5, 8, 4096, 23, false, [], 0, 0x8000000000000000, 0, 0⟩,
  ⟨Obj.TEN_ABANDONED, 5, 8, 4096, 23, false, [], 0, 0x8000000000000000, 0, 0⟩,
  ⟨Obj.TEN_RESET_CAUSE, 10, 1, 4096, 21, false, [], 0, 0, 0, 0⟩,
  ⟨Obj.TEN_DLOG_RANGE, 9, 8, 32768, 7, true, [], 0xe00fffffffffffff, 0, 0, 0⟩,
  ⟨Obj.TEN_DLOG_MAP, 9, 8, 32768, 7, true, [], 0xffffffff07ffffff, 0, 0, 0⟩,
  ⟨Obj.TEN_DLOG_STATE, 8, 4, 4096, 7, false, [], 0, 0x80000000, 0, 0⟩,
  ⟨Obj.TEN_DLOG_TAKE_ADDR, 9, 8, 0, 3, false, [], 0x7fff007fffff, 0, 0, 0⟩,
  ⟨Obj.TEN_DLOG_TAKE, 11, 64, 0, 1, false, [], 0, 0, 0, 0⟩,
  ⟨Obj.TEN_DLOG_DROPPED, 5, 8, 4096, 7, false, [], 0, 0x8000000000000000, 0, 0⟩,
  ⟨Obj.TEN_DLOG_BUFFER, 4, 4, 0, 5, false, [], 0, 0, 0, 0⟩]

/-- Objects of indices 0x4200 to 0x42FF, part 1. -/
def objs42a : List ObjDef := [
  ⟨Obj.GLEN_CHAN_CFG, 8, 4, 4096, 7, true, [], 0x7f07, 0, 0, 0x7f02⟩,
  ⟨Obj.GLEN_CHAN_RATE, 9, 8, 4096, 7, false, [], 0xc003fffff001ffff, 0, 0, 0x4000000000000000⟩,
  ⟨Obj.GLEN_CHAN_STATUS, 8, 4, 4096, 21, false, [], 0, 0, 0, 0⟩,
  ⟨Obj.GLEN_CHAN_POINTER, 9, 8, 4096, 21, false, [], 0, 0, 0, 2⟩,
  ⟨Obj.GLEN_CHAN_CMD, 2, 1, 4096, 2, false, [(1, 1)], 0xff, 0, 0, 0⟩,
  ⟨Obj.GLEN_BYTES, 5, 8, 4096, 23, false, [], 0, 0x8000000000000000, 0, 0⟩,
  ⟨Obj.GLEN_DESCRIPTORS, 5, 8, 4096, 23, false, [], 0, 0x8000000000000000, 0, 0⟩,
  ⟨Obj.GLEN_FAULTS, 5, 8, 4096, 23, false, [], 0, 0x8000000000000000, 0, 0⟩,
  ⟨Obj.GLEN_ENGINE_LOAD, 2, 1, 64, 5, false, [], 0, 0, 0, 0⟩,
  ⟨Obj.GLEN_ERRORS, 8, 4, 0, 7, false, [], 0, 0xf, 0, 0⟩]

/-- Objects of indices 0x4400 to 0x44FF, part 1. -/
def objs44a : List ObjDef := [
  ⟨Obj.MBX_IN_DATA, 11, 256, 4096, 3, false, [], 0xffffffffffffffffffffffffffffffffffffffffffffffffffffffffffffffffffffffffffffffffffffffffffffffffffffffffffffffffffffffffffffffffffffffffffffffffffffffffffffffffffffffffffffffffffffffffffffffffffffffffffffffffffffffffffffffffffffffffffffffffffffffffffffffffffffffffffffffffffffffffffffffffffffffffffffffffffffffffffffffffffffffffffffffffffffffffffffffffffffffffffffffffffffffffffffffffffffffffffffffffffffffffffffffffffffffffffffffffffffffffffffffffffffffffffffffffffffffffffffffffffffffffffffffffffffffffffffffff, 0, 0, 0⟩,
  ⟨Obj.MBX_IN_SEND, 9, 8, 4096, 2, false, [], 0, 0, 0xffffffffffffffff, 0⟩,
  ⟨Obj.MBX_OUT_DATA, 11, 256, 4096, 1, false, [], 0, 0, 0, 0⟩,
  ⟨Obj.MBX_OUT_TAKE, 2, 1, 4096, 2, false, [(1, 1)], 0xff, 0, 0, 0⟩,
  ⟨Obj.MBX_STATE, 9, 8, 4096, 5, false, [], 0, 0, 0, 0⟩,
  ⟨Obj.MBX_OUT_MASK, 8, 4, 4096, 7, false, [], 0xffffffff, 0, 0, 0⟩,
  ⟨Obj.MBX_SUMMARY, 9, 8, 128, 7, false, [], 0xffffffffffffffff, 0, 0, 0⟩,
  ⟨Obj.MBX_REJECTED, 5, 8, 4096, 23, false, [], 0, 0x8000000000000000, 0, 0⟩,
  ⟨Obj.MBX_STALE, 5, 8, 4096, 23, false, [], 0, 0x8000000000000000, 0, 0⟩,
  ⟨Obj.MBX_FM_STATE, 9, 8, 0, 5, false, [], 0, 0, 0, 0⟩]

/-- Objects of indices 0x5000 to 0x50FF, part 1. -/
def objs50a : List ObjDef := [
  ⟨Obj.FLT_STATUS, 9, 8, 0, 5, false, [], 0, 0, 0, 0⟩,
  ⟨Obj.FLT_SEVERITY_MAX, 10, 1, 0, 5, false, [], 0, 0, 0, 0xff⟩,
  ⟨Obj.FLT_OUT_CTRL, 8, 4, 0, 7, false, [], 1, 0, 0, 0⟩,
  ⟨Obj.FLT_QUIET_PERIOD, 4, 4, 64, 7, false, [(1, 3600000)], 0xffffffff, 0, 0, 0x3e8⟩,
  ⟨Obj.FLT_ESCALATE_AT, 3, 2, 0, 7, false, [(1, 65535)], 0xffff, 0, 0, 0x10⟩,
  ⟨Obj.FLT_TJ_WARN, 2, 1, 0, 7, false, [(70, 104)], 0xff, 0, 0, 0x5f⟩,
  ⟨Obj.FLT_SOURCE_STATUS, 8, 4, 64, 7, false, [], 0, 0xffffffff, 0, 0⟩,
  ⟨Obj.FLT_FORCE, 8, 4, 64, 2, false, [], 0, 0, 0xffffffff, 0⟩,
  ⟨Obj.FLT_SOURCE_CFG, 8, 4, 2048, 7, false, [], 0xbf1f0000, 0, 0, 0⟩,
  ⟨Obj.FLT_RECOVERIES, 3, 2, 2048, 7, false, [(0, 0)], 0xffff, 0, 0, 0⟩,
  ⟨Obj.FLT_RAISED, 5, 8, 2048, 7, false, [], 0, 0x8000000000000000, 0, 0⟩,
  ⟨Obj.FLT_LOG, 9, 8, 64, 5, false, [], 0, 0, 0, 0⟩,
  ⟨Obj.FLT_SAVED_LOG, 9, 8, 16, 5, false, [], 0, 0, 0, 0⟩,
  ⟨Obj.FLT_REPLACE, 8, 4, 0, 5, false, [], 0, 0, 0, 0⟩]

/-- Objects of indices 0x5200 to 0x52FF, part 1. -/
def objs52a : List ObjDef := [
  ⟨Obj.STAT_INTERVAL, 4, 4, 0, 7, false, [(1, 60000)], 0xffffffff, 0, 0, 0x3e8⟩,
  ⟨Obj.STAT_INTERVAL_SEQ, 4, 4, 0, 21, false, [], 0, 0, 0, 0⟩,
  ⟨Obj.STAT_DUMP_EN, 1, 1, 0, 7, false, [(0, 1)], 0xff, 0, 0, 1⟩,
  ⟨Obj.STAT_DUMP_SLOT_SIZE, 4, 4, 0, 5, false, [], 0, 0, 0, 0⟩,
  ⟨Obj.STAT_DUMP_SLOTS, 4, 4, 0, 5, false, [], 0, 0, 0, 0⟩,
  ⟨Obj.STAT_DUMP_LAST, 9, 8, 0, 5, false, [], 0, 0, 0, 0⟩,
  ⟨Obj.STAT_DUMP_ADDR, 4, 4, 0, 7, false, [], 0xffffffff, 0, 0, 0⟩,
  ⟨Obj.STAT_DUMP_DATA, 11, 256, 0, 1, false, [], 0, 0, 0, 0⟩,
  ⟨Obj.STAT_DUMP_MERGED, 5, 8, 0, 7, false, [], 0, 0x8000000000000000, 0, 0⟩,
  ⟨Obj.STAT_CYCLES, 5, 8, 0, 5, false, [], 0, 0, 0, 0⟩,
  ⟨Obj.STAT_PROG_SELECT, 9, 8, 8, 7, false, [], 0xffffff80ffff, 0, 0, 0⟩,
  ⟨Obj.STAT_PROG_COUNT, 5, 8, 8, 7, false, [], 0, 0x8000000000000000, 0, 0⟩,
  ⟨Obj.TLM_READ, 11, 264, 0, 1, false, [], 0, 0, 0, 0⟩,
  ⟨Obj.TLM_CTRL, 2, 1, 0, 2, false, [(1, 3)], 0xff, 0, 0, 0⟩,
  ⟨Obj.TLM_STATE, 9, 8, 0, 5, false, [], 0, 0, 0, 0⟩,
  ⟨Obj.TLM_HIGH_WM, 3, 2, 0, 7, false, [(1, 16384)], 0xffff, 0, 0, 0x3000⟩,
  ⟨Obj.TLM_LOW_WM, 3, 2, 0, 7, false, [(0, 16383)], 0xffff, 0, 0, 0x1000⟩,
  ⟨Obj.TLM_REFUSED, 5, 8, 0, 7, false, [], 0, 0x8000000000000000, 0, 0⟩,
  ⟨Obj.TLM_TIME, 5, 8, 0, 7, false, [], 0xffffffffffffffff, 0, 0, 0⟩,
  ⟨Obj.TLM_EVENT_EN, 8, 4, 0, 7, false, [], 3, 0, 0, 1⟩]

/-- Objects of indices 0x5400 to 0x54FF, part 1. -/
def objs54a : List ObjDef := [
  ⟨Obj.SLOT_CTRL, 8, 4, 32, 7, false, [], 3, 0, 0, 0⟩,
  ⟨Obj.SLOT_PORT, 2, 1, 32, 7, true, [(0, 63), (255, 255)], 0xff, 0, 0, 0xff⟩,
  ⟨Obj.SLOT_ILIMIT, 2, 1, 32, 7, false, [(20, 100)], 0xff, 0, 0, 0x32⟩,
  ⟨Obj.SLOT_FAULT_TIME, 2, 1, 32, 7, false, [(1, 20)], 0xff, 0, 0, 0xa⟩,
  ⟨Obj.SLOT_RAMP, 2, 1, 32, 7, false, [(2, 50)], 0xff, 0, 0, 0xa⟩,
  ⟨Obj.SLOT_DEBOUNCE, 3, 2, 0, 7, false, [(20, 1000)], 0xffff, 0, 0, 0x32⟩,
  ⟨Obj.SLOT_COOLDOWN, 3, 2, 0, 7, false, [(0, 60000)], 0xffff, 0, 0, 0x3e8⟩,
  ⟨Obj.SLOT_RESET_GAP, 2, 1, 0, 7, false, [(0, 100)], 0xff, 0, 0, 1⟩,
  ⟨Obj.SLOT_STATUS, 8, 4, 32, 7, false, [], 0, 0x400000, 0, 0⟩,
  ⟨Obj.SLOT_VOUT, 3, 2, 32, 5, false, [], 0, 0, 0, 0⟩,
  ⟨Obj.SLOT_SENSE, 3, 2, 32, 5, false, [], 0, 0, 0, 0⟩,
  ⟨Obj.SLOT_VIN, 3, 2, 0, 5, false, [], 0, 0, 0, 0⟩,
  ⟨Obj.SLOT_TRIPS, 5, 8, 32, 7, false, [], 0, 0x8000000000000000, 0, 0⟩,
  ⟨Obj.SLOT_REINSERTIONS, 5, 8, 32, 7, false, [], 0, 0x8000000000000000, 0, 0⟩,
  ⟨Obj.SLOT_POWER_ONS, 5, 8, 32, 7, false, [], 0, 0x8000000000000000, 0, 0⟩]

/-- Objects of indices 0x5800 to 0x58FF, part 1. -/
def objs58a : List ObjDef := [
  ⟨Obj.RST_CHIP_RESET, 2, 1, 0, 10, false, [(1, 1)], 0xff, 0, 0, 0⟩,
  ⟨Obj.BOOT_NEXT_IMAGE, 10, 1, 0, 11, false, [(0, 0), (1, 1), (2, 2)], 0xff, 0, 0, 0⟩,
  ⟨Obj.RST_CAUSE, 10, 1, 0, 5, false, [], 0, 0, 0, 0⟩,
  ⟨Obj.RST_COUNT, 4, 4, 0, 5, false, [], 0, 0, 0, 0⟩,
  ⟨Obj.DEV_STATE, 10, 1, 0, 21, false, [], 0, 0, 0, 0⟩,
  ⟨Obj.DEV_STATE_REQ, 10, 1, 0, 2, false, [(1, 1), (2, 2), (3, 3)], 0xff, 0, 0, 0⟩,
  ⟨Obj.DEV_HOLD, 8, 4, 0, 5, false, [], 0, 0, 0, 0xf⟩,
  ⟨Obj.DEV_AUTO_RECOVERY, 1, 1, 0, 7, false, [(0, 1)], 0xff, 0, 0, 0⟩,
  ⟨Obj.DEV_STATE_CHANGES, 5, 8, 0, 7, false, [], 0, 0x8000000000000000, 0, 0⟩,
  ⟨Obj.BOOT_STATUS, 8, 4, 0, 5, false, [], 0, 0, 0, 0⟩,
  ⟨Obj.BOOT_ACTIVE, 10, 1, 0, 5, false, [], 0, 0, 0, 0⟩,
  ⟨Obj.BOOT_SLOT_VERSION, 4, 4, 2, 5, false, [], 0, 0, 0, 0⟩,
  ⟨Obj.BOOT_UPDATE_ADDR, 4, 4, 0, 3, false, [], 0xffffffff, 0, 0, 0⟩,
  ⟨Obj.BOOT_UPDATE_DATA, 11, 512, 0, 2, false, [], 0xffffffffffffffffffffffffffffffffffffffffffffffffffffffffffffffffffffffffffffffffffffffffffffffffffffffffffffffffffffffffffffffffffffffffffffffffffffffffffffffffffffffffffffffffffffffffffffffffffffffffffffffffffffffffffffffffffffffffffffffffffffffffffffffffffffffffffffffffffffffffffffffffffffffffffffffffffffffffffffffffffffffffffffffffffffffffffffffffffffffffffffffffffffffffffffffffffffffffffffffffffffffffffffffffffffffffffffffffffffffffffffffffffffffffffffffffffffffffffffffffffffffffffffffffffffffffffffffffffffffffffffffffffffffffffffffffffffffffffffffffffffffffffffffffffffffffffffffffffffffffffffffffffffffffffffffffffffffffffffffffffffffffffffffffffffffffffffffffffffffffffffffffffffffffffffffffffffffffffffffffffffffffffffffffffffffffffffffffffffffffffffffffffffffffffffffffffffffffffffffffffffffffffffffffffffffffffffffffffffffffffffffffffffffffffffffffffffffffffffffffffffffffffffffffffffffffffffffffffffffffffffffffffffffffffffffffffffffffffffffffffffffffffffffffffffffffffffffffffffffffffffffffffffffffffffffff, 0, 0, 0⟩,
  ⟨Obj.BOOT_UPDATE_CMD, 10, 1, 0, 2, false, [(1, 4)], 0xff, 0, 0, 0⟩,
  ⟨Obj.BOOT_UPDATE_STATUS, 8, 4, 0, 5, false, [], 0, 0, 0, 0⟩,
  ⟨Obj.BOOT_SVN_FUSE, 2, 1, 0, 5, false, [], 0, 0, 0, 0⟩,
  ⟨Obj.BOOT_SVN_ADVANCE, 2, 1, 0, 2, false, [(1, 1)], 0xff, 0, 0, 0⟩,
  ⟨Obj.BOOT_ID_PUBKEY, 11, 97, 0, 21, false, [], 0, 0, 0, 0⟩,
  ⟨Obj.BOOT_KEY_REVOKE, 2, 1, 0, 2, false, [(0, 3)], 0xff, 0, 0, 0⟩,
  ⟨Obj.BOOT_KEY_REVOKED, 2, 1, 0, 5, false, [], 0, 0, 0, 0⟩,
  ⟨Obj.LIFE_STATE, 10, 1, 0, 21, false, [], 0, 0, 0, 0⟩,
  ⟨Obj.LIFE_REQUEST, 9, 8, 0, 2, false, [], 0, 0, 0xffffffffffffffff, 0⟩,
  ⟨Obj.DBG_UNLOCK_EN, 1, 1, 0, 7, false, [(0, 1)], 0xff, 0, 0, 0⟩]

/-- Objects of indices 0x5800 to 0x58FF, part 2. -/
def objs58b : List ObjDef := [
  ⟨Obj.DBG_STATUS, 8, 4, 0, 5, false, [], 0, 0, 0, 0⟩,
  ⟨Obj.DBG_REFUSED, 5, 8, 0, 7, false, [], 0, 0x8000000000000000, 0, 0⟩,
  ⟨Obj.DBG_REFUSED_LOG, 9, 8, 16, 5, false, [], 0, 0, 0, 0⟩]

/-- Objects of indices 0x6000 to 0x60FF, part 1. -/
def objs60a : List ObjDef := [
  ⟨Obj.PKG_TJ, 6, 2, 24, 5, false, [], 0, 0, 0, 0⟩,
  ⟨Obj.PKG_TJ_MAX, 6, 2, 0, 5, false, [], 0, 0, 0, 0⟩,
  ⟨Obj.PKG_TJ_PEAK, 6, 2, 0, 7, false, [], 0xffff, 0, 0, 0⟩,
  ⟨Obj.PKG_RAIL_MV, 3, 2, 9, 5, false, [], 0, 0, 0, 0⟩,
  ⟨Obj.PKG_RAIL_STATE, 8, 4, 0, 5, false, [], 0, 0, 0, 0⟩,
  ⟨Obj.PKG_POWER_EST, 4, 4, 0, 5, false, [], 0, 0, 0, 0⟩,
  ⟨Obj.PKG_COL_VID, 2, 1, 0, 5, false, [], 0, 0, 0, 0⟩,
  ⟨Obj.WEAR_MARGIN_LANE, 2, 1, 272, 5, false, [], 0, 0, 0, 0⟩,
  ⟨Obj.WEAR_MARGIN_COL, 2, 1, 272, 5, false, [], 0, 0, 0, 0⟩,
  ⟨Obj.WEAR_MARGIN_STEPPE, 2, 1, 4, 5, false, [], 0, 0, 0, 0⟩,
  ⟨Obj.WEAR_MARGIN_PACKAGE, 2, 1, 16, 5, false, [], 0, 0, 0, 0⟩,
  ⟨Obj.WEAR_THRESHOLD, 2, 1, 4, 7, false, [(5, 80)], 0xff, 0, 0, 0⟩,
  ⟨Obj.WEAR_STATE, 8, 4, 0, 5, false, [], 0, 0, 0, 0⟩,
  ⟨Obj.WEAR_POWER_ON_HOURS, 4, 4, 0, 5, false, [], 0, 0, 0, 0⟩,
  ⟨Obj.WEAR_EQUIV_HOURS, 4, 4, 0, 5, false, [], 0, 0, 0, 0⟩,
  ⟨Obj.WEAR_LIFE_USED, 3, 2, 0, 5, false, [], 0, 0, 0, 0⟩,
  ⟨Obj.WEAR_TEMP_HIST, 4, 4, 24, 5, false, [], 0, 0, 0, 0⟩,
  ⟨Obj.WEAR_THERMAL_CYCLES, 4, 4, 0, 5, false, [], 0, 0, 0, 0⟩,
  ⟨Obj.WEAR_T_EFFECTIVE, 6, 2, 0, 5, false, [], 0, 0, 0, 0⟩]

/-- The rows whose index begins with the byte `hi` (R36). -/
def objsOf (hi : Nat) : List ObjDef :=
  match hi with
  | 0x10 => objs10a
  | 0x11 => objs11a
  | 0x18 => objs18a
  | 0x20 => objs20a
  | 0x22 => objs22a
  | 0x24 => objs24a ++ objs24b
  | 0x26 => objs26a
  | 0x28 => objs28a ++ objs28b
  | 0x30 => objs30a ++ objs30b
  | 0x32 => objs32a
  | 0x33 => objs33a
  | 0x34 => objs34a ++ objs34b
  | 0x36 => objs36a ++ objs36b
  | 0x38 => objs38a
  | 0x40 => objs40a
  | 0x42 => objs42a
  | 0x44 => objs44a
  | 0x50 => objs50a
  | 0x52 => objs52a
  | 0x54 => objs54a
  | 0x58 => objs58a ++ objs58b
  | 0x60 => objs60a
  | _ => []

/-- The row of an object address, none where no table defines it (R36). -/
def findObj (a : Nat) : Option ObjDef := (objsOf (a / 65536)).find? (fun o => o.addr == a)

/-- Whether some object of an index is defined (R34, R36). -/
def indexDefined (index : Nat) : Bool := (objsOf (index / 256)).any (fun o => o.addr / 256 == index)

/-- The highest subindex defined at an index, the value of its subindex 0 (R34). -/
def highestSub (index : Nat) : Nat :=
  (objsOf (index / 256)).foldl (fun m o => if o.addr / 256 = index then max m (o.addr % 256) else m) 0

end Machine
end Sys2Proof
end

