-- ==== Sys2Proof/Machine/Bits.lean ====
section
/-! DEFINITION. Bit fields, byte order and the small codes (R6, R7, R166, R203): the helpers every layout of the
spec is read and written with. -/
namespace Sys2Proof.Machine

/-- Bits `lo + w - 1 .. lo` of `v` (R6: bit 0 is the least significant). -/
def bits (v lo w : Nat) : Nat := v / 2 ^ lo % 2 ^ w

/-- `v` with bits `lo + w - 1 .. lo` replaced by `x`, cut to `w` bits. -/
def setBits (v lo w x : Nat) : Nat := v - bits v lo w * 2 ^ lo + x % 2 ^ w * 2 ^ lo

/-- Bit `n` of `v`. -/
def bitAt (v n : Nat) : Bool := v / 2 ^ n % 2 == 1

/-- `v` with bit `n` set or cleared. -/
def putBit (v n : Nat) (b : Bool) : Nat := setBits v n 1 (if b then 1 else 0)

/-- A Boolean as the bit it is stored as. -/
def b2n (b : Bool) : Nat := if b then 1 else 0

/-- `f` placed at bit `lo`: the building block of a word written field by field. -/
def at_ (lo f : Nat) : Nat := f * 2 ^ lo

/-- The number of set bits among bits `n - 1 .. 0` of `v`. -/
def popcount (v : Nat) : Nat → Nat
  | 0 => 0
  | n + 1 => popcount v n + v / 2 ^ n % 2

/-- The numbers of the set bits among bits `n - 1 .. 0` of `v`, rising. -/
def bitList (v : Nat) : Nat → List Nat
  | 0 => []
  | n + 1 => bitList v n ++ (if bitAt v n then [n] else [])

/-- `v` as `n` bytes, little-endian (R7). -/
def leBytes (v : Nat) : Nat → List Byte
  | 0 => []
  | n + 1 => BitVec.ofNat 8 v :: leBytes (v / 256) n

/-- Little-endian bytes as a number (R7). -/
def ofLe : List Byte → Nat
  | [] => 0
  | b :: bs => b.toNat + 256 * ofLe bs

/-- `v` as `n` bytes, big-endian (network order, and MCTP's, R57). -/
def beBytes (v n : Nat) : List Byte := (leBytes v n).reverse

/-- Big-endian bytes as a number. -/
def ofBe (bs : List Byte) : Nat := ofLe bs.reverse

/-- `n` bytes of `bs` from offset `off`; missing bytes read as 0. -/
def slice (bs : List Byte) (off n : Nat) : List Byte :=
  let t := (bs.drop off).take n
  t ++ List.replicate (n - t.length) 0

/-- The little-endian field of `n` bytes at offset `off`. -/
def leField (bs : List Byte) (off n : Nat) : Nat := ofLe (slice bs off n)

/-- `bs` with the bytes from offset `off` replaced by `new` (as far as `bs` reaches). -/
def splice (bs : List Byte) (off : Nat) (new : List Byte) : List Byte :=
  (bs.take off ++ new ++ bs.drop (off + new.length)).take bs.length

/-- `bs` cut or zero-padded to `n` bytes. -/
def padTo (bs : List Byte) (n : Nat) : List Byte := slice bs 0 n

/-- Sign-extension of a `w`-bit two's-complement value (R38: I16 and I32). -/
def signed (v w : Nat) : Int := if v % 2 ^ w < 2 ^ (w - 1) then (v % 2 ^ w : Int) else (v % 2 ^ w : Int) - 2 ^ w

/-- A two's-complement encoding in `w` bits (R38). -/
def unsigned (i : Int) (w : Nat) : Nat := (i % (2 ^ w : Int)).toNat

/-- The little-endian number of a text's bytes, the first character in the lowest byte (STRING of R38). -/
def text (s : String) : Nat := s.toList.foldr (fun c n => c.toNat + 256 * n) 0

/-- One step of a bitwise CRC of width `w` with polynomial `poly`, most significant bit first. -/
def crcBit (w poly crc : Nat) (bit : Bool) : Nat :=
  let top := bitAt crc (w - 1)
  let sh := crc * 2 % 2 ^ w
  if top != bit then Nat.xor sh poly else sh

/-- A CRC over the bits of `v` from bit `n - 1` down to bit 0. -/
def crcBits (w poly crc v : Nat) : Nat → Nat
  | 0 => crc
  | n + 1 => crcBits w poly (crcBit w poly crc (bitAt v n)) v n

/-- A CRC over whole bytes, each most significant bit first. -/
def crcBytes (w poly : Nat) (crc : Nat) (bs : List Byte) : Nat :=
  bs.foldl (fun c b => crcBits w poly c b.toNat 8) crc

/-- The home slice of a line key (R308). -/
def sliceOf (k : Nat) : Nat := (Nat.xor (Nat.xor k (k / 2 ^ 12)) (Nat.xor (k / 2 ^ 24) (k / 2 ^ 36))) % 4096

/-- Replace element `i` of a list (none past its end). -/
def setAt {α : Type} (l : List α) (i : Nat) (x : α) : List α := l.set i x

end Sys2Proof.Machine
end

