-- ==== Sys2Proof/Machine/Sparse.lean ====
section
/-! DEFINITION. Sparse stores in canonical form: a list of (key, value) pairs, keys strictly rising, no entry equal to
what an unlisted key reads as. Registers, memory bytes, line metadata and boot flash are held so. -/
namespace Sys2Proof.Machine

/-- The value at key `k`: the listed one, or what `d` gives for an unlisted key. -/
def sparseGet {α : Type} (d : Nat → α) : List (Nat × α) → Nat → α
  | [], k => d k
  | (j, v) :: t, k => if k = j then v else if k < j then d k else sparseGet d t k

/-- Remove key `k`. -/
def sparseDrop {α : Type} : List (Nat × α) → Nat → List (Nat × α)
  | [], _ => []
  | (j, v) :: t, k => if k = j then t else if k < j then (j, v) :: t else (j, v) :: sparseDrop t k

/-- Insert or replace key `k`, keeping the keys rising. -/
def sparseIns {α : Type} : List (Nat × α) → Nat → α → List (Nat × α)
  | [], k, x => [(k, x)]
  | (j, v) :: t, k, x => if k = j then (k, x) :: t else if k < j then (k, x) :: (j, v) :: t else (j, v) :: sparseIns t k x

/-- Write `x` at key `k`; the value an unlisted key reads as removes the entry. -/
def sparsePut {α : Type} [DecidableEq α] (d : Nat → α) (l : List (Nat × α)) (k : Nat) (x : α) : List (Nat × α) :=
  if x = d k then sparseDrop l k else sparseIns l k x

/-- Every key listed is above `lo`, keys rise strictly, and no entry equals what an unlisted key reads as. -/
def sparseWfFrom {α : Type} [DecidableEq α] (d : Nat → α) : Nat → List (Nat × α) → Bool
  | _, [] => true
  | lo, (j, v) :: t => decide (lo ≤ j) && decide (v ≠ d j) && sparseWfFrom d (j + 1) t

/-- The canonical form of a sparse store. -/
def sparseWf {α : Type} [DecidableEq α] (d : Nat → α) (l : List (Nat × α)) : Bool := sparseWfFrom d 0 l

/-- Write bytes at rising keys from `k` on. -/
def sparsePutBytes (d : Nat → Byte) (l : List (Nat × Byte)) (k : Nat) : List Byte → List (Nat × Byte)
  | [] => l
  | b :: bs => sparsePutBytes d (sparsePut d l k b) (k + 1) bs

/-- Read `n` values at rising keys from `k` on. -/
def sparseGetRange {α : Type} (d : Nat → α) (l : List (Nat × α)) (k : Nat) : Nat → List α
  | 0 => []
  | n + 1 => sparseGet d l k :: sparseGetRange d l (k + 1) n

/-- The empty association list's lookup, for tables held by a natural key without a default. -/
def assocGet {α : Type} (l : List (Nat × α)) (k : Nat) : Option α := (l.find? (fun e => e.1 == k)).map (·.2)

/-- Set or replace a key of an association list. -/
def assocPut {α : Type} (l : List (Nat × α)) (k : Nat) (x : α) : List (Nat × α) :=
  (k, x) :: l.filter (fun e => e.1 != k)

/-- Remove a key of an association list. -/
def assocDrop {α : Type} (l : List (Nat × α)) (k : Nat) : List (Nat × α) := l.filter (fun e => e.1 != k)

end Sys2Proof.Machine
end

