-- ==== Sys2Proof/Machine/State.lean ====
section
/-! DEFINITION. The state of the block as plain data: the registers of the object dictionary in one sparse store, the
memories, the running timers, and one structure per unit for what the spec gives it beside its registers. -/
namespace Sys2Proof.Machine

/-- Whether the block runs, is held in a chip reset (R463), or has no power (R459, R491). -/
inductive Phase where
  | running
  | chipReset
  | unpowered
  deriving DecidableEq, Repr

/-- What a running timer is for. The two numbers of `Timer` say which port, lane, slice, key ... it belongs to. -/
inductive TimerKind where
  | linkLocal          -- R51
  | selfTest           -- R89, per group: the 1 s test
  | selfTestHour       -- R89, per group: the hourly timer
  | adaptTap           -- R82, per lane
  | adaptCtle          -- R82, per lane
  | sat                -- R83, per lane
  | margin             -- R85, per lane: once per second
  | marginReq          -- R85, per lane: the 10 ms of a request
  | shadow             -- R91, per group: the 5 ms of training on live data
  | perst              -- R97, per port: 100 ms before PERST_L is deasserted
  | perstMin           -- R97, per port: the 1 ms minimum of an assertion
  | grace              -- R106, per port
  | fabricIdle         -- R503, per port
  | bind               -- R113, per 64 * port + vPPB

  | ack                -- R176, per port
  | replay             -- R178, per port
  | detect             -- R183, per port
  | phase              -- R182, per port
  | trainIdle          -- R182, per port
  | config             -- R183, per port
  | recovery           -- R183, per port
  | goingDown          -- R184, per port
  | route              -- R188
  | unreachable        -- R188, per switch
  | probe              -- R191, per port
  | sparing            -- R213, per channel
  | noticeWindow       -- R246, per window
  | epoch              -- R310: the minimum interval between epoch changes
  | loadWindow         -- R317
  | leaseDrain         -- R321, per slice
  | forcedRetry        -- R321, per slice
  | holdoff            -- R318, per slice
  | heartbeat          -- R346
  | msgSilent          -- R347
  | pinSilent          -- R347
  | logFlush           -- R342
  | tenReset           -- R366, per tenancy: 100 us since the last increment
  | summary            -- R380, per summary element
  | quiet              -- R412, per source
  | faultPulse         -- R410
  | faultEvent         -- R408, per group
  | interval           -- R424
  | debounce           -- R448, per slot
  | cooldown           -- R457, per slot
  | slotFault          -- R452, per slot
  | gateOff            -- R455, per slot
  | slotOff            -- R458
  | watchdog           -- R470
  deriving DecidableEq, Repr

/-- A timer: what it is for, and for which element. -/
structure Timer where
  kind : TimerKind
  a    : Nat
  b    : Nat
  deriving DecidableEq, Repr

/-- A token bucket: its level in 10^-9 of a token, and the moment the level was last brought up to date. -/
structure Bucket where
  level : Nat
  since : Nat
  deriving DecidableEq, Repr

/-- What the block sends and drives, as the outside meets it. -/
inductive Out where
  /-- A UDP datagram on the management lane (R50). -/
  | udp (ip port : Nat) (payload : List Byte)
  /-- An ARP answer or announcement for an address (R50, R51). -/
  | arpReply (toIp ip : Nat)
  | arpAnnounce (ip : Nat)
  /-- An ICMPv4 echo reply (R50). -/
  | echoReply (ip : Nat) (payload : List Byte)
  /-- A packet of an MCTP message over I3C (R56, R57): start and end of the message, packet sequence number, and at most
  64 bytes of it. -/
  | mctp (som eom : Bool) (seq : Nat) (payload : List Byte)
  /-- The I3C in-band interrupt (R57). -/
  | i3cInterrupt
  /-- The response of an MCTP control command (R56), the fields in the order DSP0236 names them. -/
  | mctpControl (command : Nat) (fields : List Nat)
  /-- The completion of a mailbox command on a port: return code and output payload (R58). -/
  | mailbox (port rc : Nat) (payload : List Byte)
  /-- The response record of a dictionary operation that no message being served carried. -/
  | record (path : Path) (bytes : List Byte)
  /-- The completion of a host's access to BAR 2/3: `abort` is Completer Abort. -/
  | barRead (port value : Nat)
  | barDone (port : Nat)
  | barAbort (port : Nat)
  /-- An MSI-X vector of the presented function of a port (R378). -/
  | msix (port vector : Nat)
  /-- A command or a request that goes out of a port to the device or link partner named by the standard. -/
  | toPort (port : Nat) (what : String) (args : List Nat)
  /-- What the JTAG port gives the debugger: a nonce, or the data of an access (R479, R480). -/
  | jtag (what : String) (value : Nat)
  /-- A message leaves an edge, fabric or internal egress port: its length, bytes and rewrite index; `poison` when it
  carries its protocol's poison indication (R146). -/
  | message (port : Nat) (bytes : List Byte) (rewrite : Nat) (poison : Bool)
  /-- A flit leaves a Pass port: the symbols of each logical lane (R164, R167). -/
  | flit (port : Nat) (lanes : List (List Level))
  /-- The slack block leaves on every lane of a Pass port (R79, R186). -/
  | slack (port : Nat) (levels : List Level)
  /-- A training frame leaves a logical lane of a Pass port (R181): the symbols of its training word, and the place in the
  PRBS13Q pattern, in bits, from which its other transfer blocks go on. -/
  | trainingFrame (port lane : Nat) (word : List Level) (prbs : Nat)
  /-- The generator of a lane starts or stops a PRBS pattern (R86, R87): on the pads, or in loopback inside the lane. -/
  | prbs (lane pattern : Nat) (inverted loopback on : Bool)
  /-- What a Steppe channel returns for a line read (R204). -/
  | steppeData (addr : Nat) (data : List Byte) (poison : Bool)
  deriving DecidableEq, Repr

/-- The mailbox return codes R58 names: Success, Invalid Input and Unsupported (CXL; PRESUMED numbers, log entry 6). -/
abbrev rcSuccess : Nat := 0
abbrev rcInvalidInput : Nat := 2
abbrev rcUnsupported : Nat := 3

/-- A kept KDP request (R53): its source and tag, when it arrived, and its response once made. -/
structure Kept where
  ip   : Nat
  port : Nat
  tag  : Nat
  at_  : Nat
  resp : Option (List Byte)
  deriving DecidableEq, Repr

/-- A message that waits in a path queue (R47). -/
structure QMsg where
  path  : Path
  bytes : List Byte
  deriving DecidableEq, Repr

/-- A message being served (R46, R47): its path and tag, the records still to run with their operation codes, the
response records made, and the heads of the records that carry MALFORMED. -/
structure Svc where
  path   : Path
  tag    : Nat
  todo   : List (Nat × Rec)
  done   : List (List Byte)
  tail   : List (List Byte)
  status : Nat
  /-- A chip reset with this cause begins once the response has been sent (R461, R477). -/
  reset  : Option Nat
  /-- Addressing objects and their committed values, which stand once the response has been sent (R67). -/
  readdress : List (Nat × Nat)
  deriving DecidableEq, Repr

/-- A staged record (R61) with the path and port of its staging (R65); the list of them is in the order of staging. -/
structure Staged where
  addr  : Nat
  elem  : Option Nat
  value : Nat
  path  : Nat
  port  : Nat
  deriving DecidableEq, Repr

/-- A write that waits for the commit being applied to end (R63). -/
structure RecWait where
  path : Path
  r    : Rec
  svc  : Option Svc
  deriving DecidableEq, Repr

/-- The management paths, the dictionary service and the staging area. -/
structure Mgmt where
  kdpBucket : Bucket
  ethBucket : Bucket
  kept      : List Kept
  /-- The path queues in the order of R47: Ethernet, I3C, fabric-manager ports, tenant ports. -/
  qEth      : List QMsg
  qI3c      : List QMsg
  qFm       : List QMsg
  qTenant   : List QMsg
  /-- The queue served last, 0..3 in that order. -/
  lastQueue : Nat
  svc       : Option Svc
  /-- Messages whose commit or waiting write has ended and that go on when the service is free (R47, R62). -/
  resumed   : List Svc
  kdpEventNo : Nat
  i3cEventNo : Nat
  i3cEvents  : List (List Byte)
  i3cAddr    : Option Nat
  eid        : Nat
  staged     : List Staged
  /-- The message whose COMMIT record is being applied (R62): none while none is, `some none` for a record that came alone. -/
  commit     : Option (Path × Option Svc)
  recWait    : List RecWait
  respLimit  : Nat
  /-- The dictionary service pauses for a Meadow pair restart (R418, group 0). -/
  paused     : Bool
  deriving DecidableEq, Repr

/-- The values training gave a lane (R82, R182): CTLE step, the twelve DFE taps, and the FFE coefficients. -/
structure Training where
  ctle : Nat
  taps : List Int
  ffe  : Nat
  deriving DecidableEq, Repr

/-- How far a reserve-lane swap or revert has come (R91, R92). -/
inductive SwapStep where
  | waiting    -- the port trains: steps 1 to 3 start again when it is up
  | shadowing  -- step 2
  | ready      -- step 3 done: the switch may move
  deriving DecidableEq, Repr

/-- A swap in progress in a lane group: the lane, how far it has come, when it began and at which margin (R92). -/
structure SwapJob where
  lane   : Nat
  revert : Bool
  step   : SwapStep
  began  : Nat
  margin : Nat
  deriving DecidableEq, Repr

/-- What the lanes hold beside their registers. Lists of pairs are keyed by lane, group, port or reference. -/
structure LaneSt where
  training  : List (Nat × Training)
  /-- The elastic-buffer fill of lane L0 of a Pass port after its last slack position (R80). -/
  fill      : List (Nat × Nat)
  /-- The moments of the elastic-buffer errors of a port within the last second (R80). -/
  ebErrors  : List (Nat × List Nat)
  /-- Consecutive periodic measurements below the swap thresholds, per lane (R90). -/
  lowCount  : List (Nat × Nat)
  swaps     : List (Nat × SwapJob)
  /-- Completed swaps that firmware keeps with the wear record: group and lane (R93). -/
  swapped   : List (Nat × Nat)
  /-- Groups whose reserve self-test runs (R89). -/
  selfTest  : List Nat
  marginReq : List (Nat × Nat)
  /-- Lanes whose RESTORE waits for the next adaptation step (R84). -/
  restore   : List Nat
  /-- Consecutive good gates of each reference, 0..15 the groups, 16 CORE_REFCLK, 17 MGMT_XTAL (R417). -/
  goodGates : List (Nat × Nat)
  /-- References whose domains are held in reset (R30). -/
  held      : List Nat
  /-- Lanes of edge ports whose polarity inversion is corrected (R74), by global number. -/
  inverted  : List Nat
  /-- Lanes whose checker is locked, and since when its bits are not counted yet (R88). -/
  prbsSince : List (Nat × Nat)
  /-- `swapped` has come through a chip reset (R93): firmware reapplies it, whatever the wear record last saved. -/
  kept      : Bool
  deriving DecidableEq, Repr

/-- An HDM decoder of the presented function (R115, R236); `locked` is its commit-lock. -/
structure Decoder where
  base      : Nat
  size      : Nat
  committed : Bool
  error     : Bool
  locked    : Bool
  deriving DecidableEq, Repr

/-- A logical device behind a downstream port (R109, R112, R117). -/
structure Ld where
  serial    : Nat
  capacity  : Nat
  type3     : Bool
  /-- A dynamic capacity device, which is not fronted (R101). -/
  dynamic   : Bool
  cache     : Bool
  reachable : Bool
  deriving DecidableEq, Repr

/-- What the edge ports hold beside their registers. -/
structure EdgeSt where
  /-- Downstream ports whose PERST_L output is deasserted (R97). -/
  perstReleased : List Nat
  /-- HDM decoders by 8 * port + decoder (R115). -/
  decoders  : List (Nat × Decoder)
  /-- Logical devices by 16 * port + LD-ID. -/
  lds       : List (Nat × Ld)
  /-- The highest rate the partner of an edge port can run on its present link, in the code of `LANE.PORT_MAX_RATE` (R73, R75). -/
  partnerRate : List (Nat × Nat)
  /-- The bytes of the MSI-X tables of BAR 2/3, by 2^18 * port + offset in the window (R114); an unlisted byte reads 0. -/
  msix        : List Host.Cell
  /-- The registers of functions that are not as a reset leaves them, by 16 * (64 * host port + vPPB) + register (R100, R114,
  R262). -/
  fnRegs      : List (Nat × Nat)
  /-- Downstream ports behind which a multi-logical device answers (R98). -/
  mlds        : List Nat
  /-- Selective IDE streams that end at the presented function of a host port: port and stream (R119). -/
  streams     : List (Nat × Nat)
  /-- The link IDE key of a port of which the device is the requester (R119). -/
  ideKeys     : List (Nat × Nat)
  /-- Event records for the fabric manager, oldest first: what happened, at which port, and a detail (R121). -/
  events      : List (Nat × Nat × Nat)
  deriving DecidableEq, Repr

/-- Where a coherence message inside this device is on its way to: a Col engine, the port agent of a local agent (a
snoop), the port agent whose request it answers (R270), or the port agent of the Pass port that a remote switch's request
came by (R269). -/
inductive Hop where
  | engine (n : Nat)
  | agent (a : Nat)
  | reply
  | home
  deriving DecidableEq, Repr

/-- A coherence message that has left the Basin inside this device and waits for the unit it is for. -/
structure Flight where
  hop : Hop
  msg : CohMsg
  deriving DecidableEq, Repr

/-- What becomes of a message as it leaves the Basin at its egress port: its bytes go out on what the port faces; a
coherence message reaches a unit of this device; a snoop reaches the port agent of the agent that its target's rewrite
index names (R137); or the host side of a port takes it. -/
inductive Arrival where
  | bytes
  | flight (f : Flight)
  | snoop (m : CohMsg)
  | out (o : Out)
  deriving DecidableEq, Repr

/-- A message as the Basin stores it (R124): its tag of R150, its length and its bytes, what PCIe ordering needs of it
(R128), the ingress link channel whose credit it holds (R134), the rewrite index of a unicast message (R137), and what
becomes of it at its egress port. -/
structure BMsg where
  sort    : MsgSort
  tenancy : Option Nat
  tc      : Nat
  len     : Nat
  body    : List Byte
  headerBytes : Nat
  relaxed : Bool
  ido     : Bool
  requester : Nat
  channel : LinkChannel
  rewrite : Nat
  arrival : Arrival
  deriving DecidableEq, Repr

/-- A cell, or the chain of cells of one long message, from its admission to its last read (R123, R124, R137, R138).
`targets` are those whose entries wait for the last of its cells to be written; `n` its cells still to be read, a chain's
leaving one by one; `ptrs` those of them written. -/
structure Stored where
  id      : Nat
  ingress : Nat
  cls     : BasinClass
  msgs    : List BMsg
  targets : List Target
  n       : Nat
  ptrs    : List Nat
  ref     : Nat
  mcast   : Bool
  fan     : Nat
  deriving DecidableEq, Repr

/-- A cell or chain that waits in an ingress FIFO for admission, with its targets (R124, R129): when its last message
joined, and since when admission has made it wait without that time being counted (R148). -/
structure Offered where
  ingress : Nat
  cls     : BasinClass
  msgs    : List BMsg
  units   : Nat
  targets : List Target
  last    : Nat
  waits   : Option Nat
  deriving DecidableEq, Repr

/-- A queue entry (R127): the stored cell it names, its egress port, queue and channel, and how many of the cell's
messages it has sent. -/
structure Entry where
  id      : Nat
  egress  : Nat
  queue   : Nat
  channel : LinkChannel
  rewrite : Nat
  sent    : Nat
  deriving DecidableEq, Repr

/-- A message an egress port has selected and whose cells it still reads (R126): `last` when the target is then done. -/
structure Reading where
  egress  : Nat
  id      : Nat
  msg     : BMsg
  rewrite : Nat
  left    : Nat
  last    : Bool
  dropped : Bool
  poison  : Bool
  deriving DecidableEq, Repr

/-- The Basin beside its registers. -/
structure BasinSt where
  /-- Open cells by 3 * ingress port + class (R124). -/
  open_   : List (Nat × Offered)
  /-- Cells offered for admission, in order of arrival (R129). -/
  fifo    : List Offered
  stored  : List Stored
  /-- The pointer lists: all entries, in the order they were enqueued (R127, R128). -/
  entries : List Entry
  reading : List Reading
  nextId  : Nat
  /-- Messages admitted since the last sample, per ingress port (R143). -/
  sampleCount : List (Nat × Nat)
  samplePolice : Bucket
  /-- Since when the running stall episode of an egress port runs; none once it has been counted (R142). -/
  stallSince : List (Nat × Nat)
  /-- The Basin has stopped for a Fatal latch (R147). -/
  stopped : Bool
  deriving DecidableEq, Repr

/-- A shaper bucket: its level in units of 2^-24 byte times 10^-9, and when it was last brought up to date (R156, R159). -/
structure Shaper where
  level : Int
  since : Nat
  deriving DecidableEq, Repr

/-- The egress scheduler beside its registers: the tags of R154. -/
structure SchedSt where
  sg : List (Nat × Nat)
  fg : List (Nat × Nat)
  vg : List (Nat × Nat)
  sq : List (Nat × Nat)
  fq : List (Nat × Nat)
  /-- Queues that have taken their start tags and are eligible (R153, R154). -/
  eligible : List Nat
  /-- The TC7 group each port served last (R152). -/
  lastTc7 : List (Nat × Nat)
  queueShaper : List (Nat × Shaper)
  portShaper  : List (Nat × Shaper)
  /-- Since when a port's shaper has held back a message, without that time being counted (R161). -/
  heldSince   : List (Nat × Nat)
  deriving DecidableEq, Repr

/-- A slot of a flit (R164, R172): its kind, its 64 bytes, and the number of the message it belongs to. -/
structure Slot where
  kind : Nat
  data : List Byte
  mid  : Nat
  deriving DecidableEq, Repr

/-- A data flit kept in the replay buffer (R169). -/
structure Kflit where
  seq   : Nat
  slots : List Slot
  deriving DecidableEq, Repr

/-- Training state of one lane of a Pass port (R181, R182): good frames in a row, frames in a row with READY at both
ends, what the partner and the lane's own receiver last said, the coefficients in use, whether the last request was
refused, whether the marker arrives inverted, and the requests sent. -/
structure LaneTrain where
  good     : Nat
  readyRun : Nat
  rxLock   : Bool
  eqDone   : Bool
  ready    : Bool
  resume   : Bool
  own      : LaneReport
  pre      : Nat
  post     : Nat
  limit    : Bool
  inverted : Bool
  reqs     : Nat
  deriving DecidableEq, Repr

/-- A whole message in the receive pool (R179): its channel, 1 Request or 2 Response, and its bytes. -/
structure PoolMsg where
  channel : Nat
  bytes   : List Byte
  deriving DecidableEq, Repr

/-- The message the slot stream has open (R172): its channel, the slots still to come, its bytes so far. -/
structure OpenMsg where
  channel : Nat
  left    : Nat
  bytes   : List Byte
  deriving DecidableEq, Repr

/-- A PROBE sent: its tag and when (R191). -/
structure Probe where
  tag : Nat
  at_ : Nat
  deriving DecidableEq, Repr

/-- A Pass port beside its registers. -/
structure PassPort where
  /-- The replay buffer (R169), oldest first. -/
  buffer   : List Kflit
  /-- Slots of started messages that wait for the next data flit (R172). -/
  staging  : List Slot
  /-- The number of the next message; 0 names none. -/
  nextMid  : Nat
  rxOpen   : Option OpenMsg
  rxPool   : List PoolMsg
  /-- Credits spent and returned toward the partner (R180), and freed by this side's pool (R179), by channel. -/
  chargedReq : Nat
  chargedRsp : Nat
  freedReq   : Nat
  freedRsp   : Nat
  ownFreedReq : Nat
  ownFreedRsp : Nat
  pool     : Nat
  resReq   : Nat
  resRsp   : Nat
  /-- HELLO and ROUTE have been received in this Config (R183). -/
  hello    : Bool
  route    : Bool
  serial   : Nat
  /-- Hop counts the partner last advertised (R188). -/
  advert   : List Nat
  probes   : List Probe
  nextTag  : Nat
  /-- REPLAY_REQ is due in the next header (R176), and the LINK_CMD the next headers carry. -/
  replayReq : Bool
  linkCmd  : Nat
  /-- The protocol version Config found, 0 while it has found none (R174). -/
  version  : Nat
  /-- The port goes down by its own choice and then enters this state: 0 Disabled, 1 Detect, 6 Held (R184). -/
  downTo   : Option Nat
  /-- The lanes in training and the phase (R182). -/
  lanes    : List (Nat × LaneTrain)
  phase    : Nat
  /-- Since when 512 flits have been outstanding (R178). -/
  full     : Option Nat
  /-- Mirror writes and log messages that have started and are not yet acknowledged, by their message number (R22, R341). -/
  sent     : List (Nat × List Byte)
  /-- Transfer blocks that each lane has sent, and has received, since the last slack position (R79, R186), and a slack
  position of the receiver that has not been acted on. -/
  txBlocks : Nat
  rxBlocks : Nat
  rxSlack  : Bool
  /-- The place in the PRBS13Q pattern that the next training frame goes on from (R181). -/
  prbs     : Nat
  deriving DecidableEq, Repr

/-- The Pass links beside their registers. -/
structure PassSt where
  ports : List (Nat × PassPort)
  /-- The ports that brought a conflict of the own number, which holds the device in Start-up (R188). -/
  ownConflict : List Nat
  deriving DecidableEq, Repr

/-- A Pass port with fresh link-layer state (R175, R180). -/
def freshPort : PassPort := ⟨[], [], 1, none, [], 0, 0, 0, 0, 0, 0, 16, 0, 16, false, false, 0, [], [], 0, false, 0, 0, none, [], 0, none, [], 0, 0, false, 0⟩


/-- A row being spared in a channel (R213): bank, row, the spare row that takes it, and the Bad spares met. -/
structure SpareJob where
  bank  : Nat
  row   : Nat
  spare : Nat
  bads  : Nat
  deriving DecidableEq, Repr

/-- A completed remap (R213): channel, bank, user row, and the spare row that serves it. -/
structure Remap where
  channel : Nat
  bank    : Nat
  row     : Nat
  spare   : Nat
  deriving DecidableEq, Repr

/-- An entry of a channel's row tracker (R212). -/
structure Track where
  bank  : Nat
  row   : Nat
  count : Nat
  deriving DecidableEq, Repr

/-- The write queue of a channel (R194, R197): the lines accepted and not yet in the DRAM, first in first out, and the time up
to which it has drained. -/
structure WriteQueue where
  lines : List Nat
  since : Nat
  deriving DecidableEq, Repr

/-- Steppe memory beside its registers, data and line metadata (08_steppe_memory.md). -/
structure StpSt where
  /-- Symbol errors that stand in stored lines, by line number. -/
  faults    : List (Nat × DramErrors)
  /-- The key of each Live slot (R217, R218). -/
  keys      : List (Nat × Nat)
  /-- Draining slots, each with the passes that had started when it was destroyed (R219). -/
  draining  : List (Nat × Nat)
  /-- The write queue of each channel (R194, R197). -/
  writes    : List (Nat × WriteQueue)
  /-- Scrub passes started, whether one runs, and the lines each channel has done in it (R209). -/
  passes    : Nat
  scrubbing : Bool
  done      : List (Nat × Nat)
  /-- When the running pass started, and its period in hours: `STP.SCRUB_PERIOD` as it stood then (R209). -/
  passStart : Nat
  period    : Nat
  tracker   : List (Nat × List Track)
  queue     : List (Nat × List (Nat × Nat))
  sparing   : List (Nat × SpareJob)
  remaps    : List Remap
  /-- Spare rows marked Bad. -/
  bad       : List SpareRow
  /-- Remaps kept with the wear record in boot flash, and those not yet saved (R215). -/
  saved     : List Remap
  unsaved   : List Remap
  /-- Rows fused onto their spare rows by hard repair (R215). -/
  repaired  : List Remap
  /-- Stacks with doubled refresh, and stacks above 100 °C (R221). -/
  doubled   : List Nat
  hot       : List Nat
  deriving DecidableEq, Repr


/-- An open notice window (R246): its start in the telemetry time base, the region set version then, and what it has
gathered. -/
structure Notice where
  window  : WindowId
  start   : Nat
  version : Nat
  reasons : Nat
  writes  : Nat
  reads   : Nat
  deriving DecidableEq, Repr

/-- An allocation that a release sweep releases (R234): the run of tracts as they were, the tenancy that owned them with
its generation then (none for a shared run), and whether the allocation ends Free or Live with its new owner. -/
structure Release where
  alloc  : Nat
  first  : Nat
  count  : Nat
  owner  : Option (Nat × Nat)
  toFree : Bool
  deriving DecidableEq, Repr

/-- A part of a Glen transfer that the guard of this device has judged (R240): the channel's switch and tenancy, the direction,
the page with its home switch, and the reason where it failed. -/
structure GuardPart where
  switch  : Nat
  channel : Nat
  write   : Bool
  page    : Nat
  verdict : Option Nat
  deriving DecidableEq, Repr

/-- Tracts and the region guard beside their registers (09_pool_and_guard.md). -/
structure GuardSt where
  notices  : List Notice
  releases : List Release
  /-- Allocations taken over from a lost twin, homed under its switch number (R350). -/
  adopted  : List Nat
  /-- A write of `TRACT.MEM_DATA` to a mirrored line that has been accepted and waits for the Saddle acknowledgement (R22,
  R273): its line and bytes. -/
  memWait  : Option (Nat × List Byte)
  /-- The parts of Glen transfers judged last, newest first (R240). -/
  parts    : List GuardPart
  deriving DecidableEq, Repr


/-- How a transaction stands at its port agent (R279 to R281, R299, R302): sent; waiting to be sent again at a moment;
waiting for a map epoch; held while the agent's number is not Live; ended before its answer, its tag held until a moment. -/
inductive TxnStatus where
  | sent
  | retry (at_ : Nat)
  | moved (epoch : Nat)
  | held
  | ended (until_ : Nat)
  deriving DecidableEq, Repr

/-- A transaction slot of a port agent (R279): its number, which is the TAG of its request, the order it was opened in,
the host it serves with the host's tag, and the request as it was last sent. -/
structure Txn where
  slot    : Nat
  serial  : Nat
  agent   : Nat
  src     : HostSource
  hostTag : Nat
  msg     : CohMsg
  started : Nat
  status  : TxnStatus
  deriving DecidableEq, Repr

/-- A snoop slot of a port agent (R282): the snoop, and once the host's BIRsp has come, the state kept and the serial
number that the next transaction had then (R289). -/
structure SnoopSlot where
  agent : Nat
  msg   : CohMsg
  rsp   : Option (Nat × Nat)
  deriving DecidableEq, Repr

/-- A snoop of a context that is not closed (R266, R294): its holder and kind, the moment it was due, whether it has been
sent, and whether SNOOP_LATE was raised for it. -/
structure Snoop where
  holder : Requester
  kind   : Nat
  due    : Nat
  sent   : Bool
  late   : Bool
  deriving DecidableEq, Repr

/-- What a context is for: a request at its home, a home's snoop at the proxy (R271), the eviction of the line's entry
(R253), the invalidation of every holder before the device side reads or writes (R272), a snoop of one agent that wrote
back without being listed (R265), or a release sweep (R234). -/
inductive CtxWork where
  | serve
  | proxy
  | evict
  | device
  | loose
  | release
  deriving DecidableEq, Repr

/-- What a context waits for, once no snoop of it is open: nothing, the closing of the context on a line whose way it
needs (R253), or the Saddle acknowledgement of its unit's UNIT_DIRTY record (R344). -/
inductive CtxWait where
  | none
  | victim (key : Nat)
  | unit
  deriving DecidableEq, Repr

/-- A context of a Col engine (R264, R266, R305): the line and whether it is about its proxy entry, the message it
serves, its open snoops, what it waits for, and the class of context it uses: 0 ordinary, 1 aged, 2 snoop, 3 background
(R306); an eviction runs in the context of the request that needs the way (R253) and uses none: 4. -/
structure Ctx where
  engine : Nat
  key    : Nat
  proxy  : Bool
  work   : CtxWork
  msg    : CohMsg
  snoops : List Snoop
  wait   : CtxWait
  class_ : Nat
  /-- The line had an entry when the context opened (R254). -/
  had    : Bool
  deriving DecidableEq, Repr

/-- The completion of a mirrored write that waits for the Saddle acknowledgement (R22), with the engine and the class of
context that the write goes on using until then (R264, R273). -/
structure MirrorWait where
  engine : Nat
  class_ : Nat
  msg    : CohMsg
  deriving DecidableEq, Repr

/-- A request of a remote switch that its home's device NACKed with MOVED (R269, R314): the request, the epoch it waits
for, and whether the NACK has reached the port agent of the Pass port. -/
structure HomeHeld where
  msg     : CohMsg
  epoch   : Nat
  arrived : Bool
  deriving DecidableEq, Repr

/-- A request a proxy Col has recorded (R270): its line, agent and tag. -/
structure ProxyRec where
  key   : Nat
  agent : Nat
  tag   : Nat
  deriving DecidableEq, Repr

/-- An entry in an engine's directory cache (R256): the line, the entry of R251, its way in the store, and whether it
differs from the store. The list of them is in the order of last use, latest first. -/
structure Cached where
  engine : Nat
  key    : Nat
  entry  : Nat
  way    : Nat
  dirty  : Bool
  deriving DecidableEq, Repr

/-- An open hold window (R283, R284). -/
structure HoldWin where
  engine  : Nat
  key     : Nat
  grantee : Requester
  until_  : Nat
  deriving DecidableEq, Repr

/-- An entry of an aged table (R286): line, requester, TAG, and when its request was last sent. -/
structure AgedEntry where
  engine : Nat
  key    : Nat
  who    : Requester
  tag    : Nat
  last   : Nat
  deriving DecidableEq, Repr

/-- The coherence units beside their registers (10_coherence_flows.md, 11_races_and_progress.md). -/
structure CohSt where
  flight    : List Flight
  txns      : List Txn
  serial    : Nat
  snoops    : List SnoopSlot
  /-- BIConflicts whose acknowledgement is due: agent and line (R262). -/
  conflicts : List (Nat × Nat)
  ctxs      : List Ctx
  /-- Completions of mirrored writes that wait for the Saddle acknowledgement (R22). -/
  mirrorWait : List MirrorWait
  homeHeld  : List HomeHeld
  records   : List ProxyRec
  cache     : List Cached
  holds     : List HoldWin
  aged      : List AgedEntry
  /-- Agents the running sweep pass settles, and those that wait for the next (R296, R299). -/
  sweeping  : List Nat
  awaiting  : List Nat
  /-- Dead numbers that become Live, and those that become Unassigned, when their pass has ended (R105, R299). -/
  reborn    : List Nat
  leaving   : List Nat
  deriving DecidableEq, Repr


/-- A background item of a Col deque (R323): 0 sweep of agents' bits in a slice, 1 release sweep of a slice,
2 reconciliation of a slice, 3 scrub follow-up of a line, 4 dirty-log compaction of a tenancy, 5 dump formatting; the slice
it is bound to, none for a free item; and the line, tenancy or dump slot it is about. -/
structure BgItem where
  kind  : Nat
  slice : Option Nat
  arg   : Nat
  deriving DecidableEq, Repr

/-- Why a slice moves (R318 to R320). -/
inductive MoveWhy where
  | steal
  | return_
  | forced
  deriving DecidableEq, Repr

/-- A move of a slice (R321): it drains until it is quiescent, then waits for the next epoch change. -/
structure Move where
  slice : Nat
  donor : Nat
  taker : Nat
  why   : MoveWhy
  ready : Bool
  deriving DecidableEq, Repr

/-- What empties a role (R327, R328, R330): a Spare takes it over, it is retired, or it is loaded anew. -/
inductive RoleWhy where
  | spare (phys : Nat)
  | retire
  | load
  deriving DecidableEq, Repr

/-- A role being emptied, the cause that will stand in `COL.PHYS_STATE`, and the slices it held. -/
structure RoleJob where
  role   : Nat
  why    : RoleWhy
  cause  : Nat
  slices : List Nat
  deriving DecidableEq, Repr

/-- The Col array beside its registers (12_col_engines.md). -/
structure ColSt where
  /-- The epoch of the port agents' map copies, and the engines of the slices whose change they do not hold yet (R310). -/
  agentEpoch : Nat
  agentOld   : List (Nat × Nat)
  moves      : List Move
  /-- The engines that serve slices whose base is Retired (R309, R325). -/
  replaced   : List (Nat × Nat)
  /-- Roles that wait for sparing, with the cause, and the role being emptied (R326 to R330). -/
  spareQueue : List (Nat × Nat)
  job        : Option RoleJob
  loadQueue  : List Nat
  /-- Since when an engine's load has stayed at or below `COL.STEAL_IDLE_PCT` (R319). -/
  idleSince  : List (Nat × Nat)
  /-- Requests of each slice in the present window (R317). -/
  reqs       : List (Nat × Nat)
  deques     : List (Nat × List BgItem)
  /-- The hour of the last correction of each physical engine (R326). -/
  ceHour     : List (Nat × Nat)
  /-- Where a slice's forced move takes it, until it has moved (R320, R321). -/
  forcedTo   : List (Nat × Nat)
  /-- Physical engines the wear record lists as spared or failed (R325, R327). -/
  worn       : List Nat
  deriving DecidableEq, Repr


/-- The twin pair beside its registers (13_twin_pairs.md). -/
structure TwinSt where
  /-- FIRST of the allocations that are paired (R336). -/
  paired   : List Nat
  /-- The next log sequence number, and the records of the open LOG message of each Saddle port (R342). -/
  lsn      : Nat
  openLog  : List (Nat × List (List Byte))
  /-- Units Clean in this device's own marks, and in those it keeps for its partner (R344). -/
  clean    : List Nat
  twinClean : List Nat
  /-- When each unit last changed (R344). -/
  changed  : List (Nat × Nat)
  /-- The LSN last applied, per Saddle port (R345). -/
  applied  : List (Nat × Nat)
  /-- Units listed as unreconciled at a takeover, and the lines of them already reconciled (R350, R352). -/
  unreconciled : List Nat
  done     : List Nat
  /-- The next HEARTBEAT SEQ, when the last HEARTBEAT arrived, and when the partner was judged lost (R346, R350). -/
  hbSeq    : Nat
  hbAt     : Nat
  judgedAt : Nat
  /-- The pair key derived at the last pairing (R339). -/
  pairKey  : Option Nat
  /-- The pair state the partner last reported in HEARTBEAT (R348). -/
  partnerState : Nat
  /-- Takeover has begun and has not yet reached step 5 (R350). -/
  takeover : Bool
  /-- The takeover serves Steppe tracts too; that of a receiving side serves Standby tracts only (R353). -/
  steppeToo : Bool
  /-- The switch number the alias answers for (R350, R354). -/
  aliasOf  : Option Nat
  /-- FIRST of the allocations matched in the PAIR_INFO messages that come now (R336, R337). -/
  listed   : List Nat
  /-- The level of TWIN_HB_OUT (R346). -/
  hbOut    : Bool
  deriving DecidableEq, Repr

/-- What a mailbox pair holds beside `MBX.STATE` (R375, R377): the inbound pending doorbells and mask, IRQ_STATUS and IRQ_ENABLE. -/
structure Pair where
  inPending : Nat
  inMask    : Nat
  irqStatus : Nat
  irqEnable : Nat
  deriving DecidableEq, Repr

/-- A record of the dirty log (R373): tenancy, range 0..7 and page. -/
structure Dirty where
  tenancy : Nat
  range   : Nat
  page    : Nat
  deriving DecidableEq, Repr

/-- Tenancies and mailboxes beside their registers (14_tenancies_and_mailboxes.md). -/
structure TenSt where
  /-- Mailbox pairs by tenancy; 4,096 is the FM pair (R382). A pair not listed is at its reset values. -/
  pairs     : List (Nat × Pair)
  /-- The moment of each tenancy's last generation increment (R368 step 1). -/
  lastInc   : List (Nat × Nat)
  /-- Tenancies whose removal is merged into the reset in progress (R366). -/
  removal   : List Nat
  /-- Tenancies whose reset has passed its increment (R368). -/
  started   : List Nat
  /-- Interrupt vectors held until a link comes up, by tenancy (R378). -/
  held      : List (Nat × Nat)
  /-- The dirty-record buffer, oldest first, and the last record of each writer (R373). -/
  dirty     : List Dirty
  lastDirty : List (Nat × Dirty)
  /-- `MBX.SUMMARY` elements with a change that the next event reports (R380). -/
  summaryOwed : List Nat
  /-- The FM pair (R382): responses that wait for the inbound mailbox, the port that rang last, a notice that is owed. -/
  fmWaiting : List (List Byte)
  fmPort    : Nat
  fmNotice  : Bool
  deriving DecidableEq, Repr

/-- The descriptor a Glen channel runs (R389): its fields as fetched and the generation stamped on it. -/
structure GlenDesc where
  control : Nat
  length  : Nat
  src     : Nat
  dst     : Nat
  next    : Nat
  gen     : Nat
  deriving DecidableEq, Repr

/-- A source access that has been issued (R391): its offset and bytes, the transaction slot of a tract access, and its
answer once it has come: the bytes and their REASON, 0 for none. -/
structure GlenRead where
  off  : Nat
  n    : Nat
  slot : Option Nat
  ans  : Option (List Byte × Nat)
  deriving DecidableEq, Repr

/-- A tract write that has no CMP yet (R397): its offset, its transaction slot, and the REASON of each of its bytes. -/
structure GlenWrite where
  off     : Nat
  slot    : Nat
  reasons : List Nat
  deriving DecidableEq, Repr

/-- A Glen channel beside `GLEN.CHAN_STATUS` and `GLEN.CHAN_POINTER` (R386 to R397): its interrupt registers and
CH_BYTES, whether a fetch is under way, the descriptor it runs, source bytes issued, destination bytes issued, bytes
written without fault, the lowest faulted offset with its REASON, the guard reasons met, the source accesses in order,
the holding register, and the tract writes without CMP. -/
structure GlenCh where
  irqStatus : Nat
  irqEnable : Nat
  bytes     : Nat
  fetching  : Bool
  desc      : Option GlenDesc
  issued    : Nat
  written   : Nat
  good      : Nat
  fault     : Option (Nat × Nat)
  guard     : Nat
  reads     : List GlenRead
  hold      : List (Byte × Nat)
  writes    : List GlenWrite
  deriving DecidableEq, Repr

/-- The Glen movers beside their registers (15_glen_movers.md). -/
structure GlenSt where
  chans    : List (Nat × GlenCh)
  /-- The channel each engine served last (R384). -/
  turn     : List (Nat × Nat)
  /-- The rate bucket of each channel (R399). -/
  buckets  : List (Nat × Shaper)
  /-- Source bytes each engine has moved since the last statistics boundary. -/
  served   : List (Nat × Nat)
  /-- The guard reasons a local home found for tract accesses, by transaction slot (R241, R395). -/
  verdicts : List (Nat × Nat)
  /-- Engines that raised ENGINE_PARITY since the source was last clear (R402, R418). -/
  parity   : List Nat
  deriving DecidableEq, Repr

/-- What the fault collector holds beside its registers. -/
structure FltSt where
  /-- The severity each latched source latched with (R407). -/
  sev       : List (Nat × Nat)
  /-- The quiet period in ms that each latched self-recovering source took at its latch (R412, R419). -/
  periods   : List (Nat × Nat)
  /-- Log words that wait for the trap handler to save them (R408). -/
  traps     : List Nat
  /-- A chip reset reaction that waits for the trap save (R408). -/
  resetDue  : Bool
  /-- Groups whose event within the 10 us spacing is still owed (R408). -/
  owed      : List Nat
  /-- REPLACE_REQ_L is asserted (R416). -/
  replacePin : Bool
  deriving DecidableEq, Repr

/-- A latched set that waits for its dump, or is being formatted (R429): the header's fields and the entries, each the
register key, its OVF at the latch and its interval part. -/
structure Dump where
  seq       : Nat
  intervals : Nat
  flags     : Nat
  start     : Nat
  stop      : Nat
  entries   : List (Nat × Nat)
  deriving DecidableEq, Repr

/-- Counters and telemetry: what they hold beside their registers. -/
structure TlmSt where
  /-- The interval part of each counter element, by register key (R423). -/
  intervals : List (Nat × Nat)
  waiting   : Option Dump
  /-- The dump whose formatting item has not run, with its slot (R429). -/
  formatting : Option (Nat × Dump)
  dumpSeq   : Nat
  dumpSlot  : Nat
  /-- Length of the present interval in ms (R424), its opening boundary in time-base ns, and what happened within it. -/
  length    : Nat
  opened    : Nat
  timeSet   : Bool
  /-- The telemetry time base is `now + offset` (R433). -/
  offset    : Int
  /-- FIFO positions F, M, R, W in words, and the records from F on (R436, R437). -/
  f : Nat
  m : Nat
  r : Nat
  w : Nat
  recs : List (List Nat)
  seq  : Nat
  /-- Records refused or discarded that the next TYPE 5 record reports, none when none is owed (R439). -/
  owed : Nat
  /-- TLM_WM_L is asserted (R440). -/
  pin  : Bool
  deriving DecidableEq, Repr

/-- The slot controllers beside their registers (18_slot_power.md). -/
structure SlotSt where
  /-- Slots whose GATE is driven. -/
  driven   : List Nat
  /-- Slots whose PRSNT_SHORT_L has been sampled asserted since the last removal. -/
  asserted : List Nat
  /-- When the running ramp of a slot began, and its rate in 0.1 V/ms (R450). -/
  ramp     : List (Nat × (Nat × Nat))
  deriving DecidableEq, Repr

/-- How far boot has come (R466, R470). -/
inductive BootStage where
  | rom
  | firmware
  | ready
  | failed
  deriving DecidableEq, Repr

/-- Boot, fuses and debug access: what they hold beside their registers. -/
structure BootSt where
  stage      : BootStage
  /-- The slot the running image came from: 1 A, 2 B, 0 none; and its header's version, SVN, key index. -/
  slot       : Nat
  svn        : Nat
  keyIndex   : Nat
  trial      : Bool
  /-- A slot that the watchdog or a failed image excludes at the next boot, with its failure code (R470). -/
  avoid      : Nat
  avoidCode  : Nat
  /-- Fuses (R469, R471, R475): the four key hashes, the burned lifecycle state. -/
  keyHash    : List Nat
  lifeFuse   : Nat
  /-- The update work under way: 0 none, 1 an erase, 2 a verification (R473). -/
  work       : Nat
  /-- The VID code fused for the device at test (R490). -/
  vidFuse    : Nat
  /-- The JTAG instruction loaded, and the unlock nonce (R478, R479). -/
  jtag       : JtagIns
  nonce      : Nat
  /-- When the chip reset that runs began (R461, R463). -/
  resetStart : Nat
  /-- The Col microprogram is loaded and verified (R329, R466 step 5). -/
  ucodeOk    : Bool
  deriving DecidableEq, Repr

/-- A copy of the wear record as a save writes it (R496): its sequence number, completed lane swaps, Steppe remaps, Failed
and spared Col engines, the rise of the VID code, the accumulators of R497, and each monitor's lowest margin. -/
structure WearCopy where
  seq     : Nat
  swaps   : List (Nat × Nat)
  remaps  : List Remap
  worn    : List Nat
  vidRise : Nat
  powered : Nat
  equiv   : Nat
  hist    : List (Nat × Nat)
  cycles  : Nat
  lowest  : List (Nat × Nat)
  deriving DecidableEq, Repr

/-- Rails, temperature and wear beside their registers (20_package_power_life.md). Monitors are numbered 1,024 * kind +
monitor; times powered and equivalent ages are in seconds and in 2^-20 seconds. -/
structure WearSt where
  /-- The valid copies of the wear record in boot flash, newest first, at most 16 (R496). -/
  copies   : List WearCopy
  /-- A valid copy was found at Start-up. -/
  found    : Bool
  /-- When the record was last saved. -/
  savedAt  : Nat
  /-- Consecutive measurements under the threshold, and the monitors below threshold (R495). -/
  under    : List (Nat × Nat)
  low      : List Nat
  lowest   : List (Nat × Nat)
  /-- Steps the Col wear rule has lowered the VID code by, and when it last did (R495). -/
  vidRise  : Nat
  vidAt    : Nat
  powered  : Nat
  equiv    : Nat
  /-- Seconds in each bin of `WEAR.TEMP_HIST`. -/
  hist     : List (Nat × Nat)
  /-- Completed swings of 40 degrees C, and the extreme since the last turn with its direction (R494). -/
  cycles   : Nat
  swing    : Option (Int × Bool)
  /-- Since when the junction has been above `FLT.TJ_WARN` and above 105 degrees C (R493). -/
  warnSince : Option Nat
  critSince : Option Nat
  /-- Rails that have raised RAIL and have not come back (R491). -/
  railOut  : List Nat
  deriving DecidableEq, Repr


/-- The state of the block. -/
structure State where
  /-- Nanoseconds since the model's start of time (log entry 1). -/
  now      : Nat
  /-- The moment of the last release of the internal resets (R463). -/
  resetAt  : Nat
  phase    : Phase
  /-- The registers: every dictionary object and element, by `regKey`, in canonical form. -/
  regs     : List (Nat × Nat)
  /-- The data bytes of the 192 GiB Steppe space (R195), in canonical form. -/
  mem      : List Host.Cell
  /-- The metadata word of each line (R199), by line number, in canonical form. -/
  lineMeta : List (Nat × Nat)
  /-- The bytes of the boot flash (R467), in canonical form. -/
  flash    : List Host.Cell
  /-- The deadlines of the running timers. -/
  timers   : List (Timer × Nat)
  /-- The model's own counter behind free values (log entry 2). -/
  free     : Nat
  /-- What the block has sent and driven, oldest first: the model's own record. -/
  out      : List Out
  /-- The management paths and the dictionary service (02_object_dictionary.md). -/
  mgmt : Mgmt
  /-- The lanes (03_lanes.md). -/
  lane : LaneSt
  /-- The edge ports (04_edge_ports.md). -/
  edge : EdgeSt
  /-- The fault collector (16_fault_collection.md). -/
  flt : FltSt
  /-- Counters and telemetry (17_counters_and_telemetry.md). -/
  tlm : TlmSt
  /-- Boot, fuses and debug access (19_reset_boot_lifecycle.md). -/
  boot : BootSt
  /-- The Basin (05_basin.md). -/
  basin : BasinSt
  /-- The egress scheduler (06_egress_scheduling.md). -/
  sched : SchedSt
  /-- The Pass links (07_pass_links.md). -/
  pass : PassSt
  /-- The slot controllers (18_slot_power.md). -/
  slot : SlotSt
  /-- Tenancies and mailboxes (14_tenancies_and_mailboxes.md). -/
  ten : TenSt
  /-- The twin pair (13_twin_pairs.md). -/
  twin : TwinSt
  /-- The port agents and the homes (10_coherence_flows.md, 11_races_and_progress.md). -/
  coh : CohSt
  /-- Steppe memory (08_steppe_memory.md). -/
  stp : StpSt
  /-- Tracts and the region guard (09_pool_and_guard.md). -/
  guard : GuardSt
  /-- The Col array (12_col_engines.md). -/
  col : ColSt
  /-- The Glen movers (15_glen_movers.md). -/
  glen : GlenSt
  /-- Rails, temperature and wear (20_package_power_life.md). -/
  wear : WearSt
  /-- The commands that wait, first in first out. -/
  pending  : List Instr
  deriving DecidableEq, Repr

/-- Why the block stops with a fault. -/
inductive Fault where
  /-- An access to a Steppe address at or above 192 GiB (R195, R196), where no location exists. Raised by the commands
  that bring a bare Steppe address (STEPPE_READ, STEPPE_WRITE, SCRUB_LINE). Safe: the spec gives no effect to an access
  past the space, and its own readers never make one. -/
  | noSuchAddress
  deriving DecidableEq, Repr

/-- Why a command is refused. -/
inductive Refusal where
  /-- The command named has no meaning in this model yet. Raised by a refused arm of `exec` only. Safe: nothing is
  claimed of the command. -/
  | notModelled (mnemonic : String)
  deriving DecidableEq, Repr

/-- The block right after reset: every register at its default, every queue empty, the interval timer (R424) and the
hourly timers of the reserve self-tests (R89) running, the boot ROM about
to run (R462, R463, R466). The values the spec does not state are named in log entries 1, 2, 5 and 6. -/
def State.reset : State where
  now := 0
  resetAt := 0
  phase := .running
  regs := []
  mem := []
  lineMeta := []
  flash := []
  timers := (⟨.interval, 0, 0⟩, 1000000000) :: (List.range 16).map (fun g => (⟨.selfTestHour, g, 0⟩, 0))
  free := 0
  out := []
  mgmt := ⟨⟨64 * 1000000000, 0⟩, ⟨16 * 1000000000, 0⟩, [], [], [], [], [], 3, none, [], 0, 0, [], none, 0, [], none, [], 0, false⟩
  lane := ⟨[], [], [], [], [], [], [], [], [], [], [], [], [], false⟩
  edge := ⟨[], [], [], [], [], [], [], [], [], []⟩
  flt := ⟨[], [], [], false, [], false⟩
  tlm := ⟨[], none, none, 0, 0, 1000, 0, false, 0, 0, 0, 0, 0, [], 0, 0, false⟩
  boot := ⟨.rom, 0, 0, 0, false, 0, 0, [0, 0, 0, 0], 0, 0, 0, .bypass, 0, 0, false⟩
  basin := ⟨[], [], [], [], [], 0, [], ⟨4096 * 1000000000, 0⟩, [], false⟩
  sched := ⟨[], [], [], [], [], [], [], [], [], []⟩
  pass := ⟨[], []⟩
  slot := ⟨[], [], []⟩
  ten := ⟨[], [], [], [], [], [], [], [], [], 0, false⟩
  twin := ⟨[], 0, [], [], [], [], [], [], [], 0, 0, 0, none, 0, false, true, none, [], false⟩
  coh := ⟨[], [], 0, [], [], [], [], [], [], [], [], [], [], [], [], []⟩
  stp := ⟨[], [], [], [], 0, false, [], 0, 0, [], [], [], [], [], [], [], [], [], []⟩
  guard := ⟨[], [], [], none, []⟩
  col := ⟨0, [], [], [], [], none, [], [], [], [], [], [], []⟩
  glen := ⟨[], [], [], [], [], []⟩
  wear := ⟨[], false, 0, [], [], [], 0, 0, 0, 0, [], 0, none, none, none, []⟩
  pending := []

end Sys2Proof.Machine
end

