-- ==== Sys2Proof/Machine/Ops.lean ====
section
/-! DEFINITION. The named operations every meaning is written over: time, registers, counters, timers, outputs, memory,
free values, and the frame of a meaning (`run`, `runAon`). -/
namespace Sys2Proof.Machine

/-- The outcome of a command. -/
abbrev Res := Host.Outcome State Fault Refusal

/-! ### Registers -/

/-- The key of element `e` of object `a` in the register store. -/
def regKey (a e : Nat) : Nat := a * 65536 + e % 65536

/-- The default severity of a source (R146, R192, R223, R277, R303, R331, R402, R418), none for a source no row names. -/
def sourceSeverity (g b : Nat) : Option Nat :=
  let pick (l : List Nat) : Option Nat := l[b]?
  match g with
  | 0 => pick [2, 0, 1, 3, 2]
  | 1 => pick [0, 0, 0, 0]
  | 2 => if b < 16 then some 2 else if b < 18 then some 4 else none
  | 3 => pick [0, 0, 0]
  | 4 => pick [3, 0, 2, 0, 3]
  | 5 => pick [1, 3, 3, 1, 4, 4, 4, 4, 2]
  | 6 => pick [1, 1, 3, 0, 2, 2, 1, 3, 4]
  | 7 => pick [1, 3, 3, 3, 0, 2, 2, 2, 0, 2, 4, 4]
  | 8 => pick [0, 0]
  | 9 => if b < 16 then pick [1, 0, 2, 0, 4] else [0, 2, 3, 0, 2, 0][b - 16]?
  | 10 => pick [0, 0, 0, 0, 2, 2, 4, 1]
  | 11 => pick [0, 2, 2, 2, 0, 2]
  | 12 => pick [0, 1, 3, 3]
  | 13 => pick [0, 0, 1]
  | 14 => if b < 32 then some 2 else none
  | 15 => if b < 32 then some 3 else none
  | 16 => pick [2, 1, 3, 0]
  | 17 => pick [2, 2, 2, 2]
  | 18 => pick [2, 4, 3]
  | _ => none

/-- Whether a source is self-recovering at chip reset (the sources R418 marks with a star). -/
def sourceStarred (g b : Nat) : Bool :=
  match g with
  | 0 | 1 | 13 | 14 => true
  | 3 => b == 0
  | _ => false

/-- The data-path groups of R409: Basin, Pass, Steppe, Directory, Col. -/
def dataPathGroup (g : Nat) : Bool := [5, 6, 7, 9, 10].contains g

/-- `FLT.SOURCE_CFG` of a source at chip reset (R407, R414, R418). -/
def sourceCfgDefault (n : Nat) : Nat :=
  match sourceSeverity (n / 32) (n % 32) with
  | none => 0
  | some sev =>
    at_ 31 (b2n (sourceStarred (n / 32) (n % 32))) + at_ 27 sev + at_ 24 2
      + at_ 21 (b2n (sev == 4 && dataPathGroup (n / 32))) + at_ 20 (b2n (3 ≤ sev)) + at_ 17 (b2n (sev == 4)) + at_ 16 (b2n (2 ≤ sev))

/-- `BASIN.RESERVE` at chip reset (R130), by element 3 * port + class: REQ, RSP and COH of an external and of an internal port. -/
def reserveDefault (i : Nat) : Nat :=
  if i < 192 then (if i % 3 = 2 then 64 else 128) else (if i % 3 = 0 then 512 else 1024)

/-- What an object's element holds after chip reset where the Default column does not give one number for all of them. -/
def specialDefault (a e : Nat) : Option Nat :=
  if a = Obj.LANE_PORT_KIND then some (if e = 56 ∨ e = 60 then 3 else if e % 4 = 0 ∧ e ≤ 52 then 1 else 0)
  else if a = Obj.EDGE_AGENT_MAP then some (if e ≤ 13 then 0x80000000 + 0x00040000 * e else 0)
  else if a = Obj.EDGE_AGENT_STATE then some (if e ≤ 13 then 1 else 0)
  else if a = Obj.BASIN_RESERVE then some (reserveDefault e)
  else if a = Obj.SCHED_GROUP_PORT then some (if 4024 ≤ e then e - 4024 else 0xFF)
  else if a = Obj.SCHED_PORT_DEFAULT then some (4024 + e)
  else if a = Obj.SCHED_DEVICE_TC then some (if e = 2 then 5 else 6)
  else if a = Obj.GUARD_DEFAULT_BASE then some (if e = 0 then 0x8000000000000000 else 0)
  else if a = Obj.GUARD_DEFAULT_LIMIT then some (if e = 0 then 0x0000030FFFFFFFFF else 0)
  else if a = Obj.COL_SLICE_MAP then some (e % 256)
  else if a = Obj.COL_SLICE_BASE then some (e % 256)
  else if a = Obj.FLT_SOURCE_CFG then some (sourceCfgDefault e)
  else if a = Obj.SLOT_STATUS then some 0x00800000
  else if a = Obj.STAT_DUMP_SLOT_SIZE then some 1048576
  else if a = Obj.STAT_DUMP_SLOTS then some 768
  else if a = Obj.COL_HASH_RESULT then some 0x8000000000000000
  else if a = Obj.WEAR_MARGIN_LANE ∨ a = Obj.WEAR_MARGIN_COL ∨ a = Obj.WEAR_MARGIN_STEPPE ∨ a = Obj.WEAR_MARGIN_PACKAGE then some 100
  else if a = Obj.WEAR_THRESHOLD then some (if e = 3 then 25 else 20)
  else none

/-- What the element with register key `k` holds after chip reset (R9, R12). -/
def defaultOf (k : Nat) : Nat :=
  match specialDefault (k / 65536) (k % 65536) with
  | some v => v
  | none => match findObj (k / 65536) with
    | some o => o.dflt
    | none => 0

/-- The value of element `e` of object `a`; an object that is no TABLE is read at element 0. -/
def State.reg (s : State) (a : Nat) (e : Nat := 0) : Nat := sparseGet defaultOf s.regs (regKey a e)

/-- Set element `e` of object `a`. -/
def State.setReg (s : State) (a e v : Nat) : State :=
  { s with regs := sparsePut defaultOf s.regs (regKey a e) v }

/-- A field of a register. -/
def State.regBits (s : State) (a e lo w : Nat) : Nat := bits (s.reg a e) lo w

/-- Bit `n` of a register. -/
def State.regBit (s : State) (a e n : Nat) : Bool := bitAt (s.reg a e) n

/-- Set a field of a register. -/
def State.setRegBits (s : State) (a e lo w x : Nat) : State := s.setReg a e (setBits (s.reg a e) lo w x)

/-- Set or clear bit `n` of a register. -/
def State.putRegBit (s : State) (a e n : Nat) (b : Bool) : State := s.setReg a e (putBit (s.reg a e) n b)

/-! ### Time and timers -/

/-- `dt` nanoseconds pass. -/
def State.advance (s : State) (dt : Nat) : State := { s with now := s.now + dt }

/-- Nanoseconds since chip reset. -/
def State.sinceReset (s : State) : Nat := s.now - s.resetAt

/-- Start timer `t`, or start it again, to end `after` ns from now. -/
def State.arm (s : State) (t : Timer) (after : Nat) : State :=
  { s with timers := (t, s.now + after) :: s.timers.filter (fun e => e.1 != t) }

/-- Stop timer `t`. -/
def State.disarm (s : State) (t : Timer) : State := { s with timers := s.timers.filter (fun e => e.1 != t) }

/-- The moment timer `t` ends, none while it does not run. -/
def State.deadline (s : State) (t : Timer) : Option Nat := (s.timers.find? (fun e => e.1 == t)).map (·.2)

/-- Timer `t` runs. -/
def State.armed (s : State) (t : Timer) : Bool := (s.deadline t).isSome

/-- Timer `t` runs and has reached its end. -/
def State.due (s : State) (t : Timer) : Bool :=
  match s.deadline t with
  | some d => decide (d ≤ s.now)
  | none => false

/-- Do `f` when timer `t` has reached its end, and stop the timer; an expiry that is not due changes nothing
(log entry 1). -/
def State.onDue (s : State) (t : Timer) (f : State → State) : State := if s.due t then f (s.disarm t) else s

/-! ### Outputs and free values -/

/-- Something leaves the block. -/
def State.emit (s : State) (o : Out) : State := { s with out := s.out ++ [o] }

/-- The packets an MCTP message is sent in, of 64 bytes each but the last (R56: the baseline transmission unit). -/
def mctpPackets (bs : List Byte) : List (List Byte) := (List.range ((bs.length + 63) / 64)).map (fun i => (bs.drop (64 * i)).take 64)

/-- An MCTP message leaves, packet by packet; the sequence number counts from 0 modulo 4 (log entry 70). -/
def sendMctp (s : State) (body : List Byte) : State :=
  let l := mctpPackets body
  (List.range l.length).foldl (fun t i => t.emit (.mctp (i == 0) (i + 1 == l.length) (i % 4) ((l[i]?).getD []))) s

/-- The next free value (log entry 2). -/
def State.freeNow (s : State) : Nat := Config.freeValue s.free

/-- Use up a free value. -/
def State.useFree (s : State) : State := { s with free := s.free + 1 }

/-! ### Counters -/

/-- Do one thing for each element of a list, in order. -/
def forEach {α : Type} (l : List α) (s : State) (f : State → α → State) : State := l.foldl f s

/-- The counter word after `n` more events (R420): COUNT modulo 2^48, OVF set when it passes 2^48 - 1. -/
def bumpWord (w n : Nat) : Nat :=
  let c := w % 2 ^ 48 + n
  let ovf := bitAt w 63 || decide (2 ^ 48 ≤ c)
  c % 2 ^ 48 + at_ 63 (b2n ovf)

/-- The address word of R37 for an element (none: no element). -/
def addressWord (a : Nat) (e : Option Nat) : Nat :=
  at_ 32 (a / 256) + at_ 24 (a % 256) + match e with
    | some n => at_ 23 1 + n % 65536
    | none => 0

/-- The address word that names a counter element: with its element number where the object is a TABLE. -/
def counterAddress (a e : Nat) : Nat :=
  match findObj a with
  | some o => addressWord a (if o.count = 0 then none else some e)
  | none => 0

/-- `n` events of one counter word: its cumulative part and its interval part (R420, R423). -/
def bumpCounter (n : Nat) (s : State) (k : Nat × Nat) : State :=
  let s1 := s.setReg k.1 k.2 (bumpWord (s.reg k.1 k.2) n)
  let key := regKey k.1 k.2
  { s1 with tlm := { s1.tlm with intervals := assocPut s1.tlm.intervals key (((assocGet s1.tlm.intervals key).getD 0 + n) % 2 ^ 48) } }

/-- The programmable counters that count with the elements named by `hit`, `fuel` steps of selecting one another (R431). -/
def progHits (s : State) : Nat → List Nat → List Nat
  | 0, _ => []
  | fuel + 1, hit =>
    let new := (List.range 8).filter (fun k => s.reg Obj.STAT_PROG_SELECT k != 0 && hit.contains (s.reg Obj.STAT_PROG_SELECT k))
    if new.isEmpty then [] else new ++ progHits s fuel (new.map (counterAddress Obj.STAT_PROG_COUNT))

/-- `n` events of the counter element `e` of `a` (R420, R423, R431), and of the programmable counters that select it. -/
def State.count (s : State) (a e n : Nat) : State :=
  if n = 0 then s else
    forEach (List.range 8 |>.filter (fun k => (progHits s 8 [counterAddress a e]).contains k)) (bumpCounter n s (a, e))
      (fun t k => bumpCounter n t (Obj.STAT_PROG_COUNT, k))

/-- One event of a counter. -/
def State.count1 (s : State) (a e : Nat) : State := s.count a e 1

/-! ### Writes of registers (R8, R10, R65) -/

/-- The stored value after a plain write (R8, R10): RW bits take the new value, W1C bits clear where 1 is written. -/
def storedValue (o : ObjDef) (old v : Nat) : Nat :=
  Nat.lor (Nat.land v o.rw) (old - Nat.land old (Nat.lor o.rw (Nat.land o.w1c v)))

/-- A plain write of a register: the masks of its field map, and nothing else. -/
def plainWrite (s : State) (a e v : Nat) : State :=
  match findObj a with
  | some o => s.setReg a e (storedValue o (s.reg a e) v)
  | none => s

/-- A written value with the bits of reserved and RO fields ignored (R8, R10, R38). -/
def writtenValue (o : ObjDef) (v : Nat) : Nat := if o.ty = 8 ∨ o.ty = 9 then Nat.land v (Nat.lor o.rw (Nat.lor o.w1c o.wo)) else v

/-- The object holds counter words (R420). -/
def isCounter (o : ObjDef) : Bool := o.w1c == 2 ^ 63 && o.rw == 0 && o.ty == 5

/-- The object is a counter object (R421): it holds counter words, or is `FLT.RECOVERIES`, the one that saturates. -/
def isCounterObj (a : Nat) : Bool := a == Obj.FLT_RECOVERIES || (findObj a).elim false isCounter

/-- The last applied write of an object (R65). Counters, `STG.COMMIT` and `STG.DISCARD` are not recorded. -/
def recordWriter (s : State) (path port : Nat) (a : Nat) (e : Option Nat) : State :=
  if isCounterObj a = true ∨ a = Obj.STG_COMMIT ∨ a = Obj.STG_DISCARD then s
  else
    (((s.setReg Obj.STG_LAST_WRITER_PATH 0 path).setReg Obj.STG_LAST_WRITER_PORT 0 port).setReg Obj.STG_LAST_WRITER_ADDR 0 (addressWord a e)).setReg
      Obj.STG_LAST_WRITER_TIME 0 s.sinceReset

/-- The Meadow cores have changed a setting themselves (R65: path 4; log entry 71 says which changes count). -/
def firmwareWrote (s : State) (a : Nat) (e : Option Nat) : State := recordWriter s 4 0 a e

/-! ### Memory -/

/-- Where fronted memory begins in the model's memory: fronted tract t lies at `frontBase + t * 2^28`. -/
abbrev frontBase : Nat := 2 ^ 48

/-- What an unlisted byte of memory reads as: in Steppe 0, the data every line is erased with (R208); in fronted memory
whatever the memory device holds. -/
def memDefault (a : Nat) : Byte := if a < frontBase then 0 else Config.frontedByte a

/-- What an unlisted line's metadata word reads as: the erased tag 0xFFF, TRACKED 0, POISON 0 (R199, R208); a fronted
line carries no tag (R217). LINE_CHECK follows from what the line holds (R203, `storedForm`) and is not kept beside it. -/
def lineDefault (n : Nat) : Nat := if n < frontBase / 64 then at_ 18 0xFFF else 0

/-- What an unlisted byte of the boot flash reads as: erased (log entry 5). -/
def flashDefault (_ : Nat) : Byte := 0xFF

/-- The canonical form of a memory. -/
def Memory.wf (m : List Host.Cell) : Bool := sparseWf memDefault m

/-- One byte of Steppe memory. -/
def State.byte (s : State) (a : Nat) : Byte := sparseGet memDefault s.mem a

/-- Write one byte of Steppe memory. -/
def State.setByte (s : State) (a : Nat) (b : Byte) : State := { s with mem := sparsePut memDefault s.mem a b }

/-- `n` bytes from address `a`. -/
def State.bytes (s : State) (a n : Nat) : List Byte := sparseGetRange memDefault s.mem a n

/-- Write bytes from address `a` on. -/
def State.setBytes (s : State) (a : Nat) (bs : List Byte) : State := { s with mem := sparsePutBytes memDefault s.mem a bs }

/-- Lines `n .. n + k` take a metadata word. -/
def setLineWords (s : State) (n v : Nat) : Nat → State
  | 0 => s
  | k + 1 => { setLineWords s n v k with lineMeta := sparsePut lineDefault (setLineWords s n v k).lineMeta (n + k) v }

/-- The metadata word of a line. -/
def State.lineWord (s : State) (line : Nat) : Nat := sparseGet lineDefault s.lineMeta line

/-- Set the metadata word of a line. -/
def State.setLineWord (s : State) (line v : Nat) : State := { s with lineMeta := sparsePut lineDefault s.lineMeta line v }

/-- `n` bytes of the boot flash from offset `a`. -/
def State.flashBytes (s : State) (a n : Nat) : List Byte := sparseGetRange flashDefault s.flash a n

/-- Write bytes of the boot flash. -/
def State.setFlash (s : State) (a : Nat) (bs : List Byte) : State := { s with flash := sparsePutBytes flashDefault s.flash a bs }

/-! ### Buckets -/

/-- A bucket brought up to `now`: tokens come at `rate` per second up to `cap` (levels in 10^-9 of a token). -/
def Bucket.fill (b : Bucket) (rate cap now : Nat) : Bucket :=
  ⟨min (cap * 1000000000) (b.level + rate * (now - b.since)), now⟩

/-- Whether a bucket holds a whole token. -/
def Bucket.has (b : Bucket) : Bool := decide (1000000000 ≤ b.level)

/-- Draw one token. -/
def Bucket.draw (b : Bucket) : Bucket := { b with level := b.level - 1000000000 }

/-! ### The frame of a meaning -/

/-- Do `f` when the block runs; a block held in reset or without power does nothing. -/
def whenRunning (f : State → State) (s : State) : State := if s.phase = .running then f s else s

/-- The frame of a meaning: `dt` ns pass, and the block, when it runs, does `f`. -/
def run (dt : Nat) (s : State) (f : State → State) : Res := .next (whenRunning f (s.advance dt))

/-- The frame of a meaning of a unit that works as long as the device has power, in a chip reset too (R18, R443). -/
def runPowered (dt : Nat) (s : State) (f : State → State) : Res :=
  .next ((fun t => if t.phase = .unpowered then t else f t) (s.advance dt))

/-- The frame of a meaning of the always-on block (R18), which works through a chip reset too. -/
def runAon (dt : Nat) (s : State) (f : State → State) : Res := .next (f (s.advance dt))

/-! ### What many rules ask -/

/-- The CORE and COL domains are held in reset, CORE_REFCLK being lost (R27, R30). -/
def State.coreHeld (s : State) : Bool := s.lane.held.contains 16

/-- The MGMT domain is held in reset, MGMT_XTAL being lost (R27, R30). -/
def State.mgmtHeld (s : State) : Bool := s.lane.held.contains 17

/-- The Meadow firmware runs (R466): it has started, and its domain is not held in reset. -/
def State.firmware (s : State) : Bool := (s.boot.stage == .firmware || s.boot.stage == .ready) && !s.mgmtHeld

/-- The device state of R17, in the code of `DEV.STATE`. -/
def State.devState (s : State) : Nat := s.reg Obj.DEV_STATE

/-- The SWITCH field the device sends: its domain switch number, 0xFF while unset (R48). -/
def State.switchField (s : State) : Nat := s.reg Obj.PASS_SWITCH_NUMBER

/-- The switch number the device uses as its own inside values: 0 while it is unset (R48). -/
def State.ownSwitch (s : State) : Nat := if s.switchField = 0xFF then 0 else s.switchField

/-- The telemetry time base (R433). -/
def State.timeBase (s : State) : Nat := ((s.now : Int) + s.tlm.offset).toNat % 2 ^ 64

/-- Bind the result of looking something up: nothing found changes nothing. -/
def State.withSome {α : Type} (s : State) (o : Option α) (f : α → State) : State :=
  match o with
  | some x => f x
  | none => s

end Sys2Proof.Machine
end

