-- ==== Sys2Proof/Machine/DirEnt.lean ====
section
/-! DEFINITION. Directory entries and where they are held (R250 to R252, R256): their fields, sets and ways, the cached copy. -/
namespace Sys2Proof.Machine

/-! ### Line keys -/

/-- The fields of a domain line key K (R250): home switch, tract, line index in the tract; and its local part L. -/
def keyHome (k : Nat) : Nat := k / 2 ^ 41 % 16
def keyLine (k : Nat) : Nat := k % 2 ^ 41
def keyTract (k : Nat) : Nat := keyLine k / 2 ^ 22
/-! ### Entries (R251, R252) -/

/-- An entry: its STATE (0 Invalid, 1 Shared, 2 Owned), REMOTE and SHARERS. -/
structure Ent where
  st      : Nat
  remote  : Nat
  sharers : Nat
  deriving DecidableEq, Repr

/-- No entry. -/
def Ent.invalid : Ent := ⟨0, 0, 0⟩

/-- The entry a way holds. -/
def entOf (w : Nat) : Ent := ⟨bits w 126 2, bits w 64 16, bits w 0 64⟩

/-- PROXY of a way. -/
def wayProxy (w : Nat) : Bool := bitAt w 125

/-- The line key K of a way: HOME and LINE. -/
def wayKey (w : Nat) : Nat := bits w 121 4 * 2 ^ 41 + bits w 80 41

/-- The 16 bytes of an entry as one number (R251); no entry is an all-zero way. -/
def Ent.word (e : Ent) (proxy : Bool) (k : Nat) : Nat :=
  if e.st = 0 then 0 else at_ 126 e.st + at_ 125 (b2n proxy) + at_ 121 (keyHome k) + at_ 80 (keyLine k) + at_ 64 e.remote + e.sharers

/-- An entry that no holder is left in is Invalid (R252). -/
def Ent.tidy (e : Ent) : Ent := if e.remote = 0 ∧ e.sharers = 0 then Ent.invalid else e

/-- The holders of an entry, local agents first. -/
def Ent.holders (e : Ent) : List Requester := (bitList e.sharers 64).map Requester.agent ++ (bitList e.remote 16).map Requester.switch

/-- An entry lists a holder. -/
def Ent.lists (e : Ent) : Requester → Bool
  | .agent a => bitAt e.sharers a
  | .switch r => bitAt e.remote r
  | .device => false

/-- An entry without a holder. -/
def Ent.drop (e : Ent) : Requester → Ent
  | .agent a => Ent.tidy { e with sharers := putBit e.sharers a false }
  | .switch r => Ent.tidy { e with remote := putBit e.remote r false }
  | .device => e

/-- An entry in state `st` with a holder more: Shared keeps the others, Owned has this one only (R252). -/
def Ent.grant (e : Ent) (st : Nat) : Requester → Ent
  | .agent a => if st = 2 then ⟨2, 0, 2 ^ a⟩ else ⟨1, e.remote, putBit e.sharers a true⟩
  | .switch r => if st = 2 then ⟨2, 2 ^ r, 0⟩ else ⟨1, putBit e.remote r true, e.sharers⟩
  | .device => e

/-- An entry that is exactly the ownership of `q`. -/
def Ent.ownedBy (e : Ent) (q : Requester) : Bool := e.st == 2 && e.lists q

/-! ### Sets and ways (R250) -/

/-- The directory-store set of a line. -/
def dirSet (k : Nat) : Nat := sliceOf k * 24576 + Nat.xor (Nat.xor k (k / 2 ^ 15)) (k / 2 ^ 30) % 24576

/-- The Steppe address of a way. -/
def wayAddr (set way : Nat) : Nat := 0x2800000000 + 256 * set + 16 * way

/-- A way as the store holds it. -/
def State.storeWord (s : State) (set way : Nat) : Nat := ofLe (s.bytes (wayAddr set way) 16)

/-- A way holds the entry of a line: the home or twin entry, or the proxy entry (R345). -/
def isFor (proxy : Bool) (k w : Nat) : Bool := bits w 126 2 != 0 && wayProxy w == proxy && wayKey w == k

/-- The cached entry of a line in an engine. -/
def State.cachedEnt (s : State) (n : Nat) (proxy : Bool) (k : Nat) : Option Cached :=
  s.coh.cache.find? (fun c => c.engine == n && isFor proxy k c.entry)

/-- A way as it stands: what the cache holds of it, else the store. -/
def State.wayWord (s : State) (set way : Nat) : Nat :=
  match s.coh.cache.find? (fun c => dirSet c.key == set && c.way == way) with
  | some c => c.entry
  | none => s.storeWord set way

/-- The way of the store that holds a line's entry. -/
def State.storedWay (s : State) (proxy : Bool) (k : Nat) : Option Nat := (List.range 16).find? (fun w => isFor proxy k (s.storeWord (dirSet k) w))

end Sys2Proof.Machine
end

