-- ==== Sys2Proof/Machine/BasinOps.lean ====
section
/-! DEFINITION. Shared operations of the ports and the Basin: which ports exist, tags and queues of messages, charging
and freeing cells, discarding a port's queues (05_basin.md, 06_egress_scheduling.md). -/
namespace Sys2Proof.Machine

/-- A pair state of `TWIN.STATE` (R348): 0 Unpaired, 1 Joining, 2 Resync, 3 Paired, 4 Split, 5 Survivor. -/
def State.pairState (s : State) : Nat := s.regBits Obj.TWIN_STATE 0 29 3

/-! ### Ports (R71, R72) -/

/-- The split of a lane group (R71). -/
def State.split (s : State) (g : Nat) : Nat := s.reg Obj.LANE_GROUP_SPLIT g

/-- Whether a split names the `k`-th port of its group, and the first lane and width it gives it (R71). -/
def splitPort (split k : Nat) : Option (Nat × Nat) :=
  match split, k with
  | 0, 0 => some (0, 16)
  | 1, 0 => some (0, 8)
  | 1, 2 => some (8, 8)
  | 2, 0 => some (0, 4)
  | 2, 1 => some (4, 4)
  | 2, 2 => some (8, 4)
  | 2, 3 => some (12, 4)
  | 3, 0 => some (0, 8)
  | 3, 2 => some (8, 4)
  | 3, 3 => some (12, 4)
  | _, _ => none

/-- Port `p` exists (R71). -/
def State.portExists (s : State) (p : Nat) : Bool := decide (p < 64) && (splitPort (s.split (p / 4)) (p % 4)).isSome

/-- The width of a port in lanes, 0 where it does not exist. -/
def State.portWidth (s : State) (p : Nat) : Nat :=
  match splitPort (s.split (p / 4)) (p % 4) with
  | some (_, w) => w
  | none => 0

/-- The first lane of a port, as a global lane number (R69). -/
def State.portFirstLane (s : State) (p : Nat) : Nat :=
  16 * (p / 4) + match splitPort (s.split (p / 4)) (p % 4) with
    | some (l, _) => l
    | none => 0

/-- The global lane numbers of a port (R69, R71). -/
def State.portLanes (s : State) (p : Nat) : List Nat := (List.range (s.portWidth p)).map (s.portFirstLane p + ·)

/-- The port an active global lane serves, none where no split names one. -/
def State.lanePort (s : State) (lane : Nat) : Option Nat :=
  ((List.range 4).map (4 * (lane / 16) + ·)).find? (fun p => s.portExists p && (s.portLanes p).contains lane)

/-- The kind of a port that exists: 0 off, 1 edge, 2 Pass-1, 3 Pass-2 (R72). -/
def State.portKind (s : State) (p : Nat) : Nat := if s.portExists p then s.reg Obj.LANE_PORT_KIND p else 0

/-- The port is an edge port. -/
def State.isEdge (s : State) (p : Nat) : Bool := s.portKind p == 1

/-- The port is of a Pass kind. -/
def State.isPass (s : State) (p : Nat) : Bool := s.portKind p == 2 || s.portKind p == 3

/-- The role of an edge port: 0 host, 1 downstream, 2 fabric (R96). -/
def State.role (s : State) (p : Nat) : Nat := s.reg Obj.EDGE_PORT_ROLE p

/-- An edge port in the host role. -/
def State.isHost (s : State) (p : Nat) : Bool := s.isEdge p && s.role p == 0

/-- An edge port in the downstream role. -/
def State.isDownstream (s : State) (p : Nat) : Bool := s.isEdge p && s.role p == 1

/-- An edge port in the fabric role. -/
def State.isFabric (s : State) (p : Nat) : Bool := s.isEdge p && s.role p == 2

/-- A port code (R125): an existing external port that is not off, or an internal port. -/
def State.portCode (s : State) (p : Nat) : Bool := if p < 64 then s.portKind p != 0 else decide (p < 72)

/-- The data link layer of an edge port is up. -/
def State.edgeUp (s : State) (p : Nat) : Bool := s.regBit Obj.EDGE_PORT_STATE p 0

/-- The link state of a Pass port (R183): 0 Disabled, 1 Detect, 2 Train, 3 Config, 4 Up, 5 Recovery, 6 Held. -/
def State.passState (s : State) (p : Nat) : Nat := s.regBits Obj.PASS_LINK_STATE p 28 4

/-- A port's link is up, as far as training is concerned (R90). -/
def State.portUp (s : State) (p : Nat) : Bool :=
  if s.isPass p then s.passState p == 4 || s.passState p == 5 || s.passState p == 3 else s.edgeUp p

/-- The Pass state of a port, fresh where none is held. -/
def State.passPort (s : State) (p : Nat) : PassPort := (assocGet s.pass.ports p).getD freshPort

/-- Change the Pass state of a port. -/
def State.setPass (s : State) (p : Nat) (q : PassPort) : State :=
  { s with pass := { s.pass with ports := assocPut s.pass.ports p q } }

/-! ### Tags and queues (R149, R150) -/

/-- The class of a message (R129). -/
def msgClass : MsgSort → BasinClass
  | .io _ r => if r then .rsp else .req
  | .functionCompletion _ _ => .rsp
  | .mem _ r => if r then .rsp else .req
  | .cache r => if r then .rsp else .req
  | .control _ => .coh
  | .glen _ => .req
  | .pass _ tc r => if tc = 7 then .coh else if r then .rsp else .req
  | .mirror => .req
  | .log => .req
  | .management => .req

/-- The code of a Basin class. -/
def basinCode : BasinClass → Nat
  | .req => 0
  | .rsp => 1
  | .coh => 2

/-- The tenancy bound to a port (R149, `TEN.PORT_BIND`), none where none is. -/
def State.portTenancy (s : State) (p : Nat) : Option Nat :=
  let t := s.reg Obj.TEN_PORT_BIND p
  if p < 64 ∧ t < 4096 then some t else none

/-- A tenancy's state: 0 Free, 1 Live, 2 Resetting (R366). -/
def State.tenState (s : State) (t : Nat) : Nat := s.regBits Obj.TEN_STATE t 30 2

/-- The traffic class of CXL.mem of a tenancy (R150); with no tenancy the default of `SCHED.MEM_TC` (log entry 20). -/
def State.memTc (s : State) : Option Nat → Nat
  | some t => s.reg Obj.SCHED_MEM_TC t
  | none => 3

/-- A vPPB with the word `w` holds the logical device it names: it is bound, or Unbinding and has not let go (R111, R113). -/
def vppbHolds (w : Nat) : Bool := bitAt w 29 || bits w 30 2 == 3

/-- The host port in whose hierarchy a vPPB holds downstream port `p` (R110). -/
def State.vhPort (s : State) (p : Nat) : Option Nat :=
  ((s.regs.filter (fun kv => kv.1 / 65536 == Obj.EDGE_VPPB && vppbHolds kv.2 && bits kv.2 4 6 == p)).map (fun kv => kv.1 % 65536 / 64)).head?

/-- The tenancy bound to the virtual hierarchy of port `p` (R150): a downstream port is in the hierarchy of the host port
the message goes to, or else of one that it is bound to. -/
def State.vhTenancy (s : State) (p : Nat) (targets : List Target) : Option Nat :=
  if s.isDownstream p then
    match ((targets.map (·.egress)).find? (fun e => s.isHost e)).or (s.vhPort p) with
    | some h => s.portTenancy h
    | none => none
  else s.portTenancy p

/-- The tenancy tag and traffic class of a message from ingress port `p` (R150). -/
def State.tagOf (s : State) (p : Nat) (targets : List Target) : MsgSort → Option Nat × Nat
  | .io tc _ => (s.vhTenancy p targets, bits (s.reg Obj.SCHED_IO_TC_MAP p) (4 * (tc % 8)) 3)
  | .functionCompletion t tc => (t, tc)
  | .mem t _ => (t, s.memTc t)
  | .cache _ => (s.vhTenancy p targets, s.memTc (s.vhTenancy p targets))
  | .control t => (t, 7)
  | .glen t => (some t, bits (s.reg Obj.GLEN_CHAN_CFG t) 0 3)
  | .pass t tc _ => (t, tc)
  | .mirror => (none, s.reg Obj.SCHED_DEVICE_TC 0)
  | .log => (none, s.reg Obj.SCHED_DEVICE_TC 1)
  | .management => (none, s.reg Obj.SCHED_DEVICE_TC 2)

/-- A rebind of the group waits (R151). -/
def State.rebinding (s : State) (g : Nat) : Bool := s.regBit Obj.SCHED_GROUP_STATE g 30

/-- The live binding of a group, 0xFF unbound (R149, R151). -/
def State.groupPort (s : State) (g : Nat) : Nat :=
  if s.rebinding g then s.regBits Obj.SCHED_GROUP_STATE g 0 7 else s.reg Obj.SCHED_GROUP_PORT g

/-- The queue a message with tag `t` and class `c` joins toward egress port `e` (R149). -/
def State.queueOf (s : State) (t : Option Nat) (c e : Nat) : Nat :=
  match t with
  | some g => if s.groupPort g = e then 8 * g + c else 8 * s.reg Obj.SCHED_PORT_DEFAULT e + c
  | none => 8 * s.reg Obj.SCHED_PORT_DEFAULT e + c

/-! ### Charging cells (R130, R131) -/

/-- The reserve that counts for an ingress port and class: 0 for a port that is off or does not exist (R130). -/
def State.reserve (s : State) (p c : Nat) : Nat := if s.portCode p then s.reg Obj.BASIN_RESERVE (3 * p + c) else 0

/-- Cells charged to an ingress port and class. -/
def State.used (s : State) (p c : Nat) : Nat := s.reg Obj.BASIN_USE (3 * p + c)

/-- Change the cells charged to a port and class, and with them the shared use (R131). -/
def State.setUsed (s : State) (p c n : Nat) : State :=
  let old := s.used p c - s.reserve p c
  let s' := s.setReg Obj.BASIN_USE (3 * p + c) n
  s'.setReg Obj.BASIN_SHARED_USED 0 (s.reg Obj.BASIN_SHARED_USED - old + (n - s.reserve p c))

/-- Count `n` more cells queued for egress port `e` (R131). -/
def State.addEgress (s : State) (e n : Nat) : State := s.setReg Obj.BASIN_EGRESS_USE e (s.reg Obj.BASIN_EGRESS_USE e + n)

/-- Count `n` fewer cells queued for egress port `e`. -/
def State.subEgress (s : State) (e n : Nat) : State := s.setReg Obj.BASIN_EGRESS_USE e (s.reg Obj.BASIN_EGRESS_USE e - n)

/-- Cells of a bank that are in use (R123). -/
def State.bankUse (s : State) (b : Nat) : Nat :=
  s.basin.stored.foldl (fun n c => n + (c.ptrs.filter (fun p => p % 64 == b)).length) 0

/-- A cell pointer is in use. -/
def State.cellUsed (s : State) (ptr : Nat) : Bool := s.basin.stored.any (fun c => c.ptrs.contains ptr)

/-- The stored cell or chain with an identity. -/
def State.storedOf (s : State) (id : Nat) : Option Stored := s.basin.stored.find? (fun c => c.id == id)

/-- Replace a stored cell. -/
def State.putStored (s : State) (c : Stored) : State :=
  { s with basin := { s.basin with stored := s.basin.stored.map (fun d => if d.id == c.id then c else d) } }

/-- The core cycles from `a` to `b`, of 2/3 ns each (R19). -/
def coreCycles (a b : Nat) : Nat := b * 3 / 2 - a * 3 / 2

/-- One target of a stored cell is done: REF falls, and at 0 the cells and entries are free again (R131, R138). -/
def State.refDown (s : State) (id : Nat) : State :=
  s.withSome (s.storedOf id) fun c =>
    if 1 < c.ref then s.putStored { c with ref := c.ref - 1 }
    else
      let s1 := s.setUsed c.ingress (basinCode c.cls) (s.used c.ingress (basinCode c.cls) - c.n)
      let s2 := { s1 with basin := { s1.basin with stored := s1.basin.stored.filter (fun d => d.id != id) } }
      let s3 := s2.setReg Obj.BASIN_FREE_CELLS 0 (s2.reg Obj.BASIN_FREE_CELLS + c.ptrs.length)
      if c.mcast then s3.setReg Obj.BASIN_MCAST_ENTRIES 0 (s3.reg Obj.BASIN_MCAST_ENTRIES - c.fan) else s3

/-- The cells of an entry count toward its egress port's use only outside class COH (R131). -/
def State.entryCells (s : State) (id : Nat) : Nat :=
  match s.storedOf id with
  | some c => if c.cls = .coh then 0 else c.n
  | none => 0

/-- The egress port holds an entry. -/
def State.egressBusy (s : State) (e : Nat) : Bool := s.basin.entries.any (fun x => x.egress == e) || s.basin.reading.any (fun x => x.egress == e)

/-- The time of an egress port's stall episode runs from now on, or no episode runs (R142). -/
def setStall (s : State) (e : Nat) (run : Bool) : State :=
  { s with basin := { s.basin with stallSince := (if run then [(e, s.now)] else []) ++ s.basin.stallSince.filter (fun x => x.1 != e) } }

/-! ### Eligible queues (R153, R154) -/

/-- A group has an eligible queue. -/
def State.groupEligible (s : State) (g : Nat) : Bool := s.sched.eligible.any (fun q => q / 8 == g)

/-- A queue loses eligibility; its group's ACTIVE bit follows. -/
def dropEligible (s : State) (q : Nat) : State :=
  let s1 := { s with sched := { s.sched with eligible := s.sched.eligible.filter (· != q) } }
  s1.putRegBit Obj.SCHED_GROUP_STATE (q / 8) 31 (s1.groupEligible (q / 8))

/-- Queues that hold no cell any more are no longer eligible. -/
def dropEmpty (s : State) : State :=
  forEach (s.sched.eligible.filter (fun q => !s.basin.entries.any (fun x => x.queue == q))) s dropEligible

/-! ### Discarding (R141) -/

/-- Discard one entry: its cells leave the egress use, REF falls (R138, R141). -/
def discardEntry (s : State) (x : Entry) : State :=
  let n := (s.storedOf x.id).elim 0 (·.n)
  let s1 := s.count Obj.BASIN_DISCARDED x.egress n
  let s2 := s1.subEgress x.egress (s1.entryCells x.id)
  let s3 := { s2 with basin := { s2.basin with entries := s2.basin.entries.filter (fun y => !(y.id == x.id && y.egress == x.egress && y.rewrite == x.rewrite)) } }
  s3.refDown x.id

/-- Discard a read that has not ended (R141): its target is done with the cell unless an entry of the target remains. -/
def discardReading (s : State) (x : Reading) : State :=
  if x.last then
    let n := (s.storedOf x.id).elim 0 (·.n)
    let s1 := s.count Obj.BASIN_DISCARDED x.egress n
    (s1.subEgress x.egress (s1.entryCells x.id)).refDown x.id
  else s

/-- Discard the targets at port `p` of a cell that is not yet wholly written. -/
def discardUnwritten (p : Nat) (s : State) (c : Stored) : State :=
  forEach (c.targets.filter (fun t => t.egress == p)) s fun t x =>
    let t1 := (t.count Obj.BASIN_DISCARDED p c.n).subEgress p (t.entryCells c.id)
    (t1.withSome (t1.storedOf c.id) fun d => t1.putStored { d with targets := d.targets.filter (· != x) }).refDown c.id

/-- Count the core cycles that an offered cell has waited since they were counted last (R131, R148). -/
def countWait (s : State) (c : Offered) : State :=
  match c.waits with
  | some t => s.count Obj.BASIN_ADMIT_WAIT (3 * c.ingress + basinCode c.cls) (coreCycles t s.now)
  | none => s

/-- The waits that run are counted up to now. -/
def settleWaits (s : State) : State :=
  let s1 := forEach s.basin.fifo s countWait
  { s1 with basin := { s1.basin with fifo := s1.basin.fifo.map (fun c => { c with waits := c.waits.map (fun _ => s1.now) }) } }

/-- The cycles in which the shaper of a port has held back a message are counted up to now, and the hold goes on or ends (R161). -/
def settleShaped (s : State) (e : Nat) (goes : Bool) : State :=
  let s1 := s.withSome (assocGet s.sched.heldSince e) fun t => s.count Obj.SCHED_SHAPED_CYCLES e (coreCycles t s.now)
  { s1 with sched := { s1.sched with heldSince := if goes then assocPut s1.sched.heldSince e s1.now else assocDrop s1.sched.heldSince e } }

/-- The new binding of a rebinding group takes effect (R151). -/
def rebindNow (s : State) (g : Nat) : State :=
  if s.rebinding g then
    let s1 := s.setReg Obj.SCHED_GROUP_PORT g (s.regBits Obj.SCHED_GROUP_STATE g 8 7 |> fun p => if p = 127 then 0xFF else p)
    s1.setReg Obj.SCHED_GROUP_STATE g (s1.reg Obj.SCHED_GROUP_STATE g / 2 ^ 31 * 2 ^ 31)
  else s

/-- A group holds a queued cell. -/
def State.groupBusy (s : State) (g : Nat) : Bool := s.basin.entries.any (fun x => x.queue / 8 == g)

/-- A port's link is down for the Basin: nothing leaves by it (R141, R151). -/
def State.linkDown (s : State) (p : Nat) : Bool :=
  decide (p < 64) && (if s.isPass p then !(s.passState p == 3 || s.passState p == 4 || s.passState p == 5) else !s.edgeUp p)

/-- The Basin discards everything queued for a port whose link went down, and drops what waits in its ingress FIFOs
(R141); a rebind that waited on the port takes effect (R151). -/
def basinDiscard (s : State) (p : Nat) : State :=
  let mine := s.basin.entries.filter (fun x => x.egress == p)
  let groups := (mine.map (fun x => x.queue / 8)).filter (fun g => s.rebinding g)
  let s1 := forEach (s.basin.reading.filter (fun x => x.egress == p)) s discardReading
  let s2 := { s1 with basin := { s1.basin with reading := s1.basin.reading.filter (fun x => x.egress != p) } }
  let s3 := forEach s2.basin.stored (forEach mine s2 discardEntry) (discardUnwritten p)
  let s4 := forEach (s3.basin.fifo.filter (fun f => f.ingress == p)) s3 countWait
  let s5 := { s4 with basin := { s4.basin with
    fifo := s4.basin.fifo.filter (fun f => f.ingress != p),
    open_ := s4.basin.open_.filter (fun e => e.1 / 3 != p) } }
  let s6 := dropEmpty (forEach groups s5 (fun t g => if t.groupBusy g then t else rebindNow t g))
  setStall (settleShaped s6 p false) p false

end Sys2Proof.Machine
end

