-- ==== Sys2Proof/Machine/FnRegs.lean ====
section
/-! DEFINITION. The functions a host sees at its virtual switch (R100, R101, R109 to R114, R117): which vPPB holds a logical
device, the registers of the presented function and of the vPPBs, their error reports, viral. -/
namespace Sys2Proof.Machine

/-! ### Bound logical devices (R110, R111, R117) -/

/-- The vPPB (as 64 * port + vPPB) that holds a logical device (R110, R111). -/
def State.boundVppb (s : State) (dsp ld : Nat) : Option Nat :=
  (s.regs.filterMap (fun kv =>
    if kv.1 / 65536 = Obj.EDGE_VPPB ∧ vppbHolds kv.2 = true ∧ bits kv.2 4 6 = dsp ∧ bits kv.2 0 4 = ld then some (kv.1 % 65536) else none)).head?

/-- The vPPBs of a host port that hold a logical device. -/
def State.heldVppbs (s : State) (h : Nat) : List Nat := (List.range 64).filter (fun v => vppbHolds (s.reg Obj.EDGE_VPPB (64 * h + v)))

/-- The logical device of a vPPB, as 16 * port + LD-ID. -/
def State.vppbDev (s : State) (h v : Nat) : Nat := 16 * s.regBits Obj.EDGE_VPPB (64 * h + v) 4 6 + s.regBits Obj.EDGE_VPPB (64 * h + v) 0 4

/-- A logical device behind a downstream port is CXL.cache-enabled. -/
def State.ldCache (s : State) (dsp ld : Nat) : Bool := (assocGet s.edge.lds (16 * dsp + ld)).elim false (fun d => d.cache)

/-- The CXL.cache-enabled logical devices bound in the hierarchy of a host port, in the order of their vPPBs. -/
def State.vhCaches (s : State) (h : Nat) : List Nat := ((s.heldVppbs h).map (s.vppbDev h)).filter (fun e => s.ldCache (e / 16) (e % 16))

/-- A port's link runs CXL 3.x. -/
def State.cxl3 (s : State) (p : Nat) : Bool := s.regBits Obj.EDGE_PORT_STATE p 2 3 == 3

/-- Those whose CXL.cache traffic is forwarded (R117): with CXL 3.x on both links up to 4; with CXL 2.0 on either link, one,
the first (log entry 86). -/
def State.forwardedCaches (s : State) (h : Nat) : List Nat :=
  let l := s.vhCaches h
  if s.cxl3 h then (l.filter (fun e => s.cxl3 (e / 16)) ++ (l.filter (fun e => !s.cxl3 (e / 16))).take 1).take 4 else l.take 1

/-- The CacheID of a logical device in the hierarchy of a host port: its place among those forwarded. -/
def State.cacheId (s : State) (h e : Nat) : Option Nat := (s.forwardedCaches h).findIdx? (· == e)

/-- A host can cache device-coherent memory (R102): the host port runs with back-invalidate, or the fabric port that reaches
it runs CXL 3.x with 256-byte flits. -/
def State.hostBi (s : State) (p : Nat) : Bool :=
  s.regBit Obj.EDGE_PORT_STATE p 9 || (s.isFabric p && s.cxl3 p && decide (2 ≤ s.regBits Obj.EDGE_PORT_STATE p 5 2))

/-! ### Registers of functions (R100, R101, R114, R262) -/

/-- The number of a register. -/
def fnCode : FnReg → Nat
  | .classCode => 0
  | .deviceControl => 1
  | .aerStatus => 2
  | .aerMask => 3
  | .dpcControl => 4
  | .dpcStatus => 5
  | .acsControl => 6
  | .slotControl => 7
  | .cxlCapability => 8
  | .biDecoder => 9

/-- Where `EdgeSt.fnRegs` keeps a register. -/
def fnKey (h v : Nat) (r : FnReg) : Nat := 16 * (64 * h + v) + fnCode r

/-- What a register holds until it is written: Max_Read_Request_Size 512 bytes, all else 0 (PRESUMED, log entry 85). -/
def fnDefault : FnReg → Nat
  | .deviceControl => 2 * 8
  | _ => 0

/-- A register as it is kept. -/
def State.fnReg (s : State) (h v : Nat) (r : FnReg) : Nat := (assocGet s.edge.fnRegs (fnKey h v r)).getD (fnDefault r)

/-- Keep a register. -/
def setFn (s : State) (h v : Nat) (r : FnReg) (x : Nat) : State :=
  { s with edge := { s.edge with fnRegs := if x = fnDefault r then assocDrop s.edge.fnRegs (fnKey h v r) else assocPut s.edge.fnRegs (fnKey h v r) x } }

/-- The registers of vPPBs only: downstream port containment, access control and hot-plug (R100). -/
def vppbOnly (r : FnReg) : Bool := [FnReg.dpcControl, .dpcStatus, .acsControl, .slotControl].contains r

/-- What the presented function says of CXL (R101, R114): bit 0 CXL.io, 1 CXL.mem negotiated, 2 HDM-DB, bits 7..4 its
decoders. -/
def cxlCapability (s : State) (h : Nat) : Nat :=
  1 + at_ 1 (b2n (s.regBit Obj.EDGE_PORT_STATE h 7)) + at_ 2 (b2n (s.hostBi h)) + at_ 4 8

/-- What a host reads of a register. The presented function is a CXL memory device, a vPPB a PCI-to-PCI bridge (the class
code of the latter PRESUMED, log entry 85). -/
def fnRead (s : State) (h v : Nat) (r : FnReg) : Nat :=
  match r with
  | .classCode => if v = 0 then 0x050210 else 0x060400
  | .cxlCapability => if v = 0 then cxlCapability s h else 0
  | .biDecoder => if v = 0 then s.fnReg h v r else 0
  | _ => if v = 0 ∧ vppbOnly r = true then 0 else s.fnReg h v r

/-- `deviceControl` after a write (R100): bits 2..0 the code of Max_Payload_Size, 128 to 512 bytes; 5..3 that of
Max_Read_Request_Size, up to 4,096 bytes; 6 extended tags, 7 10-bit tags, 8 14-bit tags, which need flit mode. A size that is
not supported leaves the one before. -/
def deviceControl (s : State) (h old x : Nat) : Nat :=
  (if x % 8 ≤ 2 then x % 8 else old % 8) + at_ 3 (if bits x 3 3 ≤ 5 then bits x 3 3 else bits old 3 3)
    + at_ 6 (bits x 6 2) + at_ 8 (b2n (bitAt x 8 && s.regBit Obj.EDGE_PORT_STATE h 1))

/-- A host writes a register: what is not there or is read-only stays, status bits clear where 1 is written. -/
def fnWrite (s : State) (h v : Nat) (r : FnReg) (x : Nat) : State :=
  let old := s.fnReg h v r
  if v = 0 ∧ vppbOnly r = true then s
  else match r with
    | .classCode => s
    | .cxlCapability => s
    | .deviceControl => setFn s h v r (deviceControl s h old x)
    | .aerStatus => setFn s h v r (old - Nat.land old x)
    | .aerMask => setFn s h v r (x % 2 ^ 32)
    | .dpcControl => setFn s h v r (x % 2)
    | .dpcStatus => setFn s h v r (old - Nat.land old x)
    | .acsControl => setFn s h v r (x % 32)
    | .slotControl => setFn s h v r (x % 4)
    | .biDecoder => if v = 0 then setFn s h v r (x % 2 ^ 12) else s

/-- An uncorrectable error of a function is logged, and reported to its host unless it is masked (R100). -/
def aerError (s : State) (h v bit : Nat) : State :=
  let s1 := setFn s h v .aerStatus (putBit (s.fnReg h v .aerStatus) bit true)
  if bitAt (s1.fnReg h v .aerMask) bit then s1 else s1.emit (.toPort h "AER error message" [v, bit])

/-- The bit of the surprise-down error (PRESUMED, log entry 85). -/
abbrev aerSurpriseDown : Nat := 5

/-- A bound vPPB whose logical device's link has gone down takes the action its host has enabled (R109): downstream port
containment, or hot-plug's surprise-down event. -/
def surpriseDown (s : State) (h v : Nat) : State :=
  let s1 := aerError s h v aerSurpriseDown
  if bitAt (s1.fnReg h v .dpcControl) 0 then (setFn s1 h v .dpcStatus 1).emit (.toPort h "DPC triggered" [v])
  else if bitAt (s1.fnReg h v .slotControl) 1 then s1.emit (.toPort h "surprise-down" [v])
  else s1

/-- The registers of every function of a host port are as after a reset. -/
def resetFns (s : State) (h : Nat) : State := { s with edge := { s.edge with fnRegs := s.edge.fnRegs.filter (fun e => e.1 / 1024 != h) } }

/-! ### Event records (R121) -/

/-- What an event record is about: 0 a link came up, 1 it went down, 2 a vPPB was bound, 3 it was unbound. -/
def recordEvent (s : State) (kind port detail : Nat) : State := { s with edge := { s.edge with events := s.edge.events ++ [(kind, port, detail)] } }

end Sys2Proof.Machine
end

