-- ==== Sys2Proof/Machine/Links.lean ====
section
/-! DEFINITION. Links that go down and the ends of the device's own doing: the edge link-down actions, a Pass port that
goes down by its own choice, the Fatal stop, the begin of a chip reset, a change of device state. -/
namespace Sys2Proof.Machine

/-! ### The transceivers of a group (R69, R70, R91) -/

/-- RESERVE_STATE of a group: 0 Idle, 1 Shadowing, 2 In use, 3 Failed. -/
def State.reserveState (s : State) (g : Nat) : Nat := s.regBits Obj.LANE_GROUP_STATUS g 12 2

/-- The global number of a group's reserve lane (R69). -/
def reserveLane (g : Nat) : Nat := 256 + g

/-- The group of a global lane number, the reserve lanes included (R69). -/
def laneGroup (lane : Nat) : Nat := if lane < 256 then lane / 16 else lane - 256

/-- The transceiver that serves a pad pair: the group's reserve lane where it is in use for it (R91). -/
def State.transceiver (s : State) (lane : Nat) : Nat :=
  let g := lane / 16
  if s.reserveState g = 2 ∧ s.regBits Obj.LANE_GROUP_STATUS g 8 4 = lane % 16 then reserveLane g else lane

/-- The pad pair a transceiver serves, or shadows: its own, or that of the lane a reserve lane stands in for. -/
def State.padLane (s : State) (lane : Nat) : Option Nat :=
  if lane < 256 then some lane
  else if s.reserveState (lane - 256) = 1 ∨ s.reserveState (lane - 256) = 2 then some (16 * (lane - 256) + s.regBits Obj.LANE_GROUP_STATUS (lane - 256) 8 4)
  else none

/-- The port of kind other than off that a transceiver serves. -/
def State.servedPort (s : State) (lane : Nat) : Option Nat := ((s.padLane lane).bind s.lanePort).filter (fun p => s.portKind p != 0)

/-! ### PRBS (R86 to R88) -/

/-- The bits per 10 ns of a rate, in the code of `LANE.PORT_MAX_RATE` (R75). -/
def rateTenths (code : Nat) : Nat := ([25, 50, 80, 160, 320, 640, 1280][code]?).getD 0

/-- The bits per 10 ns of a lane that runs PRBS. R75 and R87 name no rate for a lane under test: a port's lane is taken at
the rate of its kind, an edge port's at its limit; any other lane's rate is open (DESIGN CHOICE, log entry 82). -/
def State.prbsRate (s : State) (lane : Nat) : Nat :=
  match s.servedPort lane with
  | some p => if s.portKind p = 3 then 1280 else if s.portKind p = 2 then 640 else rateTenths (s.reg Obj.LANE_PORT_MAX_RATE p)
  | none => Config.idleLaneRate lane

/-- Bits that the checker compared and the errors among them (R86): both counters wrap with a sticky overflow bit. -/
def countPrbs (s : State) (lane bits_ errors : Nat) : State :=
  let w := s.reg Obj.LANE_PRBS_ERRORS lane
  let c := w % 2 ^ 32 + errors
  (s.setReg Obj.LANE_PRBS_ERRORS lane (c % 2 ^ 32 + at_ 63 (b2n (bitAt w 63 || decide (2 ^ 32 ≤ c))))).count Obj.LANE_PRBS_BITS lane bits_

/-- The bits that a locked checker has compared are counted up to now; how many were in error is a free value (R86, log
entry 82). -/
def settlePrbs (s : State) (lane : Nat) : State :=
  s.withSome (assocGet s.lane.prbsSince lane) fun t =>
    let r := s.prbsRate lane
    let n := s.now * r / 10 - t * r / 10
    let s1 := { s with lane := { s.lane with prbsSince := assocPut s.lane.prbsSince lane s.now } }
    if n = 0 then s1 else (countPrbs s1 lane n (s.freeNow % (n + 1))).useFree

/-- The checker of a lane is not locked any more. -/
def unlockPrbs (s : State) (lane : Nat) : State :=
  let s1 := settlePrbs s lane
  { s1 with lane := { s1.lane with prbsSince := assocDrop s1.lane.prbsSince lane } }.putRegBit Obj.LANE_PRBS_CTRL lane 15 false

/-- The generator of a lane follows its control word, which was `old` (R86, R87): its pattern, polarity and loopback. -/
def showGenerator (s : State) (lane old : Nat) : State :=
  let w := s.reg Obj.LANE_PRBS_CTRL lane
  if (bitAt old 0 || bitAt w 0) && !(bitAt old 0 == bitAt w 0 && bits old 4 5 == bits w 4 5) then
    s.emit (.prbs lane (bits w 4 3) (bitAt w 7) (bitAt w 8) (bitAt w 0))
  else s

/-- A lane's generator and checker stop (R87). -/
def stopPrbs (s : State) (lane : Nat) : State :=
  let old := s.reg Obj.LANE_PRBS_CTRL lane
  showGenerator (((unlockPrbs s lane).putRegBit Obj.LANE_PRBS_CTRL lane 0 false).putRegBit Obj.LANE_PRBS_CTRL lane 1 false) lane old

/-! ### Agents -/

/-- `EDGE.AGENT_MAP` names agent `a` (R103). -/
def State.agentValid (s : State) (a : Nat) : Bool := decide (a < 64) && s.regBit Obj.EDGE_AGENT_MAP a 31

/-- Agent `a` is a PBR host (R103). -/
def State.agentPbr (s : State) (a : Nat) : Bool := s.regBit Obj.EDGE_AGENT_MAP a 30

/-- The port that reaches agent `a` (R103). -/
def State.agentPort (s : State) (a : Nat) : Nat := s.regBits Obj.EDGE_AGENT_MAP a 16 6

/-- The SPID of a PBR agent. -/
def State.agentPbrId (s : State) (a : Nat) : Nat := s.regBits Obj.EDGE_AGENT_MAP a 0 12

/-- The agent of a host port, none where the map names none. -/
def State.portAgent (s : State) (p : Nat) : Option Nat :=
  (List.range 64).find? (fun a => s.agentValid a && !s.agentPbr a && s.agentPort a == p)

/-- The agent of a host message's sender (R103, R116). -/
def State.sourceAgent (s : State) : HostSource → Option Nat
  | .port p => s.portAgent p
  | .pbr p spid => (List.range 64).find? (fun a => s.agentValid a && s.agentPbr a && s.agentPort a == p && s.agentPbrId a == spid)

/-- `EDGE.AGENT_STATE`: 0 Unassigned, 1 Live, 2 Grace, 3 Dead. -/
def State.agentState (s : State) (a : Nat) : Nat := s.reg Obj.EDGE_AGENT_STATE a


/-- The bound vPPBs of a downstream port take their surprise-down action (R109), and its fronted devices become
unreachable until their identity has been read again. -/
def downstreamDown (s : State) (p : Nat) : State :=
  let s1 := forEach (List.range 16) s fun t ld =>
    t.withSome (t.boundVppb p ld) fun v => surpriseDown t (v / 64) (v % 64)
  { s1 with edge := { s1.edge with lds := s1.edge.lds.map (fun e => if e.1 / 16 = p then (e.1, { e.2 with reachable := false }) else e) } }

/-- A lane's adaptation and measurements stop when its port goes down. -/
def stopLane (s : State) (lane : Nat) : State :=
  { s with timers := s.timers.filter (fun e => !(e.1.a == lane && [TimerKind.adaptTap, .adaptCtle, .sat, .margin].contains e.1.kind)) }

/-- A port begins training or goes down during steps 1 to 3 of a swap: the swap waits (R92). -/
def holdSwaps (s : State) (p : Nat) : State :=
  let g := p / 4
  match assocGet s.lane.swaps g with
  | some j =>
    if (s.portLanes p).contains (16 * g + j.lane) then
      ({ s with lane := { s.lane with swaps := assocPut s.lane.swaps g { j with step := .waiting } } }).disarm ⟨.shadow, g, 0⟩
    else s
  | none => s

/-- The lanes of a port that goes down stop, and a swap among them waits. -/
def stopLanes (s : State) (p : Nat) : State := holdSwaps (forEach (s.portLanes p) s stopLane) p

/-- The link of an edge port goes down (R106, R109, R141): its state words show it, its queued cells are discarded, a
host port's agent enters Grace and its grace timer starts. The count of surprise losses is the caller's. -/
def edgeLinkDown (s : State) (p : Nat) : State :=
  let wasUp := s.edgeUp p
  let s0 := stopLanes (if wasUp then recordEvent s 1 p 0 else s) p
  let s1 := { s0 with lane := { s0.lane with inverted := s0.lane.inverted.filter (fun l => !(s0.portLanes p).contains l) }
                      edge := { s0.edge with streams := s0.edge.streams.filter (fun x => x.1 != p), ideKeys := assocDrop s0.edge.ideKeys p } }.setReg Obj.EDGE_PORT_STATE p 0
  let s2 := (s1.setRegBits Obj.LANE_PORT_STATUS p 8 5 0).putRegBit Obj.LANE_PORT_STATUS p 15 false
  let s3 := basinDiscard s2 p
  let s4 := (if s3.regBits Obj.EDGE_IDE_STATUS p 0 2 = 3 then s3 else s3.setRegBits Obj.EDGE_IDE_STATUS p 0 2 0).setRegBits Obj.EDGE_IDE_STATUS p 8 3 0
  if !wasUp then s4
  else if s.isHost p then
    match s4.portAgent p with
    | some a =>
      if s4.agentState a = 1 then
        (s4.setReg Obj.EDGE_AGENT_STATE a 2).arm ⟨.grace, p, 0⟩ (s4.reg Obj.EDGE_LINKDOWN_GRACE * 1000)
      else s4
    | none => s4
  else if s.isDownstream p then downstreamDown s4 p
  else s4

/-- Set the link state and reason of a Pass port (R183). -/
def setPassState (s : State) (p st : Nat) : State := s.setRegBits Obj.PASS_LINK_STATE p 28 4 st

/-- Record the reason of a Pass port's going down or hold. -/
def setPassReason (s : State) (p r : Nat) : State := s.setRegBits Obj.PASS_LINK_STATE p 24 4 r

/-- A Pass port goes down by its own choice (R184): in flit mode it sends LINK_CMD 2 for 1 us before the state `next`;
without flit mode it leaves for `next` at once. -/
def passGoDown (s : State) (p reason next : Nat) : State :=
  let st := s.passState p
  let s1 := setPassReason s p reason
  if st = 3 ∨ st = 4 then
    let q := s1.passPort p
    (s1.setPass p { q with linkCmd := 2, downTo := some next }).arm ⟨.goingDown, p, 0⟩ 1000
  else if st = 5 then
    let q := s1.passPort p
    (s1.setPass p { q with linkCmd := 2, downTo := some next }).arm ⟨.goingDown, p, 0⟩ 0
  else
    let s2 := ((s1.disarm ⟨.detect, p, 0⟩).disarm ⟨.phase, p, 0⟩).disarm ⟨.trainIdle, p, 0⟩
    let s3 := setPassState s2 p next
    if next = 1 then s3.arm ⟨.detect, p, 0⟩ 12000000 else s3

/-- Every link goes down for a Fatal latch (R147, R409). -/
def allLinksDown (s : State) : State :=
  forEach (List.range 64) s fun t p =>
    if t.isEdge p then edgeLinkDown t p else if t.isPass p then passGoDown t p 0 0 else t

/-- A Fatal source has latched (R147, R224, R409): the Basin stops, every link goes down, the heartbeat stops. -/
def fatalStop (s : State) : State :=
  let s1 := { s with basin := { s.basin with stopped := true } }
  (allLinksDown s1).disarm ⟨.heartbeat, 0, 0⟩

/-- A chip reset with a cause begins (R461, R463): a cause that meets a running reset is merged into it. -/
def beginChipReset (s : State) (cause : Nat) : State :=
  if s.phase = .running then
    let s1 := s.setReg Obj.RST_CAUSE 0 cause
    let s2 := s1.setReg Obj.RST_COUNT 0 ((s1.reg Obj.RST_COUNT + 1) % 2 ^ 32)
    let s3 := forEach (List.range 64) s2 fun t p =>
      if t.isPass p && (t.passState p == 3 || t.passState p == 4) then t.setPass p { t.passPort p with linkCmd := 2, downTo := some 0 } else t
    { s3 with
      phase := .chipReset
      basin := { s3.basin with stopped := true }
      edge := { s3.edge with perstReleased := [] }
      boot := { s3.boot with stage := .rom, resetStart := s3.now }
      timers := [(⟨.slotOff, 0, 0⟩, s3.now + 1000000)] ++ s3.timers.filter (fun e => [TimerKind.faultPulse, .debounce, .cooldown, .slotFault, .gateOff].contains e.1.kind) }
  else if s.phase = .chipReset ∧ s.now < s.boot.resetStart + 20 ∧ cause < s.reg Obj.RST_CAUSE then s.setReg Obj.RST_CAUSE 0 cause
  else s

/-- The test hold of a port ends (R87): the generators and checkers of its lanes stop, those of a reserve
lane in use among them, and the port may train again. -/
def endTestHold (s : State) (p : Nat) : State :=
  if s.reg Obj.LANE_PORT_TEST p = 1 then
    let s1 := (s.setReg Obj.LANE_PORT_TEST p 0).putRegBit Obj.LANE_PORT_STATUS p 13 false
    let s2 := forEach (s1.portLanes p ++ (s1.portLanes p).map s1.transceiver) s1 stopPrbs
    if s2.isPass p && s2.passState p == 0 && s2.switchField != 0xFF then
      (setPassState s2 p 1).arm ⟨.detect, p, 0⟩ 12000000
    else s2
  else s

/-- The device state changes (R474); leaving Test ends the test holds (R87). -/
def enterState (s : State) (st : Nat) : State :=
  let s1 := if s.devState = 2 ∧ st ≠ 2 then forEach (List.range 64) s endTestHold else s
  (s1.setReg Obj.DEV_STATE 0 st).count1 Obj.DEV_STATE_CHANGES 0

end Sys2Proof.Machine
end

