-- ==== Sys2Proof/Machine/ReadObj.lean ====
section
/-! DEFINITION. What a read of an object returns: the register, or what the state it shows gives (R34, R38, R404,
R405, R407, R421, R431, R433, R437). -/
namespace Sys2Proof.Machine

/-- Bitwise or of the elements `n - 1 .. 0` of a TABLE. -/
def orElements (s : State) (a : Nat) : Nat → Nat
  | 0 => 0
  | n + 1 => Nat.lor (orElements s a n) (s.reg a n)

/-- The status word of fault group `g` (R404): the block's own word where it defines one, with the bits the collector
holds beside it. -/
def groupWord (s : State) (g : Nat) : Nat :=
  if g = 5 then s.reg Obj.BASIN_ERRORS
  else if g = 6 then Nat.lor (orElements s Obj.PASS_ERRORS 64) (s.reg Obj.FLT_SOURCE_STATUS 6)
  else if g = 7 then s.reg Obj.STP_ERRORS
  else if g = 9 then s.reg Obj.COH_ERRORS % 32 + s.reg Obj.COH_PROGRESS_ERRORS % 64 * 65536
  else if g = 10 then Nat.lor (s.reg Obj.COL_ERRORS) (s.reg Obj.FLT_SOURCE_STATUS 10)
  else if g = 11 then s.reg Obj.TWIN_ERRORS
  else if g = 12 then s.reg Obj.GLEN_ERRORS
  else s.reg Obj.FLT_SOURCE_STATUS g

/-- `FLT.STATUS` (R405), the groups below `n`. -/
def faultStatus (s : State) : Nat → Nat
  | 0 => 0
  | n + 1 => faultStatus s n + at_ n (b2n (groupWord s n != 0))

/-- `FLT.SEVERITY_MAX`: the highest latched severity, 0xFF where none is latched. -/
def severityMax (s : State) : Nat :=
  if s.flt.sev.isEmpty then 0xFF else s.flt.sev.foldl (fun m e => max m e.2) 0

/-- A data-path Fatal latch is held (R409). -/
def State.dataPathFatal (s : State) : Bool := s.flt.sev.any (fun e => e.2 == 4 && dataPathGroup (e.1 / 32))

/-- `DEV.HOLD` (R474): what keeps the device in Start-up. FATAL reads 1, its reset value, until firmware runs. -/
def devHold (s : State) : Nat :=
  b2n (s.reg Obj.STP_STATE != 2) + at_ 1 (b2n !s.boot.ucodeOk)
    + at_ 2 (b2n (s.dataPathFatal || !s.firmware)) + at_ 3 (b2n (s.switchField == 0xFF || !s.pass.ownConflict.isEmpty))

/-- `TLM.STATE` (R437, R440). -/
def tlmState (s : State) : Nat := at_ 63 (b2n s.tlm.pin) + at_ 32 (s.tlm.w - s.tlm.r) + (s.tlm.w - s.tlm.f)

/-- The bytes per second of a shaper word (R157). -/
def shaperRate (w : Nat) : Nat := bits w 0 12 * 2 ^ bits w 12 5

/-- The burst of a shaper word in bytes (R157). -/
def shaperBurst (w : Nat) : Nat := bits w 28 8 * 2 ^ bits w 36 5

/-- The level unit of a shaper bucket: 2^-24 byte times 10^-9 (R159). -/
abbrev shaperUnit : Nat := 2 ^ 24 * 1000000000

/-- A shaper bucket brought up to `now` (R156, R159). -/
def shaperFill (w : Nat) (b : Shaper) (now : Nat) : Shaper :=
  ⟨min ((shaperBurst w * shaperUnit : Nat) : Int) (b.level + ((shaperRate w * 2 ^ 24 * (now - b.since) : Nat) : Int)), now⟩

/-- The bucket of an object's shaper as it stands now: full where nothing was charged yet (R158). -/
def shaperNow (w : Nat) (b : Option Shaper) (now : Nat) : Shaper :=
  match b with
  | some b => if bitAt w 63 then shaperFill w b now else b
  | none => ⟨((shaperBurst w * shaperUnit : Nat) : Int), now⟩

/-- What a message costs a shaper (R156). -/
def shaperCost (w len : Nat) : Int := max 1 ((len : Int) + signed (bits w 41 9) 9)

/-- Charge a bucket. -/
def chargeBucket (w : Nat) (b : Shaper) (len : Nat) : Shaper := { b with level := b.level - shaperCost w len * (shaperUnit : Int) }

/-- The bucket a shaper write leaves (R158). -/
def filledBucket (w now : Nat) : Shaper := ⟨if bitAt w 62 then ((shaperBurst w * shaperUnit : Nat) : Int) else 0, now⟩

/-- A bucket's tokens in whole bytes, as the I32 the token objects hold. -/
def shaperBytes (b : Shaper) : Nat := unsigned (b.level / (shaperUnit : Int)) 32

/-- The descriptor of a cell (R125); a free cell reads with REF 0. -/
def cellDescriptor (s : State) (ptr : Nat) : Nat :=
  match s.basin.stored.find? (fun c => c.ptrs.contains ptr) with
  | none => 0
  | some c =>
    let at0 := (c.ptrs.findIdx? (· == ptr)).getD 0
    let units := c.msgs.foldl (fun n m => n + (m.len + 15) / 16) 0
    let all := c.msgs.foldl (fun n m => max n (if m.len ≤ 256 then 1 else (m.len + 255) / 256)) 1
    let i := all - c.n + at0
    let mine := if i + 1 < all then 16 else units - 16 * (all - 1)
    let starts := if all = 1 then (c.msgs.foldl (fun (a : Nat × Nat) m => (a.1 + (m.len + 15) / 16, a.2 + 2 ^ a.1)) (0, 0)).2 else if i = 0 then 1 else 0
    at_ 58 c.ref + at_ 40 ((c.ptrs[at0 + 1]?).getD 0) + at_ 24 (starts % 65536) + at_ 17 c.ingress + at_ 15 (basinCode c.cls)
      + at_ 14 (b2n c.mcast) + at_ 13 (b2n (decide (0 < i))) + at_ 8 (mine % 16)

/-- The elements of an object that do not hold what reset leaves, lowest first. -/
def State.elements (s : State) (a : Nat) : List Nat := (s.regs.filter (fun kv => kv.1 / 65536 == a)).map (fun kv => kv.1 % 65536)

/-- `TRACT.FRONT_COUNT`: the fronted tracts a Fronted logical device takes (R112, R227). -/
def State.frontCount (s : State) (e : Nat) : Nat := if s.reg Obj.EDGE_LD_USE e = 2 then s.reg Obj.EDGE_LD_CAPACITY e / 2 ^ 28 else 0

/-- The logical device, as 16 * port + LD-ID, that fronts a fronted tract (R227). -/
def State.frontedBy (s : State) (t : Nat) : Option Nat :=
  (s.elements Obj.TRACT_FRONT_BASE).find? (fun e =>
    s.reg Obj.TRACT_FRONT_BASE e ≠ 0xFFFFFFFF && decide (s.reg Obj.TRACT_FRONT_BASE e ≤ t - 1024) && decide (t - 1024 < s.reg Obj.TRACT_FRONT_BASE e + s.frontCount e))

/-- `TRACT.FRONTED_TOTAL`: the fronted tracts of this device. -/
def frontedTotal (s : State) : Nat := (s.elements Obj.EDGE_LD_USE).foldl (fun n e => n + s.frontCount e) 0

/-- A tract exists on this device (R226). -/
def State.tractExists (s : State) (t : Nat) : Bool :=
  decide (t < 640) || (decide (1024 ≤ t) && decide (t < 263168) && (s.frontedBy t).isSome)

/-- The live engine of a slice, and its base. -/
def sliceState (s : State) (x : Nat) : Nat :=
  let st := match s.col.moves.find? (fun m => m.slice == x) with
    | some m => if m.ready then 2 else 1
    | none => 0
  let engine := s.reg Obj.COL_SLICE_MAP x
  let base := s.reg Obj.COL_SLICE_BASE x
  at_ 30 st + at_ 29 (s.reg Obj.COL_SLICE_PIN x) + at_ 28 (b2n (engine != base)) + at_ 27 (b2n (s.armed ⟨.holdoff, x, 0⟩ && !s.due ⟨.holdoff, x, 0⟩))
    + at_ 8 base + engine

/-- `COL.HASH_RESULT`: slice, set and live engine of a key (R250, R308). -/
def hashResult (s : State) (k : Nat) : Nat := at_ 63 1 + at_ 32 (dirSet k) + at_ 16 (s.reg Obj.COL_SLICE_MAP (sliceOf k)) + sliceOf k

/-- `COH.PEEK_ENTRY`: the entry of a line: its home entry here, else its proxy entry, else its twin entry (R251, R345). -/
def peekEntry (s : State) (k : Nat) : Nat :=
  let find (proxy : Bool) : Option Nat :=
    match s.cachedEnt (s.reg Obj.COL_SLICE_MAP (sliceOf k)) proxy k with
    | some c => some c.entry
    | none => (s.storedWay proxy k).map (fun w => s.storeWord (dirSet k) w)
  ((if keyHome k = s.ownSwitch then find false else (find true).or (find false))).getD 0

/-- VALID and COUNT of decoder `d` of an agent, and its DPA base in tracts: the sum of the COUNTs before it (R235). -/
def State.decValid (s : State) (a d : Nat) : Bool := s.regBit Obj.TRACT_DECODER (8 * a + d) 63
def State.decCount (s : State) (a d : Nat) : Nat := s.regBits Obj.TRACT_DECODER (8 * a + d) 32 19
def State.decBase (s : State) (a : Nat) : Nat → Nat
  | 0 => 0
  | d + 1 => s.decBase a d + s.decCount a d

/-- The LINKn clock a group's highest permitted rate asks for (R76), 0 where every port of it is off. -/
def linkClock (s : State) (g : Nat) : Nat :=
  ((List.range 4).map (4 * g + ·)).foldl (fun m p =>
    max m (match s.portKind p with
      | 0 => 0
      | 1 => if s.reg Obj.LANE_PORT_MAX_RATE p ≤ 3 then 1 else if s.reg Obj.LANE_PORT_MAX_RATE p ≤ 5 then 2 else 3
      | 2 => 2
      | _ => 3)) 0

/-- The objects whose value is not a register of its own but shows other state. -/
def derivedObj (s : State) (a e : Nat) : Option Nat :=
  if a = Obj.STG_COUNT then some s.mgmt.staged.length
  else if a = Obj.FLT_STATUS then some (faultStatus s 64)
  else if a = Obj.FLT_SEVERITY_MAX then some (severityMax s)
  else if a = Obj.FLT_SOURCE_STATUS then some (groupWord s e)
  else if a = Obj.DEV_HOLD then some (devHold s)
  else if a = Obj.TLM_STATE then some (tlmState s)
  else if a = Obj.TLM_TIME then some s.timeBase
  else if a = Obj.STAT_CYCLES then some (s.sinceReset * 3 / 2 % 2 ^ 64)
  else if a = Obj.BASIN_PEEK_DESC then some (cellDescriptor s (s.reg Obj.BASIN_PEEK_PTR))
  else if a = Obj.SCHED_GROUP_STATE then
    some (if s.rebinding e then s.reg a e else setBits (s.reg a e) 0 7 (if s.reg Obj.SCHED_GROUP_PORT e = 0xFF then 127 else s.reg Obj.SCHED_GROUP_PORT e))
  else if a = Obj.SCHED_QUEUE_TOKENS then some (shaperBytes (shaperNow (s.reg Obj.SCHED_QUEUE_SHAPER e) (assocGet s.sched.queueShaper e) s.now))
  else if a = Obj.SCHED_PORT_TOKENS then some (shaperBytes (shaperNow (s.reg Obj.SCHED_PORT_SHAPER e) (assocGet s.sched.portShaper e) s.now))
  else if a = Obj.COL_SLICE_STATE then some (sliceState s e)
  else if a = Obj.COL_HASH_RESULT then some (hashResult s (s.reg Obj.COL_HASH_KEY % 2 ^ 45))
  else if a = Obj.COL_ENGINE_STATE then some (setBits (s.reg a e) 0 13 ((List.range 4096).filter (fun x => s.reg Obj.COL_SLICE_MAP x == e)).length)
  else if a = Obj.COH_PEEK_ENTRY then some (peekEntry s (s.reg Obj.COH_PEEK_KEY % 2 ^ 45))
  else if a = Obj.COL_PHYS_STATE then
    some (if (assocGet s.col.ceHour e).getD 0 = s.sinceReset / 3600000000000 then s.reg a e else setBits (s.reg a e) 0 16 0)
  else if a = Obj.TRACT_FRONT_COUNT then some (s.frontCount e)
  else if a = Obj.TRACT_FRONTED_TOTAL then some (frontedTotal s)
  else if a = Obj.TEN_DLOG_BUFFER then some s.ten.dirty.length
  else if a = Obj.TRACT_DECODER_STATE then some (setBits (s.reg a e) 0 19 (if s.decValid (e / 8) (e % 8) then s.decBase (e / 8) (e % 8) else 0))
  else if a = Obj.LANE_GROUP_STATUS then some (setBits (s.reg a e) 4 2 (if s.regBit a e 0 then linkClock s e else 0))
  else if a = Obj.TWIN_STATE then
    some (setBits (s.reg a e) 22 3 (at_ 2 (b2n (s.passState 60 == 4)) + at_ 1 (b2n (s.passState 56 == 4)) + b2n (s.regBit Obj.ID_STRAPS 0 8)))
  else none

/-- The value a read returns, little-endian in one number. -/
def readObj (s : State) (a e : Nat) : Nat :=
  if a % 256 = 0 then highestSub (a / 256)
  else match derivedObj s a e with
    | some v => v
    | none => s.reg a e

/-- The bytes of one value of an object; an object of subindex 0 is a U8 (R34, R38). -/
def objSize (a : Nat) : Nat := if a % 256 = 0 then 1 else match findObj a with
  | some o => o.size
  | none => 0

end Sys2Proof.Machine
end

