-- ==== Sys2Proof/Machine/Notify.lean ====
section
/-! DEFINITION. What the block reports: fault sources (R404 to R419), event messages (R55, R57), records offered to the
telemetry FIFO (R436 to R440), the replace request (R416). One report can lead to another, so they are worked off as a
list, each report's consequences before the next report. -/
namespace Sys2Proof.Machine

/-- A report to work off. -/
inductive Work where
  /-- An event of source `b` of group `g`, in element `e` of the group's word where that is a TABLE; `forced` through `FLT.FORCE`. -/
  | source (forced : Bool) (g b e : Nat)
  /-- An event message that names an object (R55). -/
  | event (a : Nat) (e : Option Nat)
  /-- A record offered to the telemetry FIFO: its TYPE and body words (R436). -/
  | record (type : Nat) (body : List Nat)
  /-- The causes of the replace request may have changed (R416). -/
  | replace
  deriving DecidableEq, Repr

/-! ### Fault sources -/

/-- The bits of a group status word that are RO (R404, R411, and the words' own field maps). -/
def groupReadOnly (g : Nat) : Nat :=
  if g = 5 then 0xF0 else if g = 6 then 0x100 else if g = 7 then 0xC80 else if g = 9 then 0x10
  else if g = 10 then 0x50 else if g = 11 then 0x6 else 0

/-- Set the status bit of a source (R404); a forced source of a TABLE word sets the collector's own bit (R415). -/
def setSource (s : State) (forced : Bool) (g b e : Nat) : State :=
  if g = 5 then s.putRegBit Obj.BASIN_ERRORS 0 b true
  else if g = 6 then if forced then s.putRegBit Obj.FLT_SOURCE_STATUS 6 b true else s.putRegBit Obj.PASS_ERRORS e b true
  else if g = 7 then s.putRegBit Obj.STP_ERRORS 0 b true
  else if g = 9 then if b < 16 then s.putRegBit Obj.COH_ERRORS 0 b true else s.putRegBit Obj.COH_PROGRESS_ERRORS 0 (b - 16) true
  else if g = 10 then if b = 7 then s.putRegBit Obj.FLT_SOURCE_STATUS 10 7 true else s.putRegBit Obj.COL_ERRORS 0 b true
  else if g = 11 then s.putRegBit Obj.TWIN_ERRORS 0 b true
  else if g = 12 then s.putRegBit Obj.GLEN_ERRORS 0 b true
  else s.putRegBit Obj.FLT_SOURCE_STATUS g b true

/-- Clear the bits of `mask` in the storage of a group's status word (R404). -/
def clearGroupBits (s : State) (g mask : Nat) : State :=
  let off (t : State) (a e m : Nat) : State := t.setReg a e (t.reg a e - Nat.land (t.reg a e) m)
  if g = 5 then off s Obj.BASIN_ERRORS 0 mask
  else if g = 6 then forEach (List.range 64) (off s Obj.FLT_SOURCE_STATUS 6 mask) (fun t p => off t Obj.PASS_ERRORS p mask)
  else if g = 7 then off s Obj.STP_ERRORS 0 mask
  else if g = 9 then off (off s Obj.COH_ERRORS 0 (mask % 65536)) Obj.COH_PROGRESS_ERRORS 0 (mask / 65536)
  else if g = 10 then off (off s Obj.COL_ERRORS 0 (mask % 128)) Obj.FLT_SOURCE_STATUS 10 mask
  else if g = 11 then off s Obj.TWIN_ERRORS 0 mask
  else if g = 12 then off s Obj.GLEN_ERRORS 0 mask
  else off s Obj.FLT_SOURCE_STATUS g mask

/-- A latch of source `n` is gone: its quiet timer stops and its latched severity is forgotten. -/
def forgetLatch (s : State) (n : Nat) : State :=
  let s1 := s.disarm ⟨.quiet, n, 0⟩
  { s1 with flt := { s1.flt with sev := assocDrop s1.flt.sev n, periods := assocDrop s1.flt.periods n } }

/-- Move the elements `k .. 0` of a log up by one (element 0 is the newest). -/
def shiftLog (s : State) (a : Nat) : Nat → State
  | 0 => s
  | k + 1 => shiftLog (s.setReg a (k + 1) (s.reg a k)) a k

/-- Put a record into element 0 of a log of `n` elements. -/
def pushLog (s : State) (a n w : Nat) : State := (shiftLog s a (n - 1)).setReg a 0 w

/-- The default reactions of a severity as bits 20..16 of `FLT.SOURCE_CFG` (R407). -/
def severityReactions (sev : Nat) : Nat := at_ 16 (b2n (2 ≤ sev)) + at_ 17 (b2n (sev == 4)) + at_ 20 (b2n (3 ≤ sev))

/-- The block resets of R418: the dictionary service pauses (0), kept KDP responses are discarded (1), lanes with
SAT reload at their next step (3), Pass ports with a set bit go down (6), the Glen engine that raised the source will reset itself (12), the telemetry FIFO is emptied (13). -/
def blockReset (s : State) (g e : Nat) (forced : Bool) : State :=
  if g = 0 then { s with mgmt := { s.mgmt with paused := true } }
  else if g = 1 then { s with mgmt := { s.mgmt with kept := [] } }
  else if g = 3 then
    { s with lane := { s.lane with restore := s.lane.restore ++ (List.range 272).filter (fun l => s.regBit Obj.LANE_RX_STATE l 15 && !s.lane.restore.contains l) } }
  else if g = 6 then
    forEach ((List.range 64).filter (fun p => s.reg Obj.PASS_ERRORS p != 0 && s.isPass p)) s (fun t p => passGoDown t p 10 1)
  else if g = 12 then (if forced then s else { s with glen := { s.glen with parity := e :: s.glen.parity.filter (· != e) } })
  else if g = 13 then
    let unread := s.tlm.recs.foldl (fun (acc : Nat × Nat) r => if acc.1 < s.tlm.r then (acc.1 + r.length, acc.2) else (acc.1 + r.length, acc.2 + 1)) (s.tlm.f, 0)
    { s with tlm := { s.tlm with f := s.tlm.w, m := s.tlm.w, r := s.tlm.w, recs := [], owed := s.tlm.owed + unread.2 } }
  else s

/-- The FAULT_OUT_L reaction (R410): the pulse ends 20 us after the latch; a Fatal latch sets HOLD. -/
def faultOut (s : State) (sev : Nat) : State :=
  let s1 := (s.putRegBit Obj.FLT_OUT_CTRL 0 30 true).putRegBit Obj.FLT_OUT_CTRL 0 31 true
  let s2 := if sev = 4 then s1.putRegBit Obj.FLT_OUT_CTRL 0 0 true else s1
  s2.arm ⟨.faultPulse, 0, 0⟩ 20000

/-- The interrupt reaction (R408): an event message now, or one owed when the group's 10 us spacing runs. -/
def faultInterrupt (s : State) (g : Nat) : State × List Work :=
  if s.armed ⟨.faultEvent, g, 0⟩ then
    ({ s with flt := { s.flt with owed := g :: s.flt.owed.filter (· != g) } }, [])
  else (s.arm ⟨.faultEvent, g, 0⟩ 10000, [.event Obj.FLT_SOURCE_STATUS (some g)])

/-- The severity a source last latched with. -/
def setSourceSev (s : State) (n sev : Nat) : State := { s with flt := { s.flt with sev := assocPut s.flt.sev n sev } }

/-- A trap waits to be sent. -/
def addTrap (s : State) (word : Nat) : State := { s with flt := { s.flt with traps := s.flt.traps ++ [word] } }

/-- A chip reset follows the trap. -/
def resetAfterTrap (s : State) : State := { s with flt := { s.flt with resetDue := true } }

/-- The quiet period that a latch takes: a later write of `FLT.QUIET_PERIOD` acts from the next latch (R419). -/
def setPeriod (s : State) (n ms : Nat) : State := { s with flt := { s.flt with periods := assocPut s.flt.periods n ms } }

/-- The quiet timer of source `n` starts, or starts again, with the period its latch took (R412). -/
def startQuiet (s : State) (n : Nat) : State := s.arm ⟨.quiet, n, 0⟩ ((assocGet s.flt.periods n).getD 1000 * 1000000)

/-- A latch enters the fault log; a source that recovers by itself begins its quiet period (R404, R408). -/
def recordSource (s : State) (g n sev cfg word : Nat) : State :=
  let s2 := setSourceSev (pushLog s Obj.FLT_LOG 64 word) n sev
  if bitAt cfg 31 && !bitAt cfg 30 then startQuiet (setPeriod s2 n (s2.reg Obj.FLT_QUIET_PERIOD g)) n else s2

/-- The reactions of a latch but for the interrupt: trap, FAULT_OUT, the fatal stop, block reset and chip reset. -/
def reactSource (s : State) (g b e sev word : Nat) (forced trap block chip out : Bool) : State :=
  let s1 := if trap then addTrap s word else s
  let s2 := if out then faultOut s1 sev else s1
  let s3 := if sev = 4 then fatalStop s2 else s2
  let s4 := if g = 7 ∧ (b = 10 ∨ b = 11) then s3.setReg Obj.STP_STATE 0 3 else s3
  let s5 := if block then blockReset s4 g e forced else s4
  if chip then (if trap then resetAfterTrap s5 else beginChipReset s5 3) else s5

/-- A source changes from clear to set: it latches, is logged, and takes its reactions (R406 to R410, R413). -/
def latchSource (s : State) (forced : Bool) (g b e : Nat) : State × List Work :=
  let n := 32 * g + b
  let cfg := s.reg Obj.FLT_SOURCE_CFG n
  let esc := bitAt cfg 30
  let sev := if esc then bits cfg 24 3 else bits cfg 27 3
  let react := if esc then Nat.lor (bits cfg 16 5) (severityReactions (bits cfg 24 3) / 65536) else bits cfg 16 5
  let irq := bitAt react 0; let trap := bitAt react 1; let block := bitAt react 2; let chip := bitAt react 3; let out := bitAt react 4
  let word := at_ 24 (s.sinceReset / 1000 % 2 ^ 40) + at_ 23 (b2n forced) + at_ 22 (b2n esc) + at_ 19 sev + at_ 15 (b2n out)
    + at_ 14 (b2n chip) + at_ 13 (b2n block) + at_ 12 (b2n trap) + at_ 11 (b2n irq) + n
  let s1 := recordSource s g n sev cfg word
  let tele : List Work := if s.regBit Obj.TLM_EVENT_EN 0 1 then [.record 4 [word]] else []
  let r := if irq then faultInterrupt s1 g else (s1, [])
  (reactSource r.1 g b e sev word forced trap block chip out, tele ++ r.2 ++ [.replace])

/-- An event of a source (R406): it is counted; a source that was clear latches, another only restarts its quiet timer (R412). -/
def sourceEvent (s : State) (forced : Bool) (g b e : Nat) : State × List Work :=
  let n := 32 * g + b
  let was := bitAt (groupWord s g) b
  let s1 := s.count1 Obj.FLT_RAISED n
  let s2 := setSource s1 forced g b e
  if was then
    (if s2.armed ⟨.quiet, n, 0⟩ then startQuiet s2 n else s2, [])
  else latchSource s2 forced g b e

/-! ### The replace request -/

/-- The causes of the replace request as they stand (R416). -/
def replaceCauses (s : State) : Nat :=
  b2n (s.regBit Obj.COL_ERRORS 0 4) + at_ 1 (b2n (decide (4 < s.reg Obj.LANE_RESERVE_GROUPS_USED)))
    + at_ 2 (b2n (s.regBit Obj.STP_ERRORS 0 7)) + at_ 3 (b2n (s.regBit Obj.TWIN_ERRORS 0 2))
    + at_ 4 (b2n (s.regBit Obj.TWIN_ERRORS 0 1)) + at_ 5 (b2n (groupWord s 17 != 0))

/-- The replace request follows its causes (R416); a cause that becomes set is an event and, in Service with
`DEV.AUTO_RECOVERY` set, takes the device to Recovery (R474). Before boot has evaluated the causes nothing changes. -/
def evalReplace (s : State) : State × List Work :=
  if s.boot.stage = .ready then
    let old := s.reg Obj.FLT_REPLACE
    let new := replaceCauses s
    let s1 := s.setReg Obj.FLT_REPLACE 0 new
    let s2 := { s1 with flt := { s1.flt with replacePin := new != 0 } }
    if Nat.land new (63 - old % 64) = 0 then (s2, [])
    else
      let s3 := if s2.devState = 1 ∧ s2.reg Obj.DEV_AUTO_RECOVERY = 1 then firmwareWrote (enterState s2 3) Obj.DEV_STATE none else s2
      (s3, [.event Obj.FLT_REPLACE none])
  else (s, [])

/-! ### Event messages -/

/-- The 16-byte header of a message the device sends (R44, R48). -/
def messageHeader (s : State) (kind tag count length status : Nat) : List Byte :=
  [1, BitVec.ofNat 8 kind] ++ leBytes tag 2 ++ leBytes count 2 ++ leBytes length 2
    ++ [BitVec.ofNat 8 status, BitVec.ofNat 8 s.switchField] ++ List.replicate 6 0

/-- Zero padding to a multiple of 4 (R45). -/
def pad4 (bs : List Byte) : List Byte := bs ++ List.replicate ((4 - bs.length % 4) % 4) 0

/-- An operation record as it stands in a message (R45). The head of an answered record carries ELEMENT and the reserved
bits of RFLAGS as 0 where the request's RFLAGS bit 0 was clear (DESIGN CHOICE, log entry 72). -/
def recordBytes (op result a : Nat) (e : Option Nat) (data : List Byte) : List Byte :=
  [BitVec.ofNat 8 op, BitVec.ofNat 8 result] ++ leBytes (a / 256) 2 ++ [BitVec.ofNat 8 (a % 256), BitVec.ofNat 8 (b2n e.isSome)]
    ++ leBytes (e.getD 0) 2 ++ leBytes data.length 2 ++ [0, 0] ++ pad4 data

/-- The event message that names an object and carries its value (R55). -/
def eventMessage (s : State) (number a : Nat) (e : Option Nat) : List Byte :=
  let r := recordBytes 1 0 a e (leBytes (readObj s a (e.getD 0)) (objSize a))
  messageHeader s 3 (number % 65536) 1 r.length 0 ++ r

/-- Send an event (R55, R57): to the KDP destination when one is set, and into the I3C queue, where the oldest of more
than 16 gives way and raises EVENT_QUEUE. With `MGP.ETH_MODE` 0 the KDP event is sent and numbered all the same, since R55
asks for a destination only (DESIGN CHOICE, log entry 72). -/
def sendEvent (s : State) (a : Nat) (e : Option Nat) : State × List Work :=
  if s.firmware then
    let s1 := if s.reg Obj.MGP_EVENT_DEST_IPV4 = 0 then s else
      let t := s.emit (.udp (s.reg Obj.MGP_EVENT_DEST_IPV4) (s.reg Obj.MGP_EVENT_DEST_PORT) (eventMessage s s.mgmt.kdpEventNo a e))
      { t with mgmt := { t.mgmt with kdpEventNo := (t.mgmt.kdpEventNo + 1) % 65536 } }
    let q := s1.mgmt.i3cEvents ++ [eventMessage s1 s1.mgmt.i3cEventNo a e]
    let s2 := { s1 with mgmt := { s1.mgmt with i3cEvents := q.drop (q.length - 16), i3cEventNo := (s1.mgmt.i3cEventNo + 1) % 65536 } }
    (s2.emit .i3cInterrupt, if 16 < q.length then [.source false 1 3 0] else [])
  else (s, [])

/-! ### The telemetry FIFO -/

/-- TLM_WM_L follows the occupancy (R440); its assertion is an event. -/
def watermark (s : State) : State × List Work :=
  let occ := s.tlm.w - s.tlm.f
  if s.reg Obj.TLM_HIGH_WM ≤ occ then
    if s.tlm.pin then (s, []) else ({ s with tlm := { s.tlm with pin := true } }, [.event Obj.TLM_STATE none])
  else if occ ≤ s.reg Obj.TLM_LOW_WM then ({ s with tlm := { s.tlm with pin := false } }, [])
  else (s, [])

/-- Write one record at W (R436). -/
def fifoWrite (s : State) (type : Nat) (body : List Nat) : State :=
  let words := (at_ 56 type + at_ 48 (body.length + 1) + at_ 32 (s.tlm.seq % 65536)) :: body
  { s with tlm := { s.tlm with recs := s.tlm.recs ++ [words], w := s.tlm.w + words.length, seq := (s.tlm.seq + 1) % 65536 } }

/-- Offer a record to the FIFO (R439): it is written whole, after the TYPE 5 record that is owed, or refused whole. -/
def offerRecord (s : State) (type : Nat) (body : List Nat) : State × List Work :=
  let need := body.length + 1 + (if s.tlm.owed = 0 then 0 else 2)
  if need ≤ 16384 - (s.tlm.w - s.tlm.f) then
    let s1 := if s.tlm.owed = 0 then s else
      let t := fifoWrite s 5 [s.tlm.owed]
      { t with tlm := { t.tlm with owed := 0 } }
    watermark (fifoWrite s1 type body)
  else
    let s1 := s.count1 Obj.TLM_REFUSED 0
    let s2 := { s1 with tlm := { s1.tlm with owed := s1.tlm.owed + 1 } }
    let s3 := if type = 1 then s2.count1 Obj.BASIN_SAMPLE_LOST 0 else s2
    (s3, [.source false 13 0 0])

/-! ### Working the reports off -/

/-- One report and what it leads to. -/
def workStep (s : State) : Work → State × List Work
  | .source forced g b e => sourceEvent s forced g b e
  | .event a e => sendEvent s a e
  | .record type body => offerRecord s type body
  | .replace => evalReplace s

/-- Work off a list of reports, each with its consequences first, at most `n` in all. -/
def work : Nat → List Work → State → State
  | 0, _, s => s
  | _, [], s => s
  | n + 1, w :: ws, s => let r := workStep s w; work n (r.2 ++ ws) r.1

/-- Report one thing. A latch leads to at most one latch of each of two further sources, so 64 reports are more than
any chain has (log entry 7). -/
def report (s : State) (w : Work) : State := work 64 [w] s

/-- A fault source event reaches the collector (R406). -/
def raise (s : State) (g b : Nat) (e : Nat := 0) : State := report s (.source false g b e)

/-- An event message naming an object (R55). -/
def notify (s : State) (a : Nat) (e : Option Nat) : State := report s (.event a e)

/-- A source that follows a condition of the device's own is cleared by the device (TWIN_LOST, SADDLE_DOWN). -/
def clearOwn (s : State) (g b : Nat) : State := report (forgetLatch (clearGroupBits s g (2 ^ b)) (32 * g + b)) .replace

/-- The device enters another state by itself (R474). -/
def autoRecover (s : State) : State := if s.devState = 1 ∨ s.devState = 2 then firmwareWrote (enterState s 3) Obj.DEV_STATE none else s

end Sys2Proof.Machine
end

