-- ==== Sys2Proof/Machine/ColOps.lean ====
section
/-! DEFINITION. Shared operations of the Col array (12_col_engines.md): which engine serves a slice, the deques, moves. -/
namespace Sys2Proof.Machine

/-- The logical engine that serves a slice, by the live map (R310). -/
def State.engineOf (s : State) (slice : Nat) : Nat := s.reg Obj.COL_SLICE_MAP slice

/-- The engine a slice has in the port agents' map copies (R310, R312). -/
def State.agentEngine (s : State) (slice : Nat) : Nat := (assocGet s.col.agentOld slice).getD (s.engineOf slice)

/-- The items of an engine's deque (R323). -/
def State.deque (s : State) (n : Nat) : List BgItem := (assocGet s.col.deques n).getD []

/-- Replace an engine's deque; `COL.DEQUE_DEPTH` follows. -/
def setDeque (s : State) (n : Nat) (l : List BgItem) : State :=
  ({ s with col := { s.col with deques := if l.isEmpty then assocDrop s.col.deques n else assocPut s.col.deques n l } }).setReg Obj.COL_DEQUE_DEPTH n l.length

/-- An item joins the tail of an engine's deque. -/
def pushItem (s : State) (n : Nat) (i : BgItem) : State := setDeque s n (s.deque n ++ [i])

/-- A slice-bound item joins the deque of the engine that serves its slice (R323). -/
def pushSlice (kind arg : Nat) (s : State) (slice : Nat) : State := pushItem s (s.engineOf slice) ⟨kind, some slice, arg⟩

/-- One item of a kind for every slice. -/
def pushAllSlices (s : State) (kind : Nat) : State := forEach (List.range 4096) s (pushSlice kind 0)

/-- An item of a kind waits in some deque. -/
def State.itemsLeft (s : State) (kind : Nat) : Bool := s.col.deques.any (fun d => d.2.any (fun i => i.kind == kind))

/-- The move of a slice in progress. -/
def State.moveOf (s : State) (slice : Nat) : Option Move := s.col.moves.find? (fun m => m.slice == slice)

/-- A slice drains (R321): its donor opens no context for its requests. -/
def State.draining (s : State) (slice : Nat) : Bool := (s.moveOf slice).isSome

end Sys2Proof.Machine
end

