-- ==== Sys2Proof/Machine/CohFormat.lean ====
section
/-! DEFINITION. The bytes of a coherence message (R170, R257) and the fields of its ARG (R259). -/
namespace Sys2Proof.Machine

/-- The Pass channel of a coherence kind (R258): 1 Request, 2 Response. -/
def cohChannel (kind : Nat) : Nat := if kind < 0x20 then 1 else 2

/-- The kind carries a MASK: WR_PTL and WRITEBACK_PTL. -/
def hasMask (kind : Nat) : Bool := kind == 6 || kind == 8

/-- The kind carries DATA. -/
def hasData (kind : Nat) : Bool := [5, 6, 7, 8, 0x20].contains kind

/-- The length of a coherence message (R257). -/
def cohLength (kind : Nat) : Nat := 32 + (if hasMask kind then 16 else 0) + (if hasData kind then 64 else 0)

/-- The bytes of a coherence message (R170, R257). -/
def cohEncode (m : CohMsg) : List Byte :=
  leBytes m.kind 1 ++ leBytes ((cohChannel m.kind - 1) + 2 * (m.tc % 8) + at_ 4 (b2n m.tenancy.isSome)) 1 ++ leBytes (cohLength m.kind) 2
    ++ leBytes m.dst 1 ++ leBytes m.src 1 ++ leBytes ((m.tenancy.map (·.1)).getD 0) 2 ++ leBytes ((m.tenancy.map (·.2)).getD 0) 2 ++ leBytes m.hops 1 ++ [0]
    ++ leBytes m.arg 4 ++ leBytes m.key 8 ++ leBytes m.agent 1 ++ leBytes m.switch 1 ++ leBytes m.tag 2 ++ leBytes m.epoch 2 ++ [0, 0]
    ++ (if hasMask m.kind then leBytes m.mask 8 ++ List.replicate 8 0 else []) ++ (if hasData m.kind then padTo m.data 64 else [])

/-- The fields of a coherence message. -/
def cohDecode (b : List Byte) : CohMsg :=
  let kind := leField b 0 1
  let f := leField b 1 1
  { kind := kind, tc := bits f 1 3, tenancy := if bitAt f 4 then some (leField b 6 2 % 4096, leField b 8 2) else none
    dst := leField b 4 1 % 16, src := leField b 5 1 % 16, hops := leField b 10 1, arg := leField b 12 4, key := leField b 16 8 % 2 ^ 45
    agent := leField b 24 1 % 128, switch := leField b 25 1 % 16, tag := leField b 26 2, epoch := leField b 28 2
    mask := if hasMask kind then leField b 32 8 else 0
    data := if hasData kind then slice b (if hasMask kind then 48 else 32) 64 else [] }

end Sys2Proof.Machine

namespace Sys2Proof

/-- Bit `n` of ARG. -/
def CohMsg.flag (m : CohMsg) (n : Nat) : Bool := Machine.bitAt m.arg n
/-- NACKS. -/
def CohMsg.nacks (m : CohMsg) : Nat := Machine.bits m.arg 0 8
/-- KEEP of a writeback. -/
def CohMsg.keep (m : CohMsg) : Nat := Machine.bits m.arg 14 2
/-- STATE or GRANT. -/
def CohMsg.state (m : CohMsg) : Nat := Machine.bits m.arg 0 2
/-- The request comes from the device side. -/
def CohMsg.device (m : CohMsg) : Bool := Machine.bitAt m.agent 6
/-- The requesting agent. -/
def CohMsg.who (m : CohMsg) : Nat := m.agent % 64
/-- Set or clear a bit of ARG. -/
def CohMsg.put (m : CohMsg) (n : Nat) (b : Bool) : CohMsg := { m with arg := Machine.putBit m.arg n b }

/-- A request reads: it is answered with DATA. -/
def CohMsg.reads (m : CohMsg) : Bool := m.kind ≤ 3
/-- A write of the line by a requester: WR_FULL or WR_PTL. -/
def CohMsg.writes (m : CohMsg) : Bool := m.kind == 5 || m.kind == 6
/-- A writeback or an eviction. -/
def CohMsg.leaves (m : CohMsg) : Bool := 7 ≤ m.kind
/-- A writeback that carries data. -/
def CohMsg.dirty (m : CohMsg) : Bool := m.kind == 7 || m.kind == 8

/-- RD_OWN and UPGRADE with READ_ONLY get at most a shared copy (R267). -/
def CohMsg.readOnly (m : CohMsg) : Bool := m.flag 10
/-- A request asks for ownership and may have it. -/
def CohMsg.owns (m : CohMsg) : Bool := (m.kind == 2 || m.kind == 4) && !m.readOnly
/-- A request is answered with a shared copy. -/
def CohMsg.shares (m : CohMsg) : Bool := m.kind == 1 || (m.kind == 2 && m.readOnly)
/-- A writeback of poison without data, from a proxy: the home marks the line lost (R296). -/
def CohMsg.lossReport (m : CohMsg) : Bool := m.kind == 8 && m.mask == 0 && m.flag 12

end Sys2Proof

namespace Sys2Proof.Machine

/-- A message that has left the Basin inside this device waits for the unit it is for. -/
def launch (s : State) (hop : Hop) (m : CohMsg) : State := { s with coh := { s.coh with flight := s.coh.flight ++ [⟨hop, m⟩] } }

/-- The engine a coherence message from a Pass link goes to: the one its slice has in the port agents' copies (R270, R307,
R312). -/
def cohHop (s : State) (m : CohMsg) : Hop := .engine (s.agentEngine (sliceOf m.key))

/-- Take a message that is on its way to `hop`; none where it is not. -/
def arrive (s : State) (hop : Hop) (m : CohMsg) : Option State :=
  if s.coh.flight.contains ⟨hop, m⟩ then some { s with coh := { s.coh with flight := s.coh.flight.erase ⟨hop, m⟩ } } else none

end Sys2Proof.Machine

namespace Sys2Proof.Machine

/-- The kind that goes to a VERSION 1 partner in place of a kind that is no Pass-1 kind (R171, R258): SNP_INV for SNP_CUR;
WR_PTL for WRITEBACK_PTL, for which the spec names none (DESIGN CHOICE, log entry 81). -/
def pass1Kind (kind : Nat) : Nat := if kind = 0x12 then 0x10 else if kind = 8 then 6 else kind

/-- A coherence message as it goes to the partner of Pass port `p`. -/
def pass1 (s : State) (p : Nat) (m : CohMsg) : CohMsg :=
  if s.regBit Obj.PASS_LINK_STATE p 22 && (m.kind == 8 || m.kind == 0x12) then
    { m with kind := pass1Kind m.kind, arg := if m.kind = 8 then setBits m.arg 14 3 0 else m.arg }
  else m

end Sys2Proof.Machine
end

