-- ==== Sys2Proof/Machine/BasinPack.lean ====
section
/-! DEFINITION. How messages come into the Basin (05_basin.md): packing into cells, the credits and the room of the ingress
FIFOs, the internal ports behind which this device's own units work, and what those units send. -/
namespace Sys2Proof.Machine

/-! ### Packing (R124) -/

/-- The units of a message (R123). -/
def unitsOf (len : Nat) : Nat := (len + 15) / 16

/-- The cells of a message (R124). -/
def cellsOf (len : Nat) : Nat := if len ≤ 256 then 1 else (len + 255) / 256

/-- A message with its tag of R150, as ingress port `p` takes it. -/
def tagged (s : State) (p : Nat) (m : FabricMsg) : BMsg :=
  let t := s.tagOf p m.targets m.sort
  ⟨m.sort, t.1, t.2, m.len, m.body, m.headerBytes, m.relaxed, m.ido, m.requester, m.channel, (m.targets.head?.map (·.rewrite)).getD 0, .bytes⟩

/-- The queue a stored message joins toward an egress port (R149). -/
def State.msgQueue (s : State) (m : BMsg) (e : Nat) : Nat := s.queueOf m.tenancy m.tc e

/-- A cell joins the ingress FIFO of its class and waits for admission. -/
def offerCell (s : State) (c : Offered) : State := { s with basin := { s.basin with fifo := s.basin.fifo ++ [c] } }

/-- The key of an open cell: port and class. -/
def openKey (p : Nat) (c : BasinClass) : Nat := 3 * p + basinCode c

/-- Close the open cell of a port and class. -/
def closeOpen (s : State) (k : Nat) : State :=
  match assocGet s.basin.open_ k with
  | none => s
  | some c => offerCell { s with basin := { s.basin with open_ := assocDrop s.basin.open_ k } } c

/-- A message joins the open cell of its class when it is unicast, at most 256 bytes, fits, and goes to the same egress
queue and channel (R124). -/
def joins (s : State) (targets : List Target) (b : BMsg) (c : Offered) : Bool :=
  match targets, c.targets, c.msgs with
  | [t], [u], first :: _ =>
    decide (b.len ≤ 256) && decide (c.units + unitsOf b.len ≤ 16) && t.egress == u.egress && t.channel == u.channel
      && s.msgQueue b t.egress == s.msgQueue first t.egress
  | _, _, _ => false

/-- Keep an open cell, or close it when it is full. -/
def putOpen (s : State) (k : Nat) (c : Offered) : State :=
  if 16 ≤ c.units then offerCell { s with basin := { s.basin with open_ := assocDrop s.basin.open_ k } } c
  else { s with basin := { s.basin with open_ := assocPut s.basin.open_ k c } }

/-- A message starts a cell, or a chain, of its own. -/
def ownCell (s : State) (p : Nat) (cls : BasinClass) (targets : List Target) (b : BMsg) : Offered :=
  ⟨p, cls, [b], unitsOf b.len, targets, s.now, none⟩

/-- The message is stored alone: multicast, longer than a cell, or on a port that packs nothing (R124, R137). -/
def storedAlone (s : State) (p : Nat) (targets : List Target) (b : BMsg) : Bool :=
  decide (targets.length ≠ 1) || decide (256 < b.len) || s.reg Obj.BASIN_PACK_EN p == 0

/-- An ingress port packs a message of a class (R124). -/
def packTagged (s : State) (p : Nat) (cls : BasinClass) (targets : List Target) (b : BMsg) : State :=
  let k := openKey p cls
  if storedAlone s p targets b then offerCell (closeOpen s k) (ownCell s p cls targets b)
  else match assocGet s.basin.open_ k with
    | some c =>
      if joins s targets b c then putOpen s k { c with msgs := c.msgs ++ [b], units := c.units + unitsOf b.len, last := s.now }
      else putOpen (closeOpen s k) k (ownCell s p cls targets b)
    | none => putOpen s k (ownCell s p cls targets b)

/-- An ingress port packs a message that arrives at it. -/
def packMessage (s : State) (p : Nat) (m : FabricMsg) : State := packTagged s p (msgClass m.sort) m.targets (tagged s p m)

/-! ### Room and credits of the ingress FIFOs (R134 to R136) -/

/-- The messages of an ingress port that have no Basin cell yet. -/
def State.ingressMsgs (s : State) (p : Nat) : List (BasinClass × BMsg) :=
  ((s.basin.open_.map (·.2) ++ s.basin.fifo).filter (fun c => c.ingress == p)).flatMap (fun c => c.msgs.map (fun m => (c.cls, m)))

/-- The ingress FIFO of a class takes one more message (R134 to R136). How many messages it holds is not stated (log entry
73); an empty one takes a message. -/
def fifoRoom (s : State) (p : Nat) (cls : BasinClass) : Bool :=
  let n := ((s.ingressMsgs p).filter (fun m => m.1 == cls)).length
  n == 0 || decide (n < Config.fifoDepth p (basinCode cls))

/-- The credits an edge port advertises on a channel: messages, and 16-byte units of data where those have credits of their
own (R134). -/
def creditLimit : LinkChannel → Option (Nat × Option Nat)
  | .posted => some (64, some 2048)
  | .nonPosted => some (64, some 64)
  | .completion => some (64, some 2048)
  | .m2sReq => some (64, none)
  | .m2sRwd => some (64, none)
  | .s2mNdr => some (64, none)
  | .s2mDrs => some (64, none)
  | .biSnp => some (32, none)
  | .biRsp => some (32, none)
  | .cache => some (32, none)
  | .request => none
  | .response => none
  | .internal => none

/-- The data units of a message: those past its header. -/
def BMsg.dataUnits (m : BMsg) : Nat := unitsOf (m.len - m.headerBytes)

/-- The partner of an edge port holds the credits for a message of `units` data units on a channel (R134). -/
def hasCredit (s : State) (p : Nat) (ch : LinkChannel) (units : Nat) : Bool :=
  let held := ((s.ingressMsgs p).map (·.2)).filter (fun m => m.channel == ch)
  match creditLimit ch with
  | none => true
  | some (n, d) => decide (held.length < n) && d.elim true (fun k => decide ((held.map BMsg.dataUnits).sum + units ≤ k))

/-- The number that stands for a channel in a credit message. -/
def channelCode : LinkChannel → Nat
  | .posted => 0
  | .nonPosted => 1
  | .completion => 2
  | .m2sReq => 3
  | .m2sRwd => 4
  | .s2mNdr => 5
  | .s2mDrs => 6
  | .biSnp => 7
  | .biRsp => 8
  | .cache => 9
  | .request => 10
  | .response => 11
  | .internal => 12

/-- The credits of a message go back to the partner as it leaves its ingress FIFO for a cell (R134). -/
def returnCredit (p : Nat) (s : State) (m : BMsg) : State :=
  match creditLimit m.channel with
  | none => s
  | some (_, d) => if p < 64 then s.emit (.toPort p "credits returned" [channelCode m.channel, 1, d.elim 0 (fun _ => m.dataUnits)]) else s

/-- An edge port advertises its credits as its link comes up (R134). -/
def advertiseCredits (s : State) (p : Nat) : State :=
  forEach [LinkChannel.posted, .nonPosted, .completion, .m2sReq, .m2sRwd, .s2mNdr, .s2mDrs, .biSnp, .biRsp, .cache] s fun t ch =>
    match creditLimit ch with
    | none => t
    | some (n, d) => t.emit (.toPort p "credits" [channelCode ch, n, d.getD 0])

/-! ### The internal ports (R19) -/

/-- The internal port behind which a Col engine works. -/
def colPort (n : Nat) : Nat := 64 + n / 64 % 4

/-- The internal port behind which a tenancy's Glen channel works. -/
def glenPort (t : Nat) : Nat := 68 + t / 2048 % 2

/-- The internal ports of the management complex and of the CXL.io function block. -/
abbrev mgmtPort : Nat := 70
abbrev functionPort : Nat := 71

/-- A Col engine stalls (R136): the FIFO of its internal port has no room for an answer or for coherence control. -/
def engineStalled (s : State) (n : Nat) : Bool := !(fifoRoom s (colPort n) .rsp && fifoRoom s (colPort n) .coh)

/-! ### What the device's own units send -/

/-- A message of the device itself, that holds no link credit at its ingress. -/
def ownMsg (sort : MsgSort) (tag : Option Nat × Nat) (len : Nat) (body : List Byte) (header : Nat) (a : Arrival) : BMsg :=
  ⟨sort, tag.1, tag.2, len, body, header, false, false, 0, .internal, 0, a⟩

/-- The sort of a coherence message inside this device; `tenancy` is that of its line's tract (R150). -/
def cohSort (tenancy : Option Nat) (m : CohMsg) : MsgSort := .pass tenancy (m.tc % 8) (cohChannel m.kind == 2)

/-- A coherence message as it lies in the Basin between two units of this device (R124, log entry 74): a header of 16
bytes, or 32 for a snoop and its answer, then mask and data. -/
def insideBytes (m : CohMsg) : List Byte :=
  if (0x10 ≤ m.kind ∧ m.kind ≤ 0x12) ∨ m.kind = 0x23 then cohEncode m else (cohEncode m).take 16 ++ (cohEncode m).drop 32

/-- The header bytes among them. -/
def insideHeader (m : CohMsg) : Nat := if (0x10 ≤ m.kind ∧ m.kind ≤ 0x12) ∨ m.kind = 0x23 then 32 else 16

/-- A coherence message enters the Basin at port `p` on its way to another unit of this device; `ch` is the link channel
whose credit it holds. -/
def sendInside (s : State) (p : Nat) (ch : LinkChannel) (tenancy : Option Nat) (targets : List Target) (m : CohMsg) (a : Arrival) : State :=
  let sort := cohSort tenancy m
  let body := insideBytes m
  packTagged s p (msgClass sort) targets { ownMsg sort (tenancy, m.tc % 8) body.length body (insideHeader m) a with channel := ch }

/-- A message of the device for the partner of a Pass port enters the Basin at port `from_`. -/
def sendOver (s : State) (from_ p : Nat) (sort : MsgSort) (tag : Option Nat × Nat) (bytes : List Byte) : State :=
  packTagged s from_ (msgClass sort) [⟨p, if leField bytes 1 1 % 2 = 0 then .request else .response, 0⟩]
    (ownMsg sort tag bytes.length bytes (min 32 bytes.length) .bytes)

/-- A coherence message for another switch enters the Basin at port `from_` toward Pass port `p`. -/
def sendCoh (s : State) (from_ p : Nat) (tenancy : Option Nat) (m : CohMsg) : State :=
  sendOver s from_ p (cohSort tenancy m) (tenancy, m.tc % 8) (cohEncode m)

/-- A management message of the device enters the Basin toward Pass port `p` (R19, R150). -/
def sendOwn (s : State) (p : Nat) (bytes : List Byte) : State :=
  sendOver s mgmtPort p .management (none, s.reg Obj.SCHED_DEVICE_TC 2) bytes

/-- A directory log message enters the Basin toward Saddle port `p` (R150). -/
def sendLog (s : State) (p : Nat) (bytes : List Byte) : State :=
  sendOver s mgmtPort p .log (none, s.reg Obj.SCHED_DEVICE_TC 1) bytes

/-- A mirror write, or the data of a resync, of a line that engine `n` serves enters the Basin toward Saddle port `p`. -/
def sendMirrorMsg (s : State) (n p : Nat) (bytes : List Byte) : State :=
  sendOver s (colPort n) p .mirror (none, s.reg Obj.SCHED_DEVICE_TC 0) bytes

/-- A packet of the device itself leaves for what edge port `p` faces: the internal port it comes from, its class, channel,
sort and tag, a header of 16 bytes and `data` bytes of data (log entry 75). -/
def sendPacket (s : State) (from_ p : Nat) (cls : BasinClass) (ch : LinkChannel) (sort : MsgSort) (tag : Option Nat × Nat) (relaxed : Bool) (data : Nat) (o : Out) : State :=
  packTagged s from_ cls [⟨p, ch, 0⟩] { ownMsg sort tag (16 + data) [] 16 (.out o) with relaxed := relaxed }

/-- A packet of the function block or of a Glen engine to the host side of port `p`; its TC is taken as 0 (log entry 75). -/
def sendHost (s : State) (from_ p : Nat) (cls : BasinClass) (ch : LinkChannel) (tenancy : Option Nat) (data : Nat) (o : Out) : State :=
  sendPacket s from_ p cls ch (.functionCompletion tenancy 0) (tenancy, bits (s.reg Obj.SCHED_IO_TC_MAP p) 0 3) false data o

/-- A packet of tenancy `t`'s Glen channel to host port `p`: a posted write, or a read (R150, R394). -/
def sendGlen (s : State) (t p : Nat) (write relaxed : Bool) (data : Nat) (o : Out) : State :=
  sendPacket s (glenPort t) p .req (if write then .posted else .nonPosted) (.glen t) (s.tagOf p [] (.glen t)) relaxed data o

/-! ### Messages that wait in the Basin -/

/-- The bytes of the messages that wait in the Basin to leave by egress port `e`, oldest cell first. -/
def State.basinQueued (s : State) (e : Nat) : List (List Byte) :=
  ((s.basin.reading.filter (fun r => r.egress == e)).map (fun r => r.msg.body))
    ++ (s.basin.entries.filter (fun x => x.egress == e)).flatMap (fun x => ((s.storedOf x.id).elim [] (fun c => (c.msgs.drop x.sent).map (·.body))))
    ++ (s.basin.stored.filter (fun c => c.targets.any (fun t => t.egress == e))).flatMap (fun c => c.msgs.map (·.body))
    ++ ((s.basin.fifo ++ s.basin.open_.map (·.2)).filter (fun c => c.targets.any (fun t => t.egress == e))).flatMap (fun c => c.msgs.map (·.body))

end Sys2Proof.Machine
end

