-- ==== Sys2Proof/Machine/Fec.lean ====
section
/-! DEFINITION. The protection of a Pass flit (R164 to R166): the CRC-64 and the four interleaved RS(128,120) codewords,
encoded as the rule gives them and decoded up to four symbol errors. Field elements are numbers below 256. -/
namespace Sys2Proof.Machine

/-- The CRC-64 of a byte string (R166). -/
def crc64 (bs : List Byte) : Nat := Nat.xor (crcBytes 64 0x42F0E1EBA9EA3693 (2 ^ 64 - 1) bs) (2 ^ 64 - 1)

/-- Multiplication by α = 0x02 in GF(2^8) with x^8 + x^4 + x^3 + x^2 + 1 (R165). -/
def gfDouble (a : Nat) : Nat := if a < 128 then 2 * a else Nat.xor (2 * a - 256) 0x1D

/-- The product of two field elements, over the `n` low bits of the second. -/
def gfMulBits (a b : Nat) : Nat → Nat
  | 0 => 0
  | n + 1 => Nat.xor (gfDouble (gfMulBits a (b / 2) n)) (if b % 2 = 1 then a else 0)

/-- The product of two field elements. -/
def gfMul (a b : Nat) : Nat := gfMulBits a b 8

/-- α to a power. -/
def gfExp : Nat → Nat
  | 0 => 1
  | n + 1 => gfDouble (gfExp n)

/-- A field element to a power. -/
def gfPow (a : Nat) : Nat → Nat
  | 0 => 1
  | n + 1 => gfMul a (gfPow a n)

/-- The inverse of a non-zero element: its 254th power. -/
def gfInv (a : Nat) : Nat := gfPow a 254

/-- A polynomial, lowest coefficient first, at a point. -/
def gfEval (p : List Nat) (x : Nat) : Nat := p.foldr (fun c acc => Nat.xor c (gfMul x acc)) 0

/-- The sum of two polynomials. -/
def gfAdd : List Nat → List Nat → List Nat
  | [], q => q
  | p, [] => p
  | a :: p, b :: q => Nat.xor a b :: gfAdd p q

/-- A polynomial times a constant. -/
def gfScale (c : Nat) (p : List Nat) : List Nat := p.map (gfMul c)

/-- The product of two polynomials. -/
def gfProduct : List Nat → List Nat → List Nat
  | [], _ => []
  | a :: p, q => gfAdd (gfScale a q) (0 :: gfProduct p q)

/-- The generator (x - α^0) ... (x - α^7), lowest coefficient first (R165). -/
def rsGenerator : List Nat := (List.range 8).foldl (fun g i => gfProduct g [gfExp i, 1]) [1]

/-- One step of the division by the generator: `r` are the eight remainder symbols, highest first. -/
def rsStep (r : List Nat) (m : Nat) : List Nat :=
  let f := Nat.xor m (r.headD 0)
  gfAdd (r.tail ++ [0]) (gfScale f ((rsGenerator.take 8).reverse))

/-- The parity symbols p0..p7 of a message (R165): the code is systematic, m0 the coefficient of x^127. -/
def rsParity (m : List Nat) : List Nat := m.foldl rsStep (List.replicate 8 0)

/-- Codeword `k` of a 512-byte flit: the symbols m0..m119, p0..p7 (R165). -/
def codeword (flit : List Nat) (k : Nat) : List Nat := (List.range 128).map (fun j => flit.getD (4 * j + k) 0)

/-- A flit of 480 protected bytes with its 32 bytes of FEC parity (R164, R165). -/
def fecEncode (body : List Byte) : List Byte :=
  let nums := body.map (·.toNat)
  let par := (List.range 4).map (fun k => rsParity ((List.range 120).map (fun j => nums.getD (4 * j + k) 0)))
  body ++ (List.range 32).map (fun i => BitVec.ofNat 8 ((par.getD (i % 4) []).getD (i / 4) 0))

/-- The eight syndromes of a codeword, its first symbol the coefficient of x^127. -/
def syndromes (c : List Nat) : List Nat := (List.range 8).map (fun i => gfEval c.reverse (gfExp i))

/-- The state of Berlekamp and Massey's algorithm: locator, previous locator, length, shift, previous discrepancy. -/
structure Locator where
  c : List Nat
  b : List Nat
  l : Nat
  m : Nat
  d : Nat
  deriving DecidableEq, Repr

/-- One step of Berlekamp and Massey's algorithm for syndrome `n`. -/
def locatorStep (syn : List Nat) (st : Locator) (n : Nat) : Locator :=
  let d := (List.range (st.l + 1)).foldl (fun acc i => if i ≤ n then Nat.xor acc (gfMul (st.c.getD i 0) (syn.getD (n - i) 0)) else acc) 0
  if d = 0 then { st with m := st.m + 1 }
  else
    let c := gfAdd st.c (List.replicate st.m 0 ++ gfScale (gfMul d (gfInv st.d)) st.b)
    if 2 * st.l ≤ n then ⟨c, st.c, n + 1 - st.l, 1, d⟩ else { st with c := c, m := st.m + 1 }

/-- The error locator of a list of syndromes. -/
def locator (syn : List Nat) : Locator := (List.range 8).foldl (locatorStep syn) ⟨[1], [1], 0, 1, 1⟩

/-- The powers of x, 0..127, where the locator has its roots. -/
def errorPlaces (c : List Nat) : List Nat := (List.range 128).filter (fun j => gfEval c (gfExp ((255 - j) % 255)) == 0)

/-- The error value at power `j` (Forney). -/
def errorValue (syn c : List Nat) (j : Nat) : Nat :=
  let omega := (gfProduct syn c).take 8
  let xi := gfExp ((255 - j) % 255)
  let slope := (List.range c.length).foldl (fun acc i => if i % 2 = 1 then Nat.xor acc (gfMul (c.getD i 0) (gfPow xi (i - 1))) else acc) 0
  gfMul (gfExp j) (gfMul (gfEval omega xi) (gfInv slope))

/-- A codeword with its errors removed and how many there were, none where it is uncorrectable (R165). -/
def rsDecode (c : List Nat) : Option (List Nat × Nat) :=
  let syn := syndromes c
  if syn.all (· == 0) then some (c, 0)
  else
    let loc := locator syn
    let places := errorPlaces loc.c
    if 4 < loc.l ∨ places.length ≠ loc.l then none
    else
      let fixed := places.foldl (fun w j => w.set (127 - j) (Nat.xor (w.getD (127 - j) 0) (errorValue syn loc.c j))) c
      if (syndromes fixed).all (· == 0) then some (fixed, places.length) else none

/-- What the FEC makes of a flit: the corrected bytes and the corrections in each codeword, none where a codeword is
uncorrectable (R174 step 1). -/
def fecDecode (flit : List Byte) : Option (List Byte × List Nat) :=
  let nums := flit.map (·.toNat)
  match rsDecode (codeword nums 0), rsDecode (codeword nums 1), rsDecode (codeword nums 2), rsDecode (codeword nums 3) with
  | some a, some b, some c, some d =>
    let words := [a.1, b.1, c.1, d.1]
    some ((List.range 512).map (fun i => BitVec.ofNat 8 ((words.getD (i % 4) []).getD (i / 4) 0)), [a.2, b.2, c.2, d.2])
  | _, _, _, _ => none

end Sys2Proof.Machine
end

