-- ==== Sys2Proof/Machine/RsCode.lean ====
section
/-! DEFINITION. The outer code of a stored Steppe line and its LINE_CHECK (R198, R201, R203). -/
namespace Sys2Proof.Machine

/-- The generator (x − α^0)(x − α^1)…(x − α^11), its lowest coefficient first (R201). -/
def lineGenerator : List Nat := (List.range 12).foldl (fun g i => gfProduct g [gfExp i, 1]) [1]

/-- One symbol enters the remainder, whose highest coefficient stands first. -/
def lineStep (r : List Nat) (b : Byte) : List Nat :=
  gfAdd (r.drop 1 ++ [0]) (gfScale (Nat.xor b.toNat (r.headD 0)) (lineGenerator.take 12).reverse)

/-- The check symbols p0..p11 of the 68 bytes before them (R198, R201): the remainder of their polynomial times x^12, its highest
coefficient first. -/
def checkSymbols (bs : List Byte) : List Byte := (bs.foldl lineStep (List.replicate 12 0)).map (BitVec.ofNat 8)

/-- Eighty bytes that are a codeword (R201): the polynomial whose highest coefficient is byte 0 is zero at α^0..α^11. -/
def isCodeword (bs : List Byte) : Bool :=
  decide (bs.length = 80) && (List.range 12).all (fun j => gfEval (bs.map (·.toNat)).reverse (gfExp j) == 0)

/-- The symbols in which two words differ. -/
def differing (x y : List Byte) : List Nat := (List.range 80).filter (fun i => x.getD i 0 != y.getD i 0)

/-! ### LINE_CHECK (R203) -/

/-- LINE_CHECK of a line: bytes 0..63 as stored, metadata bits 31..16 with the upper byte first, and the line number. -/
def lineCheck (data : List Byte) (word n : Nat) : Nat := crcBytes 16 0x1021 0xFFFF (data ++ beBytes (bits word 16 16) 2 ++ leBytes n 4)

/-- A metadata word (R199), without LINE_CHECK. -/
def metaWord (poison tracked : Bool) (tag : Nat) : Nat := at_ 31 (b2n poison) + at_ 30 (b2n tracked) + at_ 18 tag

/-- The 80 bytes of a line (R198): its data as stored, its metadata word with LINE_CHECK, its check symbols. -/
def storedForm (data : List Byte) (word n : Nat) : List Byte :=
  let front := data ++ leBytes (setBits word 0 16 (lineCheck data word n)) 4
  front ++ checkSymbols front

/-- LINE_CHECK of 80 decoded bytes is right for line `n` (R203). -/
def checkPasses (w : List Byte) (n : Nat) : Bool := leField w 64 2 == lineCheck (w.take 64) (leField w 64 4) n

end Sys2Proof.Machine
end

