-- ==== Sys2Proof/Machine/SteppeOps.lean ====
section
/-! DEFINITION. Shared operations of Steppe memory (08_steppe_memory.md): placement, the write queues, encryption, the
decoding of a line, reads and writes of lines, row tracking and sparing, key slots. -/
namespace Sys2Proof.Machine

/-- The end of the Steppe data space: 192 GiB (R195). -/
abbrev steppeEnd : Nat := 0x3000000000

/-! ### Placement (R196) -/

/-- The channel of line `n`. -/
def lineChannel (n : Nat) : Nat := let b := n / 4; Nat.xor (Nat.xor (b % 128) (b / 128 % 128)) (b / 16384 % 128)

/-- The index of line `n` in its channel. -/
def lineIndex (n : Nat) : Nat := n / 4 / 128 * 4 + n % 4

/-- The row set of line `n`. -/
def lineRowSet (n : Nat) : Nat := lineIndex n / 128

/-- The bank of beat `k` of line `n`. -/
def beatBank (n k : Nat) : Nat := (lineRowSet n + k) % 16

/-- The user row of beat `k` of line `n`. -/
def beatRow (n k : Nat) : Nat := lineRowSet n / 16 * 5 + k

/-- The region of a Steppe address: 0 pool, 1 directory store, 2 system region (R195). -/
def steppeRegion (a : Nat) : Nat := if a < 0x2800000000 then 0 else if a < 0x2E00000000 then 1 else 2

/-- `STP.XLATE_RESULT` for an address (R196). -/
def xlateWord (a : Nat) : Nat :=
  if steppeEnd ≤ a then 0
  else let n := a / 64
    at_ 63 1 + at_ 61 (steppeRegion a) + at_ 52 (lineChannel n) + at_ 30 (lineRowSet n) + at_ 23 (lineIndex n % 128)

/-! ### Lines -/

/-- POISON of a line. -/
def State.linePoison (s : State) (n : Nat) : Bool := bitAt (s.lineWord n) 31
/-- TRACKED of a line. -/
def State.lineTracked (s : State) (n : Nat) : Bool := bitAt (s.lineWord n) 30
/-- KEY_TAG of a line. -/
def State.lineTag (s : State) (n : Nat) : Nat := bits (s.lineWord n) 18 12

/-- Steppe memory is Ready. -/
def State.steppeReady (s : State) : Bool := s.reg Obj.STP_STATE == 2

/-- No symbol error stands in the line any more: it has been written. -/
def clearFaults (s : State) (n : Nat) : State := { s with stp := { s.stp with faults := assocDrop s.stp.faults n } }

/-! ### The write queues (R194, R197) -/

/-- A channel's write queue as it stands now: five lines leave it in each 8 ns, the rate of R222, and in each 16 ns where the
stack is above 100 °C (R221) (log entry 90). -/
def State.writeQueue (s : State) (c : Nat) : WriteQueue :=
  match assocGet s.stp.writes c with
  | none => ⟨[], s.now⟩
  | some q =>
    let span := if s.stp.hot.contains (c / 32) then 16 else 8
    let left := q.lines.drop (5 * ((s.now - q.since) / span))
    ⟨left, if left.isEmpty then s.now else q.since + (s.now - q.since) / span * span⟩

/-- The channel of a line has room for one more write. -/
def State.writeRoom (s : State) (n : Nat) : Bool := decide ((s.writeQueue (lineChannel n)).lines.length < 128)

/-- A write of a line is accepted into its channel's queue; a writer inside the device that meets a full one has stalled until
the oldest write left it (R197). -/
def acceptWrite (s : State) (n : Nat) : State :=
  let q := s.writeQueue (lineChannel n)
  let lines := q.lines.drop (q.lines.length + 1 - 128) ++ [n]
  { s with stp := { s.stp with writes := assocPut s.stp.writes (lineChannel n) ⟨lines, q.since⟩ } }

/-! ### Encryption (R217) -/

/-- A tag that is a key slot (R200). -/
def isSlot (tag : Nat) : Bool := decide (1 ≤ tag) && decide (tag ≤ 0xFFD)

/-- The key of a slot. -/
def State.slotKey (s : State) (slot : Nat) : Option Nat := if slot = 0 then none else assocGet s.stp.keys slot

/-- What the key engines hold for a slot. -/
def State.engineKey (s : State) (slot : Nat) : Nat := (s.slotKey slot).getD (Config.overwrittenKey slot)

/-- A line's 64 bytes as they are stored: under the key of its slot, with the tweak of R217, which for line `l` of the tracts is
`l` itself: the tract number times 2^22 plus the line's index in it. -/
def cipher (s : State) (slot l : Nat) (data : List Byte) : List Byte :=
  if isSlot slot then leBytes (Config.xts (s.engineKey slot) l (BitVec.ofNat 512 (ofLe (padTo data 64)))).toNat 64 else data

/-- The data of stored bytes under the key of a slot (R204 step 6). -/
def plain (s : State) (slot l : Nat) (bytes : List Byte) : List Byte :=
  if isSlot slot then leBytes ((Config.xts (s.engineKey slot) l).symm (BitVec.ofNat 512 (ofLe (padTo bytes 64)))).toNat 64 else bytes

/-! ### Writing a line (R205, R207) -/

/-- A whole line is written (R205): encrypted where it is keyed, with its metadata, into the channel's queue. Its LINE_CHECK and
check symbols are those of what it now holds (`storedForm`), so no error stands in it. -/
def putLine (s : State) (n : Nat) (l : StoredLine) : State :=
  let s1 := (s.setBytes (64 * n) (cipher s l.tag n (padTo l.data 64))).setLineWord n (metaWord l.poison l.tracked l.tag)
  acceptWrite (clearFaults s1 n) n

/-- The line the controller poisons on its own account (R207). -/
def poisonLine (s : State) (n : Nat) : State := putLine s n ⟨[], true, true, 0xFFE⟩

/-- The erased line that scrub writes over a Draining slot's line (R210). -/
def eraseLine (s : State) (n : Nat) : State := putLine s n ⟨[], false, true, 0xFFF⟩

/-! ### Row tracking (R212, R213) -/

/-- The row that serves a user row of a bank: its spare where a remap or a hard repair stands (R213, R215). -/
def physicalRow (s : State) (c bank row : Nat) : Nat :=
  match (s.stp.remaps ++ s.stp.repaired).find? (fun m => m.channel == c && m.bank == bank && m.row == row) with
  | some m => m.spare
  | none => row

/-- The user row a row serves, none for a spare row that is not in use: a repaired row that has been spared again has left the
spare it was fused onto (R214, R215). -/
def servedRow (s : State) (c bank row : Nat) : Option Nat :=
  if row < 61440 then some row
  else ((s.stp.remaps ++ s.stp.repaired).find? (fun m => m.channel == c && m.bank == bank && m.spare == row && physicalRow s c bank m.row == row)).map (·.row)

/-- A row joins a channel's sparing queue: one being spared and four more are held, a fifth is dropped (R213). -/
def queueRow (s : State) (c bank row : Nat) : State :=
  let q := (assocGet s.stp.queue c).getD []
  let job := assocGet s.stp.sparing c
  let there := q.contains (bank, row) || (match job with
    | some j => j.bank == bank && j.row == row
    | none => false)
  if there ∨ 5 ≤ q.length + b2n job.isSome then s
  else { s with stp := { s.stp with queue := assocPut s.stp.queue c (q ++ [(bank, row)]) } }

/-- The entry of a full tracker that gives way: the lowest count, the earliest on a tie (R212). -/
def lowestTrack : List Track → Option Track
  | [] => none
  | t :: rest => match lowestTrack rest with
    | none => some t
    | some u => some (if u.count < t.count then u else t)

/-- A row of a channel gains `k` in the tracker, and is queued at the threshold (R212). -/
def trackRow (s : State) (c bank row k : Nat) : State :=
  let es := (assocGet s.stp.tracker c).getD []
  let old := es.find? (fun e => e.bank == bank && e.row == row)
  let kept : List Track := match old with
    | some _ => es
    | none => if es.length < 64 then es ++ [Track.mk bank row 0] else es.filter (fun e => some e != lowestTrack es) ++ [Track.mk bank row 0]
  let es1 := kept.map (fun (e : Track) => if e.bank = bank ∧ e.row = row then { e with count := e.count + k } else e)
  let s1 : State := { s with stp := { s.stp with tracker := assocPut s.stp.tracker c es1 } }
  if s1.reg Obj.STP_SPARE_AUTO = 1 ∧ s1.reg Obj.STP_SPARE_CE_THRESHOLD ≤ (old.map (fun (e : Track) => e.count)).getD 0 + k then queueRow s1 c bank row else s1

/-- The rows of the named beats of a line gain `k` each. -/
def trackBeats (s : State) (n k : Nat) (beats : List Nat) : State :=
  forEach beats s fun t b => trackRow t (lineChannel n) (beatBank n b) (physicalRow t (lineChannel n) (beatBank n b) (beatRow n b)) k

/-! ### Decoding (R201, R203, R204) -/

/-- A line as its decoding leaves it: its 64 bytes as stored, and bits 31..16 of its metadata word. -/
structure LineView where
  bytes : List Byte
  word  : Nat
  deriving DecidableEq, Repr

/-- The line of 80 decoded bytes. -/
def lineView (w : List Byte) : LineView := ⟨w.take 64, setBits (leField w 64 4) 0 16 0⟩

/-- What the controllers hold of a line. -/
def State.view (s : State) (n : Nat) : LineView := ⟨s.bytes (64 * n) 64, s.lineWord n⟩

/-- The 80 bytes of a line as it was stored (R198). -/
def State.storedLine (s : State) (n : Nat) : List Byte := storedForm (s.bytes (64 * n) 64) (s.lineWord n) n

/-- What the two codes make of a line: clean, corrected in `beats` with `count` symbols, or neither. -/
inductive Decoded where
  | clean (line : LineView)
  | corrected (count : Nat) (beats : List Nat) (line : LineView)
  | uncorrectable
  | miscorrected
  deriving DecidableEq, Repr

/-- The symbols the decoder corrects in the mode selected (R201). -/
def State.correctable (s : State) : Nat := if s.reg Obj.STP_DECODE_MODE = 1 then 4 else 6

/-- The symbol errors up to which the mode never miscorrects (R201). -/
def State.guaranteed (s : State) : Nat := if s.reg Obj.STP_DECODE_MODE = 1 then 8 else 6

/-- What is wrong in byte `i` of the line. -/
def wrongBits (e : DramErrors) (i : Nat) : Byte := e.flips.foldl (fun x f => if f.1 = i then x ^^^ f.2 else x) 0

/-- The bytes that are wrong. -/
def wrongSymbols (e : DramErrors) : List Nat := (List.range 80).filter (fun i => wrongBits e i != 0)

/-- The bytes that reach the outer decoder. -/
def received (e : DramErrors) (stored : List Byte) : List Byte := (List.range 80).map (fun i => stored.getD i 0 ^^^ wrongBits e i)

/-- The beats that hold symbols. -/
def beatsOf (symbols : List Nat) : List Nat := (symbols.map (· / 16)).eraseDups

/-- The outer decoder has settled on a codeword, correcting `symbols`; LINE_CHECK decides (R203, R204). -/
def afterDecode (n : Nat) (w : List Byte) (symbols : List Nat) : Decoded :=
  if !checkPasses w n then .miscorrected
  else if symbols.isEmpty then .clean (lineView w)
  else .corrected symbols.length (beatsOf symbols) (lineView w)

/-- A line with more symbol errors than its mode is guaranteed to handle (R201): reported, or taken for the codeword `w`, which
the decoder reaches by correcting as many symbols as it can. -/
def beyondLimit (s : State) (n : Nat) (r : List Byte) (w : Option (List Byte)) : Decoded :=
  match w with
  | none => .uncorrectable
  | some w => if isCodeword w && decide ((differing w r).length ≤ s.correctable) then afterDecode n w (differing w r) else .uncorrectable

/-- Decode line `n` with the errors its read meets (R201, R203, R204 steps 1 and 2). Up to the mode's limits the decoder finds
what was stored, which for a read from the right place has the right LINE_CHECK. -/
def decodeWith (s : State) (n : Nat) (e : DramErrors) : Decoded :=
  let k := wrongSymbols e
  let from_ := s.storedLine (e.place.getD n)
  if k.length ≤ s.correctable then
    if e.place.all (· == n) then (if k.isEmpty then .clean (s.view n) else .corrected k.length (beatsOf k) (s.view n))
    else afterDecode n from_ k
  else if k.length ≤ s.guaranteed then .uncorrectable
  else beyondLimit s n (received e from_) e.settles

/-- Decode a line with the errors that stand in it. -/
def decodeLine (s : State) (n : Nat) : Decoded :=
  match assocGet s.stp.faults n with
  | none => .clean (s.view n)
  | some e => decodeWith s n e

/-- An uncorrectable or miscorrected line is counted, logged, raised and poisoned (R204, R207, R212). -/
def badLine (s : State) (n : Nat) (ue : Bool) : State :=
  let c := lineChannel n
  let s1 := if ue then s.count1 Obj.STP_UE_LINES c else s.count1 Obj.STP_MISCORRECTED c
  let s2 := poisonLine (trackBeats (s1.setReg Obj.STP_LAST_UE 0 n) n 4 (List.range 5)) n
  raise s2 7 (if ue then 1 else 2)

/-- The corrected line is written back, with its metadata as decoded (R204). -/
def rewriteLine (s : State) (n : Nat) (v : LineView) : State :=
  acceptWrite (clearFaults ((s.setBytes (64 * n) v.bytes).setLineWord n v.word) n) n

/-- A corrected line is counted, raised and tracked, and rewritten at the threshold or by scrub (R204, R210). -/
def correctedLine (s : State) (n count : Nat) (beats : List Nat) (v : LineView) (rewrite : Bool) : State :=
  let c := lineChannel n
  let s2 := (s.count1 Obj.STP_CE_LINES c).count Obj.STP_CE_SYMBOLS c count
  let s3 := raise (trackBeats s2 n 1 beats) 7 0
  if rewrite ∨ s3.reg Obj.STP_CE_REWRITE ≤ count then rewriteLine s3 n v else s3

/-- Steps 1 and 2 of R204: what decoding does, and the line it gives, none where it is poisoned. -/
def decodeEffect (s : State) (n : Nat) (scrub : Bool) : State × Option LineView :=
  match decodeLine s n with
  | .clean v => (s, some v)
  | .corrected k beats v => (correctedLine s n k beats v scrub, some v)
  | .uncorrectable => (badLine s n true, none)
  | .miscorrected => (badLine s n false, none)

/-- `STP.KEY_STATE` of a slot: 0 Free, 1 Live, 2 Draining; 3 for the tags that are no slots (R219, R225). -/
def State.keyState (s : State) (slot : Nat) : Nat :=
  if slot = 0 ∨ 0xFFE ≤ slot then 3 else s.reg Obj.STP_KEY_STATE slot

/-- The result of a line read: its data and whether it is poisoned. -/
structure LineRead where
  data   : List Byte
  poison : Bool
  deriving DecidableEq, Repr

/-- A line the controller has just poisoned: its data is zero (R207). -/
def poisoned : LineRead := ⟨List.replicate 64 0, true⟩

/-- Steps 3 to 6 of R204 on a decoded line. Which bytes come with a tag mismatch is not stated: they are a free value. -/
def checkLine (t : State) (n expected : Nat) (v : LineView) : State × LineRead :=
  let tag := bits v.word 18 12
  if tag = 0xFFF ∨ t.keyState tag = 2 then (t.count1 Obj.STP_ERASED_READS 0, ⟨List.replicate 64 0, false⟩)
  else if bitAt v.word 31 then (t.count1 Obj.STP_POISON_READS 0, ⟨plain t tag n v.bytes, true⟩)
  else if tag ≠ expected ∧ tag ≠ 0xFFE then ((raise (t.count1 Obj.STP_TAG_MISMATCH 0) 7 3).useFree, ⟨leBytes t.freeNow 64, true⟩)
  else (t, ⟨plain t tag n v.bytes, false⟩)

/-- A line read with the tag its request expects (R204). -/
def readLine (s : State) (n expected : Nat) : State × LineRead :=
  let r := decodeEffect s n false
  match r.2 with
  | none => (r.1, poisoned)
  | some v => checkLine r.1 n expected v

/-! ### The system region (R195, R204, R205) -/

/-- The lines from `n` on, read one after the other with tag 0x000. -/
def readLines (s : State) (n : Nat) : Nat → State × LineRead
  | 0 => (s, ⟨[], false⟩)
  | k + 1 =>
    let a := readLine s n 0
    let b := readLines a.1 (n + 1) k
    (b.1, ⟨a.2.data ++ b.2.data, a.2.poison || b.2.poison⟩)

/-- How many lines the bytes `a .. a + n - 1` lie in. -/
def linesOf (a n : Nat) : Nat := (a + n + 63) / 64 - a / 64

/-- A read of the system region by one of its users: `n` bytes from address `a`, and whether a line of them is poisoned. -/
def State.sysRead (s : State) (a n : Nat) : State × LineRead :=
  let r := readLines s (a / 64) (linesOf a n)
  (r.1, ⟨slice r.2.data (a % 64) n, r.2.poison⟩)

/-- The bytes a read of the system region returns. -/
def State.sysBytes (s : State) (a n : Nat) : List Byte := (s.sysRead a n).2.data

/-- The part of bytes `bs` from address `a` on that lies in line `n` is written: a whole line as it is, a part merged into the
line as it reads, poisoned where that is (R205, R207). -/
def sysPart (s : State) (a : Nat) (bs : List Byte) (n : Nat) : State :=
  let lo := max a (64 * n)
  let part := slice bs (lo - a) (min (a + bs.length) (64 * n + 64) - lo)
  if part.length = 64 then putLine s n ⟨part, false, false, 0⟩
  else
    let r := readLine s n 0
    putLine r.1 n ⟨splice r.2.data (lo - 64 * n) part, r.2.poison, false, 0⟩

/-- Lines `n .. n + k - 1` are written whole, as plaintext: no error stands in them, and their tag is 0x000. -/
def cleanLines (s : State) (n k : Nat) : State :=
  let t := setLineWords s n 0 k
  { t with stp := { t.stp with faults := t.stp.faults.filter (fun f => decide (f.1 < n) || decide (n + k ≤ f.1)) } }

/-- A write of the system region by one of its own users: plaintext, tag 0x000 (R200); before Steppe memory is Ready, and once it
has stopped, it is not accepted (R208, R224). -/
def State.sysWrite (s : State) (a : Nat) (bs : List Byte) : State :=
  if s.steppeReady then forEach (List.range (linesOf a bs.length)) s fun t i => sysPart t a bs (a / 64 + i) else s

/-! ### Key slots (R217 to R220) -/

/-- The lowest-numbered Free slot (R218). -/
def State.freeSlot (s : State) : Option Nat := ((List.range 0xFFD).map (· + 1)).find? (fun k => s.keyState k == 0)

/-- A key takes a slot, which becomes Live. -/
def takeSlot (s : State) (slot key : Nat) : State :=
  let s1 := (s.setReg Obj.STP_KEY_STATE slot 1).setReg Obj.STP_KEY_FREE 0 (s.reg Obj.STP_KEY_FREE - 1)
  { s1 with stp := { s1.stp with keys := assocPut s1.stp.keys slot key } }

/-- A new key from the random-number generator takes the lowest Free slot (R218); which key, is a free value. -/
def newKey (s : State) : State × Option Nat :=
  match s.freeSlot with
  | some k => ((takeSlot s k s.freeNow).useFree, some k)
  | none => (s, none)

/-- A slot returns to Free. -/
def freeSlotAgain (s : State) (slot : Nat) : State :=
  let s1 := (s.setReg Obj.STP_KEY_STATE slot 0).setReg Obj.STP_KEY_FREE 0 (s.reg Obj.STP_KEY_FREE + 1)
  { s1 with stp := { s1.stp with draining := assocDrop s1.stp.draining slot } }

/-- The slot serves fronted tracts only (R219): the allocation that holds it lies in fronted memory. -/
def slotFronted (s : State) (slot : Nat) : Bool :=
  (s.elements Obj.TRACT_ALLOC_STATE).any (fun i => s.regBits Obj.TRACT_ALLOC_STATE i 0 12 == slot && decide (1024 ≤ s.regBits Obj.TRACT_ALLOC_EXTENT i 0 20))

/-- A slot is destroyed (R219): it is Draining until a pass that starts later has ended; a slot that served fronted
tracts only is Free at once. -/
def destroySlot (s : State) (slot : Nat) (frontedOnly : Bool) : State :=
  if s.keyState slot = 1 then
    let s1 := { s with stp := { s.stp with keys := assocDrop s.stp.keys slot } }
    if frontedOnly then freeSlotAgain s1 slot
    else
      let s2 := s1.setReg Obj.STP_KEY_STATE slot 2
      { s2 with stp := { s2.stp with draining := assocPut s2.stp.draining slot s2.stp.passes } }
  else s

/-! ### Spare rows (R213 to R216) -/

/-- Rows of a bank's reserve that are used: serving, repaired onto, or Bad (R216). -/
def usedSpares (s : State) (c bank : Nat) : List Nat :=
  (((s.stp.remaps ++ s.stp.repaired).filter (fun m => m.channel == c && m.bank == bank)).map (·.spare)
    ++ (s.stp.bad.filter (fun r => r.channel == c && r.bank == bank)).map (fun r => r.row)).eraseDups

/-- The lowest free spare row of a bank (R213). -/
def freeSpare (s : State) (c bank : Nat) : Option Nat :=
  let used := usedSpares s c bank
  ((List.range 4096).map (61440 + ·)).find? (fun r => !used.contains r)

/-- `STP.SPARE_USED` and `STP.SPARE_MAX_BANK` follow the bank's used rows; above 80 % of the reserve RESERVE_80 is raised (R216). -/
def countSpares (s : State) (c bank : Nat) : State :=
  let n := (usedSpares s c bank).length
  let s1 := s.setReg Obj.STP_SPARE_USED (16 * c + bank) n
  let s2 := if s1.reg Obj.STP_SPARE_MAX_BANK < n then s1.setReg Obj.STP_SPARE_MAX_BANK 0 n else s1
  if 3276 < n ∧ s2.regBit Obj.STP_ERRORS 0 7 = false then raise s2 7 7 else s2

/-- A spare row is marked Bad. -/
def markBad (s : State) (c bank row : Nat) : State :=
  countSpares { s with stp := { s.stp with bad := ⟨c, bank, row⟩ :: s.stp.bad.filter (· != ⟨c, bank, row⟩) } } c bank

/-- An entry of `STP.SPARE_LOG`: kind 0 remap, 1 hard repair, 2 abandoned. -/
def logSpare (s : State) (kind c bank row : Nat) : State :=
  pushLog s Obj.STP_SPARE_LOG 64 (at_ 32 (s.sinceReset / 1000000 % 2 ^ 32) + at_ 30 kind + at_ 23 c + at_ 19 bank + row)

end Sys2Proof.Machine
end

