-- ==== Sys2Proof/Machine/Check.lean ====
section
/-! DEFINITION. The checks a dictionary record passes before it acts, in the order of R500. -/
namespace Sys2Proof.Machine

/-- The class of a path (R39). -/
inductive Cls where
  | m
  | o
  | t
  deriving DecidableEq, Repr

/-- The result codes of R48. -/
inductive Result where
  | ok | noObject | noSubindex | noElement | denied | length | range | state | stageFull | busy | commitFailed | malformed
  deriving DecidableEq, Repr

/-- The number of a result code (R48). -/
def resultCode : Result → Nat
  | .ok => 0 | .noObject => 1 | .noSubindex => 2 | .noElement => 3 | .denied => 4 | .length => 5
  | .range => 6 | .state => 7 | .stageFull => 8 | .busy => 9 | .commitFailed => 10 | .malformed => 11

/-- The operations of a record (R45) and their codes. -/
inductive RecOp where
  | read | write | staged | describe
  deriving DecidableEq, Repr

/-- The OP field. -/
def opCode : RecOp → Nat
  | .read => 1 | .write => 2 | .staged => 3 | .describe => 4

/-- The class a path grants (R39). -/
def pathClass : Path → Cls
  | .kdp _ _ => .m
  | .i3c => .o
  | .fm _ _ => .m
  | .tenant _ => .t

/-- The code of a path in `STG.LAST_WRITER_PATH` (R65). -/
def pathCode : Path → Nat
  | .kdp _ _ => 0
  | .i3c => 1
  | .fm _ _ => 2
  | .tenant _ => 3

/-- The port of a path, 0 where it has none (R65). -/
def pathPort : Path → Nat
  | .fm p _ => p
  | .tenant p => p
  | _ => 0

/-- The row of subindex 0 of an index: a U8 every class reads (R34). -/
def subZero (index : Nat) : ObjDef := ⟨index * 256, 2, 1, 0, 21, false, [], 0, 0, 0, 0⟩

/-- The row a record addresses, or the result that none is there (R34, R36). -/
def lookupObj (index sub : Nat) : Except Result ObjDef :=
  if !indexDefined index then .error .noObject
  else if sub = 0 then .ok (subZero index)
  else match findObj (index * 256 + sub) with
    | some o => .ok o
    | none => .error .noSubindex

/-- No class may read the object (R49): `O rec` reads too (R40). -/
def writeOnly (o : ObjDef) : Bool := Nat.land o.acc 29 == 0

/-- The class holds read access (R40). -/
def canRead (c : Cls) (o : ObjDef) : Bool :=
  match c with
  | .m => bitAt o.acc 0
  | .o => bitAt o.acc 2 || bitAt o.acc 3
  | .t => bitAt o.acc 4

/-- The class holds write access (R40). -/
def canWrite (c : Cls) (o : ObjDef) : Bool :=
  match c with
  | .m => bitAt o.acc 1
  | .o => bitAt o.acc 3
  | .t => bitAt o.acc 5


/-- The recovery subset of R43. -/
def recoverySubset (a : Nat) : Bool :=
  [Obj.MGP_ETH_MODE, Obj.MGP_IP_MODE, Obj.MGP_IPV4_ADDR, Obj.MGP_IPV4_MASK, Obj.MGP_IPV4_GATEWAY, Obj.RST_CHIP_RESET, Obj.BOOT_NEXT_IMAGE].contains a

/-- The T-class conditions of R41 and R434: bound to a tenancy (reads of identity objects apart), its own element only,
reads of counters only while COUNTERS is set. -/
def tenantOk (s : State) (port : Nat) (op : RecOp) (o : ObjDef) (e : Option Nat) : Bool :=
  match s.portTenancy port with
  | none => o.addr / 256 == 0x1000 && (op == .read || op == .staged)
  | some t =>
    (match e with
      | some n => o.count != 4096 || n == t
      | none => true)
    && (!isCounter o || s.regBit Obj.TEN_CTRL t 30 || !(op == .read || op == .staged))

/-- Check 3 of R500: the access the operation needs. -/
def accessOk (s : State) (path : Path) (op : RecOp) (o : ObjDef) (e : Option Nat) : Bool :=
  let c := pathClass path
  (match op with
    | .read | .staged => canRead c o || (writeOnly o && canWrite c o)
    | .write => canWrite c o && !(o.count != 0 && e.isNone)
    | .describe => canRead c o || canWrite c o)
  && (match path with
    | .tenant p => tenantOk s p op o e
    | _ => true)

/-- Check 4 of R500: an element number out of range, or for no TABLE. -/
def elementOk (o : ObjDef) : Option Nat → Bool
  | none => true
  | some n => decide (n < o.count)

/-- The FFE limits of R81 on a word written with MODE = 1. -/
def ffeOk (v : Nat) : Bool :=
  let pre := bits v 12 6; let main := bits v 6 6; let post := bits v 0 6
  !bitAt v 31 || (pre + main + post == 63 && pre ≤ 15 && post ≤ 21 && pre + post ≤ 21)

/-- A shaper word with ENABLE = 1 lies within R157. -/
def shaperOk (v : Nat) : Bool :=
  let adjust := signed (bits v 41 9) 9
  !bitAt v 63 || (1000000 ≤ shaperRate v && bits v 28 8 != 0 && bits v 36 5 ≤ 16 && 64 ≤ shaperBurst v
    && decide (-32 ≤ adjust))

/-- A contiguous address mask: ones, then zeros. -/
def contiguousMask (v : Nat) : Bool := (List.range 33).any (fun n => v == 2 ^ 32 - 2 ^ n)

/-- The address word names an element of a counter object (R431). -/
def namesCounter (w : Nat) : Bool :=
  match findObj (bits w 32 16 * 256 + bits w 24 8) with
  | some o => isCounter o && (if o.count = 0 then !bitAt w 23 else bitAt w 23 && decide (w % 65536 < o.count))
  | none => false

/-- Groups that may hold self-recovering sources (R412). -/
def mayRecover (g : Nat) : Bool := [0, 1, 3, 13, 14].contains g

/-- Groups with a block reset (R418). -/
def hasBlockReset (g : Nat) : Bool := [0, 1, 3, 6, 12, 13].contains g

/-- R414: what a write of `FLT.SOURCE_CFG` may hold. -/
def sourceCfgOk (s : State) (n v : Nat) : Bool :=
  let g := n / 32
  match sourceSeverity g (n % 32) with
  | none => v == 0
  | some _ =>
    let old := s.reg Obj.FLT_SOURCE_CFG n
    !(bitAt old 21 && bits v 27 3 != bits old 27 3) && bits v 27 3 ≤ 4 && bits v 24 3 ≤ 4
      && (!bitAt v 31 || (mayRecover g && bits v 27 3 != 4)) && (!bitAt v 18 || hasBlockReset g)

/-- The ranges that are not a plain span of the object's row. -/
def rangeSpecial (s : State) (a e v : Nat) : Bool :=
  if a = Obj.MGP_IPV4_MASK then contiguousMask v
  else if a = Obj.LANE_TX_FFE then ffeOk v
  else if a = Obj.LANE_PRBS_CTRL then bits v 4 3 < 6
  else if a = Obj.SCHED_IO_TC_MAP then (List.range 8).all (fun i => bits v (4 * i) 3 != 7)
  else if a = Obj.TRACT_ALLOC_ATTR then bits v 62 2 != 3
  else if a = Obj.SCHED_QUEUE_SHAPER then shaperOk v && (!bitAt v 63 || e % 8 != 7)
  else if a = Obj.SCHED_PORT_SHAPER ∨ a = Obj.GLEN_CHAN_RATE then shaperOk v
  else if a = Obj.FLT_SOURCE_CFG then sourceCfgOk s e v
  else if a = Obj.TLM_HIGH_WM then s.reg Obj.TLM_LOW_WM < v
  else if a = Obj.TLM_LOW_WM then v < s.reg Obj.TLM_HIGH_WM
  else if a = Obj.STAT_DUMP_ADDR then v % 256 == 0 && v < 0x30000000
  else if a = Obj.STAT_PROG_SELECT then v == 0 || namesCounter v
  else if a = Obj.COL_STEAL_IDLE_PCT then v < s.reg Obj.COL_STEAL_BUSY_PCT
  else if a = Obj.COL_STEAL_BUSY_PCT then s.reg Obj.COL_STEAL_IDLE_PCT < v
  else if a = Obj.BOOT_UPDATE_ADDR then v % 512 == 0 && v < 0x1000000
  else if a = Obj.BOOT_KEY_REVOKE then v < s.boot.keyIndex
  else if a = Obj.LIFE_REQUEST then bits v 32 32 == s.reg Obj.ID_SERIAL % 2 ^ 32 && bits v 0 8 == s.reg Obj.LIFE_STATE + 1 && bits v 0 8 ≤ 2
  else if a = Obj.MBX_IN_SEND then bits v 0 32 != 0
  else if a = Obj.TRACT_MEM_ADDR then v % 64 == 0 && s.tractExists (v / 2 ^ 28)
  else if a = Obj.TRACT_MEM_DATA then s.tractExists (s.reg Obj.TRACT_MEM_ADDR / 2 ^ 28)
  else true

/-- Check 7 of R500. -/
def rangeOk (s : State) (o : ObjDef) (e v : Nat) : Bool :=
  (o.spans.isEmpty || o.spans.any (fun r => r.1 ≤ v && v ≤ r.2)) && rangeSpecial s o.addr e v

/-- A request of `DEV.STATE_REQ` that R474 names, from the present state. -/
def stateRequestOk (s : State) (v : Nat) : Bool :=
  let d := s.devState
  if v = d then true
  else if d = 0 then (v == 1 || v == 2) && devHold s == 0
  else if d = 1 then v == 2 || v == 3
  else if d = 2 then v == 1 || v == 3
  else v == 1 || v == 2

/-- Check 8 of R500: the device state, and the other states the chapters name. DESIGN CHOICE (log entry 91): a revert of a reserve
that is not In use, or while its swap is in progress, and a swap of one that is not free, have no stated result (R91 to R93)
and are rejected with STATE. -/
def stateOk (s : State) (a e v : Nat) : Bool :=
  let d := s.devState
  if a = Obj.LANE_PORT_TEST ∨ a = Obj.LANE_TX_FFE ∨ a = Obj.FLT_FORCE then d == 2
  else if a = Obj.SCHED_QUEUE_SHAPER ∨ a = Obj.PASS_ROUTE_RECOMPUTE then d != 1
  else if a = Obj.STP_SPARE_CMD ∨ a = Obj.STP_SANITIZE then d == 2 || d == 3
  else if a = Obj.DEV_STATE_REQ then stateRequestOk s v
  else if a = Obj.LANE_SWAP_CMD then
    (if bitAt v 8 then (d == 2 || d == 3) && s.regBits Obj.LANE_GROUP_STATUS e 12 2 == 2
      else s.regBits Obj.LANE_GROUP_STATUS e 12 2 == 0) && (assocGet s.lane.swaps e).isNone
  else if a = Obj.LIFE_REQUEST then d == 0 || d == 2
  else if a = Obj.BOOT_SVN_ADVANCE ∨ a = Obj.BOOT_KEY_REVOKE then !s.boot.trial && !s.regBit Obj.BOOT_STATUS 0 29
  else if a = Obj.BOOT_UPDATE_DATA then s.regBits Obj.BOOT_UPDATE_STATUS 0 29 3 != 1
  else if a = Obj.BOOT_UPDATE_CMD then
    let st := s.regBits Obj.BOOT_UPDATE_STATUS 0 29 3
    if v ≤ 2 then st != 1
    else if v = 3 then st == 2
    else st == 2 && d != 0 && leField (s.flashBytes (if s.regBit Obj.BOOT_UPDATE_STATUS 0 0 then 0x01100000 else 0x00100000) 12) 11 1 == bits (s.reg Obj.ID_FW_VERSION) 24 8
  else if a = Obj.SLOT_STATUS then !bitAt v 22 || s.reg Obj.SLOT_VOUT e < 1000
  else if a = Obj.COL_SPARE_CMD then d != 0
  else if a = Obj.TWIN_DECLARE_LOST then s.pairState == 4
  else if a = Obj.TWIN_ALIAS_END then d == 3
  else if a = Obj.TEN_RESET then s.tenState v != 0
  else if a = Obj.MBX_IN_SEND then s.tenState e != 0
  else if a = Obj.GLEN_CHAN_RATE then d != 1 || s.tenState e == 0
  else true

/-- The result of the checks of R500 for an operation of a path on a record; `ok` when it may act. Check 9
(STAGE_FULL) and the staging are the write's own. -/
def checkRecord (s : State) (path : Path) (op : RecOp) (r : Rec) : Result :=
  match lookupObj r.index r.sub with
  | .error c => c
  | .ok o =>
    if !accessOk s path op o r.elem then .denied
    else if !elementOk o r.elem then .noElement
    else match op with
      | .write =>
        if s.reg Obj.STG_STATUS = 2 ∧ !(path = .i3c && recoverySubset o.addr) then .busy
        else if r.data.length ≠ o.size then .length
        else if !rangeOk s o (r.elem.getD 0) (writtenValue o (ofLe r.data)) then .range
        else if !stateOk s o.addr (r.elem.getD 0) (writtenValue o (ofLe r.data)) then .state
        else if o.onCommit && pathClass path != .o && 8192 ≤ s.mgmt.staged.length
            && !s.mgmt.staged.any (fun x => x.addr == o.addr && x.elem == r.elem) then .stageFull
        else .ok
      | .describe => if r.data.length ≠ 0 then .length else .ok
      | _ =>
        if r.data.length ≠ 0 then .length
        else if o.addr = Obj.TRACT_MEM_DATA ∧ s.tractExists (s.reg Obj.TRACT_MEM_ADDR / 2 ^ 28) = false then .range else .ok

end Sys2Proof.Machine
end

