-- ==== Sys2Proof/Machine/Service.lean ====
section
/-! DEFINITION. The dictionary service: taking a message, answering its records, staging, immediate writes, sending the
response (R44 to R49, R53, R58, R61 to R66, R500, R502). -/
namespace Sys2Proof.Machine

/-! ### Messages -/

/-- The header of a message is malformed (R502); `limit` is the greatest length its path takes. -/
def headerMalformed (bs : List Byte) : Bool :=
  bs.length < 16 || 1024 < bs.length || leField bs 0 1 != 1 || leField bs 1 1 != 1 || leField bs 6 2 + 16 != bs.length

/-- The header of a message in the data area of the FM pair is malformed (R502, R382). -/
def pairHeaderMalformed (bs : List Byte) : Bool :=
  bs.length < 16 || leField bs 0 1 != 1 || leField bs 1 1 != 1 || 240 < leField bs 6 2

/-- The request names another switch (R48). -/
def misdirected (s : State) (bs : List Byte) : Bool :=
  leField bs 9 1 != 0xFF && (s.switchField == 0xFF || leField bs 9 1 != s.switchField)

/-- The head of a record that cannot be located (R46). -/
def zeroMalformed : List Byte := [0, 11] ++ List.replicate 10 0

/-- The record at the head of `bs`, with the bytes it takes, none where it cannot be parsed (R45). -/
def parseRecord (bs : List Byte) : Option (Nat × Rec × Nat) :=
  let len := leField bs 8 2
  let total := 12 + len + (4 - len % 4) % 4
  let op := leField bs 0 1
  if bs.length < 12 ∨ op < 1 ∨ 4 < op ∨ bs.length < total then none
  else some (op, ⟨leField bs 2 2, leField bs 4 1, if leField bs 5 1 % 2 = 1 then some (leField bs 6 2) else none, (bs.drop 12).take len⟩, total)

/-- The head of a record that cannot be parsed: its fields as they arrived when all 12 bytes are there (R46). -/
def malformedHead (bs : List Byte) : List Byte :=
  if bs.length < 12 then zeroMalformed else bs.take 1 ++ [11] ++ (bs.drop 2).take 6 ++ [0, 0, 0, 0]

/-- The `n` records a message announces: those that can be parsed, and the heads of the others (R46). -/
def parseRecords : Nat → List Byte → List (Nat × Rec) × List (List Byte)
  | 0, _ => ([], [])
  | n + 1, bs =>
    match parseRecord bs with
    | none => ([], malformedHead bs :: List.replicate n zeroMalformed)
    | some (op, r, total) =>
      let rest := parseRecords n (bs.drop total)
      ((op, r) :: rest.1, rest.2)

/-- The data bytes the response to a record is reckoned with (R502). -/
def reckonRecord (op : Nat) (r : Rec) : Nat :=
  match lookupObj r.index r.sub with
  | .error _ => 0
  | .ok o =>
    let n := if op = 1 ∨ op = 3 then (if o.count ≠ 0 ∧ r.elem = none then 4 else o.size) else if op = 4 then 12 else 0
    n + (4 - n % 4) % 4

/-- The size of a message's response (R502). -/
def reckonResponse (recs : List (Nat × Rec)) (count : Nat) : Nat :=
  16 + 12 * count + (recs.map (fun x => reckonRecord x.1 x.2)).sum

/-- The length limit of a path (R502). -/
def pathLimit : Path → Nat
  | .fm _ true => 256
  | _ => 1024

/-! ### Sending a response -/

/-- The response of a served message (R44, R46). -/
def responseBytes (s : State) (v : Svc) : List Byte :=
  let recs := v.done ++ v.tail
  let body := recs.foldl (· ++ ·) []
  messageHeader s 2 v.tag recs.length body.length v.status ++ body

/-- Keep a KDP response with its request (R53). -/
def keepResponse (s : State) (ip port tag : Nat) (bs : List Byte) : State :=
  { s with mgmt := { s.mgmt with kept := s.mgmt.kept.map (fun k => if k.ip = ip ∧ k.port = port ∧ k.tag = tag then { k with resp := some bs } else k) } }

/-- The body of a dictionary message over MCTP (R57): message type 0x7F, the enterprise number, 0x01, the message. -/
def mctpBody (s : State) (bs : List Byte) : List Byte := [0x7F] ++ beBytes (s.reg Obj.ID_VENDOR_PEN) 4 ++ [1] ++ bs

/-- A response leaves on its path (R50, R57, R58, R382). -/
def sendOn (s : State) (path : Path) (tag : Nat) (bs : List Byte) : State :=
  match path with
  | .kdp ip port => (keepResponse s ip port tag bs).emit (.udp ip port bs)
  | .i3c => sendMctp s (mctpBody s bs)
  | .fm p false => s.emit (.mailbox p rcSuccess bs)
  | .fm _ true => { s with ten := { s.ten with fmWaiting := s.ten.fmWaiting ++ [bs] } }
  | .tenant p => s.emit (.mailbox p rcSuccess bs)

/-- Addressing objects take their committed values, and kept responses are discarded (R67). -/
def readdress (s : State) (l : List (Nat × Nat)) : State :=
  if l.isEmpty then s
  else
    let s1 := forEach l s fun t x => plainWrite t x.1 0 x.2
    { s1 with mgmt := { s1.mgmt with kept := [] } }

/-- The response of a message leaves; the addresses that a commit of it changed then stand, and a chip reset that one of
its records asked for then begins (R67, R461). -/
def respond (s : State) (v : Svc) : State :=
  let s1 := readdress (sendOn s v.path v.tag (responseBytes s v)) v.readdress
  match v.reset with
  | some cause => beginChipReset s1 cause
  | none => s1

/-- The message being served is done: its response leaves, and a message that waited to go on goes on. -/
def finishSvc (s : State) (v : Svc) : State :=
  let s1 := respond s v
  match s1.mgmt.resumed with
  | [] => { s1 with mgmt := { s1.mgmt with svc := none } }
  | r :: rs => { s1 with mgmt := { s1.mgmt with svc := some r, resumed := rs } }

/-- Go on with a message: served to its end, it is answered; else it is the message being served. -/
def continueSvc (s : State) (v : Svc) : State :=
  if v.todo.isEmpty then finishSvc s v else { s with mgmt := { s.mgmt with svc := some v } }

/-- A message whose record waited goes on once the service is free (R47, R62, R63). -/
def resumeSvc (s : State) (v : Svc) : State :=
  match s.mgmt.svc with
  | none => continueSvc s v
  | some _ =>
    if v.todo.isEmpty then respond s v
    else { s with mgmt := { s.mgmt with resumed := s.mgmt.resumed ++ [v] } }

/-! ### Answering a record -/

/-- The service runs: firmware is up and no Meadow restart pauses it (R418). -/
def State.serving (s : State) : Bool := s.firmware && !s.mgmt.paused

/-- The record may be served now: no message is being served, or it is the next record of that message (R46, R47). -/
def mayServe (s : State) (path : Path) (op : RecOp) (r : Rec) : Bool :=
  s.serving && match s.mgmt.svc with
    | none => true
    | some v => v.path == path && v.todo.head? == some (opCode op, r)

/-- The answer to a record joins the response of the message being served; a record that came alone is answered alone. -/
def answer (s : State) (path : Path) (op : RecOp) (r : Rec) (code : Result) (data : List Byte) : State :=
  let bytes := recordBytes (opCode op) (resultCode code) (r.index * 256 + r.sub) r.elem data
  match s.mgmt.svc with
  | none => s.emit (.record path bytes)
  | some v => continueSvc s { v with todo := v.todo.tail, done := v.done ++ [bytes] }


/-- `STG.STATUS` shows that something is staged (R43). -/
def noteStaged (s : State) : State := if s.reg Obj.STG_STATUS = 0 then s.setReg Obj.STG_STATUS 0 1 else s

/-- Stage a record (R61): it replaces one of the same object, and is now the one staged last. -/
def stageRecord (s : State) (path : Path) (a : Nat) (e : Option Nat) (v : Nat) : State :=
  noteStaged { s with mgmt := { s.mgmt with
    staged := s.mgmt.staged.filter (fun x => !(x.addr == a && x.elem == e)) ++ [⟨a, e, v, pathCode path, pathPort path⟩] } }

/-- Discard the staged value of an object, as a recovery write does (R43). R501 has no row for it: `STG.STATUS` keeps Staged
or Failed, with `STG.COUNT` 0 where it was the last record (DESIGN CHOICE, log entry 72). -/
def unstage (s : State) (a : Nat) (e : Option Nat) : State :=
  { s with mgmt := { s.mgmt with staged := s.mgmt.staged.filter (fun x => !(x.addr == a && x.elem == e)) } }


/-- Serve a Write record (R43, R46, R61, R63, R65, R500): it is refused by the first check it fails; a recovery write
that meets a commit waits; an on-commit object is staged; another object takes `eff` at once and is answered, and
`after` follows the answer. -/
def serveWriteThen (s : State) (path : Path) (r : Rec) (eff after : State → State) : State :=
  if !mayServe s path .write r then s
  else
    let a := r.index * 256 + r.sub
    let code := checkRecord s path .write r
    if code ≠ .ok then answer s path .write r code []
    else if path = .i3c ∧ s.reg Obj.STG_STATUS = 2 then
      { s with mgmt := { s.mgmt with recWait := s.mgmt.recWait ++ [⟨path, r, s.mgmt.svc⟩], svc := none } }
    else match findObj a with
      | none => s
      | some o =>
        if o.onCommit ∧ pathClass path ≠ .o then answer (stageRecord s path a r.elem (writtenValue o (ofLe r.data))) path .write r .ok []
        else
          let s0 := if pathClass path = .o then unstage s a r.elem else s
          let s1 := recordWriter (eff s0) (pathCode path) (pathPort path) a r.elem
          after (answer s1 path .write r .ok [])

/-- A record asks for a chip reset: the message being served keeps it until its response has left (R461, R477). -/
def keepReset (cause : Nat) (s : State) : State :=
  { s with mgmt := { s.mgmt with svc := s.mgmt.svc.map (fun v => { v with reset := some cause }) } }

/-- Serve a Write record after whose response a chip reset begins; one that came alone was answered at once. -/
def serveReset (s : State) (path : Path) (r : Rec) (cause : Nat) (eff : State → State) : State :=
  serveWriteThen s path r (fun t => keepReset cause (eff t)) (fun t => if s.mgmt.svc.isNone then beginChipReset t cause else t)

/-- Serve a Write record with nothing to follow its answer. -/
def serveWrite (s : State) (path : Path) (r : Rec) (eff : State → State) : State := serveWriteThen s path r eff id

/-- The record of a write of value `v` to element `e` (none: no TABLE) of object `a`. -/
def writeRec (a : Nat) (e : Option Nat) (v : Nat) : Rec := ⟨a / 256, a % 256, e, leBytes v (objSize a)⟩

/-- The record of a read. -/
def readRec (a : Nat) (e : Option Nat) : Rec := ⟨a / 256, a % 256, e, []⟩

/-- Serve a Read or Read staged record: `data` is the value of the object, after the checks and the element count of
R35 and the zero data of R49; `eff` is what the read itself does. -/
def serveRead (s : State) (path : Path) (op : RecOp) (r : Rec) (data : State → Nat → Nat → List Byte) (eff : State → State) : State :=
  if !mayServe s path op r then s
  else
    let code := checkRecord s path op r
    if code ≠ .ok then answer s path op r code []
    else match lookupObj r.index r.sub with
      | .error c => answer s path op r c []
      | .ok o =>
        if o.count ≠ 0 ∧ r.elem = none then answer s path op r .ok (leBytes o.count 4)
        else if !canRead (pathClass path) o then answer s path op r .ok (List.replicate o.size 0)
        else
          let d := data s o.addr (r.elem.getD 0)
          answer (eff s) path op r .ok d

end Sys2Proof.Machine
end

