-- ==== Sys2Proof/Machine/SlotOps.lean ====
section
/-! DEFINITION. Shared operations of the slot controllers (18_slot_power.md): the effective enable, the state changes of
R448, ramps, turn-offs, trips and power good. -/
namespace Sys2Proof.Machine

/-- The state of a slot, in the code of `SLOT.STATUS` STATE. -/
def State.slotState (s : State) (n : Nat) : Nat := s.regBits Obj.SLOT_STATUS n 28 4

/-- Set the state of a slot. -/
def setSlotState (s : State) (n st : Nat) : State := s.setRegBits Obj.SLOT_STATUS n 28 4 st

/-- PWRGD of a slot. -/
def State.slotPwrgd (s : State) (n : Nat) : Bool := s.regBit Obj.SLOT_STATUS n 27

/-- The fault timer of a slot runs. -/
def State.slotTimer (s : State) (n : Nat) : Bool := s.regBit Obj.SLOT_STATUS n 26

/-- The card of a slot is Seated. -/
def State.slotSeated (s : State) (n : Nat) : Bool := s.regBit Obj.SLOT_STATUS n 25

/-- GATE of a slot is driven. -/
def State.gateDriven (s : State) (n : Nat) : Bool := s.slot.driven.contains n

/-- The effective enable of a slot (R446). -/
def State.slotEnable (s : State) (n : Nat) : Bool :=
  s.regBit Obj.SLOT_CTRL n 0 && (!s.regBit Obj.SLOT_CTRL n 1 || s.regBit Obj.SLOT_STATUS n 23)

/-- The downstream port a slot serves (R447). -/
def State.slotPort (s : State) (n : Nat) : Option Nat :=
  if s.reg Obj.SLOT_PORT n < 64 then some (s.reg Obj.SLOT_PORT n) else none

/-- The slot that serves a port. -/
def State.portSlot (s : State) (p : Nat) : Option Nat := (List.range 32).find? (fun n => s.reg Obj.SLOT_PORT n == p)

/-- PERST_L of a downstream port is asserted, for at least 1 ms (R97). -/
def assertPerst (s : State) (p : Nat) : State :=
  let s1 := { s with edge := { s.edge with perstReleased := s.edge.perstReleased.filter (· != p) } }
  (s1.disarm ⟨.perst, p, 0⟩).arm ⟨.perstMin, p, 0⟩ 1000000

/-- GATE of a slot is pulled low. -/
def gateOff (s : State) (n : Nat) : State :=
  { s.disarm ⟨.gateOff, n, 0⟩ with slot := { s.slot with driven := s.slot.driven.filter (· != n), ramp := assocDrop s.slot.ramp n } }

/-- PWRGD is deasserted, the fault timer stops, and PERST_L of the assigned port is asserted: the first sample of any
turn-off (R454, R455). -/
def powerDown (s : State) (n : Nat) : State :=
  let s1 := ((s.putRegBit Obj.SLOT_STATUS n 27 false).putRegBit Obj.SLOT_STATUS n 26 false).disarm ⟨.slotFault, n, 0⟩
  s1.withSome (s1.slotPort n) (assertPerst s1)

/-- A turn-off for a trip or a removal, or in a chip reset: GATE goes low at once (R455, R458). -/
def turnOff (s : State) (n : Nat) : State := gateOff (powerDown s n) n

/-- PWRGD is asserted (R454): it is counted, and the assigned port's PERST_L is due to be deasserted 100 ms later (R97). -/
def assertPwrgd (s : State) (n : Nat) : State :=
  let s1 := (s.putRegBit Obj.SLOT_STATUS n 27 true).count1 Obj.SLOT_POWER_ONS n
  s1.withSome (s1.slotPort n) fun p => if s1.isDownstream p then s1.arm ⟨.perst, p, 0⟩ 100000000 else s1

/-- The ramp begins (R448, R450, R457). -/
def beginRamp (s : State) (n : Nat) : State :=
  let s1 := (setSlotState (gateOff s n) n 4).putRegBit Obj.SLOT_STATUS n 24 false
  { s1 with slot := { s1.slot with driven := n :: s1.slot.driven, ramp := assocPut s1.slot.ramp n (s1.now, s1.reg Obj.SLOT_RAMP n) } }

/-- A slot that is Seated with its cooldown over and its enable 1 ramps; while SLOT_VIN is low it waits (R448, R449). -/
def tryRamp (s : State) (n : Nat) : State :=
  if (s.slotState n = 2 ∨ s.slotState n = 3) ∧ s.slotSeated n = true ∧ s.armed ⟨.cooldown, n, 0⟩ = false ∧ s.slotEnable n = true then
    if s.regBit Obj.SLOT_STATUS n 19 then setSlotState s n 2 else beginRamp s n
  else s

/-- The effective enable becomes 1: a Disabled slot goes where its timers stand (R448). -/
def slotOn (s : State) (n : Nat) : State :=
  if s.slotState n ≠ 0 then s
  else if s.armed ⟨.cooldown, n, 0⟩ then setSlotState s n 3
  else if s.slotSeated n then tryRamp (setSlotState s n 2) n
  else if s.armed ⟨.debounce, n, 0⟩ then setSlotState s n 2
  else setSlotState s n 1

/-- The effective enable becomes 0: a commanded turn-off where the gate is driven, and Disabled (R448, R455). -/
def slotOff (s : State) (n : Nat) : State :=
  if s.slotState n = 4 ∨ s.slotState n = 5 then
    (setSlotState (powerDown s n) n 0).arm ⟨.gateOff, n, 0⟩ 100000
  else setSlotState s n 0

/-- The effective enable of a slot may have changed from `old`. -/
def slotFollow (s : State) (n : Nat) (old : Bool) : State :=
  if s.slotEnable n = old then s else if old then slotOff s n else slotOn s n

/-- HOST_ON of a slot becomes `on` (R446). -/
def setHostOn (s : State) (n : Nat) (on : Bool) : State := slotFollow (s.putRegBit Obj.SLOT_STATUS n 23 on) n (s.slotEnable n)

/-- At each bind, and while the port is bound to no vPPB, HOST_ON of the port's slot is 1 (R446). -/
def hostOnAtBind (s : State) (p : Nat) : State := s.withSome (s.portSlot p) fun n => setHostOn s n true

/-- A trip (R448, R453, R455): the slot turns off at once and is Latched; the trip is counted and raised. A slot already
Disabled stays so. -/
def slotTrip (s : State) (n kind : Nat) : State :=
  let s1 := (turnOff s n).setRegBits Obj.SLOT_STATUS n 20 2 kind
  let s2 := if s1.slotState n = 4 ∨ s1.slotState n = 5 then setSlotState s1 n 6 else s1
  let s3 := s2.count1 Obj.SLOT_TRIPS n
  if s3.phase = .running then raise s3 14 n else s3

/-- The current limit of a slot, in the 10 µV units of `SLOT.SENSE` (R451). -/
def State.slotLimit (s : State) (n : Nat) : Nat := s.reg Obj.SLOT_ILIMIT n * 50

end Sys2Proof.Machine
end

