-- ==== Sys2Proof/Machine/TenOps.lean ====
section
/-! DEFINITION. Shared operations of tenancies and mailboxes (14_tenancies_and_mailboxes.md): reset triggers, interrupt
vectors, the mailbox pairs, the summary, the dirty log. -/
namespace Sys2Proof.Machine

/-- The number that names the FM pair beside the tenancies (R376, R382). -/
abbrev fmPair : Nat := 4096

/-- A tenancy's current generation (R369). -/
def State.tenGen (s : State) (t : Nat) : Nat := s.regBits Obj.TEN_STATE t 0 16

/-- Set a tenancy's state. -/
def setTenState (s : State) (t st : Nat) : State := s.setRegBits Obj.TEN_STATE t 30 2 st

/-- A tenancy's generation rises by one, modulo 65,536. -/
def bumpGen (s : State) (t : Nat) : State :=
  { s.setRegBits Obj.TEN_STATE t 0 16 (s.tenGen t + 1) with ten := { s.ten with lastInc := assocPut s.ten.lastInc t s.now } }

/-- How long a reset must still wait for the 100 µs since the last increment (R368 step 1). -/
def resetWait (s : State) (t : Nat) : Nat :=
  match assocGet s.ten.lastInc t with
  | some last => last + 100000 - s.now
  | none => 0

/-- A removal is noted for the reset in progress: the tenancy ends Free (R366). -/
def noteRemoval (s : State) (t : Nat) : State :=
  { s.setReg Obj.TEN_RESET_CAUSE t 4 with ten := { s.ten with removal := t :: s.ten.removal.filter (· != t) } }

/-- A reset trigger of a tenancy with its cause (R366, R367): 1 PERST_L or hot reset, 2 function-level reset, 3 the
manager, 4 removal. -/
def triggerReset (s : State) (t cause : Nat) : State :=
  if s.tenState t = 1 then
    let s1 := ((setTenState s t 2).setReg Obj.TEN_RESET_CAUSE t cause).count1 Obj.TEN_RESETS t
    let s2 := s1.arm ⟨.tenReset, t, 0⟩ (resetWait s1 t)
    if cause = 4 then noteRemoval s2 t else s2
  else if s.tenState t = 2 ∧ cause = 4 then noteRemoval s t
  else s

/-! ### The mailbox pairs -/

/-- A mailbox pair with everything at its reset value (R377). -/
def freshPair : Pair := ⟨0, 0, 0, 0xF⟩

/-- What a pair holds. -/
def State.pair (s : State) (t : Nat) : Pair := (assocGet s.ten.pairs t).getD freshPair

/-- Change what a pair holds. -/
def State.setPair (s : State) (t : Nat) (p : Pair) : State := { s with ten := { s.ten with pairs := assocPut s.ten.pairs t p } }

/-- The word that shows a pair's mailboxes: `MBX.STATE`, or `MBX.FM_STATE`. -/
def State.boxWord (s : State) (t : Nat) : Nat := if t = fmPair then s.reg Obj.MBX_FM_STATE else s.reg Obj.MBX_STATE t

/-- Set the word that shows a pair's mailboxes. -/
def setBoxWord (s : State) (t v : Nat) : State :=
  if t = fmPair then s.setReg Obj.MBX_FM_STATE 0 v else s.setReg Obj.MBX_STATE t v

/-- The inbound mailbox of a pair is Full. -/
def State.inFull (s : State) (t : Nat) : Bool := bitAt (s.boxWord t) 63

/-- The outbound mailbox of a pair is Full. -/
def State.outFull (s : State) (t : Nat) : Bool := bitAt (s.boxWord t) 62

/-- The pending doorbells of a pair's outbound message. -/
def State.outPending (s : State) (t : Nat) : Nat := bits (s.boxWord t) 0 32

/-- The Steppe address of a pair's inbound data; the outbound data lies 256 bytes above (R376). -/
def inboxAddr (t : Nat) : Nat := 0x2E80000000 + 1024 * t

/-- The Steppe address of a pair's outbound data (R376). -/
def outboxAddr (t : Nat) : Nat := inboxAddr t + 256

/-- A mailbox's data becomes zero. -/
def zeroBox (s : State) (a : Nat) : State := s.sysWrite a (List.replicate 256 0)

/-! ### Interrupt vectors (R378) -/

/-- The ports bound to a tenancy; for the FM pair, the fabric-manager ports. -/
def State.boundPorts (s : State) (t : Nat) : List Nat :=
  (List.range 64).filter (fun p => if t = fmPair then s.isHost p && s.regBit Obj.MGP_FM_PORTS 0 p else s.portTenancy p == some t)

/-- The interrupt port of a tenancy whose link is up (R378), none while vectors are held. -/
def State.irqPort (s : State) (t : Nat) : Option Nat :=
  let named := if t = fmPair then 127 else s.regBits Obj.TEN_CTRL t 0 7
  if named = 127 then (s.boundPorts t).find? (fun p => s.edgeUp p)
  else if s.edgeUp named then some named else none

/-- Hold a vector of a tenancy until a link comes up, once. -/
def holdVector (s : State) (t v : Nat) : State :=
  { s with ten := { s.ten with held := if s.ten.held.contains (t, v) then s.ten.held else s.ten.held ++ [(t, v)] } }

/-- Send an MSI-X vector of a tenancy, or hold it (R378): a posted write of the function block (log entry 75). -/
def sendVector (s : State) (t v : Nat) : State :=
  match s.irqPort t with
  | some p => sendHost s functionPort p .req .posted (if t = fmPair then none else some t) 4 (.msix p v)
  | none => holdVector s t v

/-- A bit of IRQ_STATUS is set by its event; when it becomes set while enabled, its vector is sent (R378). -/
def setIrq (s : State) (t b : Nat) : State :=
  let q := s.pair t
  let s1 := s.setPair t { q with irqStatus := putBit q.irqStatus b true }
  if !bitAt q.irqStatus b && bitAt q.irqEnable b then sendVector s1 t b else s1

/-- A Glen channel with everything at its reset value (R386, R400). -/
def freshChan : GlenCh := ⟨0, 0xF, 0, false, none, 0, 0, 0, none, 0, [], [], []⟩

/-- What a Glen channel holds beside its registers. -/
def State.chan (s : State) (t : Nat) : GlenCh := (assocGet s.glen.chans t).getD freshChan

/-- A held vector is still due: its bit of IRQ_STATUS, or of CH_IRQ_STATUS for vectors 4..7, is set and enabled (R378, R386). -/
def vectorDue (s : State) (t v : Nat) : Bool :=
  if v < 4 then bitAt (s.pair t).irqStatus v && bitAt (s.pair t).irqEnable v
  else bitAt (s.chan t).irqStatus (v - 4) && bitAt (s.chan t).irqEnable (v - 4)

/-- The held vectors of a tenancy whose bit or enable has been cleared are dropped (R378). -/
def dropHeld (s : State) (t : Nat) : State :=
  { s with ten := { s.ten with held := s.ten.held.filter (fun h => h.1 != t || vectorDue s h.1 h.2) } }

/-- A link has come up: held vectors that now have an interrupt port are sent (R378). -/
def releaseHeld (s : State) : State :=
  let ready := s.ten.held.filter (fun h => (s.irqPort h.1).isSome)
  let s1 := { s with ten := { s.ten with held := s.ten.held.filter (fun h => (s.irqPort h.1).isNone) } }
  forEach ready s1 fun t h => if vectorDue t h.1 h.2 then sendVector t h.1 h.2 else t

/-! ### The summary (R380) -/

/-- An element of `MBX.SUMMARY` has changed: an event now, or owed when the 10 µs spacing runs (R380). -/
def summaryEvent (s : State) (w : Nat) : State :=
  if s.armed ⟨.summary, w, 0⟩ then
    { s with ten := { s.ten with summaryOwed := w :: s.ten.summaryOwed.filter (· != w) } }
  else notify (s.arm ⟨.summary, w, 0⟩ 10000) Obj.MBX_SUMMARY (some w)

/-- A bit of `MBX.SUMMARY` becomes set (R380, R382). -/
def summarySet (s : State) (w b : Nat) : State :=
  if s.regBit Obj.MBX_SUMMARY w b then s
  else
    let s1 := s.putRegBit Obj.MBX_SUMMARY w b true
    summaryEvent { s1 with ten := { s1.ten with fmNotice := true } } w

/-- The outbound summary bit of a tenancy clears itself (R380). -/
def summaryClear (s : State) (t : Nat) : State := s.putRegBit Obj.MBX_SUMMARY (t / 64) (t % 64) false

/-! ### The dirty log (R371 to R373) -/

/-- A range of a tenancy logs page `page` of kind `kind` (R371): `host` says that a host's CXL.mem write makes the record. -/
def rangeLogs (s : State) (t r kind page : Nat) (host : Bool) : Bool :=
  let w := s.reg Obj.TEN_DLOG_RANGE (8 * t + r)
  let first := bits w 0 52
  bitAt w 63 && bits w 62 1 == kind && (!host || bitAt w 61)
    && decide (first ≤ page) && decide (page ≤ first + s.regBits Obj.TEN_DLOG_MAP (8 * t + r) 32 32)

/-- A compaction item of the tenancy waits in a deque, put there where none does (R323, R373): in that of the engine that
serves the slice of the tenancy's number (log entry 30). -/
def wantFold (s : State) (t : Nat) : State :=
  if s.col.deques.any (fun d => d.2.any (fun i => i.kind == 4 && i.arg == t)) then s else pushItem s (s.engineOf t) ⟨4, none, t⟩

/-- One record goes into the buffer, unless it is the writer's previous one; a full buffer drops it (R373). -/
def dirtyRecord (s : State) (writer : Nat) (d : Dirty) : State :=
  if assocGet s.ten.lastDirty writer = some d then s
  else if s.ten.dirty.length < 65536 then
    wantFold { s with ten := { s.ten with dirty := s.ten.dirty ++ [d], lastDirty := assocPut s.ten.lastDirty writer d } } d.tenancy
  else (s.putRegBit Obj.TEN_DLOG_STATE d.tenancy 31 true).count1 Obj.TEN_DLOG_DROPPED d.tenancy

/-- A write to a page is logged in every range of the tenancy that covers it (R371). -/
def logDirty (s : State) (writer t kind page : Nat) (host : Bool) : State :=
  forEach ((List.range 8).filter (fun r => rangeLogs s t r kind page host)) s fun u r => dirtyRecord u writer ⟨t, r, page⟩

/-- The Steppe address and bit of a page in a range's bitmap (R372). -/
def bitmapBit (s : State) (d : Dirty) : Nat × Nat :=
  let i := d.page - s.regBits Obj.TEN_DLOG_RANGE (8 * d.tenancy + d.range) 0 52
  (0x2EC0000000 + 64 * s.regBits Obj.TEN_DLOG_MAP (8 * d.tenancy + d.range) 0 27 + i / 8, i % 8)

/-- A record may be folded: its range is valid and not being cleared (R372). -/
def foldable (s : State) (d : Dirty) : Bool := !s.regBit Obj.TEN_DLOG_STATE d.tenancy (8 + d.range)

/-- Fold one record into its bitmap (R373); a record of a range that has become invalid is dropped. -/
def foldRecord (s : State) (d : Dirty) : State :=
  if s.regBit Obj.TEN_DLOG_RANGE (8 * d.tenancy + d.range) 63 then
    let p := bitmapBit s d
    let r := readLine s (p.1 / 64) 0
    let old := (r.2.data.getD (p.1 % 64) 0).toNat
    if s.steppeReady then putLine r.1 (p.1 / 64) ⟨splice r.2.data (p.1 % 64) [BitVec.ofNat 8 (putBit old p.2 true)], r.2.poison, false, 0⟩ else s
  else s

/-- Fold the records that `pick` names and that may be folded. -/
def foldDirty (s : State) (pick : Dirty → Bool) : State :=
  let now := s.ten.dirty.filter (fun d => pick d && foldable s d)
  let later := s.ten.dirty.filter (fun d => !(pick d && foldable s d))
  forEach now { s with ten := { s.ten with dirty := later } } foldRecord

end Sys2Proof.Machine
end

