-- ==== Sys2Proof/Machine/Steppe.lean ====
section
/-! DEFINITION. The commands of Steppe memory (08_steppe_memory.md). -/
namespace Sys2Proof.Machine

/-- A meaning at a bare Steppe address or line: past the data space no location exists, and the run ends in a fault. -/
def atSteppe (dt a : Nat) (s : State) (f : State → State) : Res :=
  if a < steppeEnd then run dt s f else .fault .noSuchAddress

/-- The symbol errors that an access finds in a line now stand in it. -/
def meetErrors (s : State) (n : Nat) (e : DramErrors) : State :=
  if (wrongSymbols e).isEmpty && e.place.isNone then clearFaults s n else { s with stp := { s.stp with faults := assocPut s.stp.faults n e } }

/-- `STEPPE_READ` (R197, R204). `errors` are the symbol errors the read finds in the stored line. -/
def execSteppeRead (dt addr expected : Nat) (errors : DramErrors) (s : State) : Res := atSteppe dt addr s fun s =>
  if !s.steppeReady then s
  else
    let r := readLine (meetErrors s (addr / 64) errors) (addr / 64) expected
    r.1.emit (.steppeData (addr / 64 * 64) r.2.data r.2.poison)

/-- `STEPPE_WRITE` (R197, R205, R207): a write that finds room in its channel's queue is accepted, and every later read of the
line returns it; with none, the requester stalls and keeps the write. -/
def execSteppeWrite (dt addr : Nat) (line : StoredLine) (s : State) : Res := atSteppe dt addr s fun s =>
  if !s.steppeReady || !s.writeRoom (addr / 64) then s else putLine s (addr / 64) { line with tag := line.tag % 4096 }

/-! ### Initialisation (R208, R215) -/

/-- Up to 256 saved remaps become hard repairs, while `STP.PPR_EN` is set (R215). -/
def hardRepairs (s : State) : State :=
  if s.reg Obj.STP_PPR_EN = 1 then
    let now := s.stp.saved.take 256
    let s1 := { s with stp := { s.stp with repaired := now ++ s.stp.repaired, saved := s.stp.saved.drop 256 } }
    forEach now s1 fun t m => logSpare t 1 m.channel m.bank m.row
  else s

/-- Every user line is written as erased (R208). -/
def eraseAll (s : State) : State :=
  { s with
    mem := s.mem.filter (fun c => decide (frontBase ≤ c.1))
    lineMeta := s.lineMeta.filter (fun c => decide (frontBase / 64 ≤ c.1))
    stp := { s.stp with faults := s.stp.faults.filter (fun f => decide (frontBase / 64 ≤ f.1)) } }

/-- The free spare rows are tested: those that fail are Bad (R208, R211). -/
def testSpares (s : State) (bad : List SpareRow) : State :=
  forEach (bad.filter (fun r => r.channel < 128 && r.bank < 16 && 61440 ≤ r.row && r.row < 65536 && !(usedSpares s r.channel r.bank).contains r.row)) s
    fun t r => markBad t r.channel r.bank r.row

/-- The reserve counts of every bank that uses a spare row. -/
def countAllSpares (s : State) : State :=
  forEach (((s.stp.remaps ++ s.stp.repaired).map (fun m => (m.channel, m.bank))).eraseDups) s fun t b => countSpares t b.1 b.2

/-- `STEPPE_INIT` (R208, R215): in Start-up, the saved remaps and hard repairs, the erasing of every user line, the test
of the free spares. `failedStacks` fail their power-on calibration. -/
def execSteppeInit (dt : Nat) (badSpares : List SpareRow) (failedStacks : List Nat) (s : State) : Res := run dt s fun s =>
  if s.devState = 0 ∧ s.firmware = true ∧ s.reg Obj.STP_STATE = 0 then
    let s1 := hardRepairs s
    let s2 := countAllSpares { s1 with stp := { s1.stp with remaps := s1.stp.saved } }
    let s3 := testSpares (eraseAll (s2.setReg Obj.STP_STATE 0 1)) badSpares
    if (failedStacks.filter (· < 4)).isEmpty then s3 else raise s3 7 10
  else s

/-! ### Scrub (R209 to R211, R219) -/

/-- The row being spared in a channel holds beats of the line (R214). -/
def sparingHolds (s : State) (n : Nat) : Bool :=
  match assocGet s.stp.sparing (lineChannel n) with
  | some j => (List.range 5).any (fun k => beatBank n k == j.bank && physicalRow s (lineChannel n) j.bank (beatRow n k) == j.row)
  | none => false

/-- Lines channel `c` has done in this pass. -/
def State.scrubDone (s : State) (c : Nat) : Nat := (assocGet s.stp.done c).getD 0

/-- The channel furthest behind among the first `n + 1`. -/
def slowest (s : State) : Nat → Nat
  | 0 => 0
  | n + 1 => let b := slowest s n; if s.scrubDone (n + 1) < s.scrubDone b then n + 1 else b

/-- `STP.SCRUB_STATUS` shows the pass count and the slowest channel's progress (R211). -/
def showScrub (s : State) (passes : Nat) : State :=
  let c := slowest s 127
  s.setReg Obj.STP_SCRUB_STATUS 0 (at_ 32 passes + at_ 18 c + s.scrubDone c / 128)

/-- What scrub does with a line (R210): by the order of R204 a line of a Draining slot is erased, poisoned or not. -/
def scrubEffect (s : State) (n : Nat) : State :=
  let r := decodeEffect s n true
  match r.2 with
  | some v => if r.1.keyState (bits v.word 18 12) = 2 then eraseLine r.1 n else r.1
  | none => r.1

/-- A pool line that scrub has just poisoned is followed up (R210, R323). -/
def followUp (before after : State) (n : Nat) : State :=
  let k := after.ownSwitch * 2 ^ 41 + n
  if n / 2 ^ 22 < 640 ∧ before.linePoison n = false ∧ after.linePoison n = true then pushSlice 3 k after (sliceOf k) else after

/-- `SCRUB_LINE` (R209, R210, R214): the next line of its channel in a running pass. -/
def execScrubLine (dt line : Nat) (errors : DramErrors) (s : State) : Res := atSteppe dt (64 * line) s fun s =>
  let c := lineChannel line
  if s.steppeReady && s.stp.scrubbing && s.scrubDone c == lineIndex line && !sparingHolds s line then
    let s1 := followUp s (scrubEffect (meetErrors s line errors) line) line
    let s2 := { s1 with stp := { s1.stp with done := assocPut s1.stp.done c (lineIndex line + 1) } }
    showScrub s2 (s2.regBits Obj.STP_SCRUB_STATUS 0 32 32)
  else s

/-- The lines of a channel (R194, R196). -/
abbrev channelLines : Nat := 25165824

/-- A channel has done every line of the pass. -/
def State.scrubbed (s : State) (c : Nat) : Bool := decide (channelLines ≤ s.scrubDone c)

/-- `SCRUB_PASS_START` (R209, R211, R212): a pass starts in every channel with the period that then stands, the free spares are
tested, the tracker's counts are halved. -/
def execScrubPassStart (dt : Nat) (badSpares : List SpareRow) (s : State) : Res := run dt s fun s =>
  if s.steppeReady && !s.stp.scrubbing then
    let tracker := s.stp.tracker.map (fun e => (e.1, e.2.map (fun (t : Track) => { t with count := t.count / 2 })))
    let s1 := { s with stp := { s.stp with scrubbing := true, passes := s.stp.passes + 1, done := [], tracker := tracker,
                                            passStart := s.now, period := s.reg Obj.STP_SCRUB_PERIOD } }
    testSpares (showScrub s1 (s1.regBits Obj.STP_SCRUB_STATUS 0 32 32)) badSpares
  else s

/-- `SCRUB_PASS_END` (R209, R219): a pass completes when every channel has done its lines, and slots destroyed before it started
return to Free: R210 has erased every line that carried their tags. -/
def execScrubPassEnd (dt : Nat) (s : State) : Res := run dt s fun s =>
  if s.steppeReady && s.stp.scrubbing && (List.range 128).all s.scrubbed then
    let elapsed := (s.stp.draining.filter (fun d => d.2 < s.stp.passes)).map (·.1)
    let s1 := { s with stp := { s.stp with scrubbing := false, done := [] } }
    let s2 := forEach elapsed s1 freeSlotAgain
    showScrub s2 ((s2.regBits Obj.STP_SCRUB_STATUS 0 32 32 + 1) % 2 ^ 32)
  else s

/-- The running pass has lasted its period plus 1 % (R209): an hour is 3.6 * 10^12 ns. -/
def State.scrubOverrun (s : State) : Bool := decide (s.stp.period * 3636000000000 < s.now - s.stp.passStart)

/-- `SCRUB_LATE` (R211): a channel has overrun its period by more than 1 %. -/
def execScrubLate (dt channel : Nat) (s : State) : Res := run dt s fun s =>
  if s.steppeReady && s.stp.scrubbing && decide (channel < 128) && !s.scrubbed channel && s.scrubOverrun then raise s 7 8 else s

/-! ### Sparing (R212 to R216) -/

/-- A row is spared into the lowest free spare of its bank, or finds none (R213, R214). -/
def beginSpare (s : State) (c bank row bads : Nat) : State :=
  match freeSpare s c bank with
  | some r => { s with stp := { s.stp with sparing := assocPut s.stp.sparing c ⟨bank, row, r, bads⟩ } }
  | none => raise { s with stp := { s.stp with sparing := assocDrop s.stp.sparing c } } 7 6

/-- `SPARE_ROW_START` (R213, R214): the channel takes the next queued row. -/
def execSpareRowStart (dt channel : Nat) (s : State) : Res := run dt s fun s =>
  if !s.steppeReady || (assocGet s.stp.sparing channel).isSome then s
  else match (assocGet s.stp.queue channel).getD [] with
    | [] => s
    | (bank, row) :: rest =>
      let s1 := { s with stp := { s.stp with queue := assocPut s.stp.queue channel rest } }
      if (servedRow s1 channel bank row).isSome then beginSpare s1 channel bank row 0 else s1

/-- Step 3 of a sparing: the remap table switches, the row is counted, logged and raised (R213). -/
def switchRow (s : State) (c : Nat) (j : SpareJob) : State :=
  let user := (servedRow s c j.bank j.row).getD j.row
  let m : Remap := ⟨c, j.bank, user, j.spare⟩
  let other := fun (x : Remap) => !(x.channel == c && x.bank == j.bank && x.row == user)
  let s1 := { s with stp := { s.stp with
    sparing := assocDrop s.stp.sparing c
    remaps := m :: s.stp.remaps.filter other, unsaved := s.stp.unsaved.filter other ++ [m]
    bad := if j.row < 61440 then s.stp.bad else ⟨c, j.bank, j.row⟩ :: s.stp.bad } }
  raise (logSpare (countSpares s1 c j.bank) 0 c j.bank j.row) 7 4

/-- The line at index `j` of a channel: the placement of R196 turned round. -/
def channelLine (c j : Nat) : Nat := 4 * (j / 4 * 128 + Nat.xor (Nat.xor c (j / 4 % 128)) (j / 4 / 128 % 128)) + j % 4

/-- The row set that a user row of a bank belongs to (R196). -/
def rowSetOf (bank row : Nat) : Nat := row / 5 * 16 + (bank + 16 - row % 5) % 16

/-- The 128 lines with a beat in a user row. -/
def rowLines (c bank row : Nat) : List Nat := (List.range 128).map (fun col => channelLine c (rowSetOf bank row * 128 + col))

/-- Of the errors in a line, those outside beat `k`: the beat has been copied corrected. -/
def beatCopied (s : State) (n k : Nat) : State :=
  match assocGet s.stp.faults n with
  | some e =>
    let left := { e with flips := e.flips.filter (fun f => f.1 / 16 != k) }
    if (wrongSymbols left).isEmpty && left.place.isNone then clearFaults s n else { s with stp := { s.stp with faults := assocPut s.stp.faults n left } }
  | none => s

/-- One line of a row being copied is read and decoded (R213): counted, tracked, corrected as by any read; the corrected beat goes
into the spare row, an uncorrectable line into both rows poisoned. -/
def copyLine (beat : Nat) (s : State) (n : Nat) : State := beatCopied (decodeEffect s n false).1 n beat

/-- Step 2 of a sparing: the row's lines are copied, with the errors the copy meets. -/
def copyRow (s : State) (c : Nat) (j : SpareJob) (errors : List (Nat × DramErrors)) : State :=
  let user := (servedRow s c j.bank j.row).getD j.row
  let lines := rowLines c j.bank user
  let met := errors.filter (fun e => lines.contains e.1)
  forEach lines (forEach met s (fun t e => meetErrors t e.1 e.2)) (copyLine (user % 5))

/-- The new spare row fails its read-back: it is Bad, and the copy starts again on the next, at most three times (R214). -/
def spareFails (s : State) (c : Nat) (j : SpareJob) : State :=
  let s1 := markBad s c j.bank j.spare
  if j.bads + 1 < 3 then beginSpare s1 c j.bank j.row (j.bads + 1)
  else raise (logSpare { s1 with stp := { s1.stp with sparing := assocDrop s1.stp.sparing c } } 2 c j.bank j.row) 7 5

/-- `SPARE_ROW_DONE` (R213, R214): the copy ends; `readBack` says whether the spare row read back well, `errors` what the copy
met in the lines of the row set. -/
def execSpareRowDone (dt channel : Nat) (readBack : Bool) (errors : List (Nat × DramErrors)) (s : State) : Res := run dt s fun s =>
  if !s.steppeReady then s
  else s.withSome (assocGet s.stp.sparing channel) fun j =>
    let s1 := copyRow s channel j errors
    if readBack then switchRow s1 channel j else spareFails s1 channel j

/-- `STEPPE_SPARE_CMD` (R212): a manager queues a row. -/
def execSteppeSpareCmd (dt : Nat) (path : Path) (value : Nat) (s : State) : Res := run dt s fun s =>
  serveWrite s path (writeRec Obj.STP_SPARE_CMD none value) fun t => queueRow t (bits value 20 7) (bits value 16 4) (bits value 0 16)

/-! ### Keys, temperature, reports, placement -/

/-- The Live slots. -/
def State.liveSlots (s : State) : List Nat := s.stp.keys.map (·.1)

/-- `SANITIZE` (R219, R220): every Live slot is destroyed at once. -/
def execSanitize (dt : Nat) (path : Path) (s : State) : Res := run dt s fun s =>
  serveWrite s path (writeRec Obj.STP_SANITIZE none 1) fun t => forEach t.liveSlots t fun u k => destroySlot u k (slotFronted u k)

/-- The refresh band of a stack follows its temperature, with 3 °C of hysteresis (R221); a stack whose retention
margin is low stays at doubled refresh (R495). -/
def refreshBand (s : State) (k : Nat) (c : Int) : State :=
  let set (l : List Nat) (on : Bool) : List Nat := if on then k :: l.filter (· != k) else l.filter (· != k)
  let doubled := decide (85 < c) || (s.stp.doubled.contains k && decide (82 < c)) || s.wear.low.contains (2048 + k)
  let hot := decide (100 < c) || (s.stp.hot.contains k && decide (97 < c))
  let s1 := { s with stp := { s.stp with doubled := set s.stp.doubled doubled, hot := set s.stp.hot hot } }
  if hot && !s.stp.hot.contains k then raise s1 7 9 else s1

/-- `STACK_TEMP` (R221): the reading of one stack. -/
def execStackTemp (dt stack : Nat) (celsius : Int) (s : State) : Res := run dt s fun s =>
  if stack < 4 then refreshBand (s.setReg Obj.STP_TEMP stack (unsigned celsius 16)) stack celsius else s

/-- The corrections of one channel: those of its sixteen banks together (R202). -/
def channelSum (counts : List Nat) (c : Nat) : Nat := ((counts.drop (16 * c)).take 16).sum

/-- `INNER_CORRECTION_REPORT` (R202): a stack's inner corrections of the last second, per bank of its 32 channels, are summed per
channel. -/
def execInnerCorrectionReport (dt stack : Nat) (counts : List Nat) (s : State) : Res := run dt s fun s =>
  if stack < 4 then forEach (List.range 32) s fun t c => t.count Obj.STP_INNER_CORRECTED (32 * stack + c) (channelSum counts c) else s

/-- `XLATE` (R196): the placement of an address. -/
def execXlate (dt : Nat) (path : Path) (value : Nat) (s : State) : Res := run dt s fun s =>
  serveWrite s path (writeRec Obj.STP_XLATE_ADDR none value) fun t =>
    (t.setReg Obj.STP_XLATE_ADDR 0 value).setReg Obj.STP_XLATE_RESULT 0 (xlateWord value)

end Sys2Proof.Machine
end

