-- ==== Sys2Proof/Machine/GuardOps.lean ====
section
/-! DEFINITION. Shared operations of tracts and the region guard (09_pool_and_guard.md): allocations, fronted memory,
lines of a home, the guard's checks, notices. -/
namespace Sys2Proof.Machine

/-! ### Tracts and allocations (R226 to R234) -/

/-- VALID of an allocation. -/
def State.allocValid (s : State) (i : Nat) : Bool := s.regBit Obj.TRACT_ALLOC_EXTENT i 63
/-- COUNT. -/
def State.allocCount (s : State) (i : Nat) : Nat := s.regBits Obj.TRACT_ALLOC_EXTENT i 40 19
/-- FIRST. -/
def State.allocFirst (s : State) (i : Nat) : Nat := s.regBits Obj.TRACT_ALLOC_EXTENT i 0 20
/-- ROLE: 0 Home, 1 Mirror copy, 2 Standby. -/
def State.allocRole (s : State) (i : Nat) : Nat := s.regBits Obj.TRACT_ALLOC_ATTR i 62 2
/-- MIRRORED. -/
def State.allocMirrored (s : State) (i : Nat) : Bool := s.regBit Obj.TRACT_ALLOC_ATTR i 61
/-- TRACKED. -/
def State.allocTracked (s : State) (i : Nat) : Bool := s.regBit Obj.TRACT_ALLOC_ATTR i 60
/-- KEYED. -/
def State.allocKeyed (s : State) (i : Nat) : Bool := s.regBit Obj.TRACT_ALLOC_ATTR i 59
/-- SHARED. -/
def State.allocShared (s : State) (i : Nat) : Bool := s.regBit Obj.TRACT_ALLOC_ATTR i 58
/-- OWNER. -/
def State.allocOwner (s : State) (i : Nat) : Nat := s.regBits Obj.TRACT_ALLOC_ATTR i 0 12
/-- STATE: 0 Free, 1 Live, 2 Releasing. -/
def State.allocState (s : State) (i : Nat) : Nat := s.regBits Obj.TRACT_ALLOC_STATE i 30 2
/-- KEY_SLOT. -/
def State.allocSlot (s : State) (i : Nat) : Nat := s.regBits Obj.TRACT_ALLOC_STATE i 0 12

/-- The run of an allocation contains a tract. -/
def State.allocHas (s : State) (i t : Nat) : Bool := decide (s.allocFirst i ≤ t) && decide (t < s.allocFirst i + s.allocCount i)

/-- The Live allocation a tract lies in (R229). -/
def State.liveAlloc (s : State) (t : Nat) : Option Nat :=
  (s.elements Obj.TRACT_ALLOC_STATE).find? (fun i => s.allocState i == 1 && s.allocHas i t)

/-- A tract lies in a Releasing allocation (R234). -/
def State.releasing (s : State) (t : Nat) : Bool := s.guard.releases.any (fun r => decide (r.first ≤ t) && decide (t < r.first + r.count))

/-- The switch number under which an allocation's tracts are homed: that of a lost twin for one taken over (R350). -/
def State.allocHome (s : State) (i : Nat) : Nat :=
  if s.guard.adopted.contains i then s.reg Obj.TWIN_PARTNER_SWITCH else s.ownSwitch

/-- The page of a line (R226). -/
def keyPage (k : Nat) : Nat := keyLine k / 64

/-- A logical device can be reached (R109): its port's link is up and its identity stands. A Fronted one that is no CXL Type 3
memory device, or is a dynamic capacity device, is not fronted (R101, R112): the spec names no result of the commit, which
is accepted, and the tracts are unreachable (DESIGN CHOICE, log entry 88). -/
def State.ldReachable (s : State) (e : Nat) : Bool :=
  s.edgeUp (e / 16) && match assocGet s.edge.lds e with
    | some d => d.reachable && d.type3 && !d.dynamic
    | none => false

/-- The memory of a tract can be reached. -/
def State.tractReachable (s : State) (t : Nat) : Bool :=
  if t < 1024 then s.steppeReady else match s.frontedBy t with
    | some e => s.ldReachable e
    | none => false

/-- The line number in the model's memory of local line key L (R226). -/
def memLine (l : Nat) : Nat := if l / 2 ^ 22 < 1024 then l else frontBase / 64 + l

/-! ### Lines of a home -/

/-- The device physical address of a fronted line on its logical device (R227). -/
def State.frontedDpa (s : State) (e l : Nat) : Nat :=
  (l / 2 ^ 22 - 1024 - s.reg Obj.TRACT_FRONT_BASE e) * 2 ^ 28 + l % 2 ^ 22 * 64

/-- The tenancy of a tract's live allocation, none for a shared one (R150). -/
def State.tractTenancy (s : State) (t : Nat) : Option Nat := ((s.liveAlloc t).filter (fun i => !s.allocShared i)).map s.allocOwner

/-- A request to the memory device that fronts a line: from the engine that serves it, through the Basin (R18, R150). -/
def frontedRequest (s : State) (write : Bool) (l : Nat) : State :=
  match s.frontedBy (l / 2 ^ 22) with
  | some e =>
    let t := s.tractTenancy (l / 2 ^ 22)
    let home := (s.liveAlloc (l / 2 ^ 22)).elim s.ownSwitch s.allocHome
    sendPacket s (colPort (s.engineOf (sliceOf (home * 2 ^ 41 + l)))) (e / 16) .req (if write then .m2sRwd else .m2sReq) (.mem t false) (t, s.memTc t) false
      (if write then 64 else 0) (.toPort (e / 16) (if write then "MemWr" else "MemRd") [e % 16, s.frontedDpa e l])
  | none => s

/-- A home reads a line of its own memory, under the key slot of the line's allocation. A keyed fronted line is stored encrypted
too, and carries no tag (R217): read with another key, or with none, it gives other bytes (R233). -/
def readHome (s : State) (l slot : Nat) : State × LineRead :=
  if l / 2 ^ 22 < 1024 then readLine s l slot
  else
    let n := memLine l
    (frontedRequest s false l, ⟨plain s slot l (s.bytes (64 * n) 64), s.linePoison n⟩)

/-- A home writes a line of its own memory. -/
def writeHome (s : State) (l slot : Nat) (data : List Byte) (poison tracked : Bool) : State :=
  if l / 2 ^ 22 < 1024 then putLine s l ⟨data, poison, tracked, slot⟩
  else
    let n := memLine l
    let t := frontedRequest s true l
    (t.setBytes (64 * n) (cipher t slot l (padTo data 64))).setLineWord n (metaWord poison false 0)

/-! ### The guard (R238 to R244) -/

/-- Who asks: a host agent of a tenancy, a Glen channel, the firmware or `TRACT.MEM_DATA` (R239). -/
inductive GuardUser where
  | agent (a : Nat) (tenancy : Option Nat)
  | glen (t : Nat)
  | priv
  deriving DecidableEq, Repr

/-- The reasons of R246, by their bit in REASONS. -/
abbrev noMatch : Nat := 0
abbrev overlap : Nat := 1
abbrev permission : Nat := 2
abbrev ownerFail : Nat := 3
abbrev notBi : Nat := 4
abbrev unreachable : Nat := 5
abbrev noTenancy : Nat := 6
abbrev privFail : Nat := 7

/-- The regions of a tenancy's set that contain a page of a switch (R238, R241 step 3). -/
def regionsOf (s : State) (t sw page : Nat) : List Nat :=
  ((List.range 16).map (16 * t + ·)).filter (fun e =>
    s.regBit Obj.GUARD_REGION_BASE e 63 && s.regBits Obj.GUARD_REGION_BASE e 56 4 == sw
      && decide (s.regBits Obj.GUARD_REGION_BASE e 0 36 ≤ page) && decide (page ≤ s.regBits Obj.GUARD_REGION_LIMIT e 0 36))

/-- A region grants an access (R238). -/
def regionGrants (s : State) (e : Nat) (u : GuardUser) (write : Bool) : Bool :=
  match u with
  | .agent a _ => if write then s.regBit Obj.GUARD_REGION_WRITE e a else s.regBit Obj.GUARD_REGION_READ e a
  | .glen _ => s.regBit Obj.GUARD_REGION_LIMIT e (if write then 39 else 38)
  | .priv => s.regBit Obj.GUARD_REGION_LIMIT e (if write then 41 else 40)

/-- Steps 3 and 4 over a region set: none when they pass, else the reason (R241). -/
def regionCheck (s : State) (t sw page : Nat) (u : GuardUser) (write : Bool) : Option Nat :=
  match regionsOf s t sw page with
  | [] => some noMatch
  | [e] => if regionGrants s e u write then none else some permission
  | _ => some overlap

/-- The default map grants a privileged access to a page (R244). -/
def defaultGrants (s : State) (page : Nat) (write : Bool) : Bool :=
  (List.range 16).any (fun e => s.regBit Obj.GUARD_DEFAULT_BASE e 63 && decide (s.regBits Obj.GUARD_DEFAULT_BASE e 0 36 ≤ page)
    && decide (page ≤ s.regBits Obj.GUARD_DEFAULT_LIMIT e 0 36) && s.regBit Obj.GUARD_DEFAULT_LIMIT e (if write then 41 else 40))

/-- The owner tenancy of a local tract whose region set a privileged requester searches: none for a shared or free tract (R239). -/
def tractOwner (s : State) (t : Nat) : Option Nat :=
  match s.liveAlloc t with
  | some i => if s.allocShared i then none else some (s.allocOwner i)
  | none => none

/-- A privileged access is checked: the owner's region set first, the default map where no region matches (R239, R244). -/
def privCheck (s : State) (sw t page : Nat) (write : Bool) : Option Nat :=
  let dflt := if defaultGrants s page write then none else some privFail
  match tractOwner s t with
  | none => dflt
  | some o => match regionsOf s o sw page with
    | [] => dflt
    | _ => regionCheck s o sw page .priv write

/-- The tenancy of a requester, none for a privileged one. -/
def userTenancy : GuardUser → Option Nat
  | .agent _ t => t
  | .glen t => some t
  | .priv => none

/-- Steps 3 and 4 of R241 for a requester, and the tenancy check that goes before step 1 for a host agent (R239). -/
def requesterCheck (s : State) (u : GuardUser) (sw t page : Nat) (write : Bool) : Option Nat :=
  match u with
  | .agent _ none => some noTenancy
  | .agent _ (some o) => regionCheck s o sw page u write
  | .glen o => regionCheck s o sw page u write
  | .priv => privCheck s sw t page write

/-- Step 5 of R241: the tract lies in a Live allocation of role Home that the tenancy owns, or a share set it belongs to. -/
def ownerOk (s : State) (home t tenancy : Nat) : Bool :=
  match s.liveAlloc t with
  | some i => s.allocRole i == 0 && s.allocHome i == home
      && (if s.allocShared i then s.regBit Obj.TRACT_SHARE_SETS tenancy (s.allocOwner i) else s.allocOwner i == tenancy)
  | none => false

/-! ### Notices (R246, R247) -/

/-- The number that names a notice window's timer. -/
def windowCode : WindowId → Nat
  | .ten t => t
  | .overflow => 4096
  | .none => 4097

/-- An open notice window. -/
def State.notice (s : State) (w : WindowId) : Option Notice := s.guard.notices.find? (fun n => n.window == w)

/-- Replace or add an open notice window. -/
def putNotice (s : State) (n : Notice) : State :=
  { s with guard := { s.guard with notices := s.guard.notices.filter (fun m => m.window != n.window) ++ [n] } }

/-- A failure joins a window. -/
def Notice.add (n : Notice) (reason : Nat) (write : Bool) : Notice :=
  { n with reasons := putBit n.reasons reason true
           writes := if write then min (n.writes + 1) (2 ^ 32 - 1) else n.writes
           reads := if write then n.reads else min (n.reads + 1) (2 ^ 32 - 1) }

/-- A failure of a tenancy finds its window: its own, a new one, or the overflow window (R246). -/
def windowFor (s : State) (t : Option Nat) : WindowId :=
  match t with
  | none => .none
  | some t =>
    if (s.notice (.ten t)).isSome then .ten t
    else if (s.guard.notices.filter (fun n => match n.window with
      | .ten _ => true
      | _ => false)).length < 64 then .ten t else .overflow

/-- A guard failure is entered into its notice window (R246). -/
def noteFailure (s : State) (t : Option Nat) (reason : Nat) (write : Bool) : State :=
  let w := windowFor s t
  let s0 := if w = .overflow then s.count1 Obj.GUARD_NOTICE_OVERFLOW 0 else s
  match s0.notice w with
  | some n => putNotice s0 (n.add reason write)
  | none =>
    let v := match w with
      | .ten k => s0.reg Obj.GUARD_SET_VERSION k
      | _ => 0
    (putNotice s0 ((⟨w, s0.timeBase, v, 0, 0, 0⟩ : Notice).add reason write)).arm ⟨.noticeWindow, windowCode w, 0⟩ (s0.reg Obj.GUARD_NOTICE_WINDOW * 1000)

/-- A failed part is counted for its tenancy and noted (R242). -/
def guardFail (s : State) (t : Option Nat) (reason : Nat) (write : Bool) : State :=
  let s1 := match t with
    | some k => s.count1 (if write then Obj.GUARD_FAILED_WRITES else Obj.GUARD_POISONED_READS) k
    | none => s
  noteFailure s1 t reason write

/-! ### The parts of a Glen transfer (R240) -/

/-- The part of a transfer in a page, where this device has judged it. -/
def State.partOf (s : State) (switch channel : Nat) (write : Bool) (page : Nat) : Option GuardPart :=
  s.guard.parts.find? (fun x => x.switch == switch && x.channel == channel && x.write == write && x.page == page)

/-- A part has its verdict, which all its accesses share; of each direction of a channel the five newest parts are kept, as
many as its 16 KiB in flight can lie in (R391). -/
def notePart (s : State) (x : GuardPart) : State :=
  let same (y : GuardPart) : Bool := y.switch == x.switch && y.channel == x.channel && y.write == x.write
  { s with guard := { s.guard with parts := x :: (s.guard.parts.filter same).take 4 ++ s.guard.parts.filter (fun y => !same y) } }

/-- A channel of this device begins a transfer: its parts are new ones. -/
def newParts (s : State) (t : Nat) : State :=
  { s with guard := { s.guard with parts := s.guard.parts.filter (fun x => !(x.switch == s.ownSwitch && x.channel == t)) } }

/-- The verdict on one access of a Glen transfer, with the reason of a failure: that of its part, which is judged, and a failure
of it counted and noted, once (R240, R242). -/
def judgePart (s : State) (switch channel : Nat) (write : Bool) (page : Nat) (check : Option Nat) : State × Option Nat :=
  match s.partOf switch channel write page with
  | some x => (s, x.verdict)
  | none =>
    let s1 := notePart s ⟨switch, channel, write, page, check⟩
    (match check with
      | some r => guardFail s1 (some channel) r write
      | none => s1, check)

/-- The notice record of a window that closes now (R247). -/
def noticeBytes (s : State) (n : Notice) : List Byte :=
  let tenancy := match n.window with
    | .ten t => t
    | .overflow => at_ 14 1
    | .none => at_ 15 1
  leBytes n.start 8 ++ leBytes s.timeBase 8 ++ leBytes tenancy 2 ++ leBytes n.version 2 ++ leBytes n.reasons 1 ++ leBytes s.ownSwitch 1
    ++ [0, 0] ++ leBytes n.writes 4 ++ leBytes n.reads 4

/-- The tenant's copy of a notice, and its interrupt (R247). -/
def tenantNotice (s : State) (t : Nat) (w : Nat) : State :=
  let s1 := s.setReg Obj.GUARD_TENANT_NOTICE t w
  if s1.reg Obj.GUARD_NOTICE_IRQ t = 1 then setIrq s1 t 2 else s1

/-- A notice window closes: its record goes to the log, to the tenant, to the telemetry FIFO, and the source is raised (R247). -/
def closeNotice (s : State) (w : WindowId) : State :=
  match s.notice w with
  | none => s
  | some n =>
    let bytes := noticeBytes s n
    let s1 := { s with guard := { s.guard with notices := s.guard.notices.filter (fun m => m.window != w) } }.disarm ⟨.noticeWindow, windowCode w, 0⟩
    let s2 := (pushLog s1 Obj.GUARD_NOTICE 256 (ofLe bytes)).count1 Obj.GUARD_NOTICE_COUNT 0
    let s3 := match w with
      | .ten t => tenantNotice s2 t (ofLe bytes)
      | _ => s2
    let s4 := report s3 (.record 2 ((List.range 4).map (fun i => leField bytes (8 * i) 8)))
    raise s4 8 0

/-- `NOTICE_WINDOW_CLOSE` (R246, R247). -/
def execNoticeWindowClose (dt : Nat) (window : WindowId) (s : State) : Res := run dt s fun s =>
  s.onDue ⟨.noticeWindow, windowCode window, 0⟩ fun t => closeNotice t window

end Sys2Proof.Machine
end

