-- ==== Sys2Proof/Machine/Basin.lean ====
section
/-! DEFINITION. The Basin (05_basin.md): arrival, admission, cell writes and reads, stalls, sampling. -/
namespace Sys2Proof.Machine

/-! ### Arrival of messages (R124, R134) -/

/-- A message the Basin can store (R124, R137). -/
def storable (m : FabricMsg) : Bool :=
  decide (1 ≤ m.len) && decide (m.len ≤ 1024) && decide (1 ≤ m.targets.length) && decide (m.targets.length ≤ 63)
    && (decide (m.targets.length = 1) || decide (m.len ≤ 256))

/-- CXL.cache is forwarded only between a host port and the devices of its own hierarchy that have a CacheID (R117). -/
def cacheAllowed (s : State) (p : Nat) (m : FabricMsg) : Bool :=
  match m.sort with
  | .cache _ => m.targets.all (fun t =>
      if s.isHost p then (s.cacheId p (16 * t.egress + m.ld)).isSome else s.isHost t.egress && (s.cacheId t.egress (16 * p + m.ld)).isSome)
  | _ => true

/-- A message of a device to its host takes its CacheID with it, as the rewrite index of its target (R117). -/
def withCacheId (s : State) (p : Nat) (m : FabricMsg) : FabricMsg :=
  match m.sort with
  | .cache _ => if s.isHost p then m else { m with targets := m.targets.map (fun t => { t with rewrite := (s.cacheId t.egress (16 * p + m.ld)).getD 0 }) }
  | _ => m

/-- The link of an edge port carries traffic (R119, R120, R503): it is up, its stream does not wait for a new key exchange
after a failure, and it is Secure where that is required. -/
def State.carriesTraffic (s : State) (p : Nat) : Bool :=
  s.edgeUp p && s.regBits Obj.EDGE_IDE_STATUS p 0 2 != 3 && (!s.regBit Obj.EDGE_PROTOCOLS p 6 || s.regBit Obj.EDGE_PORT_STATE p 10)

/-- A message may arrive at an ingress port: on an edge port that carries traffic, with a credit for its channel (R134), or
on an internal port whose FIFO takes it (R136). -/
def mayArrive (s : State) (p : Nat) (m : FabricMsg) : Bool :=
  !s.basin.stopped
    && (if p < 64 then s.isEdge p && s.carriesTraffic p && hasCredit s p m.channel (unitsOf (m.len - m.headerBytes))
        else decide (p < 72) && fifoRoom s p (msgClass m.sort))

/-- In Start-up the tenant data path is Closed (R17): of what arrives at an edge port only the configuration of the
presented function goes on, which is no message of the Basin's tenants; what has no internal port as a target is not taken. -/
def pathOpen (s : State) (p : Nat) (m : FabricMsg) : Bool := s.devState != 0 || decide (64 ≤ p) || m.targets.all (fun t => 64 ≤ t.egress)

/-- A request of a host is for a logical device whose link is down, or whose vPPB has contained its port, or the host is a
CXL 1.1 host, whose only device is the presented one (R101, R109). -/
def unsupportedTarget (s : State) (p : Nat) (m : FabricMsg) : Bool :=
  s.isHost p && m.targets.any (fun t => s.isDownstream t.egress && (!s.edgeUp t.egress || s.regBits Obj.EDGE_PORT_STATE p 2 3 == 1
    || (s.boundVppb t.egress m.ld).any (fun v => s.fnReg (v / 64) (v % 64) .dpcStatus != 0)))

/-- Such a request completes with Unsupported Request; what expects no completion is dropped (R109). -/
def answerUnsupported (s : State) (p : Nat) (m : FabricMsg) : State :=
  if [LinkChannel.nonPosted, .m2sReq, .m2sRwd].contains m.channel then
    sendHost s functionPort p .rsp .completion (s.portTenancy p) 0 (.toPort p "Unsupported Request" [m.requester])
  else s

/-- Viral is entered on a host port (R101): it is shown, raised, and passed on to the logical devices of the port's own
hierarchy, and no further. -/
def enterViral (s : State) (p : Nat) : State :=
  if s.isHost p && !s.regBit Obj.EDGE_PORT_STATE p 11 then
    let s1 := raise (s.putRegBit Obj.EDGE_PORT_STATE p 11 true) 4 4
    forEach (s1.heldVppbs p) s1 fun t v => t.emit (.toPort (t.vppbDev p v / 16) "viral" [t.vppbDev p v % 16])
  else s

/-- The fabric port that carries a message to a PBR ID (R118): none where no route is set, and none for what arrives on a
fabric port, for PBR traffic does not transit (log entry 23). -/
def pbrRoute (s : State) (p d : Nat) : Option Nat :=
  let q := s.reg Obj.EDGE_PBR_ROUTE d
  if !s.isFabric p && s.isFabric q then some q else none

/-- A message whose target and port are settled enters the Basin, is answered as unsupported, or is not forwarded. -/
def takeMessageIn (s : State) (p : Nat) (m : FabricMsg) : State :=
  if unsupportedTarget s p m then answerUnsupported s p m else if cacheAllowed s p m then packMessage s p (withCacheId s p m) else s

/-- A message arrives at a port: one of this device's functions for a PBR ID is converted back and leaves by the fabric port
of its route, or is dropped and counted (R118). -/
def messageArrives (s : State) (p : Nat) (m : FabricMsg) : State :=
  let s1 := if m.viral then enterViral s p else s
  match m.dpid with
  | none => takeMessageIn s1 p m
  | some d => match pbrRoute s1 p d with
    | some q => takeMessageIn s1 p { m with targets := m.targets.map (fun t => { t with egress := q }) }
    | none => raise (s1.count1 Obj.EDGE_PBR_DROPPED p) 4 3

/-- `MESSAGE_INGRESS` (R17, R101, R109, R117, R118, R124, R129, R134, R150). -/
def execMessageIngress (dt ingress : Nat) (m : FabricMsg) (s : State) : Res := run dt s fun s =>
  if mayArrive s ingress m && pathOpen s ingress m && storable m then messageArrives s ingress m else s

/-- `OPEN_CELL_CLOSE` (R124): a full core cycle has passed since the cell's last message. -/
def execOpenCellClose (dt ingress : Nat) (cls : BasinClass) (s : State) : Res := run dt s fun s =>
  match assocGet s.basin.open_ (openKey ingress cls) with
  | some c => if c.last < s.now then closeOpen s (openKey ingress cls) else s
  | none => s

/-! ### Admission (R127, R131, R132) -/

/-- The cells an offered cell or chain takes. -/
def Offered.cells (c : Offered) : Nat := (c.msgs.map (fun m => cellsOf m.len)).foldl max 1

/-- The cells a request needs from the shared pool (R131). -/
def sharedNeed (s : State) (n p c : Nat) : Nat := n - (s.reserve p c - s.used p c)

/-- The egress threshold of R131 and R132 lets `n` cells in for egress port `e`. -/
def egressRoom (s : State) (n need e : Nat) : Bool :=
  decide ((s.reg Obj.BASIN_EGRESS_USE e + n) * 64
    ≤ 2 ^ s.reg Obj.BASIN_EGRESS_ALPHA e * (s.reg Obj.BASIN_SHARED_CELLS - s.reg Obj.BASIN_SHARED_USED - need))

/-- The admission rule of R131, with the entry bound of R127. -/
def admits (s : State) (c : Offered) : Bool :=
  let n := c.cells
  let need := sharedNeed s n c.ingress (basinCode c.cls)
  decide (need = 0 ∨ s.reg Obj.BASIN_SHARED_USED + need ≤ s.reg Obj.BASIN_SHARED_CELLS)
    && (decide (need = 0) || c.cls == .coh || c.targets.all (fun t => egressRoom s n need t.egress))
    && (decide (c.targets.length ≤ 1) || decide (s.reg Obj.BASIN_MCAST_ENTRIES + c.targets.length ≤ 262144))

/-- The stall episode of an egress port starts when its queues go from empty to non-empty (R142). -/
def stallStart (s : State) (e : Nat) : State := if s.egressBusy e then s else setStall s e true

/-- One entry joins the pointer list of a target, in the queue that its group has now (R127, R149, R151). -/
def enqueueTarget (c : Stored) (s : State) (t : Target) : State :=
  let q := match c.msgs with
    | m :: _ => s.msgQueue m t.egress
    | [] => 0
  let s1 := stallStart s t.egress
  { s1 with basin := { s1.basin with entries := s1.basin.entries ++ [⟨c.id, t.egress, q, t.channel, t.rewrite, 0⟩] } }

/-- A link channel of CXL.mem. -/
def memChannel (c : LinkChannel) : Bool := [LinkChannel.m2sReq, .m2sRwd, .s2mNdr, .s2mDrs, .biSnp, .biRsp].contains c

/-- The KIND of a sample (R144): what a message is by its sort; coherence control, and a message of the device's own, by
the channel that it comes on or first leaves by. -/
def sampleKind (ingress : Nat) (targets : List Target) (m : BMsg) : Nat :=
  match m.sort with
  | .io _ _ | .functionCompletion _ _ => 0
  | .mem _ _ => 1
  | .cache _ => 2
  | .control _ | .pass _ _ _ =>
    if memChannel m.channel || (targets.head?.elim false (fun t => memChannel t.channel)) then 1
    else if ingress < 64 ∨ targets.any (fun t => t.channel == .request || t.channel == .response) = true then 3
    else 5
  | .mirror | .log => 4
  | .glen _ | .management => 5

/-- The ten body words of a sample (R144, R436). A message without a tenancy tag has TENANCY 0, which R144 does not state
(DESIGN CHOICE, unsafe: log entry 76). -/
def sampleWords (s : State) (p : Nat) (c : Offered) (m : BMsg) : List Nat :=
  let egress := match c.targets with
    | t :: _ => t.egress
    | [] => 0
  let flags := m.tc % 8 + at_ 3 (basinCode c.cls) + at_ 5 (b2n (1 < c.targets.length)) + at_ 6 (b2n (64 < m.len))
  let kept := if s.reg Obj.BASIN_SAMPLE_DATA = 1 then m.body else m.body.take m.headerBytes
  let body := padTo kept 64
  let head := leBytes s.timeBase 8 ++ leBytes (m.tenancy.getD 0) 2 ++ leBytes p 1 ++ leBytes egress 1 ++ leBytes flags 1
    ++ leBytes (sampleKind p c.targets m) 1 ++ leBytes m.len 2
  (List.range 10).map (fun i => leField (head ++ body) (8 * i) 8)

/-- A sample passes the policer into the telemetry FIFO, or is dropped and counted (R145, R160). -/
def offerSample (s : State) (words : List Nat) : State :=
  let b := s.basin.samplePolice.fill (s.reg Obj.SCHED_SAMPLE_POLICE_RATE) (s.reg Obj.SCHED_SAMPLE_POLICE_BURST) s.now
  let s1 := s.count1 Obj.BASIN_SAMPLES 0
  if b.has then report { s1 with basin := { s1.basin with samplePolice := b.draw } } (.record 1 words)
  else ({ s1 with basin := { s1.basin with samplePolice := b } }).count1 Obj.SCHED_SAMPLE_POLICED 0

/-- The sampler of an ingress port counts one admitted message and takes the N-th (R143). -/
def sampleOne (p : Nat) (c : Offered) (s : State) (m : BMsg) : State :=
  let n := s.reg Obj.BASIN_SAMPLE_N p
  if n = 0 then s
  else
    let k := (assocGet s.basin.sampleCount p).getD 0 + 1
    if k < n then { s with basin := { s.basin with sampleCount := assocPut s.basin.sampleCount p k } }
    else offerSample { s with basin := { s.basin with sampleCount := assocPut s.basin.sampleCount p 0 } } (sampleWords s p c m)

/-- A cell or chain is stored with its references. -/
def storeOffered (s : State) (c : Offered) : State :=
  let fan := c.targets.length
  let st : Stored := ⟨s.basin.nextId, c.ingress, c.cls, c.msgs, c.targets, c.cells, [], fan, decide (1 < fan), fan⟩
  { s with basin := { s.basin with stored := s.basin.stored ++ [st], nextId := s.basin.nextId + 1 } }

/-- Admit an offered cell or chain (R131, R134, R137, R143): it is charged to its ingress and to each target, its credits
go back, its messages are sampled. Its entries join their lists once it is written (R124). -/
def admitCell (s : State) (c : Offered) : State :=
  let s1 := countWait (storeOffered s c) c
  let s2 := s1.setUsed c.ingress (basinCode c.cls) (s1.used c.ingress (basinCode c.cls) + c.cells)
  let s3 := if 1 < c.targets.length then s2.setReg Obj.BASIN_MCAST_ENTRIES 0 (s2.reg Obj.BASIN_MCAST_ENTRIES + c.targets.length) else s2
  let s4 := if c.cls = .coh then s3 else forEach c.targets s3 (fun t x => t.addEgress x.egress c.cells)
  let s5 := (s4.count Obj.BASIN_MSGS_IN c.ingress c.msgs.length).count Obj.BASIN_CELLS_IN c.ingress c.cells
  forEach c.msgs (forEach c.msgs s5 (returnCredit c.ingress)) (sampleOne c.ingress c)

/-- Take the first of a list that satisfies `p`, with the rest. -/
def takeFirst {α : Type} (p : α → Bool) : List α → Option (α × List α)
  | [] => none
  | x :: t => if p x then some (x, t) else (takeFirst p t).map (fun r => (r.1, x :: r.2))

/-- Replace the first of a list that satisfies `p`. -/
def replaceFirst {α : Type} (p : α → Bool) (f : α → α) : List α → List α
  | [] => []
  | x :: t => if p x then f x :: t else x :: replaceFirst p f t

/-- `CELL_ADMIT` (R131): the oldest cell of an ingress FIFO is admitted, or waits. -/
def execCellAdmit (dt ingress : Nat) (cls : BasinClass) (s : State) : Res := run dt s fun s =>
  let mine := fun (c : Offered) => c.ingress == ingress && c.cls == cls
  match takeFirst mine s.basin.fifo with
  | none => s
  | some (c, rest) =>
    if s.basin.stopped then s
    else if admits s c then admitCell { s with basin := { s.basin with fifo := rest } } c
    else { s with basin := { s.basin with fifo := replaceFirst mine (fun d => { d with waits := some (d.waits.getD s.now) }) s.basin.fifo } }

/-! ### Cell writes (R126) -/

/-- The bank with the most free cells among the first `n` that are open, ties to the lowest (R126). -/
def bestBank (s : State) (busy : List Nat) : Nat → Option (Nat × Nat)
  | 0 => none
  | n + 1 =>
    let free := 4096 - s.bankUse n
    let prev := bestBank s busy n
    if busy.contains n ∨ free = 0 then prev
    else match prev with
      | none => some (n, free)
      | some (b, f) => if f < free then some (n, free) else some (b, f)

/-- The row a write takes: the free list's order is not specified, so it is the first free row from a free value on. -/
def freeRow (s : State) (bank : Nat) : Option Nat :=
  ((List.range 4096).map (fun i => (s.freeNow + i) % 4096)).find? (fun r => !s.cellUsed (64 * r + bank))

/-- A cell has been written: the free count falls, and the lowest free count with it. -/
def takeCell (s : State) : State :=
  let n := s.reg Obj.BASIN_FREE_CELLS - 1
  let s1 := s.setReg Obj.BASIN_FREE_CELLS 0 n
  if n < s1.reg Obj.BASIN_LOW_FREE then s1.setReg Obj.BASIN_LOW_FREE 0 n else s1

/-- One cell of a message is written at a pointer; with the last one its entries join their lists (R124, R137). -/
def writeCell (s : State) (c : Stored) (ptr : Nat) : State :=
  let c1 := { c with ptrs := c.ptrs ++ [ptr] }
  let s1 := (takeCell (s.putStored c1)).useFree
  if c1.ptrs.length = c.n then forEach c.targets (s1.putStored { c1 with targets := [] }) (enqueueTarget c1) else s1

/-- `CELL_WRITE` (R126): the oldest waiting write of a port and class goes to the bank with the most free cells among
those open to it. `busy` are the banks with a read or another write in the cycle. -/
def execCellWrite (dt ingress : Nat) (cls : BasinClass) (busy : List Nat) (s : State) : Res := run dt s fun s =>
  s.withSome (s.basin.stored.find? (fun c => c.ingress == ingress && c.cls == cls && !c.targets.isEmpty && decide (c.ptrs.length < c.n))) fun c =>
    s.withSome (bestBank s busy 64) fun b =>
      s.withSome (freeRow s b.1) fun r => writeCell s c (64 * r + b.1)

/-! ### Cell reads (R138, R142, R146) -/

/-- The number of slots of a Pass message (R163). -/
def slotsOf (len : Nat) : Nat := (len + 63) / 64

/-- A message's slots in the slot stream (R172): a start of its channel, then continuations. -/
def messageSlots (channel mid : Nat) (bytes : List Byte) : List Slot :=
  (List.range (slotsOf bytes.length)).map (fun i => ⟨if i = 0 then channel else 3, slice bytes (64 * i) 64, mid⟩)

/-- A started message's slots wait in the transmit staging of a Pass port (R172). -/
def stageMessage (s : State) (p channel : Nat) (bytes : List Byte) : State :=
  let q := s.passPort p
  s.setPass p { q with staging := q.staging ++ messageSlots channel q.nextMid bytes, nextMid := q.nextMid + 1 }

/-- The channel of a Pass message by its header: 1 Request, 2 Response (R170, R172). -/
def passChannel (bytes : List Byte) : Nat := 1 + leField bytes 1 1 % 2

/-- A message that came in on a Pass port. -/
def fromPass : MsgSort → Bool
  | .pass _ _ _ => true
  | _ => false

/-- The bytes of a Pass message whose payload is poisoned (R146, R259, R337): POISON of DATA, of a write and of a mirrored
line is set; a kind without data has none. -/
def poisonBytes (b : List Byte) : List Byte :=
  let k := leField b 0 1
  let set (i n : Nat) : List Byte := splice b i (leBytes (putBit (leField b i 4) n true) 4)
  if k = 0x20 then set 12 2 else if 5 ≤ k ∧ k ≤ 8 then set 12 12 else if k = 0x40 ∨ k = 0x45 then set 24 31 else b

/-- A coherence message whose payload is poisoned. -/
def poisonMsg (m : CohMsg) : CohMsg := if m.kind = 0x20 then m.put 2 true else if 5 ≤ m.kind ∧ m.kind ≤ 8 then m.put 12 true else m

/-- A PROBE takes its send time, in the telemetry time base, as it leaves (R191, R433). -/
def stampProbe (s : State) (p : Nat) (m : List Byte) : State × List Byte :=
  if leField m 0 1 = 0x62 then
    let q := s.passPort p
    (s.setPass p { q with probes := ⟨leField m 12 4, s.now⟩ :: q.probes.filter (fun x => decide (s.now ≤ x.at_ + 1000000000)) }, splice m 16 (leBytes s.timeBase 8))
  else (s, m)

/-- A message starts on a Pass link: its slots wait in the transmit staging, and a mirror write or log message is kept until
it is acknowledged (R22, R172, R341). -/
def startMessage (s : State) (p : Nat) (m : List Byte) : State :=
  let r := stampProbe s p m
  let q := r.1.passPort p
  let keep := leField m 0 1 == 0x40 || leField m 0 1 == 0x41
  stageMessage (if keep then r.1.setPass p { q with sent := q.sent ++ [(q.nextMid, r.2)] } else r.1) p (passChannel m) r.2

/-- A message leaves its egress port: to a Pass link's staging, to a unit of this device, to the host side of a port, or as
bytes to whatever the port faces. A snoop for an agent that is Dead ends there (R295). -/
def deliver (s : State) (e : Nat) (m : BMsg) (rewrite : Nat) (poison : Bool) : State :=
  match m.arrival with
  | .flight f => launch s f.hop (if poison then poisonMsg f.msg else f.msg)
  | .snoop x => if s.agentState rewrite = 3 then s else launch s (.agent rewrite) x
  | .out o => s.emit o
  | .bytes =>
    if s.isPass e then startMessage s e (if poison then poisonBytes m.body else m.body)
    else if 64 ≤ e ∧ fromPass m.sort = true then
      (let x := cohDecode (if poison then poisonBytes m.body else m.body)
       launch s (cohHop s x) x)
    else s.emit (.message e m.body rewrite poison)

/-- The effect of what a read finds on the status word and the counters (R146). -/
def readError (s : State) : CellError → State
  | .none => s
  | .unitCorrected => raise (s.count1 Obj.BASIN_ECC_CORRECTED 0) 5 0
  | .unitData => raise (s.count1 Obj.BASIN_ECC_POISONED 0) 5 1
  | .unitHeader => raise (s.count1 Obj.BASIN_ECC_DROPPED 0) 5 2
  | .descCorrected => raise (s.count1 Obj.BASIN_ECC_CORRECTED 0) 5 3
  | .descUncorrectable => raise s 5 4
  | .entryUncorrectable => raise s 5 7

/-- The cell a read in progress takes next: the first of those a chain still has. -/
def nextCell (s : State) (r : Reading) : Option Nat := (s.storedOf r.id).bind (fun c => c.ptrs.head?)

/-- A target has read its last message of a cell (R131, R138). -/
def targetDone (s : State) (r : Reading) : State :=
  if r.last then (s.subEgress r.egress (s.entryCells r.id)).refDown r.id else s

/-- The stall episode of an egress port ends at a cell read and may begin anew (R142). -/
def stallAgain (s : State) (e : Nat) : State := setStall s e (s.egressBusy e)

/-- The first cell of a chain that has more has been read: it is free again (R131, R138). -/
def freeRead (s : State) (r : Reading) : State :=
  s.withSome (s.storedOf r.id) fun c =>
    let s1 := s.setUsed c.ingress (basinCode c.cls) (s.used c.ingress (basinCode c.cls) - 1)
    let s2 := if c.cls = .coh then s1 else s1.subEgress r.egress 1
    (s2.putStored { c with n := c.n - 1, ptrs := c.ptrs.drop 1 }).setReg Obj.BASIN_FREE_CELLS 0 (s2.reg Obj.BASIN_FREE_CELLS + 1)

/-- Replace or end the read in progress of an egress port. -/
def putReading (s : State) (e : Nat) (r : Option Reading) : State :=
  { s with basin := { s.basin with reading := s.basin.reading.filter (fun x => x.egress != e) ++ r.toList } }

/-- One cell of a read in progress has been read. -/
def readStep (s : State) (r : Reading) : State :=
  if 1 < r.left then freeRead (putReading s r.egress (some { r with left := r.left - 1 })) r
  else
    let s1 := targetDone (putReading s r.egress none) r
    if r.dropped then s1 else deliver s1 r.egress r.msg r.rewrite r.poison

/-- `CELL_READ` (R126, R138, R142, R146): an egress port reads the next cell of the message it has selected. -/
def execCellRead (dt egress ptr : Nat) (err : CellError) (s : State) : Res := run dt s fun s =>
  if s.basin.stopped then s
  else s.withSome (s.basin.reading.find? (fun r => r.egress == egress)) fun r =>
    if nextCell s r ≠ some ptr then s
    else
      let s1 := readError s err
      if s1.basin.stopped then s1
      else stallAgain (readStep s1 { r with dropped := r.dropped || err == .unitHeader, poison := r.poison || err == .unitData }) egress

/-- `STALL` (R142): a stall episode that has lasted `BASIN.STALL_LIMIT`, as that stands now, is counted, and the source
raised, once. -/
def execStall (dt egress : Nat) (s : State) : Res := run dt s fun s =>
  s.withSome (assocGet s.basin.stallSince egress) fun t =>
    if t + s.reg Obj.BASIN_STALL_LIMIT * 1000 ≤ s.now ∧ s.egressBusy egress = true then
      raise ((setStall s egress false).count1 Obj.BASIN_STALLS egress) 5 8
    else s

/-- `LOW_FREE_WRITE` (R148): any write sets it to the present free count. -/
def execLowFreeWrite (dt : Nat) (path : Path) (value : Nat) (s : State) : Res := run dt s fun s =>
  serveWrite s path (writeRec Obj.BASIN_LOW_FREE none value) (fun t => t.setReg Obj.BASIN_LOW_FREE 0 (t.reg Obj.BASIN_FREE_CELLS))

end Sys2Proof.Machine
end

