-- ==== Sys2Proof/Machine/PassOps.lean ====
section
/-! DEFINITION. Shared operations of the Pass links (07_pass_links.md): credits, the device's own messages, routes, and
the ways a port's link goes down and comes back. -/
namespace Sys2Proof.Machine

/-! ### Credits (R179, R180) -/

/-- Units the partner may hold for a channel: 1 Request, 2 Response (R180). -/
def PassPort.held (q : PassPort) (c : Nat) : Nat :=
  if c = 1 then (q.chargedReq + 65536 - q.freedReq) % 65536 else (q.chargedRsp + 65536 - q.freedRsp) % 65536

/-- The partner's reserve for a channel. -/
def PassPort.res (q : PassPort) (c : Nat) : Nat := if c = 1 then q.resReq else q.resRsp

/-- A message of `n` slots may start on a channel (R180). -/
def PassPort.mayStart (q : PassPort) (c n : Nat) : Bool :=
  let extra := (q.held c + n - q.res c) - (q.held c - q.res c)
  decide ((q.held 1 - q.res 1) + (q.held 2 - q.res 2) + extra ≤ q.pool - q.res 1 - q.res 2)

/-- The units of a starting message are charged (R180). -/
def PassPort.charge (q : PassPort) (c n : Nat) : PassPort :=
  if c = 1 then { q with chargedReq := (q.chargedReq + n) % 65536 } else { q with chargedRsp := (q.chargedRsp + n) % 65536 }

/-- Units leave the receive pool and join the freed counter of their channel (R179). -/
def PassPort.free (q : PassPort) (c n : Nat) : PassPort :=
  if c = 1 then { q with ownFreedReq := (q.ownFreedReq + n) % 65536 } else { q with ownFreedRsp := (q.ownFreedRsp + n) % 65536 }

/-- Units of the receive pool that a channel uses (R179). -/
def PassPort.poolUsed (q : PassPort) (c : Nat) : Nat :=
  ((q.rxPool.filter (fun m => m.channel == c)).map (fun m => slotsOf m.bytes.length)).sum + match q.rxOpen with
    | some m => if m.channel = c then m.left + m.bytes.length / 64 else 0
    | none => 0

/-- A message of `n` units on channel `c` would overflow the receive pool of port `p`: of its 1,024 units each channel has
its reserve, and the rest is shared (R179, R180). -/
def poolOverflows (s : State) (p c n : Nat) : Bool :=
  let q := s.passPort p
  let r1 := s.reg Obj.PASS_RX_RESERVE (2 * p)
  let r2 := s.reg Obj.PASS_RX_RESERVE (2 * p + 1)
  decide (1024 - r1 - r2 < (q.poolUsed 1 + (if c = 1 then n else 0) - r1) + (q.poolUsed 2 + (if c = 1 then 0 else n) - r2))

/-- The first message of the pool with these bytes leaves it, and its credits are freed; none where there is none. -/
def takePool (s : State) (p : Nat) (bytes : List Byte) : Option (State × PoolMsg) :=
  let q := s.passPort p
  (takeFirst (fun (m : PoolMsg) => m.bytes == bytes) q.rxPool).map fun r =>
    (s.setPass p ({ q with rxPool := r.2 }.free r.1.channel (slotsOf r.1.bytes.length)), r.1)

/-! ### The registers of R175 to R178 -/

/-- MODE of `PASS.TX_STATE`: 0 Normal, 1 Stalled, 2 Replay. -/
def State.txMode (s : State) (p : Nat) : Nat := s.regBits Obj.PASS_TX_STATE p 62 2
/-- OUTSTANDING. -/
def State.txOutstanding (s : State) (p : Nat) : Nat := s.regBits Obj.PASS_TX_STATE p 52 10
/-- REPLAY_PTR. -/
def State.txPtr (s : State) (p : Nat) : Nat := s.regBits Obj.PASS_TX_STATE p 36 12
/-- NEXT_TX. -/
def State.txNext (s : State) (p : Nat) : Nat := s.regBits Obj.PASS_TX_STATE p 24 12
/-- ACKED. -/
def State.txAcked (s : State) (p : Nat) : Nat := s.regBits Obj.PASS_TX_STATE p 12 12
/-- REPLAY_COUNT. -/
def State.txCount (s : State) (p : Nat) : Nat := s.regBits Obj.PASS_TX_STATE p 0 8
/-- EXPECT. -/
def State.rxExpect (s : State) (p : Nat) : Nat := s.regBits Obj.PASS_RX_STATE p 0 12
/-- The ack point. -/
def State.rxAckPoint (s : State) (p : Nat) : Nat := s.regBits Obj.PASS_RX_STATE p 12 12
/-- Flits accepted since the ack point moved. -/
def State.rxCount (s : State) (p : Nat) : Nat := s.regBits Obj.PASS_RX_STATE p 25 6
/-- The receiver is in ReplayWait. -/
def State.rxWait (s : State) (p : Nat) : Bool := s.regBit Obj.PASS_RX_STATE p 31

/-- Set MODE. -/
def setTxMode (s : State) (p m : Nat) : State := s.setRegBits Obj.PASS_TX_STATE p 62 2 m

/-- The core cycles with 512 flits outstanding are counted up to now in `PASS.STALLED`, and that time goes on or ends (R193). -/
def settleFull (s : State) (p : Nat) (goes : Bool) : State :=
  let q := s.passPort p
  let s1 := s.withSome q.full fun t => s.count Obj.PASS_STALLED p (coreCycles t s.now)
  if q.full.isSome || goes then s1.setPass p { q with full := if goes then some s1.now else none } else s1

/-- Set OUTSTANDING. -/
def setOutstanding (s : State) (p n : Nat) : State := settleFull (s.setRegBits Obj.PASS_TX_STATE p 52 10 n) p (n == 512)

/-- A pass starts at ACKED (R178). -/
def startPass (s : State) (p : Nat) : State := (setTxMode s p 2).setRegBits Obj.PASS_TX_STATE p 36 12 (s.txAcked p)

/-- The flit time of a Pass port in ns (R163). -/
def State.flitTime (s : State) (p : Nat) : Nat := (if s.portKind p = 3 then 32 else 64) / max 1 (s.portWidth p)

/-! ### The device's own messages (R170, R187, R188, R191) -/

/-- A message header (R170); `tenancy` carries the tenancy number and generation. -/
def passHeader (kind channel tc : Nat) (tenancy : Option (Nat × Nat)) (length dst src hops arg : Nat) : List Byte :=
  leBytes kind 1 ++ leBytes ((channel - 1) + 2 * (tc % 8) + at_ 4 (b2n tenancy.isSome)) 1 ++ leBytes length 2 ++ leBytes dst 1 ++ leBytes src 1
    ++ leBytes (tenancy.elim 0 (·.1)) 2 ++ leBytes (tenancy.elim 0 (·.2)) 2 ++ leBytes hops 1 ++ [0] ++ leBytes arg 4

/-- The partner's switch number as its HELLO gave it, else 0. -/
def State.partnerSwitch (s : State) (p : Nat) : Nat :=
  if (s.passPort p).hello then s.regBits Obj.PASS_LINK_STATE p 16 4 else 0

/-- A Saddle port (R334): P56 or P60 of a device meant to be paired. -/
def State.isSaddle (s : State) (p : Nat) : Bool := (p == 56 || p == 60) && s.reg Obj.TWIN_ENABLE == 1

/-- The traffic class of management traffic (R150). -/
def State.mgmtTc (s : State) : Nat := s.reg Obj.SCHED_DEVICE_TC 2

/-- The HELLO of a port (R187). -/
def helloBytes (s : State) (p : Nat) : List Byte :=
  passHeader 0x60 2 s.mgmtTc none 48 (s.partnerSwitch p) s.ownSwitch 0 0
    ++ [2] ++ leBytes s.switchField 1 ++ leBytes p 1 ++ leBytes (b2n (s.isSaddle p) + 2 * b2n (s.regBit Obj.ID_STRAPS 0 8)) 1
    ++ leBytes 1024 2 ++ leBytes (s.reg Obj.PASS_RX_RESERVE (2 * p)) 2 ++ leBytes (s.reg Obj.PASS_RX_RESERVE (2 * p + 1)) 2
    ++ List.replicate 6 0 ++ leBytes (s.reg Obj.ID_SERIAL) 16

/-- A route to switch `w` is valid. -/
def State.routeValid (s : State) (w : Nat) : Bool := s.regBit Obj.PASS_ROUTE w 31

/-- The switch number the device answers for beside its own: that of a lost twin (R350, R354). -/
def State.alias_ (s : State) : Option Nat := if s.regBit Obj.TWIN_STATE 0 27 then s.twin.aliasOf else none

/-- Messages for switch `w` are for this device (R190, R350). -/
def State.isOwn (s : State) (w : Nat) : Bool := w == s.ownSwitch || s.alias_ == some w

/-- The hop count a device advertises for switch `w` (R188). -/
def State.hopsTo (s : State) (w : Nat) : Nat :=
  if s.isOwn w then 0 else if s.routeValid w then s.regBits Obj.PASS_ROUTE w 8 4 else 0xFF

/-- The serial a device holds for switch `w` (R188): its own for its own number. -/
def State.serialOf (s : State) (w : Nat) : Nat := if w = s.ownSwitch then s.reg Obj.ID_SERIAL else s.reg Obj.PASS_DOMAIN_TABLE w

/-- The ROUTE message (R188) for a port. -/
def routeBytes (s : State) (p : Nat) : List Byte :=
  passHeader 0x61 2 s.mgmtTc none 304 (s.partnerSwitch p) s.ownSwitch 0 0 ++ leBytes s.switchField 1 ++ List.replicate 15 0
    ++ (List.range 16).map (fun w => BitVec.ofNat 8 (s.hopsTo w)) ++ (List.range 16).foldl (fun l w => l ++ leBytes (s.serialOf w) 16) []

/-- A PROBE or PROBE_REPLY of a port (R191). -/
def probeBytes (s : State) (p kind tag time : Nat) : List Byte :=
  passHeader kind 2 s.mgmtTc none 32 (s.partnerSwitch p) s.ownSwitch 0 tag ++ leBytes time 8 ++ List.replicate 8 0


/-- A ROUTE goes out on every Up and Config port (R188). -/
def sendRoutes (s : State) : State :=
  forEach ((List.range 64).filter (fun p => s.isPass p && (s.passState p == 3 || s.passState p == 4))) s fun t p => sendOwn t p (routeBytes t p)

/-! ### Routes (R189) -/

/-- The link of a Pass port counts as up for routes: Up, or in Recovery (R184). -/
def State.passUp (s : State) (p : Nat) : Bool := s.isPass p && (s.passState p == 4 || s.passState p == 5)

/-- The count that port `p` gives for switch `w`: 1 plus what its partner last advertised, none where that is unreachable (R189). -/
def routeCount (s : State) (w p : Nat) : Option Nat :=
  match (s.passPort p).advert[w]? with
  | some c => if s.passUp p && c != 0xFF && decide (c + 1 ≤ s.reg Obj.PASS_HOP_LIMIT) then some (c + 1) else none
  | none => none

/-- The best port among the first `n` for switch `w`: the smallest count, the lowest number on a tie (R189). -/
def bestPort (s : State) (w : Nat) : Nat → Option (Nat × Nat)
  | 0 => none
  | n + 1 =>
    match bestPort s w n, routeCount s w n with
    | some (p, c), some d => if d < c then some (n, d) else some (p, c)
    | none, some d => some (n, d)
    | b, none => b

/-- The best port and count for switch `w`: that of the pinned port only, where a pin stands (R189). -/
def wantedRoute (s : State) (w : Nat) : Option (Nat × Nat) :=
  let pin := s.reg Obj.PASS_ROUTE_PIN w
  if pin < 64 then (routeCount s w pin).map (fun c => (pin, c)) else bestPort s w 64

/-- Write the route of switch `w`; an unreachable switch's domain entry is cleared after 1 s (R188). -/
def putRoute (s : State) (w : Nat) (r : Option (Nat × Nat)) : State :=
  match r with
  | some (p, c) =>
    (s.setReg Obj.PASS_ROUTE w (at_ 31 1 + at_ 30 (b2n (s.reg Obj.PASS_ROUTE_PIN w < 64)) + at_ 29 (b2n (s.isSaddle p)) + at_ 8 (c % 16)
      + (if s.isSaddle p then 56 else p))).disarm ⟨.unreachable, w, 0⟩
  | none =>
    let s1 := s.setReg Obj.PASS_ROUTE w 0
    if s.reg Obj.PASS_DOMAIN_TABLE w = 0 then s1.disarm ⟨.unreachable, w, 0⟩
    else if s1.armed ⟨.unreachable, w, 0⟩ then s1 else s1.arm ⟨.unreachable, w, 0⟩ 1000000000

/-- The ports a route uses: both Saddle ports for the Saddle link (R189). -/
def State.routePorts (s : State) (w : Nat) : List Nat :=
  if !s.routeValid w then [] else if s.regBit Obj.PASS_ROUTE w 29 then [56, 60] else [s.regBits Obj.PASS_ROUTE w 0 6]

/-- Recompute the route of switch `w`: a valid route is kept while its port is up and some port still reaches `w`, unless
`force` (R189). -/
def recomputeRoute (force : Bool) (s : State) (w : Nat) : State :=
  if s.isOwn w then s
  else
    let kept := if force then none else ((s.routePorts w).filter s.passUp).head?
    match kept, wantedRoute s w with
    | some p, some (_, c) => putRoute s w (some (p, c))
    | _, r => putRoute s w r

/-- What ROUTE messages say: serials and hop counts. -/
def State.routeView (s : State) : List (Nat × Nat) := (List.range 16).map (fun w => (s.serialOf w, s.hopsTo w))

/-- Recompute all routes; when what ROUTE messages say has changed since `old`, ROUTE is sent (R188, R189). -/
def recomputeRoutes (s : State) (force : Bool) (old : List (Nat × Nat)) : State :=
  let s1 := forEach (List.range 16) s (recomputeRoute force)
  if s1.routeView = old then s1 else sendRoutes s1

/-- The Pass port a message for switch `w` leaves by, with `odd` the parity that shares the Saddle ports (R189, R338). -/
def State.routePort (s : State) (w : Nat) (odd : Bool) : Option Nat :=
  if !s.routeValid w then none
  else if s.regBit Obj.PASS_ROUTE w 29 then
    (if s.passUp 56 && s.passUp 60 then some (if odd then 60 else 56) else if s.passUp 56 then some 56 else if s.passUp 60 then some 60 else none)
  else some (s.regBits Obj.PASS_ROUTE w 0 6)

/-- A conflict of switch number `w` that port `p` brought (R188). -/
def recordConflict (s : State) (w p : Nat) : State :=
  let own := w == s.ownSwitch
  let s1 := s.setReg Obj.PASS_CONFLICT 0 (at_ 31 1 + at_ 30 (b2n own) + at_ 16 w + p)
  raise { s1 with pass := { s1.pass with ownConflict := if own then p :: s1.pass.ownConflict.filter (· != p) else s1.pass.ownConflict } } 6 5 p

/-- A port brings no conflict of the device's own number any more (R188). -/
def endConflict (s : State) (p : Nat) : State := { s with pass := { s.pass with ownConflict := s.pass.ownConflict.filter (· != p) } }

/-! ### Going down and coming back (R183 to R185) -/

/-- All timers of a Pass port stop. -/
def stopPassTimers (s : State) (p : Nat) : State :=
  { s with timers := s.timers.filter (fun e => !(e.1.a == p && [TimerKind.ack, .replay, .detect, .phase, .trainIdle, .config, .recovery, .goingDown, .probe].contains e.1.kind)) }

/-- Messages that the replay buffer or the transmit staging held (R185); an empty slot is of none. -/
def PassPort.lost (q : PassPort) : List Nat :=
  ((((q.buffer.foldl (fun (l : List Slot) (f : Kflit) => l ++ f.slots) []) ++ q.staging).filter (fun (x : Slot) => x.kind != 0)).map (fun (x : Slot) => x.mid)).eraseDups

/-- A message of a twin kind goes to the Basin again, toward a Saddle port. -/
def sendTwin (s : State) (p : Nat) (m : List Byte) : State :=
  let k := leField m 0 1
  if k = 0x40 ∨ k = 0x45 then sendMirrorMsg s (s.engineOf (sliceOf (leField m 16 8))) p m else if k = 0x41 then sendLog s p m else sendOwn s p m

/-- Messages of the twin kinds that wait in the Basin for a Saddle port. -/
def State.twinQueued (s : State) (p : Nat) : List (List Byte) :=
  (s.basinQueued p).filter (fun m => 0x40 ≤ leField m 0 1 && leField m 0 1 ≤ 0x45)

/-- What a Saddle port that goes down has not had acknowledged of mirror writes and log messages, and the messages of the
twin kinds that waited for it, go out again on the other Saddle port while that is Up (R338, R341); with both down they
wait, for as long as the pair is neither Split nor its partner lost (R24). -/
def saddleResend (s : State) (p : Nat) (msgs : List (List Byte)) : State :=
  let other := if p = 56 then 60 else 56
  if !s.isSaddle p then s
  else if s.passUp other then forEach msgs s (fun t m => sendTwin t other m)
  else if s.pairState = 2 ∨ s.pairState = 3 then forEach msgs s (fun t m => sendTwin t p m)
  else s

/-- Set the pair state. -/
def setPairState (s : State) (st : Nat) : State := s.setRegBits Obj.TWIN_STATE 0 29 3 st

/-- A HEARTBEAT has arrived, or a training frame that counts as one: the message signal is alive for 30 µs more (R347, R359). -/
def heardPartner (s : State) : State :=
  ({ s with twin := { s.twin with hbAt := s.now } }.putRegBit Obj.TWIN_STATE 0 26 true).arm ⟨.msgSilent, 0, 0⟩ 30000

/-- The pair enters Split (R348): mirroring stops, SADDLE_DOWN is raised, and with it the replace request. -/
def enterSplit (s : State) : State := raise (setPairState s 4) 11 2

/-- A Saddle port has gone down (R348): one of two raises SADDLE_PORT, the second leads to Split while the pin is alive. -/
def twinPortDown (s : State) (p : Nat) : State :=
  if !s.isSaddle p then s
  else if s.passUp 56 || s.passUp 60 then (if s.pairState = 3 then raise s 11 3 else s)
  else if (s.pairState = 2 ∨ s.pairState = 3) ∧ s.regBit Obj.TWIN_STATE 0 25 = true then enterSplit s
  else s

/-- The link-down actions of R185, the port entering state `next`: 0 Disabled, 1 Detect, 3 Config, 6 Held. -/
def passLinkDown (s : State) (p next : Nat) : State :=
  let q := s.passPort p
  let old := s.routeView
  let wasUp := s.passUp p
  let again := q.sent.map (·.2) ++ s.twinQueued p
  let s1 := ((settleFull s p false).count Obj.PASS_LOST_ON_DOWN p q.lost.length).setPass p freshPort
  let s2 := stopPassTimers (basinDiscard (stopLanes s1 p) p) p
  let s3 := setPassState ((((s2.setReg Obj.PASS_TX_STATE p 0).setReg Obj.PASS_RX_STATE p (at_ 12 4095)).setRegBits Obj.LANE_PORT_STATUS p 8 5 0).putRegBit Obj.LANE_PORT_STATUS p 15 false) p next
  let s4 := recomputeRoutes s3 false old
  let s5 := if next = 1 then s4.arm ⟨.detect, p, 0⟩ 12000000 else s4
  let s6 := raise ((if next = 6 then s5 else endConflict s5 p).count1 Obj.PASS_DOWNS p) 6 4 p
  saddleResend (if wasUp then twinPortDown s6 p else s6) p again

/-- The state a port that goes down enters: Detect, or Disabled where it may not train (R183). -/
def State.passAfterDown (s : State) (p : Nat) : Nat :=
  if s.firmware && !s.basin.stopped && s.isPass p && s.switchField != 0xFF && s.reg Obj.LANE_PORT_TEST p != 1 then 1 else 0

/-- Config with fresh link-layer state (R175, R180, R183): HELLO and ROUTE go out, and PROBE is due. -/
def enterConfig (s : State) (p : Nat) : State :=
  let s1 := stopPassTimers s p
  let s2 := ((setPassState s1 p 3).setReg Obj.PASS_TX_STATE p 0).setReg Obj.PASS_RX_STATE p (at_ 12 4095)
  let q := s.passPort p
  let s3 := (s2.setPass p { freshPort with nextTag := q.nextTag, lanes := q.lanes, prbs := q.prbs }).putRegBit Obj.PASS_LINK_STATE p 22 false
  let s4 := sendOwn (sendOwn s3 p (helloBytes s3 p)) p (routeBytes s3 p)
  (s4.arm ⟨.config, p, 0⟩ 10000000).arm ⟨.probe, p, 0⟩ 0

/-- The lanes of a port start their training frames anew in phase `ph` (R181, R182). -/
def startPhase (s : State) (p ph : Nat) : State :=
  let q := s.passPort p
  let lanes := q.lanes.map (fun l => (l.1, { l.2 with good := 0, readyRun := 0 }))
  s.setPass p { q with phase := ph, lanes := lanes }

/-- A lane at the start of training (R182). -/
def freshLane : LaneTrain := ⟨0, 0, false, false, false, false, ⟨false, false, false, 0, 0⟩, 4, 9, false, false, 0⟩

/-- Every lane of a port begins at the starting coefficients (R182). -/
def freshLanes (s : State) (p : Nat) : List (Nat × LaneTrain) := (List.range (s.portWidth p)).map (fun l => (l, freshLane))

/-- An Up port enters Recovery (R183, R184). -/
def enterRecovery (s : State) (p : Nat) : State :=
  if s.passState p = 4 then
    let q := s.passPort p
    let s1 := (holdSwaps s p).setPass p { q with linkCmd := 1, phase := 0, txBlocks := 0, rxBlocks := 0, lanes := (freshLanes s p).map (fun l =>
      match assocGet q.lanes l.1 with
      | some o => (l.1, { l.2 with pre := o.pre, post := o.post, inverted := o.inverted })
      | none => l) }
    let s2 := ((setPassState s1 p 5).disarm ⟨.ack, p, 0⟩).disarm ⟨.replay, p, 0⟩
    raise ((s2.arm ⟨.recovery, p, 0⟩ 10000000).count1 Obj.PASS_RECOVERIES p) 6 3 p
  else s

/-- A protocol error (R192): it is counted and raised, and an Up port enters Recovery. -/
def protocolError (s : State) (p : Nat) : State := enterRecovery (raise (s.count1 Obj.PASS_PROTOCOL_ERRORS p) 6 2 p) p

/-- A failed check in Config (R183, R184): LINK_CMD 2, then Held with the reason. -/
def holdPort (s : State) (p reason : Nat) : State := passGoDown s p reason 6

end Sys2Proof.Machine
end

