-- ==== Sys2Proof/Machine/LaneOps.lean ====
section
/-! DEFINITION. Shared operations of the lanes (03_lanes.md): reserve lanes, what training leaves in a lane, adaptation
timers. -/
namespace Sys2Proof.Machine

/-- Set RESERVE_STATE and RESERVE_LANE of a group. -/
def setReserve (s : State) (g st y : Nat) : State :=
  (s.setRegBits Obj.LANE_GROUP_STATUS g 12 2 st).setRegBits Obj.LANE_GROUP_STATUS g 8 4 y

/-- `LANE.RESERVE_GROUPS_USED` follows: the groups whose reserve is In use or Failed; the replace request may change (R94). -/
def countReserves (s : State) : State :=
  let n := ((List.range 16).filter (fun g => s.reserveState g == 2 || s.reserveState g == 3)).length
  report (s.setReg Obj.LANE_RESERVE_GROUPS_USED 0 n) .replace

/-- A Pass port that is Disabled and may train enters Detect (R183). -/
def letTrain (s : State) (p : Nat) : State :=
  if s.isPass p && s.passState p == 0 && s.passAfterDown p == 1 then (setPassState s p 1).arm ⟨.detect, p, 0⟩ 12000000 else s

/-- The twelve DFE taps as `LANE.DFE_TAPS` holds them: byte n is tap n + 1, signed. -/
def tapBytes (taps : List Int) : Nat := taps.foldr (fun t acc => unsigned t 8 + 256 * acc) 0

/-- The DFE taps a lane uses. -/
def State.taps (s : State) (lane : Nat) : List Int :=
  (List.range 12).map (fun i => signed (s.regBits Obj.LANE_DFE_TAPS lane (8 * i) 8) 8)

/-- The range of tap `i + 1` (R82). -/
def tapRange (i : Nat) : Int × Int := if i = 0 then (-64, 63) else (-32, 31)

/-- Values that training finds in a receiver (R82): nothing states them, so they come from a free value. -/
def foundTraining (n ffe : Nat) : Training :=
  ⟨n % 32, (List.range 12).map (fun i => if i = 0 then signed (n / 32) 7 else signed (n / 4096 / 64 ^ i) 6), ffe⟩

/-- FFE coefficients within R81, as the word of `LANE.TX_FFE` holds them. -/
def ffeWord (pre post : Nat) : Nat := at_ 12 pre + at_ 6 (63 - pre - post) + post

/-- Coefficients that training finds, from a free value (R81): every choice within the limits can be met. -/
def foundFfe (n : Nat) : Nat :=
  let pre := n % 16
  ffeWord pre (n / 16 % (22 - pre))

/-- A lane's receiver and transmitter take training values (R82, R84); a coefficient word fixed by MODE = 1 stays. -/
def loadTraining (s : State) (lane : Nat) (t : Training) : State :=
  let s1 := (s.setRegBits Obj.LANE_RX_STATE lane 0 5 t.ctle).setReg Obj.LANE_DFE_TAPS lane (tapBytes t.taps)
  if s1.regBit Obj.LANE_TX_FFE lane 31 then s1 else s1.setReg Obj.LANE_TX_FFE lane t.ffe

/-- The adaptation timers of a lane: element 0 the CTLE, 1 to 12 the taps; an adaptation step of each may come at once. -/
def armAdaptation (s : State) (lane : Nat) : State :=
  ((s.arm ⟨.adaptTap, lane, 0⟩ 10000).arm ⟨.adaptCtle, lane, 0⟩ 1000000)

/-- Training captures a lane's values, and adaptation runs from then on (R82). -/
def captureTraining (s : State) (lane : Nat) (t : Training) : State :=
  let s1 := loadTraining s lane t
  let s2 := { s1 with lane := { s1.lane with training := assocPut s1.lane.training lane t } }
  let s3 := armAdaptation s2 lane
  if s3.armed ⟨.margin, lane, 0⟩ then s3 else s3.arm ⟨.margin, lane, 0⟩ 1000000000

/-- A lane has been trained; its receiver's values are free, its coefficients `ffe`, or free too. -/
def trainLane (s : State) (lane : Nat) (ffe : Option Nat) : State :=
  (captureTraining s (s.transceiver lane) (foundTraining s.freeNow (ffe.getD (foundFfe (Config.freeValue (s.free + 1)))))).useFree.useFree

/-- A swap that waits for its port's training resumes from step 1 when the port is up (R92). -/
def resumeSwaps (s : State) (p : Nat) : State :=
  let g := p / 4
  match assocGet s.lane.swaps g with
  | some j =>
    if j.step = .waiting ∧ (s.portLanes p).contains (16 * g + j.lane) then
      let s1 := { s with lane := { s.lane with swaps := assocPut s.lane.swaps g { j with step := .shadowing, began := s.now } } }
      (if j.revert then s1 else setReserve s1 g 1 j.lane).arm ⟨.shadow, g, 0⟩ 5000000
    else s
  | none => s

/-! ### Counters that run with time (R86, R148, R161, R193) -/

/-- Every counter of an object that runs with time stands as it is now. -/
def settleFor (s : State) (a e : Nat) : State :=
  if a = Obj.BASIN_ADMIT_WAIT then settleWaits s
  else if a = Obj.SCHED_SHAPED_CYCLES then settleShaped s e (assocGet s.sched.heldSince e).isSome
  else if a = Obj.PASS_STALLED then settleFull s e (s.passPort e).full.isSome
  else if a = Obj.LANE_PRBS_ERRORS ∨ a = Obj.LANE_PRBS_BITS then settlePrbs s e
  else s

/-- All of them stand as they are now. -/
def settleAll (s : State) : State :=
  let s1 := forEach (s.sched.heldSince.map (·.1)) (settleWaits s) fun t e => settleShaped t e true
  let s2 := forEach (s1.pass.ports.map (·.1)) s1 fun t e => settleFull t e (t.passPort e).full.isSome
  forEach (s2.lane.prbsSince.map (·.1)) s2 settlePrbs

end Sys2Proof.Machine
end

