-- ==== Sys2Proof/Machine/Pam4.lean ====
section
/-! DEFINITION. What a lane carries (R86, R167, R181, R186): Gray-coded PAM4 symbols, the transfer blocks of a flit spread
over the lanes, the slack block, and the PRBS patterns. -/
namespace Sys2Proof.Machine

/-! ### Symbols (R167) -/

/-- The level that two bits are sent as: 00 level 0, 01 level 1, 11 level 2, 10 level 3. -/
def grayLevel (b : Nat) : Level := if b % 4 = 0 then 0 else if b % 4 = 1 then 1 else if b % 4 = 3 then 2 else 3

/-- The two bits of a level. -/
def grayBits (l : Level) : Nat := if l = 0 then 0 else if l = 1 then 1 else if l = 2 then 3 else 2

/-- The four symbols of a byte, bits 1..0 first. -/
def byteLevels (b : Byte) : List Level := (List.range 4).map (fun i => grayLevel (bits b.toNat (2 * i) 2))

/-- The symbols of a byte string, in byte order. -/
def levelsOf (bs : List Byte) : List Level := bs.flatMap byteLevels

/-- The byte of symbols `4 * i .. 4 * i + 3` of a lane; a missing symbol reads as level 0. -/
def levelByte (l : List Level) (i : Nat) : Byte :=
  BitVec.ofNat 8 ((List.range 4).foldl (fun n j => n + at_ (2 * j) (grayBits ((l[4 * i + j]?).getD 0))) 0)

/-! ### Transfer blocks (R79, R167) -/

/-- The bytes of a flit that logical lane `l` of a port of width `w` carries: transfer blocks l, l + w, l + 2w ... -/
def laneBytes (w l : Nat) (flit : List Byte) : List Byte := (List.range (128 / w)).flatMap (fun i => slice flit (4 * (l + w * i)) 4)

/-- A flit on the logical lanes of a port of width `w`. -/
def flitLanes (w : Nat) (flit : List Byte) : List (List Level) := (List.range w).map (fun l => levelsOf (laneBytes w l flit))

/-- The flit that the logical lanes of a port of width `w` bring. -/
def flitOfLanes (w : Nat) (lanes : List (List Level)) : List Byte :=
  (List.range 512).map (fun i => levelByte ((lanes[i / 4 % w]?).getD []) (4 * (i / 4 / w) + i % 4))

/-- The transfer blocks of a training frame, and those between two slack positions (R79, R181). -/
abbrev slackInterval : Nat := 4096

/-- The slack block 0xF0F0_0F0F_F0F0_0F0F (R186), its bytes little-endian as R7 stores a word (DEDUCED, log entry 78). -/
def slackLevels : List Level := levelsOf (leBytes 0xF0F00F0FF0F00F0F 8)

/-! ### PRBS (R86) -/

/-- The exponents of a pattern's polynomial, highest first: x^n + ... + 1. -/
def prbsTaps (pattern : Nat) : List Nat :=
  match pattern with
  | 0 => [7, 6]
  | 1 => [9, 5]
  | 2 => [13, 12, 2, 1]
  | 3 => [15, 14]
  | 4 => [23, 18]
  | _ => [31, 28]

/-- The degree of a pattern's polynomial. -/
def prbsOrder (pattern : Nat) : Nat := (prbsTaps pattern).headD 0

/-- The bit that follows the bits `past`, the latest first: the sum of those the polynomial names. -/
def prbsNext (pattern : Nat) (past : List Bool) : Bool := (prbsTaps pattern).foldl (fun b t => xor b ((past[t - 1]?).getD false)) false

/-- The errors among `rest` when each bit is compared with what follows from the bits before it, as the pattern gives them. -/
def prbsErrors (pattern : Nat) (past : List Bool) : List Bool → Nat
  | [] => 0
  | b :: rest =>
    let want := prbsNext pattern past
    b2n (b != want) + prbsErrors pattern (want :: past.take (prbsOrder pattern - 1)) rest

/-- The checker locks on bits it has received (R88): the first of them, as many as the polynomial's degree, seed it, and
the 64 that follow are without error. An inverted pattern is inverted on check. A seed of zeros starts no pattern. -/
def prbsLocks (pattern : Nat) (inverted : Bool) (received : List Bool) : Bool :=
  let bs := received.map (fun b => xor b inverted)
  let seed := bs.take (prbsOrder pattern)
  decide (bs.length = prbsOrder pattern + 64) && seed.contains true && prbsErrors pattern seed.reverse (bs.drop (prbsOrder pattern)) == 0

/-- The bits of the PRBS13Q pattern before it repeats. -/
abbrev prbs13Period : Nat := 8191

/-- The PRBS13Q bits of a training frame: 4,092 transfer blocks (R181). -/
abbrev frameBits : Nat := 4092 * 32

end Sys2Proof.Machine
end

