-- ==== Sys2Proof/Machine/Pass.lean ====
section
/-! DEFINITION. The flits of a Pass link (07_pass_links.md): sending and receiving, acknowledgement and replay. -/
namespace Sys2Proof.Machine

/-! ### Sending (R168, R169, R172, R178) -/

/-- The header of a flit as it is sent now (R168). -/
def flitHeader (s : State) (p ftype seq : Nat) (replayed : Bool) (slots : List Slot) : Nat :=
  let q := s.passPort p
  ftype + at_ 2 2 + at_ 4 seq + at_ 16 (s.rxAckPoint p) + at_ 28 (b2n q.replayReq) + at_ 29 (b2n replayed)
    + at_ 32 ((List.range 7).foldl (fun n i => n + at_ (2 * i) ((slots.map (fun (x : Slot) => x.kind)).getD i 0)) 0)
    + at_ 48 q.ownFreedReq + at_ 64 q.ownFreedRsp + at_ 80 (s.ownSwitch % 16) + at_ 84 p + at_ 92 q.linkCmd

/-- The 512 bytes of a flit (R164): header, slots, CRC, FEC parity. -/
def flitBytes (header : Nat) (slots : List Slot) : List Byte :=
  let body := (List.range 7).foldl (fun l i => l ++ padTo ((slots.map (fun (x : Slot) => x.data)).getD i []) 64) (leBytes header 24)
  fecEncode (body ++ leBytes (crc64 body) 8)

/-- Every lane of a port has sent `n` more transfer blocks: at a slack position the slack block follows (R79, R186). -/
def sentBlocks (s : State) (p n : Nat) : State :=
  let q := s.passPort p
  if q.txBlocks + n < slackInterval then s.setPass p { q with txBlocks := q.txBlocks + n }
  else (s.setPass p { q with txBlocks := 0 }).emit (.slack p slackLevels)

/-- Every lane of a port has received `n` more transfer blocks: the next slack position may be reached (R80, R186). -/
def receivedBlocks (s : State) (p n : Nat) : State :=
  let q := s.passPort p
  if q.rxBlocks + n < slackInterval then s.setPass p { q with rxBlocks := q.rxBlocks + n }
  else s.setPass p { q with rxBlocks := 0, rxSlack := true }

/-- The transfer blocks of a flit that one lane of a port carries (R167). -/
def State.flitBlocks (s : State) (p : Nat) : Nat := 128 / max 1 (s.portWidth p)

/-- A flit leaves on the lanes; a replay request and a LINK_CMD 1 go in one header only (R167, R176, R183). -/
def sendFlit (s : State) (p ftype seq : Nat) (replayed : Bool) (slots : List Slot) : State :=
  let q := s.passPort p
  let s1 := s.emit (.flit p (flitLanes (max 1 (s.portWidth p)) (flitBytes (flitHeader s p ftype seq replayed slots) slots)))
  sentBlocks (s1.setPass p { q with replayReq := false, linkCmd := if q.linkCmd = 1 then 0 else q.linkCmd }) p (s.flitBlocks p)

/-- An idle flit (R169). -/
def sendIdle (s : State) (p : Nat) : State := (sendFlit s p 1 (s.txNext p) false []).count1 Obj.PASS_TX_IDLE p


/-- A data flit is built, kept and sent (R169, R178). -/
def buildData (s : State) (p : Nat) : State :=
  let q := s.passPort p
  let seq := s.txNext p
  let slots := padSlots (q.staging.take 7)
  let s1 := s.setPass p { q with staging := q.staging.drop 7, buffer := q.buffer ++ [⟨seq, slots⟩] }
  let s2 := sendFlit s1 p 0 seq false slots
  let n := s.txOutstanding p
  let s3 := setOutstanding (s2.setRegBits Obj.PASS_TX_STATE p 24 12 (seq + 1)) p (n + 1)
  let s4 := if n = 0 then s3.arm ⟨.replay, p, 0⟩ (s3.reg Obj.PASS_REPLAY_TIMER p) else s3
  (if n + 1 = 512 then setTxMode s4 p 1 else s4).count1 Obj.PASS_TX_DATA p
where
  /-- Seven slots, empty ones after the last (R169). -/
  padSlots (l : List Slot) : List Slot := l ++ List.replicate (7 - l.length) ⟨0, List.replicate 64 0, 0⟩

/-- The pass at `ptr` goes on to the next flit, and ends when it reaches NEXT_TX (R178). -/
def passOn (s : State) (p ptr : Nat) : State :=
  let s1 := s.setRegBits Obj.PASS_TX_STATE p 36 12 ptr
  if ptr % 4096 = s1.txNext p then setTxMode s1 p (if s1.txOutstanding p = 512 then 1 else 0) else s1

/-- The next kept flit of a pass is sent again (R178). -/
def resend (s : State) (p : Nat) : State :=
  match (s.passPort p).buffer.find? (fun f => f.seq == s.txPtr p) with
  | some f => passOn ((sendFlit s p 0 f.seq true f.slots).count1 Obj.PASS_TX_REPLAYED p) p (f.seq + 1)
  | none => passOn (sendIdle s p) p (s.txNext p)

/-- A port in flit mode sends one flit: of what messages have started, an idle flit where there is none (R169, R178, R184). -/
def transmitFlit (s : State) (p : Nat) : State :=
  if (s.passPort p).downTo.isSome then sendIdle s p
  else if s.txMode p = 2 then resend s p
  else if s.txOutstanding p = 512 ∨ (s.passPort p).staging.isEmpty = true then sendIdle s p
  else buildData s p

/-! ### Receiving (R174 to R178, R180) -/

/-- The ack point advances (R176). -/
def advanceAck (s : State) (p : Nat) : State :=
  ((s.setRegBits Obj.PASS_RX_STATE p 12 12 (s.rxExpect p + 4095)).setRegBits Obj.PASS_RX_STATE p 25 6 0).disarm ⟨.ack, p, 0⟩

/-- Entry to ReplayWait (R176, R177). -/
def enterWait (s : State) (p : Nat) : State :=
  let s1 := (advanceAck s p).putRegBit Obj.PASS_RX_STATE p 31 true
  s1.setPass p { s1.passPort p with replayReq := true }

/-- A data flit is accepted by its number (R176, R177). -/
def acceptFlit (s : State) (p : Nat) : State :=
  let n := s.rxCount p + 1
  let s1 := ((s.setRegBits Obj.PASS_RX_STATE p 0 12 (s.rxExpect p + 1)).setRegBits Obj.PASS_RX_STATE p 25 6 n).putRegBit Obj.PASS_RX_STATE p 31 false
  let s2 := if n = 1 ∨ s1.armed ⟨.ack, p, 0⟩ = false then s1.arm ⟨.ack, p, 0⟩ (s1.reg Obj.PASS_ACK_TIMER p) else s1
  (if n = 32 then advanceAck s2 p else s2).count1 Obj.PASS_RX_ACCEPTED p

/-- ACK_SEQ of a good flit frees `d` flits (R178). -/
def freeAcked (s : State) (p a d : Nat) : State :=
  let q := s.passPort p
  let buffer := q.buffer.drop d
  let left := PassPort.lost { q with buffer := buffer }
  let passed := (s.txPtr p + 4096 - s.txAcked p) % 4096 < d
  let s1 := s.setPass p { q with buffer := buffer, sent := q.sent.filter (fun m => left.contains m.1) }
  let s2 := (s1.setRegBits Obj.PASS_TX_STATE p 12 12 (a + 1)).setRegBits Obj.PASS_TX_STATE p 0 8 0
  let n := s.txOutstanding p - d
  let s3 := setOutstanding s2 p n
  let s4 := if n = 0 then s3.disarm ⟨.replay, p, 0⟩ else s3.arm ⟨.replay, p, 0⟩ (s3.reg Obj.PASS_REPLAY_TIMER p)
  if s4.txMode p = 1 then setTxMode s4 p 0
  else if s4.txMode p = 2 ∧ passed then passOn s4 p ((a + 1) % 4096)
  else s4

/-- ACK_SEQ of a good flit acts, none where it is a protocol error (R178). -/
def takeAck (s : State) (p a : Nat) : Option State :=
  let d := (a + 1 + 4096 - s.txAcked p) % 4096
  if d = 0 then some s else if d ≤ s.txOutstanding p then some (freeAcked s p a d) else none

/-- The returned credits of a good header act, none where they exceed what is held (R180). -/
def takeCredits (s : State) (p req rsp : Nat) : Option State :=
  let q := s.passPort p
  if q.held 1 < (req + 65536 - q.freedReq) % 65536 ∨ q.held 2 < (rsp + 65536 - q.freedRsp) % 65536 then none
  else some (s.setPass p { q with freedReq := req, freedRsp := rsp })

/-- A pass that a request starts (R178, R192). -/
def requestedPass (s : State) (p : Nat) : State := raise ((startPass s p).count1 Obj.PASS_REPLAYS_REQ p) 6 1 p

/-- REPLAY_REQ of a good flit acts (R178). -/
def takeReplayReq (s : State) (p : Nat) : State :=
  if s.txMode p = 2 then (if s.txPtr p = s.txAcked p then s else requestedPass s p)
  else if 0 < s.txOutstanding p then requestedPass s p else s

/-- What one slot of an accepted flit does to the slot stream; none where it breaks R172, or the pool would overflow. -/
def feedSlot (s : State) (p kind : Nat) (data : List Byte) : Option State :=
  let q := s.passPort p
  match q.rxOpen, kind with
  | none, 0 => some s
  | none, 3 => none
  | none, c =>
    let len := leField data 2 2
    if len < 16 ∨ 1024 < len ∨ poolOverflows s p c (slotsOf len) = true then none
    else if slotsOf len = 1 then some (s.setPass p { q with rxPool := q.rxPool ++ [⟨c, data.take len⟩] })
    else some (s.setPass p { q with rxOpen := some ⟨c, slotsOf len - 1, data⟩ })
  | some m, 3 =>
    if m.left = 1 then
      let bytes := m.bytes ++ data
      some (s.setPass p { q with rxOpen := none, rxPool := q.rxPool ++ [⟨m.channel, bytes.take (leField bytes 2 2)⟩] })
    else some (s.setPass p { q with rxOpen := some ⟨m.channel, m.left - 1, m.bytes ++ data⟩ })
  | some _, _ => none

/-- The slots of an accepted flit feed the slot stream; the first breach is a protocol error (R172, R174 step 6). -/
def feedSlots (s : State) (p kinds : Nat) (body : List Byte) : List Nat → State
  | [] => s
  | i :: rest =>
    match feedSlot s p (bits kinds (2 * i) 2) (slice body (64 * i) 64) with
    | some t => feedSlots t p kinds body rest
    | none => protocolError s p

/-- The flit is classified by its sequence number (R177). -/
def classify (s : State) (p ftype seq kinds : Nat) (body : List Byte) : State :=
  let d := (seq + 4096 - s.rxExpect p) % 4096
  if ftype = 0 then
    if d = 0 then feedSlots (acceptFlit s p) p kinds body (List.range 7)
    else if d ≤ 511 then
      let s1 := s.count1 Obj.PASS_RX_GAP_DISCARDS p
      if s1.rxWait p then s1 else enterWait s1 p
    else if 3584 ≤ d then s.count1 Obj.PASS_RX_DUPLICATES p
    else protocolError s p
  else if d = 0 then s.putRegBit Obj.PASS_RX_STATE p 31 false
  else if d ≤ 512 then (if s.rxWait p then s else enterWait s p)
  else protocolError s p

/-- LINK_CMD of a good flit acts last (R174, R183, R184). -/
def takeLinkCmd (s : State) (p cmd : Nat) : State :=
  if cmd = 1 then enterRecovery s p
  else if cmd = 2 ∧ s.passState p ≠ 0 then
    passLinkDown (if (s.passPort p).downTo = some 6 then s else setPassReason s p 8) p ((s.passPort p).downTo.getD (s.passAfterDown p))
  else s

/-- A flit whose bytes are good: its fields act in the order of R174. -/
def goodFlit (s : State) (p : Nat) (bs : List Byte) : State :=
  let h := leField bs 0 24
  let v := bits h 2 2
  let found := (s.passPort p).version
  if 2 ≤ bits h 0 2 ∨ (if found = 0 then v ≠ 1 ∧ v ≠ 2 else v ≠ found) then protocolError s p
  else match takeAck s p (bits h 16 12) with
    | none => protocolError s p
    | some s1 => match takeCredits s1 p (bits h 48 16) (bits h 64 16) with
      | none => protocolError s1 p
      | some s2 =>
        let s3 := if bitAt h 28 then takeReplayReq s2 p else s2
        let s4 := classify s3 p (bits h 0 2) (bits h 4 12) (bits h 32 14) (bs.drop 24)
        takeLinkCmd s4 p (bits h 92 4)

/-- The flit fails its FEC or CRC (R174, R192). -/
def badFlit (s : State) (a p : Nat) : State := raise (s.count1 a p) 6 0 p

/-- The 512 bytes of a flit that has arrived are decoded, checked and taken (R174). -/
def takeFlit (s : State) (p : Nat) (raw : List Byte) : State :=
  match fecDecode raw with
  | none => badFlit s Obj.PASS_FEC_UE p
  | some (bs, fixes) =>
    let s1 := (s.count Obj.PASS_FEC_CORRECTED p fixes.sum).count1 Obj.PASS_FEC_HIST (5 * p + fixes.foldl max 0)
    if leField bs 472 8 ≠ crc64 (bs.take 472) then badFlit s1 Obj.PASS_CRC_ERRORS p else goodFlit s1 p bs

/-- `FLIT_RX` (R167, R174): in flit mode the lanes bring a flit. -/
def execFlitRx (dt port : Nat) (lanes : List (List Level)) (s : State) : Res := run dt s fun s =>
  if !s.isPass port || !(s.passState port == 3 || s.passState port == 4) then s
  else takeFlit (receivedBlocks s port (s.flitBlocks port)) port (flitOfLanes (max 1 (s.portWidth port)) lanes)

/-- `ACK_TIMER` (R176). -/
def execAckTimer (dt port : Nat) (s : State) : Res := run dt s fun s => s.onDue ⟨.ack, port, 0⟩ fun t => advanceAck t port

/-- The replay timer of a port has expired (R178). -/
def replayExpired (s : State) (p : Nat) : State :=
  let n := s.txCount p + 1
  let s1 := s.setRegBits Obj.PASS_TX_STATE p 0 8 n
  if s1.reg Obj.PASS_REPLAY_LIMIT p < n then protocolError s1 p
  else raise ((startPass (s1.arm ⟨.replay, p, 0⟩ (s1.reg Obj.PASS_REPLAY_TIMER p)) p).count1 Obj.PASS_REPLAYS_TIMER p) 6 1 p

/-- `REPLAY_TIMER` (R178, R192). -/
def execReplayTimer (dt port : Nat) (s : State) : Res := run dt s fun s =>
  s.onDue ⟨.replay, port, 0⟩ fun t => replayExpired t port

/-- `REPLAY_BUFFER_UE` (R184, R192): the port goes down with reason replay buffer error. -/
def execReplayBufferUe (dt port : Nat) (s : State) : Res := run dt s fun s =>
  if !s.isPass port || s.passState port == 0 || s.passState port == 6 then s
  else passGoDown (raise s 6 7 port) port 9 1

end Sys2Proof.Machine
end

