-- ==== Sys2Proof/Machine/PassTrain.lean ====
section
/-! DEFINITION. What a Pass port transmits, its training and the transitions of its link (R169, R181 to R185). -/
namespace Sys2Proof.Machine

/-- The reference of a port's group is held in reset (R30). -/
def State.refHeld (s : State) (p : Nat) : Bool := s.lane.held.contains (p / 4)

/-- A port that may not train has no business in Detect. -/
def State.mayTrain (s : State) (p : Nat) : Bool := s.passAfterDown p == 1 && !s.refHeld p

/-- `RECEIVER_DETECT` (R183): terminations on all lanes; training frames of phase 0 begin. -/
def execReceiverDetect (dt port : Nat) (s : State) : Res := run dt s fun s =>
  if s.passState port = 1 ∧ s.mayTrain port = true then
    let s1 := s.setPass port { s.passPort port with lanes := freshLanes s port, phase := 0 }
    let s2 := (setPassState (s1.disarm ⟨.detect, port, 0⟩) port 2).putRegBit Obj.PASS_LINK_STATE port 23 (s.portKind port == 3)
    (holdSwaps s2 port).arm ⟨.phase, port, 0⟩ 10000000
  else s

/-- `DETECT_TIMEOUT` (R183): nothing found within 12 ms; detection is repeated. -/
def execDetectTimeout (dt port : Nat) (s : State) : Res := run dt s fun s =>
  s.onDue ⟨.detect, port, 0⟩ fun t => if t.passState port = 1 then t.arm ⟨.detect, port, 0⟩ 12000000 else t

/-! ### Training words (R181) -/

/-- The CRC8 of a training word's bits 119..0 (R181). -/
def crc8 (w : Nat) : Nat := crcBits 8 7 0 (w % 2 ^ 120) 120

/-- The WIDTH code of a port (R181). -/
def widthCode (w : Nat) : Nat := if w = 4 then 0 else if w = 8 then 1 else 2

/-- A received training word is good for this port: CRC8, marker, generation and width (R162, R181). -/
def wordGood (s : State) (p w : Nat) : Bool :=
  bits w 120 8 == crc8 w && bits w 0 32 == 0x7E6AC3B5 && bits w 38 1 == b2n (s.portKind p == 3) && bits w 36 2 == widthCode (s.portWidth p)

/-- A coefficient moved by a request: 1 up, 2 down (R181). -/
def moved (c req : Nat) : Option Nat := if req = 1 then some (c + 1) else if req = 2 then (if c = 0 then none else some (c - 1)) else some c

/-- The partner's requests act on a lane's coefficients, unless they would break R81 (R181, R182). -/
def applyRequest (l : LaneTrain) (pre post : Nat) : LaneTrain :=
  if pre % 3 = 0 ∧ post % 3 = 0 then l
  else match moved l.pre pre, moved l.post post with
    | some a, some b => if a ≤ 15 ∧ b ≤ 21 ∧ a + b ≤ 21 then { l with pre := a, post := b, limit := false } else { l with limit := true }
    | _, _ => { l with limit := true }

/-- What the lane's own receiver reports, with its requests held to 256 (R182). -/
def ownReport (l : LaneTrain) (own : LaneReport) (phase : Nat) : LaneReport :=
  if phase ≠ 1 then { own with reqPre := 0, reqPost := 0 }
  else if 256 ≤ l.reqs then { own with reqPre := 0, reqPost := 0, eqDone := true }
  else own

/-- A lane takes a training frame (R181, R182). -/
def laneFrame (phase : Nat) (good : Bool) (w : Nat) (inverted : Bool) (own : LaneReport) (l : LaneTrain) : LaneTrain :=
  let r := ownReport l own phase
  let l1 := { l with own := r, reqs := if r.reqPre = 0 ∧ r.reqPost = 0 then l.reqs else l.reqs + 1 }
  if !good then { l1 with good := 0, readyRun := 0 }
  else
    let l2 := { l1 with rxLock := bitAt w 42, eqDone := bitAt w 43, ready := bitAt w 44, resume := bitAt w 45, inverted := inverted
                        good := if bitAt w 42 && r.lock then l.good + 1 else 0
                        readyRun := if bitAt w 44 && r.ready then l.readyRun + 1 else 0 }
    if phase = 1 then applyRequest l2 (bits w 66 2) (bits w 68 2) else l2

/-- The pre- and post-cursor that a lane of a Pass port uses: those that training has found so far, or fixed ones (R182). -/
def State.cursors (s : State) (p lane : Nat) (l : LaneTrain) : Nat × Nat :=
  let w := s.reg Obj.LANE_TX_FFE (s.transceiver (s.portFirstLane p + lane))
  if bitAt w 31 then (bits w 12 6, bits w 0 6) else (l.pre, l.post)

/-- The training word a lane sends (R181). -/
def sentWord (s : State) (p lane : Nat) (l : LaneTrain) (phase : Nat) : Nat :=
  let c := s.cursors p lane l
  let w := 0x7E6AC3B5 + at_ 32 lane + at_ 36 (widthCode (s.portWidth p)) + at_ 38 (b2n (s.portKind p == 3)) + at_ 39 phase
    + at_ 42 (b2n l.own.lock) + at_ 43 (b2n l.own.eqDone) + at_ 44 (b2n l.own.ready) + at_ 45 (b2n (s.passState p == 5)) + at_ 46 (b2n l.limit)
    + at_ 48 c.1 + at_ 54 (63 - c.1 - c.2) + at_ 60 c.2 + at_ 66 (l.own.reqPre % 4) + at_ 68 (l.own.reqPost % 4)
  w + at_ 120 (crc8 w)

/-- One training frame leaves on every lane: the word, PRBS13Q that goes on from the frame before, and the slack block
(R79, R181). -/
def sendFrames (s : State) (p phase : Nat) (lanes : List (Nat × LaneTrain)) : State :=
  let q := s.passPort p
  let s1 := forEach lanes s fun t l => t.emit (.trainingFrame p l.1 (levelsOf (leBytes (sentWord s p l.1 l.2 phase) 16)) q.prbs)
  sentBlocks (s1.setPass p { s1.passPort p with prbs := (q.prbs + frameBits) % prbs13Period }) p slackInterval

/-- What a Pass port transmits next in its state (R169, R181, R183). -/
def transmit (s : State) (p : Nat) : State :=
  let q := s.passPort p
  if s.passState p = 1 then sendFrames s p 0 (freshLanes s p)
  else if s.passState p = 2 then (if s.armed ⟨.trainIdle, p, 0⟩ then s else sendFrames s p q.phase q.lanes)
  else if s.passState p = 5 then (if q.linkCmd = 1 then sendIdle s p else sendFrames s p q.phase q.lanes)
  else if s.passState p = 3 ∨ s.passState p = 4 then transmitFlit s p
  else s

/-- `FLIT_TX` (R169, R172, R178, R181, R183, R184): a port sends its next flit, or training frame; for the first 1 µs of a
chip reset the ports that were in flit mode send idle flits with LINK_CMD 2. -/
def execFlitTx (dt port : Nat) (s : State) : Res := runPowered dt s fun s =>
  if !s.isPass port then s
  else if s.phase = .chipReset then
    (if s.now < s.boot.resetStart + 1000 ∧ (s.passPort port).downTo.isSome = true then sendIdle s port else s)
  else transmit s port

/-- The condition that ends a phase holds on every lane (R182). -/
def phaseEnds (q : PassPort) : Bool :=
  !q.lanes.isEmpty && q.lanes.all (fun l =>
    if q.phase = 0 then decide (8 ≤ l.2.good) else if q.phase = 1 then l.2.eqDone && l.2.own.eqDone else decide (8 ≤ l.2.readyRun))

/-- Training has ended: the coefficients found become the lanes' training values, and the port shows its width and rate (R182). -/
def captureLanes (s : State) (p : Nat) : State :=
  let s1 := forEach (s.passPort p).lanes s fun t l => trainLane t (t.portFirstLane p + l.1) (some (ffeWord l.2.pre l.2.post))
  let s2 := (s1.setRegBits Obj.LANE_PORT_STATUS p 8 5 (s1.portWidth p)).setRegBits Obj.LANE_PORT_STATUS p 0 3 (if s1.portKind p = 3 then 6 else 5)
  resumeSwaps s2 p

/-- Recovery ends with RESUME = 1 from both ends: Up again, with a pass at ACKED (R183, R184). -/
def resumeUp (s : State) (p : Nat) : State :=
  let s1 := (setPassState (s.disarm ⟨.recovery, p, 0⟩) p 4).setRegBits Obj.PASS_TX_STATE p 0 8 0
  let s2 := s1.setPass p { s1.passPort p with linkCmd := 0, txBlocks := 0, rxBlocks := 0, rxSlack := false }
  let s3 := if s2.txOutstanding p = 0 then s2 else (startPass s2 p).arm ⟨.replay, p, 0⟩ (s2.reg Obj.PASS_REPLAY_TIMER p)
  resumeSwaps s3 p

/-- The partner ended Recovery with RESUME = 0: the link-down actions, then Config with fresh state (R183, reason 7). -/
def partnerReset (s : State) (p : Nat) : State :=
  let t := passLinkDown (setPassReason s p 7) p 3
  enterConfig (t.setPass p { t.passPort p with lanes := (s.passPort p).lanes }) p

/-- The phase has ended (R182, R183). -/
def endPhase (s : State) (p : Nat) : State :=
  let q := s.passPort p
  if s.passState p = 5 then
    if q.phase = 0 then startPhase s p 2
    else if q.lanes.all (fun l => l.2.resume) then resumeUp s p
    else partnerReset s p
  else if q.phase = 0 then (startPhase s p 1).arm ⟨.phase, p, 0⟩ 20000000
  else if q.phase = 1 then (startPhase s p 2).arm ⟨.phase, p, 0⟩ 2000000
  else enterConfig (captureLanes s p) p

/-- A training frame reaches a lane of a port that trains (R181, R182, R359). -/
def frameEffect (s : State) (p lane w : Nat) (inverted : Bool) (own : LaneReport) : State :=
  let q := s.passPort p
  s.withSome (assocGet q.lanes lane) fun l =>
    let good := wordGood s p w
    let l1 := laneFrame q.phase good w inverted own l
    let s1 := s.setPass p { q with lanes := assocPut q.lanes lane l1 }
    let s2 := if good && lane == 0 then s1.putRegBit Obj.LANE_PORT_STATUS p 15 (bits w 32 4 == s.portWidth p - 1) else s1
    let s3 := if good && s.isSaddle p && s.passState p == 5 && bitAt w 45 then heardPartner s2 else s2
    let s4 := if lane = 0 then receivedBlocks s3 p slackInterval else s3
    if phaseEnds (s4.passPort p) then endPhase s4 p else s4

/-- `TRAINING_FRAME` (R181, R182, R183, R359). `lane` counts the port's own lanes from 0; `inverted` says that the marker
was found inverted. -/
def execTrainingFrame (dt port lane word : Nat) (inverted : Bool) (own : LaneReport) (s : State) : Res := run dt s fun s =>
  if (s.passState port = 2 ∧ s.armed ⟨.phase, port, 0⟩ = true) ∨ s.passState port = 5 then frameEffect s port lane word inverted own else s

/-- `TRAINING_PHASE_TIMEOUT` (R182): the failure is counted, and 1 ms of electrical idle begins. -/
def execTrainingPhaseTimeout (dt port : Nat) (s : State) : Res := run dt s fun s =>
  s.onDue ⟨.phase, port, 0⟩ fun t =>
    if t.passState port = 2 then ((setPassReason t port 1).count1 Obj.PASS_TRAIN_FAILS port).arm ⟨.trainIdle, port, 0⟩ 1000000 else t

/-- `TRAINING_IDLE_END` (R182): the port returns to Detect. -/
def execTrainingIdleEnd (dt port : Nat) (s : State) : Res := run dt s fun s =>
  s.onDue ⟨.trainIdle, port, 0⟩ fun t => if t.passState port = 2 then (setPassState t port 1).arm ⟨.detect, port, 0⟩ 12000000 else t

/-- `CONFIG_TIMEOUT` (R183): link-down actions, reason 2, and Detect. -/
def execConfigTimeout (dt port : Nat) (s : State) : Res := run dt s fun s =>
  s.onDue ⟨.config, port, 0⟩ fun t => if t.passState port = 3 then passLinkDown (setPassReason t port 2) port (t.passAfterDown port) else t

/-- `RECOVERY_TIMEOUT` (R183): link-down actions, reason 6, and Detect. -/
def execRecoveryTimeout (dt port : Nat) (s : State) : Res := run dt s fun s =>
  s.onDue ⟨.recovery, port, 0⟩ fun t => if t.passState port = 5 then passLinkDown (setPassReason t port 6) port (t.passAfterDown port) else t

/-- `LANE_LOCK_LOSS` (R183): an Up port enters Recovery. -/
def execLaneLockLoss (dt port lane : Nat) (s : State) : Res := run dt s fun s =>
  if s.isPass port && decide (lane < s.portWidth port) then enterRecovery s port else s

/-- `GOING_DOWN` (R184): the 1 µs of LINK_CMD 2 has ended; the link goes down and the port enters the state it chose. -/
def execGoingDown (dt port : Nat) (s : State) : Res := run dt s fun s =>
  s.onDue ⟨.goingDown, port, 0⟩ fun t =>
    match (t.passPort port).downTo with
    | some n => passLinkDown t port (if n = 1 then t.passAfterDown port else n)
    | none => t

end Sys2Proof.Machine
end

