-- ==== Sys2Proof/Machine/TwinOps.lean ====
section
/-! DEFINITION. Shared operations of the twin pair (13_twin_pairs.md): which allocations are paired, PAIR_INFO, mirror
writes, the directory log, unit marks. -/
namespace Sys2Proof.Machine

/-- The Saddle port that carries the traffic of an even or odd slice (R338): the other while one is not up, none with both down. -/
def State.saddlePort (s : State) (odd : Bool) : Option Nat :=
  let want := if odd then 60 else 56
  let other := if odd then 56 else 60
  if s.isSaddle want && s.passUp want then some want else if s.isSaddle other && s.passUp other then some other else none

/-- The lower Saddle port that is up (R338). -/
def State.lowSaddle (s : State) : Option Nat := s.saddlePort false

/-- The header of a message to the twin: `dtc` selects the element of `SCHED.DEVICE_TC` (R337). -/
def twinHeader (s : State) (kind channel dtc length : Nat) : List Byte :=
  passHeader kind channel (s.reg Obj.SCHED_DEVICE_TC dtc) none length (s.reg Obj.TWIN_PARTNER_SWITCH % 16) s.ownSwitch (s.reg Obj.PASS_HOP_LIMIT) 0

/-! ### PAIR_INFO (R336) -/

/-- A Live Home allocation that has a counterpart at the twin: a mirrored one, or a fronted one (R336). -/
def State.hasCounterpart (s : State) (i : Nat) : Bool :=
  s.allocState i == 1 && s.allocRole i == 0 && !s.guard.adopted.contains i && (s.allocMirrored i || decide (1024 ≤ s.allocFirst i))

/-- The 16 bytes of one allocation in PAIR_INFO (R337). -/
def pairEntry (s : State) (i : Nat) : List Byte :=
  leBytes (s.allocFirst i) 4 ++ leBytes (s.allocCount i) 4 ++ leBytes (s.allocRole i) 1
    ++ leBytes (b2n (s.allocMirrored i) + 2 * b2n (s.allocTracked i) + 4 * b2n (s.allocKeyed i) + 8 * b2n (s.allocShared i)) 1
    ++ leBytes (s.allocOwner i) 2 ++ List.replicate 4 0

/-- The PAIR_INFO messages over a list of allocations, 62 in each, at most `n` messages (R337). -/
def pairMessages (s : State) : Nat → List Nat → List (List Byte)
  | 0, _ => []
  | n + 1, l =>
    let now := l.take 62
    let body := leBytes now.length 2 ++ List.replicate 14 0 ++ now.foldl (fun b i => b ++ pairEntry s i) []
    (twinHeader s 0x43 2 2 (16 + body.length) ++ body) :: (if l.length ≤ 62 then [] else pairMessages s n (l.drop 62))

/-- PAIR_INFO goes out on the lower Up Saddle port (R336, R338). -/
def sendPairInfo (s : State) : State :=
  s.withSome s.lowSaddle fun p =>
    forEach (pairMessages s 67 ((s.elements Obj.TRACT_ALLOC_STATE).filter (fun i => s.hasCounterpart i))) s fun t m => sendOwn t p m

/-- An allocation is listed in `TWIN.UNPAIRED`, once, in the first empty element, and MISMATCH is raised (R336). -/
def markUnpaired (s : State) (first : Nat) : State :=
  let listed := (List.range 64).any (fun e => s.reg Obj.TWIN_UNPAIRED e == first)
  let s1 := { s with twin := { s.twin with paired := s.twin.paired.filter (· != first) } }
  let s2 := match (List.range 64).find? (fun e => s1.reg Obj.TWIN_UNPAIRED e == 0xFFFFFFFF) with
    | some e => if listed then s1 else s1.setReg Obj.TWIN_UNPAIRED e first
    | none => s1
  raise s2 11 5

/-- An allocation is paired, and no longer listed as unpaired. -/
def markPaired (s : State) (first : Nat) : State :=
  let s1 := forEach (List.range 64) s fun t e => if t.reg Obj.TWIN_UNPAIRED e = first then t.setReg Obj.TWIN_UNPAIRED e 0xFFFFFFFF else t
  { s1 with twin := { s1.twin with paired := first :: s1.twin.paired.filter (· != first) } }

/-! ### Mirroring and the log (R22, R339 to R344) -/

/-- Writes and directory changes of a home's paired allocations go to the twin: in Paired, and in Resync (R24, R360), until
the pair is Split or the partner is judged lost. -/
def State.mirroring (s : State) : Bool := s.pairState == 3 || s.pairState == 2

/-- The lines of an allocation are mirrored now (R22). -/
def State.mirrorsAlloc (s : State) (i : Nat) : Bool := s.mirroring && s.hasCounterpart i && s.allocMirrored i

/-- The directory changes of an allocation are logged now (R342). -/
def State.logsAlloc (s : State) (i : Nat) : Bool := s.mirroring && s.hasCounterpart i && s.allocTracked i

/-- A MIRROR_WR, or a RESYNC_DATA, for a line (R337, R339, R340). -/
def mirrorBytes (s : State) (kind k slot : Nat) (data : List Byte) (poison tracked : Bool) : List Byte :=
  twinHeader s kind 1 0 96 ++ leBytes k 8 ++ leBytes (at_ 31 (b2n poison) + at_ 30 (b2n tracked)) 4 ++ List.replicate 4 0
    ++ padTo (cipher s slot (keyLine k) data) 64

/-- The Saddle port that a message about an even or odd slice is for (R338): with both ports down, the one it waits for. -/
def State.twinPort (s : State) (odd : Bool) : Nat := (s.saddlePort odd).getD (if odd then 60 else 56)

/-- A mirrored write goes to the twin (R22, R338). -/
def sendMirror (s : State) (k slot : Nat) (data : List Byte) (poison tracked : Bool) : State :=
  (sendMirrorMsg s (s.engineOf (sliceOf k)) (s.twinPort (sliceOf k % 2 == 1)) (mirrorBytes s 0x40 k slot data poison tracked)).count1 Obj.TWIN_MIRROR_SENT 0

/-- Messages to the twin that a Saddle port has not had acknowledged: those started and those that wait in the Basin. -/
def State.unacked (s : State) : List (List Byte) :=
  [56, 60].foldl (fun l p => l ++ (s.passPort p).sent.map (·.2) ++ s.twinQueued p) []

/-- A mirror write of a line waits for its acknowledgement (R22). -/
def State.mirrorPending (s : State) (k : Nat) : Bool := s.unacked.any (fun m => leField m 0 1 == 0x40 && leField m 16 8 == k)

/-- The 32-byte records of a LOG message. -/
def logRecords (m : List Byte) : List (List Byte) := (List.range ((m.length - 16) / 32)).map (fun i => slice m (16 + 32 * i) 32)

/-- Log records that are not yet acknowledged, the open messages' own included (R343). -/
def State.heldRecords (s : State) : List (List Byte) :=
  (s.unacked.filter (fun m => leField m 0 1 == 0x41)).foldl (fun l m => l ++ logRecords m) [] ++ s.twin.openLog.foldl (fun l o => l ++ o.2) []

/-- The log buffer is full (R343). -/
def State.logFull (s : State) : Bool := decide (65536 ≤ s.heldRecords.length)

/-- The open LOG message of a Saddle port goes out (R342). -/
def flushLog (s : State) (p : Nat) : State :=
  match (assocGet s.twin.openLog p).getD [] with
  | [] => s
  | r :: rs =>
    let recs := r :: rs
    let s1 := ({ s with twin := { s.twin with openLog := assocDrop s.twin.openLog p } }).disarm ⟨.logFlush, p, 0⟩
    (sendLog s1 (s1.twinPort (p == 60)) (twinHeader s1 0x41 1 1 (16 + 32 * recs.length) ++ recs.foldl (· ++ ·) [])).count Obj.TWIN_LOG_SENT 0 recs.length

/-- A log record joins the open message of its Saddle port (R338, R342): TYPE, ARG, ENTRY; `odd` is the parity of its slice. -/
def addRecord (s : State) (type arg : Nat) (entry : List Byte) (odd : Bool) : State :=
  let p := if odd then 60 else 56
  let r := leBytes type 1 ++ [0, 0, 0] ++ leBytes s.twin.lsn 4 ++ leBytes arg 8 ++ padTo entry 16
  let old := (assocGet s.twin.openLog p).getD []
  let s1 := { s with twin := { s.twin with lsn := (s.twin.lsn + 1) % 2 ^ 32, openLog := assocPut s.twin.openLog p (old ++ [r]) } }
  let s2 := if old.isEmpty then s1.arm ⟨.logFlush, p, 0⟩ (s1.reg Obj.TWIN_LOG_FLUSH) else s1
  let s3 := if old.length + 1 = 31 then flushLog s2 p else s2
  if s.logFull = false ∧ s3.logFull = true then raise s3 11 0 else s3

/-- The reconcile unit of a line (R342): its tract and slice. -/
def unitOf (k : Nat) : Nat := keyTract k * 4096 + sliceOf k

/-- `TWIN.UNITS_DIRTY` as it stands: the units of paired tracked Home allocations that are not Clean (R344). -/
def unitsDirty (s : State) : Nat :=
  ((s.elements Obj.TRACT_ALLOC_STATE).filter (fun i => s.logsAlloc i)).foldl (fun n i => n + 4096 * s.allocCount i) 0
    - (s.twin.clean.filter (fun u => match s.liveAlloc (u / 4096) with
        | some i => s.logsAlloc i
        | none => false)).length

/-- A unit's UNIT_DIRTY record is not yet acknowledged (R344). -/
def State.dirtyPending (s : State) (u : Nat) : Bool :=
  s.heldRecords.any (fun r => leField r 0 1 == 3 && leField r 8 4 == u)

/-- Before the first change of a Clean unit it is marked Dirty and UNIT_DIRTY is sent (R344). -/
def announceUnit (s : State) (u : Nat) : State :=
  if s.twin.clean.contains u then
    addRecord { s with twin := { s.twin with clean := s.twin.clean.filter (· != u) } } 3 u [] (u % 2 == 1)
  else s

/-- A home entry of a logged line changes (R342, R344): ENTRY with the new entry, or ENTRY_FREE. -/
def logEntry (s : State) (k : Nat) (entry : Option (List Byte)) : State :=
  let s1 := { s with twin := { s.twin with changed := assocPut s.twin.changed (unitOf k) s.now } }
  match entry with
  | some e => addRecord s1 1 k e (sliceOf k % 2 == 1)
  | none => addRecord s1 2 k [] (sliceOf k % 2 == 1)

/-! ### Pair states (R347, R348, R360) -/

/-- KEY_XFER for the key of an allocation, wrapped under the pair key (R339); what the wrap yields is a free value. -/
def sendKey (s : State) (i : Nat) : State :=
  s.withSome s.lowSaddle fun p =>
    (sendOwn s p (twinHeader s 0x44 2 2 104 ++ leBytes (s.allocFirst i) 4 ++ List.replicate 12 0 ++ leBytes s.freeNow 72)).useFree

/-- The keys of all keyed allocations with a counterpart go to the twin (R339, R360 step 1). -/
def sendKeys (s : State) : State :=
  forEach ((s.elements Obj.TRACT_ALLOC_STATE).filter (fun i => s.hasCounterpart i && s.allocKeyed i)) s sendKey

/-- The pair enters Resync (R348, R360): a new pair key, the keys, PAIR_INFO; every unit starts Dirty (R344, R357). `sender`
says whether this side copies to its partner. -/
def enterResync (s : State) (sender : Bool) : State :=
  let s1 := (setPairState s 2).putRegBit Obj.TWIN_STATE 0 28 sender
  let s2 := { s1 with twin := { s1.twin with clean := [], twinClean := [], applied := [], openLog := [], pairKey := some (Config.pairKey (leBytes (s1.passPort 56).serial 16 ++ leBytes (s1.passPort 60).serial 16)) } }
  sendPairInfo (sendKeys (s2.setReg Obj.TWIN_RESYNC_PROGRESS 0 0))

/-- While a device receives a resync it keeps its other Pass ports in Held, reason 5 (R348, R360). -/
def holdOthers (s : State) : State :=
  forEach ((List.range 64).filter (fun p => s.isPass p && !s.isSaddle p && s.passState p != 0)) s fun t p => holdPort t p 5

/-- A Saddle port has reached Up (R336, R348): the first one sends PAIR_INFO. -/
def saddleUp (s : State) (p : Nat) : State :=
  if !s.isSaddle p then s
  else
    let other := if p = 56 then 60 else 56
    let s1 := s.setReg Obj.TWIN_PARTNER_SWITCH 0 (s.regBits Obj.PASS_LINK_STATE p 16 4)
    if s1.passUp other then s1 else sendPairInfo s1

/-- The pair is Paired (R336, R348): SADDLE_DOWN and TWIN_LOST clear. -/
def enterPaired (s : State) : State :=
  clearOwn (clearOwn ((setPairState s 3).putRegBit Obj.TWIN_STATE 0 28 false) 11 2) 11 1

end Sys2Proof.Machine
end

