-- ==== Sys2Proof/Machine/DirOps.lean ====
section
/-! DEFINITION. The directory (R250 to R256): entries, their ways in the directory store, the directory cache of each
engine, broken sets, the log of a paired line's changes. -/
namespace Sys2Proof.Machine

/-! ### Sets and ways (R250) -/

/-- A broken set (R255). -/
def State.brokenSet (s : State) (set : Nat) : Bool := (List.range (s.reg Obj.COH_BROKEN_SET_COUNT)).any (fun i => s.reg Obj.COH_BROKEN_SETS i == set)

/-- The lowest-numbered Invalid way of a set (R253). -/
def State.freeWay (s : State) (set : Nat) : Option Nat := (List.range 16).find? (fun w => bits (s.wayWord set w) 126 2 == 0)

/-- A line has a context in progress for its home or its proxy entry. -/
def State.ctxOn (s : State) (proxy : Bool) (k : Nat) : Bool := s.coh.ctxs.any (fun c => c.proxy == proxy && c.key == k)

/-- The way of a set that gives way (R253): the valid one with the fewest holders whose line has no context, the lowest on a tie. -/
def victimWay (s : State) (set : Nat) : Nat → Option Nat
  | 0 => none
  | n + 1 =>
    let w := s.wayWord set n
    let ok := bits w 126 2 != 0 && !s.ctxOn (wayProxy w) (wayKey w)
    match victimWay s set n with
    | none => if ok then some n else none
    | some v => if ok && decide (popcount w 80 < popcount (s.wayWord set v) 80) then some n else some v

/-! ### Reads and writes of the store (R255, R256) -/

/-- The valid ways of a set, of one kind. -/
def validWays (s : State) (set : Nat) (proxy : Bool) : Nat :=
  ((List.range 16).filter (fun w => bits (s.wayWord set w) 126 2 != 0 && wayProxy (s.wayWord set w) == proxy)).length

/-- `COH.DIR_USED` and `COH.DIR_PROXY` follow entries that come (`up`) or go; above the warning level DIR_HIGH is raised (R277). -/
def countEntries (s : State) (home proxy : Nat) (up : Bool) : State :=
  let f (x d : Nat) : Nat := if up then x + d else x - d
  let was := s.reg Obj.COH_DIR_USED
  let s1 := (s.setReg Obj.COH_DIR_USED 0 (f was (home + proxy))).setReg Obj.COH_DIR_PROXY 0 (f (s.reg Obj.COH_DIR_PROXY) proxy)
  let limit := 1610612736 * s.reg Obj.COH_DIR_WARN_PCT
  if 100 * was ≤ limit ∧ limit < 100 * s1.reg Obj.COH_DIR_USED then raise s1 9 1 else s1

/-- A set breaks (R255): it keeps no entries until chip reset; the 257th is Fatal. -/
def breakSet (s : State) (set : Nat) : State :=
  if s.brokenSet set then s
  else
    let n := s.reg Obj.COH_BROKEN_SET_COUNT
    let s1 := { s with coh := { s.coh with cache := s.coh.cache.filter (fun c => dirSet c.key != set) } }
    if 256 ≤ n then raise s1 9 4
    else raise ((s1.setReg Obj.COH_BROKEN_SETS n set).setReg Obj.COH_BROKEN_SET_COUNT 0 (n + 1)) 9 2

/-- Read the lines of a set; `lines` are those of its four that are read. A poisoned one breaks the set. -/
def readSet (s : State) (set : Nat) (lines : List Nat) : State :=
  let gone := (validWays s set false, validWays s set true)
  let r := lines.foldl (fun (a : State × Bool) i =>
    let x := readLine a.1 (wayAddr set 0 / 64 + i) 0
    (x.1, a.2 || x.2.poison)) (s, false)
  if r.2 then breakSet (countEntries r.1 gone.1 gone.2 false) set else r.1

/-- Write a way to the store, after the line that holds it has been read (R256). -/
def putWay (s : State) (set way w : Nat) : State :=
  let s1 := readSet s set [way / 4]
  let n := wayAddr set way / 64
  let old := if s1.lineTag n = 0xFFF then List.replicate 64 0 else s1.bytes (64 * n) 64
  if s1.brokenSet set then s1 else putLine s1 n ⟨splice old (16 * (way % 4)) (leBytes w 16), false, false, 0⟩

/-! ### The cache (R256) -/

/-- An entry leaves an engine's cache: a dirty one is written back to its way. -/
def uncache (s : State) (c : Cached) : State :=
  let s1 := { s with coh := { s.coh with cache := s.coh.cache.filter (· != c) } }
  if c.dirty then putWay s1 (dirSet c.key) c.way c.entry else s1

/-- The entries of an engine's cache in the cache set of a line, latest used first. -/
def State.cacheSet (s : State) (n k : Nat) : List Cached :=
  s.coh.cache.filter (fun c => c.engine == n && dirSet c.key % 1024 == dirSet k % 1024)

/-- Room for one more entry in a cache set: the least recently used way whose line has no context gives way. -/
def roomFor (s : State) (n k : Nat) : State :=
  if (s.cacheSet n k).length < 8 then s
  else s.withSome ((s.cacheSet n k).filter (fun c => !s.ctxOn (wayProxy c.entry) c.key)).getLast? (uncache s)

/-- An entry enters an engine's cache as the latest used; where every way's line has a context it is not cached, and goes
to its way in the store (R256). -/
def intoCache (s : State) (c : Cached) : State :=
  let s1 := roomFor s c.engine c.key
  if (s1.cacheSet c.engine c.key).length < 8 then { s1 with coh := { s1.coh with cache := c :: s1.coh.cache } }
  else if c.dirty then putWay s1 (dirSet c.key) c.way c.entry
  else s1

/-- A cached entry is used: it becomes the latest. -/
def useCached (s : State) (c : Cached) : State := { s with coh := { s.coh with cache := c :: s.coh.cache.filter (· != c) } }

/-- The entry of a line as it stands, wherever it is held; a broken set holds none. -/
def State.entNow (s : State) (n : Nat) (proxy : Bool) (k : Nat) : Ent :=
  if s.brokenSet (dirSet k) then Ent.invalid
  else match s.cachedEnt n proxy k with
    | some c => entOf c.entry
    | none => match s.storedWay proxy k with
      | some w => entOf (s.storeWord (dirSet k) w)
      | none => Ent.invalid

/-- Look a line's entry up (R254, R256): a hit uses the cached entry; a miss reads the set, unless `hint` says that the
line has no entry, and caches what it finds. -/
def lookupEnt (s : State) (n : Nat) (proxy : Bool) (k : Nat) (hint : Bool) : State :=
  if s.brokenSet (dirSet k) then s
  else match s.cachedEnt n proxy k with
    | some c => useCached (s.count1 Obj.COH_CACHE_HITS n) c
    | none =>
      let s1 := s.count1 Obj.COH_CACHE_MISSES n
      if hint then s1
      else
        let s2 := readSet s1 (dirSet k) [0, 1, 2, 3]
        if s2.brokenSet (dirSet k) then s2
        else match s2.storedWay proxy k with
          | some w => intoCache s2 ⟨n, k, s2.storeWord (dirSet k) w, w, false⟩
          | none => s2

/-- A new or changed entry of a line, in the cache (R253, R256): a new one takes the lowest Invalid way of its set, a
changed one is dirty, one without holders frees its way at once. -/
def storeEnt (s : State) (n : Nat) (proxy : Bool) (k : Nat) (e : Ent) : State :=
  let set := dirSet k
  if s.brokenSet set then s
  else match s.cachedEnt n proxy k with
    | some c =>
      let s1 := { s with coh := { s.coh with cache := s.coh.cache.filter (· != c) } }
      if e.st = 0 then countEntries (putWay s1 set c.way 0) (b2n !proxy) (b2n proxy) false
      else { s1 with coh := { s1.coh with cache := ⟨n, k, e.word proxy k, c.way, true⟩ :: s1.coh.cache } }
    | none => match s.storedWay proxy k with
      | some w =>
        if e.st = 0 then countEntries (putWay s set w 0) (b2n !proxy) (b2n proxy) false
        else intoCache s ⟨n, k, e.word proxy k, w, true⟩
      | none =>
        if e.st = 0 then s
        else match s.freeWay set with
          | some w => countEntries (intoCache s ⟨n, k, e.word proxy k, w, true⟩) (b2n !proxy) (b2n proxy) true
          | none => s

/-- The allocation whose directory changes are logged holds a line that this device homes under its own number (R342). -/
def State.loggedAlloc (s : State) (k : Nat) : Option Nat :=
  if keyHome k ≠ s.ownSwitch then none else match s.liveAlloc (keyTract k) with
    | some i => if s.logsAlloc i then some i else none
    | none => none

/-- Set a line's entry; a change of a home entry that is logged goes into the directory log (R256, R342). -/
def setEnt (s : State) (n : Nat) (proxy : Bool) (k : Nat) (e : Ent) : State :=
  if s.entNow n proxy k = e then s
  else
    let s1 := storeEnt s n proxy k e
    if !proxy && (s.loggedAlloc k).isSome then logEntry s1 k (if e.st = 0 then none else some (leBytes (e.word proxy k) 16)) else s1

/-- A new entry for the line would find no Invalid way. -/
def State.setFull (s : State) (n : Nat) (proxy : Bool) (k : Nat) : Bool :=
  (s.entNow n proxy k).st == 0 && !s.brokenSet (dirSet k) && (s.freeWay (dirSet k)).isNone

end Sys2Proof.Machine
end

