-- ==== Sys2Proof/Machine/CohOps.lean ====
section
/-! DEFINITION. Shared operations of the homes and proxies (10_coherence_flows.md, 11_races_and_progress.md): messages,
lines, contexts, snoops, hold windows, the aged table, lost lines. -/
namespace Sys2Proof.Machine

/-! ### Messages -/

/-- The Col array and its data path work: microprograms verified, Steppe Ready, no Fatal stop, and their domains not held in
reset (R30, R147, R329). -/
def State.cohRuns (s : State) : Bool := s.boot.ucodeOk && s.steppeReady && !s.basin.stopped && !s.coreHeld

/-- Engine `n` works: it does not stall for want of room at its internal port (R136). -/
def State.engineRuns (s : State) (n : Nat) : Bool := s.cohRuns && !engineStalled s n

/-- The tenancy of an agent: that of its port, or of its own for a PBR host (R364). -/
def State.agentTenancy (s : State) (a : Nat) : Option Nat :=
  if s.agentPbr a then (let v := s.reg Obj.TEN_PBR_BIND a; if v = 0xFFFF then none else some v) else s.portTenancy (s.agentPort a)

/-- The tenancy and generation that an agent's messages carry (R365, R369). -/
def State.stampTenancy (s : State) (a : Nat) : Option (Nat × Nat) := (s.agentTenancy a).map (fun t => (t, s.tenGen t))

/-- The requester of a message, as its home sees it (R265, R272). -/
def State.requesterOf (s : State) (m : CohMsg) : Requester :=
  if m.switch ≠ s.ownSwitch then .switch m.switch else if m.device then .device else .agent m.who

/-- The release sweep that a tract lies in (R234). -/
def State.releaseOf (s : State) (t : Nat) : Option Release :=
  s.guard.releases.find? (fun r => decide (r.first ≤ t) && decide (t < r.first + r.count))

/-- The tenancy that owns the tract of a line homed here, with its generation: none for a shared tract (R257, R365). In a
release sweep it is the tenancy that owned the tract before. -/
def State.snoopTenancy (s : State) (k : Nat) : Option (Nat × Nat) :=
  match s.releaseOf (keyTract k) with
  | some r => r.owner
  | none => match s.liveAlloc (keyTract k) with
    | some i => if s.allocShared i then none else some (s.allocOwner i, s.tenGen (s.allocOwner i))
    | none => none

/-- The tenancy tag of a coherence message in the Basin (R150): that of the line's tract, where the tract is this device's,
else the one the message carries. -/
def State.cohTenancy (s : State) (m : CohMsg) : Option Nat :=
  if s.isOwn (keyHome m.key) then (s.snoopTenancy m.key).map (·.1) else m.tenancy.map (·.1)

/-- The internal port behind the engine that serves a line (R19). -/
def State.linePort (s : State) (k : Nat) : Nat := colPort (s.engineOf (sliceOf k))

/-- A message of a line's engine leaves for another switch (R190): without a route it is dropped and counted. -/
def sendRemote (s : State) (m : CohMsg) : State :=
  match s.routePort m.dst (sliceOf m.key % 2 == 1) with
  | none => s.count1 Obj.PASS_NO_ROUTE_DROPS 0
  | some p => sendCoh s (s.linePort m.key) p (s.cohTenancy m) (pass1 s p m)

/-- The ingress or egress port of the unit that sent a request of this device (R19): the agent's port, or that of its Glen
channel. -/
def State.senderPort (s : State) (m : CohMsg) : Nat := if m.device then glenPort ((m.tenancy.map (·.1)).getD 0) else s.agentPort m.who

/-- The link channel an answer leaves by at an edge port (R127). -/
def answerChannel (m : CohMsg) : LinkChannel :=
  if m.device then .internal else if m.kind = 0x20 then .s2mDrs else if m.kind = 0x21 then .s2mNdr else .internal

/-- An answer goes through the Basin to the port agent whose request it answers. -/
def sendReply (s : State) (m : CohMsg) : State :=
  sendInside s (s.linePort m.key) .internal (s.cohTenancy m) [⟨s.senderPort m, answerChannel m, 0⟩] m (.flight ⟨.reply, m⟩)

/-- An answer to a request goes to the port agent it came from. -/
def sendAnswer (s : State) (m : CohMsg) : State := if m.dst = s.ownSwitch then sendReply s m else sendRemote s m

/-- The answer of a kind to a request (R257, R258, R369): DATA and CMP in the class of R150, NACK in TC7. -/
def answerOf (s : State) (m : CohMsg) (kind arg : Nat) (data : List Byte) : CohMsg :=
  { m with kind := kind, tc := if kind = 0x22 then 7 else s.memTc (m.tenancy.map (·.1)), dst := m.switch, src := s.ownSwitch
           hops := s.reg Obj.PASS_HOP_LIMIT, arg := arg, epoch := if kind = 0x22 then s.reg Obj.COL_EPOCH else 0, mask := 0, data := data }

/-- The ingress port of the Pass port agent that a remote switch's request came by: the route port to that switch, else the
management complex's internal port (DEDUCED, log entry 80). -/
def State.homePort (s : State) (m : CohMsg) : Nat := (s.routePort m.switch (sliceOf m.key % 2 == 1)).getD mgmtPort

/-- A remote switch's request is NACKed with MOVED (R269, R314): the NACK goes to the port agent of its Pass port in this
device, which keeps the request. -/
def nackHome (s : State) (m : CohMsg) : State :=
  let x := answerOf s m 0x22 5 []
  sendInside { s with coh := { s.coh with homeHeld := s.coh.homeHeld ++ [⟨m, x.epoch, false⟩] } } (s.linePort m.key) .internal (s.cohTenancy x)
    [⟨s.homePort m, .internal, 0⟩] x (.flight ⟨.home, x⟩)

/-- A request is NACKed (R269): with MOVED never across a Pass link. -/
def nack (s : State) (m : CohMsg) (reason : Nat) : State :=
  let s1 := s.count1 Obj.COH_NACKS reason
  if reason = 5 ∧ m.switch ≠ s.ownSwitch then nackHome s1 m else sendAnswer s1 (answerOf s m 0x22 reason [])

/-- The bytes of a poisoned answer, which the spec does not state: a free value. -/
def openData (s : State) : List Byte := leBytes s.freeNow 64

/-- A request is answered without its line: DATA with the given flags, or CMP (R242, R262). -/
def answerEmpty (s : State) (m : CohMsg) (flags : Nat) : State :=
  if m.reads then sendAnswer s.useFree (answerOf s m 0x20 flags (openData s)) else sendAnswer s (answerOf s m 0x21 (flags - bits flags 2 1 * 4) [])

/-! ### Lines -/

/-- The allocation that a release sweep releases and that held a tract (R234). -/
def State.releasingAlloc (s : State) (t : Nat) : Option Nat := (s.releaseOf t).map (·.alloc)

/-- The key slot of a line. -/
def State.lineSlot (s : State) (k : Nat) : Nat :=
  ((s.liveAlloc (keyTract k)).or (s.releasingAlloc (keyTract k))).elim 0 (fun i => s.allocSlot i)

/-- The line lies in a tracked tract (R230). -/
def State.trackedLine (s : State) (k : Nat) : Bool := (s.liveAlloc (keyTract k)).elim false (fun i => s.allocTracked i)

/-- Writes of the line are mirrored now, for a line this device homes under its own number (R22). -/
def State.mirroredLine (s : State) (k : Nat) : Bool :=
  keyHome k == s.ownSwitch && (s.liveAlloc (keyTract k)).elim false (fun i => s.mirrorsAlloc i)

/-- A home reads a line. -/
def readKey (s : State) (k : Nat) : State × LineRead := readHome s (keyLine k) (s.lineSlot k)

/-- A write of a page of a local tract is logged in every range that covers it (R371); `host` as in R371's HOSTS. -/
def logWrite (s : State) (n k : Nat) (host : Bool) : State :=
  forEach ((s.elements Obj.TEN_DLOG_RANGE).map (· / 8)).eraseDups s fun t u => logDirty t (4096 + n) u 1 (keyPage k) host

/-- A home writes a line (R206, R254, R268): the data under the line's key, TRACKED 0 where the same step frees the
entry, to the mirror and the dirty log too. -/
def writeKey (s : State) (n k : Nat) (data : List Byte) (poison frees host : Bool) : State :=
  let slot := s.lineSlot k
  let tracked := !frees && s.lineTracked (memLine (keyLine k))
  let s1 := writeHome s (keyLine k) slot data poison tracked
  let s2 := if s.mirroredLine k then sendMirror s1 k slot data poison tracked else s1
  logWrite s2 n k host

/-- A request that creates an entry finds TRACKED = 0 in a pool line: it is written back with TRACKED = 1 (R254). -/
def markTracked (s : State) (k : Nat) : State :=
  if keyTract k < 1024 ∧ s.lineTracked (memLine (keyLine k)) = false then
    let r := readKey s k
    writeHome r.1 (keyLine k) (s.lineSlot k) r.2.data r.2.poison true
  else s

/-- The bytes of `new` that `mask` selects over those of `old`. -/
def mergeBytes (mask : Nat) (old new : List Byte) : List Byte :=
  (List.range 64).map (fun i => if bitAt mask i then (new[i]?).getD 0 else (old[i]?).getD 0)

/-- A full or partial write of a line: a partial one merges with memory and leaves a poisoned line poisoned (R265, R268). -/
def applyWrite (s : State) (n : Nat) (m : CohMsg) (frees : Bool) : State :=
  if hasMask m.kind then
    let r := readKey s m.key
    writeKey r.1 n m.key (mergeBytes m.mask r.2.data m.data) (r.2.poison || m.flag 12) frees (!m.device)
  else writeKey s n m.key (padTo m.data 64) (m.flag 12) frees (!m.device)

/-- The CMP of a write that engine `n` has accepted in a context of class `cls`: at once, or after the Saddle
acknowledgement of a mirrored line (R22), until when the write keeps its context (R273). -/
def completeWrite (s : State) (n cls : Nat) (m : CohMsg) (grant : Nat) : State :=
  let a := answerOf s m 0x21 grant []
  if s.mirroredLine m.key then { s with coh := { s.coh with mirrorWait := s.coh.mirrorWait ++ [⟨n, cls, a⟩] } } else sendAnswer s a

/-! ### The aged table (R285, R286) -/

/-- An aged entry is that of a request. -/
def agedIs (n : Nat) (q : Requester) (m : CohMsg) (a : AgedEntry) : Bool := a.engine == n && a.key == m.key && a.who == q && a.tag == m.tag

/-- The aged entries of a line, oldest first. -/
def State.agedOf (s : State) (n k : Nat) : List AgedEntry := s.coh.aged.filter (fun a => a.engine == n && a.key == k)

/-- The request has an aged entry. -/
def State.hasAged (s : State) (n : Nat) (q : Requester) (m : CohMsg) : Bool := s.coh.aged.any (agedIs n q m)

/-- An aged request that is served leaves the table (R286). -/
def releaseAged (s : State) (n : Nat) (m : CohMsg) : State :=
  { s with coh := { s.coh with aged := s.coh.aged.filter (fun a => !agedIs n (s.requesterOf m) m a) } }

/-- An aged request comes again: its entry is as of now. -/
def touchAged (s : State) (n : Nat) (m : CohMsg) : State :=
  { s with coh := { s.coh with aged := s.coh.aged.map (fun a => if agedIs n (s.requesterOf m) m a then { a with last := s.now } else a) } }

/-- A request is NACKed, and an aged one recorded (R286); a full table turns it away with BUSY. -/
def refuse (s : State) (n : Nat) (m : CohMsg) (reason : Nat) : State :=
  let q := s.requesterOf m
  if !m.flag 9 || s.hasAged n q m then nack s m reason
  else if (s.coh.aged.filter (fun a => a.engine == n)).length < 64 then
    nack { s with coh := { s.coh with aged := s.coh.aged ++ [⟨n, m.key, q, m.tag, s.now⟩] } } m reason
  else nack (raise s 9 21) m 1

/-! ### Hold windows (R283, R284) -/

/-- The open hold window of a line. -/
def State.holdOn (s : State) (n k : Nat) : Option HoldWin := s.coh.holds.find? (fun h => h.engine == n && h.key == k && decide (s.now < h.until_))

/-- The window that ends first. -/
def firstEnd : List HoldWin → Option HoldWin
  | [] => none
  | h :: t => match firstEnd t with
    | none => some h
    | some g => some (if g.until_ < h.until_ then g else h)

/-- Room in an engine's hold table: when 128 windows are open, the one that ends first closes (R284). -/
def holdRoom (s : State) (n : Nat) : State :=
  let now := s.coh.holds.filter (fun h => decide (s.now < h.until_))
  let s1 := { s with coh := { s.coh with holds := now } }
  let mine := now.filter (fun h => h.engine == n)
  if mine.length < 128 then s1
  else match firstEnd mine with
    | some h => ({ s1 with coh := { s1.coh with holds := now.filter (· != h) } }).count1 Obj.COH_HOLD_OVERFLOW 0
    | none => s1

/-- A grant of S or E opens a hold window: longer for a remote switch by the round trip of its route port (R283). -/
def openHold (s : State) (n k : Nat) (q : Requester) : State :=
  let w := s.reg Obj.COH_HOLD_WINDOW
  if w = 0 then s
  else
    let extra := match q with
      | .switch r => (s.routePort r (sliceOf k % 2 == 1)).elim 0 (fun p => s.reg Obj.PASS_RTT p)
      | _ => 0
    let s1 := { s with coh := { s.coh with holds := s.coh.holds.filter (fun h => !(h.engine == n && h.key == k)) } }
    let s2 := holdRoom s1 n
    { s2 with coh := { s2.coh with holds := s2.coh.holds ++ [⟨n, k, q, s.now + w + extra⟩] } }

/-! ### Lost lines (R297) -/

/-- An entry of `COH.LOST_LOG`. -/
def lostWord (cause k : Nat) (h : Requester) : Nat :=
  at_ 62 cause + (match h with
    | .agent a => at_ 55 a
    | .switch r => at_ 61 1 + at_ 55 r
    | .device => 0) + k

/-- A lost line is counted, recorded and raised (steps 3 and 4). -/
def recordLost (s : State) (cause k : Nat) (h : Requester) : State :=
  raise (pushLog (s.count1 Obj.COH_LOST_LINES 0) Obj.COH_LOST_LOG 64 (lostWord cause k h)) 9 18

/-- A line is lost at its home: it is written poisoned, the holder leaves the entry, and it is recorded. -/
def loseLine (s : State) (n cause k : Nat) (h : Requester) : State :=
  let r := readKey s k
  let e := ((r.1.entNow n false k).drop h)
  let s1 := writeKey r.1 n k r.2.data true (e.st == 0) false
  recordLost (setEnt s1 n false k e) cause k h

/-- A message of a proxy Col on its own account to a line's home (R253, R296): EVICT_CLEAN or WRITEBACK_PTL; it names no
agent and no transaction. `t` is the tenancy, with its generation, of the holder that it is about, which is that of the
line's tract (R257). -/
def proxyMessage (s : State) (t : Option (Nat × Nat)) (k kind arg : Nat) (data : List Byte) : CohMsg :=
  { kind := kind, tc := 7, tenancy := t, dst := keyHome k, src := s.ownSwitch, hops := s.reg Obj.PASS_HOP_LIMIT, arg := arg, key := k
    agent := 64, switch := s.ownSwitch, tag := 0xFFFF, epoch := 0, mask := 0, data := data }

/-- The partner on the route to a switch is a forerunner: a VERSION 1 partner, to which only Pass-1 kinds go (R171, R258). -/
def State.towardForerunner (s : State) (r k : Nat) : Bool :=
  (s.routePort r (sliceOf k % 2 == 1)).elim false (fun p => s.regBit Obj.PASS_LINK_STATE p 22)

/-- A proxy loses the copy of one of its agents: an owner's loss is reported to the home as poison (R296, R300). -/
def loseAtProxy (s : State) (n k a : Nat) : State :=
  let e := s.entNow n true k
  let e1 := e.drop (.agent a)
  let s1 := setEnt s n true k e1
  let last := at_ 16 (b2n (e1.st == 0))
  if e.ownedBy (.agent a) then sendRemote s1 (proxyMessage s (s.stampTenancy a) k 8 (at_ 12 1 + last) (List.replicate 64 0))
  else if e1.st = 0 ∧ e.st ≠ 0 then sendRemote s1 (proxyMessage s (s.stampTenancy a) k 9 last [])
  else s1

/-- A Dead agent's bit in an entry is settled (R294, R295). -/
def settleBit (n : Nat) (proxy : Bool) (k : Nat) (s : State) (a : Nat) : State :=
  let e := s.entNow n proxy k
  if !e.lists (.agent a) then s
  else if proxy then loseAtProxy s n k a
  else if e.st = 2 then loseLine s n 0 k (.agent a)
  else setEnt s n false k (e.drop (.agent a))

/-- The Dead agents an entry lists are settled as it is touched (R295). -/
def settleDead (s : State) (n : Nat) (proxy : Bool) (k : Nat) : State :=
  forEach ((bitList (s.entNow n proxy k).sharers 64).filter (fun a => s.agentState a == 3)) s (settleBit n proxy k)

/-! ### Contexts (R264, R266, R287, R306) -/

/-- The context on a line's home or proxy entry. -/
def State.ctxOf (s : State) (proxy : Bool) (k : Nat) : Option Ctx := s.coh.ctxs.find? (fun c => c.proxy == proxy && c.key == k)

/-- Replace a line's context. -/
def putCtx (s : State) (c : Ctx) : State :=
  { s with coh := { s.coh with ctxs := s.coh.ctxs.map (fun d => if d.proxy = c.proxy ∧ d.key = c.key then c else d) } }

/-- A context closes; contexts that waited for its line's way look again. -/
def dropCtx (s : State) (c : Ctx) : State :=
  { s with coh := { s.coh with ctxs := (s.coh.ctxs.filter (fun d => !(d.proxy == c.proxy && d.key == c.key))).map (fun d =>
      if d.wait = .victim c.key then { d with wait := .none } else d) } }

/-- Contexts of a class an engine uses: those open, and those of writes that wait for the Saddle acknowledgement. -/
def State.ctxUse (s : State) (n cls : Nat) : Nat :=
  (s.coh.ctxs.filter (fun c => c.engine == n && c.class_ == cls)).length
    + (s.coh.mirrorWait.filter (fun c => c.engine == n && c.class_ == cls)).length

/-- An engine's ordinary contexts (R306). -/
def State.ordinary (s : State) : Nat := 16 - s.reg Obj.COH_AGED_CONTEXTS - s.reg Obj.COH_SNOOP_CONTEXTS

/-- Ordinary contexts of an engine that are free: background work runs on them too. -/
def State.ordinaryFree (s : State) (n : Nat) : Nat := s.ordinary - (s.ctxUse n 0 + s.ctxUse n 3)

/-- The class of context a request or a proxy snoop gets: its reserved contexts first, then an ordinary one (R306). -/
def State.contextFor (s : State) (n cls : Nat) : Option Nat :=
  let reserve := if cls = 1 then s.reg Obj.COH_AGED_CONTEXTS else if cls = 2 then s.reg Obj.COH_SNOOP_CONTEXTS else 0
  if s.ctxUse n cls < reserve then some cls else if 0 < s.ordinaryFree n then some 0 else none

/-- A context for background work (R306). -/
def State.backgroundFree (s : State) (n : Nat) : Bool := decide (s.ctxUse n 3 < s.reg Obj.COL_BG_CONTEXTS) && decide (4 ≤ s.ordinaryFree n)

/-! ### Snoops (R265, R266, R271, R294) -/


/-- The snoop of a kind that a home or proxy sends for request `m` (R257, R259): toward a switch that asks itself, EXCEPT
names its requesting agent. -/
def snoopMsg (s : State) (proxy : Bool) (kind : Nat) (m : CohMsg) (h : Requester) : CohMsg :=
  let except_ := match h with
    | .switch r => if m.switch = r ∧ m.device = false then at_ 16 m.who + at_ 22 1 else 0
    | _ => 0
  { m with kind := kind, tc := 7, tenancy := if proxy then m.tenancy else s.snoopTenancy m.key, src := s.ownSwitch
           dst := match h with
             | .switch r => r
             | _ => s.ownSwitch
           hops := s.reg Obj.PASS_HOP_LIMIT, arg := except_, epoch := 0, mask := 0, data := [] }

/-- A snoop can be sent to a holder now: a Live local agent, a reachable switch. -/
def State.snoopable (s : State) : Requester → Bool
  | .agent a => s.agentState a == 1
  | .switch r => s.routeValid r
  | .device => false

/-- The target of a snoop of a local agent: its port, with the agent as the rewrite index (R137). -/
def State.snoopTarget (s : State) (a : Nat) : Target := ⟨s.agentPort a, .biSnp, a⟩

/-- A back-invalidate of one kind leaves for local agents, in multicasts of at most 63 targets (R137, R138), `fuel` of them. -/
def fanOut (proxy : Bool) (kind : Nat) (m : CohMsg) : Nat → List Nat → State → State
  | 0, _, s => s
  | fuel + 1, l, s =>
    match l with
    | [] => s
    | a :: _ =>
      let now := l.take 63
      let x := snoopMsg s proxy kind m (.agent a)
      let s1 := s.count Obj.COH_SNOOPS_SENT (kind - 0x10) now.length
      fanOut proxy kind m fuel (l.drop 63) (sendInside s1 (s.linePort m.key) .internal (s.cohTenancy x) (now.map s.snoopTarget) x (.snoop x))

/-- A snoop leaves for its holder. -/
def sendSnoop (s : State) (proxy : Bool) (kind : Nat) (m : CohMsg) (h : Requester) : State :=
  match h with
  | .agent a => fanOut proxy kind m 1 [a] s
  | _ => sendRemote (s.count1 Obj.COH_SNOOPS_SENT (kind - 0x10)) (snoopMsg s proxy kind m h)

/-- The local agents that a list of snoops names with one kind. -/
def agentsOf (l : List (Requester × Nat)) (kind : Nat) : List Nat :=
  l.filterMap (fun x => match x.1 with
    | .agent a => if x.2 = kind then some a else none
    | _ => none)

/-- The snoops of a context are due: those of local agents go out by kind, in multicasts, those of switches one by one; a
holder that cannot take its snoop now is left out. -/
def issueSnoops (proxy : Bool) (m : CohMsg) (l : List (Requester × Nat)) (s : State) : State :=
  let now := l.filter (fun x => s.snoopable x.1)
  let s1 := forEach [0x10, 0x11, 0x12] s (fun t kind => fanOut proxy kind m 2 (agentsOf now kind) t)
  forEach now s1 fun t x => match x.1 with
    | .agent _ => t
    | _ => sendSnoop t proxy x.2 m x.1

/-- The open snoops of a fresh context. -/
def openSnoops (s : State) (l : List (Requester × Nat)) : List Snoop := l.map (fun x => ⟨x.1, x.2, s.now, s.snoopable x.1, false⟩)

/-- A context opens with its snoops. -/
def openCtx (s : State) (c : Ctx) (l : List (Requester × Nat)) : State :=
  let s1 := { s with coh := { s.coh with ctxs := s.coh.ctxs ++ [{ c with snoops := openSnoops s l }] } }
  issueSnoops c.proxy c.msg l s1

/-- Snoops of an agent that were due while it was in Grace are sent when its link returns (R107, R294). -/
def resumeSnoops (s : State) (a : Nat) : State :=
  forEach s.coh.ctxs s fun t c =>
    forEach (c.snoops.filter (fun x => x.holder == .agent a && !x.sent)) t fun u x =>
      let c1 := (u.ctxOf c.proxy c.key).getD c
      sendSnoop (putCtx u { c1 with snoops := c1.snoops.map (fun y => if y = x then { y with sent := true } else y) }) c.proxy x.kind c.msg x.holder

end Sys2Proof.Machine
end

