-- ==== Sys2Proof/Machine/HomeOps.lean ====
section
/-! DEFINITION. How a home serves requests (R262 to R272, R283 to R291, R313): the rows of R265, the checks before them, and
what a context does when its snoops have closed. -/
namespace Sys2Proof.Machine

/-! ### Lines taken over from a lost twin (R350 to R353) -/

/-- The line is homed under a lost twin's number. -/
def State.adoptedKey (s : State) (k : Nat) : Bool := keyHome k != s.ownSwitch

/-- The line is of an unreconciled unit and has not been reconciled itself (R352). -/
def State.unreconciledLine (s : State) (k : Nat) : Bool :=
  s.adoptedKey k && s.twin.unreconciled.contains (unitOf k) && !s.twin.done.contains k

/-- A line's holders are known again (R352). -/
def markReconciled (s : State) (k : Nat) : State :=
  if s.unreconciledLine k then { s with twin := { s.twin with done := k :: s.twin.done } } else s

/-- The entry a merge builds from the twin entry and the survivor's proxy entry (R351). -/
def mergedEnt (own : Nat) (twin proxy : Ent) : Ent :=
  if !bitAt twin.remote own then twin
  else
    let rest := putBit twin.remote own false
    if twin.st = 2 then ⟨if proxy.sharers = 0 then 0 else 2, rest, proxy.sharers⟩
    else Ent.tidy ⟨1, rest, Nat.lor twin.sharers proxy.sharers⟩

/-- Before its first serve a line of a lost twin's home is merged (R351). -/
def mergeLine (s : State) (n k : Nat) : State :=
  let twin := s.entNow n false k
  if s.adoptedKey k && bitAt twin.remote s.ownSwitch then
    let p := s.entNow n true k
    setEnt (setEnt s n false k (mergedEnt s.ownSwitch twin p)) n true k Ent.invalid
  else s

/-- Every possible sharer of an unreconciled line (R352): agents in Live or Grace whose port has BI, reachable switches. -/
def possibleSharers (s : State) : List Requester :=
  ((List.range 64).filter (fun a => (s.agentState a == 1 || s.agentState a == 2) && s.regBit Obj.EDGE_PORT_STATE (s.agentPort a) 9)).map Requester.agent
    ++ ((List.range 16).filter (fun r => !s.isOwn r && s.routeValid r)).map Requester.switch

/-- Every holder a broken set's line may have (R255): the Live agents and the reachable switches. -/
def anyHolders (s : State) : List Requester :=
  ((List.range 64).filter (fun a => s.agentState a == 1)).map Requester.agent
    ++ ((List.range 16).filter (fun r => !s.isOwn r && s.routeValid r)).map Requester.switch

/-! ### What a request asks for -/

/-- The entry as a request from its owner meets it: the owner dropped its copy clean (R265). -/
def seenBy (e : Ent) (q : Requester) : Ent := if e.ownedBy q then Ent.invalid else e

/-- The kind of the snoop that a device-side or host read sends to an owner (R258, R265, R272). -/
def curKind (s : State) (m : CohMsg) (h : Requester) : Nat :=
  if m.device then 0x10 else match h with
    | .switch r => if s.towardForerunner r m.key then 0x10 else 0x12
    | _ => 0x12

/-- Holders that a request snoops when it takes the line away from them: all but the asking agent (R265, R271). -/
def othersOf (e : Ent) (q : Requester) : List Requester := e.holders.filter (fun h => match q with
  | .agent _ => h != q
  | _ => true)

/-- The snoops a request needs in an entry's state, each with its kind (R265, R271). -/
def rowSnoops (s : State) (m : CohMsg) (q : Requester) (e : Ent) : List (Requester × Nat) :=
  let e0 := seenBy e q
  if m.shares then (if e0.st = 2 then e0.holders.map (fun h => (h, 0x11)) else [])
  else if m.owns then (othersOf e0 q).map (fun h => (h, 0x10))
  else if m.kind = 3 then (if e0.st = 2 then e0.holders.map (fun h => (h, curKind s m h)) else [])
  else if m.writes then e0.holders.map (fun h => (h, 0x10))
  else []

/-- The snoops of a request whose line's holders are not known (R255, R352): every one that is named, the requester too. A
local agent is not snooped for its own write, writeback or eviction, whose CMP its answer would wait for (R289; DEDUCED,
log entry 79). -/
def blindSnoops (m : CohMsg) (q : Requester) (l : List Requester) : List (Requester × Nat) :=
  let own (h : Requester) : Bool := decide (5 ≤ m.kind) && h == q && (match q with
    | .agent _ => true
    | _ => false)
  (l.filter (fun h => !own h)).map (fun h => (h, if m.kind = 1 ∨ m.kind = 3 then 0x11 else 0x10))

/-- The snoops of a request as the line stands. -/
def snoopPlan (s : State) (n : Nat) (m : CohMsg) : List (Requester × Nat) :=
  let q := s.requesterOf m
  if s.brokenSet (dirSet m.key) then blindSnoops m q (anyHolders s)
  else if s.unreconciledLine m.key then blindSnoops m q (possibleSharers s)
  else rowSnoops s m q (s.entNow n false m.key)

/-- The request wants an entry of its own in the line's set (R265). -/
def wantsEntry (m : CohMsg) : Bool :=
  m.shares || m.owns || (m.dirty && m.keep != 0)

/-- The request changes the line's entry, as it stands (R342). -/
def changesEntry (s : State) (n : Nat) (m : CohMsg) : Bool :=
  let e := s.entNow n false m.key
  let q := s.requesterOf m
  if m.shares then !(e.st == 1 && e.lists q)
  else if m.owns then !(e.ownedBy q)
  else if m.writes then e.st != 0
  else if m.kind == 4 then seenBy e q != e
  else if m.leaves then e.lists q || (e.st == 0 && m.dirty && m.keep != 0)
  else !(snoopPlan s n m).isEmpty

/-! ### The end of a request (R265, R267, R268) -/

/-- A grant is answered and opens a hold window (R283). -/
def grantTo (s : State) (n : Nat) (m : CohMsg) (kind g flags : Nat) (data : List Byte) : State :=
  let s1 := sendAnswer s (answerOf s m kind (g + flags) data)
  if g = 0 then s1 else openHold s1 n m.key (s.requesterOf m)

/-- DATA with a grant: the line as it is read now, POISON with a poisoned one (R268). -/
def answerData (s : State) (n : Nat) (m : CohMsg) (g : Nat) : State :=
  let r := readKey s m.key
  grantTo r.1 n m 0x20 g (at_ 2 (b2n r.2.poison)) r.2.data

/-- A request with READ_ONLY is counted (R267). -/
def countReadOnly (s : State) (m : CohMsg) : State := if (m.kind = 2 ∨ m.kind = 4) ∧ m.readOnly = true then s.count1 Obj.COH_READ_ONLY_GRANTS 0 else s

/-- A shared grant, or E where the line has no other holder and EXCL_OK allows it (R265). -/
def serveShared (s : State) (n : Nat) (m : CohMsg) : State :=
  let q := s.requesterOf m
  let e := seenBy (s.entNow n false m.key) q
  let g := if e.st = 0 ∧ m.kind = 1 ∧ m.flag 13 = true ∧ s.reg Obj.COH_EXCL_ON_READ = 1 then 2 else 1
  answerData (setEnt (markTracked s m.key) n false m.key (e.grant g q)) n m g

/-- Ownership (R265). -/
def serveOwn (s : State) (n : Nat) (m : CohMsg) : State :=
  let s1 := setEnt (markTracked s m.key) n false m.key (Ent.invalid.grant 2 (s.requesterOf m))
  if m.kind = 2 then answerData s1 n m 2 else grantTo s1 n m 0x21 2 0 []

/-- UPGRADE with READ_ONLY (R267): an owner that asks has dropped its copy (R265). -/
def serveReadOnlyUpgrade (s : State) (n : Nat) (m : CohMsg) : State :=
  let e := s.entNow n false m.key
  if e.st = 1 ∧ e.lists (s.requesterOf m) = true then grantTo s n m 0x21 1 0 []
  else grantTo (setEnt s n false m.key (seenBy e (s.requesterOf m))) n m 0x21 0 0 []

/-- A write that ends with no holder left (R265). -/
def serveWriteLine (s : State) (n cls : Nat) (m : CohMsg) (had : Bool) : State :=
  completeWrite (applyWrite (setEnt s n false m.key Ent.invalid) n m had) n cls m 0

/-- The entry after a holder's writeback or eviction (R265, R270): a local one by KEEP; a remote switch leaves on LAST only. -/
def afterLeave (e : Ent) (m : CohMsg) (q : Requester) : Ent :=
  match q with
  | .switch _ =>
    if m.flag 16 then e.drop q
    else if e.st = 2 ∧ m.dirty = true ∧ m.keep ≠ 2 then e.grant 1 q else e
  | _ => if m.keep = 0 then e.drop q else if e.st = 2 ∧ m.keep = 1 then e.grant 1 q else e

/-- A writeback's data is written, and the entry follows (R265). -/
def writeBack (s : State) (n cls : Nat) (m : CohMsg) (e : Ent) : State :=
  let e0 := s.entNow n false m.key
  completeWrite (applyWrite (setEnt s n false m.key e) n m (e0.st != 0 && e.st == 0)) n cls m 0

/-- A writeback or eviction of a line without entry (R265, R291). -/
def leaveInvalid (s : State) (n cls : Nat) (m : CohMsg) : State :=
  let q := s.requesterOf m
  if m.dirty then
    (if m.keep = 0 then writeBack s n cls m Ent.invalid else writeBack (markTracked s m.key) n cls m (Ent.invalid.grant (if m.keep = 1 then 1 else 2) q))
  else sendAnswer s (answerOf s m 0x21 0 [])

/-- A writeback or eviction of a listed holder (R265). -/
def leaveListed (s : State) (n cls : Nat) (m : CohMsg) : State :=
  let q := s.requesterOf m
  let e := s.entNow n false m.key
  if m.lossReport then sendAnswer (loseLine s n 3 m.key q) (answerOf s m 0x21 0 [])
  else if m.dirty = true ∧ e.st = 2 then writeBack s n cls m (afterLeave e m q)
  else sendAnswer (setEnt s n false m.key (afterLeave e m q)) (answerOf s m 0x21 0 [])

/-- A writeback or eviction of a holder that the entry of another does not list, outside any crossing (R265): it is
discarded; a holder that keeps a copy is snooped after the CMP. -/
def leaveUnlisted (s : State) (n : Nat) (m : CohMsg) : State :=
  let s1 := sendAnswer (s.count1 Obj.COH_STALE_WRITEBACKS 0) (answerOf s m 0x21 0 [])
  if m.dirty = true ∧ m.keep ≠ 0 then openCtx s1 ⟨n, m.key, false, .loose, m, [], .none, 0, true⟩ [(s.requesterOf m, 0x10)] else s1

/-- A writeback or eviction is served (R265, R291). -/
def serveLeave (s : State) (n cls : Nat) (m : CohMsg) : State :=
  let e := s.entNow n false m.key
  if e.st = 0 then leaveInvalid s n cls m else if e.lists (s.requesterOf m) then leaveListed s n cls m else leaveUnlisted s n m

/-- A request is served: every snoop it needed has closed. `cls` is the class of its context, 4 where it has none; `had`
says that its line had an entry when it came. -/
def serveNow (s : State) (n cls : Nat) (m : CohMsg) (had : Bool) : State :=
  let s1 := markReconciled (countReadOnly (releaseAged s n m) m) m.key
  if m.shares then serveShared s1 n m
  else if m.owns then serveOwn s1 n m
  else if m.kind = 4 then serveReadOnlyUpgrade s1 n m
  else if m.kind = 3 then answerData s1 n m 0
  else if m.writes then serveWriteLine s1 n cls m had
  else serveLeave s1 n cls m

/-! ### Evictions of the directory (R253, R345) -/

/-- A home or twin entry is a twin entry (R345): of the partner's lines while this device does not home them. -/
def State.twinEntry (s : State) (k : Nat) : Bool := !s.isOwn (keyHome k)

/-- The tenancy that the messages about a line's eviction carry (R257): that of the line's tract where it is homed here,
else that of its first local holder. -/
def State.evictTenancy (s : State) (k : Nat) (holders : List Requester) : Option (Nat × Nat) :=
  if s.isOwn (keyHome k) then s.snoopTenancy k
  else match holders with
    | .agent a :: _ => s.stampTenancy a
    | _ => none

/-- The victim of a set begins to leave: a twin entry at once, its unit Dirty in this device's marks; another with
back-invalidates to every holder. Answers the line whose context is to be waited for. -/
def beginEvict (s : State) (n set : Nat) : State × CtxWait :=
  match victimWay s set 16 with
  | none => match (s.coh.ctxs.find? (fun c => dirSet c.key == set)) with
    | some c => (s, .victim c.key)
    | none => (s, .none)
  | some way =>
    let w := s.wayWord set way
    let k := wayKey w
    let proxy := wayProxy w
    let s0 := s.count1 Obj.COH_DIR_EVICTIONS 0
    if !proxy && s.twinEntry k then
      (setEnt { s0 with twin := { s0.twin with twinClean := s0.twin.twinClean.filter (· != unitOf k) } } n false k Ent.invalid, .none)
    else
      let s1 := settleDead s0 n proxy k
      let hs := (s1.entNow n proxy k).holders
      if hs.isEmpty then (s1, .none)
      else (openCtx s1 ⟨n, k, proxy, .evict, proxyMessage s1 (s1.evictTenancy k hs) k 0x10 0 [], [], .none, 4, true⟩ (hs.map (fun h => (h, 0x10))), .victim k)

/-! ### Contexts that have no open snoop (R253, R266, R271, R344) -/

/-- The UNIT_DIRTY record of a line's unit is not yet acknowledged. -/
def State.unitWaits (s : State) (k : Nat) : Bool := (s.loggedAlloc k).isSome && s.dirtyPending (unitOf k)

/-- A context may go on by itself; one that has made a line free for the device side stays until that side takes the line
(R272). -/
def ctxReady (s : State) (c : Ctx) : Bool :=
  c.snoops.isEmpty && match c.wait with
    | .none => c.work != .device
    | .unit => c.work != .device && !s.unitWaits c.key
    | .victim _ => false

/-- The state a proxy reports when it has settled its agents (R271). -/
def aggregateState (kind : Nat) (e : Ent) : Nat := if kind = 0x10 then 0 else if kind = 0x11 then min 1 e.st else e.st

/-- A proxy answers its home's snoop. -/
def answerSnoop (s : State) (m : CohMsg) (st : Nat) : State :=
  sendRemote s { m with kind := 0x23, tc := 7, dst := m.src, src := s.ownSwitch, hops := s.reg Obj.PASS_HOP_LIMIT, arg := st + at_ 3 1, mask := 0, data := [] }

/-- A context whose snoops have closed ends: its request is served, its proxy answers, its line is free. A request whose
entry finds no way begins an eviction and waits on. -/
def completeCtx (s : State) (c : Ctx) : State :=
  match c.work with
  | .serve =>
    if wantsEntry c.msg && s.setFull c.engine false c.key then
      let r := beginEvict s c.engine (dirSet c.key)
      putCtx r.1 { c with wait := r.2 }
    else serveNow (dropCtx s c) c.engine c.class_ c.msg c.had
  | .proxy => answerSnoop (dropCtx s c) c.msg (aggregateState c.msg.kind (s.entNow c.engine true c.key))
  | .evict => dropCtx s c
  | .device => dropCtx s c
  | .loose => dropCtx s c
  | .release => dropCtx (markReconciled s c.key) c

/-- Contexts that may go on go on, at most `n` of them in turn. -/
def settleCtxs : Nat → State → State
  | 0, s => s
  | n + 1, s => match s.coh.ctxs.find? (ctxReady s) with
    | some c => settleCtxs n (completeCtx s c)
    | none => s

/-- Contexts that may go on go on. -/
def settle (s : State) : State := settleCtxs (2 * s.coh.ctxs.length + 2) s

/-- An open snoop of a context has closed. -/
def closeSnoop (s : State) (proxy : Bool) (k : Nat) (h : Requester) : State :=
  match s.ctxOf proxy k with
  | some c => putCtx s { c with snoops := c.snoops.filter (fun x => x.holder != h) }
  | none => s

/-! ### The way of a request through its home (R241, R264, R286, R290, R291) -/

/-- The tenancy whose windows and counters a failed request belongs to (R239, R242). -/
def failTenancy (s : State) (m : CohMsg) : Option Nat :=
  match s.requesterOf m with
  | .agent a => s.agentTenancy a
  | _ => m.tenancy.map (·.1)

/-- Step 1 of R241 at the home; a tract of a lost twin that the survivor has not taken over is unreachable (R353). -/
def step1 (s : State) (k : Nat) : Option Nat :=
  if s.tractReachable (keyTract k) && (!s.adoptedKey k || (s.liveAlloc (keyTract k)).elim false (fun i => s.allocHome i == keyHome k)) then none
  else some unreachable

/-- Step 2: the host can cache device-coherent memory. -/
def step2 (s : State) (m : CohMsg) : Option Nat := if m.flag 11 && s.trackedLine m.key then some notBi else none

/-- Step 5: ownership of the tract. -/
def step5 (s : State) (k : Nat) (t : Option Nat) : Option Nat :=
  if t.elim false (fun u => ownerOk s (keyHome k) (keyTract k) u) then none else some ownerFail

/-- The steps of R241 that a home makes for a request: all of them for a local agent or channel, 1, 2 and 5 for a remote one. -/
def homeGuard (s : State) (m : CohMsg) (write : Bool) : Option Nat :=
  match s.requesterOf m with
  | .agent a =>
    let t := s.agentTenancy a
    if t = none then some noTenancy
    else (step1 s m.key).or ((step2 s m).or ((requesterCheck s (.agent a t) (keyHome m.key) (keyTract m.key) (keyPage m.key) write).or (step5 s m.key t)))
  | .device =>
    let t := m.tenancy.map (·.1)
    (step1 s m.key).or ((requesterCheck s (.glen (t.getD 0)) (keyHome m.key) (keyTract m.key) (keyPage m.key) write).or (step5 s m.key t))
  | _ => (step1 s m.key).or ((step2 s m).or (step5 s m.key (m.tenancy.map (·.1))))

/-- What the guard makes of a request: it passes, perhaps as a read only, or fails for a reason (R241). EVICT_CLEAN carries
no access: of it only NOT_BI is looked at (R267). What a proxy sends on its own account is not checked. -/
def guardRequest (s : State) (m : CohMsg) : Except Nat CohMsg :=
  if m.device = true ∧ m.tag = 0xFFFF then .ok m
  else if m.kind = 9 then (step2 s m).elim (.ok m) .error
  else
    let write := m.kind == 5 || m.kind == 6 || m.kind == 7 || m.kind == 8
    match homeGuard s m write with
    | some r => .error r
    | none => if (m.kind = 2 ∨ m.kind = 4) ∧ (homeGuard s m true).isSome = true then .ok (m.put 10 true) else .ok m

/-- A request that fails the guard is answered; nothing else is done with it (R242, R267). A channel of this device learns the
reason (R395). -/
def answerFailed (s : State) (m : CohMsg) (reason : Nat) : State :=
  answerEmpty (if s.requesterOf m = .device then { s with glen := { s.glen with verdicts := assocPut s.glen.verdicts m.tag reason } } else s) m 4

/-- A failed request of a host is one part: it is counted and noted (R240, R242). -/
def failRequest (s : State) (m : CohMsg) (reason : Nat) : State := answerFailed (guardFail s (failTenancy s m) reason (decide (5 ≤ m.kind))) m reason

/-- The channel of a Glen access that a home is asked for: the requester is a device, and the tag that of a transaction. -/
def glenOf (m : CohMsg) : Option Nat := if m.device && m.tag != 0xFFFF then m.tenancy.map (·.1) else none

/-- The guard at the home: a host's request is judged by itself, an access of a Glen transfer with the part it is of (R240). -/
def guarded (s : State) (m : CohMsg) (pass : State → CohMsg → State) : State :=
  match glenOf m with
  | none => match guardRequest s m with
    | .error r => failRequest s m r
    | .ok m1 => pass s m1
  | some t =>
    let g := judgePart s m.switch t (decide (5 ≤ m.kind)) (m.key / 64) (match guardRequest s m with
      | .error r => some r
      | .ok _ => none)
    match g.2 with
    | some r => answerFailed g.1 m r
    | none => pass g.1 m

/-- A writeback that is not to be believed counts as an eviction: its data is discarded (R291, R369). -/
def asEviction (m : CohMsg) : CohMsg := { m with kind := 9, mask := 0, data := [], arg := m.arg }

/-- A write or writeback of a local agent carries an old generation (R369). -/
def State.staleGen (s : State) (m : CohMsg) : Bool :=
  5 ≤ m.kind && m.kind ≤ 8 && m.switch == s.ownSwitch && !m.device && m.tenancy.elim false (fun x => x.2 != s.tenGen x.1)

/-- The agent of a message is Dead, or marked suspect (R291, R295). -/
def State.agentDead (s : State) (m : CohMsg) : Bool := m.switch == s.ownSwitch && !m.device && s.agentState m.who == 3
/-- As above. -/
def State.agentSuspect (s : State) (m : CohMsg) : Bool := m.switch == s.ownSwitch && !m.device && s.regBit Obj.COH_AGENT_SUSPECT 0 m.who

/-- Messages of old generations, and of agents that are Dead or suspect, are changed into what they count as (R291, R295, R369). -/
def discount (s : State) (m : CohMsg) : State × CohMsg :=
  if s.staleGen m then (s.count1 Obj.TEN_STALE_GEN (m.tenancy.elim 0 (·.1)), asEviction (if m.writes then { m with arg := 0 } else m))
  else if m.dirty && (s.agentDead m || s.agentSuspect m) then
    (s.count1 Obj.COH_DEAD_DISCARDS 0, asEviction (if s.agentDead m then { m with arg := setBits m.arg 14 2 0 } else m))
  else (s, m)

/-- A line of an untracked tract (R263): memory is read or written, and what was asked is granted. A write to a mirrored
line uses a context of class `cls` (R264). -/
def serveUntracked (s : State) (n cls : Nat) (m : CohMsg) : State :=
  let s1 := countReadOnly (s.count1 (if s.mirroredLine m.key && !m.reads then Obj.COH_MICRO_PATH else Obj.COH_FAST_PATH) n) m
  let data (g : Nat) : State :=
    let r := readKey s1 m.key
    sendAnswer r.1 (answerOf r.1 m 0x20 (g + at_ 2 (b2n r.2.poison)) r.2.data)
  if m.kind = 1 then data (if m.flag 13 = true ∧ s.reg Obj.COH_EXCL_ON_READ = 1 then 2 else 1)
  else if m.kind = 2 then data (if m.readOnly then 1 else 2)
  else if m.kind = 3 then data 0
  else if m.kind = 4 then sendAnswer s1 (answerOf s1 m 0x21 (if m.readOnly then 0 else 2) [])
  else if m.kind = 9 then sendAnswer s1 (answerOf s1 m 0x21 0 [])
  else completeWrite (applyWrite s1 n m false) n cls m 0

/-- A writeback or eviction from a holder that a context snoops is taken by the context (R266). -/
def takenByCtx (s : State) (m : CohMsg) : Bool :=
  m.leaves && (s.ctxOf false m.key).elim false (fun c => c.snoops.any (fun x => x.holder == s.requesterOf m))

/-- The context takes it: data of an owner, or of a line whose holders are not known, is written; the entry follows; the
CMP goes out (R266). -/
def takeLeave (s : State) (n : Nat) (m : CohMsg) : State :=
  let e := s.entNow n false m.key
  if e.st = 0 then (if m.dirty then writeBack s n 4 m Ent.invalid else sendAnswer s (answerOf s m 0x21 0 []))
  else if e.lists (s.requesterOf m) then leaveListed s n 4 m
  else sendAnswer s (answerOf s m 0x21 0 [])

/-- A move is abandoned (R321, R322): the donor serves the slice again; a forced move is tried again 100 µs later. -/
def abandonMove (s : State) (slice : Nat) : State :=
  match s.moveOf slice with
  | none => s
  | some m =>
    let s1 := ({ s with col := { s.col with moves := s.col.moves.filter (fun x => x.slice != slice) } }).disarm ⟨.leaseDrain, slice, 0⟩
    let s2 := s1.count1 Obj.COL_LEASE_ABANDONED 0
    if m.why = .forced then s2.arm ⟨.forcedRetry, slice, 0⟩ 100000 else s2

/-- A request of a slice that drains is NACKed with BUSY (R321); an aged one makes a steal or a return give up, and is not
recorded while a forced move drains (R322). -/
def refuseDraining (s : State) (n : Nat) (m : CohMsg) : State :=
  match s.moveOf (sliceOf m.key) with
  | some v =>
    if v.why = .forced then nack s m 1
    else if m.flag 9 then refuse (abandonMove s (sliceOf m.key)) n m 1
    else nack s m 1
  | none => nack s m 1

/-- The hold window keeps a request of another requester out: it would snoop the grantee, or write the line (R283). -/
def heldOff (s : State) (n : Nat) (m : CohMsg) : Bool :=
  match s.holdOn n m.key with
  | none => false
  | some h =>
    h.grantee != s.requesterOf m && (m.writes || (snoopPlan s n m).any (fun x => x.1 == h.grantee)
      || (m.dirty && (s.entNow n false m.key).st == 0))

/-- The set evicts, and has no Invalid way (R253, R269). -/
def setEvicting (s : State) (k : Nat) : Bool :=
  s.coh.ctxs.any (fun c => c.work == .evict && dirSet c.key == dirSet k) && (s.freeWay (dirSet k)).isNone

/-- A mirrored line's write finds no room toward the twin (R32), or an earlier one awaits its acknowledgement (R23). -/
def mirrorBusy (s : State) (m : CohMsg) : Bool :=
  s.mirroredLine m.key && (s.mirrorPending m.key || (decide (5 ≤ m.kind) && decide (m.kind ≤ 8) && !fifoRoom s (s.linePort m.key) .req))

/-- The reason a tracked request is NACKed for as the line stands, after the context and the aged table (R269). -/
def nackReason (s : State) (n : Nat) (m : CohMsg) : Option Nat :=
  if heldOff s n m then some 3
  else if mirrorBusy s m then some 4
  else if (s.loggedAlloc m.key).isSome && changesEntry s n m && s.logFull then some 4
  else if setEvicting s m.key then some 6
  else none

/-- The lookup pipe can complete the request itself (R264). -/
def fastOk (s : State) (n : Nat) (m : CohMsg) (hit : Bool) : Bool :=
  hit && (snoopPlan s n m).isEmpty && !s.brokenSet (dirSet m.key) && (!s.mirroredLine m.key || m.reads)
    && !(wantsEntry m && s.setFull n false m.key)
    && !((s.loggedAlloc m.key).isSome && changesEntry s n m && (s.twin.clean.contains (unitOf m.key) || s.dirtyPending (unitOf m.key)))

/-- A request is counted by the path that serves it (R264). -/
def countPath (s : State) (n : Nat) (fast : Bool) : State := s.count1 (if fast then Obj.COH_FAST_PATH else Obj.COH_MICRO_PATH) n

/-- No eviction can make room in the set now: every way's line has a context. -/
def noVictim (s : State) (k : Nat) : Bool := (victimWay s (dirSet k) 16).isNone

/-- A request that snoops anyone is never granted E for a read (R265). -/
def withoutExcl (m : CohMsg) (l : List (Requester × Nat)) : CohMsg := if l.isEmpty then m else m.put 13 false

/-- A microcode context takes the request (R264, R306): the unit is announced, the snoops go out, and it goes on when
nothing is left to wait for. -/
def serveInCtx (s : State) (n cls : Nat) (m : CohMsg) : State :=
  let l := snoopPlan s n m
  let announce := (s.loggedAlloc m.key).isSome && changesEntry s n m
  let s1 := releaseAged (s.count1 Obj.COH_MICRO_PATH n) n m
  let s2 := if announce then announceUnit s1 (unitOf m.key) else s1
  settle (openCtx s2 ⟨n, m.key, false, .serve, withoutExcl m l, [], if announce then .unit else .none, cls, (s.entNow n false m.key).st != 0⟩ l)

/-- The context a request gets: an aged one takes a reserved context first (R306). -/
def State.requestContext (s : State) (n : Nat) (m : CohMsg) : Option Nat := s.contextFor n (if s.hasAged n (s.requesterOf m) m then 1 else 0)

/-- A request that nothing turns away is served by the lookup pipe or by a context (R264). -/
def admitRequest (s : State) (n : Nat) (m : CohMsg) (hit : Bool) : State :=
  if fastOk s n m hit then serveNow (s.count1 Obj.COH_FAST_PATH n) n 4 m ((s.entNow n false m.key).st != 0)
  else if wantsEntry m && s.setFull n false m.key && noVictim s m.key then refuse s n m 1
  else match s.requestContext n m with
    | none => refuse s n m 1
    | some cls => serveInCtx s n cls m

/-- The aged table keeps a request out: the line's oldest aged request goes first (R286). -/
def agedKeepsOut (s : State) (n : Nat) (m : CohMsg) : Bool :=
  match s.agedOf n m.key with
  | [] => false
  | a :: _ => !agedIs n (s.requesterOf m) m a

/-- A request that needs no entry of its own, and reads the line first (R254): RD_CUR and the writes. -/
def needsNoEntry (m : CohMsg) : Bool := m.kind == 3 || m.writes || (m.dirty && m.keep == 0)

/-- The lookup of a tracked line before request `m` is served: the hint of R254, the merge of R351, Dead holders. -/
def prepareLine (s : State) (n : Nat) (m : CohMsg) : State :=
  let hint := needsNoEntry m && decide (keyTract m.key < 1024) && !s.lineTracked (memLine (keyLine m.key))
  settleDead (mergeLine (lookupEnt s n false m.key hint) n m.key) n false m.key

/-- The line's entry is at hand: it hits, or the line has none (R264). -/
def lookupHits (s : State) (n k : Nat) : Bool :=
  (s.cachedEnt n false k).isSome || (decide (keyTract k < 1024) && !s.lineTracked (memLine (keyLine k)))

/-- A request of a tracked line is served, snooped, or NACKed (R264, R265, R286, R290). -/
def serveTracked (s : State) (n : Nat) (m : CohMsg) : State :=
  if takenByCtx s m then takeLeave s n m
  else if s.ctxOn false m.key || agedKeepsOut s n m then refuse s n m 2
  else
    let s1 := prepareLine s n m
    match nackReason s1 n m with
    | some r => refuse (if r = 4 ∧ s1.logFull = true then raise s1 11 0 else s1) n m r
    | none => admitRequest s1 n m (lookupHits s n m.key)

/-- Requests of a Dead agent receive GRANT I: a read is served as RD_CUR (R295). -/
def withoutGrant (s : State) (m : CohMsg) : CohMsg := if s.agentDead m && (m.kind == 1 || m.kind == 2) then { m with kind := 3 } else m

/-- An UPGRADE of a Dead agent gets CMP I (R295); its line's Dead holders are settled as it is touched. -/
def refuseUpgrade (s : State) (n : Nat) (m : CohMsg) : State :=
  if s.trackedLine m.key then
    (if s.ctxOn false m.key then refuse s n m 2 else let s1 := prepareLine s n m; sendAnswer s1 (answerOf s1 m 0x21 0 []))
  else sendAnswer s (answerOf s m 0x21 0 [])

/-- A request of an untracked line, or its NACK (R23, R32, R264). -/
def admitUntracked (s : State) (n : Nat) (m : CohMsg) : State :=
  if mirrorBusy s m then refuse s n m 4
  else if s.mirroredLine m.key && decide (5 ≤ m.kind) && decide (m.kind ≤ 8) then
    match s.requestContext n m with
    | some cls => serveUntracked s n cls m
    | none => refuse s n m 1
  else serveUntracked s n 4 m

/-- A request that has passed the guard. -/
def servePassed (s : State) (n : Nat) (m : CohMsg) : State :=
  let d := discount s m
  let m1 := withoutGrant s d.2
  if d.1.draining (sliceOf m.key) && !takenByCtx d.1 m1 then refuseDraining d.1 n m1
  else if d.1.agentDead m1 && m1.kind == 4 then refuseUpgrade d.1 n m1
  else if !d.1.trackedLine m.key then admitUntracked d.1 n m1
  else serveTracked (touchAged d.1 n m1) n m1

/-- A writeback or eviction of a line that a release sweep clears is accepted, and its data discarded (R234). -/
def releaseLeave (s : State) (n : Nat) (m : CohMsg) : State :=
  let s1 := lookupEnt s n false m.key false
  sendAnswer (setEnt s1 n false m.key (afterLeave (s1.entNow n false m.key) (asEviction m) (s.requesterOf m))) (answerOf s1 m 0x21 0 [])

/-- A request at its home (R262, R465): a tract that does not exist, and every tract in Start-up, is answered with NXM. -/
def serveHome (s : State) (n : Nat) (m : CohMsg) : State :=
  if s.devState = 0 ∨ s.tractExists (keyTract m.key) = false then answerEmpty (s.count1 Obj.COH_NXM 0) m 8
  else if s.releasing (keyTract m.key) && m.leaves then releaseLeave s n m
  else guarded s m (fun t m1 => servePassed t n m1)

/-! ### Device-side reads and writes (R272, R274, R276) -/

/-- A device-side request of this device for a line (R257): RD_CUR, WR_FULL or WR_PTL; `id` names the requester. -/
def deviceMsg (s : State) (kind k id mask : Nat) (data : List Byte) (poison : Bool) : CohMsg :=
  { kind := kind, tc := 0, tenancy := s.snoopTenancy k, dst := keyHome k, src := s.ownSwitch, hops := 0, arg := at_ 12 (b2n poison), key := k
    agent := 64, switch := s.ownSwitch, tag := id, epoch := 0, mask := mask, data := data }

/-- The context that `id` opened on a line has closed every snoop, and its unit is announced. -/
def deviceReady (s : State) (c : Ctx) (id : Nat) : Bool :=
  c.work == .device && c.msg.tag == id && c.snoops.isEmpty && !(c.wait == .unit && s.unitWaits c.key)

/-- The device side asks for a line at its home: it has it when no holder is in the way, with whether the line had an entry
when it asked; else the holders are snooped, or the line is busy, and the requester asks again. -/
def deviceOpen (s : State) (m : CohMsg) : State × Option Bool :=
  let k := m.key
  let n := s.engineOf (sliceOf k)
  if !s.engineRuns n then (s, none)
  else if !s.trackedLine k then (if mirrorBusy s m then (s, none) else (countPath s n (!s.mirroredLine k || m.reads), some false))
  else match s.ctxOf false k with
    | some c => if deviceReady s c m.tag then (settle (dropCtx s c), some c.had) else (s, none)
    | none =>
      if s.draining (sliceOf k) || !(s.agedOf n k).isEmpty then (s, none)
      else
        let s1 := prepareLine s n m
        let l := snoopPlan s1 n m
        let had := (s1.entNow n false k).st != 0
        if (nackReason s1 n m).isSome then (s1, none)
        else if l.isEmpty then (countPath s1 n (fastOk s1 n m (lookupHits s n k)), some had)
        else if (s1.contextFor n 0).isNone then (s1, none)
        else
          let announce := (s1.loggedAlloc k).isSome
          let s2 := if announce then announceUnit s1 (unitOf k) else s1
          (openCtx (countPath s2 n false) ⟨n, k, false, .device, m, [], if announce then .unit else .none, 0, had⟩ l, none)

/-- A device-side requester gives its access up: what it has begun ends by itself. -/
def abandonDevice (s : State) (id : Nat) : State :=
  settle { s with coh := { s.coh with ctxs := s.coh.ctxs.map (fun c => if c.work = .device ∧ c.msg.tag = id then { c with work := .release } else c) } }

/-- A device-side write of a line that no holder is in the way of; `had` says that it had an entry. -/
def deviceWrite (s : State) (m : CohMsg) (had : Bool) : State :=
  let n := s.engineOf (sliceOf m.key)
  applyWrite (if s.trackedLine m.key then setEnt s n false m.key Ent.invalid else s) n m had

/-! ### Requests at a proxy (R270, R369) -/

/-- A request of a local agent for a remote line: recorded, and on its way; a writeback or eviction updates the proxy
entry, and carries LAST when no local holder is left. -/
def forwardRequest (s : State) (n : Nat) (m : CohMsg) : State :=
  let q := Requester.agent m.who
  let s1 := settleDead (lookupEnt s n true m.key false) n true m.key
  let e := s1.entNow n true m.key
  let e1 := if m.leaves && !m.device then (if m.keep = 0 then e.drop q else if e.st = 2 ∧ m.keep = 1 then e.grant 1 q else e) else e
  let s2 := setEnt s1 n true m.key e1
  let m1 := if m.leaves then m.put 16 (e1.st == 0) else m
  let r : ProxyRec := ⟨m.key, m.agent, m.tag⟩
  sendRemote { s2 with coh := { s2.coh with records := r :: s2.coh.records.filter (· != r) } }
    { m1 with dst := keyHome m.key, src := s.ownSwitch, hops := s.reg Obj.PASS_HOP_LIMIT }

/-- A writeback or eviction from an agent that a proxy context snoops is taken by that context (R266, R271). -/
def takenByProxy (s : State) (m : CohMsg) : Bool :=
  m.leaves && (s.ctxOf true m.key).elim false (fun c => c.snoops.any (fun x => x.holder == .agent m.who))

/-- A proxy takes a request (R369): an old generation is not forwarded and gets CMP I. -/
def serveProxy (s : State) (n : Nat) (m : CohMsg) : State :=
  if !m.device && m.tenancy.elim false (fun x => x.2 != s.tenGen x.1) then
    sendAnswer (s.count1 Obj.TEN_STALE_GEN (m.tenancy.elim 0 (·.1))) (answerOf s m 0x21 0 [])
  else if s.draining (sliceOf m.key) && !takenByProxy s m then refuseDraining s n m
  else forwardRequest s n m

/-! ### Arrival (R313) -/

/-- A request reaches an engine: an epoch the engine has not seen, or a slice it does not serve, is NACKed with MOVED. -/
def acceptRequest (s : State) (n : Nat) (m : CohMsg) : State :=
  let slice := sliceOf m.key
  if 32768 ≤ (s.reg Obj.COL_EPOCH + 65536 - m.epoch % 65536) % 65536 then
    nack (raise (s.count1 Obj.COL_EPOCH_ERRORS 0) 10 0) m 5
  else if s.engineOf slice ≠ n then nack (s.count1 Obj.COL_MOVED_NACKS 0) m 5
  else
    let s1 := { s with col := { s.col with reqs := assocPut s.col.reqs slice ((assocGet s.col.reqs slice).getD 0 + 1) } }
    if s.isOwn (keyHome m.key) then serveHome s1 n m else serveProxy s1 n m

/-- An EVICT_CLEAN has no KEEP: those bits are reserved (R259). -/
def normalRequest (m : CohMsg) : CohMsg := if m.kind = 9 then { m with arg := setBits m.arg 14 2 0 } else m

/-- An engine takes a request now: it works, and a request for another switch finds room in its port's FIFO (R32, R136). -/
def takesRequest (s : State) (n : Nat) (m : CohMsg) : Bool :=
  s.engineRuns n && (s.isOwn (keyHome m.key) || fifoRoom s (colPort n) .req)

/-- A request message of a kind reaches an engine (R264, R288); while the engine does not work it stays on its way. -/
def requestArrives (kind col : Nat) (m : CohMsg) (s : State) : State :=
  if m.kind = kind ∧ takesRequest s col m = true then s.withSome (arrive s (.engine col) m) fun t => acceptRequest t col (normalRequest m) else s

end Sys2Proof.Machine
end

