-- ==== Sys2Proof/Machine/Home.lean ====
section
/-! DEFINITION. The coherence messages that reach Col engines: requests, snoops, snoop responses, and the end of mirrored
writes and announcements (R22, R264 to R271, R315, R344). -/
namespace Sys2Proof.Machine

/-- `RD_SHARED` (R265). -/
def execRdShared (dt col : Nat) (m : CohMsg) (s : State) : Res := run dt s (requestArrives 1 col m)

/-- `RD_OWN` (R265). -/
def execRdOwn (dt col : Nat) (m : CohMsg) (s : State) : Res := run dt s (requestArrives 2 col m)

/-- `RD_CUR` (R265). -/
def execRdCur (dt col : Nat) (m : CohMsg) (s : State) : Res := run dt s (requestArrives 3 col m)

/-- `UPGRADE` (R265). -/
def execUpgrade (dt col : Nat) (m : CohMsg) (s : State) : Res := run dt s (requestArrives 4 col m)

/-- `WR_FULL` (R265). -/
def execWrFull (dt col : Nat) (m : CohMsg) (s : State) : Res := run dt s (requestArrives 5 col m)

/-- `WR_PTL` (R265). -/
def execWrPtl (dt col : Nat) (m : CohMsg) (s : State) : Res := run dt s (requestArrives 6 col m)

/-- `WRITEBACK` (R265, R266). -/
def execWriteback (dt col : Nat) (m : CohMsg) (s : State) : Res := run dt s (requestArrives 7 col m)

/-- `WRITEBACK_PTL` (R265, R266, R296). -/
def execWritebackPtl (dt col : Nat) (m : CohMsg) (s : State) : Res := run dt s (requestArrives 8 col m)

/-- `EVICT_CLEAN` (R265, R266). -/
def execEvictClean (dt col : Nat) (m : CohMsg) (s : State) : Res := run dt s (requestArrives 9 col m)

/-! ### Snoops (R271, R282, R315) -/

/-- The agent a home's snoop leaves in place. -/
def exceptOf (m : CohMsg) : Option Nat := if m.flag 22 then some (bits m.arg 16 6) else none

/-- A home's snoop reaches its proxy engine (R271): no entry answers I at once; else every local holder but EXCEPT is
snooped. A snoop that finds no context, or its line's context open, waits in the engine's port (R292). -/
def proxySnoop (s : State) (n : Nat) (m : CohMsg) : State :=
  if s.ctxOn true m.key then s
  else
    let s1 := settleDead (lookupEnt s n true m.key false) n true m.key
    let hs := (s1.entNow n true m.key).holders.filter (fun h => (exceptOf m).elim true (fun a => h != .agent a))
    let went (t : State) : State := (arrive t (.engine n) m).getD t
    if hs.isEmpty then answerSnoop (went s1) m (aggregateState m.kind (s1.entNow n true m.key))
    else match s.contextFor n 2 with
      | none => s
      | some cls => openCtx (went s1) ⟨n, m.key, true, .proxy, m, [], .none, cls, true⟩ (hs.map (fun h => (h, m.kind)))

/-- A message that reaches engine `n`, which does not serve its slice, is passed on to the one that does (R315). -/
def toServer (s : State) (n : Nat) (m : CohMsg) : State :=
  let d := s.engineOf (sliceOf m.key)
  sendInside s (colPort n) .internal (s.cohTenancy m) [⟨colPort d, .internal, 0⟩] m (.flight ⟨.engine d, m⟩)

/-- A snoop reaches an engine. -/
def snoopAtProxy (s : State) (n : Nat) (m : CohMsg) : State :=
  if s.coh.flight.contains ⟨.engine n, m⟩ && s.engineRuns n then
    (if s.engineOf (sliceOf m.key) ≠ n then toServer ((arrive s (.engine n) m).getD s) n m else proxySnoop s n m)
  else s

/-- The BISnp of a snoop (R261). -/
def biName (kind : Nat) : String := if kind = 0x10 then "BISnpInv" else if kind = 0x11 then "BISnpData" else "BISnpCur"

/-- The BISnp leaves toward the host of an agent, with the BI-ID its host has programmed (R262); the record names the line
by its key. -/
def emitBisnp (s : State) (a : Nat) (m : CohMsg) : State :=
  s.emit (.toPort (s.agentPort a) (biName m.kind) [a, s.fnReg (s.agentPort a) 0 .biDecoder, m.key])

/-- Snoop slots in use at a port (R282). -/
def State.snoopsAt (s : State) (p : Nat) : Nat := (s.coh.snoops.filter (fun x => s.agentPort x.agent == p)).length

/-- A snoop reaches a port agent (R282): with a free slot it goes out to a Live agent's host, else it waits. -/
def snoopAtAgent (s : State) (a : Nat) (m : CohMsg) : State :=
  if s.agentState a = 1 ∧ s.carriesTraffic (s.agentPort a) = true ∧ s.snoopsAt (s.agentPort a) < 128 then
    s.withSome (arrive s (.agent a) m) fun t => emitBisnp { t with coh := { t.coh with snoops := t.coh.snoops ++ [⟨a, m, none⟩] } } a m
  else s

/-- A snoop of a kind reaches its target. -/
def snoopArrives (kind : Nat) (target : SnoopTarget) (m : CohMsg) (s : State) : State :=
  if m.kind ≠ kind then s
  else match target with
    | .proxy n => snoopAtProxy s n m
    | .agent a => snoopAtAgent s a m

/-- `SNP_INV` (R271, R282). -/
def execSnpInv (dt : Nat) (target : SnoopTarget) (m : CohMsg) (s : State) : Res := run dt s (snoopArrives 0x10 target m)

/-- `SNP_DATA` (R271, R282). -/
def execSnpData (dt : Nat) (target : SnoopTarget) (m : CohMsg) (s : State) : Res := run dt s (snoopArrives 0x11 target m)

/-- `SNP_CUR` (R271, R282). -/
def execSnpCur (dt : Nat) (target : SnoopTarget) (m : CohMsg) (s : State) : Res := run dt s (snoopArrives 0x12 target m)

/-! ### Snoop responses (R266, R271) -/

/-- The entry after a holder has answered a snoop of a kind with the state it keeps (R265, R271). -/
def afterSnoop (e : Ent) (kind st : Nat) (h : Requester) : Ent :=
  if st = 0 ∨ kind = 0x10 then e.drop h else if kind = 0x12 ∧ st = 2 then e else e.grant 1 h

/-- Who answers: a switch, each answer of which stands for all of it, a forerunner's too (R271), or a local agent. -/
def State.answererOf (s : State) (m : CohMsg) : Requester := if m.src ≠ s.ownSwitch then .switch m.src else .agent m.who

/-- A snoop of a context is answered: the entry follows, except for a holder that is Dead, or that was never listed. An
eviction of a proxy entry that this answer empties ends with EVICT_CLEAN and LAST (R253). -/
def answeredSnoop (s : State) (c : Ctx) (x : Snoop) (st : Nat) : State :=
  let dead := match x.holder with
    | .agent a => s.agentState a == 3
    | _ => false
  let e := s.entNow c.engine c.proxy c.key
  let e1 := if c.work = .loose then e else afterSnoop e x.kind (if dead then 0 else st) x.holder
  let s1 := closeSnoop (setEnt s c.engine c.proxy c.key e1) c.proxy c.key x.holder
  let s2 := if c.work = .evict ∧ c.proxy = true ∧ e.st ≠ 0 ∧ e1.st = 0 then sendRemote s1 (proxyMessage s1 c.msg.tenancy c.key 9 (at_ 16 1) []) else s1
  settle s2

/-- A SNP_RSP reaches an engine (R266, R294): one whose context has closed is discarded and counted. -/
def snoopResponse (s : State) (n : Nat) (m : CohMsg) : State :=
  let proxy := !s.isOwn (keyHome m.key)
  match s.ctxOf proxy m.key with
  | none => s.count1 Obj.COH_LATE_ANSWERS 0
  | some c => match c.snoops.find? (fun x => x.holder == s.answererOf m) with
    | some x => if c.engine = n then answeredSnoop s c x m.state else s.count1 Obj.COH_LATE_ANSWERS 0
    | none => s.count1 Obj.COH_LATE_ANSWERS 0

/-- `SNP_RSP` (R266, R271, R315). -/
def execSnpRsp (dt col : Nat) (m : CohMsg) (s : State) : Res := run dt s fun s =>
  if m.kind = 0x23 ∧ s.engineRuns col = true then
    s.withSome (arrive s (.engine col) m) fun t => if t.engineOf (sliceOf m.key) ≠ col then toServer t col m else snoopResponse t col m
  else s

/-! ### Mirrored writes and announcements (R22, R24, R344) -/

/-- `MIRRORED_WRITE_COMPLETE` (R22, R24): the line's mirror write is acknowledged, or mirroring has stopped; its completions leave. -/
def execMirroredWriteComplete (dt key : Nat) (s : State) : Res := run dt s fun s =>
  if s.mirrorPending key && s.mirroring then s
  else
    let done := (s.coh.mirrorWait.filter (fun w => w.msg.key == key)).map (·.msg)
    settle (forEach done { s with coh := { s.coh with mirrorWait := s.coh.mirrorWait.filter (fun w => w.msg.key != key) } } sendAnswer)

/-- `UNIT_DIRTY_ACKED` (R344): the Pass acknowledgement covers the announcement, and the requests that waited go on. -/
def execUnitDirtyAcked (dt unit : Nat) (s : State) : Res := run dt s fun s => if s.dirtyPending unit then s else settle s

end Sys2Proof.Machine
end

