-- ==== Sys2Proof/Machine/AgentOps.lean ====
section
/-! DEFINITION. Shared operations of the port agents (R260 to R262, R279 to R282, R299 to R302): addresses, transactions,
what the host sees. -/
namespace Sys2Proof.Machine

/-! ### Addresses (R235, R236) -/

/-- The line key of an offset within a decoder; none past the tract numbers a key can name. -/
def State.decKey (s : State) (a d x : Nat) : Option Nat :=
  let t := s.regBits Obj.TRACT_DECODER (8 * a + d) 0 20 + x / 2 ^ 28
  if t < 2 ^ 19 then some (s.regBits Obj.TRACT_DECODER (8 * a + d) 56 4 * 2 ^ 41 + t * 2 ^ 22 + x % 2 ^ 28 / 64) else none

/-- The base address that a host uses for decoder `d`: the HPA base it has committed, or a PBR host's DPA base. -/
def State.hostBase (s : State) (a d : Nat) : HostSource → Option Nat
  | .port p => match assocGet s.edge.decoders (8 * p + d) with
    | some x => if x.committed then some x.base else none
    | none => none
  | .pbr _ _ => some (s.decBase a d * 2 ^ 28)

/-- The line a host's address names, none where no decoder of its agent holds it. -/
def State.resolve (s : State) (src : HostSource) (a addr : Nat) : Option Nat :=
  ((List.range 8).filterMap (fun d =>
    match s.hostBase a d src with
    | some b => if s.decValid a d && decide (b ≤ addr) && decide (addr < b + s.decCount a d * 2 ^ 28) then s.decKey a d (addr - b) else none
    | none => none)).head?

/-! ### What the host sees (R261) -/

/-- The port of a host. -/
def srcPort : HostSource → Nat
  | .port p => p
  | .pbr p _ => p

/-- The SPID of a PBR host, 4096 for the host of a host port. -/
def srcSpid : HostSource → Nat
  | .port _ => 4096
  | .pbr _ i => i

/-- A message to a host: its name, the SPID, the host's tag and what it carries. -/
def toHost (s : State) (src : HostSource) (what : String) (args : List Nat) : State := s.emit (.toPort (srcPort src) what (srcSpid src :: args))

/-- The NDR of a grant. -/
def ndrName (g : Nat) : String := if g = 1 then "Cmp-S" else if g = 2 then "Cmp-E" else "Cmp"

/-- The MetaValue of a grant: I 0, S 1, A 2. -/
def hostData (s : State) (src : HostSource) (tag g : Nat) (poison : Bool) (data : List Byte) : State :=
  let s1 := toHost s src "MemData" [tag, g, b2n poison, ofLe data]
  if g = 0 then s1 else toHost s1 src (ndrName g) [tag]

/-- A request that gets no Koleel kind, or whose transaction ends without its answer: poisoned MemData for a read, Cmp
for a write (R242, R260, R281, R301). Which bytes come with the poison is not stated. -/
def hostEnd (s : State) (src : HostSource) (tag : Nat) (read : Bool) : State :=
  if read then (hostData s src tag 0 true (openData s)).useFree else toHost s src "Cmp" [tag]

/-- A message that R260 does not list. -/
def unsupported (s : State) : State := raise (s.count1 Obj.COH_HOST_UNSUPPORTED 0) 9 3

/-! ### Transactions (R279, R302) -/

/-- The hostTag of a transaction the port agent began itself: no host is answered. -/
abbrev quietTag : Nat := 65536

/-- A TAG that no transaction of the device holds: the next serial number's, else the lowest free one. -/
def State.newTag (s : State) : Nat :=
  let t := s.coh.serial % 65535
  if s.coh.txns.any (fun x => x.slot == t) then
    ((List.range (s.coh.txns.length + 1)).find? (fun u => !s.coh.txns.any (fun x => x.slot == u))).getD t
  else t


/-- The request of a port agent for a line, as it is first sent (R257, R259, R312). -/
def agentRequest (s : State) (a tag kind arg k mask : Nat) (data : List Byte) : CohMsg :=
  { kind := kind, tc := s.memTc (s.agentTenancy a), tenancy := s.stampTenancy a, dst := keyHome k, src := s.ownSwitch
    hops := s.reg Obj.PASS_HOP_LIMIT, arg := arg, key := k, agent := a, switch := s.ownSwitch, tag := tag, epoch := s.col.agentEpoch, mask := mask, data := data }

/-- A request, or a snoop's answer, goes from its port agent through the Basin to the engine that the port agents' map
copies name; `ch` is the link channel whose credit it holds until it has a Basin cell. -/
def sendRequest (s : State) (ch : LinkChannel) (m : CohMsg) : State :=
  let n := s.agentEngine (sliceOf m.key)
  sendInside s (s.senderPort m) ch (s.cohTenancy m) [⟨colPort n, .internal, 0⟩] m (.flight ⟨.engine n, m⟩)

/-- A transaction opens; that of a Dead agent holds its request (R299). -/
def openTxn (s : State) (a : Nat) (src : HostSource) (hostTag kind arg k mask : Nat) (data : List Byte) : State :=
  let m := agentRequest s a s.newTag kind arg k mask data
  let hold := s.agentState a == 3
  let s1 := { s with coh := { s.coh with
    serial := s.coh.serial + 1, txns := s.coh.txns ++ [⟨s.newTag, s.coh.serial, a, src, hostTag, m, s.now, if hold then .held else .sent⟩] } }
  if hold then s1 else sendRequest s1 (if hostTag = quietTag then .internal else if 5 ≤ kind ∧ kind ≤ 8 then .m2sRwd else .m2sReq) m

/-- The port agents' map copy holds at least epoch `e` (R314). -/
def State.agentHas (s : State) (e : Nat) : Bool := decide ((s.col.agentEpoch + 65536 - e % 65536) % 65536 < 32768)

/-- A request of a remote switch that was NACKed with MOVED goes to its engine again (R258, R269, R314): with RETRY, on TC 7,
with the present epoch. -/
def sendHome (s : State) (h : HomeHeld) : State :=
  let m := { h.msg.put 8 true with tc := 7, epoch := s.col.agentEpoch }
  let n := s.agentEngine (sliceOf m.key)
  sendInside s (s.homePort m) .internal (s.cohTenancy m) [⟨colPort n, .internal, 0⟩] m (.flight ⟨.engine n, m⟩)

/-- Those whose NACK has come, and whose epoch the map copy holds, go out again. -/
def resendHome (s : State) : State :=
  let go (h : HomeHeld) : Bool := h.arrived && s.agentHas h.epoch
  forEach (s.coh.homeHeld.filter go) { s with coh := { s.coh with homeHeld := s.coh.homeHeld.filter (fun h => !go h) } } sendHome

/-- The transaction of a slot. -/
def State.txn (s : State) (slot : Nat) : Option Txn := s.coh.txns.find? (fun x => x.slot == slot)

/-- Replace a transaction. -/
def putTxn (s : State) (t : Txn) : State := { s with coh := { s.coh with txns := s.coh.txns.map (fun x => if x.slot = t.slot then t else x) } }

/-- A transaction slot is free again; the proxy forgets its record. -/
def dropTxn (s : State) (t : Txn) : State :=
  { s with coh := { s.coh with txns := s.coh.txns.filter (fun x => x.slot != t.slot)
                               records := s.coh.records.filter (fun r => !(r.key == t.msg.key && r.agent == t.agent && r.tag == t.slot)) } }

/-- The transaction timeout (R301), in ns. -/
def State.txnTimeout (s : State) : Nat :=
  max (s.reg Obj.COH_TXN_TIMEOUT * 1000000) (max (2 * s.reg Obj.EDGE_LINKDOWN_GRACE * 1000) (2 * s.reg Obj.COH_SUSPECT_LIMIT * 1000000))

/-- A transaction ends before its answer: the host is answered unless its link is down, and the tag is held (R281, R302). -/
def abandonTxn (s : State) (t : Txn) : State :=
  let s1 := if t.hostTag = quietTag ∨ s.carriesTraffic (srcPort t.src) = false then s else hostEnd s t.src t.hostTag t.msg.reads
  putTxn s1 { t with status := .ended (s.now + s.txnTimeout) }

/-- A transaction has ended before its answer. -/
def Txn.ended (t : Txn) : Bool := match t.status with
  | .ended _ => true
  | _ => false

/-- EVICT_CLEAN for an agent that holds nothing of what was granted to a transaction that had ended (R302, R369). -/
def evictFor (s : State) (a : Nat) (src : HostSource) (k : Nat) : State := openTxn s a src quietTag 9 0 k 0 []

end Sys2Proof.Machine
end

