-- ==== Sys2Proof/Machine/GlenOps.lean ====
section
/-! DEFINITION. Shared operations of the Glen movers (15_glen_movers.md): channels, source and destination accesses, the
holding register, faults, the end of a descriptor. -/
namespace Sys2Proof.Machine

/-! ### Channels (R384 to R390) -/

/-- Change what a channel holds. -/
def State.setChan (s : State) (t : Nat) (c : GlenCh) : State := { s with glen := { s.glen with chans := assocPut s.glen.chans t c } }

/-- STATE of CH_STATUS: 0 Idle, 1 Running, 2 Waiting, 3 Stopping, 4 Stopped, 5 Faulted. -/
def State.chanState (s : State) (t : Nat) : Nat := s.regBits Obj.GLEN_CHAN_STATUS t 29 3

/-- Set STATE of CH_STATUS. -/
def setChanState (s : State) (t st : Nat) : State := s.setRegBits Obj.GLEN_CHAN_STATUS t 29 3 st

/-- A channel may run: its tenancy is Live, the device is not in Start-up, and CORE not held in reset (R30, R385). -/
def State.chanRuns (s : State) (t : Nat) : Bool := decide (t < 4096) && s.tenState t == 1 && s.devState != 0 && !s.coreHeld

/-- A bit of CH_IRQ_STATUS is set by its event; enabled, it raises vector 4 + b (R386). -/
def chanIrq (s : State) (t b : Nat) : State :=
  let c := s.chan t
  let s1 := s.setChan t { c with irqStatus := putBit c.irqStatus b true }
  if !bitAt c.irqStatus b && bitAt c.irqEnable b then sendVector s1 t (4 + b) else s1

/-- A fetch of the descriptor that CH_POINTER names begins. -/
def startFetch (s : State) (t : Nat) : State := setChanState (s.setChan t { s.chan t with fetching := true }) t 1

/-- The Steppe address of a channel's descriptor area (R387). -/
def descArea (t : Nat) : Nat := 0x2E40000000 + 0x40000 * t

/-- The channel's host port (R394): `GLEN.CHAN_CFG` names it, or the interrupt port is taken; bound to the tenancy, its
link up, and Bus Master Enable set. -/
def State.chanPort (s : State) (t : Nat) (busMaster : Bool) : Option Nat :=
  let named := s.regBits Obj.GLEN_CHAN_CFG t 8 7
  let p := if named = 127 then s.irqPort t else some named
  p.bind (fun q => if busMaster && s.portTenancy q == some t && s.carriesTraffic q then some q else none)

/-! ### Accesses (R391 to R395) -/

/-- REASON codes of a descriptor's STATUS (R389). -/
abbrev glFormat : Nat := 1
abbrev glGuard : Nat := 2
abbrev glPoison : Nat := 3
abbrev glHost : Nat := 4
abbrev glNxm : Nat := 5
abbrev glTimeout : Nat := 6
abbrev glEngine : Nat := 7

/-- 2^SW and 2^DW, the spaces, CONT_ON_FAULT, IRQ and RELAXED of a descriptor. -/
def GlenDesc.sw (d : GlenDesc) : Nat := 2 ^ bits d.control 21 3
def GlenDesc.dw (d : GlenDesc) : Nat := 2 ^ bits d.control 18 3
def GlenDesc.srcTract (d : GlenDesc) : Bool := bits d.control 26 2 == 1
def GlenDesc.dstTract (d : GlenDesc) : Bool := bits d.control 24 2 == 1
def GlenDesc.goesOn (d : GlenDesc) : Bool := bitAt d.control 29
def GlenDesc.irq (d : GlenDesc) : Bool := bitAt d.control 30
def GlenDesc.relaxed (d : GlenDesc) : Bool := bitAt d.control 28

/-- The line key of a tract address, none past the tract numbers a key can name (R226, R250, R392). -/
def tractAddrKey (a : Nat) : Option Nat :=
  if bits a 28 20 < 2 ^ 19 then some (bits a 60 4 * 2 ^ 41 + a % 2 ^ 48 / 64) else none

/-- The steps of R241 that the channel's device makes for a remote home: 1, 3 and 4. -/
def chanGuard (s : State) (t k : Nat) (write : Bool) : Option Nat :=
  if s.isOwn (keyHome k) then none
  else if !s.routeValid (keyHome k) then some unreachable
  else requesterCheck s (.glen t) (keyHome k) (keyTract k) (keyPage k) write

/-- The agent field of a device-side requester (R257). -/
abbrev deviceAgent : Nat := 64

/-- The request of a channel for a line (R257, R392, R399). -/
def chanRequest (s : State) (t kind k mask : Nat) (data : List Byte) (poison : Bool) : CohMsg :=
  { agentRequest s deviceAgent s.newTag kind (at_ 12 (b2n poison)) k mask data with
    tc := s.regBits Obj.GLEN_CHAN_CFG t 0 3, tenancy := some (t, s.tenGen t) }

/-- A transaction of a channel opens at the port agent of I4 or I5; no host waits for it. -/
def openChanTxn (s : State) (m : CohMsg) : State :=
  sendRequest (ch := .internal) (m := m) { s with coh := { s.coh with
    serial := s.coh.serial + 1, txns := s.coh.txns ++ [⟨m.tag, s.coh.serial, deviceAgent, .port deviceAgent, quietTag, m, s.now, .sent⟩] } }

/-- What becomes of a tract access that is issued: a transaction slot, or a REASON with its guard bit. -/
inductive Issued where
  | slot (n : Nat)
  | fails (reason guardBits : Nat)
  deriving DecidableEq, Repr

/-- A tract access sets out to its home, unless its tract does not exist or this device's guard fails the part it is of. -/
def issueTract (s : State) (t kind addr mask : Nat) (data : List Byte) (poison : Bool) : State × Issued :=
  match tractAddrKey addr with
  | none => (s, .fails glNxm 0)
  | some k =>
    let g := if s.isOwn (keyHome k) then (s, none) else judgePart s s.ownSwitch t (kind != 3) (k / 64) (chanGuard s t k (kind != 3))
    match g.2 with
    | some r => (g.1, .fails glGuard (2 ^ r))
    | none =>
      let m := chanRequest g.1 t kind k mask data poison
      (openChanTxn g.1 m, .slot m.tag)

/-- Bytes that no rule states, for a faulted part. -/
def openBytes (s : State) (n : Nat) : List Byte := (openData s).take n

/-- Bytes of a part at offset `off` are faulted: the lowest faulted offset and its REASON are kept (R395). -/
def GlenCh.noteFault (c : GlenCh) (off : Nat) (reasons : List Nat) : GlenCh :=
  match reasons.findIdx? (· != 0) with
  | none => c
  | some i =>
    let new := (off + i, (reasons[i]?).getD 0)
    { c with fault := some (match c.fault with
        | some old => if new.1 < old.1 then new else old
        | none => new) }

/-- A read of host memory leaves by the channel's host port (R394). -/
def hostMRd (s : State) (t p addr n : Nat) : State := sendGlen s t p false false 0 (.toPort p "MRd" [addr, n])

/-- A write of host memory leaves by the channel's host port (R394): poisoned or not, RO or not. -/
def hostMWr (s : State) (t p addr : Nat) (poison relaxed : Bool) (data : List Byte) : State :=
  sendGlen s t p true relaxed data.length (.toPort p "MWr" [addr, data.length, b2n poison, b2n relaxed, ofLe data])

/-- One source access of a channel is issued (R391, R392); one that fails at once has its answer. -/
def issueRead (s : State) (t : Nat) (d : GlenDesc) (busMaster : Bool) : State :=
  let off := (s.chan t).issued
  let n := min d.sw (d.length - off)
  let put (u : State) (slot : Option Nat) (ans : Option (List Byte × Nat)) (g : Nat) : State :=
    let c := u.chan t
    u.setChan t { c with issued := off + n, guard := Nat.lor c.guard g, reads := c.reads ++ [⟨off, n, slot, ans⟩] }
  if d.srcTract then
    match issueTract s t 3 (d.src + off) 0 [] false with
    | (u, .slot x) => put u (some x) none 0
    | (u, .fails r g) => put u.useFree none (some (openBytes u n, r)) g
  else match s.chanPort t busMaster with
    | some p => put (hostMRd s t p (d.src + off) n) none none 0
    | none => put s.useFree none (some (openBytes s n, glHost)) 0

/-- The rate bucket of a channel as it stands (R399). -/
def State.chanBucket (s : State) (t : Nat) : Shaper := shaperNow (s.reg Obj.GLEN_CHAN_RATE t) (assocGet s.glen.buckets t) s.now

/-- The rate bucket lets a source access go (R399). -/
def rateOpen (s : State) (t : Nat) : Bool := !s.regBit Obj.GLEN_CHAN_RATE t 63 || decide (0 < (s.chanBucket t).level)

/-- The bucket is charged for a source access of `n` bytes. -/
def chargeChan (s : State) (t n : Nat) : State :=
  let w := s.reg Obj.GLEN_CHAN_RATE t
  if bitAt w 63 then { s with glen := { s.glen with buckets := assocPut s.glen.buckets t (chargeBucket w (s.chanBucket t) n) } } else s

/-- The channel has a source access to issue now. -/
def canIssue (s : State) (t : Nat) : Bool :=
  s.chanRuns t && (s.chanState t == 1 || s.chanState t == 3) && match (s.chan t).desc with
    | some d => decide ((s.chan t).issued < d.length) && rateOpen s t
    | none => false

/-- A turn: source accesses within `left` bytes, at most `fuel` of them (R384, R399). -/
def issueTurn (t : Nat) (busMaster : Bool) : Nat → Nat → State → State
  | 0, _, s => s
  | fuel + 1, left, s =>
    match (s.chan t).desc with
    | none => s
    | some d =>
      if canIssue s t && decide (d.sw ≤ left) then issueTurn t busMaster fuel (left - d.sw) (issueRead (chargeChan s t d.sw) t d busMaster) else s

/-- Source bytes an engine has asked for and not yet passed on: they lie in its 16 KiB read buffer (R391). -/
def State.buffered (s : State) (e : Nat) : Nat :=
  s.glen.chans.foldl (fun n c => if c.1 / 64 = e then c.2.reads.foldl (fun k r => k + r.n) n else n) 0

/-! ### The holding register and destination accesses (R391, R395, R401) -/

/-- Bytes of a part have been written: those without fault are counted, the others noted. -/
def wroteBytes (s : State) (t off : Nat) (reasons : List Nat) : State :=
  let ok := (reasons.filter (· == 0)).length
  let c := (s.chan t).noteFault off reasons
  (s.setChan t { c with good := c.good + ok, bytes := c.bytes + ok }).count Obj.GLEN_BYTES t ok

/-- Every byte of a part that had no fault takes one. -/
def failAll (reasons : List Nat) (r : Nat) : List Nat := reasons.map (fun x => if x = 0 then r else x)

/-- A part into host memory (R392, R395): poisoned where a byte of it is faulted; logged as a page written (R401). -/
def writeHost (s : State) (t : Nat) (d : GlenDesc) (off : Nat) (data : List Byte) (reasons : List Nat) (busMaster : Bool) : State :=
  match s.chanPort t busMaster with
  | none => wroteBytes s t off (failAll reasons glHost)
  | some p =>
    let a := d.dst + off
    let s1 := hostMWr s t p a (reasons.any (· != 0)) d.relaxed data
    wroteBytes (logDirty s1 t t 0 (a / 4096) false) t off reasons

/-- A part into a tract: WR_FULL of a whole line, else WR_PTL (R392). -/
def writeTract (s : State) (t : Nat) (d : GlenDesc) (off : Nat) (data : List Byte) (reasons : List Nat) : State :=
  let a := d.dst + off
  let n := data.length
  let line := List.replicate (a % 64) 0 ++ data
  let kind := if n = 64 then 5 else 6
  match issueTract s t kind a (if n = 64 then 0 else (2 ^ n - 1) * 2 ^ (a % 64)) (padTo line 64) (reasons.any (· != 0)) with
  | (u, .slot x) => u.setChan t { u.chan t with writes := (u.chan t).writes ++ [⟨off, x, reasons⟩] }
  | (u, .fails r g) => wroteBytes (u.setChan t { u.chan t with guard := Nat.lor (u.chan t).guard g }) t off (failAll reasons r)

/-- Destination accesses are issued while the holding register holds their bytes, at most `fuel` of them. -/
def drainHold (t : Nat) (busMaster : Bool) : Nat → State → State
  | 0, s => s
  | fuel + 1, s =>
    match (s.chan t).desc with
    | none => s
    | some d =>
      let c := s.chan t
      if c.hold.length < d.dw then s
      else
        let part := c.hold.take d.dw
        let s1 := s.setChan t { c with hold := c.hold.drop d.dw, written := c.written + d.dw }
        let data := part.map (·.1)
        let reasons := part.map (·.2)
        drainHold t busMaster fuel (if d.dstTract then writeTract s1 t d c.written data reasons else writeHost s1 t d c.written data reasons busMaster)

/-- The bytes of the oldest source access pass into the holding register. -/
def passBytes (s : State) (t : Nat) (rd : GlenRead) (data : List Byte) (reason : Nat) (busMaster : Bool) : State :=
  let c := s.chan t
  let e := t / 64
  let s1 := s.setChan t { c with reads := c.reads.tail, hold := c.hold ++ (padTo data rd.n).map (fun b => (b, reason)) }
  drainHold t busMaster 128 { s1 with glen := { s1.glen with served := assocPut s1.glen.served e ((assocGet s1.glen.served e).getD 0 + rd.n) } }

/-! ### Answers of tract accesses (R241, R301, R369) -/

/-- The channel that waits for a transaction slot. -/
def State.chanOfSlot (s : State) (slot : Nat) : Option Nat :=
  (s.glen.chans.find? (fun c => c.2.reads.any (fun r => r.slot == some slot) || c.2.writes.any (fun w => w.slot == slot))).map (·.1)

/-- A source access has its answer. -/
def readAnswered (s : State) (t slot : Nat) (data : Nat → Nat → List Byte) (reason guardBits : Nat) : State :=
  let c := s.chan t
  s.setChan t { c with guard := Nat.lor c.guard guardBits, reads := c.reads.map (fun r => if r.slot = some slot then { r with slot := none, ans := some (data r.off r.n, reason) } else r) }

/-- A destination access has its answer. -/
def writeAnswered (s : State) (t slot reason guardBits : Nat) : State :=
  let c := s.chan t
  match c.writes.find? (fun w => w.slot == slot) with
  | none => s
  | some w =>
    let s1 := s.setChan t { c with guard := Nat.lor c.guard guardBits, writes := c.writes.filter (fun x => x.slot != slot) }
    wroteBytes s1 t w.off (if reason = 0 then w.reasons else failAll w.reasons reason)

/-- An access of a channel ends with a REASON; the bytes of a read that failed are not stated. -/
def accessFails (s : State) (t slot reason guardBits : Nat) : State :=
  if (s.chan t).reads.any (fun r => r.slot == some slot) then readAnswered s.useFree t slot (fun _ n => openBytes s n) reason guardBits
  else writeAnswered s t slot reason guardBits

/-- The part of a line that a source access asked for. -/
def linePart (s : State) (t : Nat) (line : List Byte) (off n : Nat) : List Byte :=
  match (s.chan t).desc with
  | some d => slice line ((d.src + off) % 64) n
  | none => []

/-- DATA or CMP for a transaction of a channel (R392, R395). -/
def glenAnswer (s : State) (m : CohMsg) (x : Txn) : State :=
  let verdict := assocGet s.glen.verdicts m.tag
  let s1 := dropTxn { s with glen := { s.glen with verdicts := assocDrop s.glen.verdicts m.tag } } x
  s1.withSome (s1.chanOfSlot m.tag) fun t =>
    match verdict with
    | some r => accessFails s1 t m.tag glGuard (2 ^ r)
    | none =>
      if m.flag 3 then accessFails s1 t m.tag glNxm 0
      else if m.kind = 0x20 then readAnswered s1 t m.tag (linePart s1 t m.data) (if m.flag 2 then glPoison else 0) 0
      else writeAnswered s1 t m.tag 0 0

/-- The port agent ends a channel's transaction by timeout (R301, R395, R398). -/
def glenTimeout (s : State) (x : Txn) : State := s.withSome (s.chanOfSlot x.slot) fun t => accessFails s t x.slot glTimeout 0

/-! ### The end of a descriptor (R389, R390, R397, R402) -/

/-- Bytes 48..63 of a completed descriptor. -/
def writeBackBytes (c : GlenCh) (d : GlenDesc) : List Byte :=
  let f := c.fault.getD (0xFFFFFFFF, 0)
  leBytes c.good 4 ++ leBytes f.1 4 ++ leBytes (at_ 31 1 + at_ 16 f.2 + at_ 8 (c.guard % 256)) 4 ++ leBytes d.gen 2 ++ [0, 0]

/-- The write-back goes into the descriptor's own space (R397, R401). -/
def writeBack16 (s : State) (t : Nat) (d : GlenDesc) (busMaster : Bool) : State :=
  let ptr := s.reg Obj.GLEN_CHAN_POINTER t
  let a := ptr - ptr % 64 + 48
  let bs := writeBackBytes (s.chan t) d
  if ptr % 4 = 1 then s.sysWrite (descArea t + a) bs
  else match s.chanPort t busMaster with
    | some p => hostMWr (logDirty s t t 0 (a / 4096) false) t p a false false bs
    | none => s

/-- A descriptor completed with a fault, or a fetch failed: counted, and FAULT set. -/
def chanFault (s : State) (t : Nat) : State := chanIrq (s.count1 Obj.GLEN_FAULTS t) t 1

/-- A channel enters Faulted (R390, R402). -/
def enterFaulted (s : State) (t : Nat) : State := raise (setChanState s t 5) 12 0 (t / 64)

/-- A descriptor fetch fails (R390, R396). -/
def fetchFails (s : State) (t : Nat) : State :=
  let s1 := (s.setChan t { s.chan t with fetching := false }).putRegBit Obj.GLEN_CHAN_STATUS t 27 true
  enterFaulted (chanFault s1 t) t

/-- The descriptor's results are counted and shown: FAULT before DONE, as in the worked example of R401. -/
def reportDesc (s : State) (t : Nat) (d : GlenDesc) : State :=
  let s1 := s.count1 Obj.GLEN_DESCRIPTORS t
  let s2 := match (s.chan t).fault with
    | some f => chanFault ((s1.setRegBits Obj.GLEN_CHAN_STATUS t 16 8 f.2).putRegBit Obj.GLEN_CHAN_STATUS t 27 false) t
    | none => s1
  if d.irq then chanIrq s2 t 0 else s2

/-- The channel is done with its descriptor: CH_POINTER takes NEXT. -/
def leaveDesc (s : State) (t : Nat) (d : GlenDesc) : State :=
  let c := s.chan t
  (s.setChan t { freshChan with irqStatus := c.irqStatus, irqEnable := c.irqEnable, bytes := c.bytes }).setReg Obj.GLEN_CHAN_POINTER t d.next

/-- A descriptor completes (R390): the channel goes on, ends its list, stops, or is Faulted. -/
def completeDesc (s : State) (t : Nat) (d : GlenDesc) (busMaster : Bool) : State :=
  let faulted := (s.chan t).fault.isSome && !d.goesOn
  let stopping := s.chanState t == 3
  let s1 := leaveDesc (reportDesc (writeBack16 s t d busMaster) t d) t d
  if faulted then enterFaulted s1 t
  else if stopping then chanIrq (setChanState s1 t 4) t 2
  else if d.next % 4 = 2 then chanIrq (setChanState s1 t 0) t 3
  else startFetch s1 t

/-- An engine resets itself (R402): a channel that ran completes its descriptor with REASON ENGINE, what was not yet
written counting as faulted, and is Faulted; a Waiting one is Faulted with FETCH_ERR. -/
def resetEngineChan (s : State) (t : Nat) : State :=
  let st := s.chanState t
  let c := s.chan t
  if st = 2 then fetchFails s t
  else if st = 1 ∨ st = 3 then
    match c.desc with
    | none => fetchFails s t
    | some d =>
      let from_ := c.writes.foldl (fun m w => min m w.off) c.written
      let c1 := if c.good < d.length then c.noteFault from_ [glEngine] else c
      let s1 := s.setChan t { c1 with fault := some (c1.fault.getD (from_, glEngine)) }
      enterFaulted (leaveDesc (reportDesc (writeBack16 s1 t d true) t d) t d) t
  else s

/-- Engine `e` resets itself. -/
def resetEngine (s : State) (e : Nat) : State := forEach ((List.range 64).map (64 * e + ·)) s resetEngineChan

/-- Engines that a block reset has reached reset themselves (R418). -/
def resetEngines (s : State) : State :=
  let u := forEach s.glen.parity s resetEngine
  { u with glen := { u.glen with parity := [] } }

/-- A reset of the tenancy resets its channel (R400). -/
def resetChannel (s : State) (t : Nat) : State :=
  let s1 := { s with glen := { s.glen with chans := assocDrop s.glen.chans t, buckets := assocDrop s.glen.buckets t } }
  (setChanState s1 t 0).putRegBit Obj.GLEN_CHAN_STATUS t 28 false |>.setReg Obj.GLEN_CHAN_POINTER t 2

end Sys2Proof.Machine
end

