-- ==== Sys2Proof/Machine/PortAgent.lean ====
section
/-! DEFINITION. The port agents (R260 to R262, R270, R279 to R282, R289, R299 to R302, R314): host messages in, answers and
snoops out, retries, timeouts. -/
namespace Sys2Proof.Machine

/-! ### Host requests (R241, R260) -/


/-- What an M2S Req becomes (R260): a kind and its ARG; `none` for MemSpecRd, an error for what no row lists. -/
def reqKind (m : HostReq) : Except Unit (Option (Nat × Nat)) :=
  match m.op, m.meta_, m.snp with
  | .memRd, .shared, .data => .ok (some (1, 0))
  | .memRd, .any, .inv => .ok (some (2, 0))
  | .memRd, .invalid, .noOp => .ok (some (3, 0))
  | .memRd, .invalid, .cur => .ok (some (3, 0))
  | .memRd, .noOp, .noOp => .ok (some (3, 0))
  | .memRd, .noOp, .cur => .ok (some (3, 0))
  | .memRdData, _, _ => .ok (some (1, at_ 13 1))
  | .memInv, .any, _ => .ok (some (4, 0))
  | .memInvNT, .any, _ => .ok (some (4, 0))
  | .memClnEvct, _, _ => .ok (some (9, 0))
  | .memSpecRd, _, _ => .ok none
  | _, _, _ => .error ()

/-- An M2S Req that no row lists expects data or not. -/
def expectsData : HostReqOp → Bool
  | .memRd => true
  | .memRdData => true
  | .memSpecRd => true
  | .other d => d
  | _ => false

/-- KEEP of a writeback from MetaValue (R260). -/
def keepOf : HostMeta → Option Nat
  | .invalid => some 0
  | .shared => some 1
  | .any => some 2
  | .noOp => none

/-- What an M2S RwD becomes (R260). -/
def rwdKind (m : HostRwd) : Option (Nat × Nat) :=
  let p := at_ 12 (b2n m.poison)
  match m.op, m.snp with
  | .memWr, .noOp => (keepOf m.meta_).map (fun k => (7, p + at_ 14 k))
  | .memWrPtl, .noOp => (keepOf m.meta_).map (fun k => (8, p + at_ 14 k))
  | .memWr, .inv => some (5, p)
  | .memWrPtl, .inv => some (6, p)
  | _, _ => none

/-- The steps of R241 that the port agent makes for a remote home: the tenancy, 1, 3 and 4. -/
def agentGuard (s : State) (a k : Nat) (write : Bool) : Option Nat :=
  let t := s.agentTenancy a
  if t = none then some noTenancy
  else if !s.routeValid (keyHome k) then some unreachable
  else requesterCheck s (.agent a t) (keyHome k) (keyTract k) (keyPage k) write

/-- A request toward a remote home passes, perhaps as a read only, or fails (R241). -/
def agentCheck (s : State) (a k kind arg : Nat) : Except Nat Nat :=
  if s.isOwn (keyHome k) ∨ kind = 9 then .ok arg
  else
    let write := kind == 5 || kind == 6 || kind == 7 || kind == 8
    match agentGuard s a k write with
    | some r => .error r
    | none => if (kind = 2 ∨ kind = 4) ∧ (agentGuard s a k true).isSome = true then .ok (putBit arg 10 true) else .ok arg

/-- An address that no decoder holds is answered as a tract that does not exist (R262). -/
def hostNxm (s : State) (src : HostSource) (tag : Nat) (read : Bool) : State :=
  let s1 := s.count1 Obj.COH_NXM 0
  if read then toHost s1 src "MemData-NXM" [tag] else toHost s1 src "Cmp" [tag]

/-- A request of a host for a line becomes a transaction (R260, R279). In Start-up the tenant data path is Closed, toward a
remote home too: the request is answered as every tract is then (R17, R465). -/
def hostRequest (s : State) (src : HostSource) (a tag kind arg k mask : Nat) (data : List Byte) : State :=
  let arg1 := putBit arg 11 (!s.hostBi (srcPort src))
  if s.devState = 0 ∧ s.isOwn (keyHome k) = false then hostNxm s src tag (decide (kind ≤ 3))
  else match agentCheck s a k kind arg1 with
    | .ok arg2 => openTxn s a src tag kind arg2 k mask data
    | .error r => hostEnd (guardFail s (s.agentTenancy a) r (decide (5 ≤ kind))) src tag (decide (kind ≤ 3))

/-- BIRsps of a port's hosts that hold a credit: those that wait to be forwarded, and those without a Basin cell (R134). -/
def State.birspHeld (s : State) (p : Nat) : Nat :=
  (s.coh.snoops.filter (fun x => s.agentPort x.agent == p && x.rsp.isSome)).length
    + ((s.ingressMsgs p).filter (fun m => m.2.channel == .biRsp)).length

/-- A host has a credit for a message of a channel (R134); those of M2S channels are for messages, whatever their data. -/
def hostCredit (s : State) (p : Nat) (ch : LinkChannel) : Bool := if ch = .biRsp then decide (s.birspHeld p < 32) else hasCredit s p ch 0

/-- A host reaches the memory device: the host of a host port, or a PBR host by a fabric port, while the memory device has a
PBR ID (R114, R116). -/
def reachesPool (s : State) : HostSource → Bool
  | .port p => s.isHost p
  | .pbr p _ => s.isFabric p && s.reg Obj.EDGE_POOL_PBR_ID != 0xFFFF

/-- The host of a message on channel `ch` may be heard: it reaches the memory device, its link carries CXL.mem traffic, it
has a credit, and it is an agent. -/
def heard (s : State) (src : HostSource) (ch : LinkChannel) : Option Nat :=
  if reachesPool s src && s.carriesTraffic (srcPort src) && s.regBit Obj.EDGE_PORT_STATE (srcPort src) 7 && !s.basin.stopped && hostCredit s (srcPort src) ch then
    s.sourceAgent src
  else none

/-- An M2S Req of an agent (R260, R262). -/
def reqEffect (s : State) (src : HostSource) (m : HostReq) (a : Nat) : State :=
  match reqKind m with
  | .error _ => hostEnd (unsupported s) src m.tag (expectsData m.op)
  | .ok none => s
  | .ok (some (kind, arg)) => match s.resolve src a m.addr with
    | none => hostNxm s src m.tag (decide (kind ≤ 3))
    | some k => hostRequest s src a m.tag kind arg k 0 []

/-- `HOST_M2S_REQ` (R260, R262, R279). -/
def execHostM2sReq (dt : Nat) (src : HostSource) (m : HostReq) (s : State) : Res := run dt s fun s =>
  s.withSome (heard s src .m2sReq) (reqEffect s src m)

/-- An M2S RwD of an agent (R260, R262). -/
def rwdEffect (s : State) (src : HostSource) (m : HostRwd) (a : Nat) : State :=
  match rwdKind m with
  | none => hostEnd (unsupported s) src m.tag false
  | some (kind, arg) => match s.resolve src a m.addr with
    | none => hostNxm s src m.tag false
    | some k => hostRequest s src a m.tag kind arg k (if hasMask kind then m.mask % 2 ^ 64 else 0) (padTo m.data 64)

/-- `HOST_M2S_RWD` (R260, R262, R279). -/
def execHostM2sRwd (dt : Nat) (src : HostSource) (m : HostRwd) (s : State) : Res := run dt s fun s =>
  s.withSome (heard s src .m2sRwd) (rwdEffect s src m)

/-! ### Snoop responses and conflicts of hosts (R260, R262, R289) -/

/-- A BIRsp of an agent: it answers the open snoop of its line, or none. -/
def birspEffect (s : State) (src : HostSource) (m : HostBirsp) (a : Nat) : State :=
  match m.state, s.resolve src a m.addr with
  | some st, some k =>
    if s.coh.snoops.any (fun x => x.agent == a && x.msg.key == k && x.rsp.isNone) then
      { s with coh := { s.coh with snoops := s.coh.snoops.map (fun x =>
          if x.agent = a ∧ x.msg.key = k ∧ x.rsp.isNone = true then { x with rsp := some (st % 4, s.coh.serial) } else x) } }
    else unsupported s
  | _, _ => unsupported s

/-- `HOST_BIRSP` (R260, R262). -/
def execHostBirsp (dt : Nat) (src : HostSource) (m : HostBirsp) (s : State) : Res := run dt s fun s =>
  s.withSome (heard s src .biRsp) (birspEffect s src m)

/-- An earlier message of the agent to the line keeps its BIRsp back: a writeback, write or eviction without its CMP, or
any message not yet sent on (R289). -/
def keepsBack (a k serial : Nat) (t : Txn) : Bool :=
  t.agent == a && t.msg.key == k && decide (t.serial < serial) && !t.ended && (decide (5 ≤ t.msg.kind) || t.status == .held)

/-- `BIRSP_FORWARD` (R282, R289). -/
def execBirspForward (dt agent key : Nat) (s : State) : Res := run dt s fun s =>
  s.withSome (s.coh.snoops.find? (fun x => x.agent == agent && x.msg.key == key && x.rsp.isSome)) fun x =>
    let r := x.rsp.getD (0, 0)
    if s.coh.txns.any (keepsBack agent key r.2) then s
    else
      let s1 := { s with coh := { s.coh with snoops := s.coh.snoops.filter (· != x) } }
      sendRequest s1 .biRsp { x.msg with kind := 0x23, tc := 7, dst := s.ownSwitch, src := s.ownSwitch, arg := r.1, agent := agent, switch := s.ownSwitch }

/-- `BICONFLICT` (R262): counted; its acknowledgement is due. -/
def execBiconflict (dt : Nat) (src : HostSource) (addr : Nat) (s : State) : Res := run dt s fun s =>
  s.withSome (heard s src .m2sReq) fun a =>
    let s1 := s.count1 Obj.COH_BI_CONFLICTS 0
    s1.withSome (s.resolve src a addr) fun k => { s1 with coh := { s1.coh with conflicts := s1.coh.conflicts ++ [(a, k)] } }

/-- `BICONFLICT_ACK` (R262): every earlier message for the line has left, since the port agent sends in order. -/
def execBiconflictAck (dt agent key : Nat) (s : State) : Res := run dt s fun s =>
  if s.coh.conflicts.contains (agent, key) then
    ({ s with coh := { s.coh with conflicts := s.coh.conflicts.erase (agent, key) } }).emit (.toPort (s.agentPort agent) "BIConflictAck" [agent, key])
  else s

/-! ### Answers (R261, R270, R302, R369) -/

/-- The proxy record of an answer. -/
def recordOf (m : CohMsg) : ProxyRec := ⟨m.key, m.agent, m.tag⟩

/-- A grant for a remote line finds no way for its proxy entry. -/
def proxyFull (s : State) (m : CohMsg) : Bool :=
  m.state != 0 && !m.device && s.setFull (s.engineOf (sliceOf m.key)) true m.key

/-- An answer for a remote line passes its proxy, whose entry follows the grant (R270). -/
def passProxy (s : State) (m : CohMsg) : State :=
  if s.isOwn (keyHome m.key) ∨ s.coh.records.contains (recordOf m) = false then s
  else
    let n := s.engineOf (sliceOf m.key)
    let s1 := { s with coh := { s.coh with records := s.coh.records.filter (· != recordOf m) } }
    let g := m.state
    if g = 0 ∨ m.device = true ∨ s.agentState m.who = 3 then s1
    else
      let s2 := settleDead (lookupEnt s1 n true m.key false) n true m.key
      setEnt s2 n true m.key ((s2.entNow n true m.key).grant g (.agent m.who))

/-- The generation of an answer is not the tenancy's own any more (R369). -/
def oldAnswer (s : State) (m : CohMsg) : Bool := m.tenancy.elim false (fun x => x.2 != s.tenGen x.1)

/-- An answer for a transaction that has ended is discarded; a grant in it is given back (R302, R369). -/
def lateAnswer (s : State) (m : CohMsg) (t : Txn) : State :=
  let s1 := dropTxn (if oldAnswer s m then s.count1 Obj.TEN_STALE_GEN (m.tenancy.elim 0 (·.1)) else s.count1 Obj.COH_LATE_ANSWERS 0) t
  if m.state = 0 ∨ t.hostTag = quietTag then s1 else evictFor s1 t.agent t.src m.key

/-- An answer is mapped toward the host (R261). -/
def answerHost (s : State) (m : CohMsg) (t : Txn) : State :=
  let s1 := dropTxn s t
  if t.hostTag = quietTag then s1
  else if m.flag 3 then (if m.kind = 0x20 then toHost s1 t.src "MemData-NXM" [t.hostTag] else toHost s1 t.src "Cmp" [t.hostTag])
  else if m.kind = 0x20 then hostData s1 t.src t.hostTag m.state (m.flag 2) m.data
  else toHost s1 t.src (ndrName m.state) [t.hostTag]

/-- DATA or CMP at the port agent. -/
def takeAnswer (s : State) (m : CohMsg) : State :=
  match s.txn m.tag with
  | none => s
  | some t =>
    if t.agent ≠ m.agent then s
    else if t.ended || oldAnswer s m then lateAnswer s m t
    else if m.device then glenAnswer s m t else answerHost s m t

/-- The engine that an answer from a remote home has reached on its way. -/
def State.answerAt (s : State) (m : CohMsg) : Option Nat :=
  (s.coh.flight.filterMap (fun f => match f.hop with
    | .engine n => if f.msg = m then some n else none
    | _ => none)).head?

/-- DATA or CMP from a remote home at engine `n`: its proxy entry follows, and it goes on to the port agent (R270, R315);
where the entry finds no way, it waits while the set evicts (R253). -/
def answerAtProxy (s : State) (n : Nat) (m : CohMsg) : State :=
  let went : State := (arrive s (.engine n) m).getD s
  if !s.engineRuns n then s
  else if s.engineOf (sliceOf m.key) ≠ n then toServer went n m
  else if s.coh.records.contains (recordOf m) && proxyFull s m then
    (if setEvicting s m.key then s else (beginEvict s n (dirSet m.key)).1)
  else sendReply (passProxy went m) m

/-- DATA or CMP of a kind arrives: from a remote home at its proxy's engine, or at the port agent. -/
def answerArrives (kind : Nat) (m : CohMsg) (s : State) : State :=
  if m.kind ≠ kind ∨ s.cohRuns = false then s
  else match s.answerAt m with
    | some n => answerAtProxy s n m
    | none => s.withSome (arrive s .reply m) fun t => takeAnswer t m

/-- `DATA` (R261, R270). -/
def execData (dt : Nat) (m : CohMsg) (s : State) : Res := run dt s (answerArrives 0x20 m)

/-- `CMP` (R261, R270). -/
def execCmp (dt : Nat) (m : CohMsg) (s : State) : Res := run dt s (answerArrives 0x21 m)

/-! ### NACKs and retries (R280, R285, R314) -/

/-- The delay before a request is sent again after its `n`-th NACK (R280). -/
def retryDelay (s : State) (n : Nat) : Nat := s.reg Obj.COH_RETRY_BASE * 2 ^ min (n - 1) 4

/-- A NACK of a transaction (R259, R280, R314): MOVED waits for the map epoch; another counts and waits for the retry
delay. The request is sent again with RETRY. -/
def takeNack (s : State) (m : CohMsg) (t : Txn) : State :=
  if m.arg % 16 = 5 then putTxn s { t with msg := t.msg.put 8 true, status := .moved m.epoch }
  else
    let n := min 255 (t.msg.nacks + 1)
    let arg := putBit (setBits t.msg.arg 0 8 n) 8 true
    putTxn s { t with msg := { t.msg with arg := arg }, status := .retry (s.now + retryDelay s n) }

/-- A NACK from a remote home at its proxy's engine: the record goes, and the NACK goes on to the port agent (R270, R315). -/
def nackAtProxy (s : State) (n : Nat) (m : CohMsg) : State :=
  let went : State := (arrive s (.engine n) m).getD s
  if !s.engineRuns n then s
  else if s.engineOf (sliceOf m.key) ≠ n then toServer went n m
  else sendReply { went with coh := { went.coh with records := went.coh.records.filter (· != recordOf m) } } m

/-- A NACK at the port agent (R280, R369). -/
def nackAtAgent (s : State) (m : CohMsg) : State :=
  if oldAnswer s m then s.count1 Obj.TEN_STALE_GEN (m.tenancy.elim 0 (·.1))
  else s.withSome (s.txn m.tag) fun x => if x.agent = m.agent ∧ x.status = .sent then takeNack s m x else s

/-- A MOVED NACK has reached the Pass port's agent (R269, R314): the request waits for the map epoch, or goes out again. -/
def nackAtHome (s : State) (m : CohMsg) : State :=
  resendHome { s with coh := { s.coh with homeHeld := s.coh.homeHeld.map (fun h =>
    if h.msg.key = m.key ∧ h.msg.agent = m.agent ∧ h.msg.switch = m.switch ∧ h.msg.tag = m.tag then { h with arrived := true } else h) } }

/-- `NACK` (R269, R280, R314, R369). -/
def execNack (dt : Nat) (m : CohMsg) (s : State) : Res := run dt s fun s =>
  if m.kind ≠ 0x22 then s
  else match s.answerAt m with
    | some n => nackAtProxy s n m
    | none => match arrive s .home m with
      | some t => nackAtHome t m
      | none => s.withSome (arrive s .reply m) fun t => nackAtAgent t m

/-- A transaction's request goes out again, routed by the present map; an aged one says so from now on (R280, R285). -/
def sendAgain (s : State) (t : Txn) (retry : Bool) : State :=
  let age := retry && decide (s.reg Obj.COH_AGE_THRESHOLD ≤ t.msg.nacks)
  let s1 := if age && !t.msg.flag 9 then s.count1 Obj.COH_AGED_REQUESTS 0 else s
  let m := { t.msg with arg := putBit t.msg.arg 9 (t.msg.flag 9 || age), tc := 7, epoch := s.col.agentEpoch }
  sendRequest (putTxn s1 { t with msg := m, status := .sent }) .internal m

/-- `RETRY` (R280, R285). -/
def execRetry (dt slot : Nat) (s : State) : Res := run dt s fun s =>
  s.withSome (s.txn slot) fun t => match t.status with
    | .retry d => if d ≤ s.now then sendAgain s t true else s
    | _ => s

/-- `MOVED_RETRY` (R314): the port agent's copy holds at least the epoch of the NACK. -/
def execMovedRetry (dt slot : Nat) (s : State) : Res := run dt s fun s =>
  s.withSome (s.txn slot) fun t => match t.status with
    | .moved e => if s.agentHas e then sendAgain s t false else s
    | _ => s

/-! ### Timeouts (R301, R302) -/

/-- A transaction reaches its timeout. -/
def timeoutTxn (s : State) (t : Txn) : State :=
  let s1 := abandonTxn (if t.agent = deviceAgent then glenTimeout s t else s) t
  let s2 := raise (s1.count1 Obj.COH_TXN_TIMEOUTS 0) 9 20
  if t.msg.kind ≤ 4 ∨ t.msg.kind = 9 then s2 else noteFailure s2 (if t.agent = deviceAgent then t.msg.tenancy.map (·.1) else s.agentTenancy t.agent) unreachable true

/-- `TRANSACTION_TIMEOUT` (R301). -/
def execTransactionTimeout (dt slot : Nat) (s : State) : Res := run dt s fun s =>
  s.withSome (s.txn slot) fun t => if t.ended = false ∧ t.started + s.txnTimeout ≤ s.now then timeoutTxn s t else s

/-- `TAG_HOLD_EXPIRY` (R302). -/
def execTagHoldExpiry (dt slot : Nat) (s : State) : Res := run dt s fun s =>
  s.withSome (s.txn slot) fun t => match t.status with
    | .ended d => if d ≤ s.now then dropTxn s t else s
    | _ => s

end Sys2Proof.Machine
end

