-- ==== Sys2Proof/Machine/Regime.lean ====
section
/-! DEFINITION. The regimes for silent holders and the sweep states of agents (R293, R296, R299). -/
namespace Sys2Proof.Machine

/-! ### Sweep states (R296, R299) -/

/-- CLEAN of an agent in `COH.SWEEP_STATE`: 0 clean, 1 awaiting a pass, 2 in a pass, 3 Dead and not cleaned. -/
def State.cleanState (s : State) (a : Nat) : Nat := s.regBits Obj.COH_SWEEP_STATE a 30 2

/-- An agent awaits the next pass. -/
def awaitPass (s : State) (a : Nat) : State :=
  ({ s with coh := { s.coh with awaiting := if s.coh.awaiting.contains a then s.coh.awaiting else s.coh.awaiting ++ [a] } }).setRegBits Obj.COH_SWEEP_STATE a 30 2 1

/-- The sweep regime runs (R293). -/
def State.sweepRegime (s : State) : Bool := s.reg Obj.COH_REGIME == 0

/-- The agent count of the domain (R293), none where it is taken as above 16. -/
def domainAgents (s : State) : Option Nat :=
  let own := ((List.range 64).filter (fun a => s.agentValid a)).length
  let others := (List.range 16).filter (fun w => w != s.ownSwitch && s.reg Obj.PASS_DOMAIN_TABLE w != 0)
  match others with
  | [] => some own
  | [w] => if s.reg Obj.TWIN_ENABLE = 1 ∧ w = s.reg Obj.TWIN_PARTNER_SWITCH then some (max own (s.regBits Obj.TWIN_STATE 0 0 8)) else none
  | _ => none

/-- The regime is chosen anew (R293); when it changes to sweep, a pass becomes due for every agent that is Dead and not clean (R296). -/
def evalRegime (s : State) : State :=
  let n := domainAgents s
  let sweep := s.reg Obj.COH_REGIME_FORCE == 0 && n.elim false (fun x => decide (x ≤ 16))
  let s1 := (s.setReg Obj.COH_DOMAIN_AGENTS 0 (n.getD 255)).setReg Obj.COH_REGIME 0 (b2n !sweep)
  if sweep = true ∧ s.sweepRegime = false then
    forEach ((List.range 64).filter (fun a => s.agentState a == 3 && s.cleanState a == 3)) s1 awaitPass
  else s1

end Sys2Proof.Machine
end

