-- ==== Sys2Proof/Machine/ProgressOps.lean ====
section
/-! DEFINITION. Dead and silent holders (R294 to R300): declarations of death, sweeps of slices. -/
namespace Sys2Proof.Machine

/-! ### Death (R294, R295) -/

/-- A context goes on without an agent that is Dead: its bit is settled and its snoop closes. -/
def deadInCtx (a : Nat) (s : State) (c : Ctx) : State :=
  let s1 := if c.work = .loose then s else settleBit c.engine c.proxy c.key s a
  closeSnoop s1 c.proxy c.key (.agent a)

/-- Every context that snoops a Dead agent goes on. -/
def deadInCtxs (s : State) (a : Nat) : State :=
  settle (forEach (s.coh.ctxs.filter (fun c => c.snoops.any (fun x => x.holder == .agent a))) s (deadInCtx a))

/-- An agent is declared dead (R295); a number that is Unassigned or already Dead stays as it is. -/
def declareDead (s : State) (a : Nat) : State :=
  if s.agentState a = 1 ∨ s.agentState a = 2 then
    let s1 := (((s.setReg Obj.EDGE_AGENT_STATE a 3).putRegBit Obj.COH_AGENT_SUSPECT 0 a false).disarm ⟨.grace, s.agentPort a, 0⟩)
    let s2 := { s1 with coh := { s1.coh with
      snoops := s1.coh.snoops.filter (fun x => x.agent != a), flight := s1.coh.flight.filter (fun f => f.hop != .agent a) } }
    let s3 := if s2.sweepRegime then awaitPass s2 a else s2.setRegBits Obj.COH_SWEEP_STATE a 30 2 3
    deadInCtxs (raise s3 9 19) a
  else s

/-- A transaction held for its agent's death goes out. -/
def releaseTxn (s : State) (t : Txn) : State := sendRequest (putTxn s { t with status := .sent }) .internal { t.msg with epoch := s.col.agentEpoch }

/-- A Dead agent's number is Live again, with no lines cached (R108, R299): the requests its port agent held go out. -/
def makeLive (s : State) (a : Nat) : State :=
  let s1 := { s with coh := { s.coh with reborn := s.coh.reborn.filter (· != a) } }.setReg Obj.EDGE_AGENT_STATE a 1
  forEach (s1.coh.txns.filter (fun t => t.agent == a && t.status == .held)) s1 releaseTxn

/-- A Dead agent's number is to be Live (R299): at once when it is clean, else when its pass has ended; outside the sweep
regime the pass is due from now. -/
def reviveAgent (s : State) (a : Nat) : State :=
  if s.cleanState a = 0 then makeLive s a
  else
    let s1 := { s with coh := { s.coh with reborn := if s.coh.reborn.contains a then s.coh.reborn else s.coh.reborn ++ [a] } }
    if s.cleanState a = 3 then awaitPass s1 a else s1

/-- Snoops that a host has not answered are sent again when its link returns (R107). -/
def resendSnoops (s : State) (a : Nat) : State :=
  forEach (s.coh.snoops.filter (fun x => x.agent == a && x.rsp.isNone)) s fun t x => emitBisnp t a x.msg

/-- Snoops of an agent that come to be sent now: in the sweep regime their time runs from the sending (R294). -/
def redateSnoops (s : State) (a : Nat) : State :=
  if s.sweepRegime then
    { s with coh := { s.coh with ctxs := s.coh.ctxs.map (fun c =>
        { c with snoops := c.snoops.map (fun x => if x.holder = .agent a ∧ x.sent = false then { x with due := s.now } else x) }) } }
  else s

/-- The link of an agent's port has come up (R107, R108, R299). -/
def agentLinkUp (s : State) (a : Nat) : State :=
  if s.agentState a = 2 then
    resumeSnoops (resendSnoops (redateSnoops ((s.setReg Obj.EDGE_AGENT_STATE a 1).disarm ⟨.grace, s.agentPort a, 0⟩) a) a) a
  else if s.agentState a = 3 then reviveAgent s a
  else s

/-! ### Sweeping a slice (R296) -/

/-- The lines with an entry in a slice, in the store or in a cache: whether it is a proxy entry, and K. -/
def sliceLines (s : State) (slice : Nat) : List (Bool × Nat) :=
  let lo := wayAddr (slice * 24576) 0
  let hi := wayAddr (slice * 24576 + 24576) 0
  let ways := ((s.mem.filter (fun c => decide (lo ≤ c.1) && decide (c.1 < hi))).map (fun c => c.1 / 16 * 16)).eraseDups
  let stored := (ways.map (fun a => ofLe (s.bytes a 16))).filter (fun w => bits w 126 2 != 0)
  let cached := (s.coh.cache.filter (fun c => sliceOf c.key == slice)).map (fun c => c.entry)
  ((stored ++ cached).map (fun w => (wayProxy w, wayKey w))).eraseDups

/-- The agents of the running pass are settled in one entry; an entry whose line has a context is left to it. -/
def sweepLine (n : Nat) (s : State) (l : Bool × Nat) : State :=
  if s.ctxOn l.1 l.2 || (!l.1 && s.twinEntry l.2) then s else forEach s.coh.sweeping s (settleBit n l.1 l.2)

/-- The agents of the running pass are settled in a slice. -/
def sweepSlice (s : State) (n slice : Nat) : State := forEach (sliceLines s slice) s (sweepLine n)

/-- The sweep items an engine still has, and the slices it serves. -/
def sweepLeft (s : State) (n : Nat) : Nat := ((s.deque n).filter (fun i => i.kind == 0)).length
def State.servedBy (s : State) (n : Nat) : Nat := ((List.range 4096).filter (fun x => s.engineOf x == n)).length

/-- PROGRESS of the running pass: that of the slowest engine. -/
def sweepProgress (s : State) : Nat :=
  s.col.deques.foldl (fun m d => if sweepLeft s d.1 = 0 then m else min m (100 - 100 * sweepLeft s d.1 / max 1 (s.servedBy d.1))) 100

/-- The progress of the running pass shows for each of its agents. -/
def showSweep (s : State) : State :=
  let p := sweepProgress s
  forEach s.coh.sweeping s fun t a => t.setRegBits Obj.COH_SWEEP_STATE a 0 7 p

end Sys2Proof.Machine
end

