-- ==== Sys2Proof/Machine/ColMoves.lean ====
section
/-! DEFINITION. Shared operations of the lease coordinator and of sparing (R309, R317 to R330). -/
namespace Sys2Proof.Machine

/-! ### Engines and slices -/

/-- STATE of a logical role: 0 Active, 1 Emptying, 2 Retired. -/
def State.roleState (s : State) (n : Nat) : Nat := s.regBits Obj.COL_ENGINE_STATE n 30 2

/-- The physical engine that fills a role. -/
def State.rolePhys (s : State) (n : Nat) : Nat := s.regBits Obj.COL_ENGINE_STATE n 20 9

/-- STATE of a physical engine: 0 Spare, 1 Active, 2 Failed. -/
def State.physState (s : State) (p : Nat) : Nat := s.regBits Obj.COL_PHYS_STATE p 30 2

/-- The base engine of a slice, as a retirement has left it (R309). -/
def State.baseOf (s : State) (x : Nat) : Nat := (assocGet s.col.replaced x).getD (s.reg Obj.COL_SLICE_BASE x)

/-- The slices an engine serves, lowest first. -/
def State.slicesOf (s : State) (n : Nat) : List Nat := (List.range 4096).filter (fun x => s.engineOf x == n)

/-- The requests an engine's slices received in the last window (R317, R318). -/
def State.engineReqs (s : State) (n : Nat) : Nat := (s.slicesOf n).foldl (fun t x => t + s.reg Obj.COL_SLICE_REQS x) 0

/-- A pair of a key and a number put in its place: by the key, then by the number. -/
def insertPair (x : Nat × Nat) : List (Nat × Nat) → List (Nat × Nat)
  | [] => [x]
  | y :: t => if x.1 < y.1 ∨ (x.1 = y.1 ∧ x.2 < y.2) then x :: y :: t else y :: insertPair x t

/-- Numbers in order of a key, ties to the lower number. -/
def orderBy (key : Nat → Nat) (l : List Nat) : List Nat := (l.foldl (fun acc n => insertPair (key n, n) acc) []).map (·.2)

/-- The Active role with the lowest load, the lowest number on a tie (R327). -/
def State.idlest (s : State) (except_ : Nat) : Option Nat :=
  (orderBy (fun n => s.reg Obj.COL_LOAD n) ((List.range 256).filter (fun n => s.roleState n == 0 && n != except_))).head?

/-! ### Moves (R321) -/

/-- The windows, items and cached entries of a slice go over from one engine to another: dirty entries are written back,
every cached entry is dropped, hold windows and slice-bound items go along (R321 step 2). -/
def handOver (s : State) (x d t : Nat) : State :=
  let s1 := forEach (s.coh.cache.filter (fun c => c.engine == d && sliceOf c.key == x)) s uncache
  let s2 := { s1 with coh := { s1.coh with holds := s1.coh.holds.map (fun h => if h.engine = d ∧ sliceOf h.key = x then { h with engine := t } else h) } }
  let mine := (s2.deque d).filter (fun i => i.slice == some x)
  if mine.isEmpty || d == t then s2
  else
    let s3 := setDeque s2 d ((s2.deque d).filter (fun i => i.slice != some x))
    setDeque s3 t (s3.deque t ++ mine)

/-- A move of a slice begins to drain: within `COL.LEASE_DRAIN`, or 100 µs for a forced one (R321, R322). -/
def beginMove (s : State) (x taker : Nat) (why : MoveWhy) : State :=
  if s.engineOf x = taker then s
  else
    let s1 := { s with col := { s.col with moves := s.col.moves ++ [(⟨x, s.engineOf x, taker, why, false⟩ : Move)] } }
    s1.arm ⟨.leaseDrain, x, 0⟩ (if why = MoveWhy.forced then 100000 else s.reg Obj.COL_LEASE_DRAIN * 1000)

/-- A move that has not switched is void: what its taker already holds goes back. -/
def voidMove (s : State) (x : Nat) : State :=
  match s.moveOf x with
  | some m =>
    let s1 := ({ s with col := { s.col with moves := s.col.moves.filter (fun y => y.slice != x) } }).disarm ⟨.leaseDrain, x, 0⟩
    if m.ready then handOver s1 x m.taker m.donor else s1
  | none => s

/-- A slice is to move to an engine whatever the loads are (R320): another move of it gives way, and the move is tried
until it succeeds. -/
def forceMove (s : State) (x taker : Nat) : State :=
  let s1 := (voidMove s x).disarm ⟨.forcedRetry, x, 0⟩
  if s1.engineOf x = taker then { s1 with col := { s1.col with forcedTo := assocDrop s1.col.forcedTo x } }
  else beginMove { s1 with col := { s1.col with forcedTo := assocPut s1.col.forcedTo x taker } } x taker .forced

/-- A draining slice is quiescent (R321 step 2): no context, no proxy record and no aged entry of its donor is about it. -/
def State.sliceQuiet (s : State) (x d : Nat) : Bool :=
  !s.coh.ctxs.any (fun c => c.engine == d && sliceOf c.key == x)
    && !s.coh.records.any (fun r => sliceOf r.key == x)
    && !s.coh.aged.any (fun a => a.engine == d && sliceOf a.key == x)

/-- A slice switches to its taker in an epoch change: the map, the moves' count, the holdoff, what is left with the donor. -/
def switchSlice (s : State) (m : Move) : State :=
  let s1 := handOver s m.slice m.donor m.taker
  let s2 := (s1.setReg Obj.COL_SLICE_MAP m.slice m.taker).count1 Obj.COL_LEASES 0
  let old := if s2.col.agentOld.any (fun e => e.1 == m.slice) then s2.col.agentOld else (m.slice, m.donor) :: s2.col.agentOld
  let s3 := { s2 with col := { s2.col with
    agentOld := old, moves := s2.col.moves.filter (fun y => y.slice != m.slice), forcedTo := assocDrop s2.col.forcedTo m.slice } }
  (s3.disarm ⟨.leaseDrain, m.slice, 0⟩).arm ⟨.holdoff, m.slice, 0⟩ (s3.reg Obj.COL_LEASE_HOLDOFF * 1000000)

/-! ### Stealing (R318, R319) -/

/-- A slice may be moved by a steal or a return now: not pinned, not held off, not on the move. -/
def State.movable (s : State) (x : Nat) : Bool :=
  s.reg Obj.COL_SLICE_PIN x == 0 && (s.moveOf x).isNone && !(s.armed ⟨.forcedRetry, x, 0⟩)

/-- A slice moved less than `COL.LEASE_HOLDOFF` ago. -/
def State.heldBack (s : State) (x : Nat) : Bool := s.armed ⟨.holdoff, x, 0⟩ && !s.due ⟨.holdoff, x, 0⟩

/-- The slice a pair moves: the one of the donor with the highest count at or below half the difference; the lowest on a
tie (log entry 22). -/
def stealSlice (s : State) (donor taker : Nat) : Option Nat :=
  let half := (s.engineReqs donor - s.engineReqs taker) / 2
  let ok := (s.slicesOf donor).filter (fun x => s.movable x && !s.heldBack x && s.reg Obj.COL_SLICE_REQS x != 0 && decide (s.reg Obj.COL_SLICE_REQS x ≤ half))
  (orderBy (fun x => half - s.reg Obj.COL_SLICE_REQS x) ok).head?

/-- Engines in order: those that give and those that take (R318). -/
def donors (s : State) : List Nat :=
  orderBy (fun n => 100 - s.reg Obj.COL_LOAD n) ((List.range 256).filter (fun n =>
    s.roleState n == 0 && decide (s.reg Obj.COL_STEAL_BUSY_PCT ≤ s.reg Obj.COL_LOAD n) && decide (s.reg Obj.COL_MIN_SLICES < (s.slicesOf n).length)))
def takers (s : State) : List Nat :=
  orderBy (fun n => s.reg Obj.COL_LOAD n) ((List.range 256).filter (fun n =>
    s.roleState n == 0 && decide (s.reg Obj.COL_LOAD n ≤ s.reg Obj.COL_STEAL_IDLE_PCT) && decide ((s.slicesOf n).length < s.reg Obj.COL_MAX_SLICES)))

/-- A pair of engines moves a slice, if one qualifies. -/
def stealPair (s : State) (p : Nat × Nat) : State := s.withSome (stealSlice s p.1 p.2) fun x => beginMove s x p.2 .steal

/-- The base engine of a slice that a steal has moved away has been idle long enough (R319). -/
def returnDue (s : State) (x : Nat) : Bool :=
  let b := s.baseOf x
  s.engineOf x != b && s.movable x && s.roleState b == 0 && s.reg Obj.COL_RETURN_AFTER != 0
    && (match assocGet s.col.idleSince b with
      | some t => decide (t + s.reg Obj.COL_RETURN_AFTER * 1000000 ≤ s.now)
      | none => false)
    && !(match s.col.job with
      | some j => j.slices.contains x
      | none => false)

/-- The coordinator's work at the end of a window (R318, R319): pairs, then returns, at most `COL.LEASES_PER_WINDOW`. -/
def coordinate (s : State) : State :=
  let limit := s.reg Obj.COL_LEASES_PER_WINDOW
  let pairs := if s.reg Obj.COL_STEAL_EN = 1 then ((donors s).zip (takers s)).take limit else []
  let s1 := forEach pairs s stealPair
  let back := ((List.range 4096).filter (returnDue s1)).take (limit - pairs.length)
  forEach back s1 fun t x => beginMove t x (t.baseOf x) .return_

/-! ### Sparing (R326 to R330) -/

/-- `COL.SPARES_LEFT` follows the physical engines; the last Spare gone raises SPARES_EXHAUSTED. -/
def showSpares (s : State) : State :=
  let left := ((List.range 272).filter (fun p => s.physState p == 0)).length
  let s1 := s.setReg Obj.COL_SPARES_LEFT 0 (min 16 left)
  if left = 0 ∧ s1.regBit Obj.COL_ERRORS 0 4 = false then raise s1 10 4 else s1

/-- A physical engine is Failed, with its cause, and stands in the wear record. -/
def failPhys (s : State) (p cause : Nat) : State :=
  let s1 := (s.setRegBits Obj.COL_PHYS_STATE p 30 2 2).setRegBits Obj.COL_PHYS_STATE p 27 3 cause
  { s1 with col := { s1.col with worn := if s1.col.worn.contains p then s1.col.worn else s1.col.worn ++ [p] } }

/-- A Spare that fails its test or its load as it is to be used (R327 step 1). -/
def failSpare (s : State) (p : Nat) : State := raise (failPhys s p 1) 10 2

/-- Spares in turn: those in `bad` fail, the first other one is taken. -/
def takeSpare (bad : List Nat) : List Nat → State → State × Option Nat
  | [], s => (s, none)
  | p :: ps, s => if bad.contains p then takeSpare bad ps (failSpare s p) else (s, some p)

/-- The lowest-numbered Spare that passes. -/
def findSpare (s : State) (bad : List Nat) : State × Option Nat :=
  let r := takeSpare bad ((List.range 272).filter (fun p => s.physState p == 0)) s
  (showSpares r.1, r.2)

/-- A role is emptied (R327 step 2, R324): moves toward it are void, each of its slices moves to the idlest Active engine,
and its free items go there. -/
def emptyRole (s : State) (n : Nat) : State :=
  let s1 := s.setRegBits Obj.COL_ENGINE_STATE n 30 2 1
  let s2 := forEach (s1.col.moves.filter (fun m => m.taker == n)) s1 fun t m => voidMove t m.slice
  s2.withSome (s2.idlest n) fun t =>
    let s3 := forEach (s2.slicesOf n) s2 fun u x => forceMove u x t
    let free := (s3.deque n).filter (fun i => i.slice.isNone)
    if free.isEmpty then s3
    else
      let s4 := setDeque s3 n ((s3.deque n).filter (fun i => i.slice.isSome))
      setDeque s4 t (s4.deque t ++ free)

/-- A job on a role begins. -/
def beginJob (s : State) (n : Nat) (why : RoleWhy) (cause : Nat) : State :=
  emptyRole { s with col := { s.col with job := some ⟨n, why, cause, s.slicesOf n⟩ } } n

/-- The next job, when none runs: a role that waits for sparing, else one that waits for its microprogram. -/
def nextJob (s : State) (bad : List Nat) : State :=
  match s.col.job with
  | some _ => s
  | none => match s.col.spareQueue with
    | (n, cause) :: rest =>
      let r := findSpare { s with col := { s.col with spareQueue := rest } } bad
      beginJob r.1 n (r.2.elim .retire .spare) cause
    | [] => match s.col.loadQueue with
      | n :: rest => beginJob { s with col := { s.col with loadQueue := rest } } n .load 0
      | [] => s

/-- A role qualifies for sparing (R326); one that waits, is being emptied or is Retired does not qualify again. -/
def qualify (s : State) (n cause : Nat) (bad : List Nat) : State :=
  if s.roleState n = 0 ∧ s.col.spareQueue.any (fun q => q.1 == n) = false then
    nextJob { s with col := { s.col with spareQueue := s.col.spareQueue ++ [(n, cause)], loadQueue := s.col.loadQueue.filter (· != n) } } bad
  else s

/-- A role is Active again on its engine, and the slices it held return (R327 step 4). -/
def refillRole (s : State) (j : RoleJob) : State :=
  let s1 := { s with col := { s.col with job := none } }.setRegBits Obj.COL_ENGINE_STATE j.role 30 2 0
  forEach j.slices s1 fun t x => forceMove t x j.role

/-- A Spare fills an emptied role (R327 step 3). -/
def sparedTo (s : State) (j : RoleJob) (p : Nat) : State :=
  let s1 := failPhys s (s.rolePhys j.role) j.cause
  let s2 := (s1.setRegBits Obj.COL_ENGINE_STATE j.role 20 9 p).setReg Obj.COL_PHYS_STATE p (at_ 30 1 + at_ 16 j.role + s1.regBits Obj.COL_PHYS_STATE p 0 16)
  let s3 := if s2.regBit Obj.COL_ENGINE_STATE j.role 29 then s2
    else (s2.putRegBit Obj.COL_ENGINE_STATE j.role 29 true).setReg Obj.COL_UCODE_PROGRESS 0 (s2.reg Obj.COL_UCODE_PROGRESS + 1)
  refillRole (showSpares (raise s3 10 1)) j

/-- An emptied role is Retired (R328): the slices it was the base of stay with the engines that have them now (R309). -/
def retireRole (s : State) (j : RoleJob) : State :=
  let s1 := failPhys s (s.rolePhys j.role) j.cause
  let s2 := s1.setRegBits Obj.COL_ENGINE_STATE j.role 30 2 2
  let its := (List.range 4096).filter (fun x => s2.baseOf x == j.role)
  let s3 := { s2 with col := { s2.col with job := none, replaced := its.foldl (fun l x => assocPut l x (s2.engineOf x)) s2.col.replaced } }
  raise s3 10 5

/-- A role whose engine is gone goes to the Spare that was found, or is retired (R329). -/
def replaceRole (r : State × Option Nat) (j : RoleJob) : State :=
  match r.2 with
  | some p => sparedTo r.1 j p
  | none => retireRole r.1 j

/-- A role whose engine fails its new microprogram twice is spared, or retired where no Spare is left (R329, R330);
the update shows failure code 8 (R473). -/
def loadFails (s : State) (j : RoleJob) (bad : List Nat) : State :=
  let s1 := (s.setRegBits Obj.BOOT_UPDATE_STATUS 0 29 3 3).setRegBits Obj.BOOT_UPDATE_STATUS 0 16 8 8
  replaceRole (findSpare (raise s1 10 3) bad) { j with cause := 6 }

/-- An emptied role runs the newest microprogram (R330). -/
def loadDone (s : State) (j : RoleJob) : State :=
  refillRole ((s.putRegBit Obj.COL_ENGINE_STATE j.role 29 true).setReg Obj.COL_UCODE_PROGRESS 0 (s.reg Obj.COL_UCODE_PROGRESS + 1)) j

/-- A job's role is empty: no slice, no context, no move toward it. -/
def State.roleEmpty (s : State) (n : Nat) : Bool :=
  (s.slicesOf n).isEmpty && !s.coh.ctxs.any (fun c => c.engine == n) && !s.col.moves.any (fun m => m.taker == n)

/-- A job ends when its role is empty, and the next begins. -/
def finishJob (s : State) (j : RoleJob) (bad : List Nat) : State :=
  nextJob (match j.why with
    | .spare p => sparedTo s j p
    | .retire => retireRole s j
    | .load => if bad.contains (s.rolePhys j.role) then loadFails s j bad else loadDone s j) bad

end Sys2Proof.Machine
end

