-- ==== Sys2Proof/Machine/Glen.lean ====
section
/-! DEFINITION. The commands of the Glen movers (R384 to R402): the channel window, descriptor fetches, turns, source data,
write-backs. -/
namespace Sys2Proof.Machine

/-! ### The channel window (R385, R386) -/

/-- A write to the Glen window of a host port: ignored with no tenancy bound, aborted in Start-up and while the tenancy is
Free (R385, R386). -/
def glenWindow (s : State) (port : Nat) (f : Nat → State) : State :=
  if !s.isHost port then s
  else match s.portTenancy port with
    | none => s.emit (.barDone port)
    | some t => if s.devState = 0 ∨ s.tenState t = 0 then s.emit (.barAbort port) else f t

/-- Idle, Stopped or Faulted: the channel takes START and a new CH_POINTER. -/
def atRest (st : Nat) : Bool := st == 0 || st == 4 || st == 5

/-- START (R390). -/
def startChannel (s : State) (port t : Nat) : State :=
  if !atRest (s.chanState t) then s.emit (.barAbort port)
  else if s.reg Obj.GLEN_CHAN_POINTER t % 4 = 2 then (chanIrq (setChanState s t 0) t 3).emit (.barDone port)
  else (startFetch s t).emit (.barDone port)

/-- `GLEN_START` (R390). -/
def execGlenStart (dt port : Nat) (s : State) : Res := run dt s fun s => glenWindow s port (startChannel s port)

/-- STOP (R390): the current descriptor runs to its end; a Waiting channel stops at once. -/
def stopChannel (s : State) (t : Nat) : State :=
  if s.chanState t = 1 then setChanState s t 3
  else if s.chanState t = 2 then chanIrq (setChanState s t 4) t 2
  else s

/-- `GLEN_STOP` (R390). -/
def execGlenStop (dt port : Nat) (s : State) : Res := run dt s fun s =>
  glenWindow s port fun t => (stopChannel s t).emit (.barDone port)

/-- RING (R390): a Waiting channel fetches again; a Running one remembers it. -/
def ringChannel (s : State) (t : Nat) : State :=
  if s.chanState t = 1 then s.putRegBit Obj.GLEN_CHAN_STATUS t 28 true
  else if s.chanState t = 2 then startFetch s t
  else s

/-- `GLEN_RING` (R390). -/
def execGlenRing (dt port : Nat) (s : State) : Res := run dt s fun s =>
  glenWindow s port fun t => (ringChannel s t).emit (.barDone port)

/-- An access of `width` bytes at `offset` is aligned and of 4 or 8 bytes (R386, R435). -/
def aligned48 (offset width : Nat) : Bool := (width == 4 || width == 8) && offset % width == 0

/-- A write of `width` bytes at byte `at_` of a 64-bit register. -/
def mergeWord (old at_ width v : Nat) : Nat := setBits old (8 * at_) (8 * width) v

/-- A write of CH_POINTER or of half of it (R386, R390); its reserved bits stay 0 (R10, R388). -/
def writePointer (s : State) (a : WindowWrite) (t : Nat) : State :=
  if aligned48 a.offset a.width && atRest (s.chanState t) then
    (s.setReg Obj.GLEN_CHAN_POINTER t (setBits (mergeWord (s.reg Obj.GLEN_CHAN_POINTER t) (a.offset - 8) a.width a.value) 2 4 0)).emit (.barDone a.port)
  else s.emit (.barAbort a.port)

/-- `CH_POINTER_WRITE` (R386, R390): offsets 0x8 and 0xC. -/
def execChPointerWrite (dt : Nat) (a : WindowWrite) (s : State) : Res := run dt s fun s =>
  if 8 ≤ a.offset ∧ a.offset < 16 then glenWindow s a.port (writePointer s a) else s

/-- A write of DESC_AREA (R386, R387). -/
def writeDescArea (s : State) (a : WindowWrite) (t : Nat) : State :=
  if aligned48 a.offset a.width then (s.sysWrite (descArea t + a.offset) (leBytes a.value a.width)).emit (.barDone a.port)
  else s.emit (.barAbort a.port)

/-- `DESC_AREA_WRITE` (R386, R387): offsets 0x1000..0x3_FFFF. -/
def execDescAreaWrite (dt : Nat) (a : WindowWrite) (s : State) : Res := run dt s fun s =>
  if 0x1000 ≤ a.offset ∧ a.offset < 0x40000 then glenWindow s a.port (writeDescArea s a) else s

/-- `CHAN_CMD_STOP` (R390). -/
def execChanCmdStop (dt : Nat) (path : Path) (channel : Nat) (s : State) : Res := run dt s fun s =>
  serveWrite s path (writeRec Obj.GLEN_CHAN_CMD (some channel) 1) (fun t => stopChannel t channel)

/-- A write of `GLEN.CHAN_RATE` takes effect (R399). -/
def chanRateEffect (t v : Nat) (s : State) : State :=
  let s1 := plainWrite s Obj.GLEN_CHAN_RATE t v
  { s1 with glen := { s1.glen with buckets := assocPut s1.glen.buckets t (filledBucket (s1.reg Obj.GLEN_CHAN_RATE t) s1.now) } }

/-! ### Descriptors (R388 to R391, R396) -/

/-- The descriptor's fields from its 64 bytes, with the generation stamped at fetch. -/
def decodeDesc (bs : List Byte) (gen : Nat) : GlenDesc :=
  ⟨leField bs 0 4, leField bs 4 4, leField bs 8 8, leField bs 16 8, leField bs 24 8, gen⟩

/-- VALID is set and DONE is not (R389). -/
def runnable (bs : List Byte) : Bool := bitAt (leField bs 0 4) 31 && !bitAt (leField bs 56 4) 31

/-- Reserved bits or encodings that are not 0 (R388, R389, R391). -/
def reservedSet (bs : List Byte) (d : GlenDesc) : Bool :=
  bits d.control 0 18 != 0 || 2 ≤ bits d.control 26 2 || 2 ≤ bits d.control 24 2 || bits d.control 21 3 == 7 || bits d.control 18 3 == 7
    || leField bs 40 8 != 0 || leField bs 62 2 != 0 || bits (leField bs 56 4) 24 7 != 0 || bits (leField bs 56 4) 0 8 != 0
    || bits d.next 2 4 != 0 || bits d.next 0 2 == 3

/-- The descriptor is a FORMAT fault (R391, R392). -/
def formatBad (bs : List Byte) (d : GlenDesc) : Bool :=
  reservedSet bs d || d.src % d.sw != 0 || d.dst % d.dw != 0 || d.length % max d.sw d.dw != 0
    || (d.srcTract && bits d.src 48 12 != 0) || (d.dstTract && bits d.dst 48 12 != 0)

/-- A runnable descriptor begins: a FORMAT fault moves no byte. -/
def beginDesc (s : State) (t : Nat) (bs : List Byte) : State :=
  let d := decodeDesc bs (s.tenGen t)
  let bad := formatBad bs d
  let moved := if bad then d.length else 0
  (newParts s t).setChan t { s.chan t with fetching := false, desc := some d, issued := moved, written := moved, good := 0, guard := 0, reads := [], hold := [], writes := [],
                                            fault := if bad then some (0xFFFFFFFF, glFormat) else none }

/-- A fetched descriptor is run, or the channel waits, fetches once more, or stops (R390). -/
def takeDesc (s : State) (t : Nat) (bs : List Byte) : State :=
  if runnable bs then beginDesc s t bs
  else
    let parked := s.setChan t { s.chan t with fetching := false }
    if s.chanState t = 3 then chanIrq (setChanState parked t 4) t 2
    else if s.regBit Obj.GLEN_CHAN_STATUS t 28 then s.putRegBit Obj.GLEN_CHAN_STATUS t 28 false
    else setChanState parked t 2

/-- A descriptor in the descriptor area; an offset outside 0x1000..0x3_FFC0 fails the fetch (R388), and so does a
poisoned line (R204; log entry 89). -/
def fetchArea (s : State) (t off : Nat) : State :=
  if 0x1000 ≤ off ∧ off ≤ 0x3FFC0 then
    let r := s.sysRead (descArea t + off) 64
    if r.2.poison then fetchFails r.1 t else takeDesc r.1 t r.2.data
  else fetchFails s t

/-- A descriptor in host memory: the read goes out of the host port and comes back as `r` says (R394, R396). -/
def fetchHost (s : State) (t addr : Nat) (r : HostReadResult) : State :=
  match s.chanPort t true, r with
  | none, _ => fetchFails s t
  | _, .masterOff => fetchFails s t
  | some p, .failed => fetchFails (hostMRd s t p addr 64) t
  | some p, .data bs => takeDesc (hostMRd s t p addr 64) t (padTo bs 64)

/-- `DESCRIPTOR_FETCH` (R390, R396). -/
def execDescriptorFetch (dt channel : Nat) (host : HostReadResult) (s : State) : Res := run dt s fun s =>
  let ptr := s.reg Obj.GLEN_CHAN_POINTER channel
  if s.chanRuns channel = false ∨ (s.chan channel).fetching = false then s
  else resetEngines (if ptr % 4 = 0 then fetchHost s channel (ptr - ptr % 64) host
    else if ptr % 4 = 1 then fetchArea s channel (ptr - ptr % 64)
    else fetchFails s channel)

/-! ### Moving data (R384, R391, R394) -/

/-- The channel an engine serves next: round robin after the one it served last (R384). -/
def nextChannel (s : State) (e : Nat) : Option Nat :=
  let last := (assocGet s.glen.turn e).getD 63
  ((List.range 64).map (fun i => 64 * e + (last + 1 + i) % 64)).find? (canIssue s)

/-- `GLEN_TURN` (R384, R391, R399). -/
def execGlenTurn (dt engine : Nat) (busMaster : Bool) (s : State) : Res := run dt s fun s =>
  if engine < 64 then
    s.withSome (nextChannel s engine) fun t =>
      issueTurn t busMaster 4096 (min 4096 (16384 - s.buffered engine)) { s with glen := { s.glen with turn := assocPut s.glen.turn engine (t % 64) } }
  else s

/-- The bytes a source access brings and their REASON, none while a tract's answer has not come. -/
def sourceAnswer (s : State) (rd : GlenRead) (r : HostReadResult) : Option (List Byte × Nat) :=
  match rd.ans, rd.slot, r with
  | some a, _, _ => some a
  | none, some _, _ => none
  | none, none, .data bs => some (padTo bs rd.n, 0)
  | none, none, _ => some (openBytes s rd.n, glHost)

/-- Source data reaches the holding register; an uncorrectable error there poisons what it touches (R402). -/
def takeSource (s : State) (t : Nat) (rd : GlenRead) (source : SourceResult) (busMaster : Bool) : State :=
  s.withSome (sourceAnswer s rd source.host) fun a =>
    let s1 := if a.2 = glHost then s.useFree else s
    if source.bufferUe then passBytes (resetEngines (raise s1 12 2 (t / 64))) t rd a.1 (if a.2 = 0 then glPoison else a.2) busMaster
    else passBytes s1 t rd a.1 a.2 busMaster

/-- `SOURCE_DATA` (R391, R395). -/
def execSourceData (dt channel : Nat) (source : SourceResult) (busMaster : Bool) (s : State) : Res := run dt s fun s =>
  if s.chanRuns channel then s.withSome (s.chan channel).reads.head? fun rd => takeSource s channel rd source busMaster else s

/-- The oldest host read of a channel times out (R394). -/
def timeoutRead (s : State) (t : Nat) : State :=
  let c := s.chan t
  match c.reads.findIdx? (fun r => r.slot.isNone && r.ans.isNone) with
  | none => s
  | some i =>
    s.withSome c.reads[i]? fun r => s.useFree.setChan t { c with reads := setAt c.reads i { r with ans := some (openBytes s r.n, glHost) } }

/-- `COMPLETION_TIMEOUT` (R394, R396): of a descriptor fetch, or of the oldest host read. -/
def execCompletionTimeout (dt channel : Nat) (s : State) : Res := run dt s fun s =>
  if s.chanRuns channel = false then s
  else if (s.chan channel).fetching then
    (if s.reg Obj.GLEN_CHAN_POINTER channel % 4 = 0 then resetEngines (fetchFails s channel) else s)
  else timeoutRead s channel

/-- `DESCRIPTOR_WRITE_BACK` (R397): every destination access has reached its point. -/
def execDescriptorWriteBack (dt channel : Nat) (busMaster : Bool) (s : State) : Res := run dt s fun s =>
  let c := s.chan channel
  if s.chanRuns channel then
    s.withSome c.desc fun d =>
      if c.written = d.length ∧ c.writes = [] then resetEngines (completeDesc s channel d busMaster) else s
  else s

end Sys2Proof.Machine
end

