-- ==== Sys2Proof/Machine/Faults.lean ====
section
/-! DEFINITION. The commands of the fault collector (16_fault_collection.md): source events, quiet timers, FAULT_OUT_L,
traps, forcing and clearing. -/
namespace Sys2Proof.Machine

/-- The number of the collector's source for bit `b` of group `g` (R404). -/
def sourceNumber (g b : Nat) : Nat := 32 * g + b

/-- The source is one R418 names. -/
def sourceNamed (g b : Nat) : Bool := decide (b < 32) && (sourceSeverity g b).isSome

/-- `SOURCE_EVENT` (R406, R418): an event of a named source; an engine reset that it takes as its block reset follows (R402). -/
def execSourceEvent (dt group bit element : Nat) (s : State) : Res := runPowered dt s fun s =>
  if sourceNamed group bit then resetEngines (raise s group bit element) else s

/-! ### Self-recovery -/

/-- A recovery is counted, and the source escalates when the counter comes to `FLT.ESCALATE_AT` (R412, R413). -/
def countRecovery (s : State) (n : Nat) : State :=
  let c := min 65535 (s.reg Obj.FLT_RECOVERIES n + 1)
  let s1 := s.setReg Obj.FLT_RECOVERIES n c
  if c = s1.reg Obj.FLT_ESCALATE_AT ∧ s.reg Obj.FLT_RECOVERIES n ≠ c then s1.putRegBit Obj.FLT_SOURCE_CFG n 30 true else s1

/-- `QUIET_TIMER_EXPIRY` (R412, R413): the latch clears, the recovery counts. -/
def execQuietTimerExpiry (dt source : Nat) (s : State) : Res := runPowered dt s fun s =>
  s.onDue ⟨.quiet, source, 0⟩ fun t =>
    report (countRecovery (forgetLatch (clearGroupBits t (source / 32) (2 ^ (source % 32))) source) source) .replace

/-- A write of `FLT.RECOVERIES`: 0 clears the counter and ESCALATED (R413). -/
def recoveriesEffect (source : Nat) (s : State) : State :=
  (s.setReg Obj.FLT_RECOVERIES source 0).putRegBit Obj.FLT_SOURCE_CFG source 30 false

/-- `RECOVERIES_CLEAR` (R413). -/
def execRecoveriesClear (dt : Nat) (path : Path) (source : Nat) (s : State) : Res := run dt s fun s =>
  serveWrite s path (writeRec Obj.FLT_RECOVERIES (some source) 0) (recoveriesEffect source)

/-! ### FAULT_OUT_L -/

/-- The pin follows the pulse and HOLD (R410). -/
def faultPin (s : State) : State :=
  s.putRegBit Obj.FLT_OUT_CTRL 0 31 (s.regBit Obj.FLT_OUT_CTRL 0 30 || s.regBit Obj.FLT_OUT_CTRL 0 0)

/-- `FAULT_OUT_PULSE_END` (R410). -/
def execFaultOutPulseEnd (dt : Nat) (s : State) : Res := runPowered dt s fun s =>
  s.onDue ⟨.faultPulse, 0, 0⟩ fun t => faultPin (t.putRegBit Obj.FLT_OUT_CTRL 0 30 false)

/-- A write of `FLT.OUT_CTRL`. -/
def holdEffect (value : Nat) (s : State) : State := faultPin (plainWrite s Obj.FLT_OUT_CTRL 0 value)

/-- `HOLD_WRITE` (R410). -/
def execHoldWrite (dt : Nat) (path : Path) (value : Nat) (s : State) : Res := run dt s fun s =>
  serveWrite s path (writeRec Obj.FLT_OUT_CTRL none value) (holdEffect value)

/-! ### Interrupts and traps -/

/-- The event that a group owes is sent, and the spacing starts again (R408). -/
def owedEvent (s : State) (g : Nat) : State :=
  if s.flt.owed.contains g then
    let r := faultInterrupt { s with flt := { s.flt with owed := s.flt.owed.filter (· != g) } } g
    work 64 r.2 r.1
  else s

/-- `FAULT_EVENT_TIMER` (R408): 10 µs after the group's last event. -/
def execFaultEventTimer (dt group : Nat) (s : State) : Res := run dt s fun s =>
  s.onDue ⟨.faultEvent, group, 0⟩ fun t => owedEvent t group

/-- Where `FLT.SAVED_LOG` lies in boot flash (log entry 5). -/
abbrev savedLogBase : Nat := 0x02200000

/-- A log record joins `FLT.SAVED_LOG` as element 0; the oldest of 16 is lost (R408). -/
def saveLogRecord (s : State) (w : Nat) : State :=
  s.setFlash savedLogBase (leBytes w 8 ++ s.flashBytes savedLogBase 120)

/-- `TRAP_SAVE_DONE` (R408): the oldest trapped record is in flash; with the last one a waiting chip reset begins. -/
def execTrapSaveDone (dt : Nat) (s : State) : Res := run dt s fun s =>
  match s.flt.traps with
  | [] => s
  | w :: rest =>
    let s1 := saveLogRecord { s with flt := { s.flt with traps := rest } } w
    if s1.flt.resetDue && rest.isEmpty then beginChipReset { s1 with flt := { s1.flt with resetDue := false } } 3 else s1

/-! ### Forcing and clearing -/

/-- Each bit set in a written word, of the sources R418 names. -/
def namedBits (g v : Nat) : List Nat := (List.range 32).filter (fun b => bitAt v b && sourceNamed g b)

/-- A write of `FLT.FORCE` (R415). -/
def forceEffect (g v : Nat) (s : State) : State :=
  forEach (namedBits g v) s (fun t b => report t (.source true g b 0))

/-- `FORCE` (R415). -/
def execForce (dt : Nat) (path : Path) (group value : Nat) (s : State) : Res := run dt s fun s =>
  serveWrite s path (writeRec Obj.FLT_FORCE (some group) value) (forceEffect group value)

/-- The source latched at Fatal, which no write clears (R409). -/
def State.latchedFatal (s : State) (n : Nat) : Bool := assocGet s.flt.sev n == some 4

/-- The bits of a group's status word that a W1C write of `v` clears (R404, R409, R411). -/
def clearMask (s : State) (g v : Nat) : Nat :=
  ((List.range 32).filter (fun b => bitAt v b && !bitAt (groupReadOnly g) b && !s.latchedFatal (sourceNumber g b))).foldl (fun m b => m + 2 ^ b) 0

/-- The source's cause is a lasting condition that still holds (R411, R491, R493): a lost reference, a margin below its
threshold, a stack above 100 °C, the junction above its limit for 1 ms, a rail out of its window. -/
def lasting (s : State) (g b : Nat) : Bool :=
  match g, b with
  | 2, b => s.lane.held.contains b
  | 7, 9 => !s.stp.hot.isEmpty
  | 17, b => s.wear.low.any (fun m => m / 1024 == b)
  | 18, 0 => s.wear.warnSince.elim false (fun t => decide (t + 1000000 ≤ s.now))
  | 18, 1 => s.wear.critSince.elim false (fun t => decide (t + 1000000 ≤ s.now))
  | 18, 2 => !s.wear.railOut.isEmpty
  | _, _ => false

/-- Latches of group `g` have been cleared since `s0`: their timers stop, the replace request follows, and a lasting
cause latches again (R411, R412, R416). -/
def afterClear (s0 s : State) (g : Nat) : State :=
  let gone := (List.range 32).filter (fun b => bitAt (groupWord s0 g) b && !bitAt (groupWord s g) b)
  let s1 := forEach gone s (fun t b => forgetLatch t (sourceNumber g b))
  forEach (gone.filter (fun b => lasting s g b)) (report s1 .replace) (fun t b => raise t g b)

/-- A W1C write of `FLT.SOURCE_STATUS` (R404, R411). -/
def sourceClearEffect (g v : Nat) (s : State) : State := afterClear s (clearGroupBits s g (clearMask s g v)) g

/-- `SOURCE_CLEAR` (R411, R415). -/
def execSourceClear (dt : Nat) (path : Path) (group value : Nat) (s : State) : Res := run dt s fun s =>
  serveWrite s path (writeRec Obj.FLT_SOURCE_STATUS (some group) value) (sourceClearEffect group value)

/-- A W1C write of element `e` of `PASS.ERRORS`, which is one of the elements behind group 6 (R192, R404). -/
def passErrorsEffect (e v : Nat) (s : State) : State :=
  afterClear s (s.setReg Obj.PASS_ERRORS e (s.reg Obj.PASS_ERRORS e - Nat.land (s.reg Obj.PASS_ERRORS e) (clearMask s 6 v))) 6

/-- The group and the value of a write of a block's own error word (R404), none for another object. -/
def blockWord (a v : Nat) : Option (Nat × Nat) :=
  if a = Obj.BASIN_ERRORS then some (5, v)
  else if a = Obj.STP_ERRORS then some (7, v)
  else if a = Obj.COH_ERRORS then some (9, v % 65536)
  else if a = Obj.COH_PROGRESS_ERRORS then some (9, v % 65536 * 65536)
  else if a = Obj.COL_ERRORS then some (10, v % 128)
  else if a = Obj.TWIN_ERRORS then some (11, v)
  else if a = Obj.GLEN_ERRORS then some (12, v)
  else none

end Sys2Proof.Machine
end

