-- ==== Sys2Proof/Machine/EdgeOps.lean ====
section
/-! DEFINITION. Shared operations of the edge ports (04_edge_ports.md): binding, PERST_L, answers of the switch mailbox. -/
namespace Sys2Proof.Machine

/-! ### Binding (R110 to R113, R117, R446) -/

/-- A Bindable logical device may be bound to an Unbound vPPB of a host port (R101, R110, R111), and a hierarchy takes at most
four CXL.cache-enabled ones (R117). -/
def mayBind (s : State) (h v dsp ld : Nat) : Bool :=
  s.isHost h && decide (1 ≤ v) && decide (v < 64) && decide (ld < 16) && s.isDownstream dsp && s.reg Obj.EDGE_LD_USE (16 * dsp + ld) == 1
    && (s.boundVppb dsp ld).isNone && s.regBits Obj.EDGE_VPPB (64 * h + v) 30 2 == 0 && s.regBits Obj.EDGE_PORT_STATE h 2 3 != 1
    && (!s.ldCache dsp ld || decide ((s.vhCaches h).length < 4))

/-- A vPPB is bound: it is Binding until it reports link-up toward the host, and HOST_ON of the port's slot becomes 1 (R113, R446). -/
def bindNow (s : State) (h v dsp ld : Nat) : State :=
  hostOnAtBind (recordEvent (s.setReg Obj.EDGE_VPPB (64 * h + v) (at_ 30 1 + at_ 29 1 + at_ 4 dsp + ld)) 2 h v) dsp

/-- The vPPB is free again, and with no vPPB bound to its port HOST_ON is 1 (R113, R446). -/
def unbound (s : State) (h v : Nat) : State :=
  let w := s.reg Obj.EDGE_VPPB (64 * h + v)
  let s1 := recordEvent (s.setReg Obj.EDGE_VPPB (64 * h + v) (bits w 0 10 + at_ 28 (bits w 28 1))) 3 h v
  if (List.range 16).any (fun l => (s1.boundVppb (bits w 4 6) l).isSome) then s1 else hostOnAtBind s1 (bits w 4 6)

/-- A vPPB is unbound (R113): with managed hot-remove it is Unbinding until the host has let go; otherwise the host sees a
surprise removal at once. -/
def unbindNow (s : State) (h v : Nat) (managed : Bool) : State :=
  let e := 64 * h + v
  if managed then (s.setRegBits Obj.EDGE_VPPB e 28 4 0xD).emit (.toPort h "managed hot-remove" [v])
  else (unbound (s.putRegBit Obj.EDGE_VPPB e 28 false) h v).emit (.toPort h "surprise removal" [v])

/-- A logical device that this device fronts has its decoders programmed by it (R112): host-managed coherence, no
back-invalidate, and its capacity in whole tracts. -/
def programDecoders (s : State) (e : Nat) : State :=
  if s.reg Obj.EDGE_LD_USE e = 2 ∧ s.ldReachable e = true then
    s.emit (.toPort (e / 16) "program decoders: host-managed, no back-invalidate" [e % 16, s.frontCount e * 2 ^ 28])
  else s

/-- A command of a fabric manager that changes an object counts as a write by that port (R59). -/
def fmWrote (s : State) (port a : Nat) (e : Option Nat) : State := recordWriter s 2 port a e

/-! ### The switch mailbox (R58, R121) -/

/-- An FM API command reaches the switch mailbox of a port: served on a fabric-manager port, Unsupported on another. -/
def fmCommand (port : Nat) (f : State → State) (s : State) : State :=
  if !s.firmware || !s.isHost port then s
  else if s.regBit Obj.MGP_FM_PORTS 0 port then f s else s.emit (.mailbox port rcUnsupported [])

/-- A command completes with Success and a payload of the CXL standard's layout that shows `values` (log entry 6). -/
def fmPayload (port opcode : Nat) (values : List Nat) (s : State) : State := s.emit (.mailbox port rcSuccess (Config.standardLayout opcode values))

/-- A command completes with Success and what the component it was passed on to has answered: a free value (log entry 6). -/
def fmAnswered (port opcode : Nat) (s : State) : State := (fmPayload port opcode [s.freeNow] s).useFree

/-- A command completes without output. -/
def fmDone (port rc : Nat) (s : State) : State := s.emit (.mailbox port rc [])

/-! ### PERST_L (R97) -/

/-- PERST_L of a downstream port may be deasserted as far as power is concerned: its slot gives PWRGD, or none serves it. -/
def powerGood (s : State) (p : Nat) : Bool := (s.portSlot p).elim true (fun n => s.slotPwrgd n)

/-- The fabric manager lets go of PERST_L: it is deasserted once its 1 ms minimum has passed (R97). A deassert within the
100 ms after PWRGD, or after the role's commit, ends that wait too: R97 does not say what the command does there (DESIGN
CHOICE, unsafe: log entry 87). -/
def releasePerst (s : State) (p : Nat) : State :=
  if powerGood s p then s.arm ⟨.perst, p, 0⟩ ((s.deadline ⟨.perstMin, p, 0⟩).elim 0 (fun d => d - s.now)) else s

end Sys2Proof.Machine
end

