-- ==== Sys2Proof/Machine/FmApi.lean ====
section
/-! DEFINITION. The CXL FM API commands of a fabric-manager port (R58, R59, R97, R113, R121, R433). -/
namespace Sys2Proof.Machine

/-- `IDENTIFY` (R121). -/
def execIdentify (dt port : Nat) (s : State) : Res := run dt s (fmCommand port fun t =>
  fmPayload port 0x0001 [t.reg Obj.ID_VENDOR, t.reg Obj.ID_PART, t.reg Obj.ID_SERIAL] t)

/-- `BACKGROUND_OPERATION_STATUS` (R121). -/
def execBackgroundOperationStatus (dt port : Nat) (s : State) : Res := run dt s (fmCommand port (fmPayload port 0x0002 []))

/-- `GET_RESPONSE_MESSAGE_LIMIT` (R121). -/
def execGetResponseMessageLimit (dt port : Nat) (s : State) : Res := run dt s (fmCommand port fun t =>
  t.emit (.mailbox port rcSuccess (leBytes t.mgmt.respLimit 1)))

/-- `SET_RESPONSE_MESSAGE_LIMIT` (R121). -/
def execSetResponseMessageLimit (dt port limit : Nat) (s : State) : Res := run dt s (fmCommand port fun t =>
  ({ t with mgmt := { t.mgmt with respLimit := limit % 256 } }).emit (.mailbox port rcSuccess (leBytes limit 1)))

/-- `GET_EVENT_RECORDS` (R121). -/
def execGetEventRecords (dt port : Nat) (s : State) : Res := run dt s (fmCommand port fun t =>
  fmPayload port 0x0100 (t.edge.events.flatMap (fun e => [e.1, e.2.1, e.2.2])) t)

/-- `CLEAR_EVENT_RECORDS` (R121). -/
def execClearEventRecords (dt port : Nat) (s : State) : Res := run dt s (fmCommand port fun t =>
  fmDone port rcSuccess { t with edge := { t.edge with events := [] } })

/-- `GET_TIMESTAMP` (R121, R433). -/
def execGetTimestamp (dt port : Nat) (s : State) : Res := run dt s (fmCommand port fun t =>
  t.emit (.mailbox port rcSuccess (leBytes t.timeBase 8)))

/-- The telemetry time base takes a value and runs on from it (R433). -/
def setTimeBase (s : State) (v : Nat) : State :=
  { s with tlm := { s.tlm with offset := (v % 2 ^ 64 : Int) - (s.now : Int), timeSet := true } }

/-- `SET_TIMESTAMP` (R59, R121, R433). -/
def execSetTimestamp (dt port ns : Nat) (s : State) : Res := run dt s (fmCommand port fun t =>
  fmDone port rcSuccess (fmWrote (setTimeBase t ns) port Obj.TLM_TIME none))

/-- `IDENTIFY_SWITCH_DEVICE` (R121). -/
def execIdentifySwitchDevice (dt port : Nat) (s : State) : Res := run dt s (fmCommand port fun t =>
  fmPayload port 0x5100 (port :: (List.range 64).map (fun p => b2n (t.portExists p))) t)

/-- What Get Physical Port State says of a port: its kind, role, state words, and whether PERST_L is deasserted. -/
def portValues (s : State) (p : Nat) : List Nat :=
  [p, s.portKind p, s.role p, s.reg Obj.EDGE_PORT_STATE p, s.reg Obj.LANE_PORT_STATUS p, s.reg Obj.LANE_PORT_MAX_RATE p, b2n (s.edge.perstReleased.contains p)]

/-- `GET_PHYSICAL_PORT_STATE` (R121). -/
def execGetPhysicalPortState (dt : Nat) (q : PortsQuery) (s : State) : Res := run dt s (fmCommand q.port fun t =>
  fmPayload q.port 0x5101 (q.ports.flatMap (portValues t)) t)

/-- A PPB is reset (R121): its port sends a hot reset, which takes the link down. -/
def resetPpb (s : State) (p : Nat) : State := if s.edgeUp p then edgeLinkDown (s.emit (.toPort p "hot reset" [])) p else s

/-- What Physical Port Control does to a port (R97). -/
def portControl (s : State) (target : Nat) : PortControl → State
  | .assertPerst => assertPerst s target
  | .deassertPerst => releasePerst s target
  | .resetPpb => resetPpb s target

/-- `PHYSICAL_PORT_CONTROL` (R97, R121): PERST_L is an output of downstream ports only. -/
def execPhysicalPortControl (dt port target : Nat) (op : PortControl) (s : State) : Res := run dt s (fmCommand port fun t =>
  if t.isDownstream target || (t.isEdge target && op == .resetPpb) then fmDone port rcSuccess (portControl t target op)
  else fmDone port rcInvalidInput t)

/-- `SEND_PPB_CXL_IO_CONFIGURATION_REQUEST` (R121). -/
def execSendPpbCxlIoConfigurationRequest (dt port ppb request : Nat) (s : State) : Res := run dt s (fmCommand port fun t =>
  if t.isEdge ppb then fmAnswered port 0x5103 (t.emit (.toPort ppb "PPB CXL.io configuration request" [request])) else fmDone port rcInvalidInput t)

/-- `GET_VIRTUAL_CXL_SWITCH_INFO` (R121). -/
def execGetVirtualCxlSwitchInfo (dt : Nat) (q : SwitchQuery) (s : State) : Res := run dt s (fmCommand q.port fun t =>
  if t.isHost q.host then
    fmPayload q.port 0x5200 (q.host :: t.reg Obj.EDGE_PORT_STATE q.host :: (List.range 64).map (fun v => t.reg Obj.EDGE_VPPB (64 * q.host + v))) t
  else fmDone q.port rcInvalidInput t)

/-- `BIND_VPPB` (R59, R111, R113, R121). While a commit is applied it acts at once too: R59 names no exception, and R63's
BUSY is a result code that an FM API command does not carry (DESIGN CHOICE, log entry 72). -/
def execBindVppb (dt port host vppb dsp ldId : Nat) (s : State) : Res := run dt s (fmCommand port fun t =>
  if mayBind t host vppb dsp ldId then fmDone port rcSuccess (fmWrote (bindNow t host vppb dsp ldId) port Obj.EDGE_VPPB (some (64 * host + vppb)))
  else fmDone port rcInvalidInput t)

/-- `UNBIND_VPPB` (R59, R113, R121), at once also while a commit is applied (DESIGN CHOICE, log entry 72). -/
def execUnbindVppb (dt port host vppb : Nat) (managed : Bool) (s : State) : Res := run dt s (fmCommand port fun t =>
  if 1 ≤ vppb ∧ vppb < 64 ∧ host < 64 ∧ t.regBit Obj.EDGE_VPPB (64 * host + vppb) 29 = true then
    fmDone port rcSuccess (fmWrote (unbindNow t host vppb managed) port Obj.EDGE_VPPB (some (64 * host + vppb)))
  else fmDone port rcInvalidInput t)

/-- `GENERATE_AER_EVENT` (R121). -/
def execGenerateAerEvent (dt port host vppb event : Nat) (s : State) : Res := run dt s (fmCommand port fun t =>
  if t.isHost host && decide (vppb < 64) && decide (event < 32) then fmDone port rcSuccess (aerError t host vppb event) else fmDone port rcInvalidInput t)

/-- `TUNNEL_MANAGEMENT_COMMAND` (R121): the MLD answers; the device serves no MLD component command itself. -/
def execTunnelManagementCommand (dt port dsp : Nat) (command : List Byte) (s : State) : Res := run dt s (fmCommand port fun t =>
  if t.isDownstream dsp && t.edgeUp dsp then fmAnswered port 0x5300 (t.emit (.toPort dsp "tunnelled management command" (command.map (·.toNat))))
  else fmDone port rcInvalidInput t)

/-- A request of the fabric manager to a logical device goes out of its downstream port, and its answer comes back. -/
def ldRequest (port opcode dsp ldId request : Nat) (what : String) (t : State) : State :=
  if t.isDownstream dsp && t.edgeUp dsp && decide (ldId < 16) then fmAnswered port opcode (t.emit (.toPort dsp what [ldId, request]))
  else fmDone port rcInvalidInput t

/-- `SEND_LD_CXL_IO_CONFIGURATION_REQUEST` (R121). -/
def execSendLdCxlIoConfigurationRequest (dt port dsp ldId request : Nat) (s : State) : Res := run dt s (fmCommand port
  (ldRequest port 0x5301 dsp ldId request "LD CXL.io configuration request"))

/-- `SEND_LD_CXL_IO_MEMORY_REQUEST` (R121). -/
def execSendLdCxlIoMemoryRequest (dt port dsp ldId request : Nat) (s : State) : Res := run dt s (fmCommand port
  (ldRequest port 0x5302 dsp ldId request "LD CXL.io memory request"))

/-- The mailbox opcodes that have a meaning of their own (R58, R121). -/
def servedOpcodes : List Nat :=
  [0x0001, 0x0002, 0x0003, 0x0004, 0x0100, 0x0101, 0x0300, 0x0301, 0x5100, 0x5101, 0x5102, 0x5103, 0x5200, 0x5201, 0x5202, 0x5203, 0x5300, 0x5301, 0x5302, 0xC400]

/-- `UNSUPPORTED_OPCODE` (R58, R121). -/
def execUnsupportedOpcode (dt port opcode : Nat) (s : State) : Res := run dt s fun t =>
  if !t.firmware || !t.isHost port || servedOpcodes.contains opcode then t else fmDone port rcUnsupported t

end Sys2Proof.Machine
end

