-- ==== Sys2Proof/Machine/Telemetry.lean ====
section
/-! DEFINITION. Statistics intervals, dumps and the telemetry FIFO (17_counters_and_telemetry.md). -/
namespace Sys2Proof.Machine

/-! ### The layout of a dump -/

/-- The counter objects of the dictionary, ascending (R428). -/
def counterObjs : List ObjDef := ((List.range 96).flatMap objsOf).filter isCounter

/-- The elements of an object in the layout: one for an object that is no TABLE. -/
def entryCount (o : ObjDef) : Nat := max 1 o.count

/-- The entries of a dump record: every element of every counter object (R428). -/
def dumpEntries : Nat := (counterObjs.map entryCount).sum

/-- The entry index of element 0 of an object (R428). -/
def entryBase (a : Nat) : Nat := ((counterObjs.filter (fun o => decide (o.addr < a))).map entryCount).sum

/-- The counter-dump partition of Steppe (R426). -/
abbrev dumpBase : Nat := 0x2E90000000

/-! ### Interval boundaries -/

/-- The gatherer's interval timer (R424). -/
abbrev intervalTimer : Timer := ⟨.interval, 0, 0⟩

/-- The register key is that of an element of a counter object. -/
def counterKey (k : Nat) : Bool :=
  match findObj (k / 65536) with
  | some o => isCounter o
  | none => false

/-- OVF of a counter element, in its place in an entry (R427). -/
def ovfOf (s : State) (k : Nat) : Nat := at_ 63 (b2n (bitAt (sparseGet defaultOf s.regs k) 63))

/-- The entries a boundary latches (R423, R427, R441): the elements with an interval part or with OVF set; an element of
`bad` has met an uncorrectable error and reads all ones. -/
def latchedEntries (s : State) (bad : List Nat) : List (Nat × Nat) :=
  (s.tlm.intervals.filter (fun e => e.2 != 0 && !bad.contains e.1)).map (fun e => (e.1, ovfOf s e.1 + e.2))
    ++ (s.regs.filter (fun e => bitAt e.2 63 && counterKey e.1 && ((assocGet s.tlm.intervals e.1).getD 0 == 0) && !bad.contains e.1)).map
      (fun e => (e.1, 2 ^ 63))
    ++ bad.map (fun k => (k, ovfOf s k + (2 ^ 48 - 1)))

/-- A latched value joins one that waits (R429): interval parts are added, OVF bits are or-ed; a part that met an
uncorrectable error keeps all ones (R441). -/
def mergeEntry (old new : Nat) : Nat :=
  at_ 63 (b2n (bitAt old 63 || bitAt new 63))
    + (if old % 2 ^ 48 = 2 ^ 48 - 1 ∨ new % 2 ^ 48 = 2 ^ 48 - 1 then 2 ^ 48 - 1 else (old % 2 ^ 48 + new % 2 ^ 48) % 2 ^ 48)

/-- New entries join those of a waiting set. -/
def mergeEntries (old new : List (Nat × Nat)) : List (Nat × Nat) :=
  new.foldl (fun l e => assocPut l e.1 (mergeEntry ((assocGet l e.1).getD 0) e.2)) old

/-- The flags of the interval that ends (R427). -/
def intervalFlags (s : State) : Nat :=
  at_ 1 (b2n (s.reg Obj.STAT_INTERVAL != s.tlm.length)) + at_ 2 (b2n s.tlm.timeSet)

/-- A latched set waits for its dump, or merges into the set that waits, which raises DUMP_LATE (R429). -/
def latchSet (s : State) (flags start stop : Nat) (entries : List (Nat × Nat)) : State :=
  match s.tlm.waiting with
  | none => { s with tlm := { s.tlm with waiting := some ⟨0, 1, flags, start, stop, entries⟩ } }
  | some d =>
    let m : Dump := ⟨0, (d.intervals + 1) % 65536, Nat.lor d.flags flags, d.start, stop, mergeEntries d.entries entries⟩
    raise ({ s with tlm := { s.tlm with waiting := some m } }.count1 Obj.STAT_DUMP_MERGED 0) 13 1

/-- `GLEN.ENGINE_LOAD`: the share of an engine's 24 GB/s that it moved in the interval that ends. -/
def engineLoads (s : State) : State :=
  let full := s.tlm.length * 24000000
  let u := forEach (List.range 64) s fun t e =>
    t.setReg Obj.GLEN_ENGINE_LOAD e (min 100 ((assocGet s.glen.served e).getD 0 * 100 / max 1 full))
  { u with glen := { u.glen with served := [] } }

/-- The boundary at moment `d` (R423, R424): the set is latched, every interval part restarts, the next boundary is set. -/
def boundary (s : State) (d : Nat) (bad : List Nat) : State :=
  let stop := ((d : Int) + s.tlm.offset).toNat % 2 ^ 64
  let len := s.reg Obj.STAT_INTERVAL
  let s1 := { s with timers := (intervalTimer, d + len * 1000000) :: s.timers.filter (fun e => e.1 != intervalTimer) }
  let s2 := s1.setReg Obj.STAT_INTERVAL_SEQ 0 ((s1.reg Obj.STAT_INTERVAL_SEQ + 1) % 2 ^ 32)
  let s2' := engineLoads s2
  let s3 : State := { s2' with tlm := { s2'.tlm with intervals := [], length := len, opened := stop, timeSet := false } }
  let s4 := if s2.reg Obj.STAT_DUMP_EN = 1 then latchSet s3 (intervalFlags s2) s2.tlm.opened stop (latchedEntries s2 bad) else s3
  if bad.isEmpty then s4 else raise s4 13 2

/-- `INTERVAL_BOUNDARY` (R424, R441); `bad` are the counter elements whose latched part meets an uncorrectable error. -/
def execIntervalBoundary (dt : Nat) (bad : List CounterElem) (s : State) : Res := run dt s fun s =>
  s.withSome (s.deadline intervalTimer) fun d =>
    if d ≤ s.now then boundary (settleAll s) d ((bad.map (fun e => regKey e.object e.element)).filter counterKey) else s

/-! ### Dumps -/

/-- The header of a dump record (R427). -/
def dumpHeader (s : State) (d : Dump) (slot flags check : Nat) : List Byte :=
  leBytes d.seq 4 ++ leBytes d.intervals 2 ++ leBytes flags 2 ++ leBytes d.start 8 ++ leBytes d.stop 8 ++ leBytes dumpEntries 4
    ++ leBytes slot 4 ++ leBytes (s.reg Obj.ID_DESC_DIGEST) 16 ++ leBytes check 8 ++ List.replicate 8 0

/-- Where slot `n` of the ring begins (R426). -/
def slotBase (s : State) (n : Nat) : Nat := dumpBase + n * s.reg Obj.STAT_DUMP_SLOT_SIZE

/-- The address of the entry of a counter element in a slot. -/
def entryAddr (s : State) (slot k : Nat) : Nat := slotBase s slot + 64 + 8 * (entryBase (k / 65536) + k % 65536)

/-- Steps 1 and 2 of R429: the header without VALID, and the entries, into the next slot of the ring. -/
def writeDump (s : State) (d : Dump) : State :=
  let slot := s.tlm.dumpSlot
  let d1 := { d with seq := s.tlm.dumpSeq }
  let s1 := cleanLines s (slotBase s slot / 64) (1 + dumpEntries / 8)
  let s2 := { s1 with mem := s1.mem.filter (fun c => decide (c.1 < slotBase s slot) || decide (slotBase s slot + 64 + 8 * dumpEntries ≤ c.1)) }
  let s3 := forEach d1.entries (s2.setBytes (slotBase s slot) (dumpHeader s d1 slot d1.flags 0)) (fun t e => t.setBytes (entryAddr s slot e.1) (leBytes e.2 8))
  pushItem { s3 with tlm := { s3.tlm with
    waiting := none, formatting := some (slot, d1), dumpSeq := (s.tlm.dumpSeq + 1) % 2 ^ 32, dumpSlot := (slot + 1) % s.reg Obj.STAT_DUMP_SLOTS } }
    (s.engineOf 0) ⟨5, none, slot⟩

/-- `DUMP_WRITE` (R208, R429): the waiting set is written once Steppe memory is Ready and while `STAT.DUMP_EN` is 1; its
formatting item follows (R323). -/
def execDumpWrite (dt : Nat) (s : State) : Res := run dt s fun s =>
  match s.tlm.waiting, s.tlm.formatting with
  | some d, none => if s.steppeReady && s.reg Obj.STAT_DUMP_EN == 1 then writeDump s d else s
  | _, _ => s

/-- Step 3 of R429: CHECK and VALID; `STAT.DUMP_LAST`, and the dump record of R436. -/
def formatDump (s : State) (slot : Nat) (d : Dump) : State :=
  let r := s.sysRead (slotBase s slot + 64) (8 * dumpEntries)
  let s1 := r.1.sysWrite (slotBase s slot) (dumpHeader s d slot (d.flags + 1) (crc64 r.2.data))
  let s2 := { s1 with tlm := { s1.tlm with formatting := none } }.setReg Obj.STAT_DUMP_LAST 0 (at_ 63 1 + at_ 32 slot + d.seq)
  if s2.regBit Obj.TLM_EVENT_EN 0 0 then report s2 (.record 3 [d.seq + at_ 32 slot, d.stop]) else s2

/-- What a read of `STAT.DUMP_DATA` returns (R430). -/
def dumpData (s : State) (_ _ : Nat) : List Byte := s.sysBytes (dumpBase + s.reg Obj.STAT_DUMP_ADDR) 256

/-- A read of `STAT.DUMP_DATA` advances `STAT.DUMP_ADDR`, wrapping at the end of the partition (R430). -/
def dumpAdvance (s : State) : State :=
  (s.sysRead (dumpBase + s.reg Obj.STAT_DUMP_ADDR) 256).1.setReg Obj.STAT_DUMP_ADDR 0 ((s.reg Obj.STAT_DUMP_ADDR + 256) % 0x30000000)

/-- `DUMP_DATA_READ` (R430). -/
def execDumpDataRead (dt : Nat) (path : Path) (s : State) : Res := run dt s fun s =>
  serveRead s path .read (readRec Obj.STAT_DUMP_DATA none) dumpData dumpAdvance

/-- A write of `STAT.PROG_SELECT` (R431): counter k is zeroed and counts the element named. -/
def progSelectEffect (k value : Nat) (s : State) : State := (plainWrite s Obj.STAT_PROG_SELECT k value).setReg Obj.STAT_PROG_COUNT k 0

/-- `PROG_SELECT` (R431). -/
def execProgSelect (dt : Nat) (path : Path) (k value : Nat) (s : State) : Res := run dt s fun s =>
  serveWrite s path (writeRec Obj.STAT_PROG_SELECT (some k) value) (progSelectEffect k value)

/-! ### The telemetry FIFO -/

/-- The records from R onward. -/
def unreadRecs (s : State) : List (List Nat) :=
  (s.tlm.recs.foldl (fun (acc : Nat × List (List Nat)) r =>
    (acc.1 + r.length, if s.tlm.r ≤ acc.1 then acc.2 ++ [r] else acc.2)) (s.tlm.f, [])).2

/-- The whole records that fit in `room` words, from the head of a list (R438); a record of `bad` has an uncorrectable
word and is discarded when it is read (R441). The result: the words returned, the words passed, the records discarded. -/
def takeRecs (bad : List Nat) : Nat → Nat → List (List Nat) → List Nat × Nat × Nat
  | _, _, [] => ([], 0, 0)
  | room, n, r :: rs =>
    if bad.contains n then
      let t := takeRecs bad room (n + 1) rs
      (t.1, r.length + t.2.1, t.2.2 + 1)
    else if r.length ≤ room then
      let t := takeRecs bad (room - r.length) (n + 1) rs
      (r ++ t.1, r.length + t.2.1, t.2.2)
    else ([], 0, 0)

/-- What a read of `TLM.READ` returns (R438). -/
def tlmData (bad : List Nat) (s : State) (_ _ : Nat) : List Byte :=
  let words := (takeRecs bad 32 0 (unreadRecs s)).1
  padTo (leBytes (at_ 63 (b2n !words.isEmpty) + words.length) 8 ++ words.flatMap (fun w => leBytes w 8)) 264

/-- A read of `TLM.READ` advances R; records discarded for an error are owed a TYPE 5 record (R438, R441). -/
def tlmAdvance (bad : List Nat) (s : State) : State :=
  let t := takeRecs bad 32 0 (unreadRecs s)
  let s1 := { s with tlm := { s.tlm with r := s.tlm.r + t.2.1, owed := s.tlm.owed + t.2.2 } }
  if t.2.2 = 0 then s1 else raise s1 13 2

/-- `TLM_READ` (R438, R441); `bad` are the positions, among the unread records, of records with an uncorrectable word. -/
def execTlmRead (dt : Nat) (path : Path) (bad : List Nat) (s : State) : Res := run dt s fun s =>
  serveRead s path .read (readRec Obj.TLM_READ none) (tlmData bad) (tlmAdvance bad)

/-- Free the words before R (R437): F = R, M = R, and the records before R are gone. -/
def releaseFifo (s : State) : State :=
  { s with tlm := { s.tlm with f := s.tlm.r, m := s.tlm.r, recs := unreadRecs s } }

/-- A write of `TLM.CTRL` (R437, R440): 1 mark, 2 rewind, 3 release. -/
def tlmCtrlEffect (v : Nat) (s : State) : State :=
  match v with
  | 1 => { s with tlm := { s.tlm with m := s.tlm.r } }
  | 2 => { s with tlm := { s.tlm with r := s.tlm.m } }
  | 3 =>
    let r := watermark (releaseFifo s)
    work 64 r.2 r.1
  | _ => s

/-- `TLM_MARK` (R437). -/
def execTlmMark (dt : Nat) (path : Path) (s : State) : Res := run dt s fun s =>
  serveWrite s path (writeRec Obj.TLM_CTRL none 1) (tlmCtrlEffect 1)

/-- `TLM_REWIND` (R437). -/
def execTlmRewind (dt : Nat) (path : Path) (s : State) : Res := run dt s fun s =>
  serveWrite s path (writeRec Obj.TLM_CTRL none 2) (tlmCtrlEffect 2)

/-- `TLM_RELEASE` (R437, R440). -/
def execTlmRelease (dt : Nat) (path : Path) (s : State) : Res := run dt s fun s =>
  serveWrite s path (writeRec Obj.TLM_CTRL none 3) (tlmCtrlEffect 3)

/-- The body words of a record TYPE (R436), none for a TYPE that no unit offers. -/
def bodyWords (type : Nat) : Option Nat :=
  match type with
  | 1 => some 10
  | 2 => some 4
  | 3 => some 2
  | 4 => some 1
  | _ => none

/-- The TYPE enters the FIFO (R436): dump and fault records only while their bit of `TLM.EVENT_EN` is set. -/
def typeEnters (s : State) (type : Nat) : Bool :=
  if type = 3 then s.regBit Obj.TLM_EVENT_EN 0 0 else if type = 4 then s.regBit Obj.TLM_EVENT_EN 0 1 else true

/-- `TLM_RECORD_OFFER` (R436, R439). -/
def execTlmRecordOffer (dt type : Nat) (body : List Nat) (s : State) : Res := run dt s fun s =>
  if bodyWords type = some body.length ∧ typeEnters s type = true then report s (.record type (body.map (· % 2 ^ 64))) else s

/-- `TIME_SET` (R433). -/
def execTimeSet (dt : Nat) (path : Path) (value : Nat) (s : State) : Res := run dt s fun s =>
  serveWrite s path (writeRec Obj.TLM_TIME none value) (fun t => setTimeBase t value)

/-- A write of a watermark object: the pin is evaluated again (R440). -/
def watermarkEffect (a value : Nat) (s : State) : State :=
  let r := watermark (plainWrite s a 0 value)
  work 64 r.2 r.1

/-- `WATERMARK_WRITE` (R440). -/
def execWatermarkWrite (dt : Nat) (path : Path) (high : Bool) (value : Nat) (s : State) : Res := run dt s fun s =>
  serveWrite s path (writeRec (if high then Obj.TLM_HIGH_WM else Obj.TLM_LOW_WM) none value)
    (watermarkEffect (if high then Obj.TLM_HIGH_WM else Obj.TLM_LOW_WM) value)

end Sys2Proof.Machine
end

