-- ==== Sys2Proof/Machine/TwinPair.lean ====
section
/-! DEFINITION. Shared operations of the twin pair that act on homes (13_twin_pairs.md): comparing allocations, mirror
copies, the twin's log, pair states, takeover, the end of a resync. -/
namespace Sys2Proof.Machine

/-- A message of the twin is taken from the receive pool of a Saddle port that is Up (R337). -/
def takeTwin (s : State) (p kind : Nat) (msg : List Byte) : Option State :=
  if s.isSaddle p && s.passUp p && leField msg 0 1 == kind then (takePool s p msg).map (·.1) else none

/-! ### PAIR_INFO (R336, R337) -/

/-- The own allocation with a FIRST that is Live. -/
def State.allocAt (s : State) (first : Nat) : Option Nat :=
  (s.elements Obj.TRACT_ALLOC_STATE).find? (fun i => s.allocState i == 1 && s.allocFirst i == first)

/-- A listed allocation of the partner agrees with this device's counterpart: 16 bytes at `off` of PAIR_INFO (R336). -/
def pairMatches (s : State) (m : List Byte) (off : Nat) : Bool :=
  let attr := leField m (off + 9) 1
  (s.allocAt (leField m off 4)).elim false fun i =>
    s.allocCount i == leField m (off + 4) 4 && leField m (off + 8) 1 == 0
      && s.allocRole i == (if 1024 ≤ leField m off 4 then 2 else 1)
      && s.allocTracked i == bitAt attr 1 && s.allocKeyed i == bitAt attr 2 && s.allocShared i == bitAt attr 3
      && s.allocOwner i == leField m (off + 10) 2 % 4096

/-- One listed allocation is compared. -/
def compareListed (m : List Byte) (s : State) (i : Nat) : State :=
  let off := 32 + 16 * i
  let first := leField m off 4
  if pairMatches s m off then
    let s1 := markPaired s first
    { s1 with twin := { s1.twin with listed := first :: s1.twin.listed } }
  else markUnpaired s first

/-- The last message of a series: what it has not matched is no longer paired, and the Mirror copy and Standby allocations
without a counterpart are unpaired. -/
def endPairInfo (s : State) : State :=
  let lone := (s.elements Obj.TRACT_ALLOC_STATE).filter (fun i =>
    s.allocState i == 1 && (s.allocRole i == 1 || s.allocRole i == 2) && !s.twin.listed.contains (s.allocFirst i))
  let s1 := forEach lone s fun t i => markUnpaired t (t.allocFirst i)
  { s1 with twin := { s1.twin with paired := s1.twin.paired.filter (s1.twin.listed.contains ·), listed := [] } }

/-! ### Mirror copies (R339, R340, R360) -/

/-- The paired Mirror copy allocation that holds a line of the partner. -/
def State.mirrorCopy (s : State) (k : Nat) : Option Nat :=
  match s.liveAlloc (keyTract k) with
  | some i => if s.allocRole i == 1 && s.twin.paired.contains (s.allocFirst i) && keyHome k == s.reg Obj.TWIN_PARTNER_SWITCH then some i else none
  | none => none

/-- A MIRROR_WR or RESYNC_DATA is written into the Mirror copy (R340). -/
def writeMirror (s : State) (i : Nat) (m : List Byte) : State :=
  let k := leField m 16 8 % 2 ^ 45
  let slot := s.allocSlot i
  writeHome s (keyLine k) slot (plain s slot (keyLine k) (slice m 32 64)) (bitAt (leField m 24 4) 31) (bitAt (leField m 24 4) 30)

/-! ### The log at the twin (R343 to R345) -/

/-- The parity of the slice a log record belongs to, and with it its series (R338). -/
def recordOdd (r : List Byte) : Bool :=
  let type := leField r 0 1
  if type = 1 ∨ type = 2 then sliceOf (leField r 8 8 % 2 ^ 45) % 2 == 1 else type != 5 && leField r 8 1 % 2 == 1

/-- The record's LSN has been applied already (R341). -/
def alreadyApplied (s : State) (r : List Byte) : Bool :=
  match assocGet s.twin.applied (b2n (recordOdd r)) with
  | some last => decide ((leField r 4 4 + 2 ^ 32 - last) % 2 ^ 32 = 0) || decide (2 ^ 31 ≤ (leField r 4 4 + 2 ^ 32 - last) % 2 ^ 32)
  | none => false

/-- A unit is Dirty in this device's marks for its partner. -/
def twinDirty (s : State) (u : Nat) : State := { s with twin := { s.twin with twinClean := s.twin.twinClean.filter (· != u) } }

/-- ENTRY: a twin entry is created or replaced (R345). Where its set has no way to give at once, the entry is as if it had
been evicted: its unit is Dirty. -/
def applyEntry (s : State) (k : Nat) (e : Ent) : State :=
  let n := s.engineOf (sliceOf k)
  if s.setFull n false k then
    let r := beginEvict s n (dirSet k)
    if r.1.setFull n false k then twinDirty r.1 (unitOf k) else setEnt r.1 n false k e
  else setEnt s n false k e

/-- KEY_DESTROY: the slot of the counterpart allocation is destroyed (R233, R343). -/
def applyKeyDestroy (s : State) (first : Nat) : State :=
  match (s.elements Obj.TRACT_ALLOC_STATE).find? (fun i => s.allocFirst i == first && s.allocRole i != 0) with
  | some i => destroySlot s (s.allocSlot i) (decide (1024 ≤ first))
  | none => s

/-- What a record does, by its TYPE (R345). -/
def recordEffect (s : State) (r : List Byte) : State :=
  let arg := leField r 8 8
  match leField r 0 1 with
  | 1 => applyEntry s (arg % 2 ^ 45) (entOf (leField r 16 16))
  | 2 => setEnt s (s.engineOf (sliceOf (arg % 2 ^ 45))) false (arg % 2 ^ 45) Ent.invalid
  | 3 => twinDirty s (arg % 2 ^ 32)
  | 4 => { twinDirty s (arg % 2 ^ 32) with twin := { (twinDirty s (arg % 2 ^ 32)).twin with twinClean := arg % 2 ^ 32 :: (twinDirty s (arg % 2 ^ 32)).twin.twinClean } }
  | 5 => applyKeyDestroy s arg
  | _ => s

/-- A log record is applied, once (R341, R345). -/
def applyRecord (s : State) (r : List Byte) : State :=
  if alreadyApplied s r then s
  else
    let s1 := recordEffect s r
    ({ s1 with twin := { s1.twin with applied := assocPut s1.twin.applied (b2n (recordOdd r)) (leField r 4 4) } }).count1 Obj.TWIN_LOG_APPLIED 0

/-! ### Pair states (R347, R348, R357) -/

/-- The two signals of R347. -/
def State.msgAlive (s : State) : Bool := s.regBit Obj.TWIN_STATE 0 26
def State.pinAlive (s : State) : Bool := s.regBit Obj.TWIN_STATE 0 25

/-- Where a HEARTBEAT or an edge leaves the pair (R348): a Joining device meets its partner, a Split pair has both signals
back, a Survivor meets a new or reset partner. `old` is the pair state the partner reported before. -/
def evalPair (s : State) (old : Nat) : State :=
  let st := s.pairState
  let ps := s.twin.partnerState
  if s.lowSaddle.isNone then s
  else if st = 1 then
    if ps = 5 ∨ (ps = 2 ∧ old = 5) then holdOthers (enterResync s false)
    else if ps = 1 ∨ ps = 4 ∨ ps = 2 then enterResync s true
    else s
  else if st = 4 then (if s.msgAlive && s.pinAlive then enterResync s true else s)
  else if st = 5 then (if ps = 1 ∨ ps = 2 then enterResync s true else s)
  else s

/-- Takeover begins (R348, R350): the pair state is Survivor, TWIN_LOST is raised and with it the replace request; nothing
that waited for the lost twin goes out any more. -/
def beginTakeover (s : State) (steppeToo : Bool) : State :=
  let s0 := basinDiscard (basinDiscard s 56) 60
  let s1 := (setPairState s0 5).count1 Obj.TWIN_TAKEOVERS 0
  let s2 := { s1 with twin := { s1.twin with judgedAt := s1.now, takeover := true, steppeToo := steppeToo, openLog := [] } }
  settle (raise s2 11 1)

/-- The partner is judged lost (R347, R348): a receiving side of a resync serves Standby tracts only. -/
def partnerLost (s : State) : State :=
  if s.pairState = 3 ∨ s.pairState = 4 then beginTakeover s true
  else if s.pairState = 2 then beginTakeover s (s.regBit Obj.TWIN_STATE 0 28)
  else s

/-! ### Takeover (R350 to R354) -/

/-- Messages of the lost twin that had been accepted and are not yet applied (step 2). -/
def drainLeft (s : State) : Bool :=
  [56, 60].any (fun p => (s.passPort p).rxPool.any (fun m => [0x40, 0x41, 0x45].contains (leField m.bytes 0 1)))

/-- The paired allocations that become Home (step 4, R353). -/
def adoptable (s : State) : List Nat :=
  (s.elements Obj.TRACT_ALLOC_STATE).filter (fun i => s.allocState i == 1 && s.twin.paired.contains (s.allocFirst i)
    && ((s.allocRole i == 1 && s.twin.steppeToo) || s.allocRole i == 2))

/-- The units of an allocation. -/
def allocUnits (s : State) (i : Nat) : List Nat := (List.range (4096 * s.allocCount i)).map (4096 * s.allocFirst i + ·)

/-- Roles change (step 4): the adopted allocations are Home, and their Dirty units are listed as unreconciled. -/
def adopt (s : State) : State :=
  let mine := adoptable s
  let dirty := (mine.filter (fun i => s.allocTracked i)).foldl (fun l i => l ++ (allocUnits s i).filter (fun u => !(s.twin.steppeToo && s.twin.twinClean.contains u))) []
  let s1 := forEach mine s fun t i => firmwareWrote (t.setRegBits Obj.TRACT_ALLOC_ATTR i 62 2 0) Obj.TRACT_ALLOC_ATTR (some i)
  let s2 := { s1 with guard := { s1.guard with adopted := s1.guard.adopted ++ mine }, twin := { s1.twin with unreconciled := dirty, done := [] } }
  pushAllSlices (s2.setReg Obj.TWIN_UNITS_LEFT 0 (dirty.length % 2 ^ 32)) 2

/-- A request a port agent had outstanding toward the lost twin goes to the own engines with its TAG (step 5). -/
def resendLocally (s : State) (t : Txn) : State :=
  if t.status = .sent then
    let m := { t.msg with epoch := s.col.agentEpoch }
    sendRequest (putTxn s { t with msg := m }) .internal m
  else s

/-- What the lost twin's number had under way here ends (step 5): its proxy records and proxy snoops, and requests on their
way to the proxy. -/
def forgetProxy (s : State) (w : Nat) : State :=
  { s with coh := { s.coh with
    records := s.coh.records.filter (fun r => keyHome r.key != w)
    flight := s.coh.flight.filter (fun f => !(keyHome f.msg.key == w && f.msg.switch == s.ownSwitch && f.msg.kind ≤ 9))
    ctxs := s.coh.ctxs.map (fun c => if c.proxy = true ∧ keyHome c.key = w ∧ c.work = .proxy then { c with work := .release } else c) } }

/-- The survivor serves the lost twin's homes (R350 steps 3 to 5). -/
def serveTakeover (s : State) : State :=
  let w := s.reg Obj.TWIN_PARTNER_SWITCH % 16
  let s1 := { s with twin := { s.twin with aliasOf := some w, takeover := false } }.putRegBit Obj.TWIN_STATE 0 27 true
  let s2 := adopt (sendRoutes (if s1.devState = 3 then s1 else firmwareWrote (enterState s1 3) Obj.DEV_STATE none))
  let s3 := forgetProxy s2 w
  let s4 := forEach (s3.coh.txns.filter (fun t => keyHome t.msg.key == w)) s3 resendLocally
  settle (s4.setReg Obj.TWIN_TAKEOVER_TIME 0 ((s4.now - s4.twin.judgedAt) / 1000 % 2 ^ 32))

/-- The alias ends (R354): the number is no longer advertised, and its tracts are unreachable. -/
def endAlias (s : State) : State :=
  if s.regBit Obj.TWIN_STATE 0 27 then sendRoutes ({ s with twin := { s.twin with aliasOf := none } }.putRegBit Obj.TWIN_STATE 0 27 false) else s

/-! ### Background reconciliation (R351, R352) -/

/-- The lines of a slice whose unit is unreconciled and that are not settled yet. -/
def unreconciledIn (s : State) (slice : Nat) : List Nat :=
  let units := s.twin.unreconciled.filter (fun u => u % 4096 == slice)
  let home := s.twin.aliasOf.getD 0
  units.foldl (fun l u => l ++ ((List.range (2 ^ 22)).map (fun i => home * 2 ^ 41 + u / 4096 * 2 ^ 22 + i)).filter (fun k => sliceOf k == slice && s.unreconciledLine k)) []

/-- The units of a slice are reconciled. -/
def sliceReconciled (s : State) (slice : Nat) : State :=
  let left := s.twin.unreconciled.filter (fun u => u % 4096 != slice)
  { s with twin := { s.twin with unreconciled := left, done := s.twin.done.filter (fun k => sliceOf k != slice) } }.setReg Obj.TWIN_UNITS_LEFT 0 (left.length % 2 ^ 32)

/-! ### The end of a resync (R360) -/

/-- The line is sent to the twin as it is stored. -/
def sendResyncKey (s : State) (i l k : Nat) : State :=
  let r := readHome s l (s.allocSlot i)
  sendMirrorMsg r.1 (s.engineOf (sliceOf k)) (s.twinPort (sliceOf k % 2 == 1))
    (mirrorBytes r.1 0x45 k (s.allocSlot i) r.2.data r.2.poison (s.lineTracked (memLine l)))

/-- The line is sent under its key. -/
def sendResyncLine (i : Nat) (s : State) (l : Nat) : State := sendResyncKey s i l (s.ownSwitch * 2 ^ 41 + l)

/-- The entries of an allocation that this device homes. -/
def homeEntries (s : State) (i : Nat) : List Nat :=
  ((List.range 4096).foldl (fun l x => l ++ (sliceLines s x).filter (fun e => !e.1)) []).filterMap (fun e =>
    if keyHome e.2 = s.ownSwitch ∧ s.allocHas i (keyTract e.2) = true then some e.2 else none)

/-- The sending side's walk of one paired allocation: every line of a mirrored one, and every entry of a tracked one. -/
def copyAlloc (s : State) (i : Nat) : State :=
  let s1 := if s.allocMirrored i then forEach ((List.range (s.allocCount i * 2 ^ 22)).map (s.allocFirst i * 2 ^ 22 + ·)) s (sendResyncLine i) else s
  if s1.allocTracked i then
    forEach (homeEntries s1 i) s1 fun t k => logEntry t k (some (leBytes ((t.entNow (t.engineOf (sliceOf k)) false k).word false k) 16))
  else s1

/-- A resync has copied everything (R360): the sending side's copy, the progress, the pair state, the held ports. -/
def resyncDone (s : State) : State :=
  let s1 := if s.regBit Obj.TWIN_STATE 0 28 then forEach ((s.elements Obj.TRACT_ALLOC_STATE).filter (fun i => s.hasCounterpart i)) s copyAlloc else s
  let s2 := enterPaired (s1.setReg Obj.TWIN_RESYNC_PROGRESS 0 100)
  forEach ((List.range 64).filter (fun p => s2.isPass p && !s2.isSaddle p && s2.passState p == 6 && s2.regBits Obj.PASS_LINK_STATE p 24 4 == 5)) s2 fun t p =>
    (setPassState t p 1).arm ⟨.detect, p, 0⟩ 12000000

end Sys2Proof.Machine
end

