-- ==== Sys2Proof/Machine/Background.lean ====
section
/-! DEFINITION. The background items of the Col deques (R296, R323, R324): sweeps, release sweeps, reconciliation, scrub
follow-ups, dirty-log compaction, dump formatting. -/
namespace Sys2Proof.Machine

/-- The item at the head of engine `n`'s deque has run. -/
def popItem (s : State) (n : Nat) : State := setDeque s n (s.deque n).tail

/-! ### Lines that a background context clears (R234, R352) -/

/-- A background context sends SNP_INV to the holders of a line; a line without holders is settled at once. A line whose
context is open, or for which no background context is free, waits. -/
def clearLine (s : State) (n k : Nat) (holders : List Requester) : State :=
  if s.ctxOn false k then s
  else if holders.isEmpty then markReconciled (setEnt s n false k Ent.invalid) k
  else if s.backgroundFree n then
    openCtx s ⟨n, k, false, .release, deviceMsg s 0x10 k 0xFFFF 0 [] false, [], .none, 3, true⟩ (holders.map (fun h => (h, 0x10)))
  else s

/-- The home lines with an entry in a slice whose tract is being released (R234). -/
def releasingIn (s : State) (slice : Nat) : List Nat :=
  (sliceLines s slice).filterMap (fun l => if !l.1 && s.isOwn (keyHome l.2) && (s.releasingAlloc (keyTract l.2)).isSome then some l.2 else none)

/-- A release sweep goes on in a line: its Dead holders are settled, the others are invalidated. -/
def releaseLine (n : Nat) (s : State) (k : Nat) : State :=
  if s.ctxOn false k then s else
    let s1 := settleDead s n false k
    clearLine s1 n k (s1.entNow n false k).holders

/-- A release sweep of a slice: the item has run when no line of a releasing tract has an entry left. -/
def runRelease (s : State) (n slice : Nat) : State :=
  if s.draining slice then s else
    let s1 := settle (forEach (releasingIn s slice) s (releaseLine n))
    if (releasingIn s1 slice).isEmpty then popItem s1 n else s1

/-- A line of a Clean unit of the lost twin is merged (R351). -/
def mergeClean (n : Nat) (s : State) (l : Bool × Nat) : State :=
  if !l.1 && s.adoptedKey l.2 && !s.unreconciledLine l.2 && !s.ctxOn false l.2 then mergeLine s n l.2 else s

/-- A line of an unreconciled unit: its proxy entry goes, its entry becomes Invalid, every possible sharer is
invalidated (R352). -/
def reconcileLine (n : Nat) (s : State) (k : Nat) : State :=
  if s.ctxOn false k then s
  else if (possibleSharers s).isEmpty || s.backgroundFree n then
    clearLine (setEnt (setEnt s n true k Ent.invalid) n false k Ent.invalid) n k (possibleSharers s)
  else s

/-- Reconciliation of a slice (R351, R352): the item has run when no line of it is unreconciled. -/
def runReconcile (s : State) (n slice : Nat) : State :=
  if s.draining slice then s else
    let s1 := forEach (sliceLines s slice) s (mergeClean n)
    let s2 := settle (forEach (unreconciledIn s1 slice) s1 (reconcileLine n))
    if (unreconciledIn s2 slice).isEmpty then popItem (sliceReconciled s2 slice) n else s2

/-! ### The other items -/

/-- A scrub follow-up (R210, R323): a line with a listed holder is recorded in the lost log; which holder and which cause
the record names the spec does not state, so a free value chooses them. -/
def runFollowUp (s : State) (n k : Nat) : State :=
  let s1 := lookupEnt s n false k false
  let hs := (s1.entNow n false k).holders
  if hs.isEmpty then s1
  else pushLog s1.useFree Obj.COH_LOST_LOG 64 (lostWord (s1.freeNow % 4) k (hs.getD (s1.freeNow / 4 % hs.length) .device))

/-- Dump formatting (R429). -/
def runFormat (s : State) (slot : Nat) : State :=
  match s.tlm.formatting with
  | some (n, d) => if n = slot then formatDump s slot d else s
  | none => s

/-- An item runs on engine `n`. -/
def runItem (s : State) (n : Nat) (i : BgItem) : State :=
  match i.kind with
  | 0 => showSweep (popItem (sweepSlice s n (i.slice.getD 0)) n)
  | 1 => runRelease s n (i.slice.getD 0)
  | 2 => runReconcile s n (i.slice.getD 0)
  | 3 => popItem (runFollowUp s n i.arg) n
  | 4 => popItem (foldDirty s (fun d => d.tenancy == i.arg)) n
  | _ => popItem (runFormat s i.arg) n

/-- `BACKGROUND_ITEM` (R323): the item at the head of the deque runs, or goes on. -/
def execBackgroundItem (dt col : Nat) (s : State) : Res := run dt s fun s =>
  match s.deque col with
  | [] => s
  | i :: _ => if s.cohRuns && (s.backgroundFree col || i.kind == 1 || i.kind == 2) then runItem s col i else s

/-! ### Stealing -/

/-- The free items of an engine's deque. -/
def State.freeItems (s : State) (n : Nat) : Nat := ((s.deque n).filter (fun i => i.slice.isNone)).length

/-- The engine with the most free items, the lowest of several (R324). -/
def fullest (s : State) : Option Nat :=
  (List.range 256).foldl (fun (best : Option Nat) n =>
    if s.freeItems n = 0 then best else match best with
      | none => some n
      | some b => if s.freeItems b < s.freeItems n then some n else best) none

/-- Engine `n` takes the free item nearest the tail of engine `from_`'s deque. -/
def takeItem (s : State) (n from_ : Nat) : State :=
  let l := (s.deque from_).reverse
  let rest := ((l.takeWhile (fun i => i.slice.isSome)) ++ (l.dropWhile (fun i => i.slice.isSome)).tail).reverse
  s.withSome (l.find? (fun i => i.slice.isNone)) fun i => (pushItem (setDeque s from_ rest) n i).count1 Obj.COL_STEALS 0

/-- `ITEM_STEAL` (R324). -/
def execItemSteal (dt col : Nat) (s : State) : Res := run dt s fun s =>
  if s.cohRuns && s.roleState col == 0 && s.backgroundFree col && (s.deque col).isEmpty then s.withSome (fullest s) (fun d => takeItem s col d) else s

end Sys2Proof.Machine
end

