-- ==== Sys2Proof/Machine/Col.lean ====
section
/-! DEFINITION. The Col array (12_col_engines.md): load windows, moves of slices, epochs, sparing, the hash unit. -/
namespace Sys2Proof.Machine

/-- Idle engines: since when their load has stayed low (R319). -/
def followIdle (s : State) : State :=
  let low := (List.range 256).filter (fun n => decide (s.reg Obj.COL_LOAD n ≤ s.reg Obj.COL_STEAL_IDLE_PCT))
  { s with col := { s.col with idleSince := low.map (fun n => (n, (assocGet s.col.idleSince n).getD s.now)) } }

/-- What the window measured: each Active engine's load, and the requests of every slice (R317). -/
def readWindow (s : State) (loads : List EngineLoad) : State :=
  let s1 := forEach ((List.range 256).filter (fun n => s.roleState n == 0)) s fun t n =>
    t.setReg Obj.COL_LOAD n (min 100 (((loads.find? (fun l => l.engine == n)).map (fun l => l.percent)).getD 0))
  let s2 := forEach (List.range 4096) s1 fun t x => t.setReg Obj.COL_SLICE_REQS x (((assocGet s.col.reqs x).getD 0) % 2 ^ 32)
  followIdle { s2 with col := { s2.col with reqs := [] } }

/-- `LOAD_WINDOW_END` (R317 to R319). -/
def execLoadWindowEnd (dt : Nat) (loads : List EngineLoad) (s : State) : Res := run dt s fun s =>
  if s.cohRuns && (!s.armed ⟨.loadWindow, 0, 0⟩ || s.due ⟨.loadWindow, 0, 0⟩) then
    coordinate (readWindow (s.arm ⟨.loadWindow, 0, 0⟩ (s.reg Obj.COL_LOAD_WINDOW * 1000)) loads)
  else s

/-- `SLICE_QUIESCENT` (R321 step 2). -/
def execSliceQuiescent (dt slice : Nat) (s : State) : Res := run dt s fun s =>
  s.withSome (s.moveOf slice) fun m =>
    if s.cohRuns && !m.ready && s.sliceQuiet slice m.donor then
      let s1 := handOver s slice m.donor m.taker
      ({ s1 with col := { s1.col with moves := s1.col.moves.map (fun (y : Move) => if y.slice = slice then { y with ready := true } else y) } }).disarm ⟨.leaseDrain, slice, 0⟩
    else s

/-- Moves that switch now: ready ones that are still quiescent, at most 64 (R310). -/
def switchingNow (s : State) : List Move := (s.col.moves.filter (fun m => m.ready && s.sliceQuiet m.slice m.donor)).take 64

/-- `EPOCH_CHANGE` (R310, R311, R321 step 3): the minimum interval has passed, and the port agents hold the last epoch. -/
def execEpochChange (dt : Nat) (s : State) : Res := run dt s fun s =>
  if s.cohRuns && !(switchingNow s).isEmpty && s.col.agentEpoch == s.reg Obj.COL_EPOCH && (!s.armed ⟨.epoch, 0, 0⟩ || s.due ⟨.epoch, 0, 0⟩) then
    let s1 := forEach (switchingNow s) s switchSlice
    (s1.setReg Obj.COL_EPOCH 0 ((s1.reg Obj.COL_EPOCH + 1) % 65536)).arm ⟨.epoch, 0, 0⟩ (s1.reg Obj.COL_LEASE_MIN_INTERVAL * 1000)
  else s

/-- `PORT_AGENT_MAP_UPDATE` (R310): every port agent's copy holds the epoch of the engines; requests of other switches
that were NACKed with MOVED go to their engines again (R269). -/
def execPortAgentMapUpdate (dt : Nat) (s : State) : Res := run dt s fun s =>
  resendHome { s with col := { s.col with agentOld := [], agentEpoch := s.reg Obj.COL_EPOCH } }

/-- `LEASE_DRAIN_EXPIRY` (R321). -/
def execLeaseDrainExpiry (dt slice : Nat) (s : State) : Res := run dt s fun s =>
  s.onDue ⟨.leaseDrain, slice, 0⟩ fun s => abandonMove s slice

/-- `FORCED_MOVE_RETRY` (R321): the slice still has to move, to its engine or, when that is not Active, to the idlest. -/
def execForcedMoveRetry (dt slice : Nat) (s : State) : Res := run dt s fun s =>
  s.onDue ⟨.forcedRetry, slice, 0⟩ fun s =>
    s.withSome (assocGet s.col.forcedTo slice) fun t =>
      if s.roleState t = 0 then forceMove s slice t
      else s.withSome (s.idlest (s.engineOf slice)) fun u => forceMove s slice u

/-- `LEASE_HOLDOFF_EXPIRY` (R318). -/
def execLeaseHoldoffExpiry (dt slice : Nat) (s : State) : Res := run dt s fun s => s.onDue ⟨.holdoff, slice, 0⟩ id

/-- `COL_SPARE_CMD` (R326). `badSpares` are the Spares that fail their test or load (R327). -/
def execColSpareCmd (dt : Nat) (path : Path) (value : Nat) (badSpares : List Nat) (s : State) : Res := run dt s fun s =>
  serveWrite s path (writeRec Obj.COL_SPARE_CMD none value) fun t => qualify t (value % 256) 4 badSpares

/-- `ROLE_EMPTIED` (R327 steps 3 and 4, R328, R330). `badSpares` are the engines that fail a test, a load or, for a new
microprogram, their digest twice. -/
def execRoleEmptied (dt role : Nat) (badSpares : List Nat) (s : State) : Res := run dt s fun s =>
  s.withSome s.col.job fun j => if j.role = role ∧ s.roleEmpty role = true then finishJob s j badSpares else s

/-- CE_HOUR takes corrections of the present hour, counted from chip reset (R326). -/
def countCorrections (s : State) (p n : Nat) : State :=
  let hour := s.sinceReset / 3600000000000
  let old := if (assocGet s.col.ceHour p).getD 0 = hour then s.regBits Obj.COL_PHYS_STATE p 0 16 else 0
  { s with col := { s.col with ceHour := assocPut s.col.ceHour p hour } }.setRegBits Obj.COL_PHYS_STATE p 0 16 (min 65535 (old + n))

/-- `IMEM_SCRUB` (R326, R330): an engine's scrub corrected `corrections` errors of its memories. -/
def execImemScrub (dt phys corrections : Nat) (badSpares : List Nat) (s : State) : Res := run dt s fun s =>
  if s.boot.ucodeOk && decide (phys < 272) && s.physState phys != 2 && decide (0 < corrections) then
    let s1 := forEach (List.range corrections) (countCorrections s phys corrections) fun t _ => raise t 10 7
    if s1.physState phys = 1 ∧ s1.reg Obj.COL_SPARE_CE_THRESHOLD < s1.regBits Obj.COL_PHYS_STATE phys 0 16 then
      qualify s1 (s1.regBits Obj.COL_PHYS_STATE phys 16 8) 2 badSpares
    else s1
  else s

/-- `HASH_LOOKUP` (R308): a write of `COL.HASH_KEY`; `COL.HASH_RESULT` shows the placement of the key (`hashResult`). -/
def execHashLookup (dt : Nat) (path : Path) (value : Nat) (s : State) : Res := run dt s fun s =>
  serveWrite s path (writeRec Obj.COL_HASH_KEY none value) fun t => plainWrite t Obj.COL_HASH_KEY 0 value

end Sys2Proof.Machine
end

