-- ==== Sys2Proof/Machine/Lanes.lean ====
section
/-! DEFINITION. The lanes (03_lanes.md, R417): slack, adaptation, margins, PRBS, test holds, reserve lanes, references. -/
namespace Sys2Proof.Machine

/-! ### Rate matching (R80) -/

/-- `SLACK_POSITION` (R80): one decision for the port, by the fill of lane L0, at the slack position that the receiver's
count of transfer blocks has reached (R79). -/
def execSlackPosition (dt port fill : Nat) (s : State) : Res := run dt s fun s =>
  if s.isPass port && s.portUp port && (s.passPort port).rxSlack then
    let s0 := s.setPass port { s.passPort port with rxSlack := false }
    let s1 := { s0 with lane := { s.lane with fill := assocPut s0.lane.fill port fill } }
    if 320 < fill then s1.count1 Obj.PASS_SLACK_DELETED port
    else if fill < 192 then s1.count1 Obj.PASS_SLACK_INSERTED port
    else s1
  else s

/-- `EB_ERROR` (R80): more than 16 on one port in 1 s raise the lane-adaptation source. -/
def execEbError (dt lane : Nat) (s : State) : Res := run dt s fun s =>
  s.withSome (s.servedPort lane) fun p =>
    let recent := ((assocGet s.lane.ebErrors p).getD []).filter (fun t => decide (s.now < t + 1000000000))
    let s1 := (s.count1 Obj.LANE_EB_ERRORS lane)
    let s2 := { s1 with lane := { s1.lane with ebErrors := assocPut s1.lane.ebErrors p (recent ++ [s.now]) } }
    if 16 < recent.length + 1 then raise s2 3 0 else s2

/-! ### Adaptation (R82 to R84) -/

/-- A value moves by at most one unit within its range (R82). -/
def stepValue (v move lo hi : Int) : Int := max lo (min hi (v + max (-1) (min 1 move)))

/-- The timer of an adapted value that stays at the end of its range: element 0 the CTLE, 1 to 12 the taps (R83). -/
def watchEnd (lane idx : Nat) (atEnd : Bool) (s : State) : State :=
  let t : Timer := ⟨.sat, lane, idx⟩
  if !atEnd then s.disarm t else if s.armed t then s else s.arm t 100000000

/-- The DFE taps take a step, unless they are held. -/
def stepTaps (s : State) (lane : Nat) (moves : List Int) : State :=
  if !s.due ⟨.adaptTap, lane, 0⟩ then s
  else
    let s1 := s.arm ⟨.adaptTap, lane, 0⟩ 10000
    let held := s.regBit Obj.LANE_ADAPT_CTRL lane 1
    let new := (List.range 12).map (fun i => if held then (s.taps lane)[i]?.getD 0 else stepValue ((s.taps lane)[i]?.getD 0) (moves[i]?.getD 0) (tapRange i).1 (tapRange i).2)
    let s2 := s1.setReg Obj.LANE_DFE_TAPS lane (tapBytes new)
    forEach (List.range 12) s2 fun t i => watchEnd lane (i + 1) (!held && (new[i]?.getD 0 == (tapRange i).1 || new[i]?.getD 0 == (tapRange i).2)) t

/-- The CTLE takes a step, unless it is held. -/
def stepCtle (s : State) (lane : Nat) (move : Int) : State :=
  if !s.due ⟨.adaptCtle, lane, 0⟩ then s
  else
    let s1 := s.arm ⟨.adaptCtle, lane, 0⟩ 1000000
    let held := s.regBit Obj.LANE_ADAPT_CTRL lane 2
    let old : Int := s.regBits Obj.LANE_RX_STATE lane 0 5
    let new := if held then old else stepValue old move 0 31
    watchEnd lane 0 (!held && (new == 0 || new == 31)) (s1.setRegBits Obj.LANE_RX_STATE lane 0 5 new.toNat)

/-- A lane reloads the values training captured, and adaptation resumes (R83, R84). -/
def reload (s : State) (lane : Nat) : State :=
  match assocGet s.lane.training lane with
  | some t => forEach (List.range 13) (armAdaptation (loadTraining s lane t) lane) fun u i => u.disarm ⟨.sat, lane, i⟩
  | none => s

/-- An adaptation interval of a lane has ended. -/
def adaptDue (s : State) (lane : Nat) : Bool := s.due ⟨.adaptTap, lane, 0⟩ || s.due ⟨.adaptCtle, lane, 0⟩

/-- `ADAPTATION_STEP` (R82, R84): a RESTORE that waits acts in place of the step. -/
def execAdaptationStep (dt lane : Nat) (ctleMove : Int) (tapMoves : List Int) (s : State) : Res := run dt s fun s =>
  if !adaptDue s lane then s
  else if s.lane.restore.contains lane then
    reload { s with lane := { s.lane with restore := s.lane.restore.filter (· != lane) } } lane
  else stepCtle (stepTaps s lane tapMoves) lane ctleMove

/-- `SAT` (R83): a value has stayed at the end of its range for 100 ms. -/
def execSat (dt lane : Nat) (s : State) : Res := run dt s fun s =>
  if (List.range 13).any (fun i => s.due ⟨.sat, lane, i⟩) then raise ((reload s lane).putRegBit Obj.LANE_RX_STATE lane 15 true) 3 0 else s

/-- A write of `LANE.ADAPT_CTRL` (R84): it acts at the next adaptation step. -/
def adaptCtrlWrite (s : State) (lane v : Nat) : State :=
  let s1 := plainWrite s Obj.LANE_ADAPT_CTRL lane v
  if bitAt v 0 && !s1.lane.restore.contains lane then { s1 with lane := { s1.lane with restore := s1.lane.restore ++ [lane] } } else s1

/-- A write of `LANE.TX_FFE` (R81): MODE 1 fixes the coefficients as written; with MODE 0 they are those training captured,
and stay as they are where it captured none. -/
def ffeWrite (s : State) (lane v : Nat) : State :=
  if bitAt v 31 then plainWrite s Obj.LANE_TX_FFE lane v
  else s.setReg Obj.LANE_TX_FFE lane (((assocGet s.lane.training lane).map (fun t => t.ffe)).getD (s.regBits Obj.LANE_TX_FFE lane 0 18))

/-- `RESTORE` (R84). -/
def execRestore (dt : Nat) (path : Path) (lane value : Nat) (s : State) : Res := run dt s fun s =>
  serveWrite s path (writeRec Obj.LANE_ADAPT_CTRL (some lane) value) fun t => adaptCtrlWrite t lane value

/-! ### Swaps (R90 to R94) -/

/-- A transceiver that serves a pad pair no longer is powered down. -/
def powerDownLane (s : State) (lane : Nat) : State := stopLane s lane

/-- The steering switch has moved a pad pair of group `g` (R91 step 4, R93, R94). -/
def swapDone (s : State) (g : Nat) (j : SwapJob) : State :=
  let lane := 16 * g + j.lane
  let s1 := ({ s with lane := { s.lane with swaps := assocDrop s.lane.swaps g, lowCount := assocDrop s.lane.lowCount lane } }).disarm ⟨.shadow, g, 0⟩
  let s2 := if j.revert then setReserve s1 g 0 0 else setReserve s1 g 2 j.lane
  let s3 := powerDownLane s2 (if j.revert then reserveLane g else lane)
  let rest := s3.lane.swapped.filter (fun x => x.1 != g)
  let s5 := { s3 with lane := { s3.lane with swapped := if j.revert then rest else rest ++ [(g, j.lane)] } }
  let s6 := s5.withSome (s5.lanePort lane) fun p => if s5.isEdge p && s5.edgeUp p then s5.emit (.toPort p "LTSSM Recovery" []) else s5
  let s7 := countReserves s6
  if j.revert then s7 else raise s7 3 1

/-- A swap or revert begins (R91): on a port that is up it shadows, else the switch moves at once. A self-test of the
reserve ends. -/
def beginSwap (s : State) (g y : Nat) (revert : Bool) (margin : Nat) : State :=
  let s1 := ({ s with lane := { s.lane with selfTest := s.lane.selfTest.filter (· != g) } }).disarm ⟨.selfTest, g, 0⟩
  let j : SwapJob := ⟨y, revert, .shadowing, s.now, margin⟩
  if ((s1.lanePort (16 * g + y)).filter (fun p => s1.portUp p)).isNone then swapDone s1 g j
  else
    let s2 := { s1 with lane := { s1.lane with swaps := assocPut s1.lane.swaps g j } }
    (if revert then s2 else setReserve s2 g 1 y).arm ⟨.shadow, g, 0⟩ 5000000

/-- A write of `LANE.SWAP_CMD` (R90, R93). -/
def swapCmdWrite (s : State) (g v : Nat) : State :=
  if bitAt v 8 then beginSwap s g (s.regBits Obj.LANE_GROUP_STATUS g 8 4) true 0 else beginSwap s g (v % 16) false 0

/-- Another lane of the group began its swap at the same measurement, with the greater margin, or the same and the higher
number (R92). -/
def yields (s : State) (j : SwapJob) (y margin : Nat) : Bool :=
  j.began == s.now && !j.revert && decide (0 < j.margin) && (decide (margin < j.margin) || (margin == j.margin && decide (y < j.lane)))

/-- A lane qualifies for an automatic swap with a margin; the reserve may be denied (R90, R92). -/
def qualifySwap (s : State) (lane margin : Nat) : State :=
  let g := lane / 16
  if s.reg Obj.LANE_AUTO_SWAP g = 0 ∨ ((s.servedPort lane).elim false (fun p => s.portUp p)) = false then s
  else match assocGet s.lane.swaps g with
    | some j => if yields s j (lane % 16) margin then beginSwap s g (lane % 16) false margin
      else if j.began = s.now ∧ 0 < j.margin ∧ 0 < margin then s else s.count1 Obj.LANE_SWAP_DENIED g
    | none => if s.reserveState g = 0 then beginSwap s g (lane % 16) false margin else s.count1 Obj.LANE_SWAP_DENIED g

/-- `SWAP` (R90, R91): a write of `LANE.SWAP_CMD` with OP 0. -/
def execSwap (dt : Nat) (path : Path) (group lane : Nat) (s : State) : Res := run dt s fun s =>
  serveWrite s path (writeRec Obj.LANE_SWAP_CMD (some group) (lane % 16)) fun t => swapCmdWrite t group (lane % 16)

/-- `REVERT` (R93): a write of `LANE.SWAP_CMD` with OP 1. -/
def execRevert (dt : Nat) (path : Path) (group : Nat) (s : State) : Res := run dt s fun s =>
  serveWrite s path (writeRec Obj.LANE_SWAP_CMD (some group) 256) fun t => swapCmdWrite t group 256

/-- `TRANSCEIVER_SELF_CHECK_FAIL` (R90). -/
def execTransceiverSelfCheckFail (dt lane : Nat) (s : State) : Res := run dt s fun s =>
  if lane < 256 ∧ s.transceiver lane = lane then qualifySwap s lane 0 else s

/-- `SWAP_SHADOW_TRAINED` (R91 steps 2 and 3): the receiver that will serve the pads is trained, and its transmitter takes
the coefficients of the one that serves them now. -/
def execSwapShadowTrained (dt group ctle : Nat) (s : State) : Res := run dt s fun s =>
  s.withSome (assocGet s.lane.swaps group) fun j =>
    if j.step = .shadowing then
      let lane := 16 * group + j.lane
      let old := if j.revert then reserveLane group else lane
      let new := if j.revert then lane else reserveLane group
      let ffe := s.reg Obj.LANE_TX_FFE old
      let s1 := (captureTraining s new { foundTraining s.freeNow ffe with ctle := ctle % 32 }).useFree.setReg Obj.LANE_TX_FFE new ffe
      { s1 with lane := { s1.lane with swaps := assocPut s1.lane.swaps group { j with step := .ready } } }.disarm ⟨.shadow, group, 0⟩
    else s

/-- `SWAP_SWITCH` (R91 step 4). -/
def execSwapSwitch (dt group : Nat) (s : State) : Res := run dt s fun s =>
  s.withSome (assocGet s.lane.swaps group) fun j => if j.step = .ready then swapDone s group j else s

/-! ### Margins (R85, R90) -/

/-- A lane runs PAM4 (R75): it serves a Pass port, or an edge port at 64 GT/s. -/
def runsPam4 (s : State) (lane : Nat) : Bool :=
  (s.servedPort lane).elim false (fun p => s.isPass p || (s.edgeUp p && s.regBits Obj.LANE_PORT_STATUS p 0 3 == 5))

/-- The smaller vertical margin of a measurement. -/
def vertical (m : Margin) : Nat := min m.vTop m.vBot

/-- The eye a periodic measurement reports, with its code of `LANE.MARGIN` (R85): on a PAM4 lane the one with the smallest
vertical margin, of equal ones the lowest code (DESIGN CHOICE, log entry 83); the only one of an NRZ lane. -/
def reportedEye (s : State) (lane : Nat) (middle upper lower : Margin) : Nat × Margin :=
  if !runsPam4 s lane then (0, middle)
  else if vertical middle ≤ vertical upper ∧ vertical middle ≤ vertical lower then (0, middle)
  else if vertical upper ≤ vertical lower then (1, upper)
  else (2, lower)

/-- `LANE.MARGIN` takes a measurement of an eye. -/
def setMargin (s : State) (lane eye : Nat) (m : Margin) : State :=
  s.setReg Obj.LANE_MARGIN lane (at_ 31 1 + at_ 29 (eye % 4) + at_ 22 (min 127 m.vTop) + at_ 15 (min 127 m.vBot) + at_ 6 (min 32 m.hLeft) + min 32 m.hRight)

/-- A measurement falls below a swap threshold (R90). -/
def lowMargin (s : State) (m : Margin) : Bool :=
  decide (vertical m < s.reg Obj.LANE_SWAP_V_MIN) || decide (min m.hLeft m.hRight < s.reg Obj.LANE_SWAP_H_MIN)

/-- How many measurements of a lane have been low in a row. -/
def setLowCount (s : State) (lane n : Nat) : State := { s with lane := { s.lane with lowCount := assocPut s.lane.lowCount lane n } }

/-- A periodic measurement has been shown: the third low one in a row qualifies the lane (R85, R90). Whether measurements
that are low in different directions count as one row is not stated: they do (DESIGN CHOICE, unsafe: log entry 83). -/
def judgeMargin (s : State) (lane : Nat) (m : Margin) : State :=
  let low := if lowMargin s m then (assocGet s.lane.lowCount lane).getD 0 + 1 else 0
  if 3 ≤ low ∧ lane < 256 then qualifySwap (setLowCount s lane low) lane (vertical m + 1) else setLowCount s lane low

/-- `MARGIN_MEASUREMENT` (R85, R90): the lane's periodic measurement, of its three eyes where it runs PAM4, else of the
first. -/
def execMarginMeasurement (dt lane : Nat) (m : EyeMargins) (s : State) : Res := run dt s fun s =>
  s.onDue ⟨.margin, lane, 0⟩ fun s =>
    let e := reportedEye s lane m.middle m.upper m.lower
    judgeMargin ((setMargin s lane e.1 e.2).arm ⟨.margin, lane, 0⟩ 1000000000) lane e.2

/-- A write of `LANE.MARGIN_REQ` (R85). -/
def marginReqWrite (s : State) (lane eye : Nat) : State :=
  { s with lane := { s.lane with marginReq := assocPut s.lane.marginReq lane eye } }.arm ⟨.marginReq, lane, 0⟩ 10000000

/-- `MARGIN_REQ` (R85). -/
def execMarginReq (dt : Nat) (path : Path) (lane eye : Nat) (s : State) : Res := run dt s fun s =>
  serveWrite s path (writeRec Obj.LANE_MARGIN_REQ (some lane) eye) fun t => marginReqWrite t lane eye

/-- `MARGIN_REQ_DONE` (R85): within 10 ms of the request. -/
def execMarginReqDone (dt lane : Nat) (m : Margin) (s : State) : Res := run dt s fun s =>
  s.withSome (assocGet s.lane.marginReq lane) fun eye =>
    (setMargin { s with lane := { s.lane with marginReq := assocDrop s.lane.marginReq lane } } lane eye m).disarm ⟨.marginReq, lane, 0⟩

/-! ### PRBS and test holds (R86 to R88) -/

/-- A lane may run PAM4: a Pass port's, or an edge port's whose rate limit is 64 GT/s; a reserve lane by its group (R75). -/
def mayPam4 (s : State) (lane : Nat) : Bool :=
  let pam (p : Nat) : Bool := s.isPass p || (s.isEdge p && decide (5 ≤ s.reg Obj.LANE_PORT_MAX_RATE p))
  if lane < 256 then (s.lanePort lane).elim false pam else (List.range 4).any (fun i => pam (4 * (lane - 256) + i))

/-- A PRBS start is refused (R87): the lane is active, or serves or shadows a pad pair, and the port of those pads is not
held for test, be it off; or PRBS13Q is for a lane that cannot run PAM4. -/
def prbsRefused (s : State) (lane v : Nat) : Bool :=
  v % 4 != 0 && (((s.padLane lane).bind s.lanePort).elim false (fun p => s.reg Obj.LANE_PORT_TEST p == 0) || (bits v 4 3 == 2 && !mayPam4 s lane))

/-- CLEAR zeroes both counters and their overflow bits (R88): what was counted until now is gone. -/
def clearPrbs (s : State) (lane : Nat) : State := ((settlePrbs s lane).setReg Obj.LANE_PRBS_ERRORS lane 0).setReg Obj.LANE_PRBS_BITS lane 0

/-- A write of `LANE.PRBS_CTRL` (R87, R88): a start that is refused leaves the generator and checker as they are; a checker
that goes off, or takes another pattern or polarity, drops lock. -/
def prbsCtrlWrite (s : State) (lane v : Nat) : State :=
  let s1 := if bitAt v 2 then clearPrbs s lane else s
  if prbsRefused s1 lane v then s1.putRegBit Obj.LANE_PRBS_CTRL lane 14 true
  else
    let old := s1.reg Obj.LANE_PRBS_CTRL lane
    let s2 := if bitAt v 1 && bitAt old 1 && bits old 4 4 == bits v 4 4 then s1 else unlockPrbs s1 lane
    showGenerator (plainWrite s2 Obj.LANE_PRBS_CTRL lane v) lane old

/-- `PRBS_START` (R87). -/
def execPrbsStart (dt : Nat) (path : Path) (lane value : Nat) (s : State) : Res := run dt s fun s =>
  serveWrite s path (writeRec Obj.LANE_PRBS_CTRL (some lane) value) fun t => prbsCtrlWrite t lane value

/-- `PRBS_CLEAR` (R88). -/
def execPrbsClear (dt : Nat) (path : Path) (lane value : Nat) (s : State) : Res := run dt s fun s =>
  serveWrite s path (writeRec Obj.LANE_PRBS_CTRL (some lane) value) fun t => prbsCtrlWrite t lane value

/-- `PRBS_LOCK` (R88): the checker that searches has received bits after which it locks; counting begins. -/
def execPrbsLock (dt : Nat) (r : ReceivedBits) (s : State) : Res := run dt s fun s =>
  let w := s.reg Obj.LANE_PRBS_CTRL r.lane
  if bitAt w 1 && !bitAt w 15 && prbsLocks (bits w 4 3) (bitAt w 7) r.bits then
    let s1 := { s with lane := { s.lane with prbsSince := assocPut s.lane.prbsSince r.lane s.now } }
    (s1.putRegBit Obj.LANE_PRBS_CTRL r.lane 15 true).setRegBits Obj.LANE_PRBS_ERRORS r.lane 0 32 0
  else s

/-- `PRBS_LOCK_LOSS` (R88): of the last `bits` bits `errors` were in error; of 1,024 more than half, and the checker drops
lock. -/
def execPrbsLockLoss (dt lane bits errors : Nat) (s : State) : Res := run dt s fun s =>
  if s.regBit Obj.LANE_PRBS_CTRL lane 15 && bits == 1024 && decide (512 < errors) then unlockPrbs s lane else s

/-- A write of `LANE.PORT_TEST` (R87): a port is held for test and goes down, or is let go. -/
def portTestWrite (s : State) (p v : Nat) : State :=
  if v % 2 = 0 then endTestHold s p
  else if s.reg Obj.LANE_PORT_TEST p = 1 then s
  else
    let s1 := (s.setReg Obj.LANE_PORT_TEST p 1).putRegBit Obj.LANE_PORT_STATUS p 13 true
    if s1.isEdge p then edgeLinkDown s1 p else if s1.isPass p then passGoDown s1 p 10 0 else s1

/-- `PORT_TEST` (R87). -/
def execPortTest (dt : Nat) (path : Path) (port value : Nat) (s : State) : Res := run dt s fun s =>
  serveWrite s path (writeRec Obj.LANE_PORT_TEST (some port) value) fun t => portTestWrite t port value

/-! ### The self-test of reserve lanes (R89) -/

/-- The groups whose reserve lane is in its self-test. -/
def setSelfTest (s : State) (l : List Nat) : State := { s with lane := { s.lane with selfTest := l } }

/-- The self-test of an unused reserve lane starts (R89). -/
def startSelfTest (s : State) (group : Nat) : State :=
  if s.reserveState group = 0 ∧ (assocGet s.lane.swaps group).isNone = true then
    (setSelfTest s (s.lane.selfTest ++ [group])).arm ⟨.selfTest, group, 0⟩ 1000000000
  else s

/-- The self-test of a reserve lane ends; a lane with errors is failed (R89). -/
def endSelfTest (s : State) (group errors : Nat) : State :=
  if 0 < errors then raise (countReserves (setReserve s group 3 0)) 3 2 else s

/-- `RESERVE_SELF_TEST` (R89): the hourly timer of a group; an unused reserve lane starts its test. -/
def execReserveSelfTest (dt group : Nat) (s : State) : Res := run dt s fun s =>
  s.onDue ⟨.selfTestHour, group, 0⟩ fun s => startSelfTest (s.arm ⟨.selfTestHour, group, 0⟩ 3600000000000) group

/-- `RESERVE_SELF_TEST_END` (R89). -/
def execReserveSelfTestEnd (dt group errors : Nat) (s : State) : Res := run dt s fun s =>
  s.onDue ⟨.selfTest, group, 0⟩ fun s => endSelfTest (setSelfTest s (s.lane.selfTest.filter (· != group))) group errors

/-! ### References (R30, R92, R417) -/

/-- A measured frequency lies within the window of a reference: 0..15 the groups, 16 CORE_REFCLK, 17 MGMT_XTAL. -/
def inWindow (s : State) (ref hz : Nat) : Bool :=
  if ref = 17 then decide (24975000 ≤ hz) && decide (hz ≤ 25025000)
  else if ref < 16 ∧ s.reg Obj.LANE_REF_SSC ref = 1 then decide (99400000 ≤ hz) && decide (hz ≤ 100100000)
  else decide (99900000 ≤ hz) && decide (hz ≤ 100100000)

/-- A swap in progress in a group that loses its reference is abandoned (R92). -/
def abandonSwap (s : State) (g : Nat) : State :=
  match assocGet s.lane.swaps g with
  | some j =>
    let s1 := ({ s with lane := { s.lane with swaps := assocDrop s.lane.swaps g } }).disarm ⟨.shadow, g, 0⟩
    if j.revert then s1 else setReserve s1 g 0 0
  | none => s

/-- A port whose reference is lost goes down (R30). -/
def referenceDown (s : State) (p : Nat) : State :=
  if s.isEdge p then (if s.edgeUp p then edgeLinkDown s p else s)
  else if s.isPass p && decide (2 ≤ s.passState p) then passLinkDown (setPassReason s p 0) p (s.passAfterDown p)
  else s

/-- A reference is lost (R30, R417): what it clocks is held in reset, and its source is raised. -/
def referenceLost (s : State) (ref : Nat) : State :=
  let s1 := { s with lane := { s.lane with goodGates := assocDrop s.lane.goodGates ref } }
  if s1.lane.held.contains ref then s1
  else
    let s2 := { s1 with lane := { s1.lane with held := s1.lane.held ++ [ref] } }
    let s3 := if ref < 16 then
        forEach ((List.range 4).map (4 * ref + ·)) (abandonSwap (s2.putRegBit Obj.LANE_GROUP_STATUS ref 0 false) ref) referenceDown
      else s2
    raise s3 2 ref

/-- A lane-group reference is good again, or for the first time (R417): after 10 consecutive gates the group is released. -/
def referenceGood (s : State) (ref : Nat) : State :=
  let n := min 10 ((assocGet s.lane.goodGates ref).getD 0 + 1)
  let s1 := { s with lane := { s.lane with goodGates := assocPut s.lane.goodGates ref n } }
  if 16 ≤ ref then s1
  else if !s1.lane.held.contains ref then s1.putRegBit Obj.LANE_GROUP_STATUS ref 0 true
  else if n = 10 then { s1 with lane := { s1.lane with held := s1.lane.held.filter (· != ref) } }.putRegBit Obj.LANE_GROUP_STATUS ref 0 true
  else s1

/-- `REFERENCE_GATE` (R417). -/
def execReferenceGate (dt ref hz : Nat) (s : State) : Res := run dt s fun s =>
  if 18 ≤ ref then s else if inWindow s ref hz then referenceGood s ref else referenceLost s ref

/-- `REFERENCE_STOPPED` (R417). -/
def execReferenceStopped (dt ref : Nat) (s : State) : Res := run dt s fun s => if 18 ≤ ref then s else referenceLost s ref

end Sys2Proof.Machine
end

