-- ==== Sys2Proof/Machine/Wear.lean ====
section
/-! DEFINITION. Rails, temperature, wear monitors and the wear record (20_package_power_life.md, R215). -/
namespace Sys2Proof.Machine

/-! ### Rails (R486, R490, R491) -/

/-- The set point of VDD_COL in mV for a VID code (R490). -/
def colSetPoint (c : Nat) : Nat := 800 - 5 * c

/-- The window of a rail, its lower and its upper end in units of 0.1 mV, in the order of R486; VDD_COL by its set point. -/
def State.railWindow (s : State) (rail : Nat) : Nat × Nat :=
  let set := colSetPoint (s.reg Obj.PKG_COL_VID)
  match rail with
  | 0 => (7275, 7725)
  | 1 => (set * 39 / 4, set * 41 / 4)
  | 2 => (8245, 8755)
  | 3 => (11640, 12360)
  | 4 => (10185, 10815)
  | 5 => (17100, 18900)
  | 6 => (17100, 18900)
  | 7 => (31350, 34650)
  | _ => (108000, 132000)

/-- The nominal of a rail in mV (R486). -/
def State.railNominal (s : State) (rail : Nat) : Nat :=
  match rail with
  | 0 => 750
  | 1 => colSetPoint (s.reg Obj.PKG_COL_VID)
  | 2 => 850
  | 3 => 1200
  | 4 => 1050
  | 5 => 1800
  | 6 => 1800
  | 7 => 3300
  | _ => 12000

/-- A measurement lies inside the rail's window. -/
def State.railInside (s : State) (rail mv : Nat) : Bool :=
  decide ((s.railWindow rail).1 ≤ 10 * mv) && decide (10 * mv ≤ (s.railWindow rail).2)

/-- A measurement of a rail shows in `PKG.RAIL_MV` and `PKG.RAIL_STATE`. -/
def showRail (s : State) (rail mv : Nat) : State :=
  let s1 := (s.setReg Obj.PKG_RAIL_MV rail mv).putRegBit Obj.PKG_RAIL_STATE 0 rail (s.railInside rail mv)
  if 10 * mv < (s.railWindow rail).1 then s1.putRegBit Obj.PKG_RAIL_STATE 0 (16 + rail) true else s1

/-- A rail is outside its window, or inside again. -/
def setRailOut (s : State) (rail : Nat) (out : Bool) : State :=
  let rest := s.wear.railOut.filter (· != rail)
  { s with wear := { s.wear with railOut := if out then rail :: rest else rest } }

/-- `RAIL_OUT_OF_WINDOW` (R491). -/
def execRailOutOfWindow (dt rail mv : Nat) (s : State) : Res := runPowered dt s fun s =>
  if rail < 9 ∧ s.railInside rail mv = false then raise (setRailOut (showRail s rail mv) rail true) 18 2 else s

/-- `RAIL_IN_WINDOW` (R491). -/
def execRailInWindow (dt rail mv : Nat) (s : State) : Res := runPowered dt s fun s =>
  if rail < 9 ∧ s.railInside rail mv = true then setRailOut (showRail s rail mv) rail false else s

/-- `RAIL_COLLAPSE` (R491): below 85 % of nominal; VDD_AUX has a row of its own, and SLOT_VIN is no supply of the device
(log entry 60). -/
def execRailCollapse (dt rail mv : Nat) (s : State) : Res := runPowered dt s fun s =>
  if rail < 7 ∧ 100 * mv < 85 * s.railNominal rail then beginChipReset (setRailOut (showRail s rail mv) rail true) 0 else s

/-! ### Temperature (R493, R494) -/

/-- The highest of a list of readings, none for no reading. -/
def highest : List Int → Option Int
  | [] => none
  | c :: cs => some (cs.foldl max c)

/-- Since when a condition has held: from the first moment it held, none while it does not. -/
def heldSince (old : Option Nat) (now : Nat) (holds : Bool) : Option Nat := if holds then some (old.getD now) else none

/-- A turn of the junction temperature by 40 °C or more since the last extreme is one swing (R494; log entry 61). -/
def followSwing (w : WearSt) (t : Int) : WearSt :=
  match w.swing with
  | none => { w with swing := some (t, false) }
  | some (ext, rising) =>
    if rising then
      if ext ≤ t then { w with swing := some (t, true) }
      else if 40 ≤ ext - t then { w with swing := some (t, false), cycles := w.cycles + 1 }
      else w
    else if t ≤ ext then { w with swing := some (t, false) }
    else if 40 ≤ t - ext then { w with swing := some (t, true), cycles := w.cycles + 1 }
    else w

/-- The junction temperature takes a value: the highest reading, the peak, and since when it has been above its limits. -/
def junction (s : State) (t : Int) : State :=
  let s1 := s.setReg Obj.PKG_TJ_MAX 0 (unsigned t 16)
  let s2 := if signed (s1.reg Obj.PKG_TJ_PEAK) 16 < t then s1.setReg Obj.PKG_TJ_PEAK 0 (unsigned t 16) else s1
  let w := followSwing s2.wear t
  ({ s2 with wear := { w with
    warnSince := heldSince w.warnSince s.now (decide ((s.reg Obj.FLT_TJ_WARN : Int) < t))
    critSince := heldSince w.critSince s.now (decide (105 < t)) } }).setReg Obj.WEAR_THERMAL_CYCLES 0 (w.cycles % 2 ^ 32)

/-- `TJ_SENSOR_READ` (R493): the 24 sensors. -/
def execTjSensorRead (dt : Nat) (celsius : List Int) (s : State) : Res := run dt s fun s =>
  if celsius.length = 24 then
    s.withSome (highest celsius) fun t =>
      junction (forEach (List.range 24) s (fun u n => u.setReg Obj.PKG_TJ n (unsigned (celsius.getD n 0) 16))) t
  else s

/-- A condition has held for 1 ms. -/
def heldMs (since : Option Nat) (now : Nat) : Bool := since.elim false (fun t => decide (t + 1000000 ≤ now))

/-- `TJ_WARN` (R493). -/
def execTjWarn (dt : Nat) (s : State) : Res := run dt s fun s =>
  if heldMs s.wear.warnSince s.now && !bitAt (groupWord s 18) 0 then raise s 18 0 else s

/-- `TJ_CRIT` (R493). -/
def execTjCrit (dt : Nat) (s : State) : Res := run dt s fun s =>
  if heldMs s.wear.critSince s.now && !bitAt (groupWord s 18) 1 then raise s 18 1 else s

/-- A write of `PKG.TJ_PEAK`: any value sets it to `PKG.TJ_MAX`. -/
def peakEffect (s : State) : State := s.setReg Obj.PKG_TJ_PEAK 0 (s.reg Obj.PKG_TJ_MAX)

/-! ### Wear monitors (R495) -/

/-- The number of a kind, its monitors, and its margin object. -/
def wearIndex : WearKind → Nat
  | .lane => 0 | .col => 1 | .steppe => 2 | .package => 3
def wearCount : WearKind → Nat
  | .lane => 272 | .col => 272 | .steppe => 4 | .package => 16
def wearObj : WearKind → Nat
  | .lane => Obj.WEAR_MARGIN_LANE | .col => Obj.WEAR_MARGIN_COL | .steppe => Obj.WEAR_MARGIN_STEPPE | .package => Obj.WEAR_MARGIN_PACKAGE

/-- A monitor's number among all monitors. -/
def wearId (kind : WearKind) (monitor : Nat) : Nat := 1024 * wearIndex kind + monitor

/-- `WEAR.STATE` shows which kinds have a monitor below threshold. -/
def showLow (s : State) : State :=
  forEach (List.range 4) s fun t k => t.putRegBit Obj.WEAR_STATE 0 k (s.wear.low.any (fun m => m / 1024 == k))

/-- What a monitor that goes below threshold leads to, beside its source (R495). -/
def wearAction (s : State) (kind : WearKind) (monitor : Nat) (badSpares : List Nat) : State :=
  match kind with
  | .col =>
    if s.physState monitor = 1 then qualify s (s.regBits Obj.COL_PHYS_STATE monitor 16 8) 3 badSpares
    else if s.physState monitor = 0 then showSpares (failPhys s monitor 3)
    else s
  | .steppe => { s with stp := { s.stp with doubled := if s.stp.doubled.contains monitor then s.stp.doubled else monitor :: s.stp.doubled } }
  | _ => s

/-- A margin has been measured. -/
def measureWear (s : State) (kind : WearKind) (monitor margin : Nat) (badSpares : List Nat) : State :=
  let id := wearId kind monitor
  let thr := s.reg Obj.WEAR_THRESHOLD (wearIndex kind)
  let s1 := s.setReg (wearObj kind) monitor margin
  let low := min margin ((assocGet s1.wear.lowest id).getD 100)
  let n := if margin < thr then (assocGet s1.wear.under id).getD 0 + 1 else 0
  let s2 := { s1 with wear := { s1.wear with
    lowest := assocPut s1.wear.lowest id low, under := if n = 0 then assocDrop s1.wear.under id else assocPut s1.wear.under id n } }
  if n = 3 ∧ s2.wear.low.contains id = false then
    let s3 := showLow { s2 with wear := { s2.wear with low := id :: s2.wear.low } }
    wearAction (raise s3 17 (wearIndex kind)) kind monitor badSpares
  else if thr + 5 ≤ margin then showLow { s2 with wear := { s2.wear with low := s2.wear.low.filter (· != id) } }
  else s2

/-- `WEAR_MEASUREMENT` (R495); `badSpares` are Col Spares that fail their test as one is taken (R327). -/
def execWearMeasurement (dt : Nat) (kind : WearKind) (monitor margin : Nat) (badSpares : List Nat) (s : State) : Res := run dt s fun s =>
  if s.firmware = true ∧ monitor < wearCount kind ∧ margin ≤ 100 then measureWear s kind monitor margin badSpares else s

/-- The lowest margin among the Active Col engines, 100 where none is Active. -/
def lowestColMargin (s : State) : Nat :=
  ((List.range 272).filter (fun p => s.physState p == 1)).foldl (fun m p => min m (s.reg Obj.WEAR_MARGIN_COL p)) 100

/-- `VID_STEP` (R490, R495): at least 24 h after the last step, never below code 0. -/
def execVidStep (dt : Nat) (s : State) : Res := run dt s fun s =>
  if s.firmware = true ∧ s.boot.ucodeOk = true ∧ lowestColMargin s < 40 ∧ 0 < s.reg Obj.PKG_COL_VID
      ∧ (s.wear.vidAt = 0 ∨ s.wear.vidAt + 86400000000000 ≤ s.now) then
    ({ s with wear := { s.wear with vidRise := s.wear.vidRise + 1, vidAt := s.now } }).setReg Obj.PKG_COL_VID 0 (s.reg Obj.PKG_COL_VID - 1)
  else s

/-! ### Life (R497) -/

/-- The life objects follow the accumulators. -/
def showLife (s : State) : State :=
  let w := s.wear
  let s1 := (s.setReg Obj.WEAR_POWER_ON_HOURS 0 (w.powered / 3600 % 2 ^ 32)).setReg Obj.WEAR_EQUIV_HOURS 0 (w.equiv / 2 ^ 20 / 3600 % 2 ^ 32)
  let s2 := s1.setReg Obj.WEAR_LIFE_USED 0 (w.equiv * 10000 / (2 ^ 20 * 3600 * 350640) % 2 ^ 16)
  let s3 := (s2.setReg Obj.WEAR_T_EFFECTIVE 0 (unsigned (Config.effectiveTemp w.equiv w.powered) 16)).setReg Obj.WEAR_THERMAL_CYCLES 0 (w.cycles % 2 ^ 32)
  forEach (List.range 24) s3 fun t k => t.setReg Obj.WEAR_TEMP_HIST k ((assocGet w.hist k).getD 0 / 3600 % 2 ^ 32)

/-- The bin of `WEAR.TEMP_HIST` of a temperature. -/
def tempBin (t : Int) : Nat := if t < 0 then 0 else min 23 (t.toNat / 5)

/-- `LIFE_ACCOUNTING` (R497): one second at the present junction temperature. -/
def execLifeAccounting (dt : Nat) (s : State) : Res := run dt s fun s =>
  if s.firmware then
    let t := signed (s.reg Obj.PKG_TJ_MAX) 16
    let k := tempBin t
    showLife { s with wear := { s.wear with
      powered := s.wear.powered + 1, equiv := s.wear.equiv + Config.accelerationFactor t
      hist := assocPut s.wear.hist k ((assocGet s.wear.hist k).getD 0 + 1) } }
  else s

/-! ### The wear record (R93, R215, R496) -/

/-- Completed remaps that are not saved yet join the saved ones. -/
def mergeRemaps (s : State) : State :=
  let other (x : Remap) : Bool := s.stp.unsaved.all (fun m => !(m.channel == x.channel && m.bank == x.bank && m.row == x.row))
  { s with stp := { s.stp with saved := s.stp.saved.filter other ++ s.stp.unsaved, unsaved := [] } }

/-- The copy a save writes: one sequence number above the newest. -/
def wearCopy (s : State) : WearCopy :=
  ⟨(s.wear.copies.head?.map (fun c => c.seq)).getD 0 + 1, s.lane.swapped, s.stp.saved, s.col.worn, s.wear.vidRise, s.wear.powered,
    s.wear.equiv, s.wear.hist, s.wear.cycles, s.wear.lowest⟩

/-- Firmware saves the wear record: the 16 blocks are used in turn. -/
def saveWear (s : State) : State :=
  let s1 := mergeRemaps s
  { s1 with wear := { s1.wear with copies := (wearCopy s1 :: s1.wear.copies).take 16, savedAt := s1.now } }

/-- `REMAP_SAVE` (R215). -/
def execRemapSave (dt : Nat) (s : State) : Res := run dt s fun s =>
  if s.firmware && s.flt.traps.isEmpty && !s.stp.unsaved.isEmpty then saveWear s else s

/-- `WEAR_RECORD_SAVE` (R496); trap saves go before it (R473). -/
def execWearRecordSave (dt : Nat) (s : State) : Res := run dt s fun s =>
  if s.firmware && s.flt.traps.isEmpty then saveWear s else s

/-- `WEAR.STATE` as read: LAST_SAVE follows the time (R497). -/
def wearState (s : State) : Nat := setBits (s.reg Obj.WEAR_STATE) 16 8 (min 255 ((s.now - s.wear.savedAt) / 60000000000))

/-- A saved swap is reapplied before any port trains (R93). -/
def reapplySwap (s : State) (x : Nat × Nat) : State := setReserve s x.1 2 x.2

/-- The completed swaps that firmware reapplies: those that have come through a chip reset with the device, else those of
the record's newest copy (R92, R93). -/
def keptSwaps (s : State) : List (Nat × Nat) := if s.lane.kept then s.lane.swapped else (s.wear.copies.head?.map (fun c => c.swaps)).getD []

/-- The margins of the record show in the margin objects. -/
def showMargins (s : State) : State :=
  forEach s.wear.lowest s fun t m =>
    match m.1 / 1024 with
    | 0 => t.setReg Obj.WEAR_MARGIN_LANE (m.1 % 1024) m.2
    | 1 => t.setReg Obj.WEAR_MARGIN_COL (m.1 % 1024) m.2
    | 2 => t.setReg Obj.WEAR_MARGIN_STEPPE (m.1 % 1024) m.2
    | _ => t.setReg Obj.WEAR_MARGIN_PACKAGE (m.1 % 1024) m.2

/-- The record's part of the firmware's start: the newest valid copy, or a new record. -/
def loadCopy (s : State) : State :=
  match s.wear.copies.head? with
  | none => { s with wear := { s.wear with found := false, lowest := [], vidRise := 0, powered := 0, equiv := 0, hist := [], cycles := 0, savedAt := s.now } }
  | some c =>
    let s1 := { s with
      wear := { s.wear with found := true, lowest := c.lowest, vidRise := c.vidRise, powered := c.powered, equiv := c.equiv, hist := c.hist, cycles := c.cycles }
      stp := { s.stp with saved := c.remaps.filter (fun m => !s.stp.repaired.contains m) }
      col := { s.col with worn := c.worn } }
    showMargins (showLife (s1.putRegBit Obj.WEAR_STATE 0 31 true))

/-- Firmware starts: it takes the newest valid copy of the wear record, or starts a new record, and reapplies the completed
swaps (R93, R215, R496). -/
def loadWear (s : State) : State :=
  let s1 := loadCopy { s with lane := { s.lane with swapped := keptSwaps s, kept := false } }
  countReserves (forEach s1.lane.swapped s1 reapplySwap)

end Sys2Proof.Machine
end

