-- ==== Sys2Proof/Machine/BootOps.lean ====
section
/-! DEFINITION. Shared operations of reset and boot (19_reset_boot_lifecycle.md): what a reset keeps, the boot flash, the
choice of the image, the start of firmware. -/
namespace Sys2Proof.Machine

/-! ### The boot flash (R467 to R469) -/

/-- A boot header copy: its sequence number, ACTIVE and TRIAL. -/
structure BootHeader where
  copy   : Nat
  seq    : Nat
  active : Nat
  trial  : Bool
  deriving DecidableEq, Repr

/-- A boot header copy, none when its CRC-64 does not hold (log entry 5: the fields' places). -/
def State.headerCopy (s : State) (copy : Nat) : Option BootHeader :=
  let bs := s.flashBytes (0x10000 * copy) 16
  let h : BootHeader := ⟨copy, leField bs 0 4, leField bs 4 1, leField bs 5 1 != 0⟩
  if leField bs 8 8 = crc64 (bs.take 8) ∧ (h.active = 1 ∨ h.active = 2) then some h else none

/-- The header in force: the valid copy with the higher sequence number. -/
def State.bootHeader (s : State) : Option BootHeader :=
  match s.headerCopy 0, s.headerCopy 1 with
  | some a, some b => if a.seq < b.seq then some b else some a
  | some a, none => some a
  | none, b => b

/-- Firmware writes a header over the copy that is not in force (R467). -/
def writeHeader (s : State) (active : Nat) (trial : Bool) : State :=
  let old := s.bootHeader
  let copy := old.elim 0 (fun h => 1 - h.copy)
  let bs := leBytes (old.elim 0 (fun h => h.seq + 1)) 4 ++ leBytes active 1 ++ leBytes (b2n trial) 1 ++ [0, 0]
  (s.setFlash (0x10000 * copy) (bs ++ leBytes (crc64 bs) 8)).setReg Obj.BOOT_ACTIVE 0 active

/-- Where an image slot begins: 1 slot A, 2 slot B. -/
def imageBase (slot : Nat) : Nat := if slot = 1 then 0x00100000 else 0x01100000

/-- The other image slot. -/
def otherSlot (slot : Nat) : Nat := 3 - slot

/-- The header of an image slot (R468). -/
def State.imageHeader (s : State) (slot : Nat) : List Byte := s.flashBytes (imageBase slot) 512

/-- SHA-384 as the bytes of a digest. -/
def digest (bs : List Byte) : List Byte := beBytes (Config.sha384 bs) 48

/-- The checks of R469 on an image slot: the code of the first that fails, 0 for none. -/
def imageCode (s : State) (slot : Nat) (readError : Bool) : Nat :=
  let h := s.imageHeader slot
  let key := leField h 6 1
  let pub := slice h 176 97
  let len := leField h 24 4
  if leField h 0 4 ≠ text "KVB6" ∨ leField h 4 2 ≠ 1 then 1
  else if s.boot.keyHash[key]? ≠ some (Config.sha384 pub) ∨ s.regBit Obj.BOOT_KEY_REVOKED 0 key = true then 2
  else if Config.ecdsaOk pub (digest (h.take 320)) (slice h 320 96) = false then 3
  else if leField h 16 2 < s.reg Obj.BOOT_SVN_FUSE then 4
  else if len < 1 ∨ 16776704 < len then 6
  else if digest (s.flashBytes (imageBase slot + 512) len) ≠ slice h 32 48 then 5
  else if readError then 7
  else 0

/-- `BOOT.SLOT_VERSION` (R481): the FW_VERSION of a slot's image, 0xFFFF_FFFF for an invalid one. -/
def slotVersion (s : State) (e : Nat) : Nat := if imageCode s (e + 1) false = 0 then leField (s.imageHeader (e + 1)) 8 4 else 0xFFFFFFFF

/-- The bytes of an image slot are erased. -/
def eraseSlot (s : State) (slot : Nat) : State :=
  { s with flash := s.flash.filter (fun c => decide (c.1 < imageBase slot) || decide (imageBase slot + 0x1000000 ≤ c.1)) }

/-- The inactive slot, as `BOOT.UPDATE_STATUS` shows it (R473). -/
def State.inactive (s : State) : Nat := if s.regBit Obj.BOOT_UPDATE_STATUS 0 0 then 2 else 1

/-- `BOOT.UPDATE_STATUS` takes a state and a failure code. -/
def setUpdate (s : State) (st code : Nat) : State := (s.setRegBits Obj.BOOT_UPDATE_STATUS 0 29 3 st).setRegBits Obj.BOOT_UPDATE_STATUS 0 16 8 code

/-- The inactive slot is the one that ACTIVE does not name. -/
def showInactive (s : State) (active : Nat) : State := s.putRegBit Obj.BOOT_UPDATE_STATUS 0 0 (active == 1)

/-! ### What a reset keeps (R462) -/

/-- Registers that are fuses, or identity written at manufacture. -/
def fusedObj (a : Nat) : Bool := a / 256 == 0x1000 || [Obj.MGP_MAC, Obj.BOOT_SVN_FUSE, Obj.BOOT_KEY_REVOKED].contains a

/-- Registers that a chip reset keeps. -/
def keptObj (a : Nat) : Bool := fusedObj a || [Obj.FLT_OUT_CTRL, Obj.RST_CAUSE, Obj.RST_COUNT, Obj.BOOT_NEXT_IMAGE].contains a

/-- The bits of a group that are latched Fatal. -/
def fatalMask (s : State) (g : Nat) : Nat :=
  ((s.flt.sev.filter (fun e => e.2 == 4 && e.1 / 32 == g)).map (fun e => 2 ^ (e.1 % 32))).sum

/-- The error words behind the data-path groups: object, element, and the mask of what a chip reset keeps of it (R409). -/
def fatalWords (s : State) : List (Nat × Nat × Nat) :=
  [(Obj.BASIN_ERRORS, 0, fatalMask s 5), (Obj.STP_ERRORS, 0, fatalMask s 7), (Obj.COH_ERRORS, 0, fatalMask s 9 % 65536),
    (Obj.COH_PROGRESS_ERRORS, 0, fatalMask s 9 / 65536), (Obj.COL_ERRORS, 0, fatalMask s 10 % 128),
    (Obj.FLT_SOURCE_STATUS, 6, fatalMask s 6), (Obj.FLT_SOURCE_STATUS, 10, fatalMask s 10)]
    ++ (List.range 64).map (fun p => (Obj.PASS_ERRORS, p, fatalMask s 6))

/-- The straps are sampled (R60, R464). -/
def sampleStraps (s : State) (straps : Nat) : State :=
  let word := at_ 7 (bits straps 7 2) + straps % 64
  (s.setReg Obj.ID_STRAPS 0 word).setReg Obj.MGP_FM_PORTS 0 (if bitAt word 7 then 2 ^ (straps % 64) else 0)

/-- The timers that run from a release of the internal resets on (R89, R424). R89 does not say when a group's first self-test
is due; it is at the release (DESIGN CHOICE, log entry 83). -/
def resetTimers (now : Nat) : List (Timer × Nat) :=
  (⟨.interval, 0, 0⟩, now + 1000000000) :: (List.range 16).map (fun g => (⟨.selfTestHour, g, 0⟩, now))

/-- The device as the power-on reset leaves it: only fuses, flash and what lies outside the device remain (R462). -/
def coldState (s : State) : State :=
  { State.reset with
    now := s.now, resetAt := s.now, free := s.free, out := s.out, pending := s.pending
    regs := s.regs.filter (fun e => fusedObj (e.1 / 65536))
    mem := s.mem.filter (fun c => decide (frontBase ≤ c.1))
    lineMeta := s.lineMeta.filter (fun c => decide (frontBase / 64 ≤ c.1))
    flash := s.flash
    timers := resetTimers s.now
    boot := { State.reset.boot with keyHash := s.boot.keyHash, lifeFuse := s.boot.lifeFuse, vidFuse := s.boot.vidFuse }
    stp := { State.reset.stp with repaired := s.stp.repaired }
    wear := { State.reset.wear with copies := s.wear.copies, savedAt := s.wear.savedAt, vidAt := s.wear.vidAt } }

/-- What a chip reset keeps beside that: status-pin levels, reset records, the excluded slot, rails and presence (R462). -/
def keepLevels (s t : State) : State :=
  { t with
    regs := s.regs.filter (fun e => keptObj (e.1 / 65536))
    timers := t.timers ++ s.timers.filter (fun e => [TimerKind.faultPulse, .debounce, .cooldown].contains e.1.kind)
    flt := { t.flt with replacePin := s.flt.replacePin, sev := s.flt.sev.filter (fun e => e.2 == 4 && dataPathGroup (e.1 / 32)) }
    lane := { t.lane with swapped := s.lane.swapped, kept := true }
    boot := { t.boot with avoid := s.boot.avoid, avoidCode := s.boot.avoidCode, jtag := s.boot.jtag, resetStart := s.boot.resetStart }
    wear := { t.wear with railOut := s.wear.railOut }
    slot := { t.slot with asserted := s.slot.asserted }
    twin := { t.twin with hbOut := s.twin.hbOut } }

/-- The presence of the cards and SLOT_VIN's low level stay in `SLOT.STATUS`. -/
def keepPresence (s t : State) : State :=
  forEach (List.range 32) t fun u n =>
    (u.putRegBit Obj.SLOT_STATUS n 25 (s.regBit Obj.SLOT_STATUS n 25)).putRegBit Obj.SLOT_STATUS n 19 (s.regBit Obj.SLOT_STATUS n 19)

/-- The data-path Fatal latches stay, and with one the Basin stays stopped (R409); with INIT or CTRL_PARITY the Steppe controllers
too, until power cycling (R224). -/
def keepFatal (s t : State) : State :=
  let u := forEach (fatalWords s) t fun u w => u.setReg w.1 w.2.1 (Nat.land (s.reg w.1 w.2.1) w.2.2)
  let v := if s.regBit Obj.STP_ERRORS 0 10 || s.regBit Obj.STP_ERRORS 0 11 then u.setReg Obj.STP_STATE 0 3 else u
  { v with basin := { v.basin with stopped := t.dataPathFatal } }

/-- The internal resets release after a chip reset (R462, R463): straps are sampled, boot runs; a rail that is out raises
its source again; an erase that was cut short leaves its slot invalid (R473). -/
def warmRelease (s : State) (straps : Nat) : State :=
  let s0 := if s.boot.work = 1 then eraseSlot s s.inactive else s
  let t := keepFatal s0 (keepPresence s0 (keepLevels s0 (coldState s0)))
  let u := (sampleStraps t straps).setReg Obj.LIFE_STATE 0 t.boot.lifeFuse
  if u.wear.railOut.isEmpty then u else raise u 18 2

/-- The reserve lanes that fail their power-on calibration are Failed (R89). -/
def calibrateReserves (s : State) (bad : List Nat) : State :=
  if bad.isEmpty then s else raise (countReserves (forEach bad s (fun t g => setReserve t g 3 0))) 3 2

/-- The power-on reset releases after a power cycle (R462, R489). -/
def coldRelease (s : State) (straps : Nat) (programmed : List FlashPatch) (badReserves : List Nat) : State :=
  let t := coldState s
  let u := (sampleStraps t straps).setReg Obj.LIFE_STATE 0 t.boot.lifeFuse
  calibrateReserves (forEach programmed u fun v p => v.setFlash p.offset p.bytes) badReserves

/-- A chip reset has reached the release of the internal resets (R463 step 6): 1 ms and every slot off; after a cause 0
every rail but SLOT_VIN is inside its window again (R489). -/
def releaseDue (s : State) : Bool :=
  s.phase == .chipReset && decide (s.boot.resetStart + 1000000 ≤ s.now) && s.slot.driven.isEmpty
    && (s.reg Obj.RST_CAUSE != 0 || s.wear.railOut.all (· == 8))

/-! ### The start of firmware (R466, R470) -/

/-- Firmware of slot `k` starts: `first` is the slot tried first, with its failure code. -/
def startFirmware (s : State) (k first code : Nat) : State :=
  let h := s.imageHeader k
  let head := s.bootHeader
  let trial := head.elim false (fun x => x.trial && x.active == k)
  let undo := head.elim false (fun x => x.trial && x.active == first) && k != first
  let s1 := { s with boot := { s.boot with
    stage := .firmware, slot := k, svn := leField h 16 2, keyIndex := leField h 6 1, trial := trial, avoid := 0, avoidCode := 0 } }
  let s2 := (((s1.setReg Obj.BOOT_NEXT_IMAGE 0 0).setReg Obj.ID_FW_VERSION 0 (leField h 8 4)).setReg Obj.ID_DESC_DIGEST 0 (leField h 128 48)).setReg
    Obj.ID_OBJECT_COUNT 0 (Config.objectCount h % 65536)
  let s3 := (s2.setReg Obj.BOOT_STATUS 0 (at_ 30 k + at_ 29 (b2n (k != first)) + at_ 28 (b2n trial) + at_ 16 code)).setReg Obj.BOOT_ACTIVE 0 (head.elim k (fun x => x.active))
  let s4 := if undo then writeHeader s3 k false else s3
  let s5 := loadWear ((showInactive s4 (s4.reg Obj.BOOT_ACTIVE)).arm ⟨.watchdog, 0, 0⟩ 5000000000)
  let s6 := forEach (List.range 64) s5 letTrain
  if k = first then s6 else raise s6 16 0

/-- The slot the ROM tries first (R470): the one the watchdog excludes is taken as tried; else `BOOT.NEXT_IMAGE`, else
ACTIVE; with no valid header nothing says which, and a free value chooses. -/
def firstSlot (s : State) : State × Nat :=
  if s.boot.avoid ≠ 0 then (s, s.boot.avoid)
  else if s.reg Obj.BOOT_NEXT_IMAGE ≠ 0 then (s, s.reg Obj.BOOT_NEXT_IMAGE)
  else match s.bootHeader with
    | some h => (s, h.active)
    | none => (s.useFree, 1 + s.freeNow % 2)

/-- The boot ROM chooses an image (R470). -/
def chooseImage (s : State) (readErrors : List Nat) : State :=
  let f := firstSlot s
  let code := if s.boot.avoid = f.2 then s.boot.avoidCode else imageCode f.1 f.2 (readErrors.contains f.2)
  if code = 0 then startFirmware f.1 f.2 f.2 0
  else if imageCode f.1 (otherSlot f.2) (readErrors.contains (otherSlot f.2)) = 0 then startFirmware f.1 (otherSlot f.2) f.2 code
  else { f.1 with boot := { f.1.boot with stage := .failed } }.putRegBit Obj.FLT_OUT_CTRL 0 31 true

/-! ### The Col microprogram at Start-up (R325, R329, R490) -/

/-- The lowest-numbered Active role that serves the fewest slices. -/
def fewestSlices (served : List (Nat × Nat)) : Nat :=
  match served with
  | [] => 0
  | x :: xs => (xs.foldl (fun best y => if y.2 < best.2 then y else best) x).1

/-- The base slices of Retired roles, in ascending order, go to Active roles (R325, R309). -/
def giveAway (active : List Nat) (s : State) : State :=
  let served := active.map (fun n => (n, (s.slicesOf n).length))
  ((List.range 4096).foldl (fun (acc : State × List (Nat × Nat)) x =>
    if active.contains (acc.1.reg Obj.COL_SLICE_BASE x) then acc
    else
      let n := fewestSlices acc.2
      let t := acc.1.setReg Obj.COL_SLICE_MAP x n
      ({ t with col := { t.col with replaced := assocPut t.col.replaced x n } }, acc.2.map (fun y => if y.1 = n then (n, y.2 + 1) else y))) (s, served)).1

/-- A physical engine at Start-up: Failed with its cause, Active in a role, or Spare (R325, R329). -/
def physAtStart (s : State) (badTests badDigests good : List Nat) (t : State) (p : Nat) : State :=
  if s.col.worn.contains p then t.setReg Obj.COL_PHYS_STATE p (at_ 30 2 + at_ 27 5)
  else if badTests.contains p then t.setReg Obj.COL_PHYS_STATE p (at_ 30 2 + at_ 27 1)
  else if badDigests.contains p then raise (t.setReg Obj.COL_PHYS_STATE p (at_ 30 2 + at_ 27 6)) 10 3
  else match good.findIdx? (· == p) with
    | some n => if n < 256 then t.setReg Obj.COL_PHYS_STATE p (at_ 30 1 + at_ 16 n) else t.setReg Obj.COL_PHYS_STATE p 0
    | none => t

/-- A role at Start-up: filled, on the microprogram loaded, or Retired. -/
def roleAtStart (good : List Nat) (t : State) (n : Nat) : State :=
  match good[n]? with
  | some p => t.setReg Obj.COL_ENGINE_STATE n (at_ 29 1 + at_ 20 p)
  | none => t.setReg Obj.COL_ENGINE_STATE n (at_ 30 2)

/-- The Col array is brought up: tests, roles, microprogram, VID code. -/
def startCol (s : State) (badTests badDigests : List Nat) : State :=
  let good := (List.range 272).filter (fun p => !s.col.worn.contains p && !badTests.contains p && !badDigests.contains p)
  let s1 := (s.setReg Obj.PKG_COL_VID 0 (min 16 (s.boot.vidFuse - s.wear.vidRise))).setReg Obj.ID_COL_UCODE_VERSION 0 (leField (s.imageHeader s.boot.slot) 12 4)
  let s2 := forEach (List.range 272) s1 (physAtStart s badTests badDigests good)
  let s3 := (forEach (List.range 256) s2 (roleAtStart good)).setReg Obj.COL_UCODE_PROGRESS 0 (min 256 good.length)
  let s4 := if 256 ≤ good.length ∨ good.isEmpty = true then s3 else giveAway (List.range good.length) s3
  showSpares { s4 with boot := { s4.boot with ucodeOk := !good.isEmpty } }

end Sys2Proof.Machine
end

