-- ==== Sys2Proof/Machine/Boot.lean ====
section
/-! DEFINITION. The commands of reset, boot, update, device state, lifecycle and debug access
(19_reset_boot_lifecycle.md, R325, R329, R418). -/
namespace Sys2Proof.Machine

/-! ### Reset (R461 to R466, R489) -/

/-- `POWER_ON_RESET_RELEASE` (R89, R462, R489). A chip reset with cause 0 releases by the same rule. -/
def execPowerOnResetRelease (dt straps : Nat) (on : PowerOn) (s : State) : Res := runAon dt s fun s =>
  if s.phase = .unpowered then coldRelease s straps on.programmed on.badReserves
  else if releaseDue s = true ∧ s.reg Obj.RST_CAUSE = 0 then warmRelease s straps
  else s

/-- `CHIP_RST_L` (R461). -/
def execChipRstL (dt : Nat) (s : State) : Res := runPowered dt s fun s => beginChipReset s 1

/-- `CHIP_RESET` (R461): the response leaves first. -/
def execChipReset (dt : Nat) (path : Path) (s : State) : Res := run dt s fun s =>
  serveReset s path (writeRec Obj.RST_CHIP_RESET none 1) 2 id

/-- `INTERNAL_RESET_RELEASE` (R463, R464). -/
def execInternalResetRelease (dt straps : Nat) (s : State) : Res := runAon dt s fun s => if releaseDue s then warmRelease s straps else s

/-- `IMAGE_AUTHENTICATE` (R469, R470); `readErrors` are the slots whose reading meets a flash error. -/
def execImageAuthenticate (dt : Nat) (readErrors : List Nat) (s : State) : Res := run dt s fun s =>
  if s.boot.stage = .rom then chooseImage s readErrors else s

/-- `UCODE_LOAD` (R325, R329, R466 step 5); `badTests` fail the built-in test, `badDigests` the digest twice. -/
def execUcodeLoad (dt : Nat) (badTests badDigests : List Nat) (s : State) : Res := run dt s fun s =>
  if s.boot.stage = .firmware ∧ s.boot.ucodeOk = false then startCol s badTests badDigests else s

/-- A trial image that has stopped its watchdog becomes permanent (R470). -/
def makePermanent (s : State) : State :=
  if s.boot.trial then
    (writeHeader { s with boot := { s.boot with trial := false } } s.boot.slot false).putRegBit Obj.BOOT_STATUS 0 28 false
  else s

/-- `STEPPE_READY` (R208, R416, R466 step 7): initialisation ends, the boot watchdog stops, the replace causes are evaluated. -/
def execSteppeReady (dt : Nat) (s : State) : Res := run dt s fun s =>
  if s.reg Obj.STP_STATE = 1 then
    let s1 := makePermanent ((s.setReg Obj.STP_STATE 0 2).disarm ⟨.watchdog, 0, 0⟩)
    report { s1 with boot := { s1.boot with stage := .ready } } .replace
  else s

/-- `BOOT_WATCHDOG_EXPIRY` (R470): a chip reset with cause 5, and the other slot boots. -/
def execBootWatchdogExpiry (dt : Nat) (s : State) : Res := run dt s fun s =>
  s.onDue ⟨.watchdog, 0, 0⟩ fun t => beginChipReset { t with boot := { t.boot with avoid := t.boot.slot, avoidCode := 9 } } 5

/-! ### Updates (R473) -/

/-- A write of `BOOT.UPDATE_CMD`: 1 Erase, 2 Verify, 3 Activate, 4 Activate and load live. -/
def updateEffect (v : Nat) (s : State) : State :=
  let activate := setUpdate (showInactive (writeHeader s s.inactive true) s.inactive) 0 0
  match v with
  | 1 => setUpdate { s with boot := { s.boot with work := 1 } } 1 0
  | 2 => setUpdate { s with boot := { s.boot with work := 2 } } 1 0
  | 3 => activate
  | 4 =>
    let h := s.imageHeader s.inactive
    let roles := (List.range 256).filter (fun n => s.roleState n == 0)
    let t := forEach (List.range 256) activate fun u n => u.putRegBit Obj.COL_ENGINE_STATE n 29 false
    let u := (t.setReg Obj.COL_UCODE_PROGRESS 0 0).setReg Obj.ID_COL_UCODE_VERSION 0 (leField h 12 4)
    nextJob { u with col := { u.col with loadQueue := roles } } []
  | _ => s

/-- `ERASE` (R473). -/
def execErase (dt : Nat) (path : Path) (s : State) : Res := run dt s fun s =>
  serveWrite s path (writeRec Obj.BOOT_UPDATE_CMD none 1) (updateEffect 1)

/-- Update work has the flash (R473): no trap save and no remap save waits before it. -/
def updateTurn (s : State) : Bool := s.flt.traps.isEmpty && s.stp.unsaved.isEmpty

/-- `ERASE_DONE` (R473). -/
def execEraseDone (dt : Nat) (s : State) : Res := run dt s fun s =>
  if s.boot.work = 1 ∧ updateTurn s = true then setUpdate (eraseSlot { s with boot := { s.boot with work := 0 } } s.inactive) 0 0 else s

/-- `VERIFY` (R473). -/
def execVerify (dt : Nat) (path : Path) (s : State) : Res := run dt s fun s =>
  serveWrite s path (writeRec Obj.BOOT_UPDATE_CMD none 2) (updateEffect 2)

/-- `VERIFY_DONE` (R469, R473). -/
def execVerifyDone (dt : Nat) (readError : Bool) (s : State) : Res := run dt s fun s =>
  if s.boot.work = 2 ∧ updateTurn s = true then
    let code := imageCode s s.inactive readError
    setUpdate { s with boot := { s.boot with work := 0 } } (if code = 0 then 2 else 3) code
  else s

/-- `ACTIVATE` (R473). -/
def execActivate (dt : Nat) (path : Path) (s : State) : Res := run dt s fun s =>
  serveWrite s path (writeRec Obj.BOOT_UPDATE_CMD none 3) (updateEffect 3)

/-- `ACTIVATE_AND_LOAD_LIVE` (R330, R473). -/
def execActivateAndLoadLive (dt : Nat) (path : Path) (s : State) : Res := run dt s fun s =>
  serveWrite s path (writeRec Obj.BOOT_UPDATE_CMD none 4) (updateEffect 4)

/-- The next `BOOT.UPDATE_ADDR`: 512 further; past the end of the slot the spec states none, and a free value gives it. -/
def nextUpdateAddr (s : State) : State :=
  let a := s.reg Obj.BOOT_UPDATE_ADDR + 512
  if a < 0x1000000 then s.setReg Obj.BOOT_UPDATE_ADDR 0 a
  else s.useFree.setReg Obj.BOOT_UPDATE_ADDR 0 (s.freeNow % 32768 * 512)

/-- A write of `BOOT.UPDATE_DATA`. -/
def updateDataEffect (data : List Byte) (s : State) : State :=
  let s1 := s.setFlash (imageBase s.inactive + s.reg Obj.BOOT_UPDATE_ADDR) (data.take 512)
  nextUpdateAddr (if s1.regBits Obj.BOOT_UPDATE_STATUS 0 29 3 = 2 then setUpdate s1 0 0 else s1)

/-- `UPDATE_DATA` (R473). -/
def execUpdateData (dt : Nat) (path : Path) (data : List Byte) (s : State) : Res := run dt s fun s =>
  serveWrite s path ⟨Obj.BOOT_UPDATE_DATA / 256, Obj.BOOT_UPDATE_DATA % 256, none, data⟩ (updateDataEffect data)

/-- A write of 1 to `BOOT.SVN_ADVANCE` (R471). -/
def svnEffect (s : State) : State := s.setReg Obj.BOOT_SVN_FUSE 0 (max (s.reg Obj.BOOT_SVN_FUSE) (min 63 s.boot.svn))

/-- `SVN_ADVANCE` (R471). -/
def execSvnAdvance (dt : Nat) (path : Path) (s : State) : Res := run dt s fun s =>
  serveWrite s path (writeRec Obj.BOOT_SVN_ADVANCE none 1) svnEffect

/-- `KEY_REVOKE` (R471). -/
def execKeyRevoke (dt : Nat) (path : Path) (k : Nat) (s : State) : Res := run dt s fun s =>
  serveWrite s path (writeRec Obj.BOOT_KEY_REVOKE none k) (fun t => t.putRegBit Obj.BOOT_KEY_REVOKED 0 (k % 256) true)

/-! ### Device state and lifecycle (R474 to R477) -/

/-- A write of `DEV.STATE_REQ` that the checks accept. -/
def stateReqEffect (v : Nat) (s : State) : State := if v = s.devState then s else enterState s v

/-- `REQUEST_SERVICE` (R474). -/
def execRequestService (dt : Nat) (path : Path) (s : State) : Res := run dt s fun s =>
  serveWrite s path (writeRec Obj.DEV_STATE_REQ none 1) (stateReqEffect 1)

/-- `REQUEST_TEST` (R474). -/
def execRequestTest (dt : Nat) (path : Path) (s : State) : Res := run dt s fun s =>
  serveWrite s path (writeRec Obj.DEV_STATE_REQ none 2) (stateReqEffect 2)

/-- `REQUEST_RECOVERY` (R474). -/
def execRequestRecovery (dt : Nat) (path : Path) (s : State) : Res := run dt s fun s =>
  serveWrite s path (writeRec Obj.DEV_STATE_REQ none 3) (stateReqEffect 3)

/-- The value of `LIFE.REQUEST`. -/
def lifeWord (serialCheck target : Nat) : Nat := at_ 32 (serialCheck % 2 ^ 32) + target

/-- The lifecycle fuse is burned. -/
def burnLife (st : Nat) (s : State) : State := { s with boot := { s.boot with lifeFuse := max st s.boot.lifeFuse } }

/-- `REQUEST_DEPLOYED` (R476): in effect at the next chip reset. -/
def execRequestDeployed (dt : Nat) (path : Path) (serialCheck : Nat) (s : State) : Res := run dt s fun s =>
  serveWrite s path (writeRec Obj.LIFE_REQUEST none (lifeWord serialCheck 1)) (burnLife 1)

/-- The locked regions are key-erased, and the firmware working memory of Steppe is zeroed (R477 step 2). -/
def eraseKeys (s : State) : State :=
  let s1 := forEach s.liveSlots s fun u k => destroySlot u k (slotFronted u k)
  let s2 := forEach (List.range 64) s1 fun u p => u.setRegBits Obj.EDGE_IDE_STATUS p 0 2 0
  { s2 with
    twin := { s2.twin with pairKey := none }
    mem := s2.mem.filter (fun c => decide (c.1 < 0x2E00000000) || decide (0x2E40000000 ≤ c.1)) }

/-- Steps 1 to 3 of R477. -/
def fieldReturnEffect (s : State) : State := burnLife 2 (eraseKeys ((allLinksDown s).disarm ⟨.heartbeat, 0, 0⟩))

/-- `REQUEST_FIELD_RETURN` (R476, R477). -/
def execRequestFieldReturn (dt : Nat) (path : Path) (serialCheck : Nat) (s : State) : Res := run dt s fun s =>
  serveReset s path (writeRec Obj.LIFE_REQUEST none (lifeWord serialCheck 2)) 4 fieldReturnEffect

/-! ### JTAG and the debug access port (R478 to R480) -/

/-- A fresh nonce goes to the debugger (R479); its value is free. -/
def giveNonce (s : State) : State :=
  let n := s.freeNow % 2 ^ 384
  ({ s with boot := { s.boot with nonce := n } }).useFree.emit (.jtag "nonce" n)

/-- The debug access port is closed until an unlock (R475, R479). -/
def State.debugLocked (s : State) : Bool := s.reg Obj.LIFE_STATE == 1 && !s.regBit Obj.DBG_STATUS 0 31

/-- The instruction that is loaded in place of one asked for (R478). -/
def loadedIns (s : State) (ins : JtagIns) : JtagIns :=
  if (ins = .extest ∨ ins = .extestPulse ∨ ins = .extestTrain) ∧ s.reg Obj.LIFE_STATE = 1 ∧ (s.devState = 1 ∨ s.devState = 3) then .bypass else ins

/-- `JTAG_INSTRUCTION` (R478): IDCODE answers its code; the private instruction meets the debug access port, which gives a
nonce while it is closed (R479). -/
def execJtagInstruction (dt : Nat) (ins : JtagIns) (s : State) : Res := run dt s fun s =>
  let i := loadedIns s ins
  let s1 := { s with boot := { s.boot with jtag := i } }
  match i with
  | .idcode => s1.emit (.jtag "IDCODE" 0x364005CB)
  | .debugPort => if s1.debugLocked && s1.reg Obj.DBG_UNLOCK_EN == 1 then giveNonce s1 else s1
  | _ => s1

/-- What the debugger signs (R479). -/
def unlockMessage (s : State) : List Byte := beBytes s.boot.nonce 48 ++ leBytes (s.reg Obj.ID_SERIAL) 16

/-- `DEBUG_UNLOCK` (R479). -/
def execDebugUnlock (dt : Nat) (signature : List Byte) (s : State) : Res := run dt s fun s =>
  if s.debugLocked && s.reg Obj.DBG_UNLOCK_EN == 1 && s.boot.jtag == .debugPort then
    if Config.ecdsaOk Config.debugKey (digest (unlockMessage s)) signature then s.putRegBit Obj.DBG_STATUS 0 31 true else giveNonce s
  else s

/-- `DEBUG_ACCESS` (R480): a locked region reads as zero and drops a write; the access is counted, logged and raised. -/
def execDebugAccess (dt region : Nat) (write : Bool) (s : State) : Res := run dt s fun s =>
  if region < 1 ∨ 5 < region then s
  else
    let word := at_ 24 (s.sinceReset / 1000 % 2 ^ 40) + at_ 23 (b2n write) + at_ 20 region
    let s1 := raise (pushLog (s.count1 Obj.DBG_REFUSED 0) Obj.DBG_REFUSED_LOG 16 word) 16 3
    if write then s1 else s1.emit (.jtag "data" 0)

/-! ### The management core (R418) -/

/-- `ETH_LINK_DOWN` (R418): the management lane goes down. -/
def execEthLinkDown (dt : Nat) (s : State) : Res := run dt s fun s => if s.firmware && s.reg Obj.MGP_ETH_MODE != 0 then raise s 1 0 else s

/-- `MEADOW_PAIR_RESTARTED` (R418): the dictionary service takes messages again. -/
def execMeadowPairRestarted (dt : Nat) (s : State) : Res := run dt s fun s => { s with mgmt := { s.mgmt with paused := false } }

end Sys2Proof.Machine
end

