-- ==== Sys2Proof/Machine/Edge.lean ====
section
/-! DEFINITION. The edge ports (04_edge_ports.md): training, PERST_L, links that go down, logical devices, IDE, PBR flits,
the HDM decoders of the presented function. -/
namespace Sys2Proof.Machine

/-! ### What training negotiates (R99, R102, R503) -/

/-- The outcome of a negotiation, in the fields of `EDGE.PORT_STATE`. -/
structure Negotiated where
  version  : Nat
  flit     : Nat
  mem      : Bool
  cache    : Bool
  bi       : Bool
  pcieFlit : Bool

/-- PCIe flit mode is available at both ends. -/
def flitMode (w : Nat) (o : Offer) : Bool := bitAt w 0 && o.pcieFlit

/-- 256-byte CXL flits are available at both ends: they need PCIe flit mode, and a CXL 3.x partner. -/
def wideFlits (w : Nat) (o : Offer) : Bool := bitAt w 1 && bitAt w 5 && flitMode w o && o.flit256 && o.version == 3

/-- 68-byte CXL flits are available at both ends; a downstream CXL 1.1 device is not supported (R101). -/
def narrowFlits (w : Nat) (o : Offer) (downstream : Bool) : Bool :=
  bitAt w 1 && bitAt w 4 && o.flit68 && decide (1 ≤ o.version) && !(downstream && o.version == 1)

/-- What a port with the `EDGE.PROTOCOLS` word `w` negotiates with its partner (R99, R102, R503). -/
def negotiate (w : Nat) (host downstream : Bool) (o : Offer) : Negotiated :=
  let wide := wideFlits w o
  let cxl := wide || narrowFlits w o downstream
  let mem := cxl && bitAt w 2 && o.mem
  { version := if cxl then min 3 o.version else 0
    flit := if wide then (if o.latOpt then 3 else 2) else if cxl then 1 else 0
    mem := mem
    cache := cxl && bitAt w 3 && o.cache
    bi := host && wide && mem
    pcieFlit := flitMode w o && (wide || !cxl) }

/-- `EDGE.PORT_STATE` of a link that has come up. -/
def Negotiated.word (n : Negotiated) : Nat :=
  at_ 9 (b2n n.bi) + at_ 8 (b2n n.cache) + at_ 7 (b2n n.mem) + at_ 5 n.flit + at_ 2 n.version + at_ 1 (b2n n.pcieFlit) + 1

/-- The highest rate a link may run as far as its partner goes (R75, R503): 64 GT/s needs flit mode. -/
def partnerLimit (o : Offer) (n : Negotiated) : Nat := if n.pcieFlit then min 5 o.rate else min 4 o.rate

/-- The width a link trains at: 1, 2, 4, 8 or 16 lanes, at most those of the port. -/
def linkWidth (s : State) (p w : Nat) : Nat :=
  let m := min w (s.portWidth p)
  if 16 ≤ m then 16 else if 8 ≤ m then 8 else if 4 ≤ m then 4 else m - m / 3

/-! ### A link comes up -/

/-- A key exchange begins (R119): as requester, in the containment or skid mode that is selected. -/
def askKeys (s : State) (p : Nat) (what : String) : State := s.emit (.toPort p what [b2n (s.regBit Obj.EDGE_IDE_CTRL p 1)])

/-- The stream of a link that comes up (R119, R120): after a failure IDE is off where FALLBACK allows it, else the link
waits for a new key exchange; with LINK_EN keys are exchanged. -/
def startIde (s : State) (p : Nat) : State :=
  let failed := s.regBits Obj.EDGE_IDE_STATUS p 0 2 == 3
  if failed && s.regBit Obj.EDGE_IDE_CTRL p 2 then s.setRegBits Obj.EDGE_IDE_STATUS p 0 2 0
  else
    let s1 := if s.regBit Obj.EDGE_IDE_CTRL p 0 && !s.isHost p then askKeys s p "IDE key exchange" else s
    if !failed && s.regBit Obj.EDGE_IDE_CTRL p 0 then s1.setRegBits Obj.EDGE_IDE_STATUS p 0 2 1 else s1

/-- What a logical device that answers says of itself. -/
def offeredLd (o : LdOffer) : Ld := ⟨o.serial, o.capacity, o.type3, o.dynamic, o.cache, true⟩

/-- A logical device answers behind a downstream port that has come up (R109, R112): a fronted one that is known stays
unreachable until its identity has been read again; another is as it says. -/
def foundLd (p : Nat) (s : State) (o : LdOffer) : State :=
  let e := 16 * p + o.ldId
  match assocGet s.edge.lds e with
  | some d =>
    if s.reg Obj.EDGE_LD_USE e = 2 then { s with edge := { s.edge with lds := assocPut s.edge.lds e { d with reachable := false } } }
    else { s with edge := { s.edge with lds := assocPut s.edge.lds e (offeredLd o) } }.setReg Obj.EDGE_LD_CAPACITY e (o.capacity % 2 ^ 64)
  | none => programDecoders ({ s with edge := { s.edge with lds := assocPut s.edge.lds e (offeredLd o) } }.setReg Obj.EDGE_LD_CAPACITY e (o.capacity % 2 ^ 64)) e

/-- The logical devices of a downstream port whose link has come up: those that no longer answer are absent, a fronted one
apart, which is not forgotten. -/
def findLds (s : State) (p : Nat) (l : List LdOffer) : State :=
  let gone := (List.range 16).filter (fun i => !l.any (fun o => o.ldId == i) && s.reg Obj.EDGE_LD_USE (16 * p + i) != 2)
  let s1 := forEach gone s fun t i =>
    { t with edge := { t.edge with lds := assocDrop t.edge.lds (16 * p + i) } }.setReg Obj.EDGE_LD_CAPACITY (16 * p + i) 0
  forEach (l.filter (fun o => o.ldId < 16)) s1 (foundLd p)

/-- The coefficients a partner's request leaves in a transmitter (R81): any within the limits is accepted, and every preset;
one outside them is not, and what training finds stays. -/
def requestedFfe (rate : Nat) : FfeRequest → Option Nat
  | .preset n => some (foundFfe (Config.presetFfe rate n))
  | .coefficients pre main post => if pre + main + post = 63 ∧ pre ≤ 15 ∧ post ≤ 21 ∧ pre + post ≤ 21 then some (ffeWord pre post) else none

/-- The lanes of a link train (R74, R81, R82): the port advertises FS = 63 and LF = 21 where the rate is equalised, each
transmitter takes what the partner requested, and inverted lanes are corrected. -/
def trainEdge (s : State) (p width rate : Nat) (o : Offer) : State :=
  let s1 := if 2 ≤ rate then s.emit (.toPort p "equalisation: FS, LF" [63, 21]) else s
  let s2 := forEach (List.range width) s1 fun t i =>
    trainLane t (t.portFirstLane p + i) (if 2 ≤ rate then (o.ffe[i]?).bind (requestedFfe rate) else none)
  { s2 with lane := { s2.lane with inverted := s2.lane.inverted ++ (o.inverted.filter (fun i => decide (i < width))).eraseDups.map (s2.portFirstLane p + ·) } }

/-- A link may carry what waited for it (R107, R120, R378): the agent behind a host port resumes, and held vectors leave. -/
def resumeTraffic (s : State) (p : Nat) : State :=
  if s.carriesTraffic p then
    releaseHeld (s.withSome (if s.isHost p then s.portAgent p else none) (agentLinkUp s))
  else s

/-- The training of an edge port's link has completed: its state words, its lanes' values, its credits, its logical devices,
the agent behind it, interrupt vectors and swaps that waited for it (R82, R99, R107 to R109, R134, R378, R92). -/
def linkComesUp (s : State) (p : Nat) (o : Offer) (n : Negotiated) : State :=
  let width := linkWidth s p o.width
  let rate := min (partnerLimit o n) (s.reg Obj.LANE_PORT_MAX_RATE p)
  let s1 := (recordEvent s 0 p 0).setReg Obj.EDGE_PORT_STATE p n.word
  let s1 := { s1 with edge := { s1.edge with partnerRate := assocPut s1.edge.partnerRate p (partnerLimit o n) } }
  let s2 := ((s1.setRegBits Obj.LANE_PORT_STATUS p 8 5 width).setRegBits Obj.LANE_PORT_STATUS p 0 3 rate).putRegBit Obj.LANE_PORT_STATUS p 15 o.reversed
  let s3 := advertiseCredits (trainEdge s2 p width rate o) p
  let s4 := startIde s3 p
  let s5 := if s4.isDownstream p then
      { s4 with edge := { s4.edge with mlds := (if o.mld then [p] else []) ++ s4.edge.mlds.filter (· != p) } } |> fun t => findLds t p o.lds
    else s4
  resumeSwaps (resumeTraffic s5 p) p

/-- An edge port can train: firmware runs, the port is not up, not held for test, not without its reference, and a fabric
port is not in its 100 ms of electrical idle (R30, R87, R466, R503). -/
def mayTrainEdge (s : State) (p : Nat) : Bool :=
  s.firmware && s.isEdge p && !s.edgeUp p && s.reg Obj.LANE_PORT_TEST p == 0 && !s.lane.held.contains (p / 4) && !s.basin.stopped && !s.armed ⟨.fabricIdle, p, 0⟩

/-- `EDGE_LINK_UP` (R99, R503): a fabric port without CXL 3.x in 256-byte flits ends training and is idle for 100 ms. -/
def execEdgeLinkUp (dt port : Nat) (offer : Offer) (s : State) : Res := run dt s fun s =>
  if mayTrainEdge s port && decide (0 < offer.width) then
    let n := negotiate (s.reg Obj.EDGE_PROTOCOLS port) (s.isHost port) (s.isDownstream port) offer
    if s.isFabric port && !(n.version == 3 && decide (2 ≤ n.flit)) then s.arm ⟨.fabricIdle, port, 0⟩ 100000000
    else linkComesUp s port offer n
  else s

/-- `FABRIC_RETRAIN` (R503): the 100 ms of electrical idle have passed. -/
def execFabricRetrain (dt port : Nat) (s : State) : Res := run dt s fun s =>
  s.onDue ⟨.fabricIdle, port, 0⟩ fun s => s.emit (.toPort port "train" [])

/-! ### Resets (R97, R98, R367) -/

/-- The presented function of a port is reset: its HDM decoders are free again, those of its agent show it (R98, R236);
its MSI-X table is cleared (log entry 6). -/
def resetFunction (s : State) (p : Nat) : State :=
  let s1 := { s with edge := { s.edge with decoders := s.edge.decoders.filter (fun e => e.1 / 8 != p)
                                           msix := s.edge.msix.filter (fun e => e.1 / 2 ^ 18 != p) } }
  s1.withSome (s1.portAgent p) fun a => forEach (List.range 8) s1 fun t d => t.setRegBits Obj.TRACT_DECODER_STATE (8 * a + d) 30 2 0

/-- The virtual switch of a host port is reset (R98): the registers of its vPPBs are as after a reset, Power Controller
Control among them, which is taken to be on then (DESIGN CHOICE, log entry 87). -/
def resetSwitch (s : State) (p : Nat) : State :=
  forEach (s.heldVppbs p) (resetFns s p) fun t v => hostOnAtBind t (t.vppbDev p v / 16)

/-- The reset of a host port goes on to every bound vPPB (R98): as an LD reset of that logical device only where a
multi-logical device answers, else as a hot reset of the device. -/
def propagateReset (s : State) (p : Nat) : State :=
  forEach (s.heldVppbs p) s fun t v =>
    let e := t.vppbDev p v
    if t.edge.mlds.contains (e / 16) then t.emit (.toPort (e / 16) "LD reset" [e % 16]) else t.emit (.toPort (e / 16) "hot reset" [])

/-- The tenancy bound to a port is reset with a cause (R366). -/
def resetTenancyOf (s : State) (p cause : Nat) : State := s.withSome (s.portTenancy p) fun t => triggerReset s t cause

/-- `HOST_PERST` (R98, R106): PERST_L of a host port, or a hot reset (`hot`). -/
def execHostPerst (dt port : Nat) (_hot : Bool) (s : State) : Res := run dt s fun s =>
  if s.isHost port then
    let s1 := edgeLinkDown (s.count1 Obj.EDGE_PERST_EVENTS port) port
    resetTenancyOf (propagateReset (resetSwitch (resetFunction s1 port) port) port) port 1
  else s

/-- `PERST_DEASSERT` (R97). -/
def execPerstDeassert (dt port : Nat) (s : State) : Res := run dt s fun s =>
  s.onDue ⟨.perst, port, 0⟩ fun s =>
    if s.isDownstream port && powerGood s port then
      { s with edge := { s.edge with perstReleased := port :: s.edge.perstReleased.filter (· != port) } }
    else s

/-- `FUNCTION_LEVEL_RESET` (R366, R367). -/
def execFunctionLevelReset (dt port : Nat) (s : State) : Res := run dt s fun s =>
  if s.isHost port && s.edgeUp port then resetTenancyOf s port 2 else s

/-! ### Links that go down (R106 to R109, R141) -/

/-- `HOST_LINK_DOWN` (R106): only a loss without a known cause is counted, and raised. -/
def execHostLinkDown (dt port : Nat) (cause : LinkCause) (s : State) : Res := run dt s fun s =>
  if s.isHost port && s.edgeUp port then
    let s1 := edgeLinkDown s port
    if cause = .surprise then raise (s1.count1 Obj.EDGE_SURPRISE_DOWN port) 4 1 else s1
  else s

/-- `GRACE_EXPIRY` (R108): the agent of the port is declared dead. -/
def execGraceExpiry (dt port : Nat) (s : State) : Res := run dt s fun s =>
  s.onDue ⟨.grace, port, 0⟩ fun s => s.withSome (s.portAgent port) fun a => if s.agentState a = 2 then declareDead s a else s

/-- `DOWNSTREAM_LINK_DOWN` (R109). -/
def execDownstreamLinkDown (dt port : Nat) (s : State) : Res := run dt s fun s =>
  if s.isDownstream port && s.edgeUp port then edgeLinkDown s port else s

/-- `FABRIC_LINK_DOWN` (R141). -/
def execFabricLinkDown (dt port : Nat) (s : State) : Res := run dt s fun s =>
  if s.isFabric port && s.edgeUp port then edgeLinkDown s port else s

/-! ### Logical devices and binding (R96, R109, R113) -/

/-- The identity of a logical device has been read again (R109): a fronted one is reachable with the serial number and the
capacity it had; else it stays unreachable and the fault is reported. -/
def identityRead (s : State) (e : Nat) (serial capacity : Nat) (d : Ld) : State :=
  if s.reg Obj.EDGE_LD_USE e ≠ 2 ∨ (d.serial = serial ∧ d.capacity = capacity) then
    programDecoders ({ s with edge := { s.edge with lds := assocPut s.edge.lds e { d with serial := serial, capacity := capacity, reachable := true } } }.setReg
      Obj.EDGE_LD_CAPACITY e (capacity % 2 ^ 64)) e
  else raise s 4 2

/-- `LD_IDENTITY_READ` (R109). -/
def execLdIdentityRead (dt port ldId serial capacity : Nat) (s : State) : Res := run dt s fun s =>
  if s.isDownstream port && s.edgeUp port && decide (ldId < 16) then
    s.withSome (assocGet s.edge.lds (16 * port + ldId)) fun d => identityRead s (16 * port + ldId) serial capacity d
  else s

/-- `BIND_COMPLETE` (R113): the vPPB reports link-up toward the host; an Unbinding one has let go. -/
def execBindComplete (dt host vppb : Nat) (s : State) : Res := run dt s fun s =>
  if host < 64 ∧ 1 ≤ vppb ∧ vppb < 64 then
    let st := s.regBits Obj.EDGE_VPPB (64 * host + vppb) 30 2
    if st = 1 then s.setRegBits Obj.EDGE_VPPB (64 * host + vppb) 30 2 2
    else if st = 3 then unbound s host vppb
    else s
  else s

/-- `ATTENTION_BUTTON` (R96, R100): the bound vPPBs of the port take attention-button hot-plug action. -/
def execAttentionButton (dt port : Nat) (s : State) : Res := run dt s fun s =>
  if s.isDownstream port then
    forEach (List.range 16) s fun t ld => match t.boundVppb port ld with
      | some v => t.emit (.toPort (v / 64) "attention button" [v % 64])
      | none => t
  else s

/-! ### IDE (R119, R120) -/

/-- FAILURES of `EDGE.IDE_STATUS` rises, up to 255. -/
def countIdeFailure (s : State) (p : Nat) : State := s.setRegBits Obj.EDGE_IDE_STATUS p 24 8 (min 255 (s.regBits Obj.EDGE_IDE_STATUS p 24 8 + 1))

/-- `IDE_INTEGRITY_FAIL` (R120): the stream is Insecure, the link goes down, the source is raised. -/
def execIdeIntegrityFail (dt port : Nat) (s : State) : Res := run dt s fun s =>
  if s.isEdge port && s.edgeUp port && s.regBits Obj.EDGE_IDE_STATUS port 0 2 == 2 then
    raise (edgeLinkDown ((countIdeFailure s port).setRegBits Obj.EDGE_IDE_STATUS port 0 2 3) port) 4 0
  else s

/-- A requester draws a key from its random-number generator: a free value (R119). -/
def drawKey (s : State) (p : Nat) : State :=
  if s.isHost p then s else { s with edge := { s.edge with ideKeys := assocPut s.edge.ideKeys p s.freeNow } }.useFree

/-- The link stream is Secure: what waited for it goes on (R120). -/
def linkSecure (s : State) (p : Nat) : State :=
  resumeTraffic (((drawKey s p).setRegBits Obj.EDGE_IDE_STATUS p 0 2 2).putRegBit Obj.EDGE_PORT_STATE p 10 true) p

/-- A selective stream ends at the presented function of a host port, up to 4 of them (R119). -/
def addStream (s : State) (p k : Nat) : State :=
  let mine := s.edge.streams.filter (fun x => x.1 == p)
  if s.isHost p && decide (mine.length < 4) && !mine.contains (p, k) then
    { s with edge := { s.edge with streams := s.edge.streams ++ [(p, k)] } }.setRegBits Obj.EDGE_IDE_STATUS p 8 3 (mine.length + 1)
  else s

/-- `IDE_KEY_EXCHANGE_DONE` (R119, R120): the link stream that exchanges keys, or waits for new ones after a failure, is
Secure; or a selective stream has its keys. -/
def execIdeKeyExchangeDone (dt : Nat) (x : KeyedStream) (s : State) : Res := run dt s fun s =>
  let st := s.regBits Obj.EDGE_IDE_STATUS x.port 0 2
  if s.isEdge x.port && s.edgeUp x.port then
    match x.stream with
    | none => if st = 1 ∨ st = 3 then linkSecure s x.port else s
    | some k => addStream s x.port k
  else s

/-- A write of `EDGE.IDE_CTRL` (R119): LINK_EN sets the stream of a link that is up up or ends it; REFRESH starts a key
refresh on a requester port. -/
def ideCtrlWrite (s : State) (p v : Nat) : State :=
  let s1 := plainWrite s Obj.EDGE_IDE_CTRL p v
  let st := s1.regBits Obj.EDGE_IDE_STATUS p 0 2
  let s2 := if !s1.edgeUp p then s1
    else if bitAt v 0 && st == 0 then startIde s1 p
    else if !bitAt v 0 && (st == 1 || st == 2) then (s1.setRegBits Obj.EDGE_IDE_STATUS p 0 2 0).putRegBit Obj.EDGE_PORT_STATE p 10 false
    else s1
  if bitAt v 3 && (s2.isDownstream p || s2.isFabric p) && s2.edgeUp p then askKeys (drawKey s2 p) p "IDE key refresh" else s2

/-- `IDE_REFRESH` (R119). -/
def execIdeRefresh (dt : Nat) (path : Path) (port value : Nat) (s : State) : Res := run dt s fun s =>
  serveWrite s path (writeRec Obj.EDGE_IDE_CTRL (some port) value) fun t => ideCtrlWrite t port value

/-- The DOE protocols the presented function serves (R100, R119): discovery, CMA/SPDM, and secured CMA/SPDM, which carries
the IDE key protocols (the numbers of the PCIe standard, log entry 6). -/
def doeProtocols : List Nat := [0, 1, 2]

/-- `DOE_REQUEST` (R100, R119): the presented function answers as responder; a request of another protocol ends in DOE's
error. -/
def execDoeRequest (dt port protocol : Nat) (request : List Byte) (s : State) : Res := run dt s fun s =>
  if s.isHost port && s.edgeUp port then
    if doeProtocols.contains protocol then
      (s.emit (.toPort port "DOE response" (protocol :: (Config.standardPayload (0x10000 + ofLe request) s.free).map (·.toNat)))).useFree
    else s.emit (.toPort port "DOE error" [protocol])
  else s

/-! ### PBR flits and HDM decoders (R115, R118, R236) -/

/-- The edge function that a PBR ID names. -/
def pbrFunction (s : State) (dpid : Nat) : Option Nat :=
  (List.range 64).find? (fun q => s.isEdge q && s.reg Obj.EDGE_PBR_ID q == dpid && dpid != 0xFFFF)

/-- `PBR_FLIT` (R101, R118): a flit for the memory device is delivered, its messages are commands of their own; one for an
edge function is converted there; another is dropped and counted, for PBR traffic does not transit between fabric ports
(log entry 23). -/
def execPbrFlit (dt port spid dpid : Nat) (s : State) : Res := run dt s fun s =>
  if s.isFabric port && s.carriesTraffic port then
    if s.reg Obj.EDGE_POOL_PBR_ID ≠ 0xFFFF ∧ s.reg Obj.EDGE_POOL_PBR_ID = dpid then s
    else match pbrFunction s dpid with
      | some q => s.emit (.toPort q "PBR flit" [spid, dpid])
      | none => raise (s.count1 Obj.EDGE_PBR_DROPPED port) 4 3
  else s

/-- A host's commit of a decoder (R115, R236): with the size presented it is committed; else it reports an error. -/
def commitDecoder (s : State) (p d base size : Nat) (lock : Bool) : State :=
  let a := s.portAgent p
  let ok := a.elim false (fun x => s.decValid x d && size == s.decCount x d * 2 ^ 28)
  let s1 := { s with edge := { s.edge with decoders := assocPut s.edge.decoders (8 * p + d) ⟨base, size, ok, !ok, ok && lock⟩ } }
  s1.withSome a fun x => (s1.putRegBit Obj.TRACT_DECODER_STATE (8 * x + d) 31 ok).putRegBit Obj.TRACT_DECODER_STATE (8 * x + d) 30 !ok

/-- A decoder has been committed with commit-lock: until the function is reset no host changes it (R115). -/
def decoderLocked (s : State) (p d : Nat) : Bool := (assocGet s.edge.decoders (8 * p + d)).elim false (fun x => x.locked)

/-- `HDM_DECODER_COMMIT` (R115, R236). -/
def execHdmDecoderCommit (dt port decoder base : Nat) (size : DecoderSize) (s : State) : Res := run dt s fun s =>
  if s.isHost port && s.edgeUp port && decide (decoder < 8) && !decoderLocked s port decoder then commitDecoder s port decoder base size.size size.lock else s

end Sys2Proof.Machine
end

