-- ==== Sys2Proof/Machine/PassRoute.lean ====
section
/-! DEFINITION. The messages of a Pass link (07_pass_links.md): from the receive pool into the Basin, HELLO, ROUTE, PROBE. -/
namespace Sys2Proof.Machine

/-! ### From the receive pool into the Basin (R135, R170 to R173, R190) -/

/-- The channel of a message kind on a port, none for a reserved kind (R171, R258, R337). -/
def kindChannel (saddle : Bool) (k : Nat) : Option Nat :=
  if (1 ≤ k ∧ k ≤ 9) ∨ (0x10 ≤ k ∧ k ≤ 0x12) then some 1
  else if 0x20 ≤ k ∧ k ≤ 0x23 then some 2
  else if saddle = true ∧ (k = 0x40 ∨ k = 0x41 ∨ k = 0x45) then some 1
  else if saddle = true ∧ 0x42 ≤ k ∧ k ≤ 0x44 then some 2
  else if 0x60 ≤ k ∧ k ≤ 0x63 then some 2
  else none

/-- The port itself takes the message: HELLO, ROUTE and the probes, and the twin kinds of a Saddle port, each by a
command of its own (R191, R337). -/
def ownKind (k : Nat) : Bool := 0x40 ≤ k

/-- A message of the coherence kinds as the Basin takes it: its tenancy, traffic class and class (R129, R150). -/
def passSort (m : List Byte) : MsgSort :=
  let f := leField m 1 1
  .pass (if bitAt f 4 then some (leField m 6 2 % 4096) else none) (bits f 1 3) (f % 2 == 1)

/-- The Basin class of a pool message. -/
def poolClass (m : PoolMsg) : BasinClass := msgClass (passSort m.bytes)

/-- A message enters the Basin from a Pass port toward one egress port. -/
def passIngress (s : State) (p : Nat) (m : List Byte) (egress : Nat) (ch : LinkChannel) : State :=
  packMessage s p ⟨passSort m, if passChannel m = 1 then .request else .response, [⟨egress, ch, 0⟩], m.length, m, min 32 m.length, false, false, 0, 0, none, false⟩

/-- A coherence message for this device goes to the Col engine that serves its slice; a request takes the epoch of the
receiving port agent's map (R312). -/
def passToCol (s : State) (p : Nat) (m : List Byte) : State :=
  let m1 := if leField m 0 1 ≤ 9 then splice m 28 (leBytes s.col.agentEpoch 2) else m
  passIngress s p m1 (colPort (s.agentEngine (sliceOf (leField m 16 8 % 2 ^ 45)))) .internal

/-- A message in transit as it goes to the partner of Pass port `e`: a VERSION 1 partner gets Pass-1 kinds only (R171). -/
def pass1Bytes (s : State) (e : Nat) (m : List Byte) : List Byte :=
  if leField m 0 1 = 8 ∨ leField m 0 1 = 0x12 then cohEncode (pass1 s e (cohDecode m)) else m

/-- A message for another switch is forwarded with one hop less, or dropped (R190). -/
def forwardPass (s : State) (p : Nat) (m : List Byte) : State :=
  if leField m 10 1 = 0 then s.count1 Obj.PASS_HOP_DROPS 0
  else match s.routePort (leField m 4 1 % 16) (sliceOf (leField m 16 8 % 2 ^ 45) % 2 == 1) with
    | none => s.count1 Obj.PASS_NO_ROUTE_DROPS 0
    | some e => passIngress s p (pass1Bytes s e (splice m 10 (leBytes (leField m 10 1 - 1) 1))) e (if passChannel m = 1 then .request else .response)

/-- A message that has left the receive pool is discarded, enters the Basin for this device, or is forwarded. -/
def placeMessage (s : State) (p : Nat) (m : PoolMsg) : State :=
  if kindChannel (s.isSaddle p) (leField m.bytes 0 1) ≠ some (passChannel m.bytes) ∨ m.channel ≠ passChannel m.bytes then s.count1 Obj.PASS_BAD_KIND 0
  else if s.isOwn (leField m.bytes 4 1 % 16) then passToCol s p m.bytes
  else forwardPass s p m.bytes

/-- The pool message may leave now: the port is open to all kinds, it is no message the port takes by itself, none of its
class arrived earlier, and the ingress FIFO of its class has room (R135, R173, R183). -/
def mayLeavePool (s : State) (p : Nat) (m : PoolMsg) : Bool :=
  let bad (x : PoolMsg) : Bool := kindChannel (s.isSaddle p) (leField x.bytes 0 1) != some (passChannel x.bytes)
  s.passUp p && !s.basin.stopped && (bad m || (!ownKind (leField m.bytes 0 1) && fifoRoom s p (poolClass m)
    && (s.passPort p).rxPool.find? (fun x => !bad x && !ownKind (leField x.bytes 0 1) && x.channel == m.channel && poolClass x == poolClass m) == some m))

/-- A message of the receive pool moves on (R135, R190). -/
def poolToBasin (s : State) (p : Nat) (m : PoolMsg) : State :=
  if mayLeavePool s p m then
    match takePool s p m.bytes with
    | some r => placeMessage r.1 p r.2
    | none => s
  else s

/-- `PASS_POOL_TO_BASIN` (R135, R179). -/
def execPassPoolToBasin (dt port index : Nat) (s : State) : Res := run dt s fun s =>
  s.withSome ((s.passPort port).rxPool[index]?) (poolToBasin s port)

/-- `PASS_MESSAGE` (R171, R173, R190). -/
def execPassMessage (dt port : Nat) (msg : List Byte) (s : State) : Res := run dt s fun s =>
  s.withSome ((s.passPort port).rxPool.find? (fun m => m.bytes == msg)) (poolToBasin s port)

/-! ### HELLO (R187, R334) -/

/-- A link message is taken from the receive pool of a port in Config or Up. -/
def takeLink (s : State) (p kind : Nat) (msg : List Byte) : Option State :=
  if (s.passState p = 3 ∨ s.passState p = 4) ∧ leField msg 0 1 = kind ∧ passChannel msg = 2 then (takePool s p msg).map (·.1) else none

/-- The first check of R334 that a HELLO fails on a Saddle port, 0 where it passes all. -/
def saddleCheck (s : State) (p : Nat) (h : List Byte) : Nat :=
  let other := s.passPort (if p = 56 then 60 else 56)
  let serial := leField h 32 16
  if !bitAt (leField h 19 1) 0 then 1
  else if bitAt (leField h 19 1) 1 == s.regBit Obj.ID_STRAPS 0 8 then 2
  else if leField h 18 1 ≠ p then 3
  else if s.reg Obj.TWIN_PARTNER_SERIAL ≠ 0 ∧ s.reg Obj.TWIN_PARTNER_SERIAL ≠ serial then 4
  else if other.hello = true ∧ other.downTo = none ∧ other.serial ≠ serial then 5
  else 0

/-- The link-layer state takes what a HELLO gives (R180, R187). -/
def learnHello (s : State) (p : Nat) (h : List Byte) : State :=
  let q := s.passPort p
  let s1 := s.setPass p { q with hello := true, serial := leField h 32 16, pool := leField h 20 2, resReq := leField h 22 2, resRsp := leField h 24 2, version := leField h 16 1 }
  ((s1.setRegBits Obj.PASS_LINK_STATE p 16 4 (leField h 17 1)).setRegBits Obj.PASS_LINK_STATE p 10 6 (leField h 18 1)).putRegBit Obj.PASS_LINK_STATE p 22 (leField h 16 1 == 1)

/-- HELLO and ROUTE have been received and their checks passed: the port is Up (R183). -/
def configDone (s : State) (p : Nat) : State :=
  let q := s.passPort p
  if s.passState p = 3 ∧ q.hello = true ∧ q.route = true ∧ q.downTo = none then
    let s1 := (setPassState (s.disarm ⟨.config, p, 0⟩) p 4).arm ⟨.probe, p, 0⟩ 1000000000
    saddleUp (recomputeRoutes s1 false s.routeView) p
  else s

/-- The serial a device holds for a switch differs from one received for it (R188). -/
def serialConflict (s : State) (w serial : Nat) : Bool := serial != 0 && s.serialOf w != 0 && s.serialOf w != serial

/-- A HELLO is checked: protocol version, switch number, serial, twin conditions (R187, R188, R334). -/
def helloEffect (s : State) (p : Nat) (h : List Byte) : State :=
  let s1 := learnHello s p h
  let w := leField h 17 1
  let fail := saddleCheck s p h
  if leField h 16 1 ≠ 1 ∧ leField h 16 1 ≠ 2 then holdPort s1 p 4
  else if (w = s.ownSwitch ∧ s.switchField ≠ 0xFF) ∨ serialConflict s (w % 16) (leField h 32 16) = true then holdPort (recordConflict s1 (w % 16) p) p 3
  else if s.isSaddle p then (if fail ≠ 0 then holdPort (s1.setReg Obj.TWIN_CHECK_FAIL 0 fail) p 5 else configDone s1 p)
  else if bitAt (leField h 19 1) 0 then holdPort s1 p 5
  else configDone s1 p

/-- `HELLO` (R180, R183, R187, R334). One that arrives outside Config changes nothing beyond leaving the pool. -/
def execHello (dt port : Nat) (msg : List Byte) (s : State) : Res := run dt s fun s =>
  s.withSome (takeLink s port 0x60 msg) fun t => if s.passState port = 3 ∧ msg.length = 48 then helloEffect t port msg else t

/-! ### ROUTE (R188, R189) -/

/-- The switches whose serial in a ROUTE conflicts with the one held. -/
def routeConflicts (s : State) (m : List Byte) : List Nat :=
  (List.range 16).filter (fun w => serialConflict s w (leField m (48 + 16 * w) 16))

/-- `PASS.DOMAIN_TABLE` takes the serials it did not know; the regime follows (R293). -/
def learnSerials (s : State) (m : List Byte) : State :=
  evalRegime (forEach (List.range 16) s fun t w =>
    if w = t.ownSwitch ∨ leField m (48 + 16 * w) 16 = 0 ∨ t.reg Obj.PASS_DOMAIN_TABLE w ≠ 0 then t
    else t.setReg Obj.PASS_DOMAIN_TABLE w (leField m (48 + 16 * w) 16))

/-- A ROUTE without conflict is learned: hop counts, serials, routes. -/
def learnRoute (s : State) (p : Nat) (m : List Byte) (dead : List Nat) : State :=
  let old := s.routeView
  let adv := (List.range 16).map (fun w => if dead.contains w then 0xFF else leField m (32 + w) 1)
  let s1 := learnSerials (s.setPass p { s.passPort p with route := true, advert := adv }) m
  let s2 := forEach dead (forEach (List.range 16) s1 (recomputeRoute false)) (fun t w => if t.isOwn w then t else putRoute t w none)
  configDone (if s2.routeView = old then s2 else sendRoutes s2) p

/-- A ROUTE is taken (R188): a conflict holds a port in Config, and makes the switch unreachable on an Up port. -/
def routeEffect (s : State) (p : Nat) (m : List Byte) : State :=
  let bad := routeConflicts s m
  let s1 := forEach bad s (fun t w => recordConflict t w p)
  if bad ≠ [] ∧ s.passState p = 3 then holdPort s1 p 3 else learnRoute (if bad.contains s.ownSwitch then s1 else endConflict s1 p) p m bad

/-- `ROUTE` (R183, R188, R189). -/
def execRoute (dt port : Nat) (msg : List Byte) (s : State) : Res := run dt s fun s =>
  s.withSome (takeLink s port 0x61 msg) fun t => routeEffect t port msg

/-- `ROUTE_SEND` (R188). -/
def execRouteSend (dt : Nat) (s : State) : Res := run dt s fun s =>
  if s.armed ⟨.route, 0, 0⟩ = true ∧ s.due ⟨.route, 0, 0⟩ = false then s else (sendRoutes s).arm ⟨.route, 0, 0⟩ 100000000

/-- `ROUTE_ENTRY_CLEAR` (R188). -/
def execRouteEntryClear (dt switch : Nat) (s : State) : Res := run dt s fun s =>
  s.onDue ⟨.unreachable, switch, 0⟩ fun t => if t.routeValid switch then t else sendRoutes (evalRegime (t.setReg Obj.PASS_DOMAIN_TABLE switch 0))

/-- `ROUTE_RECOMPUTE` (R189). -/
def execRouteRecompute (dt : Nat) (path : Path) (s : State) : Res := run dt s fun s =>
  serveWrite s path (writeRec Obj.PASS_ROUTE_RECOMPUTE none 1) (fun t => recomputeRoutes t true t.routeView)

/-! ### PROBE (R191) -/

/-- `PROBE_SEND` (R191): a PROBE that is due in Recovery goes out when the port is Up again. -/
def execProbeSend (dt port : Nat) (s : State) : Res := run dt s fun s =>
  if s.passState port = 3 ∨ s.passState port = 4 then
    s.onDue ⟨.probe, port, 0⟩ fun t =>
      let q := t.passPort port
      let t1 := sendOwn t port (probeBytes t port 0x62 q.nextTag 0)
      (t1.setPass port { t1.passPort port with nextTag := (q.nextTag + 1) % 2 ^ 32 }).arm ⟨.probe, port, 0⟩ 1000000000
  else s

/-- `PROBE` (R191): the reply carries the tag and the send time of the PROBE. -/
def execProbe (dt port : Nat) (msg : List Byte) (s : State) : Res := run dt s fun s =>
  s.withSome (takeLink s port 0x62 msg) fun t =>
    if msg.length ≠ 32 then protocolError t port else sendOwn t port (probeBytes t port 0x63 (leField msg 12 4) (leField msg 16 8))

/-- `PROBE_REPLY` (R191): the round trip, less one flit time, is stored; an unmatched reply is discarded. -/
def execProbeReply (dt port : Nat) (msg : List Byte) (s : State) : Res := run dt s fun s =>
  s.withSome (takeLink s port 0x63 msg) fun t =>
    if msg.length ≠ 32 then protocolError t port
    else
      let q := t.passPort port
      match q.probes.find? (fun x => x.tag == leField msg 12 4 && decide (t.now ≤ x.at_ + 1000000000)) with
      | none => t
      | some x => (t.setPass port { q with probes := q.probes.filter (fun y => y.tag != x.tag) }).setReg Obj.PASS_RTT port (t.timeBase - leField msg 16 8 - t.flitTime port)

end Sys2Proof.Machine
end

