-- ==== Sys2Proof/Machine/Sched.lean ====
section
/-! DEFINITION. The egress scheduler (06_egress_scheduling.md): eligibility, virtual-time tags, selection, shapers, rebinds. -/
namespace Sys2Proof.Machine

/-! ### What may be sent (R128, R153) -/

/-- An entry's next message, none while its cell is not stored. -/
def nextMessage (s : State) (x : Entry) : Option BMsg := (s.storedOf x.id).bind (fun c => c.msgs[x.sent]?)

/-- The partner of a Pass port takes the message (R173, R180, R183): in Up any kind, in Config HELLO, ROUTE, PROBE and
PROBE_REPLY, within the credits. -/
def passTakes (s : State) (e : Nat) (m : BMsg) : Bool :=
  let q := s.passPort e
  q.downTo.isNone && (s.passState e == 4 || (s.passState e == 3 && decide (0x60 ≤ leField m.body 0 1)))
    && q.mayStart (passChannel m.body) (slotsOf m.len)

/-- A Pass port starts messages now: it builds data flits, and its staging has room (R172, R178). -/
def passBuilds (s : State) (e : Nat) : Bool :=
  s.txMode e == 0 && decide (s.txOutstanding e < 512) && decide ((s.passPort e).staging.length < 7)

/-- Snoop slots of a port's agents that are in use or about to be (R282). -/
def State.snoopLoad (s : State) (p : Nat) : Nat :=
  (s.coh.snoops.filter (fun x => s.agentPort x.agent == p)).length
    + (s.coh.flight.filter (fun f => match f.hop with
        | .agent a => s.agentPort a == p
        | _ => false)).length

/-- The link of the egress port takes the message: a link that carries traffic, a free snoop slot for a snoop (R282); a
message for the port's own unit needs no link. -/
def linkTakes (s : State) (e : Nat) (x : Entry) (m : BMsg) : Bool :=
  if 64 ≤ e then true
  else if s.isPass e then m.arrival != .bytes || passTakes s e m
  else s.carriesTraffic e && (x.channel != .biSnp || decide (s.snoopLoad e < 128))

/-- The pointer-list heads of a queue toward a port, oldest first (R127). -/
def queueHeads (s : State) (e q : Nat) : List Entry :=
  let mine := s.basin.entries.filter (fun x => x.egress == e && x.queue == q)
  mine.filter (fun x => mine.find? (fun y => y.channel == x.channel) == some x)

/-- Message `m` may pass the older posted message `y` (R128): with relaxed ordering, or with ID-based ordering where they
come from different requesters. -/
def mayPass (m y : BMsg) : Bool := m.relaxed || (m.ido && m.requester != y.requester)

/-- PCIe ordering lets a non-posted request or a completion go before the older posted heads of the same queue (R128). -/
def ordered (s : State) (heads : List Entry) (x : Entry) : Bool :=
  !(x.channel == .nonPosted || x.channel == .completion)
    || (heads.takeWhile (fun y => y != x)).all (fun y => y.channel != .posted
      || ((nextMessage s x).elim false (fun m => (nextMessage s y).elim true (mayPass m))))

/-- The oldest head of a queue that may be sent: with link credit, and in order (R128). -/
def sendable (s : State) (blocked : List LinkChannel) (e q : Nat) : Option Entry :=
  let heads := queueHeads s e q
  heads.find? (fun x => !blocked.contains x.channel && ordered s heads x && (nextMessage s x).elim false (linkTakes s e x))

/-- The shaper bucket of a queue or port as it stands now. -/
def State.queueBucket (s : State) (q : Nat) : Shaper := shaperNow (s.reg Obj.SCHED_QUEUE_SHAPER q) (assocGet s.sched.queueShaper q) s.now
def State.portBucket (s : State) (e : Nat) : Shaper := shaperNow (s.reg Obj.SCHED_PORT_SHAPER e) (assocGet s.sched.portShaper e) s.now

/-- The queue shaper lets a message through (R153, R156). -/
def queueOpen (s : State) (q : Nat) : Bool := !s.regBit Obj.SCHED_QUEUE_SHAPER q 63 || decide (0 < (s.queueBucket q).level)

/-- The port shaper holds back TC0..TC6 (R153). -/
def portHeld (s : State) (e : Nat) : Bool := decide (e < 64) && s.regBit Obj.SCHED_PORT_SHAPER e 63 && decide ((s.portBucket e).level ≤ 0)

/-- A queue of TC0..TC6 is eligible at a port (R153). -/
def eligibleNow (s : State) (blocked : List LinkChannel) (e q : Nat) : Bool :=
  decide (q % 8 ≠ 7) && (sendable s blocked e q).isSome && queueOpen s q

/-! ### Tags (R154) -/

/-- The 40-bit tag space. -/
abbrev tagSpace : Nat := 2 ^ 40

/-- Tag `a` precedes or equals tag `b`. -/
def tagLe (a b : Nat) : Bool := decide ((b + tagSpace - a) % tagSpace < 2 ^ 39)

/-- The start tag of a newly eligible entity. -/
def laterTag (v f : Nat) : Nat := if (f + tagSpace - v) % tagSpace ≤ 2 ^ 26 then f else v

/-- A tag of a table, 0 where it was never set. -/
def tagAt (l : List (Nat × Nat)) (i : Nat) : Nat := (assocGet l i).getD 0


/-- A queue of port `e` becomes eligible: `on_eligible`. -/
def onEligible (e : Nat) (s : State) (q : Nat) : State :=
  let g := q / 8
  let sg := if s.groupEligible g then s.sched.sg else assocPut s.sched.sg g (laterTag (s.reg Obj.SCHED_VTIME e) (tagAt s.sched.fg g))
  let s1 := { s with sched := { s.sched with sg := sg, sq := assocPut s.sched.sq q (laterTag (tagAt s.sched.vg g) (tagAt s.sched.fq q)), eligible := s.sched.eligible ++ [q] } }
  s1.putRegBit Obj.SCHED_GROUP_STATE g 31 true


/-- Insert a number into a rising list that does not hold it yet. -/
def insertNat (n : Nat) : List Nat → List Nat
  | [] => [n]
  | m :: t => if n < m then n :: m :: t else if n = m then m :: t else m :: insertNat n t

/-- The queues of a port that hold entries, lowest first. -/
def portQueues (s : State) (e : Nat) : List Nat :=
  (s.basin.entries.filter (fun x => x.egress == e)).foldr (fun x l => insertNat x.queue l) []

/-- The eligible queues of a port are brought up to date: those that no longer qualify drop out, new ones take their tags. -/
def refreshEligible (s : State) (blocked : List LinkChannel) (e : Nat) : State :=
  let there := portQueues s e
  let gone := s.sched.eligible.filter (fun q => (s.groupPort (q / 8) == e || there.contains q || s.reg Obj.SCHED_PORT_DEFAULT e == q / 8) && !eligibleNow s blocked e q)
  let s1 := forEach gone s dropEligible
  forEach (there.filter (fun q => eligibleNow s1 blocked e q && !s1.sched.eligible.contains q)) s1 (onEligible e)

/-- `QUEUE_ELIGIBLE` (R153, R154). -/
def execQueueEligible (dt queue : Nat) (s : State) : Res := run dt s fun s =>
  s.withSome ((s.basin.entries.find? (fun x => x.queue == queue)).map (fun x => x.egress)) fun e =>
    if eligibleNow s [] e queue && !s.sched.eligible.contains queue then onEligible e s queue else s

/-! ### Selection (R152, R154, R156) -/

/-- Of two queues or groups the one with the earlier tag; the first on a tie. -/
def earlier (tag : Nat → Nat) (best : Option Nat) (x : Nat) : Option Nat :=
  match best with
  | none => some x
  | some b => if tagLe (tag b) (tag x) then some b else some x

/-- The group served next by weighted fair queueing, and its queue (R154). -/
def fairQueue (s : State) (e : Nat) : Option Nat :=
  let queues := (portQueues s e).filter (fun q => s.sched.eligible.contains q)
  let groups := (queues.map (· / 8)).eraseDups
  (groups.foldl (earlier (tagAt s.sched.sg)) none).bind fun g =>
    (queues.filter (fun q => q / 8 == g)).foldl (earlier (tagAt s.sched.sq)) none

/-- The TC7 queue served next: round robin after the group served last (R152). -/
def tc7Queue (s : State) (blocked : List LinkChannel) (e : Nat) : Option Nat :=
  let ready := (portQueues s e).filter (fun q => q % 8 == 7 && (sendable s blocked e q).isSome)
  match assocGet s.sched.lastTc7 e with
  | some g => match ready.find? (fun q => decide (g < q / 8)) with
    | some q => some q
    | none => ready.head?
  | none => ready.head?

/-- The shapers that apply are charged (R156). -/
def chargeShapers (s : State) (e q len : Nat) : State :=
  let wq := s.reg Obj.SCHED_QUEUE_SHAPER q
  let we := s.reg Obj.SCHED_PORT_SHAPER e
  let s1 := if bitAt wq 63 then { s with sched := { s.sched with queueShaper := assocPut s.sched.queueShaper q (chargeBucket wq (s.queueBucket q) len) } } else s
  if e < 64 ∧ bitAt we 63 = true then { s1 with sched := { s1.sched with portShaper := assocPut s1.sched.portShaper e (chargeBucket we (s.portBucket e) len) } } else s1

/-- The virtual times and tags move on (R154). -/
def advanceTags (s : State) (e q len : Nat) : State :=
  let g := q / 8
  let step (w : Nat) : Nat := (len * 65536 + w - 1) / max 1 w
  let sg := tagAt s.sched.sg g
  let sq := tagAt s.sched.sq q
  let fg := (sg + step (s.reg Obj.SCHED_GROUP_WEIGHT g)) % tagSpace
  let fq := (sq + step (s.reg Obj.SCHED_CLASS_WEIGHT q)) % tagSpace
  { s.setReg Obj.SCHED_VTIME e sg with sched := { s.sched with vg := assocPut s.sched.vg g sq, fg := assocPut s.sched.fg g fg, fq := assocPut s.sched.fq q fq
                                                               sg := assocPut s.sched.sg g fg, sq := assocPut s.sched.sq q fq } }

/-- A message is sent from its entry: its read begins, and the entry leaves the list with its last message (R138). -/
def sendEntry (s : State) (e : Nat) (x : Entry) (c : Stored) (m : BMsg) : State :=
  let last := x.sent + 1 == c.msgs.length
  let entries := if last then s.basin.entries.filter (fun y => y != x) else replaceFirst (fun y => y == x) (fun (y : Entry) => { y with sent := y.sent + 1 }) s.basin.entries
  let r : Reading := ⟨e, x.id, m, if c.mcast then x.rewrite else m.rewrite, c.n, last, false, false⟩
  let s1 : State := { s with basin := { s.basin with entries := entries, reading := s.basin.reading ++ [r] } }
  let s2 := if s.isPass e && m.arrival == .bytes then s1.setPass e ((s1.passPort e).charge (passChannel m.body) (slotsOf m.len)) else s1
  (s2.count1 Obj.SCHED_TX_MSGS x.queue).count Obj.SCHED_TX_BYTES x.queue m.len

/-- The chosen queue sends its head (R128); queues that its leaving makes ineligible are so from now on (R153). -/
def sendFrom (s : State) (blocked : List LinkChannel) (e q : Nat) (fair : Bool) : State :=
  s.withSome (sendable s blocked e q) fun x =>
    s.withSome (s.storedOf x.id) fun c =>
      s.withSome (c.msgs[x.sent]?) fun m =>
        refreshEligible (if fair then sendEntry (chargeShapers (advanceTags s e q m.len) e q m.len) e x c m
          else sendEntry { s with sched := { s.sched with lastTc7 := assocPut s.sched.lastTc7 e (q / 8) } } e x c m) blocked e

/-- The port selects a message now (R152): none of its reads goes on, and a Pass port starts messages. -/
def selects (s : State) (e : Nat) : Bool :=
  !s.basin.stopped && s.portCode e && !s.basin.reading.any (fun r => r.egress == e) && (!s.isPass e || passBuilds s e)

/-- `EGRESS_SELECT` (R128, R152 to R156, R161). `blocked` are the link channels without credit. The core cycles for which
the port shaper holds a message back are counted. -/
def execEgressSelect (dt egress : Nat) (blocked : List LinkChannel) (s : State) : Res := run dt s fun s =>
  if !selects s egress then s
  else
    let s1 := refreshEligible s blocked egress
    match tc7Queue s1 blocked egress with
    | some q => sendFrom s1 blocked egress q false
    | none => match fairQueue s1 egress with
      | none => settleShaped s1 egress false
      | some q => if portHeld s1 egress then settleShaped s1 egress true else sendFrom (settleShaped s1 egress false) blocked egress q true

/-! ### Shaper writes and rebinds -/

/-- A shaper word takes effect (R158). -/
def shaperEffect (ofPort : Bool) (e v : Nat) (s : State) : State :=
  let a := if ofPort then Obj.SCHED_PORT_SHAPER else Obj.SCHED_QUEUE_SHAPER
  let s1 := plainWrite s a e v
  let b := filledBucket (s1.reg a e) s1.now
  if ofPort then { s1 with sched := { s1.sched with portShaper := assocPut s1.sched.portShaper e b } }
  else { s1 with sched := { s1.sched with queueShaper := assocPut s1.sched.queueShaper e b } }

/-- `SHAPER_WRITE` (R157, R158). -/
def execShaperWrite (dt : Nat) (path : Path) (ofPort : Bool) (elem value : Nat) (s : State) : Res := run dt s fun s =>
  serveWrite s path (writeRec (if ofPort then Obj.SCHED_PORT_SHAPER else Obj.SCHED_QUEUE_SHAPER) (some elem) value) (shaperEffect ofPort elem value)

/-- `GROUP_REBIND_DONE` (R151). -/
def execGroupRebindDone (dt group : Nat) (s : State) : Res := run dt s fun s =>
  if s.groupBusy group then s else rebindNow s group

end Sys2Proof.Machine
end

