-- ==== Sys2Proof/Machine/Slot.lean ====
section
/-! DEFINITION. The commands of the slot controllers (18_slot_power.md). -/
namespace Sys2Proof.Machine

/-- A reinsertion during the cooldown is noted and counted once (R457). -/
def noteReinsertion (s : State) (slot : Nat) : State :=
  if s.armed ⟨.cooldown, slot, 0⟩ && !s.regBit Obj.SLOT_STATUS slot 24 && !s.slot.asserted.contains slot then
    (s.putRegBit Obj.SLOT_STATUS slot 24 true).count1 Obj.SLOT_REINSERTIONS slot
  else s

/-- The slots whose PRSNT_SHORT_L is sampled asserted. -/
def setAsserted (s : State) (l : List Nat) : State := { s with slot := { s.slot with asserted := l } }

/-- The debounce of a slot starts, or starts again; an Empty slot is Seating (R448, R457). -/
def startDebounce (s : State) (slot : Nat) : State :=
  let s1 := s.arm ⟨.debounce, slot, 0⟩ (s.reg Obj.SLOT_DEBOUNCE * 1000000)
  if s.slotState slot = 1 then setSlotState s1 slot 2 else s1

/-- PRSNT_SHORT_L of a slot is sampled asserted (R448). -/
def presenceAsserted (s : State) (slot : Nat) : State :=
  startDebounce (setAsserted (noteReinsertion s slot) (slot :: s.slot.asserted.filter (· != slot))) slot

/-- `PRESENCE_ASSERT` (R448, R457). A card that is Seated changes nothing. -/
def execPresenceAssert (dt slot : Nat) (s : State) : Res := runPowered dt s fun s =>
  if s.slotSeated slot then s else presenceAsserted s slot

/-- `SEATED` (R448): the debounce is over; PRESENT is set, and a ramp begins where nothing holds it back. -/
def execSeated (dt slot : Nat) (s : State) : Res := runPowered dt s fun s =>
  s.onDue ⟨.debounce, slot, 0⟩ fun t => tryRamp (t.putRegBit Obj.SLOT_STATUS slot 25 true) slot

/-- `PRESENCE_BREAK` (R448, R457): the card is not Seated any more, the debounce stops, a Seating slot is Empty. -/
def execPresenceBreak (dt slot : Nat) (s : State) : Res := runPowered dt s fun s =>
  let s1 := (s.disarm ⟨.debounce, slot, 0⟩).putRegBit Obj.SLOT_STATUS slot 25 false
  if s1.slotState slot = 2 then setSlotState s1 slot 1 else s1

/-- A card has left a slot in state `st`: the bits go, the cooldown starts or starts again (R448, R455, R457). -/
def cardGone (s : State) (slot st : Nat) : State :=
  let s2 := ((s.disarm ⟨.debounce, slot, 0⟩).putRegBit Obj.SLOT_STATUS slot 25 false).putRegBit Obj.SLOT_STATUS slot 24 false
  let s3 := s2.arm ⟨.cooldown, slot, 0⟩ (s2.reg Obj.SLOT_COOLDOWN * 1000000)
  if st = 4 ∨ st = 5 then setSlotState (turnOff s3 slot) slot 3
  else if st = 6 then setSlotState s3 slot 3
  else if st = 2 then setSlotState s3 slot 1
  else s3

/-- `REMOVED` (R448, R455, R457): the slot turns off, and the cooldown starts or starts again. -/
def execRemoved (dt slot : Nat) (s : State) : Res := runPowered dt s fun s =>
  if s.slot.asserted.contains slot then cardGone (setAsserted s (s.slot.asserted.filter (· != slot))) slot (s.slotState slot) else s

/-- `COOLDOWN_END` (R448, R457): a Seated card ramps; else the slot is Empty, or Seating while a debounce runs. -/
def execCooldownEnd (dt slot : Nat) (s : State) : Res := runPowered dt s fun s =>
  s.onDue ⟨.cooldown, slot, 0⟩ fun t =>
    if t.slotSeated slot then tryRamp t slot
    else if t.slotState slot = 3 then setSlotState t slot (if t.armed ⟨.debounce, slot, 0⟩ then 2 else 1)
    else t

/-- The sampled SLOT_VIN: VIN_LOW of every slot follows its thresholds (R444, R449). -/
def sampleVin (s : State) (vin : Nat) : State :=
  let s1 := s.setReg Obj.SLOT_VIN 0 vin
  if vin < 10000 then forEach (List.range 32) s1 (fun t n => t.putRegBit Obj.SLOT_STATUS n 19 true)
  else if 10400 < vin then forEach (List.range 32) s1 (fun t n => t.putRegBit Obj.SLOT_STATUS n 19 false)
  else s1

/-- `RAMP_START` (R449): SLOT_VIN is above its rising threshold, and a slot that waited ramps. -/
def execRampStart (dt slot vin : Nat) (s : State) : Res := runPowered dt s fun s => tryRamp (sampleVin s vin) slot

/-- `SLOT_VIN_LOW` (R449): ramps wait, slots that are On stay On. -/
def execSlotVinLow (dt vin : Nat) (s : State) : Res := runPowered dt s fun s => if vin < 10000 then sampleVin s vin else s

/-- The earliest end of a ramp: GATE rises from 0 V to SLOT_VIN + 8 V at the ramp's rate (R450). -/
def gateOnAt (s : State) (slot : Nat) : Option Nat :=
  (assocGet s.slot.ramp slot).map fun r => r.1 + (s.reg Obj.SLOT_VIN + 8000) * 10000 / r.2

/-- `GATE_ON_COMPLETE` (R448, R450, R454): the slot is On; PWRGD comes with it when no fault timer runs. -/
def execGateOnComplete (dt slot : Nat) (s : State) : Res := runPowered dt s fun s =>
  s.withSome (gateOnAt s slot) fun t =>
    if s.slotState slot = 4 ∧ t ≤ s.now then
      let s1 := setSlotState s slot 5
      if s1.slotTimer slot then s1 else assertPwrgd s1 slot
    else s

/-- `FAULT_TIMER_START` (R452): in Ramp or On, at a sense voltage at or above the limit. -/
def execFaultTimerStart (dt slot sense : Nat) (s : State) : Res := runPowered dt s fun s =>
  if (s.slotState slot = 4 ∨ s.slotState slot = 5) ∧ s.slotTimer slot = false ∧ s.slotLimit slot ≤ sense then
    ((s.setReg Obj.SLOT_SENSE slot sense).putRegBit Obj.SLOT_STATUS slot 26 true).arm ⟨.slotFault, slot, 0⟩ (s.reg Obj.SLOT_FAULT_TIME slot * 1000000)
  else s

/-- `FAULT_TIMER_END` (R452, R454): the current is back below the limit, and PWRGD that waited is given. -/
def execFaultTimerEnd (dt slot sense : Nat) (s : State) : Res := runPowered dt s fun s =>
  if s.slotTimer slot = true ∧ sense < s.slotLimit slot then
    let s1 := ((s.setReg Obj.SLOT_SENSE slot sense).putRegBit Obj.SLOT_STATUS slot 26 false).disarm ⟨.slotFault, slot, 0⟩
    if s1.slotState slot = 5 ∧ s1.slotPwrgd slot = false then assertPwrgd s1 slot else s1
  else s

/-- `SLOW_TRIP` (R452): the fault timer has reached `SLOT.FAULT_TIME`. -/
def execSlowTrip (dt slot : Nat) (s : State) : Res := runPowered dt s fun s =>
  s.onDue ⟨.slotFault, slot, 0⟩ fun t => slotTrip t slot 2

/-- `FAST_TRIP` (R452): twice the limit, in any state in which GATE is driven. -/
def execFastTrip (dt slot sense : Nat) (s : State) : Res := runPowered dt s fun s =>
  if s.gateDriven slot = true ∧ 2 * s.slotLimit slot ≤ sense then slotTrip (s.setReg Obj.SLOT_SENSE slot sense) slot 1 else s

/-- A write of `SLOT.CTRL` (R446). -/
def slotCtrlEffect (slot value : Nat) (s : State) : State :=
  slotFollow (plainWrite s Obj.SLOT_CTRL slot value) slot (s.slotEnable slot)

/-- `SLOT_CTRL_WRITE` (R446, R448). -/
def execSlotCtrlWrite (dt : Nat) (path : Path) (slot value : Nat) (s : State) : Res := run dt s fun s =>
  serveWrite s path (writeRec Obj.SLOT_CTRL (some slot) value) (slotCtrlEffect slot value)

/-- `COMMANDED_GATE_OFF` (R455): 100 µs after PWRGD was deasserted. -/
def execCommandedGateOff (dt slot : Nat) (s : State) : Res := runPowered dt s fun s =>
  s.onDue ⟨.gateOff, slot, 0⟩ fun t => gateOff t slot

/-- `DAMAGE_DETECT` (R456): VOUT_MON has stayed above 1.0 V for 10 ms with GATE not driven. -/
def execDamageDetect (dt slot vout : Nat) (s : State) : Res := runPowered dt s fun s =>
  if s.gateDriven slot = false ∧ 1000 < vout then
    let s1 := (s.setReg Obj.SLOT_VOUT slot vout).putRegBit Obj.SLOT_STATUS slot 22 true
    if s1.phase = .running then raise s1 15 slot else s1
  else s

/-- `DAMAGED_CLEAR` (R456): a write of 1 to DAMAGED at a sampled VOUT_MON, rejected with STATE at 1.0 V or above. -/
def execDamagedClear (dt : Nat) (path : Path) (slot vout : Nat) (s : State) : Res := run dt s fun s =>
  let s1 := s.setReg Obj.SLOT_VOUT slot vout
  serveWrite s1 path (writeRec Obj.SLOT_STATUS (some slot) (2 ^ 22)) (fun t => plainWrite t Obj.SLOT_STATUS slot (2 ^ 22))

/-- The lowest slot whose GATE is driven. -/
def State.lowestDriven (s : State) : Option Nat := (List.range 32).find? (fun n => s.gateDriven n)

/-- `RESET_SLOT_TURNOFF` (R458, R463): in a chip reset, the next driven slot turns off, one every `SLOT.RESET_GAP`. -/
def execResetSlotTurnoff (dt : Nat) (s : State) : Res := runAon dt s fun s =>
  if s.phase = .chipReset then
    s.onDue ⟨.slotOff, 0, 0⟩ fun t =>
      match t.lowestDriven with
      | some n => (setSlotState (turnOff t n) n 0).arm ⟨.slotOff, 0, 0⟩ (t.reg Obj.SLOT_RESET_GAP * 1000000)
      | none => t
  else s

/-- `VDD_AUX_LOW` (R459, R491): every GATE goes low and the device loses power. -/
def execVddAuxLow (dt : Nat) (s : State) : Res := runAon dt s fun s =>
  { s with phase := .unpowered, timers := [], slot := { s.slot with driven := [], ramp := [] }, edge := { s.edge with perstReleased := [] } }

/-- `POWER_CONTROLLER_CONTROL` (R446): the host's Power Controller Control bit on the vPPB bound to a slot's port. -/
def execPowerControllerControl (dt host vppb : Nat) (on : Bool) (s : State) : Res := run dt s fun s =>
  let w := s.reg Obj.EDGE_VPPB (64 * host + vppb)
  if vppbHolds w then s.withSome (s.portSlot (bits w 4 6)) (fun n => setHostOn s n on) else s

end Sys2Proof.Machine
end

