-- ==== Sys2Proof/Machine/Management.lean ====
section
/-! DEFINITION. The management paths (02_object_dictionary.md): the Ethernet lane, MCTP over I3C, the mailbox opcode
0xC400, taking a message, and the records that are their own commands: Read staged, Describe, Discard, and the recovery
write that waited for a commit. -/
namespace Sys2Proof.Machine

/-! ### The Ethernet lane -/

/-- The management lane is served: it is not off, and firmware runs (R50). -/
def State.ethServed (s : State) : Bool := s.firmware && s.reg Obj.MGP_ETH_MODE != 0

/-- A byte of the link-local address's last part: 0 and 255 are replaced by 1 (R51). -/
def linkLocalLast (b : Nat) : Nat := if b = 0 ∨ b = 255 then 1 else b

/-- The device's IPv4 address (R51): the static one, or 169.254.a.b from the last two MAC bytes. -/
def State.ipv4 (s : State) : Nat :=
  if s.reg Obj.MGP_IP_MODE = 1 then
    0xA9FE0000 + (1 + s.regBits Obj.MGP_MAC 0 32 8 % 254) * 256 + linkLocalLast (s.regBits Obj.MGP_MAC 0 40 8)
  else s.reg Obj.MGP_IPV4_ADDR

/-- The KDP policer draws a token, or finds none (R52). -/
def policeKdp (s : State) : State × Bool :=
  let b := s.mgmt.kdpBucket.fill (s.reg Obj.MGP_KDP_POLICE_RATE) (s.reg Obj.MGP_KDP_POLICE_BURST) s.now
  if b.has then ({ s with mgmt := { s.mgmt with kdpBucket := b.draw } }, true)
  else ({ s with mgmt := { s.mgmt with kdpBucket := b } }, false)

/-- The policer of ARP and ICMP frames: 1,000 per second, burst 16 (R52). -/
def policeFrame (s : State) : State × Bool :=
  let b := s.mgmt.ethBucket.fill 1000 16 s.now
  if b.has then ({ s with mgmt := { s.mgmt with ethBucket := b.draw } }, true)
  else ({ s with mgmt := { s.mgmt with ethBucket := b } }, false)

/-- A frame passes the ARP and ICMP policer and is answered by `f`, or is counted as dropped (R52). -/
def policedFrame (s : State) (f : State → State) : State :=
  let r := policeFrame s
  if r.2 then f r.1 else r.1.count1 Obj.MGP_ETH_DROPPED 0

/-- The kept request of a source whose arrival was longest ago (R53). -/
def earliestKept : List Kept → Option Kept
  | [] => none
  | k :: t => match earliestKept t with
    | none => some k
    | some m => some (if m.at_ < k.at_ then m else k)

/-- The kept entries with room for a request from a source: its own entry goes, or with 8 sources the earliest (R53). -/
def makeRoom (kept : List Kept) (ip port : Nat) : List Kept :=
  let others := kept.filter (fun k => !(k.ip == ip && k.port == port))
  if others.length < 8 then others else
    match earliestKept others with
    | none => others
    | some m => others.filter (fun k => k != m)

/-- A KDP request is accepted and waits for the dictionary service (R47, R53); one that names another switch will be
dropped and leaves no entry. -/
def acceptKdp (s : State) (ip port : Nat) (bs : List Byte) : State :=
  let kept := if misdirected s bs then s.mgmt.kept else makeRoom s.mgmt.kept ip port ++ [⟨ip, port, leField bs 2 2, s.now, none⟩]
  { s with mgmt := { s.mgmt with kept := kept, qEth := s.mgmt.qEth ++ [⟨.kdp ip port, bs⟩] } }

/-- The kept request that a datagram repeats: same source and tag, within 2 s of its arrival (R53). -/
def keptRequest (s : State) (ip port tag : Nat) : Option Kept :=
  s.mgmt.kept.find? (fun k => k.ip == ip && k.port == port && k.tag == tag && decide (s.now ≤ k.at_ + 2000000000))

/-- A datagram that has drawn its token: malformed, a retransmission, or a new request (R502, R53). -/
def kdpChecked (s : State) (ip port : Nat) (bs : List Byte) : State :=
  if headerMalformed bs then s.count1 Obj.MGP_MALFORMED 0
  else match keptRequest s ip port (leField bs 2 2) with
    | some k =>
      let s1 := s.count1 Obj.MGP_KDP_REPLAYED 0
      s1.withSome k.resp (fun r => s1.emit (.udp ip port r))
    | none => acceptKdp s ip port bs

/-- A datagram after the policer: checked, or counted as dropped (R52). -/
def kdpPoliced (r : State × Bool) (ip port : Nat) (bs : List Byte) : State :=
  if r.2 then kdpChecked r.1 ip port bs else r.1.count1 Obj.MGP_KDP_POLICED 0

/-- A good datagram to UDP port 47300 (R52). -/
def kdpEffect (ip port : Nat) (bs : List Byte) (s : State) : State :=
  if s.ethServed then kdpPoliced (policeKdp (s.count1 Obj.MGP_KDP_RX 0)) ip port bs else s

/-- `KDP_DATAGRAM` (R52, R53, R502). -/
def execKdpDatagram (dt srcIp srcPort : Nat) (payload : List Byte) (s : State) : Res := run dt s (kdpEffect srcIp srcPort payload)

/-- `ARP_FRAME` (R50, R51, R52): a request or probe for the device's address is answered. -/
def execArpFrame (dt senderIp targetIp : Nat) (s : State) : Res := run dt s fun s =>
  if !s.ethServed then s else
    policedFrame s fun t => if targetIp = t.ipv4 then t.emit (.arpReply senderIp targetIp) else t

/-- `ICMP_ECHO` (R50, R52). -/
def execIcmpEcho (dt srcIp dstIp : Nat) (payload : List Byte) (s : State) : Res := run dt s fun s =>
  if !s.ethServed then s else
    policedFrame s fun t => if dstIp = t.ipv4 then t.emit (.echoReply srcIp payload) else t

/-- `ETH_FRAME_DROP` (R50). -/
def execEthFrameDrop (dt : Nat) (s : State) : Res := run dt s fun s =>
  if !s.ethServed then s else s.count1 Obj.MGP_ETH_DROPPED 0

/-- `LINK_LOCAL_ANNOUNCE` (R51): at most once per second, while the mode is link-local. -/
def execLinkLocalAnnounce (dt : Nat) (s : State) : Res := run dt s fun s =>
  if s.ethServed && s.reg Obj.MGP_IP_MODE == 1 && (!s.armed ⟨.linkLocal, 0, 0⟩ || s.due ⟨.linkLocal, 0, 0⟩) then
    (s.emit (.arpAnnounce s.ipv4)).arm ⟨.linkLocal, 0, 0⟩ 1000000000
  else s

/-! ### MCTP over I3C -/

/-- `MCTP_MESSAGE` (R57, R502): the enterprise number, 0x01 and the common message; any other body is dropped and counted. -/
def execMctpMessage (dt : Nat) (body : List Byte) (s : State) : Res := run dt s fun s =>
  if !s.firmware then s
  else if body.length < 5 ∨ body.take 4 ≠ beBytes (s.reg Obj.ID_VENDOR_PEN) 4 ∨ leField body 4 1 ≠ 1 ∨ headerMalformed (body.drop 5) = true then
    s.count1 Obj.MGP_MALFORMED 0
  else { s with mgmt := { s.mgmt with qI3c := s.mgmt.qI3c ++ [⟨.i3c, body.drop 5⟩] } }

/-- `I3C_ADDRESS_ASSIGN` (R56): ENTDAA or SETDASA gives the target its dynamic address. -/
def execI3cAddressAssign (dt addr : Nat) (s : State) : Res := run dt s fun s =>
  { s with mgmt := { s.mgmt with i3cAddr := some addr } }

/-- The I3C address the target answers at: the dynamic one once assigned (R56). -/
def State.i3cAddress (s : State) : Nat := s.mgmt.i3cAddr.getD (s.reg Obj.MGP_I3C_STATIC_ADDR)

/-- `SET_ENDPOINT_ID` (R56): accepted, or refused as invalid data for an EID no endpoint may hold (log entry 6). -/
def execSetEndpointId (dt eid : Nat) (s : State) : Res := run dt s fun s =>
  if !s.firmware then s
  else if eid = 0 ∨ 255 ≤ eid then s.emit (.mctpControl 1 [2])
  else ({ s with mgmt := { s.mgmt with eid := eid } }).emit (.mctpControl 1 [0, 0, eid, 0])

/-- `GET_ENDPOINT_ID` (R56). -/
def execGetEndpointId (dt : Nat) (s : State) : Res := run dt s fun s =>
  if !s.firmware then s else s.emit (.mctpControl 2 [0, s.mgmt.eid, 0, 0])

/-- `GET_MCTP_VERSION_SUPPORT` (R56): for the base protocol, the control messages and the vendor type of R57; the version
numbers are DSP0236's (log entry 6). -/
def execGetMctpVersionSupport (dt msgType : Nat) (s : State) : Res := run dt s fun s =>
  if !s.firmware then s
  else if msgType = 0xFF ∨ msgType = 0 ∨ msgType = 0x7F then
    (s.emit (.mctpControl 4 (0 :: (Config.standardPayload 4 s.free).map (·.toNat)))).useFree
  else s.emit (.mctpControl 4 [0x80])

/-- `GET_MESSAGE_TYPE_SUPPORT` (R56, R57): one type beside control, 0x7F. -/
def execGetMessageTypeSupport (dt : Nat) (s : State) : Res := run dt s fun s =>
  if !s.firmware then s else s.emit (.mctpControl 5 [0, 1, 0x7F])

/-- `GET_VENDOR_DEFINED_MESSAGE_SUPPORT` (R56, R57): selector 0 names the enterprise number; there is no further set. -/
def execGetVendorDefinedMessageSupport (dt selector : Nat) (s : State) : Res := run dt s fun s =>
  if !s.firmware then s
  else if selector = 0 then (s.emit (.mctpControl 6 [0, 0xFF, 1, s.reg Obj.ID_VENDOR_PEN, s.freeNow])).useFree
  else s.emit (.mctpControl 6 [2])

/-! ### The mailboxes and the queues -/

/-- Port `p` is a fabric-manager port (R39, R60). -/
def State.isFmPort (s : State) (p : Nat) : Bool := s.regBit Obj.MGP_FM_PORTS 0 p

/-- `DICTIONARY_ACCESS` (R58, R502): opcode 0xC400 on the switch mailbox of a fabric-manager port or the memory-device
mailbox of another host port. -/
def execDictionaryAccess (dt port : Nat) (payload : List Byte) (s : State) : Res := run dt s fun s =>
  if !s.firmware || !s.isHost port then s
  else if headerMalformed payload then (s.count1 Obj.MGP_MALFORMED 0).emit (.mailbox port rcInvalidInput [])
  else if s.isFmPort port then { s with mgmt := { s.mgmt with qFm := s.mgmt.qFm ++ [⟨.fm port false, payload⟩] } }
  else { s with mgmt := { s.mgmt with qTenant := s.mgmt.qTenant ++ [⟨.tenant port, payload⟩] } }

/-- Path queue `n`, in the order of R47. -/
def State.pathQueue (s : State) (n : Nat) : List QMsg :=
  match n with
  | 0 => s.mgmt.qEth
  | 1 => s.mgmt.qI3c
  | 2 => s.mgmt.qFm
  | _ => s.mgmt.qTenant

/-- Take the message at the head of path queue `n`. -/
def dropHead (s : State) (n : Nat) : State :=
  match n with
  | 0 => { s with mgmt := { s.mgmt with qEth := s.mgmt.qEth.tail, lastQueue := 0 } }
  | 1 => { s with mgmt := { s.mgmt with qI3c := s.mgmt.qI3c.tail, lastQueue := 1 } }
  | 2 => { s with mgmt := { s.mgmt with qFm := s.mgmt.qFm.tail, lastQueue := 2 } }
  | _ => { s with mgmt := { s.mgmt with qTenant := s.mgmt.qTenant.tail, lastQueue := 3 } }

/-- The next path queue with a message, in turn after the last one served (R47). -/
def nextQueue (s : State) : Option Nat :=
  ((List.range 4).map (fun i => (s.mgmt.lastQueue + 1 + i) % 4)).find? (fun n => !(s.pathQueue n).isEmpty)

/-- A request that names another switch is dropped and counted; a mailbox command completes with Invalid Input (R48). -/
def dropMisdirected (s : State) (path : Path) : State :=
  let s1 := s.count1 Obj.MGP_MISDIRECTED 0
  match path with
  | .fm p false => s1.emit (.mailbox p rcInvalidInput [])
  | .tenant p => s1.emit (.mailbox p rcInvalidInput [])
  | _ => s1

/-- A taken message is checked for misdirection, then for the size of its response, then served (R46, R48, R502). -/
def serveMessage (s : State) (m : QMsg) : State :=
  if misdirected s m.bytes then dropMisdirected s m.path
  else
    let count := leField m.bytes 4 2
    let r := parseRecords count ((m.bytes.drop 16).take (leField m.bytes 6 2))
    if pathLimit m.path < reckonResponse r.1 count then
      continueSvc s ⟨m.path, leField m.bytes 2 2, [], [], [], 0x0C, none, []⟩
    else continueSvc s ⟨m.path, leField m.bytes 2 2, r.1, [], r.2, if r.2.isEmpty then 0 else 0x0B, none, []⟩

/-- `TAKE_MESSAGE` (R47, R48, R502): one message at a time, from the path queues in turn. -/
def execTakeMessage (dt : Nat) (s : State) : Res := run dt s fun s =>
  if !s.serving || s.mgmt.svc.isSome then s
  else s.withSome (nextQueue s) fun n =>
    match s.pathQueue n with
    | [] => s
    | m :: _ => serveMessage (dropHead s n) m

/-! ### Read staged, Describe, Discard -/

/-- The staged value of an object, none where nothing is staged for it. -/
def stagedValue (s : State) (a : Nat) (e : Option Nat) : Option Nat :=
  (s.mgmt.staged.find? (fun x => x.addr == a && x.elem == e)).map (·.value)

/-- The ten bytes a Describe returns (R45). -/
def describeData (o : ObjDef) : List Byte :=
  leBytes (if o.count = 0 then o.ty else 13) 1 ++ leBytes (if o.count = 0 then 0 else o.ty) 1 ++ leBytes o.size 2
    ++ leBytes o.acc 1 ++ leBytes (b2n o.onCommit) 1 ++ leBytes o.count 4

/-- `DESCRIBE` (R45, R68). -/
def execDescribe (dt : Nat) (path : Path) (r : Rec) (s : State) : Res := run dt s fun s =>
  if !mayServe s path .describe r then s
  else
    let code := checkRecord s path .describe r
    match lookupObj r.index r.sub with
    | .error c => answer s path .describe r c []
    | .ok o => if code = .ok then answer s path .describe r .ok (describeData o) else answer s path .describe r code []

/-- The staging area is emptied; a staged or failed set is gone, and the status reads Empty (R501). -/
def discardStaged (s : State) : State :=
  { s.setReg Obj.STG_STATUS 0 0 with mgmt := { s.mgmt with staged := [] } }

/-- `DISCARD` (R61, R501): a write of 1 to `STG.DISCARD`. -/
def execDiscard (dt : Nat) (path : Path) (s : State) : Res := run dt s fun s =>
  serveWrite s path (writeRec Obj.STG_DISCARD none 1) discardStaged

/-! ### The recovery write that waited -/

/-- What a recovery write does (R43): a chip reset begins, or the object takes the value at once. -/
def recoveryEffect (s : State) (a v : Nat) : State :=
  if a = Obj.RST_CHIP_RESET then s else plainWrite (unstage s a none) a 0 v

/-- `RECOVERY_WRITE_RESUME` (R63): once no commit is applied, the oldest waiting recovery write acts and is answered. -/
def execRecoveryWriteResume (dt : Nat) (s : State) : Res := run dt s fun s =>
  if s.reg Obj.STG_STATUS = 2 || !s.serving then s
  else match s.mgmt.recWait with
    | [] => s
    | w :: rest =>
      let a := w.r.index * 256 + w.r.sub
      let s1 := { s with mgmt := { s.mgmt with recWait := rest } }
      let s2 := recordWriter (recoveryEffect s1 a (ofLe w.r.data)) (pathCode w.path) (pathPort w.path) a w.r.elem
      let bytes := recordBytes 2 0 a w.r.elem []
      let s3 := match w.svc with
        | none => s2.emit (.record w.path bytes)
        | some v => resumeSvc s2 { v with todo := v.todo.tail, done := v.done ++ [bytes], reset := if a = Obj.RST_CHIP_RESET then some 2 else v.reset }
      if a = Obj.RST_CHIP_RESET ∧ w.svc = none then beginChipReset s3 2 else s3

end Sys2Proof.Machine
end

