-- ==== Sys2Proof/Machine/Tenancy.lean ====
section
/-! DEFINITION. Tenancies and mailboxes (14_tenancies_and_mailboxes.md): resets, dirty-log harvests, the mailbox windows, the
manager side, the FM pair. -/
namespace Sys2Proof.Machine

/-! ### Resets (R366 to R368) -/

/-- `TENANCY_RESET` (R367). -/
def execTenancyReset (dt : Nat) (path : Path) (value : Nat) (s : State) : Res := run dt s fun s =>
  serveWrite s path (writeRec Obj.TEN_RESET none value) (fun t => triggerReset t value 3)

/-- Step 3: every port agent ends the tenancy's open transactions (R281, R302). -/
def endTransactions (s : State) (t : Nat) : State :=
  forEach (s.coh.txns.filter (fun x => !x.ended && x.msg.tenancy.elim false (fun g => g.1 == t))) s fun u x =>
    abandonTxn (u.count1 Obj.TEN_ABANDONED t) x

/-- A message in a Full mailbox is discarded and counted (R368 step 5). -/
def countStale (s : State) (t : Nat) (full : Bool) : State := if full then s.count1 Obj.MBX_STALE t else s

/-- Both mailboxes of a pair become Empty, their data zero; pending bits, masks and IRQ_ENABLE take their reset values. -/
def emptyBoxes (s : State) (t : Nat) : State :=
  let s1 := zeroBox (zeroBox (setBoxWord s t 0) (inboxAddr t)) (outboxAddr t)
  dropHeld ((s1.setPair t { freshPair with irqStatus := (s.pair t).irqStatus }).setReg Obj.MBX_OUT_MASK t 0) t

/-- Step 5: the mailboxes are reset and the tenancy's bits of `MBX.SUMMARY` cleared. -/
def resetBoxes (s : State) (t : Nat) : State :=
  let s1 := countStale (countStale s t (s.inFull t)) t (s.outFull t)
  ((emptyBoxes s1 t).putRegBit Obj.MBX_SUMMARY (t / 64) (t % 64) false).putRegBit Obj.MBX_SUMMARY (64 + t / 64) (t % 64) false

/-- Steps 2 to 6 of the reset sequence. -/
def resetSequence (s : State) (t : Nat) : State :=
  let s1 := resetChannel (endTransactions (bumpGen s t) t) t
  let s2 := closeNotice (resetBoxes s1 t) (.ten t)
  { s2 with ten := { s2.ten with started := t :: s2.ten.started.filter (· != t) } }

/-- `TENANCY_RESET_START` (R368). -/
def execTenancyResetStart (dt tenancy : Nat) (s : State) : Res := run dt s fun s =>
  s.onDue ⟨.tenReset, tenancy, 0⟩ fun u => if u.tenState tenancy = 2 then resetSequence u tenancy else u

/-- Every dirty-log range of a tenancy becomes invalid (R366). -/
def dropRanges (s : State) (t : Nat) : State :=
  forEach (List.range 8) s fun u r => u.putRegBit Obj.TEN_DLOG_RANGE (8 * t + r) 63 false

/-- A tenancy is created (R366): a new generation, both mailboxes Empty with everything at its reset value. -/
def createTenancy (s : State) (t : Nat) : State :=
  let s1 := emptyBoxes (bumpGen s t) t
  setTenState (dropHeld (s1.setPair t freshPair) t) t 1

/-- `TENANCY_RESET_END` (R366): Live again, with RESET set, or Free after a merged removal; a number that a commit has made
valid again meanwhile is created anew (log entry 31). -/
def execTenancyResetEnd (dt tenancy : Nat) (s : State) : Res := run dt s fun s =>
  if s.tenState tenancy = 2 ∧ s.ten.started.contains tenancy = true then
    let gone := s.ten.removal.contains tenancy
    let s1 := { s with ten := { s.ten with started := s.ten.started.filter (· != tenancy), removal := s.ten.removal.filter (· != tenancy) } }
    if gone then
      let s2 := dropRanges (setTenState s1 tenancy 0) tenancy
      if s2.regBit Obj.TEN_CTRL tenancy 31 then createTenancy s2 tenancy else s2
    else setIrq (setTenState s1 tenancy 1) tenancy 3
  else s

/-! ### Dirty-page logging (R372, R374) -/

/-- The lines that hold Steppe bytes `a .. a + n - 1`, from a line's first byte on, become zero. -/
def zeroRange (s : State) (a n : Nat) : State :=
  let t := cleanLines s (a / 64) (linesOf a n)
  { t with mem := t.mem.filter (fun c => decide (c.1 < a) || decide (a + 64 * linesOf a n ≤ c.1)) }

/-- The bitmap of a range element: its Steppe address, and its bytes (R372). -/
def bitmapBase (s : State) (e : Nat) : Nat := 0x2EC0000000 + 64 * s.regBits Obj.TEN_DLOG_MAP e 0 27
/-- Its length in bytes. -/
def bitmapBytes (s : State) (e : Nat) : Nat := (s.regBits Obj.TEN_DLOG_MAP e 32 32 + 8) / 8

/-- `DLOG_CLEAR_DONE` (R372): the bitmap of a newly valid range is clear, and the records that waited are folded. -/
def execDlogClearDone (dt range : Nat) (s : State) : Res := run dt s fun s =>
  let t := range / 8
  if s.regBit Obj.TEN_DLOG_STATE t (8 + range % 8) then
    foldDirty ((zeroRange s (bitmapBase s range) (bitmapBytes s range)).putRegBit Obj.TEN_DLOG_STATE t (8 + range % 8) false)
      (fun d => d.tenancy == t && d.range == range % 8)
  else s

/-- The range element and the word that `TEN.DLOG_TAKE_ADDR` names. -/
def takeElem (s : State) : Nat := s.regBits Obj.TEN_DLOG_TAKE_ADDR 0 32 15
/-- The word. -/
def takeWord (s : State) : Nat := s.regBits Obj.TEN_DLOG_TAKE_ADDR 0 0 23

/-- The word lies past the end of the bitmap (R374). -/
def takePast (s : State) : Bool := decide (bitmapBytes s (takeElem s) ≤ 64 * takeWord s)

/-- The 64 bytes a harvest read returns (R374). -/
def takeData (s : State) : List Byte :=
  if takePast s then List.replicate 64 0 else s.sysBytes (bitmapBase s (takeElem s) + 64 * takeWord s) 64

/-- What a harvest read does beside: the word is cleared, WORD advances, EOR shows a read past the end (R374). -/
def takeEffect (s : State) : State :=
  let a := bitmapBase s (takeElem s) + 64 * takeWord s
  let s1 := if takePast s then s else (s.sysRead a 64).1.sysWrite a (List.replicate 64 0)
  (s1.setRegBits Obj.TEN_DLOG_TAKE_ADDR 0 0 23 (takeWord s + 1)).putRegBit Obj.TEN_DLOG_TAKE_ADDR 0 31 (takePast s)

/-- A harvest read that passes the checks folds the tenancy's records first (R374). -/
def serveTake (s : State) (path : Path) (op : RecOp) (r : Rec) : State :=
  if mayServe s path op r && checkRecord s path op r == .ok then
    serveRead (foldDirty s (fun d => d.tenancy == takeElem s / 8)) path op r (fun t _ _ => takeData t) takeEffect
  else serveRead s path op r (fun _ _ _ => []) id

/-- `DLOG_TAKE` (R374). -/
def execDlogTake (dt : Nat) (path : Path) (s : State) : Res := run dt s fun s => serveTake s path .read (readRec Obj.TEN_DLOG_TAKE none)

/-! ### The mailbox window (R375 to R377, R381, R382) -/

/-- A write to the mailbox window of a host port reaches the FM pair on a fabric-manager port, else the pair of the bound
tenancy; while that is Resetting it is aborted (R377). -/
def mailboxWindow (s : State) (port : Nat) (f : Nat → State) : State :=
  if !s.isHost port then s
  else if s.isFmPort port then f fmPair
  else match s.portTenancy port with
    | none => s.emit (.barDone port)
    | some t => if s.tenState t = 2 then s.emit (.barAbort port) else f t

/-- An operation meets a Full mailbox: counted, where the pair is a tenancy's (R375). -/
def countRejected (s : State) (t : Nat) : State := if t < 4096 then s.count1 Obj.MBX_REJECTED t else s

/-- A write of OUT_DATA. -/
def writeOut (s : State) (a : WindowWrite) (t : Nat) : State :=
  if !aligned48 a.offset a.width then s.emit (.barAbort a.port)
  else if s.outFull t then (countRejected s t).emit (.barAbort a.port)
  else (s.sysWrite (outboxAddr t + (a.offset - 0x40100)) (leBytes a.value a.width)).emit (.barDone a.port)

/-- `OUT_DATA_WRITE` (R375 to R377): offsets 0x4_0100..0x4_01FF. -/
def execOutDataWrite (dt : Nat) (a : WindowWrite) (s : State) : Res := run dt s fun s =>
  if 0x40100 ≤ a.offset ∧ a.offset < 0x40200 then mailboxWindow s a.port (writeOut s a) else s

/-- An aligned access of 4 bytes to the register at `offset`. -/
def reg32 (a : WindowWrite) (offset : Nat) : Bool := a.offset == offset && a.width == 4

/-- The outbound mailbox becomes Full with its pending bits (R375); a tenancy's bit outside the mask enters the summary
(R380), the FM pair's message waits for firmware (R382). -/
def ringOut (s : State) (t port v : Nat) : State :=
  let s1 := setBoxWord s t (setBits (putBit (s.boxWord t) 62 true) 0 32 v)
  if t = fmPair then { s1 with ten := { s1.ten with fmPort := port } }
  else if Nat.land v (2 ^ 32 - 1 - s.reg Obj.MBX_OUT_MASK t % 2 ^ 32) = 0 then s1
  else summarySet s1 (t / 64) (t % 64)

/-- A write of OUT_DOORBELL; one that writes no bit does nothing. -/
def writeDoorbell (s : State) (a : WindowWrite) (t : Nat) : State :=
  if !reg32 a 0x40214 then s.emit (.barAbort a.port)
  else if a.value % 2 ^ 32 = 0 then s.emit (.barDone a.port)
  else if s.outFull t then (countRejected s t).emit (.barAbort a.port)
  else (ringOut s t a.port (a.value % 2 ^ 32)).emit (.barDone a.port)

/-- `OUT_DOORBELL` (R375, R377): offset 0x4_0214. -/
def execOutDoorbell (dt : Nat) (a : WindowWrite) (s : State) : Res := run dt s fun s =>
  if 0x40214 ≤ a.offset ∧ a.offset < 0x40218 then mailboxWindow s a.port (writeDoorbell s a) else s

/-- The inbound message is taken (R375): the manager side gets the empty notice in `MBX.SUMMARY` (R380). -/
def takeIn (s : State) (t : Nat) : State :=
  if s.inFull t then
    let s1 := zeroBox (setBoxWord s t (putBit (s.boxWord t) 63 false)) (inboxAddr t)
    let s2 := s1.setPair t { s1.pair t with inPending := 0 }
    if t = fmPair then s2 else summarySet s2 (64 + t / 64) (t % 64)
  else s

/-- A write of IN_TAKE. -/
def writeTakeReg (s : State) (a : WindowWrite) (t : Nat) : State :=
  if !reg32 a 0x4020C then s.emit (.barAbort a.port)
  else (if a.value % 2 = 1 then takeIn s t else s).emit (.barDone a.port)

/-- `IN_TAKE` (R375, R377): offset 0x4_020C. -/
def execInTake (dt : Nat) (a : WindowWrite) (s : State) : Res := run dt s fun s =>
  if 0x4020C ≤ a.offset ∧ a.offset < 0x40210 then mailboxWindow s a.port (writeTakeReg s a) else s

/-! ### The manager side (R379 to R381) -/

/-- A write record of the manager side that a Full inbound mailbox rejects (R375, R381). -/
def serveBox (s : State) (path : Path) (r : Rec) (t : Nat) (full : Bool) (eff : State → State) : State :=
  if mayServe s path .write r && checkRecord s path .write r == .ok && full then answer (s.count1 Obj.MBX_REJECTED t) path .write r .state []
  else serveWrite s path r eff

/-- A write record of `MBX.IN_DATA`: until Steppe memory is Ready no block may use it (R208), and the record is rejected (log
entry 89). -/
def serveInData (s : State) (path : Path) (r : Rec) : State :=
  let t := r.elem.getD 0
  if !s.steppeReady && mayServe s path .write r && checkRecord s path .write r == .ok then answer s path .write r .state []
  else serveBox s path r t (s.inFull t) (fun u => u.sysWrite (inboxAddr t) (padTo r.data 256))

/-- `IN_DATA_WRITE` (R379). -/
def execInDataWrite (dt : Nat) (path : Path) (tenancy value : Nat) (s : State) : Res := run dt s fun s =>
  serveInData s path (writeRec Obj.MBX_IN_DATA (some tenancy) value)

/-- The inbound mailbox becomes Full with its pending bits; one outside IN_MASK raises IN_DOORBELL (R375, R377). -/
def ringIn (s : State) (t v : Nat) : State :=
  let s1 := setBoxWord s t (putBit (s.boxWord t) 63 true)
  let s2 := s1.setPair t { s1.pair t with inPending := v }
  if Nat.land v (2 ^ 32 - 1 - (s2.pair t).inMask % 2 ^ 32) = 0 then s2 else setIrq s2 t 0

/-- A write record of `MBX.IN_SEND`: one of an old generation is accepted, discarded and counted (R379). -/
def serveInSend (s : State) (path : Path) (r : Rec) : State :=
  let t := r.elem.getD 0
  let v := ofLe r.data
  let old := bits v 32 16 != s.tenGen t
  serveBox s path r t (s.inFull t && !old) (fun u => if old then u.count1 Obj.MBX_STALE t else ringIn u t (v % 2 ^ 32))

/-- `IN_SEND` (R379). -/
def execInSend (dt : Nat) (path : Path) (tenancy value : Nat) (s : State) : Res := run dt s fun s =>
  serveInSend s path (writeRec Obj.MBX_IN_SEND (some tenancy) value)

/-- The outbound message is taken (R375): its bit leaves the summary, and the tenant gets OUT_EMPTY. -/
def takeOut (s : State) (t : Nat) : State :=
  if s.outFull t then
    let s1 := zeroBox (setBoxWord s t (setBits (putBit (s.boxWord t) 62 false) 0 32 0)) (outboxAddr t)
    setIrq (if t = fmPair then s1 else summaryClear s1 t) t 1
  else s

/-- `OUT_TAKE` (R379). -/
def execOutTake (dt : Nat) (path : Path) (tenancy : Nat) (s : State) : Res := run dt s fun s =>
  serveWrite s path (writeRec Obj.MBX_OUT_TAKE (some tenancy) 1) (fun t => takeOut t tenancy)

/-- `SUMMARY_EVENT` (R380): a change that the 10 us spacing held back is reported. -/
def execSummaryEvent (dt element : Nat) (s : State) : Res := run dt s fun s =>
  s.onDue ⟨.summary, element, 0⟩ fun t =>
    if t.ten.summaryOwed.contains element then summaryEvent { t with ten := { t.ten with summaryOwed := t.ten.summaryOwed.filter (· != element) } } element
    else t

/-! ### The FM pair (R382) -/

/-- The message the manager left in the FM pair: 256 bytes, of which the header's LENGTH says how many are its own. -/
def fmMessage (s : State) : List Byte :=
  let bs := s.sysBytes (outboxAddr fmPair) 256
  bs.take (16 + leField bs 6 2)

/-- `FM_PAIR_REQUEST` (R382, R502): firmware takes the message and queues it as a request of the port that rang; one with a
malformed header is answered at once. -/
def execFmPairRequest (dt : Nat) (s : State) : Res := run dt s fun s =>
  if !s.firmware || !s.outFull fmPair then s
  else
    let bs := fmMessage s
    let path := Path.fm s.ten.fmPort true
    let s1 := takeOut (s.sysRead (outboxAddr fmPair) 256).1 fmPair
    if pairHeaderMalformed bs then
      sendOn (s1.count1 Obj.MGP_MALFORMED 0) path (leField bs 2 2) (messageHeader s1 2 (leField bs 2 2) 0 0 0x0B)
    else { s1 with mgmt := { s1.mgmt with qFm := s1.mgmt.qFm ++ [⟨path, bs⟩] } }

/-- A notice: the map of the elements of `MBX.SUMMARY` with a bit set. -/
def noticeMap (s : State) : Nat := (List.range 128).foldl (fun n w => n + at_ w (b2n (s.reg Obj.MBX_SUMMARY w != 0))) 0

/-- Firmware puts 256 bytes into the FM inbound mailbox and rings it. -/
def postFm (s : State) (bs : List Byte) (v : Nat) : State := ringIn (s.sysWrite (inboxAddr fmPair) (padTo bs 256)) fmPair v

/-- `FM_PAIR_POST` (R382): into an Empty mailbox only, a response before a notice. -/
def execFmPairPost (dt : Nat) (s : State) : Res := run dt s fun s =>
  if !s.firmware || s.inFull fmPair then s
  else match s.ten.fmWaiting with
    | bs :: rest => postFm { s with ten := { s.ten with fmWaiting := rest } } bs 1
    | [] => if s.ten.fmNotice then postFm { s with ten := { s.ten with fmNotice := false } } (leBytes (noticeMap s) 16) 2 else s

end Sys2Proof.Machine
end

