-- ==== Sys2Proof/Machine/Twin.lean ====
section
/-! DEFINITION. The twin pair (13_twin_pairs.md): Saddle messages, heartbeat, judgements, takeover, resync. -/
namespace Sys2Proof.Machine

/-- `PAIR_INFO` (R336). -/
def execPairInfo (dt port : Nat) (msg : List Byte) (s : State) : Res := run dt s fun s =>
  s.withSome (takeTwin s port 0x43 msg) fun t =>
    let n := min (leField msg 16 2) 62
    let s1 := forEach (List.range n) t (compareListed msg)
    if n < 62 then endPairInfo s1 else s1

/-- `MIRROR_WR` (R340). -/
def execMirrorWr (dt port : Nat) (msg : List Byte) (s : State) : Res := run dt s fun s =>
  s.withSome (takeTwin s port 0x40 msg) fun t =>
    match t.mirrorCopy (leField msg 16 8 % 2 ^ 45) with
    | some i => writeMirror t i msg
    | none => raise (t.count1 Obj.TWIN_MIRROR_DISCARDS 0) 11 5

/-- `RESYNC_DATA` (R360): messages are taken in the order they arrive, so what comes later stands. -/
def execResyncData (dt port : Nat) (msg : List Byte) (s : State) : Res := run dt s fun s =>
  s.withSome (takeTwin s port 0x45 msg) fun t =>
    match t.mirrorCopy (leField msg 16 8 % 2 ^ 45) with
    | some i => writeMirror t i msg
    | none => t

/-- `LOG` (R345). -/
def execLog (dt port : Nat) (msg : List Byte) (s : State) : Res := run dt s fun s =>
  s.withSome (takeTwin s port 0x41 msg) fun t => forEach (logRecords msg) t applyRecord

/-- `LOG_FLUSH` (R342). -/
def execLogFlush (dt : Nat) (s : State) : Res := run dt s fun s =>
  forEach [56, 60] s fun t p => t.onDue ⟨.logFlush, p, 0⟩ fun u => flushLog u p

/-- A key is unwrapped into the lowest Free slot for an allocation, whose former slot is destroyed (R339). -/
def takeKey (s : State) (i : Nat) (wrapped : List Byte) : State :=
  let s1 := if s.allocSlot i = 0 then s else destroySlot s (s.allocSlot i) (decide (1024 ≤ s.allocFirst i))
  s1.withSome s1.freeSlot fun slot =>
    (takeSlot s1 slot (Config.unwrapKey (s1.twin.pairKey.getD 0) wrapped)).setRegBits Obj.TRACT_ALLOC_STATE i 0 12 slot

/-- `KEY_XFER` (R339). -/
def execKeyXfer (dt port : Nat) (msg : List Byte) (s : State) : Res := run dt s fun s =>
  s.withSome (takeTwin s port 0x44 msg) fun t =>
    t.withSome (t.allocAt (leField msg 16 4)) fun i =>
      if t.allocRole i ≠ 0 ∧ t.allocKeyed i = true then takeKey t i (slice msg 32 72) else t

/-! ### Heartbeat (R346, R347, R359) -/

/-- A HEARTBEAT (R337): SEQ, pair state, valid agent entries, Service state. -/
def heartbeatBytes (s : State) : List Byte :=
  twinHeader s 0x42 2 2 32 ++ leBytes s.twin.hbSeq 4 ++ leBytes s.pairState 1
    ++ leBytes ((List.range 64).filter (fun a => s.agentValid a)).length 1 ++ leBytes (b2n (s.devState == 1)) 1 ++ List.replicate 9 0

/-- `HEARTBEAT_SEND` (R346). -/
def execHeartbeatSend (dt : Nat) (s : State) : Res := run dt s fun s =>
  s.onDue ⟨.heartbeat, 0, 0⟩ fun s =>
    let s1 := forEach ([56, 60].filter (fun p => s.isSaddle p && s.passUp p)) s fun t p => sendOwn t p (heartbeatBytes s)
    { s1 with twin := { s1.twin with hbSeq := (s1.twin.hbSeq + 1) % 2 ^ 32, hbOut := !s1.twin.hbOut } }.arm ⟨.heartbeat, 0, 0⟩ 10000

/-- The 10 µs intervals that passed without a HEARTBEAT are counted. -/
def countMissed (s : State) : State :=
  if s.twin.hbAt = 0 then s else s.count Obj.TWIN_HB_MISSED 0 ((s.now - s.twin.hbAt) / 10000 - 1)

/-- `HEARTBEAT` (R293, R347, R348). -/
def execHeartbeat (dt port : Nat) (msg : List Byte) (s : State) : Res := run dt s fun s =>
  s.withSome (takeTwin s port 0x42 msg) fun t =>
    let old := t.twin.partnerState
    let s1 := heardPartner (countMissed t)
    let s2 := { s1 with twin := { s1.twin with partnerState := leField msg 20 1 } }.setRegBits Obj.TWIN_STATE 0 0 8 (leField msg 21 1)
    evalPair (evalRegime s2) old

/-- `TWIN_HB_IN_EDGE` (R347). -/
def execTwinHbInEdge (dt : Nat) (s : State) : Res := run dt s fun s =>
  evalPair ((s.putRegBit Obj.TWIN_STATE 0 25 true).arm ⟨.pinSilent, 0, 0⟩ 30000) s.twin.partnerState

/-- `MESSAGE_SIGNAL_SILENT` (R347): with the pin alive the Saddle link is lost, else the partner. -/
def execMessageSignalSilent (dt : Nat) (s : State) : Res := run dt s fun s =>
  s.onDue ⟨.msgSilent, 0, 0⟩ fun s =>
    let s1 := s.putRegBit Obj.TWIN_STATE 0 26 false
    if s1.pinAlive then (if s1.pairState = 2 ∨ s1.pairState = 3 then settle (enterSplit s1) else s1) else partnerLost s1

/-- `PIN_SIGNAL_SILENT` (R347): with messages arriving only PIN_FAULT is raised, else the partner is lost. -/
def execPinSignalSilent (dt : Nat) (s : State) : Res := run dt s fun s =>
  s.onDue ⟨.pinSilent, 0, 0⟩ fun s =>
    let s1 := s.putRegBit Obj.TWIN_STATE 0 25 false
    if s1.msgAlive then raise s1 11 4 else partnerLost s1

/-! ### Takeover, alias and resync -/

/-- `TAKEOVER_SERVE` (R350): every message accepted from the lost twin has been applied. -/
def execTakeoverServe (dt : Nat) (s : State) : Res := run dt s fun s =>
  if s.twin.takeover && s.pairState == 5 && !drainLeft s then serveTakeover s else s

/-- `DECLARE_LOST` (R357). -/
def execDeclareLost (dt : Nat) (path : Path) (s : State) : Res := run dt s fun s =>
  serveWrite s path (writeRec Obj.TWIN_DECLARE_LOST none 1) fun t => beginTakeover t true

/-- `ALIAS_END` (R354). -/
def execAliasEnd (dt : Nat) (path : Path) (s : State) : Res := run dt s fun s =>
  serveWrite s path (writeRec Obj.TWIN_ALIAS_END none 1) endAlias

/-- `RESYNC_COPY_DONE` (R360). -/
def execResyncCopyDone (dt : Nat) (s : State) : Res := run dt s fun s => if s.pairState = 2 then resyncDone s else s

/-- A unit may be marked Clean (R344): its allocation is logged, it has not changed for `TWIN.CLEAN_AFTER`, and no record of
it is unacknowledged. -/
def mayClean (s : State) (u : Nat) : Bool :=
  !s.twin.clean.contains u && (s.liveAlloc (u / 4096)).elim false (fun i => s.logsAlloc i)
    && (assocGet s.twin.changed u).elim true (fun t => decide (t + s.reg Obj.TWIN_CLEAN_AFTER * 1000 ≤ s.now))
    && !s.heldRecords.any (fun r =>
      let type := leField r 0 1
      if type = 1 ∨ type = 2 then unitOf (leField r 8 8 % 2 ^ 45) == u else (type == 3 || type == 4) && leField r 8 4 == u)

/-- `UNIT_CLEAN` (R344). -/
def execUnitClean (dt unit : Nat) (s : State) : Res := run dt s fun s =>
  if mayClean s unit then addRecord { s with twin := { s.twin with clean := unit :: s.twin.clean } } 4 unit [] (unit % 2 == 1) else s

end Sys2Proof.Machine
end

