-- ==== Sys2Proof/Machine/CommitCheck.lean ====
section
/-! DEFINITION. The validation of a commit (R62): the configuration that would result, and what each chapter rejects. -/
namespace Sys2Proof.Machine

/-! ### The configuration that would result -/

/-- A staged record changes its object: an element of `EDGE.VPPB` for vPPB 0 is read-only (R110). -/
def stagedActs (x : Staged) : Bool := !(x.addr == Obj.EDGE_VPPB && x.elem.getD 0 % 64 == 0)

/-- A state with the staged values in its registers, and nothing else done: what the checks look at. -/
def candidate (s : State) : State :=
  forEach (s.mgmt.staged.filter stagedActs) s fun t x => plainWrite t x.addr (x.elem.getD 0) x.value

/-- The staged elements of an object. -/
def stagedOf (s : State) (a : Nat) : List Nat := (s.mgmt.staged.filter (fun x => x.addr == a && stagedActs x)).map (fun x => x.elem.getD 0)

/-- The elements of an object that a commit changes. -/
def changedOf (s c : State) (a : Nat) : List Nat := (stagedOf s a).filter (fun e => s.reg a e != c.reg a e)

/-- The value of an element changes. -/
def changes (s c : State) (a e : Nat) : Bool := s.reg a e != c.reg a e

/-! ### Findings -/

/-- What a check finds: the elements concerned, as register keys, and the cause (R62). -/
structure Finding where
  keys  : List Nat
  cause : Result
  deriving DecidableEq, Repr

/-- A finding where a condition holds. -/
def flag (b : Bool) (keys : List Nat) (cause : Result) : List Finding := if b then [⟨keys, cause⟩] else []

/-- The register keys of elements of one object. -/
def keysOf (a : Nat) (l : List Nat) : List Nat := l.map (regKey a)

/-- The element a failure names: the highest-numbered staged one among those concerned, else the highest-numbered (R62). -/
def blame (s : State) (keys : List Nat) : Nat :=
  let st := keys.filter (fun k => s.mgmt.staged.any (fun x => regKey x.addr (x.elem.getD 0) == k))
  (if st.isEmpty then keys else st).foldl max 0

/-- The object address word of a register key (R37). -/
def keyWord (k : Nat) : Nat := counterAddress (k / 65536) (k % 65536)

/-- Two runs of numbers share one. -/
def runsMeet (a n b m : Nat) : Bool := decide (a < b + m) && decide (b < a + n)

/-! ### Lanes (R20, R72, R77) -/

/-- The checks of R72 on one port. -/
def kindFindings (c : State) (p : Nat) : List Finding :=
  let kind := c.reg Obj.LANE_PORT_KIND p
  flag (kind != 0 && !c.portExists p) [regKey Obj.LANE_PORT_KIND p, regKey Obj.LANE_GROUP_SPLIT (p / 4)] .range
    ++ flag (kind == 1 && decide (56 ≤ p)) [regKey Obj.LANE_PORT_KIND p] .range
    ++ flag (c.isEdge p && c.reg Obj.LANE_PORT_MAX_RATE p == 6) [regKey Obj.LANE_PORT_KIND p, regKey Obj.LANE_PORT_MAX_RATE p] .range

/-- The Pass ports of a group. -/
def passOf (c : State) (g : Nat) : List Nat := ((List.range 4).map (4 * g + ·)).filter (fun p => c.isPass p)

/-- R72 and R77. -/
def laneFindings (c : State) : List Finding :=
  (List.range 64).flatMap (kindFindings c)
    ++ (List.range 16).flatMap fun g =>
      flag (c.reg Obj.LANE_REF_SSC g == 1 && !(passOf c g).isEmpty) (regKey Obj.LANE_REF_SSC g :: keysOf Obj.LANE_PORT_KIND (passOf c g)) .range

/-! ### Edge ports (R96, R103 to R105, R111, R112, R117, R122) -/

/-- R96: at most 8 ports in the fabric role. -/
def fabricFindings (c : State) : List Finding :=
  let l := (List.range 64).filter (fun p => c.isFabric p)
  flag (decide (8 < l.length)) (keysOf Obj.EDGE_PORT_ROLE l) .range

/-- Two agent entries name one host port, or one fabric port and PBR ID (R103). -/
def sameHost (c : State) (a b : Nat) : Bool :=
  c.agentValid a && c.agentValid b && c.agentPbr a == c.agentPbr b && c.agentPort a == c.agentPort b
    && (!c.agentPbr a || c.agentPbrId a == c.agentPbrId b)

/-- R103 to R105. DEDUCED (log entry 92): a host port with CXL_MEM set permits CXL.mem by the words of R103 whatever CXL_IO says,
though R503 then ignores the bit; so it needs an agent. -/
def agentFindings (s c : State) : List Finding :=
  ((List.range 64).flatMap fun p => flag (c.isHost p && c.regBit Obj.EDGE_PROTOCOLS p 2 && (c.portAgent p).isNone) [regKey Obj.EDGE_PROTOCOLS p] .range)
    ++ ((List.range 64).flatMap fun b => flag ((List.range b).any (fun a => sameHost c a b)) [regKey Obj.EDGE_AGENT_MAP b] .range)
    ++ (changedOf s c Obj.EDGE_AGENT_MAP).flatMap fun a => flag (s.agentValid a && s.devState == 1) [regKey Obj.EDGE_AGENT_MAP a] .state

/-- The logical device that a vPPB element names, as 16 * port + LD-ID. -/
def vppbLd (c : State) (e : Nat) : Nat := 16 * c.regBits Obj.EDGE_VPPB e 4 6 + c.regBits Obj.EDGE_VPPB e 0 4

/-- After the commit vPPB `x` still holds the logical device it holds now: it is Unbinding, or the commit unbinds it with
managed hot-remove (R113). -/
def keepsLd (s c : State) (x : Nat) : Bool :=
  s.regBits Obj.EDGE_VPPB x 30 2 == 3
    || (s.regBit Obj.EDGE_VPPB x 29 && c.regBit Obj.EDGE_VPPB x 28 && !(c.regBit Obj.EDGE_VPPB x 29 && vppbLd c x == vppbLd s x))

/-- Other vPPBs that hold the logical device of element `e`: bound to it by the commit, or not yet rid of it. -/
def vppbRivals (s c : State) (e : Nat) : List Nat :=
  (c.elements Obj.EDGE_VPPB).filter (fun x => x != e
    && ((c.regBit Obj.EDGE_VPPB x 29 && vppbLd c x == vppbLd c e) || (keepsLd s c x && vppbLd s x == vppbLd c e)))

/-- The CXL.cache-enabled logical devices bound in the hierarchy of element `e` (R117). -/
def vppbCaches (c : State) (e : Nat) : List Nat :=
  ((List.range 64).map (e / 64 * 64 + ·)).filter (fun x => c.regBit Obj.EDGE_VPPB x 29 && c.ldCache (vppbLd c x / 16) (vppbLd c x % 16))

/-- R101, R111 and R117 on one staged binding. R101 says that a CXL 1.1 host binds no vPPBs and names no result: it is RANGE
(DESIGN CHOICE, log entry 86). -/
def bindFindings (s c : State) (e : Nat) : List Finding :=
  if c.regBit Obj.EDGE_VPPB e 29 then
    flag (c.reg Obj.EDGE_LD_USE (vppbLd c e) != 1) [regKey Obj.EDGE_VPPB e, regKey Obj.EDGE_LD_USE (vppbLd c e)] .range
      ++ flag (!(vppbRivals s c e).isEmpty) (keysOf Obj.EDGE_VPPB (e :: vppbRivals s c e)) .range
      ++ flag (s.regBits Obj.EDGE_PORT_STATE (e / 64) 2 3 == 1) [regKey Obj.EDGE_VPPB e] .range
      ++ flag (c.ldCache (vppbLd c e / 16) (vppbLd c e % 16) && decide (4 < (vppbCaches c e).length)) (keysOf Obj.EDGE_VPPB (vppbCaches c e)) .range
  else []

/-- The elements of a PBR object that are set. -/
def pbrSet (c : State) (a none_ : Nat) : List Nat := (c.elements a).filter (fun e => c.reg a e != none_)

/-- R122: PBR IDs and routes without a fabric port, routes to other ports, a PBR ID of two functions. -/
def pbrFindings (c : State) : List Finding :=
  let fabric := (List.range 64).any (fun p => c.isFabric p)
  let ids := pbrSet c Obj.EDGE_PBR_ID 0xFFFF
  let routes := pbrSet c Obj.EDGE_PBR_ROUTE 0xFF
  (ids.flatMap fun e => flag (!fabric) [regKey Obj.EDGE_PBR_ID e] .range)
    ++ (routes.flatMap fun e => flag (!fabric || !c.isFabric (c.reg Obj.EDGE_PBR_ROUTE e)) [regKey Obj.EDGE_PBR_ROUTE e] .range)
    ++ ids.flatMap fun e =>
      flag (ids.any (fun x => x < e && c.reg Obj.EDGE_PBR_ID x == c.reg Obj.EDGE_PBR_ID e))
        (keysOf Obj.EDGE_PBR_ID (ids.filter (fun x => c.reg Obj.EDGE_PBR_ID x == c.reg Obj.EDGE_PBR_ID e))) .range
      ++ flag (c.reg Obj.EDGE_PBR_ID e == c.reg Obj.EDGE_POOL_PBR_ID) [regKey Obj.EDGE_PBR_ID e, regKey Obj.EDGE_POOL_PBR_ID 0] .range

/-- What the edge ports' chapter rejects. -/
def edgeFindings (s c : State) : List Finding :=
  fabricFindings c ++ agentFindings s c ++ (stagedOf s Obj.EDGE_VPPB).flatMap (bindFindings s c) ++ pbrFindings c

/-! ### Basin and scheduler (R133, R149, R363) -/

/-- The ingress ports that hold reserves, and what they hold in all (R130). -/
def reservePorts (c : State) : List Nat := (List.range 72).filter (fun p => c.portCode p)
def reserveTotal (c : State) : Nat := (reservePorts c).foldl (fun n p => n + c.reserve p 0 + c.reserve p 1 + c.reserve p 2) 0

/-- The element that a total too large names (R133). -/
def reserveBlame (s c : State) : Nat :=
  match changedOf s c Obj.BASIN_RESERVE, changedOf s c Obj.LANE_GROUP_SPLIT, changedOf s c Obj.LANE_PORT_KIND with
  | [], [], l => regKey Obj.LANE_PORT_KIND (l.foldl min 63)
  | [], l, _ => regKey Obj.LANE_GROUP_SPLIT (l.foldl min 15)
  | l, _, _ => regKey Obj.BASIN_RESERVE (l.foldl max 0)

/-- R133, for a commit that changes the reserves or the set of existing ports. -/
def reserveFindings (s c : State) : List Finding :=
  if changedOf s c Obj.BASIN_RESERVE = [] ∧ reservePorts s = reservePorts c then []
  else
    ((reservePorts c).flatMap fun p => [1, 2].flatMap fun k => flag (decide (c.reg Obj.BASIN_RESERVE (3 * p + k) < 16)) [regKey Obj.BASIN_RESERVE (3 * p + k)] .range)
      ++ flag (decide (262144 < reserveTotal c + 32768)) [reserveBlame s c] .range

/-- The binding a group has once a commit is applied: a rebind that waits stands unless the commit stages the group (R151). -/
def boundTo (s c : State) (g : Nat) : Nat :=
  if !(stagedOf s Obj.SCHED_GROUP_PORT).contains g && s.rebinding g then s.regBits Obj.SCHED_GROUP_STATE g 8 7 else c.reg Obj.SCHED_GROUP_PORT g

/-- R149 and R363. -/
def schedFindings (s c : State) : List Finding :=
  ((List.range 72).flatMap fun e =>
    flag ((decide (64 ≤ e) || c.portExists e) && boundTo s c (c.reg Obj.SCHED_PORT_DEFAULT e) != e) [regKey Obj.SCHED_PORT_DEFAULT e] .range)
    ++ (changedOf s c Obj.SCHED_GROUP_PORT).flatMap fun g => flag (s.devState == 1 && s.tenState g != 0) [regKey Obj.SCHED_GROUP_PORT g] .state

/-! ### Pass links (R187, R193) -/

/-- R187, and a pin on a port that is of no Pass kind. -/
def passFindings (s c : State) : List Finding :=
  flag (changes s c Obj.PASS_SWITCH_NUMBER 0 && s.devState != 0) [regKey Obj.PASS_SWITCH_NUMBER 0] .state
    ++ (stagedOf s Obj.PASS_ROUTE_PIN).flatMap fun w =>
      flag (decide (c.reg Obj.PASS_ROUTE_PIN w < 64) && !c.isPass (c.reg Obj.PASS_ROUTE_PIN w)) [regKey Obj.PASS_ROUTE_PIN w] .range

/-! ### Tracts, decoders and regions (R112, R227, R231, R235, R237, R238) -/

/-- The Fronted logical devices. -/
def frontedLds (c : State) : List Nat := (c.elements Obj.EDGE_LD_USE).filter (fun e => c.reg Obj.EDGE_LD_USE e == 2)

/-- The fronted tracts of a logical device lie in an allocation that is not Free. -/
def frontInUse (s : State) (e : Nat) : Bool :=
  (s.elements Obj.TRACT_ALLOC_STATE).any (fun i => s.allocState i != 0 && runsMeet (s.allocFirst i) (s.allocCount i) (1024 + s.reg Obj.TRACT_FRONT_BASE e) (s.frontCount e))

/-- The keys of a logical device's base and use. -/
def frontKeys (e : Nat) : List Nat := [regKey Obj.TRACT_FRONT_BASE e, regKey Obj.EDGE_LD_USE e]

/-- R227 on one Fronted logical device. -/
def frontFindings (c : State) (e : Nat) : List Finding :=
  let base := c.reg Obj.TRACT_FRONT_BASE e
  if base = 0xFFFFFFFF then [⟨frontKeys e, .range⟩]
  else
    ((frontedLds c).filter (fun x => x < e && runsMeet (c.reg Obj.TRACT_FRONT_BASE x) (c.frontCount x) base (c.frontCount e))).flatMap (fun x => [⟨frontKeys x ++ frontKeys e, .range⟩])
      ++ flag (decide (262144 < base + c.frontCount e)) (frontKeys e) .range

/-- R112 and R227. -/
def frontedFindings (s c : State) : List Finding :=
  flag (decide (262144 < frontedTotal c)) (keysOf Obj.EDGE_LD_USE (frontedLds c)) .range
    ++ (frontedLds c).flatMap (frontFindings c)
    ++ (frontedLds s).flatMap fun e =>
      flag ((changes s c Obj.TRACT_FRONT_BASE e || c.reg Obj.EDGE_LD_USE e != 2) && frontInUse s e) (frontKeys e) .range

/-- The keys of an allocation. -/
def allocKeys (i : Nat) : List Nat := [regKey Obj.TRACT_ALLOC_EXTENT i, regKey Obj.TRACT_ALLOC_ATTR i]

/-- The allocations with a staged record. -/
def stagedAllocs (s : State) : List Nat := (stagedOf s Obj.TRACT_ALLOC_EXTENT ++ stagedOf s Obj.TRACT_ALLOC_ATTR).eraseDups

/-- ERASE = 1 is staged for an allocation (R233). -/
def eraseAsked (s : State) (i : Nat) : Bool := s.mgmt.staged.any (fun x => x.addr == Obj.TRACT_ALLOC_ATTR && x.elem == some i && bitAt x.value 57)

/-- A commit changes an allocation. -/
def allocChanges (s c : State) (i : Nat) : Bool := changes s c Obj.TRACT_ALLOC_EXTENT i || changes s c Obj.TRACT_ALLOC_ATTR i || eraseAsked s i

/-- The owner of an allocation changes (R233). -/
def ownerChanges (s c : State) (i : Nat) : Bool := s.allocOwner i != c.allocOwner i || s.allocShared i != c.allocShared i

/-- The commit gives an allocation a key slot (R218, R233). -/
def keyNeeded (s c : State) (i : Nat) : Bool := c.allocValid i && c.allocKeyed i && (!s.allocValid i || ownerChanges s c i || eraseAsked s i)

/-- The tracts of an allocation exist, all of one medium (R226, R231). -/
def allocPlaced (c : State) (i : Nat) : Bool :=
  decide (1 ≤ c.allocCount i) &&
    if c.allocFirst i < 1024 then decide (c.allocFirst i + c.allocCount i ≤ 640)
    else (List.range (c.allocCount i)).all (fun n => c.tractExists (c.allocFirst i + n))

/-- FIRST, COUNT, or the kind, of an allocation changes (R231). -/
def extentChanges (s c : State) (i : Nat) : Bool := s.allocFirst i != c.allocFirst i || s.allocCount i != c.allocCount i
def kindChanges (s c : State) (i : Nat) : Bool :=
  s.allocRole i != c.allocRole i || s.allocMirrored i != c.allocMirrored i || s.allocTracked i != c.allocTracked i || s.allocKeyed i != c.allocKeyed i

/-- The attributes of a valid allocation do not fit its medium, or the device (R231). -/
def allocMisfits (c : State) (i : Nat) : Bool :=
  let fronted := decide (1024 ≤ c.allocFirst i)
  (fronted && c.allocMirrored i) || (c.allocRole i == 1 && (!c.allocMirrored i || fronted)) || (c.allocRole i == 2 && !fronted)
    || ((c.allocMirrored i || c.allocRole i != 0) && c.reg Obj.TWIN_ENABLE == 0) || (!fronted && !c.allocKeyed i)
    || (c.allocShared i && decide (63 < c.allocOwner i))

/-- R231 on one valid allocation of the resulting configuration. -/
def allocFindings (s c : State) (valid : List Nat) (i : Nat) : List Finding :=
  flag (valid.any (fun x => decide (x < i) && runsMeet (c.allocFirst x) (c.allocCount x) (c.allocFirst i) (c.allocCount i))) [regKey Obj.TRACT_ALLOC_EXTENT i] .range
    ++ flag (!allocPlaced c i) [regKey Obj.TRACT_ALLOC_EXTENT i] .range
    ++ flag (allocMisfits c i) (allocKeys i) .range
    ++ flag (!s.allocValid i && s.guard.releases.any (fun r => r.alloc != i && runsMeet r.first r.count (c.allocFirst i) (c.allocCount i))) [regKey Obj.TRACT_ALLOC_EXTENT i] .state

/-- A commit changes the shape or the kind of an allocation that is valid, whatever it leaves of VALID (R231). -/
def changeFindings (s c : State) (i : Nat) : List Finding :=
  if s.allocValid i then
    (if extentChanges s c i then [⟨[regKey Obj.TRACT_ALLOC_EXTENT i], .range⟩]
     else if kindChanges s c i then [⟨[regKey Obj.TRACT_ALLOC_ATTR i], .range⟩] else [])
  else []

/-- R231 over all allocations. -/
def allocsFindings (s c : State) : List Finding :=
  let valid := (c.elements Obj.TRACT_ALLOC_EXTENT).filter (fun i => c.allocValid i)
  let keyed := (stagedAllocs s).filter (keyNeeded s c)
  valid.flatMap (allocFindings s c valid)
    ++ (stagedAllocs s).flatMap (changeFindings s c)
    ++ flag (decide (s.reg Obj.STP_KEY_FREE < keyed.length)) (keyed.flatMap allocKeys) .range
    ++ ((stagedAllocs s).filter (allocChanges s c)).flatMap (fun i => flag (s.devState == 1 || s.allocState i == 2) (allocKeys i) .state)
    ++ (changedOf s c Obj.TRACT_SHARE_SETS).flatMap fun t => flag (s.devState == 1) [regKey Obj.TRACT_SHARE_SETS t] .state

/-- R235 on the decoders of one agent. -/
def decoderFindings (c : State) (a : Nat) : List Finding :=
  (List.range 8).flatMap fun d =>
    let holes := (List.range d).filter (fun x => !c.decValid a x)
    flag (c.decValid a d && !holes.isEmpty) (keysOf Obj.TRACT_DECODER (((d :: holes)).map (8 * a + ·))) .range
      ++ flag (c.decValid a d && c.decCount a d == 0) [regKey Obj.TRACT_DECODER (8 * a + d)] .range

/-- R235 and R237. -/
def decodersFindings (s c : State) : List Finding :=
  (List.range 64).flatMap (decoderFindings c)
    ++ (changedOf s c Obj.TRACT_DECODER).flatMap fun e =>
      flag (s.decValid (e / 8) (e % 8) && s.regBit Obj.TRACT_DECODER_STATE e 31 && s.agentState (e / 8) == 1) [regKey Obj.TRACT_DECODER e] .state

/-- The objects of the region sets (R238). -/
def regionObjs : List Nat := [Obj.GUARD_REGION_BASE, Obj.GUARD_REGION_LIMIT, Obj.GUARD_REGION_READ, Obj.GUARD_REGION_WRITE]

/-- A valid region ends before it begins, or gives write access without read access (R238). -/
def regionBad (c : State) (e : Nat) : Bool :=
  let l := c.reg Obj.GUARD_REGION_LIMIT e
  decide (bits l 0 36 < c.regBits Obj.GUARD_REGION_BASE e 0 36) || (bitAt l 39 && !bitAt l 38) || (bitAt l 41 && !bitAt l 40)
    || (List.range 64).any (fun a => c.regBit Obj.GUARD_REGION_WRITE e a && !c.regBit Obj.GUARD_REGION_READ e a)

/-- R238. -/
def regionFindings (s c : State) : List Finding :=
  ((c.elements Obj.GUARD_REGION_BASE).filter (fun e => c.regBit Obj.GUARD_REGION_BASE e 63)).flatMap (fun e => flag (regionBad c e) (regionObjs.map (fun a => regKey a e)) .range)
    ++ regionObjs.flatMap fun a => (changedOf s c a).flatMap fun e => flag (s.devState == 1) [regKey a e] .state

/-! ### Col engines, twins, slots (R287, R309, R332, R333, R447) -/

/-- R287, R309 and R332. -/
def colFindings (s c : State) : List Finding :=
  flag (decide (8 < c.reg Obj.COH_AGED_CONTEXTS + c.reg Obj.COH_SNOOP_CONTEXTS)) [regKey Obj.COH_AGED_CONTEXTS 0, regKey Obj.COH_SNOOP_CONTEXTS 0] .range
    ++ ((changedOf s c Obj.COL_SLICE_BASE).flatMap fun x =>
      flag (s.devState == 1) [regKey Obj.COL_SLICE_BASE x] .state ++ flag (s.roleState (c.reg Obj.COL_SLICE_BASE x) == 2) [regKey Obj.COL_SLICE_BASE x] .range)
    ++ flag (decide (c.reg Obj.COL_MAX_SLICES < c.reg Obj.COL_MIN_SLICES)) [regKey Obj.COL_MIN_SLICES 0, regKey Obj.COL_MAX_SLICES 0] .range

/-- R333. -/
def twinFindings (s c : State) : List Finding :=
  flag (changes s c Obj.TWIN_ENABLE 0 && s.devState != 0) [regKey Obj.TWIN_ENABLE 0] .state
    ++ if c.reg Obj.TWIN_ENABLE = 1 then
      ([14, 15].flatMap fun g => flag (c.split g != 0) [regKey Obj.LANE_GROUP_SPLIT g, regKey Obj.TWIN_ENABLE 0] .range)
        ++ [56, 60].flatMap fun p => flag (c.reg Obj.LANE_PORT_KIND p != 3) [regKey Obj.LANE_PORT_KIND p, regKey Obj.TWIN_ENABLE 0] .range
    else []

/-- R447. -/
def slotFindings (c : State) : List Finding :=
  let used := (List.range 32).filter (fun n => decide (c.reg Obj.SLOT_PORT n < 64))
  used.flatMap fun n =>
    flag (!c.isDownstream (c.reg Obj.SLOT_PORT n)) [regKey Obj.SLOT_PORT n] .range
      ++ flag (used.any (fun m => m < n && c.reg Obj.SLOT_PORT m == c.reg Obj.SLOT_PORT n))
        (keysOf Obj.SLOT_PORT (used.filter (fun m => c.reg Obj.SLOT_PORT m == c.reg Obj.SLOT_PORT n))) .range

/-! ### Tenancies and Glen channels (R362, R364, R366, R372, R383, R399, R403) -/

/-- A tenancy is Live once the commit is applied (R364). -/
def willLive (c : State) (t : Nat) : Bool := decide (t < 4096) && c.regBit Obj.TEN_CTRL t 31

/-- A binding from one tenancy to another touches one that is Live. -/
def bindTouches (s c : State) (a e : Nat) : Bool :=
  [s.reg a e, c.reg a e].any (fun t => decide (t < 4096) && s.tenState t != 0)

/-- R362 and R364 on the bindings of ports. -/
def portBindFindings (s c : State) : List Finding :=
  ((List.range 64).filter (fun p => c.reg Obj.TEN_PORT_BIND p != 0xFFFF)).flatMap (fun p =>
    flag (!c.isHost p || c.regBit Obj.MGP_FM_PORTS 0 p) [regKey Obj.TEN_PORT_BIND p] .range
      ++ flag (!willLive c (c.reg Obj.TEN_PORT_BIND p)) [regKey Obj.TEN_PORT_BIND p, regKey Obj.TEN_CTRL (c.reg Obj.TEN_PORT_BIND p)] .range)
    ++ (changedOf s c Obj.TEN_PORT_BIND).flatMap fun p => flag (s.devState == 1 && bindTouches s c Obj.TEN_PORT_BIND p) [regKey Obj.TEN_PORT_BIND p] .state

/-- R362 and R364 on the bindings of PBR agents. -/
def pbrBindFindings (s c : State) : List Finding :=
  ((List.range 64).filter (fun a => c.reg Obj.TEN_PBR_BIND a != 0xFFFF && c.agentValid a && c.agentPbr a)).flatMap (fun a =>
    flag (!willLive c (c.reg Obj.TEN_PBR_BIND a)) [regKey Obj.TEN_PBR_BIND a, regKey Obj.TEN_CTRL (c.reg Obj.TEN_PBR_BIND a)] .range)
    ++ (changedOf s c Obj.TEN_PBR_BIND).flatMap fun a => flag (s.devState == 1 && bindTouches s c Obj.TEN_PBR_BIND a) [regKey Obj.TEN_PBR_BIND a] .state

/-- What still names a tenancy that a commit removes (R366). -/
def stillNamed (c : State) (t : Nat) : List Nat :=
  keysOf Obj.TEN_PORT_BIND ((List.range 64).filter (fun p => c.reg Obj.TEN_PORT_BIND p == t))
    ++ keysOf Obj.TEN_PBR_BIND ((List.range 64).filter (fun a => c.reg Obj.TEN_PBR_BIND a == t))
    ++ ((c.elements Obj.TRACT_ALLOC_EXTENT).filter (fun i => c.allocValid i && !c.allocShared i && c.allocOwner i == t)).flatMap allocKeys
    ++ (if c.reg Obj.TRACT_SHARE_SETS t = 0 then [] else [regKey Obj.TRACT_SHARE_SETS t])

/-- R366 and R383 on `TEN.CTRL`. -/
def tenFindings (s c : State) : List Finding :=
  ((changedOf s c Obj.TEN_CTRL).filter (fun t => s.regBit Obj.TEN_CTRL t 31 != c.regBit Obj.TEN_CTRL t 31)).flatMap (fun t =>
    flag (s.devState == 1) [regKey Obj.TEN_CTRL t] .state
      ++ flag (!c.regBit Obj.TEN_CTRL t 31 && !(stillNamed c t).isEmpty) (regKey Obj.TEN_CTRL t :: stillNamed c t) .range)
    ++ (c.elements Obj.TEN_CTRL).flatMap fun t =>
      let p := c.regBits Obj.TEN_CTRL t 0 7
      flag (p != 127 && !(decide (p < 64) && c.reg Obj.TEN_PORT_BIND p == t)) [regKey Obj.TEN_CTRL t] .range

/-- R372 on one valid range: where its bitmap ends, which it meets, and how far a tract range goes. -/
def rangeFindings (c : State) (valid : List Nat) (e : Nat) : List Finding :=
  let keys (x : Nat) : List Nat := [regKey Obj.TEN_DLOG_RANGE x, regKey Obj.TEN_DLOG_MAP x]
  let w := c.reg Obj.TEN_DLOG_RANGE e
  flag (decide (0x3000000000 < bitmapBase c e + bitmapBytes c e)) (keys e) .range
    ++ (valid.filter (fun x => x < e && runsMeet (bitmapBase c x) (bitmapBytes c x) (bitmapBase c e) (bitmapBytes c e))).flatMap (fun x => [⟨keys x ++ keys e, .range⟩])
    ++ flag (bitAt w 62 && decide (0xFFFFFFFFF < bits w 0 52 + c.regBits Obj.TEN_DLOG_MAP e 32 32)) (keys e) .range

/-- R372. -/
def rangesFindings (c : State) : List Finding :=
  let valid := (c.elements Obj.TEN_DLOG_RANGE).filter (fun e => c.regBit Obj.TEN_DLOG_RANGE e 63)
  valid.flatMap (rangeFindings c valid)

/-- R399 and R403 on `GLEN.CHAN_CFG`. -/
def glenFindings (s c : State) : List Finding :=
  ((c.elements Obj.GLEN_CHAN_CFG).flatMap fun t =>
    let p := c.regBits Obj.GLEN_CHAN_CFG t 8 7
    flag (p != 127 && !(decide (p < 64) && c.reg Obj.TEN_PORT_BIND p == t)) [regKey Obj.GLEN_CHAN_CFG t] .range
      ++ flag (c.regBits Obj.GLEN_CHAN_CFG t 0 3 == 7) [regKey Obj.GLEN_CHAN_CFG t] .range)
    ++ (changedOf s c Obj.GLEN_CHAN_CFG).flatMap fun t => flag (s.devState == 1 && s.tenState t != 0) [regKey Obj.GLEN_CHAN_CFG t] .state

/-! ### All of it -/

/-- What stands against the staged set, in the order of the chapters (R62; the order is log entry 32). -/
def commitFindings (s : State) : List Finding :=
  let c := candidate s
  laneFindings c ++ edgeFindings s c ++ reserveFindings s c ++ schedFindings s c ++ passFindings s c ++ frontedFindings s c
    ++ allocsFindings s c ++ decodersFindings s c ++ regionFindings s c ++ colFindings s c ++ twinFindings s c
    ++ portBindFindings s c ++ pbrBindFindings s c ++ tenFindings s c ++ rangesFindings c ++ glenFindings s c ++ slotFindings c

end Sys2Proof.Machine
end

