-- ==== Sys2Proof/Machine/Commit.lean ====
section
/-! DEFINITION. A commit: its begin, and its application with what each chapter makes of the changed objects (R62 to R67,
R501). In what follows `s` is the state before the commit is applied, `c` the configuration that results, `t` the state
on the way. -/
namespace Sys2Proof.Machine

/-! ### Links that the commit takes down (R73, R106, R183, R187) -/

/-- The ports of a group go down: its split, a port kind of it, or its LINK clock changes (R73). -/
def groupChanges (s c : State) (g : Nat) : Bool :=
  changes s c Obj.LANE_GROUP_SPLIT g || (List.range 4).any (fun k => changes s c Obj.LANE_PORT_KIND (4 * g + k)) || linkClock s g != linkClock c g

/-- A Pass port goes down for a change of its receive reserve, or of the switch number (R183, R187). -/
def passChanges (s c : State) (p : Nat) : Bool :=
  changes s c Obj.PASS_SWITCH_NUMBER 0 || changes s c Obj.PASS_RX_RESERVE (2 * p) || changes s c Obj.PASS_RX_RESERVE (2 * p + 1)

/-- The commit takes port `p` down. -/
def portChanges (s c : State) (p : Nat) : Bool :=
  groupChanges s c (p / 4) || (s.isEdge p && changes s c Obj.EDGE_PORT_ROLE p) || (s.isPass p && passChanges s c p)

/-- A Pass port that a commit changes is down when the commit is applied (R183, R184): the 1 µs of LINK_CMD 2 began as the
commit did. -/
def passDown (t : State) (p : Nat) : State := if t.passState p = 0 then t else passLinkDown (setPassReason t p 10) p 0

/-- A port goes down while the commit is applied. -/
def portDown (t : State) (p : Nat) : State :=
  if t.isEdge p then (edgeLinkDown t p).disarm ⟨.fabricIdle, p, 0⟩ else if t.isPass p then passDown t p else t

/-- A Pass port that went down, or is new, trains; its group's reference must be there (R30, R183). -/
def portTrains (t : State) (p : Nat) : State := if t.lane.held.contains (p / 4) then t else letTrain t p

/-- The commit changes an object of the Pass chapter, or a port kind: ports in Held leave it (R183). -/
def freesHeld (s c : State) : Bool :=
  s.mgmt.staged.any (fun x => (x.addr == Obj.LANE_PORT_KIND || (decide (0x280000 ≤ x.addr) && decide (x.addr < 0x300000))) && changes s c x.addr (x.elem.getD 0))

/-- A port in Held goes to Detect. -/
def leaveHeld (t : State) (p : Nat) : State :=
  if t.isPass p && t.passState p == 6 then
    (let n := t.passAfterDown p; if n = 1 then (setPassState (endConflict t p) p 1).arm ⟨.detect, p, 0⟩ 12000000 else setPassState (endConflict t p) p n)
  else t

/-- An edge port whose limit changed passes through Recovery to its new rate; its link stays up (R73). -/
def speedChange (t : State) (p : Nat) : State :=
  if t.isEdge p && t.edgeUp p then
    (t.setRegBits Obj.LANE_PORT_STATUS p 0 3 (min ((assocGet t.edge.partnerRate p).getD 5) (t.reg Obj.LANE_PORT_MAX_RATE p))).emit (.toPort p "speed change" [])
  else t

/-! ### Agents (R105, R299) -/

/-- An agent whose entry changes is first declared dead (R105). -/
def agentLeaves (s : State) (t : State) (a : Nat) : State := if s.agentValid a then declareDead t a else t

/-- An agent's number is to become Unassigned once it is clean (R105). -/
def agentRetires (t : State) (a : Nat) : State :=
  let t1 := { t with coh := { t.coh with reborn := t.coh.reborn.filter (· != a), leaving := a :: t.coh.leaving.filter (· != a) } }
  if t1.cleanState a = 0 then { t1 with coh := { t1.coh with leaving := t1.coh.leaving.filter (· != a) } }.setReg Obj.EDGE_AGENT_STATE a 0 else t1

/-- An agent's number has a new entry: Live at once where it was Unassigned, else as R299 gives; or no entry any more. -/
def agentArrives (s : State) (t : State) (a : Nat) : State :=
  if t.agentValid a then
    (if t.agentState a = 0 then t.setReg Obj.EDGE_AGENT_STATE a 1
    else reviveAgent { t with coh := { t.coh with leaving := t.coh.leaving.filter (· != a) } } a)
  else if s.agentValid a then agentRetires t a else t

/-! ### Binding, PERST_L, slots (R97, R111, R113, R446, R447) -/

/-- The vPPBs of a logical device that is no longer Bindable are unbound, with managed hot-remove (R111). -/
def unbindLd (t : State) (e : Nat) : State :=
  t.withSome (t.boundVppb (e / 16) (e % 16)) fun v => unbindNow t (v / 64) (v % 64) true

/-- A staged element of `EDGE.VPPB` takes effect (R113): an unbind, a bind, or one after the other. -/
def vppbApply (c : State) (t : State) (e : Nat) : State :=
  let h := e / 64
  let v := e % 64
  let was := t.regBit Obj.EDGE_VPPB e 29
  let wants := c.regBit Obj.EDGE_VPPB e 29
  let managed := c.regBit Obj.EDGE_VPPB e 28
  let ld := vppbLd c e
  if wants && was && vppbLd t e == ld then t.putRegBit Obj.EDGE_VPPB e 28 managed
  else
    let t1 := if was then unbindNow t h v managed else t
    if wants then (bindNow (if vppbHolds (t1.reg Obj.EDGE_VPPB e) then unbound t1 h v else t1) h v (ld / 16) (ld % 16)).putRegBit Obj.EDGE_VPPB e 28 managed
    else if was then (if managed then t1 else t1.setRegBits Obj.EDGE_VPPB e 0 10 (c.regBits Obj.EDGE_VPPB e 0 10)) else t1.setReg Obj.EDGE_VPPB e (setBits (c.reg Obj.EDGE_VPPB e) 30 2 (t1.regBits Obj.EDGE_VPPB e 30 2))

/-- PERST_L of a port follows its role and its slot (R97, R447): deasserted 100 ms after the commit where power is good or
no slot serves the port; asserted where its slot gives no power. -/
def perstFollow (t : State) (p : Nat) : State :=
  if !t.isDownstream p then
    ({ t with edge := { t.edge with perstReleased := t.edge.perstReleased.filter (· != p) } }).disarm ⟨.perst, p, 0⟩
  else if !powerGood t p then (if t.edge.perstReleased.contains p || t.armed ⟨.perst, p, 0⟩ then assertPerst t p else t)
  else if t.edge.perstReleased.contains p || t.armed ⟨.perst, p, 0⟩ then t
  else t.arm ⟨.perst, p, 0⟩ 100000000

/-- The ports whose PERST_L a commit concerns: a changed role or kind, a slot given or taken. -/
def perstPorts (s c : State) : List Nat :=
  (List.range 64).filter (fun p => s.isDownstream p != c.isDownstream p || (c.isDownstream p && s.portSlot p != c.portSlot p))

/-- A slot has a port whose logical devices no vPPB holds: HOST_ON is 1 (R446). -/
def slotApply (t : State) (n : Nat) : State :=
  t.withSome (t.slotPort n) fun p => if (List.range 16).any (fun l => (t.boundVppb p l).isSome) then t else setHostOn t n true

/-! ### Basin and scheduler (R130, R133, R151) -/

/-- The shared pool and its use after a change of the reserves or of the ports (R130, R131, R133). -/
def resizeShared (t : State) : State :=
  let used := (List.range 72).foldl (fun n p => n + (t.used p 0 - t.reserve p 0) + (t.used p 1 - t.reserve p 1) + (t.used p 2 - t.reserve p 2)) 0
  (t.setReg Obj.BASIN_SHARED_CELLS 0 (262144 - reserveTotal t)).setReg Obj.BASIN_SHARED_USED 0 used

/-- A group is bound to a port: at once, or when its queues are empty (R151). -/
def rebindApply (c : State) (t : State) (g : Nat) : State :=
  let new := c.reg Obj.SCHED_GROUP_PORT g
  let live := t.groupPort g
  let active := at_ 31 (b2n (t.regBit Obj.SCHED_GROUP_STATE g 31))
  if t.groupBusy g && new != live && !t.linkDown live then
    (t.setReg Obj.SCHED_GROUP_PORT g live).setReg Obj.SCHED_GROUP_STATE g
      (active + at_ 30 1 + at_ 8 (if new = 0xFF then 127 else new) + (if live = 0xFF then 127 else live))
  else (t.setReg Obj.SCHED_GROUP_PORT g new).setReg Obj.SCHED_GROUP_STATE g active

/-- Pinned routes are computed anew (R189). -/
def pinsApply (t : State) (l : List Nat) : State :=
  let old := t.routeView
  let t1 := forEach l t (recomputeRoute true)
  if t1.routeView = old then t1 else sendRoutes t1

/-! ### Allocations (R231 to R234, R339, R343) -/

/-- The slot of an allocation is destroyed; for a mirrored Home allocation KEY_DESTROY goes to the twin (R219, R233, R343). -/
def destroyKey (s : State) (t : State) (i : Nat) : State :=
  let t1 := if s.mirrorsAlloc i && s.allocKeyed i then addRecord t 5 (s.allocFirst i) [] false else t
  if s.allocSlot i = 0 then t1 else (destroySlot t1 (s.allocSlot i) (decide (1024 ≤ s.allocFirst i))).setRegBits Obj.TRACT_ALLOC_STATE i 0 12 0

/-- A keyed allocation takes a new key, and the key of a mirrored one goes to the twin (R218, R233, R339). -/
def giveKey (t : State) (i : Nat) : State :=
  if t.allocKeyed i then
    let r := newKey t
    let t1 := r.1.setRegBits Obj.TRACT_ALLOC_STATE i 0 12 (r.2.getD 0)
    if t1.mirroring && t1.allocRole i == 0 && t1.allocMirrored i then sendKey t1 i else t1
  else t

/-- A release sweep is due for a tracked Home allocation, else the state is final at once (R234). -/
def releaseAlloc (s : State) (t : State) (i : Nat) (toFree : Bool) : State :=
  if s.allocTracked i && s.allocRole i == 0 then
    { t with guard := { t.guard with releases := t.guard.releases ++ [(⟨i, s.allocFirst i, s.allocCount i, if s.allocShared i then none else some (s.allocOwner i, s.tenGen (s.allocOwner i)), toFree⟩ : Release)] } }.setRegBits Obj.TRACT_ALLOC_STATE i 30 2 2
  else t.setRegBits Obj.TRACT_ALLOC_STATE i 30 2 (if toFree then 0 else 1)

/-- An allocation that is no longer valid: it is taken over and paired no more. -/
def dropAlloc (s : State) (t : State) (i : Nat) : State :=
  let t1 := releaseAlloc s (destroyKey s t i) i true
  { t1 with guard := { t1.guard with adopted := t1.guard.adopted.filter (· != i) }, twin := { t1.twin with paired := t1.twin.paired.filter (· != s.allocFirst i) } }

/-- A staged allocation takes effect (R233, R234). -/
def allocApply (s c : State) (t : State) (i : Nat) : State :=
  if c.allocValid i then
    (if !s.allocValid i then giveKey (t.setRegBits Obj.TRACT_ALLOC_STATE i 30 2 1) i
    else if ownerChanges s c i || eraseAsked s i then giveKey (releaseAlloc s (destroyKey s t i) i false) i
    else t)
  else if s.allocValid i then dropAlloc s t i else t

/-- All staged allocations take effect: one sweep for all that are released, and PAIR_INFO again (R234, R336). -/
def allocsApply (s c : State) (t : State) : State :=
  let l := (stagedAllocs s).filter (allocChanges s c)
  let t1 := forEach l t (allocApply s c)
  let t2 := if t1.guard.releases.length = s.guard.releases.length then t1 else pushAllSlices t1 1
  if l.isEmpty then t2 else sendPairInfo t2

/-- A decoder changes under a host's commit, which ends (R237). -/
def decoderApply (s : State) (t : State) (e : Nat) : State :=
  if s.decValid (e / 8) (e % 8) && s.regBit Obj.TRACT_DECODER_STATE e 31 then
    let k := 8 * t.agentPort (e / 8) + e % 8
    ({ t with edge := { t.edge with decoders := t.edge.decoders.map (fun (d : Nat × Decoder) => if d.1 = k then (d.1, { d.2 with committed := false }) else d) } }).putRegBit Obj.TRACT_DECODER_STATE e 31 false
  else t

/-! ### The region guard (R238, R245, R246) -/

/-- The tenancies whose region set the commit changes. -/
def regionTenancies (s c : State) : List Nat := ((regionObjs.flatMap (fun a => changedOf s c a)).map (· / 16)).eraseDups

/-- A region set changes: the open notice window closes, the version rises (R238, R246). -/
def regionApply (t : State) (n : Nat) : State :=
  let t1 := closeNotice t (.ten n)
  t1.setReg Obj.GUARD_SET_VERSION n ((t1.reg Obj.GUARD_SET_VERSION n + 1) % 65536)

/-- Two valid regions share a page on one switch. -/
def regionsMeet (t : State) (e f : Nat) : Bool :=
  t.regBits Obj.GUARD_REGION_BASE e 56 4 == t.regBits Obj.GUARD_REGION_BASE f 56 4
    && decide (t.regBits Obj.GUARD_REGION_BASE e 0 36 ≤ t.regBits Obj.GUARD_REGION_LIMIT f 0 36)
    && decide (t.regBits Obj.GUARD_REGION_BASE f 0 36 ≤ t.regBits Obj.GUARD_REGION_LIMIT e 0 36)

/-- The overlapping pairs of valid regions of one tenancy, as `GUARD.OVERLAP` shows them (R245). -/
def overlapPairs (t : State) : List Nat :=
  let valid := (t.elements Obj.GUARD_REGION_BASE).filter (fun e => t.regBit Obj.GUARD_REGION_BASE e 63)
  valid.flatMap fun e => (valid.filter (fun f => e < f && e / 16 == f / 16 && regionsMeet t e f)).map fun f => at_ 20 (f % 16) + at_ 16 (e % 16) + e / 16

/-- Overlaps are counted at each commit that changes a region (R64, R245). -/
def countOverlaps (t : State) : State :=
  let l := overlapPairs t
  let t1 := (t.setReg Obj.GUARD_OVERLAP_COUNT 0 (min 65535 l.length)).setReg Obj.STG_WARNINGS 0 (min 65535 (t.reg Obj.STG_WARNINGS + l.length))
  let t2 := forEach (List.range 64) t1 fun u n => u.setReg Obj.GUARD_OVERLAP n ((l[n]?).getD 0)
  if l.isEmpty then t2 else raise t2 8 1

/-- The region sets take effect. -/
def regionsApply (s c : State) (t : State) : State :=
  let l := regionTenancies s c
  if l.isEmpty then t else countOverlaps (forEach l t regionApply)

/-! ### Col engines and twins (R309, R333, R348, R465) -/

/-- A slice has a new base engine: it moves there; for a role being emptied it goes there when the role is filled again (R309, R320). -/
def baseApply (t : State) (x : Nat) : State :=
  let t1 := { t with col := { t.col with replaced := assocDrop t.col.replaced x
                                         job := t.col.job.map (fun j => { j with slices := j.slices.filter (· != x) }) } }
  let b := t1.reg Obj.COL_SLICE_BASE x
  if t1.roleState b = 1 then { t1 with col := { t1.col with job := t1.col.job.map (fun j => if j.role = b then { j with slices := j.slices ++ [x] } else j) } }
  else forceMove t1 x b

/-- `TWIN.ENABLE` is set or cleared in Start-up (R333, R348). -/
def enableApply (s : State) (t : State) : State :=
  if s.reg Obj.TWIN_ENABLE = t.reg Obj.TWIN_ENABLE then t else setPairState t (if t.reg Obj.TWIN_ENABLE = 1 then 1 else 0)

/-- The heartbeat begins with the first commit that leaves `TWIN.ENABLE` set after Steppe is Ready (R465). -/
def beginHeartbeat (t : State) : State :=
  if t.reg Obj.TWIN_ENABLE = 0 then t.disarm ⟨.heartbeat, 0, 0⟩
  else if t.reg Obj.STP_STATE = 2 ∧ t.armed ⟨.heartbeat, 0, 0⟩ = false ∧ t.basin.stopped = false then t.arm ⟨.heartbeat, 0, 0⟩ 10000
  else t

/-! ### Tenancies (R366, R372, R378) -/

/-- VALID of a tenancy is set or cleared (R366). -/
def tenancyApply (s c : State) (t : State) (n : Nat) : State :=
  match s.regBit Obj.TEN_CTRL n 31, c.regBit Obj.TEN_CTRL n 31 with
  | false, true => if t.tenState n = 0 then createTenancy t n else t
  | true, false => triggerReset t n 4
  | _, _ => t

/-- A range that becomes valid has its bitmap cleared before any record is folded into it (R372). -/
def rangeApply (s : State) (t : State) (e : Nat) : State :=
  if !s.regBit Obj.TEN_DLOG_RANGE e 63 && t.regBit Obj.TEN_DLOG_RANGE e 63 then t.putRegBit Obj.TEN_DLOG_STATE (e / 8) (8 + e % 8) true else t

/-! ### The application in order -/

/-- The addressing objects, which are applied after the response (R67). -/
def addressObjs : List Nat := [Obj.MGP_ETH_MODE, Obj.MGP_IP_MODE, Obj.MGP_IPV4_ADDR, Obj.MGP_IPV4_MASK, Obj.MGP_IPV4_GATEWAY]

/-- The objects whose registers their own operation writes. -/
def ownWriters : List Nat := [Obj.EDGE_VPPB, Obj.SCHED_GROUP_PORT]

/-- The registers of the staged objects that `pick` names take their staged values. -/
def writeStaged (s : State) (pick : Nat → Bool) (t : State) : State :=
  forEach (s.mgmt.staged.filter (fun x => pick x.addr)) t fun u x => plainWrite u x.addr (x.elem.getD 0) x.value

/-- What happens under the old configuration: agents leave, ports go down, logical devices are unbound. -/
def applyBefore (s c : State) : State :=
  let t1 := forEach (changedOf s c Obj.EDGE_AGENT_MAP) s (agentLeaves s)
  let t2 := forEach ((List.range 64).filter (portChanges s c)) t1 portDown
  forEach ((changedOf s c Obj.EDGE_LD_USE).filter (fun e => c.reg Obj.EDGE_LD_USE e != 1)) t2 unbindLd

/-- The new configuration stands, and the ports, agents and slots follow it. -/
def applyLinks (s c : State) (t : State) : State :=
  let t1 := forEach (stagedOf s Obj.SCHED_GROUP_PORT) t (rebindApply c)
  let t2 := if reservePorts s = reservePorts c ∧ changedOf s c Obj.BASIN_RESERVE = [] then t1 else resizeShared t1
  let t3 := forEach (changedOf s c Obj.SLOT_PORT) t2 slotApply
  let t4 := forEach (stagedOf s Obj.EDGE_VPPB) t3 (vppbApply c)
  let t5 := forEach (perstPorts s c) t4 perstFollow
  let t6 := forEach (changedOf s c Obj.EDGE_AGENT_MAP) t5 (agentArrives s)
  let t7 := if changedOf s c Obj.EDGE_AGENT_MAP = [] ∧ changes s c Obj.COH_REGIME_FORCE 0 = false then t6 else evalRegime t6
  let t8 := forEach ((changedOf s c Obj.LANE_PORT_MAX_RATE).filter (fun p => !portChanges s c p)) (enableApply s t7) speedChange
  let t9 := if freesHeld s c then forEach (List.range 64) t8 leaveHeld else t8
  let t10 := pinsApply t9 (changedOf s c Obj.PASS_ROUTE_PIN)
  let t11 := if changes s c Obj.PASS_HOP_LIMIT 0 then recomputeRoutes t10 false t10.routeView else t10
  let t12 := forEach (changedOf s c Obj.EDGE_LD_USE) t11 programDecoders
  forEach ((List.range 64).filter (fun p => groupChanges s c (p / 4) || passChanges s c p)) t12 portTrains

/-- Memory, the guard, the Col array and the tenancies follow the new configuration. -/
def applyRest (s c : State) (t : State) : State :=
  let t1 := allocsApply s c t
  let t2 := forEach (changedOf s c Obj.TRACT_DECODER) t1 (decoderApply s)
  let t3 := regionsApply s c t2
  let t4 := forEach (changedOf s c Obj.COL_SLICE_BASE) t3 baseApply
  let t5 := forEach (changedOf s c Obj.TEN_CTRL) t4 (tenancyApply s c)
  let t6 := forEach (changedOf s c Obj.TEN_DLOG_RANGE) t5 (rangeApply s)
  releaseHeld (beginHeartbeat t6)

/-- The writer of the record staged last stands as the last writer (R65). -/
def commitWriter (s t : State) : State :=
  t.withSome s.mgmt.staged.getLast? fun x => recordWriter t x.path x.port x.addr x.elem

/-- Every staged record is applied but the addressing objects, and the staging area is emptied (R62, R501). -/
def applyStaged (s : State) : State :=
  let c := candidate s
  let t1 := writeStaged s (fun a => !addressObjs.contains a && !ownWriters.contains a) (applyBefore s c)
  discardStaged (commitWriter s (applyRest s c (applyLinks s c t1)))

/-- The addressing objects that a commit changes, with their staged values (R67). -/
def newAddresses (s : State) : List (Nat × Nat) :=
  if addressObjs.any (fun a => !(changedOf s (candidate s) a).isEmpty) then
    (s.mgmt.staged.filter (fun x => addressObjs.contains x.addr)).map (fun x => (x.addr, x.value))
  else []

/-- The commit's record is answered, and its message goes on (R62); the addressing objects take their values once the
response has left (R67). -/
def answerCommit (t : State) (path : Path) (svc : Option Svc) (l : List (Nat × Nat)) : State :=
  let bytes := recordBytes 2 0 Obj.STG_COMMIT none []
  match svc with
  | none => readdress (t.emit (.record path bytes)) l
  | some v => resumeSvc t { v with todo := v.todo.tail, done := v.done ++ [bytes], readdress := v.readdress ++ l }

/-- `COMMIT_APPLIED` (R62, R67, R501). -/
def execCommitApplied (dt : Nat) (s : State) : Res := run dt s fun s =>
  match s.mgmt.commit with
  | none => s
  | some (path, svc) =>
    let t := applyStaged s
    answerCommit { t with mgmt := { t.mgmt with commit := none } } path svc (newAddresses s)

/-! ### The begin of a commit (R62, R501) -/

/-- A commit is refused: nothing is applied, the failing object and its cause are recorded (R62). -/
def commitFails (s : State) (f : Finding) : State :=
  ((s.setReg Obj.STG_STATUS 0 3).setReg Obj.STG_FAIL_ADDR 0 (keyWord (blame s f.keys))).setReg Obj.STG_FAIL_RESULT 0 (resultCode f.cause)

/-- The Pass ports that the commit takes down begin to go down: they send LINK_CMD 2 for 1 µs (R183, R184). -/
def announceDown (s : State) : State :=
  let c := candidate s
  forEach ((List.range 64).filter (fun p => s.isPass p && (s.passState p == 3 || s.passState p == 4) && portChanges s c p)) s fun t p => passGoDown t p 10 0

/-- A commit is accepted: it is counted and its application begins; its message waits for the end (R62, R63). -/
def commitBegins (s : State) (path : Path) : State :=
  let s1 := (s.setReg Obj.STG_STATUS 0 2).setReg Obj.STG_COMMIT_COUNT 0 ((s.reg Obj.STG_COMMIT_COUNT + 1) % 2 ^ 32)
  let s2 := ((s1.setReg Obj.STG_FAIL_ADDR 0 0).setReg Obj.STG_FAIL_RESULT 0 0).setReg Obj.STG_WARNINGS 0 0
  announceDown { s2 with mgmt := { s2.mgmt with commit := some (path, s2.mgmt.svc), svc := none } }

/-- Serve a write of `STG.COMMIT` (R62, R64, R500); an empty staging area is not validated. -/
def serveCommit (s : State) (path : Path) (r : Rec) : State :=
  if !mayServe s path .write r then s
  else
    let code := checkRecord s path .write r
    if code ≠ .ok then answer s path .write r code []
    else match (if s.mgmt.staged.isEmpty then [] else commitFindings s) with
      | [] => commitBegins s path
      | f :: _ => answer (commitFails s f) path .write r .commitFailed []

/-- `COMMIT` (R62): a write of 1 to `STG.COMMIT`. -/
def execCommit (dt : Nat) (path : Path) (s : State) : Res := run dt s fun s => serveCommit s path (writeRec Obj.STG_COMMIT none 1)

end Sys2Proof.Machine
end

