-- ==== Sys2Proof/Machine/GuardMem.lean ====
section
/-! DEFINITION. Memory access by the manager, and the end of a release sweep (R234, R242, R248, R272). -/
namespace Sys2Proof.Machine

/-- The line that `TRACT.MEM_ADDR` names. -/
def memKey (s : State) : Nat := s.ownSwitch * 2 ^ 41 + s.reg Obj.TRACT_MEM_ADDR / 64

/-- The number by which the manager's memory access is known among device-side requesters. -/
abbrev memId : Nat := 0xFFFF

/-- The guard's verdict on a privileged access to a line: reachability, then the region set or the default map (R239, R241). -/
def privGuard (s : State) (k : Nat) (write : Bool) : Option Nat :=
  (step1 s k).or (privCheck s (keyHome k) (keyTract k) (keyPage k) write)

/-- `TRACT.MEM_ADDR` takes an address; an access of the old one that has begun is given up. -/
def setMemAddr (s : State) (v : Nat) : State :=
  let s1 := abandonDevice s memId
  plainWrite { s1 with guard := { s1.guard with memWait := none } } Obj.TRACT_MEM_ADDR 0 v

/-- `MEM_ADDR_WRITE` (R248). -/
def execMemAddrWrite (dt : Nat) (path : Path) (value : Nat) (s : State) : Res := run dt s fun s =>
  serveWrite s path (writeRec Obj.TRACT_MEM_ADDR none value) (fun t => setMemAddr t value)

/-- A read that fails the guard returns zeros (R242). -/
def memReadFails (s : State) (reason : Nat) : State := ((guardFail s none reason false).putRegBit Obj.TRACT_MEM_STATUS 0 0 true).putRegBit Obj.TRACT_MEM_STATUS 0 2 false

/-- The status after a read that was served. -/
def memReadDone (s : State) (poison : Bool) : State :=
  (s.putRegBit Obj.TRACT_MEM_STATUS 0 0 false).putRegBit Obj.TRACT_MEM_STATUS 0 2 poison

/-- The read record after the directory has been asked: served when nothing is in the way. -/
def memDataOpened (o : State × Option Bool) (path : Path) (op : RecOp) (r : Rec) (k : Nat) : State :=
  if o.2.isSome then
    serveRead (readKey o.1 k).1 path op r (fun _ _ _ => (readKey o.1 k).2.data) (fun t => memReadDone t (readKey o.1 k).2.poison)
  else o.1

/-- The read record of key `k` with the guard's verdict: a coherent read; while holders are snooped or the line is busy
it is not answered yet. -/
def memDataGuarded (verdict : Option Nat) (s : State) (path : Path) (op : RecOp) (r : Rec) (k : Nat) : State :=
  match verdict with
  | some reason => serveRead s path op r (fun _ _ _ => List.replicate 64 0) (fun t => memReadFails t reason)
  | none => memDataOpened (deviceOpen s (deviceMsg s 3 k memId 0 [] false)) path op r k

/-- A read of `TRACT.MEM_DATA` that passes the checks of a record. -/
def memDataServe (s : State) (path : Path) (op : RecOp) (r : Rec) : State :=
  memDataGuarded (privGuard s (memKey s) false) s path op r (memKey s)

/-- A read record of `TRACT.MEM_DATA`. -/
def memDataRead (s : State) (path : Path) (op : RecOp) (r : Rec) : State :=
  if mayServe s path op r && checkRecord s path op r == .ok then memDataServe s path op r
  else serveRead s path op r (fun _ _ _ => []) id

/-- `MEM_DATA_READ` (R242, R248, R272). -/
def execMemDataRead (dt : Nat) (path : Path) (s : State) : Res := run dt s fun s => memDataRead s path .read (readRec Obj.TRACT_MEM_DATA none)

/-- The manager's write is visible (R273): its record is answered. -/
def memPutDone (s : State) (path : Path) (r : Rec) (eff : State → State) : State :=
  serveWrite s path r (fun t => (eff t).putRegBit Obj.TRACT_MEM_STATUS 0 1 false)

/-- The write record after the directory has been asked: the line is written when nothing is in the way, and the record
answered, for a mirrored line after the Saddle acknowledgement (R22, R273). -/
def memPutOpened (o : State × Option Bool) (path : Path) (r : Rec) (m : CohMsg) : State :=
  match o.2 with
  | none => o.1
  | some had =>
    if o.1.mirroredLine m.key then
      (let s1 := deviceWrite o.1 m had
       { s1 with guard := { s1.guard with memWait := some (m.key, m.data) } })
    else memPutDone o.1 path r (fun t => deviceWrite t m had)

/-- The write record with the guard's verdict and the write it makes; a write that has been accepted before is answered
once its mirror write is acknowledged. -/
def memPutGuarded (verdict : Option Nat) (s : State) (path : Path) (r : Rec) (m : CohMsg) : State :=
  match verdict with
  | some reason => serveWrite s path r (fun t => (guardFail t none reason true).putRegBit Obj.TRACT_MEM_STATUS 0 1 true)
  | none =>
    if s.guard.memWait = some (m.key, m.data) then
      (if s.mirrorPending m.key && s.mirroring then s else memPutDone { s with guard := { s.guard with memWait := none } } path r id)
    else memPutOpened (deviceOpen s m) path r m

/-- A write of `TRACT.MEM_DATA` that passes the checks of a record. -/
def memDataPut (s : State) (path : Path) (r : Rec) : State :=
  memPutGuarded (privGuard s (memKey s) true) s path r (deviceMsg s 5 (memKey s) memId 0 (padTo r.data 64) false)

/-- A write record of `TRACT.MEM_DATA`. -/
def memDataWrite (s : State) (path : Path) (r : Rec) : State :=
  if mayServe s path .write r && checkRecord s path .write r == .ok then memDataPut s path r else serveWrite s path r id

/-- `MEM_DATA_WRITE` (R242, R248, R272). -/
def execMemDataWrite (dt : Nat) (path : Path) (value : Nat) (s : State) : Res := run dt s fun s =>
  memDataWrite s path (writeRec Obj.TRACT_MEM_DATA none value)

/-- An allocation whose release sweep has ended is Free, or Live with its new owner. -/
def releaseEnds (s : State) (r : Release) : State := s.setRegBits Obj.TRACT_ALLOC_STATE r.alloc 30 2 (if r.toFree then 0 else 1)

/-- `RELEASE_SWEEP_DONE` (R234): every item of the sweep has run, and every one of its snoops has closed. -/
def execReleaseSweepDone (dt : Nat) (s : State) : Res := run dt s fun s =>
  if s.guard.releases = [] ∨ s.itemsLeft 1 = true ∨ s.coh.ctxs.any (fun c => c.work == .release && (s.releasingAlloc (keyTract c.key)).isSome) = true then s
  else forEach s.guard.releases { s with guard := { s.guard with releases := [] } } releaseEnds

end Sys2Proof.Machine
end

