-- ==== Sys2Proof/Machine/Progress.lean ====
section
/-! DEFINITION. Forward progress at the homes (11_races_and_progress.md): hold windows, the aged table, silent and dead
holders, sweep passes. -/
namespace Sys2Proof.Machine

/-- `HOLD_WINDOW_EXPIRY` (R283). -/
def execHoldWindowExpiry (dt col key : Nat) (s : State) : Res := run dt s fun s =>
  { s with coh := { s.coh with holds := s.coh.holds.filter (fun h => !(h.engine == col && h.key == key && decide (h.until_ ≤ s.now))) } }

/-- The request of an aged entry on its way to its engine. -/
def agedFlight (s : State) (a : AgedEntry) : Option CohMsg :=
  (s.coh.flight.find? (fun f => f.hop == .engine a.engine && f.msg.kind ≤ 9 && agedIs a.engine (s.requesterOf f.msg) f.msg a)).map (fun f => f.msg)

/-- `AGED_SERVE` (R286): the home holds no request, so the line's oldest aged request is served as it comes again. -/
def execAgedServe (dt col key : Nat) (s : State) : Res := run dt s fun s =>
  s.withSome (s.agedOf col key).head? fun a =>
    if s.ctxOn false key || (s.holdOn col key).isSome then s
    else s.withSome (agedFlight s a) fun m => requestArrives m.kind col m s

/-- `AGED_ENTRY_DROP` (R286): the requester has not sent its request again within 20 µs. -/
def execAgedEntryDrop (dt col key : Nat) (requester : Requester) (tag : Nat) (s : State) : Res := run dt s fun s =>
  let it (a : AgedEntry) : Bool := a.engine == col && a.key == key && a.who == requester && a.tag == tag && decide (a.last + 20000 ≤ s.now)
  if s.coh.aged.any it then ({ s with coh := { s.coh with aged := s.coh.aged.filter (fun a => !it a) } }).count1 Obj.COH_AGED_DROPPED 0 else s

/-! ### Silent holders (R294, R297, R298) -/

/-- A snoop's timeout in ns: twice as long toward a switch. -/
def snoopLimit (s : State) : Requester → Nat
  | .switch _ => 2 * s.reg Obj.COH_SNOOP_TIMEOUT * 1000
  | _ => s.reg Obj.COH_SNOOP_TIMEOUT * 1000

/-- The line of an expired snoop is lost, and the context goes on without the holder (R294, R297, R300). -/
def expireSnoop (s : State) (c : Ctx) (x : Snoop) (cause : Nat) : State :=
  let s1 := raise (s.count1 Obj.COH_SNOOP_TIMEOUTS 0) 9 17
  let s2 := if c.work = .loose then s1 else match c.proxy, x.holder with
    | true, .agent a => loseAtProxy s1 c.engine c.key a
    | _, h => loseLine s1 c.engine cause c.key h
  settle (closeSnoop s2 c.proxy c.key x.holder)

/-- A snoop passes its timeout without an answer (R294). -/
def lateSnoop (s : State) (c : Ctx) (x : Snoop) : State :=
  match x.holder with
  | .agent a =>
    if s.sweepRegime then
      (if s.agentState a = 1 ∧ x.late = false then
        raise (putCtx (s.count1 Obj.COH_SNOOP_TIMEOUTS 0) { c with snoops := c.snoops.map (fun y => if y = x then { y with late := true } else y) }) 9 16
      else s)
    else expireSnoop (s.putRegBit Obj.COH_AGENT_SUSPECT 0 a true) c x 1
  | .switch _ => expireSnoop s c x 2
  | .device => s

/-- `SNOOP_TIMEOUT` (R294). -/
def execSnoopTimeout (dt col key : Nat) (holder : Requester) (s : State) : Res := run dt s fun s =>
  s.withSome (s.coh.ctxs.find? (fun c => c.engine == col && c.key == key && c.snoops.any (fun x => x.holder == holder))) fun c =>
    s.withSome (c.snoops.find? (fun x => x.holder == holder)) fun x => if x.due + snoopLimit s holder ≤ s.now then lateSnoop s c x else s

/-- A Live agent has been silent for `COH.SUSPECT_LIMIT` since a snoop was sent to it. -/
def silentTooLong (s : State) (a : Nat) : Bool :=
  s.coh.ctxs.any (fun c => c.snoops.any (fun x => x.holder == .agent a && x.sent && decide (x.due + s.reg Obj.COH_SUSPECT_LIMIT * 1000000 ≤ s.now)))

/-- `SUSPECT_LIMIT` (R294, R295). -/
def execSuspectLimit (dt agent : Nat) (s : State) : Res := run dt s fun s =>
  if s.sweepRegime && s.agentState agent == 1 && silentTooLong s agent then declareDead s agent else s

/-- `DECLARE_DEAD` (R295). -/
def execDeclareDead (dt : Nat) (path : Path) (value : Nat) (s : State) : Res := run dt s fun s =>
  serveWrite s path (writeRec Obj.COH_DECLARE_DEAD none value) (fun t => declareDead t (value % 256))

/-! ### Sweep passes (R296, R299) -/

/-- `SWEEP_PASS_START` (R296): a pass begins for the agents that await one, when none runs. -/
def execSweepPassStart (dt : Nat) (s : State) : Res := run dt s fun s =>
  if s.coh.sweeping ≠ [] ∨ s.coh.awaiting = [] then s
  else
    let s1 := { s with coh := { s.coh with sweeping := s.coh.awaiting, awaiting := [] } }
    let s2 := forEach s1.coh.sweeping s1 fun t a => (t.setRegBits Obj.COH_SWEEP_STATE a 30 2 2).setRegBits Obj.COH_SWEEP_STATE a 0 7 0
    pushAllSlices s2 0

/-- An agent's pass has ended: it is clean, and its number becomes Live, or Unassigned, where that waited (R105, R299). -/
def passEnded (s : State) (a : Nat) : State :=
  let s1 := (s.setRegBits Obj.COH_SWEEP_STATE a 8 8 (min 255 (s.regBits Obj.COH_SWEEP_STATE a 8 8 + 1))).setRegBits Obj.COH_SWEEP_STATE a 0 7 100
  let s2 := s1.setRegBits Obj.COH_SWEEP_STATE a 30 2 0
  if s2.coh.leaving.contains a then { s2 with coh := { s2.coh with leaving := s2.coh.leaving.filter (· != a) } }.setReg Obj.EDGE_AGENT_STATE a 0
  else if s2.coh.reborn.contains a then makeLive s2 a
  else s2

/-- `SWEEP_PASS_END` (R296, R299): every sweep item of the pass has run. -/
def execSweepPassEnd (dt : Nat) (s : State) : Res := run dt s fun s =>
  if s.coh.sweeping = [] ∨ s.itemsLeft 0 = true then s
  else forEach s.coh.sweeping { s with coh := { s.coh with sweeping := [] } } passEnded

end Sys2Proof.Machine
end

