-- ==== Sys2Proof/Machine/Windows.lean ====
section
/-! DEFINITION. The host's accesses to BAR 2/3 of the presented function, whatever register they meet: the Glen window, the
mailbox window, the telemetry window and the MSI-X table (R114, R377, R385, R386, R435). -/
namespace Sys2Proof.Machine

/-! ### Writes -/

/-- A write of CH_CONTROL (R386, R390): at most one bit acts. -/
def writeControl (s : State) (port t v : Nat) : State :=
  match v % 8 with
  | 0 => s.emit (.barDone port)
  | 1 => startChannel s port t
  | 2 => (stopChannel s t).emit (.barDone port)
  | 4 => (ringChannel s t).emit (.barDone port)
  | _ => s.emit (.barAbort port)

/-- A channel takes a new CH_IRQ_STATUS and CH_IRQ_ENABLE; held vectors that are no longer due are dropped (R378, R386). -/
def setChanIrq (s : State) (t status enable : Nat) : State :=
  dropHeld (s.setChan t { s.chan t with irqStatus := status, irqEnable := enable }) t

/-- A write to the Glen window, whose channel is `t` (R386). -/
def glenWrite (s : State) (a : WindowWrite) (t : Nat) : State :=
  let c := s.chan t
  if 0x1000 ≤ a.offset then writeDescArea s a t
  else if 8 ≤ a.offset ∧ a.offset < 16 then writePointer s a t
  else if 0x20 ≤ a.offset then s.emit (.barDone a.port)
  else if reg32 a 4 then writeControl s a.port t a.value
  else if reg32 a 0x10 then (setChanIrq s t (c.irqStatus - Nat.land c.irqStatus a.value) c.irqEnable).emit (.barDone a.port)
  else if reg32 a 0x14 then (setChanIrq s t c.irqStatus (a.value % 16)).emit (.barDone a.port)
  else s.emit (.barAbort a.port)

/-- A pair takes a new IN_MASK. -/
def setInMask (s : State) (t v : Nat) : State := s.setPair t { s.pair t with inMask := v % 2 ^ 32 }

/-- A pair takes a new IRQ_STATUS and IRQ_ENABLE; held vectors that are no longer due are dropped (R378). -/
def setPairIrq (s : State) (t status enable : Nat) : State :=
  dropHeld (s.setPair t { s.pair t with irqStatus := status, irqEnable := enable }) t

/-- A write to the mailbox window, whose pair is `t` (R377). -/
def boxWrite (s : State) (a : WindowWrite) (t : Nat) : State :=
  let q := s.pair t
  if a.offset < 0x40100 then s.emit (.barAbort a.port)
  else if a.offset < 0x40200 then writeOut s a t
  else if 0x40220 ≤ a.offset then s.emit (.barDone a.port)
  else if reg32 a 0x40208 then (setInMask s t a.value).emit (.barDone a.port)
  else if reg32 a 0x4020C then writeTakeReg s a t
  else if reg32 a 0x40214 then writeDoorbell s a t
  else if reg32 a 0x40218 then (setPairIrq s t (q.irqStatus - Nat.land q.irqStatus a.value) q.irqEnable).emit (.barDone a.port)
  else if reg32 a 0x4021C then (setPairIrq s t q.irqStatus (a.value % 16)).emit (.barDone a.port)
  else s.emit (.barAbort a.port)

/-- The key of a byte of a port's MSI-X table. -/
def msixKey (port offset : Nat) : Nat := 2 ^ 18 * port + offset % 2 ^ 18

/-- A write to the MSI-X table and pending-bit array: its bytes are kept (log entry 6). -/
def msixWrite (s : State) (a : WindowWrite) : State :=
  { s with edge := { s.edge with msix := sparsePutBytes (fun _ => 0) s.edge.msix (msixKey a.port a.offset) (leBytes a.value a.width) } }.emit (.barDone a.port)

/-- A host's write to BAR 2/3 (R114): the Glen window, the mailbox window, the telemetry window, which aborts every write
(R435), the MSI-X table. -/
def windowWrite (s : State) (a : WindowWrite) : State :=
  if !s.isHost a.port then s
  else if a.offset < 0x40000 then glenWindow s a.port (glenWrite s a)
  else if a.offset < 0x80000 then mailboxWindow s a.port (boxWrite s a)
  else if a.offset < 0xC0000 then s.emit (.barAbort a.port)
  else if a.offset < 0x100000 then msixWrite s a
  else s

/-! ### Reads -/

/-- The bytes an access of `width` at `offset` takes from the 64-bit word that holds them. -/
def partWord (word offset width : Nat) : Nat := bits word (8 * (offset % 8)) (8 * width)

/-- `GLEN.CHAN_STATUS` with the tenancy's present generation. -/
def chanStatus (s : State) (t : Nat) : Nat := setBits (s.reg Obj.GLEN_CHAN_STATUS t) 0 16 (s.tenGen t)

/-- The 64-bit word of the Glen window at an aligned offset below 0x1000: CH_CONTROL reads 0. -/
def glenWord (s : State) (t offset : Nat) : Nat :=
  match offset / 8 with
  | 0 => chanStatus s t
  | 1 => s.reg Obj.GLEN_CHAN_POINTER t
  | 2 => (s.chan t).irqStatus + at_ 32 (s.chan t).irqEnable
  | 3 => (s.chan t).bytes
  | _ => 0

/-- An access of this offset and width meets a 64-bit register, or a 32-bit one. -/
def glenReadOk (offset width : Nat) : Bool :=
  aligned48 offset width && (width == 4 || decide (0x18 ≤ offset) || offset == 8)

/-- A read of the Glen window, none where it is aborted (R386). -/
def glenRead (s : State) (t offset width : Nat) : Option Nat :=
  if 0x20 ≤ offset ∧ offset < 0x1000 then some 0
  else if !glenReadOk offset width then none
  else if offset < 0x20 then some (partWord (glenWord s t offset) offset width)
  else some (ofLe (s.sysBytes (descArea t + offset) width))

/-- The GENERATION a pair shows: 0 for the FM pair (R382). -/
def pairGen (s : State) (t : Nat) : Nat := if t = fmPair then 0 else s.tenGen t

/-- IN_STATUS of a pair (R377). -/
def inStatus (s : State) (t : Nat) : Nat :=
  at_ 31 (b2n (s.inFull t)) + at_ 30 (b2n (t != fmPair && s.tenState t == 2)) + pairGen s t

/-- A 32-bit register of the mailbox window; the write-only ones read 0 (R377). -/
def boxReg (s : State) (t offset : Nat) : Nat :=
  let q := s.pair t
  match offset with
  | 0x40200 => inStatus s t
  | 0x40204 => q.inPending
  | 0x40208 => q.inMask
  | 0x40210 => at_ 31 (b2n (s.outFull t))
  | 0x40218 => q.irqStatus
  | 0x4021C => q.irqEnable
  | _ => 0

/-- A read of the mailbox window, none where it is aborted (R377): inbound data only while Full. -/
def boxRead (s : State) (t offset width : Nat) : Option Nat :=
  if 0x40220 ≤ offset then some 0
  else if !aligned48 offset width then none
  else if offset < 0x40100 then some (if s.inFull t then ofLe (s.sysBytes (inboxAddr t + (offset - 0x40000)) width) else 0)
  else if offset < 0x40200 then some (ofLe (s.sysBytes (outboxAddr t + (offset - 0x40100)) width))
  else if width = 4 then some (boxReg s t offset) else none

/-- The counter objects of the telemetry window from 0x8_0180 on, in the order of R435. -/
def windowCounters : List Nat :=
  [Obj.GLEN_BYTES, Obj.GLEN_DESCRIPTORS, Obj.GLEN_FAULTS, Obj.GUARD_FAILED_WRITES, Obj.GUARD_POISONED_READS, Obj.TEN_RESETS,
   Obj.TEN_STALE_GEN, Obj.TEN_ABANDONED, Obj.MBX_REJECTED, Obj.MBX_STALE]

/-- The counter word of tenancy `t` at word `n` from 0x8_0100 on, 0 where none is listed. -/
def windowCounter (s : State) (t n : Nat) : Nat :=
  if n < 8 then s.reg Obj.SCHED_TX_MSGS (8 * t + n)
  else if n < 16 then s.reg Obj.SCHED_TX_BYTES (8 * t + (n - 8))
  else match windowCounters[n - 16]? with
    | some a => s.reg a t
    | none => 0

/-- The 64-bit word of the telemetry window at an aligned offset (R435): counters read 0 while COUNTERS is clear. -/
def tlmWord (s : State) (t offset : Nat) : Nat :=
  let counters := s.regBit Obj.TEN_CTRL t 30
  if offset = 0x80000 then s.timeBase
  else if offset = 0x80008 then s.reg Obj.STAT_INTERVAL_SEQ + at_ 32 (b2n counters)
  else if 0x80100 ≤ offset ∧ counters = true then windowCounter s t ((offset - 0x80100) / 8)
  else 0

/-- A read of the telemetry window, none where it is aborted (R435). -/
def tlmWindowRead (s : State) (t offset width : Nat) : Option Nat :=
  if aligned48 offset width then some (partWord (tlmWord s t (offset - offset % 8)) offset width) else none

/-- A read of the MSI-X table. -/
def msixRead (s : State) (port offset width : Nat) : Nat := ofLe (sparseGetRange (fun _ => 0) s.edge.msix (msixKey port offset) width)

/-- What a host's read of BAR 2/3 returns, none where it completes with Completer Abort. On a port bound to no tenancy the
windows read 0; the mailbox window of a fabric-manager port serves the FM pair (R382). -/
def windowValue (s : State) (port offset width : Nat) : Option Nat :=
  let ten (f : Nat → Option Nat) : Option Nat := (s.portTenancy port).elim (some 0) f
  if offset < 0x40000 then ten (fun t => glenRead s t offset width)
  else if offset < 0x80000 then (if s.isFmPort port then boxRead s fmPair offset width else ten (fun t => boxRead s t offset width))
  else if offset < 0xC0000 then (if aligned48 offset width then ten (fun t => tlmWindowRead s t offset width) else none)
  else some (msixRead s port offset width)

/-- The function block completes a host's read through the Basin (R18, R19). -/
def completeRead (s : State) (port data : Nat) (o : Out) : State := sendHost s functionPort port .rsp .completion (s.portTenancy port) data o

/-- The Steppe address that an offset of the windows shows, where it shows one. -/
def windowLine (s : State) (port offset : Nat) : Option Nat :=
  let pair := if s.isFmPort port then some fmPair else s.portTenancy port
  if 0x1000 ≤ offset ∧ offset < 0x40000 then (s.portTenancy port).map (fun t => descArea t + offset)
  else if 0x40000 ≤ offset ∧ offset < 0x40100 then (pair.filter s.inFull).map (fun t => inboxAddr t + (offset - 0x40000))
  else if 0x40100 ≤ offset ∧ offset < 0x40200 then pair.map (fun t => outboxAddr t + (offset - 0x40100))
  else none

/-- The read of Steppe memory behind a read of the windows does what a line read does (R204). -/
def windowTouch (s : State) (port offset width : Nat) : State := s.withSome (windowLine s port offset) fun a => (s.sysRead a width).1

/-- A host's read of BAR 2/3 (R114). -/
def windowRead (s : State) (port offset width : Nat) : State :=
  if !s.isHost port || decide (0x100000 ≤ offset) then s
  else match windowValue s port offset width with
    | some v => completeRead (windowTouch s port offset width) port width (.barRead port v)
    | none => completeRead s port 0 (.barAbort port)

end Sys2Proof.Machine
end

