-- ==== Sys2Proof/Machine/Access.lean ====
section
/-! DEFINITION. A Read, Read staged or Write record of any object, and an access to any window register (R45, R61): each
object whose write or read does more than its register has its own effect here, the one its own command has. -/
namespace Sys2Proof.Machine

/-! ### What a write of an object does -/

/-- The bucket of a policer that is written is filled to its burst (R66, R160). -/
def policerEffect (a v : Nat) (s : State) : State :=
  let s1 := plainWrite s a 0 v
  if a = Obj.MGP_KDP_POLICE_RATE ∨ a = Obj.MGP_KDP_POLICE_BURST then
    { s1 with mgmt := { s1.mgmt with kdpBucket := ⟨s1.reg Obj.MGP_KDP_POLICE_BURST * 1000000000, s1.now⟩ } }
  else { s1 with basin := { s1.basin with samplePolice := ⟨s1.reg Obj.SCHED_SAMPLE_POLICE_BURST * 1000000000, s1.now⟩ } }

/-- Objects of the management, lane and edge chapters. -/
def linkObjEffect (a e v : Nat) : Option (State → State) :=
  if a = Obj.STG_DISCARD then some discardStaged
  else if a = Obj.MGP_KDP_POLICE_RATE ∨ a = Obj.MGP_KDP_POLICE_BURST then some (policerEffect a v)
  else if a = Obj.LANE_SWAP_CMD then some (fun t => swapCmdWrite t e v)
  else if a = Obj.LANE_PORT_TEST then some (fun t => portTestWrite t e v)
  else if a = Obj.LANE_TX_FFE then some (fun t => ffeWrite t e v)
  else if a = Obj.LANE_ADAPT_CTRL then some (fun t => adaptCtrlWrite t e v)
  else if a = Obj.LANE_PRBS_CTRL then some (fun t => prbsCtrlWrite t e v)
  else if a = Obj.LANE_MARGIN_REQ then some (fun t => marginReqWrite t e v)
  else if a = Obj.EDGE_IDE_CTRL then some (fun t => ideCtrlWrite t e v)
  else none

/-- A write of a sampler's N restarts its count (R143). -/
def sampleNEffect (e v : Nat) (s : State) : State :=
  let s1 := plainWrite s Obj.BASIN_SAMPLE_N e v
  { s1 with basin := { s1.basin with sampleCount := assocDrop s1.basin.sampleCount e } }

/-- Objects of the Basin, scheduler and Pass chapters. -/
def switchObjEffect (a e v : Nat) : Option (State → State) :=
  if a = Obj.BASIN_LOW_FREE then some (fun t => t.setReg Obj.BASIN_LOW_FREE 0 (t.reg Obj.BASIN_FREE_CELLS))
  else if a = Obj.BASIN_SAMPLE_N then some (sampleNEffect e v)
  else if a = Obj.SCHED_SAMPLE_POLICE_RATE ∨ a = Obj.SCHED_SAMPLE_POLICE_BURST then some (policerEffect a v)
  else if a = Obj.SCHED_QUEUE_SHAPER then some (shaperEffect false e v)
  else if a = Obj.SCHED_PORT_SHAPER then some (shaperEffect true e v)
  else if a = Obj.PASS_ERRORS then some (passErrorsEffect e v)
  else if a = Obj.PASS_ROUTE_RECOMPUTE then some (fun t => recomputeRoutes t true t.routeView)
  else none

/-- A pin of a slice abandons a steal or a return of it that drains (R322). -/
def pinEffect (x v : Nat) (s : State) : State :=
  let s1 := plainWrite s Obj.COL_SLICE_PIN x v
  match s1.moveOf x with
  | some m => if v = 1 ∧ m.why ≠ .forced ∧ m.ready = false then abandonMove s1 x else s1
  | none => s1

/-- Objects of the memory, guard, coherence, Col and twin chapters. -/
def memoryObjEffect (a e v : Nat) : Option (State → State) :=
  if a = Obj.STP_SPARE_CMD then some (fun t => queueRow t (bits v 20 7) (bits v 16 4) (bits v 0 16))
  else if a = Obj.STP_SANITIZE then some (fun t => forEach t.liveSlots t fun u k => destroySlot u k (slotFronted u k))
  else if a = Obj.STP_XLATE_ADDR then some (fun t => (t.setReg Obj.STP_XLATE_ADDR 0 v).setReg Obj.STP_XLATE_RESULT 0 (xlateWord v))
  else if a = Obj.TRACT_MEM_ADDR then some (fun t => setMemAddr t v)
  else if a = Obj.COH_DECLARE_DEAD then some (fun t => declareDead t (v % 256))
  else if a = Obj.COL_SPARE_CMD then some (fun t => qualify t (v % 256) 4 [])
  else if a = Obj.COL_SLICE_PIN then some (pinEffect e v)
  else if a = Obj.TWIN_DECLARE_LOST then some (fun t => beginTakeover t true)
  else if a = Obj.TWIN_ALIAS_END then some endAlias
  else none

/-- An outbound mailbox's mask changes: its bit of `MBX.SUMMARY` is set while a message in it has a pending bit outside
the mask (R380). -/
def outMaskEffect (t v : Nat) (s : State) : State :=
  let s1 := plainWrite s Obj.MBX_OUT_MASK t v
  if !s1.outFull t then s1
  else if Nat.land (s1.outPending t) (2 ^ 32 - 1 - v % 2 ^ 32) = 0 then summaryClear s1 t
  else summarySet s1 (t / 64) (t % 64)

/-- A write of `MBX.SUMMARY`: elements 64..127 clear where 1 is written, the others clear themselves (R380). -/
def summaryEffect (w v : Nat) (s : State) : State :=
  if 64 ≤ w then s.setReg Obj.MBX_SUMMARY w (s.reg Obj.MBX_SUMMARY w - Nat.land (s.reg Obj.MBX_SUMMARY w) v) else s

/-- Objects of the tenancy and Glen chapters. -/
def tenantObjEffect (a e v : Nat) : Option (State → State) :=
  if a = Obj.TEN_RESET then some (fun t => triggerReset t v 3)
  else if a = Obj.MBX_OUT_TAKE then some (fun t => takeOut t e)
  else if a = Obj.MBX_OUT_MASK then some (outMaskEffect e v)
  else if a = Obj.MBX_SUMMARY then some (summaryEffect e v)
  else if a = Obj.GLEN_CHAN_RATE then some (chanRateEffect e v)
  else if a = Obj.GLEN_CHAN_CMD then some (fun t => stopChannel t e)
  else none

/-- Objects of the fault, statistics and telemetry chapters. -/
def watchObjEffect (a e v : Nat) : Option (State → State) :=
  if a = Obj.FLT_SOURCE_STATUS then some (sourceClearEffect e v)
  else if a = Obj.FLT_OUT_CTRL then some (holdEffect v)
  else if a = Obj.FLT_FORCE then some (forceEffect e v)
  else if a = Obj.FLT_RECOVERIES then some (recoveriesEffect e)
  else if a = Obj.STAT_PROG_SELECT then some (progSelectEffect e v)
  else if a = Obj.TLM_CTRL then some (tlmCtrlEffect v)
  else if a = Obj.TLM_HIGH_WM ∨ a = Obj.TLM_LOW_WM then some (watermarkEffect a v)
  else if a = Obj.TLM_TIME then some (fun t => setTimeBase t v)
  else (blockWord a v).map (fun g => sourceClearEffect g.1 g.2)

/-- Objects of the slot, boot, lifecycle and package chapters. -/
def packageObjEffect (a e v : Nat) (data : List Byte) : Option (State → State) :=
  if a = Obj.SLOT_CTRL then some (slotCtrlEffect e v)
  else if a = Obj.DEV_STATE_REQ then some (stateReqEffect v)
  else if a = Obj.BOOT_UPDATE_DATA then some (updateDataEffect data)
  else if a = Obj.BOOT_UPDATE_CMD then some (updateEffect v)
  else if a = Obj.BOOT_SVN_ADVANCE then some svnEffect
  else if a = Obj.BOOT_KEY_REVOKE then some (fun t => t.putRegBit Obj.BOOT_KEY_REVOKED 0 (v % 256) true)
  else if a = Obj.LIFE_REQUEST then some (burnLife 1)
  else if a = Obj.PKG_TJ_PEAK then some peakEffect
  else none

/-- What an immediate write of an object does: its own effect, or the plain write of its register. -/
def objEffect (a e v : Nat) (data : List Byte) : State → State :=
  (((((linkObjEffect a e v).or (switchObjEffect a e v)).or (memoryObjEffect a e v)).or (tenantObjEffect a e v)).or
    ((watchObjEffect a e v).or (packageObjEffect a e v data))).getD (fun t => plainWrite t a e v)

/-- Serve a Write record of any object; a counter that runs with time stands as it is now before it is written. -/
def serveAnyWrite (s0 : State) (path : Path) (r : Rec) : State :=
  let a := r.index * 256 + r.sub
  let s := settleFor s0 a (r.elem.getD 0)
  let v := (findObj a).elim (ofLe r.data) (fun o => writtenValue o (ofLe r.data))
  if a = Obj.STG_COMMIT then serveCommit s path r
  else if a = Obj.TRACT_MEM_DATA then memDataWrite s path r
  else if a = Obj.MBX_IN_DATA then serveInData s path r
  else if a = Obj.MBX_IN_SEND then serveInSend s path r
  else if a = Obj.RST_CHIP_RESET then serveReset s path r 2 id
  else if a = Obj.LIFE_REQUEST ∧ v % 256 = 2 then serveReset s path r 4 fieldReturnEffect
  else serveWrite s path r (objEffect a (r.elem.getD 0) v r.data)

/-- A host writes a register of a function of its virtual switch (R100, R114, R262), and the write is completed. -/
def configWrite (s : State) (port vppb : Nat) (reg : FnReg) (value : Nat) : State :=
  if s.isHost port && s.edgeUp port && decide (vppb < 64) then
    completeRead (fnWrite s port vppb reg value) port 0 (.toPort port "configuration write done" [vppb, fnCode reg])
  else s

/-- `WRITE` (R45, R61, R114): a Write record of any object, or a host's write to any window register or function register. -/
def execWrite (dt : Nat) (src : WriteSource) (s : State) : Res := run dt s fun s =>
  match src with
  | .record path r => serveAnyWrite s path r
  | .window a => windowWrite s a
  | .config port vppb reg value => configWrite s port vppb reg value

/-! ### What a read of an object returns -/

/-- The reserve lane of a port's group serves a lane of the port (R91, R93). -/
def swappedPort (s : State) (p : Nat) : Bool :=
  s.reserveState (p / 4) == 2 && (s.portLanes p).contains (16 * (p / 4) + s.regBits Obj.LANE_GROUP_STATUS (p / 4) 8 4)

/-- The objects of the tenancies, twins and links whose value shows other state. -/
def lateTenant (s : State) (a e : Nat) : Option Nat :=
  if a = Obj.LANE_PORT_STATUS then some (putBit (s.reg a e) 14 (swappedPort s e))
  else if a = Obj.TWIN_UNITS_DIRTY then some (unitsDirty s)
  else if a = Obj.PASS_CREDIT_STATE then
    some ((assocGet s.pass.ports (e / 2)).elim 0 (fun q => at_ 10 (q.held (e % 2 + 1)) + q.res (e % 2 + 1)))
  else if a = Obj.TEN_STATE then some (setBits (s.reg a e) 16 7 (s.boundPorts e).length)
  else if a = Obj.TEN_DLOG_STATE then
    some (setBits (s.reg a e) 0 8 ((List.range 8).foldl (fun m r => m + at_ r (b2n (s.regBit Obj.TEN_DLOG_RANGE (8 * e + r) 63))) 0))
  else if a = Obj.GLEN_CHAN_STATUS then some (chanStatus s e)
  else if a = Obj.STP_KEY_STATE then some (s.keyState e)
  else none

/-- The objects of faults, boot and wear whose value shows other state; the power estimate is a free value. -/
def latePackage (s : State) (a e : Nat) : Option Nat :=
  if a = Obj.FLT_SAVED_LOG then some (ofLe (s.flashBytes (savedLogBase + 8 * e) 8))
  else if a = Obj.BOOT_SLOT_VERSION then some (slotVersion s e)
  else if a = Obj.BOOT_ID_PUBKEY then some (Config.identityKey (s.reg Obj.LIFE_STATE))
  else if a = Obj.WEAR_STATE then some (wearState s)
  else if a = Obj.PKG_POWER_EST then some s.freeNow
  else none

/-- The value of an object as bytes: a mailbox's data from Steppe, the others from a number. -/
def objBytes (s : State) (a e : Nat) : List Byte :=
  if a = Obj.MBX_IN_DATA then s.sysBytes (inboxAddr e) 256
  else if a = Obj.MBX_OUT_DATA then s.sysBytes (outboxAddr e) 256
  else leBytes (((lateTenant s a e).or (latePackage s a e)).getD (readObj s a e)) (objSize a)

/-- What a read of an object does: a read of the power estimate uses up the free value it shows, a read of a mailbox's data reads
its lines (R204). -/
def readEffect (a e : Nat) (s : State) : State :=
  if a = Obj.PKG_POWER_EST then s.useFree
  else if a = Obj.MBX_IN_DATA then (s.sysRead (inboxAddr e) 256).1
  else if a = Obj.MBX_OUT_DATA then (s.sysRead (outboxAddr e) 256).1
  else s

/-- Serve a Read record of any object, or a Read staged record of one that has nothing staged (R45); a counter that runs with
time stands as it is now before it is read. -/
def serveAnyRead (s0 : State) (path : Path) (op : RecOp) (r : Rec) : State :=
  let a := r.index * 256 + r.sub
  let s := settleFor s0 a (r.elem.getD 0)
  if a = Obj.TRACT_MEM_DATA then memDataRead s path op r
  else if a = Obj.TEN_DLOG_TAKE then serveTake s path op r
  else if a = Obj.TLM_READ then serveRead s path op r (tlmData []) (tlmAdvance [])
  else if a = Obj.STAT_DUMP_DATA then serveRead s path op r dumpData dumpAdvance
  else serveRead s path op r objBytes (readEffect a (r.elem.getD 0))

/-- A host reads a register of a function of its virtual switch (R100, R114, R262). -/
def configRead (s : State) (port vppb : Nat) (reg : FnReg) : State :=
  if s.isHost port && s.edgeUp port && decide (vppb < 64) then
    completeRead s port 4 (.toPort port "configuration read" [vppb, fnCode reg, fnRead s port vppb reg])
  else s

/-- `READ` (R35, R45, R49, R114): a Read record of any object, or a host's read of any window register or function register. -/
def execRead (dt : Nat) (src : ReadSource) (s : State) : Res := run dt s fun s =>
  match src with
  | .record path r => serveAnyRead s path .read r
  | .window port offset width => windowRead s port offset width
  | .config port vppb reg => configRead s port vppb reg

/-- `READ_STAGED` (R42, R45): the staged value, or the live one; a tenant never sees what is staged. -/
def execReadStaged (dt : Nat) (path : Path) (r : Rec) (s : State) : Res := run dt s fun s =>
  match pathClass path, stagedValue s (r.index * 256 + r.sub) r.elem with
  | .t, _ => serveAnyRead s path .staged r
  | _, none => serveAnyRead s path .staged r
  | _, some v => serveRead s path .staged r (fun _ a _ => leBytes v (objSize a)) id

end Sys2Proof.Machine
end

