-- ==== Sys2Proof/Machine/Dispatch.lean ====
section
/-! DEFINITION. The effect of every command: one arm per row of the opcode table, each a call of that command's meaning. -/
namespace Sys2Proof.Machine

/-- The effect of a command on everything but the queue. -/
def exec (i : Instr) (s : State) : Host.Outcome State Fault Refusal :=
  match i with
  | .kdpDatagram dt srcIp srcPort payload => Sys2Proof.Machine.execKdpDatagram dt srcIp srcPort payload s
  | .arpFrame dt senderIp targetIp => Sys2Proof.Machine.execArpFrame dt senderIp targetIp s
  | .icmpEcho dt srcIp dstIp payload => Sys2Proof.Machine.execIcmpEcho dt srcIp dstIp payload s
  | .ethFrameDrop dt => Sys2Proof.Machine.execEthFrameDrop dt s
  | .linkLocalAnnounce dt => Sys2Proof.Machine.execLinkLocalAnnounce dt s
  | .mctpMessage dt body => Sys2Proof.Machine.execMctpMessage dt body s
  | .i3cAddressAssign dt addr => Sys2Proof.Machine.execI3cAddressAssign dt addr s
  | .setEndpointId dt eid => Sys2Proof.Machine.execSetEndpointId dt eid s
  | .getEndpointId dt => Sys2Proof.Machine.execGetEndpointId dt s
  | .getMctpVersionSupport dt msgType => Sys2Proof.Machine.execGetMctpVersionSupport dt msgType s
  | .getMessageTypeSupport dt => Sys2Proof.Machine.execGetMessageTypeSupport dt s
  | .getVendorDefinedMessageSupport dt selector => Sys2Proof.Machine.execGetVendorDefinedMessageSupport dt selector s
  | .dictionaryAccess dt port payload => Sys2Proof.Machine.execDictionaryAccess dt port payload s
  | .takeMessage dt => Sys2Proof.Machine.execTakeMessage dt s
  | .read dt src => Sys2Proof.Machine.execRead dt src s
  | .write dt src => Sys2Proof.Machine.execWrite dt src s
  | .readStaged dt path r => Sys2Proof.Machine.execReadStaged dt path r s
  | .describe dt path r => Sys2Proof.Machine.execDescribe dt path r s
  | .commit dt path => Sys2Proof.Machine.execCommit dt path s
  | .commitApplied dt => Sys2Proof.Machine.execCommitApplied dt s
  | .discard dt path => Sys2Proof.Machine.execDiscard dt path s
  | .recoveryWriteResume dt => Sys2Proof.Machine.execRecoveryWriteResume dt s
  | .identify dt port => Sys2Proof.Machine.execIdentify dt port s
  | .backgroundOperationStatus dt port => Sys2Proof.Machine.execBackgroundOperationStatus dt port s
  | .getResponseMessageLimit dt port => Sys2Proof.Machine.execGetResponseMessageLimit dt port s
  | .setResponseMessageLimit dt port limit => Sys2Proof.Machine.execSetResponseMessageLimit dt port limit s
  | .getEventRecords dt port => Sys2Proof.Machine.execGetEventRecords dt port s
  | .clearEventRecords dt port => Sys2Proof.Machine.execClearEventRecords dt port s
  | .getTimestamp dt port => Sys2Proof.Machine.execGetTimestamp dt port s
  | .setTimestamp dt port ns => Sys2Proof.Machine.execSetTimestamp dt port ns s
  | .identifySwitchDevice dt port => Sys2Proof.Machine.execIdentifySwitchDevice dt port s
  | .getPhysicalPortState dt query => Sys2Proof.Machine.execGetPhysicalPortState dt query s
  | .physicalPortControl dt port target op => Sys2Proof.Machine.execPhysicalPortControl dt port target op s
  | .sendPpbCxlIoConfigurationRequest dt port ppb request => Sys2Proof.Machine.execSendPpbCxlIoConfigurationRequest dt port ppb request s
  | .getVirtualCxlSwitchInfo dt query => Sys2Proof.Machine.execGetVirtualCxlSwitchInfo dt query s
  | .bindVppb dt port host vppb dsp ldId => Sys2Proof.Machine.execBindVppb dt port host vppb dsp ldId s
  | .unbindVppb dt port host vppb managed => Sys2Proof.Machine.execUnbindVppb dt port host vppb managed s
  | .generateAerEvent dt port host vppb event => Sys2Proof.Machine.execGenerateAerEvent dt port host vppb event s
  | .tunnelManagementCommand dt port dsp command => Sys2Proof.Machine.execTunnelManagementCommand dt port dsp command s
  | .sendLdCxlIoConfigurationRequest dt port dsp ldId request => Sys2Proof.Machine.execSendLdCxlIoConfigurationRequest dt port dsp ldId request s
  | .sendLdCxlIoMemoryRequest dt port dsp ldId request => Sys2Proof.Machine.execSendLdCxlIoMemoryRequest dt port dsp ldId request s
  | .unsupportedOpcode dt port opcode => Sys2Proof.Machine.execUnsupportedOpcode dt port opcode s
  | .slackPosition dt port fill => Sys2Proof.Machine.execSlackPosition dt port fill s
  | .ebError dt lane => Sys2Proof.Machine.execEbError dt lane s
  | .adaptationStep dt lane ctleMove tapMoves => Sys2Proof.Machine.execAdaptationStep dt lane ctleMove tapMoves s
  | .sat dt lane => Sys2Proof.Machine.execSat dt lane s
  | .restore dt path lane value => Sys2Proof.Machine.execRestore dt path lane value s
  | .marginMeasurement dt lane eyes => Sys2Proof.Machine.execMarginMeasurement dt lane eyes s
  | .marginReq dt path lane eye => Sys2Proof.Machine.execMarginReq dt path lane eye s
  | .marginReqDone dt lane m => Sys2Proof.Machine.execMarginReqDone dt lane m s
  | .prbsStart dt path lane value => Sys2Proof.Machine.execPrbsStart dt path lane value s
  | .prbsClear dt path lane value => Sys2Proof.Machine.execPrbsClear dt path lane value s
  | .prbsLock dt received => Sys2Proof.Machine.execPrbsLock dt received s
  | .prbsLockLoss dt lane bits errors => Sys2Proof.Machine.execPrbsLockLoss dt lane bits errors s
  | .portTest dt path port value => Sys2Proof.Machine.execPortTest dt path port value s
  | .reserveSelfTest dt group => Sys2Proof.Machine.execReserveSelfTest dt group s
  | .reserveSelfTestEnd dt group errors => Sys2Proof.Machine.execReserveSelfTestEnd dt group errors s
  | .swap dt path group lane => Sys2Proof.Machine.execSwap dt path group lane s
  | .revert dt path group => Sys2Proof.Machine.execRevert dt path group s
  | .transceiverSelfCheckFail dt lane => Sys2Proof.Machine.execTransceiverSelfCheckFail dt lane s
  | .swapShadowTrained dt group ctle => Sys2Proof.Machine.execSwapShadowTrained dt group ctle s
  | .swapSwitch dt group => Sys2Proof.Machine.execSwapSwitch dt group s
  | .referenceGate dt ref hz => Sys2Proof.Machine.execReferenceGate dt ref hz s
  | .referenceStopped dt ref => Sys2Proof.Machine.execReferenceStopped dt ref s
  | .hostPerst dt port hot => Sys2Proof.Machine.execHostPerst dt port hot s
  | .perstDeassert dt port => Sys2Proof.Machine.execPerstDeassert dt port s
  | .functionLevelReset dt port => Sys2Proof.Machine.execFunctionLevelReset dt port s
  | .edgeLinkUp dt port offer => Sys2Proof.Machine.execEdgeLinkUp dt port offer s
  | .fabricRetrain dt port => Sys2Proof.Machine.execFabricRetrain dt port s
  | .hostLinkDown dt port cause => Sys2Proof.Machine.execHostLinkDown dt port cause s
  | .graceExpiry dt port => Sys2Proof.Machine.execGraceExpiry dt port s
  | .downstreamLinkDown dt port => Sys2Proof.Machine.execDownstreamLinkDown dt port s
  | .ldIdentityRead dt port ldId serial capacity => Sys2Proof.Machine.execLdIdentityRead dt port ldId serial capacity s
  | .bindComplete dt host vppb => Sys2Proof.Machine.execBindComplete dt host vppb s
  | .ideIntegrityFail dt port => Sys2Proof.Machine.execIdeIntegrityFail dt port s
  | .ideKeyExchangeDone dt keyed => Sys2Proof.Machine.execIdeKeyExchangeDone dt keyed s
  | .ideRefresh dt path port value => Sys2Proof.Machine.execIdeRefresh dt path port value s
  | .pbrFlit dt port spid dpid => Sys2Proof.Machine.execPbrFlit dt port spid dpid s
  | .hdmDecoderCommit dt port decoder base extent => Sys2Proof.Machine.execHdmDecoderCommit dt port decoder base extent s
  | .hostM2sReq dt src m => Sys2Proof.Machine.execHostM2sReq dt src m s
  | .hostM2sRwd dt src m => Sys2Proof.Machine.execHostM2sRwd dt src m s
  | .hostBirsp dt src m => Sys2Proof.Machine.execHostBirsp dt src m s
  | .birspForward dt agent key => Sys2Proof.Machine.execBirspForward dt agent key s
  | .biconflict dt src addr => Sys2Proof.Machine.execBiconflict dt src addr s
  | .biconflictAck dt agent key => Sys2Proof.Machine.execBiconflictAck dt agent key s
  | .powerControllerControl dt host vppb on => Sys2Proof.Machine.execPowerControllerControl dt host vppb on s
  | .messageIngress dt ingress m => Sys2Proof.Machine.execMessageIngress dt ingress m s
  | .openCellClose dt ingress cls => Sys2Proof.Machine.execOpenCellClose dt ingress cls s
  | .cellAdmit dt ingress cls => Sys2Proof.Machine.execCellAdmit dt ingress cls s
  | .cellWrite dt ingress cls busy => Sys2Proof.Machine.execCellWrite dt ingress cls busy s
  | .cellRead dt egress ptr err => Sys2Proof.Machine.execCellRead dt egress ptr err s
  | .stall dt egress => Sys2Proof.Machine.execStall dt egress s
  | .lowFreeWrite dt path value => Sys2Proof.Machine.execLowFreeWrite dt path value s
  | .passPoolToBasin dt port index => Sys2Proof.Machine.execPassPoolToBasin dt port index s
  | .egressSelect dt egress blocked => Sys2Proof.Machine.execEgressSelect dt egress blocked s
  | .queueEligible dt queue => Sys2Proof.Machine.execQueueEligible dt queue s
  | .shaperWrite dt path ofPort elem value => Sys2Proof.Machine.execShaperWrite dt path ofPort elem value s
  | .groupRebindDone dt group => Sys2Proof.Machine.execGroupRebindDone dt group s
  | .flitTx dt port => Sys2Proof.Machine.execFlitTx dt port s
  | .flitRx dt port lanes => Sys2Proof.Machine.execFlitRx dt port lanes s
  | .ackTimer dt port => Sys2Proof.Machine.execAckTimer dt port s
  | .replayTimer dt port => Sys2Proof.Machine.execReplayTimer dt port s
  | .receiverDetect dt port => Sys2Proof.Machine.execReceiverDetect dt port s
  | .detectTimeout dt port => Sys2Proof.Machine.execDetectTimeout dt port s
  | .trainingFrame dt port lane word inverted own => Sys2Proof.Machine.execTrainingFrame dt port lane word inverted own s
  | .trainingPhaseTimeout dt port => Sys2Proof.Machine.execTrainingPhaseTimeout dt port s
  | .trainingIdleEnd dt port => Sys2Proof.Machine.execTrainingIdleEnd dt port s
  | .configTimeout dt port => Sys2Proof.Machine.execConfigTimeout dt port s
  | .recoveryTimeout dt port => Sys2Proof.Machine.execRecoveryTimeout dt port s
  | .laneLockLoss dt port lane => Sys2Proof.Machine.execLaneLockLoss dt port lane s
  | .goingDown dt port => Sys2Proof.Machine.execGoingDown dt port s
  | .passMessage dt port msg => Sys2Proof.Machine.execPassMessage dt port msg s
  | .hello dt port msg => Sys2Proof.Machine.execHello dt port msg s
  | .route dt port msg => Sys2Proof.Machine.execRoute dt port msg s
  | .routeSend dt => Sys2Proof.Machine.execRouteSend dt s
  | .routeEntryClear dt switch => Sys2Proof.Machine.execRouteEntryClear dt switch s
  | .routeRecompute dt path => Sys2Proof.Machine.execRouteRecompute dt path s
  | .probeSend dt port => Sys2Proof.Machine.execProbeSend dt port s
  | .probe dt port msg => Sys2Proof.Machine.execProbe dt port msg s
  | .probeReply dt port msg => Sys2Proof.Machine.execProbeReply dt port msg s
  | .replayBufferUe dt port => Sys2Proof.Machine.execReplayBufferUe dt port s
  | .steppeRead dt addr expected errors => Sys2Proof.Machine.execSteppeRead dt addr expected errors s
  | .steppeWrite dt addr line => Sys2Proof.Machine.execSteppeWrite dt addr line s
  | .steppeInit dt badSpares failedStacks => Sys2Proof.Machine.execSteppeInit dt badSpares failedStacks s
  | .steppeReady dt => Sys2Proof.Machine.execSteppeReady dt s
  | .scrubLine dt line errors => Sys2Proof.Machine.execScrubLine dt line errors s
  | .scrubPassStart dt badSpares => Sys2Proof.Machine.execScrubPassStart dt badSpares s
  | .scrubPassEnd dt => Sys2Proof.Machine.execScrubPassEnd dt s
  | .scrubLate dt channel => Sys2Proof.Machine.execScrubLate dt channel s
  | .spareRowStart dt channel => Sys2Proof.Machine.execSpareRowStart dt channel s
  | .spareRowDone dt channel readBack errors => Sys2Proof.Machine.execSpareRowDone dt channel readBack errors s
  | .steppeSpareCmd dt path value => Sys2Proof.Machine.execSteppeSpareCmd dt path value s
  | .remapSave dt => Sys2Proof.Machine.execRemapSave dt s
  | .sanitize dt path => Sys2Proof.Machine.execSanitize dt path s
  | .stackTemp dt stack celsius => Sys2Proof.Machine.execStackTemp dt stack celsius s
  | .innerCorrectionReport dt stack counts => Sys2Proof.Machine.execInnerCorrectionReport dt stack counts s
  | .xlate dt path value => Sys2Proof.Machine.execXlate dt path value s
  | .noticeWindowClose dt window => Sys2Proof.Machine.execNoticeWindowClose dt window s
  | .memAddrWrite dt path value => Sys2Proof.Machine.execMemAddrWrite dt path value s
  | .memDataRead dt path => Sys2Proof.Machine.execMemDataRead dt path s
  | .memDataWrite dt path value => Sys2Proof.Machine.execMemDataWrite dt path value s
  | .releaseSweepDone dt => Sys2Proof.Machine.execReleaseSweepDone dt s
  | .rdShared dt col m => Sys2Proof.Machine.execRdShared dt col m s
  | .rdOwn dt col m => Sys2Proof.Machine.execRdOwn dt col m s
  | .rdCur dt col m => Sys2Proof.Machine.execRdCur dt col m s
  | .upgrade dt col m => Sys2Proof.Machine.execUpgrade dt col m s
  | .wrFull dt col m => Sys2Proof.Machine.execWrFull dt col m s
  | .wrPtl dt col m => Sys2Proof.Machine.execWrPtl dt col m s
  | .writeback dt col m => Sys2Proof.Machine.execWriteback dt col m s
  | .writebackPtl dt col m => Sys2Proof.Machine.execWritebackPtl dt col m s
  | .evictClean dt col m => Sys2Proof.Machine.execEvictClean dt col m s
  | .snpInv dt target m => Sys2Proof.Machine.execSnpInv dt target m s
  | .snpData dt target m => Sys2Proof.Machine.execSnpData dt target m s
  | .snpCur dt target m => Sys2Proof.Machine.execSnpCur dt target m s
  | .data dt m => Sys2Proof.Machine.execData dt m s
  | .cmp dt m => Sys2Proof.Machine.execCmp dt m s
  | .nack dt m => Sys2Proof.Machine.execNack dt m s
  | .snpRsp dt col m => Sys2Proof.Machine.execSnpRsp dt col m s
  | .retry dt slot => Sys2Proof.Machine.execRetry dt slot s
  | .movedRetry dt slot => Sys2Proof.Machine.execMovedRetry dt slot s
  | .holdWindowExpiry dt col key => Sys2Proof.Machine.execHoldWindowExpiry dt col key s
  | .agedServe dt col key => Sys2Proof.Machine.execAgedServe dt col key s
  | .agedEntryDrop dt col key requester tag => Sys2Proof.Machine.execAgedEntryDrop dt col key requester tag s
  | .snoopTimeout dt col key holder => Sys2Proof.Machine.execSnoopTimeout dt col key holder s
  | .suspectLimit dt agent => Sys2Proof.Machine.execSuspectLimit dt agent s
  | .declareDead dt path value => Sys2Proof.Machine.execDeclareDead dt path value s
  | .sweepPassStart dt => Sys2Proof.Machine.execSweepPassStart dt s
  | .sweepPassEnd dt => Sys2Proof.Machine.execSweepPassEnd dt s
  | .transactionTimeout dt slot => Sys2Proof.Machine.execTransactionTimeout dt slot s
  | .tagHoldExpiry dt slot => Sys2Proof.Machine.execTagHoldExpiry dt slot s
  | .loadWindowEnd dt loads => Sys2Proof.Machine.execLoadWindowEnd dt loads s
  | .sliceQuiescent dt slice => Sys2Proof.Machine.execSliceQuiescent dt slice s
  | .epochChange dt => Sys2Proof.Machine.execEpochChange dt s
  | .portAgentMapUpdate dt => Sys2Proof.Machine.execPortAgentMapUpdate dt s
  | .leaseDrainExpiry dt slice => Sys2Proof.Machine.execLeaseDrainExpiry dt slice s
  | .forcedMoveRetry dt slice => Sys2Proof.Machine.execForcedMoveRetry dt slice s
  | .leaseHoldoffExpiry dt slice => Sys2Proof.Machine.execLeaseHoldoffExpiry dt slice s
  | .backgroundItem dt col => Sys2Proof.Machine.execBackgroundItem dt col s
  | .itemSteal dt col => Sys2Proof.Machine.execItemSteal dt col s
  | .colSpareCmd dt path value badSpares => Sys2Proof.Machine.execColSpareCmd dt path value badSpares s
  | .roleEmptied dt role badSpares => Sys2Proof.Machine.execRoleEmptied dt role badSpares s
  | .ucodeLoad dt badTests badDigests => Sys2Proof.Machine.execUcodeLoad dt badTests badDigests s
  | .imemScrub dt phys corrections badSpares => Sys2Proof.Machine.execImemScrub dt phys corrections badSpares s
  | .hashLookup dt path value => Sys2Proof.Machine.execHashLookup dt path value s
  | .pairInfo dt port msg => Sys2Proof.Machine.execPairInfo dt port msg s
  | .mirrorWr dt port msg => Sys2Proof.Machine.execMirrorWr dt port msg s
  | .log dt port msg => Sys2Proof.Machine.execLog dt port msg s
  | .heartbeat dt port msg => Sys2Proof.Machine.execHeartbeat dt port msg s
  | .heartbeatSend dt => Sys2Proof.Machine.execHeartbeatSend dt s
  | .keyXfer dt port msg => Sys2Proof.Machine.execKeyXfer dt port msg s
  | .resyncData dt port msg => Sys2Proof.Machine.execResyncData dt port msg s
  | .mirroredWriteComplete dt key => Sys2Proof.Machine.execMirroredWriteComplete dt key s
  | .logFlush dt => Sys2Proof.Machine.execLogFlush dt s
  | .unitClean dt unit => Sys2Proof.Machine.execUnitClean dt unit s
  | .unitDirtyAcked dt unit => Sys2Proof.Machine.execUnitDirtyAcked dt unit s
  | .messageSignalSilent dt => Sys2Proof.Machine.execMessageSignalSilent dt s
  | .pinSignalSilent dt => Sys2Proof.Machine.execPinSignalSilent dt s
  | .takeoverServe dt => Sys2Proof.Machine.execTakeoverServe dt s
  | .declareLost dt path => Sys2Proof.Machine.execDeclareLost dt path s
  | .aliasEnd dt path => Sys2Proof.Machine.execAliasEnd dt path s
  | .resyncCopyDone dt => Sys2Proof.Machine.execResyncCopyDone dt s
  | .tenancyReset dt path value => Sys2Proof.Machine.execTenancyReset dt path value s
  | .tenancyResetStart dt tenancy => Sys2Proof.Machine.execTenancyResetStart dt tenancy s
  | .tenancyResetEnd dt tenancy => Sys2Proof.Machine.execTenancyResetEnd dt tenancy s
  | .dlogClearDone dt range => Sys2Proof.Machine.execDlogClearDone dt range s
  | .dlogTake dt path => Sys2Proof.Machine.execDlogTake dt path s
  | .outDataWrite dt a => Sys2Proof.Machine.execOutDataWrite dt a s
  | .outDoorbell dt a => Sys2Proof.Machine.execOutDoorbell dt a s
  | .inTake dt a => Sys2Proof.Machine.execInTake dt a s
  | .inDataWrite dt path tenancy value => Sys2Proof.Machine.execInDataWrite dt path tenancy value s
  | .inSend dt path tenancy value => Sys2Proof.Machine.execInSend dt path tenancy value s
  | .outTake dt path tenancy => Sys2Proof.Machine.execOutTake dt path tenancy s
  | .summaryEvent dt element => Sys2Proof.Machine.execSummaryEvent dt element s
  | .fmPairRequest dt => Sys2Proof.Machine.execFmPairRequest dt s
  | .fmPairPost dt => Sys2Proof.Machine.execFmPairPost dt s
  | .glenStart dt port => Sys2Proof.Machine.execGlenStart dt port s
  | .glenStop dt port => Sys2Proof.Machine.execGlenStop dt port s
  | .glenRing dt port => Sys2Proof.Machine.execGlenRing dt port s
  | .chPointerWrite dt a => Sys2Proof.Machine.execChPointerWrite dt a s
  | .descAreaWrite dt a => Sys2Proof.Machine.execDescAreaWrite dt a s
  | .chanCmdStop dt path channel => Sys2Proof.Machine.execChanCmdStop dt path channel s
  | .descriptorFetch dt channel host => Sys2Proof.Machine.execDescriptorFetch dt channel host s
  | .glenTurn dt engine busMaster => Sys2Proof.Machine.execGlenTurn dt engine busMaster s
  | .sourceData dt channel source busMaster => Sys2Proof.Machine.execSourceData dt channel source busMaster s
  | .descriptorWriteBack dt channel busMaster => Sys2Proof.Machine.execDescriptorWriteBack dt channel busMaster s
  | .sourceEvent dt group bit element => Sys2Proof.Machine.execSourceEvent dt group bit element s
  | .quietTimerExpiry dt source => Sys2Proof.Machine.execQuietTimerExpiry dt source s
  | .faultOutPulseEnd dt => Sys2Proof.Machine.execFaultOutPulseEnd dt s
  | .faultEventTimer dt group => Sys2Proof.Machine.execFaultEventTimer dt group s
  | .trapSaveDone dt => Sys2Proof.Machine.execTrapSaveDone dt s
  | .force dt path group value => Sys2Proof.Machine.execForce dt path group value s
  | .sourceClear dt path group value => Sys2Proof.Machine.execSourceClear dt path group value s
  | .recoveriesClear dt path source => Sys2Proof.Machine.execRecoveriesClear dt path source s
  | .holdWrite dt path value => Sys2Proof.Machine.execHoldWrite dt path value s
  | .intervalBoundary dt bad => Sys2Proof.Machine.execIntervalBoundary dt bad s
  | .dumpWrite dt => Sys2Proof.Machine.execDumpWrite dt s
  | .dumpDataRead dt path => Sys2Proof.Machine.execDumpDataRead dt path s
  | .progSelect dt path k value => Sys2Proof.Machine.execProgSelect dt path k value s
  | .tlmRead dt path bad => Sys2Proof.Machine.execTlmRead dt path bad s
  | .tlmMark dt path => Sys2Proof.Machine.execTlmMark dt path s
  | .tlmRewind dt path => Sys2Proof.Machine.execTlmRewind dt path s
  | .tlmRelease dt path => Sys2Proof.Machine.execTlmRelease dt path s
  | .tlmRecordOffer dt type body => Sys2Proof.Machine.execTlmRecordOffer dt type body s
  | .timeSet dt path value => Sys2Proof.Machine.execTimeSet dt path value s
  | .watermarkWrite dt path high value => Sys2Proof.Machine.execWatermarkWrite dt path high value s
  | .presenceAssert dt slot => Sys2Proof.Machine.execPresenceAssert dt slot s
  | .seated dt slot => Sys2Proof.Machine.execSeated dt slot s
  | .removed dt slot => Sys2Proof.Machine.execRemoved dt slot s
  | .cooldownEnd dt slot => Sys2Proof.Machine.execCooldownEnd dt slot s
  | .rampStart dt slot vin => Sys2Proof.Machine.execRampStart dt slot vin s
  | .gateOnComplete dt slot => Sys2Proof.Machine.execGateOnComplete dt slot s
  | .faultTimerStart dt slot sense => Sys2Proof.Machine.execFaultTimerStart dt slot sense s
  | .faultTimerEnd dt slot sense => Sys2Proof.Machine.execFaultTimerEnd dt slot sense s
  | .slowTrip dt slot => Sys2Proof.Machine.execSlowTrip dt slot s
  | .fastTrip dt slot sense => Sys2Proof.Machine.execFastTrip dt slot sense s
  | .slotCtrlWrite dt path slot value => Sys2Proof.Machine.execSlotCtrlWrite dt path slot value s
  | .commandedGateOff dt slot => Sys2Proof.Machine.execCommandedGateOff dt slot s
  | .damageDetect dt slot vout => Sys2Proof.Machine.execDamageDetect dt slot vout s
  | .damagedClear dt path slot vout => Sys2Proof.Machine.execDamagedClear dt path slot vout s
  | .resetSlotTurnoff dt => Sys2Proof.Machine.execResetSlotTurnoff dt s
  | .vddAuxLow dt => Sys2Proof.Machine.execVddAuxLow dt s
  | .powerOnResetRelease dt straps found => Sys2Proof.Machine.execPowerOnResetRelease dt straps found s
  | .chipRstL dt => Sys2Proof.Machine.execChipRstL dt s
  | .chipReset dt path => Sys2Proof.Machine.execChipReset dt path s
  | .internalResetRelease dt straps => Sys2Proof.Machine.execInternalResetRelease dt straps s
  | .imageAuthenticate dt readErrors => Sys2Proof.Machine.execImageAuthenticate dt readErrors s
  | .bootWatchdogExpiry dt => Sys2Proof.Machine.execBootWatchdogExpiry dt s
  | .erase dt path => Sys2Proof.Machine.execErase dt path s
  | .eraseDone dt => Sys2Proof.Machine.execEraseDone dt s
  | .verify dt path => Sys2Proof.Machine.execVerify dt path s
  | .verifyDone dt readError => Sys2Proof.Machine.execVerifyDone dt readError s
  | .activate dt path => Sys2Proof.Machine.execActivate dt path s
  | .activateAndLoadLive dt path => Sys2Proof.Machine.execActivateAndLoadLive dt path s
  | .updateData dt path data => Sys2Proof.Machine.execUpdateData dt path data s
  | .svnAdvance dt path => Sys2Proof.Machine.execSvnAdvance dt path s
  | .keyRevoke dt path k => Sys2Proof.Machine.execKeyRevoke dt path k s
  | .requestService dt path => Sys2Proof.Machine.execRequestService dt path s
  | .requestTest dt path => Sys2Proof.Machine.execRequestTest dt path s
  | .requestRecovery dt path => Sys2Proof.Machine.execRequestRecovery dt path s
  | .requestDeployed dt path serialCheck => Sys2Proof.Machine.execRequestDeployed dt path serialCheck s
  | .requestFieldReturn dt path serialCheck => Sys2Proof.Machine.execRequestFieldReturn dt path serialCheck s
  | .debugUnlock dt signature => Sys2Proof.Machine.execDebugUnlock dt signature s
  | .debugAccess dt region write => Sys2Proof.Machine.execDebugAccess dt region write s
  | .jtagInstruction dt ins => Sys2Proof.Machine.execJtagInstruction dt ins s
  | .railOutOfWindow dt rail mv => Sys2Proof.Machine.execRailOutOfWindow dt rail mv s
  | .railCollapse dt rail mv => Sys2Proof.Machine.execRailCollapse dt rail mv s
  | .tjSensorRead dt celsius => Sys2Proof.Machine.execTjSensorRead dt celsius s
  | .tjWarn dt => Sys2Proof.Machine.execTjWarn dt s
  | .tjCrit dt => Sys2Proof.Machine.execTjCrit dt s
  | .wearMeasurement dt kind monitor margin badSpares => Sys2Proof.Machine.execWearMeasurement dt kind monitor margin badSpares s
  | .vidStep dt => Sys2Proof.Machine.execVidStep dt s
  | .wearRecordSave dt => Sys2Proof.Machine.execWearRecordSave dt s
  | .lifeAccounting dt => Sys2Proof.Machine.execLifeAccounting dt s
  | .fabricLinkDown dt port => Sys2Proof.Machine.execFabricLinkDown dt port s
  | .attentionButton dt port => Sys2Proof.Machine.execAttentionButton dt port s
  | .doeRequest dt port protocol request => Sys2Proof.Machine.execDoeRequest dt port protocol request s
  | .completionTimeout dt channel => Sys2Proof.Machine.execCompletionTimeout dt channel s
  | .presenceBreak dt slot => Sys2Proof.Machine.execPresenceBreak dt slot s
  | .slotVinLow dt vin => Sys2Proof.Machine.execSlotVinLow dt vin s
  | .twinHbInEdge dt => Sys2Proof.Machine.execTwinHbInEdge dt s
  | .ethLinkDown dt => Sys2Proof.Machine.execEthLinkDown dt s
  | .railInWindow dt rail mv => Sys2Proof.Machine.execRailInWindow dt rail mv s
  | .meadowPairRestarted dt => Sys2Proof.Machine.execMeadowPairRestarted dt s

end Sys2Proof.Machine
end

