-- ==== Sys2Proof/Machine/Idle.lean ====
section
/-! DEFINITION. What the block does with no command waiting. -/
namespace Sys2Proof.Machine

/-- With no command waiting, firmware sends the oldest event message that waits for the bus owner on the I3C bus (R57); else
the block idles (log entry 1). -/
def idleTick (s : State) : State :=
  match s.mgmt.i3cEvents with
  | m :: rest => if s.phase = .running ∧ s.serving = true then sendMctp { s with mgmt := { s.mgmt with i3cEvents := rest } } (mctpBody s m) else s
  | [] => s

end Sys2Proof.Machine
end

