-- ==== Sys2Proof/Safety.lean ====
section
/-! DEFINITION. What counts as a safe run: no step faults and none is refused. -/
namespace Sys2Proof.Machine

/-- A step from `s` answers a next state. -/
def stepsSafely (s : State) : Prop := ∃ t, step s = .next t

/-- The memories and the register store are in canonical form. -/
def State.wf (s : State) : Prop :=
  sparseWf defaultOf s.regs = true ∧ Memory.wf s.mem = true ∧ sparseWf lineDefault s.lineMeta = true ∧ sparseWf flashDefault s.flash = true

/-- A write record of element `e` of object `a` with value `v` is served now, passes the checks of R40 and acts at once:
the object is no commit object, or the record comes over the recovery path's class O; on the I3C path no commit is
being applied (R63). -/
def takesWrite (s : State) (path : Path) (a : Nat) (e : Option Nat) (v : Nat) : Bool :=
  mayServe s path .write (writeRec a e v) && checkRecord s path .write (writeRec a e v) == .ok
    && (path != .i3c || s.reg Obj.STG_STATUS != 2)
    && (findObj a).elim false (fun o => !o.onCommit || pathClass path == .o)

/-- The state after such a record with effect `eff`: on class O what was staged for the object is dropped; the last writer
is recorded and the record is answered with OK. -/
def wrote (s : State) (path : Path) (a : Nat) (e : Option Nat) (v : Nat) (eff : State → State) : State :=
  answer (recordWriter (eff (if pathClass path = .o then unstage s a e else s)) (pathCode path) (pathPort path) a e)
    path .write (writeRec a e v) .ok []

/-- A read record of element `e` of object `a` is served now, passes the checks of R40 and may be read over its path. -/
def takesRead (s : State) (path : Path) (a : Nat) (e : Option Nat) : Bool :=
  mayServe s path .read (readRec a e) && checkRecord s path .read (readRec a e) == .ok
    && match lookupObj (a / 256) (a % 256) with
      | .ok o => o.addr == a && (o.count == 0 || e != none) && canRead (pathClass path) o
      | .error _ => false

/-- A fabric-manager command on a port is served (R58). -/
def fmServes (s : State) (port : Nat) : Bool := s.firmware && s.isHost port && s.regBit Obj.MGP_FM_PORTS 0 port

/-- The time a command lets pass before it acts: its first operand. -/
def cmdTime : Instr → Nat
  | .kdpDatagram dt _ _ _ => dt
  | .arpFrame dt _ _ => dt
  | .icmpEcho dt _ _ _ => dt
  | .ethFrameDrop dt => dt
  | .linkLocalAnnounce dt => dt
  | .mctpMessage dt _ => dt
  | .i3cAddressAssign dt _ => dt
  | .setEndpointId dt _ => dt
  | .getEndpointId dt => dt
  | .getMctpVersionSupport dt _ => dt
  | .getMessageTypeSupport dt => dt
  | .getVendorDefinedMessageSupport dt _ => dt
  | .dictionaryAccess dt _ _ => dt
  | .takeMessage dt => dt
  | .read dt _ => dt
  | .write dt _ => dt
  | .readStaged dt _ _ => dt
  | .describe dt _ _ => dt
  | .commit dt _ => dt
  | .commitApplied dt => dt
  | .discard dt _ => dt
  | .recoveryWriteResume dt => dt
  | .identify dt _ => dt
  | .backgroundOperationStatus dt _ => dt
  | .getResponseMessageLimit dt _ => dt
  | .setResponseMessageLimit dt _ _ => dt
  | .getEventRecords dt _ => dt
  | .clearEventRecords dt _ => dt
  | .getTimestamp dt _ => dt
  | .setTimestamp dt _ _ => dt
  | .identifySwitchDevice dt _ => dt
  | .getPhysicalPortState dt _ => dt
  | .physicalPortControl dt _ _ _ => dt
  | .sendPpbCxlIoConfigurationRequest dt _ _ _ => dt
  | .getVirtualCxlSwitchInfo dt _ => dt
  | .bindVppb dt _ _ _ _ _ => dt
  | .unbindVppb dt _ _ _ _ => dt
  | .generateAerEvent dt _ _ _ _ => dt
  | .tunnelManagementCommand dt _ _ _ => dt
  | .sendLdCxlIoConfigurationRequest dt _ _ _ _ => dt
  | .sendLdCxlIoMemoryRequest dt _ _ _ _ => dt
  | .unsupportedOpcode dt _ _ => dt
  | .slackPosition dt _ _ => dt
  | .ebError dt _ => dt
  | .adaptationStep dt _ _ _ => dt
  | .sat dt _ => dt
  | .restore dt _ _ _ => dt
  | .marginMeasurement dt _ _ => dt
  | .marginReq dt _ _ _ => dt
  | .marginReqDone dt _ _ => dt
  | .prbsStart dt _ _ _ => dt
  | .prbsClear dt _ _ _ => dt
  | .prbsLock dt _ => dt
  | .prbsLockLoss dt _ _ _ => dt
  | .portTest dt _ _ _ => dt
  | .reserveSelfTest dt _ => dt
  | .reserveSelfTestEnd dt _ _ => dt
  | .swap dt _ _ _ => dt
  | .revert dt _ _ => dt
  | .transceiverSelfCheckFail dt _ => dt
  | .swapShadowTrained dt _ _ => dt
  | .swapSwitch dt _ => dt
  | .referenceGate dt _ _ => dt
  | .referenceStopped dt _ => dt
  | .hostPerst dt _ _ => dt
  | .perstDeassert dt _ => dt
  | .functionLevelReset dt _ => dt
  | .edgeLinkUp dt _ _ => dt
  | .fabricRetrain dt _ => dt
  | .hostLinkDown dt _ _ => dt
  | .graceExpiry dt _ => dt
  | .downstreamLinkDown dt _ => dt
  | .ldIdentityRead dt _ _ _ _ => dt
  | .bindComplete dt _ _ => dt
  | .ideIntegrityFail dt _ => dt
  | .ideKeyExchangeDone dt _ => dt
  | .ideRefresh dt _ _ _ => dt
  | .pbrFlit dt _ _ _ => dt
  | .hdmDecoderCommit dt _ _ _ _ => dt
  | .hostM2sReq dt _ _ => dt
  | .hostM2sRwd dt _ _ => dt
  | .hostBirsp dt _ _ => dt
  | .birspForward dt _ _ => dt
  | .biconflict dt _ _ => dt
  | .biconflictAck dt _ _ => dt
  | .powerControllerControl dt _ _ _ => dt
  | .messageIngress dt _ _ => dt
  | .openCellClose dt _ _ => dt
  | .cellAdmit dt _ _ => dt
  | .cellWrite dt _ _ _ => dt
  | .cellRead dt _ _ _ => dt
  | .stall dt _ => dt
  | .lowFreeWrite dt _ _ => dt
  | .passPoolToBasin dt _ _ => dt
  | .egressSelect dt _ _ => dt
  | .queueEligible dt _ => dt
  | .shaperWrite dt _ _ _ _ => dt
  | .groupRebindDone dt _ => dt
  | .flitTx dt _ => dt
  | .flitRx dt _ _ => dt
  | .ackTimer dt _ => dt
  | .replayTimer dt _ => dt
  | .receiverDetect dt _ => dt
  | .detectTimeout dt _ => dt
  | .trainingFrame dt _ _ _ _ _ => dt
  | .trainingPhaseTimeout dt _ => dt
  | .trainingIdleEnd dt _ => dt
  | .configTimeout dt _ => dt
  | .recoveryTimeout dt _ => dt
  | .laneLockLoss dt _ _ => dt
  | .goingDown dt _ => dt
  | .passMessage dt _ _ => dt
  | .hello dt _ _ => dt
  | .route dt _ _ => dt
  | .routeSend dt => dt
  | .routeEntryClear dt _ => dt
  | .routeRecompute dt _ => dt
  | .probeSend dt _ => dt
  | .probe dt _ _ => dt
  | .probeReply dt _ _ => dt
  | .replayBufferUe dt _ => dt
  | .steppeRead dt _ _ _ => dt
  | .steppeWrite dt _ _ => dt
  | .steppeInit dt _ _ => dt
  | .steppeReady dt => dt
  | .scrubLine dt _ _ => dt
  | .scrubPassStart dt _ => dt
  | .scrubPassEnd dt => dt
  | .scrubLate dt _ => dt
  | .spareRowStart dt _ => dt
  | .spareRowDone dt _ _ _ => dt
  | .steppeSpareCmd dt _ _ => dt
  | .remapSave dt => dt
  | .sanitize dt _ => dt
  | .stackTemp dt _ _ => dt
  | .innerCorrectionReport dt _ _ => dt
  | .xlate dt _ _ => dt
  | .noticeWindowClose dt _ => dt
  | .memAddrWrite dt _ _ => dt
  | .memDataRead dt _ => dt
  | .memDataWrite dt _ _ => dt
  | .releaseSweepDone dt => dt
  | .rdShared dt _ _ => dt
  | .rdOwn dt _ _ => dt
  | .rdCur dt _ _ => dt
  | .upgrade dt _ _ => dt
  | .wrFull dt _ _ => dt
  | .wrPtl dt _ _ => dt
  | .writeback dt _ _ => dt
  | .writebackPtl dt _ _ => dt
  | .evictClean dt _ _ => dt
  | .snpInv dt _ _ => dt
  | .snpData dt _ _ => dt
  | .snpCur dt _ _ => dt
  | .data dt _ => dt
  | .cmp dt _ => dt
  | .nack dt _ => dt
  | .snpRsp dt _ _ => dt
  | .retry dt _ => dt
  | .movedRetry dt _ => dt
  | .holdWindowExpiry dt _ _ => dt
  | .agedServe dt _ _ => dt
  | .agedEntryDrop dt _ _ _ _ => dt
  | .snoopTimeout dt _ _ _ => dt
  | .suspectLimit dt _ => dt
  | .declareDead dt _ _ => dt
  | .sweepPassStart dt => dt
  | .sweepPassEnd dt => dt
  | .transactionTimeout dt _ => dt
  | .tagHoldExpiry dt _ => dt
  | .loadWindowEnd dt _ => dt
  | .sliceQuiescent dt _ => dt
  | .epochChange dt => dt
  | .portAgentMapUpdate dt => dt
  | .leaseDrainExpiry dt _ => dt
  | .forcedMoveRetry dt _ => dt
  | .leaseHoldoffExpiry dt _ => dt
  | .backgroundItem dt _ => dt
  | .itemSteal dt _ => dt
  | .colSpareCmd dt _ _ _ => dt
  | .roleEmptied dt _ _ => dt
  | .ucodeLoad dt _ _ => dt
  | .imemScrub dt _ _ _ => dt
  | .hashLookup dt _ _ => dt
  | .pairInfo dt _ _ => dt
  | .mirrorWr dt _ _ => dt
  | .log dt _ _ => dt
  | .heartbeat dt _ _ => dt
  | .heartbeatSend dt => dt
  | .keyXfer dt _ _ => dt
  | .resyncData dt _ _ => dt
  | .mirroredWriteComplete dt _ => dt
  | .logFlush dt => dt
  | .unitClean dt _ => dt
  | .unitDirtyAcked dt _ => dt
  | .messageSignalSilent dt => dt
  | .pinSignalSilent dt => dt
  | .takeoverServe dt => dt
  | .declareLost dt _ => dt
  | .aliasEnd dt _ => dt
  | .resyncCopyDone dt => dt
  | .tenancyReset dt _ _ => dt
  | .tenancyResetStart dt _ => dt
  | .tenancyResetEnd dt _ => dt
  | .dlogClearDone dt _ => dt
  | .dlogTake dt _ => dt
  | .outDataWrite dt _ => dt
  | .outDoorbell dt _ => dt
  | .inTake dt _ => dt
  | .inDataWrite dt _ _ _ => dt
  | .inSend dt _ _ _ => dt
  | .outTake dt _ _ => dt
  | .summaryEvent dt _ => dt
  | .fmPairRequest dt => dt
  | .fmPairPost dt => dt
  | .glenStart dt _ => dt
  | .glenStop dt _ => dt
  | .glenRing dt _ => dt
  | .chPointerWrite dt _ => dt
  | .descAreaWrite dt _ => dt
  | .chanCmdStop dt _ _ => dt
  | .descriptorFetch dt _ _ => dt
  | .glenTurn dt _ _ => dt
  | .sourceData dt _ _ _ => dt
  | .descriptorWriteBack dt _ _ => dt
  | .sourceEvent dt _ _ _ => dt
  | .quietTimerExpiry dt _ => dt
  | .faultOutPulseEnd dt => dt
  | .faultEventTimer dt _ => dt
  | .trapSaveDone dt => dt
  | .force dt _ _ _ => dt
  | .sourceClear dt _ _ _ => dt
  | .recoveriesClear dt _ _ => dt
  | .holdWrite dt _ _ => dt
  | .intervalBoundary dt _ => dt
  | .dumpWrite dt => dt
  | .dumpDataRead dt _ => dt
  | .progSelect dt _ _ _ => dt
  | .tlmRead dt _ _ => dt
  | .tlmMark dt _ => dt
  | .tlmRewind dt _ => dt
  | .tlmRelease dt _ => dt
  | .tlmRecordOffer dt _ _ => dt
  | .timeSet dt _ _ => dt
  | .watermarkWrite dt _ _ _ => dt
  | .presenceAssert dt _ => dt
  | .seated dt _ => dt
  | .removed dt _ => dt
  | .cooldownEnd dt _ => dt
  | .rampStart dt _ _ => dt
  | .gateOnComplete dt _ => dt
  | .faultTimerStart dt _ _ => dt
  | .faultTimerEnd dt _ _ => dt
  | .slowTrip dt _ => dt
  | .fastTrip dt _ _ => dt
  | .slotCtrlWrite dt _ _ _ => dt
  | .commandedGateOff dt _ => dt
  | .damageDetect dt _ _ => dt
  | .damagedClear dt _ _ _ => dt
  | .resetSlotTurnoff dt => dt
  | .vddAuxLow dt => dt
  | .powerOnResetRelease dt _ _ => dt
  | .chipRstL dt => dt
  | .chipReset dt _ => dt
  | .internalResetRelease dt _ => dt
  | .imageAuthenticate dt _ => dt
  | .bootWatchdogExpiry dt => dt
  | .erase dt _ => dt
  | .eraseDone dt => dt
  | .verify dt _ => dt
  | .verifyDone dt _ => dt
  | .activate dt _ => dt
  | .activateAndLoadLive dt _ => dt
  | .updateData dt _ _ => dt
  | .svnAdvance dt _ => dt
  | .keyRevoke dt _ _ => dt
  | .requestService dt _ => dt
  | .requestTest dt _ => dt
  | .requestRecovery dt _ => dt
  | .requestDeployed dt _ _ => dt
  | .requestFieldReturn dt _ _ => dt
  | .debugUnlock dt _ => dt
  | .debugAccess dt _ _ => dt
  | .jtagInstruction dt _ => dt
  | .railOutOfWindow dt _ _ => dt
  | .railCollapse dt _ _ => dt
  | .tjSensorRead dt _ => dt
  | .tjWarn dt => dt
  | .tjCrit dt => dt
  | .wearMeasurement dt _ _ _ _ => dt
  | .vidStep dt => dt
  | .wearRecordSave dt => dt
  | .lifeAccounting dt => dt
  | .fabricLinkDown dt _ => dt
  | .attentionButton dt _ => dt
  | .doeRequest dt _ _ _ => dt
  | .completionTimeout dt _ => dt
  | .presenceBreak dt _ => dt
  | .slotVinLow dt _ => dt
  | .twinHbInEdge dt => dt
  | .ethLinkDown dt => dt
  | .railInWindow dt _ _ => dt
  | .meadowPairRestarted dt => dt

/-- The commands that may change a byte of the memory (or the words kept beside its lines); no other command does. -/
def mayStore : Instr → Bool
  | .read _ _ | .write _ _ | .readStaged _ _ _ | .commitApplied _ | .graceExpiry _ _ | .steppeRead _ _ _ _ | .steppeWrite _ _ _ | .steppeInit _ _ _
  | .scrubLine _ _ _ | .spareRowDone _ _ _ _ | .memAddrWrite _ _ _ | .memDataRead _ _ | .memDataWrite _ _ _ | .rdShared _ _ _ | .rdOwn _ _ _
  | .rdCur _ _ _ | .upgrade _ _ _ | .wrFull _ _ _ | .wrPtl _ _ _ | .writeback _ _ _ | .writebackPtl _ _ _ | .evictClean _ _ _ | .snpInv _ _ _
  | .snpData _ _ _ | .snpCur _ _ _ | .data _ _ | .cmp _ _ | .snpRsp _ _ _ | .agedServe _ _ _ | .snoopTimeout _ _ _ _ | .suspectLimit _ _
  | .declareDead _ _ _ | .sliceQuiescent _ _ | .epochChange _ | .forcedMoveRetry _ _ | .backgroundItem _ _ | .colSpareCmd _ _ _ _
  | .roleEmptied _ _ _ | .imemScrub _ _ _ _ | .mirrorWr _ _ _ | .log _ _ _ | .resyncData _ _ _ | .mirroredWriteComplete _ _ | .unitDirtyAcked _ _
  | .messageSignalSilent _ | .pinSignalSilent _ | .takeoverServe _ | .declareLost _ _ | .resyncCopyDone _ | .tenancyResetStart _ _
  | .tenancyResetEnd _ _ | .dlogClearDone _ _ | .dlogTake _ _ | .outDataWrite _ _ | .inTake _ _ | .inDataWrite _ _ _ _ | .outTake _ _ _
  | .fmPairRequest _ | .fmPairPost _ | .descAreaWrite _ _ | .descriptorFetch _ _ _ | .sourceData _ _ _ _ | .descriptorWriteBack _ _ _
  | .sourceEvent _ _ _ _ | .dumpWrite _ | .dumpDataRead _ _ | .powerOnResetRelease _ _ _ | .internalResetRelease _ _ | .erase _ _ | .verify _ _
  | .activate _ _ | .activateAndLoadLive _ _ | .requestFieldReturn _ _ _ | .wearMeasurement _ _ _ _ _ | .completionTimeout _ _ => true
  | _ => false

/-- The commands that may change the flash; no other command does. -/
def mayFlash : Instr → Bool
  | .write _ _ | .steppeReady _ | .trapSaveDone _ | .powerOnResetRelease _ _ _ | .internalResetRelease _ _ | .imageAuthenticate _ _ | .erase _ _
  | .eraseDone _ | .verify _ _ | .activate _ _ | .activateAndLoadLive _ _ | .updateData _ _ _ => true
  | _ => false

/-- The commands that write no register on any path. -/
def sparesRegs : Instr → Bool
  | .linkLocalAnnounce _ | .i3cAddressAssign _ _ | .setEndpointId _ _ | .getEndpointId _ | .getMctpVersionSupport _ _ | .getMessageTypeSupport _
  | .getVendorDefinedMessageSupport _ _ | .identify _ _ | .backgroundOperationStatus _ _ | .getResponseMessageLimit _ _
  | .setResponseMessageLimit _ _ _ | .getEventRecords _ _ | .clearEventRecords _ _ | .getTimestamp _ _ | .identifySwitchDevice _ _
  | .getPhysicalPortState _ _ | .sendPpbCxlIoConfigurationRequest _ _ _ _ | .getVirtualCxlSwitchInfo _ _ | .generateAerEvent _ _ _ _ _
  | .tunnelManagementCommand _ _ _ _ | .sendLdCxlIoConfigurationRequest _ _ _ _ _ | .sendLdCxlIoMemoryRequest _ _ _ _ _ | .unsupportedOpcode _ _ _
  | .reserveSelfTest _ _ | .perstDeassert _ _ | .fabricRetrain _ _ | .biconflictAck _ _ _ | .openCellClose _ _ _ | .detectTimeout _ _ | .routeSend _
  | .probeSend _ _ | .steppeWrite _ _ _ | .remapSave _ | .holdWindowExpiry _ _ _ | .tagHoldExpiry _ _ | .leaseHoldoffExpiry _ _ | .heartbeatSend _
  | .resyncData _ _ _ | .commandedGateOff _ _ | .vddAuxLow _ | .jtagInstruction _ _ | .wearRecordSave _ | .attentionButton _ _ | .doeRequest _ _ _ _
  | .meadowPairRestarted _ => true
  | _ => false

/-- The commands that may change the power phase, a fault reaction of theirs among the ways; no other command does. -/
def mayEndRun : Instr → Bool
  | .takeMessage _ | .read _ _ | .write _ _ | .readStaged _ _ _ | .describe _ _ _ | .commit _ _ | .commitApplied _ | .discard _ _
  | .recoveryWriteResume _ | .ebError _ _ | .sat _ _ | .restore _ _ _ _ | .marginMeasurement _ _ _ | .marginReq _ _ _ _ | .prbsStart _ _ _ _
  | .prbsClear _ _ _ _ | .portTest _ _ _ _ | .reserveSelfTestEnd _ _ _ | .swap _ _ _ _ | .revert _ _ _ | .transceiverSelfCheckFail _ _
  | .swapSwitch _ _ | .referenceGate _ _ _ | .referenceStopped _ _ | .hostLinkDown _ _ _ | .graceExpiry _ _ | .ldIdentityRead _ _ _ _ _
  | .ideIntegrityFail _ _ | .ideRefresh _ _ _ _ | .pbrFlit _ _ _ _ | .hostM2sReq _ _ _ | .hostM2sRwd _ _ _ | .hostBirsp _ _ _ | .messageIngress _ _ _
  | .cellAdmit _ _ _ | .cellRead _ _ _ _ | .stall _ _ | .lowFreeWrite _ _ _ | .shaperWrite _ _ _ _ _ | .flitRx _ _ _ | .replayTimer _ _
  | .trainingFrame _ _ _ _ _ _ | .configTimeout _ _ | .recoveryTimeout _ _ | .laneLockLoss _ _ _ | .goingDown _ _ | .hello _ _ _ | .route _ _ _
  | .routeRecompute _ _ | .probe _ _ _ | .probeReply _ _ _ | .replayBufferUe _ _ | .steppeRead _ _ _ _ | .steppeInit _ _ _ | .steppeReady _
  | .scrubLine _ _ _ | .scrubPassStart _ _ | .scrubLate _ _ | .spareRowStart _ _ | .spareRowDone _ _ _ _ | .steppeSpareCmd _ _ _ | .sanitize _ _
  | .stackTemp _ _ _ | .xlate _ _ _ | .noticeWindowClose _ _ | .memAddrWrite _ _ _ | .memDataRead _ _ | .memDataWrite _ _ _ | .releaseSweepDone _
  | .rdShared _ _ _ | .rdOwn _ _ _ | .rdCur _ _ _ | .upgrade _ _ _ | .wrFull _ _ _ | .wrPtl _ _ _ | .writeback _ _ _ | .writebackPtl _ _ _
  | .evictClean _ _ _ | .snpInv _ _ _ | .snpData _ _ _ | .snpCur _ _ _ | .data _ _ | .cmp _ _ | .snpRsp _ _ _ | .agedServe _ _ _
  | .snoopTimeout _ _ _ _ | .suspectLimit _ _ | .declareDead _ _ _ | .transactionTimeout _ _ | .sliceQuiescent _ _ | .epochChange _
  | .forcedMoveRetry _ _ | .backgroundItem _ _ | .colSpareCmd _ _ _ _ | .roleEmptied _ _ _ | .ucodeLoad _ _ _ | .imemScrub _ _ _ _
  | .hashLookup _ _ _ | .pairInfo _ _ _ | .mirrorWr _ _ _ | .log _ _ _ | .mirroredWriteComplete _ _ | .unitClean _ _ | .unitDirtyAcked _ _
  | .messageSignalSilent _ | .pinSignalSilent _ | .takeoverServe _ | .declareLost _ _ | .aliasEnd _ _ | .resyncCopyDone _ | .tenancyReset _ _ _
  | .tenancyResetStart _ _ | .tenancyResetEnd _ _ | .dlogClearDone _ _ | .dlogTake _ _ | .outDataWrite _ _ | .outDoorbell _ _ | .inTake _ _
  | .inDataWrite _ _ _ _ | .inSend _ _ _ _ | .outTake _ _ _ | .summaryEvent _ _ | .fmPairRequest _ | .fmPairPost _ | .descAreaWrite _ _
  | .chanCmdStop _ _ _ | .descriptorFetch _ _ _ | .sourceData _ _ _ _ | .descriptorWriteBack _ _ _ | .sourceEvent _ _ _ _ | .quietTimerExpiry _ _
  | .faultEventTimer _ _ | .trapSaveDone _ | .force _ _ _ _ | .sourceClear _ _ _ _ | .recoveriesClear _ _ _ | .holdWrite _ _ _
  | .intervalBoundary _ _ | .dumpDataRead _ _ | .progSelect _ _ _ _ | .tlmRead _ _ _ | .tlmMark _ _ | .tlmRewind _ _ | .tlmRelease _ _
  | .tlmRecordOffer _ _ _ | .timeSet _ _ _ | .watermarkWrite _ _ _ _ | .slowTrip _ _ | .fastTrip _ _ _ | .slotCtrlWrite _ _ _ _ | .damageDetect _ _ _
  | .damagedClear _ _ _ _ | .vddAuxLow _ | .powerOnResetRelease _ _ _ | .chipRstL _ | .chipReset _ _ | .internalResetRelease _ _
  | .imageAuthenticate _ _ | .bootWatchdogExpiry _ | .erase _ _ | .eraseDone _ | .verify _ _ | .verifyDone _ _ | .activate _ _
  | .activateAndLoadLive _ _ | .updateData _ _ _ | .svnAdvance _ _ | .keyRevoke _ _ _ | .requestService _ _ | .requestTest _ _ | .requestRecovery _ _
  | .requestDeployed _ _ _ | .requestFieldReturn _ _ _ | .debugAccess _ _ _ | .railOutOfWindow _ _ _ | .railCollapse _ _ _ | .tjWarn _ | .tjCrit _
  | .wearMeasurement _ _ _ _ _ | .completionTimeout _ _ | .ethLinkDown _ => true
  | _ => false

/-- The commands of the always-on block and of the supply (R18): they act in every phase. -/
def alwaysOn : Instr → Bool
  | .resetSlotTurnoff _ | .vddAuxLow _ | .powerOnResetRelease _ _ _ | .internalResetRelease _ _ => true
  | _ => false

/-- The commands that act as long as the device has power, in a chip reset too (R18, R443). -/
def withPower : Instr → Bool
  | .flitTx _ _ | .sourceEvent _ _ _ _ | .quietTimerExpiry _ _ | .faultOutPulseEnd _ | .presenceAssert _ _ | .seated _ _ | .removed _ _
  | .cooldownEnd _ _ | .rampStart _ _ _ | .gateOnComplete _ _ | .faultTimerStart _ _ _ | .faultTimerEnd _ _ _ | .slowTrip _ _ | .fastTrip _ _ _
  | .commandedGateOff _ _ | .damageDetect _ _ _ | .chipRstL _ | .railOutOfWindow _ _ _ | .railCollapse _ _ _ | .presenceBreak _ _ | .slotVinLow _ _
  | .railInWindow _ _ _ => true
  | _ => false

/-- The mailbox pair a port's window reaches: the fabric manager's own pair on its port, else that of the port's tenancy. -/
def mailboxPair (s : State) (port : Nat) : Option Nat := if s.isFmPort port then some fmPair else s.portTenancy port

/-- The command names a Steppe address past the end of the device's Steppe memory. -/
def offSteppe : Instr → Bool
  | .steppeRead _ addr _ _ | .steppeWrite _ addr _ => decide (steppeEnd ≤ addr)
  | .scrubLine _ line _ => decide (steppeEnd ≤ 64 * line)
  | _ => false

end Sys2Proof.Machine
end

