-- ==== Sys2Proof/Certificates/Slice0/Obligations.lean ====
section
/-! DEFINITION. The statements for the provers: one step, power and reset, frames, rules of each part, and for every family of
commands where each of its commands completes and with what next state. -/
open Sys2Proof Sys2Proof.Machine

/-! ### One step -/

/-- With the command `c` at the front of the queue, a step is `exec` of `c` on the state with the queue's rest. -/
def Obligations.StepRunsTheFrontCommand : Prop :=
  ∀ (s : State) (c : Instr) (rest : List Instr), s.pending = c :: rest → step s = exec c { s with pending := rest }

/-- On an empty queue the block has one thing left to do by itself (the model's choice, log entry 1): firmware sends the oldest
event message that waits for the bus owner on the I3C bus; with none waiting it idles. A step takes exactly one command off
the queue: what is left is the queue's rest. -/
def Obligations.QueueIsFirstInFirstOut : Prop :=
  (∀ s : State, s.pending = [] → s.mgmt.i3cEvents = [] → step s = .next s)
  ∧ (∀ (s : State) (m : List Byte) (rest : List (List Byte)), s.pending = [] → s.mgmt.i3cEvents = m :: rest → s.phase = .running → s.serving = true →
      step s = .next (sendMctp { s with mgmt := { s.mgmt with i3cEvents := rest } } (mctpBody s m)))
  ∧ ∀ s t : State, step s = .next t → t.pending = s.pending.tail

/-- No command is refused, and a command faults in one case alone: it names a Steppe address past the end of the device's
memory. In every other case it answers a next state. -/
def Obligations.EveryCommandCompletes : Prop :=
  ∀ (c : Instr) (s : State),
    (offSteppe c = false → ∃ t, exec c s = .next t) ∧ (offSteppe c = true → exec c s = .fault .noSuchAddress)

/-- A command that completes lets its time pass and leaves the queue as it is. -/
def Obligations.TimePassesAsCommanded : Prop :=
  ∀ (c : Instr) (s t : State), exec c s = .next t → t.now = s.now + cmdTime c ∧ t.pending = s.pending

/-- What has left the block is never taken back, and no free value is used twice: the list of outputs only grows at its
end, the counter of free values (log entry 2) never falls. -/
def Obligations.OutputsOnlyGrow : Prop :=
  ∀ (c : Instr) (s t : State), exec c s = .next t → s.out <+: t.out ∧ s.free ≤ t.free

/-- The invariant: the registers, the memory, the words beside its lines and the flash are in canonical form, and the last
reset does not lie in the future. Every step from every state that meets it, whatever command is at the front, answers a
state that meets it. -/
def Obligations.StepKeepsTheInvariant : Prop :=
  ∀ s t : State, s.wf ∧ s.resetAt ≤ s.now → step s = .next t → t.wf ∧ t.resetAt ≤ t.now

/-- The state after reset meets the invariant, runs, has an empty queue, no output and no staged record, and every
register reads as its Default column or the special default of its element gives (registers without one: log entry 5). -/
def Obligations.ResetMeetsTheInvariant : Prop :=
  State.reset.wf ∧ State.reset.resetAt ≤ State.reset.now ∧ State.reset.phase = .running ∧ State.reset.pending = []
  ∧ State.reset.out = [] ∧ State.reset.mgmt.staged = [] ∧ ∀ a e, State.reset.reg a e = defaultOf (regKey a e)

/-- Reset leaves what the object tables state: no commit staged, Start-up, every key slot free, 196,608 free cells, the
telemetry marks of R437 apart, the slots off. -/
def Obligations.ResetRegisters : Prop :=
  State.reset.reg Obj.STG_STATUS = 0 ∧ State.reset.devState = 0 ∧ readObj State.reset Obj.FLT_SEVERITY_MAX 0 = 0xFF
  ∧ (∀ g, g < 64 → groupWord State.reset g = 0) ∧ (∀ n, n < 32 → State.reset.slotState n = 0 ∧ State.reset.regBit Obj.SLOT_STATUS n 23 = true)
  ∧ (∀ n, n < 32 → State.reset.reg Obj.SLOT_PORT n = 0xFF ∧ State.reset.reg Obj.SLOT_ILIMIT n = 50)
  ∧ State.reset.reg Obj.SLOT_DEBOUNCE = 50 ∧ State.reset.reg Obj.SLOT_COOLDOWN = 1000

/-! ### Power and reset -/

/-- Without power every command but those of the always-on block and of the supply only lets time pass. -/
def Obligations.UnpoweredBlockOnlyTellsTime : Prop :=
  ∀ (c : Instr) (s : State), s.phase = .unpowered → alwaysOn c = false → offSteppe c = false →
    exec c s = .next (s.advance (cmdTime c))

/-- In a chip reset every command but those of the always-on block, of the supply and of the units that work as long as
there is power only lets time pass. -/
def Obligations.ChipResetHoldsTheBlock : Prop :=
  ∀ (c : Instr) (s : State), s.phase = .chipReset → alwaysOn c = false → withPower c = false → offSteppe c = false →
    exec c s = .next (s.advance (cmdTime c))

/-- The loss of the auxiliary supply leaves every slot's gate low, from every state, and the block without power. -/
def Obligations.LossOfSupplyOpensEverySlot : Prop :=
  ∀ (dt : Nat) (s : State), ∃ t, exec (.vddAuxLow dt) s = .next t ∧ (∀ n, t.gateDriven n = false) ∧ t.phase = .unpowered
    ∧ t.regs = s.regs ∧ t.mem = s.mem ∧ t.flash = s.flash

/-! ### Frames -/

/-- Memory: a command that is not one of the storing ones leaves every byte of the memory and every word beside its
lines as it was. -/
def Obligations.MemoryFrame : Prop :=
  ∀ (c : Instr) (s t : State), mayStore c = false → exec c s = .next t →
    (∀ a, t.byte a = s.byte a) ∧ ∀ n, t.lineWord n = s.lineWord n

/-- Flash: a command that is not one of those that program or erase leaves every byte of the flash as it was. -/
def Obligations.FlashFrame : Prop :=
  ∀ (c : Instr) (s t : State), mayFlash c = false → exec c s = .next t → ∀ a n, t.flashBytes a n = s.flashBytes a n

/-- Registers: the commands named in `sparesRegs` (the fabric manager's queries, the MCTP control messages, the sends of
the links, and others) leave every element of every object's register as it was. -/
def Obligations.RegisterFrame : Prop :=
  ∀ (c : Instr) (s t : State), sparesRegs c = true → exec c s = .next t → ∀ a e, t.reg a e = s.reg a e

/-- Phase: only the commands named in `mayEndRun` (the resets, the supply, and whatever may raise a fault whose reaction
is a reset) change the power phase. -/
def Obligations.PhaseFrame : Prop :=
  ∀ (c : Instr) (s t : State), mayEndRun c = false → exec c s = .next t → t.phase = s.phase

/-- The lifecycle fuses are only ever burned further: no command takes the fused state back. -/
def Obligations.LifecycleOnlyAdvances : Prop :=
  ∀ (c : Instr) (s t : State), exec c s = .next t → s.boot.lifeFuse ≤ t.boot.lifeFuse

/-- A write of a Steppe line stores to the 64 bytes of the line its address lies in, and to nothing else: no other byte, no
other line's word, no register, no flash, no timer and no output. While the channel's write queue is full the write is not
accepted and only time passes; a queue never holds more than its 128 lines. -/
def Obligations.SteppeWriteFrame : Prop :=
  (∀ (dt addr : Nat) (line : StoredLine) (s t : State), s.wf → exec (.steppeWrite dt addr line) s = .next t →
    (∀ a, a < 64 * (addr / 64) ∨ 64 * (addr / 64) + 64 ≤ a → t.byte a = s.byte a)
    ∧ (∀ n, n ≠ addr / 64 → t.lineWord n = s.lineWord n)
    ∧ t.regs = s.regs ∧ t.flash = s.flash ∧ t.timers = s.timers ∧ t.out = s.out)
  ∧ (∀ (dt addr : Nat) (line : StoredLine) (s u : State), u = s.advance dt → addr < steppeEnd → u.writeRoom (addr / 64) = false →
      exec (.steppeWrite dt addr line) s = .next u)
  ∧ ∀ (s : State) (n c : Nat) (line : StoredLine), (s.writeQueue c).lines.length ≤ 128 → ((putLine s n line).writeQueue c).lines.length ≤ 128

/-- Under the key of a slot a line's bytes decrypt to what was encrypted, and a line with a tag that is no slot is stored as
it is. A whole line that is written to a ready Steppe whose queue has room, and read again at once with its tag, comes back
unchanged: the data of the read are the data of the write, poison as written, whatever the line held or met before. -/
def Obligations.SteppeLineReadsBack : Prop :=
  (∀ (s : State) (slot l : Nat) (data : List Byte), data.length = 64 →
    plain s slot l (cipher s slot l data) = data ∧ (isSlot slot = false → cipher s slot l data = data))
  ∧ ∀ (dt addr : Nat) (line : StoredLine) (s : State), s.wf → s.phase = .running → s.steppeReady = true → addr < steppeEnd →
      (s.advance dt).writeRoom (addr / 64) = true → line.data.length = 64 → line.tag < 4096 → line.tag ≠ 0xFFF → s.keyState line.tag ≠ 2 →
      ∃ t v, exec (.steppeWrite dt addr line) s = .next t ∧ exec (.steppeRead 0 addr line.tag ⟨[], none, none⟩) t = .next v
        ∧ v.out = s.out ++ [.steppeData (addr / 64 * 64) line.data line.poison]

/-- A host's write of outbound data stores in the line of its own pair's outbound area that its address lies in, and in no
other byte; where that line is plaintext with no error standing in it, its bytes that are not written stand as well. With no
pair it stores nothing. -/
def Obligations.OutboundDataFrame : Prop :=
  ∀ (dt : Nat) (a : WindowWrite) (s t : State), s.wf → exec (.outDataWrite dt a) s = .next t →
    (∀ p, mailboxPair s a.port = some p →
      let w := outboxAddr p + (a.offset - 0x40100)
      (∀ x, x / 64 ≠ w / 64 → t.byte x = s.byte x) ∧ (∀ n, n ≠ w / 64 → t.lineWord n = s.lineWord n)
      ∧ (assocGet s.stp.faults (w / 64) = none → s.lineTag (w / 64) = 0 → ∀ x, x < w ∨ w + a.width ≤ x → t.byte x = s.byte x))
    ∧ (mailboxPair s a.port = none → ∀ x, t.byte x = s.byte x)
    ∧ t.flash = s.flash

/-- A host's write of its descriptor area stores in the line of its own tenancy's area that its address lies in, and in no
other byte; where that line is plaintext with no error standing in it, its bytes that are not written stand as well. With no
tenancy it stores nothing. -/
def Obligations.DescriptorAreaFrame : Prop :=
  ∀ (dt : Nat) (a : WindowWrite) (s t : State), s.wf → exec (.descAreaWrite dt a) s = .next t →
    (∀ p, s.portTenancy a.port = some p →
      let w := descArea p + a.offset
      (∀ x, x / 64 ≠ w / 64 → t.byte x = s.byte x) ∧ (∀ n, n ≠ w / 64 → t.lineWord n = s.lineWord n)
      ∧ (assocGet s.stp.faults (w / 64) = none → s.lineTag (w / 64) = 0 → ∀ x, x < w ∨ w + a.width ≤ x → t.byte x = s.byte x))
    ∧ (s.portTenancy a.port = none → ∀ x, t.byte x = s.byte x)
    ∧ t.flash = s.flash

/-- The end of an erasure changes the flash inside the inactive image slot alone, and leaves memory as it is. -/
def Obligations.EraseFrame : Prop :=
  ∀ (dt : Nat) (s t : State), s.wf → exec (.eraseDone dt) s = .next t →
    (∀ a, a < imageBase s.inactive ∨ imageBase s.inactive + 0x1000000 ≤ a → t.flashBytes a 1 = s.flashBytes a 1)
    ∧ t.mem = s.mem ∧ t.lineMeta = s.lineMeta ∧ t.pending = s.pending

/-! ### The dictionary and the management paths -/

/-- Subindex 0 of every defined index is found, is a U8 of one byte that every class reads and none writes, and reads as
the highest subindex defined at the index: something is found there and nothing above it. At an index not defined nothing
is found. -/
def Obligations.SubindexZero : Prop :=
  ∀ (s : State) (index : Nat),
    (indexDefined index = true → ∃ o, lookupObj index 0 = .ok o ∧ o.ty = 2 ∧ o.size = 1 ∧ o.count = 0
      ∧ (∀ c, canRead c o = true ∧ canWrite c o = false) ∧ readObj s o.addr 0 = highestSub index)
    ∧ (indexDefined index = true → (∃ o, lookupObj index (highestSub index) = .ok o)
      ∧ ∀ sub o, sub < 256 → lookupObj index sub = .ok o → sub ≤ highestSub index)
    ∧ (indexDefined index = false → ∀ sub, lookupObj index sub = .error .noObject)

/-- A T-class read of a counter object is denied while COUNTERS (bit 30 of the tenancy's TEN.CTRL) is clear; while it is set,
the read of an element that is the tenancy's own succeeds; and the result of a T-class read of an object that is no counter
does not change with COUNTERS. -/
def Obligations.CountersNeedPermission : Prop :=
  ∀ (s : State) (port t : Nat) (r : Rec) (o : ObjDef), s.wf → s.portTenancy port = some t → t < 4096 → lookupObj r.index r.sub = .ok o →
    (isCounterObj o.addr = true → s.regBit Obj.TEN_CTRL t 30 = false → checkRecord s (.tenant port) .read r = .denied)
    ∧ (isCounterObj o.addr = true → s.regBit Obj.TEN_CTRL t 30 = true → canRead .t o = true → elementOk o r.elem = true →
        (o.count = 4096 → r.elem = none ∨ r.elem = some t) → r.data = [] → checkRecord s (.tenant port) .read r = .ok)
    ∧ (isCounterObj o.addr = false → ∀ b, checkRecord (s.putRegBit Obj.TEN_CTRL t 30 b) (.tenant port) .read r = checkRecord s (.tenant port) .read r)

/-- While a commit is being applied (STG.STATUS reads 2, Committing), a write that is allowed and names an element there is
gets the result BUSY over every path, but for a recovery write over I3C; that one changes nothing yet and waits. -/
def Obligations.WritesWaitForTheCommit : Prop :=
  ∀ (s : State) (path : Path) (r : Rec) (o : ObjDef), s.reg Obj.STG_STATUS = 2 → lookupObj r.index r.sub = .ok o →
    accessOk s path .write o r.elem = true → elementOk o r.elem = true →
    ((path ≠ .i3c ∨ recoverySubset o.addr = false) → checkRecord s path .write r = .busy)
    ∧ (∀ eff after, mayServe s path .write r = true → path = .i3c → checkRecord s path .write r = .ok →
        ∃ w, serveWriteThen s path r eff after = { s with mgmt := { s.mgmt with recWait := s.mgmt.recWait ++ [w], svc := none } })

/-- A staged value changes no register but STG.STATUS and is the only one of its object and element: a second one, from any path, takes
the place of the first. A discard leaves none. -/
def Obligations.StagingHoldsOneValue : Prop :=
  (∀ (s : State) (path : Path) (a : Nat) (e : Option Nat) (v : Nat),
    let t := stageRecord s path a e v
    t.mgmt.staged.filter (fun x => x.addr == a && x.elem == e) = [⟨a, e, v, pathCode path, pathPort path⟩]
    ∧ (∀ x, x ∈ s.mgmt.staged → (x.addr ≠ a ∨ x.elem ≠ e) → x ∈ t.mgmt.staged) ∧ t.mem = s.mem ∧ t.flash = s.flash
    ∧ (s.wf → ∀ b i, b ≠ Obj.STG_STATUS → t.reg b i = s.reg b i))
  ∧ ∀ s : State, (discardStaged s).mgmt.staged = []

/-- In link-local mode the device's address is 169.254.a.b with a = 1 + (the second-to-last MAC byte modulo 254) and b the
last MAC byte, 0 and 255 replaced by 1; it answers an ARP probe for that address, and an announcement is followed by none
for one second. -/
def Obligations.LinkLocalAddress : Prop :=
  (∀ s : State, s.reg Obj.MGP_IP_MODE = 1 →
    s.ipv4 = 169 * 2 ^ 24 + 254 * 2 ^ 16 + (1 + s.regBits Obj.MGP_MAC 0 32 8 % 254) * 2 ^ 8
      + (if s.regBits Obj.MGP_MAC 0 40 8 = 0 ∨ s.regBits Obj.MGP_MAC 0 40 8 = 255 then 1 else s.regBits Obj.MGP_MAC 0 40 8))
  ∧ (∀ (dt sender : Nat) (s u : State), u = s.advance dt → s.phase = .running → u.ethServed = true → u.reg Obj.MGP_IP_MODE = 1 →
      (policeFrame u).2 = true → ∃ t, exec (.arpFrame dt sender u.ipv4) s = .next t ∧ t.out = s.out ++ [.arpReply sender u.ipv4] ∧ t.regs = s.regs)
  ∧ (∀ (dt later : Nat) (s t : State), s.phase = .running → exec (.linkLocalAnnounce dt) s = .next t → t.out ≠ s.out →
      later < 1000000000 → exec (.linkLocalAnnounce later) t = .next (t.advance later))

/-! ### The Pass links -/

/-- A flit of 512 bytes, spread over the logical lanes of a port of a width that divides its 128 transfer blocks and sent as
Gray-coded PAM4 symbols, is brought back whole by the lanes of a port of that width. -/
def Obligations.FlitsCrossTheLanes : Prop :=
  ∀ (w : Nat) (flit : List Byte), 0 < w → 128 % w = 0 → flit.length = 512 →
    flitOfLanes w (flitLanes w flit) = flit ∧ (flitLanes w flit).length = w ∧ ∀ l, l ∈ flitLanes w flit → l.length = 2048 / w

/-! ### Faults, counters and telemetry -/

/-- Bit g of FLT.STATUS is set exactly while a bit of group g is set, and no path may write the word. -/
def Obligations.FaultStatusWord : Prop :=
  (∀ (s : State) (g : Nat), g < 64 → (bitAt (readObj s Obj.FLT_STATUS 0) g = true ↔ groupWord s g ≠ 0))
  ∧ ∀ (s : State) (path : Path) (r : Rec), r.index = 0x5000 → r.sub = 1 → checkRecord s path .write r = .denied

/-- A counter word that counts `n` events holds the 48-bit sum and keeps or sets OVF when the sum passes 2^48 - 1; no
other bit is set. -/
def Obligations.CounterWordWraps : Prop :=
  ∀ w n : Nat, bumpWord w n % 2 ^ 48 = (w % 2 ^ 48 + n) % 2 ^ 48
    ∧ (bitAt (bumpWord w n) 63 = true ↔ bitAt w 63 = true ∨ 2 ^ 48 ≤ w % 2 ^ 48 + n)
    ∧ bumpWord w n / 2 ^ 48 % 2 ^ 15 = 0

/-- The consumer's operations on the telemetry FIFO: a mark sets M to R, a rewind sets R to M, a release sets F and M to R,
a read moves R past the words of the records it returns; W stands, and only a release moves F. -/
def Obligations.FifoOperations : Prop :=
  ∀ s : State,
    ((tlmCtrlEffect 1 s).tlm.m = s.tlm.r ∧ (tlmCtrlEffect 1 s).tlm.r = s.tlm.r ∧ (tlmCtrlEffect 1 s).tlm.f = s.tlm.f ∧ (tlmCtrlEffect 1 s).tlm.w = s.tlm.w)
    ∧ ((tlmCtrlEffect 2 s).tlm.r = s.tlm.m ∧ (tlmCtrlEffect 2 s).tlm.m = s.tlm.m ∧ (tlmCtrlEffect 2 s).tlm.f = s.tlm.f ∧ (tlmCtrlEffect 2 s).tlm.w = s.tlm.w)
    ∧ ((releaseFifo s).tlm.f = s.tlm.r ∧ (releaseFifo s).tlm.m = s.tlm.r ∧ (releaseFifo s).tlm.r = s.tlm.r ∧ (releaseFifo s).tlm.w = s.tlm.w)
    ∧ ((tlmAdvance [] s).tlm.r = s.tlm.r + (takeRecs [] 32 0 (unreadRecs s)).1.length ∧ (takeRecs [] 32 0 (unreadRecs s)).1.length ≤ 32
      ∧ (tlmAdvance [] s).tlm.f = s.tlm.f ∧ (tlmAdvance [] s).tlm.m = s.tlm.m ∧ (tlmAdvance [] s).tlm.w = s.tlm.w)

/-! ### Engines, movers, slots and the lifecycle -/

/-- A Glen channel runs in Service, Test and Recovery alone and only while its tenancy is Live; a channel that does not run
fetches nothing, takes no data and writes nothing back; in Start-up, and while the tenancy is Free, every write of the
channel's window ends in Completer Abort and does nothing else. -/
def Obligations.ChannelRuns : Prop :=
  (∀ (s : State) (ch : Nat), s.chanRuns ch = true → s.devState ≠ 0 ∧ s.tenState ch = 1)
  ∧ (∀ (dt ch : Nat) (h : HostReadResult) (src : SourceResult) (bm : Bool) (s u : State), u = s.advance dt → u.chanRuns ch = false →
      exec (.descriptorFetch dt ch h) s = .next u ∧ exec (.sourceData dt ch src bm) s = .next u
      ∧ exec (.descriptorWriteBack dt ch bm) s = .next u)
  ∧ (∀ (dt ch : Nat) (a : WindowWrite) (s u : State), u = s.advance dt → s.phase = .running → u.isHost a.port = true →
      u.portTenancy a.port = some ch → u.devState = 0 ∨ u.tenState ch = 0 → a.offset < 0x40000 →
      exec (.write dt (.window a)) s = .next (u.emit (.barAbort a.port)))

/-- A ramp starts only while VIN_LOW is clear: with it set the slot waits in Seating and its gate stays low; and a sample of
a low input voltage leaves every slot's state, and with it an On slot, as it was. -/
def Obligations.RampNeedsVin : Prop :=
  (∀ (s : State) (n : Nat), s.regBit Obj.SLOT_STATUS n 19 = true → (tryRamp s n).slot.driven = s.slot.driven)
  ∧ ∀ (dt vin : Nat) (s t : State), s.wf → exec (.slotVinLow dt vin) s = .next t →
      ∀ n, n < 32 → t.slotState n = s.slotState n ∧ t.slot.driven = s.slot.driven

/-- A write of LIFE.REQUEST gets RANGE when SERIAL_CHECK is not the low 32 bits of the serial number or TARGET is not the
next state, and STATE outside Start-up and Test; the move to Deployed burns the fuse and leaves the state the device shows
until the next chip reset as it is. -/
def Obligations.LifecycleRequest : Prop :=
  (∀ (s : State) (path : Path) (v : Nat), s.reg Obj.STG_STATUS ≠ 2 → pathClass path = .m → v < 2 ^ 64 →
    (v / 2 ^ 32 ≠ s.reg Obj.ID_SERIAL % 2 ^ 32 ∨ v % 256 ≠ s.reg Obj.LIFE_STATE + 1 → checkRecord s path .write (writeRec Obj.LIFE_REQUEST none v) = .range)
    ∧ (v / 2 ^ 32 = s.reg Obj.ID_SERIAL % 2 ^ 32 → v % 256 = s.reg Obj.LIFE_STATE + 1 → v % 256 ≤ 2 → s.devState ≠ 0 → s.devState ≠ 2 →
        checkRecord s path .write (writeRec Obj.LIFE_REQUEST none v) = .state))
  ∧ ∀ s : State, 1 ≤ (burnLife 1 s).boot.lifeFuse ∧ (burnLife 1 s).reg Obj.LIFE_STATE = s.reg Obj.LIFE_STATE

/-- While the interval after an epoch change runs, no epoch change happens: the command changes nothing and the moves wait.
An epoch change counts the epoch up by one and starts the interval of COL.LEASE_MIN_INTERVAL microseconds anew. -/
def Obligations.EpochInterval : Prop :=
  (∀ (dt : Nat) (s u : State), u = s.advance dt → u.armed ⟨.epoch, 0, 0⟩ = true → u.due ⟨.epoch, 0, 0⟩ = false → exec (.epochChange dt) s = .next u)
  ∧ ∀ (dt : Nat) (s t : State), s.wf → exec (.epochChange dt) s = .next t → t.reg Obj.COL_EPOCH ≠ s.reg Obj.COL_EPOCH →
      t.deadline ⟨.epoch, 0, 0⟩ = some (t.now + t.reg Obj.COL_LEASE_MIN_INTERVAL * 1000)

/-- A write of 1 to STP.SANITIZE is accepted in Test and Recovery and rejected with STATE otherwise; where it runs, every Live key slot is destroyed at
once: it is no longer Live and its key is gone; no byte of memory and no line's word changes, those of the directory store
and the system region among them. -/
def Obligations.SanitizeDestroysEverySlot : Prop :=
  (∀ (s : State) (path : Path), s.reg Obj.STG_STATUS ≠ 2 → pathClass path = .m →
    checkRecord s path .write (writeRec Obj.STP_SANITIZE none 1) = if s.devState = 2 ∨ s.devState = 3 then .ok else .state)
  ∧ ∀ (dt : Nat) (path : Path) (s u : State), u = s.advance dt → s.wf → s.phase = .running → takesWrite u path Obj.STP_SANITIZE none 1 = true →
      ∃ t, exec (.sanitize dt path) s = .next t ∧ (∀ k, k ∈ u.liveSlots → u.keyState k = 1 → assocGet t.stp.keys k = none)
        ∧ (∀ k, k ∈ u.liveSlots → u.keyState k = 1 → t.keyState k ≠ 1)
        ∧ (∀ a, t.byte a = s.byte a) ∧ ∀ n, t.lineWord n = s.lineWord n

/-! ### Where every command completes

`u` is the state after the command's time has passed. -/

/-- Frames of the management lane, I3C and MCTP, and the mailbox accesses to the dictionary: each command completes
while the block runs under its conditions on the state after the time passed (u) and on the operands, and answers the
next state its own effect gives. Commands: KDP_DATAGRAM, ARP_FRAME, ICMP_ECHO, ETH_FRAME_DROP, LINK_LOCAL_ANNOUNCE,
MCTP_MESSAGE, I3C_ADDRESS_ASSIGN, SET_ENDPOINT_ID, GET_ENDPOINT_ID, GET_MCTP_VERSION_SUPPORT,
GET_MESSAGE_TYPE_SUPPORT, GET_VENDOR_DEFINED_MESSAGE_SUPPORT, DICTIONARY_ACCESS, TAKE_MESSAGE. -/
def Obligations.ManagementMessagesComplete : Prop :=
  ∀ (dt : Nat) (s u : State), u = s.advance dt → s.phase = .running →
    (∀ (payload : List Byte) (srcIp : Nat) (srcPort : Nat), u.ethServed = true → (policeKdp (u.count1 Obj.MGP_KDP_RX 0)).2 = true → headerMalformed payload = false → keptRequest (policeKdp (u.count1 Obj.MGP_KDP_RX 0)).1 srcIp srcPort (leField payload 2 2) = none → exec (.kdpDatagram dt srcIp srcPort payload) s = .next (acceptKdp (policeKdp (u.count1 Obj.MGP_KDP_RX 0)).1 srcIp srcPort payload))
    ∧ (∀ (targetIp : Nat) (senderIp : Nat), u.ethServed = true → (policeFrame u).2 = true → targetIp = (policeFrame u).1.ipv4 → exec (.arpFrame dt senderIp targetIp) s = .next ((policeFrame u).1.emit (.arpReply senderIp targetIp)))
    ∧ (∀ (dstIp : Nat) (srcIp : Nat) (payload : List Byte), u.ethServed = true → (policeFrame u).2 = true → dstIp = (policeFrame u).1.ipv4 → exec (.icmpEcho dt srcIp dstIp payload) s = .next ((policeFrame u).1.emit (.echoReply srcIp payload)))
    ∧ (u.ethServed = true → exec (.ethFrameDrop dt) s = .next (u.count1 Obj.MGP_ETH_DROPPED 0))
    ∧ (u.ethServed = true → u.reg Obj.MGP_IP_MODE = 1 → u.armed ⟨.linkLocal, 0, 0⟩ = false → exec (.linkLocalAnnounce dt) s = .next ((u.emit (.arpAnnounce u.ipv4)).arm ⟨.linkLocal, 0, 0⟩ 1000000000))
    ∧ (∀ (body : List Byte), u.firmware = true → 5 ≤ body.length → body.take 4 = beBytes (u.reg Obj.ID_VENDOR_PEN) 4 → leField body 4 1 = 1 → headerMalformed (body.drop 5) = false → exec (.mctpMessage dt body) s = .next ({ u with mgmt := { u.mgmt with qI3c := u.mgmt.qI3c ++ [⟨.i3c, body.drop 5⟩] } }))
    ∧ (∀ (addr : Nat), exec (.i3cAddressAssign dt addr) s = .next ({ u with mgmt := { u.mgmt with i3cAddr := some addr } }))
    ∧ (∀ (eid : Nat), u.firmware = true → 1 ≤ eid → eid ≤ 254 → exec (.setEndpointId dt eid) s = .next (({ u with mgmt := { u.mgmt with eid := eid } }).emit (.mctpControl 1 [0, 0, eid, 0])))
    ∧ (u.firmware = true → exec (.getEndpointId dt) s = .next (u.emit (.mctpControl 2 [0, u.mgmt.eid, 0, 0])))
    ∧ (∀ (msgType : Nat), u.firmware = true → msgType = 0xFF ∨ msgType = 0 ∨ msgType = 0x7F → exec (.getMctpVersionSupport dt msgType) s = .next ((u.emit (.mctpControl 4 (0 :: (Config.standardPayload 4 u.free).map (·.toNat)))).useFree))
    ∧ (u.firmware = true → exec (.getMessageTypeSupport dt) s = .next (u.emit (.mctpControl 5 [0, 1, 0x7F])))
    ∧ (u.firmware = true → exec (.getVendorDefinedMessageSupport dt 0) s = .next ((u.emit (.mctpControl 6 [0, 0xFF, 1, u.reg Obj.ID_VENDOR_PEN, u.freeNow])).useFree))
    ∧ (∀ (port : Nat) (payload : List Byte), u.firmware = true → u.isHost port = true → headerMalformed payload = false → u.isFmPort port = true → exec (.dictionaryAccess dt port payload) s = .next ({ u with mgmt := { u.mgmt with qFm := u.mgmt.qFm ++ [⟨.fm port false, payload⟩] } }))
    ∧ (∀ (port : Nat) (payload : List Byte), u.firmware = true → u.isHost port = true → headerMalformed payload = false → u.isFmPort port = false → exec (.dictionaryAccess dt port payload) s = .next ({ u with mgmt := { u.mgmt with qTenant := u.mgmt.qTenant ++ [⟨.tenant port, payload⟩] } }))
    ∧ (∀ n m rest, u.serving = true → u.mgmt.svc = none → nextQueue u = some n → u.pathQueue n = m :: rest → exec (.takeMessage dt) s = .next (serveMessage (dropHead u n) m))

/-- Dictionary records: read, write, staged read, describe, commit, discard and the recovery writes: each command
completes while the block runs under its conditions on the state after the time passed (u) and on the operands, and
answers the next state its own effect gives. Commands: READ, WRITE, READ_STAGED, DESCRIBE, COMMIT, COMMIT_APPLIED,
DISCARD, RECOVERY_WRITE_RESUME. -/
def Obligations.RecordsComplete : Prop :=
  ∀ (dt : Nat) (s u : State), u = s.advance dt → s.phase = .running →
    (∀ w r path o, w = settleFor u (r.index * 256 + r.sub) (r.elem.getD 0) → mayServe w path .read r = true → checkRecord w path .read r = .ok → lookupObj r.index r.sub = .ok o → o.count = 0 → canRead (pathClass path) o = true → r.index * 256 + r.sub ∉ [Obj.TRACT_MEM_DATA, Obj.TEN_DLOG_TAKE, Obj.TLM_READ, Obj.STAT_DUMP_DATA] → exec (.read dt (.record path r)) s = .next (answer (readEffect (r.index * 256 + r.sub) (r.elem.getD 0) w) path .read r .ok (objBytes w o.addr (r.elem.getD 0))))
    ∧ (∀ port offset width, exec (.read dt (.window port offset width)) s = .next (windowRead u port offset width))
    ∧ (∀ port vppb q, u.isHost port = true → u.edgeUp port = true → vppb < 64 → exec (.read dt (.config port vppb q)) s = .next (completeRead u port 4 (.toPort port "configuration read" [vppb, fnCode q, fnRead u port vppb q])))
    ∧ (∀ w r path o, w = settleFor u (r.index * 256 + r.sub) (r.elem.getD 0) → mayServe w path .write r = true → checkRecord w path .write r = .ok → (path = .i3c → w.reg Obj.STG_STATUS ≠ 2) → findObj (r.index * 256 + r.sub) = some o → o.onCommit = true → pathClass path ≠ .o → r.index * 256 + r.sub ∉ [Obj.STG_COMMIT, Obj.TRACT_MEM_DATA, Obj.MBX_IN_DATA, Obj.MBX_IN_SEND, Obj.RST_CHIP_RESET, Obj.LIFE_REQUEST] → exec (.write dt (.record path r)) s = .next (answer (stageRecord w path (r.index * 256 + r.sub) r.elem (writtenValue o (ofLe r.data))) path .write r .ok []))
    ∧ (∀ w r path o, w = settleFor u (r.index * 256 + r.sub) (r.elem.getD 0) → mayServe w path .write r = true → checkRecord w path .write r = .ok → (path = .i3c → w.reg Obj.STG_STATUS ≠ 2) → findObj (r.index * 256 + r.sub) = some o → o.onCommit = false → pathClass path ≠ .o → r.index * 256 + r.sub ∉ [Obj.STG_COMMIT, Obj.TRACT_MEM_DATA, Obj.MBX_IN_DATA, Obj.MBX_IN_SEND, Obj.RST_CHIP_RESET, Obj.LIFE_REQUEST] → exec (.write dt (.record path r)) s = .next (answer (recordWriter (objEffect (r.index * 256 + r.sub) (r.elem.getD 0) (writtenValue o (ofLe r.data)) r.data w) (pathCode path) (pathPort path) (r.index * 256 + r.sub) r.elem) path .write r .ok []))
    ∧ (∀ a, exec (.write dt (.window a)) s = .next (windowWrite u a))
    ∧ (∀ port vppb q value, u.isHost port = true → u.edgeUp port = true → vppb < 64 → exec (.write dt (.config port vppb q value)) s = .next (completeRead (fnWrite u port vppb q value) port 0 (.toPort port "configuration write done" [vppb, fnCode q])))
    ∧ (∀ (path : Path) (r : Rec) v o, pathClass path ≠ .t → stagedValue u (r.index * 256 + r.sub) r.elem = some v → mayServe u path .staged r = true → checkRecord u path .staged r = .ok → lookupObj r.index r.sub = .ok o → o.count = 0 → canRead (pathClass path) o = true → exec (.readStaged dt path r) s = .next (answer u path .staged r .ok (leBytes v (objSize o.addr))))
    ∧ (∀ (path : Path) (r : Rec) o, mayServe u path .describe r = true → checkRecord u path .describe r = .ok → lookupObj r.index r.sub = .ok o → exec (.describe dt path r) s = .next (answer u path .describe r .ok (describeData o)))
    ∧ (∀ (path : Path), mayServe u path .write (writeRec Obj.STG_COMMIT none 1) = true → checkRecord u path .write (writeRec Obj.STG_COMMIT none 1) = .ok → u.mgmt.staged ≠ [] → commitFindings u = [] → exec (.commit dt path) s = .next (commitBegins u path))
    ∧ (∀ (path : Path) f rest, mayServe u path .write (writeRec Obj.STG_COMMIT none 1) = true → checkRecord u path .write (writeRec Obj.STG_COMMIT none 1) = .ok → u.mgmt.staged ≠ [] → commitFindings u = f :: rest → exec (.commit dt path) s = .next (answer (commitFails u f) path .write (writeRec Obj.STG_COMMIT none 1) .commitFailed []))
    ∧ (∀ path svc t, u.mgmt.commit = some (path, svc) → t = applyStaged u → exec (.commitApplied dt) s = .next (answerCommit { t with mgmt := { t.mgmt with commit := none } } path svc (newAddresses u)))
    ∧ (∀ (path : Path), takesWrite u path Obj.STG_DISCARD none 1 = true → exec (.discard dt path) s = .next (wrote u path Obj.STG_DISCARD none 1 discardStaged))
    ∧ (∀ w rest, u.reg Obj.STG_STATUS ≠ 2 → u.serving = true → u.mgmt.recWait = w :: rest → w.svc = none → w.r.index * 256 + w.r.sub ≠ Obj.RST_CHIP_RESET → exec (.recoveryWriteResume dt) s = .next ((recordWriter (recoveryEffect { u with mgmt := { u.mgmt with recWait := rest } } (w.r.index * 256 + w.r.sub) (ofLe w.r.data)) (pathCode w.path) (pathPort w.path) (w.r.index * 256 + w.r.sub) w.r.elem).emit (.record w.path (recordBytes 2 0 (w.r.index * 256 + w.r.sub) w.r.elem []))))

/-- The fabric-manager commands of the switch mailbox: each command completes while the block runs under its
conditions on the state after the time passed (u) and on the operands, and answers the next state its own effect
gives. Commands: IDENTIFY, BACKGROUND_OPERATION_STATUS, GET_RESPONSE_MESSAGE_LIMIT, SET_RESPONSE_MESSAGE_LIMIT,
GET_EVENT_RECORDS, CLEAR_EVENT_RECORDS, GET_TIMESTAMP, SET_TIMESTAMP, IDENTIFY_SWITCH_DEVICE, GET_PHYSICAL_PORT_STATE,
PHYSICAL_PORT_CONTROL, SEND_PPB_CXL_IO_CONFIGURATION_REQUEST, GET_VIRTUAL_CXL_SWITCH_INFO, BIND_VPPB, UNBIND_VPPB,
GENERATE_AER_EVENT, TUNNEL_MANAGEMENT_COMMAND, SEND_LD_CXL_IO_CONFIGURATION_REQUEST, SEND_LD_CXL_IO_MEMORY_REQUEST,
UNSUPPORTED_OPCODE. -/
def Obligations.FabricManagerComplete : Prop :=
  ∀ (dt : Nat) (s u : State), u = s.advance dt → s.phase = .running →
    (∀ (port : Nat), fmServes u port = true → exec (.identify dt port) s = .next (fmPayload port 0x0001 [u.reg Obj.ID_VENDOR, u.reg Obj.ID_PART, u.reg Obj.ID_SERIAL] u))
    ∧ (∀ (port : Nat), fmServes u port = true → exec (.backgroundOperationStatus dt port) s = .next (fmPayload port 0x0002 [] u))
    ∧ (∀ (port : Nat), fmServes u port = true → exec (.getResponseMessageLimit dt port) s = .next (u.emit (.mailbox port rcSuccess (leBytes u.mgmt.respLimit 1))))
    ∧ (∀ (port : Nat) (limit : Nat), fmServes u port = true → exec (.setResponseMessageLimit dt port limit) s = .next (({ u with mgmt := { u.mgmt with respLimit := limit % 256 } }).emit (.mailbox port rcSuccess (leBytes limit 1))))
    ∧ (∀ (port : Nat), fmServes u port = true → exec (.getEventRecords dt port) s = .next (fmPayload port 0x0100 (u.edge.events.flatMap (fun e => [e.1, e.2.1, e.2.2])) u))
    ∧ (∀ (port : Nat), fmServes u port = true → exec (.clearEventRecords dt port) s = .next (({ u with edge := { u.edge with events := [] } }).emit (.mailbox port rcSuccess [])))
    ∧ (∀ (port : Nat), fmServes u port = true → exec (.getTimestamp dt port) s = .next (u.emit (.mailbox port rcSuccess (leBytes u.timeBase 8))))
    ∧ (∀ (port : Nat) (ns : Nat), fmServes u port = true → exec (.setTimestamp dt port ns) s = .next ((fmWrote { u with tlm := { u.tlm with offset := (ns % 2 ^ 64 : Int) - (u.now : Int), timeSet := true } } port Obj.TLM_TIME none).emit (.mailbox port rcSuccess [])))
    ∧ (∀ (port : Nat), fmServes u port = true → exec (.identifySwitchDevice dt port) s = .next (fmPayload port 0x5100 (port :: (List.range 64).map (fun p => b2n (u.portExists p))) u))
    ∧ (∀ port ports, fmServes u port = true → exec (.getPhysicalPortState dt ⟨port, ports⟩) s = .next (fmPayload port 0x5101 (ports.flatMap (portValues u)) u))
    ∧ (∀ (port : Nat) (target : Nat) (op : PortControl), fmServes u port = true → u.isDownstream target = true → exec (.physicalPortControl dt port target op) s = .next ((portControl u target op).emit (.mailbox port rcSuccess [])))
    ∧ (∀ (port : Nat) (ppb : Nat) (request : Nat), fmServes u port = true → u.isEdge ppb = true → exec (.sendPpbCxlIoConfigurationRequest dt port ppb request) s = .next (fmAnswered port 0x5103 (u.emit (.toPort ppb "PPB CXL.io configuration request" [request]))))
    ∧ (∀ port host, fmServes u port = true → u.isHost host = true → exec (.getVirtualCxlSwitchInfo dt ⟨port, host⟩) s = .next (fmPayload port 0x5200 (host :: u.reg Obj.EDGE_PORT_STATE host :: (List.range 64).map (fun v => u.reg Obj.EDGE_VPPB (64 * host + v))) u))
    ∧ (∀ (port : Nat) (host : Nat) (vppb : Nat) (dsp : Nat) (ldId : Nat), fmServes u port = true → mayBind u host vppb dsp ldId = true → exec (.bindVppb dt port host vppb dsp ldId) s = .next ((fmWrote (bindNow u host vppb dsp ldId) port Obj.EDGE_VPPB (some (64 * host + vppb))).emit (.mailbox port rcSuccess [])))
    ∧ (∀ (port : Nat) (vppb : Nat) (host : Nat) (managed : Bool), fmServes u port = true → 1 ≤ vppb → vppb < 64 → host < 64 → u.regBit Obj.EDGE_VPPB (64 * host + vppb) 29 = true → exec (.unbindVppb dt port host vppb managed) s = .next ((fmWrote (unbindNow u host vppb managed) port Obj.EDGE_VPPB (some (64 * host + vppb))).emit (.mailbox port rcSuccess [])))
    ∧ (∀ (port : Nat) (host : Nat) (vppb : Nat) (event : Nat), fmServes u port = true → u.isHost host = true → vppb < 64 → event < 32 → exec (.generateAerEvent dt port host vppb event) s = .next ((aerError u host vppb event).emit (.mailbox port rcSuccess [])))
    ∧ (∀ (port : Nat) (dsp : Nat) (command : List Byte), fmServes u port = true → u.isDownstream dsp = true → u.edgeUp dsp = true → exec (.tunnelManagementCommand dt port dsp command) s = .next (fmAnswered port 0x5300 (u.emit (.toPort dsp "tunnelled management command" (command.map (·.toNat))))))
    ∧ (∀ (port : Nat) (dsp : Nat) (ldId : Nat) (request : Nat), fmServes u port = true → exec (.sendLdCxlIoConfigurationRequest dt port dsp ldId request) s = .next (ldRequest port 0x5301 dsp ldId request "LD CXL.io configuration request" u))
    ∧ (∀ (port : Nat) (dsp : Nat) (ldId : Nat) (request : Nat), fmServes u port = true → exec (.sendLdCxlIoMemoryRequest dt port dsp ldId request) s = .next (ldRequest port 0x5302 dsp ldId request "LD CXL.io memory request" u))
    ∧ (∀ (port : Nat) (opcode : Nat), u.firmware = true → u.isHost port = true → servedOpcodes.contains opcode = false → exec (.unsupportedOpcode dt port opcode) s = .next (u.emit (.mailbox port rcUnsupported [])))

/-- Lanes, their adaptation, margins, tests and swaps, and the reference clocks: each command completes while the
block runs under its conditions on the state after the time passed (u) and on the operands, and answers the next state
its own effect gives. Commands: SLACK_POSITION, EB_ERROR, ADAPTATION_STEP, SAT, RESTORE, MARGIN_MEASUREMENT,
MARGIN_REQ, MARGIN_REQ_DONE, PRBS_START, PRBS_CLEAR, PRBS_LOCK, PRBS_LOCK_LOSS, PORT_TEST, RESERVE_SELF_TEST,
RESERVE_SELF_TEST_END, SWAP, REVERT, TRANSCEIVER_SELF_CHECK_FAIL, SWAP_SHADOW_TRAINED, SWAP_SWITCH, REFERENCE_GATE,
REFERENCE_STOPPED. -/
def Obligations.LanesAndReferencesComplete : Prop :=
  ∀ (dt : Nat) (s u : State), u = s.advance dt → s.phase = .running →
    (∀ (port : Nat) (fill : Nat) t, u.isPass port = true → u.portUp port = true → (u.passPort port).rxSlack = true → 320 < fill → t = u.setPass port { u.passPort port with rxSlack := false } → exec (.slackPosition dt port fill) s = .next (({ t with lane := { u.lane with fill := assocPut t.lane.fill port fill } }).count1 Obj.PASS_SLACK_DELETED port))
    ∧ (∀ (port : Nat) (fill : Nat) t, u.isPass port = true → u.portUp port = true → (u.passPort port).rxSlack = true → fill < 192 → t = u.setPass port { u.passPort port with rxSlack := false } → exec (.slackPosition dt port fill) s = .next (({ t with lane := { u.lane with fill := assocPut t.lane.fill port fill } }).count1 Obj.PASS_SLACK_INSERTED port))
    ∧ (∀ (port : Nat) (fill : Nat) t, u.isPass port = true → u.portUp port = true → (u.passPort port).rxSlack = true → 192 ≤ fill → fill ≤ 320 → t = u.setPass port { u.passPort port with rxSlack := false } → exec (.slackPosition dt port fill) s = .next ({ t with lane := { u.lane with fill := assocPut t.lane.fill port fill } }))
    ∧ (∀ (lane : Nat) p, u.servedPort lane = some p → assocGet u.lane.ebErrors p = none → exec (.ebError dt lane) s = .next ({ u.count1 Obj.LANE_EB_ERRORS lane with lane := { (u.count1 Obj.LANE_EB_ERRORS lane).lane with ebErrors := assocPut (u.count1 Obj.LANE_EB_ERRORS lane).lane.ebErrors p [u.now] } }))
    ∧ (∀ (lane : Nat) (ctleMove : Int) (tapMoves : List Int), adaptDue u lane = true → u.lane.restore.contains lane = false → exec (.adaptationStep dt lane ctleMove tapMoves) s = .next (stepCtle (stepTaps u lane tapMoves) lane ctleMove))
    ∧ (∀ i (lane : Nat), i < 13 → u.due ⟨.sat, lane, i⟩ = true → exec (.sat dt lane) s = .next (raise ((reload u lane).putRegBit Obj.LANE_RX_STATE lane 15 true) 3 0))
    ∧ (∀ (path : Path) (lane : Nat) (value : Nat), takesWrite u path Obj.LANE_ADAPT_CTRL (some lane) value = true → exec (.restore dt path lane value) s = .next (wrote u path Obj.LANE_ADAPT_CTRL (some lane) value (fun t => adaptCtrlWrite t lane value)))
    ∧ (∀ (lane : Nat) t e middle upper lower, u.due ⟨.margin, lane, 0⟩ = true → t = u.disarm ⟨.margin, lane, 0⟩ → e = reportedEye t lane middle upper lower → exec (.marginMeasurement dt lane ⟨middle, upper, lower⟩) s = .next (judgeMargin ((setMargin t lane e.1 e.2).arm ⟨.margin, lane, 0⟩ 1000000000) lane e.2))
    ∧ (∀ (path : Path) (lane : Nat) (eye : Nat), takesWrite u path Obj.LANE_MARGIN_REQ (some lane) eye = true → exec (.marginReq dt path lane eye) s = .next (wrote u path Obj.LANE_MARGIN_REQ (some lane) eye (fun t => marginReqWrite t lane eye)))
    ∧ (∀ (lane : Nat) eye (m : Margin), assocGet u.lane.marginReq lane = some eye → exec (.marginReqDone dt lane m) s = .next ((setMargin { u with lane := { u.lane with marginReq := assocDrop u.lane.marginReq lane } } lane eye m).disarm ⟨.marginReq, lane, 0⟩))
    ∧ (∀ (path : Path) (lane : Nat) (value : Nat), takesWrite u path Obj.LANE_PRBS_CTRL (some lane) value = true → exec (.prbsStart dt path lane value) s = .next (wrote u path Obj.LANE_PRBS_CTRL (some lane) value (fun t => prbsCtrlWrite t lane value)))
    ∧ (∀ (path : Path) (lane : Nat) (value : Nat), takesWrite u path Obj.LANE_PRBS_CTRL (some lane) value = true → exec (.prbsClear dt path lane value) s = .next (wrote u path Obj.LANE_PRBS_CTRL (some lane) value (fun t => prbsCtrlWrite t lane value)))
    ∧ (∀ lane window, u.regBit Obj.LANE_PRBS_CTRL lane 1 = true → u.regBit Obj.LANE_PRBS_CTRL lane 15 = false → prbsLocks (u.regBits Obj.LANE_PRBS_CTRL lane 4 3) (u.regBit Obj.LANE_PRBS_CTRL lane 7) window = true → exec (.prbsLock dt ⟨lane, window⟩) s = .next ((({ u with lane := { u.lane with prbsSince := assocPut u.lane.prbsSince lane u.now } }).putRegBit Obj.LANE_PRBS_CTRL lane 15 true).setRegBits Obj.LANE_PRBS_ERRORS lane 0 32 0))
    ∧ (∀ (lane : Nat) (errors : Nat), u.regBit Obj.LANE_PRBS_CTRL lane 15 = true → 512 < errors → exec (.prbsLockLoss dt lane 1024 errors) s = .next (unlockPrbs u lane))
    ∧ (∀ (path : Path) (port : Nat) (value : Nat), takesWrite u path Obj.LANE_PORT_TEST (some port) value = true → exec (.portTest dt path port value) s = .next (wrote u path Obj.LANE_PORT_TEST (some port) value (fun t => portTestWrite t port value)))
    ∧ (∀ (group : Nat) t, u.due ⟨.selfTestHour, group, 0⟩ = true → t = (u.disarm ⟨.selfTestHour, group, 0⟩).arm ⟨.selfTestHour, group, 0⟩ 3600000000000 → t.reserveState group = 0 → assocGet t.lane.swaps group = none → exec (.reserveSelfTest dt group) s = .next ((setSelfTest t (t.lane.selfTest ++ [group])).arm ⟨.selfTest, group, 0⟩ 1000000000))
    ∧ (∀ (group : Nat), u.due ⟨.selfTest, group, 0⟩ = true → exec (.reserveSelfTestEnd dt group 0) s = .next (setSelfTest (u.disarm ⟨.selfTest, group, 0⟩) (u.lane.selfTest.filter (· != group))))
    ∧ (∀ (group : Nat) (errors : Nat), u.due ⟨.selfTest, group, 0⟩ = true → 0 < errors → exec (.reserveSelfTestEnd dt group errors) s = .next (raise (countReserves (setReserve (setSelfTest (u.disarm ⟨.selfTest, group, 0⟩) (u.lane.selfTest.filter (· != group))) group 3 0)) 3 2))
    ∧ (∀ (path : Path) (group : Nat) (lane : Nat), takesWrite u path Obj.LANE_SWAP_CMD (some group) (lane % 16) = true → exec (.swap dt path group lane) s = .next (wrote u path Obj.LANE_SWAP_CMD (some group) (lane % 16) (fun t => swapCmdWrite t group (lane % 16))))
    ∧ (∀ (path : Path) (group : Nat), takesWrite u path Obj.LANE_SWAP_CMD (some group) 256 = true → exec (.revert dt path group) s = .next (wrote u path Obj.LANE_SWAP_CMD (some group) 256 (fun t => swapCmdWrite t group 256)))
    ∧ (∀ (lane : Nat), lane < 256 → u.transceiver lane = lane → exec (.transceiverSelfCheckFail dt lane) s = .next (qualifySwap u lane 0))
    ∧ (∀ (group : Nat) j (ctle : Nat), assocGet u.lane.swaps group = some j → j.step = .shadowing → j.revert = false → exec (.swapShadowTrained dt group ctle) s = .next ({ (captureTraining u (reserveLane group) { foundTraining u.freeNow (u.reg Obj.LANE_TX_FFE (16 * group + j.lane)) with ctle := ctle % 32 }).useFree.setReg Obj.LANE_TX_FFE (reserveLane group) (u.reg Obj.LANE_TX_FFE (16 * group + j.lane)) with lane := { ((captureTraining u (reserveLane group) { foundTraining u.freeNow (u.reg Obj.LANE_TX_FFE (16 * group + j.lane)) with ctle := ctle % 32 }).useFree.setReg Obj.LANE_TX_FFE (reserveLane group) (u.reg Obj.LANE_TX_FFE (16 * group + j.lane))).lane with swaps := assocPut ((captureTraining u (reserveLane group) { foundTraining u.freeNow (u.reg Obj.LANE_TX_FFE (16 * group + j.lane)) with ctle := ctle % 32 }).useFree.setReg Obj.LANE_TX_FFE (reserveLane group) (u.reg Obj.LANE_TX_FFE (16 * group + j.lane))).lane.swaps group { j with step := .ready } } }.disarm ⟨.shadow, group, 0⟩))
    ∧ (∀ (group : Nat) j, assocGet u.lane.swaps group = some j → j.step = .ready → exec (.swapSwitch dt group) s = .next (swapDone u group j))
    ∧ (∀ (ref : Nat) (hz : Nat), ref < 18 → inWindow u ref hz = true → exec (.referenceGate dt ref hz) s = .next (referenceGood u ref))
    ∧ (∀ (ref : Nat) (hz : Nat), ref < 18 → inWindow u ref hz = false → exec (.referenceGate dt ref hz) s = .next (referenceLost u ref))
    ∧ (∀ (ref : Nat), ref < 18 → exec (.referenceStopped dt ref) s = .next (referenceLost u ref))

/-- Edge ports: links, PERST, bindings, IDE, PBR flits and decoders: each command completes while the block runs under
its conditions on the state after the time passed (u) and on the operands, and answers the next state its own effect
gives. Commands: HOST_PERST, PERST_DEASSERT, FUNCTION_LEVEL_RESET, EDGE_LINK_UP, FABRIC_RETRAIN, HOST_LINK_DOWN,
GRACE_EXPIRY, DOWNSTREAM_LINK_DOWN, LD_IDENTITY_READ, BIND_COMPLETE, IDE_INTEGRITY_FAIL, IDE_KEY_EXCHANGE_DONE,
IDE_REFRESH, PBR_FLIT, HDM_DECODER_COMMIT, FABRIC_LINK_DOWN, ATTENTION_BUTTON, DOE_REQUEST, ETH_LINK_DOWN. -/
def Obligations.EdgeLinksComplete : Prop :=
  ∀ (dt : Nat) (s u : State), u = s.advance dt → s.phase = .running →
    (∀ (port : Nat) (hot : Bool), u.isHost port = true → exec (.hostPerst dt port hot) s = .next (resetTenancyOf (propagateReset (resetSwitch (resetFunction (edgeLinkDown (u.count1 Obj.EDGE_PERST_EVENTS port) port) port) port) port) port 1))
    ∧ (∀ (port : Nat), u.due ⟨.perst, port, 0⟩ = true → (u.disarm ⟨.perst, port, 0⟩).isDownstream port = true → powerGood (u.disarm ⟨.perst, port, 0⟩) port = true → exec (.perstDeassert dt port) s = .next ({ u.disarm ⟨.perst, port, 0⟩ with edge := { u.edge with perstReleased := port :: u.edge.perstReleased.filter (· != port) } }))
    ∧ (∀ (port : Nat), u.isHost port = true → u.edgeUp port = true → exec (.functionLevelReset dt port) s = .next (resetTenancyOf u port 2))
    ∧ (∀ (port : Nat) (offer : Offer), mayTrainEdge u port = true → 0 < offer.width → u.isFabric port = false → exec (.edgeLinkUp dt port offer) s = .next (linkComesUp u port offer (negotiate (u.reg Obj.EDGE_PROTOCOLS port) (u.isHost port) (u.isDownstream port) offer)))
    ∧ (∀ (port : Nat) (offer : Offer) n, mayTrainEdge u port = true → 0 < offer.width → u.isFabric port = true → n = negotiate (u.reg Obj.EDGE_PROTOCOLS port) (u.isHost port) (u.isDownstream port) offer → n.version = 3 → 2 ≤ n.flit → exec (.edgeLinkUp dt port offer) s = .next (linkComesUp u port offer n))
    ∧ (∀ (port : Nat) (offer : Offer) n, mayTrainEdge u port = true → 0 < offer.width → u.isFabric port = true → n = negotiate (u.reg Obj.EDGE_PROTOCOLS port) (u.isHost port) (u.isDownstream port) offer → n.version ≠ 3 ∨ n.flit < 2 → exec (.edgeLinkUp dt port offer) s = .next (u.arm ⟨.fabricIdle, port, 0⟩ 100000000))
    ∧ (∀ (port : Nat), u.due ⟨.fabricIdle, port, 0⟩ = true → exec (.fabricRetrain dt port) s = .next ((u.disarm ⟨.fabricIdle, port, 0⟩).emit (.toPort port "train" [])))
    ∧ (∀ (port : Nat) (cause : LinkCause), u.isHost port = true → u.edgeUp port = true → cause ≠ .surprise → exec (.hostLinkDown dt port cause) s = .next (edgeLinkDown u port))
    ∧ (∀ (port : Nat), u.isHost port = true → u.edgeUp port = true → exec (.hostLinkDown dt port .surprise) s = .next (raise ((edgeLinkDown u port).count1 Obj.EDGE_SURPRISE_DOWN port) 4 1))
    ∧ (∀ (port : Nat) a, u.due ⟨.grace, port, 0⟩ = true → u.portAgent port = some a → u.agentState a = 2 → exec (.graceExpiry dt port) s = .next (declareDead (u.disarm ⟨.grace, port, 0⟩) a))
    ∧ (∀ (port : Nat), u.isDownstream port = true → u.edgeUp port = true → exec (.downstreamLinkDown dt port) s = .next (edgeLinkDown u port))
    ∧ (∀ (port : Nat) (ldId : Nat) d (serial : Nat) (capacity : Nat), u.isDownstream port = true → u.edgeUp port = true → ldId < 16 → assocGet u.edge.lds (16 * port + ldId) = some d → exec (.ldIdentityRead dt port ldId serial capacity) s = .next (identityRead u (16 * port + ldId) serial capacity d))
    ∧ (∀ (host : Nat) (vppb : Nat), host < 64 → 1 ≤ vppb → vppb < 64 → u.regBits Obj.EDGE_VPPB (64 * host + vppb) 30 2 = 1 → exec (.bindComplete dt host vppb) s = .next (u.setRegBits Obj.EDGE_VPPB (64 * host + vppb) 30 2 2))
    ∧ (∀ (host : Nat) (vppb : Nat), host < 64 → 1 ≤ vppb → vppb < 64 → u.regBits Obj.EDGE_VPPB (64 * host + vppb) 30 2 = 3 → exec (.bindComplete dt host vppb) s = .next (unbound u host vppb))
    ∧ (∀ (port : Nat), u.isEdge port = true → u.edgeUp port = true → u.regBits Obj.EDGE_IDE_STATUS port 0 2 = 2 → exec (.ideIntegrityFail dt port) s = .next (raise (edgeLinkDown ((countIdeFailure u port).setRegBits Obj.EDGE_IDE_STATUS port 0 2 3) port) 4 0))
    ∧ (∀ port, u.isEdge port = true → u.edgeUp port = true → u.regBits Obj.EDGE_IDE_STATUS port 0 2 = 1 ∨ u.regBits Obj.EDGE_IDE_STATUS port 0 2 = 3 → exec (.ideKeyExchangeDone dt ⟨port, none⟩) s = .next (linkSecure u port))
    ∧ (∀ port k, u.isEdge port = true → u.edgeUp port = true → exec (.ideKeyExchangeDone dt ⟨port, some k⟩) s = .next (addStream u port k))
    ∧ (∀ (path : Path) (port : Nat) (value : Nat), takesWrite u path Obj.EDGE_IDE_CTRL (some port) value = true → exec (.ideRefresh dt path port value) s = .next (wrote u path Obj.EDGE_IDE_CTRL (some port) value (fun t => ideCtrlWrite t port value)))
    ∧ (∀ (port : Nat) (dpid : Nat) (spid : Nat), u.isFabric port = true → u.carriesTraffic port = true → u.reg Obj.EDGE_POOL_PBR_ID = dpid → dpid ≠ 0xFFFF → exec (.pbrFlit dt port spid dpid) s = .next (u))
    ∧ (∀ (port : Nat) (dpid : Nat) q (spid : Nat), u.isFabric port = true → u.carriesTraffic port = true → u.reg Obj.EDGE_POOL_PBR_ID ≠ dpid → pbrFunction u dpid = some q → exec (.pbrFlit dt port spid dpid) s = .next (u.emit (.toPort q "PBR flit" [spid, dpid])))
    ∧ (∀ (port : Nat) (dpid : Nat) (spid : Nat), u.isFabric port = true → u.carriesTraffic port = true → u.reg Obj.EDGE_POOL_PBR_ID ≠ dpid → pbrFunction u dpid = none → exec (.pbrFlit dt port spid dpid) s = .next (raise (u.count1 Obj.EDGE_PBR_DROPPED port) 4 3))
    ∧ (∀ (port : Nat) (decoder : Nat) (base : Nat) size lock, u.isHost port = true → u.edgeUp port = true → decoder < 8 → decoderLocked u port decoder = false → exec (.hdmDecoderCommit dt port decoder base ⟨size, lock⟩) s = .next (commitDecoder u port decoder base size lock))
    ∧ (∀ (port : Nat), u.isFabric port = true → u.edgeUp port = true → exec (.fabricLinkDown dt port) s = .next (edgeLinkDown u port))
    ∧ (∀ (port : Nat), u.isDownstream port = true → exec (.attentionButton dt port) s = .next (forEach (List.range 16) u fun t ld => match t.boundVppb port ld with | some v => t.emit (.toPort (v / 64) "attention button" [v % 64]) | none => t))
    ∧ (∀ (port : Nat) (protocol : Nat) (request : List Byte), u.isHost port = true → u.edgeUp port = true → doeProtocols.contains protocol = true → exec (.doeRequest dt port protocol request) s = .next ((u.emit (.toPort port "DOE response" (protocol :: (Config.standardPayload (0x10000 + ofLe request) u.free).map (·.toNat)))).useFree))
    ∧ (u.firmware = true → u.reg Obj.MGP_ETH_MODE ≠ 0 → exec (.ethLinkDown dt) s = .next (raise u 1 0))

/-- What hosts and devices send at a coherence port: each command completes while the block runs under its conditions
on the state after the time passed (u) and on the operands, and answers the next state its own effect gives. Commands:
HOST_M2S_REQ, HOST_M2S_RWD, HOST_BIRSP, BIRSP_FORWARD, BICONFLICT, BICONFLICT_ACK. -/
def Obligations.CoherencePortsComplete : Prop :=
  ∀ (dt : Nat) (s u : State), u = s.advance dt → s.phase = .running →
    (∀ (src : HostSource) a (m : HostReq), heard u src .m2sReq = some a → exec (.hostM2sReq dt src m) s = .next (reqEffect u src m a))
    ∧ (∀ (src : HostSource) a (m : HostRwd), heard u src .m2sRwd = some a → exec (.hostM2sRwd dt src m) s = .next (rwdEffect u src m a))
    ∧ (∀ (src : HostSource) a (m : HostBirsp), heard u src .biRsp = some a → exec (.hostBirsp dt src m) s = .next (birspEffect u src m a))
    ∧ (∀ x (agent : Nat) (key : Nat) r, u.coh.snoops.find? (fun x => x.agent == agent && x.msg.key == key && x.rsp.isSome) = some x → x.rsp = some r → u.coh.txns.any (keepsBack agent key r.2) = false → exec (.birspForward dt agent key) s = .next (sendRequest { u with coh := { u.coh with snoops := u.coh.snoops.filter (· != x) } } .biRsp { x.msg with kind := 0x23, tc := 7, dst := u.ownSwitch, src := u.ownSwitch, arg := r.1, agent := agent, switch := u.ownSwitch }))
    ∧ (∀ (src : HostSource) a (addr : Nat) k, heard u src .m2sReq = some a → u.resolve src a addr = some k → exec (.biconflict dt src addr) s = .next ({ u.count1 Obj.COH_BI_CONFLICTS 0 with coh := { (u.count1 Obj.COH_BI_CONFLICTS 0).coh with conflicts := (u.count1 Obj.COH_BI_CONFLICTS 0).coh.conflicts ++ [(a, k)] } }))
    ∧ (∀ (agent : Nat) (key : Nat), u.coh.conflicts.contains (agent, key) = true → exec (.biconflictAck dt agent key) s = .next (({ u with coh := { u.coh with conflicts := u.coh.conflicts.erase (agent, key) } }).emit (.toPort (u.agentPort agent) "BIConflictAck" [agent, key])))

/-- Cells of the shared buffer, from a message to its cells and out again: each command completes while the block runs
under its conditions on the state after the time passed (u) and on the operands, and answers the next state its own
effect gives. Commands: MESSAGE_INGRESS, OPEN_CELL_CLOSE, CELL_ADMIT, CELL_WRITE, CELL_READ, STALL, LOW_FREE_WRITE,
PASS_POOL_TO_BASIN. -/
def Obligations.BasinComplete : Prop :=
  ∀ (dt : Nat) (s u : State), u = s.advance dt → s.phase = .running →
    (∀ (ingress : Nat) (m : FabricMsg), mayArrive u ingress m = true → pathOpen u ingress m = true → storable m = true → exec (.messageIngress dt ingress m) s = .next (messageArrives u ingress m))
    ∧ (∀ (ingress : Nat) (cls : BasinClass) c, assocGet u.basin.open_ (openKey ingress cls) = some c → c.last < u.now → exec (.openCellClose dt ingress cls) s = .next (closeOpen u (openKey ingress cls)))
    ∧ (∀ c (ingress : Nat) (cls : BasinClass) rest, takeFirst (fun (c : Offered) => c.ingress == ingress && c.cls == cls) u.basin.fifo = some (c, rest) → u.basin.stopped = false → admits u c = true → exec (.cellAdmit dt ingress cls) s = .next (admitCell { u with basin := { u.basin with fifo := rest } } c))
    ∧ (∀ c (ingress : Nat) (cls : BasinClass) (busy : List Nat) b r, u.basin.stored.find? (fun c => c.ingress == ingress && c.cls == cls && !c.targets.isEmpty && decide (c.ptrs.length < c.n)) = some c → bestBank u busy 64 = some b → freeRow u b.1 = some r → exec (.cellWrite dt ingress cls busy) s = .next (writeCell u c (64 * r + b.1)))
    ∧ (∀ r (egress : Nat) (ptr : Nat) (err : CellError), u.basin.stopped = false → u.basin.reading.find? (fun r => r.egress == egress) = some r → nextCell u r = some ptr → (readError u err).basin.stopped = false → exec (.cellRead dt egress ptr err) s = .next (stallAgain (readStep (readError u err) { r with dropped := r.dropped || err == .unitHeader, poison := r.poison || err == .unitData }) egress))
    ∧ (∀ (egress : Nat) t, assocGet u.basin.stallSince egress = some t → t + u.reg Obj.BASIN_STALL_LIMIT * 1000 ≤ u.now → u.egressBusy egress = true → exec (.stall dt egress) s = .next (raise ((setStall u egress false).count1 Obj.BASIN_STALLS egress) 5 8))
    ∧ (∀ (path : Path) (value : Nat), takesWrite u path Obj.BASIN_LOW_FREE none value = true → exec (.lowFreeWrite dt path value) s = .next (wrote u path Obj.BASIN_LOW_FREE none value (fun t => t.setReg Obj.BASIN_LOW_FREE 0 (t.reg Obj.BASIN_FREE_CELLS))))
    ∧ (∀ (port : Nat) (index : Nat) m r, (u.passPort port).rxPool[index]? = some m → mayLeavePool u port m = true → takePool u port m.bytes = some r → exec (.passPoolToBasin dt port index) s = .next (placeMessage r.1 port r.2))

/-- Egress selection, eligibility, shapers and the rebinding of groups: each command completes while the block runs
under its conditions on the state after the time passed (u) and on the operands, and answers the next state its own
effect gives. Commands: EGRESS_SELECT, QUEUE_ELIGIBLE, SHAPER_WRITE, GROUP_REBIND_DONE. -/
def Obligations.SchedulerComplete : Prop :=
  ∀ (dt : Nat) (s u : State), u = s.advance dt → s.phase = .running →
    (∀ (egress : Nat) t (blocked : List LinkChannel) q, selects u egress = true → t = refreshEligible u blocked egress → tc7Queue t blocked egress = some q → exec (.egressSelect dt egress blocked) s = .next (sendFrom t blocked egress q false))
    ∧ (∀ (egress : Nat) t (blocked : List LinkChannel) q, selects u egress = true → t = refreshEligible u blocked egress → tc7Queue t blocked egress = none → fairQueue t egress = some q → portHeld t egress = false → exec (.egressSelect dt egress blocked) s = .next (sendFrom (settleShaped t egress false) blocked egress q true))
    ∧ (∀ (egress : Nat) t (blocked : List LinkChannel) q, selects u egress = true → t = refreshEligible u blocked egress → tc7Queue t blocked egress = none → fairQueue t egress = some q → portHeld t egress = true → exec (.egressSelect dt egress blocked) s = .next (settleShaped t egress true))
    ∧ (∀ (queue : Nat) e, (u.basin.entries.find? (fun x => x.queue == queue)).map (fun x => x.egress) = some e → eligibleNow u [] e queue = true → u.sched.eligible.contains queue = false → exec (.queueEligible dt queue) s = .next (onEligible e u queue))
    ∧ (∀ (path : Path) (elem : Nat) (value : Nat), takesWrite u path Obj.SCHED_PORT_SHAPER (some elem) value = true → exec (.shaperWrite dt path true elem value) s = .next (wrote u path Obj.SCHED_PORT_SHAPER (some elem) value (shaperEffect true elem value)))
    ∧ (∀ (path : Path) (elem : Nat) (value : Nat), takesWrite u path Obj.SCHED_QUEUE_SHAPER (some elem) value = true → exec (.shaperWrite dt path false elem value) s = .next (wrote u path Obj.SCHED_QUEUE_SHAPER (some elem) value (shaperEffect false elem value)))
    ∧ (∀ (group : Nat), u.groupBusy group = false → exec (.groupRebindDone dt group) s = .next (rebindNow u group))

/-- Flits, replay, training and recovery of the Pass links: each command completes while the block runs under its
conditions on the state after the time passed (u) and on the operands, and answers the next state its own effect
gives. Commands: FLIT_TX, FLIT_RX, ACK_TIMER, REPLAY_TIMER, RECEIVER_DETECT, DETECT_TIMEOUT, TRAINING_FRAME,
TRAINING_PHASE_TIMEOUT, TRAINING_IDLE_END, CONFIG_TIMEOUT, RECOVERY_TIMEOUT, LANE_LOCK_LOSS, GOING_DOWN,
REPLAY_BUFFER_UE. -/
def Obligations.PassComplete : Prop :=
  ∀ (dt : Nat) (s u : State), u = s.advance dt → s.phase = .running →
    (∀ (port : Nat), u.isPass port = true → u.passState port = 3 ∨ u.passState port = 4 → (u.passPort port).downTo = none → u.txMode port ≠ 2 → u.txOutstanding port ≠ 512 → (u.passPort port).staging ≠ [] → exec (.flitTx dt port) s = .next (buildData u port))
    ∧ (∀ (port : Nat), u.isPass port = true → u.passState port = 3 ∨ u.passState port = 4 → (u.passPort port).downTo = none → u.txMode port = 2 → exec (.flitTx dt port) s = .next (resend u port))
    ∧ (∀ (port : Nat), u.isPass port = true → u.passState port = 3 ∨ u.passState port = 4 → (u.passPort port).downTo = none → u.txMode port ≠ 2 → u.txOutstanding port = 512 ∨ (u.passPort port).staging = [] → exec (.flitTx dt port) s = .next (sendIdle u port))
    ∧ (∀ (port : Nat), u.isPass port = true → u.passState port = 2 → u.armed ⟨.trainIdle, port, 0⟩ = false → exec (.flitTx dt port) s = .next (sendFrames u port (u.passPort port).phase (u.passPort port).lanes))
    ∧ (∀ (port : Nat) t (lanes : List (List Level)) bs fixes, u.isPass port = true → u.passState port = 3 ∨ u.passState port = 4 → t = receivedBlocks u port (u.flitBlocks port) → fecDecode (flitOfLanes (max 1 (u.portWidth port)) lanes) = some (bs, fixes) → leField bs 472 8 = crc64 (bs.take 472) → exec (.flitRx dt port lanes) s = .next (goodFlit ((t.count Obj.PASS_FEC_CORRECTED port fixes.sum).count1 Obj.PASS_FEC_HIST (5 * port + fixes.foldl max 0)) port bs))
    ∧ (∀ (port : Nat) t (lanes : List (List Level)), u.isPass port = true → u.passState port = 3 ∨ u.passState port = 4 → t = receivedBlocks u port (u.flitBlocks port) → fecDecode (flitOfLanes (max 1 (u.portWidth port)) lanes) = none → exec (.flitRx dt port lanes) s = .next (badFlit t Obj.PASS_FEC_UE port))
    ∧ (∀ (port : Nat), u.due ⟨.ack, port, 0⟩ = true → exec (.ackTimer dt port) s = .next (advanceAck (u.disarm ⟨.ack, port, 0⟩) port))
    ∧ (∀ (port : Nat), u.due ⟨.replay, port, 0⟩ = true → exec (.replayTimer dt port) s = .next (replayExpired (u.disarm ⟨.replay, port, 0⟩) port))
    ∧ (∀ (port : Nat), u.passState port = 1 → u.mayTrain port = true → exec (.receiverDetect dt port) s = .next ((holdSwaps ((setPassState ((u.setPass port { u.passPort port with lanes := freshLanes u port, phase := 0 }).disarm ⟨.detect, port, 0⟩) port 2).putRegBit Obj.PASS_LINK_STATE port 23 (u.portKind port == 3)) port).arm ⟨.phase, port, 0⟩ 10000000))
    ∧ (∀ (port : Nat), u.due ⟨.detect, port, 0⟩ = true → (u.disarm ⟨.detect, port, 0⟩).passState port = 1 → exec (.detectTimeout dt port) s = .next ((u.disarm ⟨.detect, port, 0⟩).arm ⟨.detect, port, 0⟩ 12000000))
    ∧ (∀ (port : Nat) (lane : Nat) (word : Nat) (inverted : Bool) (own : LaneReport), u.passState port = 5 → exec (.trainingFrame dt port lane word inverted own) s = .next (frameEffect u port lane word inverted own))
    ∧ (∀ (port : Nat), u.due ⟨.phase, port, 0⟩ = true → (u.disarm ⟨.phase, port, 0⟩).passState port = 2 → exec (.trainingPhaseTimeout dt port) s = .next (((setPassReason (u.disarm ⟨.phase, port, 0⟩) port 1).count1 Obj.PASS_TRAIN_FAILS port).arm ⟨.trainIdle, port, 0⟩ 1000000))
    ∧ (∀ (port : Nat), u.due ⟨.trainIdle, port, 0⟩ = true → (u.disarm ⟨.trainIdle, port, 0⟩).passState port = 2 → exec (.trainingIdleEnd dt port) s = .next ((setPassState (u.disarm ⟨.trainIdle, port, 0⟩) port 1).arm ⟨.detect, port, 0⟩ 12000000))
    ∧ (∀ (port : Nat), u.due ⟨.config, port, 0⟩ = true → (u.disarm ⟨.config, port, 0⟩).passState port = 3 → exec (.configTimeout dt port) s = .next (passLinkDown (setPassReason (u.disarm ⟨.config, port, 0⟩) port 2) port ((u.disarm ⟨.config, port, 0⟩).passAfterDown port)))
    ∧ (∀ (port : Nat), u.due ⟨.recovery, port, 0⟩ = true → (u.disarm ⟨.recovery, port, 0⟩).passState port = 5 → exec (.recoveryTimeout dt port) s = .next (passLinkDown (setPassReason (u.disarm ⟨.recovery, port, 0⟩) port 6) port ((u.disarm ⟨.recovery, port, 0⟩).passAfterDown port)))
    ∧ (∀ (port : Nat) (lane : Nat), u.isPass port = true → lane < u.portWidth port → exec (.laneLockLoss dt port lane) s = .next (enterRecovery u port))
    ∧ (∀ (port : Nat) n, u.due ⟨.goingDown, port, 0⟩ = true → ((u.disarm ⟨.goingDown, port, 0⟩).passPort port).downTo = some n → exec (.goingDown dt port) s = .next (passLinkDown (u.disarm ⟨.goingDown, port, 0⟩) port (if n = 1 then (u.disarm ⟨.goingDown, port, 0⟩).passAfterDown port else n)))
    ∧ (∀ (port : Nat), u.isPass port = true → u.passState port ≠ 0 → u.passState port ≠ 6 → exec (.replayBufferUe dt port) s = .next (passGoDown (raise u 6 7 port) port 9 1))

/-- Messages, routes and probes of the Pass links: each command completes while the block runs under its conditions on
the state after the time passed (u) and on the operands, and answers the next state its own effect gives. Commands:
PASS_MESSAGE, HELLO, ROUTE, ROUTE_SEND, ROUTE_ENTRY_CLEAR, ROUTE_RECOMPUTE, PROBE_SEND, PROBE, PROBE_REPLY. -/
def Obligations.PassMessagesComplete : Prop :=
  ∀ (dt : Nat) (s u : State), u = s.advance dt → s.phase = .running →
    (∀ (port : Nat) m (msg : List Byte) r, (u.passPort port).rxPool.find? (fun m => m.bytes == msg) = some m → mayLeavePool u port m = true → takePool u port m.bytes = some r → exec (.passMessage dt port msg) s = .next (placeMessage r.1 port r.2))
    ∧ (∀ (port : Nat) (msg : List Byte) t, takeLink u port 0x60 msg = some t → u.passState port = 3 → msg.length = 48 → exec (.hello dt port msg) s = .next (helloEffect t port msg))
    ∧ (∀ (port : Nat) (msg : List Byte) t, takeLink u port 0x61 msg = some t → exec (.route dt port msg) s = .next (routeEffect t port msg))
    ∧ (u.armed ⟨.route, 0, 0⟩ = false → exec (.routeSend dt) s = .next ((sendRoutes u).arm ⟨.route, 0, 0⟩ 100000000))
    ∧ (∀ (switch : Nat), u.due ⟨.unreachable, switch, 0⟩ = true → (u.disarm ⟨.unreachable, switch, 0⟩).routeValid switch = false → exec (.routeEntryClear dt switch) s = .next (sendRoutes (evalRegime ((u.disarm ⟨.unreachable, switch, 0⟩).setReg Obj.PASS_DOMAIN_TABLE switch 0))))
    ∧ (∀ (path : Path), takesWrite u path Obj.PASS_ROUTE_RECOMPUTE none 1 = true → exec (.routeRecompute dt path) s = .next (wrote u path Obj.PASS_ROUTE_RECOMPUTE none 1 (fun t => recomputeRoutes t true t.routeView)))
    ∧ (∀ (port : Nat) p t, u.passState port = 3 ∨ u.passState port = 4 → u.due ⟨.probe, port, 0⟩ = true → p = u.disarm ⟨.probe, port, 0⟩ → t = sendOwn p port (probeBytes p port 0x62 (p.passPort port).nextTag 0) → exec (.probeSend dt port) s = .next ((t.setPass port { t.passPort port with nextTag := ((p.passPort port).nextTag + 1) % 2 ^ 32 }).arm ⟨.probe, port, 0⟩ 1000000000))
    ∧ (∀ (port : Nat) (msg : List Byte) t, takeLink u port 0x62 msg = some t → msg.length = 32 → exec (.probe dt port msg) s = .next (sendOwn t port (probeBytes t port 0x63 (leField msg 12 4) (leField msg 16 8))))
    ∧ (∀ (port : Nat) (msg : List Byte) t x, takeLink u port 0x63 msg = some t → msg.length = 32 → (t.passPort port).probes.find? (fun x => x.tag == leField msg 12 4 && decide (t.now ≤ x.at_ + 1000000000)) = some x → exec (.probeReply dt port msg) s = .next ((t.setPass port { t.passPort port with probes := (t.passPort port).probes.filter (fun y => y.tag != x.tag) }).setReg Obj.PASS_RTT port (t.timeBase - leField msg 16 8 - t.flitTime port)))

/-- Reads, writes, scrubbing, sparing, temperature and keys of Steppe memory: each command completes while the block
runs under its conditions on the state after the time passed (u) and on the operands, and answers the next state its
own effect gives. Commands: STEPPE_READ, STEPPE_WRITE, STEPPE_INIT, STEPPE_READY, SCRUB_LINE, SCRUB_PASS_START,
SCRUB_PASS_END, SCRUB_LATE, SPARE_ROW_START, SPARE_ROW_DONE, STEPPE_SPARE_CMD, REMAP_SAVE, SANITIZE, STACK_TEMP,
INNER_CORRECTION_REPORT, XLATE. -/
def Obligations.SteppeComplete : Prop :=
  ∀ (dt : Nat) (s u : State), u = s.advance dt → s.phase = .running →
    (∀ (addr : Nat) r (errors : DramErrors) (expected : Nat), addr < steppeEnd → u.steppeReady = true → r = readLine (meetErrors u (addr / 64) errors) (addr / 64) expected → exec (.steppeRead dt addr expected errors) s = .next (r.1.emit (.steppeData (addr / 64 * 64) r.2.data r.2.poison)))
    ∧ (∀ (addr : Nat) (line : StoredLine), addr < steppeEnd → u.steppeReady = true → u.writeRoom (addr / 64) = true → exec (.steppeWrite dt addr line) s = .next (putLine u (addr / 64) { line with tag := line.tag % 4096 }))
    ∧ (∀ (failedStacks : List Nat) (badSpares : List SpareRow), u.devState = 0 → u.firmware = true → u.reg Obj.STP_STATE = 0 → failedStacks.filter (· < 4) = [] → exec (.steppeInit dt badSpares failedStacks) s = .next (testSpares (eraseAll ((countAllSpares { hardRepairs u with stp := { (hardRepairs u).stp with remaps := (hardRepairs u).stp.saved } }).setReg Obj.STP_STATE 0 1)) badSpares))
    ∧ (∀ t, u.reg Obj.STP_STATE = 1 → t = makePermanent ((u.setReg Obj.STP_STATE 0 2).disarm ⟨.watchdog, 0, 0⟩) → exec (.steppeReady dt) s = .next (report { t with boot := { t.boot with stage := .ready } } .replace))
    ∧ (∀ (line : Nat) t (errors : DramErrors), 64 * line < steppeEnd → u.steppeReady = true → u.stp.scrubbing = true → u.scrubDone (lineChannel line) = lineIndex line → sparingHolds u line = false → t = followUp u (scrubEffect (meetErrors u line errors) line) line → exec (.scrubLine dt line errors) s = .next (showScrub { t with stp := { t.stp with done := assocPut t.stp.done (lineChannel line) (lineIndex line + 1) } } (t.regBits Obj.STP_SCRUB_STATUS 0 32 32)))
    ∧ (∀ t (badSpares : List SpareRow), u.steppeReady = true → u.stp.scrubbing = false → t = { u with stp := { u.stp with scrubbing := true, passes := u.stp.passes + 1, done := [], tracker := u.stp.tracker.map (fun e => (e.1, e.2.map (fun (t : Track) => { t with count := t.count / 2 }))), passStart := u.now, period := u.reg Obj.STP_SCRUB_PERIOD } } → exec (.scrubPassStart dt badSpares) s = .next (testSpares (showScrub t (t.regBits Obj.STP_SCRUB_STATUS 0 32 32)) badSpares))
    ∧ (∀ t, u.steppeReady = true → u.stp.scrubbing = true → (List.range 128).all u.scrubbed = true → t = forEach ((u.stp.draining.filter (fun d => d.2 < u.stp.passes)).map (·.1)) { u with stp := { u.stp with scrubbing := false, done := [] } } freeSlotAgain → exec (.scrubPassEnd dt) s = .next (showScrub t ((t.regBits Obj.STP_SCRUB_STATUS 0 32 32 + 1) % 2 ^ 32)))
    ∧ (∀ (channel : Nat), u.steppeReady = true → u.stp.scrubbing = true → channel < 128 → u.scrubbed channel = false → u.scrubOverrun = true → exec (.scrubLate dt channel) s = .next (raise u 7 8))
    ∧ (∀ (channel : Nat) bank row rest t, u.steppeReady = true → assocGet u.stp.sparing channel = none → assocGet u.stp.queue channel = some ((bank, row) :: rest) → t = { u with stp := { u.stp with queue := assocPut u.stp.queue channel rest } } → (servedRow t channel bank row).isSome = true → exec (.spareRowStart dt channel) s = .next (beginSpare t channel bank row 0))
    ∧ (∀ (channel : Nat) j (errors : List (Nat × DramErrors)), u.steppeReady = true → assocGet u.stp.sparing channel = some j → exec (.spareRowDone dt channel true errors) s = .next (switchRow (copyRow u channel j errors) channel j))
    ∧ (∀ (channel : Nat) j (errors : List (Nat × DramErrors)), u.steppeReady = true → assocGet u.stp.sparing channel = some j → exec (.spareRowDone dt channel false errors) s = .next (spareFails (copyRow u channel j errors) channel j))
    ∧ (∀ (path : Path) (value : Nat), takesWrite u path Obj.STP_SPARE_CMD none value = true → exec (.steppeSpareCmd dt path value) s = .next (wrote u path Obj.STP_SPARE_CMD none value (fun t => queueRow t (bits value 20 7) (bits value 16 4) (bits value 0 16))))
    ∧ (u.firmware = true → u.flt.traps = [] → u.stp.unsaved ≠ [] → exec (.remapSave dt) s = .next (saveWear u))
    ∧ (∀ (path : Path), takesWrite u path Obj.STP_SANITIZE none 1 = true → exec (.sanitize dt path) s = .next (wrote u path Obj.STP_SANITIZE none 1 (fun t => forEach t.liveSlots t fun u k => destroySlot u k (slotFronted u k))))
    ∧ (∀ (stack : Nat) (celsius : Int), stack < 4 → exec (.stackTemp dt stack celsius) s = .next (refreshBand (u.setReg Obj.STP_TEMP stack (unsigned celsius 16)) stack celsius))
    ∧ (∀ (stack : Nat) (counts : List Nat), stack < 4 → exec (.innerCorrectionReport dt stack counts) s = .next (forEach (List.range 32) u fun t c => t.count Obj.STP_INNER_CORRECTED (32 * stack + c) (channelSum counts c)))
    ∧ (∀ (path : Path) (value : Nat), takesWrite u path Obj.STP_XLATE_ADDR none value = true → exec (.xlate dt path value) s = .next (wrote u path Obj.STP_XLATE_ADDR none value (fun t => (t.setReg Obj.STP_XLATE_ADDR 0 value).setReg Obj.STP_XLATE_RESULT 0 (xlateWord value))))

/-- The region guard's notices, the manager's window to memory and the release sweep: each command completes while the
block runs under its conditions on the state after the time passed (u) and on the operands, and answers the next state
its own effect gives. Commands: NOTICE_WINDOW_CLOSE, MEM_ADDR_WRITE, MEM_DATA_READ, MEM_DATA_WRITE,
RELEASE_SWEEP_DONE. -/
def Obligations.GuardAndMemoryComplete : Prop :=
  ∀ (dt : Nat) (s u : State), u = s.advance dt → s.phase = .running →
    (∀ (window : WindowId), u.due ⟨.noticeWindow, windowCode window, 0⟩ = true → exec (.noticeWindowClose dt window) s = .next (closeNotice (u.disarm ⟨.noticeWindow, windowCode window, 0⟩) window))
    ∧ (∀ (path : Path) (value : Nat), takesWrite u path Obj.TRACT_MEM_ADDR none value = true → exec (.memAddrWrite dt path value) s = .next (wrote u path Obj.TRACT_MEM_ADDR none value (fun t => setMemAddr t value)))
    ∧ (∀ (path : Path) o r, mayServe u path .read (readRec Obj.TRACT_MEM_DATA none) = true → checkRecord u path .read (readRec Obj.TRACT_MEM_DATA none) = .ok → privGuard u (memKey u) false = none → o = deviceOpen u (deviceMsg u 3 (memKey u) memId 0 [] false) → o.2.isSome = true → r = readKey o.1 (memKey u) → exec (.memDataRead dt path) s = .next (serveRead r.1 path .read (readRec Obj.TRACT_MEM_DATA none) (fun _ _ _ => r.2.data) (fun t => memReadDone t r.2.poison)))
    ∧ (∀ (path : Path) (value : Nat) m o b, mayServe u path .write (writeRec Obj.TRACT_MEM_DATA none value) = true → checkRecord u path .write (writeRec Obj.TRACT_MEM_DATA none value) = .ok → privGuard u (memKey u) true = none → m = deviceMsg u 5 (memKey u) memId 0 (padTo (writeRec Obj.TRACT_MEM_DATA none value).data 64) false → u.guard.memWait ≠ some (m.key, m.data) → o = deviceOpen u m → o.2 = some b → o.1.mirroredLine m.key = false → exec (.memDataWrite dt path value) s = .next (memPutDone o.1 path (writeRec Obj.TRACT_MEM_DATA none value) (fun t => deviceWrite t m b)))
    ∧ (∀ (path : Path) (value : Nat) m, mayServe u path .write (writeRec Obj.TRACT_MEM_DATA none value) = true → checkRecord u path .write (writeRec Obj.TRACT_MEM_DATA none value) = .ok → privGuard u (memKey u) true = none → m = deviceMsg u 5 (memKey u) memId 0 (padTo (writeRec Obj.TRACT_MEM_DATA none value).data 64) false → u.guard.memWait = some (m.key, m.data) → u.mirrorPending m.key = false ∨ u.mirroring = false → exec (.memDataWrite dt path value) s = .next (memPutDone { u with guard := { u.guard with memWait := none } } path (writeRec Obj.TRACT_MEM_DATA none value) (fun t => t)))
    ∧ (u.guard.releases ≠ [] → u.itemsLeft 1 = false → u.coh.ctxs.any (fun c => c.work == .release && (u.releasingAlloc (keyTract c.key)).isSome) = false → exec (.releaseSweepDone dt) s = .next (forEach u.guard.releases { u with guard := { u.guard with releases := [] } } releaseEnds))

/-- Requests, snoops and answers at the home slices and the port agents: each command completes while the block runs
under its conditions on the state after the time passed (u) and on the operands, and answers the next state its own
effect gives. Commands: RD_SHARED, RD_OWN, RD_CUR, UPGRADE, WR_FULL, WR_PTL, WRITEBACK, WRITEBACK_PTL, EVICT_CLEAN,
SNP_INV, SNP_DATA, SNP_CUR, DATA, CMP, NACK, SNP_RSP, RETRY, MOVED_RETRY. -/
def Obligations.CoherenceRequestsComplete : Prop :=
  ∀ (dt : Nat) (s u : State), u = s.advance dt → s.phase = .running →
    (∀ (m : CohMsg) (col : Nat) t, m.kind = 1 → takesRequest u col m = true → arrive u (.engine col) m = some t → exec (.rdShared dt col m) s = .next (acceptRequest t col (normalRequest m)))
    ∧ (∀ (m : CohMsg) (col : Nat) t, m.kind = 2 → takesRequest u col m = true → arrive u (.engine col) m = some t → exec (.rdOwn dt col m) s = .next (acceptRequest t col (normalRequest m)))
    ∧ (∀ (m : CohMsg) (col : Nat) t, m.kind = 3 → takesRequest u col m = true → arrive u (.engine col) m = some t → exec (.rdCur dt col m) s = .next (acceptRequest t col (normalRequest m)))
    ∧ (∀ (m : CohMsg) (col : Nat) t, m.kind = 4 → takesRequest u col m = true → arrive u (.engine col) m = some t → exec (.upgrade dt col m) s = .next (acceptRequest t col (normalRequest m)))
    ∧ (∀ (m : CohMsg) (col : Nat) t, m.kind = 5 → takesRequest u col m = true → arrive u (.engine col) m = some t → exec (.wrFull dt col m) s = .next (acceptRequest t col (normalRequest m)))
    ∧ (∀ (m : CohMsg) (col : Nat) t, m.kind = 6 → takesRequest u col m = true → arrive u (.engine col) m = some t → exec (.wrPtl dt col m) s = .next (acceptRequest t col (normalRequest m)))
    ∧ (∀ (m : CohMsg) (col : Nat) t, m.kind = 7 → takesRequest u col m = true → arrive u (.engine col) m = some t → exec (.writeback dt col m) s = .next (acceptRequest t col (normalRequest m)))
    ∧ (∀ (m : CohMsg) (col : Nat) t, m.kind = 8 → takesRequest u col m = true → arrive u (.engine col) m = some t → exec (.writebackPtl dt col m) s = .next (acceptRequest t col (normalRequest m)))
    ∧ (∀ (m : CohMsg) (col : Nat) t, m.kind = 9 → takesRequest u col m = true → arrive u (.engine col) m = some t → exec (.evictClean dt col m) s = .next (acceptRequest t col (normalRequest m)))
    ∧ (∀ (m : CohMsg) n, m.kind = 0x10 → u.coh.flight.contains ⟨.engine n, m⟩ = true → u.engineRuns n = true → u.engineOf (sliceOf m.key) = n → exec (.snpInv dt (.proxy n) m) s = .next (proxySnoop u n m))
    ∧ (∀ (m : CohMsg) a t, m.kind = 0x10 → u.agentState a = 1 → u.carriesTraffic (u.agentPort a) = true → u.snoopsAt (u.agentPort a) < 128 → arrive u (.agent a) m = some t → exec (.snpInv dt (.agent a) m) s = .next (emitBisnp { t with coh := { t.coh with snoops := t.coh.snoops ++ [⟨a, m, none⟩] } } a m))
    ∧ (∀ (m : CohMsg) n, m.kind = 0x11 → u.coh.flight.contains ⟨.engine n, m⟩ = true → u.engineRuns n = true → u.engineOf (sliceOf m.key) = n → exec (.snpData dt (.proxy n) m) s = .next (proxySnoop u n m))
    ∧ (∀ (m : CohMsg) a t, m.kind = 0x11 → u.agentState a = 1 → u.carriesTraffic (u.agentPort a) = true → u.snoopsAt (u.agentPort a) < 128 → arrive u (.agent a) m = some t → exec (.snpData dt (.agent a) m) s = .next (emitBisnp { t with coh := { t.coh with snoops := t.coh.snoops ++ [⟨a, m, none⟩] } } a m))
    ∧ (∀ (m : CohMsg) n, m.kind = 0x12 → u.coh.flight.contains ⟨.engine n, m⟩ = true → u.engineRuns n = true → u.engineOf (sliceOf m.key) = n → exec (.snpCur dt (.proxy n) m) s = .next (proxySnoop u n m))
    ∧ (∀ (m : CohMsg) a t, m.kind = 0x12 → u.agentState a = 1 → u.carriesTraffic (u.agentPort a) = true → u.snoopsAt (u.agentPort a) < 128 → arrive u (.agent a) m = some t → exec (.snpCur dt (.agent a) m) s = .next (emitBisnp { t with coh := { t.coh with snoops := t.coh.snoops ++ [⟨a, m, none⟩] } } a m))
    ∧ (∀ (m : CohMsg) t, m.kind = 0x20 → u.cohRuns = true → u.answerAt m = none → arrive u .reply m = some t → exec (.data dt m) s = .next (takeAnswer t m))
    ∧ (∀ (m : CohMsg) n, m.kind = 0x20 → u.cohRuns = true → u.answerAt m = some n → exec (.data dt m) s = .next (answerAtProxy u n m))
    ∧ (∀ (m : CohMsg) t, m.kind = 0x21 → u.cohRuns = true → u.answerAt m = none → arrive u .reply m = some t → exec (.cmp dt m) s = .next (takeAnswer t m))
    ∧ (∀ (m : CohMsg) n, m.kind = 0x21 → u.cohRuns = true → u.answerAt m = some n → exec (.cmp dt m) s = .next (answerAtProxy u n m))
    ∧ (∀ (m : CohMsg) t x, m.kind = 0x22 → u.answerAt m = none → arrive u .home m = none → arrive u .reply m = some t → oldAnswer t m = false → t.txn m.tag = some x → x.agent = m.agent → x.status = .sent → exec (.nack dt m) s = .next (takeNack t m x))
    ∧ (∀ (m : CohMsg) t, m.kind = 0x22 → u.answerAt m = none → arrive u .home m = some t → exec (.nack dt m) s = .next (nackAtHome t m))
    ∧ (∀ (m : CohMsg) n, m.kind = 0x22 → u.answerAt m = some n → exec (.nack dt m) s = .next (nackAtProxy u n m))
    ∧ (∀ (m : CohMsg) (col : Nat) t, m.kind = 0x23 → u.engineRuns col = true → arrive u (.engine col) m = some t → t.engineOf (sliceOf m.key) = col → exec (.snpRsp dt col m) s = .next (snoopResponse t col m))
    ∧ (∀ (slot : Nat) t d, u.txn slot = some t → t.status = .retry d → d ≤ u.now → exec (.retry dt slot) s = .next (sendAgain u t true))
    ∧ (∀ (slot : Nat) t e, u.txn slot = some t → t.status = .moved e → u.agentHas e = true → exec (.movedRetry dt slot) s = .next (sendAgain u t false))

/-- Hold windows, aged requests, timeouts, dead agents and sweeps: each command completes while the block runs under
its conditions on the state after the time passed (u) and on the operands, and answers the next state its own effect
gives. Commands: HOLD_WINDOW_EXPIRY, AGED_SERVE, SNOOP_TIMEOUT, SUSPECT_LIMIT, DECLARE_DEAD, AGED_ENTRY_DROP,
SWEEP_PASS_START, SWEEP_PASS_END, TRANSACTION_TIMEOUT, TAG_HOLD_EXPIRY. -/
def Obligations.CoherenceProgressComplete : Prop :=
  ∀ (dt : Nat) (s u : State), u = s.advance dt → s.phase = .running →
    (∀ (col : Nat) (key : Nat), exec (.holdWindowExpiry dt col key) s = .next ({ u with coh := { u.coh with holds := u.coh.holds.filter (fun h => !(h.engine == col && h.key == key && decide (h.until_ ≤ u.now))) } }))
    ∧ (∀ (col : Nat) (key : Nat) a m, (u.agedOf col key).head? = some a → u.ctxOn false key = false → u.holdOn col key = none → agedFlight u a = some m → exec (.agedServe dt col key) s = .next (requestArrives m.kind col m u))
    ∧ (∀ c (col : Nat) (key : Nat) x (holder : Requester), (u.coh.ctxs.find? (fun c => c.engine == col && c.key == key && c.snoops.any (fun x => x.holder == holder))) = some c → c.snoops.find? (fun x => x.holder == holder) = some x → x.due + snoopLimit u holder ≤ u.now → exec (.snoopTimeout dt col key holder) s = .next (lateSnoop u c x))
    ∧ (∀ (agent : Nat), u.sweepRegime = true → u.agentState agent = 1 → silentTooLong u agent = true → exec (.suspectLimit dt agent) s = .next (declareDead u agent))
    ∧ (∀ (path : Path) (value : Nat), takesWrite u path Obj.COH_DECLARE_DEAD none value = true → exec (.declareDead dt path value) s = .next (wrote u path Obj.COH_DECLARE_DEAD none value (fun t => declareDead t (value % 256))))
    ∧ (∀ (col : Nat) (key : Nat) (requester : Requester) (tag : Nat), u.coh.aged.any (fun a => a.engine == col && a.key == key && a.who == requester && a.tag == tag && decide (a.last + 20000 ≤ u.now)) = true → exec (.agedEntryDrop dt col key requester tag) s = .next (({ u with coh := { u.coh with aged := u.coh.aged.filter (fun a => !(a.engine == col && a.key == key && a.who == requester && a.tag == tag && decide (a.last + 20000 ≤ u.now))) } }).count1 Obj.COH_AGED_DROPPED 0))
    ∧ (u.coh.sweeping = [] → u.coh.awaiting ≠ [] → exec (.sweepPassStart dt) s = .next (pushAllSlices (forEach u.coh.awaiting { u with coh := { u.coh with sweeping := u.coh.awaiting, awaiting := [] } } fun t a => (t.setRegBits Obj.COH_SWEEP_STATE a 30 2 2).setRegBits Obj.COH_SWEEP_STATE a 0 7 0) 0))
    ∧ (u.coh.sweeping ≠ [] → u.itemsLeft 0 = false → exec (.sweepPassEnd dt) s = .next (forEach u.coh.sweeping { u with coh := { u.coh with sweeping := [] } } passEnded))
    ∧ (∀ (slot : Nat) t, u.txn slot = some t → t.ended = false → t.started + u.txnTimeout ≤ u.now → exec (.transactionTimeout dt slot) s = .next (timeoutTxn u t))
    ∧ (∀ (slot : Nat) t d, u.txn slot = some t → t.status = .ended d → d ≤ u.now → exec (.tagHoldExpiry dt slot) s = .next (dropTxn u t))

/-- Col engines: loads, moves, epochs, background work, sparing and their instruction memory: each command completes
while the block runs under its conditions on the state after the time passed (u) and on the operands, and answers the
next state its own effect gives. Commands: LOAD_WINDOW_END, SLICE_QUIESCENT, EPOCH_CHANGE, PORT_AGENT_MAP_UPDATE,
LEASE_DRAIN_EXPIRY, FORCED_MOVE_RETRY, LEASE_HOLDOFF_EXPIRY, BACKGROUND_ITEM, ITEM_STEAL, COL_SPARE_CMD, ROLE_EMPTIED,
UCODE_LOAD, IMEM_SCRUB, HASH_LOOKUP. -/
def Obligations.ColComplete : Prop :=
  ∀ (dt : Nat) (s u : State), u = s.advance dt → s.phase = .running →
    (∀ (loads : List EngineLoad), u.cohRuns = true → u.armed ⟨.loadWindow, 0, 0⟩ = false ∨ u.due ⟨.loadWindow, 0, 0⟩ = true → exec (.loadWindowEnd dt loads) s = .next (coordinate (readWindow (u.arm ⟨.loadWindow, 0, 0⟩ (u.reg Obj.COL_LOAD_WINDOW * 1000)) loads)))
    ∧ (∀ (slice : Nat) m t, u.moveOf slice = some m → u.cohRuns = true → m.ready = false → u.sliceQuiet slice m.donor = true → t = handOver u slice m.donor m.taker → exec (.sliceQuiescent dt slice) s = .next (({ t with col := { t.col with moves := t.col.moves.map (fun (y : Move) => if y.slice = slice then { y with ready := true } else y) } }).disarm ⟨.leaseDrain, slice, 0⟩))
    ∧ (∀ t, u.cohRuns = true → switchingNow u ≠ [] → u.col.agentEpoch = u.reg Obj.COL_EPOCH → u.armed ⟨.epoch, 0, 0⟩ = false → t = forEach (switchingNow u) u switchSlice → exec (.epochChange dt) s = .next ((t.setReg Obj.COL_EPOCH 0 ((t.reg Obj.COL_EPOCH + 1) % 65536)).arm ⟨.epoch, 0, 0⟩ (t.reg Obj.COL_LEASE_MIN_INTERVAL * 1000)))
    ∧ (exec (.portAgentMapUpdate dt) s = .next (resendHome { u with col := { u.col with agentOld := [], agentEpoch := u.reg Obj.COL_EPOCH } }))
    ∧ (∀ (slice : Nat), u.due ⟨.leaseDrain, slice, 0⟩ = true → exec (.leaseDrainExpiry dt slice) s = .next (abandonMove (u.disarm ⟨.leaseDrain, slice, 0⟩) slice))
    ∧ (∀ (slice : Nat) t n, u.due ⟨.forcedRetry, slice, 0⟩ = true → t = u.disarm ⟨.forcedRetry, slice, 0⟩ → assocGet t.col.forcedTo slice = some n → t.roleState n = 0 → exec (.forcedMoveRetry dt slice) s = .next (forceMove t slice n))
    ∧ (∀ (slice : Nat) t n x, u.due ⟨.forcedRetry, slice, 0⟩ = true → t = u.disarm ⟨.forcedRetry, slice, 0⟩ → assocGet t.col.forcedTo slice = some n → t.roleState n ≠ 0 → t.idlest (t.engineOf slice) = some x → exec (.forcedMoveRetry dt slice) s = .next (forceMove t slice x))
    ∧ (∀ (slice : Nat), u.due ⟨.holdoff, slice, 0⟩ = true → exec (.leaseHoldoffExpiry dt slice) s = .next (u.disarm ⟨.holdoff, slice, 0⟩))
    ∧ (∀ (col : Nat) i rest, u.deque col = i :: rest → u.cohRuns = true → u.backgroundFree col = true → exec (.backgroundItem dt col) s = .next (runItem u col i))
    ∧ (∀ (col : Nat) d, u.cohRuns = true → u.roleState col = 0 → u.backgroundFree col = true → u.deque col = [] → fullest u = some d → exec (.itemSteal dt col) s = .next (takeItem u col d))
    ∧ (∀ (path : Path) (value : Nat) (badSpares : List Nat), takesWrite u path Obj.COL_SPARE_CMD none value = true → exec (.colSpareCmd dt path value badSpares) s = .next (wrote u path Obj.COL_SPARE_CMD none value (fun t => qualify t (value % 256) 4 badSpares)))
    ∧ (∀ j (role : Nat) (badSpares : List Nat), u.col.job = some j → j.role = role → u.roleEmpty role = true → exec (.roleEmptied dt role badSpares) s = .next (finishJob u j badSpares))
    ∧ (∀ (badTests : List Nat) (badDigests : List Nat), u.boot.stage = .firmware → u.boot.ucodeOk = false → exec (.ucodeLoad dt badTests badDigests) s = .next (startCol u badTests badDigests))
    ∧ (∀ (phys : Nat) (corrections : Nat) t (badSpares : List Nat), u.boot.ucodeOk = true → phys < 272 → u.physState phys ≠ 2 → 0 < corrections → t = forEach (List.range corrections) (countCorrections u phys corrections) (fun t _ => raise t 10 7) → t.physState phys ≠ 1 → exec (.imemScrub dt phys corrections badSpares) s = .next (t))
    ∧ (∀ (phys : Nat) (corrections : Nat) t (badSpares : List Nat), u.boot.ucodeOk = true → phys < 272 → u.physState phys ≠ 2 → 0 < corrections → t = forEach (List.range corrections) (countCorrections u phys corrections) (fun t _ => raise t 10 7) → t.physState phys = 1 → t.reg Obj.COL_SPARE_CE_THRESHOLD < t.regBits Obj.COL_PHYS_STATE phys 0 16 → exec (.imemScrub dt phys corrections badSpares) s = .next (qualify t (t.regBits Obj.COL_PHYS_STATE phys 16 8) 2 badSpares))
    ∧ (∀ (path : Path) (value : Nat), takesWrite u path Obj.COL_HASH_KEY none value = true → exec (.hashLookup dt path value) s = .next (wrote u path Obj.COL_HASH_KEY none value (fun t => plainWrite t Obj.COL_HASH_KEY 0 value)))

/-- The twin pair: mirrored writes, the log, heartbeats, takeover and resynchronisation: each command completes while
the block runs under its conditions on the state after the time passed (u) and on the operands, and answers the next
state its own effect gives. Commands: PAIR_INFO, MIRROR_WR, LOG, HEARTBEAT, HEARTBEAT_SEND, KEY_XFER, RESYNC_DATA,
MIRRORED_WRITE_COMPLETE, LOG_FLUSH, UNIT_CLEAN, UNIT_DIRTY_ACKED, MESSAGE_SIGNAL_SILENT, PIN_SIGNAL_SILENT,
TAKEOVER_SERVE, DECLARE_LOST, ALIAS_END, RESYNC_COPY_DONE, TWIN_HB_IN_EDGE. -/
def Obligations.TwinMessagesComplete : Prop :=
  ∀ (dt : Nat) (s u : State), u = s.advance dt → s.phase = .running →
    (∀ (port : Nat) (msg : List Byte) t, takeTwin u port 0x43 msg = some t → leField msg 16 2 < 62 → exec (.pairInfo dt port msg) s = .next (endPairInfo (forEach (List.range (leField msg 16 2)) t (compareListed msg))))
    ∧ (∀ (port : Nat) (msg : List Byte) t, takeTwin u port 0x43 msg = some t → 62 ≤ leField msg 16 2 → exec (.pairInfo dt port msg) s = .next (forEach (List.range 62) t (compareListed msg)))
    ∧ (∀ (port : Nat) (msg : List Byte) t i, takeTwin u port 0x40 msg = some t → t.mirrorCopy (leField msg 16 8 % 2 ^ 45) = some i → exec (.mirrorWr dt port msg) s = .next (writeMirror t i msg))
    ∧ (∀ (port : Nat) (msg : List Byte) t, takeTwin u port 0x40 msg = some t → t.mirrorCopy (leField msg 16 8 % 2 ^ 45) = none → exec (.mirrorWr dt port msg) s = .next (raise (t.count1 Obj.TWIN_MIRROR_DISCARDS 0) 11 5))
    ∧ (∀ (port : Nat) (msg : List Byte) t, takeTwin u port 0x41 msg = some t → exec (.log dt port msg) s = .next (forEach (logRecords msg) t applyRecord))
    ∧ (∀ (port : Nat) (msg : List Byte) t t1, takeTwin u port 0x42 msg = some t → t1 = heardPartner (countMissed t) → exec (.heartbeat dt port msg) s = .next (evalPair (evalRegime ({ t1 with twin := { t1.twin with partnerState := leField msg 20 1 } }.setRegBits Obj.TWIN_STATE 0 0 8 (leField msg 21 1))) t.twin.partnerState))
    ∧ (∀ d t, u.due ⟨.heartbeat, 0, 0⟩ = true → d = u.disarm ⟨.heartbeat, 0, 0⟩ → t = forEach ([56, 60].filter (fun p => d.isSaddle p && d.passUp p)) d (fun t p => sendOwn t p (heartbeatBytes d)) → exec (.heartbeatSend dt) s = .next ({ t with twin := { t.twin with hbSeq := (t.twin.hbSeq + 1) % 2 ^ 32, hbOut := !t.twin.hbOut } }.arm ⟨.heartbeat, 0, 0⟩ 10000))
    ∧ (∀ (port : Nat) (msg : List Byte) t i, takeTwin u port 0x44 msg = some t → t.allocAt (leField msg 16 4) = some i → t.allocRole i ≠ 0 → t.allocKeyed i = true → exec (.keyXfer dt port msg) s = .next (takeKey t i (slice msg 32 72)))
    ∧ (∀ (port : Nat) (msg : List Byte) t i, takeTwin u port 0x45 msg = some t → t.mirrorCopy (leField msg 16 8 % 2 ^ 45) = some i → exec (.resyncData dt port msg) s = .next (writeMirror t i msg))
    ∧ (∀ (key : Nat), u.mirrorPending key = false ∨ u.mirroring = false → exec (.mirroredWriteComplete dt key) s = .next (settle (forEach ((u.coh.mirrorWait.filter (fun w => w.msg.key == key)).map (fun w => w.msg)) { u with coh := { u.coh with mirrorWait := u.coh.mirrorWait.filter (fun w => w.msg.key != key) } } sendAnswer)))
    ∧ (exec (.logFlush dt) s = .next ((u.onDue ⟨.logFlush, 56, 0⟩ (fun t => flushLog t 56)).onDue ⟨.logFlush, 60, 0⟩ (fun t => flushLog t 60)))
    ∧ (∀ (unit : Nat), mayClean u unit = true → exec (.unitClean dt unit) s = .next (addRecord { u with twin := { u.twin with clean := unit :: u.twin.clean } } 4 unit [] (unit % 2 == 1)))
    ∧ (∀ (unit : Nat), u.dirtyPending unit = false → exec (.unitDirtyAcked dt unit) s = .next (settle u))
    ∧ (∀ t, u.due ⟨.msgSilent, 0, 0⟩ = true → t = (u.disarm ⟨.msgSilent, 0, 0⟩).putRegBit Obj.TWIN_STATE 0 26 false → t.pinAlive = false → exec (.messageSignalSilent dt) s = .next (partnerLost t))
    ∧ (∀ t, u.due ⟨.msgSilent, 0, 0⟩ = true → t = (u.disarm ⟨.msgSilent, 0, 0⟩).putRegBit Obj.TWIN_STATE 0 26 false → t.pinAlive = true → t.pairState = 3 → exec (.messageSignalSilent dt) s = .next (settle (enterSplit t)))
    ∧ (∀ t, u.due ⟨.pinSilent, 0, 0⟩ = true → t = (u.disarm ⟨.pinSilent, 0, 0⟩).putRegBit Obj.TWIN_STATE 0 25 false → t.msgAlive = true → exec (.pinSignalSilent dt) s = .next (raise t 11 4))
    ∧ (∀ t, u.due ⟨.pinSilent, 0, 0⟩ = true → t = (u.disarm ⟨.pinSilent, 0, 0⟩).putRegBit Obj.TWIN_STATE 0 25 false → t.msgAlive = false → exec (.pinSignalSilent dt) s = .next (partnerLost t))
    ∧ (u.twin.takeover = true → u.pairState = 5 → drainLeft u = false → exec (.takeoverServe dt) s = .next (serveTakeover u))
    ∧ (∀ (path : Path), takesWrite u path Obj.TWIN_DECLARE_LOST none 1 = true → exec (.declareLost dt path) s = .next (wrote u path Obj.TWIN_DECLARE_LOST none 1 (fun t => beginTakeover t true)))
    ∧ (∀ (path : Path), takesWrite u path Obj.TWIN_ALIAS_END none 1 = true → exec (.aliasEnd dt path) s = .next (wrote u path Obj.TWIN_ALIAS_END none 1 endAlias))
    ∧ (u.pairState = 2 → exec (.resyncCopyDone dt) s = .next (resyncDone u))
    ∧ (exec (.twinHbInEdge dt) s = .next (evalPair ((u.putRegBit Obj.TWIN_STATE 0 25 true).arm ⟨.pinSilent, 0, 0⟩ 30000) u.twin.partnerState))

/-- Tenancy resets, dirty logs and mailboxes: each command completes while the block runs under its conditions on the
state after the time passed (u) and on the operands, and answers the next state its own effect gives. Commands:
TENANCY_RESET, TENANCY_RESET_START, TENANCY_RESET_END, DLOG_CLEAR_DONE, DLOG_TAKE, OUT_DATA_WRITE, OUT_DOORBELL,
IN_TAKE, IN_DATA_WRITE, IN_SEND, OUT_TAKE, SUMMARY_EVENT, FM_PAIR_REQUEST, FM_PAIR_POST. -/
def Obligations.TenanciesComplete : Prop :=
  ∀ (dt : Nat) (s u : State), u = s.advance dt → s.phase = .running →
    (∀ (path : Path) (value : Nat), takesWrite u path Obj.TEN_RESET none value = true → exec (.tenancyReset dt path value) s = .next (wrote u path Obj.TEN_RESET none value (fun t => triggerReset t value 3)))
    ∧ (∀ (tenancy : Nat), u.due ⟨.tenReset, tenancy, 0⟩ = true → (u.disarm ⟨.tenReset, tenancy, 0⟩).tenState tenancy = 2 → exec (.tenancyResetStart dt tenancy) s = .next (resetSequence (u.disarm ⟨.tenReset, tenancy, 0⟩) tenancy))
    ∧ (∀ (tenancy : Nat), u.tenState tenancy = 2 → u.ten.started.contains tenancy = true → u.ten.removal.contains tenancy = false → exec (.tenancyResetEnd dt tenancy) s = .next (setIrq (setTenState { u with ten := { u.ten with started := u.ten.started.filter (· != tenancy), removal := u.ten.removal.filter (· != tenancy) } } tenancy 1) tenancy 3))
    ∧ (∀ (range : Nat), u.regBit Obj.TEN_DLOG_STATE (range / 8) (8 + range % 8) = true → exec (.dlogClearDone dt range) s = .next (foldDirty ((zeroRange u (bitmapBase u range) (bitmapBytes u range)).putRegBit Obj.TEN_DLOG_STATE (range / 8) (8 + range % 8) false) (fun d => d.tenancy == range / 8 && d.range == range % 8)))
    ∧ (∀ (path : Path), mayServe u path .read (readRec Obj.TEN_DLOG_TAKE none) = true → checkRecord u path .read (readRec Obj.TEN_DLOG_TAKE none) = .ok → exec (.dlogTake dt path) s = .next (serveRead (foldDirty u (fun d => d.tenancy == takeElem u / 8)) path .read (readRec Obj.TEN_DLOG_TAKE none) (fun t _ _ => takeData t) takeEffect))
    ∧ (∀ (a : WindowWrite) t, 0x40100 ≤ a.offset → a.offset < 0x40200 → u.isHost a.port = true → u.isFmPort a.port = false → u.portTenancy a.port = some t → u.tenState t ≠ 2 → exec (.outDataWrite dt a) s = .next (writeOut u a t))
    ∧ (∀ (a : WindowWrite) t, 0x40214 ≤ a.offset → a.offset < 0x40218 → u.isHost a.port = true → u.isFmPort a.port = false → u.portTenancy a.port = some t → u.tenState t ≠ 2 → exec (.outDoorbell dt a) s = .next (writeDoorbell u a t))
    ∧ (∀ (a : WindowWrite) t, 0x4020C ≤ a.offset → a.offset < 0x40210 → u.isHost a.port = true → u.isFmPort a.port = false → u.portTenancy a.port = some t → u.tenState t ≠ 2 → exec (.inTake dt a) s = .next (writeTakeReg u a t))
    ∧ (∀ (path : Path) (tenancy : Nat) (value : Nat), takesWrite u path Obj.MBX_IN_DATA (some tenancy) value = true → u.steppeReady = true → u.inFull tenancy = false → exec (.inDataWrite dt path tenancy value) s = .next (wrote u path Obj.MBX_IN_DATA (some tenancy) value (fun t => t.sysWrite (inboxAddr tenancy) (padTo (writeRec Obj.MBX_IN_DATA (some tenancy) value).data 256))))
    ∧ (∀ (path : Path) (tenancy : Nat) (value : Nat), takesWrite u path Obj.MBX_IN_SEND (some tenancy) value = true → u.inFull tenancy = false → bits (ofLe (writeRec Obj.MBX_IN_SEND (some tenancy) value).data) 32 16 = u.tenGen tenancy → exec (.inSend dt path tenancy value) s = .next (wrote u path Obj.MBX_IN_SEND (some tenancy) value (fun t => ringIn t tenancy (ofLe (writeRec Obj.MBX_IN_SEND (some tenancy) value).data % 2 ^ 32))))
    ∧ (∀ (path : Path) (tenancy : Nat), takesWrite u path Obj.MBX_OUT_TAKE (some tenancy) 1 = true → exec (.outTake dt path tenancy) s = .next (wrote u path Obj.MBX_OUT_TAKE (some tenancy) 1 (fun t => takeOut t tenancy)))
    ∧ (∀ (element : Nat), u.due ⟨.summary, element, 0⟩ = true → (u.disarm ⟨.summary, element, 0⟩).ten.summaryOwed.contains element = true → exec (.summaryEvent dt element) s = .next (summaryEvent { u.disarm ⟨.summary, element, 0⟩ with ten := { u.ten with summaryOwed := u.ten.summaryOwed.filter (· != element) } } element))
    ∧ (∀ t, u.firmware = true → u.outFull fmPair = true → pairHeaderMalformed (fmMessage u) = false → t = takeOut (u.sysRead (outboxAddr fmPair) 256).1 fmPair → exec (.fmPairRequest dt) s = .next ({ t with mgmt := { t.mgmt with qFm := t.mgmt.qFm ++ [⟨.fm u.ten.fmPort true, fmMessage u⟩] } }))
    ∧ (∀ bs rest, u.firmware = true → u.inFull fmPair = false → u.ten.fmWaiting = bs :: rest → exec (.fmPairPost dt) s = .next (postFm { u with ten := { u.ten with fmWaiting := rest } } bs 1))

/-- Glen movers: the window of a channel, descriptors, data and completions: each command completes while the block
runs under its conditions on the state after the time passed (u) and on the operands, and answers the next state its
own effect gives. Commands: GLEN_START, GLEN_STOP, GLEN_RING, CH_POINTER_WRITE, DESC_AREA_WRITE, CHAN_CMD_STOP,
DESCRIPTOR_FETCH, GLEN_TURN, SOURCE_DATA, DESCRIPTOR_WRITE_BACK, COMPLETION_TIMEOUT. -/
def Obligations.GlenComplete : Prop :=
  ∀ (dt : Nat) (s u : State), u = s.advance dt → s.phase = .running →
    (∀ (port : Nat) t, u.isHost port = true → u.portTenancy port = some t → u.devState ≠ 0 → u.tenState t ≠ 0 → exec (.glenStart dt port) s = .next (startChannel u port t))
    ∧ (∀ (port : Nat) t, u.isHost port = true → u.portTenancy port = some t → u.devState ≠ 0 → u.tenState t ≠ 0 → exec (.glenStop dt port) s = .next ((stopChannel u t).emit (.barDone port)))
    ∧ (∀ (port : Nat) t, u.isHost port = true → u.portTenancy port = some t → u.devState ≠ 0 → u.tenState t ≠ 0 → exec (.glenRing dt port) s = .next ((ringChannel u t).emit (.barDone port)))
    ∧ (∀ (a : WindowWrite) t, 8 ≤ a.offset → a.offset < 16 → u.isHost a.port = true → u.portTenancy a.port = some t → u.devState ≠ 0 → u.tenState t ≠ 0 → exec (.chPointerWrite dt a) s = .next (writePointer u a t))
    ∧ (∀ (a : WindowWrite) t, 0x1000 ≤ a.offset → a.offset < 0x40000 → u.isHost a.port = true → u.portTenancy a.port = some t → u.devState ≠ 0 → u.tenState t ≠ 0 → exec (.descAreaWrite dt a) s = .next (writeDescArea u a t))
    ∧ (∀ (path : Path) (channel : Nat), takesWrite u path Obj.GLEN_CHAN_CMD (some channel) 1 = true → exec (.chanCmdStop dt path channel) s = .next (wrote u path Obj.GLEN_CHAN_CMD (some channel) 1 (fun t => stopChannel t channel)))
    ∧ (∀ (channel : Nat) (host : HostReadResult), u.chanRuns channel = true → (u.chan channel).fetching = true → u.reg Obj.GLEN_CHAN_POINTER channel % 4 = 0 → exec (.descriptorFetch dt channel host) s = .next (resetEngines (fetchHost u channel (u.reg Obj.GLEN_CHAN_POINTER channel - u.reg Obj.GLEN_CHAN_POINTER channel % 64) host)))
    ∧ (∀ (channel : Nat) (host : HostReadResult), u.chanRuns channel = true → (u.chan channel).fetching = true → u.reg Obj.GLEN_CHAN_POINTER channel % 4 = 1 → exec (.descriptorFetch dt channel host) s = .next (resetEngines (fetchArea u channel (u.reg Obj.GLEN_CHAN_POINTER channel - u.reg Obj.GLEN_CHAN_POINTER channel % 64))))
    ∧ (∀ (engine : Nat) t (busMaster : Bool), engine < 64 → nextChannel u engine = some t → exec (.glenTurn dt engine busMaster) s = .next (issueTurn t busMaster 4096 (min 4096 (16384 - u.buffered engine)) { u with glen := { u.glen with turn := assocPut u.glen.turn engine (t % 64) } }))
    ∧ (∀ (channel : Nat) rd (source : SourceResult) (busMaster : Bool), u.chanRuns channel = true → (u.chan channel).reads.head? = some rd → exec (.sourceData dt channel source busMaster) s = .next (takeSource u channel rd source busMaster))
    ∧ (∀ (channel : Nat) d (busMaster : Bool), u.chanRuns channel = true → (u.chan channel).desc = some d → (u.chan channel).written = d.length → (u.chan channel).writes = [] → exec (.descriptorWriteBack dt channel busMaster) s = .next (resetEngines (completeDesc u channel d busMaster)))
    ∧ (∀ (channel : Nat), u.chanRuns channel = true → (u.chan channel).fetching = true → u.reg Obj.GLEN_CHAN_POINTER channel % 4 = 0 → exec (.completionTimeout dt channel) s = .next (resetEngines (fetchFails u channel)))
    ∧ (∀ (channel : Nat), u.chanRuns channel = true → (u.chan channel).fetching = false → exec (.completionTimeout dt channel) s = .next (timeoutRead u channel))

/-- The fault collector: sources, timers, traps, forces, clears and the fault pin: each command completes while the
block runs under its conditions on the state after the time passed (u) and on the operands, and answers the next state
its own effect gives. Commands: SOURCE_EVENT, QUIET_TIMER_EXPIRY, FAULT_OUT_PULSE_END, FAULT_EVENT_TIMER,
TRAP_SAVE_DONE, FORCE, SOURCE_CLEAR, RECOVERIES_CLEAR, HOLD_WRITE. -/
def Obligations.FaultsComplete : Prop :=
  ∀ (dt : Nat) (s u : State), u = s.advance dt → s.phase = .running →
    (∀ (group : Nat) (bit : Nat) (element : Nat), sourceNamed group bit = true → exec (.sourceEvent dt group bit element) s = .next (resetEngines (raise u group bit element)))
    ∧ (∀ (source : Nat), u.due ⟨.quiet, source, 0⟩ = true → exec (.quietTimerExpiry dt source) s = .next (report (countRecovery (forgetLatch (clearGroupBits (u.disarm ⟨.quiet, source, 0⟩) (source / 32) (2 ^ (source % 32))) source) source) .replace))
    ∧ (u.due ⟨.faultPulse, 0, 0⟩ = true → exec (.faultOutPulseEnd dt) s = .next (faultPin ((u.disarm ⟨.faultPulse, 0, 0⟩).putRegBit Obj.FLT_OUT_CTRL 0 30 false)))
    ∧ (∀ (group : Nat), u.due ⟨.faultEvent, group, 0⟩ = true → exec (.faultEventTimer dt group) s = .next (owedEvent (u.disarm ⟨.faultEvent, group, 0⟩) group))
    ∧ (∀ w rest t, u.flt.traps = w :: rest → t = saveLogRecord { u with flt := { u.flt with traps := rest } } w → t.flt.resetDue = false → exec (.trapSaveDone dt) s = .next (t))
    ∧ (∀ w t, u.flt.traps = [w] → t = saveLogRecord { u with flt := { u.flt with traps := [] } } w → t.flt.resetDue = true → exec (.trapSaveDone dt) s = .next (beginChipReset { t with flt := { t.flt with resetDue := false } } 3))
    ∧ (∀ (path : Path) (group : Nat) (value : Nat), takesWrite u path Obj.FLT_FORCE (some group) value = true → exec (.force dt path group value) s = .next (wrote u path Obj.FLT_FORCE (some group) value (forceEffect group value)))
    ∧ (∀ (path : Path) (group : Nat) (value : Nat), takesWrite u path Obj.FLT_SOURCE_STATUS (some group) value = true → exec (.sourceClear dt path group value) s = .next (wrote u path Obj.FLT_SOURCE_STATUS (some group) value (sourceClearEffect group value)))
    ∧ (∀ (path : Path) (source : Nat), takesWrite u path Obj.FLT_RECOVERIES (some source) 0 = true → exec (.recoveriesClear dt path source) s = .next (wrote u path Obj.FLT_RECOVERIES (some source) 0 (recoveriesEffect source)))
    ∧ (∀ (path : Path) (value : Nat), takesWrite u path Obj.FLT_OUT_CTRL none value = true → exec (.holdWrite dt path value) s = .next (wrote u path Obj.FLT_OUT_CTRL none value (holdEffect value)))

/-- Intervals, dumps and the telemetry FIFO: each command completes while the block runs under its conditions on the
state after the time passed (u) and on the operands, and answers the next state its own effect gives. Commands:
INTERVAL_BOUNDARY, DUMP_WRITE, DUMP_DATA_READ, PROG_SELECT, TLM_READ, TLM_MARK, TLM_REWIND, TLM_RELEASE,
TLM_RECORD_OFFER, TIME_SET, WATERMARK_WRITE. -/
def Obligations.TelemetryComplete : Prop :=
  ∀ (dt : Nat) (s u : State), u = s.advance dt → s.phase = .running →
    (∀ d (bad : List CounterElem), u.deadline intervalTimer = some d → d ≤ u.now → exec (.intervalBoundary dt bad) s = .next (boundary u d ((bad.map (fun e => regKey e.object e.element)).filter counterKey)))
    ∧ (∀ d, u.tlm.waiting = some d → u.tlm.formatting = none → u.steppeReady = true → u.reg Obj.STAT_DUMP_EN = 1 → exec (.dumpWrite dt) s = .next (writeDump u d))
    ∧ (∀ (path : Path), takesRead u path Obj.STAT_DUMP_DATA none = true → exec (.dumpDataRead dt path) s = .next (answer (dumpAdvance u) path .read (readRec Obj.STAT_DUMP_DATA none) .ok (dumpData u Obj.STAT_DUMP_DATA 0)))
    ∧ (∀ (path : Path) (k : Nat) (value : Nat), takesWrite u path Obj.STAT_PROG_SELECT (some k) value = true → exec (.progSelect dt path k value) s = .next (wrote u path Obj.STAT_PROG_SELECT (some k) value (progSelectEffect k value)))
    ∧ (∀ (path : Path) (bad : List Nat), takesRead u path Obj.TLM_READ none = true → exec (.tlmRead dt path bad) s = .next (answer (tlmAdvance bad u) path .read (readRec Obj.TLM_READ none) .ok (tlmData bad u Obj.TLM_READ 0)))
    ∧ (∀ (path : Path), takesWrite u path Obj.TLM_CTRL none 1 = true → exec (.tlmMark dt path) s = .next (wrote u path Obj.TLM_CTRL none 1 (tlmCtrlEffect 1)))
    ∧ (∀ (path : Path), takesWrite u path Obj.TLM_CTRL none 2 = true → exec (.tlmRewind dt path) s = .next (wrote u path Obj.TLM_CTRL none 2 (tlmCtrlEffect 2)))
    ∧ (∀ (path : Path), takesWrite u path Obj.TLM_CTRL none 3 = true → exec (.tlmRelease dt path) s = .next (wrote u path Obj.TLM_CTRL none 3 (tlmCtrlEffect 3)))
    ∧ (∀ (type : Nat) (body : List Nat), bodyWords type = some body.length → typeEnters u type = true → exec (.tlmRecordOffer dt type body) s = .next (report u (.record type (body.map (· % 2 ^ 64)))))
    ∧ (∀ (path : Path) (value : Nat), takesWrite u path Obj.TLM_TIME none value = true → exec (.timeSet dt path value) s = .next (wrote u path Obj.TLM_TIME none value (fun t => setTimeBase t value)))
    ∧ (∀ (path : Path) (value : Nat), takesWrite u path Obj.TLM_HIGH_WM none value = true → exec (.watermarkWrite dt path true value) s = .next (wrote u path Obj.TLM_HIGH_WM none value (watermarkEffect Obj.TLM_HIGH_WM value)))
    ∧ (∀ (path : Path) (value : Nat), takesWrite u path Obj.TLM_LOW_WM none value = true → exec (.watermarkWrite dt path false value) s = .next (wrote u path Obj.TLM_LOW_WM none value (watermarkEffect Obj.TLM_LOW_WM value)))

/-- Slot power: presence, ramps, trips, commands and the supply: each command completes while the block runs under its
conditions on the state after the time passed (u) and on the operands, and answers the next state its own effect
gives. Commands: PRESENCE_ASSERT, SEATED, REMOVED, COOLDOWN_END, RAMP_START, GATE_ON_COMPLETE, FAULT_TIMER_START,
FAULT_TIMER_END, SLOW_TRIP, FAST_TRIP, SLOT_CTRL_WRITE, COMMANDED_GATE_OFF, DAMAGE_DETECT, DAMAGED_CLEAR,
POWER_CONTROLLER_CONTROL, PRESENCE_BREAK, SLOT_VIN_LOW, VDD_AUX_LOW. -/
def Obligations.SlotsComplete : Prop :=
  ∀ (dt : Nat) (s u : State), u = s.advance dt → s.phase = .running →
    (∀ (slot : Nat), u.slotSeated slot = false → exec (.presenceAssert dt slot) s = .next (presenceAsserted u slot))
    ∧ (∀ (slot : Nat), u.due ⟨.debounce, slot, 0⟩ = true → exec (.seated dt slot) s = .next (tryRamp ((u.disarm ⟨.debounce, slot, 0⟩).putRegBit Obj.SLOT_STATUS slot 25 true) slot))
    ∧ (∀ (slot : Nat), u.slot.asserted.contains slot = true → exec (.removed dt slot) s = .next (cardGone (setAsserted u (u.slot.asserted.filter (· != slot))) slot (u.slotState slot)))
    ∧ (∀ (slot : Nat), u.due ⟨.cooldown, slot, 0⟩ = true → (u.disarm ⟨.cooldown, slot, 0⟩).slotSeated slot = true → exec (.cooldownEnd dt slot) s = .next (tryRamp (u.disarm ⟨.cooldown, slot, 0⟩) slot))
    ∧ (∀ (slot : Nat), u.due ⟨.cooldown, slot, 0⟩ = true → (u.disarm ⟨.cooldown, slot, 0⟩).slotSeated slot = false → (u.disarm ⟨.cooldown, slot, 0⟩).slotState slot = 3 → exec (.cooldownEnd dt slot) s = .next (setSlotState (u.disarm ⟨.cooldown, slot, 0⟩) slot (if (u.disarm ⟨.cooldown, slot, 0⟩).armed ⟨.debounce, slot, 0⟩ then 2 else 1)))
    ∧ (∀ (slot : Nat) (vin : Nat), exec (.rampStart dt slot vin) s = .next (tryRamp (sampleVin u vin) slot))
    ∧ (∀ (slot : Nat) t, gateOnAt u slot = some t → u.slotState slot = 4 → t ≤ u.now → (setSlotState u slot 5).slotTimer slot = false → exec (.gateOnComplete dt slot) s = .next (assertPwrgd (setSlotState u slot 5) slot))
    ∧ (∀ (slot : Nat) (sense : Nat), u.slotState slot = 5 → u.slotTimer slot = false → u.slotLimit slot ≤ sense → exec (.faultTimerStart dt slot sense) s = .next (((u.setReg Obj.SLOT_SENSE slot sense).putRegBit Obj.SLOT_STATUS slot 26 true).arm ⟨.slotFault, slot, 0⟩ (u.reg Obj.SLOT_FAULT_TIME slot * 1000000)))
    ∧ (∀ (slot : Nat) (sense : Nat) t, u.slotTimer slot = true → sense < u.slotLimit slot → t = ((u.setReg Obj.SLOT_SENSE slot sense).putRegBit Obj.SLOT_STATUS slot 26 false).disarm ⟨.slotFault, slot, 0⟩ → exec (.faultTimerEnd dt slot sense) s = .next (if t.slotState slot = 5 ∧ t.slotPwrgd slot = false then assertPwrgd t slot else t))
    ∧ (∀ (slot : Nat), u.due ⟨.slotFault, slot, 0⟩ = true → exec (.slowTrip dt slot) s = .next (slotTrip (u.disarm ⟨.slotFault, slot, 0⟩) slot 2))
    ∧ (∀ (slot : Nat) (sense : Nat), u.gateDriven slot = true → 2 * u.slotLimit slot ≤ sense → exec (.fastTrip dt slot sense) s = .next (slotTrip (u.setReg Obj.SLOT_SENSE slot sense) slot 1))
    ∧ (∀ (path : Path) (slot : Nat) (value : Nat), takesWrite u path Obj.SLOT_CTRL (some slot) value = true → exec (.slotCtrlWrite dt path slot value) s = .next (wrote u path Obj.SLOT_CTRL (some slot) value (slotCtrlEffect slot value)))
    ∧ (∀ (slot : Nat), u.due ⟨.gateOff, slot, 0⟩ = true → exec (.commandedGateOff dt slot) s = .next (gateOff (u.disarm ⟨.gateOff, slot, 0⟩) slot))
    ∧ (∀ (slot : Nat) (vout : Nat), u.gateDriven slot = false → 1000 < vout → exec (.damageDetect dt slot vout) s = .next (raise ((u.setReg Obj.SLOT_VOUT slot vout).putRegBit Obj.SLOT_STATUS slot 22 true) 15 slot))
    ∧ (∀ (slot : Nat) (vout : Nat) (path : Path), takesWrite (u.setReg Obj.SLOT_VOUT slot vout) path Obj.SLOT_STATUS (some slot) (2 ^ 22) = true → exec (.damagedClear dt path slot vout) s = .next (wrote (u.setReg Obj.SLOT_VOUT slot vout) path Obj.SLOT_STATUS (some slot) (2 ^ 22) (fun t => plainWrite t Obj.SLOT_STATUS slot (2 ^ 22))))
    ∧ (∀ (host : Nat) (vppb : Nat) n (on : Bool), vppbHolds (u.reg Obj.EDGE_VPPB (64 * host + vppb)) = true → u.portSlot (u.regBits Obj.EDGE_VPPB (64 * host + vppb) 4 6) = some n → exec (.powerControllerControl dt host vppb on) s = .next (setHostOn u n on))
    ∧ (∀ t (slot : Nat), t = (u.disarm ⟨.debounce, slot, 0⟩).putRegBit Obj.SLOT_STATUS slot 25 false → exec (.presenceBreak dt slot) s = .next (if t.slotState slot = 2 then setSlotState t slot 1 else t))
    ∧ (∀ (vin : Nat), vin < 10000 → exec (.slotVinLow dt vin) s = .next (sampleVin u vin))
    ∧ (exec (.vddAuxLow dt) s = .next ({ u with phase := .unpowered, timers := [], slot := { u.slot with driven := [], ramp := [] }, edge := { u.edge with perstReleased := [] } }))

/-- Resets and rails: each command completes under its conditions on the state after the time passed (u) and on the
operands, and answers the next state its own effect gives. Commands: RESET_SLOT_TURNOFF, POWER_ON_RESET_RELEASE,
INTERNAL_RESET_RELEASE, CHIP_RST_L, RAIL_OUT_OF_WINDOW, RAIL_IN_WINDOW, RAIL_COLLAPSE. -/
def Obligations.ResetAndPowerComplete : Prop :=
  ∀ (dt : Nat) (s u : State), u = s.advance dt →
    (∀ t n, u.phase = .chipReset → u.due ⟨.slotOff, 0, 0⟩ = true → t = u.disarm ⟨.slotOff, 0, 0⟩ → t.lowestDriven = some n → exec (.resetSlotTurnoff dt) s = .next ((setSlotState (turnOff t n) n 0).arm ⟨.slotOff, 0, 0⟩ (t.reg Obj.SLOT_RESET_GAP * 1000000)))
    ∧ (∀ (straps : Nat) programmed badReserves, u.phase = .unpowered → exec (.powerOnResetRelease dt straps ⟨programmed, badReserves⟩) s = .next (coldRelease u straps programmed badReserves))
    ∧ (∀ (straps : Nat) programmed badReserves, u.phase = .chipReset → releaseDue u = true → u.reg Obj.RST_CAUSE = 0 → exec (.powerOnResetRelease dt straps ⟨programmed, badReserves⟩) s = .next (warmRelease u straps))
    ∧ (∀ (straps : Nat), u.phase = .chipReset → releaseDue u = true → exec (.internalResetRelease dt straps) s = .next (warmRelease u straps))
    ∧ (u.phase = .running → exec (.chipRstL dt) s = .next (beginChipReset u 1))
    ∧ (∀ (rail : Nat) (mv : Nat), u.phase = .running → rail < 9 → u.railInside rail mv = false → exec (.railOutOfWindow dt rail mv) s = .next (raise (setRailOut (showRail u rail mv) rail true) 18 2))
    ∧ (∀ (rail : Nat) (mv : Nat), u.phase = .running → rail < 9 → u.railInside rail mv = true → exec (.railInWindow dt rail mv) s = .next (setRailOut (showRail u rail mv) rail false))
    ∧ (∀ (rail : Nat) (mv : Nat), u.phase = .running → rail < 7 → 100 * mv < 85 * u.railNominal rail → exec (.railCollapse dt rail mv) s = .next (beginChipReset (setRailOut (showRail u rail mv) rail true) 0))

/-- Boot, update of the images, security numbers and keys: each command completes while the block runs under its
conditions on the state after the time passed (u) and on the operands, and answers the next state its own effect
gives. Commands: CHIP_RESET, IMAGE_AUTHENTICATE, BOOT_WATCHDOG_EXPIRY, ERASE, ERASE_DONE, VERIFY, VERIFY_DONE,
ACTIVATE, ACTIVATE_AND_LOAD_LIVE, UPDATE_DATA, SVN_ADVANCE, KEY_REVOKE, MEADOW_PAIR_RESTARTED. -/
def Obligations.BootAndUpdateComplete : Prop :=
  ∀ (dt : Nat) (s u : State), u = s.advance dt → s.phase = .running →
    (∀ (path : Path), takesWrite u path Obj.RST_CHIP_RESET none 1 = true → u.mgmt.svc = none → exec (.chipReset dt path) s = .next (beginChipReset (wrote u path Obj.RST_CHIP_RESET none 1 (keepReset 2)) 2))
    ∧ (∀ (readErrors : List Nat), u.boot.stage = .rom → exec (.imageAuthenticate dt readErrors) s = .next (chooseImage u readErrors))
    ∧ (∀ t, u.due ⟨.watchdog, 0, 0⟩ = true → t = u.disarm ⟨.watchdog, 0, 0⟩ → exec (.bootWatchdogExpiry dt) s = .next (beginChipReset { t with boot := { t.boot with avoid := t.boot.slot, avoidCode := 9 } } 5))
    ∧ (∀ (path : Path), takesWrite u path Obj.BOOT_UPDATE_CMD none 1 = true → exec (.erase dt path) s = .next (wrote u path Obj.BOOT_UPDATE_CMD none 1 (updateEffect 1)))
    ∧ (u.boot.work = 1 → updateTurn u = true → exec (.eraseDone dt) s = .next (setUpdate (eraseSlot { u with boot := { u.boot with work := 0 } } u.inactive) 0 0))
    ∧ (∀ (path : Path), takesWrite u path Obj.BOOT_UPDATE_CMD none 2 = true → exec (.verify dt path) s = .next (wrote u path Obj.BOOT_UPDATE_CMD none 2 (updateEffect 2)))
    ∧ (∀ (readError : Bool), u.boot.work = 2 → updateTurn u = true → exec (.verifyDone dt readError) s = .next (setUpdate { u with boot := { u.boot with work := 0 } } (if imageCode u u.inactive readError = 0 then 2 else 3) (imageCode u u.inactive readError)))
    ∧ (∀ (path : Path), takesWrite u path Obj.BOOT_UPDATE_CMD none 3 = true → exec (.activate dt path) s = .next (wrote u path Obj.BOOT_UPDATE_CMD none 3 (updateEffect 3)))
    ∧ (∀ (path : Path), takesWrite u path Obj.BOOT_UPDATE_CMD none 4 = true → exec (.activateAndLoadLive dt path) s = .next (wrote u path Obj.BOOT_UPDATE_CMD none 4 (updateEffect 4)))
    ∧ (∀ (path : Path) (data : List Byte), mayServe u path .write ⟨Obj.BOOT_UPDATE_DATA / 256, Obj.BOOT_UPDATE_DATA % 256, none, data⟩ = true → checkRecord u path .write ⟨Obj.BOOT_UPDATE_DATA / 256, Obj.BOOT_UPDATE_DATA % 256, none, data⟩ = .ok → (path = .i3c → u.reg Obj.STG_STATUS ≠ 2) → pathClass path ≠ .o → exec (.updateData dt path data) s = .next (answer (recordWriter (updateDataEffect data u) (pathCode path) (pathPort path) Obj.BOOT_UPDATE_DATA none) path .write ⟨Obj.BOOT_UPDATE_DATA / 256, Obj.BOOT_UPDATE_DATA % 256, none, data⟩ .ok []))
    ∧ (∀ (path : Path), takesWrite u path Obj.BOOT_SVN_ADVANCE none 1 = true → exec (.svnAdvance dt path) s = .next (wrote u path Obj.BOOT_SVN_ADVANCE none 1 svnEffect))
    ∧ (∀ (path : Path) (k : Nat), takesWrite u path Obj.BOOT_KEY_REVOKE none k = true → exec (.keyRevoke dt path k) s = .next (wrote u path Obj.BOOT_KEY_REVOKE none k (fun t => t.putRegBit Obj.BOOT_KEY_REVOKED 0 (k % 256) true)))
    ∧ (exec (.meadowPairRestarted dt) s = .next ({ u with mgmt := { u.mgmt with paused := false } }))

/-- Device states, lifecycle requests, debug access and JTAG: each command completes while the block runs under its
conditions on the state after the time passed (u) and on the operands, and answers the next state its own effect
gives. Commands: REQUEST_SERVICE, REQUEST_TEST, REQUEST_RECOVERY, REQUEST_DEPLOYED, REQUEST_FIELD_RETURN,
DEBUG_UNLOCK, DEBUG_ACCESS, JTAG_INSTRUCTION. -/
def Obligations.LifecycleAndDebugComplete : Prop :=
  ∀ (dt : Nat) (s u : State), u = s.advance dt → s.phase = .running →
    (∀ (path : Path), takesWrite u path Obj.DEV_STATE_REQ none 1 = true → exec (.requestService dt path) s = .next (wrote u path Obj.DEV_STATE_REQ none 1 (stateReqEffect 1)))
    ∧ (∀ (path : Path), takesWrite u path Obj.DEV_STATE_REQ none 2 = true → exec (.requestTest dt path) s = .next (wrote u path Obj.DEV_STATE_REQ none 2 (stateReqEffect 2)))
    ∧ (∀ (path : Path), takesWrite u path Obj.DEV_STATE_REQ none 3 = true → exec (.requestRecovery dt path) s = .next (wrote u path Obj.DEV_STATE_REQ none 3 (stateReqEffect 3)))
    ∧ (∀ (path : Path) (serialCheck : Nat), takesWrite u path Obj.LIFE_REQUEST none (lifeWord serialCheck 1) = true → exec (.requestDeployed dt path serialCheck) s = .next (wrote u path Obj.LIFE_REQUEST none (lifeWord serialCheck 1) (burnLife 1)))
    ∧ (∀ (path : Path) (serialCheck : Nat), takesWrite u path Obj.LIFE_REQUEST none (lifeWord serialCheck 2) = true → u.mgmt.svc = none → exec (.requestFieldReturn dt path serialCheck) s = .next (beginChipReset (wrote u path Obj.LIFE_REQUEST none (lifeWord serialCheck 2) (fun t => keepReset 4 (fieldReturnEffect t))) 4))
    ∧ (∀ (signature : List Byte), u.debugLocked = true → u.reg Obj.DBG_UNLOCK_EN = 1 → u.boot.jtag = .debugPort → exec (.debugUnlock dt signature) s = .next (if Config.ecdsaOk Config.debugKey (digest (unlockMessage u)) signature then u.putRegBit Obj.DBG_STATUS 0 31 true else giveNonce u))
    ∧ (∀ (region : Nat), 1 ≤ region → region ≤ 5 → exec (.debugAccess dt region true) s = .next (raise (pushLog (u.count1 Obj.DBG_REFUSED 0) Obj.DBG_REFUSED_LOG 16 (at_ 24 (u.sinceReset / 1000 % 2 ^ 40) + at_ 23 1 + at_ 20 region)) 16 3))
    ∧ (∀ (region : Nat), 1 ≤ region → region ≤ 5 → exec (.debugAccess dt region false) s = .next ((raise (pushLog (u.count1 Obj.DBG_REFUSED 0) Obj.DBG_REFUSED_LOG 16 (at_ 24 (u.sinceReset / 1000 % 2 ^ 40) + at_ 20 region)) 16 3).emit (.jtag "data" 0)))
    ∧ (∀ (ins : JtagIns), loadedIns u ins = .idcode → exec (.jtagInstruction dt ins) s = .next (({ u with boot := { u.boot with jtag := .idcode } }).emit (.jtag "IDCODE" 0x364005CB)))

/-- Junction temperature, wear and life: each command completes while the block runs under its conditions on the state
after the time passed (u) and on the operands, and answers the next state its own effect gives. Commands:
TJ_SENSOR_READ, TJ_WARN, TJ_CRIT, WEAR_MEASUREMENT, VID_STEP, WEAR_RECORD_SAVE, LIFE_ACCOUNTING. -/
def Obligations.PackageAndWearComplete : Prop :=
  ∀ (dt : Nat) (s u : State), u = s.advance dt → s.phase = .running →
    (∀ (celsius : List Int) t, celsius.length = 24 → highest celsius = some t → exec (.tjSensorRead dt celsius) s = .next (junction (forEach (List.range 24) u (fun v n => v.setReg Obj.PKG_TJ n (unsigned (celsius.getD n 0) 16))) t))
    ∧ (heldMs u.wear.warnSince u.now = true → bitAt (groupWord u 18) 0 = false → exec (.tjWarn dt) s = .next (raise u 18 0))
    ∧ (heldMs u.wear.critSince u.now = true → bitAt (groupWord u 18) 1 = false → exec (.tjCrit dt) s = .next (raise u 18 1))
    ∧ (∀ (monitor : Nat) (kind : WearKind) (margin : Nat) (badSpares : List Nat), u.firmware = true → monitor < wearCount kind → margin ≤ 100 → exec (.wearMeasurement dt kind monitor margin badSpares) s = .next (measureWear u kind monitor margin badSpares))
    ∧ (u.firmware = true → u.boot.ucodeOk = true → lowestColMargin u < 40 → 0 < u.reg Obj.PKG_COL_VID → u.wear.vidAt + 86400000000000 ≤ u.now → exec (.vidStep dt) s = .next (({ u with wear := { u.wear with vidRise := u.wear.vidRise + 1, vidAt := u.now } }).setReg Obj.PKG_COL_VID 0 (u.reg Obj.PKG_COL_VID - 1)))
    ∧ (u.firmware = true → u.flt.traps = [] → exec (.wearRecordSave dt) s = .next (saveWear u))
    ∧ (∀ k, u.firmware = true → k = tempBin (signed (u.reg Obj.PKG_TJ_MAX) 16) → exec (.lifeAccounting dt) s = .next (showLife { u with wear := { u.wear with powered := u.wear.powered + 1, equiv := u.wear.equiv + Config.accelerationFactor (signed (u.reg Obj.PKG_TJ_MAX) 16), hist := assocPut u.wear.hist k ((assocGet u.wear.hist k).getD 0 + 1) } }))
end

