-- ==== Sys2Proof/Laws/Sparse.lean ====
section
/-! SUPPORT. The sparse stores: a read after a write, and the canonical form, which every write and every removal keeps. -/
namespace Sys2Proof.Machine

variable {α : Type} [DecidableEq α]

/-- A lower bound may be lowered. -/
theorem sparseWfFrom_mono {d : Nat → α} {lo lo' : Nat} {l : List (Nat × α)} (h : sparseWfFrom d lo' l = true) (hl : lo ≤ lo') :
    sparseWfFrom d lo l = true := by
  cases l with
  | nil => rfl
  | cons x t => simp only [sparseWfFrom, Bool.and_eq_true, decide_eq_true_eq] at *; exact ⟨⟨by omega, h.1.2⟩, h.2⟩

/-- A key below the lower bound reads as unlisted. -/
theorem sparseGet_below {d : Nat → α} {lo k : Nat} {l : List (Nat × α)} (h : sparseWfFrom d lo l = true) (hk : k < lo) : sparseGet d l k = d k := by
  cases l with
  | nil => rfl
  | cons x t =>
    simp only [sparseWfFrom, Bool.and_eq_true, decide_eq_true_eq] at h
    simp only [sparseGet]
    rw [if_neg (by omega), if_pos (by omega)]

theorem sparseWfFrom_drop {d : Nat → α} {lo k : Nat} {l : List (Nat × α)} (h : sparseWfFrom d lo l = true) : sparseWfFrom d lo (sparseDrop l k) = true := by
  induction l generalizing lo with
  | nil => rfl
  | cons x t ih =>
    simp only [sparseWfFrom, Bool.and_eq_true, decide_eq_true_eq] at h
    simp only [sparseDrop]
    split
    · exact sparseWfFrom_mono h.2 (by omega)
    · split
      · simp [sparseWfFrom, h.1.1, h.1.2, h.2]
      · simp [sparseWfFrom, h.1.1, h.1.2, ih h.2]

theorem sparseWfFrom_ins {d : Nat → α} {lo k : Nat} {x : α} {l : List (Nat × α)} (h : sparseWfFrom d lo l = true) (hk : lo ≤ k) (hx : x ≠ d k) :
    sparseWfFrom d lo (sparseIns l k x) = true := by
  induction l generalizing lo with
  | nil => simp [sparseIns, sparseWfFrom, hk, hx]
  | cons y t ih =>
    simp only [sparseWfFrom, Bool.and_eq_true, decide_eq_true_eq] at h
    simp only [sparseIns]
    split
    · subst k; simp [sparseWfFrom, hk, hx, h.2]
    · split
      · have : k + 1 ≤ y.1 := by omega
        simp [sparseWfFrom, hk, hx, this, h.1.2, h.2]
      · simp [sparseWfFrom, h.1.1, h.1.2, ih h.2 (by omega)]

/-- A write keeps the canonical form. -/
theorem sparseWf_put {d : Nat → α} {l : List (Nat × α)} (h : sparseWf d l = true) (k : Nat) (x : α) : sparseWf d (sparsePut d l k x) = true := by
  unfold sparsePut
  split
  · exact sparseWfFrom_drop h
  · exact sparseWfFrom_ins h (Nat.zero_le k) (by assumption)

/-- A removal of listed keys keeps the canonical form. -/
theorem sparseWf_filter {d : Nat → α} {l : List (Nat × α)} (p : Nat × α → Bool) (h : sparseWf d l = true) : sparseWf d (l.filter p) = true := by
  unfold sparseWf at *
  generalize 0 = lo at *
  induction l generalizing lo with
  | nil => rfl
  | cons x t ih =>
    simp only [sparseWfFrom, Bool.and_eq_true, decide_eq_true_eq] at h
    rw [List.filter_cons]
    split
    · simp [sparseWfFrom, h.1.1, h.1.2, ih _ h.2]
    · exact sparseWfFrom_mono (ih _ h.2) (by omega)

omit [DecidableEq α] in
/-- A key reads what was inserted at it. -/
theorem sparseGet_ins_same (d : Nat → α) (l : List (Nat × α)) (k : Nat) (x : α) : sparseGet d (sparseIns l k x) k = x := by
  induction l with
  | nil => simp [sparseIns, sparseGet]
  | cons y t ih =>
    simp only [sparseIns]
    split
    · simp [sparseGet]
    · split
      · simp [sparseGet]
      · simp [sparseGet, *]

omit [DecidableEq α] in
/-- An insertion leaves every other key. -/
theorem sparseGet_ins_ne (d : Nat → α) (l : List (Nat × α)) (k : Nat) (x : α) (j : Nat) (h : j ≠ k) : sparseGet d (sparseIns l k x) j = sparseGet d l j := by
  induction l with
  | nil => simp only [sparseIns, sparseGet, if_neg h]; split <;> rfl
  | cons y t ih =>
    simp only [sparseIns]
    split
    · rename_i e; subst e; simp [sparseGet, h]
    · split
      · simp only [sparseGet, if_neg h]
        split
        · rw [if_neg (by omega), if_pos (by omega)]
        · rfl
      · simp only [sparseGet, ih]

/-- A canonical store reads as unlisted at a key that was removed. -/
theorem sparseGet_drop_same {d : Nat → α} {lo : Nat} {l : List (Nat × α)} (h : sparseWfFrom d lo l = true) (k : Nat) : sparseGet d (sparseDrop l k) k = d k := by
  induction l generalizing lo with
  | nil => rfl
  | cons y t ih =>
    simp only [sparseWfFrom, Bool.and_eq_true, decide_eq_true_eq] at h
    simp only [sparseDrop]
    split
    · exact sparseGet_below h.2 (by omega)
    · split
      · simp [sparseGet, *]
      · simp [sparseGet, *, ih h.2]

/-- A removal leaves every other key of a canonical store. -/
theorem sparseGet_drop_ne {d : Nat → α} {lo : Nat} {l : List (Nat × α)} (h : sparseWfFrom d lo l = true) (k j : Nat) (hj : j ≠ k) :
    sparseGet d (sparseDrop l k) j = sparseGet d l j := by
  induction l generalizing lo with
  | nil => rfl
  | cons y t ih =>
    simp only [sparseWfFrom, Bool.and_eq_true, decide_eq_true_eq] at h
    simp only [sparseDrop]
    split
    · rename_i e; subst e
      simp only [sparseGet, if_neg hj]
      split
      · exact sparseGet_below h.2 (by omega)
      · rfl
    · split
      · rfl
      · simp only [sparseGet, ih h.2]

/-- A write is read back. -/
theorem sparseGet_put_same {d : Nat → α} {l : List (Nat × α)} (h : sparseWf d l = true) (k : Nat) (x : α) : sparseGet d (sparsePut d l k x) k = x := by
  unfold sparsePut
  split
  · rename_i e; rw [sparseGet_drop_same h, e]
  · exact sparseGet_ins_same d l k x

/-- A write leaves every other key. -/
theorem sparseGet_put_ne {d : Nat → α} {l : List (Nat × α)} (h : sparseWf d l = true) (k : Nat) (x : α) (j : Nat) (hj : j ≠ k) :
    sparseGet d (sparsePut d l k x) j = sparseGet d l j := by
  unfold sparsePut
  split
  · exact sparseGet_drop_ne h k j hj
  · exact sparseGet_ins_ne d l k x j hj

/-- Writing bytes keeps the canonical form. -/
theorem sparseWf_putBytes {d : Nat → Byte} {l : List (Nat × Byte)} (h : sparseWf d l = true) (k : Nat) (bs : List Byte) : sparseWf d (sparsePutBytes d l k bs) = true := by
  induction bs generalizing l k with
  | nil => exact h
  | cons b bs ih => exact ih (sparseWf_put h k b) (k + 1)

/-- Writing bytes leaves every key outside them. -/
theorem sparseGet_putBytes_out {d : Nat → Byte} {l : List (Nat × Byte)} (h : sparseWf d l = true) (k : Nat) (bs : List Byte) (j : Nat)
    (hj : j < k ∨ k + bs.length ≤ j) : sparseGet d (sparsePutBytes d l k bs) j = sparseGet d l j := by
  induction bs generalizing l k with
  | nil => rfl
  | cons b bs ih =>
    simp only [List.length_cons] at hj
    simp only [sparsePutBytes]
    rw [ih (sparseWf_put h k b) (k + 1) (by omega), sparseGet_put_ne h k b j (by omega)]

/-- Each byte written is read back at its key. -/
theorem sparseGet_putBytes_in {d : Nat → Byte} {l : List (Nat × Byte)} (h : sparseWf d l = true) (k : Nat) (bs : List Byte) (i : Nat) (hi : i < bs.length) :
    sparseGet d (sparsePutBytes d l k bs) (k + i) = bs[i] := by
  induction bs generalizing l k i with
  | nil => simp at hi
  | cons b bs ih =>
    simp only [sparsePutBytes]
    cases i with
    | zero => rw [sparseGet_putBytes_out (sparseWf_put h k b) _ _ _ (by omega)]; exact sparseGet_put_same h k b
    | succ i =>
      rw [show k + (i + 1) = k + 1 + i by omega, ih (sparseWf_put h k b) (k + 1) i (by simpa using hi)]
      rfl

end Sys2Proof.Machine
end

