-- ==== Sys2Proof/Laws/Frame.lean ====
section
/-! SUPPORT. What every operation of the model keeps (`Keeps`), its composition, and that the named operations of
Machine/Ops.lean keep it. -/
set_option Elab.async false

namespace Sys2Proof.Machine

/-- What must stand in a frame: the bytes of memory and their line words, the flash, the registers, the phase. -/
structure Stands where
  mem   : Prop
  flash : Prop
  regs  : Prop
  phase : Prop

/-- A state to compare with, and what must stand as it is there. -/
structure Base where
  st : State
  q  : Stands

/-- What no operation breaks, from state `b.st` to state `t`: the stores stay canonical, the queue and the time stand, the
outputs only grow, no free value is used twice, the last reset lies in the past, the lifecycle fuses are only burned, and
what `b.q` names stands. -/
structure Keeps (b : Base) (t : State) : Prop where
  wf       : b.st.wf → t.wf
  pending  : t.pending = b.st.pending
  now      : t.now = b.st.now
  out      : b.st.out <+: t.out
  free     : b.st.free ≤ t.free
  reset    : b.st.resetAt ≤ b.st.now → t.resetAt ≤ t.now
  fuse     : b.st.boot.lifeFuse ≤ t.boot.lifeFuse
  mem      : b.q.mem → t.mem = b.st.mem ∧ t.lineMeta = b.st.lineMeta
  flash    : b.q.flash → t.flash = b.st.flash
  regs     : b.q.regs → t.regs = b.st.regs
  phase    : b.q.phase → t.phase = b.st.phase

/-- A meaning that takes `dt` and answers `r` from `s`, with what `q` names left as it is. -/
def Moves (q : Stands) (dt : Nat) (s : State) (r : Res) : Prop := ∀ t, r = .next t → Keeps ⟨s.advance dt, q⟩ t

theorem Keeps.refl (s : State) (q : Stands) : Keeps ⟨s, q⟩ s :=
  ⟨id, rfl, rfl, List.prefix_refl _, Nat.le_refl _, id, Nat.le_refl _, fun _ => ⟨rfl, rfl⟩, fun _ => rfl, fun _ => rfl, fun _ => rfl⟩

/-- A change of what `Keeps` does not look at. -/
theorem Keeps.of_eq {b : Base} {s t : State} (h : Keeps b s) (h1 : t.regs = s.regs) (h2 : t.mem = s.mem) (h3 : t.lineMeta = s.lineMeta)
    (h4 : t.flash = s.flash) (h5 : t.pending = s.pending) (h6 : t.now = s.now) (h7 : t.out = s.out) (h8 : t.free = s.free)
    (h9 : t.resetAt = s.resetAt) (h10 : t.boot.lifeFuse = s.boot.lifeFuse) (h11 : t.phase = s.phase) : Keeps b t :=
  ⟨fun w => by have := h.wf w; unfold State.wf at *; rw [h1, h2, h3, h4]; exact this, h5.trans h.pending, h6.trans h.now,
   h7 ▸ h.out, h8 ▸ h.free, fun r => by rw [h9, h6]; exact h.reset r, h10 ▸ h.fuse, fun q => by rw [h2, h3]; exact h.mem q,
   fun q => h4.trans (h.flash q), fun q => h1.trans (h.regs q), fun q => h11.trans (h.phase q)⟩

/-- `Keeps` of a state written out, by the fields it looks at. -/
def KeepsAt (b : Base) (now : Nat) (resetAt : Nat) (phase : Phase) (regs : List (Nat × Nat)) (mem : List Host.Cell) (lineMeta : List (Nat × Nat)) (flash : List Host.Cell) (free : Nat) (out : List Out) (pending : List Instr) (fuse : Nat) : Prop :=
  (b.st.wf → sparseWf defaultOf regs = true ∧ Memory.wf mem = true ∧ sparseWf lineDefault lineMeta = true ∧ sparseWf flashDefault flash = true) ∧
    pending = b.st.pending ∧ now = b.st.now ∧ b.st.out <+: out ∧ b.st.free ≤ free ∧ (b.st.resetAt ≤ b.st.now → resetAt ≤ now) ∧ b.st.boot.lifeFuse ≤ fuse ∧
    (b.q.mem → mem = b.st.mem ∧ lineMeta = b.st.lineMeta) ∧ (b.q.flash → flash = b.st.flash) ∧ (b.q.regs → regs = b.st.regs) ∧ (b.q.phase → phase = b.st.phase)

theorem Keeps.mk_iff {b : Base} {now' : Nat} {resetAt' : Nat} {phase' : Phase} {regs' : List (Nat × Nat)} {mem' : List Host.Cell} {lineMeta' : List (Nat × Nat)} {flash' : List Host.Cell} {timers' : List (Timer × Nat)} {free' : Nat} {out' : List Out} {mgmt' : Mgmt} {lane' : LaneSt} {edge' : EdgeSt} {flt' : FltSt} {tlm' : TlmSt} {boot' : BootSt} {basin' : BasinSt} {sched' : SchedSt} {pass' : PassSt} {slot' : SlotSt} {ten' : TenSt} {twin' : TwinSt} {coh' : CohSt} {stp' : StpSt} {guard' : GuardSt} {col' : ColSt} {glen' : GlenSt} {wear' : WearSt} {pending' : List Instr} :
    Keeps b ⟨now', resetAt', phase', regs', mem', lineMeta', flash', timers', free', out', mgmt', lane', edge', flt', tlm', boot', basin', sched', pass', slot', ten', twin', coh', stp', guard', col', glen', wear', pending'⟩ ↔ KeepsAt b now' resetAt' phase' regs' mem' lineMeta' flash' free' out' pending' boot'.lifeFuse :=
  ⟨fun h => ⟨h.wf, h.pending, h.now, h.out, h.free, h.reset, h.fuse, h.mem, h.flash, h.regs, h.phase⟩, fun h => ⟨h.1, h.2.1, h.2.2.1, h.2.2.2.1, h.2.2.2.2.1, h.2.2.2.2.2.1, h.2.2.2.2.2.2.1, h.2.2.2.2.2.2.2.1, h.2.2.2.2.2.2.2.2.1, h.2.2.2.2.2.2.2.2.2.1, h.2.2.2.2.2.2.2.2.2.2⟩⟩

/-- An update of fields that `Keeps` does not look at. -/
theorem Keeps.upd {b : Base} {s : State} (h : Keeps b s) : KeepsAt b s.now s.resetAt s.phase s.regs s.mem s.lineMeta s.flash s.free s.out s.pending s.boot.lifeFuse :=
  ⟨h.wf, h.pending, h.now, h.out, h.free, h.reset, h.fuse, h.mem, h.flash, h.regs, h.phase⟩

/-- The same where the phase may change. -/
theorem Keeps.updPhase {b : Base} {s : State} (h : Keeps b s) (p : Phase) (hqp : ¬ b.q.phase := by assumption) :
    KeepsAt b s.now s.resetAt p s.regs s.mem s.lineMeta s.flash s.free s.out s.pending s.boot.lifeFuse :=
  ⟨h.wf, h.pending, h.now, h.out, h.free, h.reset, h.fuse, h.mem, h.flash, h.regs, fun q => absurd q hqp⟩

/-- A change of the registers that keeps them canonical. -/
theorem Keeps.of_regs {b : Base} {s t : State} (h : Keeps b s) (hq : ¬ b.q.regs) (hw : sparseWf defaultOf s.regs = true → sparseWf defaultOf t.regs = true)
    (h2 : t.mem = s.mem) (h3 : t.lineMeta = s.lineMeta) (h4 : t.flash = s.flash) (h5 : t.pending = s.pending) (h6 : t.now = s.now)
    (h7 : t.out = s.out) (h8 : t.free = s.free) (h9 : t.resetAt = s.resetAt) (h10 : t.boot.lifeFuse = s.boot.lifeFuse) (h11 : t.phase = s.phase) : Keeps b t :=
  ⟨fun w => by have := h.wf w; unfold State.wf at *; rw [h2, h3, h4]; exact ⟨hw this.1, this.2⟩, h5.trans h.pending, h6.trans h.now,
   h7 ▸ h.out, h8 ▸ h.free, fun r => by rw [h9, h6]; exact h.reset r, h10 ▸ h.fuse, fun q => by rw [h2, h3]; exact h.mem q,
   fun q => h4.trans (h.flash q), fun q => absurd q hq, fun q => h11.trans (h.phase q)⟩

/-- A change of the memory and its line words that keeps them canonical. -/
theorem Keeps.of_mem {b : Base} {s t : State} (h : Keeps b s) (hq : ¬ b.q.mem)
    (hw : Memory.wf s.mem = true → sparseWf lineDefault s.lineMeta = true → Memory.wf t.mem = true ∧ sparseWf lineDefault t.lineMeta = true)
    (h1 : t.regs = s.regs) (h4 : t.flash = s.flash) (h5 : t.pending = s.pending) (h6 : t.now = s.now)
    (h7 : t.out = s.out) (h8 : t.free = s.free) (h9 : t.resetAt = s.resetAt) (h10 : t.boot.lifeFuse = s.boot.lifeFuse) (h11 : t.phase = s.phase) : Keeps b t :=
  ⟨fun w => by have := h.wf w; unfold State.wf at *; rw [h1, h4]; exact ⟨this.1, (hw this.2.1 this.2.2.1).1, (hw this.2.1 this.2.2.1).2, this.2.2.2⟩,
   h5.trans h.pending, h6.trans h.now, h7 ▸ h.out, h8 ▸ h.free, fun r => by rw [h9, h6]; exact h.reset r, h10 ▸ h.fuse, fun q => absurd q hq,
   fun q => h4.trans (h.flash q), fun q => h1.trans (h.regs q), fun q => h11.trans (h.phase q)⟩

/-- A change of the flash that keeps it canonical. -/
theorem Keeps.of_flash {b : Base} {s t : State} (h : Keeps b s) (hq : ¬ b.q.flash) (hw : sparseWf flashDefault s.flash = true → sparseWf flashDefault t.flash = true)
    (h1 : t.regs = s.regs) (h2 : t.mem = s.mem) (h3 : t.lineMeta = s.lineMeta) (h5 : t.pending = s.pending) (h6 : t.now = s.now)
    (h7 : t.out = s.out) (h8 : t.free = s.free) (h9 : t.resetAt = s.resetAt) (h10 : t.boot.lifeFuse = s.boot.lifeFuse) (h11 : t.phase = s.phase) : Keeps b t :=
  ⟨fun w => by have := h.wf w; unfold State.wf at *; rw [h1, h2, h3]; exact ⟨this.1, this.2.1, this.2.2.1, hw this.2.2.2⟩, h5.trans h.pending, h6.trans h.now,
   h7 ▸ h.out, h8 ▸ h.free, fun r => by rw [h9, h6]; exact h.reset r, h10 ▸ h.fuse, fun q => by rw [h2, h3]; exact h.mem q,
   fun q => absurd q hq, fun q => h1.trans (h.regs q), fun q => h11.trans (h.phase q)⟩

theorem Keeps.forEach {α : Type} {b : Base} {l : List α} {s : State} {f : State → α → State} (h : Keeps b s)
    (hf : ∀ t a, Keeps b t → Keeps b (f t a)) : Keeps b (forEach l s f) := by
  unfold Machine.forEach
  induction l generalizing s with
  | nil => exact h
  | cons a l ih => exact ih (hf s a h)

theorem Keeps.foldl {α : Type} {b : Base} {l : List α} {s : State} {f : State → α → State} (h : Keeps b s)
    (hf : ∀ t a, Keeps b t → Keeps b (f t a)) : Keeps b (l.foldl f s) := Keeps.forEach h hf

theorem Keeps.withSome {α : Type} {b : Base} {s : State} {o : Option α} {f : α → State} (h : Keeps b s) (hf : ∀ a, Keeps b (f a)) :
    Keeps b (s.withSome o f) := by
  cases o with
  | none => exact h
  | some a => exact hf a

theorem Keeps.ofId {b : Base} {s : State} (h : Keeps b s) : Keeps b (id s) := h

theorem Keeps.ite {b : Base} {s t : State} {c : Prop} [Decidable c] (hs : Keeps b s) (ht : Keeps b t) : Keeps b (if c then s else t) := by
  split
  · exact hs
  · exact ht

/-- What `Keeps` says of a state that an operation may answer. -/
structure KeepsO (b : Base) (o : Option State) : Prop where
  get : ∀ t, o = some t → Keeps b t

theorem KeepsO.none {b : Base} : KeepsO b none := ⟨fun _ h => nomatch h⟩

theorem KeepsO.some {b : Base} {s : State} (h : Keeps b s) : KeepsO b (some s) := ⟨fun _ e => Option.some.inj e ▸ h⟩

theorem KeepsO.getD {b : Base} {s : State} {o : Option State} (h : KeepsO b o) (hs : Keeps b s) : Keeps b (o.getD s) := by
  cases o with
  | none => exact hs
  | some t => exact h.get t rfl

/-- An operation over a state that another may answer. -/
theorem Keeps.withState {b : Base} {s : State} {o : Option State} {f : State → State} (h : Keeps b s) (ho : KeepsO b o)
    (hf : ∀ t, Keeps b t → Keeps b (f t)) : Keeps b (s.withSome o f) := by
  cases o with
  | none => exact h
  | some t => exact hf t (ho.get t rfl)

/-- What `Keeps` says of an effect that may be chosen. -/
structure KeepsF (b : Base) (o : Option (State → State)) : Prop where
  get : ∀ f, o = some f → ∀ t, Keeps b t → Keeps b (f t)

theorem KeepsF.none {b : Base} : KeepsF b none := ⟨fun _ h => nomatch h⟩

theorem KeepsF.some {b : Base} {f : State → State} (h : ∀ t, Keeps b t → Keeps b (f t)) : KeepsF b (some f) :=
  ⟨fun _ e => Option.some.inj e ▸ h⟩

theorem KeepsF.or {b : Base} {o p : Option (State → State)} (ho : KeepsF b o) (hp : KeepsF b p) : KeepsF b (o.or p) := by
  cases o with
  | none => exact hp
  | some f => exact ho

theorem KeepsF.map {α : Type} {b : Base} {o : Option α} {f : α → State → State} (h : ∀ a t, Keeps b t → Keeps b (f a t)) : KeepsF b (o.map f) := by
  cases o with
  | none => exact KeepsF.none
  | some a => exact KeepsF.some (h a)

theorem KeepsF.getD {b : Base} {o : Option (State → State)} {f : State → State} {t : State} (ho : KeepsF b o) (hf : ∀ t, Keeps b t → Keeps b (f t))
    (h : Keeps b t) : Keeps b (o.getD f t) := by
  cases o with
  | none => exact hf t h
  | some g => exact ho.get g rfl t h

/-! ### The named operations -/

theorem State.setReg_keeps {b : Base} (s : State) (a e v : Nat) (h : Keeps b s) (hqr : ¬ b.q.regs := by assumption) : Keeps b (s.setReg a e v) :=
  h.of_regs hqr (fun w => sparseWf_put w _ _) rfl rfl rfl rfl rfl rfl rfl rfl rfl rfl

theorem State.setRegBits_keeps {b : Base} (s : State) (a e lo w x : Nat) (h : Keeps b s) (hqr : ¬ b.q.regs := by assumption) : Keeps b (s.setRegBits a e lo w x) :=
  State.setReg_keeps _ _ _ _ h

theorem State.putRegBit_keeps {b : Base} (s : State) (a e n : Nat) (x : Bool) (h : Keeps b s) (hqr : ¬ b.q.regs := by assumption) : Keeps b (s.putRegBit a e n x) :=
  State.setReg_keeps _ _ _ _ h

theorem State.arm_keeps {b : Base} (s : State) (t : Timer) (n : Nat) (h : Keeps b s) : Keeps b (s.arm t n) :=
  h.of_eq rfl rfl rfl rfl rfl rfl rfl rfl rfl rfl rfl

theorem State.disarm_keeps {b : Base} (s : State) (t : Timer) (h : Keeps b s) : Keeps b (s.disarm t) :=
  h.of_eq rfl rfl rfl rfl rfl rfl rfl rfl rfl rfl rfl

theorem State.onDue_keeps {b : Base} (s : State) (t : Timer) (f : State → State) (h : Keeps b s) (hf : ∀ u, Keeps b u → Keeps b (f u)) :
    Keeps b (s.onDue t f) := by
  unfold State.onDue
  split
  · exact hf _ (State.disarm_keeps s t h)
  · exact h

theorem State.emit_keeps {b : Base} (s : State) (o : Out) (h : Keeps b s) : Keeps b (s.emit o) :=
  ⟨h.wf, h.pending, h.now, h.out.trans (List.prefix_append _ _), h.free, h.reset, h.fuse, h.mem, h.flash, h.regs, h.phase⟩

theorem State.useFree_keeps {b : Base} (s : State) (h : Keeps b s) : Keeps b s.useFree :=
  ⟨h.wf, h.pending, h.now, h.out, Nat.le_succ_of_le h.free, h.reset, h.fuse, h.mem, h.flash, h.regs, h.phase⟩

theorem bumpCounter_keeps {b : Base} (n : Nat) (s : State) (k : Nat × Nat) (h : Keeps b s) (hqr : ¬ b.q.regs := by assumption) : Keeps b (bumpCounter n s k) := by
  unfold bumpCounter
  extract_lets s1 key
  have h1 : Keeps b s1 := State.setReg_keeps s k.1 k.2 _ h
  clear_value s1
  exact h1.of_eq rfl rfl rfl rfl rfl rfl rfl rfl rfl rfl rfl

theorem State.count_keeps {b : Base} (s : State) (a e n : Nat) (h : Keeps b s) (hqr : ¬ b.q.regs := by assumption) : Keeps b (s.count a e n) := by
  unfold State.count
  split
  · exact h
  · exact Keeps.forEach (bumpCounter_keeps _ _ _ h) fun t k ht => bumpCounter_keeps _ _ _ ht

theorem State.count1_keeps {b : Base} (s : State) (a e : Nat) (h : Keeps b s) (hqr : ¬ b.q.regs := by assumption) : Keeps b (s.count1 a e) := State.count_keeps s a e 1 h

theorem sendMctp_keeps {b : Base} (s : State) (body : List Byte) (h : Keeps b s) : Keeps b (sendMctp s body) :=
  Keeps.foldl h fun _ _ h => State.emit_keeps _ _ h

theorem plainWrite_keeps {b : Base} (s : State) (a e v : Nat) (h : Keeps b s) (hqr : ¬ b.q.regs := by assumption) : Keeps b (plainWrite s a e v) := by
  unfold plainWrite
  split
  · exact State.setReg_keeps _ _ _ _ h
  · exact h

theorem recordWriter_keeps {b : Base} (s : State) (path port a : Nat) (e : Option Nat) (h : Keeps b s) (hqr : ¬ b.q.regs := by assumption) :
    Keeps b (recordWriter s path port a e) := by
  unfold recordWriter
  split
  · exact h
  · exact State.setReg_keeps _ _ _ _ (State.setReg_keeps _ _ _ _ (State.setReg_keeps _ _ _ _ (State.setReg_keeps _ _ _ _ h)))

theorem firmwareWrote_keeps {b : Base} (s : State) (a : Nat) (e : Option Nat) (h : Keeps b s) (hqr : ¬ b.q.regs := by assumption) :
    Keeps b (firmwareWrote s a e) := recordWriter_keeps s 4 0 a e h

theorem State.setByte_keeps {b : Base} (s : State) (a : Nat) (x : Byte) (h : Keeps b s) (hqm : ¬ b.q.mem := by assumption) : Keeps b (s.setByte a x) :=
  h.of_mem hqm (fun w v => ⟨sparseWf_put w _ _, v⟩) rfl rfl rfl rfl rfl rfl rfl rfl rfl

theorem State.setBytes_keeps {b : Base} (s : State) (a : Nat) (bs : List Byte) (h : Keeps b s) (hqm : ¬ b.q.mem := by assumption) : Keeps b (s.setBytes a bs) :=
  h.of_mem hqm (fun w v => ⟨sparseWf_putBytes w _ _, v⟩) rfl rfl rfl rfl rfl rfl rfl rfl rfl

theorem setLineWords_keeps {b : Base} (s : State) (n v k : Nat) (h : Keeps b s) (hqm : ¬ b.q.mem := by assumption) : Keeps b (setLineWords s n v k) := by
  induction k with
  | zero => exact h
  | succ k ih => exact ih.of_mem hqm (fun w v => ⟨w, sparseWf_put v _ _⟩) rfl rfl rfl rfl rfl rfl rfl rfl rfl

theorem State.setLineWord_keeps {b : Base} (s : State) (line v : Nat) (h : Keeps b s) (hqm : ¬ b.q.mem := by assumption) : Keeps b (s.setLineWord line v) :=
  h.of_mem hqm (fun w v => ⟨w, sparseWf_put v _ _⟩) rfl rfl rfl rfl rfl rfl rfl rfl rfl

theorem State.setFlash_keeps {b : Base} (s : State) (a : Nat) (bs : List Byte) (h : Keeps b s) (hqf : ¬ b.q.flash := by assumption) : Keeps b (s.setFlash a bs) :=
  h.of_flash hqf (fun w => sparseWf_putBytes w _ _) rfl rfl rfl rfl rfl rfl rfl rfl rfl rfl

/-- Removing listed bytes of memory (they read as unlisted afterwards). -/
theorem Keeps.filterMem {b : Base} {s t : State} (p : Host.Cell → Bool) (h : Keeps b s) (hm : t.mem = s.mem.filter p) (h1 : t.regs = s.regs) (h3 : t.lineMeta = s.lineMeta)
    (h4 : t.flash = s.flash) (h5 : t.pending = s.pending) (h6 : t.now = s.now) (h7 : t.out = s.out) (h8 : t.free = s.free)
    (h9 : t.resetAt = s.resetAt) (h10 : t.boot.lifeFuse = s.boot.lifeFuse) (h11 : t.phase = s.phase) (hqm : ¬ b.q.mem := by assumption) : Keeps b t :=
  h.of_mem hqm (fun w v => by rw [hm, h3]; exact ⟨sparseWf_filter p w, v⟩) h1 h4 h5 h6 h7 h8 h9 h10 h11

/-! ### The frame of a meaning -/

theorem whenRunning_keeps {b : Base} {s : State} {f : State → State} (h : Keeps b s) (hf : ∀ u, Keeps b u → Keeps b (f u)) : Keeps b (whenRunning f s) := by
  unfold whenRunning
  split
  · exact hf s h
  · exact h

theorem run_moves {q : Stands} {dt : Nat} {s : State} {f : State → State} (hf : ∀ (c : Base) u, c.q = q → Keeps c u → Keeps c (f u)) : Moves q dt s (run dt s f) := by
  intro t h; cases h; exact whenRunning_keeps (Keeps.refl _ _) fun u => hf _ u rfl

theorem runPowered_moves {q : Stands} {dt : Nat} {s : State} {f : State → State} (hf : ∀ (c : Base) u, c.q = q → Keeps c u → Keeps c (f u)) :
    Moves q dt s (runPowered dt s f) := by
  intro t h; cases h
  show Keeps _ (if _ then _ else _)
  split
  · exact Keeps.refl _ _
  · exact hf _ _ rfl (Keeps.refl _ _)

theorem runAon_moves {q : Stands} {dt : Nat} {s : State} {f : State → State} (hf : ∀ (c : Base) u, c.q = q → Keeps c u → Keeps c (f u)) : Moves q dt s (runAon dt s f) := by
  intro t h; cases h; exact hf _ _ rfl (Keeps.refl _ _)

end Sys2Proof.Machine
end

