-- ==== Sys2Proof/Laws/Keeps/BasinOps.lean ====
section
/-! SUPPORT. Every operation and meaning of Machine/BasinOps.lean keeps what `Keeps` says. -/
set_option linter.all false
namespace Sys2Proof.Machine

theorem State.setPass_keeps {bb : Base} (s : State) (p : Nat) (q : PassPort) (h_s : Keeps bb s)  : Keeps bb (State.setPass s p q) := by
  unfold State.setPass
  repeat' first | with_reducible assumption | intro _ | (extract_lets +onlyGivenNames z; refine (fun (hz : Keeps bb z) => ?_) ?_; clear_value z; revert z; intro _ _; rotate_left; unfold z; clear z; rotate_left) | (extract_lets +onlyGivenNames z; refine (fun (hz : Keeps bb z.1) => ?_) ?_; clear_value z; revert z; intro _ _; rotate_left; unfold z; clear z; rotate_left) | (extract_lets +onlyGivenNames z; refine (fun (hz : Keeps bb z) => ?_) ?_; revert z; intro _ _; rotate_left; unfold z; clear z; rotate_left) | (extract_lets +onlyGivenNames z; revert z; intro _) | (simp only [Keeps.mk_iff]; with_reducible apply Keeps.upd)

theorem State.setUsed_keeps {bb : Base} (s : State) (p : Nat) (c : Nat) (n : Nat) (h_s : Keeps bb s) (hqr : ¬ bb.q.regs := by assumption) : Keeps bb (State.setUsed s p c n) := by
  unfold State.setUsed
  repeat' first | with_reducible assumption | intro _ | (extract_lets +onlyGivenNames z; refine (fun (hz : Keeps bb z) => ?_) ?_; clear_value z; revert z; intro _ _; rotate_left; unfold z; clear z; rotate_left) | (extract_lets +onlyGivenNames z; refine (fun (hz : Keeps bb z.1) => ?_) ?_; clear_value z; revert z; intro _ _; rotate_left; unfold z; clear z; rotate_left) | (extract_lets +onlyGivenNames z; refine (fun (hz : Keeps bb z) => ?_) ?_; revert z; intro _ _; rotate_left; unfold z; clear z; rotate_left) | (extract_lets +onlyGivenNames z; revert z; intro _) | with_reducible apply State.setReg_keeps

theorem State.addEgress_keeps {bb : Base} (s : State) (e : Nat) (n : Nat) (h_s : Keeps bb s) (hqr : ¬ bb.q.regs := by assumption) : Keeps bb (State.addEgress s e n) := by
  unfold State.addEgress
  repeat' first | with_reducible assumption | intro _ | with_reducible apply State.setReg_keeps

theorem State.subEgress_keeps {bb : Base} (s : State) (e : Nat) (n : Nat) (h_s : Keeps bb s) (hqr : ¬ bb.q.regs := by assumption) : Keeps bb (State.subEgress s e n) := by
  unfold State.subEgress
  repeat' first | with_reducible assumption | intro _ | with_reducible apply State.setReg_keeps

theorem State.putStored_keeps {bb : Base} (s : State) (c : Stored) (h_s : Keeps bb s)  : Keeps bb (State.putStored s c) := by
  unfold State.putStored
  repeat' first | with_reducible assumption | intro _ | (extract_lets +onlyGivenNames z; refine (fun (hz : Keeps bb z) => ?_) ?_; clear_value z; revert z; intro _ _; rotate_left; unfold z; clear z; rotate_left) | (extract_lets +onlyGivenNames z; refine (fun (hz : Keeps bb z.1) => ?_) ?_; clear_value z; revert z; intro _ _; rotate_left; unfold z; clear z; rotate_left) | (extract_lets +onlyGivenNames z; refine (fun (hz : Keeps bb z) => ?_) ?_; revert z; intro _ _; rotate_left; unfold z; clear z; rotate_left) | (extract_lets +onlyGivenNames z; revert z; intro _) | (simp only [Keeps.mk_iff]; with_reducible apply Keeps.upd) | with_reducible apply Keeps.ofId | with_reducible apply Keeps.ite | split

theorem State.refDown_keeps {bb : Base} (s : State) (id : Nat) (h_s : Keeps bb s) (hqr : ¬ bb.q.regs := by assumption) : Keeps bb (State.refDown s id) := by
  unfold State.refDown
  repeat' first | with_reducible assumption | intro _ | (extract_lets +onlyGivenNames z; refine (fun (hz : Keeps bb z) => ?_) ?_; clear_value z; revert z; intro _ _; rotate_left; unfold z; clear z; rotate_left) | (extract_lets +onlyGivenNames z; refine (fun (hz : Keeps bb z.1) => ?_) ?_; clear_value z; revert z; intro _ _; rotate_left; unfold z; clear z; rotate_left) | (extract_lets +onlyGivenNames z; refine (fun (hz : Keeps bb z) => ?_) ?_; revert z; intro _ _; rotate_left; unfold z; clear z; rotate_left) | (extract_lets +onlyGivenNames z; revert z; intro _) | (simp only [Keeps.mk_iff]; with_reducible apply Keeps.upd) | with_reducible apply Keeps.ofId | with_reducible apply Keeps.withState | with_reducible apply State.putStored_keeps | with_reducible apply State.setReg_keeps | with_reducible apply State.setUsed_keeps | with_reducible apply Keeps.withSome | with_reducible apply Keeps.ite | split

theorem setStall_keeps {bb : Base} (s : State) (e : Nat) (run : Bool) (h_s : Keeps bb s)  : Keeps bb (setStall s e run) := by
  unfold setStall
  repeat' first | with_reducible assumption | intro _ | (extract_lets +onlyGivenNames z; refine (fun (hz : Keeps bb z) => ?_) ?_; clear_value z; revert z; intro _ _; rotate_left; unfold z; clear z; rotate_left) | (extract_lets +onlyGivenNames z; refine (fun (hz : Keeps bb z.1) => ?_) ?_; clear_value z; revert z; intro _ _; rotate_left; unfold z; clear z; rotate_left) | (extract_lets +onlyGivenNames z; refine (fun (hz : Keeps bb z) => ?_) ?_; revert z; intro _ _; rotate_left; unfold z; clear z; rotate_left) | (extract_lets +onlyGivenNames z; revert z; intro _) | (simp only [Keeps.mk_iff]; with_reducible apply Keeps.upd) | with_reducible apply run_keeps | with_reducible apply Keeps.ite | split

theorem dropEligible_keeps {bb : Base} (s : State) (q : Nat) (h_s : Keeps bb s) (hqr : ¬ bb.q.regs := by assumption) : Keeps bb (dropEligible s q) := by
  unfold dropEligible
  repeat' first | with_reducible assumption | intro _ | (extract_lets +onlyGivenNames z; refine (fun (hz : Keeps bb z) => ?_) ?_; clear_value z; revert z; intro _ _; rotate_left; unfold z; clear z; rotate_left) | (extract_lets +onlyGivenNames z; refine (fun (hz : Keeps bb z.1) => ?_) ?_; clear_value z; revert z; intro _ _; rotate_left; unfold z; clear z; rotate_left) | (extract_lets +onlyGivenNames z; refine (fun (hz : Keeps bb z) => ?_) ?_; revert z; intro _ _; rotate_left; unfold z; clear z; rotate_left) | (extract_lets +onlyGivenNames z; revert z; intro _) | (simp only [Keeps.mk_iff]; with_reducible apply Keeps.upd) | with_reducible apply State.putRegBit_keeps

theorem dropEmpty_keeps {bb : Base} (s : State) (h_s : Keeps bb s) (hqr : ¬ bb.q.regs := by assumption) : Keeps bb (dropEmpty s) := by
  unfold dropEmpty
  repeat' first | with_reducible assumption | intro _ | with_reducible apply dropEligible_keeps | with_reducible apply Keeps.forEach

theorem discardEntry_keeps {bb : Base} (s : State) (x : Entry) (h_s : Keeps bb s) (hqr : ¬ bb.q.regs := by assumption) : Keeps bb (discardEntry s x) := by
  unfold discardEntry
  repeat' first | with_reducible assumption | intro _ | (extract_lets +onlyGivenNames z; refine (fun (hz : Keeps bb z) => ?_) ?_; clear_value z; revert z; intro _ _; rotate_left; unfold z; clear z; rotate_left) | (extract_lets +onlyGivenNames z; refine (fun (hz : Keeps bb z.1) => ?_) ?_; clear_value z; revert z; intro _ _; rotate_left; unfold z; clear z; rotate_left) | (extract_lets +onlyGivenNames z; refine (fun (hz : Keeps bb z) => ?_) ?_; revert z; intro _ _; rotate_left; unfold z; clear z; rotate_left) | (extract_lets +onlyGivenNames z; revert z; intro _) | (simp only [Keeps.mk_iff]; with_reducible apply Keeps.upd) | with_reducible apply Keeps.ofId | with_reducible apply State.count_keeps | with_reducible apply State.refDown_keeps | with_reducible apply State.subEgress_keeps

theorem discardReading_keeps {bb : Base} (s : State) (x : Reading) (h_s : Keeps bb s) (hqr : ¬ bb.q.regs := by assumption) : Keeps bb (discardReading s x) := by
  unfold discardReading
  repeat' first | with_reducible assumption | intro _ | (extract_lets +onlyGivenNames z; refine (fun (hz : Keeps bb z) => ?_) ?_; clear_value z; revert z; intro _ _; rotate_left; unfold z; clear z; rotate_left) | (extract_lets +onlyGivenNames z; refine (fun (hz : Keeps bb z.1) => ?_) ?_; clear_value z; revert z; intro _ _; rotate_left; unfold z; clear z; rotate_left) | (extract_lets +onlyGivenNames z; refine (fun (hz : Keeps bb z) => ?_) ?_; revert z; intro _ _; rotate_left; unfold z; clear z; rotate_left) | (extract_lets +onlyGivenNames z; revert z; intro _) | with_reducible apply Keeps.ofId | with_reducible apply State.count_keeps | with_reducible apply State.refDown_keeps | with_reducible apply State.subEgress_keeps | with_reducible apply Keeps.ite | split

theorem discardUnwritten_keeps {bb : Base} (p : Nat) (s : State) (c : Stored) (h_s : Keeps bb s) (hqr : ¬ bb.q.regs := by assumption) : Keeps bb (discardUnwritten p s c) := by
  unfold discardUnwritten
  repeat' first | with_reducible assumption | intro _ | (extract_lets +onlyGivenNames z; refine (fun (hz : Keeps bb z) => ?_) ?_; clear_value z; revert z; intro _ _; rotate_left; unfold z; clear z; rotate_left) | (extract_lets +onlyGivenNames z; refine (fun (hz : Keeps bb z.1) => ?_) ?_; clear_value z; revert z; intro _ _; rotate_left; unfold z; clear z; rotate_left) | (extract_lets +onlyGivenNames z; refine (fun (hz : Keeps bb z) => ?_) ?_; revert z; intro _ _; rotate_left; unfold z; clear z; rotate_left) | (extract_lets +onlyGivenNames z; revert z; intro _) | (simp only [Keeps.mk_iff]; with_reducible apply Keeps.upd) | with_reducible apply Keeps.ofId | with_reducible apply Keeps.withState | with_reducible apply State.count_keeps | with_reducible apply State.putStored_keeps | with_reducible apply State.refDown_keeps | with_reducible apply State.subEgress_keeps | with_reducible apply Keeps.withSome | with_reducible apply Keeps.forEach

theorem countWait_keeps {bb : Base} (s : State) (c : Offered) (h_s : Keeps bb s) (hqr : ¬ bb.q.regs := by assumption) : Keeps bb (countWait s c) := by
  unfold countWait
  repeat' first | with_reducible assumption | intro _ | with_reducible apply State.count_keeps | split

theorem settleWaits_keeps {bb : Base} (s : State) (h_s : Keeps bb s) (hqr : ¬ bb.q.regs := by assumption) : Keeps bb (settleWaits s) := by
  unfold settleWaits
  repeat' first | with_reducible assumption | intro _ | (extract_lets +onlyGivenNames z; refine (fun (hz : Keeps bb z) => ?_) ?_; clear_value z; revert z; intro _ _; rotate_left; unfold z; clear z; rotate_left) | (extract_lets +onlyGivenNames z; refine (fun (hz : Keeps bb z.1) => ?_) ?_; clear_value z; revert z; intro _ _; rotate_left; unfold z; clear z; rotate_left) | (extract_lets +onlyGivenNames z; refine (fun (hz : Keeps bb z) => ?_) ?_; revert z; intro _ _; rotate_left; unfold z; clear z; rotate_left) | (extract_lets +onlyGivenNames z; revert z; intro _) | (simp only [Keeps.mk_iff]; with_reducible apply Keeps.upd) | with_reducible apply countWait_keeps | with_reducible apply Keeps.forEach

theorem settleShaped_keeps {bb : Base} (s : State) (e : Nat) (goes : Bool) (h_s : Keeps bb s) (hqr : ¬ bb.q.regs := by assumption) : Keeps bb (settleShaped s e goes) := by
  unfold settleShaped
  repeat' first | with_reducible assumption | intro _ | (extract_lets +onlyGivenNames z; refine (fun (hz : Keeps bb z) => ?_) ?_; clear_value z; revert z; intro _ _; rotate_left; unfold z; clear z; rotate_left) | (extract_lets +onlyGivenNames z; refine (fun (hz : Keeps bb z.1) => ?_) ?_; clear_value z; revert z; intro _ _; rotate_left; unfold z; clear z; rotate_left) | (extract_lets +onlyGivenNames z; refine (fun (hz : Keeps bb z) => ?_) ?_; revert z; intro _ _; rotate_left; unfold z; clear z; rotate_left) | (extract_lets +onlyGivenNames z; revert z; intro _) | (simp only [Keeps.mk_iff]; with_reducible apply Keeps.upd) | with_reducible apply Keeps.withState | with_reducible apply State.count_keeps | with_reducible apply Keeps.withSome | with_reducible apply Keeps.ite | split

theorem rebindNow_keeps {bb : Base} (s : State) (g : Nat) (h_s : Keeps bb s) (hqr : ¬ bb.q.regs := by assumption) : Keeps bb (rebindNow s g) := by
  unfold rebindNow
  repeat' first | with_reducible assumption | intro _ | (extract_lets +onlyGivenNames z; refine (fun (hz : Keeps bb z) => ?_) ?_; clear_value z; revert z; intro _ _; rotate_left; unfold z; clear z; rotate_left) | (extract_lets +onlyGivenNames z; refine (fun (hz : Keeps bb z.1) => ?_) ?_; clear_value z; revert z; intro _ _; rotate_left; unfold z; clear z; rotate_left) | (extract_lets +onlyGivenNames z; refine (fun (hz : Keeps bb z) => ?_) ?_; revert z; intro _ _; rotate_left; unfold z; clear z; rotate_left) | (extract_lets +onlyGivenNames z; revert z; intro _) | with_reducible apply State.setReg_keeps | with_reducible apply Keeps.ite | split

theorem basinDiscard_keeps {bb : Base} (s : State) (p : Nat) (h_s : Keeps bb s) (hqr : ¬ bb.q.regs := by assumption) : Keeps bb (basinDiscard s p) := by
  unfold basinDiscard
  repeat' first | with_reducible assumption | intro _ | (extract_lets +onlyGivenNames z; refine (fun (hz : Keeps bb z) => ?_) ?_; clear_value z; revert z; intro _ _; rotate_left; unfold z; clear z; rotate_left) | (extract_lets +onlyGivenNames z; refine (fun (hz : Keeps bb z.1) => ?_) ?_; clear_value z; revert z; intro _ _; rotate_left; unfold z; clear z; rotate_left) | (extract_lets +onlyGivenNames z; refine (fun (hz : Keeps bb z) => ?_) ?_; revert z; intro _ _; rotate_left; unfold z; clear z; rotate_left) | (extract_lets +onlyGivenNames z; revert z; intro _) | (simp only [Keeps.mk_iff]; with_reducible apply Keeps.upd) | with_reducible apply countWait_keeps | with_reducible apply discardEntry_keeps | with_reducible apply discardReading_keeps | with_reducible apply discardUnwritten_keeps | with_reducible apply dropEmpty_keeps | with_reducible apply Keeps.forEach | with_reducible apply rebindNow_keeps | with_reducible apply setStall_keeps | with_reducible apply settleShaped_keeps | with_reducible apply Keeps.ite | split

end Sys2Proof.Machine
end

