-- ==== Sys2Proof/Laws/Keeps/FnRegs.lean ====
section
/-! SUPPORT. Every operation and meaning of Machine/FnRegs.lean keeps what `Keeps` says. -/
set_option linter.all false
namespace Sys2Proof.Machine

theorem setFn_keeps {bb : Base} (s : State) (h : Nat) (v : Nat) (r : FnReg) (x : Nat) (h_s : Keeps bb s)  : Keeps bb (setFn s h v r x) := by
  unfold setFn
  repeat' first | with_reducible assumption | intro _ | (extract_lets +onlyGivenNames z; refine (fun (hz : Keeps bb z) => ?_) ?_; clear_value z; revert z; intro _ _; rotate_left; unfold z; clear z; rotate_left) | (extract_lets +onlyGivenNames z; refine (fun (hz : Keeps bb z.1) => ?_) ?_; clear_value z; revert z; intro _ _; rotate_left; unfold z; clear z; rotate_left) | (extract_lets +onlyGivenNames z; refine (fun (hz : Keeps bb z) => ?_) ?_; revert z; intro _ _; rotate_left; unfold z; clear z; rotate_left) | (extract_lets +onlyGivenNames z; revert z; intro _) | (simp only [Keeps.mk_iff]; with_reducible apply Keeps.upd) | with_reducible apply Keeps.ite | split

theorem fnWrite_keeps {bb : Base} (s : State) (h : Nat) (v : Nat) (r : FnReg) (x : Nat) (h_s : Keeps bb s)  : Keeps bb (fnWrite s h v r x) := by
  unfold fnWrite
  repeat' first | with_reducible assumption | intro _ | (extract_lets +onlyGivenNames z; refine (fun (hz : Keeps bb z) => ?_) ?_; clear_value z; revert z; intro _ _; rotate_left; unfold z; clear z; rotate_left) | (extract_lets +onlyGivenNames z; refine (fun (hz : Keeps bb z.1) => ?_) ?_; clear_value z; revert z; intro _ _; rotate_left; unfold z; clear z; rotate_left) | (extract_lets +onlyGivenNames z; refine (fun (hz : Keeps bb z) => ?_) ?_; revert z; intro _ _; rotate_left; unfold z; clear z; rotate_left) | (extract_lets +onlyGivenNames z; revert z; intro _) | with_reducible apply setFn_keeps | with_reducible apply Keeps.ite | split

theorem aerError_keeps {bb : Base} (s : State) (h : Nat) (v : Nat) (bit : Nat) (h_s : Keeps bb s)  : Keeps bb (aerError s h v bit) := by
  unfold aerError
  repeat' first | with_reducible assumption | intro _ | (extract_lets +onlyGivenNames z; refine (fun (hz : Keeps bb z) => ?_) ?_; clear_value z; revert z; intro _ _; rotate_left; unfold z; clear z; rotate_left) | (extract_lets +onlyGivenNames z; refine (fun (hz : Keeps bb z.1) => ?_) ?_; clear_value z; revert z; intro _ _; rotate_left; unfold z; clear z; rotate_left) | (extract_lets +onlyGivenNames z; refine (fun (hz : Keeps bb z) => ?_) ?_; revert z; intro _ _; rotate_left; unfold z; clear z; rotate_left) | (extract_lets +onlyGivenNames z; revert z; intro _) | with_reducible apply State.emit_keeps | with_reducible apply setFn_keeps | with_reducible apply Keeps.ite | split

theorem surpriseDown_keeps {bb : Base} (s : State) (h : Nat) (v : Nat) (h_s : Keeps bb s)  : Keeps bb (surpriseDown s h v) := by
  unfold surpriseDown
  repeat' first | with_reducible assumption | intro _ | (extract_lets +onlyGivenNames z; refine (fun (hz : Keeps bb z) => ?_) ?_; clear_value z; revert z; intro _ _; rotate_left; unfold z; clear z; rotate_left) | (extract_lets +onlyGivenNames z; refine (fun (hz : Keeps bb z.1) => ?_) ?_; clear_value z; revert z; intro _ _; rotate_left; unfold z; clear z; rotate_left) | (extract_lets +onlyGivenNames z; refine (fun (hz : Keeps bb z) => ?_) ?_; revert z; intro _ _; rotate_left; unfold z; clear z; rotate_left) | (extract_lets +onlyGivenNames z; revert z; intro _) | with_reducible apply State.emit_keeps | with_reducible apply aerError_keeps | with_reducible apply setFn_keeps | with_reducible apply Keeps.ite | split

theorem resetFns_keeps {bb : Base} (s : State) (h : Nat) (h_s : Keeps bb s)  : Keeps bb (resetFns s h) := by
  unfold resetFns
  repeat' first | with_reducible assumption | intro _ | (extract_lets +onlyGivenNames z; refine (fun (hz : Keeps bb z) => ?_) ?_; clear_value z; revert z; intro _ _; rotate_left; unfold z; clear z; rotate_left) | (extract_lets +onlyGivenNames z; refine (fun (hz : Keeps bb z.1) => ?_) ?_; clear_value z; revert z; intro _ _; rotate_left; unfold z; clear z; rotate_left) | (extract_lets +onlyGivenNames z; refine (fun (hz : Keeps bb z) => ?_) ?_; revert z; intro _ _; rotate_left; unfold z; clear z; rotate_left) | (extract_lets +onlyGivenNames z; revert z; intro _) | (simp only [Keeps.mk_iff]; with_reducible apply Keeps.upd)

theorem recordEvent_keeps {bb : Base} (s : State) (kind : Nat) (port : Nat) (detail : Nat) (h_s : Keeps bb s)  : Keeps bb (recordEvent s kind port detail) := by
  unfold recordEvent
  repeat' first | with_reducible assumption | intro _ | (extract_lets +onlyGivenNames z; refine (fun (hz : Keeps bb z) => ?_) ?_; clear_value z; revert z; intro _ _; rotate_left; unfold z; clear z; rotate_left) | (extract_lets +onlyGivenNames z; refine (fun (hz : Keeps bb z.1) => ?_) ?_; clear_value z; revert z; intro _ _; rotate_left; unfold z; clear z; rotate_left) | (extract_lets +onlyGivenNames z; refine (fun (hz : Keeps bb z) => ?_) ?_; revert z; intro _ _; rotate_left; unfold z; clear z; rotate_left) | (extract_lets +onlyGivenNames z; revert z; intro _) | (simp only [Keeps.mk_iff]; with_reducible apply Keeps.upd)

end Sys2Proof.Machine
end

