-- ==== Sys2Proof/Laws/Keeps/Links.lean ====
section
/-! SUPPORT. Every operation and meaning of Machine/Links.lean keeps what `Keeps` says. -/
set_option linter.all false
set_option Elab.async false
namespace Sys2Proof.Machine

theorem countPrbs_keeps {bb : Base} (s : State) (lane : Nat) (bits_ : Nat) (errors : Nat) (h_s : Keeps bb s) (hqr : ¬ bb.q.regs := by assumption) : Keeps bb (countPrbs s lane bits_ errors) := by
  unfold countPrbs
  repeat' first | with_reducible assumption | intro _ | (extract_lets +onlyGivenNames z; refine (fun (hz : Keeps bb z) => ?_) ?_; clear_value z; revert z; intro _ _; rotate_left; unfold z; clear z; rotate_left) | (extract_lets +onlyGivenNames z; refine (fun (hz : Keeps bb z.1) => ?_) ?_; clear_value z; revert z; intro _ _; rotate_left; unfold z; clear z; rotate_left) | (extract_lets +onlyGivenNames z; refine (fun (hz : Keeps bb z) => ?_) ?_; revert z; intro _ _; rotate_left; unfold z; clear z; rotate_left) | (extract_lets +onlyGivenNames z; revert z; intro _) | with_reducible apply State.count_keeps | with_reducible apply State.setReg_keeps | split

theorem settlePrbs_keeps {bb : Base} (s : State) (lane : Nat) (h_s : Keeps bb s) (hqr : ¬ bb.q.regs := by assumption) : Keeps bb (settlePrbs s lane) := by
  unfold settlePrbs
  repeat' first | with_reducible assumption | intro _ | (extract_lets +onlyGivenNames z; refine (fun (hz : Keeps bb z) => ?_) ?_; clear_value z; revert z; intro _ _; rotate_left; unfold z; clear z; rotate_left) | (extract_lets +onlyGivenNames z; refine (fun (hz : Keeps bb z.1) => ?_) ?_; clear_value z; revert z; intro _ _; rotate_left; unfold z; clear z; rotate_left) | (extract_lets +onlyGivenNames z; refine (fun (hz : Keeps bb z) => ?_) ?_; revert z; intro _ _; rotate_left; unfold z; clear z; rotate_left) | (extract_lets +onlyGivenNames z; revert z; intro _) | (simp only [Keeps.mk_iff]; with_reducible apply Keeps.upd) | with_reducible apply Keeps.withState | with_reducible apply State.useFree_keeps | with_reducible apply Keeps.withSome | with_reducible apply countPrbs_keeps | with_reducible apply Keeps.ite | split

theorem unlockPrbs_keeps {bb : Base} (s : State) (lane : Nat) (h_s : Keeps bb s) (hqr : ¬ bb.q.regs := by assumption) : Keeps bb (unlockPrbs s lane) := by
  unfold unlockPrbs
  repeat' first | with_reducible assumption | intro _ | (extract_lets +onlyGivenNames z; refine (fun (hz : Keeps bb z) => ?_) ?_; clear_value z; revert z; intro _ _; rotate_left; unfold z; clear z; rotate_left) | (extract_lets +onlyGivenNames z; refine (fun (hz : Keeps bb z.1) => ?_) ?_; clear_value z; revert z; intro _ _; rotate_left; unfold z; clear z; rotate_left) | (extract_lets +onlyGivenNames z; refine (fun (hz : Keeps bb z) => ?_) ?_; revert z; intro _ _; rotate_left; unfold z; clear z; rotate_left) | (extract_lets +onlyGivenNames z; revert z; intro _) | (simp only [Keeps.mk_iff]; with_reducible apply Keeps.upd) | with_reducible apply State.putRegBit_keeps | with_reducible apply settlePrbs_keeps

theorem showGenerator_keeps {bb : Base} (s : State) (lane : Nat) (old : Nat) (h_s : Keeps bb s)  : Keeps bb (showGenerator s lane old) := by
  unfold showGenerator
  repeat' first | with_reducible assumption | intro _ | (extract_lets +onlyGivenNames z; refine (fun (hz : Keeps bb z) => ?_) ?_; clear_value z; revert z; intro _ _; rotate_left; unfold z; clear z; rotate_left) | (extract_lets +onlyGivenNames z; refine (fun (hz : Keeps bb z.1) => ?_) ?_; clear_value z; revert z; intro _ _; rotate_left; unfold z; clear z; rotate_left) | (extract_lets +onlyGivenNames z; refine (fun (hz : Keeps bb z) => ?_) ?_; revert z; intro _ _; rotate_left; unfold z; clear z; rotate_left) | (extract_lets +onlyGivenNames z; revert z; intro _) | with_reducible apply State.emit_keeps | with_reducible apply Keeps.ite | split

theorem stopPrbs_keeps {bb : Base} (s : State) (lane : Nat) (h_s : Keeps bb s) (hqr : ¬ bb.q.regs := by assumption) : Keeps bb (stopPrbs s lane) := by
  unfold stopPrbs
  repeat' first | with_reducible assumption | intro _ | (extract_lets +onlyGivenNames z; refine (fun (hz : Keeps bb z) => ?_) ?_; clear_value z; revert z; intro _ _; rotate_left; unfold z; clear z; rotate_left) | (extract_lets +onlyGivenNames z; refine (fun (hz : Keeps bb z.1) => ?_) ?_; clear_value z; revert z; intro _ _; rotate_left; unfold z; clear z; rotate_left) | (extract_lets +onlyGivenNames z; refine (fun (hz : Keeps bb z) => ?_) ?_; revert z; intro _ _; rotate_left; unfold z; clear z; rotate_left) | (extract_lets +onlyGivenNames z; revert z; intro _) | with_reducible apply State.putRegBit_keeps | with_reducible apply showGenerator_keeps | with_reducible apply unlockPrbs_keeps

theorem downstreamDown_keeps {bb : Base} (s : State) (p : Nat) (h_s : Keeps bb s)  : Keeps bb (downstreamDown s p) := by
  unfold downstreamDown
  repeat' first | with_reducible assumption | intro _ | (extract_lets +onlyGivenNames z; refine (fun (hz : Keeps bb z) => ?_) ?_; clear_value z; revert z; intro _ _; rotate_left; unfold z; clear z; rotate_left) | (extract_lets +onlyGivenNames z; refine (fun (hz : Keeps bb z.1) => ?_) ?_; clear_value z; revert z; intro _ _; rotate_left; unfold z; clear z; rotate_left) | (extract_lets +onlyGivenNames z; refine (fun (hz : Keeps bb z) => ?_) ?_; revert z; intro _ _; rotate_left; unfold z; clear z; rotate_left) | (extract_lets +onlyGivenNames z; revert z; intro _) | (simp only [Keeps.mk_iff]; with_reducible apply Keeps.upd) | with_reducible apply Keeps.withState | with_reducible apply Keeps.withSome | with_reducible apply Keeps.forEach | with_reducible apply surpriseDown_keeps | with_reducible apply Keeps.ite | split

theorem stopLane_keeps {bb : Base} (s : State) (lane : Nat) (h_s : Keeps bb s)  : Keeps bb (stopLane s lane) := by
  unfold stopLane
  repeat' first | with_reducible assumption | intro _ | (extract_lets +onlyGivenNames z; refine (fun (hz : Keeps bb z) => ?_) ?_; clear_value z; revert z; intro _ _; rotate_left; unfold z; clear z; rotate_left) | (extract_lets +onlyGivenNames z; refine (fun (hz : Keeps bb z.1) => ?_) ?_; clear_value z; revert z; intro _ _; rotate_left; unfold z; clear z; rotate_left) | (extract_lets +onlyGivenNames z; refine (fun (hz : Keeps bb z) => ?_) ?_; revert z; intro _ _; rotate_left; unfold z; clear z; rotate_left) | (extract_lets +onlyGivenNames z; revert z; intro _) | (simp only [Keeps.mk_iff]; with_reducible apply Keeps.upd)

theorem holdSwaps_keeps {bb : Base} (s : State) (p : Nat) (h_s : Keeps bb s)  : Keeps bb (holdSwaps s p) := by
  unfold holdSwaps
  repeat' first | with_reducible assumption | intro _ | (extract_lets +onlyGivenNames z; refine (fun (hz : Keeps bb z) => ?_) ?_; clear_value z; revert z; intro _ _; rotate_left; unfold z; clear z; rotate_left) | (extract_lets +onlyGivenNames z; refine (fun (hz : Keeps bb z.1) => ?_) ?_; clear_value z; revert z; intro _ _; rotate_left; unfold z; clear z; rotate_left) | (extract_lets +onlyGivenNames z; refine (fun (hz : Keeps bb z) => ?_) ?_; revert z; intro _ _; rotate_left; unfold z; clear z; rotate_left) | (extract_lets +onlyGivenNames z; revert z; intro _) | (simp only [Keeps.mk_iff]; with_reducible apply Keeps.upd) | with_reducible apply State.disarm_keeps | with_reducible apply Keeps.ite | split

theorem stopLanes_keeps {bb : Base} (s : State) (p : Nat) (h_s : Keeps bb s)  : Keeps bb (stopLanes s p) := by
  unfold stopLanes
  repeat' first | with_reducible assumption | intro _ | with_reducible apply Keeps.forEach | with_reducible apply holdSwaps_keeps | with_reducible apply stopLane_keeps

theorem edgeLinkDown_keeps {bb : Base} (s : State) (p : Nat) (h_s : Keeps bb s) (hqr : ¬ bb.q.regs := by assumption) : Keeps bb (edgeLinkDown s p) := by
  unfold edgeLinkDown
  repeat' first | with_reducible assumption | intro _ | (extract_lets +onlyGivenNames z; refine (fun (hz : Keeps bb z) => ?_) ?_; clear_value z; revert z; intro _ _; rotate_left; unfold z; clear z; rotate_left) | (extract_lets +onlyGivenNames z; refine (fun (hz : Keeps bb z.1) => ?_) ?_; clear_value z; revert z; intro _ _; rotate_left; unfold z; clear z; rotate_left) | (extract_lets +onlyGivenNames z; refine (fun (hz : Keeps bb z) => ?_) ?_; revert z; intro _ _; rotate_left; unfold z; clear z; rotate_left) | (extract_lets +onlyGivenNames z; revert z; intro _) | (simp only [Keeps.mk_iff]; with_reducible apply Keeps.upd) | with_reducible apply State.arm_keeps | with_reducible apply State.putRegBit_keeps | with_reducible apply State.setReg_keeps | with_reducible apply State.setRegBits_keeps | with_reducible apply basinDiscard_keeps | with_reducible apply downstreamDown_keeps | with_reducible apply recordEvent_keeps | with_reducible apply stopLanes_keeps | with_reducible apply Keeps.ite | split

theorem setPassState_keeps {bb : Base} (s : State) (p : Nat) (st : Nat) (h_s : Keeps bb s) (hqr : ¬ bb.q.regs := by assumption) : Keeps bb (setPassState s p st) := by
  unfold setPassState
  repeat' first | with_reducible assumption | intro _ | with_reducible apply State.setRegBits_keeps

theorem setPassReason_keeps {bb : Base} (s : State) (p : Nat) (r : Nat) (h_s : Keeps bb s) (hqr : ¬ bb.q.regs := by assumption) : Keeps bb (setPassReason s p r) := by
  unfold setPassReason
  repeat' first | with_reducible assumption | intro _ | with_reducible apply State.setRegBits_keeps

theorem passGoDown_keeps {bb : Base} (s : State) (p : Nat) (reason : Nat) (next : Nat) (h_s : Keeps bb s) (hqr : ¬ bb.q.regs := by assumption) : Keeps bb (passGoDown s p reason next) := by
  unfold passGoDown
  repeat' first | with_reducible assumption | intro _ | (extract_lets +onlyGivenNames z; refine (fun (hz : Keeps bb z) => ?_) ?_; clear_value z; revert z; intro _ _; rotate_left; unfold z; clear z; rotate_left) | (extract_lets +onlyGivenNames z; refine (fun (hz : Keeps bb z.1) => ?_) ?_; clear_value z; revert z; intro _ _; rotate_left; unfold z; clear z; rotate_left) | (extract_lets +onlyGivenNames z; refine (fun (hz : Keeps bb z) => ?_) ?_; revert z; intro _ _; rotate_left; unfold z; clear z; rotate_left) | (extract_lets +onlyGivenNames z; revert z; intro _) | (simp only [Keeps.mk_iff]; with_reducible apply Keeps.upd) | with_reducible apply State.arm_keeps | with_reducible apply State.disarm_keeps | with_reducible apply State.setPass_keeps | with_reducible apply setPassReason_keeps | with_reducible apply setPassState_keeps | with_reducible apply Keeps.ite | split

theorem allLinksDown_keeps {bb : Base} (s : State) (h_s : Keeps bb s) (hqr : ¬ bb.q.regs := by assumption) : Keeps bb (allLinksDown s) := by
  unfold allLinksDown
  repeat' first | with_reducible assumption | intro _ | with_reducible apply edgeLinkDown_keeps | with_reducible apply Keeps.forEach | with_reducible apply passGoDown_keeps | with_reducible apply Keeps.ite | split

theorem fatalStop_keeps {bb : Base} (s : State) (h_s : Keeps bb s) (hqr : ¬ bb.q.regs := by assumption) : Keeps bb (fatalStop s) := by
  unfold fatalStop
  repeat' first | with_reducible assumption | intro _ | (extract_lets +onlyGivenNames z; refine (fun (hz : Keeps bb z) => ?_) ?_; clear_value z; revert z; intro _ _; rotate_left; unfold z; clear z; rotate_left) | (extract_lets +onlyGivenNames z; refine (fun (hz : Keeps bb z.1) => ?_) ?_; clear_value z; revert z; intro _ _; rotate_left; unfold z; clear z; rotate_left) | (extract_lets +onlyGivenNames z; refine (fun (hz : Keeps bb z) => ?_) ?_; revert z; intro _ _; rotate_left; unfold z; clear z; rotate_left) | (extract_lets +onlyGivenNames z; revert z; intro _) | (simp only [Keeps.mk_iff]; with_reducible apply Keeps.upd) | with_reducible apply State.disarm_keeps | with_reducible apply allLinksDown_keeps

theorem beginChipReset_keeps {bb : Base} (s : State) (cause : Nat) (h_s : Keeps bb s) (hqr : ¬ bb.q.regs := by assumption) (hqp : ¬ bb.q.phase := by assumption) : Keeps bb (beginChipReset s cause) := by
  unfold beginChipReset
  repeat' first | with_reducible assumption | intro _ | (extract_lets +onlyGivenNames z; refine (fun (hz : Keeps bb z) => ?_) ?_; clear_value z; revert z; intro _ _; rotate_left; unfold z; clear z; rotate_left) | (extract_lets +onlyGivenNames z; refine (fun (hz : Keeps bb z.1) => ?_) ?_; clear_value z; revert z; intro _ _; rotate_left; unfold z; clear z; rotate_left) | (extract_lets +onlyGivenNames z; refine (fun (hz : Keeps bb z) => ?_) ?_; revert z; intro _ _; rotate_left; unfold z; clear z; rotate_left) | (extract_lets +onlyGivenNames z; revert z; intro _) | (simp only [Keeps.mk_iff]; with_reducible apply Keeps.upd) | (simp only [Keeps.mk_iff]; with_reducible apply Keeps.updPhase) | with_reducible apply State.setPass_keeps | with_reducible apply State.setReg_keeps | with_reducible apply Keeps.forEach | with_reducible apply gateOff_keeps | with_reducible apply slotOff_keeps | with_reducible apply Keeps.ite | split

theorem endTestHold_keeps {bb : Base} (s : State) (p : Nat) (h_s : Keeps bb s) (hqr : ¬ bb.q.regs := by assumption) : Keeps bb (endTestHold s p) := by
  unfold endTestHold
  repeat' first | with_reducible assumption | intro _ | (extract_lets +onlyGivenNames z; refine (fun (hz : Keeps bb z) => ?_) ?_; clear_value z; revert z; intro _ _; rotate_left; unfold z; clear z; rotate_left) | (extract_lets +onlyGivenNames z; refine (fun (hz : Keeps bb z.1) => ?_) ?_; clear_value z; revert z; intro _ _; rotate_left; unfold z; clear z; rotate_left) | (extract_lets +onlyGivenNames z; refine (fun (hz : Keeps bb z) => ?_) ?_; revert z; intro _ _; rotate_left; unfold z; clear z; rotate_left) | (extract_lets +onlyGivenNames z; revert z; intro _) | (simp only [Keeps.mk_iff]; with_reducible apply Keeps.upd) | with_reducible apply State.arm_keeps | with_reducible apply State.putRegBit_keeps | with_reducible apply State.setReg_keeps | with_reducible apply Keeps.forEach | with_reducible apply setPassState_keeps | with_reducible apply stopPrbs_keeps | with_reducible apply Keeps.ite | split

theorem enterState_keeps {bb : Base} (s : State) (st : Nat) (h_s : Keeps bb s) (hqr : ¬ bb.q.regs := by assumption) : Keeps bb (enterState s st) := by
  unfold enterState
  repeat' first | with_reducible assumption | intro _ | (extract_lets +onlyGivenNames z; refine (fun (hz : Keeps bb z) => ?_) ?_; clear_value z; revert z; intro _ _; rotate_left; unfold z; clear z; rotate_left) | (extract_lets +onlyGivenNames z; refine (fun (hz : Keeps bb z.1) => ?_) ?_; clear_value z; revert z; intro _ _; rotate_left; unfold z; clear z; rotate_left) | (extract_lets +onlyGivenNames z; refine (fun (hz : Keeps bb z) => ?_) ?_; revert z; intro _ _; rotate_left; unfold z; clear z; rotate_left) | (extract_lets +onlyGivenNames z; revert z; intro _) | with_reducible apply State.count1_keeps | with_reducible apply State.setReg_keeps | with_reducible apply endTestHold_keeps | with_reducible apply Keeps.forEach | with_reducible apply Keeps.ite | split

end Sys2Proof.Machine
end

