-- ==== Sys2Proof/Laws/Keeps/Notify.lean ====
section
/-! SUPPORT. Every operation and meaning of Machine/Notify.lean keeps what `Keeps` says. -/
set_option linter.all false
set_option Elab.async false
namespace Sys2Proof.Machine

theorem setSource_keeps {bb : Base} (s : State) (forced : Bool) (g : Nat) (b : Nat) (e : Nat) (h_s : Keeps bb s) (hqr : ¬ bb.q.regs := by assumption) : Keeps bb (setSource s forced g b e) := by
  unfold setSource
  repeat' first | with_reducible assumption | intro _ | with_reducible apply State.putRegBit_keeps | with_reducible apply Keeps.ite | split

theorem clearGroupBits_keeps {bb : Base} (s : State) (g : Nat) (mask : Nat) (h_s : Keeps bb s) (hqr : ¬ bb.q.regs := by assumption) : Keeps bb (clearGroupBits s g mask) := by
  unfold clearGroupBits
  repeat' first | with_reducible assumption | intro _ | (extract_lets +onlyGivenNames z; refine (fun (hz : Keeps bb z) => ?_) ?_; clear_value z; revert z; intro _ _; rotate_left; unfold z; clear z; rotate_left) | (extract_lets +onlyGivenNames z; refine (fun (hz : Keeps bb z.1) => ?_) ?_; clear_value z; revert z; intro _ _; rotate_left; unfold z; clear z; rotate_left) | (extract_lets +onlyGivenNames z; refine (fun (hz : Keeps bb z) => ?_) ?_; revert z; intro _ _; rotate_left; unfold z; clear z; rotate_left) | (extract_lets +onlyGivenNames z; revert z; intro _) | with_reducible apply State.setReg_keeps | with_reducible apply Keeps.forEach | with_reducible apply Keeps.ite | split

theorem forgetLatch_keeps {bb : Base} (s : State) (n : Nat) (h_s : Keeps bb s)  : Keeps bb (forgetLatch s n) := by
  unfold forgetLatch
  repeat' first | with_reducible assumption | intro _ | (extract_lets +onlyGivenNames z; refine (fun (hz : Keeps bb z) => ?_) ?_; clear_value z; revert z; intro _ _; rotate_left; unfold z; clear z; rotate_left) | (extract_lets +onlyGivenNames z; refine (fun (hz : Keeps bb z.1) => ?_) ?_; clear_value z; revert z; intro _ _; rotate_left; unfold z; clear z; rotate_left) | (extract_lets +onlyGivenNames z; refine (fun (hz : Keeps bb z) => ?_) ?_; revert z; intro _ _; rotate_left; unfold z; clear z; rotate_left) | (extract_lets +onlyGivenNames z; revert z; intro _) | (simp only [Keeps.mk_iff]; with_reducible apply Keeps.upd) | with_reducible apply State.disarm_keeps

theorem shiftLog_keeps {base : Base} (s : State) (a k : Nat) (h_s : Keeps base s) (hqr : ¬ base.q.regs := by assumption) : Keeps base (shiftLog s a k) := by
  induction k generalizing s with
  | zero => exact h_s
  | succ k ih => exact ih _ (State.setReg_keeps _ _ _ _ h_s)

theorem pushLog_keeps {bb : Base} (s : State) (a : Nat) (n : Nat) (w : Nat) (h_s : Keeps bb s) (hqr : ¬ bb.q.regs := by assumption) : Keeps bb (pushLog s a n w) := by
  unfold pushLog
  repeat' first | with_reducible assumption | intro _ | with_reducible apply State.setReg_keeps | with_reducible apply shiftLog_keeps

theorem blockReset_keeps {bb : Base} (s : State) (g : Nat) (e : Nat) (forced : Bool) (h_s : Keeps bb s) (hqr : ¬ bb.q.regs := by assumption) : Keeps bb (blockReset s g e forced) := by
  unfold blockReset
  repeat' first | with_reducible assumption | intro _ | (extract_lets +onlyGivenNames z; refine (fun (hz : Keeps bb z) => ?_) ?_; clear_value z; revert z; intro _ _; rotate_left; unfold z; clear z; rotate_left) | (extract_lets +onlyGivenNames z; refine (fun (hz : Keeps bb z.1) => ?_) ?_; clear_value z; revert z; intro _ _; rotate_left; unfold z; clear z; rotate_left) | (extract_lets +onlyGivenNames z; refine (fun (hz : Keeps bb z) => ?_) ?_; revert z; intro _ _; rotate_left; unfold z; clear z; rotate_left) | (extract_lets +onlyGivenNames z; revert z; intro _) | (simp only [Keeps.mk_iff]; with_reducible apply Keeps.upd) | with_reducible apply Keeps.forEach | with_reducible apply passGoDown_keeps | with_reducible apply Keeps.foldl | with_reducible apply Keeps.ite | split

theorem faultOut_keeps {bb : Base} (s : State) (sev : Nat) (h_s : Keeps bb s) (hqr : ¬ bb.q.regs := by assumption) : Keeps bb (faultOut s sev) := by
  unfold faultOut
  repeat' first | with_reducible assumption | intro _ | (extract_lets +onlyGivenNames z; refine (fun (hz : Keeps bb z) => ?_) ?_; clear_value z; revert z; intro _ _; rotate_left; unfold z; clear z; rotate_left) | (extract_lets +onlyGivenNames z; refine (fun (hz : Keeps bb z.1) => ?_) ?_; clear_value z; revert z; intro _ _; rotate_left; unfold z; clear z; rotate_left) | (extract_lets +onlyGivenNames z; refine (fun (hz : Keeps bb z) => ?_) ?_; revert z; intro _ _; rotate_left; unfold z; clear z; rotate_left) | (extract_lets +onlyGivenNames z; revert z; intro _) | (simp only [Keeps.mk_iff]; with_reducible apply Keeps.upd) | with_reducible apply State.arm_keeps | with_reducible apply State.putRegBit_keeps | with_reducible apply Keeps.ite | split

theorem faultInterrupt_keeps {bb : Base} (s : State) (g : Nat) (h_s : Keeps bb s)  : Keeps bb (faultInterrupt s g).1 := by
  unfold faultInterrupt
  repeat' first | with_reducible assumption | intro _ | (extract_lets +onlyGivenNames z; refine (fun (hz : Keeps bb z) => ?_) ?_; clear_value z; revert z; intro _ _; rotate_left; unfold z; clear z; rotate_left) | (extract_lets +onlyGivenNames z; refine (fun (hz : Keeps bb z.1) => ?_) ?_; clear_value z; revert z; intro _ _; rotate_left; unfold z; clear z; rotate_left) | (extract_lets +onlyGivenNames z; refine (fun (hz : Keeps bb z) => ?_) ?_; revert z; intro _ _; rotate_left; unfold z; clear z; rotate_left) | (extract_lets +onlyGivenNames z; revert z; intro _) | (simp only [Keeps.mk_iff]; with_reducible apply Keeps.upd) | with_reducible apply State.arm_keeps | with_reducible apply Keeps.ite | split

theorem setSourceSev_keeps {bb : Base} (s : State) (n : Nat) (sev : Nat) (h_s : Keeps bb s)  : Keeps bb (setSourceSev s n sev) := by
  unfold setSourceSev
  repeat' first | with_reducible assumption | intro _ | (extract_lets +onlyGivenNames z; refine (fun (hz : Keeps bb z) => ?_) ?_; clear_value z; revert z; intro _ _; rotate_left; unfold z; clear z; rotate_left) | (extract_lets +onlyGivenNames z; refine (fun (hz : Keeps bb z.1) => ?_) ?_; clear_value z; revert z; intro _ _; rotate_left; unfold z; clear z; rotate_left) | (extract_lets +onlyGivenNames z; refine (fun (hz : Keeps bb z) => ?_) ?_; revert z; intro _ _; rotate_left; unfold z; clear z; rotate_left) | (extract_lets +onlyGivenNames z; revert z; intro _) | (simp only [Keeps.mk_iff]; with_reducible apply Keeps.upd)

theorem addTrap_keeps {bb : Base} (s : State) (word : Nat) (h_s : Keeps bb s)  : Keeps bb (addTrap s word) := by
  unfold addTrap
  repeat' first | with_reducible assumption | intro _ | (extract_lets +onlyGivenNames z; refine (fun (hz : Keeps bb z) => ?_) ?_; clear_value z; revert z; intro _ _; rotate_left; unfold z; clear z; rotate_left) | (extract_lets +onlyGivenNames z; refine (fun (hz : Keeps bb z.1) => ?_) ?_; clear_value z; revert z; intro _ _; rotate_left; unfold z; clear z; rotate_left) | (extract_lets +onlyGivenNames z; refine (fun (hz : Keeps bb z) => ?_) ?_; revert z; intro _ _; rotate_left; unfold z; clear z; rotate_left) | (extract_lets +onlyGivenNames z; revert z; intro _) | (simp only [Keeps.mk_iff]; with_reducible apply Keeps.upd)

theorem resetAfterTrap_keeps {bb : Base} (s : State) (h_s : Keeps bb s)  : Keeps bb (resetAfterTrap s) := by
  unfold resetAfterTrap
  repeat' first | with_reducible assumption | intro _ | (extract_lets +onlyGivenNames z; refine (fun (hz : Keeps bb z) => ?_) ?_; clear_value z; revert z; intro _ _; rotate_left; unfold z; clear z; rotate_left) | (extract_lets +onlyGivenNames z; refine (fun (hz : Keeps bb z.1) => ?_) ?_; clear_value z; revert z; intro _ _; rotate_left; unfold z; clear z; rotate_left) | (extract_lets +onlyGivenNames z; refine (fun (hz : Keeps bb z) => ?_) ?_; revert z; intro _ _; rotate_left; unfold z; clear z; rotate_left) | (extract_lets +onlyGivenNames z; revert z; intro _) | (simp only [Keeps.mk_iff]; with_reducible apply Keeps.upd)

theorem setPeriod_keeps {bb : Base} (s : State) (n : Nat) (ms : Nat) (h_s : Keeps bb s)  : Keeps bb (setPeriod s n ms) := by
  unfold setPeriod
  repeat' first | with_reducible assumption | intro _ | (extract_lets +onlyGivenNames z; refine (fun (hz : Keeps bb z) => ?_) ?_; clear_value z; revert z; intro _ _; rotate_left; unfold z; clear z; rotate_left) | (extract_lets +onlyGivenNames z; refine (fun (hz : Keeps bb z.1) => ?_) ?_; clear_value z; revert z; intro _ _; rotate_left; unfold z; clear z; rotate_left) | (extract_lets +onlyGivenNames z; refine (fun (hz : Keeps bb z) => ?_) ?_; revert z; intro _ _; rotate_left; unfold z; clear z; rotate_left) | (extract_lets +onlyGivenNames z; revert z; intro _) | (simp only [Keeps.mk_iff]; with_reducible apply Keeps.upd)

theorem startQuiet_keeps {bb : Base} (s : State) (n : Nat) (h_s : Keeps bb s)  : Keeps bb (startQuiet s n) := by
  unfold startQuiet
  repeat' first | with_reducible assumption | intro _ | (simp only [Keeps.mk_iff]; with_reducible apply Keeps.upd) | with_reducible apply State.arm_keeps

theorem recordSource_keeps {bb : Base} (s : State) (g : Nat) (n : Nat) (sev : Nat) (cfg : Nat) (word : Nat) (h_s : Keeps bb s) (hqr : ¬ bb.q.regs := by assumption) : Keeps bb (recordSource s g n sev cfg word) := by
  unfold recordSource
  repeat' first | with_reducible assumption | intro _ | (extract_lets +onlyGivenNames z; refine (fun (hz : Keeps bb z) => ?_) ?_; clear_value z; revert z; intro _ _; rotate_left; unfold z; clear z; rotate_left) | (extract_lets +onlyGivenNames z; refine (fun (hz : Keeps bb z.1) => ?_) ?_; clear_value z; revert z; intro _ _; rotate_left; unfold z; clear z; rotate_left) | (extract_lets +onlyGivenNames z; refine (fun (hz : Keeps bb z) => ?_) ?_; revert z; intro _ _; rotate_left; unfold z; clear z; rotate_left) | (extract_lets +onlyGivenNames z; revert z; intro _) | with_reducible apply pushLog_keeps | with_reducible apply setPeriod_keeps | with_reducible apply setSourceSev_keeps | with_reducible apply startQuiet_keeps | with_reducible apply Keeps.ite | split

theorem reactSource_keeps {bb : Base} (s : State) (g : Nat) (b : Nat) (e : Nat) (sev : Nat) (word : Nat) (forced : Bool) (trap : Bool) (block : Bool) (chip : Bool) (out : Bool) (h_s : Keeps bb s) (hqr : ¬ bb.q.regs := by assumption) (hqp : ¬ bb.q.phase := by assumption) : Keeps bb (reactSource s g b e sev word forced trap block chip out) := by
  unfold reactSource
  repeat' first | with_reducible assumption | intro _ | (extract_lets +onlyGivenNames z; refine (fun (hz : Keeps bb z) => ?_) ?_; clear_value z; revert z; intro _ _; rotate_left; unfold z; clear z; rotate_left) | (extract_lets +onlyGivenNames z; refine (fun (hz : Keeps bb z.1) => ?_) ?_; clear_value z; revert z; intro _ _; rotate_left; unfold z; clear z; rotate_left) | (extract_lets +onlyGivenNames z; refine (fun (hz : Keeps bb z) => ?_) ?_; revert z; intro _ _; rotate_left; unfold z; clear z; rotate_left) | (extract_lets +onlyGivenNames z; revert z; intro _) | with_reducible apply State.setReg_keeps | with_reducible apply addTrap_keeps | with_reducible apply beginChipReset_keeps | with_reducible apply blockReset_keeps | with_reducible apply fatalStop_keeps | with_reducible apply faultOut_keeps | with_reducible apply resetAfterTrap_keeps | with_reducible apply Keeps.ite | split

theorem latchSource_keeps {bb : Base} (s : State) (forced : Bool) (g : Nat) (b : Nat) (e : Nat) (h_s : Keeps bb s) (hqr : ¬ bb.q.regs := by assumption) (hqp : ¬ bb.q.phase := by assumption) : Keeps bb (latchSource s forced g b e).1 := by
  unfold latchSource
  repeat' first | with_reducible assumption | intro _ | (extract_lets +onlyGivenNames z; refine (fun (hz : Keeps bb z) => ?_) ?_; clear_value z; revert z; intro _ _; rotate_left; unfold z; clear z; rotate_left) | (extract_lets +onlyGivenNames z; refine (fun (hz : Keeps bb z.1) => ?_) ?_; clear_value z; revert z; intro _ _; rotate_left; unfold z; clear z; rotate_left) | (extract_lets +onlyGivenNames z; refine (fun (hz : Keeps bb z) => ?_) ?_; revert z; intro _ _; rotate_left; unfold z; clear z; rotate_left) | (extract_lets +onlyGivenNames z; revert z; intro _) | with_reducible apply faultInterrupt_keeps | with_reducible apply reactSource_keeps | with_reducible apply recordSource_keeps | with_reducible apply Keeps.ite | split

theorem sourceEvent_keeps {bb : Base} (s : State) (forced : Bool) (g : Nat) (b : Nat) (e : Nat) (h_s : Keeps bb s) (hqr : ¬ bb.q.regs := by assumption) (hqp : ¬ bb.q.phase := by assumption) : Keeps bb (sourceEvent s forced g b e).1 := by
  unfold sourceEvent
  repeat' first | with_reducible assumption | intro _ | (extract_lets +onlyGivenNames z; refine (fun (hz : Keeps bb z) => ?_) ?_; clear_value z; revert z; intro _ _; rotate_left; unfold z; clear z; rotate_left) | (extract_lets +onlyGivenNames z; refine (fun (hz : Keeps bb z.1) => ?_) ?_; clear_value z; revert z; intro _ _; rotate_left; unfold z; clear z; rotate_left) | (extract_lets +onlyGivenNames z; refine (fun (hz : Keeps bb z) => ?_) ?_; revert z; intro _ _; rotate_left; unfold z; clear z; rotate_left) | (extract_lets +onlyGivenNames z; revert z; intro _) | (simp only [Keeps.mk_iff]; with_reducible apply Keeps.upd) | with_reducible apply State.count1_keeps | with_reducible apply latchSource_keeps | with_reducible apply setSource_keeps | with_reducible apply startQuiet_keeps | with_reducible apply Keeps.ite | split

theorem evalReplace_keeps {bb : Base} (s : State) (h_s : Keeps bb s) (hqr : ¬ bb.q.regs := by assumption) : Keeps bb (evalReplace s).1 := by
  unfold evalReplace
  repeat' first | with_reducible assumption | intro _ | (extract_lets +onlyGivenNames z; refine (fun (hz : Keeps bb z) => ?_) ?_; clear_value z; revert z; intro _ _; rotate_left; unfold z; clear z; rotate_left) | (extract_lets +onlyGivenNames z; refine (fun (hz : Keeps bb z.1) => ?_) ?_; clear_value z; revert z; intro _ _; rotate_left; unfold z; clear z; rotate_left) | (extract_lets +onlyGivenNames z; refine (fun (hz : Keeps bb z) => ?_) ?_; revert z; intro _ _; rotate_left; unfold z; clear z; rotate_left) | (extract_lets +onlyGivenNames z; revert z; intro _) | (simp only [Keeps.mk_iff]; with_reducible apply Keeps.upd) | with_reducible apply State.setReg_keeps | with_reducible apply enterState_keeps | with_reducible apply firmwareWrote_keeps | with_reducible apply Keeps.ite | split

theorem sendEvent_keeps {bb : Base} (s : State) (a : Nat) (e : Option Nat) (h_s : Keeps bb s) (hqr : ¬ bb.q.regs := by assumption) : Keeps bb (sendEvent s a e).1 := by
  unfold sendEvent
  repeat' first | with_reducible assumption | intro _ | (extract_lets +onlyGivenNames z; refine (fun (hz : Keeps bb z) => ?_) ?_; clear_value z; revert z; intro _ _; rotate_left; unfold z; clear z; rotate_left) | (extract_lets +onlyGivenNames z; refine (fun (hz : Keeps bb z.1) => ?_) ?_; clear_value z; revert z; intro _ _; rotate_left; unfold z; clear z; rotate_left) | (extract_lets +onlyGivenNames z; refine (fun (hz : Keeps bb z) => ?_) ?_; revert z; intro _ _; rotate_left; unfold z; clear z; rotate_left) | (extract_lets +onlyGivenNames z; revert z; intro _) | (simp only [Keeps.mk_iff]; with_reducible apply Keeps.upd) | with_reducible apply State.emit_keeps | with_reducible apply Keeps.ite | split

theorem watermark_keeps {bb : Base} (s : State) (h_s : Keeps bb s)  : Keeps bb (watermark s).1 := by
  unfold watermark
  repeat' first | with_reducible assumption | intro _ | (extract_lets +onlyGivenNames z; refine (fun (hz : Keeps bb z) => ?_) ?_; clear_value z; revert z; intro _ _; rotate_left; unfold z; clear z; rotate_left) | (extract_lets +onlyGivenNames z; refine (fun (hz : Keeps bb z.1) => ?_) ?_; clear_value z; revert z; intro _ _; rotate_left; unfold z; clear z; rotate_left) | (extract_lets +onlyGivenNames z; refine (fun (hz : Keeps bb z) => ?_) ?_; revert z; intro _ _; rotate_left; unfold z; clear z; rotate_left) | (extract_lets +onlyGivenNames z; revert z; intro _) | (simp only [Keeps.mk_iff]; with_reducible apply Keeps.upd) | with_reducible apply Keeps.ite | split

theorem fifoWrite_keeps {bb : Base} (s : State) (type : Nat) (body : List Nat) (h_s : Keeps bb s)  : Keeps bb (fifoWrite s type body) := by
  unfold fifoWrite
  repeat' first | with_reducible assumption | intro _ | (extract_lets +onlyGivenNames z; refine (fun (hz : Keeps bb z) => ?_) ?_; clear_value z; revert z; intro _ _; rotate_left; unfold z; clear z; rotate_left) | (extract_lets +onlyGivenNames z; refine (fun (hz : Keeps bb z.1) => ?_) ?_; clear_value z; revert z; intro _ _; rotate_left; unfold z; clear z; rotate_left) | (extract_lets +onlyGivenNames z; refine (fun (hz : Keeps bb z) => ?_) ?_; revert z; intro _ _; rotate_left; unfold z; clear z; rotate_left) | (extract_lets +onlyGivenNames z; revert z; intro _) | (simp only [Keeps.mk_iff]; with_reducible apply Keeps.upd)

theorem offerRecord_keeps {bb : Base} (s : State) (type : Nat) (body : List Nat) (h_s : Keeps bb s) (hqr : ¬ bb.q.regs := by assumption) : Keeps bb (offerRecord s type body).1 := by
  unfold offerRecord
  repeat' first | with_reducible assumption | intro _ | (extract_lets +onlyGivenNames z; refine (fun (hz : Keeps bb z) => ?_) ?_; clear_value z; revert z; intro _ _; rotate_left; unfold z; clear z; rotate_left) | (extract_lets +onlyGivenNames z; refine (fun (hz : Keeps bb z.1) => ?_) ?_; clear_value z; revert z; intro _ _; rotate_left; unfold z; clear z; rotate_left) | (extract_lets +onlyGivenNames z; refine (fun (hz : Keeps bb z) => ?_) ?_; revert z; intro _ _; rotate_left; unfold z; clear z; rotate_left) | (extract_lets +onlyGivenNames z; revert z; intro _) | (simp only [Keeps.mk_iff]; with_reducible apply Keeps.upd) | with_reducible apply State.count1_keeps | with_reducible apply fifoWrite_keeps | with_reducible apply watermark_keeps | with_reducible apply Keeps.ite | split

theorem workStep_keeps {bb : Base} (s : State) (x1 : Work) (h_s : Keeps bb s) (hqr : ¬ bb.q.regs := by assumption) (hqp : ¬ bb.q.phase := by assumption) : Keeps bb (workStep s x1).1 := by
  unfold workStep
  repeat' first | with_reducible assumption | intro _ | with_reducible apply evalReplace_keeps | with_reducible apply offerRecord_keeps | with_reducible apply sendEvent_keeps | with_reducible apply sourceEvent_keeps | split

theorem work_keeps {base : Base} (n : Nat) (ws : List Work) (s : State) (h_s : Keeps base s) (hqr : ¬ base.q.regs := by assumption) (hqp : ¬ base.q.phase := by assumption) : Keeps base (work n ws s) := by
  induction n generalizing ws s with
  | zero => unfold work; exact h_s
  | succ n ih =>
    cases ws with
    | nil => exact h_s
    | cons w ws => exact ih _ _ (workStep_keeps _ _ h_s)

theorem report_keeps {bb : Base} (s : State) (w : Work) (h_s : Keeps bb s) (hqr : ¬ bb.q.regs := by assumption) (hqp : ¬ bb.q.phase := by assumption) : Keeps bb (report s w) := by
  unfold report
  repeat' first | with_reducible assumption | intro _ | with_reducible apply work_keeps

theorem raise_keeps {bb : Base} (s : State) (g : Nat) (b : Nat) (e : Nat := 0) (h_s : Keeps bb s) (hqr : ¬ bb.q.regs := by assumption) (hqp : ¬ bb.q.phase := by assumption) : Keeps bb (raise s g b e) := by
  unfold raise
  repeat' first | with_reducible assumption | intro _ | with_reducible apply report_keeps

theorem notify_keeps {bb : Base} (s : State) (a : Nat) (e : Option Nat) (h_s : Keeps bb s) (hqr : ¬ bb.q.regs := by assumption) (hqp : ¬ bb.q.phase := by assumption) : Keeps bb (notify s a e) := by
  unfold notify
  repeat' first | with_reducible assumption | intro _ | with_reducible apply report_keeps

theorem clearOwn_keeps {bb : Base} (s : State) (g : Nat) (b : Nat) (h_s : Keeps bb s) (hqr : ¬ bb.q.regs := by assumption) (hqp : ¬ bb.q.phase := by assumption) : Keeps bb (clearOwn s g b) := by
  unfold clearOwn
  repeat' first | with_reducible assumption | intro _ | with_reducible apply clearGroupBits_keeps | with_reducible apply forgetLatch_keeps | with_reducible apply report_keeps

theorem autoRecover_keeps {bb : Base} (s : State) (h_s : Keeps bb s) (hqr : ¬ bb.q.regs := by assumption) : Keeps bb (autoRecover s) := by
  unfold autoRecover
  repeat' first | with_reducible assumption | intro _ | with_reducible apply enterState_keeps | with_reducible apply firmwareWrote_keeps | with_reducible apply Keeps.ite | split

end Sys2Proof.Machine
end

