-- ==== Sys2Proof/Laws/Keeps/ColOps.lean ====
section
/-! SUPPORT. Every operation and meaning of Machine/ColOps.lean keeps what `Keeps` says. -/
set_option linter.all false
namespace Sys2Proof.Machine

theorem setDeque_keeps {bb : Base} (s : State) (n : Nat) (l : List BgItem) (h_s : Keeps bb s) (hqr : ¬ bb.q.regs := by assumption) : Keeps bb (setDeque s n l) := by
  unfold setDeque
  repeat' first | with_reducible assumption | intro _ | (extract_lets +onlyGivenNames z; refine (fun (hz : Keeps bb z) => ?_) ?_; clear_value z; revert z; intro _ _; rotate_left; unfold z; clear z; rotate_left) | (extract_lets +onlyGivenNames z; refine (fun (hz : Keeps bb z.1) => ?_) ?_; clear_value z; revert z; intro _ _; rotate_left; unfold z; clear z; rotate_left) | (extract_lets +onlyGivenNames z; refine (fun (hz : Keeps bb z) => ?_) ?_; revert z; intro _ _; rotate_left; unfold z; clear z; rotate_left) | (extract_lets +onlyGivenNames z; revert z; intro _) | (simp only [Keeps.mk_iff]; with_reducible apply Keeps.upd) | with_reducible apply State.setReg_keeps | with_reducible apply Keeps.ite | split

theorem pushItem_keeps {bb : Base} (s : State) (n : Nat) (i : BgItem) (h_s : Keeps bb s) (hqr : ¬ bb.q.regs := by assumption) : Keeps bb (pushItem s n i) := by
  unfold pushItem
  repeat' first | with_reducible assumption | intro _ | with_reducible apply setDeque_keeps

theorem pushSlice_keeps {bb : Base} (kind : Nat) (arg : Nat) (s : State) (slice : Nat) (h_s : Keeps bb s) (hqr : ¬ bb.q.regs := by assumption) : Keeps bb (pushSlice kind arg s slice) := by
  unfold pushSlice
  repeat' first | with_reducible assumption | intro _ | (simp only [Keeps.mk_iff]; with_reducible apply Keeps.upd) | with_reducible apply pushItem_keeps

theorem pushAllSlices_keeps {bb : Base} (s : State) (kind : Nat) (h_s : Keeps bb s) (hqr : ¬ bb.q.regs := by assumption) : Keeps bb (pushAllSlices s kind) := by
  unfold pushAllSlices
  repeat' first | with_reducible assumption | intro _ | with_reducible apply Keeps.forEach | with_reducible apply pushSlice_keeps

end Sys2Proof.Machine
end

