-- ==== Sys2Proof/Laws/Keeps/CohFormat.lean ====
section
/-! SUPPORT. Every operation and meaning of Machine/CohFormat.lean keeps what `Keeps` says. -/
set_option linter.all false
namespace Sys2Proof.Machine

theorem launch_keeps {bb : Base} (s : State) (hop : Hop) (m : CohMsg) (h_s : Keeps bb s)  : Keeps bb (launch s hop m) := by
  unfold launch
  repeat' first | with_reducible assumption | intro _ | (extract_lets +onlyGivenNames z; refine (fun (hz : Keeps bb z) => ?_) ?_; clear_value z; revert z; intro _ _; rotate_left; unfold z; clear z; rotate_left) | (extract_lets +onlyGivenNames z; refine (fun (hz : Keeps bb z.1) => ?_) ?_; clear_value z; revert z; intro _ _; rotate_left; unfold z; clear z; rotate_left) | (extract_lets +onlyGivenNames z; refine (fun (hz : Keeps bb z) => ?_) ?_; revert z; intro _ _; rotate_left; unfold z; clear z; rotate_left) | (extract_lets +onlyGivenNames z; revert z; intro _) | (simp only [Keeps.mk_iff]; with_reducible apply Keeps.upd)

theorem arrive_keeps {bb : Base} (s : State) (hop : Hop) (m : CohMsg) (h_s : Keeps bb s)  : KeepsO bb (arrive s hop m) := by
  unfold arrive
  repeat' first | with_reducible assumption | intro _ | (extract_lets +onlyGivenNames z; refine (fun (hz : Keeps bb z) => ?_) ?_; clear_value z; revert z; intro _ _; rotate_left; unfold z; clear z; rotate_left) | (extract_lets +onlyGivenNames z; refine (fun (hz : Keeps bb z.1) => ?_) ?_; clear_value z; revert z; intro _ _; rotate_left; unfold z; clear z; rotate_left) | (extract_lets +onlyGivenNames z; refine (fun (hz : Keeps bb z) => ?_) ?_; revert z; intro _ _; rotate_left; unfold z; clear z; rotate_left) | (extract_lets +onlyGivenNames z; revert z; intro _) | (simp only [Keeps.mk_iff]; with_reducible apply Keeps.upd) | with_reducible apply KeepsO.none | with_reducible apply KeepsO.some | intro _ | with_reducible apply Keeps.ite | split

end Sys2Proof.Machine
end

