-- ==== Sys2Proof/Laws/Keeps/BasinPack.lean ====
section
/-! SUPPORT. Every operation and meaning of Machine/BasinPack.lean keeps what `Keeps` says. -/
set_option linter.all false
namespace Sys2Proof.Machine

theorem offerCell_keeps {bb : Base} (s : State) (c : Offered) (h_s : Keeps bb s)  : Keeps bb (offerCell s c) := by
  unfold offerCell
  repeat' first | with_reducible assumption | intro _ | (extract_lets +onlyGivenNames z; refine (fun (hz : Keeps bb z) => ?_) ?_; clear_value z; revert z; intro _ _; rotate_left; unfold z; clear z; rotate_left) | (extract_lets +onlyGivenNames z; refine (fun (hz : Keeps bb z.1) => ?_) ?_; clear_value z; revert z; intro _ _; rotate_left; unfold z; clear z; rotate_left) | (extract_lets +onlyGivenNames z; refine (fun (hz : Keeps bb z) => ?_) ?_; revert z; intro _ _; rotate_left; unfold z; clear z; rotate_left) | (extract_lets +onlyGivenNames z; revert z; intro _) | (simp only [Keeps.mk_iff]; with_reducible apply Keeps.upd)

theorem closeOpen_keeps {bb : Base} (s : State) (k : Nat) (h_s : Keeps bb s)  : Keeps bb (closeOpen s k) := by
  unfold closeOpen
  repeat' first | with_reducible assumption | intro _ | (extract_lets +onlyGivenNames z; refine (fun (hz : Keeps bb z) => ?_) ?_; clear_value z; revert z; intro _ _; rotate_left; unfold z; clear z; rotate_left) | (extract_lets +onlyGivenNames z; refine (fun (hz : Keeps bb z.1) => ?_) ?_; clear_value z; revert z; intro _ _; rotate_left; unfold z; clear z; rotate_left) | (extract_lets +onlyGivenNames z; refine (fun (hz : Keeps bb z) => ?_) ?_; revert z; intro _ _; rotate_left; unfold z; clear z; rotate_left) | (extract_lets +onlyGivenNames z; revert z; intro _) | (simp only [Keeps.mk_iff]; with_reducible apply Keeps.upd) | with_reducible apply offerCell_keeps | split

theorem putOpen_keeps {bb : Base} (s : State) (k : Nat) (c : Offered) (h_s : Keeps bb s)  : Keeps bb (putOpen s k c) := by
  unfold putOpen
  repeat' first | with_reducible assumption | intro _ | (extract_lets +onlyGivenNames z; refine (fun (hz : Keeps bb z) => ?_) ?_; clear_value z; revert z; intro _ _; rotate_left; unfold z; clear z; rotate_left) | (extract_lets +onlyGivenNames z; refine (fun (hz : Keeps bb z.1) => ?_) ?_; clear_value z; revert z; intro _ _; rotate_left; unfold z; clear z; rotate_left) | (extract_lets +onlyGivenNames z; refine (fun (hz : Keeps bb z) => ?_) ?_; revert z; intro _ _; rotate_left; unfold z; clear z; rotate_left) | (extract_lets +onlyGivenNames z; revert z; intro _) | (simp only [Keeps.mk_iff]; with_reducible apply Keeps.upd) | with_reducible apply offerCell_keeps | with_reducible apply Keeps.ite | split

theorem packTagged_keeps {bb : Base} (s : State) (p : Nat) (cls : BasinClass) (targets : List Target) (b : BMsg) (h_s : Keeps bb s)  : Keeps bb (packTagged s p cls targets b) := by
  unfold packTagged
  repeat' first | with_reducible assumption | intro _ | (extract_lets +onlyGivenNames z; refine (fun (hz : Keeps bb z) => ?_) ?_; clear_value z; revert z; intro _ _; rotate_left; unfold z; clear z; rotate_left) | (extract_lets +onlyGivenNames z; refine (fun (hz : Keeps bb z.1) => ?_) ?_; clear_value z; revert z; intro _ _; rotate_left; unfold z; clear z; rotate_left) | (extract_lets +onlyGivenNames z; refine (fun (hz : Keeps bb z) => ?_) ?_; revert z; intro _ _; rotate_left; unfold z; clear z; rotate_left) | (extract_lets +onlyGivenNames z; revert z; intro _) | (simp only [Keeps.mk_iff]; with_reducible apply Keeps.upd) | with_reducible apply closeOpen_keeps | with_reducible apply offerCell_keeps | with_reducible apply putOpen_keeps | with_reducible apply Keeps.ite | split

theorem packMessage_keeps {bb : Base} (s : State) (p : Nat) (m : FabricMsg) (h_s : Keeps bb s)  : Keeps bb (packMessage s p m) := by
  unfold packMessage
  repeat' first | with_reducible assumption | intro _ | with_reducible apply packTagged_keeps

theorem returnCredit_keeps {bb : Base} (p : Nat) (s : State) (m : BMsg) (h_s : Keeps bb s)  : Keeps bb (returnCredit p s m) := by
  unfold returnCredit
  repeat' first | with_reducible assumption | intro _ | with_reducible apply State.emit_keeps | with_reducible apply Keeps.ite | split

theorem advertiseCredits_keeps {bb : Base} (s : State) (p : Nat) (h_s : Keeps bb s)  : Keeps bb (advertiseCredits s p) := by
  unfold advertiseCredits
  repeat' first | with_reducible assumption | intro _ | with_reducible apply State.emit_keeps | with_reducible apply Keeps.forEach | split

theorem sendInside_keeps {bb : Base} (s : State) (p : Nat) (ch : LinkChannel) (tenancy : Option Nat) (targets : List Target) (m : CohMsg) (a : Arrival) (h_s : Keeps bb s)  : Keeps bb (sendInside s p ch tenancy targets m a) := by
  unfold sendInside
  repeat' first | with_reducible assumption | intro _ | (extract_lets +onlyGivenNames z; refine (fun (hz : Keeps bb z) => ?_) ?_; clear_value z; revert z; intro _ _; rotate_left; unfold z; clear z; rotate_left) | (extract_lets +onlyGivenNames z; refine (fun (hz : Keeps bb z.1) => ?_) ?_; clear_value z; revert z; intro _ _; rotate_left; unfold z; clear z; rotate_left) | (extract_lets +onlyGivenNames z; refine (fun (hz : Keeps bb z) => ?_) ?_; revert z; intro _ _; rotate_left; unfold z; clear z; rotate_left) | (extract_lets +onlyGivenNames z; revert z; intro _) | (simp only [Keeps.mk_iff]; with_reducible apply Keeps.upd) | with_reducible apply packTagged_keeps

theorem sendOver_keeps {bb : Base} (s : State) (from_ : Nat) (p : Nat) (sort : MsgSort) (tag : Option Nat × Nat) (bytes : List Byte) (h_s : Keeps bb s)  : Keeps bb (sendOver s from_ p sort tag bytes) := by
  unfold sendOver
  repeat' first | with_reducible assumption | intro _ | (simp only [Keeps.mk_iff]; with_reducible apply Keeps.upd) | with_reducible apply packTagged_keeps | with_reducible apply Keeps.ite | split

theorem sendCoh_keeps {bb : Base} (s : State) (from_ : Nat) (p : Nat) (tenancy : Option Nat) (m : CohMsg) (h_s : Keeps bb s)  : Keeps bb (sendCoh s from_ p tenancy m) := by
  unfold sendCoh
  repeat' first | with_reducible assumption | intro _ | with_reducible apply sendOver_keeps

theorem sendOwn_keeps {bb : Base} (s : State) (p : Nat) (bytes : List Byte) (h_s : Keeps bb s)  : Keeps bb (sendOwn s p bytes) := by
  unfold sendOwn
  repeat' first | with_reducible assumption | intro _ | with_reducible apply sendOver_keeps

theorem sendLog_keeps {bb : Base} (s : State) (p : Nat) (bytes : List Byte) (h_s : Keeps bb s)  : Keeps bb (sendLog s p bytes) := by
  unfold sendLog
  repeat' first | with_reducible assumption | intro _ | with_reducible apply sendOver_keeps

theorem sendMirrorMsg_keeps {bb : Base} (s : State) (n : Nat) (p : Nat) (bytes : List Byte) (h_s : Keeps bb s)  : Keeps bb (sendMirrorMsg s n p bytes) := by
  unfold sendMirrorMsg
  repeat' first | with_reducible assumption | intro _ | with_reducible apply sendOver_keeps

theorem sendPacket_keeps {bb : Base} (s : State) (from_ : Nat) (p : Nat) (cls : BasinClass) (ch : LinkChannel) (sort : MsgSort) (tag : Option Nat × Nat) (relaxed : Bool) (data : Nat) (o : Out) (h_s : Keeps bb s)  : Keeps bb (sendPacket s from_ p cls ch sort tag relaxed data o) := by
  unfold sendPacket
  repeat' first | with_reducible assumption | intro _ | (extract_lets +onlyGivenNames z; refine (fun (hz : Keeps bb z) => ?_) ?_; clear_value z; revert z; intro _ _; rotate_left; unfold z; clear z; rotate_left) | (extract_lets +onlyGivenNames z; refine (fun (hz : Keeps bb z.1) => ?_) ?_; clear_value z; revert z; intro _ _; rotate_left; unfold z; clear z; rotate_left) | (extract_lets +onlyGivenNames z; refine (fun (hz : Keeps bb z) => ?_) ?_; revert z; intro _ _; rotate_left; unfold z; clear z; rotate_left) | (extract_lets +onlyGivenNames z; revert z; intro _) | (simp only [Keeps.mk_iff]; with_reducible apply Keeps.upd) | with_reducible apply packTagged_keeps

theorem sendHost_keeps {bb : Base} (s : State) (from_ : Nat) (p : Nat) (cls : BasinClass) (ch : LinkChannel) (tenancy : Option Nat) (data : Nat) (o : Out) (h_s : Keeps bb s)  : Keeps bb (sendHost s from_ p cls ch tenancy data o) := by
  unfold sendHost
  repeat' first | with_reducible assumption | intro _ | with_reducible apply sendPacket_keeps

theorem sendGlen_keeps {bb : Base} (s : State) (t : Nat) (p : Nat) (write : Bool) (relaxed : Bool) (data : Nat) (o : Out) (h_s : Keeps bb s)  : Keeps bb (sendGlen s t p write relaxed data o) := by
  unfold sendGlen
  repeat' first | with_reducible assumption | intro _ | with_reducible apply sendPacket_keeps | with_reducible apply Keeps.ite | split

end Sys2Proof.Machine
end

