-- ==== Sys2Proof/Laws/Keeps/SteppeOps.lean ====
section
/-! SUPPORT. Every operation and meaning of Machine/SteppeOps.lean keeps what `Keeps` says. -/
set_option linter.all false
set_option Elab.async false
namespace Sys2Proof.Machine

theorem clearFaults_keeps {bb : Base} (s : State) (n : Nat) (h_s : Keeps bb s)  : Keeps bb (clearFaults s n) := by
  unfold clearFaults
  repeat' first | with_reducible assumption | intro _ | (extract_lets +onlyGivenNames z; refine (fun (hz : Keeps bb z) => ?_) ?_; clear_value z; revert z; intro _ _; rotate_left; unfold z; clear z; rotate_left) | (extract_lets +onlyGivenNames z; refine (fun (hz : Keeps bb z.1) => ?_) ?_; clear_value z; revert z; intro _ _; rotate_left; unfold z; clear z; rotate_left) | (extract_lets +onlyGivenNames z; refine (fun (hz : Keeps bb z) => ?_) ?_; revert z; intro _ _; rotate_left; unfold z; clear z; rotate_left) | (extract_lets +onlyGivenNames z; revert z; intro _) | (simp only [Keeps.mk_iff]; with_reducible apply Keeps.upd)

theorem acceptWrite_keeps {bb : Base} (s : State) (n : Nat) (h_s : Keeps bb s)  : Keeps bb (acceptWrite s n) := by
  unfold acceptWrite
  repeat' first | with_reducible assumption | intro _ | (extract_lets +onlyGivenNames z; refine (fun (hz : Keeps bb z) => ?_) ?_; clear_value z; revert z; intro _ _; rotate_left; unfold z; clear z; rotate_left) | (extract_lets +onlyGivenNames z; refine (fun (hz : Keeps bb z.1) => ?_) ?_; clear_value z; revert z; intro _ _; rotate_left; unfold z; clear z; rotate_left) | (extract_lets +onlyGivenNames z; refine (fun (hz : Keeps bb z) => ?_) ?_; revert z; intro _ _; rotate_left; unfold z; clear z; rotate_left) | (extract_lets +onlyGivenNames z; revert z; intro _) | (simp only [Keeps.mk_iff]; with_reducible apply Keeps.upd)

theorem putLine_keeps {bb : Base} (s : State) (n : Nat) (l : StoredLine) (h_s : Keeps bb s) (hqm : ¬ bb.q.mem := by assumption) : Keeps bb (putLine s n l) := by
  unfold putLine
  repeat' first | with_reducible assumption | intro _ | (extract_lets +onlyGivenNames z; refine (fun (hz : Keeps bb z) => ?_) ?_; clear_value z; revert z; intro _ _; rotate_left; unfold z; clear z; rotate_left) | (extract_lets +onlyGivenNames z; refine (fun (hz : Keeps bb z.1) => ?_) ?_; clear_value z; revert z; intro _ _; rotate_left; unfold z; clear z; rotate_left) | (extract_lets +onlyGivenNames z; refine (fun (hz : Keeps bb z) => ?_) ?_; revert z; intro _ _; rotate_left; unfold z; clear z; rotate_left) | (extract_lets +onlyGivenNames z; revert z; intro _) | with_reducible apply State.setBytes_keeps | with_reducible apply State.setLineWord_keeps | with_reducible apply acceptWrite_keeps | with_reducible apply clearFaults_keeps

theorem poisonLine_keeps {bb : Base} (s : State) (n : Nat) (h_s : Keeps bb s) (hqm : ¬ bb.q.mem := by assumption) : Keeps bb (poisonLine s n) := by
  unfold poisonLine
  repeat' first | with_reducible assumption | intro _ | (simp only [Keeps.mk_iff]; with_reducible apply Keeps.upd) | with_reducible apply putLine_keeps

theorem eraseLine_keeps {bb : Base} (s : State) (n : Nat) (h_s : Keeps bb s) (hqm : ¬ bb.q.mem := by assumption) : Keeps bb (eraseLine s n) := by
  unfold eraseLine
  repeat' first | with_reducible assumption | intro _ | (simp only [Keeps.mk_iff]; with_reducible apply Keeps.upd) | with_reducible apply putLine_keeps

theorem queueRow_keeps {bb : Base} (s : State) (c : Nat) (bank : Nat) (row : Nat) (h_s : Keeps bb s)  : Keeps bb (queueRow s c bank row) := by
  unfold queueRow
  repeat' first | with_reducible assumption | intro _ | (extract_lets +onlyGivenNames z; refine (fun (hz : Keeps bb z) => ?_) ?_; clear_value z; revert z; intro _ _; rotate_left; unfold z; clear z; rotate_left) | (extract_lets +onlyGivenNames z; refine (fun (hz : Keeps bb z.1) => ?_) ?_; clear_value z; revert z; intro _ _; rotate_left; unfold z; clear z; rotate_left) | (extract_lets +onlyGivenNames z; refine (fun (hz : Keeps bb z) => ?_) ?_; revert z; intro _ _; rotate_left; unfold z; clear z; rotate_left) | (extract_lets +onlyGivenNames z; revert z; intro _) | (simp only [Keeps.mk_iff]; with_reducible apply Keeps.upd) | with_reducible apply Keeps.ite | split

theorem trackRow_keeps {bb : Base} (s : State) (c : Nat) (bank : Nat) (row : Nat) (k : Nat) (h_s : Keeps bb s) (hqr : ¬ bb.q.regs := by assumption) : Keeps bb (trackRow s c bank row k) := by
  unfold trackRow
  repeat' first | with_reducible assumption | intro _ | (extract_lets +onlyGivenNames z; refine (fun (hz : Keeps bb z) => ?_) ?_; clear_value z; revert z; intro _ _; rotate_left; unfold z; clear z; rotate_left) | (extract_lets +onlyGivenNames z; refine (fun (hz : Keeps bb z.1) => ?_) ?_; clear_value z; revert z; intro _ _; rotate_left; unfold z; clear z; rotate_left) | (extract_lets +onlyGivenNames z; refine (fun (hz : Keeps bb z) => ?_) ?_; revert z; intro _ _; rotate_left; unfold z; clear z; rotate_left) | (extract_lets +onlyGivenNames z; revert z; intro _) | (simp only [Keeps.mk_iff]; with_reducible apply Keeps.upd) | with_reducible apply State.count_keeps | with_reducible apply queueRow_keeps | with_reducible apply Keeps.ite | split

theorem trackBeats_keeps {bb : Base} (s : State) (n : Nat) (k : Nat) (beats : List Nat) (h_s : Keeps bb s) (hqr : ¬ bb.q.regs := by assumption) : Keeps bb (trackBeats s n k beats) := by
  unfold trackBeats
  repeat' first | with_reducible assumption | intro _ | with_reducible apply Keeps.forEach | with_reducible apply trackRow_keeps

theorem badLine_keeps {bb : Base} (s : State) (n : Nat) (ue : Bool) (h_s : Keeps bb s) (hqm : ¬ bb.q.mem := by assumption) (hqr : ¬ bb.q.regs := by assumption) (hqp : ¬ bb.q.phase := by assumption) : Keeps bb (badLine s n ue) := by
  unfold badLine
  repeat' first | with_reducible assumption | intro _ | (extract_lets +onlyGivenNames z; refine (fun (hz : Keeps bb z) => ?_) ?_; clear_value z; revert z; intro _ _; rotate_left; unfold z; clear z; rotate_left) | (extract_lets +onlyGivenNames z; refine (fun (hz : Keeps bb z.1) => ?_) ?_; clear_value z; revert z; intro _ _; rotate_left; unfold z; clear z; rotate_left) | (extract_lets +onlyGivenNames z; refine (fun (hz : Keeps bb z) => ?_) ?_; revert z; intro _ _; rotate_left; unfold z; clear z; rotate_left) | (extract_lets +onlyGivenNames z; revert z; intro _) | with_reducible apply State.count1_keeps | with_reducible apply State.setReg_keeps | with_reducible apply poisonLine_keeps | with_reducible apply raise_keeps | with_reducible apply trackBeats_keeps | with_reducible apply Keeps.ite | split

theorem rewriteLine_keeps {bb : Base} (s : State) (n : Nat) (v : LineView) (h_s : Keeps bb s) (hqm : ¬ bb.q.mem := by assumption) : Keeps bb (rewriteLine s n v) := by
  unfold rewriteLine
  repeat' first | with_reducible assumption | intro _ | with_reducible apply State.setBytes_keeps | with_reducible apply State.setLineWord_keeps | with_reducible apply acceptWrite_keeps | with_reducible apply clearFaults_keeps

theorem correctedLine_keeps {bb : Base} (s : State) (n : Nat) (count : Nat) (beats : List Nat) (v : LineView) (rewrite : Bool) (h_s : Keeps bb s) (hqm : ¬ bb.q.mem := by assumption) (hqr : ¬ bb.q.regs := by assumption) (hqp : ¬ bb.q.phase := by assumption) : Keeps bb (correctedLine s n count beats v rewrite) := by
  unfold correctedLine
  repeat' first | with_reducible assumption | intro _ | (extract_lets +onlyGivenNames z; refine (fun (hz : Keeps bb z) => ?_) ?_; clear_value z; revert z; intro _ _; rotate_left; unfold z; clear z; rotate_left) | (extract_lets +onlyGivenNames z; refine (fun (hz : Keeps bb z.1) => ?_) ?_; clear_value z; revert z; intro _ _; rotate_left; unfold z; clear z; rotate_left) | (extract_lets +onlyGivenNames z; refine (fun (hz : Keeps bb z) => ?_) ?_; revert z; intro _ _; rotate_left; unfold z; clear z; rotate_left) | (extract_lets +onlyGivenNames z; revert z; intro _) | with_reducible apply State.count_keeps | with_reducible apply State.count1_keeps | with_reducible apply raise_keeps | with_reducible apply rewriteLine_keeps | with_reducible apply trackBeats_keeps | with_reducible apply Keeps.ite | split

theorem decodeEffect_keeps {bb : Base} (s : State) (n : Nat) (scrub : Bool) (h_s : Keeps bb s) (hqm : ¬ bb.q.mem := by assumption) (hqr : ¬ bb.q.regs := by assumption) (hqp : ¬ bb.q.phase := by assumption) : Keeps bb (decodeEffect s n scrub).1 := by
  unfold decodeEffect
  repeat' first | with_reducible assumption | intro _ | with_reducible apply badLine_keeps | with_reducible apply correctedLine_keeps | split

theorem checkLine_keeps {bb : Base} (t : State) (n : Nat) (expected : Nat) (v : LineView) (h_t : Keeps bb t) (hqr : ¬ bb.q.regs := by assumption) (hqp : ¬ bb.q.phase := by assumption) : Keeps bb (checkLine t n expected v).1 := by
  unfold checkLine
  repeat' first | with_reducible assumption | intro _ | (extract_lets +onlyGivenNames z; refine (fun (hz : Keeps bb z) => ?_) ?_; clear_value z; revert z; intro _ _; rotate_left; unfold z; clear z; rotate_left) | (extract_lets +onlyGivenNames z; refine (fun (hz : Keeps bb z.1) => ?_) ?_; clear_value z; revert z; intro _ _; rotate_left; unfold z; clear z; rotate_left) | (extract_lets +onlyGivenNames z; refine (fun (hz : Keeps bb z) => ?_) ?_; revert z; intro _ _; rotate_left; unfold z; clear z; rotate_left) | (extract_lets +onlyGivenNames z; revert z; intro _) | (simp only [Keeps.mk_iff]; with_reducible apply Keeps.upd) | with_reducible apply State.count1_keeps | with_reducible apply State.useFree_keeps | with_reducible apply raise_keeps | with_reducible apply Keeps.ite | split

theorem readLine_keeps {bb : Base} (s : State) (n : Nat) (expected : Nat) (h_s : Keeps bb s) (hqm : ¬ bb.q.mem := by assumption) (hqr : ¬ bb.q.regs := by assumption) (hqp : ¬ bb.q.phase := by assumption) : Keeps bb (readLine s n expected).1 := by
  unfold readLine
  repeat' first | with_reducible assumption | intro _ | (extract_lets +onlyGivenNames z; refine (fun (hz : Keeps bb z) => ?_) ?_; clear_value z; revert z; intro _ _; rotate_left; unfold z; clear z; rotate_left) | (extract_lets +onlyGivenNames z; refine (fun (hz : Keeps bb z.1) => ?_) ?_; clear_value z; revert z; intro _ _; rotate_left; unfold z; clear z; rotate_left) | (extract_lets +onlyGivenNames z; refine (fun (hz : Keeps bb z) => ?_) ?_; revert z; intro _ _; rotate_left; unfold z; clear z; rotate_left) | (extract_lets +onlyGivenNames z; revert z; intro _) | with_reducible apply checkLine_keeps | with_reducible apply decodeEffect_keeps | split

theorem readLines_keeps {base : Base} (s : State) (n k : Nat) (h_s : Keeps base s) (hqm : ¬ base.q.mem := by assumption) (hqr : ¬ base.q.regs := by assumption) (hqp : ¬ base.q.phase := by assumption) : Keeps base (readLines s n k).1 := by
  induction k generalizing s n with
  | zero => exact h_s
  | succ k ih => exact ih _ _ (readLine_keeps _ _ _ h_s)

theorem State.sysRead_keeps {bb : Base} (s : State) (a : Nat) (n : Nat) (h_s : Keeps bb s) (hqm : ¬ bb.q.mem := by assumption) (hqr : ¬ bb.q.regs := by assumption) (hqp : ¬ bb.q.phase := by assumption) : Keeps bb (State.sysRead s a n).1 := by
  unfold State.sysRead
  repeat' first | with_reducible assumption | intro _ | (extract_lets +onlyGivenNames z; refine (fun (hz : Keeps bb z) => ?_) ?_; clear_value z; revert z; intro _ _; rotate_left; unfold z; clear z; rotate_left) | (extract_lets +onlyGivenNames z; refine (fun (hz : Keeps bb z.1) => ?_) ?_; clear_value z; revert z; intro _ _; rotate_left; unfold z; clear z; rotate_left) | (extract_lets +onlyGivenNames z; refine (fun (hz : Keeps bb z) => ?_) ?_; revert z; intro _ _; rotate_left; unfold z; clear z; rotate_left) | (extract_lets +onlyGivenNames z; revert z; intro _) | (simp only [Keeps.mk_iff]; with_reducible apply Keeps.upd) | with_reducible apply readLines_keeps

theorem sysPart_keeps {bb : Base} (s : State) (a : Nat) (bs : List Byte) (n : Nat) (h_s : Keeps bb s) (hqm : ¬ bb.q.mem := by assumption) (hqr : ¬ bb.q.regs := by assumption) (hqp : ¬ bb.q.phase := by assumption) : Keeps bb (sysPart s a bs n) := by
  unfold sysPart
  repeat' first | with_reducible assumption | intro _ | (extract_lets +onlyGivenNames z; refine (fun (hz : Keeps bb z) => ?_) ?_; clear_value z; revert z; intro _ _; rotate_left; unfold z; clear z; rotate_left) | (extract_lets +onlyGivenNames z; refine (fun (hz : Keeps bb z.1) => ?_) ?_; clear_value z; revert z; intro _ _; rotate_left; unfold z; clear z; rotate_left) | (extract_lets +onlyGivenNames z; refine (fun (hz : Keeps bb z) => ?_) ?_; revert z; intro _ _; rotate_left; unfold z; clear z; rotate_left) | (extract_lets +onlyGivenNames z; revert z; intro _) | (simp only [Keeps.mk_iff]; with_reducible apply Keeps.upd) | with_reducible apply putLine_keeps | with_reducible apply readLine_keeps | with_reducible apply Keeps.ite | split

theorem cleanLines_keeps {bb : Base} (s : State) (n : Nat) (k : Nat) (h_s : Keeps bb s) (hqm : ¬ bb.q.mem := by assumption) : Keeps bb (cleanLines s n k) := by
  unfold cleanLines
  repeat' first | with_reducible assumption | intro _ | (extract_lets +onlyGivenNames z; refine (fun (hz : Keeps bb z) => ?_) ?_; clear_value z; revert z; intro _ _; rotate_left; unfold z; clear z; rotate_left) | (extract_lets +onlyGivenNames z; refine (fun (hz : Keeps bb z.1) => ?_) ?_; clear_value z; revert z; intro _ _; rotate_left; unfold z; clear z; rotate_left) | (extract_lets +onlyGivenNames z; refine (fun (hz : Keeps bb z) => ?_) ?_; revert z; intro _ _; rotate_left; unfold z; clear z; rotate_left) | (extract_lets +onlyGivenNames z; revert z; intro _) | (simp only [Keeps.mk_iff]; with_reducible apply Keeps.upd) | with_reducible apply setLineWords_keeps | split

theorem State.sysWrite_keeps {bb : Base} (s : State) (a : Nat) (bs : List Byte) (h_s : Keeps bb s) (hqm : ¬ bb.q.mem := by assumption) (hqr : ¬ bb.q.regs := by assumption) (hqp : ¬ bb.q.phase := by assumption) : Keeps bb (State.sysWrite s a bs) := by
  unfold State.sysWrite
  repeat' first | with_reducible assumption | intro _ | with_reducible apply Keeps.forEach | with_reducible apply sysPart_keeps | with_reducible apply Keeps.ite | split

theorem takeSlot_keeps {bb : Base} (s : State) (slot : Nat) (key : Nat) (h_s : Keeps bb s) (hqr : ¬ bb.q.regs := by assumption) : Keeps bb (takeSlot s slot key) := by
  unfold takeSlot
  repeat' first | with_reducible assumption | intro _ | (extract_lets +onlyGivenNames z; refine (fun (hz : Keeps bb z) => ?_) ?_; clear_value z; revert z; intro _ _; rotate_left; unfold z; clear z; rotate_left) | (extract_lets +onlyGivenNames z; refine (fun (hz : Keeps bb z.1) => ?_) ?_; clear_value z; revert z; intro _ _; rotate_left; unfold z; clear z; rotate_left) | (extract_lets +onlyGivenNames z; refine (fun (hz : Keeps bb z) => ?_) ?_; revert z; intro _ _; rotate_left; unfold z; clear z; rotate_left) | (extract_lets +onlyGivenNames z; revert z; intro _) | (simp only [Keeps.mk_iff]; with_reducible apply Keeps.upd) | with_reducible apply State.setReg_keeps

theorem newKey_keeps {bb : Base} (s : State) (h_s : Keeps bb s) (hqr : ¬ bb.q.regs := by assumption) : Keeps bb (newKey s).1 := by
  unfold newKey
  repeat' first | with_reducible assumption | intro _ | with_reducible apply State.useFree_keeps | with_reducible apply takeSlot_keeps | split

theorem freeSlotAgain_keeps {bb : Base} (s : State) (slot : Nat) (h_s : Keeps bb s) (hqr : ¬ bb.q.regs := by assumption) : Keeps bb (freeSlotAgain s slot) := by
  unfold freeSlotAgain
  repeat' first | with_reducible assumption | intro _ | (extract_lets +onlyGivenNames z; refine (fun (hz : Keeps bb z) => ?_) ?_; clear_value z; revert z; intro _ _; rotate_left; unfold z; clear z; rotate_left) | (extract_lets +onlyGivenNames z; refine (fun (hz : Keeps bb z.1) => ?_) ?_; clear_value z; revert z; intro _ _; rotate_left; unfold z; clear z; rotate_left) | (extract_lets +onlyGivenNames z; refine (fun (hz : Keeps bb z) => ?_) ?_; revert z; intro _ _; rotate_left; unfold z; clear z; rotate_left) | (extract_lets +onlyGivenNames z; revert z; intro _) | (simp only [Keeps.mk_iff]; with_reducible apply Keeps.upd) | with_reducible apply State.setReg_keeps

theorem destroySlot_keeps {bb : Base} (s : State) (slot : Nat) (frontedOnly : Bool) (h_s : Keeps bb s) (hqr : ¬ bb.q.regs := by assumption) : Keeps bb (destroySlot s slot frontedOnly) := by
  unfold destroySlot
  repeat' first | with_reducible assumption | intro _ | (extract_lets +onlyGivenNames z; refine (fun (hz : Keeps bb z) => ?_) ?_; clear_value z; revert z; intro _ _; rotate_left; unfold z; clear z; rotate_left) | (extract_lets +onlyGivenNames z; refine (fun (hz : Keeps bb z.1) => ?_) ?_; clear_value z; revert z; intro _ _; rotate_left; unfold z; clear z; rotate_left) | (extract_lets +onlyGivenNames z; refine (fun (hz : Keeps bb z) => ?_) ?_; revert z; intro _ _; rotate_left; unfold z; clear z; rotate_left) | (extract_lets +onlyGivenNames z; revert z; intro _) | (simp only [Keeps.mk_iff]; with_reducible apply Keeps.upd) | with_reducible apply State.setReg_keeps | with_reducible apply freeSlotAgain_keeps | with_reducible apply Keeps.ite | split

theorem countSpares_keeps {bb : Base} (s : State) (c : Nat) (bank : Nat) (h_s : Keeps bb s) (hqr : ¬ bb.q.regs := by assumption) (hqp : ¬ bb.q.phase := by assumption) : Keeps bb (countSpares s c bank) := by
  unfold countSpares
  repeat' first | with_reducible assumption | intro _ | (extract_lets +onlyGivenNames z; refine (fun (hz : Keeps bb z) => ?_) ?_; clear_value z; revert z; intro _ _; rotate_left; unfold z; clear z; rotate_left) | (extract_lets +onlyGivenNames z; refine (fun (hz : Keeps bb z.1) => ?_) ?_; clear_value z; revert z; intro _ _; rotate_left; unfold z; clear z; rotate_left) | (extract_lets +onlyGivenNames z; refine (fun (hz : Keeps bb z) => ?_) ?_; revert z; intro _ _; rotate_left; unfold z; clear z; rotate_left) | (extract_lets +onlyGivenNames z; revert z; intro _) | with_reducible apply State.setReg_keeps | with_reducible apply raise_keeps | with_reducible apply Keeps.ite | split

theorem markBad_keeps {bb : Base} (s : State) (c : Nat) (bank : Nat) (row : Nat) (h_s : Keeps bb s) (hqr : ¬ bb.q.regs := by assumption) (hqp : ¬ bb.q.phase := by assumption) : Keeps bb (markBad s c bank row) := by
  unfold markBad
  repeat' first | with_reducible assumption | intro _ | (extract_lets +onlyGivenNames z; refine (fun (hz : Keeps bb z) => ?_) ?_; clear_value z; revert z; intro _ _; rotate_left; unfold z; clear z; rotate_left) | (extract_lets +onlyGivenNames z; refine (fun (hz : Keeps bb z.1) => ?_) ?_; clear_value z; revert z; intro _ _; rotate_left; unfold z; clear z; rotate_left) | (extract_lets +onlyGivenNames z; refine (fun (hz : Keeps bb z) => ?_) ?_; revert z; intro _ _; rotate_left; unfold z; clear z; rotate_left) | (extract_lets +onlyGivenNames z; revert z; intro _) | (simp only [Keeps.mk_iff]; with_reducible apply Keeps.upd) | with_reducible apply countSpares_keeps

theorem logSpare_keeps {bb : Base} (s : State) (kind : Nat) (c : Nat) (bank : Nat) (row : Nat) (h_s : Keeps bb s) (hqr : ¬ bb.q.regs := by assumption) : Keeps bb (logSpare s kind c bank row) := by
  unfold logSpare
  repeat' first | with_reducible assumption | intro _ | with_reducible apply pushLog_keeps

end Sys2Proof.Machine
end

