-- ==== Sys2Proof/Laws/Keeps/Service.lean ====
section
/-! SUPPORT. Every operation and meaning of Machine/Service.lean keeps what `Keeps` says. -/
set_option linter.all false
namespace Sys2Proof.Machine

theorem keepResponse_keeps {bb : Base} (s : State) (ip : Nat) (port : Nat) (tag : Nat) (bs : List Byte) (h_s : Keeps bb s)  : Keeps bb (keepResponse s ip port tag bs) := by
  unfold keepResponse
  repeat' first | with_reducible assumption | intro _ | (extract_lets +onlyGivenNames z; refine (fun (hz : Keeps bb z) => ?_) ?_; clear_value z; revert z; intro _ _; rotate_left; unfold z; clear z; rotate_left) | (extract_lets +onlyGivenNames z; refine (fun (hz : Keeps bb z.1) => ?_) ?_; clear_value z; revert z; intro _ _; rotate_left; unfold z; clear z; rotate_left) | (extract_lets +onlyGivenNames z; refine (fun (hz : Keeps bb z) => ?_) ?_; revert z; intro _ _; rotate_left; unfold z; clear z; rotate_left) | (extract_lets +onlyGivenNames z; revert z; intro _) | (simp only [Keeps.mk_iff]; with_reducible apply Keeps.upd) | with_reducible apply Keeps.ite | split

theorem sendOn_keeps {bb : Base} (s : State) (path : Path) (tag : Nat) (bs : List Byte) (h_s : Keeps bb s)  : Keeps bb (sendOn s path tag bs) := by
  unfold sendOn
  repeat' first | with_reducible assumption | intro _ | (extract_lets +onlyGivenNames z; refine (fun (hz : Keeps bb z) => ?_) ?_; clear_value z; revert z; intro _ _; rotate_left; unfold z; clear z; rotate_left) | (extract_lets +onlyGivenNames z; refine (fun (hz : Keeps bb z.1) => ?_) ?_; clear_value z; revert z; intro _ _; rotate_left; unfold z; clear z; rotate_left) | (extract_lets +onlyGivenNames z; refine (fun (hz : Keeps bb z) => ?_) ?_; revert z; intro _ _; rotate_left; unfold z; clear z; rotate_left) | (extract_lets +onlyGivenNames z; revert z; intro _) | (simp only [Keeps.mk_iff]; with_reducible apply Keeps.upd) | with_reducible apply State.emit_keeps | with_reducible apply keepResponse_keeps | with_reducible apply sendMctp_keeps | split

theorem readdress_keeps {bb : Base} (s : State) (l : List (Nat × Nat)) (h_s : Keeps bb s) (hqr : ¬ bb.q.regs := by assumption) : Keeps bb (readdress s l) := by
  unfold readdress
  repeat' first | with_reducible assumption | intro _ | (extract_lets +onlyGivenNames z; refine (fun (hz : Keeps bb z) => ?_) ?_; clear_value z; revert z; intro _ _; rotate_left; unfold z; clear z; rotate_left) | (extract_lets +onlyGivenNames z; refine (fun (hz : Keeps bb z.1) => ?_) ?_; clear_value z; revert z; intro _ _; rotate_left; unfold z; clear z; rotate_left) | (extract_lets +onlyGivenNames z; refine (fun (hz : Keeps bb z) => ?_) ?_; revert z; intro _ _; rotate_left; unfold z; clear z; rotate_left) | (extract_lets +onlyGivenNames z; revert z; intro _) | (simp only [Keeps.mk_iff]; with_reducible apply Keeps.upd) | with_reducible apply Keeps.forEach | with_reducible apply plainWrite_keeps | with_reducible apply Keeps.ite | split

theorem respond_keeps {bb : Base} (s : State) (v : Svc) (h_s : Keeps bb s) (hqr : ¬ bb.q.regs := by assumption) (hqp : ¬ bb.q.phase := by assumption) : Keeps bb (respond s v) := by
  unfold respond
  repeat' first | with_reducible assumption | intro _ | (extract_lets +onlyGivenNames z; refine (fun (hz : Keeps bb z) => ?_) ?_; clear_value z; revert z; intro _ _; rotate_left; unfold z; clear z; rotate_left) | (extract_lets +onlyGivenNames z; refine (fun (hz : Keeps bb z.1) => ?_) ?_; clear_value z; revert z; intro _ _; rotate_left; unfold z; clear z; rotate_left) | (extract_lets +onlyGivenNames z; refine (fun (hz : Keeps bb z) => ?_) ?_; revert z; intro _ _; rotate_left; unfold z; clear z; rotate_left) | (extract_lets +onlyGivenNames z; revert z; intro _) | with_reducible apply beginChipReset_keeps | with_reducible apply readdress_keeps | with_reducible apply sendOn_keeps | split

theorem finishSvc_keeps {bb : Base} (s : State) (v : Svc) (h_s : Keeps bb s) (hqr : ¬ bb.q.regs := by assumption) (hqp : ¬ bb.q.phase := by assumption) : Keeps bb (finishSvc s v) := by
  unfold finishSvc
  repeat' first | with_reducible assumption | intro _ | (extract_lets +onlyGivenNames z; refine (fun (hz : Keeps bb z) => ?_) ?_; clear_value z; revert z; intro _ _; rotate_left; unfold z; clear z; rotate_left) | (extract_lets +onlyGivenNames z; refine (fun (hz : Keeps bb z.1) => ?_) ?_; clear_value z; revert z; intro _ _; rotate_left; unfold z; clear z; rotate_left) | (extract_lets +onlyGivenNames z; refine (fun (hz : Keeps bb z) => ?_) ?_; revert z; intro _ _; rotate_left; unfold z; clear z; rotate_left) | (extract_lets +onlyGivenNames z; revert z; intro _) | (simp only [Keeps.mk_iff]; with_reducible apply Keeps.upd) | with_reducible apply respond_keeps | split

theorem continueSvc_keeps {bb : Base} (s : State) (v : Svc) (h_s : Keeps bb s) (hqr : ¬ bb.q.regs := by assumption) (hqp : ¬ bb.q.phase := by assumption) : Keeps bb (continueSvc s v) := by
  unfold continueSvc
  repeat' first | with_reducible assumption | intro _ | (extract_lets +onlyGivenNames z; refine (fun (hz : Keeps bb z) => ?_) ?_; clear_value z; revert z; intro _ _; rotate_left; unfold z; clear z; rotate_left) | (extract_lets +onlyGivenNames z; refine (fun (hz : Keeps bb z.1) => ?_) ?_; clear_value z; revert z; intro _ _; rotate_left; unfold z; clear z; rotate_left) | (extract_lets +onlyGivenNames z; refine (fun (hz : Keeps bb z) => ?_) ?_; revert z; intro _ _; rotate_left; unfold z; clear z; rotate_left) | (extract_lets +onlyGivenNames z; revert z; intro _) | (simp only [Keeps.mk_iff]; with_reducible apply Keeps.upd) | with_reducible apply finishSvc_keeps | with_reducible apply Keeps.ite | split

theorem resumeSvc_keeps {bb : Base} (s : State) (v : Svc) (h_s : Keeps bb s) (hqr : ¬ bb.q.regs := by assumption) (hqp : ¬ bb.q.phase := by assumption) : Keeps bb (resumeSvc s v) := by
  unfold resumeSvc
  repeat' first | with_reducible assumption | intro _ | (extract_lets +onlyGivenNames z; refine (fun (hz : Keeps bb z) => ?_) ?_; clear_value z; revert z; intro _ _; rotate_left; unfold z; clear z; rotate_left) | (extract_lets +onlyGivenNames z; refine (fun (hz : Keeps bb z.1) => ?_) ?_; clear_value z; revert z; intro _ _; rotate_left; unfold z; clear z; rotate_left) | (extract_lets +onlyGivenNames z; refine (fun (hz : Keeps bb z) => ?_) ?_; revert z; intro _ _; rotate_left; unfold z; clear z; rotate_left) | (extract_lets +onlyGivenNames z; revert z; intro _) | (simp only [Keeps.mk_iff]; with_reducible apply Keeps.upd) | with_reducible apply continueSvc_keeps | with_reducible apply respond_keeps | with_reducible apply Keeps.ite | split

theorem answer_keeps {bb : Base} (s : State) (path : Path) (op : RecOp) (r : Rec) (code : Result) (data : List Byte) (h_s : Keeps bb s) (hqr : ¬ bb.q.regs := by assumption) (hqp : ¬ bb.q.phase := by assumption) : Keeps bb (answer s path op r code data) := by
  unfold answer
  repeat' first | with_reducible assumption | intro _ | (extract_lets +onlyGivenNames z; refine (fun (hz : Keeps bb z) => ?_) ?_; clear_value z; revert z; intro _ _; rotate_left; unfold z; clear z; rotate_left) | (extract_lets +onlyGivenNames z; refine (fun (hz : Keeps bb z.1) => ?_) ?_; clear_value z; revert z; intro _ _; rotate_left; unfold z; clear z; rotate_left) | (extract_lets +onlyGivenNames z; refine (fun (hz : Keeps bb z) => ?_) ?_; revert z; intro _ _; rotate_left; unfold z; clear z; rotate_left) | (extract_lets +onlyGivenNames z; revert z; intro _) | (simp only [Keeps.mk_iff]; with_reducible apply Keeps.upd) | with_reducible apply State.emit_keeps | with_reducible apply continueSvc_keeps | split

theorem noteStaged_keeps {bb : Base} (s : State) (h_s : Keeps bb s) (hqr : ¬ bb.q.regs := by assumption) : Keeps bb (noteStaged s) := by
  unfold noteStaged
  repeat' first | with_reducible assumption | intro _ | with_reducible apply State.setReg_keeps | with_reducible apply Keeps.ite | split

theorem stageRecord_keeps {bb : Base} (s : State) (path : Path) (a : Nat) (e : Option Nat) (v : Nat) (h_s : Keeps bb s) (hqr : ¬ bb.q.regs := by assumption) : Keeps bb (stageRecord s path a e v) := by
  unfold stageRecord
  repeat' first | with_reducible assumption | intro _ | (extract_lets +onlyGivenNames z; refine (fun (hz : Keeps bb z) => ?_) ?_; clear_value z; revert z; intro _ _; rotate_left; unfold z; clear z; rotate_left) | (extract_lets +onlyGivenNames z; refine (fun (hz : Keeps bb z.1) => ?_) ?_; clear_value z; revert z; intro _ _; rotate_left; unfold z; clear z; rotate_left) | (extract_lets +onlyGivenNames z; refine (fun (hz : Keeps bb z) => ?_) ?_; revert z; intro _ _; rotate_left; unfold z; clear z; rotate_left) | (extract_lets +onlyGivenNames z; revert z; intro _) | (simp only [Keeps.mk_iff]; with_reducible apply Keeps.upd) | with_reducible apply noteStaged_keeps

theorem unstage_keeps {bb : Base} (s : State) (a : Nat) (e : Option Nat) (h_s : Keeps bb s)  : Keeps bb (unstage s a e) := by
  unfold unstage
  repeat' first | with_reducible assumption | intro _ | (extract_lets +onlyGivenNames z; refine (fun (hz : Keeps bb z) => ?_) ?_; clear_value z; revert z; intro _ _; rotate_left; unfold z; clear z; rotate_left) | (extract_lets +onlyGivenNames z; refine (fun (hz : Keeps bb z.1) => ?_) ?_; clear_value z; revert z; intro _ _; rotate_left; unfold z; clear z; rotate_left) | (extract_lets +onlyGivenNames z; refine (fun (hz : Keeps bb z) => ?_) ?_; revert z; intro _ _; rotate_left; unfold z; clear z; rotate_left) | (extract_lets +onlyGivenNames z; revert z; intro _) | (simp only [Keeps.mk_iff]; with_reducible apply Keeps.upd)

theorem serveWriteThen_keeps {bb : Base} (s : State) (path : Path) (r : Rec) (eff : State → State) (after : State → State) (h_s : Keeps bb s) (h_eff : ∀ y0, Keeps bb y0 → Keeps bb (eff y0)) (h_after : ∀ y0, Keeps bb y0 → Keeps bb (after y0)) (hqr : ¬ bb.q.regs := by assumption) (hqp : ¬ bb.q.phase := by assumption) : Keeps bb (serveWriteThen s path r eff after) := by
  unfold serveWriteThen
  repeat' first | with_reducible assumption | intro _ | (extract_lets +onlyGivenNames z; refine (fun (hz : Keeps bb z) => ?_) ?_; clear_value z; revert z; intro _ _; rotate_left; unfold z; clear z; rotate_left) | (extract_lets +onlyGivenNames z; refine (fun (hz : Keeps bb z.1) => ?_) ?_; clear_value z; revert z; intro _ _; rotate_left; unfold z; clear z; rotate_left) | (extract_lets +onlyGivenNames z; refine (fun (hz : Keeps bb z) => ?_) ?_; revert z; intro _ _; rotate_left; unfold z; clear z; rotate_left) | (extract_lets +onlyGivenNames z; revert z; intro _) | (simp only [Keeps.mk_iff]; with_reducible apply Keeps.upd) | with_reducible apply answer_keeps | with_reducible apply recordWriter_keeps | with_reducible apply stageRecord_keeps | with_reducible apply unstage_keeps | with_reducible apply h_eff | with_reducible apply h_after | with_reducible apply Keeps.ite | split

theorem keepReset_keeps {bb : Base} (cause : Nat) (s : State) (h_s : Keeps bb s)  : Keeps bb (keepReset cause s) := by
  unfold keepReset
  repeat' first | with_reducible assumption | intro _ | (extract_lets +onlyGivenNames z; refine (fun (hz : Keeps bb z) => ?_) ?_; clear_value z; revert z; intro _ _; rotate_left; unfold z; clear z; rotate_left) | (extract_lets +onlyGivenNames z; refine (fun (hz : Keeps bb z.1) => ?_) ?_; clear_value z; revert z; intro _ _; rotate_left; unfold z; clear z; rotate_left) | (extract_lets +onlyGivenNames z; refine (fun (hz : Keeps bb z) => ?_) ?_; revert z; intro _ _; rotate_left; unfold z; clear z; rotate_left) | (extract_lets +onlyGivenNames z; revert z; intro _) | (simp only [Keeps.mk_iff]; with_reducible apply Keeps.upd)

theorem serveReset_keeps {bb : Base} (s : State) (path : Path) (r : Rec) (cause : Nat) (eff : State → State) (h_s : Keeps bb s) (h_eff : ∀ y0, Keeps bb y0 → Keeps bb (eff y0)) (hqr : ¬ bb.q.regs := by assumption) (hqp : ¬ bb.q.phase := by assumption) : Keeps bb (serveReset s path r cause eff) := by
  unfold serveReset
  repeat' first | with_reducible assumption | intro _ | with_reducible apply beginChipReset_keeps | with_reducible apply keepReset_keeps | with_reducible apply serveWriteThen_keeps | with_reducible apply h_eff | with_reducible apply Keeps.ite | split

theorem serveWrite_keeps {base : Base} (s : State) (path : Path) (r : Rec) (eff : State → State) (h_s : Keeps base s)
    (h_eff : ∀ y, Keeps base y → Keeps base (eff y)) (hqr : ¬ base.q.regs := by assumption) (hqp : ¬ base.q.phase := by assumption) : Keeps base (serveWrite s path r eff) :=
  serveWriteThen_keeps s path r eff id h_s h_eff (fun _ h => h)

theorem serveRead_keeps {bb : Base} (s : State) (path : Path) (op : RecOp) (r : Rec) (data : State → Nat → Nat → List Byte) (eff : State → State) (h_s : Keeps bb s) (h_eff : ∀ y0, Keeps bb y0 → Keeps bb (eff y0)) (hqr : ¬ bb.q.regs := by assumption) (hqp : ¬ bb.q.phase := by assumption) : Keeps bb (serveRead s path op r data eff) := by
  unfold serveRead
  repeat' first | with_reducible assumption | intro _ | (extract_lets +onlyGivenNames z; refine (fun (hz : Keeps bb z) => ?_) ?_; clear_value z; revert z; intro _ _; rotate_left; unfold z; clear z; rotate_left) | (extract_lets +onlyGivenNames z; refine (fun (hz : Keeps bb z.1) => ?_) ?_; clear_value z; revert z; intro _ _; rotate_left; unfold z; clear z; rotate_left) | (extract_lets +onlyGivenNames z; refine (fun (hz : Keeps bb z) => ?_) ?_; revert z; intro _ _; rotate_left; unfold z; clear z; rotate_left) | (extract_lets +onlyGivenNames z; revert z; intro _) | with_reducible apply State.count_keeps | with_reducible apply answer_keeps | with_reducible apply h_eff | with_reducible apply Keeps.ite | split

end Sys2Proof.Machine
end

