-- ==== Sys2Proof/Laws/Keeps/SlotOps.lean ====
section
/-! SUPPORT. Every operation and meaning of Machine/SlotOps.lean keeps what `Keeps` says. -/
set_option linter.all false
namespace Sys2Proof.Machine

theorem setSlotState_keeps {bb : Base} (s : State) (n : Nat) (st : Nat) (h_s : Keeps bb s) (hqr : ¬ bb.q.regs := by assumption) : Keeps bb (setSlotState s n st) := by
  unfold setSlotState
  repeat' first | with_reducible assumption | intro _ | with_reducible apply State.setRegBits_keeps

theorem assertPerst_keeps {bb : Base} (s : State) (p : Nat) (h_s : Keeps bb s)  : Keeps bb (assertPerst s p) := by
  unfold assertPerst
  repeat' first | with_reducible assumption | intro _ | (extract_lets +onlyGivenNames z; refine (fun (hz : Keeps bb z) => ?_) ?_; clear_value z; revert z; intro _ _; rotate_left; unfold z; clear z; rotate_left) | (extract_lets +onlyGivenNames z; refine (fun (hz : Keeps bb z.1) => ?_) ?_; clear_value z; revert z; intro _ _; rotate_left; unfold z; clear z; rotate_left) | (extract_lets +onlyGivenNames z; refine (fun (hz : Keeps bb z) => ?_) ?_; revert z; intro _ _; rotate_left; unfold z; clear z; rotate_left) | (extract_lets +onlyGivenNames z; revert z; intro _) | (simp only [Keeps.mk_iff]; with_reducible apply Keeps.upd) | with_reducible apply State.arm_keeps | with_reducible apply State.disarm_keeps

theorem gateOff_keeps {bb : Base} (s : State) (n : Nat) (h_s : Keeps bb s)  : Keeps bb (gateOff s n) := by
  unfold gateOff
  repeat' first | with_reducible assumption | intro _ | (extract_lets +onlyGivenNames z; refine (fun (hz : Keeps bb z) => ?_) ?_; clear_value z; revert z; intro _ _; rotate_left; unfold z; clear z; rotate_left) | (extract_lets +onlyGivenNames z; refine (fun (hz : Keeps bb z.1) => ?_) ?_; clear_value z; revert z; intro _ _; rotate_left; unfold z; clear z; rotate_left) | (extract_lets +onlyGivenNames z; refine (fun (hz : Keeps bb z) => ?_) ?_; revert z; intro _ _; rotate_left; unfold z; clear z; rotate_left) | (extract_lets +onlyGivenNames z; revert z; intro _) | (simp only [Keeps.mk_iff]; with_reducible apply Keeps.upd) | with_reducible apply State.disarm_keeps

theorem powerDown_keeps {bb : Base} (s : State) (n : Nat) (h_s : Keeps bb s) (hqr : ¬ bb.q.regs := by assumption) : Keeps bb (powerDown s n) := by
  unfold powerDown
  repeat' first | with_reducible assumption | intro _ | (extract_lets +onlyGivenNames z; refine (fun (hz : Keeps bb z) => ?_) ?_; clear_value z; revert z; intro _ _; rotate_left; unfold z; clear z; rotate_left) | (extract_lets +onlyGivenNames z; refine (fun (hz : Keeps bb z.1) => ?_) ?_; clear_value z; revert z; intro _ _; rotate_left; unfold z; clear z; rotate_left) | (extract_lets +onlyGivenNames z; refine (fun (hz : Keeps bb z) => ?_) ?_; revert z; intro _ _; rotate_left; unfold z; clear z; rotate_left) | (extract_lets +onlyGivenNames z; revert z; intro _) | (simp only [Keeps.mk_iff]; with_reducible apply Keeps.upd) | with_reducible apply Keeps.withState | with_reducible apply State.disarm_keeps | with_reducible apply State.putRegBit_keeps | with_reducible apply Keeps.withSome | with_reducible apply assertPerst_keeps

theorem turnOff_keeps {bb : Base} (s : State) (n : Nat) (h_s : Keeps bb s) (hqr : ¬ bb.q.regs := by assumption) : Keeps bb (turnOff s n) := by
  unfold turnOff
  repeat' first | with_reducible assumption | intro _ | with_reducible apply gateOff_keeps | with_reducible apply powerDown_keeps

theorem assertPwrgd_keeps {bb : Base} (s : State) (n : Nat) (h_s : Keeps bb s) (hqr : ¬ bb.q.regs := by assumption) : Keeps bb (assertPwrgd s n) := by
  unfold assertPwrgd
  repeat' first | with_reducible assumption | intro _ | (extract_lets +onlyGivenNames z; refine (fun (hz : Keeps bb z) => ?_) ?_; clear_value z; revert z; intro _ _; rotate_left; unfold z; clear z; rotate_left) | (extract_lets +onlyGivenNames z; refine (fun (hz : Keeps bb z.1) => ?_) ?_; clear_value z; revert z; intro _ _; rotate_left; unfold z; clear z; rotate_left) | (extract_lets +onlyGivenNames z; refine (fun (hz : Keeps bb z) => ?_) ?_; revert z; intro _ _; rotate_left; unfold z; clear z; rotate_left) | (extract_lets +onlyGivenNames z; revert z; intro _) | (simp only [Keeps.mk_iff]; with_reducible apply Keeps.upd) | with_reducible apply Keeps.withState | with_reducible apply State.arm_keeps | with_reducible apply State.count1_keeps | with_reducible apply State.putRegBit_keeps | with_reducible apply Keeps.withSome | with_reducible apply Keeps.ite | split

theorem beginRamp_keeps {bb : Base} (s : State) (n : Nat) (h_s : Keeps bb s) (hqr : ¬ bb.q.regs := by assumption) : Keeps bb (beginRamp s n) := by
  unfold beginRamp
  repeat' first | with_reducible assumption | intro _ | (extract_lets +onlyGivenNames z; refine (fun (hz : Keeps bb z) => ?_) ?_; clear_value z; revert z; intro _ _; rotate_left; unfold z; clear z; rotate_left) | (extract_lets +onlyGivenNames z; refine (fun (hz : Keeps bb z.1) => ?_) ?_; clear_value z; revert z; intro _ _; rotate_left; unfold z; clear z; rotate_left) | (extract_lets +onlyGivenNames z; refine (fun (hz : Keeps bb z) => ?_) ?_; revert z; intro _ _; rotate_left; unfold z; clear z; rotate_left) | (extract_lets +onlyGivenNames z; revert z; intro _) | (simp only [Keeps.mk_iff]; with_reducible apply Keeps.upd) | with_reducible apply State.putRegBit_keeps | with_reducible apply gateOff_keeps | with_reducible apply setSlotState_keeps

theorem tryRamp_keeps {bb : Base} (s : State) (n : Nat) (h_s : Keeps bb s) (hqr : ¬ bb.q.regs := by assumption) : Keeps bb (tryRamp s n) := by
  unfold tryRamp
  repeat' first | with_reducible assumption | intro _ | (simp only [Keeps.mk_iff]; with_reducible apply Keeps.upd) | with_reducible apply beginRamp_keeps | with_reducible apply setSlotState_keeps | with_reducible apply Keeps.ite | split

theorem slotOn_keeps {bb : Base} (s : State) (n : Nat) (h_s : Keeps bb s) (hqr : ¬ bb.q.regs := by assumption) : Keeps bb (slotOn s n) := by
  unfold slotOn
  repeat' first | with_reducible assumption | intro _ | (simp only [Keeps.mk_iff]; with_reducible apply Keeps.upd) | with_reducible apply setSlotState_keeps | with_reducible apply tryRamp_keeps | with_reducible apply Keeps.ite | split

theorem slotOff_keeps {bb : Base} (s : State) (n : Nat) (h_s : Keeps bb s) (hqr : ¬ bb.q.regs := by assumption) : Keeps bb (slotOff s n) := by
  unfold slotOff
  repeat' first | with_reducible assumption | intro _ | (simp only [Keeps.mk_iff]; with_reducible apply Keeps.upd) | with_reducible apply State.arm_keeps | with_reducible apply gateOff_keeps | with_reducible apply powerDown_keeps | with_reducible apply setSlotState_keeps | with_reducible apply Keeps.ite | split

theorem slotFollow_keeps {bb : Base} (s : State) (n : Nat) (old : Bool) (h_s : Keeps bb s) (hqr : ¬ bb.q.regs := by assumption) : Keeps bb (slotFollow s n old) := by
  unfold slotFollow
  repeat' first | with_reducible assumption | intro _ | with_reducible apply slotOff_keeps | with_reducible apply slotOn_keeps | with_reducible apply Keeps.ite | split

theorem setHostOn_keeps {bb : Base} (s : State) (n : Nat) (on : Bool) (h_s : Keeps bb s) (hqr : ¬ bb.q.regs := by assumption) : Keeps bb (setHostOn s n on) := by
  unfold setHostOn
  repeat' first | with_reducible assumption | intro _ | with_reducible apply State.putRegBit_keeps | with_reducible apply slotFollow_keeps

theorem hostOnAtBind_keeps {bb : Base} (s : State) (p : Nat) (h_s : Keeps bb s) (hqr : ¬ bb.q.regs := by assumption) : Keeps bb (hostOnAtBind s p) := by
  unfold hostOnAtBind
  repeat' first | with_reducible assumption | intro _ | with_reducible apply Keeps.withState | with_reducible apply Keeps.withSome | with_reducible apply setHostOn_keeps

theorem slotTrip_keeps {bb : Base} (s : State) (n : Nat) (kind : Nat) (h_s : Keeps bb s) (hqr : ¬ bb.q.regs := by assumption) (hqp : ¬ bb.q.phase := by assumption) : Keeps bb (slotTrip s n kind) := by
  unfold slotTrip
  repeat' first | with_reducible assumption | intro _ | (extract_lets +onlyGivenNames z; refine (fun (hz : Keeps bb z) => ?_) ?_; clear_value z; revert z; intro _ _; rotate_left; unfold z; clear z; rotate_left) | (extract_lets +onlyGivenNames z; refine (fun (hz : Keeps bb z.1) => ?_) ?_; clear_value z; revert z; intro _ _; rotate_left; unfold z; clear z; rotate_left) | (extract_lets +onlyGivenNames z; refine (fun (hz : Keeps bb z) => ?_) ?_; revert z; intro _ _; rotate_left; unfold z; clear z; rotate_left) | (extract_lets +onlyGivenNames z; revert z; intro _) | with_reducible apply State.count1_keeps | with_reducible apply State.setRegBits_keeps | with_reducible apply raise_keeps | with_reducible apply setSlotState_keeps | with_reducible apply turnOff_keeps | with_reducible apply Keeps.ite | split

end Sys2Proof.Machine
end

