-- ==== Sys2Proof/Laws/Keeps/TenOps.lean ====
section
/-! SUPPORT. Every operation and meaning of Machine/TenOps.lean keeps what `Keeps` says. -/
set_option linter.all false
set_option Elab.async false
namespace Sys2Proof.Machine

theorem setTenState_keeps {bb : Base} (s : State) (t : Nat) (st : Nat) (h_s : Keeps bb s) (hqr : ¬ bb.q.regs := by assumption) : Keeps bb (setTenState s t st) := by
  unfold setTenState
  repeat' first | with_reducible assumption | intro _ | with_reducible apply State.setRegBits_keeps

theorem bumpGen_keeps {bb : Base} (s : State) (t : Nat) (h_s : Keeps bb s) (hqr : ¬ bb.q.regs := by assumption) : Keeps bb (bumpGen s t) := by
  unfold bumpGen
  repeat' first | with_reducible assumption | intro _ | (extract_lets +onlyGivenNames z; refine (fun (hz : Keeps bb z) => ?_) ?_; clear_value z; revert z; intro _ _; rotate_left; unfold z; clear z; rotate_left) | (extract_lets +onlyGivenNames z; refine (fun (hz : Keeps bb z.1) => ?_) ?_; clear_value z; revert z; intro _ _; rotate_left; unfold z; clear z; rotate_left) | (extract_lets +onlyGivenNames z; refine (fun (hz : Keeps bb z) => ?_) ?_; revert z; intro _ _; rotate_left; unfold z; clear z; rotate_left) | (extract_lets +onlyGivenNames z; revert z; intro _) | (simp only [Keeps.mk_iff]; with_reducible apply Keeps.upd) | with_reducible apply State.setRegBits_keeps

theorem noteRemoval_keeps {bb : Base} (s : State) (t : Nat) (h_s : Keeps bb s) (hqr : ¬ bb.q.regs := by assumption) : Keeps bb (noteRemoval s t) := by
  unfold noteRemoval
  repeat' first | with_reducible assumption | intro _ | (extract_lets +onlyGivenNames z; refine (fun (hz : Keeps bb z) => ?_) ?_; clear_value z; revert z; intro _ _; rotate_left; unfold z; clear z; rotate_left) | (extract_lets +onlyGivenNames z; refine (fun (hz : Keeps bb z.1) => ?_) ?_; clear_value z; revert z; intro _ _; rotate_left; unfold z; clear z; rotate_left) | (extract_lets +onlyGivenNames z; refine (fun (hz : Keeps bb z) => ?_) ?_; revert z; intro _ _; rotate_left; unfold z; clear z; rotate_left) | (extract_lets +onlyGivenNames z; revert z; intro _) | (simp only [Keeps.mk_iff]; with_reducible apply Keeps.upd) | with_reducible apply State.setReg_keeps

theorem triggerReset_keeps {bb : Base} (s : State) (t : Nat) (cause : Nat) (h_s : Keeps bb s) (hqr : ¬ bb.q.regs := by assumption) : Keeps bb (triggerReset s t cause) := by
  unfold triggerReset
  repeat' first | with_reducible assumption | intro _ | (extract_lets +onlyGivenNames z; refine (fun (hz : Keeps bb z) => ?_) ?_; clear_value z; revert z; intro _ _; rotate_left; unfold z; clear z; rotate_left) | (extract_lets +onlyGivenNames z; refine (fun (hz : Keeps bb z.1) => ?_) ?_; clear_value z; revert z; intro _ _; rotate_left; unfold z; clear z; rotate_left) | (extract_lets +onlyGivenNames z; refine (fun (hz : Keeps bb z) => ?_) ?_; revert z; intro _ _; rotate_left; unfold z; clear z; rotate_left) | (extract_lets +onlyGivenNames z; revert z; intro _) | (simp only [Keeps.mk_iff]; with_reducible apply Keeps.upd) | with_reducible apply State.arm_keeps | with_reducible apply State.count1_keeps | with_reducible apply State.setReg_keeps | with_reducible apply noteRemoval_keeps | with_reducible apply setTenState_keeps | with_reducible apply Keeps.ite | split

theorem State.setPair_keeps {bb : Base} (s : State) (t : Nat) (p : Pair) (h_s : Keeps bb s)  : Keeps bb (State.setPair s t p) := by
  unfold State.setPair
  repeat' first | with_reducible assumption | intro _ | (extract_lets +onlyGivenNames z; refine (fun (hz : Keeps bb z) => ?_) ?_; clear_value z; revert z; intro _ _; rotate_left; unfold z; clear z; rotate_left) | (extract_lets +onlyGivenNames z; refine (fun (hz : Keeps bb z.1) => ?_) ?_; clear_value z; revert z; intro _ _; rotate_left; unfold z; clear z; rotate_left) | (extract_lets +onlyGivenNames z; refine (fun (hz : Keeps bb z) => ?_) ?_; revert z; intro _ _; rotate_left; unfold z; clear z; rotate_left) | (extract_lets +onlyGivenNames z; revert z; intro _) | (simp only [Keeps.mk_iff]; with_reducible apply Keeps.upd)

theorem setBoxWord_keeps {bb : Base} (s : State) (t : Nat) (v : Nat) (h_s : Keeps bb s) (hqr : ¬ bb.q.regs := by assumption) : Keeps bb (setBoxWord s t v) := by
  unfold setBoxWord
  repeat' first | with_reducible assumption | intro _ | with_reducible apply State.setReg_keeps | with_reducible apply Keeps.ite | split

theorem zeroBox_keeps {bb : Base} (s : State) (a : Nat) (h_s : Keeps bb s) (hqm : ¬ bb.q.mem := by assumption) (hqr : ¬ bb.q.regs := by assumption) (hqp : ¬ bb.q.phase := by assumption) : Keeps bb (zeroBox s a) := by
  unfold zeroBox
  repeat' first | with_reducible assumption | intro _ | with_reducible apply State.sysWrite_keeps

theorem holdVector_keeps {bb : Base} (s : State) (t : Nat) (v : Nat) (h_s : Keeps bb s)  : Keeps bb (holdVector s t v) := by
  unfold holdVector
  repeat' first | with_reducible assumption | intro _ | (extract_lets +onlyGivenNames z; refine (fun (hz : Keeps bb z) => ?_) ?_; clear_value z; revert z; intro _ _; rotate_left; unfold z; clear z; rotate_left) | (extract_lets +onlyGivenNames z; refine (fun (hz : Keeps bb z.1) => ?_) ?_; clear_value z; revert z; intro _ _; rotate_left; unfold z; clear z; rotate_left) | (extract_lets +onlyGivenNames z; refine (fun (hz : Keeps bb z) => ?_) ?_; revert z; intro _ _; rotate_left; unfold z; clear z; rotate_left) | (extract_lets +onlyGivenNames z; revert z; intro _) | (simp only [Keeps.mk_iff]; with_reducible apply Keeps.upd) | with_reducible apply Keeps.ite | split

theorem sendVector_keeps {bb : Base} (s : State) (t : Nat) (v : Nat) (h_s : Keeps bb s)  : Keeps bb (sendVector s t v) := by
  unfold sendVector
  repeat' first | with_reducible assumption | intro _ | with_reducible apply holdVector_keeps | with_reducible apply sendHost_keeps | with_reducible apply Keeps.ite | split

theorem setIrq_keeps {bb : Base} (s : State) (t : Nat) (b : Nat) (h_s : Keeps bb s)  : Keeps bb (setIrq s t b) := by
  unfold setIrq
  repeat' first | with_reducible assumption | intro _ | (extract_lets +onlyGivenNames z; refine (fun (hz : Keeps bb z) => ?_) ?_; clear_value z; revert z; intro _ _; rotate_left; unfold z; clear z; rotate_left) | (extract_lets +onlyGivenNames z; refine (fun (hz : Keeps bb z.1) => ?_) ?_; clear_value z; revert z; intro _ _; rotate_left; unfold z; clear z; rotate_left) | (extract_lets +onlyGivenNames z; refine (fun (hz : Keeps bb z) => ?_) ?_; revert z; intro _ _; rotate_left; unfold z; clear z; rotate_left) | (extract_lets +onlyGivenNames z; revert z; intro _) | (simp only [Keeps.mk_iff]; with_reducible apply Keeps.upd) | with_reducible apply State.setPair_keeps | with_reducible apply sendVector_keeps | with_reducible apply Keeps.ite | split

theorem dropHeld_keeps {bb : Base} (s : State) (t : Nat) (h_s : Keeps bb s)  : Keeps bb (dropHeld s t) := by
  unfold dropHeld
  repeat' first | with_reducible assumption | intro _ | (extract_lets +onlyGivenNames z; refine (fun (hz : Keeps bb z) => ?_) ?_; clear_value z; revert z; intro _ _; rotate_left; unfold z; clear z; rotate_left) | (extract_lets +onlyGivenNames z; refine (fun (hz : Keeps bb z.1) => ?_) ?_; clear_value z; revert z; intro _ _; rotate_left; unfold z; clear z; rotate_left) | (extract_lets +onlyGivenNames z; refine (fun (hz : Keeps bb z) => ?_) ?_; revert z; intro _ _; rotate_left; unfold z; clear z; rotate_left) | (extract_lets +onlyGivenNames z; revert z; intro _) | (simp only [Keeps.mk_iff]; with_reducible apply Keeps.upd) | split

theorem releaseHeld_keeps {bb : Base} (s : State) (h_s : Keeps bb s)  : Keeps bb (releaseHeld s) := by
  unfold releaseHeld
  repeat' first | with_reducible assumption | intro _ | (extract_lets +onlyGivenNames z; refine (fun (hz : Keeps bb z) => ?_) ?_; clear_value z; revert z; intro _ _; rotate_left; unfold z; clear z; rotate_left) | (extract_lets +onlyGivenNames z; refine (fun (hz : Keeps bb z.1) => ?_) ?_; clear_value z; revert z; intro _ _; rotate_left; unfold z; clear z; rotate_left) | (extract_lets +onlyGivenNames z; refine (fun (hz : Keeps bb z) => ?_) ?_; revert z; intro _ _; rotate_left; unfold z; clear z; rotate_left) | (extract_lets +onlyGivenNames z; revert z; intro _) | (simp only [Keeps.mk_iff]; with_reducible apply Keeps.upd) | with_reducible apply Keeps.forEach | with_reducible apply sendVector_keeps | with_reducible apply Keeps.ite | split

theorem summaryEvent_keeps {bb : Base} (s : State) (w : Nat) (h_s : Keeps bb s) (hqr : ¬ bb.q.regs := by assumption) (hqp : ¬ bb.q.phase := by assumption) : Keeps bb (summaryEvent s w) := by
  unfold summaryEvent
  repeat' first | with_reducible assumption | intro _ | (extract_lets +onlyGivenNames z; refine (fun (hz : Keeps bb z) => ?_) ?_; clear_value z; revert z; intro _ _; rotate_left; unfold z; clear z; rotate_left) | (extract_lets +onlyGivenNames z; refine (fun (hz : Keeps bb z.1) => ?_) ?_; clear_value z; revert z; intro _ _; rotate_left; unfold z; clear z; rotate_left) | (extract_lets +onlyGivenNames z; refine (fun (hz : Keeps bb z) => ?_) ?_; revert z; intro _ _; rotate_left; unfold z; clear z; rotate_left) | (extract_lets +onlyGivenNames z; revert z; intro _) | (simp only [Keeps.mk_iff]; with_reducible apply Keeps.upd) | with_reducible apply State.arm_keeps | with_reducible apply notify_keeps | with_reducible apply Keeps.ite | split

theorem summarySet_keeps {bb : Base} (s : State) (w : Nat) (b : Nat) (h_s : Keeps bb s) (hqr : ¬ bb.q.regs := by assumption) (hqp : ¬ bb.q.phase := by assumption) : Keeps bb (summarySet s w b) := by
  unfold summarySet
  repeat' first | with_reducible assumption | intro _ | (extract_lets +onlyGivenNames z; refine (fun (hz : Keeps bb z) => ?_) ?_; clear_value z; revert z; intro _ _; rotate_left; unfold z; clear z; rotate_left) | (extract_lets +onlyGivenNames z; refine (fun (hz : Keeps bb z.1) => ?_) ?_; clear_value z; revert z; intro _ _; rotate_left; unfold z; clear z; rotate_left) | (extract_lets +onlyGivenNames z; refine (fun (hz : Keeps bb z) => ?_) ?_; revert z; intro _ _; rotate_left; unfold z; clear z; rotate_left) | (extract_lets +onlyGivenNames z; revert z; intro _) | (simp only [Keeps.mk_iff]; with_reducible apply Keeps.upd) | with_reducible apply State.putRegBit_keeps | with_reducible apply summaryEvent_keeps | with_reducible apply Keeps.ite | split

theorem summaryClear_keeps {bb : Base} (s : State) (t : Nat) (h_s : Keeps bb s) (hqr : ¬ bb.q.regs := by assumption) : Keeps bb (summaryClear s t) := by
  unfold summaryClear
  repeat' first | with_reducible assumption | intro _ | with_reducible apply State.putRegBit_keeps

theorem wantFold_keeps {bb : Base} (s : State) (t : Nat) (h_s : Keeps bb s) (hqr : ¬ bb.q.regs := by assumption) : Keeps bb (wantFold s t) := by
  unfold wantFold
  repeat' first | with_reducible assumption | intro _ | (simp only [Keeps.mk_iff]; with_reducible apply Keeps.upd) | with_reducible apply pushItem_keeps | with_reducible apply Keeps.ite | split

theorem dirtyRecord_keeps {bb : Base} (s : State) (writer : Nat) (d : Dirty) (h_s : Keeps bb s) (hqr : ¬ bb.q.regs := by assumption) : Keeps bb (dirtyRecord s writer d) := by
  unfold dirtyRecord
  repeat' first | with_reducible assumption | intro _ | (extract_lets +onlyGivenNames z; refine (fun (hz : Keeps bb z) => ?_) ?_; clear_value z; revert z; intro _ _; rotate_left; unfold z; clear z; rotate_left) | (extract_lets +onlyGivenNames z; refine (fun (hz : Keeps bb z.1) => ?_) ?_; clear_value z; revert z; intro _ _; rotate_left; unfold z; clear z; rotate_left) | (extract_lets +onlyGivenNames z; refine (fun (hz : Keeps bb z) => ?_) ?_; revert z; intro _ _; rotate_left; unfold z; clear z; rotate_left) | (extract_lets +onlyGivenNames z; revert z; intro _) | (simp only [Keeps.mk_iff]; with_reducible apply Keeps.upd) | with_reducible apply State.count1_keeps | with_reducible apply State.putRegBit_keeps | with_reducible apply wantFold_keeps | with_reducible apply Keeps.ite | split

theorem logDirty_keeps {bb : Base} (s : State) (writer : Nat) (t : Nat) (kind : Nat) (page : Nat) (host : Bool) (h_s : Keeps bb s) (hqr : ¬ bb.q.regs := by assumption) : Keeps bb (logDirty s writer t kind page host) := by
  unfold logDirty
  repeat' first | with_reducible assumption | intro _ | (simp only [Keeps.mk_iff]; with_reducible apply Keeps.upd) | with_reducible apply dirtyRecord_keeps | with_reducible apply Keeps.forEach

theorem foldRecord_keeps {bb : Base} (s : State) (d : Dirty) (h_s : Keeps bb s) (hqm : ¬ bb.q.mem := by assumption) (hqr : ¬ bb.q.regs := by assumption) (hqp : ¬ bb.q.phase := by assumption) : Keeps bb (foldRecord s d) := by
  unfold foldRecord
  repeat' first | with_reducible assumption | intro _ | (extract_lets +onlyGivenNames z; refine (fun (hz : Keeps bb z) => ?_) ?_; clear_value z; revert z; intro _ _; rotate_left; unfold z; clear z; rotate_left) | (extract_lets +onlyGivenNames z; refine (fun (hz : Keeps bb z.1) => ?_) ?_; clear_value z; revert z; intro _ _; rotate_left; unfold z; clear z; rotate_left) | (extract_lets +onlyGivenNames z; refine (fun (hz : Keeps bb z) => ?_) ?_; revert z; intro _ _; rotate_left; unfold z; clear z; rotate_left) | (extract_lets +onlyGivenNames z; revert z; intro _) | (simp only [Keeps.mk_iff]; with_reducible apply Keeps.upd) | with_reducible apply putLine_keeps | with_reducible apply readLine_keeps | with_reducible apply Keeps.ite | split

theorem foldDirty_keeps {bb : Base} (s : State) (pick : Dirty → Bool) (h_s : Keeps bb s) (hqm : ¬ bb.q.mem := by assumption) (hqr : ¬ bb.q.regs := by assumption) (hqp : ¬ bb.q.phase := by assumption) : Keeps bb (foldDirty s pick) := by
  unfold foldDirty
  repeat' first | with_reducible assumption | intro _ | (extract_lets +onlyGivenNames z; refine (fun (hz : Keeps bb z) => ?_) ?_; clear_value z; revert z; intro _ _; rotate_left; unfold z; clear z; rotate_left) | (extract_lets +onlyGivenNames z; refine (fun (hz : Keeps bb z.1) => ?_) ?_; clear_value z; revert z; intro _ _; rotate_left; unfold z; clear z; rotate_left) | (extract_lets +onlyGivenNames z; refine (fun (hz : Keeps bb z) => ?_) ?_; revert z; intro _ _; rotate_left; unfold z; clear z; rotate_left) | (extract_lets +onlyGivenNames z; revert z; intro _) | (simp only [Keeps.mk_iff]; with_reducible apply Keeps.upd) | with_reducible apply foldRecord_keeps | with_reducible apply Keeps.forEach

end Sys2Proof.Machine
end

