-- ==== Sys2Proof/Laws/Keeps/Steppe.lean ====
section
/-! SUPPORT. Every operation and meaning of Machine/Steppe.lean keeps what `Keeps` says. -/
set_option linter.all false
set_option Elab.async false
namespace Sys2Proof.Machine

theorem atSteppe_moves {q : Stands} (dt a : Nat) (s : State) (f : State → State) (hf : ∀ (c : Base) u, c.q = q → Keeps c u → Keeps c (f u)) :
    Moves q dt s (atSteppe dt a s f) := by
  unfold atSteppe
  split
  · exact run_moves hf
  · intro t h; cases h

theorem meetErrors_keeps {bb : Base} (s : State) (n : Nat) (e : DramErrors) (h_s : Keeps bb s)  : Keeps bb (meetErrors s n e) := by
  unfold meetErrors
  repeat' first | with_reducible assumption | intro _ | (extract_lets +onlyGivenNames z; refine (fun (hz : Keeps bb z) => ?_) ?_; clear_value z; revert z; intro _ _; rotate_left; unfold z; clear z; rotate_left) | (extract_lets +onlyGivenNames z; refine (fun (hz : Keeps bb z.1) => ?_) ?_; clear_value z; revert z; intro _ _; rotate_left; unfold z; clear z; rotate_left) | (extract_lets +onlyGivenNames z; refine (fun (hz : Keeps bb z) => ?_) ?_; revert z; intro _ _; rotate_left; unfold z; clear z; rotate_left) | (extract_lets +onlyGivenNames z; revert z; intro _) | (simp only [Keeps.mk_iff]; with_reducible apply Keeps.upd) | with_reducible apply clearFaults_keeps | with_reducible apply Keeps.ite | split

theorem execSteppeRead_moves {qf : Prop} (dt : Nat) (addr : Nat) (expected : Nat) (errors : DramErrors) (s : State) :
    Moves ⟨False, qf, False, False⟩ dt s (execSteppeRead dt addr expected errors s) := by
  unfold execSteppeRead
  refine atSteppe_moves _ _ _ _ ?_
  intro base s hb h_s
  have hqm : ¬ base.q.mem := by rw [hb]; exact id
  have hqr : ¬ base.q.regs := by rw [hb]; exact id
  have hqp : ¬ base.q.phase := by rw [hb]; exact id
  dsimp only
  split
  · exact h_s
  · exact State.emit_keeps _ _ (readLine_keeps _ _ _ (meetErrors_keeps _ _ _ h_s))

theorem execSteppeWrite_moves {qf qr qp : Prop} (dt : Nat) (addr : Nat) (line : StoredLine) (s : State) : Moves ⟨False, qf, qr, qp⟩ dt s (execSteppeWrite dt addr line s) := by
  unfold execSteppeWrite
  refine atSteppe_moves _ _ _ _ ?_
  intro base s hb h_s
  have hqm : ¬ base.q.mem := by rw [hb]; exact id
  show Keeps base (if _ then _ else _)
  split
  · exact h_s
  · exact putLine_keeps _ _ _ h_s

theorem hardRepairs_keeps {bb : Base} (s : State) (h_s : Keeps bb s) (hqr : ¬ bb.q.regs := by assumption) : Keeps bb (hardRepairs s) := by
  unfold hardRepairs
  repeat' first | with_reducible assumption | intro _ | (extract_lets +onlyGivenNames z; refine (fun (hz : Keeps bb z) => ?_) ?_; clear_value z; revert z; intro _ _; rotate_left; unfold z; clear z; rotate_left) | (extract_lets +onlyGivenNames z; refine (fun (hz : Keeps bb z.1) => ?_) ?_; clear_value z; revert z; intro _ _; rotate_left; unfold z; clear z; rotate_left) | (extract_lets +onlyGivenNames z; refine (fun (hz : Keeps bb z) => ?_) ?_; revert z; intro _ _; rotate_left; unfold z; clear z; rotate_left) | (extract_lets +onlyGivenNames z; revert z; intro _) | (simp only [Keeps.mk_iff]; with_reducible apply Keeps.upd) | with_reducible apply Keeps.forEach | with_reducible apply logSpare_keeps | with_reducible apply Keeps.ite | split

theorem eraseAll_keeps {base : Base} (s : State) (h_s : Keeps base s) (hqm : ¬ base.q.mem := by assumption) : Keeps base (eraseAll s) :=
  h_s.of_mem hqm (fun w v => ⟨sparseWf_filter _ w, sparseWf_filter _ v⟩) rfl rfl rfl rfl rfl rfl rfl rfl rfl

theorem testSpares_keeps {bb : Base} (s : State) (bad : List SpareRow) (h_s : Keeps bb s) (hqr : ¬ bb.q.regs := by assumption) (hqp : ¬ bb.q.phase := by assumption) : Keeps bb (testSpares s bad) := by
  unfold testSpares
  repeat' first | with_reducible assumption | intro _ | with_reducible apply Keeps.forEach | with_reducible apply markBad_keeps

theorem countAllSpares_keeps {bb : Base} (s : State) (h_s : Keeps bb s) (hqr : ¬ bb.q.regs := by assumption) (hqp : ¬ bb.q.phase := by assumption) : Keeps bb (countAllSpares s) := by
  unfold countAllSpares
  repeat' first | with_reducible assumption | intro _ | with_reducible apply countSpares_keeps | with_reducible apply Keeps.forEach

theorem execSteppeInit_moves {qf : Prop} (dt : Nat) (badSpares : List SpareRow) (failedStacks : List Nat) (s : State) : Moves ⟨False, qf, False, False⟩ dt s (execSteppeInit dt badSpares failedStacks s) := by
  unfold execSteppeInit
  refine run_moves ?_
  intro bb s hb h_s
  have hqm : ¬ bb.q.mem := by rw [hb]; exact id
  have hqr : ¬ bb.q.regs := by rw [hb]; exact id
  have hqp : ¬ bb.q.phase := by rw [hb]; exact id
  try dsimp -zeta only
  repeat' first | with_reducible assumption | intro _ | (extract_lets +onlyGivenNames z; refine (fun (hz : Keeps bb z) => ?_) ?_; clear_value z; revert z; intro _ _; rotate_left; unfold z; clear z; rotate_left) | (extract_lets +onlyGivenNames z; refine (fun (hz : Keeps bb z.1) => ?_) ?_; clear_value z; revert z; intro _ _; rotate_left; unfold z; clear z; rotate_left) | (extract_lets +onlyGivenNames z; refine (fun (hz : Keeps bb z) => ?_) ?_; revert z; intro _ _; rotate_left; unfold z; clear z; rotate_left) | (extract_lets +onlyGivenNames z; revert z; intro _) | (simp only [Keeps.mk_iff]; with_reducible apply Keeps.upd) | with_reducible apply State.setReg_keeps | with_reducible apply countAllSpares_keeps | with_reducible apply eraseAll_keeps | with_reducible apply hardRepairs_keeps | with_reducible apply raise_keeps | with_reducible apply run_keeps | with_reducible apply testSpares_keeps | with_reducible apply Keeps.ite | split

theorem showScrub_keeps {bb : Base} (s : State) (passes : Nat) (h_s : Keeps bb s) (hqr : ¬ bb.q.regs := by assumption) : Keeps bb (showScrub s passes) := by
  unfold showScrub
  repeat' first | with_reducible assumption | intro _ | (extract_lets +onlyGivenNames z; refine (fun (hz : Keeps bb z) => ?_) ?_; clear_value z; revert z; intro _ _; rotate_left; unfold z; clear z; rotate_left) | (extract_lets +onlyGivenNames z; refine (fun (hz : Keeps bb z.1) => ?_) ?_; clear_value z; revert z; intro _ _; rotate_left; unfold z; clear z; rotate_left) | (extract_lets +onlyGivenNames z; refine (fun (hz : Keeps bb z) => ?_) ?_; revert z; intro _ _; rotate_left; unfold z; clear z; rotate_left) | (extract_lets +onlyGivenNames z; revert z; intro _) | with_reducible apply State.setReg_keeps

theorem scrubEffect_keeps {bb : Base} (s : State) (n : Nat) (h_s : Keeps bb s) (hqm : ¬ bb.q.mem := by assumption) (hqr : ¬ bb.q.regs := by assumption) (hqp : ¬ bb.q.phase := by assumption) : Keeps bb (scrubEffect s n) := by
  unfold scrubEffect
  repeat' first | with_reducible assumption | intro _ | (extract_lets +onlyGivenNames z; refine (fun (hz : Keeps bb z) => ?_) ?_; clear_value z; revert z; intro _ _; rotate_left; unfold z; clear z; rotate_left) | (extract_lets +onlyGivenNames z; refine (fun (hz : Keeps bb z.1) => ?_) ?_; clear_value z; revert z; intro _ _; rotate_left; unfold z; clear z; rotate_left) | (extract_lets +onlyGivenNames z; refine (fun (hz : Keeps bb z) => ?_) ?_; revert z; intro _ _; rotate_left; unfold z; clear z; rotate_left) | (extract_lets +onlyGivenNames z; revert z; intro _) | with_reducible apply decodeEffect_keeps | with_reducible apply eraseLine_keeps | with_reducible apply Keeps.ite | split

theorem followUp_keeps {bb : Base} (before : State) (after : State) (n : Nat) (h_before : Keeps bb before) (h_after : Keeps bb after) (hqr : ¬ bb.q.regs := by assumption) : Keeps bb (followUp before after n) := by
  unfold followUp
  repeat' first | with_reducible assumption | intro _ | (extract_lets +onlyGivenNames z; refine (fun (hz : Keeps bb z) => ?_) ?_; clear_value z; revert z; intro _ _; rotate_left; unfold z; clear z; rotate_left) | (extract_lets +onlyGivenNames z; refine (fun (hz : Keeps bb z.1) => ?_) ?_; clear_value z; revert z; intro _ _; rotate_left; unfold z; clear z; rotate_left) | (extract_lets +onlyGivenNames z; refine (fun (hz : Keeps bb z) => ?_) ?_; revert z; intro _ _; rotate_left; unfold z; clear z; rotate_left) | (extract_lets +onlyGivenNames z; revert z; intro _) | with_reducible apply pushSlice_keeps | with_reducible apply Keeps.ite | split

theorem execScrubLine_moves {qf : Prop} (dt line : Nat) (errors : DramErrors) (s : State) : Moves ⟨False, qf, False, False⟩ dt s (execScrubLine dt line errors s) := by
  unfold execScrubLine
  refine atSteppe_moves _ _ _ _ ?_
  intro base s hb h_s
  have hqm : ¬ base.q.mem := by rw [hb]; exact id
  have hqr : ¬ base.q.regs := by rw [hb]; exact id
  have hqp : ¬ base.q.phase := by rw [hb]; exact id
  extract_lets +onlyGivenNames c
  refine Keeps.ite ?_ h_s
  extract_lets +onlyGivenNames s1
  have h1 : Keeps base s1 := followUp_keeps _ _ _ h_s (scrubEffect_keeps _ _ (meetErrors_keeps _ _ _ h_s))
  clear_value s1
  exact showScrub_keeps _ _ (Keeps.mk_iff.mpr h1.upd)

theorem execScrubPassStart_moves {qm qf : Prop} (dt : Nat) (badSpares : List SpareRow) (s : State) : Moves ⟨qm, qf, False, False⟩ dt s (execScrubPassStart dt badSpares s) := by
  unfold execScrubPassStart
  refine run_moves ?_
  intro bb s hb h_s
  have hqr : ¬ bb.q.regs := by rw [hb]; exact id
  have hqp : ¬ bb.q.phase := by rw [hb]; exact id
  try dsimp -zeta only
  repeat' first | with_reducible assumption | intro _ | (extract_lets +onlyGivenNames z; refine (fun (hz : Keeps bb z) => ?_) ?_; clear_value z; revert z; intro _ _; rotate_left; unfold z; clear z; rotate_left) | (extract_lets +onlyGivenNames z; refine (fun (hz : Keeps bb z.1) => ?_) ?_; clear_value z; revert z; intro _ _; rotate_left; unfold z; clear z; rotate_left) | (extract_lets +onlyGivenNames z; refine (fun (hz : Keeps bb z) => ?_) ?_; revert z; intro _ _; rotate_left; unfold z; clear z; rotate_left) | (extract_lets +onlyGivenNames z; revert z; intro _) | (simp only [Keeps.mk_iff]; with_reducible apply Keeps.upd) | with_reducible apply State.count_keeps | with_reducible apply run_keeps | with_reducible apply showScrub_keeps | with_reducible apply testSpares_keeps | with_reducible apply Keeps.ite | split

theorem execScrubPassEnd_moves {qm qf qp : Prop} (dt : Nat) (s : State) : Moves ⟨qm, qf, False, qp⟩ dt s (execScrubPassEnd dt s) := by
  unfold execScrubPassEnd
  refine run_moves ?_
  intro bb s hb h_s
  have hqr : ¬ bb.q.regs := by rw [hb]; exact id
  try dsimp -zeta only
  repeat' first | with_reducible assumption | intro _ | (extract_lets +onlyGivenNames z; refine (fun (hz : Keeps bb z) => ?_) ?_; clear_value z; revert z; intro _ _; rotate_left; unfold z; clear z; rotate_left) | (extract_lets +onlyGivenNames z; refine (fun (hz : Keeps bb z.1) => ?_) ?_; clear_value z; revert z; intro _ _; rotate_left; unfold z; clear z; rotate_left) | (extract_lets +onlyGivenNames z; refine (fun (hz : Keeps bb z) => ?_) ?_; revert z; intro _ _; rotate_left; unfold z; clear z; rotate_left) | (extract_lets +onlyGivenNames z; revert z; intro _) | (simp only [Keeps.mk_iff]; with_reducible apply Keeps.upd) | with_reducible apply Keeps.forEach | with_reducible apply freeSlotAgain_keeps | with_reducible apply run_keeps | with_reducible apply showScrub_keeps | with_reducible apply Keeps.ite | split

theorem execScrubLate_moves {qm qf : Prop} (dt : Nat) (channel : Nat) (s : State) : Moves ⟨qm, qf, False, False⟩ dt s (execScrubLate dt channel s) := by
  unfold execScrubLate
  refine run_moves ?_
  intro bb s hb h_s
  have hqr : ¬ bb.q.regs := by rw [hb]; exact id
  have hqp : ¬ bb.q.phase := by rw [hb]; exact id
  try dsimp -zeta only
  repeat' first | with_reducible assumption | intro _ | with_reducible apply raise_keeps | with_reducible apply run_keeps | with_reducible apply Keeps.ite | split

theorem beginSpare_keeps {bb : Base} (s : State) (c : Nat) (bank : Nat) (row : Nat) (bads : Nat) (h_s : Keeps bb s) (hqr : ¬ bb.q.regs := by assumption) (hqp : ¬ bb.q.phase := by assumption) : Keeps bb (beginSpare s c bank row bads) := by
  unfold beginSpare
  repeat' first | with_reducible assumption | intro _ | (extract_lets +onlyGivenNames z; refine (fun (hz : Keeps bb z) => ?_) ?_; clear_value z; revert z; intro _ _; rotate_left; unfold z; clear z; rotate_left) | (extract_lets +onlyGivenNames z; refine (fun (hz : Keeps bb z.1) => ?_) ?_; clear_value z; revert z; intro _ _; rotate_left; unfold z; clear z; rotate_left) | (extract_lets +onlyGivenNames z; refine (fun (hz : Keeps bb z) => ?_) ?_; revert z; intro _ _; rotate_left; unfold z; clear z; rotate_left) | (extract_lets +onlyGivenNames z; revert z; intro _) | (simp only [Keeps.mk_iff]; with_reducible apply Keeps.upd) | with_reducible apply raise_keeps | split

theorem execSpareRowStart_moves {qm qf : Prop} (dt : Nat) (channel : Nat) (s : State) : Moves ⟨qm, qf, False, False⟩ dt s (execSpareRowStart dt channel s) := by
  unfold execSpareRowStart
  refine run_moves ?_
  intro bb s hb h_s
  have hqr : ¬ bb.q.regs := by rw [hb]; exact id
  have hqp : ¬ bb.q.phase := by rw [hb]; exact id
  try dsimp -zeta only
  repeat' first | with_reducible assumption | intro _ | (extract_lets +onlyGivenNames z; refine (fun (hz : Keeps bb z) => ?_) ?_; clear_value z; revert z; intro _ _; rotate_left; unfold z; clear z; rotate_left) | (extract_lets +onlyGivenNames z; refine (fun (hz : Keeps bb z.1) => ?_) ?_; clear_value z; revert z; intro _ _; rotate_left; unfold z; clear z; rotate_left) | (extract_lets +onlyGivenNames z; refine (fun (hz : Keeps bb z) => ?_) ?_; revert z; intro _ _; rotate_left; unfold z; clear z; rotate_left) | (extract_lets +onlyGivenNames z; revert z; intro _) | (simp only [Keeps.mk_iff]; with_reducible apply Keeps.upd) | with_reducible apply beginSpare_keeps | with_reducible apply run_keeps | with_reducible apply Keeps.ite | split

theorem switchRow_keeps {bb : Base} (s : State) (c : Nat) (j : SpareJob) (h_s : Keeps bb s) (hqr : ¬ bb.q.regs := by assumption) (hqp : ¬ bb.q.phase := by assumption) : Keeps bb (switchRow s c j) := by
  unfold switchRow
  repeat' first | with_reducible assumption | intro _ | (extract_lets +onlyGivenNames z; refine (fun (hz : Keeps bb z) => ?_) ?_; clear_value z; revert z; intro _ _; rotate_left; unfold z; clear z; rotate_left) | (extract_lets +onlyGivenNames z; refine (fun (hz : Keeps bb z.1) => ?_) ?_; clear_value z; revert z; intro _ _; rotate_left; unfold z; clear z; rotate_left) | (extract_lets +onlyGivenNames z; refine (fun (hz : Keeps bb z) => ?_) ?_; revert z; intro _ _; rotate_left; unfold z; clear z; rotate_left) | (extract_lets +onlyGivenNames z; revert z; intro _) | (simp only [Keeps.mk_iff]; with_reducible apply Keeps.upd) | with_reducible apply countSpares_keeps | with_reducible apply logSpare_keeps | with_reducible apply raise_keeps | with_reducible apply Keeps.ite | split

theorem beatCopied_keeps {bb : Base} (s : State) (n : Nat) (k : Nat) (h_s : Keeps bb s)  : Keeps bb (beatCopied s n k) := by
  unfold beatCopied
  repeat' first | with_reducible assumption | intro _ | (extract_lets +onlyGivenNames z; refine (fun (hz : Keeps bb z) => ?_) ?_; clear_value z; revert z; intro _ _; rotate_left; unfold z; clear z; rotate_left) | (extract_lets +onlyGivenNames z; refine (fun (hz : Keeps bb z.1) => ?_) ?_; clear_value z; revert z; intro _ _; rotate_left; unfold z; clear z; rotate_left) | (extract_lets +onlyGivenNames z; refine (fun (hz : Keeps bb z) => ?_) ?_; revert z; intro _ _; rotate_left; unfold z; clear z; rotate_left) | (extract_lets +onlyGivenNames z; revert z; intro _) | (simp only [Keeps.mk_iff]; with_reducible apply Keeps.upd) | with_reducible apply clearFaults_keeps | with_reducible apply Keeps.ite | split

theorem copyLine_keeps {bb : Base} (beat : Nat) (s : State) (n : Nat) (h_s : Keeps bb s) (hqm : ¬ bb.q.mem := by assumption) (hqr : ¬ bb.q.regs := by assumption) (hqp : ¬ bb.q.phase := by assumption) : Keeps bb (copyLine beat s n) := by
  unfold copyLine
  repeat' first | with_reducible assumption | intro _ | with_reducible apply beatCopied_keeps | with_reducible apply decodeEffect_keeps

theorem copyRow_keeps {bb : Base} (s : State) (c : Nat) (j : SpareJob) (errors : List (Nat × DramErrors)) (h_s : Keeps bb s) (hqm : ¬ bb.q.mem := by assumption) (hqr : ¬ bb.q.regs := by assumption) (hqp : ¬ bb.q.phase := by assumption) : Keeps bb (copyRow s c j errors) := by
  unfold copyRow
  repeat' first | with_reducible assumption | intro _ | (extract_lets +onlyGivenNames z; refine (fun (hz : Keeps bb z) => ?_) ?_; clear_value z; revert z; intro _ _; rotate_left; unfold z; clear z; rotate_left) | (extract_lets +onlyGivenNames z; refine (fun (hz : Keeps bb z.1) => ?_) ?_; clear_value z; revert z; intro _ _; rotate_left; unfold z; clear z; rotate_left) | (extract_lets +onlyGivenNames z; refine (fun (hz : Keeps bb z) => ?_) ?_; revert z; intro _ _; rotate_left; unfold z; clear z; rotate_left) | (extract_lets +onlyGivenNames z; revert z; intro _) | with_reducible apply copyLine_keeps | with_reducible apply Keeps.forEach | with_reducible apply meetErrors_keeps

theorem spareFails_keeps {bb : Base} (s : State) (c : Nat) (j : SpareJob) (h_s : Keeps bb s) (hqr : ¬ bb.q.regs := by assumption) (hqp : ¬ bb.q.phase := by assumption) : Keeps bb (spareFails s c j) := by
  unfold spareFails
  repeat' first | with_reducible assumption | intro _ | (extract_lets +onlyGivenNames z; refine (fun (hz : Keeps bb z) => ?_) ?_; clear_value z; revert z; intro _ _; rotate_left; unfold z; clear z; rotate_left) | (extract_lets +onlyGivenNames z; refine (fun (hz : Keeps bb z.1) => ?_) ?_; clear_value z; revert z; intro _ _; rotate_left; unfold z; clear z; rotate_left) | (extract_lets +onlyGivenNames z; refine (fun (hz : Keeps bb z) => ?_) ?_; revert z; intro _ _; rotate_left; unfold z; clear z; rotate_left) | (extract_lets +onlyGivenNames z; revert z; intro _) | (simp only [Keeps.mk_iff]; with_reducible apply Keeps.upd) | with_reducible apply beginSpare_keeps | with_reducible apply logSpare_keeps | with_reducible apply markBad_keeps | with_reducible apply raise_keeps | with_reducible apply Keeps.ite | split

theorem execSpareRowDone_moves {qf : Prop} (dt : Nat) (channel : Nat) (readBack : Bool) (errors : List (Nat × DramErrors)) (s : State) : Moves ⟨False, qf, False, False⟩ dt s (execSpareRowDone dt channel readBack errors s) := by
  unfold execSpareRowDone
  refine run_moves ?_
  intro bb s hb h_s
  have hqm : ¬ bb.q.mem := by rw [hb]; exact id
  have hqr : ¬ bb.q.regs := by rw [hb]; exact id
  have hqp : ¬ bb.q.phase := by rw [hb]; exact id
  try dsimp -zeta only
  repeat' first | with_reducible assumption | intro _ | (extract_lets +onlyGivenNames z; refine (fun (hz : Keeps bb z) => ?_) ?_; clear_value z; revert z; intro _ _; rotate_left; unfold z; clear z; rotate_left) | (extract_lets +onlyGivenNames z; refine (fun (hz : Keeps bb z.1) => ?_) ?_; clear_value z; revert z; intro _ _; rotate_left; unfold z; clear z; rotate_left) | (extract_lets +onlyGivenNames z; refine (fun (hz : Keeps bb z) => ?_) ?_; revert z; intro _ _; rotate_left; unfold z; clear z; rotate_left) | (extract_lets +onlyGivenNames z; revert z; intro _) | with_reducible apply Keeps.withState | with_reducible apply Keeps.withSome | with_reducible apply copyRow_keeps | with_reducible apply run_keeps | with_reducible apply spareFails_keeps | with_reducible apply switchRow_keeps | with_reducible apply Keeps.ite | split

theorem execSteppeSpareCmd_moves {qm qf : Prop} (dt : Nat) (path : Path) (value : Nat) (s : State) : Moves ⟨qm, qf, False, False⟩ dt s (execSteppeSpareCmd dt path value s) := by
  unfold execSteppeSpareCmd
  refine run_moves ?_
  intro bb s hb h_s
  have hqr : ¬ bb.q.regs := by rw [hb]; exact id
  have hqp : ¬ bb.q.phase := by rw [hb]; exact id
  try dsimp -zeta only
  repeat' first | with_reducible assumption | intro _ | with_reducible apply queueRow_keeps | with_reducible apply run_keeps | with_reducible apply serveWrite_keeps

theorem execSanitize_moves {qm qf : Prop} (dt : Nat) (path : Path) (s : State) : Moves ⟨qm, qf, False, False⟩ dt s (execSanitize dt path s) := by
  unfold execSanitize
  refine run_moves ?_
  intro bb s hb h_s
  have hqr : ¬ bb.q.regs := by rw [hb]; exact id
  have hqp : ¬ bb.q.phase := by rw [hb]; exact id
  try dsimp -zeta only
  repeat' first | with_reducible assumption | intro _ | with_reducible apply destroySlot_keeps | with_reducible apply Keeps.forEach | with_reducible apply run_keeps | with_reducible apply serveWrite_keeps

theorem refreshBand_keeps {bb : Base} (s : State) (k : Nat) (c : Int) (h_s : Keeps bb s) (hqr : ¬ bb.q.regs := by assumption) (hqp : ¬ bb.q.phase := by assumption) : Keeps bb (refreshBand s k c) := by
  unfold refreshBand
  repeat' first | with_reducible assumption | intro _ | (extract_lets +onlyGivenNames z; refine (fun (hz : Keeps bb z) => ?_) ?_; clear_value z; revert z; intro _ _; rotate_left; unfold z; clear z; rotate_left) | (extract_lets +onlyGivenNames z; refine (fun (hz : Keeps bb z.1) => ?_) ?_; clear_value z; revert z; intro _ _; rotate_left; unfold z; clear z; rotate_left) | (extract_lets +onlyGivenNames z; refine (fun (hz : Keeps bb z) => ?_) ?_; revert z; intro _ _; rotate_left; unfold z; clear z; rotate_left) | (extract_lets +onlyGivenNames z; revert z; intro _) | (simp only [Keeps.mk_iff]; with_reducible apply Keeps.upd) | with_reducible apply raise_keeps | with_reducible apply Keeps.ite | split

theorem execStackTemp_moves {qm qf : Prop} (dt : Nat) (stack : Nat) (celsius : Int) (s : State) : Moves ⟨qm, qf, False, False⟩ dt s (execStackTemp dt stack celsius s) := by
  unfold execStackTemp
  refine run_moves ?_
  intro bb s hb h_s
  have hqr : ¬ bb.q.regs := by rw [hb]; exact id
  have hqp : ¬ bb.q.phase := by rw [hb]; exact id
  try dsimp -zeta only
  repeat' first | with_reducible assumption | intro _ | with_reducible apply State.setReg_keeps | with_reducible apply refreshBand_keeps | with_reducible apply run_keeps | with_reducible apply Keeps.ite | split

theorem execInnerCorrectionReport_moves {qm qf qp : Prop} (dt : Nat) (stack : Nat) (counts : List Nat) (s : State) : Moves ⟨qm, qf, False, qp⟩ dt s (execInnerCorrectionReport dt stack counts s) := by
  unfold execInnerCorrectionReport
  refine run_moves ?_
  intro bb s hb h_s
  have hqr : ¬ bb.q.regs := by rw [hb]; exact id
  try dsimp -zeta only
  repeat' first | with_reducible assumption | intro _ | with_reducible apply State.count_keeps | with_reducible apply Keeps.forEach | with_reducible apply run_keeps | with_reducible apply Keeps.ite | split

theorem execXlate_moves {qm qf : Prop} (dt : Nat) (path : Path) (value : Nat) (s : State) : Moves ⟨qm, qf, False, False⟩ dt s (execXlate dt path value s) := by
  unfold execXlate
  refine run_moves ?_
  intro bb s hb h_s
  have hqr : ¬ bb.q.regs := by rw [hb]; exact id
  have hqp : ¬ bb.q.phase := by rw [hb]; exact id
  try dsimp -zeta only
  repeat' first | with_reducible assumption | intro _ | with_reducible apply State.setReg_keeps | with_reducible apply run_keeps | with_reducible apply serveWrite_keeps

end Sys2Proof.Machine
end

