-- ==== Sys2Proof/Laws/Keeps/Basin.lean ====
section
/-! SUPPORT. Every operation and meaning of Machine/Basin.lean keeps what `Keeps` says. -/
set_option linter.all false
set_option Elab.async false
namespace Sys2Proof.Machine

theorem answerUnsupported_keeps {bb : Base} (s : State) (p : Nat) (m : FabricMsg) (h_s : Keeps bb s)  : Keeps bb (answerUnsupported s p m) := by
  unfold answerUnsupported
  repeat' first | with_reducible assumption | intro _ | with_reducible apply sendHost_keeps | with_reducible apply Keeps.ite | split

theorem enterViral_keeps {bb : Base} (s : State) (p : Nat) (h_s : Keeps bb s) (hqr : ¬ bb.q.regs := by assumption) (hqp : ¬ bb.q.phase := by assumption) : Keeps bb (enterViral s p) := by
  unfold enterViral
  repeat' first | with_reducible assumption | intro _ | (extract_lets +onlyGivenNames z; refine (fun (hz : Keeps bb z) => ?_) ?_; clear_value z; revert z; intro _ _; rotate_left; unfold z; clear z; rotate_left) | (extract_lets +onlyGivenNames z; refine (fun (hz : Keeps bb z.1) => ?_) ?_; clear_value z; revert z; intro _ _; rotate_left; unfold z; clear z; rotate_left) | (extract_lets +onlyGivenNames z; refine (fun (hz : Keeps bb z) => ?_) ?_; revert z; intro _ _; rotate_left; unfold z; clear z; rotate_left) | (extract_lets +onlyGivenNames z; revert z; intro _) | with_reducible apply State.emit_keeps | with_reducible apply State.putRegBit_keeps | with_reducible apply Keeps.forEach | with_reducible apply raise_keeps | with_reducible apply Keeps.ite | split

theorem takeMessageIn_keeps {bb : Base} (s : State) (p : Nat) (m : FabricMsg) (h_s : Keeps bb s)  : Keeps bb (takeMessageIn s p m) := by
  unfold takeMessageIn
  repeat' first | with_reducible assumption | intro _ | with_reducible apply answerUnsupported_keeps | with_reducible apply packMessage_keeps | with_reducible apply Keeps.ite | split

theorem messageArrives_keeps {bb : Base} (s : State) (p : Nat) (m : FabricMsg) (h_s : Keeps bb s) (hqr : ¬ bb.q.regs := by assumption) (hqp : ¬ bb.q.phase := by assumption) : Keeps bb (messageArrives s p m) := by
  unfold messageArrives
  repeat' first | with_reducible assumption | intro _ | (extract_lets +onlyGivenNames z; refine (fun (hz : Keeps bb z) => ?_) ?_; clear_value z; revert z; intro _ _; rotate_left; unfold z; clear z; rotate_left) | (extract_lets +onlyGivenNames z; refine (fun (hz : Keeps bb z.1) => ?_) ?_; clear_value z; revert z; intro _ _; rotate_left; unfold z; clear z; rotate_left) | (extract_lets +onlyGivenNames z; refine (fun (hz : Keeps bb z) => ?_) ?_; revert z; intro _ _; rotate_left; unfold z; clear z; rotate_left) | (extract_lets +onlyGivenNames z; revert z; intro _) | (simp only [Keeps.mk_iff]; with_reducible apply Keeps.upd) | with_reducible apply State.count1_keeps | with_reducible apply enterViral_keeps | with_reducible apply raise_keeps | with_reducible apply takeMessageIn_keeps | with_reducible apply Keeps.ite | split

theorem execMessageIngress_moves {qm qf : Prop} (dt : Nat) (ingress : Nat) (m : FabricMsg) (s : State) : Moves ⟨qm, qf, False, False⟩ dt s (execMessageIngress dt ingress m s) := by
  unfold execMessageIngress
  refine run_moves ?_
  intro bb s hb h_s
  have hqr : ¬ bb.q.regs := by rw [hb]; exact id
  have hqp : ¬ bb.q.phase := by rw [hb]; exact id
  try dsimp -zeta only
  repeat' first | with_reducible assumption | intro _ | with_reducible apply messageArrives_keeps | with_reducible apply run_keeps | with_reducible apply Keeps.ite | split

theorem execOpenCellClose_moves {qm qf qr qp : Prop} (dt : Nat) (ingress : Nat) (cls : BasinClass) (s : State) : Moves ⟨qm, qf, qr, qp⟩ dt s (execOpenCellClose dt ingress cls s) := by
  unfold execOpenCellClose
  refine run_moves ?_
  intro bb s hb h_s
  try dsimp -zeta only
  repeat' first | with_reducible assumption | intro _ | with_reducible apply closeOpen_keeps | with_reducible apply run_keeps | with_reducible apply Keeps.ite | split

theorem stallStart_keeps {bb : Base} (s : State) (e : Nat) (h_s : Keeps bb s)  : Keeps bb (stallStart s e) := by
  unfold stallStart
  repeat' first | with_reducible assumption | intro _ | with_reducible apply setStall_keeps | with_reducible apply Keeps.ite | split

theorem enqueueTarget_keeps {bb : Base} (c : Stored) (s : State) (t : Target) (h_s : Keeps bb s)  : Keeps bb (enqueueTarget c s t) := by
  unfold enqueueTarget
  repeat' first | with_reducible assumption | intro _ | (extract_lets +onlyGivenNames z; refine (fun (hz : Keeps bb z) => ?_) ?_; clear_value z; revert z; intro _ _; rotate_left; unfold z; clear z; rotate_left) | (extract_lets +onlyGivenNames z; refine (fun (hz : Keeps bb z.1) => ?_) ?_; clear_value z; revert z; intro _ _; rotate_left; unfold z; clear z; rotate_left) | (extract_lets +onlyGivenNames z; refine (fun (hz : Keeps bb z) => ?_) ?_; revert z; intro _ _; rotate_left; unfold z; clear z; rotate_left) | (extract_lets +onlyGivenNames z; revert z; intro _) | (simp only [Keeps.mk_iff]; with_reducible apply Keeps.upd) | with_reducible apply Keeps.ofId | with_reducible apply stallStart_keeps | split

theorem offerSample_keeps {bb : Base} (s : State) (words : List Nat) (h_s : Keeps bb s) (hqr : ¬ bb.q.regs := by assumption) (hqp : ¬ bb.q.phase := by assumption) : Keeps bb (offerSample s words) := by
  unfold offerSample
  repeat' first | with_reducible assumption | intro _ | (extract_lets +onlyGivenNames z; refine (fun (hz : Keeps bb z) => ?_) ?_; clear_value z; revert z; intro _ _; rotate_left; unfold z; clear z; rotate_left) | (extract_lets +onlyGivenNames z; refine (fun (hz : Keeps bb z.1) => ?_) ?_; clear_value z; revert z; intro _ _; rotate_left; unfold z; clear z; rotate_left) | (extract_lets +onlyGivenNames z; refine (fun (hz : Keeps bb z) => ?_) ?_; revert z; intro _ _; rotate_left; unfold z; clear z; rotate_left) | (extract_lets +onlyGivenNames z; revert z; intro _) | (simp only [Keeps.mk_iff]; with_reducible apply Keeps.upd) | with_reducible apply State.count1_keeps | with_reducible apply report_keeps | with_reducible apply Keeps.ite | split

theorem sampleOne_keeps {bb : Base} (p : Nat) (c : Offered) (s : State) (m : BMsg) (h_s : Keeps bb s) (hqr : ¬ bb.q.regs := by assumption) (hqp : ¬ bb.q.phase := by assumption) : Keeps bb (sampleOne p c s m) := by
  unfold sampleOne
  repeat' first | with_reducible assumption | intro _ | (extract_lets +onlyGivenNames z; refine (fun (hz : Keeps bb z) => ?_) ?_; clear_value z; revert z; intro _ _; rotate_left; unfold z; clear z; rotate_left) | (extract_lets +onlyGivenNames z; refine (fun (hz : Keeps bb z.1) => ?_) ?_; clear_value z; revert z; intro _ _; rotate_left; unfold z; clear z; rotate_left) | (extract_lets +onlyGivenNames z; refine (fun (hz : Keeps bb z) => ?_) ?_; revert z; intro _ _; rotate_left; unfold z; clear z; rotate_left) | (extract_lets +onlyGivenNames z; revert z; intro _) | (simp only [Keeps.mk_iff]; with_reducible apply Keeps.upd) | with_reducible apply offerSample_keeps | with_reducible apply Keeps.ite | split

theorem storeOffered_keeps {bb : Base} (s : State) (c : Offered) (h_s : Keeps bb s)  : Keeps bb (storeOffered s c) := by
  unfold storeOffered
  repeat' first | with_reducible assumption | intro _ | (extract_lets +onlyGivenNames z; refine (fun (hz : Keeps bb z) => ?_) ?_; clear_value z; revert z; intro _ _; rotate_left; unfold z; clear z; rotate_left) | (extract_lets +onlyGivenNames z; refine (fun (hz : Keeps bb z.1) => ?_) ?_; clear_value z; revert z; intro _ _; rotate_left; unfold z; clear z; rotate_left) | (extract_lets +onlyGivenNames z; refine (fun (hz : Keeps bb z) => ?_) ?_; revert z; intro _ _; rotate_left; unfold z; clear z; rotate_left) | (extract_lets +onlyGivenNames z; revert z; intro _) | (simp only [Keeps.mk_iff]; with_reducible apply Keeps.upd)

theorem admitCell_keeps {bb : Base} (s : State) (c : Offered) (h_s : Keeps bb s) (hqr : ¬ bb.q.regs := by assumption) (hqp : ¬ bb.q.phase := by assumption) : Keeps bb (admitCell s c) := by
  unfold admitCell
  repeat' first | with_reducible assumption | intro _ | (extract_lets +onlyGivenNames z; refine (fun (hz : Keeps bb z) => ?_) ?_; clear_value z; revert z; intro _ _; rotate_left; unfold z; clear z; rotate_left) | (extract_lets +onlyGivenNames z; refine (fun (hz : Keeps bb z.1) => ?_) ?_; clear_value z; revert z; intro _ _; rotate_left; unfold z; clear z; rotate_left) | (extract_lets +onlyGivenNames z; refine (fun (hz : Keeps bb z) => ?_) ?_; revert z; intro _ _; rotate_left; unfold z; clear z; rotate_left) | (extract_lets +onlyGivenNames z; revert z; intro _) | with_reducible apply State.addEgress_keeps | with_reducible apply State.count_keeps | with_reducible apply State.setReg_keeps | with_reducible apply State.setUsed_keeps | with_reducible apply countWait_keeps | with_reducible apply Keeps.forEach | with_reducible apply returnCredit_keeps | with_reducible apply sampleOne_keeps | with_reducible apply storeOffered_keeps | with_reducible apply Keeps.ite | split

theorem execCellAdmit_moves {qm qf : Prop} (dt : Nat) (ingress : Nat) (cls : BasinClass) (s : State) : Moves ⟨qm, qf, False, False⟩ dt s (execCellAdmit dt ingress cls s) := by
  unfold execCellAdmit
  refine run_moves ?_
  intro bb s hb h_s
  have hqr : ¬ bb.q.regs := by rw [hb]; exact id
  have hqp : ¬ bb.q.phase := by rw [hb]; exact id
  try dsimp -zeta only
  repeat' first | with_reducible assumption | intro _ | (extract_lets +onlyGivenNames z; refine (fun (hz : Keeps bb z) => ?_) ?_; clear_value z; revert z; intro _ _; rotate_left; unfold z; clear z; rotate_left) | (extract_lets +onlyGivenNames z; refine (fun (hz : Keeps bb z.1) => ?_) ?_; clear_value z; revert z; intro _ _; rotate_left; unfold z; clear z; rotate_left) | (extract_lets +onlyGivenNames z; refine (fun (hz : Keeps bb z) => ?_) ?_; revert z; intro _ _; rotate_left; unfold z; clear z; rotate_left) | (extract_lets +onlyGivenNames z; revert z; intro _) | (simp only [Keeps.mk_iff]; with_reducible apply Keeps.upd) | with_reducible apply KeepsO.getD | with_reducible apply admitCell_keeps | with_reducible apply run_keeps | with_reducible apply Keeps.ite | split

theorem takeCell_keeps {bb : Base} (s : State) (h_s : Keeps bb s) (hqr : ¬ bb.q.regs := by assumption) : Keeps bb (takeCell s) := by
  unfold takeCell
  repeat' first | with_reducible assumption | intro _ | (extract_lets +onlyGivenNames z; refine (fun (hz : Keeps bb z) => ?_) ?_; clear_value z; revert z; intro _ _; rotate_left; unfold z; clear z; rotate_left) | (extract_lets +onlyGivenNames z; refine (fun (hz : Keeps bb z.1) => ?_) ?_; clear_value z; revert z; intro _ _; rotate_left; unfold z; clear z; rotate_left) | (extract_lets +onlyGivenNames z; refine (fun (hz : Keeps bb z) => ?_) ?_; revert z; intro _ _; rotate_left; unfold z; clear z; rotate_left) | (extract_lets +onlyGivenNames z; revert z; intro _) | with_reducible apply State.setReg_keeps | with_reducible apply Keeps.ite | split

theorem writeCell_keeps {bb : Base} (s : State) (c : Stored) (ptr : Nat) (h_s : Keeps bb s) (hqr : ¬ bb.q.regs := by assumption) : Keeps bb (writeCell s c ptr) := by
  unfold writeCell
  repeat' first | with_reducible assumption | intro _ | (extract_lets +onlyGivenNames z; refine (fun (hz : Keeps bb z) => ?_) ?_; clear_value z; revert z; intro _ _; rotate_left; unfold z; clear z; rotate_left) | (extract_lets +onlyGivenNames z; refine (fun (hz : Keeps bb z.1) => ?_) ?_; clear_value z; revert z; intro _ _; rotate_left; unfold z; clear z; rotate_left) | (extract_lets +onlyGivenNames z; refine (fun (hz : Keeps bb z) => ?_) ?_; revert z; intro _ _; rotate_left; unfold z; clear z; rotate_left) | (extract_lets +onlyGivenNames z; revert z; intro _) | (simp only [Keeps.mk_iff]; with_reducible apply Keeps.upd) | with_reducible apply State.putStored_keeps | with_reducible apply State.useFree_keeps | with_reducible apply enqueueTarget_keeps | with_reducible apply Keeps.forEach | with_reducible apply takeCell_keeps | with_reducible apply Keeps.ite | split

theorem execCellWrite_moves {qm qf qp : Prop} (dt : Nat) (ingress : Nat) (cls : BasinClass) (busy : List Nat) (s : State) : Moves ⟨qm, qf, False, qp⟩ dt s (execCellWrite dt ingress cls busy s) := by
  unfold execCellWrite
  refine run_moves ?_
  intro bb s hb h_s
  have hqr : ¬ bb.q.regs := by rw [hb]; exact id
  try dsimp -zeta only
  repeat' first | with_reducible assumption | intro _ | with_reducible apply Keeps.withState | with_reducible apply Keeps.withSome | with_reducible apply run_keeps | with_reducible apply writeCell_keeps

theorem stageMessage_keeps {bb : Base} (s : State) (p : Nat) (channel : Nat) (bytes : List Byte) (h_s : Keeps bb s)  : Keeps bb (stageMessage s p channel bytes) := by
  unfold stageMessage
  repeat' first | with_reducible assumption | intro _ | (extract_lets +onlyGivenNames z; refine (fun (hz : Keeps bb z) => ?_) ?_; clear_value z; revert z; intro _ _; rotate_left; unfold z; clear z; rotate_left) | (extract_lets +onlyGivenNames z; refine (fun (hz : Keeps bb z.1) => ?_) ?_; clear_value z; revert z; intro _ _; rotate_left; unfold z; clear z; rotate_left) | (extract_lets +onlyGivenNames z; refine (fun (hz : Keeps bb z) => ?_) ?_; revert z; intro _ _; rotate_left; unfold z; clear z; rotate_left) | (extract_lets +onlyGivenNames z; revert z; intro _) | (simp only [Keeps.mk_iff]; with_reducible apply Keeps.upd) | with_reducible apply State.setPass_keeps

theorem stampProbe_keeps {bb : Base} (s : State) (p : Nat) (m : List Byte) (h_s : Keeps bb s)  : Keeps bb (stampProbe s p m).1 := by
  unfold stampProbe
  repeat' first | with_reducible assumption | intro _ | (extract_lets +onlyGivenNames z; refine (fun (hz : Keeps bb z) => ?_) ?_; clear_value z; revert z; intro _ _; rotate_left; unfold z; clear z; rotate_left) | (extract_lets +onlyGivenNames z; refine (fun (hz : Keeps bb z.1) => ?_) ?_; clear_value z; revert z; intro _ _; rotate_left; unfold z; clear z; rotate_left) | (extract_lets +onlyGivenNames z; refine (fun (hz : Keeps bb z) => ?_) ?_; revert z; intro _ _; rotate_left; unfold z; clear z; rotate_left) | (extract_lets +onlyGivenNames z; revert z; intro _) | (simp only [Keeps.mk_iff]; with_reducible apply Keeps.upd) | with_reducible apply State.setPass_keeps | with_reducible apply Keeps.ite | split

theorem startMessage_keeps {bb : Base} (s : State) (p : Nat) (m : List Byte) (h_s : Keeps bb s)  : Keeps bb (startMessage s p m) := by
  unfold startMessage
  repeat' first | with_reducible assumption | intro _ | (extract_lets +onlyGivenNames z; refine (fun (hz : Keeps bb z) => ?_) ?_; clear_value z; revert z; intro _ _; rotate_left; unfold z; clear z; rotate_left) | (extract_lets +onlyGivenNames z; refine (fun (hz : Keeps bb z.1) => ?_) ?_; clear_value z; revert z; intro _ _; rotate_left; unfold z; clear z; rotate_left) | (extract_lets +onlyGivenNames z; refine (fun (hz : Keeps bb z) => ?_) ?_; revert z; intro _ _; rotate_left; unfold z; clear z; rotate_left) | (extract_lets +onlyGivenNames z; revert z; intro _) | (simp only [Keeps.mk_iff]; with_reducible apply Keeps.upd) | with_reducible apply State.setPass_keeps | with_reducible apply stageMessage_keeps | with_reducible apply stampProbe_keeps | with_reducible apply Keeps.ite | split

theorem deliver_keeps {bb : Base} (s : State) (e : Nat) (m : BMsg) (rewrite : Nat) (poison : Bool) (h_s : Keeps bb s)  : Keeps bb (deliver s e m rewrite poison) := by
  unfold deliver
  repeat' first | with_reducible assumption | intro _ | (extract_lets +onlyGivenNames z; refine (fun (hz : Keeps bb z) => ?_) ?_; clear_value z; revert z; intro _ _; rotate_left; unfold z; clear z; rotate_left) | (extract_lets +onlyGivenNames z; refine (fun (hz : Keeps bb z.1) => ?_) ?_; clear_value z; revert z; intro _ _; rotate_left; unfold z; clear z; rotate_left) | (extract_lets +onlyGivenNames z; refine (fun (hz : Keeps bb z) => ?_) ?_; revert z; intro _ _; rotate_left; unfold z; clear z; rotate_left) | (extract_lets +onlyGivenNames z; revert z; intro _) | with_reducible apply State.emit_keeps | with_reducible apply launch_keeps | with_reducible apply startMessage_keeps | with_reducible apply Keeps.ite | split

theorem readError_keeps {bb : Base} (s : State) (x1 : CellError) (h_s : Keeps bb s) (hqr : ¬ bb.q.regs := by assumption) (hqp : ¬ bb.q.phase := by assumption) : Keeps bb (readError s x1) := by
  unfold readError
  repeat' first | with_reducible assumption | intro _ | with_reducible apply State.count1_keeps | with_reducible apply raise_keeps | split

theorem targetDone_keeps {bb : Base} (s : State) (r : Reading) (h_s : Keeps bb s) (hqr : ¬ bb.q.regs := by assumption) : Keeps bb (targetDone s r) := by
  unfold targetDone
  repeat' first | with_reducible assumption | intro _ | with_reducible apply Keeps.ofId | with_reducible apply State.refDown_keeps | with_reducible apply State.subEgress_keeps | with_reducible apply Keeps.ite | split

theorem stallAgain_keeps {bb : Base} (s : State) (e : Nat) (h_s : Keeps bb s)  : Keeps bb (stallAgain s e) := by
  unfold stallAgain
  repeat' first | with_reducible assumption | intro _ | with_reducible apply setStall_keeps

theorem freeRead_keeps {bb : Base} (s : State) (r : Reading) (h_s : Keeps bb s) (hqr : ¬ bb.q.regs := by assumption) : Keeps bb (freeRead s r) := by
  unfold freeRead
  repeat' first | with_reducible assumption | intro _ | (extract_lets +onlyGivenNames z; refine (fun (hz : Keeps bb z) => ?_) ?_; clear_value z; revert z; intro _ _; rotate_left; unfold z; clear z; rotate_left) | (extract_lets +onlyGivenNames z; refine (fun (hz : Keeps bb z.1) => ?_) ?_; clear_value z; revert z; intro _ _; rotate_left; unfold z; clear z; rotate_left) | (extract_lets +onlyGivenNames z; refine (fun (hz : Keeps bb z) => ?_) ?_; revert z; intro _ _; rotate_left; unfold z; clear z; rotate_left) | (extract_lets +onlyGivenNames z; revert z; intro _) | (simp only [Keeps.mk_iff]; with_reducible apply Keeps.upd) | with_reducible apply Keeps.ofId | with_reducible apply Keeps.withState | with_reducible apply State.putStored_keeps | with_reducible apply State.setReg_keeps | with_reducible apply State.setUsed_keeps | with_reducible apply State.subEgress_keeps | with_reducible apply Keeps.withSome | with_reducible apply Keeps.ite | split

theorem putReading_keeps {bb : Base} (s : State) (e : Nat) (r : Option Reading) (h_s : Keeps bb s)  : Keeps bb (putReading s e r) := by
  unfold putReading
  repeat' first | with_reducible assumption | intro _ | (extract_lets +onlyGivenNames z; refine (fun (hz : Keeps bb z) => ?_) ?_; clear_value z; revert z; intro _ _; rotate_left; unfold z; clear z; rotate_left) | (extract_lets +onlyGivenNames z; refine (fun (hz : Keeps bb z.1) => ?_) ?_; clear_value z; revert z; intro _ _; rotate_left; unfold z; clear z; rotate_left) | (extract_lets +onlyGivenNames z; refine (fun (hz : Keeps bb z) => ?_) ?_; revert z; intro _ _; rotate_left; unfold z; clear z; rotate_left) | (extract_lets +onlyGivenNames z; revert z; intro _) | (simp only [Keeps.mk_iff]; with_reducible apply Keeps.upd)

theorem readStep_keeps {bb : Base} (s : State) (r : Reading) (h_s : Keeps bb s) (hqr : ¬ bb.q.regs := by assumption) : Keeps bb (readStep s r) := by
  unfold readStep
  repeat' first | with_reducible assumption | intro _ | (extract_lets +onlyGivenNames z; refine (fun (hz : Keeps bb z) => ?_) ?_; clear_value z; revert z; intro _ _; rotate_left; unfold z; clear z; rotate_left) | (extract_lets +onlyGivenNames z; refine (fun (hz : Keeps bb z.1) => ?_) ?_; clear_value z; revert z; intro _ _; rotate_left; unfold z; clear z; rotate_left) | (extract_lets +onlyGivenNames z; refine (fun (hz : Keeps bb z) => ?_) ?_; revert z; intro _ _; rotate_left; unfold z; clear z; rotate_left) | (extract_lets +onlyGivenNames z; revert z; intro _) | (simp only [Keeps.mk_iff]; with_reducible apply Keeps.upd) | with_reducible apply deliver_keeps | with_reducible apply freeRead_keeps | with_reducible apply putReading_keeps | with_reducible apply targetDone_keeps | with_reducible apply Keeps.ite | split

theorem execCellRead_moves {qm qf : Prop} (dt : Nat) (egress : Nat) (ptr : Nat) (err : CellError) (s : State) : Moves ⟨qm, qf, False, False⟩ dt s (execCellRead dt egress ptr err s) := by
  unfold execCellRead
  refine run_moves ?_
  intro bb s hb h_s
  have hqr : ¬ bb.q.regs := by rw [hb]; exact id
  have hqp : ¬ bb.q.phase := by rw [hb]; exact id
  try dsimp -zeta only
  repeat' first | with_reducible assumption | intro _ | (extract_lets +onlyGivenNames z; refine (fun (hz : Keeps bb z) => ?_) ?_; clear_value z; revert z; intro _ _; rotate_left; unfold z; clear z; rotate_left) | (extract_lets +onlyGivenNames z; refine (fun (hz : Keeps bb z.1) => ?_) ?_; clear_value z; revert z; intro _ _; rotate_left; unfold z; clear z; rotate_left) | (extract_lets +onlyGivenNames z; refine (fun (hz : Keeps bb z) => ?_) ?_; revert z; intro _ _; rotate_left; unfold z; clear z; rotate_left) | (extract_lets +onlyGivenNames z; revert z; intro _) | (simp only [Keeps.mk_iff]; with_reducible apply Keeps.upd) | with_reducible apply Keeps.withState | with_reducible apply Keeps.withSome | with_reducible apply readError_keeps | with_reducible apply readStep_keeps | with_reducible apply run_keeps | with_reducible apply stallAgain_keeps | with_reducible apply Keeps.ite | split

theorem execStall_moves {qm qf : Prop} (dt : Nat) (egress : Nat) (s : State) : Moves ⟨qm, qf, False, False⟩ dt s (execStall dt egress s) := by
  unfold execStall
  refine run_moves ?_
  intro bb s hb h_s
  have hqr : ¬ bb.q.regs := by rw [hb]; exact id
  have hqp : ¬ bb.q.phase := by rw [hb]; exact id
  try dsimp -zeta only
  repeat' first | with_reducible assumption | intro _ | with_reducible apply Keeps.withState | with_reducible apply State.count1_keeps | with_reducible apply Keeps.withSome | with_reducible apply raise_keeps | with_reducible apply run_keeps | with_reducible apply setStall_keeps | with_reducible apply Keeps.ite | split

theorem execLowFreeWrite_moves {qm qf : Prop} (dt : Nat) (path : Path) (value : Nat) (s : State) : Moves ⟨qm, qf, False, False⟩ dt s (execLowFreeWrite dt path value s) := by
  unfold execLowFreeWrite
  refine run_moves ?_
  intro bb s hb h_s
  have hqr : ¬ bb.q.regs := by rw [hb]; exact id
  have hqp : ¬ bb.q.phase := by rw [hb]; exact id
  try dsimp -zeta only
  repeat' first | with_reducible assumption | intro _ | with_reducible apply State.setReg_keeps | with_reducible apply run_keeps | with_reducible apply serveWrite_keeps

end Sys2Proof.Machine
end

