-- ==== Sys2Proof/Laws/Keeps/PassOps.lean ====
section
/-! SUPPORT. Every operation and meaning of Machine/PassOps.lean keeps what `Keeps` says. -/
set_option linter.all false
set_option Elab.async false
namespace Sys2Proof.Machine

theorem takePool_keeps {base : Base} (s : State) (p : Nat) (bytes : List Byte) (h_s : Keeps base s)  :
    KeepsO base ((takePool s p bytes).map (·.1)) := by
  constructor
  intro t ht
  unfold takePool at ht
  simp only [Option.map_map, Option.map_eq_some_iff] at ht
  obtain ⟨r, _, rfl⟩ := ht
  exact State.setPass_keeps _ _ _ h_s

theorem setTxMode_keeps {bb : Base} (s : State) (p : Nat) (m : Nat) (h_s : Keeps bb s) (hqr : ¬ bb.q.regs := by assumption) : Keeps bb (setTxMode s p m) := by
  unfold setTxMode
  repeat' first | with_reducible assumption | intro _ | with_reducible apply State.setRegBits_keeps

theorem settleFull_keeps {bb : Base} (s : State) (p : Nat) (goes : Bool) (h_s : Keeps bb s) (hqr : ¬ bb.q.regs := by assumption) : Keeps bb (settleFull s p goes) := by
  unfold settleFull
  repeat' first | with_reducible assumption | intro _ | (extract_lets +onlyGivenNames z; refine (fun (hz : Keeps bb z) => ?_) ?_; clear_value z; revert z; intro _ _; rotate_left; unfold z; clear z; rotate_left) | (extract_lets +onlyGivenNames z; refine (fun (hz : Keeps bb z.1) => ?_) ?_; clear_value z; revert z; intro _ _; rotate_left; unfold z; clear z; rotate_left) | (extract_lets +onlyGivenNames z; refine (fun (hz : Keeps bb z) => ?_) ?_; revert z; intro _ _; rotate_left; unfold z; clear z; rotate_left) | (extract_lets +onlyGivenNames z; revert z; intro _) | (simp only [Keeps.mk_iff]; with_reducible apply Keeps.upd) | with_reducible apply Keeps.withState | with_reducible apply State.count_keeps | with_reducible apply State.setPass_keeps | with_reducible apply Keeps.withSome | with_reducible apply Keeps.ite | split

theorem setOutstanding_keeps {bb : Base} (s : State) (p : Nat) (n : Nat) (h_s : Keeps bb s) (hqr : ¬ bb.q.regs := by assumption) : Keeps bb (setOutstanding s p n) := by
  unfold setOutstanding
  repeat' first | with_reducible assumption | intro _ | with_reducible apply State.setRegBits_keeps | with_reducible apply settleFull_keeps

theorem startPass_keeps {bb : Base} (s : State) (p : Nat) (h_s : Keeps bb s) (hqr : ¬ bb.q.regs := by assumption) : Keeps bb (startPass s p) := by
  unfold startPass
  repeat' first | with_reducible assumption | intro _ | with_reducible apply State.setRegBits_keeps | with_reducible apply setTxMode_keeps

theorem sendRoutes_keeps {bb : Base} (s : State) (h_s : Keeps bb s)  : Keeps bb (sendRoutes s) := by
  unfold sendRoutes
  repeat' first | with_reducible assumption | intro _ | with_reducible apply Keeps.forEach | with_reducible apply sendOwn_keeps | split

theorem putRoute_keeps {bb : Base} (s : State) (w : Nat) (r : Option (Nat × Nat)) (h_s : Keeps bb s) (hqr : ¬ bb.q.regs := by assumption) : Keeps bb (putRoute s w r) := by
  unfold putRoute
  repeat' first | with_reducible assumption | intro _ | (extract_lets +onlyGivenNames z; refine (fun (hz : Keeps bb z) => ?_) ?_; clear_value z; revert z; intro _ _; rotate_left; unfold z; clear z; rotate_left) | (extract_lets +onlyGivenNames z; refine (fun (hz : Keeps bb z.1) => ?_) ?_; clear_value z; revert z; intro _ _; rotate_left; unfold z; clear z; rotate_left) | (extract_lets +onlyGivenNames z; refine (fun (hz : Keeps bb z) => ?_) ?_; revert z; intro _ _; rotate_left; unfold z; clear z; rotate_left) | (extract_lets +onlyGivenNames z; revert z; intro _) | (simp only [Keeps.mk_iff]; with_reducible apply Keeps.upd) | with_reducible apply State.arm_keeps | with_reducible apply State.disarm_keeps | with_reducible apply State.setReg_keeps | with_reducible apply Keeps.ite | split

theorem recomputeRoute_keeps {bb : Base} (force : Bool) (s : State) (w : Nat) (h_s : Keeps bb s) (hqr : ¬ bb.q.regs := by assumption) : Keeps bb (recomputeRoute force s w) := by
  unfold recomputeRoute
  repeat' first | with_reducible assumption | intro _ | (extract_lets +onlyGivenNames z; refine (fun (hz : Keeps bb z) => ?_) ?_; clear_value z; revert z; intro _ _; rotate_left; unfold z; clear z; rotate_left) | (extract_lets +onlyGivenNames z; refine (fun (hz : Keeps bb z.1) => ?_) ?_; clear_value z; revert z; intro _ _; rotate_left; unfold z; clear z; rotate_left) | (extract_lets +onlyGivenNames z; refine (fun (hz : Keeps bb z) => ?_) ?_; revert z; intro _ _; rotate_left; unfold z; clear z; rotate_left) | (extract_lets +onlyGivenNames z; revert z; intro _) | with_reducible apply putRoute_keeps | with_reducible apply Keeps.ite | split

theorem recomputeRoutes_keeps {bb : Base} (s : State) (force : Bool) (old : List (Nat × Nat)) (h_s : Keeps bb s) (hqr : ¬ bb.q.regs := by assumption) : Keeps bb (recomputeRoutes s force old) := by
  unfold recomputeRoutes
  repeat' first | with_reducible assumption | intro _ | (extract_lets +onlyGivenNames z; refine (fun (hz : Keeps bb z) => ?_) ?_; clear_value z; revert z; intro _ _; rotate_left; unfold z; clear z; rotate_left) | (extract_lets +onlyGivenNames z; refine (fun (hz : Keeps bb z.1) => ?_) ?_; clear_value z; revert z; intro _ _; rotate_left; unfold z; clear z; rotate_left) | (extract_lets +onlyGivenNames z; refine (fun (hz : Keeps bb z) => ?_) ?_; revert z; intro _ _; rotate_left; unfold z; clear z; rotate_left) | (extract_lets +onlyGivenNames z; revert z; intro _) | with_reducible apply Keeps.forEach | with_reducible apply recomputeRoute_keeps | with_reducible apply sendRoutes_keeps | with_reducible apply Keeps.ite | split

theorem recordConflict_keeps {bb : Base} (s : State) (w : Nat) (p : Nat) (h_s : Keeps bb s) (hqr : ¬ bb.q.regs := by assumption) (hqp : ¬ bb.q.phase := by assumption) : Keeps bb (recordConflict s w p) := by
  unfold recordConflict
  repeat' first | with_reducible assumption | intro _ | (extract_lets +onlyGivenNames z; refine (fun (hz : Keeps bb z) => ?_) ?_; clear_value z; revert z; intro _ _; rotate_left; unfold z; clear z; rotate_left) | (extract_lets +onlyGivenNames z; refine (fun (hz : Keeps bb z.1) => ?_) ?_; clear_value z; revert z; intro _ _; rotate_left; unfold z; clear z; rotate_left) | (extract_lets +onlyGivenNames z; refine (fun (hz : Keeps bb z) => ?_) ?_; revert z; intro _ _; rotate_left; unfold z; clear z; rotate_left) | (extract_lets +onlyGivenNames z; revert z; intro _) | (simp only [Keeps.mk_iff]; with_reducible apply Keeps.upd) | with_reducible apply State.setReg_keeps | with_reducible apply raise_keeps | with_reducible apply Keeps.ite | split

theorem endConflict_keeps {bb : Base} (s : State) (p : Nat) (h_s : Keeps bb s)  : Keeps bb (endConflict s p) := by
  unfold endConflict
  repeat' first | with_reducible assumption | intro _ | (extract_lets +onlyGivenNames z; refine (fun (hz : Keeps bb z) => ?_) ?_; clear_value z; revert z; intro _ _; rotate_left; unfold z; clear z; rotate_left) | (extract_lets +onlyGivenNames z; refine (fun (hz : Keeps bb z.1) => ?_) ?_; clear_value z; revert z; intro _ _; rotate_left; unfold z; clear z; rotate_left) | (extract_lets +onlyGivenNames z; refine (fun (hz : Keeps bb z) => ?_) ?_; revert z; intro _ _; rotate_left; unfold z; clear z; rotate_left) | (extract_lets +onlyGivenNames z; revert z; intro _) | (simp only [Keeps.mk_iff]; with_reducible apply Keeps.upd)

theorem stopPassTimers_keeps {bb : Base} (s : State) (p : Nat) (h_s : Keeps bb s)  : Keeps bb (stopPassTimers s p) := by
  unfold stopPassTimers
  repeat' first | with_reducible assumption | intro _ | (extract_lets +onlyGivenNames z; refine (fun (hz : Keeps bb z) => ?_) ?_; clear_value z; revert z; intro _ _; rotate_left; unfold z; clear z; rotate_left) | (extract_lets +onlyGivenNames z; refine (fun (hz : Keeps bb z.1) => ?_) ?_; clear_value z; revert z; intro _ _; rotate_left; unfold z; clear z; rotate_left) | (extract_lets +onlyGivenNames z; refine (fun (hz : Keeps bb z) => ?_) ?_; revert z; intro _ _; rotate_left; unfold z; clear z; rotate_left) | (extract_lets +onlyGivenNames z; revert z; intro _) | (simp only [Keeps.mk_iff]; with_reducible apply Keeps.upd)

theorem sendTwin_keeps {bb : Base} (s : State) (p : Nat) (m : List Byte) (h_s : Keeps bb s)  : Keeps bb (sendTwin s p m) := by
  unfold sendTwin
  repeat' first | with_reducible assumption | intro _ | (extract_lets +onlyGivenNames z; refine (fun (hz : Keeps bb z) => ?_) ?_; clear_value z; revert z; intro _ _; rotate_left; unfold z; clear z; rotate_left) | (extract_lets +onlyGivenNames z; refine (fun (hz : Keeps bb z.1) => ?_) ?_; clear_value z; revert z; intro _ _; rotate_left; unfold z; clear z; rotate_left) | (extract_lets +onlyGivenNames z; refine (fun (hz : Keeps bb z) => ?_) ?_; revert z; intro _ _; rotate_left; unfold z; clear z; rotate_left) | (extract_lets +onlyGivenNames z; revert z; intro _) | with_reducible apply sendLog_keeps | with_reducible apply sendMirrorMsg_keeps | with_reducible apply sendOwn_keeps | with_reducible apply Keeps.ite | split

theorem saddleResend_keeps {bb : Base} (s : State) (p : Nat) (msgs : List (List Byte)) (h_s : Keeps bb s)  : Keeps bb (saddleResend s p msgs) := by
  unfold saddleResend
  repeat' first | with_reducible assumption | intro _ | (extract_lets +onlyGivenNames z; refine (fun (hz : Keeps bb z) => ?_) ?_; clear_value z; revert z; intro _ _; rotate_left; unfold z; clear z; rotate_left) | (extract_lets +onlyGivenNames z; refine (fun (hz : Keeps bb z.1) => ?_) ?_; clear_value z; revert z; intro _ _; rotate_left; unfold z; clear z; rotate_left) | (extract_lets +onlyGivenNames z; refine (fun (hz : Keeps bb z) => ?_) ?_; revert z; intro _ _; rotate_left; unfold z; clear z; rotate_left) | (extract_lets +onlyGivenNames z; revert z; intro _) | with_reducible apply Keeps.forEach | with_reducible apply sendTwin_keeps | with_reducible apply Keeps.ite | split

theorem setPairState_keeps {bb : Base} (s : State) (st : Nat) (h_s : Keeps bb s) (hqr : ¬ bb.q.regs := by assumption) : Keeps bb (setPairState s st) := by
  unfold setPairState
  repeat' first | with_reducible assumption | intro _ | with_reducible apply State.setRegBits_keeps

theorem heardPartner_keeps {bb : Base} (s : State) (h_s : Keeps bb s) (hqr : ¬ bb.q.regs := by assumption) : Keeps bb (heardPartner s) := by
  unfold heardPartner
  repeat' first | with_reducible assumption | intro _ | (extract_lets +onlyGivenNames z; refine (fun (hz : Keeps bb z) => ?_) ?_; clear_value z; revert z; intro _ _; rotate_left; unfold z; clear z; rotate_left) | (extract_lets +onlyGivenNames z; refine (fun (hz : Keeps bb z.1) => ?_) ?_; clear_value z; revert z; intro _ _; rotate_left; unfold z; clear z; rotate_left) | (extract_lets +onlyGivenNames z; refine (fun (hz : Keeps bb z) => ?_) ?_; revert z; intro _ _; rotate_left; unfold z; clear z; rotate_left) | (extract_lets +onlyGivenNames z; revert z; intro _) | (simp only [Keeps.mk_iff]; with_reducible apply Keeps.upd) | with_reducible apply State.arm_keeps | with_reducible apply State.putRegBit_keeps

theorem enterSplit_keeps {bb : Base} (s : State) (h_s : Keeps bb s) (hqr : ¬ bb.q.regs := by assumption) (hqp : ¬ bb.q.phase := by assumption) : Keeps bb (enterSplit s) := by
  unfold enterSplit
  repeat' first | with_reducible assumption | intro _ | with_reducible apply raise_keeps | with_reducible apply setPairState_keeps

theorem twinPortDown_keeps {bb : Base} (s : State) (p : Nat) (h_s : Keeps bb s) (hqr : ¬ bb.q.regs := by assumption) (hqp : ¬ bb.q.phase := by assumption) : Keeps bb (twinPortDown s p) := by
  unfold twinPortDown
  repeat' first | with_reducible assumption | intro _ | with_reducible apply enterSplit_keeps | with_reducible apply raise_keeps | with_reducible apply Keeps.ite | split

theorem passLinkDown_keeps {bb : Base} (s : State) (p : Nat) (next : Nat) (h_s : Keeps bb s) (hqr : ¬ bb.q.regs := by assumption) (hqp : ¬ bb.q.phase := by assumption) : Keeps bb (passLinkDown s p next) := by
  unfold passLinkDown
  repeat' first | with_reducible assumption | intro _ | (extract_lets +onlyGivenNames z; refine (fun (hz : Keeps bb z) => ?_) ?_; clear_value z; revert z; intro _ _; rotate_left; unfold z; clear z; rotate_left) | (extract_lets +onlyGivenNames z; refine (fun (hz : Keeps bb z.1) => ?_) ?_; clear_value z; revert z; intro _ _; rotate_left; unfold z; clear z; rotate_left) | (extract_lets +onlyGivenNames z; refine (fun (hz : Keeps bb z) => ?_) ?_; revert z; intro _ _; rotate_left; unfold z; clear z; rotate_left) | (extract_lets +onlyGivenNames z; revert z; intro _) | (simp only [Keeps.mk_iff]; with_reducible apply Keeps.upd) | with_reducible apply State.arm_keeps | with_reducible apply State.count_keeps | with_reducible apply State.count1_keeps | with_reducible apply State.putRegBit_keeps | with_reducible apply State.setPass_keeps | with_reducible apply State.setReg_keeps | with_reducible apply State.setRegBits_keeps | with_reducible apply basinDiscard_keeps | with_reducible apply endConflict_keeps | with_reducible apply raise_keeps | with_reducible apply recomputeRoutes_keeps | with_reducible apply saddleResend_keeps | with_reducible apply setPassState_keeps | with_reducible apply settleFull_keeps | with_reducible apply stopLanes_keeps | with_reducible apply stopPassTimers_keeps | with_reducible apply twinPortDown_keeps | with_reducible apply Keeps.ite | split

theorem enterConfig_keeps {bb : Base} (s : State) (p : Nat) (h_s : Keeps bb s) (hqr : ¬ bb.q.regs := by assumption) : Keeps bb (enterConfig s p) := by
  unfold enterConfig
  repeat' first | with_reducible assumption | intro _ | (extract_lets +onlyGivenNames z; refine (fun (hz : Keeps bb z) => ?_) ?_; clear_value z; revert z; intro _ _; rotate_left; unfold z; clear z; rotate_left) | (extract_lets +onlyGivenNames z; refine (fun (hz : Keeps bb z.1) => ?_) ?_; clear_value z; revert z; intro _ _; rotate_left; unfold z; clear z; rotate_left) | (extract_lets +onlyGivenNames z; refine (fun (hz : Keeps bb z) => ?_) ?_; revert z; intro _ _; rotate_left; unfold z; clear z; rotate_left) | (extract_lets +onlyGivenNames z; revert z; intro _) | (simp only [Keeps.mk_iff]; with_reducible apply Keeps.upd) | with_reducible apply State.arm_keeps | with_reducible apply State.putRegBit_keeps | with_reducible apply State.setPass_keeps | with_reducible apply State.setReg_keeps | with_reducible apply sendOwn_keeps | with_reducible apply setPassState_keeps | with_reducible apply stopPassTimers_keeps

theorem startPhase_keeps {bb : Base} (s : State) (p : Nat) (ph : Nat) (h_s : Keeps bb s)  : Keeps bb (startPhase s p ph) := by
  unfold startPhase
  repeat' first | with_reducible assumption | intro _ | (extract_lets +onlyGivenNames z; refine (fun (hz : Keeps bb z) => ?_) ?_; clear_value z; revert z; intro _ _; rotate_left; unfold z; clear z; rotate_left) | (extract_lets +onlyGivenNames z; refine (fun (hz : Keeps bb z.1) => ?_) ?_; clear_value z; revert z; intro _ _; rotate_left; unfold z; clear z; rotate_left) | (extract_lets +onlyGivenNames z; refine (fun (hz : Keeps bb z) => ?_) ?_; revert z; intro _ _; rotate_left; unfold z; clear z; rotate_left) | (extract_lets +onlyGivenNames z; revert z; intro _) | (simp only [Keeps.mk_iff]; with_reducible apply Keeps.upd) | (simp only [Keeps.mk_iff]; with_reducible apply Keeps.updPhase) | with_reducible apply State.setPass_keeps

theorem enterRecovery_keeps {bb : Base} (s : State) (p : Nat) (h_s : Keeps bb s) (hqr : ¬ bb.q.regs := by assumption) (hqp : ¬ bb.q.phase := by assumption) : Keeps bb (enterRecovery s p) := by
  unfold enterRecovery
  repeat' first | with_reducible assumption | intro _ | (extract_lets +onlyGivenNames z; refine (fun (hz : Keeps bb z) => ?_) ?_; clear_value z; revert z; intro _ _; rotate_left; unfold z; clear z; rotate_left) | (extract_lets +onlyGivenNames z; refine (fun (hz : Keeps bb z.1) => ?_) ?_; clear_value z; revert z; intro _ _; rotate_left; unfold z; clear z; rotate_left) | (extract_lets +onlyGivenNames z; refine (fun (hz : Keeps bb z) => ?_) ?_; revert z; intro _ _; rotate_left; unfold z; clear z; rotate_left) | (extract_lets +onlyGivenNames z; revert z; intro _) | (simp only [Keeps.mk_iff]; with_reducible apply Keeps.upd) | (simp only [Keeps.mk_iff]; with_reducible apply Keeps.updPhase) | with_reducible apply State.arm_keeps | with_reducible apply State.count1_keeps | with_reducible apply State.disarm_keeps | with_reducible apply State.setPass_keeps | with_reducible apply holdSwaps_keeps | with_reducible apply raise_keeps | with_reducible apply setPassState_keeps | with_reducible apply Keeps.ite | split

theorem protocolError_keeps {bb : Base} (s : State) (p : Nat) (h_s : Keeps bb s) (hqr : ¬ bb.q.regs := by assumption) (hqp : ¬ bb.q.phase := by assumption) : Keeps bb (protocolError s p) := by
  unfold protocolError
  repeat' first | with_reducible assumption | intro _ | with_reducible apply State.count1_keeps | with_reducible apply enterRecovery_keeps | with_reducible apply raise_keeps

theorem holdPort_keeps {bb : Base} (s : State) (p : Nat) (reason : Nat) (h_s : Keeps bb s) (hqr : ¬ bb.q.regs := by assumption) : Keeps bb (holdPort s p reason) := by
  unfold holdPort
  repeat' first | with_reducible assumption | intro _ | with_reducible apply passGoDown_keeps

end Sys2Proof.Machine
end

