-- ==== Sys2Proof/Laws/Keeps/LaneOps.lean ====
section
/-! SUPPORT. Every operation and meaning of Machine/LaneOps.lean keeps what `Keeps` says. -/
set_option linter.all false
namespace Sys2Proof.Machine

theorem setReserve_keeps {bb : Base} (s : State) (g : Nat) (st : Nat) (y : Nat) (h_s : Keeps bb s) (hqr : ¬ bb.q.regs := by assumption) : Keeps bb (setReserve s g st y) := by
  unfold setReserve
  repeat' first | with_reducible assumption | intro _ | with_reducible apply State.setRegBits_keeps

theorem countReserves_keeps {bb : Base} (s : State) (h_s : Keeps bb s) (hqr : ¬ bb.q.regs := by assumption) (hqp : ¬ bb.q.phase := by assumption) : Keeps bb (countReserves s) := by
  unfold countReserves
  repeat' first | with_reducible assumption | intro _ | (extract_lets +onlyGivenNames z; refine (fun (hz : Keeps bb z) => ?_) ?_; clear_value z; revert z; intro _ _; rotate_left; unfold z; clear z; rotate_left) | (extract_lets +onlyGivenNames z; refine (fun (hz : Keeps bb z.1) => ?_) ?_; clear_value z; revert z; intro _ _; rotate_left; unfold z; clear z; rotate_left) | (extract_lets +onlyGivenNames z; refine (fun (hz : Keeps bb z) => ?_) ?_; revert z; intro _ _; rotate_left; unfold z; clear z; rotate_left) | (extract_lets +onlyGivenNames z; revert z; intro _) | with_reducible apply State.setReg_keeps | with_reducible apply report_keeps | split

theorem letTrain_keeps {bb : Base} (s : State) (p : Nat) (h_s : Keeps bb s) (hqr : ¬ bb.q.regs := by assumption) : Keeps bb (letTrain s p) := by
  unfold letTrain
  repeat' first | with_reducible assumption | intro _ | (simp only [Keeps.mk_iff]; with_reducible apply Keeps.upd) | with_reducible apply State.arm_keeps | with_reducible apply setPassState_keeps | with_reducible apply Keeps.ite | split

theorem loadTraining_keeps {bb : Base} (s : State) (lane : Nat) (t : Training) (h_s : Keeps bb s) (hqr : ¬ bb.q.regs := by assumption) : Keeps bb (loadTraining s lane t) := by
  unfold loadTraining
  repeat' first | with_reducible assumption | intro _ | (extract_lets +onlyGivenNames z; refine (fun (hz : Keeps bb z) => ?_) ?_; clear_value z; revert z; intro _ _; rotate_left; unfold z; clear z; rotate_left) | (extract_lets +onlyGivenNames z; refine (fun (hz : Keeps bb z.1) => ?_) ?_; clear_value z; revert z; intro _ _; rotate_left; unfold z; clear z; rotate_left) | (extract_lets +onlyGivenNames z; refine (fun (hz : Keeps bb z) => ?_) ?_; revert z; intro _ _; rotate_left; unfold z; clear z; rotate_left) | (extract_lets +onlyGivenNames z; revert z; intro _) | with_reducible apply State.setReg_keeps | with_reducible apply State.setRegBits_keeps | with_reducible apply Keeps.ite | split

theorem armAdaptation_keeps {bb : Base} (s : State) (lane : Nat) (h_s : Keeps bb s)  : Keeps bb (armAdaptation s lane) := by
  unfold armAdaptation
  repeat' first | with_reducible assumption | intro _ | (simp only [Keeps.mk_iff]; with_reducible apply Keeps.upd) | with_reducible apply State.arm_keeps

theorem captureTraining_keeps {bb : Base} (s : State) (lane : Nat) (t : Training) (h_s : Keeps bb s) (hqr : ¬ bb.q.regs := by assumption) : Keeps bb (captureTraining s lane t) := by
  unfold captureTraining
  repeat' first | with_reducible assumption | intro _ | (extract_lets +onlyGivenNames z; refine (fun (hz : Keeps bb z) => ?_) ?_; clear_value z; revert z; intro _ _; rotate_left; unfold z; clear z; rotate_left) | (extract_lets +onlyGivenNames z; refine (fun (hz : Keeps bb z.1) => ?_) ?_; clear_value z; revert z; intro _ _; rotate_left; unfold z; clear z; rotate_left) | (extract_lets +onlyGivenNames z; refine (fun (hz : Keeps bb z) => ?_) ?_; revert z; intro _ _; rotate_left; unfold z; clear z; rotate_left) | (extract_lets +onlyGivenNames z; revert z; intro _) | (simp only [Keeps.mk_iff]; with_reducible apply Keeps.upd) | with_reducible apply State.arm_keeps | with_reducible apply armAdaptation_keeps | with_reducible apply loadTraining_keeps | with_reducible apply Keeps.ite | split

theorem trainLane_keeps {bb : Base} (s : State) (lane : Nat) (ffe : Option Nat) (h_s : Keeps bb s) (hqr : ¬ bb.q.regs := by assumption) : Keeps bb (trainLane s lane ffe) := by
  unfold trainLane
  repeat' first | with_reducible assumption | intro _ | with_reducible apply State.useFree_keeps | with_reducible apply captureTraining_keeps

theorem resumeSwaps_keeps {bb : Base} (s : State) (p : Nat) (h_s : Keeps bb s) (hqr : ¬ bb.q.regs := by assumption) : Keeps bb (resumeSwaps s p) := by
  unfold resumeSwaps
  repeat' first | with_reducible assumption | intro _ | (extract_lets +onlyGivenNames z; refine (fun (hz : Keeps bb z) => ?_) ?_; clear_value z; revert z; intro _ _; rotate_left; unfold z; clear z; rotate_left) | (extract_lets +onlyGivenNames z; refine (fun (hz : Keeps bb z.1) => ?_) ?_; clear_value z; revert z; intro _ _; rotate_left; unfold z; clear z; rotate_left) | (extract_lets +onlyGivenNames z; refine (fun (hz : Keeps bb z) => ?_) ?_; revert z; intro _ _; rotate_left; unfold z; clear z; rotate_left) | (extract_lets +onlyGivenNames z; revert z; intro _) | (simp only [Keeps.mk_iff]; with_reducible apply Keeps.upd) | with_reducible apply State.arm_keeps | with_reducible apply setReserve_keeps | with_reducible apply Keeps.ite | split

theorem settleFor_keeps {bb : Base} (s : State) (a : Nat) (e : Nat) (h_s : Keeps bb s) (hqr : ¬ bb.q.regs := by assumption) : Keeps bb (settleFor s a e) := by
  unfold settleFor
  repeat' first | with_reducible assumption | intro _ | with_reducible apply settleFull_keeps | with_reducible apply settlePrbs_keeps | with_reducible apply settleShaped_keeps | with_reducible apply settleWaits_keeps | with_reducible apply Keeps.ite | split

theorem settleAll_keeps {bb : Base} (s : State) (h_s : Keeps bb s) (hqr : ¬ bb.q.regs := by assumption) : Keeps bb (settleAll s) := by
  unfold settleAll
  repeat' first | with_reducible assumption | intro _ | (extract_lets +onlyGivenNames z; refine (fun (hz : Keeps bb z) => ?_) ?_; clear_value z; revert z; intro _ _; rotate_left; unfold z; clear z; rotate_left) | (extract_lets +onlyGivenNames z; refine (fun (hz : Keeps bb z.1) => ?_) ?_; clear_value z; revert z; intro _ _; rotate_left; unfold z; clear z; rotate_left) | (extract_lets +onlyGivenNames z; refine (fun (hz : Keeps bb z) => ?_) ?_; revert z; intro _ _; rotate_left; unfold z; clear z; rotate_left) | (extract_lets +onlyGivenNames z; revert z; intro _) | with_reducible apply Keeps.forEach | with_reducible apply settleFull_keeps | with_reducible apply settlePrbs_keeps | with_reducible apply settleShaped_keeps | with_reducible apply settleWaits_keeps

end Sys2Proof.Machine
end

