-- ==== Sys2Proof/Laws/Keeps/Pass.lean ====
section
/-! SUPPORT. Every operation and meaning of Machine/Pass.lean keeps what `Keeps` says. -/
set_option linter.all false
set_option Elab.async false
namespace Sys2Proof.Machine

theorem sentBlocks_keeps {bb : Base} (s : State) (p : Nat) (n : Nat) (h_s : Keeps bb s)  : Keeps bb (sentBlocks s p n) := by
  unfold sentBlocks
  repeat' first | with_reducible assumption | intro _ | (extract_lets +onlyGivenNames z; refine (fun (hz : Keeps bb z) => ?_) ?_; clear_value z; revert z; intro _ _; rotate_left; unfold z; clear z; rotate_left) | (extract_lets +onlyGivenNames z; refine (fun (hz : Keeps bb z.1) => ?_) ?_; clear_value z; revert z; intro _ _; rotate_left; unfold z; clear z; rotate_left) | (extract_lets +onlyGivenNames z; refine (fun (hz : Keeps bb z) => ?_) ?_; revert z; intro _ _; rotate_left; unfold z; clear z; rotate_left) | (extract_lets +onlyGivenNames z; revert z; intro _) | (simp only [Keeps.mk_iff]; with_reducible apply Keeps.upd) | with_reducible apply State.emit_keeps | with_reducible apply State.setPass_keeps | with_reducible apply Keeps.ite | split

theorem receivedBlocks_keeps {bb : Base} (s : State) (p : Nat) (n : Nat) (h_s : Keeps bb s)  : Keeps bb (receivedBlocks s p n) := by
  unfold receivedBlocks
  repeat' first | with_reducible assumption | intro _ | (extract_lets +onlyGivenNames z; refine (fun (hz : Keeps bb z) => ?_) ?_; clear_value z; revert z; intro _ _; rotate_left; unfold z; clear z; rotate_left) | (extract_lets +onlyGivenNames z; refine (fun (hz : Keeps bb z.1) => ?_) ?_; clear_value z; revert z; intro _ _; rotate_left; unfold z; clear z; rotate_left) | (extract_lets +onlyGivenNames z; refine (fun (hz : Keeps bb z) => ?_) ?_; revert z; intro _ _; rotate_left; unfold z; clear z; rotate_left) | (extract_lets +onlyGivenNames z; revert z; intro _) | (simp only [Keeps.mk_iff]; with_reducible apply Keeps.upd) | with_reducible apply State.setPass_keeps | with_reducible apply Keeps.ite | split

theorem sendFlit_keeps {bb : Base} (s : State) (p : Nat) (ftype : Nat) (seq : Nat) (replayed : Bool) (slots : List Slot) (h_s : Keeps bb s)  : Keeps bb (sendFlit s p ftype seq replayed slots) := by
  unfold sendFlit
  repeat' first | with_reducible assumption | intro _ | (extract_lets +onlyGivenNames z; refine (fun (hz : Keeps bb z) => ?_) ?_; clear_value z; revert z; intro _ _; rotate_left; unfold z; clear z; rotate_left) | (extract_lets +onlyGivenNames z; refine (fun (hz : Keeps bb z.1) => ?_) ?_; clear_value z; revert z; intro _ _; rotate_left; unfold z; clear z; rotate_left) | (extract_lets +onlyGivenNames z; refine (fun (hz : Keeps bb z) => ?_) ?_; revert z; intro _ _; rotate_left; unfold z; clear z; rotate_left) | (extract_lets +onlyGivenNames z; revert z; intro _) | (simp only [Keeps.mk_iff]; with_reducible apply Keeps.upd) | with_reducible apply State.emit_keeps | with_reducible apply State.setPass_keeps | with_reducible apply sentBlocks_keeps | with_reducible apply Keeps.ite | split

theorem sendIdle_keeps {bb : Base} (s : State) (p : Nat) (h_s : Keeps bb s) (hqr : ¬ bb.q.regs := by assumption) : Keeps bb (sendIdle s p) := by
  unfold sendIdle
  repeat' first | with_reducible assumption | intro _ | with_reducible apply State.count1_keeps | with_reducible apply sendFlit_keeps

theorem buildData_keeps {bb : Base} (s : State) (p : Nat) (h_s : Keeps bb s) (hqr : ¬ bb.q.regs := by assumption) : Keeps bb (buildData s p) := by
  unfold buildData
  repeat' first | with_reducible assumption | intro _ | (extract_lets +onlyGivenNames z; refine (fun (hz : Keeps bb z) => ?_) ?_; clear_value z; revert z; intro _ _; rotate_left; unfold z; clear z; rotate_left) | (extract_lets +onlyGivenNames z; refine (fun (hz : Keeps bb z.1) => ?_) ?_; clear_value z; revert z; intro _ _; rotate_left; unfold z; clear z; rotate_left) | (extract_lets +onlyGivenNames z; refine (fun (hz : Keeps bb z) => ?_) ?_; revert z; intro _ _; rotate_left; unfold z; clear z; rotate_left) | (extract_lets +onlyGivenNames z; revert z; intro _) | (simp only [Keeps.mk_iff]; with_reducible apply Keeps.upd) | with_reducible apply State.arm_keeps | with_reducible apply State.count1_keeps | with_reducible apply State.setPass_keeps | with_reducible apply State.setRegBits_keeps | with_reducible apply sendFlit_keeps | with_reducible apply setOutstanding_keeps | with_reducible apply setTxMode_keeps | with_reducible apply Keeps.ite | split

theorem passOn_keeps {bb : Base} (s : State) (p : Nat) (ptr : Nat) (h_s : Keeps bb s) (hqr : ¬ bb.q.regs := by assumption) : Keeps bb (passOn s p ptr) := by
  unfold passOn
  repeat' first | with_reducible assumption | intro _ | (extract_lets +onlyGivenNames z; refine (fun (hz : Keeps bb z) => ?_) ?_; clear_value z; revert z; intro _ _; rotate_left; unfold z; clear z; rotate_left) | (extract_lets +onlyGivenNames z; refine (fun (hz : Keeps bb z.1) => ?_) ?_; clear_value z; revert z; intro _ _; rotate_left; unfold z; clear z; rotate_left) | (extract_lets +onlyGivenNames z; refine (fun (hz : Keeps bb z) => ?_) ?_; revert z; intro _ _; rotate_left; unfold z; clear z; rotate_left) | (extract_lets +onlyGivenNames z; revert z; intro _) | with_reducible apply State.setRegBits_keeps | with_reducible apply setTxMode_keeps | with_reducible apply Keeps.ite | split

theorem resend_keeps {bb : Base} (s : State) (p : Nat) (h_s : Keeps bb s) (hqr : ¬ bb.q.regs := by assumption) : Keeps bb (resend s p) := by
  unfold resend
  repeat' first | with_reducible assumption | intro _ | with_reducible apply State.count1_keeps | with_reducible apply passOn_keeps | with_reducible apply sendFlit_keeps | with_reducible apply sendIdle_keeps | split

theorem transmitFlit_keeps {bb : Base} (s : State) (p : Nat) (h_s : Keeps bb s) (hqr : ¬ bb.q.regs := by assumption) : Keeps bb (transmitFlit s p) := by
  unfold transmitFlit
  repeat' first | with_reducible assumption | intro _ | with_reducible apply buildData_keeps | with_reducible apply resend_keeps | with_reducible apply sendIdle_keeps | with_reducible apply Keeps.ite | split

theorem advanceAck_keeps {bb : Base} (s : State) (p : Nat) (h_s : Keeps bb s) (hqr : ¬ bb.q.regs := by assumption) : Keeps bb (advanceAck s p) := by
  unfold advanceAck
  repeat' first | with_reducible assumption | intro _ | (simp only [Keeps.mk_iff]; with_reducible apply Keeps.upd) | with_reducible apply State.disarm_keeps | with_reducible apply State.setRegBits_keeps

theorem enterWait_keeps {bb : Base} (s : State) (p : Nat) (h_s : Keeps bb s) (hqr : ¬ bb.q.regs := by assumption) : Keeps bb (enterWait s p) := by
  unfold enterWait
  repeat' first | with_reducible assumption | intro _ | (extract_lets +onlyGivenNames z; refine (fun (hz : Keeps bb z) => ?_) ?_; clear_value z; revert z; intro _ _; rotate_left; unfold z; clear z; rotate_left) | (extract_lets +onlyGivenNames z; refine (fun (hz : Keeps bb z.1) => ?_) ?_; clear_value z; revert z; intro _ _; rotate_left; unfold z; clear z; rotate_left) | (extract_lets +onlyGivenNames z; refine (fun (hz : Keeps bb z) => ?_) ?_; revert z; intro _ _; rotate_left; unfold z; clear z; rotate_left) | (extract_lets +onlyGivenNames z; revert z; intro _) | (simp only [Keeps.mk_iff]; with_reducible apply Keeps.upd) | with_reducible apply State.putRegBit_keeps | with_reducible apply State.setPass_keeps | with_reducible apply advanceAck_keeps

theorem acceptFlit_keeps {bb : Base} (s : State) (p : Nat) (h_s : Keeps bb s) (hqr : ¬ bb.q.regs := by assumption) : Keeps bb (acceptFlit s p) := by
  unfold acceptFlit
  repeat' first | with_reducible assumption | intro _ | (extract_lets +onlyGivenNames z; refine (fun (hz : Keeps bb z) => ?_) ?_; clear_value z; revert z; intro _ _; rotate_left; unfold z; clear z; rotate_left) | (extract_lets +onlyGivenNames z; refine (fun (hz : Keeps bb z.1) => ?_) ?_; clear_value z; revert z; intro _ _; rotate_left; unfold z; clear z; rotate_left) | (extract_lets +onlyGivenNames z; refine (fun (hz : Keeps bb z) => ?_) ?_; revert z; intro _ _; rotate_left; unfold z; clear z; rotate_left) | (extract_lets +onlyGivenNames z; revert z; intro _) | (simp only [Keeps.mk_iff]; with_reducible apply Keeps.upd) | with_reducible apply State.arm_keeps | with_reducible apply State.count1_keeps | with_reducible apply State.putRegBit_keeps | with_reducible apply State.setRegBits_keeps | with_reducible apply advanceAck_keeps | with_reducible apply Keeps.ite | split

theorem freeAcked_keeps {bb : Base} (s : State) (p : Nat) (a : Nat) (d : Nat) (h_s : Keeps bb s) (hqr : ¬ bb.q.regs := by assumption) : Keeps bb (freeAcked s p a d) := by
  unfold freeAcked
  repeat' first | with_reducible assumption | intro _ | (extract_lets +onlyGivenNames z; refine (fun (hz : Keeps bb z) => ?_) ?_; clear_value z; revert z; intro _ _; rotate_left; unfold z; clear z; rotate_left) | (extract_lets +onlyGivenNames z; refine (fun (hz : Keeps bb z.1) => ?_) ?_; clear_value z; revert z; intro _ _; rotate_left; unfold z; clear z; rotate_left) | (extract_lets +onlyGivenNames z; refine (fun (hz : Keeps bb z) => ?_) ?_; revert z; intro _ _; rotate_left; unfold z; clear z; rotate_left) | (extract_lets +onlyGivenNames z; revert z; intro _) | (simp only [Keeps.mk_iff]; with_reducible apply Keeps.upd) | with_reducible apply State.arm_keeps | with_reducible apply State.disarm_keeps | with_reducible apply State.setPass_keeps | with_reducible apply State.setRegBits_keeps | with_reducible apply passOn_keeps | with_reducible apply setOutstanding_keeps | with_reducible apply setTxMode_keeps | with_reducible apply Keeps.ite | split

theorem takeAck_keeps {bb : Base} (s : State) (p : Nat) (a : Nat) (h_s : Keeps bb s) (hqr : ¬ bb.q.regs := by assumption) : KeepsO bb (takeAck s p a) := by
  unfold takeAck
  repeat' first | with_reducible assumption | intro _ | (extract_lets +onlyGivenNames z; refine (fun (hz : Keeps bb z) => ?_) ?_; clear_value z; revert z; intro _ _; rotate_left; unfold z; clear z; rotate_left) | (extract_lets +onlyGivenNames z; refine (fun (hz : Keeps bb z.1) => ?_) ?_; clear_value z; revert z; intro _ _; rotate_left; unfold z; clear z; rotate_left) | (extract_lets +onlyGivenNames z; refine (fun (hz : Keeps bb z) => ?_) ?_; revert z; intro _ _; rotate_left; unfold z; clear z; rotate_left) | (extract_lets +onlyGivenNames z; revert z; intro _) | with_reducible apply KeepsO.none | with_reducible apply KeepsO.some | with_reducible apply freeAcked_keeps | intro _ | with_reducible apply Keeps.ite | split

theorem takeCredits_keeps {bb : Base} (s : State) (p : Nat) (req : Nat) (rsp : Nat) (h_s : Keeps bb s)  : KeepsO bb (takeCredits s p req rsp) := by
  unfold takeCredits
  repeat' first | with_reducible assumption | intro _ | (extract_lets +onlyGivenNames z; refine (fun (hz : Keeps bb z) => ?_) ?_; clear_value z; revert z; intro _ _; rotate_left; unfold z; clear z; rotate_left) | (extract_lets +onlyGivenNames z; refine (fun (hz : Keeps bb z.1) => ?_) ?_; clear_value z; revert z; intro _ _; rotate_left; unfold z; clear z; rotate_left) | (extract_lets +onlyGivenNames z; refine (fun (hz : Keeps bb z) => ?_) ?_; revert z; intro _ _; rotate_left; unfold z; clear z; rotate_left) | (extract_lets +onlyGivenNames z; revert z; intro _) | (simp only [Keeps.mk_iff]; with_reducible apply Keeps.upd) | with_reducible apply KeepsO.none | with_reducible apply KeepsO.some | with_reducible apply State.setPass_keeps | intro _ | with_reducible apply Keeps.ite | split

theorem requestedPass_keeps {bb : Base} (s : State) (p : Nat) (h_s : Keeps bb s) (hqr : ¬ bb.q.regs := by assumption) (hqp : ¬ bb.q.phase := by assumption) : Keeps bb (requestedPass s p) := by
  unfold requestedPass
  repeat' first | with_reducible assumption | intro _ | with_reducible apply State.count1_keeps | with_reducible apply raise_keeps | with_reducible apply startPass_keeps

theorem takeReplayReq_keeps {bb : Base} (s : State) (p : Nat) (h_s : Keeps bb s) (hqr : ¬ bb.q.regs := by assumption) (hqp : ¬ bb.q.phase := by assumption) : Keeps bb (takeReplayReq s p) := by
  unfold takeReplayReq
  repeat' first | with_reducible assumption | intro _ | with_reducible apply requestedPass_keeps | with_reducible apply Keeps.ite | split

theorem feedSlot_keeps {bb : Base} (s : State) (p : Nat) (kind : Nat) (data : List Byte) (h_s : Keeps bb s)  : KeepsO bb (feedSlot s p kind data) := by
  unfold feedSlot
  repeat' first | with_reducible assumption | intro _ | (extract_lets +onlyGivenNames z; refine (fun (hz : Keeps bb z) => ?_) ?_; clear_value z; revert z; intro _ _; rotate_left; unfold z; clear z; rotate_left) | (extract_lets +onlyGivenNames z; refine (fun (hz : Keeps bb z.1) => ?_) ?_; clear_value z; revert z; intro _ _; rotate_left; unfold z; clear z; rotate_left) | (extract_lets +onlyGivenNames z; refine (fun (hz : Keeps bb z) => ?_) ?_; revert z; intro _ _; rotate_left; unfold z; clear z; rotate_left) | (extract_lets +onlyGivenNames z; revert z; intro _) | (simp only [Keeps.mk_iff]; with_reducible apply Keeps.upd) | with_reducible apply KeepsO.none | with_reducible apply KeepsO.some | with_reducible apply State.setPass_keeps | intro _ | with_reducible apply Keeps.ite | split

theorem feedSlots_keeps {base : Base} (s : State) (p kinds : Nat) (body : List Byte) (l : List Nat) (h_s : Keeps base s) (hqr : ¬ base.q.regs := by assumption) (hqp : ¬ base.q.phase := by assumption) :
    Keeps base (feedSlots s p kinds body l) := by
  induction l generalizing s with
  | nil => exact h_s
  | cons i l ih =>
    unfold feedSlots
    split
    · rename_i t ht; exact ih t ((feedSlot_keeps _ _ _ _ h_s).get t ht)
    · exact protocolError_keeps _ _ h_s

theorem classify_keeps {bb : Base} (s : State) (p : Nat) (ftype : Nat) (seq : Nat) (kinds : Nat) (body : List Byte) (h_s : Keeps bb s) (hqr : ¬ bb.q.regs := by assumption) (hqp : ¬ bb.q.phase := by assumption) : Keeps bb (classify s p ftype seq kinds body) := by
  unfold classify
  repeat' first | with_reducible assumption | intro _ | (extract_lets +onlyGivenNames z; refine (fun (hz : Keeps bb z) => ?_) ?_; clear_value z; revert z; intro _ _; rotate_left; unfold z; clear z; rotate_left) | (extract_lets +onlyGivenNames z; refine (fun (hz : Keeps bb z.1) => ?_) ?_; clear_value z; revert z; intro _ _; rotate_left; unfold z; clear z; rotate_left) | (extract_lets +onlyGivenNames z; refine (fun (hz : Keeps bb z) => ?_) ?_; revert z; intro _ _; rotate_left; unfold z; clear z; rotate_left) | (extract_lets +onlyGivenNames z; revert z; intro _) | with_reducible apply State.count1_keeps | with_reducible apply State.putRegBit_keeps | with_reducible apply acceptFlit_keeps | with_reducible apply enterWait_keeps | with_reducible apply feedSlots_keeps | with_reducible apply protocolError_keeps | with_reducible apply Keeps.ite | split

theorem takeLinkCmd_keeps {bb : Base} (s : State) (p : Nat) (cmd : Nat) (h_s : Keeps bb s) (hqr : ¬ bb.q.regs := by assumption) (hqp : ¬ bb.q.phase := by assumption) : Keeps bb (takeLinkCmd s p cmd) := by
  unfold takeLinkCmd
  repeat' first | with_reducible assumption | intro _ | with_reducible apply enterRecovery_keeps | with_reducible apply passLinkDown_keeps | with_reducible apply setPassReason_keeps | with_reducible apply Keeps.ite | split

theorem goodFlit_keeps {base : Base} (s : State) (p : Nat) (bs : List Byte) (h_s : Keeps base s) (hqr : ¬ base.q.regs := by assumption) (hqp : ¬ base.q.phase := by assumption) : Keeps base (goodFlit s p bs) := by
  unfold goodFlit
  dsimp only
  refine Keeps.ite (protocolError_keeps _ _ h_s) ?_
  split
  · exact protocolError_keeps _ _ h_s
  · rename_i s1 h1
    have k1 := (takeAck_keeps _ _ _ h_s).get s1 h1
    split
    · exact protocolError_keeps _ _ k1
    · rename_i s2 h2
      have k2 := (takeCredits_keeps _ _ _ _ k1).get s2 h2
      exact takeLinkCmd_keeps _ _ _ (classify_keeps _ _ _ _ _ _ (Keeps.ite (takeReplayReq_keeps _ _ k2) k2))

theorem badFlit_keeps {bb : Base} (s : State) (a : Nat) (p : Nat) (h_s : Keeps bb s) (hqr : ¬ bb.q.regs := by assumption) (hqp : ¬ bb.q.phase := by assumption) : Keeps bb (badFlit s a p) := by
  unfold badFlit
  repeat' first | with_reducible assumption | intro _ | with_reducible apply State.count1_keeps | with_reducible apply raise_keeps

theorem takeFlit_keeps {bb : Base} (s : State) (p : Nat) (raw : List Byte) (h_s : Keeps bb s) (hqr : ¬ bb.q.regs := by assumption) (hqp : ¬ bb.q.phase := by assumption) : Keeps bb (takeFlit s p raw) := by
  unfold takeFlit
  repeat' first | with_reducible assumption | intro _ | (extract_lets +onlyGivenNames z; refine (fun (hz : Keeps bb z) => ?_) ?_; clear_value z; revert z; intro _ _; rotate_left; unfold z; clear z; rotate_left) | (extract_lets +onlyGivenNames z; refine (fun (hz : Keeps bb z.1) => ?_) ?_; clear_value z; revert z; intro _ _; rotate_left; unfold z; clear z; rotate_left) | (extract_lets +onlyGivenNames z; refine (fun (hz : Keeps bb z) => ?_) ?_; revert z; intro _ _; rotate_left; unfold z; clear z; rotate_left) | (extract_lets +onlyGivenNames z; revert z; intro _) | with_reducible apply State.count_keeps | with_reducible apply State.count1_keeps | with_reducible apply badFlit_keeps | with_reducible apply goodFlit_keeps | with_reducible apply Keeps.foldl | with_reducible apply Keeps.ite | split

theorem execFlitRx_moves {qm qf : Prop} (dt : Nat) (port : Nat) (lanes : List (List Level)) (s : State) : Moves ⟨qm, qf, False, False⟩ dt s (execFlitRx dt port lanes s) := by
  unfold execFlitRx
  refine run_moves ?_
  intro bb s hb h_s
  have hqr : ¬ bb.q.regs := by rw [hb]; exact id
  have hqp : ¬ bb.q.phase := by rw [hb]; exact id
  try dsimp -zeta only
  repeat' first | with_reducible assumption | intro _ | with_reducible apply receivedBlocks_keeps | with_reducible apply run_keeps | with_reducible apply takeFlit_keeps | with_reducible apply Keeps.ite | split

theorem execAckTimer_moves {qm qf qp : Prop} (dt : Nat) (port : Nat) (s : State) : Moves ⟨qm, qf, False, qp⟩ dt s (execAckTimer dt port s) := by
  unfold execAckTimer
  refine run_moves ?_
  intro bb s hb h_s
  have hqr : ¬ bb.q.regs := by rw [hb]; exact id
  try dsimp -zeta only
  repeat' first | with_reducible assumption | intro _ | (simp only [Keeps.mk_iff]; with_reducible apply Keeps.upd) | with_reducible apply State.onDue_keeps | with_reducible apply advanceAck_keeps | with_reducible apply run_keeps

theorem replayExpired_keeps {bb : Base} (s : State) (p : Nat) (h_s : Keeps bb s) (hqr : ¬ bb.q.regs := by assumption) (hqp : ¬ bb.q.phase := by assumption) : Keeps bb (replayExpired s p) := by
  unfold replayExpired
  repeat' first | with_reducible assumption | intro _ | (extract_lets +onlyGivenNames z; refine (fun (hz : Keeps bb z) => ?_) ?_; clear_value z; revert z; intro _ _; rotate_left; unfold z; clear z; rotate_left) | (extract_lets +onlyGivenNames z; refine (fun (hz : Keeps bb z.1) => ?_) ?_; clear_value z; revert z; intro _ _; rotate_left; unfold z; clear z; rotate_left) | (extract_lets +onlyGivenNames z; refine (fun (hz : Keeps bb z) => ?_) ?_; revert z; intro _ _; rotate_left; unfold z; clear z; rotate_left) | (extract_lets +onlyGivenNames z; revert z; intro _) | (simp only [Keeps.mk_iff]; with_reducible apply Keeps.upd) | with_reducible apply State.arm_keeps | with_reducible apply State.count1_keeps | with_reducible apply State.setRegBits_keeps | with_reducible apply protocolError_keeps | with_reducible apply raise_keeps | with_reducible apply startPass_keeps | with_reducible apply Keeps.ite | split

theorem execReplayTimer_moves {qm qf : Prop} (dt : Nat) (port : Nat) (s : State) : Moves ⟨qm, qf, False, False⟩ dt s (execReplayTimer dt port s) := by
  unfold execReplayTimer
  refine run_moves ?_
  intro bb s hb h_s
  have hqr : ¬ bb.q.regs := by rw [hb]; exact id
  have hqp : ¬ bb.q.phase := by rw [hb]; exact id
  try dsimp -zeta only
  repeat' first | with_reducible assumption | intro _ | (simp only [Keeps.mk_iff]; with_reducible apply Keeps.upd) | with_reducible apply State.onDue_keeps | with_reducible apply replayExpired_keeps | with_reducible apply run_keeps

theorem execReplayBufferUe_moves {qm qf : Prop} (dt : Nat) (port : Nat) (s : State) : Moves ⟨qm, qf, False, False⟩ dt s (execReplayBufferUe dt port s) := by
  unfold execReplayBufferUe
  refine run_moves ?_
  intro bb s hb h_s
  have hqr : ¬ bb.q.regs := by rw [hb]; exact id
  have hqp : ¬ bb.q.phase := by rw [hb]; exact id
  try dsimp -zeta only
  repeat' first | with_reducible assumption | intro _ | with_reducible apply passGoDown_keeps | with_reducible apply raise_keeps | with_reducible apply run_keeps | with_reducible apply Keeps.ite | split

end Sys2Proof.Machine
end

