-- ==== Sys2Proof/Laws/Keeps/PassTrain.lean ====
section
/-! SUPPORT. Every operation and meaning of Machine/PassTrain.lean keeps what `Keeps` says. -/
set_option linter.all false
set_option Elab.async false
namespace Sys2Proof.Machine

theorem execReceiverDetect_moves {qm qf qp : Prop} (dt : Nat) (port : Nat) (s : State) : Moves ⟨qm, qf, False, qp⟩ dt s (execReceiverDetect dt port s) := by
  unfold execReceiverDetect
  refine run_moves ?_
  intro bb s hb h_s
  have hqr : ¬ bb.q.regs := by rw [hb]; exact id
  try dsimp -zeta only
  repeat' first | with_reducible assumption | intro _ | (extract_lets +onlyGivenNames z; refine (fun (hz : Keeps bb z) => ?_) ?_; clear_value z; revert z; intro _ _; rotate_left; unfold z; clear z; rotate_left) | (extract_lets +onlyGivenNames z; refine (fun (hz : Keeps bb z.1) => ?_) ?_; clear_value z; revert z; intro _ _; rotate_left; unfold z; clear z; rotate_left) | (extract_lets +onlyGivenNames z; refine (fun (hz : Keeps bb z) => ?_) ?_; revert z; intro _ _; rotate_left; unfold z; clear z; rotate_left) | (extract_lets +onlyGivenNames z; revert z; intro _) | (simp only [Keeps.mk_iff]; with_reducible apply Keeps.upd) | (simp only [Keeps.mk_iff]; with_reducible apply Keeps.updPhase) | with_reducible apply State.arm_keeps | with_reducible apply State.disarm_keeps | with_reducible apply State.putRegBit_keeps | with_reducible apply State.setPass_keeps | with_reducible apply holdSwaps_keeps | with_reducible apply run_keeps | with_reducible apply setPassState_keeps | with_reducible apply Keeps.ite | split

theorem execDetectTimeout_moves {qm qf qr qp : Prop} (dt : Nat) (port : Nat) (s : State) : Moves ⟨qm, qf, qr, qp⟩ dt s (execDetectTimeout dt port s) := by
  unfold execDetectTimeout
  refine run_moves ?_
  intro bb s hb h_s
  try dsimp -zeta only
  repeat' first | with_reducible assumption | intro _ | (simp only [Keeps.mk_iff]; with_reducible apply Keeps.upd) | with_reducible apply State.arm_keeps | with_reducible apply State.onDue_keeps | with_reducible apply run_keeps | with_reducible apply Keeps.ite | split

theorem sendFrames_keeps {bb : Base} (s : State) (p : Nat) (phase : Nat) (lanes : List (Nat × LaneTrain)) (h_s : Keeps bb s)  : Keeps bb (sendFrames s p phase lanes) := by
  unfold sendFrames
  repeat' first | with_reducible assumption | intro _ | (extract_lets +onlyGivenNames z; refine (fun (hz : Keeps bb z) => ?_) ?_; clear_value z; revert z; intro _ _; rotate_left; unfold z; clear z; rotate_left) | (extract_lets +onlyGivenNames z; refine (fun (hz : Keeps bb z.1) => ?_) ?_; clear_value z; revert z; intro _ _; rotate_left; unfold z; clear z; rotate_left) | (extract_lets +onlyGivenNames z; refine (fun (hz : Keeps bb z) => ?_) ?_; revert z; intro _ _; rotate_left; unfold z; clear z; rotate_left) | (extract_lets +onlyGivenNames z; revert z; intro _) | (simp only [Keeps.mk_iff]; with_reducible apply Keeps.upd) | with_reducible apply State.emit_keeps | with_reducible apply State.setPass_keeps | with_reducible apply Keeps.forEach | with_reducible apply sentBlocks_keeps

theorem transmit_keeps {bb : Base} (s : State) (p : Nat) (h_s : Keeps bb s) (hqr : ¬ bb.q.regs := by assumption) : Keeps bb (transmit s p) := by
  unfold transmit
  repeat' first | with_reducible assumption | intro _ | (extract_lets +onlyGivenNames z; refine (fun (hz : Keeps bb z) => ?_) ?_; clear_value z; revert z; intro _ _; rotate_left; unfold z; clear z; rotate_left) | (extract_lets +onlyGivenNames z; refine (fun (hz : Keeps bb z.1) => ?_) ?_; clear_value z; revert z; intro _ _; rotate_left; unfold z; clear z; rotate_left) | (extract_lets +onlyGivenNames z; refine (fun (hz : Keeps bb z) => ?_) ?_; revert z; intro _ _; rotate_left; unfold z; clear z; rotate_left) | (extract_lets +onlyGivenNames z; revert z; intro _) | (simp only [Keeps.mk_iff]; with_reducible apply Keeps.upd) | with_reducible apply sendFrames_keeps | with_reducible apply sendIdle_keeps | with_reducible apply transmitFlit_keeps | with_reducible apply Keeps.ite | split

theorem execFlitTx_moves {qm qf qp : Prop} (dt : Nat) (port : Nat) (s : State) : Moves ⟨qm, qf, False, qp⟩ dt s (execFlitTx dt port s) := by
  unfold execFlitTx
  refine runPowered_moves ?_
  intro bb s hb h_s
  have hqr : ¬ bb.q.regs := by rw [hb]; exact id
  try dsimp -zeta only
  repeat' first | with_reducible assumption | intro _ | with_reducible apply runPowered_keeps | with_reducible apply sendIdle_keeps | with_reducible apply transmit_keeps | with_reducible apply Keeps.ite | split

theorem captureLanes_keeps {bb : Base} (s : State) (p : Nat) (h_s : Keeps bb s) (hqr : ¬ bb.q.regs := by assumption) : Keeps bb (captureLanes s p) := by
  unfold captureLanes
  repeat' first | with_reducible assumption | intro _ | (extract_lets +onlyGivenNames z; refine (fun (hz : Keeps bb z) => ?_) ?_; clear_value z; revert z; intro _ _; rotate_left; unfold z; clear z; rotate_left) | (extract_lets +onlyGivenNames z; refine (fun (hz : Keeps bb z.1) => ?_) ?_; clear_value z; revert z; intro _ _; rotate_left; unfold z; clear z; rotate_left) | (extract_lets +onlyGivenNames z; refine (fun (hz : Keeps bb z) => ?_) ?_; revert z; intro _ _; rotate_left; unfold z; clear z; rotate_left) | (extract_lets +onlyGivenNames z; revert z; intro _) | with_reducible apply State.setRegBits_keeps | with_reducible apply Keeps.forEach | with_reducible apply resumeSwaps_keeps | with_reducible apply trainLane_keeps | with_reducible apply Keeps.ite | split

theorem resumeUp_keeps {bb : Base} (s : State) (p : Nat) (h_s : Keeps bb s) (hqr : ¬ bb.q.regs := by assumption) : Keeps bb (resumeUp s p) := by
  unfold resumeUp
  repeat' first | with_reducible assumption | intro _ | (extract_lets +onlyGivenNames z; refine (fun (hz : Keeps bb z) => ?_) ?_; clear_value z; revert z; intro _ _; rotate_left; unfold z; clear z; rotate_left) | (extract_lets +onlyGivenNames z; refine (fun (hz : Keeps bb z.1) => ?_) ?_; clear_value z; revert z; intro _ _; rotate_left; unfold z; clear z; rotate_left) | (extract_lets +onlyGivenNames z; refine (fun (hz : Keeps bb z) => ?_) ?_; revert z; intro _ _; rotate_left; unfold z; clear z; rotate_left) | (extract_lets +onlyGivenNames z; revert z; intro _) | (simp only [Keeps.mk_iff]; with_reducible apply Keeps.upd) | with_reducible apply State.arm_keeps | with_reducible apply State.disarm_keeps | with_reducible apply State.setPass_keeps | with_reducible apply State.setRegBits_keeps | with_reducible apply resumeSwaps_keeps | with_reducible apply setPassState_keeps | with_reducible apply startPass_keeps | with_reducible apply Keeps.ite | split

theorem partnerReset_keeps {bb : Base} (s : State) (p : Nat) (h_s : Keeps bb s) (hqr : ¬ bb.q.regs := by assumption) (hqp : ¬ bb.q.phase := by assumption) : Keeps bb (partnerReset s p) := by
  unfold partnerReset
  repeat' first | with_reducible assumption | intro _ | (extract_lets +onlyGivenNames z; refine (fun (hz : Keeps bb z) => ?_) ?_; clear_value z; revert z; intro _ _; rotate_left; unfold z; clear z; rotate_left) | (extract_lets +onlyGivenNames z; refine (fun (hz : Keeps bb z.1) => ?_) ?_; clear_value z; revert z; intro _ _; rotate_left; unfold z; clear z; rotate_left) | (extract_lets +onlyGivenNames z; refine (fun (hz : Keeps bb z) => ?_) ?_; revert z; intro _ _; rotate_left; unfold z; clear z; rotate_left) | (extract_lets +onlyGivenNames z; revert z; intro _) | (simp only [Keeps.mk_iff]; with_reducible apply Keeps.upd) | with_reducible apply State.setPass_keeps | with_reducible apply enterConfig_keeps | with_reducible apply passLinkDown_keeps | with_reducible apply setPassReason_keeps

theorem endPhase_keeps {bb : Base} (s : State) (p : Nat) (h_s : Keeps bb s) (hqr : ¬ bb.q.regs := by assumption) (hqp : ¬ bb.q.phase := by assumption) : Keeps bb (endPhase s p) := by
  unfold endPhase
  repeat' first | with_reducible assumption | intro _ | (extract_lets +onlyGivenNames z; refine (fun (hz : Keeps bb z) => ?_) ?_; clear_value z; revert z; intro _ _; rotate_left; unfold z; clear z; rotate_left) | (extract_lets +onlyGivenNames z; refine (fun (hz : Keeps bb z.1) => ?_) ?_; clear_value z; revert z; intro _ _; rotate_left; unfold z; clear z; rotate_left) | (extract_lets +onlyGivenNames z; refine (fun (hz : Keeps bb z) => ?_) ?_; revert z; intro _ _; rotate_left; unfold z; clear z; rotate_left) | (extract_lets +onlyGivenNames z; revert z; intro _) | (simp only [Keeps.mk_iff]; with_reducible apply Keeps.upd) | with_reducible apply State.arm_keeps | with_reducible apply captureLanes_keeps | with_reducible apply enterConfig_keeps | with_reducible apply partnerReset_keeps | with_reducible apply resumeUp_keeps | with_reducible apply startPhase_keeps | with_reducible apply Keeps.ite | split

theorem frameEffect_keeps {bb : Base} (s : State) (p : Nat) (lane : Nat) (w : Nat) (inverted : Bool) (own : LaneReport) (h_s : Keeps bb s) (hqr : ¬ bb.q.regs := by assumption) (hqp : ¬ bb.q.phase := by assumption) : Keeps bb (frameEffect s p lane w inverted own) := by
  unfold frameEffect
  repeat' first | with_reducible assumption | intro _ | (extract_lets +onlyGivenNames z; refine (fun (hz : Keeps bb z) => ?_) ?_; clear_value z; revert z; intro _ _; rotate_left; unfold z; clear z; rotate_left) | (extract_lets +onlyGivenNames z; refine (fun (hz : Keeps bb z.1) => ?_) ?_; clear_value z; revert z; intro _ _; rotate_left; unfold z; clear z; rotate_left) | (extract_lets +onlyGivenNames z; refine (fun (hz : Keeps bb z) => ?_) ?_; revert z; intro _ _; rotate_left; unfold z; clear z; rotate_left) | (extract_lets +onlyGivenNames z; revert z; intro _) | (simp only [Keeps.mk_iff]; with_reducible apply Keeps.upd) | with_reducible apply Keeps.withState | with_reducible apply State.putRegBit_keeps | with_reducible apply State.setPass_keeps | with_reducible apply Keeps.withSome | with_reducible apply endPhase_keeps | with_reducible apply heardPartner_keeps | with_reducible apply receivedBlocks_keeps | with_reducible apply Keeps.ite | split

theorem execTrainingFrame_moves {qm qf : Prop} (dt : Nat) (port : Nat) (lane : Nat) (word : Nat) (inverted : Bool) (own : LaneReport) (s : State) : Moves ⟨qm, qf, False, False⟩ dt s (execTrainingFrame dt port lane word inverted own s) := by
  unfold execTrainingFrame
  refine run_moves ?_
  intro bb s hb h_s
  have hqr : ¬ bb.q.regs := by rw [hb]; exact id
  have hqp : ¬ bb.q.phase := by rw [hb]; exact id
  try dsimp -zeta only
  repeat' first | with_reducible assumption | intro _ | (simp only [Keeps.mk_iff]; with_reducible apply Keeps.upd) | with_reducible apply frameEffect_keeps | with_reducible apply run_keeps | with_reducible apply Keeps.ite | split

theorem execTrainingPhaseTimeout_moves {qm qf qp : Prop} (dt : Nat) (port : Nat) (s : State) : Moves ⟨qm, qf, False, qp⟩ dt s (execTrainingPhaseTimeout dt port s) := by
  unfold execTrainingPhaseTimeout
  refine run_moves ?_
  intro bb s hb h_s
  have hqr : ¬ bb.q.regs := by rw [hb]; exact id
  try dsimp -zeta only
  repeat' first | with_reducible assumption | intro _ | (simp only [Keeps.mk_iff]; with_reducible apply Keeps.upd) | with_reducible apply State.arm_keeps | with_reducible apply State.count1_keeps | with_reducible apply State.onDue_keeps | with_reducible apply run_keeps | with_reducible apply setPassReason_keeps | with_reducible apply Keeps.ite | split

theorem execTrainingIdleEnd_moves {qm qf qp : Prop} (dt : Nat) (port : Nat) (s : State) : Moves ⟨qm, qf, False, qp⟩ dt s (execTrainingIdleEnd dt port s) := by
  unfold execTrainingIdleEnd
  refine run_moves ?_
  intro bb s hb h_s
  have hqr : ¬ bb.q.regs := by rw [hb]; exact id
  try dsimp -zeta only
  repeat' first | with_reducible assumption | intro _ | (simp only [Keeps.mk_iff]; with_reducible apply Keeps.upd) | with_reducible apply State.arm_keeps | with_reducible apply State.onDue_keeps | with_reducible apply run_keeps | with_reducible apply setPassState_keeps | with_reducible apply Keeps.ite | split

theorem execConfigTimeout_moves {qm qf : Prop} (dt : Nat) (port : Nat) (s : State) : Moves ⟨qm, qf, False, False⟩ dt s (execConfigTimeout dt port s) := by
  unfold execConfigTimeout
  refine run_moves ?_
  intro bb s hb h_s
  have hqr : ¬ bb.q.regs := by rw [hb]; exact id
  have hqp : ¬ bb.q.phase := by rw [hb]; exact id
  try dsimp -zeta only
  repeat' first | with_reducible assumption | intro _ | (simp only [Keeps.mk_iff]; with_reducible apply Keeps.upd) | with_reducible apply State.onDue_keeps | with_reducible apply passLinkDown_keeps | with_reducible apply run_keeps | with_reducible apply setPassReason_keeps | with_reducible apply Keeps.ite | split

theorem execRecoveryTimeout_moves {qm qf : Prop} (dt : Nat) (port : Nat) (s : State) : Moves ⟨qm, qf, False, False⟩ dt s (execRecoveryTimeout dt port s) := by
  unfold execRecoveryTimeout
  refine run_moves ?_
  intro bb s hb h_s
  have hqr : ¬ bb.q.regs := by rw [hb]; exact id
  have hqp : ¬ bb.q.phase := by rw [hb]; exact id
  try dsimp -zeta only
  repeat' first | with_reducible assumption | intro _ | (simp only [Keeps.mk_iff]; with_reducible apply Keeps.upd) | with_reducible apply State.onDue_keeps | with_reducible apply passLinkDown_keeps | with_reducible apply run_keeps | with_reducible apply setPassReason_keeps | with_reducible apply Keeps.ite | split

theorem execLaneLockLoss_moves {qm qf : Prop} (dt : Nat) (port : Nat) (lane : Nat) (s : State) : Moves ⟨qm, qf, False, False⟩ dt s (execLaneLockLoss dt port lane s) := by
  unfold execLaneLockLoss
  refine run_moves ?_
  intro bb s hb h_s
  have hqr : ¬ bb.q.regs := by rw [hb]; exact id
  have hqp : ¬ bb.q.phase := by rw [hb]; exact id
  try dsimp -zeta only
  repeat' first | with_reducible assumption | intro _ | with_reducible apply enterRecovery_keeps | with_reducible apply run_keeps | with_reducible apply Keeps.ite | split

theorem execGoingDown_moves {qm qf : Prop} (dt : Nat) (port : Nat) (s : State) : Moves ⟨qm, qf, False, False⟩ dt s (execGoingDown dt port s) := by
  unfold execGoingDown
  refine run_moves ?_
  intro bb s hb h_s
  have hqr : ¬ bb.q.regs := by rw [hb]; exact id
  have hqp : ¬ bb.q.phase := by rw [hb]; exact id
  try dsimp -zeta only
  repeat' first | with_reducible assumption | intro _ | (simp only [Keeps.mk_iff]; with_reducible apply Keeps.upd) | with_reducible apply State.onDue_keeps | with_reducible apply passLinkDown_keeps | with_reducible apply run_keeps | with_reducible apply Keeps.ite | split

end Sys2Proof.Machine
end

