-- ==== Sys2Proof/Laws/Keeps/DirOps.lean ====
section
/-! SUPPORT. Every operation and meaning of Machine/DirOps.lean keeps what `Keeps` says. -/
set_option linter.all false
namespace Sys2Proof.Machine

theorem countEntries_keeps {bb : Base} (s : State) (home : Nat) (proxy : Nat) (up : Bool) (h_s : Keeps bb s) (hqr : ¬ bb.q.regs := by assumption) (hqp : ¬ bb.q.phase := by assumption) : Keeps bb (countEntries s home proxy up) := by
  unfold countEntries
  repeat' first | with_reducible assumption | intro _ | (extract_lets +onlyGivenNames z; refine (fun (hz : Keeps bb z) => ?_) ?_; clear_value z; revert z; intro _ _; rotate_left; unfold z; clear z; rotate_left) | (extract_lets +onlyGivenNames z; refine (fun (hz : Keeps bb z.1) => ?_) ?_; clear_value z; revert z; intro _ _; rotate_left; unfold z; clear z; rotate_left) | (extract_lets +onlyGivenNames z; refine (fun (hz : Keeps bb z) => ?_) ?_; revert z; intro _ _; rotate_left; unfold z; clear z; rotate_left) | (extract_lets +onlyGivenNames z; revert z; intro _) | with_reducible apply State.setReg_keeps | with_reducible apply raise_keeps | with_reducible apply Keeps.ite | split

theorem breakSet_keeps {bb : Base} (s : State) (set : Nat) (h_s : Keeps bb s) (hqr : ¬ bb.q.regs := by assumption) (hqp : ¬ bb.q.phase := by assumption) : Keeps bb (breakSet s set) := by
  unfold breakSet
  repeat' first | with_reducible assumption | intro _ | (extract_lets +onlyGivenNames z; refine (fun (hz : Keeps bb z) => ?_) ?_; clear_value z; revert z; intro _ _; rotate_left; unfold z; clear z; rotate_left) | (extract_lets +onlyGivenNames z; refine (fun (hz : Keeps bb z.1) => ?_) ?_; clear_value z; revert z; intro _ _; rotate_left; unfold z; clear z; rotate_left) | (extract_lets +onlyGivenNames z; refine (fun (hz : Keeps bb z) => ?_) ?_; revert z; intro _ _; rotate_left; unfold z; clear z; rotate_left) | (extract_lets +onlyGivenNames z; revert z; intro _) | (simp only [Keeps.mk_iff]; with_reducible apply Keeps.upd) | with_reducible apply State.setReg_keeps | with_reducible apply raise_keeps | with_reducible apply Keeps.ite | split

theorem readSet_keeps {base : Base} (s : State) (set : Nat) (lines : List Nat) (h_s : Keeps base s) (hqm : ¬ base.q.mem := by assumption) (hqr : ¬ base.q.regs := by assumption) (hqp : ¬ base.q.phase := by assumption) : Keeps base (readSet s set lines) := by
  have key : ∀ (l : List Nat) (a : State × Bool), Keeps base a.1 →
      Keeps base (l.foldl (fun (a : State × Bool) i =>
        let x := readLine a.1 (wayAddr set 0 / 64 + i) 0
        (x.1, a.2 || x.2.poison)) a).1 := by
    intro l
    induction l with
    | nil => exact fun a h => h
    | cons i l ih => exact fun a h => ih _ (readLine_keeps _ _ _ h)
  exact Keeps.ite (breakSet_keeps _ _ (countEntries_keeps _ _ _ _ (key lines (s, false) h_s))) (key lines (s, false) h_s)

theorem putWay_keeps {bb : Base} (s : State) (set : Nat) (way : Nat) (w : Nat) (h_s : Keeps bb s) (hqm : ¬ bb.q.mem := by assumption) (hqr : ¬ bb.q.regs := by assumption) (hqp : ¬ bb.q.phase := by assumption) : Keeps bb (putWay s set way w) := by
  unfold putWay
  repeat' first | with_reducible assumption | intro _ | (extract_lets +onlyGivenNames z; refine (fun (hz : Keeps bb z) => ?_) ?_; clear_value z; revert z; intro _ _; rotate_left; unfold z; clear z; rotate_left) | (extract_lets +onlyGivenNames z; refine (fun (hz : Keeps bb z.1) => ?_) ?_; clear_value z; revert z; intro _ _; rotate_left; unfold z; clear z; rotate_left) | (extract_lets +onlyGivenNames z; refine (fun (hz : Keeps bb z) => ?_) ?_; revert z; intro _ _; rotate_left; unfold z; clear z; rotate_left) | (extract_lets +onlyGivenNames z; revert z; intro _) | (simp only [Keeps.mk_iff]; with_reducible apply Keeps.upd) | with_reducible apply putLine_keeps | with_reducible apply readSet_keeps | with_reducible apply Keeps.ite | split

theorem uncache_keeps {bb : Base} (s : State) (c : Cached) (h_s : Keeps bb s) (hqm : ¬ bb.q.mem := by assumption) (hqr : ¬ bb.q.regs := by assumption) (hqp : ¬ bb.q.phase := by assumption) : Keeps bb (uncache s c) := by
  unfold uncache
  repeat' first | with_reducible assumption | intro _ | (extract_lets +onlyGivenNames z; refine (fun (hz : Keeps bb z) => ?_) ?_; clear_value z; revert z; intro _ _; rotate_left; unfold z; clear z; rotate_left) | (extract_lets +onlyGivenNames z; refine (fun (hz : Keeps bb z.1) => ?_) ?_; clear_value z; revert z; intro _ _; rotate_left; unfold z; clear z; rotate_left) | (extract_lets +onlyGivenNames z; refine (fun (hz : Keeps bb z) => ?_) ?_; revert z; intro _ _; rotate_left; unfold z; clear z; rotate_left) | (extract_lets +onlyGivenNames z; revert z; intro _) | (simp only [Keeps.mk_iff]; with_reducible apply Keeps.upd) | with_reducible apply putWay_keeps | with_reducible apply Keeps.ite | split

theorem roomFor_keeps {bb : Base} (s : State) (n : Nat) (k : Nat) (h_s : Keeps bb s) (hqm : ¬ bb.q.mem := by assumption) (hqr : ¬ bb.q.regs := by assumption) (hqp : ¬ bb.q.phase := by assumption) : Keeps bb (roomFor s n k) := by
  unfold roomFor
  repeat' first | with_reducible assumption | intro _ | with_reducible apply Keeps.withState | with_reducible apply Keeps.withSome | with_reducible apply uncache_keeps | with_reducible apply Keeps.ite | split

theorem intoCache_keeps {bb : Base} (s : State) (c : Cached) (h_s : Keeps bb s) (hqm : ¬ bb.q.mem := by assumption) (hqr : ¬ bb.q.regs := by assumption) (hqp : ¬ bb.q.phase := by assumption) : Keeps bb (intoCache s c) := by
  unfold intoCache
  repeat' first | with_reducible assumption | intro _ | (extract_lets +onlyGivenNames z; refine (fun (hz : Keeps bb z) => ?_) ?_; clear_value z; revert z; intro _ _; rotate_left; unfold z; clear z; rotate_left) | (extract_lets +onlyGivenNames z; refine (fun (hz : Keeps bb z.1) => ?_) ?_; clear_value z; revert z; intro _ _; rotate_left; unfold z; clear z; rotate_left) | (extract_lets +onlyGivenNames z; refine (fun (hz : Keeps bb z) => ?_) ?_; revert z; intro _ _; rotate_left; unfold z; clear z; rotate_left) | (extract_lets +onlyGivenNames z; revert z; intro _) | (simp only [Keeps.mk_iff]; with_reducible apply Keeps.upd) | with_reducible apply putWay_keeps | with_reducible apply roomFor_keeps | with_reducible apply Keeps.ite | split

theorem useCached_keeps {bb : Base} (s : State) (c : Cached) (h_s : Keeps bb s)  : Keeps bb (useCached s c) := by
  unfold useCached
  repeat' first | with_reducible assumption | intro _ | (extract_lets +onlyGivenNames z; refine (fun (hz : Keeps bb z) => ?_) ?_; clear_value z; revert z; intro _ _; rotate_left; unfold z; clear z; rotate_left) | (extract_lets +onlyGivenNames z; refine (fun (hz : Keeps bb z.1) => ?_) ?_; clear_value z; revert z; intro _ _; rotate_left; unfold z; clear z; rotate_left) | (extract_lets +onlyGivenNames z; refine (fun (hz : Keeps bb z) => ?_) ?_; revert z; intro _ _; rotate_left; unfold z; clear z; rotate_left) | (extract_lets +onlyGivenNames z; revert z; intro _) | (simp only [Keeps.mk_iff]; with_reducible apply Keeps.upd)

theorem lookupEnt_keeps {bb : Base} (s : State) (n : Nat) (proxy : Bool) (k : Nat) (hint : Bool) (h_s : Keeps bb s) (hqm : ¬ bb.q.mem := by assumption) (hqr : ¬ bb.q.regs := by assumption) (hqp : ¬ bb.q.phase := by assumption) : Keeps bb (lookupEnt s n proxy k hint) := by
  unfold lookupEnt
  repeat' first | with_reducible assumption | intro _ | (extract_lets +onlyGivenNames z; refine (fun (hz : Keeps bb z) => ?_) ?_; clear_value z; revert z; intro _ _; rotate_left; unfold z; clear z; rotate_left) | (extract_lets +onlyGivenNames z; refine (fun (hz : Keeps bb z.1) => ?_) ?_; clear_value z; revert z; intro _ _; rotate_left; unfold z; clear z; rotate_left) | (extract_lets +onlyGivenNames z; refine (fun (hz : Keeps bb z) => ?_) ?_; revert z; intro _ _; rotate_left; unfold z; clear z; rotate_left) | (extract_lets +onlyGivenNames z; revert z; intro _) | (simp only [Keeps.mk_iff]; with_reducible apply Keeps.upd) | with_reducible apply State.count1_keeps | with_reducible apply intoCache_keeps | with_reducible apply readSet_keeps | with_reducible apply useCached_keeps | with_reducible apply Keeps.ite | split

theorem storeEnt_keeps {bb : Base} (s : State) (n : Nat) (proxy : Bool) (k : Nat) (e : Ent) (h_s : Keeps bb s) (hqm : ¬ bb.q.mem := by assumption) (hqr : ¬ bb.q.regs := by assumption) (hqp : ¬ bb.q.phase := by assumption) : Keeps bb (storeEnt s n proxy k e) := by
  unfold storeEnt
  repeat' first | with_reducible assumption | intro _ | (extract_lets +onlyGivenNames z; refine (fun (hz : Keeps bb z) => ?_) ?_; clear_value z; revert z; intro _ _; rotate_left; unfold z; clear z; rotate_left) | (extract_lets +onlyGivenNames z; refine (fun (hz : Keeps bb z.1) => ?_) ?_; clear_value z; revert z; intro _ _; rotate_left; unfold z; clear z; rotate_left) | (extract_lets +onlyGivenNames z; refine (fun (hz : Keeps bb z) => ?_) ?_; revert z; intro _ _; rotate_left; unfold z; clear z; rotate_left) | (extract_lets +onlyGivenNames z; revert z; intro _) | (simp only [Keeps.mk_iff]; with_reducible apply Keeps.upd) | with_reducible apply countEntries_keeps | with_reducible apply intoCache_keeps | with_reducible apply putWay_keeps | with_reducible apply Keeps.ite | split

theorem setEnt_keeps {bb : Base} (s : State) (n : Nat) (proxy : Bool) (k : Nat) (e : Ent) (h_s : Keeps bb s) (hqm : ¬ bb.q.mem := by assumption) (hqr : ¬ bb.q.regs := by assumption) (hqp : ¬ bb.q.phase := by assumption) : Keeps bb (setEnt s n proxy k e) := by
  unfold setEnt
  repeat' first | with_reducible assumption | intro _ | (extract_lets +onlyGivenNames z; refine (fun (hz : Keeps bb z) => ?_) ?_; clear_value z; revert z; intro _ _; rotate_left; unfold z; clear z; rotate_left) | (extract_lets +onlyGivenNames z; refine (fun (hz : Keeps bb z.1) => ?_) ?_; clear_value z; revert z; intro _ _; rotate_left; unfold z; clear z; rotate_left) | (extract_lets +onlyGivenNames z; refine (fun (hz : Keeps bb z) => ?_) ?_; revert z; intro _ _; rotate_left; unfold z; clear z; rotate_left) | (extract_lets +onlyGivenNames z; revert z; intro _) | with_reducible apply logEntry_keeps | with_reducible apply storeEnt_keeps | with_reducible apply Keeps.ite | split

end Sys2Proof.Machine
end

