-- ==== Sys2Proof/Laws/Keeps/CohOps.lean ====
section
/-! SUPPORT. Every operation and meaning of Machine/CohOps.lean keeps what `Keeps` says. -/
set_option linter.all false
set_option Elab.async false
namespace Sys2Proof.Machine

theorem sendRemote_keeps {bb : Base} (s : State) (m : CohMsg) (h_s : Keeps bb s) (hqr : ¬ bb.q.regs := by assumption) : Keeps bb (sendRemote s m) := by
  unfold sendRemote
  repeat' first | with_reducible assumption | intro _ | with_reducible apply State.count1_keeps | with_reducible apply sendCoh_keeps | split

theorem sendReply_keeps {bb : Base} (s : State) (m : CohMsg) (h_s : Keeps bb s) (hqr : ¬ bb.q.regs := by assumption) : Keeps bb (sendReply s m) := by
  unfold sendReply
  repeat' first | with_reducible assumption | intro _ | (simp only [Keeps.mk_iff]; with_reducible apply Keeps.upd) | with_reducible apply sendInside_keeps

theorem sendAnswer_keeps {bb : Base} (s : State) (m : CohMsg) (h_s : Keeps bb s) (hqr : ¬ bb.q.regs := by assumption) : Keeps bb (sendAnswer s m) := by
  unfold sendAnswer
  repeat' first | with_reducible assumption | intro _ | with_reducible apply sendRemote_keeps | with_reducible apply sendReply_keeps | with_reducible apply Keeps.ite | split

theorem nackHome_keeps {bb : Base} (s : State) (m : CohMsg) (h_s : Keeps bb s) (hqr : ¬ bb.q.regs := by assumption) : Keeps bb (nackHome s m) := by
  unfold nackHome
  repeat' first | with_reducible assumption | intro _ | (extract_lets +onlyGivenNames z; refine (fun (hz : Keeps bb z) => ?_) ?_; clear_value z; revert z; intro _ _; rotate_left; unfold z; clear z; rotate_left) | (extract_lets +onlyGivenNames z; refine (fun (hz : Keeps bb z.1) => ?_) ?_; clear_value z; revert z; intro _ _; rotate_left; unfold z; clear z; rotate_left) | (extract_lets +onlyGivenNames z; refine (fun (hz : Keeps bb z) => ?_) ?_; revert z; intro _ _; rotate_left; unfold z; clear z; rotate_left) | (extract_lets +onlyGivenNames z; revert z; intro _) | (simp only [Keeps.mk_iff]; with_reducible apply Keeps.upd) | with_reducible apply sendInside_keeps

theorem nack_keeps {bb : Base} (s : State) (m : CohMsg) (reason : Nat) (h_s : Keeps bb s) (hqr : ¬ bb.q.regs := by assumption) : Keeps bb (nack s m reason) := by
  unfold nack
  repeat' first | with_reducible assumption | intro _ | (extract_lets +onlyGivenNames z; refine (fun (hz : Keeps bb z) => ?_) ?_; clear_value z; revert z; intro _ _; rotate_left; unfold z; clear z; rotate_left) | (extract_lets +onlyGivenNames z; refine (fun (hz : Keeps bb z.1) => ?_) ?_; clear_value z; revert z; intro _ _; rotate_left; unfold z; clear z; rotate_left) | (extract_lets +onlyGivenNames z; refine (fun (hz : Keeps bb z) => ?_) ?_; revert z; intro _ _; rotate_left; unfold z; clear z; rotate_left) | (extract_lets +onlyGivenNames z; revert z; intro _) | with_reducible apply State.count1_keeps | with_reducible apply nackHome_keeps | with_reducible apply sendAnswer_keeps | with_reducible apply Keeps.ite | split

theorem answerEmpty_keeps {bb : Base} (s : State) (m : CohMsg) (flags : Nat) (h_s : Keeps bb s) (hqr : ¬ bb.q.regs := by assumption) : Keeps bb (answerEmpty s m flags) := by
  unfold answerEmpty
  repeat' first | with_reducible assumption | intro _ | with_reducible apply State.useFree_keeps | with_reducible apply sendAnswer_keeps | with_reducible apply Keeps.ite | split

theorem readKey_keeps {bb : Base} (s : State) (k : Nat) (h_s : Keeps bb s) (hqm : ¬ bb.q.mem := by assumption) (hqr : ¬ bb.q.regs := by assumption) (hqp : ¬ bb.q.phase := by assumption) : Keeps bb (readKey s k).1 := by
  unfold readKey
  repeat' first | with_reducible assumption | intro _ | with_reducible apply readHome_keeps

theorem logWrite_keeps {bb : Base} (s : State) (n : Nat) (k : Nat) (host : Bool) (h_s : Keeps bb s) (hqr : ¬ bb.q.regs := by assumption) : Keeps bb (logWrite s n k host) := by
  unfold logWrite
  repeat' first | with_reducible assumption | intro _ | with_reducible apply Keeps.forEach | with_reducible apply logDirty_keeps

theorem writeKey_keeps {bb : Base} (s : State) (n : Nat) (k : Nat) (data : List Byte) (poison : Bool) (frees : Bool) (host : Bool) (h_s : Keeps bb s) (hqm : ¬ bb.q.mem := by assumption) (hqr : ¬ bb.q.regs := by assumption) : Keeps bb (writeKey s n k data poison frees host) := by
  unfold writeKey
  repeat' first | with_reducible assumption | intro _ | (extract_lets +onlyGivenNames z; refine (fun (hz : Keeps bb z) => ?_) ?_; clear_value z; revert z; intro _ _; rotate_left; unfold z; clear z; rotate_left) | (extract_lets +onlyGivenNames z; refine (fun (hz : Keeps bb z.1) => ?_) ?_; clear_value z; revert z; intro _ _; rotate_left; unfold z; clear z; rotate_left) | (extract_lets +onlyGivenNames z; refine (fun (hz : Keeps bb z) => ?_) ?_; revert z; intro _ _; rotate_left; unfold z; clear z; rotate_left) | (extract_lets +onlyGivenNames z; revert z; intro _) | with_reducible apply logWrite_keeps | with_reducible apply sendMirror_keeps | with_reducible apply writeHome_keeps | with_reducible apply Keeps.ite | split

theorem markTracked_keeps {bb : Base} (s : State) (k : Nat) (h_s : Keeps bb s) (hqm : ¬ bb.q.mem := by assumption) (hqr : ¬ bb.q.regs := by assumption) (hqp : ¬ bb.q.phase := by assumption) : Keeps bb (markTracked s k) := by
  unfold markTracked
  repeat' first | with_reducible assumption | intro _ | (extract_lets +onlyGivenNames z; refine (fun (hz : Keeps bb z) => ?_) ?_; clear_value z; revert z; intro _ _; rotate_left; unfold z; clear z; rotate_left) | (extract_lets +onlyGivenNames z; refine (fun (hz : Keeps bb z.1) => ?_) ?_; clear_value z; revert z; intro _ _; rotate_left; unfold z; clear z; rotate_left) | (extract_lets +onlyGivenNames z; refine (fun (hz : Keeps bb z) => ?_) ?_; revert z; intro _ _; rotate_left; unfold z; clear z; rotate_left) | (extract_lets +onlyGivenNames z; revert z; intro _) | with_reducible apply readKey_keeps | with_reducible apply writeHome_keeps | with_reducible apply Keeps.ite | split

theorem applyWrite_keeps {bb : Base} (s : State) (n : Nat) (m : CohMsg) (frees : Bool) (h_s : Keeps bb s) (hqm : ¬ bb.q.mem := by assumption) (hqr : ¬ bb.q.regs := by assumption) (hqp : ¬ bb.q.phase := by assumption) : Keeps bb (applyWrite s n m frees) := by
  unfold applyWrite
  repeat' first | with_reducible assumption | intro _ | (extract_lets +onlyGivenNames z; refine (fun (hz : Keeps bb z) => ?_) ?_; clear_value z; revert z; intro _ _; rotate_left; unfold z; clear z; rotate_left) | (extract_lets +onlyGivenNames z; refine (fun (hz : Keeps bb z.1) => ?_) ?_; clear_value z; revert z; intro _ _; rotate_left; unfold z; clear z; rotate_left) | (extract_lets +onlyGivenNames z; refine (fun (hz : Keeps bb z) => ?_) ?_; revert z; intro _ _; rotate_left; unfold z; clear z; rotate_left) | (extract_lets +onlyGivenNames z; revert z; intro _) | with_reducible apply readKey_keeps | with_reducible apply writeKey_keeps | with_reducible apply Keeps.ite | split

theorem completeWrite_keeps {bb : Base} (s : State) (n : Nat) (cls : Nat) (m : CohMsg) (grant : Nat) (h_s : Keeps bb s) (hqr : ¬ bb.q.regs := by assumption) : Keeps bb (completeWrite s n cls m grant) := by
  unfold completeWrite
  repeat' first | with_reducible assumption | intro _ | (extract_lets +onlyGivenNames z; refine (fun (hz : Keeps bb z) => ?_) ?_; clear_value z; revert z; intro _ _; rotate_left; unfold z; clear z; rotate_left) | (extract_lets +onlyGivenNames z; refine (fun (hz : Keeps bb z.1) => ?_) ?_; clear_value z; revert z; intro _ _; rotate_left; unfold z; clear z; rotate_left) | (extract_lets +onlyGivenNames z; refine (fun (hz : Keeps bb z) => ?_) ?_; revert z; intro _ _; rotate_left; unfold z; clear z; rotate_left) | (extract_lets +onlyGivenNames z; revert z; intro _) | (simp only [Keeps.mk_iff]; with_reducible apply Keeps.upd) | with_reducible apply sendAnswer_keeps | with_reducible apply Keeps.ite | split

theorem releaseAged_keeps {bb : Base} (s : State) (n : Nat) (m : CohMsg) (h_s : Keeps bb s)  : Keeps bb (releaseAged s n m) := by
  unfold releaseAged
  repeat' first | with_reducible assumption | intro _ | (extract_lets +onlyGivenNames z; refine (fun (hz : Keeps bb z) => ?_) ?_; clear_value z; revert z; intro _ _; rotate_left; unfold z; clear z; rotate_left) | (extract_lets +onlyGivenNames z; refine (fun (hz : Keeps bb z.1) => ?_) ?_; clear_value z; revert z; intro _ _; rotate_left; unfold z; clear z; rotate_left) | (extract_lets +onlyGivenNames z; refine (fun (hz : Keeps bb z) => ?_) ?_; revert z; intro _ _; rotate_left; unfold z; clear z; rotate_left) | (extract_lets +onlyGivenNames z; revert z; intro _) | (simp only [Keeps.mk_iff]; with_reducible apply Keeps.upd)

theorem touchAged_keeps {bb : Base} (s : State) (n : Nat) (m : CohMsg) (h_s : Keeps bb s)  : Keeps bb (touchAged s n m) := by
  unfold touchAged
  repeat' first | with_reducible assumption | intro _ | (extract_lets +onlyGivenNames z; refine (fun (hz : Keeps bb z) => ?_) ?_; clear_value z; revert z; intro _ _; rotate_left; unfold z; clear z; rotate_left) | (extract_lets +onlyGivenNames z; refine (fun (hz : Keeps bb z.1) => ?_) ?_; clear_value z; revert z; intro _ _; rotate_left; unfold z; clear z; rotate_left) | (extract_lets +onlyGivenNames z; refine (fun (hz : Keeps bb z) => ?_) ?_; revert z; intro _ _; rotate_left; unfold z; clear z; rotate_left) | (extract_lets +onlyGivenNames z; revert z; intro _) | (simp only [Keeps.mk_iff]; with_reducible apply Keeps.upd) | with_reducible apply Keeps.ite | split

theorem refuse_keeps {bb : Base} (s : State) (n : Nat) (m : CohMsg) (reason : Nat) (h_s : Keeps bb s) (hqr : ¬ bb.q.regs := by assumption) (hqp : ¬ bb.q.phase := by assumption) : Keeps bb (refuse s n m reason) := by
  unfold refuse
  repeat' first | with_reducible assumption | intro _ | (extract_lets +onlyGivenNames z; refine (fun (hz : Keeps bb z) => ?_) ?_; clear_value z; revert z; intro _ _; rotate_left; unfold z; clear z; rotate_left) | (extract_lets +onlyGivenNames z; refine (fun (hz : Keeps bb z.1) => ?_) ?_; clear_value z; revert z; intro _ _; rotate_left; unfold z; clear z; rotate_left) | (extract_lets +onlyGivenNames z; refine (fun (hz : Keeps bb z) => ?_) ?_; revert z; intro _ _; rotate_left; unfold z; clear z; rotate_left) | (extract_lets +onlyGivenNames z; revert z; intro _) | (simp only [Keeps.mk_iff]; with_reducible apply Keeps.upd) | with_reducible apply nack_keeps | with_reducible apply raise_keeps | with_reducible apply Keeps.ite | split

theorem holdRoom_keeps {bb : Base} (s : State) (n : Nat) (h_s : Keeps bb s) (hqr : ¬ bb.q.regs := by assumption) : Keeps bb (holdRoom s n) := by
  unfold holdRoom
  repeat' first | with_reducible assumption | intro _ | (extract_lets +onlyGivenNames z; refine (fun (hz : Keeps bb z) => ?_) ?_; clear_value z; revert z; intro _ _; rotate_left; unfold z; clear z; rotate_left) | (extract_lets +onlyGivenNames z; refine (fun (hz : Keeps bb z.1) => ?_) ?_; clear_value z; revert z; intro _ _; rotate_left; unfold z; clear z; rotate_left) | (extract_lets +onlyGivenNames z; refine (fun (hz : Keeps bb z) => ?_) ?_; revert z; intro _ _; rotate_left; unfold z; clear z; rotate_left) | (extract_lets +onlyGivenNames z; revert z; intro _) | (simp only [Keeps.mk_iff]; with_reducible apply Keeps.upd) | with_reducible apply State.count1_keeps | with_reducible apply Keeps.ite | split

theorem openHold_keeps {bb : Base} (s : State) (n : Nat) (k : Nat) (q : Requester) (h_s : Keeps bb s) (hqr : ¬ bb.q.regs := by assumption) : Keeps bb (openHold s n k q) := by
  unfold openHold
  repeat' first | with_reducible assumption | intro _ | (extract_lets +onlyGivenNames z; refine (fun (hz : Keeps bb z) => ?_) ?_; clear_value z; revert z; intro _ _; rotate_left; unfold z; clear z; rotate_left) | (extract_lets +onlyGivenNames z; refine (fun (hz : Keeps bb z.1) => ?_) ?_; clear_value z; revert z; intro _ _; rotate_left; unfold z; clear z; rotate_left) | (extract_lets +onlyGivenNames z; refine (fun (hz : Keeps bb z) => ?_) ?_; revert z; intro _ _; rotate_left; unfold z; clear z; rotate_left) | (extract_lets +onlyGivenNames z; revert z; intro _) | (simp only [Keeps.mk_iff]; with_reducible apply Keeps.upd) | with_reducible apply holdRoom_keeps | with_reducible apply Keeps.ite | split

theorem recordLost_keeps {bb : Base} (s : State) (cause : Nat) (k : Nat) (h : Requester) (h_s : Keeps bb s) (hqr : ¬ bb.q.regs := by assumption) (hqp : ¬ bb.q.phase := by assumption) : Keeps bb (recordLost s cause k h) := by
  unfold recordLost
  repeat' first | with_reducible assumption | intro _ | with_reducible apply State.count1_keeps | with_reducible apply pushLog_keeps | with_reducible apply raise_keeps

theorem loseLine_keeps {bb : Base} (s : State) (n : Nat) (cause : Nat) (k : Nat) (h : Requester) (h_s : Keeps bb s) (hqm : ¬ bb.q.mem := by assumption) (hqr : ¬ bb.q.regs := by assumption) (hqp : ¬ bb.q.phase := by assumption) : Keeps bb (loseLine s n cause k h) := by
  unfold loseLine
  repeat' first | with_reducible assumption | intro _ | (extract_lets +onlyGivenNames z; refine (fun (hz : Keeps bb z) => ?_) ?_; clear_value z; revert z; intro _ _; rotate_left; unfold z; clear z; rotate_left) | (extract_lets +onlyGivenNames z; refine (fun (hz : Keeps bb z.1) => ?_) ?_; clear_value z; revert z; intro _ _; rotate_left; unfold z; clear z; rotate_left) | (extract_lets +onlyGivenNames z; refine (fun (hz : Keeps bb z) => ?_) ?_; revert z; intro _ _; rotate_left; unfold z; clear z; rotate_left) | (extract_lets +onlyGivenNames z; revert z; intro _) | with_reducible apply readKey_keeps | with_reducible apply recordLost_keeps | with_reducible apply setEnt_keeps | with_reducible apply writeKey_keeps

theorem loseAtProxy_keeps {bb : Base} (s : State) (n : Nat) (k : Nat) (a : Nat) (h_s : Keeps bb s) (hqm : ¬ bb.q.mem := by assumption) (hqr : ¬ bb.q.regs := by assumption) (hqp : ¬ bb.q.phase := by assumption) : Keeps bb (loseAtProxy s n k a) := by
  unfold loseAtProxy
  repeat' first | with_reducible assumption | intro _ | (extract_lets +onlyGivenNames z; refine (fun (hz : Keeps bb z) => ?_) ?_; clear_value z; revert z; intro _ _; rotate_left; unfold z; clear z; rotate_left) | (extract_lets +onlyGivenNames z; refine (fun (hz : Keeps bb z.1) => ?_) ?_; clear_value z; revert z; intro _ _; rotate_left; unfold z; clear z; rotate_left) | (extract_lets +onlyGivenNames z; refine (fun (hz : Keeps bb z) => ?_) ?_; revert z; intro _ _; rotate_left; unfold z; clear z; rotate_left) | (extract_lets +onlyGivenNames z; revert z; intro _) | with_reducible apply sendRemote_keeps | with_reducible apply setEnt_keeps | with_reducible apply Keeps.ite | split

theorem settleBit_keeps {bb : Base} (n : Nat) (proxy : Bool) (k : Nat) (s : State) (a : Nat) (h_s : Keeps bb s) (hqm : ¬ bb.q.mem := by assumption) (hqr : ¬ bb.q.regs := by assumption) (hqp : ¬ bb.q.phase := by assumption) : Keeps bb (settleBit n proxy k s a) := by
  unfold settleBit
  repeat' first | with_reducible assumption | intro _ | (extract_lets +onlyGivenNames z; refine (fun (hz : Keeps bb z) => ?_) ?_; clear_value z; revert z; intro _ _; rotate_left; unfold z; clear z; rotate_left) | (extract_lets +onlyGivenNames z; refine (fun (hz : Keeps bb z.1) => ?_) ?_; clear_value z; revert z; intro _ _; rotate_left; unfold z; clear z; rotate_left) | (extract_lets +onlyGivenNames z; refine (fun (hz : Keeps bb z) => ?_) ?_; revert z; intro _ _; rotate_left; unfold z; clear z; rotate_left) | (extract_lets +onlyGivenNames z; revert z; intro _) | with_reducible apply loseAtProxy_keeps | with_reducible apply loseLine_keeps | with_reducible apply setEnt_keeps | with_reducible apply Keeps.ite | split

theorem settleDead_keeps {bb : Base} (s : State) (n : Nat) (proxy : Bool) (k : Nat) (h_s : Keeps bb s) (hqm : ¬ bb.q.mem := by assumption) (hqr : ¬ bb.q.regs := by assumption) (hqp : ¬ bb.q.phase := by assumption) : Keeps bb (settleDead s n proxy k) := by
  unfold settleDead
  repeat' first | with_reducible assumption | intro _ | with_reducible apply Keeps.forEach | with_reducible apply settleBit_keeps

theorem putCtx_keeps {bb : Base} (s : State) (c : Ctx) (h_s : Keeps bb s)  : Keeps bb (putCtx s c) := by
  unfold putCtx
  repeat' first | with_reducible assumption | intro _ | (extract_lets +onlyGivenNames z; refine (fun (hz : Keeps bb z) => ?_) ?_; clear_value z; revert z; intro _ _; rotate_left; unfold z; clear z; rotate_left) | (extract_lets +onlyGivenNames z; refine (fun (hz : Keeps bb z.1) => ?_) ?_; clear_value z; revert z; intro _ _; rotate_left; unfold z; clear z; rotate_left) | (extract_lets +onlyGivenNames z; refine (fun (hz : Keeps bb z) => ?_) ?_; revert z; intro _ _; rotate_left; unfold z; clear z; rotate_left) | (extract_lets +onlyGivenNames z; revert z; intro _) | (simp only [Keeps.mk_iff]; with_reducible apply Keeps.upd) | with_reducible apply Keeps.ite | split

theorem dropCtx_keeps {bb : Base} (s : State) (c : Ctx) (h_s : Keeps bb s)  : Keeps bb (dropCtx s c) := by
  unfold dropCtx
  repeat' first | with_reducible assumption | intro _ | (extract_lets +onlyGivenNames z; refine (fun (hz : Keeps bb z) => ?_) ?_; clear_value z; revert z; intro _ _; rotate_left; unfold z; clear z; rotate_left) | (extract_lets +onlyGivenNames z; refine (fun (hz : Keeps bb z.1) => ?_) ?_; clear_value z; revert z; intro _ _; rotate_left; unfold z; clear z; rotate_left) | (extract_lets +onlyGivenNames z; refine (fun (hz : Keeps bb z) => ?_) ?_; revert z; intro _ _; rotate_left; unfold z; clear z; rotate_left) | (extract_lets +onlyGivenNames z; revert z; intro _) | (simp only [Keeps.mk_iff]; with_reducible apply Keeps.upd) | with_reducible apply Keeps.ite | split

theorem fanOut_keeps {base : Base} (proxy : Bool) (kind : Nat) (m : CohMsg) (k : Nat) (l : List Nat) (s : State) (h_s : Keeps base s) (hqr : ¬ base.q.regs := by assumption) :
    Keeps base (fanOut proxy kind m k l s) := by
  induction k generalizing l s with
  | zero => exact h_s
  | succ k ih =>
    unfold fanOut
    split
    · exact h_s
    · exact ih _ _ (sendInside_keeps _ _ _ _ _ _ _ (State.count_keeps _ _ _ _ h_s))

theorem sendSnoop_keeps {bb : Base} (s : State) (proxy : Bool) (kind : Nat) (m : CohMsg) (h : Requester) (h_s : Keeps bb s) (hqr : ¬ bb.q.regs := by assumption) : Keeps bb (sendSnoop s proxy kind m h) := by
  unfold sendSnoop
  repeat' first | with_reducible assumption | intro _ | with_reducible apply State.count1_keeps | with_reducible apply fanOut_keeps | with_reducible apply sendRemote_keeps | split

theorem issueSnoops_keeps {bb : Base} (proxy : Bool) (m : CohMsg) (l : List (Requester × Nat)) (s : State) (h_s : Keeps bb s) (hqr : ¬ bb.q.regs := by assumption) : Keeps bb (issueSnoops proxy m l s) := by
  unfold issueSnoops
  repeat' first | with_reducible assumption | intro _ | (extract_lets +onlyGivenNames z; refine (fun (hz : Keeps bb z) => ?_) ?_; clear_value z; revert z; intro _ _; rotate_left; unfold z; clear z; rotate_left) | (extract_lets +onlyGivenNames z; refine (fun (hz : Keeps bb z.1) => ?_) ?_; clear_value z; revert z; intro _ _; rotate_left; unfold z; clear z; rotate_left) | (extract_lets +onlyGivenNames z; refine (fun (hz : Keeps bb z) => ?_) ?_; revert z; intro _ _; rotate_left; unfold z; clear z; rotate_left) | (extract_lets +onlyGivenNames z; revert z; intro _) | with_reducible apply fanOut_keeps | with_reducible apply Keeps.forEach | with_reducible apply sendSnoop_keeps | split

theorem openCtx_keeps {bb : Base} (s : State) (c : Ctx) (l : List (Requester × Nat)) (h_s : Keeps bb s) (hqr : ¬ bb.q.regs := by assumption) : Keeps bb (openCtx s c l) := by
  unfold openCtx
  repeat' first | with_reducible assumption | intro _ | (extract_lets +onlyGivenNames z; refine (fun (hz : Keeps bb z) => ?_) ?_; clear_value z; revert z; intro _ _; rotate_left; unfold z; clear z; rotate_left) | (extract_lets +onlyGivenNames z; refine (fun (hz : Keeps bb z.1) => ?_) ?_; clear_value z; revert z; intro _ _; rotate_left; unfold z; clear z; rotate_left) | (extract_lets +onlyGivenNames z; refine (fun (hz : Keeps bb z) => ?_) ?_; revert z; intro _ _; rotate_left; unfold z; clear z; rotate_left) | (extract_lets +onlyGivenNames z; revert z; intro _) | (simp only [Keeps.mk_iff]; with_reducible apply Keeps.upd) | with_reducible apply issueSnoops_keeps

theorem resumeSnoops_keeps {bb : Base} (s : State) (a : Nat) (h_s : Keeps bb s) (hqr : ¬ bb.q.regs := by assumption) : Keeps bb (resumeSnoops s a) := by
  unfold resumeSnoops
  repeat' first | with_reducible assumption | intro _ | (extract_lets +onlyGivenNames z; refine (fun (hz : Keeps bb z) => ?_) ?_; clear_value z; revert z; intro _ _; rotate_left; unfold z; clear z; rotate_left) | (extract_lets +onlyGivenNames z; refine (fun (hz : Keeps bb z.1) => ?_) ?_; clear_value z; revert z; intro _ _; rotate_left; unfold z; clear z; rotate_left) | (extract_lets +onlyGivenNames z; refine (fun (hz : Keeps bb z) => ?_) ?_; revert z; intro _ _; rotate_left; unfold z; clear z; rotate_left) | (extract_lets +onlyGivenNames z; revert z; intro _) | (simp only [Keeps.mk_iff]; with_reducible apply Keeps.upd) | with_reducible apply Keeps.forEach | with_reducible apply putCtx_keeps | with_reducible apply sendSnoop_keeps | with_reducible apply Keeps.ite | split

end Sys2Proof.Machine
end

