-- ==== Sys2Proof/Laws/Keeps/Home.lean ====
section
/-! SUPPORT. Every operation and meaning of Machine/Home.lean keeps what `Keeps` says. -/
set_option linter.all false
set_option Elab.async false
namespace Sys2Proof.Machine

theorem execRdShared_moves {qf : Prop} (dt : Nat) (col : Nat) (m : CohMsg) (s : State) : Moves ⟨False, qf, False, False⟩ dt s (execRdShared dt col m s) := by
  unfold execRdShared
  refine run_moves ?_
  intro bb s hb h_s
  have hqm : ¬ bb.q.mem := by rw [hb]; exact id
  have hqr : ¬ bb.q.regs := by rw [hb]; exact id
  have hqp : ¬ bb.q.phase := by rw [hb]; exact id
  repeat' first | with_reducible assumption | intro _ | with_reducible apply requestArrives_keeps | with_reducible apply run_keeps

theorem execRdOwn_moves {qf : Prop} (dt : Nat) (col : Nat) (m : CohMsg) (s : State) : Moves ⟨False, qf, False, False⟩ dt s (execRdOwn dt col m s) := by
  unfold execRdOwn
  refine run_moves ?_
  intro bb s hb h_s
  have hqm : ¬ bb.q.mem := by rw [hb]; exact id
  have hqr : ¬ bb.q.regs := by rw [hb]; exact id
  have hqp : ¬ bb.q.phase := by rw [hb]; exact id
  repeat' first | with_reducible assumption | intro _ | with_reducible apply requestArrives_keeps | with_reducible apply run_keeps

theorem execRdCur_moves {qf : Prop} (dt : Nat) (col : Nat) (m : CohMsg) (s : State) : Moves ⟨False, qf, False, False⟩ dt s (execRdCur dt col m s) := by
  unfold execRdCur
  refine run_moves ?_
  intro bb s hb h_s
  have hqm : ¬ bb.q.mem := by rw [hb]; exact id
  have hqr : ¬ bb.q.regs := by rw [hb]; exact id
  have hqp : ¬ bb.q.phase := by rw [hb]; exact id
  repeat' first | with_reducible assumption | intro _ | with_reducible apply requestArrives_keeps | with_reducible apply run_keeps

theorem execUpgrade_moves {qf : Prop} (dt : Nat) (col : Nat) (m : CohMsg) (s : State) : Moves ⟨False, qf, False, False⟩ dt s (execUpgrade dt col m s) := by
  unfold execUpgrade
  refine run_moves ?_
  intro bb s hb h_s
  have hqm : ¬ bb.q.mem := by rw [hb]; exact id
  have hqr : ¬ bb.q.regs := by rw [hb]; exact id
  have hqp : ¬ bb.q.phase := by rw [hb]; exact id
  repeat' first | with_reducible assumption | intro _ | with_reducible apply requestArrives_keeps | with_reducible apply run_keeps

theorem execWrFull_moves {qf : Prop} (dt : Nat) (col : Nat) (m : CohMsg) (s : State) : Moves ⟨False, qf, False, False⟩ dt s (execWrFull dt col m s) := by
  unfold execWrFull
  refine run_moves ?_
  intro bb s hb h_s
  have hqm : ¬ bb.q.mem := by rw [hb]; exact id
  have hqr : ¬ bb.q.regs := by rw [hb]; exact id
  have hqp : ¬ bb.q.phase := by rw [hb]; exact id
  repeat' first | with_reducible assumption | intro _ | with_reducible apply requestArrives_keeps | with_reducible apply run_keeps

theorem execWrPtl_moves {qf : Prop} (dt : Nat) (col : Nat) (m : CohMsg) (s : State) : Moves ⟨False, qf, False, False⟩ dt s (execWrPtl dt col m s) := by
  unfold execWrPtl
  refine run_moves ?_
  intro bb s hb h_s
  have hqm : ¬ bb.q.mem := by rw [hb]; exact id
  have hqr : ¬ bb.q.regs := by rw [hb]; exact id
  have hqp : ¬ bb.q.phase := by rw [hb]; exact id
  repeat' first | with_reducible assumption | intro _ | with_reducible apply requestArrives_keeps | with_reducible apply run_keeps

theorem execWriteback_moves {qf : Prop} (dt : Nat) (col : Nat) (m : CohMsg) (s : State) : Moves ⟨False, qf, False, False⟩ dt s (execWriteback dt col m s) := by
  unfold execWriteback
  refine run_moves ?_
  intro bb s hb h_s
  have hqm : ¬ bb.q.mem := by rw [hb]; exact id
  have hqr : ¬ bb.q.regs := by rw [hb]; exact id
  have hqp : ¬ bb.q.phase := by rw [hb]; exact id
  repeat' first | with_reducible assumption | intro _ | with_reducible apply requestArrives_keeps | with_reducible apply run_keeps

theorem execWritebackPtl_moves {qf : Prop} (dt : Nat) (col : Nat) (m : CohMsg) (s : State) : Moves ⟨False, qf, False, False⟩ dt s (execWritebackPtl dt col m s) := by
  unfold execWritebackPtl
  refine run_moves ?_
  intro bb s hb h_s
  have hqm : ¬ bb.q.mem := by rw [hb]; exact id
  have hqr : ¬ bb.q.regs := by rw [hb]; exact id
  have hqp : ¬ bb.q.phase := by rw [hb]; exact id
  repeat' first | with_reducible assumption | intro _ | with_reducible apply requestArrives_keeps | with_reducible apply run_keeps

theorem execEvictClean_moves {qf : Prop} (dt : Nat) (col : Nat) (m : CohMsg) (s : State) : Moves ⟨False, qf, False, False⟩ dt s (execEvictClean dt col m s) := by
  unfold execEvictClean
  refine run_moves ?_
  intro bb s hb h_s
  have hqm : ¬ bb.q.mem := by rw [hb]; exact id
  have hqr : ¬ bb.q.regs := by rw [hb]; exact id
  have hqp : ¬ bb.q.phase := by rw [hb]; exact id
  repeat' first | with_reducible assumption | intro _ | with_reducible apply requestArrives_keeps | with_reducible apply run_keeps

theorem proxySnoop_keeps {base : Base} (s : State) (n : Nat) (m : CohMsg) (h_s : Keeps base s) (hqm : ¬ base.q.mem := by assumption) (hqr : ¬ base.q.regs := by assumption) (hqp : ¬ base.q.phase := by assumption) : Keeps base (proxySnoop s n m) := by
  unfold proxySnoop
  refine Keeps.ite h_s ?_
  extract_lets +onlyGivenNames s1
  have h1 : Keeps base s1 := settleDead_keeps _ _ _ _ (lookupEnt_keeps _ _ _ _ _ h_s)
  clear_value s1
  have h2 : Keeps base ((arrive s1 (.engine n) m).getD s1) := (arrive_keeps _ _ _ h1).getD h1
  extract_lets +onlyGivenNames hs went
  refine Keeps.ite (answerSnoop_keeps _ _ _ h2) ?_
  split
  · exact h_s
  · exact openCtx_keeps _ _ _ h2

theorem toServer_keeps {bb : Base} (s : State) (n : Nat) (m : CohMsg) (h_s : Keeps bb s) (hqr : ¬ bb.q.regs := by assumption) : Keeps bb (toServer s n m) := by
  unfold toServer
  repeat' first | with_reducible assumption | intro _ | (extract_lets +onlyGivenNames z; refine (fun (hz : Keeps bb z) => ?_) ?_; clear_value z; revert z; intro _ _; rotate_left; unfold z; clear z; rotate_left) | (extract_lets +onlyGivenNames z; refine (fun (hz : Keeps bb z.1) => ?_) ?_; clear_value z; revert z; intro _ _; rotate_left; unfold z; clear z; rotate_left) | (extract_lets +onlyGivenNames z; refine (fun (hz : Keeps bb z) => ?_) ?_; revert z; intro _ _; rotate_left; unfold z; clear z; rotate_left) | (extract_lets +onlyGivenNames z; revert z; intro _) | (simp only [Keeps.mk_iff]; with_reducible apply Keeps.upd) | with_reducible apply sendInside_keeps

theorem snoopAtProxy_keeps {bb : Base} (s : State) (n : Nat) (m : CohMsg) (h_s : Keeps bb s) (hqm : ¬ bb.q.mem := by assumption) (hqr : ¬ bb.q.regs := by assumption) (hqp : ¬ bb.q.phase := by assumption) : Keeps bb (snoopAtProxy s n m) := by
  unfold snoopAtProxy
  repeat' first | with_reducible assumption | intro _ | (simp only [Keeps.mk_iff]; with_reducible apply Keeps.upd) | with_reducible apply KeepsO.getD | with_reducible apply arrive_keeps | with_reducible apply proxySnoop_keeps | with_reducible apply toServer_keeps | with_reducible apply Keeps.ite | split

theorem emitBisnp_keeps {bb : Base} (s : State) (a : Nat) (m : CohMsg) (h_s : Keeps bb s)  : Keeps bb (emitBisnp s a m) := by
  unfold emitBisnp
  repeat' first | with_reducible assumption | intro _ | with_reducible apply State.emit_keeps

theorem snoopAtAgent_keeps {bb : Base} (s : State) (a : Nat) (m : CohMsg) (h_s : Keeps bb s)  : Keeps bb (snoopAtAgent s a m) := by
  unfold snoopAtAgent
  repeat' first | with_reducible assumption | intro _ | (extract_lets +onlyGivenNames z; refine (fun (hz : Keeps bb z) => ?_) ?_; clear_value z; revert z; intro _ _; rotate_left; unfold z; clear z; rotate_left) | (extract_lets +onlyGivenNames z; refine (fun (hz : Keeps bb z.1) => ?_) ?_; clear_value z; revert z; intro _ _; rotate_left; unfold z; clear z; rotate_left) | (extract_lets +onlyGivenNames z; refine (fun (hz : Keeps bb z) => ?_) ?_; revert z; intro _ _; rotate_left; unfold z; clear z; rotate_left) | (extract_lets +onlyGivenNames z; revert z; intro _) | (simp only [Keeps.mk_iff]; with_reducible apply Keeps.upd) | with_reducible apply Keeps.withState | with_reducible apply Keeps.withSome | with_reducible apply arrive_keeps | with_reducible apply emitBisnp_keeps | with_reducible apply Keeps.ite | split

theorem snoopArrives_keeps {bb : Base} (kind : Nat) (target : SnoopTarget) (m : CohMsg) (s : State) (h_s : Keeps bb s) (hqm : ¬ bb.q.mem := by assumption) (hqr : ¬ bb.q.regs := by assumption) (hqp : ¬ bb.q.phase := by assumption) : Keeps bb (snoopArrives kind target m s) := by
  unfold snoopArrives
  repeat' first | with_reducible assumption | intro _ | with_reducible apply snoopAtAgent_keeps | with_reducible apply snoopAtProxy_keeps | with_reducible apply Keeps.ite | split

theorem execSnpInv_moves {qf : Prop} (dt : Nat) (target : SnoopTarget) (m : CohMsg) (s : State) : Moves ⟨False, qf, False, False⟩ dt s (execSnpInv dt target m s) := by
  unfold execSnpInv
  refine run_moves ?_
  intro bb s hb h_s
  have hqm : ¬ bb.q.mem := by rw [hb]; exact id
  have hqr : ¬ bb.q.regs := by rw [hb]; exact id
  have hqp : ¬ bb.q.phase := by rw [hb]; exact id
  repeat' first | with_reducible assumption | intro _ | with_reducible apply run_keeps | with_reducible apply snoopArrives_keeps

theorem execSnpData_moves {qf : Prop} (dt : Nat) (target : SnoopTarget) (m : CohMsg) (s : State) : Moves ⟨False, qf, False, False⟩ dt s (execSnpData dt target m s) := by
  unfold execSnpData
  refine run_moves ?_
  intro bb s hb h_s
  have hqm : ¬ bb.q.mem := by rw [hb]; exact id
  have hqr : ¬ bb.q.regs := by rw [hb]; exact id
  have hqp : ¬ bb.q.phase := by rw [hb]; exact id
  repeat' first | with_reducible assumption | intro _ | with_reducible apply run_keeps | with_reducible apply snoopArrives_keeps

theorem execSnpCur_moves {qf : Prop} (dt : Nat) (target : SnoopTarget) (m : CohMsg) (s : State) : Moves ⟨False, qf, False, False⟩ dt s (execSnpCur dt target m s) := by
  unfold execSnpCur
  refine run_moves ?_
  intro bb s hb h_s
  have hqm : ¬ bb.q.mem := by rw [hb]; exact id
  have hqr : ¬ bb.q.regs := by rw [hb]; exact id
  have hqp : ¬ bb.q.phase := by rw [hb]; exact id
  repeat' first | with_reducible assumption | intro _ | with_reducible apply run_keeps | with_reducible apply snoopArrives_keeps

theorem answeredSnoop_keeps {bb : Base} (s : State) (c : Ctx) (x : Snoop) (st : Nat) (h_s : Keeps bb s) (hqm : ¬ bb.q.mem := by assumption) (hqr : ¬ bb.q.regs := by assumption) (hqp : ¬ bb.q.phase := by assumption) : Keeps bb (answeredSnoop s c x st) := by
  unfold answeredSnoop
  repeat' first | with_reducible assumption | intro _ | (extract_lets +onlyGivenNames z; refine (fun (hz : Keeps bb z) => ?_) ?_; clear_value z; revert z; intro _ _; rotate_left; unfold z; clear z; rotate_left) | (extract_lets +onlyGivenNames z; refine (fun (hz : Keeps bb z.1) => ?_) ?_; clear_value z; revert z; intro _ _; rotate_left; unfold z; clear z; rotate_left) | (extract_lets +onlyGivenNames z; refine (fun (hz : Keeps bb z) => ?_) ?_; revert z; intro _ _; rotate_left; unfold z; clear z; rotate_left) | (extract_lets +onlyGivenNames z; revert z; intro _) | with_reducible apply closeSnoop_keeps | with_reducible apply sendRemote_keeps | with_reducible apply setEnt_keeps | with_reducible apply settle_keeps | with_reducible apply work_keeps | with_reducible apply Keeps.ite | split

theorem snoopResponse_keeps {bb : Base} (s : State) (n : Nat) (m : CohMsg) (h_s : Keeps bb s) (hqm : ¬ bb.q.mem := by assumption) (hqr : ¬ bb.q.regs := by assumption) (hqp : ¬ bb.q.phase := by assumption) : Keeps bb (snoopResponse s n m) := by
  unfold snoopResponse
  repeat' first | with_reducible assumption | intro _ | (extract_lets +onlyGivenNames z; refine (fun (hz : Keeps bb z) => ?_) ?_; clear_value z; revert z; intro _ _; rotate_left; unfold z; clear z; rotate_left) | (extract_lets +onlyGivenNames z; refine (fun (hz : Keeps bb z.1) => ?_) ?_; clear_value z; revert z; intro _ _; rotate_left; unfold z; clear z; rotate_left) | (extract_lets +onlyGivenNames z; refine (fun (hz : Keeps bb z) => ?_) ?_; revert z; intro _ _; rotate_left; unfold z; clear z; rotate_left) | (extract_lets +onlyGivenNames z; revert z; intro _) | with_reducible apply State.count1_keeps | with_reducible apply answeredSnoop_keeps | with_reducible apply Keeps.ite | split

theorem execSnpRsp_moves {qf : Prop} (dt : Nat) (col : Nat) (m : CohMsg) (s : State) : Moves ⟨False, qf, False, False⟩ dt s (execSnpRsp dt col m s) := by
  unfold execSnpRsp
  refine run_moves ?_
  intro bb s hb h_s
  have hqm : ¬ bb.q.mem := by rw [hb]; exact id
  have hqr : ¬ bb.q.regs := by rw [hb]; exact id
  have hqp : ¬ bb.q.phase := by rw [hb]; exact id
  try dsimp -zeta only
  repeat' first | with_reducible assumption | intro _ | with_reducible apply Keeps.withState | with_reducible apply Keeps.withSome | with_reducible apply arrive_keeps | with_reducible apply run_keeps | with_reducible apply snoopResponse_keeps | with_reducible apply toServer_keeps | with_reducible apply Keeps.ite | split

theorem execMirroredWriteComplete_moves {qf : Prop} (dt : Nat) (key : Nat) (s : State) : Moves ⟨False, qf, False, False⟩ dt s (execMirroredWriteComplete dt key s) := by
  unfold execMirroredWriteComplete
  refine run_moves ?_
  intro bb s hb h_s
  have hqm : ¬ bb.q.mem := by rw [hb]; exact id
  have hqr : ¬ bb.q.regs := by rw [hb]; exact id
  have hqp : ¬ bb.q.phase := by rw [hb]; exact id
  try dsimp -zeta only
  repeat' first | with_reducible assumption | intro _ | (extract_lets +onlyGivenNames z; refine (fun (hz : Keeps bb z) => ?_) ?_; clear_value z; revert z; intro _ _; rotate_left; unfold z; clear z; rotate_left) | (extract_lets +onlyGivenNames z; refine (fun (hz : Keeps bb z.1) => ?_) ?_; clear_value z; revert z; intro _ _; rotate_left; unfold z; clear z; rotate_left) | (extract_lets +onlyGivenNames z; refine (fun (hz : Keeps bb z) => ?_) ?_; revert z; intro _ _; rotate_left; unfold z; clear z; rotate_left) | (extract_lets +onlyGivenNames z; revert z; intro _) | (simp only [Keeps.mk_iff]; with_reducible apply Keeps.upd) | with_reducible apply Keeps.forEach | with_reducible apply run_keeps | with_reducible apply sendAnswer_keeps | with_reducible apply settle_keeps | with_reducible apply Keeps.ite | split

theorem execUnitDirtyAcked_moves {qf : Prop} (dt : Nat) (unit : Nat) (s : State) : Moves ⟨False, qf, False, False⟩ dt s (execUnitDirtyAcked dt unit s) := by
  unfold execUnitDirtyAcked
  refine run_moves ?_
  intro bb s hb h_s
  have hqm : ¬ bb.q.mem := by rw [hb]; exact id
  have hqr : ¬ bb.q.regs := by rw [hb]; exact id
  have hqp : ¬ bb.q.phase := by rw [hb]; exact id
  try dsimp -zeta only
  repeat' first | with_reducible assumption | intro _ | with_reducible apply run_keeps | with_reducible apply settle_keeps | with_reducible apply Keeps.ite | split

end Sys2Proof.Machine
end

