-- ==== Sys2Proof/Laws/Keeps/AgentOps.lean ====
section
/-! SUPPORT. Every operation and meaning of Machine/AgentOps.lean keeps what `Keeps` says. -/
set_option linter.all false
namespace Sys2Proof.Machine

theorem toHost_keeps {bb : Base} (s : State) (src : HostSource) (what : String) (args : List Nat) (h_s : Keeps bb s)  : Keeps bb (toHost s src what args) := by
  unfold toHost
  repeat' first | with_reducible assumption | intro _ | with_reducible apply State.emit_keeps

theorem hostData_keeps {bb : Base} (s : State) (src : HostSource) (tag : Nat) (g : Nat) (poison : Bool) (data : List Byte) (h_s : Keeps bb s)  : Keeps bb (hostData s src tag g poison data) := by
  unfold hostData
  repeat' first | with_reducible assumption | intro _ | (extract_lets +onlyGivenNames z; refine (fun (hz : Keeps bb z) => ?_) ?_; clear_value z; revert z; intro _ _; rotate_left; unfold z; clear z; rotate_left) | (extract_lets +onlyGivenNames z; refine (fun (hz : Keeps bb z.1) => ?_) ?_; clear_value z; revert z; intro _ _; rotate_left; unfold z; clear z; rotate_left) | (extract_lets +onlyGivenNames z; refine (fun (hz : Keeps bb z) => ?_) ?_; revert z; intro _ _; rotate_left; unfold z; clear z; rotate_left) | (extract_lets +onlyGivenNames z; revert z; intro _) | with_reducible apply toHost_keeps | with_reducible apply Keeps.ite | split

theorem hostEnd_keeps {bb : Base} (s : State) (src : HostSource) (tag : Nat) (read : Bool) (h_s : Keeps bb s)  : Keeps bb (hostEnd s src tag read) := by
  unfold hostEnd
  repeat' first | with_reducible assumption | intro _ | with_reducible apply State.useFree_keeps | with_reducible apply hostData_keeps | with_reducible apply toHost_keeps | with_reducible apply Keeps.ite | split

theorem unsupported_keeps {bb : Base} (s : State) (h_s : Keeps bb s) (hqr : ¬ bb.q.regs := by assumption) (hqp : ¬ bb.q.phase := by assumption) : Keeps bb (unsupported s) := by
  unfold unsupported
  repeat' first | with_reducible assumption | intro _ | with_reducible apply State.count1_keeps | with_reducible apply raise_keeps

theorem sendRequest_keeps {bb : Base} (s : State) (ch : LinkChannel) (m : CohMsg) (h_s : Keeps bb s) (hqr : ¬ bb.q.regs := by assumption) : Keeps bb (sendRequest s ch m) := by
  unfold sendRequest
  repeat' first | with_reducible assumption | intro _ | (extract_lets +onlyGivenNames z; refine (fun (hz : Keeps bb z) => ?_) ?_; clear_value z; revert z; intro _ _; rotate_left; unfold z; clear z; rotate_left) | (extract_lets +onlyGivenNames z; refine (fun (hz : Keeps bb z.1) => ?_) ?_; clear_value z; revert z; intro _ _; rotate_left; unfold z; clear z; rotate_left) | (extract_lets +onlyGivenNames z; refine (fun (hz : Keeps bb z) => ?_) ?_; revert z; intro _ _; rotate_left; unfold z; clear z; rotate_left) | (extract_lets +onlyGivenNames z; revert z; intro _) | (simp only [Keeps.mk_iff]; with_reducible apply Keeps.upd) | with_reducible apply sendInside_keeps

theorem openTxn_keeps {bb : Base} (s : State) (a : Nat) (src : HostSource) (hostTag : Nat) (kind : Nat) (arg : Nat) (k : Nat) (mask : Nat) (data : List Byte) (h_s : Keeps bb s) (hqr : ¬ bb.q.regs := by assumption) : Keeps bb (openTxn s a src hostTag kind arg k mask data) := by
  unfold openTxn
  repeat' first | with_reducible assumption | intro _ | (extract_lets +onlyGivenNames z; refine (fun (hz : Keeps bb z) => ?_) ?_; clear_value z; revert z; intro _ _; rotate_left; unfold z; clear z; rotate_left) | (extract_lets +onlyGivenNames z; refine (fun (hz : Keeps bb z.1) => ?_) ?_; clear_value z; revert z; intro _ _; rotate_left; unfold z; clear z; rotate_left) | (extract_lets +onlyGivenNames z; refine (fun (hz : Keeps bb z) => ?_) ?_; revert z; intro _ _; rotate_left; unfold z; clear z; rotate_left) | (extract_lets +onlyGivenNames z; revert z; intro _) | (simp only [Keeps.mk_iff]; with_reducible apply Keeps.upd) | with_reducible apply sendRequest_keeps | with_reducible apply Keeps.ite | split

theorem sendHome_keeps {bb : Base} (s : State) (h : HomeHeld) (h_s : Keeps bb s) (hqr : ¬ bb.q.regs := by assumption) : Keeps bb (sendHome s h) := by
  unfold sendHome
  repeat' first | with_reducible assumption | intro _ | (extract_lets +onlyGivenNames z; refine (fun (hz : Keeps bb z) => ?_) ?_; clear_value z; revert z; intro _ _; rotate_left; unfold z; clear z; rotate_left) | (extract_lets +onlyGivenNames z; refine (fun (hz : Keeps bb z.1) => ?_) ?_; clear_value z; revert z; intro _ _; rotate_left; unfold z; clear z; rotate_left) | (extract_lets +onlyGivenNames z; refine (fun (hz : Keeps bb z) => ?_) ?_; revert z; intro _ _; rotate_left; unfold z; clear z; rotate_left) | (extract_lets +onlyGivenNames z; revert z; intro _) | (simp only [Keeps.mk_iff]; with_reducible apply Keeps.upd) | with_reducible apply sendInside_keeps

theorem resendHome_keeps {bb : Base} (s : State) (h_s : Keeps bb s) (hqr : ¬ bb.q.regs := by assumption) : Keeps bb (resendHome s) := by
  unfold resendHome
  repeat' first | with_reducible assumption | intro _ | (extract_lets +onlyGivenNames z; refine (fun (hz : Keeps bb z) => ?_) ?_; clear_value z; revert z; intro _ _; rotate_left; unfold z; clear z; rotate_left) | (extract_lets +onlyGivenNames z; refine (fun (hz : Keeps bb z.1) => ?_) ?_; clear_value z; revert z; intro _ _; rotate_left; unfold z; clear z; rotate_left) | (extract_lets +onlyGivenNames z; refine (fun (hz : Keeps bb z) => ?_) ?_; revert z; intro _ _; rotate_left; unfold z; clear z; rotate_left) | (extract_lets +onlyGivenNames z; revert z; intro _) | (simp only [Keeps.mk_iff]; with_reducible apply Keeps.upd) | with_reducible apply Keeps.forEach | with_reducible apply sendHome_keeps

theorem putTxn_keeps {bb : Base} (s : State) (t : Txn) (h_s : Keeps bb s)  : Keeps bb (putTxn s t) := by
  unfold putTxn
  repeat' first | with_reducible assumption | intro _ | (extract_lets +onlyGivenNames z; refine (fun (hz : Keeps bb z) => ?_) ?_; clear_value z; revert z; intro _ _; rotate_left; unfold z; clear z; rotate_left) | (extract_lets +onlyGivenNames z; refine (fun (hz : Keeps bb z.1) => ?_) ?_; clear_value z; revert z; intro _ _; rotate_left; unfold z; clear z; rotate_left) | (extract_lets +onlyGivenNames z; refine (fun (hz : Keeps bb z) => ?_) ?_; revert z; intro _ _; rotate_left; unfold z; clear z; rotate_left) | (extract_lets +onlyGivenNames z; revert z; intro _) | (simp only [Keeps.mk_iff]; with_reducible apply Keeps.upd) | with_reducible apply Keeps.ite | split

theorem dropTxn_keeps {bb : Base} (s : State) (t : Txn) (h_s : Keeps bb s)  : Keeps bb (dropTxn s t) := by
  unfold dropTxn
  repeat' first | with_reducible assumption | intro _ | (extract_lets +onlyGivenNames z; refine (fun (hz : Keeps bb z) => ?_) ?_; clear_value z; revert z; intro _ _; rotate_left; unfold z; clear z; rotate_left) | (extract_lets +onlyGivenNames z; refine (fun (hz : Keeps bb z.1) => ?_) ?_; clear_value z; revert z; intro _ _; rotate_left; unfold z; clear z; rotate_left) | (extract_lets +onlyGivenNames z; refine (fun (hz : Keeps bb z) => ?_) ?_; revert z; intro _ _; rotate_left; unfold z; clear z; rotate_left) | (extract_lets +onlyGivenNames z; revert z; intro _) | (simp only [Keeps.mk_iff]; with_reducible apply Keeps.upd)

theorem abandonTxn_keeps {bb : Base} (s : State) (t : Txn) (h_s : Keeps bb s)  : Keeps bb (abandonTxn s t) := by
  unfold abandonTxn
  repeat' first | with_reducible assumption | intro _ | (extract_lets +onlyGivenNames z; refine (fun (hz : Keeps bb z) => ?_) ?_; clear_value z; revert z; intro _ _; rotate_left; unfold z; clear z; rotate_left) | (extract_lets +onlyGivenNames z; refine (fun (hz : Keeps bb z.1) => ?_) ?_; clear_value z; revert z; intro _ _; rotate_left; unfold z; clear z; rotate_left) | (extract_lets +onlyGivenNames z; refine (fun (hz : Keeps bb z) => ?_) ?_; revert z; intro _ _; rotate_left; unfold z; clear z; rotate_left) | (extract_lets +onlyGivenNames z; revert z; intro _) | (simp only [Keeps.mk_iff]; with_reducible apply Keeps.upd) | with_reducible apply hostEnd_keeps | with_reducible apply putTxn_keeps | with_reducible apply Keeps.ite | split

theorem evictFor_keeps {bb : Base} (s : State) (a : Nat) (src : HostSource) (k : Nat) (h_s : Keeps bb s) (hqr : ¬ bb.q.regs := by assumption) : Keeps bb (evictFor s a src k) := by
  unfold evictFor
  repeat' first | with_reducible assumption | intro _ | with_reducible apply openTxn_keeps

end Sys2Proof.Machine
end

