-- ==== Sys2Proof/Laws/Keeps/GlenOps.lean ====
section
/-! SUPPORT. Every operation and meaning of Machine/GlenOps.lean keeps what `Keeps` says. -/
set_option linter.all false
set_option Elab.async false
namespace Sys2Proof.Machine

theorem State.setChan_keeps {bb : Base} (s : State) (t : Nat) (c : GlenCh) (h_s : Keeps bb s)  : Keeps bb (State.setChan s t c) := by
  unfold State.setChan
  repeat' first | with_reducible assumption | intro _ | (extract_lets +onlyGivenNames z; refine (fun (hz : Keeps bb z) => ?_) ?_; clear_value z; revert z; intro _ _; rotate_left; unfold z; clear z; rotate_left) | (extract_lets +onlyGivenNames z; refine (fun (hz : Keeps bb z.1) => ?_) ?_; clear_value z; revert z; intro _ _; rotate_left; unfold z; clear z; rotate_left) | (extract_lets +onlyGivenNames z; refine (fun (hz : Keeps bb z) => ?_) ?_; revert z; intro _ _; rotate_left; unfold z; clear z; rotate_left) | (extract_lets +onlyGivenNames z; revert z; intro _) | (simp only [Keeps.mk_iff]; with_reducible apply Keeps.upd)

theorem setChanState_keeps {bb : Base} (s : State) (t : Nat) (st : Nat) (h_s : Keeps bb s) (hqr : ¬ bb.q.regs := by assumption) : Keeps bb (setChanState s t st) := by
  unfold setChanState
  repeat' first | with_reducible assumption | intro _ | with_reducible apply State.setRegBits_keeps

theorem chanIrq_keeps {bb : Base} (s : State) (t : Nat) (b : Nat) (h_s : Keeps bb s)  : Keeps bb (chanIrq s t b) := by
  unfold chanIrq
  repeat' first | with_reducible assumption | intro _ | (extract_lets +onlyGivenNames z; refine (fun (hz : Keeps bb z) => ?_) ?_; clear_value z; revert z; intro _ _; rotate_left; unfold z; clear z; rotate_left) | (extract_lets +onlyGivenNames z; refine (fun (hz : Keeps bb z.1) => ?_) ?_; clear_value z; revert z; intro _ _; rotate_left; unfold z; clear z; rotate_left) | (extract_lets +onlyGivenNames z; refine (fun (hz : Keeps bb z) => ?_) ?_; revert z; intro _ _; rotate_left; unfold z; clear z; rotate_left) | (extract_lets +onlyGivenNames z; revert z; intro _) | (simp only [Keeps.mk_iff]; with_reducible apply Keeps.upd) | with_reducible apply State.setChan_keeps | with_reducible apply sendVector_keeps | with_reducible apply Keeps.ite | split

theorem startFetch_keeps {bb : Base} (s : State) (t : Nat) (h_s : Keeps bb s) (hqr : ¬ bb.q.regs := by assumption) : Keeps bb (startFetch s t) := by
  unfold startFetch
  repeat' first | with_reducible assumption | intro _ | (extract_lets +onlyGivenNames z; refine (fun (hz : Keeps bb z) => ?_) ?_; clear_value z; revert z; intro _ _; rotate_left; unfold z; clear z; rotate_left) | (extract_lets +onlyGivenNames z; refine (fun (hz : Keeps bb z.1) => ?_) ?_; clear_value z; revert z; intro _ _; rotate_left; unfold z; clear z; rotate_left) | (extract_lets +onlyGivenNames z; refine (fun (hz : Keeps bb z) => ?_) ?_; revert z; intro _ _; rotate_left; unfold z; clear z; rotate_left) | (extract_lets +onlyGivenNames z; revert z; intro _) | (simp only [Keeps.mk_iff]; with_reducible apply Keeps.upd) | with_reducible apply State.setChan_keeps | with_reducible apply setChanState_keeps

theorem openChanTxn_keeps {bb : Base} (s : State) (m : CohMsg) (h_s : Keeps bb s) (hqr : ¬ bb.q.regs := by assumption) : Keeps bb (openChanTxn s m) := by
  unfold openChanTxn
  repeat' first | with_reducible assumption | intro _ | (extract_lets +onlyGivenNames z; refine (fun (hz : Keeps bb z) => ?_) ?_; clear_value z; revert z; intro _ _; rotate_left; unfold z; clear z; rotate_left) | (extract_lets +onlyGivenNames z; refine (fun (hz : Keeps bb z.1) => ?_) ?_; clear_value z; revert z; intro _ _; rotate_left; unfold z; clear z; rotate_left) | (extract_lets +onlyGivenNames z; refine (fun (hz : Keeps bb z) => ?_) ?_; revert z; intro _ _; rotate_left; unfold z; clear z; rotate_left) | (extract_lets +onlyGivenNames z; revert z; intro _) | (simp only [Keeps.mk_iff]; with_reducible apply Keeps.upd) | with_reducible apply sendRequest_keeps

theorem issueTract_keeps {bb : Base} (s : State) (t : Nat) (kind : Nat) (addr : Nat) (mask : Nat) (data : List Byte) (poison : Bool) (h_s : Keeps bb s) (hqr : ¬ bb.q.regs := by assumption) : Keeps bb (issueTract s t kind addr mask data poison).1 := by
  unfold issueTract
  repeat' first | with_reducible assumption | intro _ | (extract_lets +onlyGivenNames z; refine (fun (hz : Keeps bb z) => ?_) ?_; clear_value z; revert z; intro _ _; rotate_left; unfold z; clear z; rotate_left) | (extract_lets +onlyGivenNames z; refine (fun (hz : Keeps bb z.1) => ?_) ?_; clear_value z; revert z; intro _ _; rotate_left; unfold z; clear z; rotate_left) | (extract_lets +onlyGivenNames z; refine (fun (hz : Keeps bb z) => ?_) ?_; revert z; intro _ _; rotate_left; unfold z; clear z; rotate_left) | (extract_lets +onlyGivenNames z; revert z; intro _) | with_reducible apply judgePart_keeps | with_reducible apply openChanTxn_keeps | with_reducible apply Keeps.ite | split

theorem hostMRd_keeps {bb : Base} (s : State) (t : Nat) (p : Nat) (addr : Nat) (n : Nat) (h_s : Keeps bb s)  : Keeps bb (hostMRd s t p addr n) := by
  unfold hostMRd
  repeat' first | with_reducible assumption | intro _ | with_reducible apply sendGlen_keeps

theorem hostMWr_keeps {bb : Base} (s : State) (t : Nat) (p : Nat) (addr : Nat) (poison : Bool) (relaxed : Bool) (data : List Byte) (h_s : Keeps bb s)  : Keeps bb (hostMWr s t p addr poison relaxed data) := by
  unfold hostMWr
  repeat' first | with_reducible assumption | intro _ | with_reducible apply sendGlen_keeps

theorem issueRead_keeps {base : Base} (s : State) (t : Nat) (d : GlenDesc) (bm : Bool) (h_s : Keeps base s) (hqr : ¬ base.q.regs := by assumption) :
    Keeps base (issueRead s t d bm) := by
  have put : ∀ (u : State) (c : _), Keeps base u → Keeps base (u.setChan t c) := fun u c h => State.setChan_keeps _ _ _ h
  unfold issueRead
  dsimp only
  split
  · have h1 : Keeps base (issueTract s t 3 (d.src + (s.chan t).issued) 0 [] false).1 := issueTract_keeps _ _ _ _ _ _ _ h_s
    split <;> rename_i heq <;> rw [heq] at h1
    · exact put _ _ h1
    · exact put _ _ (State.useFree_keeps _ h1)
  · split
    · exact put _ _ (hostMRd_keeps _ _ _ _ _ h_s)
    · exact put _ _ (State.useFree_keeps _ h_s)

theorem chargeChan_keeps {bb : Base} (s : State) (t : Nat) (n : Nat) (h_s : Keeps bb s)  : Keeps bb (chargeChan s t n) := by
  unfold chargeChan
  repeat' first | with_reducible assumption | intro _ | (extract_lets +onlyGivenNames z; refine (fun (hz : Keeps bb z) => ?_) ?_; clear_value z; revert z; intro _ _; rotate_left; unfold z; clear z; rotate_left) | (extract_lets +onlyGivenNames z; refine (fun (hz : Keeps bb z.1) => ?_) ?_; clear_value z; revert z; intro _ _; rotate_left; unfold z; clear z; rotate_left) | (extract_lets +onlyGivenNames z; refine (fun (hz : Keeps bb z) => ?_) ?_; revert z; intro _ _; rotate_left; unfold z; clear z; rotate_left) | (extract_lets +onlyGivenNames z; revert z; intro _) | (simp only [Keeps.mk_iff]; with_reducible apply Keeps.upd) | with_reducible apply Keeps.ite | split

theorem issueTurn_keeps {base : Base} (t : Nat) (bm : Bool) (fuel left : Nat) (s : State) (h_s : Keeps base s) (hqr : ¬ base.q.regs := by assumption) :
    Keeps base (issueTurn t bm fuel left s) := by
  induction fuel generalizing left s with
  | zero => exact h_s
  | succ n ih =>
    unfold issueTurn
    split
    · exact h_s
    · split
      · exact ih _ _ (issueRead_keeps _ _ _ _ (chargeChan_keeps _ _ _ h_s))
      · exact h_s

theorem wroteBytes_keeps {bb : Base} (s : State) (t : Nat) (off : Nat) (reasons : List Nat) (h_s : Keeps bb s) (hqr : ¬ bb.q.regs := by assumption) : Keeps bb (wroteBytes s t off reasons) := by
  unfold wroteBytes
  repeat' first | with_reducible assumption | intro _ | (extract_lets +onlyGivenNames z; refine (fun (hz : Keeps bb z) => ?_) ?_; clear_value z; revert z; intro _ _; rotate_left; unfold z; clear z; rotate_left) | (extract_lets +onlyGivenNames z; refine (fun (hz : Keeps bb z.1) => ?_) ?_; clear_value z; revert z; intro _ _; rotate_left; unfold z; clear z; rotate_left) | (extract_lets +onlyGivenNames z; refine (fun (hz : Keeps bb z) => ?_) ?_; revert z; intro _ _; rotate_left; unfold z; clear z; rotate_left) | (extract_lets +onlyGivenNames z; revert z; intro _) | (simp only [Keeps.mk_iff]; with_reducible apply Keeps.upd) | with_reducible apply State.count_keeps | with_reducible apply State.setChan_keeps

theorem writeHost_keeps {bb : Base} (s : State) (t : Nat) (d : GlenDesc) (off : Nat) (data : List Byte) (reasons : List Nat) (busMaster : Bool) (h_s : Keeps bb s) (hqr : ¬ bb.q.regs := by assumption) : Keeps bb (writeHost s t d off data reasons busMaster) := by
  unfold writeHost
  repeat' first | with_reducible assumption | intro _ | (extract_lets +onlyGivenNames z; refine (fun (hz : Keeps bb z) => ?_) ?_; clear_value z; revert z; intro _ _; rotate_left; unfold z; clear z; rotate_left) | (extract_lets +onlyGivenNames z; refine (fun (hz : Keeps bb z.1) => ?_) ?_; clear_value z; revert z; intro _ _; rotate_left; unfold z; clear z; rotate_left) | (extract_lets +onlyGivenNames z; refine (fun (hz : Keeps bb z) => ?_) ?_; revert z; intro _ _; rotate_left; unfold z; clear z; rotate_left) | (extract_lets +onlyGivenNames z; revert z; intro _) | with_reducible apply hostMWr_keeps | with_reducible apply logDirty_keeps | with_reducible apply wroteBytes_keeps | split

theorem writeTract_keeps {base : Base} (s : State) (t : Nat) (d : GlenDesc) (off : Nat) (data : List Byte) (reasons : List Nat)
    (h_s : Keeps base s) (hqr : ¬ base.q.regs := by assumption) : Keeps base (writeTract s t d off data reasons) := by
  have h1 : ∀ k a m x p, Keeps base (issueTract s t k a m x p).1 := fun _ _ _ _ _ => issueTract_keeps _ _ _ _ _ _ _ h_s
  unfold writeTract
  extract_lets +onlyGivenNames a n line kind
  have h2 := h1 kind a (if n = 64 then 0 else (2 ^ n - 1) * 2 ^ (a % 64)) (padTo line 64) (reasons.any (· != 0))
  split <;> rename_i heq <;> rw [heq] at h2
  · exact State.setChan_keeps _ _ _ h2
  · exact wroteBytes_keeps _ _ _ _ (State.setChan_keeps _ _ _ h2)

theorem drainHold_keeps {base : Base} (t : Nat) (bm : Bool) (fuel : Nat) (s : State) (h_s : Keeps base s) (hqr : ¬ base.q.regs := by assumption) :
    Keeps base (drainHold t bm fuel s) := by
  induction fuel generalizing s with
  | zero => exact h_s
  | succ n ih =>
    unfold drainHold
    split
    · exact h_s
    · dsimp only
      split
      · exact h_s
      · apply ih
        split
        · exact writeTract_keeps _ _ _ _ _ _ (State.setChan_keeps _ _ _ h_s)
        · exact writeHost_keeps _ _ _ _ _ _ _ (State.setChan_keeps _ _ _ h_s)

theorem passBytes_keeps {bb : Base} (s : State) (t : Nat) (rd : GlenRead) (data : List Byte) (reason : Nat) (busMaster : Bool) (h_s : Keeps bb s) (hqr : ¬ bb.q.regs := by assumption) : Keeps bb (passBytes s t rd data reason busMaster) := by
  unfold passBytes
  repeat' first | with_reducible assumption | intro _ | (extract_lets +onlyGivenNames z; refine (fun (hz : Keeps bb z) => ?_) ?_; clear_value z; revert z; intro _ _; rotate_left; unfold z; clear z; rotate_left) | (extract_lets +onlyGivenNames z; refine (fun (hz : Keeps bb z.1) => ?_) ?_; clear_value z; revert z; intro _ _; rotate_left; unfold z; clear z; rotate_left) | (extract_lets +onlyGivenNames z; refine (fun (hz : Keeps bb z) => ?_) ?_; revert z; intro _ _; rotate_left; unfold z; clear z; rotate_left) | (extract_lets +onlyGivenNames z; revert z; intro _) | (simp only [Keeps.mk_iff]; with_reducible apply Keeps.upd) | with_reducible apply State.setChan_keeps | with_reducible apply drainHold_keeps

theorem readAnswered_keeps {bb : Base} (s : State) (t : Nat) (slot : Nat) (data : Nat → Nat → List Byte) (reason : Nat) (guardBits : Nat) (h_s : Keeps bb s)  : Keeps bb (readAnswered s t slot data reason guardBits) := by
  unfold readAnswered
  repeat' first | with_reducible assumption | intro _ | (extract_lets +onlyGivenNames z; refine (fun (hz : Keeps bb z) => ?_) ?_; clear_value z; revert z; intro _ _; rotate_left; unfold z; clear z; rotate_left) | (extract_lets +onlyGivenNames z; refine (fun (hz : Keeps bb z.1) => ?_) ?_; clear_value z; revert z; intro _ _; rotate_left; unfold z; clear z; rotate_left) | (extract_lets +onlyGivenNames z; refine (fun (hz : Keeps bb z) => ?_) ?_; revert z; intro _ _; rotate_left; unfold z; clear z; rotate_left) | (extract_lets +onlyGivenNames z; revert z; intro _) | (simp only [Keeps.mk_iff]; with_reducible apply Keeps.upd) | with_reducible apply State.setChan_keeps | with_reducible apply Keeps.ite | split

theorem writeAnswered_keeps {bb : Base} (s : State) (t : Nat) (slot : Nat) (reason : Nat) (guardBits : Nat) (h_s : Keeps bb s) (hqr : ¬ bb.q.regs := by assumption) : Keeps bb (writeAnswered s t slot reason guardBits) := by
  unfold writeAnswered
  repeat' first | with_reducible assumption | intro _ | (extract_lets +onlyGivenNames z; refine (fun (hz : Keeps bb z) => ?_) ?_; clear_value z; revert z; intro _ _; rotate_left; unfold z; clear z; rotate_left) | (extract_lets +onlyGivenNames z; refine (fun (hz : Keeps bb z.1) => ?_) ?_; clear_value z; revert z; intro _ _; rotate_left; unfold z; clear z; rotate_left) | (extract_lets +onlyGivenNames z; refine (fun (hz : Keeps bb z) => ?_) ?_; revert z; intro _ _; rotate_left; unfold z; clear z; rotate_left) | (extract_lets +onlyGivenNames z; revert z; intro _) | (simp only [Keeps.mk_iff]; with_reducible apply Keeps.upd) | with_reducible apply State.setChan_keeps | with_reducible apply wroteBytes_keeps | with_reducible apply Keeps.ite | split

theorem accessFails_keeps {bb : Base} (s : State) (t : Nat) (slot : Nat) (reason : Nat) (guardBits : Nat) (h_s : Keeps bb s) (hqr : ¬ bb.q.regs := by assumption) : Keeps bb (accessFails s t slot reason guardBits) := by
  unfold accessFails
  repeat' first | with_reducible assumption | intro _ | with_reducible apply State.useFree_keeps | with_reducible apply readAnswered_keeps | with_reducible apply writeAnswered_keeps | with_reducible apply Keeps.ite | split

theorem glenAnswer_keeps {base : Base} (s : State) (m : CohMsg) (x : Txn) (h_s : Keeps base s) (hqr : ¬ base.q.regs := by assumption) : Keeps base (glenAnswer s m x) := by
  have h1 : ∀ g, Keeps base (dropTxn { s with glen := g } x) := fun g => dropTxn_keeps _ _ (Keeps.mk_iff.mpr h_s.upd)
  unfold glenAnswer
  dsimp only
  refine Keeps.withSome (h1 _) fun t => ?_
  cases assocGet s.glen.verdicts m.tag with
  | some r => exact accessFails_keeps _ _ _ _ _ (h1 _)
  | none =>
    exact Keeps.ite (accessFails_keeps _ _ _ _ _ (h1 _)) (Keeps.ite (readAnswered_keeps _ _ _ _ _ _ (h1 _)) (writeAnswered_keeps _ _ _ _ _ (h1 _)))

theorem glenTimeout_keeps {bb : Base} (s : State) (x : Txn) (h_s : Keeps bb s) (hqr : ¬ bb.q.regs := by assumption) : Keeps bb (glenTimeout s x) := by
  unfold glenTimeout
  repeat' first | with_reducible assumption | intro _ | with_reducible apply Keeps.withState | with_reducible apply Keeps.withSome | with_reducible apply accessFails_keeps

theorem writeBack16_keeps {bb : Base} (s : State) (t : Nat) (d : GlenDesc) (busMaster : Bool) (h_s : Keeps bb s) (hqm : ¬ bb.q.mem := by assumption) (hqr : ¬ bb.q.regs := by assumption) (hqp : ¬ bb.q.phase := by assumption) : Keeps bb (writeBack16 s t d busMaster) := by
  unfold writeBack16
  repeat' first | with_reducible assumption | intro _ | (extract_lets +onlyGivenNames z; refine (fun (hz : Keeps bb z) => ?_) ?_; clear_value z; revert z; intro _ _; rotate_left; unfold z; clear z; rotate_left) | (extract_lets +onlyGivenNames z; refine (fun (hz : Keeps bb z.1) => ?_) ?_; clear_value z; revert z; intro _ _; rotate_left; unfold z; clear z; rotate_left) | (extract_lets +onlyGivenNames z; refine (fun (hz : Keeps bb z) => ?_) ?_; revert z; intro _ _; rotate_left; unfold z; clear z; rotate_left) | (extract_lets +onlyGivenNames z; revert z; intro _) | with_reducible apply State.sysWrite_keeps | with_reducible apply hostMWr_keeps | with_reducible apply logDirty_keeps | with_reducible apply Keeps.ite | split

theorem chanFault_keeps {bb : Base} (s : State) (t : Nat) (h_s : Keeps bb s) (hqr : ¬ bb.q.regs := by assumption) : Keeps bb (chanFault s t) := by
  unfold chanFault
  repeat' first | with_reducible assumption | intro _ | with_reducible apply State.count1_keeps | with_reducible apply chanIrq_keeps

theorem enterFaulted_keeps {bb : Base} (s : State) (t : Nat) (h_s : Keeps bb s) (hqr : ¬ bb.q.regs := by assumption) (hqp : ¬ bb.q.phase := by assumption) : Keeps bb (enterFaulted s t) := by
  unfold enterFaulted
  repeat' first | with_reducible assumption | intro _ | with_reducible apply raise_keeps | with_reducible apply setChanState_keeps

theorem fetchFails_keeps {bb : Base} (s : State) (t : Nat) (h_s : Keeps bb s) (hqr : ¬ bb.q.regs := by assumption) (hqp : ¬ bb.q.phase := by assumption) : Keeps bb (fetchFails s t) := by
  unfold fetchFails
  repeat' first | with_reducible assumption | intro _ | (extract_lets +onlyGivenNames z; refine (fun (hz : Keeps bb z) => ?_) ?_; clear_value z; revert z; intro _ _; rotate_left; unfold z; clear z; rotate_left) | (extract_lets +onlyGivenNames z; refine (fun (hz : Keeps bb z.1) => ?_) ?_; clear_value z; revert z; intro _ _; rotate_left; unfold z; clear z; rotate_left) | (extract_lets +onlyGivenNames z; refine (fun (hz : Keeps bb z) => ?_) ?_; revert z; intro _ _; rotate_left; unfold z; clear z; rotate_left) | (extract_lets +onlyGivenNames z; revert z; intro _) | (simp only [Keeps.mk_iff]; with_reducible apply Keeps.upd) | with_reducible apply State.putRegBit_keeps | with_reducible apply State.setChan_keeps | with_reducible apply chanFault_keeps | with_reducible apply enterFaulted_keeps

theorem reportDesc_keeps {bb : Base} (s : State) (t : Nat) (d : GlenDesc) (h_s : Keeps bb s) (hqr : ¬ bb.q.regs := by assumption) : Keeps bb (reportDesc s t d) := by
  unfold reportDesc
  repeat' first | with_reducible assumption | intro _ | (extract_lets +onlyGivenNames z; refine (fun (hz : Keeps bb z) => ?_) ?_; clear_value z; revert z; intro _ _; rotate_left; unfold z; clear z; rotate_left) | (extract_lets +onlyGivenNames z; refine (fun (hz : Keeps bb z.1) => ?_) ?_; clear_value z; revert z; intro _ _; rotate_left; unfold z; clear z; rotate_left) | (extract_lets +onlyGivenNames z; refine (fun (hz : Keeps bb z) => ?_) ?_; revert z; intro _ _; rotate_left; unfold z; clear z; rotate_left) | (extract_lets +onlyGivenNames z; revert z; intro _) | with_reducible apply State.count1_keeps | with_reducible apply State.putRegBit_keeps | with_reducible apply State.setRegBits_keeps | with_reducible apply chanFault_keeps | with_reducible apply chanIrq_keeps | with_reducible apply Keeps.ite | split

theorem leaveDesc_keeps {bb : Base} (s : State) (t : Nat) (d : GlenDesc) (h_s : Keeps bb s) (hqr : ¬ bb.q.regs := by assumption) : Keeps bb (leaveDesc s t d) := by
  unfold leaveDesc
  repeat' first | with_reducible assumption | intro _ | (extract_lets +onlyGivenNames z; refine (fun (hz : Keeps bb z) => ?_) ?_; clear_value z; revert z; intro _ _; rotate_left; unfold z; clear z; rotate_left) | (extract_lets +onlyGivenNames z; refine (fun (hz : Keeps bb z.1) => ?_) ?_; clear_value z; revert z; intro _ _; rotate_left; unfold z; clear z; rotate_left) | (extract_lets +onlyGivenNames z; refine (fun (hz : Keeps bb z) => ?_) ?_; revert z; intro _ _; rotate_left; unfold z; clear z; rotate_left) | (extract_lets +onlyGivenNames z; revert z; intro _) | (simp only [Keeps.mk_iff]; with_reducible apply Keeps.upd) | with_reducible apply State.setChan_keeps | with_reducible apply State.setReg_keeps

theorem completeDesc_keeps {bb : Base} (s : State) (t : Nat) (d : GlenDesc) (busMaster : Bool) (h_s : Keeps bb s) (hqm : ¬ bb.q.mem := by assumption) (hqr : ¬ bb.q.regs := by assumption) (hqp : ¬ bb.q.phase := by assumption) : Keeps bb (completeDesc s t d busMaster) := by
  unfold completeDesc
  repeat' first | with_reducible assumption | intro _ | (extract_lets +onlyGivenNames z; refine (fun (hz : Keeps bb z) => ?_) ?_; clear_value z; revert z; intro _ _; rotate_left; unfold z; clear z; rotate_left) | (extract_lets +onlyGivenNames z; refine (fun (hz : Keeps bb z.1) => ?_) ?_; clear_value z; revert z; intro _ _; rotate_left; unfold z; clear z; rotate_left) | (extract_lets +onlyGivenNames z; refine (fun (hz : Keeps bb z) => ?_) ?_; revert z; intro _ _; rotate_left; unfold z; clear z; rotate_left) | (extract_lets +onlyGivenNames z; revert z; intro _) | with_reducible apply chanIrq_keeps | with_reducible apply enterFaulted_keeps | with_reducible apply leaveDesc_keeps | with_reducible apply reportDesc_keeps | with_reducible apply setChanState_keeps | with_reducible apply startFetch_keeps | with_reducible apply writeBack16_keeps | with_reducible apply Keeps.ite | split

theorem resetEngineChan_keeps {bb : Base} (s : State) (t : Nat) (h_s : Keeps bb s) (hqm : ¬ bb.q.mem := by assumption) (hqr : ¬ bb.q.regs := by assumption) (hqp : ¬ bb.q.phase := by assumption) : Keeps bb (resetEngineChan s t) := by
  unfold resetEngineChan
  repeat' first | with_reducible assumption | intro _ | (extract_lets +onlyGivenNames z; refine (fun (hz : Keeps bb z) => ?_) ?_; clear_value z; revert z; intro _ _; rotate_left; unfold z; clear z; rotate_left) | (extract_lets +onlyGivenNames z; refine (fun (hz : Keeps bb z.1) => ?_) ?_; clear_value z; revert z; intro _ _; rotate_left; unfold z; clear z; rotate_left) | (extract_lets +onlyGivenNames z; refine (fun (hz : Keeps bb z) => ?_) ?_; revert z; intro _ _; rotate_left; unfold z; clear z; rotate_left) | (extract_lets +onlyGivenNames z; revert z; intro _) | (simp only [Keeps.mk_iff]; with_reducible apply Keeps.upd) | with_reducible apply State.setChan_keeps | with_reducible apply enterFaulted_keeps | with_reducible apply fetchFails_keeps | with_reducible apply leaveDesc_keeps | with_reducible apply reportDesc_keeps | with_reducible apply writeBack16_keeps | with_reducible apply Keeps.foldl | with_reducible apply Keeps.ite | split

theorem resetEngine_keeps {bb : Base} (s : State) (e : Nat) (h_s : Keeps bb s) (hqm : ¬ bb.q.mem := by assumption) (hqr : ¬ bb.q.regs := by assumption) (hqp : ¬ bb.q.phase := by assumption) : Keeps bb (resetEngine s e) := by
  unfold resetEngine
  repeat' first | with_reducible assumption | intro _ | with_reducible apply Keeps.forEach | with_reducible apply resetEngineChan_keeps

theorem resetEngines_keeps {bb : Base} (s : State) (h_s : Keeps bb s) (hqm : ¬ bb.q.mem := by assumption) (hqr : ¬ bb.q.regs := by assumption) (hqp : ¬ bb.q.phase := by assumption) : Keeps bb (resetEngines s) := by
  unfold resetEngines
  repeat' first | with_reducible assumption | intro _ | (extract_lets +onlyGivenNames z; refine (fun (hz : Keeps bb z) => ?_) ?_; clear_value z; revert z; intro _ _; rotate_left; unfold z; clear z; rotate_left) | (extract_lets +onlyGivenNames z; refine (fun (hz : Keeps bb z.1) => ?_) ?_; clear_value z; revert z; intro _ _; rotate_left; unfold z; clear z; rotate_left) | (extract_lets +onlyGivenNames z; refine (fun (hz : Keeps bb z) => ?_) ?_; revert z; intro _ _; rotate_left; unfold z; clear z; rotate_left) | (extract_lets +onlyGivenNames z; revert z; intro _) | (simp only [Keeps.mk_iff]; with_reducible apply Keeps.upd) | with_reducible apply Keeps.forEach | with_reducible apply resetEngine_keeps

theorem resetChannel_keeps {bb : Base} (s : State) (t : Nat) (h_s : Keeps bb s) (hqr : ¬ bb.q.regs := by assumption) : Keeps bb (resetChannel s t) := by
  unfold resetChannel
  repeat' first | with_reducible assumption | intro _ | (extract_lets +onlyGivenNames z; refine (fun (hz : Keeps bb z) => ?_) ?_; clear_value z; revert z; intro _ _; rotate_left; unfold z; clear z; rotate_left) | (extract_lets +onlyGivenNames z; refine (fun (hz : Keeps bb z.1) => ?_) ?_; clear_value z; revert z; intro _ _; rotate_left; unfold z; clear z; rotate_left) | (extract_lets +onlyGivenNames z; refine (fun (hz : Keeps bb z) => ?_) ?_; revert z; intro _ _; rotate_left; unfold z; clear z; rotate_left) | (extract_lets +onlyGivenNames z; revert z; intro _) | (simp only [Keeps.mk_iff]; with_reducible apply Keeps.upd) | with_reducible apply State.putRegBit_keeps | with_reducible apply State.setReg_keeps | with_reducible apply setChanState_keeps | split

end Sys2Proof.Machine
end

