-- ==== Sys2Proof/Laws/Keeps/PortAgent.lean ====
section
/-! SUPPORT. Every operation and meaning of Machine/PortAgent.lean keeps what `Keeps` says. -/
set_option linter.all false
set_option Elab.async false
namespace Sys2Proof.Machine

theorem hostNxm_keeps {bb : Base} (s : State) (src : HostSource) (tag : Nat) (read : Bool) (h_s : Keeps bb s) (hqr : ¬ bb.q.regs := by assumption) : Keeps bb (hostNxm s src tag read) := by
  unfold hostNxm
  repeat' first | with_reducible assumption | intro _ | (extract_lets +onlyGivenNames z; refine (fun (hz : Keeps bb z) => ?_) ?_; clear_value z; revert z; intro _ _; rotate_left; unfold z; clear z; rotate_left) | (extract_lets +onlyGivenNames z; refine (fun (hz : Keeps bb z.1) => ?_) ?_; clear_value z; revert z; intro _ _; rotate_left; unfold z; clear z; rotate_left) | (extract_lets +onlyGivenNames z; refine (fun (hz : Keeps bb z) => ?_) ?_; revert z; intro _ _; rotate_left; unfold z; clear z; rotate_left) | (extract_lets +onlyGivenNames z; revert z; intro _) | with_reducible apply State.count1_keeps | with_reducible apply toHost_keeps | with_reducible apply Keeps.ite | split

theorem hostRequest_keeps {bb : Base} (s : State) (src : HostSource) (a : Nat) (tag : Nat) (kind : Nat) (arg : Nat) (k : Nat) (mask : Nat) (data : List Byte) (h_s : Keeps bb s) (hqr : ¬ bb.q.regs := by assumption) : Keeps bb (hostRequest s src a tag kind arg k mask data) := by
  unfold hostRequest
  repeat' first | with_reducible assumption | intro _ | (extract_lets +onlyGivenNames z; refine (fun (hz : Keeps bb z) => ?_) ?_; clear_value z; revert z; intro _ _; rotate_left; unfold z; clear z; rotate_left) | (extract_lets +onlyGivenNames z; refine (fun (hz : Keeps bb z.1) => ?_) ?_; clear_value z; revert z; intro _ _; rotate_left; unfold z; clear z; rotate_left) | (extract_lets +onlyGivenNames z; refine (fun (hz : Keeps bb z) => ?_) ?_; revert z; intro _ _; rotate_left; unfold z; clear z; rotate_left) | (extract_lets +onlyGivenNames z; revert z; intro _) | with_reducible apply guardFail_keeps | with_reducible apply hostEnd_keeps | with_reducible apply hostNxm_keeps | with_reducible apply openTxn_keeps | with_reducible apply Keeps.ite | split

theorem reqEffect_keeps {bb : Base} (s : State) (src : HostSource) (m : HostReq) (a : Nat) (h_s : Keeps bb s) (hqr : ¬ bb.q.regs := by assumption) (hqp : ¬ bb.q.phase := by assumption) : Keeps bb (reqEffect s src m a) := by
  unfold reqEffect
  repeat' first | with_reducible assumption | intro _ | with_reducible apply hostEnd_keeps | with_reducible apply hostNxm_keeps | with_reducible apply hostRequest_keeps | with_reducible apply unsupported_keeps | split

theorem execHostM2sReq_moves {qm qf : Prop} (dt : Nat) (src : HostSource) (m : HostReq) (s : State) : Moves ⟨qm, qf, False, False⟩ dt s (execHostM2sReq dt src m s) := by
  unfold execHostM2sReq
  refine run_moves ?_
  intro bb s hb h_s
  have hqr : ¬ bb.q.regs := by rw [hb]; exact id
  have hqp : ¬ bb.q.phase := by rw [hb]; exact id
  try dsimp -zeta only
  repeat' first | with_reducible assumption | intro _ | with_reducible apply Keeps.withState | with_reducible apply Keeps.withSome | with_reducible apply reqEffect_keeps | with_reducible apply run_keeps

theorem rwdEffect_keeps {bb : Base} (s : State) (src : HostSource) (m : HostRwd) (a : Nat) (h_s : Keeps bb s) (hqr : ¬ bb.q.regs := by assumption) (hqp : ¬ bb.q.phase := by assumption) : Keeps bb (rwdEffect s src m a) := by
  unfold rwdEffect
  repeat' first | with_reducible assumption | intro _ | with_reducible apply hostEnd_keeps | with_reducible apply hostNxm_keeps | with_reducible apply hostRequest_keeps | with_reducible apply unsupported_keeps | with_reducible apply Keeps.ite | split

theorem execHostM2sRwd_moves {qm qf : Prop} (dt : Nat) (src : HostSource) (m : HostRwd) (s : State) : Moves ⟨qm, qf, False, False⟩ dt s (execHostM2sRwd dt src m s) := by
  unfold execHostM2sRwd
  refine run_moves ?_
  intro bb s hb h_s
  have hqr : ¬ bb.q.regs := by rw [hb]; exact id
  have hqp : ¬ bb.q.phase := by rw [hb]; exact id
  try dsimp -zeta only
  repeat' first | with_reducible assumption | intro _ | with_reducible apply Keeps.withState | with_reducible apply Keeps.withSome | with_reducible apply run_keeps | with_reducible apply rwdEffect_keeps

theorem birspEffect_keeps {bb : Base} (s : State) (src : HostSource) (m : HostBirsp) (a : Nat) (h_s : Keeps bb s) (hqr : ¬ bb.q.regs := by assumption) (hqp : ¬ bb.q.phase := by assumption) : Keeps bb (birspEffect s src m a) := by
  unfold birspEffect
  repeat' first | with_reducible assumption | intro _ | (extract_lets +onlyGivenNames z; refine (fun (hz : Keeps bb z) => ?_) ?_; clear_value z; revert z; intro _ _; rotate_left; unfold z; clear z; rotate_left) | (extract_lets +onlyGivenNames z; refine (fun (hz : Keeps bb z.1) => ?_) ?_; clear_value z; revert z; intro _ _; rotate_left; unfold z; clear z; rotate_left) | (extract_lets +onlyGivenNames z; refine (fun (hz : Keeps bb z) => ?_) ?_; revert z; intro _ _; rotate_left; unfold z; clear z; rotate_left) | (extract_lets +onlyGivenNames z; revert z; intro _) | (simp only [Keeps.mk_iff]; with_reducible apply Keeps.upd) | with_reducible apply unsupported_keeps | with_reducible apply Keeps.ite | split

theorem execHostBirsp_moves {qm qf : Prop} (dt : Nat) (src : HostSource) (m : HostBirsp) (s : State) : Moves ⟨qm, qf, False, False⟩ dt s (execHostBirsp dt src m s) := by
  unfold execHostBirsp
  refine run_moves ?_
  intro bb s hb h_s
  have hqr : ¬ bb.q.regs := by rw [hb]; exact id
  have hqp : ¬ bb.q.phase := by rw [hb]; exact id
  try dsimp -zeta only
  repeat' first | with_reducible assumption | intro _ | with_reducible apply Keeps.withState | with_reducible apply Keeps.withSome | with_reducible apply birspEffect_keeps | with_reducible apply run_keeps

theorem execBirspForward_moves {qm qf qp : Prop} (dt : Nat) (agent : Nat) (key : Nat) (s : State) : Moves ⟨qm, qf, False, qp⟩ dt s (execBirspForward dt agent key s) := by
  unfold execBirspForward
  refine run_moves ?_
  intro bb s hb h_s
  have hqr : ¬ bb.q.regs := by rw [hb]; exact id
  try dsimp -zeta only
  repeat' first | with_reducible assumption | intro _ | (extract_lets +onlyGivenNames z; refine (fun (hz : Keeps bb z) => ?_) ?_; clear_value z; revert z; intro _ _; rotate_left; unfold z; clear z; rotate_left) | (extract_lets +onlyGivenNames z; refine (fun (hz : Keeps bb z.1) => ?_) ?_; clear_value z; revert z; intro _ _; rotate_left; unfold z; clear z; rotate_left) | (extract_lets +onlyGivenNames z; refine (fun (hz : Keeps bb z) => ?_) ?_; revert z; intro _ _; rotate_left; unfold z; clear z; rotate_left) | (extract_lets +onlyGivenNames z; revert z; intro _) | (simp only [Keeps.mk_iff]; with_reducible apply Keeps.upd) | with_reducible apply Keeps.withState | with_reducible apply Keeps.withSome | with_reducible apply run_keeps | with_reducible apply sendRequest_keeps | with_reducible apply Keeps.ite | split

theorem execBiconflict_moves {qm qf qp : Prop} (dt : Nat) (src : HostSource) (addr : Nat) (s : State) : Moves ⟨qm, qf, False, qp⟩ dt s (execBiconflict dt src addr s) := by
  unfold execBiconflict
  refine run_moves ?_
  intro bb s hb h_s
  have hqr : ¬ bb.q.regs := by rw [hb]; exact id
  try dsimp -zeta only
  repeat' first | with_reducible assumption | intro _ | (extract_lets +onlyGivenNames z; refine (fun (hz : Keeps bb z) => ?_) ?_; clear_value z; revert z; intro _ _; rotate_left; unfold z; clear z; rotate_left) | (extract_lets +onlyGivenNames z; refine (fun (hz : Keeps bb z.1) => ?_) ?_; clear_value z; revert z; intro _ _; rotate_left; unfold z; clear z; rotate_left) | (extract_lets +onlyGivenNames z; refine (fun (hz : Keeps bb z) => ?_) ?_; revert z; intro _ _; rotate_left; unfold z; clear z; rotate_left) | (extract_lets +onlyGivenNames z; revert z; intro _) | (simp only [Keeps.mk_iff]; with_reducible apply Keeps.upd) | with_reducible apply Keeps.withState | with_reducible apply State.count1_keeps | with_reducible apply Keeps.withSome | with_reducible apply run_keeps

theorem execBiconflictAck_moves {qm qf qr qp : Prop} (dt : Nat) (agent : Nat) (key : Nat) (s : State) : Moves ⟨qm, qf, qr, qp⟩ dt s (execBiconflictAck dt agent key s) := by
  unfold execBiconflictAck
  refine run_moves ?_
  intro bb s hb h_s
  try dsimp -zeta only
  repeat' first | with_reducible assumption | intro _ | (extract_lets +onlyGivenNames z; refine (fun (hz : Keeps bb z) => ?_) ?_; clear_value z; revert z; intro _ _; rotate_left; unfold z; clear z; rotate_left) | (extract_lets +onlyGivenNames z; refine (fun (hz : Keeps bb z.1) => ?_) ?_; clear_value z; revert z; intro _ _; rotate_left; unfold z; clear z; rotate_left) | (extract_lets +onlyGivenNames z; refine (fun (hz : Keeps bb z) => ?_) ?_; revert z; intro _ _; rotate_left; unfold z; clear z; rotate_left) | (extract_lets +onlyGivenNames z; revert z; intro _) | (simp only [Keeps.mk_iff]; with_reducible apply Keeps.upd) | with_reducible apply State.emit_keeps | with_reducible apply run_keeps | with_reducible apply Keeps.ite | split

theorem passProxy_keeps {bb : Base} (s : State) (m : CohMsg) (h_s : Keeps bb s) (hqm : ¬ bb.q.mem := by assumption) (hqr : ¬ bb.q.regs := by assumption) (hqp : ¬ bb.q.phase := by assumption) : Keeps bb (passProxy s m) := by
  unfold passProxy
  repeat' first | with_reducible assumption | intro _ | (extract_lets +onlyGivenNames z; refine (fun (hz : Keeps bb z) => ?_) ?_; clear_value z; revert z; intro _ _; rotate_left; unfold z; clear z; rotate_left) | (extract_lets +onlyGivenNames z; refine (fun (hz : Keeps bb z.1) => ?_) ?_; clear_value z; revert z; intro _ _; rotate_left; unfold z; clear z; rotate_left) | (extract_lets +onlyGivenNames z; refine (fun (hz : Keeps bb z) => ?_) ?_; revert z; intro _ _; rotate_left; unfold z; clear z; rotate_left) | (extract_lets +onlyGivenNames z; revert z; intro _) | (simp only [Keeps.mk_iff]; with_reducible apply Keeps.upd) | with_reducible apply lookupEnt_keeps | with_reducible apply setEnt_keeps | with_reducible apply settleDead_keeps | with_reducible apply Keeps.ite | split

theorem lateAnswer_keeps {bb : Base} (s : State) (m : CohMsg) (t : Txn) (h_s : Keeps bb s) (hqr : ¬ bb.q.regs := by assumption) : Keeps bb (lateAnswer s m t) := by
  unfold lateAnswer
  repeat' first | with_reducible assumption | intro _ | (extract_lets +onlyGivenNames z; refine (fun (hz : Keeps bb z) => ?_) ?_; clear_value z; revert z; intro _ _; rotate_left; unfold z; clear z; rotate_left) | (extract_lets +onlyGivenNames z; refine (fun (hz : Keeps bb z.1) => ?_) ?_; clear_value z; revert z; intro _ _; rotate_left; unfold z; clear z; rotate_left) | (extract_lets +onlyGivenNames z; refine (fun (hz : Keeps bb z) => ?_) ?_; revert z; intro _ _; rotate_left; unfold z; clear z; rotate_left) | (extract_lets +onlyGivenNames z; revert z; intro _) | with_reducible apply State.count1_keeps | with_reducible apply dropTxn_keeps | with_reducible apply evictFor_keeps | with_reducible apply Keeps.ite | split

theorem answerHost_keeps {bb : Base} (s : State) (m : CohMsg) (t : Txn) (h_s : Keeps bb s)  : Keeps bb (answerHost s m t) := by
  unfold answerHost
  repeat' first | with_reducible assumption | intro _ | (extract_lets +onlyGivenNames z; refine (fun (hz : Keeps bb z) => ?_) ?_; clear_value z; revert z; intro _ _; rotate_left; unfold z; clear z; rotate_left) | (extract_lets +onlyGivenNames z; refine (fun (hz : Keeps bb z.1) => ?_) ?_; clear_value z; revert z; intro _ _; rotate_left; unfold z; clear z; rotate_left) | (extract_lets +onlyGivenNames z; refine (fun (hz : Keeps bb z) => ?_) ?_; revert z; intro _ _; rotate_left; unfold z; clear z; rotate_left) | (extract_lets +onlyGivenNames z; revert z; intro _) | with_reducible apply dropTxn_keeps | with_reducible apply hostData_keeps | with_reducible apply toHost_keeps | with_reducible apply Keeps.ite | split

theorem takeAnswer_keeps {bb : Base} (s : State) (m : CohMsg) (h_s : Keeps bb s) (hqr : ¬ bb.q.regs := by assumption) : Keeps bb (takeAnswer s m) := by
  unfold takeAnswer
  repeat' first | with_reducible assumption | intro _ | with_reducible apply answerHost_keeps | with_reducible apply glenAnswer_keeps | with_reducible apply lateAnswer_keeps | with_reducible apply Keeps.ite | split

theorem answerAtProxy_keeps {bb : Base} (s : State) (n : Nat) (m : CohMsg) (h_s : Keeps bb s) (hqm : ¬ bb.q.mem := by assumption) (hqr : ¬ bb.q.regs := by assumption) (hqp : ¬ bb.q.phase := by assumption) : Keeps bb (answerAtProxy s n m) := by
  unfold answerAtProxy
  repeat' first | with_reducible assumption | intro _ | (extract_lets +onlyGivenNames z; refine (fun (hz : Keeps bb z) => ?_) ?_; clear_value z; revert z; intro _ _; rotate_left; unfold z; clear z; rotate_left) | (extract_lets +onlyGivenNames z; refine (fun (hz : Keeps bb z.1) => ?_) ?_; clear_value z; revert z; intro _ _; rotate_left; unfold z; clear z; rotate_left) | (extract_lets +onlyGivenNames z; refine (fun (hz : Keeps bb z) => ?_) ?_; revert z; intro _ _; rotate_left; unfold z; clear z; rotate_left) | (extract_lets +onlyGivenNames z; revert z; intro _) | with_reducible apply KeepsO.getD | with_reducible apply arrive_keeps | with_reducible apply beginEvict_keeps | with_reducible apply passProxy_keeps | with_reducible apply sendReply_keeps | with_reducible apply toServer_keeps | with_reducible apply Keeps.ite | split

theorem answerArrives_keeps {bb : Base} (kind : Nat) (m : CohMsg) (s : State) (h_s : Keeps bb s) (hqm : ¬ bb.q.mem := by assumption) (hqr : ¬ bb.q.regs := by assumption) (hqp : ¬ bb.q.phase := by assumption) : Keeps bb (answerArrives kind m s) := by
  unfold answerArrives
  repeat' first | with_reducible assumption | intro _ | with_reducible apply Keeps.withState | with_reducible apply Keeps.withSome | with_reducible apply answerAtProxy_keeps | with_reducible apply arrive_keeps | with_reducible apply takeAnswer_keeps | with_reducible apply Keeps.ite | split

theorem execData_moves {qf : Prop} (dt : Nat) (m : CohMsg) (s : State) : Moves ⟨False, qf, False, False⟩ dt s (execData dt m s) := by
  unfold execData
  refine run_moves ?_
  intro bb s hb h_s
  have hqm : ¬ bb.q.mem := by rw [hb]; exact id
  have hqr : ¬ bb.q.regs := by rw [hb]; exact id
  have hqp : ¬ bb.q.phase := by rw [hb]; exact id
  repeat' first | with_reducible assumption | intro _ | with_reducible apply answerArrives_keeps | with_reducible apply run_keeps

theorem execCmp_moves {qf : Prop} (dt : Nat) (m : CohMsg) (s : State) : Moves ⟨False, qf, False, False⟩ dt s (execCmp dt m s) := by
  unfold execCmp
  refine run_moves ?_
  intro bb s hb h_s
  have hqm : ¬ bb.q.mem := by rw [hb]; exact id
  have hqr : ¬ bb.q.regs := by rw [hb]; exact id
  have hqp : ¬ bb.q.phase := by rw [hb]; exact id
  repeat' first | with_reducible assumption | intro _ | with_reducible apply answerArrives_keeps | with_reducible apply run_keeps

theorem takeNack_keeps {bb : Base} (s : State) (m : CohMsg) (t : Txn) (h_s : Keeps bb s)  : Keeps bb (takeNack s m t) := by
  unfold takeNack
  repeat' first | with_reducible assumption | intro _ | (extract_lets +onlyGivenNames z; refine (fun (hz : Keeps bb z) => ?_) ?_; clear_value z; revert z; intro _ _; rotate_left; unfold z; clear z; rotate_left) | (extract_lets +onlyGivenNames z; refine (fun (hz : Keeps bb z.1) => ?_) ?_; clear_value z; revert z; intro _ _; rotate_left; unfold z; clear z; rotate_left) | (extract_lets +onlyGivenNames z; refine (fun (hz : Keeps bb z) => ?_) ?_; revert z; intro _ _; rotate_left; unfold z; clear z; rotate_left) | (extract_lets +onlyGivenNames z; revert z; intro _) | (simp only [Keeps.mk_iff]; with_reducible apply Keeps.upd) | with_reducible apply putTxn_keeps | with_reducible apply Keeps.ite | split

theorem nackAtProxy_keeps {bb : Base} (s : State) (n : Nat) (m : CohMsg) (h_s : Keeps bb s) (hqr : ¬ bb.q.regs := by assumption) : Keeps bb (nackAtProxy s n m) := by
  unfold nackAtProxy
  repeat' first | with_reducible assumption | intro _ | (extract_lets +onlyGivenNames z; refine (fun (hz : Keeps bb z) => ?_) ?_; clear_value z; revert z; intro _ _; rotate_left; unfold z; clear z; rotate_left) | (extract_lets +onlyGivenNames z; refine (fun (hz : Keeps bb z.1) => ?_) ?_; clear_value z; revert z; intro _ _; rotate_left; unfold z; clear z; rotate_left) | (extract_lets +onlyGivenNames z; refine (fun (hz : Keeps bb z) => ?_) ?_; revert z; intro _ _; rotate_left; unfold z; clear z; rotate_left) | (extract_lets +onlyGivenNames z; revert z; intro _) | (simp only [Keeps.mk_iff]; with_reducible apply Keeps.upd) | with_reducible apply KeepsO.getD | with_reducible apply arrive_keeps | with_reducible apply sendReply_keeps | with_reducible apply toServer_keeps | with_reducible apply Keeps.ite | split

theorem nackAtAgent_keeps {bb : Base} (s : State) (m : CohMsg) (h_s : Keeps bb s) (hqr : ¬ bb.q.regs := by assumption) : Keeps bb (nackAtAgent s m) := by
  unfold nackAtAgent
  repeat' first | with_reducible assumption | intro _ | with_reducible apply Keeps.withState | with_reducible apply State.count1_keeps | with_reducible apply Keeps.withSome | with_reducible apply takeNack_keeps | with_reducible apply Keeps.ite | split

theorem nackAtHome_keeps {bb : Base} (s : State) (m : CohMsg) (h_s : Keeps bb s) (hqr : ¬ bb.q.regs := by assumption) : Keeps bb (nackAtHome s m) := by
  unfold nackAtHome
  repeat' first | with_reducible assumption | intro _ | (extract_lets +onlyGivenNames z; refine (fun (hz : Keeps bb z) => ?_) ?_; clear_value z; revert z; intro _ _; rotate_left; unfold z; clear z; rotate_left) | (extract_lets +onlyGivenNames z; refine (fun (hz : Keeps bb z.1) => ?_) ?_; clear_value z; revert z; intro _ _; rotate_left; unfold z; clear z; rotate_left) | (extract_lets +onlyGivenNames z; refine (fun (hz : Keeps bb z) => ?_) ?_; revert z; intro _ _; rotate_left; unfold z; clear z; rotate_left) | (extract_lets +onlyGivenNames z; revert z; intro _) | (simp only [Keeps.mk_iff]; with_reducible apply Keeps.upd) | with_reducible apply resendHome_keeps | with_reducible apply Keeps.ite | split

theorem execNack_moves {qm qf qp : Prop} (dt : Nat) (m : CohMsg) (s : State) : Moves ⟨qm, qf, False, qp⟩ dt s (execNack dt m s) := by
  unfold execNack
  refine run_moves ?_
  intro base s hb h_s
  have hqr : ¬ base.q.regs := by rw [hb]; exact id
  refine Keeps.ite h_s ?_
  split
  · exact nackAtProxy_keeps _ _ _ h_s
  · split
    · rename_i t ht; exact nackAtHome_keeps _ _ ((arrive_keeps s .home m h_s).get t ht)
    · exact Keeps.withState h_s (arrive_keeps s .reply m h_s) fun t ht => nackAtAgent_keeps _ _ ht

theorem sendAgain_keeps {bb : Base} (s : State) (t : Txn) (retry : Bool) (h_s : Keeps bb s) (hqr : ¬ bb.q.regs := by assumption) : Keeps bb (sendAgain s t retry) := by
  unfold sendAgain
  repeat' first | with_reducible assumption | intro _ | (extract_lets +onlyGivenNames z; refine (fun (hz : Keeps bb z) => ?_) ?_; clear_value z; revert z; intro _ _; rotate_left; unfold z; clear z; rotate_left) | (extract_lets +onlyGivenNames z; refine (fun (hz : Keeps bb z.1) => ?_) ?_; clear_value z; revert z; intro _ _; rotate_left; unfold z; clear z; rotate_left) | (extract_lets +onlyGivenNames z; refine (fun (hz : Keeps bb z) => ?_) ?_; revert z; intro _ _; rotate_left; unfold z; clear z; rotate_left) | (extract_lets +onlyGivenNames z; revert z; intro _) | (simp only [Keeps.mk_iff]; with_reducible apply Keeps.upd) | with_reducible apply State.count1_keeps | with_reducible apply putTxn_keeps | with_reducible apply sendRequest_keeps | with_reducible apply Keeps.ite | split

theorem execRetry_moves {qm qf qp : Prop} (dt : Nat) (slot : Nat) (s : State) : Moves ⟨qm, qf, False, qp⟩ dt s (execRetry dt slot s) := by
  unfold execRetry
  refine run_moves ?_
  intro bb s hb h_s
  have hqr : ¬ bb.q.regs := by rw [hb]; exact id
  try dsimp -zeta only
  repeat' first | with_reducible assumption | intro _ | with_reducible apply Keeps.withState | with_reducible apply Keeps.withSome | with_reducible apply run_keeps | with_reducible apply sendAgain_keeps | with_reducible apply Keeps.ite | split

theorem execMovedRetry_moves {qm qf qp : Prop} (dt : Nat) (slot : Nat) (s : State) : Moves ⟨qm, qf, False, qp⟩ dt s (execMovedRetry dt slot s) := by
  unfold execMovedRetry
  refine run_moves ?_
  intro bb s hb h_s
  have hqr : ¬ bb.q.regs := by rw [hb]; exact id
  try dsimp -zeta only
  repeat' first | with_reducible assumption | intro _ | with_reducible apply Keeps.withState | with_reducible apply Keeps.withSome | with_reducible apply run_keeps | with_reducible apply sendAgain_keeps | with_reducible apply Keeps.ite | split

theorem timeoutTxn_keeps {bb : Base} (s : State) (t : Txn) (h_s : Keeps bb s) (hqr : ¬ bb.q.regs := by assumption) (hqp : ¬ bb.q.phase := by assumption) : Keeps bb (timeoutTxn s t) := by
  unfold timeoutTxn
  repeat' first | with_reducible assumption | intro _ | (extract_lets +onlyGivenNames z; refine (fun (hz : Keeps bb z) => ?_) ?_; clear_value z; revert z; intro _ _; rotate_left; unfold z; clear z; rotate_left) | (extract_lets +onlyGivenNames z; refine (fun (hz : Keeps bb z.1) => ?_) ?_; clear_value z; revert z; intro _ _; rotate_left; unfold z; clear z; rotate_left) | (extract_lets +onlyGivenNames z; refine (fun (hz : Keeps bb z) => ?_) ?_; revert z; intro _ _; rotate_left; unfold z; clear z; rotate_left) | (extract_lets +onlyGivenNames z; revert z; intro _) | with_reducible apply State.count1_keeps | with_reducible apply abandonTxn_keeps | with_reducible apply glenTimeout_keeps | with_reducible apply noteFailure_keeps | with_reducible apply raise_keeps | with_reducible apply Keeps.ite | split

theorem execTransactionTimeout_moves {qm qf : Prop} (dt : Nat) (slot : Nat) (s : State) : Moves ⟨qm, qf, False, False⟩ dt s (execTransactionTimeout dt slot s) := by
  unfold execTransactionTimeout
  refine run_moves ?_
  intro bb s hb h_s
  have hqr : ¬ bb.q.regs := by rw [hb]; exact id
  have hqp : ¬ bb.q.phase := by rw [hb]; exact id
  try dsimp -zeta only
  repeat' first | with_reducible assumption | intro _ | with_reducible apply Keeps.withState | with_reducible apply Keeps.withSome | with_reducible apply run_keeps | with_reducible apply timeoutTxn_keeps | with_reducible apply Keeps.ite | split

theorem execTagHoldExpiry_moves {qm qf qr qp : Prop} (dt : Nat) (slot : Nat) (s : State) : Moves ⟨qm, qf, qr, qp⟩ dt s (execTagHoldExpiry dt slot s) := by
  unfold execTagHoldExpiry
  refine run_moves ?_
  intro bb s hb h_s
  try dsimp -zeta only
  repeat' first | with_reducible assumption | intro _ | with_reducible apply Keeps.withState | with_reducible apply Keeps.withSome | with_reducible apply dropTxn_keeps | with_reducible apply run_keeps | with_reducible apply Keeps.ite | split

end Sys2Proof.Machine
end

