-- ==== Sys2Proof/Laws/Keeps/ProgressOps.lean ====
section
/-! SUPPORT. Every operation and meaning of Machine/ProgressOps.lean keeps what `Keeps` says. -/
set_option linter.all false
namespace Sys2Proof.Machine

theorem deadInCtx_keeps {bb : Base} (a : Nat) (s : State) (c : Ctx) (h_s : Keeps bb s) (hqm : ¬ bb.q.mem := by assumption) (hqr : ¬ bb.q.regs := by assumption) (hqp : ¬ bb.q.phase := by assumption) : Keeps bb (deadInCtx a s c) := by
  unfold deadInCtx
  repeat' first | with_reducible assumption | intro _ | (extract_lets +onlyGivenNames z; refine (fun (hz : Keeps bb z) => ?_) ?_; clear_value z; revert z; intro _ _; rotate_left; unfold z; clear z; rotate_left) | (extract_lets +onlyGivenNames z; refine (fun (hz : Keeps bb z.1) => ?_) ?_; clear_value z; revert z; intro _ _; rotate_left; unfold z; clear z; rotate_left) | (extract_lets +onlyGivenNames z; refine (fun (hz : Keeps bb z) => ?_) ?_; revert z; intro _ _; rotate_left; unfold z; clear z; rotate_left) | (extract_lets +onlyGivenNames z; revert z; intro _) | with_reducible apply closeSnoop_keeps | with_reducible apply settleBit_keeps | with_reducible apply work_keeps | with_reducible apply Keeps.ite | split

theorem deadInCtxs_keeps {bb : Base} (s : State) (a : Nat) (h_s : Keeps bb s) (hqm : ¬ bb.q.mem := by assumption) (hqr : ¬ bb.q.regs := by assumption) (hqp : ¬ bb.q.phase := by assumption) : Keeps bb (deadInCtxs s a) := by
  unfold deadInCtxs
  repeat' first | with_reducible assumption | intro _ | with_reducible apply deadInCtx_keeps | with_reducible apply Keeps.forEach | with_reducible apply settle_keeps

theorem declareDead_keeps {bb : Base} (s : State) (a : Nat) (h_s : Keeps bb s) (hqm : ¬ bb.q.mem := by assumption) (hqr : ¬ bb.q.regs := by assumption) (hqp : ¬ bb.q.phase := by assumption) : Keeps bb (declareDead s a) := by
  unfold declareDead
  repeat' first | with_reducible assumption | intro _ | (extract_lets +onlyGivenNames z; refine (fun (hz : Keeps bb z) => ?_) ?_; clear_value z; revert z; intro _ _; rotate_left; unfold z; clear z; rotate_left) | (extract_lets +onlyGivenNames z; refine (fun (hz : Keeps bb z.1) => ?_) ?_; clear_value z; revert z; intro _ _; rotate_left; unfold z; clear z; rotate_left) | (extract_lets +onlyGivenNames z; refine (fun (hz : Keeps bb z) => ?_) ?_; revert z; intro _ _; rotate_left; unfold z; clear z; rotate_left) | (extract_lets +onlyGivenNames z; revert z; intro _) | (simp only [Keeps.mk_iff]; with_reducible apply Keeps.upd) | with_reducible apply State.disarm_keeps | with_reducible apply State.putRegBit_keeps | with_reducible apply State.setReg_keeps | with_reducible apply State.setRegBits_keeps | with_reducible apply awaitPass_keeps | with_reducible apply deadInCtxs_keeps | with_reducible apply raise_keeps | with_reducible apply Keeps.ite | split

theorem releaseTxn_keeps {bb : Base} (s : State) (t : Txn) (h_s : Keeps bb s) (hqr : ¬ bb.q.regs := by assumption) : Keeps bb (releaseTxn s t) := by
  unfold releaseTxn
  repeat' first | with_reducible assumption | intro _ | (extract_lets +onlyGivenNames z; refine (fun (hz : Keeps bb z) => ?_) ?_; clear_value z; revert z; intro _ _; rotate_left; unfold z; clear z; rotate_left) | (extract_lets +onlyGivenNames z; refine (fun (hz : Keeps bb z.1) => ?_) ?_; clear_value z; revert z; intro _ _; rotate_left; unfold z; clear z; rotate_left) | (extract_lets +onlyGivenNames z; refine (fun (hz : Keeps bb z) => ?_) ?_; revert z; intro _ _; rotate_left; unfold z; clear z; rotate_left) | (extract_lets +onlyGivenNames z; revert z; intro _) | (simp only [Keeps.mk_iff]; with_reducible apply Keeps.upd) | with_reducible apply putTxn_keeps | with_reducible apply sendRequest_keeps

theorem makeLive_keeps {bb : Base} (s : State) (a : Nat) (h_s : Keeps bb s) (hqr : ¬ bb.q.regs := by assumption) : Keeps bb (makeLive s a) := by
  unfold makeLive
  repeat' first | with_reducible assumption | intro _ | (extract_lets +onlyGivenNames z; refine (fun (hz : Keeps bb z) => ?_) ?_; clear_value z; revert z; intro _ _; rotate_left; unfold z; clear z; rotate_left) | (extract_lets +onlyGivenNames z; refine (fun (hz : Keeps bb z.1) => ?_) ?_; clear_value z; revert z; intro _ _; rotate_left; unfold z; clear z; rotate_left) | (extract_lets +onlyGivenNames z; refine (fun (hz : Keeps bb z) => ?_) ?_; revert z; intro _ _; rotate_left; unfold z; clear z; rotate_left) | (extract_lets +onlyGivenNames z; revert z; intro _) | (simp only [Keeps.mk_iff]; with_reducible apply Keeps.upd) | with_reducible apply State.setReg_keeps | with_reducible apply Keeps.forEach | with_reducible apply releaseTxn_keeps

theorem reviveAgent_keeps {bb : Base} (s : State) (a : Nat) (h_s : Keeps bb s) (hqr : ¬ bb.q.regs := by assumption) : Keeps bb (reviveAgent s a) := by
  unfold reviveAgent
  repeat' first | with_reducible assumption | intro _ | (extract_lets +onlyGivenNames z; refine (fun (hz : Keeps bb z) => ?_) ?_; clear_value z; revert z; intro _ _; rotate_left; unfold z; clear z; rotate_left) | (extract_lets +onlyGivenNames z; refine (fun (hz : Keeps bb z.1) => ?_) ?_; clear_value z; revert z; intro _ _; rotate_left; unfold z; clear z; rotate_left) | (extract_lets +onlyGivenNames z; refine (fun (hz : Keeps bb z) => ?_) ?_; revert z; intro _ _; rotate_left; unfold z; clear z; rotate_left) | (extract_lets +onlyGivenNames z; revert z; intro _) | (simp only [Keeps.mk_iff]; with_reducible apply Keeps.upd) | with_reducible apply awaitPass_keeps | with_reducible apply makeLive_keeps | with_reducible apply Keeps.ite | split

theorem resendSnoops_keeps {bb : Base} (s : State) (a : Nat) (h_s : Keeps bb s)  : Keeps bb (resendSnoops s a) := by
  unfold resendSnoops
  repeat' first | with_reducible assumption | intro _ | with_reducible apply emitBisnp_keeps | with_reducible apply Keeps.forEach

theorem redateSnoops_keeps {bb : Base} (s : State) (a : Nat) (h_s : Keeps bb s)  : Keeps bb (redateSnoops s a) := by
  unfold redateSnoops
  repeat' first | with_reducible assumption | intro _ | (extract_lets +onlyGivenNames z; refine (fun (hz : Keeps bb z) => ?_) ?_; clear_value z; revert z; intro _ _; rotate_left; unfold z; clear z; rotate_left) | (extract_lets +onlyGivenNames z; refine (fun (hz : Keeps bb z.1) => ?_) ?_; clear_value z; revert z; intro _ _; rotate_left; unfold z; clear z; rotate_left) | (extract_lets +onlyGivenNames z; refine (fun (hz : Keeps bb z) => ?_) ?_; revert z; intro _ _; rotate_left; unfold z; clear z; rotate_left) | (extract_lets +onlyGivenNames z; revert z; intro _) | (simp only [Keeps.mk_iff]; with_reducible apply Keeps.upd) | with_reducible apply Keeps.ite | split

theorem agentLinkUp_keeps {bb : Base} (s : State) (a : Nat) (h_s : Keeps bb s) (hqr : ¬ bb.q.regs := by assumption) : Keeps bb (agentLinkUp s a) := by
  unfold agentLinkUp
  repeat' first | with_reducible assumption | intro _ | (simp only [Keeps.mk_iff]; with_reducible apply Keeps.upd) | with_reducible apply State.disarm_keeps | with_reducible apply State.setReg_keeps | with_reducible apply redateSnoops_keeps | with_reducible apply resendSnoops_keeps | with_reducible apply resumeSnoops_keeps | with_reducible apply reviveAgent_keeps | with_reducible apply Keeps.ite | split

theorem sweepLine_keeps {bb : Base} (n : Nat) (s : State) (l : Bool × Nat) (h_s : Keeps bb s) (hqm : ¬ bb.q.mem := by assumption) (hqr : ¬ bb.q.regs := by assumption) (hqp : ¬ bb.q.phase := by assumption) : Keeps bb (sweepLine n s l) := by
  unfold sweepLine
  repeat' first | with_reducible assumption | intro _ | with_reducible apply Keeps.forEach | with_reducible apply settleBit_keeps | with_reducible apply Keeps.ite | split

theorem sweepSlice_keeps {bb : Base} (s : State) (n : Nat) (slice : Nat) (h_s : Keeps bb s) (hqm : ¬ bb.q.mem := by assumption) (hqr : ¬ bb.q.regs := by assumption) (hqp : ¬ bb.q.phase := by assumption) : Keeps bb (sweepSlice s n slice) := by
  unfold sweepSlice
  repeat' first | with_reducible assumption | intro _ | with_reducible apply Keeps.forEach | with_reducible apply sweepLine_keeps

theorem showSweep_keeps {bb : Base} (s : State) (h_s : Keeps bb s) (hqr : ¬ bb.q.regs := by assumption) : Keeps bb (showSweep s) := by
  unfold showSweep
  repeat' first | with_reducible assumption | intro _ | (extract_lets +onlyGivenNames z; refine (fun (hz : Keeps bb z) => ?_) ?_; clear_value z; revert z; intro _ _; rotate_left; unfold z; clear z; rotate_left) | (extract_lets +onlyGivenNames z; refine (fun (hz : Keeps bb z.1) => ?_) ?_; clear_value z; revert z; intro _ _; rotate_left; unfold z; clear z; rotate_left) | (extract_lets +onlyGivenNames z; refine (fun (hz : Keeps bb z) => ?_) ?_; revert z; intro _ _; rotate_left; unfold z; clear z; rotate_left) | (extract_lets +onlyGivenNames z; revert z; intro _) | with_reducible apply State.setRegBits_keeps | with_reducible apply Keeps.forEach

end Sys2Proof.Machine
end

