-- ==== Sys2Proof/Laws/Keeps/Glen.lean ====
section
/-! SUPPORT. Every operation and meaning of Machine/Glen.lean keeps what `Keeps` says. -/
set_option linter.all false
set_option Elab.async false
namespace Sys2Proof.Machine

theorem glenWindow_keeps {bb : Base} (s : State) (port : Nat) (f : Nat → State) (h_s : Keeps bb s) (h_f : ∀ y0, Keeps bb (f y0))  : Keeps bb (glenWindow s port f) := by
  unfold glenWindow
  repeat' first | with_reducible assumption | intro _ | with_reducible apply State.emit_keeps | with_reducible apply h_f | with_reducible apply Keeps.ite | split

theorem startChannel_keeps {bb : Base} (s : State) (port : Nat) (t : Nat) (h_s : Keeps bb s) (hqr : ¬ bb.q.regs := by assumption) : Keeps bb (startChannel s port t) := by
  unfold startChannel
  repeat' first | with_reducible assumption | intro _ | with_reducible apply State.emit_keeps | with_reducible apply chanIrq_keeps | with_reducible apply setChanState_keeps | with_reducible apply startFetch_keeps | with_reducible apply Keeps.ite | split

theorem execGlenStart_moves {qm qf qp : Prop} (dt : Nat) (port : Nat) (s : State) : Moves ⟨qm, qf, False, qp⟩ dt s (execGlenStart dt port s) := by
  unfold execGlenStart
  refine run_moves ?_
  intro bb s hb h_s
  have hqr : ¬ bb.q.regs := by rw [hb]; exact id
  try dsimp -zeta only
  repeat' first | with_reducible assumption | intro _ | with_reducible apply glenWindow_keeps | with_reducible apply run_keeps | with_reducible apply startChannel_keeps

theorem stopChannel_keeps {bb : Base} (s : State) (t : Nat) (h_s : Keeps bb s) (hqr : ¬ bb.q.regs := by assumption) : Keeps bb (stopChannel s t) := by
  unfold stopChannel
  repeat' first | with_reducible assumption | intro _ | with_reducible apply chanIrq_keeps | with_reducible apply setChanState_keeps | with_reducible apply Keeps.ite | split

theorem execGlenStop_moves {qm qf qp : Prop} (dt : Nat) (port : Nat) (s : State) : Moves ⟨qm, qf, False, qp⟩ dt s (execGlenStop dt port s) := by
  unfold execGlenStop
  refine run_moves ?_
  intro bb s hb h_s
  have hqr : ¬ bb.q.regs := by rw [hb]; exact id
  try dsimp -zeta only
  repeat' first | with_reducible assumption | intro _ | with_reducible apply State.emit_keeps | with_reducible apply glenWindow_keeps | with_reducible apply run_keeps | with_reducible apply stopChannel_keeps

theorem ringChannel_keeps {bb : Base} (s : State) (t : Nat) (h_s : Keeps bb s) (hqr : ¬ bb.q.regs := by assumption) : Keeps bb (ringChannel s t) := by
  unfold ringChannel
  repeat' first | with_reducible assumption | intro _ | with_reducible apply State.putRegBit_keeps | with_reducible apply startFetch_keeps | with_reducible apply Keeps.ite | split

theorem execGlenRing_moves {qm qf qp : Prop} (dt : Nat) (port : Nat) (s : State) : Moves ⟨qm, qf, False, qp⟩ dt s (execGlenRing dt port s) := by
  unfold execGlenRing
  refine run_moves ?_
  intro bb s hb h_s
  have hqr : ¬ bb.q.regs := by rw [hb]; exact id
  try dsimp -zeta only
  repeat' first | with_reducible assumption | intro _ | with_reducible apply State.emit_keeps | with_reducible apply glenWindow_keeps | with_reducible apply ringChannel_keeps | with_reducible apply run_keeps

theorem writePointer_keeps {bb : Base} (s : State) (a : WindowWrite) (t : Nat) (h_s : Keeps bb s) (hqr : ¬ bb.q.regs := by assumption) : Keeps bb (writePointer s a t) := by
  unfold writePointer
  repeat' first | with_reducible assumption | intro _ | with_reducible apply State.emit_keeps | with_reducible apply State.setReg_keeps | with_reducible apply Keeps.ite | split

theorem execChPointerWrite_moves {qm qf qp : Prop} (dt : Nat) (a : WindowWrite) (s : State) : Moves ⟨qm, qf, False, qp⟩ dt s (execChPointerWrite dt a s) := by
  unfold execChPointerWrite
  refine run_moves ?_
  intro bb s hb h_s
  have hqr : ¬ bb.q.regs := by rw [hb]; exact id
  try dsimp -zeta only
  repeat' first | with_reducible assumption | intro _ | with_reducible apply glenWindow_keeps | with_reducible apply run_keeps | with_reducible apply writePointer_keeps | with_reducible apply Keeps.ite | split

theorem writeDescArea_keeps {bb : Base} (s : State) (a : WindowWrite) (t : Nat) (h_s : Keeps bb s) (hqm : ¬ bb.q.mem := by assumption) (hqr : ¬ bb.q.regs := by assumption) (hqp : ¬ bb.q.phase := by assumption) : Keeps bb (writeDescArea s a t) := by
  unfold writeDescArea
  repeat' first | with_reducible assumption | intro _ | with_reducible apply State.emit_keeps | with_reducible apply State.sysWrite_keeps | with_reducible apply Keeps.ite | split

theorem execDescAreaWrite_moves {qf : Prop} (dt : Nat) (a : WindowWrite) (s : State) : Moves ⟨False, qf, False, False⟩ dt s (execDescAreaWrite dt a s) := by
  unfold execDescAreaWrite
  refine run_moves ?_
  intro bb s hb h_s
  have hqm : ¬ bb.q.mem := by rw [hb]; exact id
  have hqr : ¬ bb.q.regs := by rw [hb]; exact id
  have hqp : ¬ bb.q.phase := by rw [hb]; exact id
  try dsimp -zeta only
  repeat' first | with_reducible assumption | intro _ | with_reducible apply glenWindow_keeps | with_reducible apply run_keeps | with_reducible apply writeDescArea_keeps | with_reducible apply Keeps.ite | split

theorem execChanCmdStop_moves {qm qf : Prop} (dt : Nat) (path : Path) (channel : Nat) (s : State) : Moves ⟨qm, qf, False, False⟩ dt s (execChanCmdStop dt path channel s) := by
  unfold execChanCmdStop
  refine run_moves ?_
  intro bb s hb h_s
  have hqr : ¬ bb.q.regs := by rw [hb]; exact id
  have hqp : ¬ bb.q.phase := by rw [hb]; exact id
  try dsimp -zeta only
  repeat' first | with_reducible assumption | intro _ | with_reducible apply run_keeps | with_reducible apply serveWrite_keeps | with_reducible apply stopChannel_keeps

theorem chanRateEffect_keeps {bb : Base} (t : Nat) (v : Nat) (s : State) (h_s : Keeps bb s) (hqr : ¬ bb.q.regs := by assumption) : Keeps bb (chanRateEffect t v s) := by
  unfold chanRateEffect
  repeat' first | with_reducible assumption | intro _ | (extract_lets +onlyGivenNames z; refine (fun (hz : Keeps bb z) => ?_) ?_; clear_value z; revert z; intro _ _; rotate_left; unfold z; clear z; rotate_left) | (extract_lets +onlyGivenNames z; refine (fun (hz : Keeps bb z.1) => ?_) ?_; clear_value z; revert z; intro _ _; rotate_left; unfold z; clear z; rotate_left) | (extract_lets +onlyGivenNames z; refine (fun (hz : Keeps bb z) => ?_) ?_; revert z; intro _ _; rotate_left; unfold z; clear z; rotate_left) | (extract_lets +onlyGivenNames z; revert z; intro _) | (simp only [Keeps.mk_iff]; with_reducible apply Keeps.upd) | with_reducible apply plainWrite_keeps

theorem beginDesc_keeps {bb : Base} (s : State) (t : Nat) (bs : List Byte) (h_s : Keeps bb s)  : Keeps bb (beginDesc s t bs) := by
  unfold beginDesc
  repeat' first | with_reducible assumption | intro _ | (extract_lets +onlyGivenNames z; refine (fun (hz : Keeps bb z) => ?_) ?_; clear_value z; revert z; intro _ _; rotate_left; unfold z; clear z; rotate_left) | (extract_lets +onlyGivenNames z; refine (fun (hz : Keeps bb z.1) => ?_) ?_; clear_value z; revert z; intro _ _; rotate_left; unfold z; clear z; rotate_left) | (extract_lets +onlyGivenNames z; refine (fun (hz : Keeps bb z) => ?_) ?_; revert z; intro _ _; rotate_left; unfold z; clear z; rotate_left) | (extract_lets +onlyGivenNames z; revert z; intro _) | (simp only [Keeps.mk_iff]; with_reducible apply Keeps.upd) | with_reducible apply State.setChan_keeps | with_reducible apply newParts_keeps | with_reducible apply Keeps.ite | split

theorem takeDesc_keeps {bb : Base} (s : State) (t : Nat) (bs : List Byte) (h_s : Keeps bb s) (hqr : ¬ bb.q.regs := by assumption) : Keeps bb (takeDesc s t bs) := by
  unfold takeDesc
  repeat' first | with_reducible assumption | intro _ | (extract_lets +onlyGivenNames z; refine (fun (hz : Keeps bb z) => ?_) ?_; clear_value z; revert z; intro _ _; rotate_left; unfold z; clear z; rotate_left) | (extract_lets +onlyGivenNames z; refine (fun (hz : Keeps bb z.1) => ?_) ?_; clear_value z; revert z; intro _ _; rotate_left; unfold z; clear z; rotate_left) | (extract_lets +onlyGivenNames z; refine (fun (hz : Keeps bb z) => ?_) ?_; revert z; intro _ _; rotate_left; unfold z; clear z; rotate_left) | (extract_lets +onlyGivenNames z; revert z; intro _) | (simp only [Keeps.mk_iff]; with_reducible apply Keeps.upd) | with_reducible apply State.putRegBit_keeps | with_reducible apply State.setChan_keeps | with_reducible apply beginDesc_keeps | with_reducible apply chanIrq_keeps | with_reducible apply setChanState_keeps | with_reducible apply Keeps.ite | split

theorem fetchArea_keeps {bb : Base} (s : State) (t : Nat) (off : Nat) (h_s : Keeps bb s) (hqm : ¬ bb.q.mem := by assumption) (hqr : ¬ bb.q.regs := by assumption) (hqp : ¬ bb.q.phase := by assumption) : Keeps bb (fetchArea s t off) := by
  unfold fetchArea
  repeat' first | with_reducible assumption | intro _ | (extract_lets +onlyGivenNames z; refine (fun (hz : Keeps bb z) => ?_) ?_; clear_value z; revert z; intro _ _; rotate_left; unfold z; clear z; rotate_left) | (extract_lets +onlyGivenNames z; refine (fun (hz : Keeps bb z.1) => ?_) ?_; clear_value z; revert z; intro _ _; rotate_left; unfold z; clear z; rotate_left) | (extract_lets +onlyGivenNames z; refine (fun (hz : Keeps bb z) => ?_) ?_; revert z; intro _ _; rotate_left; unfold z; clear z; rotate_left) | (extract_lets +onlyGivenNames z; revert z; intro _) | with_reducible apply State.sysRead_keeps | with_reducible apply fetchFails_keeps | with_reducible apply takeDesc_keeps | with_reducible apply Keeps.ite | split

theorem fetchHost_keeps {bb : Base} (s : State) (t : Nat) (addr : Nat) (r : HostReadResult) (h_s : Keeps bb s) (hqr : ¬ bb.q.regs := by assumption) (hqp : ¬ bb.q.phase := by assumption) : Keeps bb (fetchHost s t addr r) := by
  unfold fetchHost
  repeat' first | with_reducible assumption | intro _ | with_reducible apply fetchFails_keeps | with_reducible apply hostMRd_keeps | with_reducible apply takeDesc_keeps | split

theorem execDescriptorFetch_moves {qf : Prop} (dt : Nat) (channel : Nat) (host : HostReadResult) (s : State) : Moves ⟨False, qf, False, False⟩ dt s (execDescriptorFetch dt channel host s) := by
  unfold execDescriptorFetch
  refine run_moves ?_
  intro bb s hb h_s
  have hqm : ¬ bb.q.mem := by rw [hb]; exact id
  have hqr : ¬ bb.q.regs := by rw [hb]; exact id
  have hqp : ¬ bb.q.phase := by rw [hb]; exact id
  try dsimp -zeta only
  repeat' first | with_reducible assumption | intro _ | (extract_lets +onlyGivenNames z; refine (fun (hz : Keeps bb z) => ?_) ?_; clear_value z; revert z; intro _ _; rotate_left; unfold z; clear z; rotate_left) | (extract_lets +onlyGivenNames z; refine (fun (hz : Keeps bb z.1) => ?_) ?_; clear_value z; revert z; intro _ _; rotate_left; unfold z; clear z; rotate_left) | (extract_lets +onlyGivenNames z; refine (fun (hz : Keeps bb z) => ?_) ?_; revert z; intro _ _; rotate_left; unfold z; clear z; rotate_left) | (extract_lets +onlyGivenNames z; revert z; intro _) | with_reducible apply fetchArea_keeps | with_reducible apply fetchFails_keeps | with_reducible apply fetchHost_keeps | with_reducible apply resetEngines_keeps | with_reducible apply run_keeps | with_reducible apply Keeps.ite | split

theorem execGlenTurn_moves {qm qf qp : Prop} (dt : Nat) (engine : Nat) (busMaster : Bool) (s : State) : Moves ⟨qm, qf, False, qp⟩ dt s (execGlenTurn dt engine busMaster s) := by
  unfold execGlenTurn
  refine run_moves ?_
  intro bb s hb h_s
  have hqr : ¬ bb.q.regs := by rw [hb]; exact id
  try dsimp -zeta only
  repeat' first | with_reducible assumption | intro _ | (extract_lets +onlyGivenNames z; refine (fun (hz : Keeps bb z) => ?_) ?_; clear_value z; revert z; intro _ _; rotate_left; unfold z; clear z; rotate_left) | (extract_lets +onlyGivenNames z; refine (fun (hz : Keeps bb z.1) => ?_) ?_; clear_value z; revert z; intro _ _; rotate_left; unfold z; clear z; rotate_left) | (extract_lets +onlyGivenNames z; refine (fun (hz : Keeps bb z) => ?_) ?_; revert z; intro _ _; rotate_left; unfold z; clear z; rotate_left) | (extract_lets +onlyGivenNames z; revert z; intro _) | (simp only [Keeps.mk_iff]; with_reducible apply Keeps.upd) | with_reducible apply Keeps.withState | with_reducible apply Keeps.withSome | with_reducible apply issueTurn_keeps | with_reducible apply run_keeps | with_reducible apply Keeps.ite | split

theorem takeSource_keeps {bb : Base} (s : State) (t : Nat) (rd : GlenRead) (source : SourceResult) (busMaster : Bool) (h_s : Keeps bb s) (hqm : ¬ bb.q.mem := by assumption) (hqr : ¬ bb.q.regs := by assumption) (hqp : ¬ bb.q.phase := by assumption) : Keeps bb (takeSource s t rd source busMaster) := by
  unfold takeSource
  repeat' first | with_reducible assumption | intro _ | (extract_lets +onlyGivenNames z; refine (fun (hz : Keeps bb z) => ?_) ?_; clear_value z; revert z; intro _ _; rotate_left; unfold z; clear z; rotate_left) | (extract_lets +onlyGivenNames z; refine (fun (hz : Keeps bb z.1) => ?_) ?_; clear_value z; revert z; intro _ _; rotate_left; unfold z; clear z; rotate_left) | (extract_lets +onlyGivenNames z; refine (fun (hz : Keeps bb z) => ?_) ?_; revert z; intro _ _; rotate_left; unfold z; clear z; rotate_left) | (extract_lets +onlyGivenNames z; revert z; intro _) | with_reducible apply Keeps.withState | with_reducible apply State.useFree_keeps | with_reducible apply Keeps.withSome | with_reducible apply passBytes_keeps | with_reducible apply raise_keeps | with_reducible apply resetEngines_keeps | with_reducible apply Keeps.ite | split

theorem execSourceData_moves {qf : Prop} (dt : Nat) (channel : Nat) (source : SourceResult) (busMaster : Bool) (s : State) : Moves ⟨False, qf, False, False⟩ dt s (execSourceData dt channel source busMaster s) := by
  unfold execSourceData
  refine run_moves ?_
  intro bb s hb h_s
  have hqm : ¬ bb.q.mem := by rw [hb]; exact id
  have hqr : ¬ bb.q.regs := by rw [hb]; exact id
  have hqp : ¬ bb.q.phase := by rw [hb]; exact id
  try dsimp -zeta only
  repeat' first | with_reducible assumption | intro _ | with_reducible apply Keeps.withState | with_reducible apply Keeps.withSome | with_reducible apply run_keeps | with_reducible apply takeSource_keeps | with_reducible apply Keeps.ite | split

theorem timeoutRead_keeps {bb : Base} (s : State) (t : Nat) (h_s : Keeps bb s)  : Keeps bb (timeoutRead s t) := by
  unfold timeoutRead
  repeat' first | with_reducible assumption | intro _ | (extract_lets +onlyGivenNames z; refine (fun (hz : Keeps bb z) => ?_) ?_; clear_value z; revert z; intro _ _; rotate_left; unfold z; clear z; rotate_left) | (extract_lets +onlyGivenNames z; refine (fun (hz : Keeps bb z.1) => ?_) ?_; clear_value z; revert z; intro _ _; rotate_left; unfold z; clear z; rotate_left) | (extract_lets +onlyGivenNames z; refine (fun (hz : Keeps bb z) => ?_) ?_; revert z; intro _ _; rotate_left; unfold z; clear z; rotate_left) | (extract_lets +onlyGivenNames z; revert z; intro _) | (simp only [Keeps.mk_iff]; with_reducible apply Keeps.upd) | with_reducible apply Keeps.withState | with_reducible apply State.setChan_keeps | with_reducible apply State.useFree_keeps | with_reducible apply Keeps.withSome | split

theorem execCompletionTimeout_moves {qf : Prop} (dt : Nat) (channel : Nat) (s : State) : Moves ⟨False, qf, False, False⟩ dt s (execCompletionTimeout dt channel s) := by
  unfold execCompletionTimeout
  refine run_moves ?_
  intro bb s hb h_s
  have hqm : ¬ bb.q.mem := by rw [hb]; exact id
  have hqr : ¬ bb.q.regs := by rw [hb]; exact id
  have hqp : ¬ bb.q.phase := by rw [hb]; exact id
  try dsimp -zeta only
  repeat' first | with_reducible assumption | intro _ | with_reducible apply fetchFails_keeps | with_reducible apply resetEngines_keeps | with_reducible apply run_keeps | with_reducible apply timeoutRead_keeps | with_reducible apply Keeps.ite | split

theorem execDescriptorWriteBack_moves {qf : Prop} (dt : Nat) (channel : Nat) (busMaster : Bool) (s : State) : Moves ⟨False, qf, False, False⟩ dt s (execDescriptorWriteBack dt channel busMaster s) := by
  unfold execDescriptorWriteBack
  refine run_moves ?_
  intro bb s hb h_s
  have hqm : ¬ bb.q.mem := by rw [hb]; exact id
  have hqr : ¬ bb.q.regs := by rw [hb]; exact id
  have hqp : ¬ bb.q.phase := by rw [hb]; exact id
  try dsimp -zeta only
  repeat' first | with_reducible assumption | intro _ | (extract_lets +onlyGivenNames z; refine (fun (hz : Keeps bb z) => ?_) ?_; clear_value z; revert z; intro _ _; rotate_left; unfold z; clear z; rotate_left) | (extract_lets +onlyGivenNames z; refine (fun (hz : Keeps bb z.1) => ?_) ?_; clear_value z; revert z; intro _ _; rotate_left; unfold z; clear z; rotate_left) | (extract_lets +onlyGivenNames z; refine (fun (hz : Keeps bb z) => ?_) ?_; revert z; intro _ _; rotate_left; unfold z; clear z; rotate_left) | (extract_lets +onlyGivenNames z; revert z; intro _) | with_reducible apply Keeps.withState | with_reducible apply Keeps.withSome | with_reducible apply completeDesc_keeps | with_reducible apply resetEngines_keeps | with_reducible apply run_keeps | with_reducible apply Keeps.ite | split

end Sys2Proof.Machine
end

