-- ==== Sys2Proof/Laws/Keeps/Faults.lean ====
section
/-! SUPPORT. Every operation and meaning of Machine/Faults.lean keeps what `Keeps` says. -/
set_option linter.all false
namespace Sys2Proof.Machine

theorem execSourceEvent_moves {qf : Prop} (dt : Nat) (group : Nat) (bit : Nat) (element : Nat) (s : State) : Moves ⟨False, qf, False, False⟩ dt s (execSourceEvent dt group bit element s) := by
  unfold execSourceEvent
  refine runPowered_moves ?_
  intro bb s hb h_s
  have hqm : ¬ bb.q.mem := by rw [hb]; exact id
  have hqr : ¬ bb.q.regs := by rw [hb]; exact id
  have hqp : ¬ bb.q.phase := by rw [hb]; exact id
  try dsimp -zeta only
  repeat' first | with_reducible assumption | intro _ | with_reducible apply raise_keeps | with_reducible apply resetEngines_keeps | with_reducible apply runPowered_keeps | with_reducible apply Keeps.ite | split

theorem countRecovery_keeps {bb : Base} (s : State) (n : Nat) (h_s : Keeps bb s) (hqr : ¬ bb.q.regs := by assumption) : Keeps bb (countRecovery s n) := by
  unfold countRecovery
  repeat' first | with_reducible assumption | intro _ | (extract_lets +onlyGivenNames z; refine (fun (hz : Keeps bb z) => ?_) ?_; clear_value z; revert z; intro _ _; rotate_left; unfold z; clear z; rotate_left) | (extract_lets +onlyGivenNames z; refine (fun (hz : Keeps bb z.1) => ?_) ?_; clear_value z; revert z; intro _ _; rotate_left; unfold z; clear z; rotate_left) | (extract_lets +onlyGivenNames z; refine (fun (hz : Keeps bb z) => ?_) ?_; revert z; intro _ _; rotate_left; unfold z; clear z; rotate_left) | (extract_lets +onlyGivenNames z; revert z; intro _) | with_reducible apply State.putRegBit_keeps | with_reducible apply State.setReg_keeps | with_reducible apply Keeps.ite | split

theorem execQuietTimerExpiry_moves {qm qf : Prop} (dt : Nat) (source : Nat) (s : State) : Moves ⟨qm, qf, False, False⟩ dt s (execQuietTimerExpiry dt source s) := by
  unfold execQuietTimerExpiry
  refine runPowered_moves ?_
  intro bb s hb h_s
  have hqr : ¬ bb.q.regs := by rw [hb]; exact id
  have hqp : ¬ bb.q.phase := by rw [hb]; exact id
  try dsimp -zeta only
  repeat' first | with_reducible assumption | intro _ | (simp only [Keeps.mk_iff]; with_reducible apply Keeps.upd) | with_reducible apply State.onDue_keeps | with_reducible apply clearGroupBits_keeps | with_reducible apply countRecovery_keeps | with_reducible apply forgetLatch_keeps | with_reducible apply report_keeps | with_reducible apply runPowered_keeps

theorem recoveriesEffect_keeps {bb : Base} (source : Nat) (s : State) (h_s : Keeps bb s) (hqr : ¬ bb.q.regs := by assumption) : Keeps bb (recoveriesEffect source s) := by
  unfold recoveriesEffect
  repeat' first | with_reducible assumption | intro _ | with_reducible apply State.putRegBit_keeps | with_reducible apply State.setReg_keeps

theorem execRecoveriesClear_moves {qm qf : Prop} (dt : Nat) (path : Path) (source : Nat) (s : State) : Moves ⟨qm, qf, False, False⟩ dt s (execRecoveriesClear dt path source s) := by
  unfold execRecoveriesClear
  refine run_moves ?_
  intro bb s hb h_s
  have hqr : ¬ bb.q.regs := by rw [hb]; exact id
  have hqp : ¬ bb.q.phase := by rw [hb]; exact id
  try dsimp -zeta only
  repeat' first | with_reducible assumption | intro _ | with_reducible apply recoveriesEffect_keeps | with_reducible apply run_keeps | with_reducible apply serveWrite_keeps

theorem faultPin_keeps {bb : Base} (s : State) (h_s : Keeps bb s) (hqr : ¬ bb.q.regs := by assumption) : Keeps bb (faultPin s) := by
  unfold faultPin
  repeat' first | with_reducible assumption | intro _ | with_reducible apply State.putRegBit_keeps | split

theorem execFaultOutPulseEnd_moves {qm qf qp : Prop} (dt : Nat) (s : State) : Moves ⟨qm, qf, False, qp⟩ dt s (execFaultOutPulseEnd dt s) := by
  unfold execFaultOutPulseEnd
  refine runPowered_moves ?_
  intro bb s hb h_s
  have hqr : ¬ bb.q.regs := by rw [hb]; exact id
  try dsimp -zeta only
  repeat' first | with_reducible assumption | intro _ | (simp only [Keeps.mk_iff]; with_reducible apply Keeps.upd) | with_reducible apply State.onDue_keeps | with_reducible apply State.putRegBit_keeps | with_reducible apply faultPin_keeps | with_reducible apply runPowered_keeps

theorem holdEffect_keeps {bb : Base} (value : Nat) (s : State) (h_s : Keeps bb s) (hqr : ¬ bb.q.regs := by assumption) : Keeps bb (holdEffect value s) := by
  unfold holdEffect
  repeat' first | with_reducible assumption | intro _ | with_reducible apply faultPin_keeps | with_reducible apply plainWrite_keeps

theorem execHoldWrite_moves {qm qf : Prop} (dt : Nat) (path : Path) (value : Nat) (s : State) : Moves ⟨qm, qf, False, False⟩ dt s (execHoldWrite dt path value s) := by
  unfold execHoldWrite
  refine run_moves ?_
  intro bb s hb h_s
  have hqr : ¬ bb.q.regs := by rw [hb]; exact id
  have hqp : ¬ bb.q.phase := by rw [hb]; exact id
  try dsimp -zeta only
  repeat' first | with_reducible assumption | intro _ | with_reducible apply holdEffect_keeps | with_reducible apply run_keeps | with_reducible apply serveWrite_keeps

theorem owedEvent_keeps {bb : Base} (s : State) (g : Nat) (h_s : Keeps bb s) (hqr : ¬ bb.q.regs := by assumption) (hqp : ¬ bb.q.phase := by assumption) : Keeps bb (owedEvent s g) := by
  unfold owedEvent
  repeat' first | with_reducible assumption | intro _ | (extract_lets +onlyGivenNames z; refine (fun (hz : Keeps bb z) => ?_) ?_; clear_value z; revert z; intro _ _; rotate_left; unfold z; clear z; rotate_left) | (extract_lets +onlyGivenNames z; refine (fun (hz : Keeps bb z.1) => ?_) ?_; clear_value z; revert z; intro _ _; rotate_left; unfold z; clear z; rotate_left) | (extract_lets +onlyGivenNames z; refine (fun (hz : Keeps bb z) => ?_) ?_; revert z; intro _ _; rotate_left; unfold z; clear z; rotate_left) | (extract_lets +onlyGivenNames z; revert z; intro _) | (simp only [Keeps.mk_iff]; with_reducible apply Keeps.upd) | with_reducible apply faultInterrupt_keeps | with_reducible apply work_keeps | with_reducible apply Keeps.ite | split

theorem execFaultEventTimer_moves {qm qf : Prop} (dt : Nat) (group : Nat) (s : State) : Moves ⟨qm, qf, False, False⟩ dt s (execFaultEventTimer dt group s) := by
  unfold execFaultEventTimer
  refine run_moves ?_
  intro bb s hb h_s
  have hqr : ¬ bb.q.regs := by rw [hb]; exact id
  have hqp : ¬ bb.q.phase := by rw [hb]; exact id
  try dsimp -zeta only
  repeat' first | with_reducible assumption | intro _ | (simp only [Keeps.mk_iff]; with_reducible apply Keeps.upd) | with_reducible apply State.onDue_keeps | with_reducible apply owedEvent_keeps | with_reducible apply run_keeps

theorem saveLogRecord_keeps {bb : Base} (s : State) (w : Nat) (h_s : Keeps bb s) (hqf : ¬ bb.q.flash := by assumption) : Keeps bb (saveLogRecord s w) := by
  unfold saveLogRecord
  repeat' first | with_reducible assumption | intro _ | with_reducible apply State.setFlash_keeps

theorem execTrapSaveDone_moves {qm : Prop} (dt : Nat) (s : State) : Moves ⟨qm, False, False, False⟩ dt s (execTrapSaveDone dt s) := by
  unfold execTrapSaveDone
  refine run_moves ?_
  intro bb s hb h_s
  have hqf : ¬ bb.q.flash := by rw [hb]; exact id
  have hqr : ¬ bb.q.regs := by rw [hb]; exact id
  have hqp : ¬ bb.q.phase := by rw [hb]; exact id
  try dsimp -zeta only
  repeat' first | with_reducible assumption | intro _ | (extract_lets +onlyGivenNames z; refine (fun (hz : Keeps bb z) => ?_) ?_; clear_value z; revert z; intro _ _; rotate_left; unfold z; clear z; rotate_left) | (extract_lets +onlyGivenNames z; refine (fun (hz : Keeps bb z.1) => ?_) ?_; clear_value z; revert z; intro _ _; rotate_left; unfold z; clear z; rotate_left) | (extract_lets +onlyGivenNames z; refine (fun (hz : Keeps bb z) => ?_) ?_; revert z; intro _ _; rotate_left; unfold z; clear z; rotate_left) | (extract_lets +onlyGivenNames z; revert z; intro _) | (simp only [Keeps.mk_iff]; with_reducible apply Keeps.upd) | with_reducible apply beginChipReset_keeps | with_reducible apply run_keeps | with_reducible apply saveLogRecord_keeps | with_reducible apply Keeps.ite | split

theorem forceEffect_keeps {bb : Base} (g : Nat) (v : Nat) (s : State) (h_s : Keeps bb s) (hqr : ¬ bb.q.regs := by assumption) (hqp : ¬ bb.q.phase := by assumption) : Keeps bb (forceEffect g v s) := by
  unfold forceEffect
  repeat' first | with_reducible assumption | intro _ | with_reducible apply Keeps.forEach | with_reducible apply report_keeps

theorem execForce_moves {qm qf : Prop} (dt : Nat) (path : Path) (group : Nat) (value : Nat) (s : State) : Moves ⟨qm, qf, False, False⟩ dt s (execForce dt path group value s) := by
  unfold execForce
  refine run_moves ?_
  intro bb s hb h_s
  have hqr : ¬ bb.q.regs := by rw [hb]; exact id
  have hqp : ¬ bb.q.phase := by rw [hb]; exact id
  try dsimp -zeta only
  repeat' first | with_reducible assumption | intro _ | with_reducible apply forceEffect_keeps | with_reducible apply run_keeps | with_reducible apply serveWrite_keeps

theorem afterClear_keeps {bb : Base} (s0 : State) (s : State) (g : Nat) (h_s0 : Keeps bb s0) (h_s : Keeps bb s) (hqr : ¬ bb.q.regs := by assumption) (hqp : ¬ bb.q.phase := by assumption) : Keeps bb (afterClear s0 s g) := by
  unfold afterClear
  repeat' first | with_reducible assumption | intro _ | (extract_lets +onlyGivenNames z; refine (fun (hz : Keeps bb z) => ?_) ?_; clear_value z; revert z; intro _ _; rotate_left; unfold z; clear z; rotate_left) | (extract_lets +onlyGivenNames z; refine (fun (hz : Keeps bb z.1) => ?_) ?_; clear_value z; revert z; intro _ _; rotate_left; unfold z; clear z; rotate_left) | (extract_lets +onlyGivenNames z; refine (fun (hz : Keeps bb z) => ?_) ?_; revert z; intro _ _; rotate_left; unfold z; clear z; rotate_left) | (extract_lets +onlyGivenNames z; revert z; intro _) | with_reducible apply Keeps.forEach | with_reducible apply forgetLatch_keeps | with_reducible apply raise_keeps | with_reducible apply report_keeps

theorem sourceClearEffect_keeps {bb : Base} (g : Nat) (v : Nat) (s : State) (h_s : Keeps bb s) (hqr : ¬ bb.q.regs := by assumption) (hqp : ¬ bb.q.phase := by assumption) : Keeps bb (sourceClearEffect g v s) := by
  unfold sourceClearEffect
  repeat' first | with_reducible assumption | intro _ | with_reducible apply afterClear_keeps | with_reducible apply clearGroupBits_keeps

theorem execSourceClear_moves {qm qf : Prop} (dt : Nat) (path : Path) (group : Nat) (value : Nat) (s : State) : Moves ⟨qm, qf, False, False⟩ dt s (execSourceClear dt path group value s) := by
  unfold execSourceClear
  refine run_moves ?_
  intro bb s hb h_s
  have hqr : ¬ bb.q.regs := by rw [hb]; exact id
  have hqp : ¬ bb.q.phase := by rw [hb]; exact id
  try dsimp -zeta only
  repeat' first | with_reducible assumption | intro _ | with_reducible apply run_keeps | with_reducible apply serveWrite_keeps | with_reducible apply sourceClearEffect_keeps

theorem passErrorsEffect_keeps {bb : Base} (e : Nat) (v : Nat) (s : State) (h_s : Keeps bb s) (hqr : ¬ bb.q.regs := by assumption) (hqp : ¬ bb.q.phase := by assumption) : Keeps bb (passErrorsEffect e v s) := by
  unfold passErrorsEffect
  repeat' first | with_reducible assumption | intro _ | with_reducible apply State.setReg_keeps | with_reducible apply afterClear_keeps

end Sys2Proof.Machine
end

