-- ==== Sys2Proof/Laws/Keeps/EdgeOps.lean ====
section
/-! SUPPORT. Every operation and meaning of Machine/EdgeOps.lean keeps what `Keeps` says. -/
set_option linter.all false
namespace Sys2Proof.Machine

theorem bindNow_keeps {bb : Base} (s : State) (h : Nat) (v : Nat) (dsp : Nat) (ld : Nat) (h_s : Keeps bb s) (hqr : ¬ bb.q.regs := by assumption) : Keeps bb (bindNow s h v dsp ld) := by
  unfold bindNow
  repeat' first | with_reducible assumption | intro _ | with_reducible apply State.setReg_keeps | with_reducible apply hostOnAtBind_keeps | with_reducible apply recordEvent_keeps

theorem unbound_keeps {bb : Base} (s : State) (h : Nat) (v : Nat) (h_s : Keeps bb s) (hqr : ¬ bb.q.regs := by assumption) : Keeps bb (unbound s h v) := by
  unfold unbound
  repeat' first | with_reducible assumption | intro _ | (extract_lets +onlyGivenNames z; refine (fun (hz : Keeps bb z) => ?_) ?_; clear_value z; revert z; intro _ _; rotate_left; unfold z; clear z; rotate_left) | (extract_lets +onlyGivenNames z; refine (fun (hz : Keeps bb z.1) => ?_) ?_; clear_value z; revert z; intro _ _; rotate_left; unfold z; clear z; rotate_left) | (extract_lets +onlyGivenNames z; refine (fun (hz : Keeps bb z) => ?_) ?_; revert z; intro _ _; rotate_left; unfold z; clear z; rotate_left) | (extract_lets +onlyGivenNames z; revert z; intro _) | with_reducible apply State.setReg_keeps | with_reducible apply hostOnAtBind_keeps | with_reducible apply recordEvent_keeps | with_reducible apply Keeps.ite | split

theorem unbindNow_keeps {bb : Base} (s : State) (h : Nat) (v : Nat) (managed : Bool) (h_s : Keeps bb s) (hqr : ¬ bb.q.regs := by assumption) : Keeps bb (unbindNow s h v managed) := by
  unfold unbindNow
  repeat' first | with_reducible assumption | intro _ | (extract_lets +onlyGivenNames z; refine (fun (hz : Keeps bb z) => ?_) ?_; clear_value z; revert z; intro _ _; rotate_left; unfold z; clear z; rotate_left) | (extract_lets +onlyGivenNames z; refine (fun (hz : Keeps bb z.1) => ?_) ?_; clear_value z; revert z; intro _ _; rotate_left; unfold z; clear z; rotate_left) | (extract_lets +onlyGivenNames z; refine (fun (hz : Keeps bb z) => ?_) ?_; revert z; intro _ _; rotate_left; unfold z; clear z; rotate_left) | (extract_lets +onlyGivenNames z; revert z; intro _) | with_reducible apply State.emit_keeps | with_reducible apply State.putRegBit_keeps | with_reducible apply State.setRegBits_keeps | with_reducible apply unbound_keeps | with_reducible apply Keeps.ite | split

theorem programDecoders_keeps {bb : Base} (s : State) (e : Nat) (h_s : Keeps bb s)  : Keeps bb (programDecoders s e) := by
  unfold programDecoders
  repeat' first | with_reducible assumption | intro _ | with_reducible apply State.emit_keeps | with_reducible apply Keeps.ite | split

theorem fmWrote_keeps {bb : Base} (s : State) (port : Nat) (a : Nat) (e : Option Nat) (h_s : Keeps bb s) (hqr : ¬ bb.q.regs := by assumption) : Keeps bb (fmWrote s port a e) := by
  unfold fmWrote
  repeat' first | with_reducible assumption | intro _ | with_reducible apply recordWriter_keeps

theorem fmCommand_keeps {bb : Base} (port : Nat) (f : State → State) (s : State) (h_f : ∀ y0, Keeps bb y0 → Keeps bb (f y0)) (h_s : Keeps bb s)  : Keeps bb (fmCommand port f s) := by
  unfold fmCommand
  repeat' first | with_reducible assumption | intro _ | with_reducible apply State.emit_keeps | with_reducible apply h_f | with_reducible apply Keeps.ite | split

theorem fmPayload_keeps {bb : Base} (port : Nat) (opcode : Nat) (values : List Nat) (s : State) (h_s : Keeps bb s)  : Keeps bb (fmPayload port opcode values s) := by
  unfold fmPayload
  repeat' first | with_reducible assumption | intro _ | with_reducible apply State.emit_keeps

theorem fmAnswered_keeps {bb : Base} (port : Nat) (opcode : Nat) (s : State) (h_s : Keeps bb s)  : Keeps bb (fmAnswered port opcode s) := by
  unfold fmAnswered
  repeat' first | with_reducible assumption | intro _ | with_reducible apply State.useFree_keeps | with_reducible apply fmPayload_keeps

theorem fmDone_keeps {bb : Base} (port : Nat) (rc : Nat) (s : State) (h_s : Keeps bb s)  : Keeps bb (fmDone port rc s) := by
  unfold fmDone
  repeat' first | with_reducible assumption | intro _ | with_reducible apply State.emit_keeps

theorem releasePerst_keeps {bb : Base} (s : State) (p : Nat) (h_s : Keeps bb s)  : Keeps bb (releasePerst s p) := by
  unfold releasePerst
  repeat' first | with_reducible assumption | intro _ | (simp only [Keeps.mk_iff]; with_reducible apply Keeps.upd) | with_reducible apply State.arm_keeps | with_reducible apply Keeps.ite | split

end Sys2Proof.Machine
end

