-- ==== Sys2Proof/Laws/Keeps/FmApi.lean ====
section
/-! SUPPORT. Every operation and meaning of Machine/FmApi.lean keeps what `Keeps` says. -/
set_option linter.all false
namespace Sys2Proof.Machine

theorem execIdentify_moves {qm qf qr qp : Prop} (dt : Nat) (port : Nat) (s : State) : Moves ⟨qm, qf, qr, qp⟩ dt s (execIdentify dt port s) := by
  unfold execIdentify
  refine run_moves ?_
  intro bb s hb h_s
  repeat' first | with_reducible assumption | intro _ | with_reducible apply fmCommand_keeps | with_reducible apply fmPayload_keeps | with_reducible apply run_keeps

theorem execBackgroundOperationStatus_moves {qm qf qr qp : Prop} (dt : Nat) (port : Nat) (s : State) : Moves ⟨qm, qf, qr, qp⟩ dt s (execBackgroundOperationStatus dt port s) := by
  unfold execBackgroundOperationStatus
  refine run_moves ?_
  intro bb s hb h_s
  repeat' first | with_reducible assumption | intro _ | with_reducible apply fmCommand_keeps | with_reducible apply fmPayload_keeps | with_reducible apply run_keeps

theorem execGetResponseMessageLimit_moves {qm qf qr qp : Prop} (dt : Nat) (port : Nat) (s : State) : Moves ⟨qm, qf, qr, qp⟩ dt s (execGetResponseMessageLimit dt port s) := by
  unfold execGetResponseMessageLimit
  refine run_moves ?_
  intro bb s hb h_s
  repeat' first | with_reducible assumption | intro _ | with_reducible apply State.emit_keeps | with_reducible apply fmCommand_keeps | with_reducible apply run_keeps

theorem execSetResponseMessageLimit_moves {qm qf qr qp : Prop} (dt : Nat) (port : Nat) (limit : Nat) (s : State) : Moves ⟨qm, qf, qr, qp⟩ dt s (execSetResponseMessageLimit dt port limit s) := by
  unfold execSetResponseMessageLimit
  refine run_moves ?_
  intro bb s hb h_s
  repeat' first | with_reducible assumption | intro _ | (extract_lets +onlyGivenNames z; refine (fun (hz : Keeps bb z) => ?_) ?_; clear_value z; revert z; intro _ _; rotate_left; unfold z; clear z; rotate_left) | (extract_lets +onlyGivenNames z; refine (fun (hz : Keeps bb z.1) => ?_) ?_; clear_value z; revert z; intro _ _; rotate_left; unfold z; clear z; rotate_left) | (extract_lets +onlyGivenNames z; refine (fun (hz : Keeps bb z) => ?_) ?_; revert z; intro _ _; rotate_left; unfold z; clear z; rotate_left) | (extract_lets +onlyGivenNames z; revert z; intro _) | (simp only [Keeps.mk_iff]; with_reducible apply Keeps.upd) | with_reducible apply State.emit_keeps | with_reducible apply fmCommand_keeps | with_reducible apply run_keeps

theorem execGetEventRecords_moves {qm qf qr qp : Prop} (dt : Nat) (port : Nat) (s : State) : Moves ⟨qm, qf, qr, qp⟩ dt s (execGetEventRecords dt port s) := by
  unfold execGetEventRecords
  refine run_moves ?_
  intro bb s hb h_s
  repeat' first | with_reducible assumption | intro _ | with_reducible apply fmCommand_keeps | with_reducible apply fmPayload_keeps | with_reducible apply run_keeps

theorem execClearEventRecords_moves {qm qf qr qp : Prop} (dt : Nat) (port : Nat) (s : State) : Moves ⟨qm, qf, qr, qp⟩ dt s (execClearEventRecords dt port s) := by
  unfold execClearEventRecords
  refine run_moves ?_
  intro bb s hb h_s
  repeat' first | with_reducible assumption | intro _ | (extract_lets +onlyGivenNames z; refine (fun (hz : Keeps bb z) => ?_) ?_; clear_value z; revert z; intro _ _; rotate_left; unfold z; clear z; rotate_left) | (extract_lets +onlyGivenNames z; refine (fun (hz : Keeps bb z.1) => ?_) ?_; clear_value z; revert z; intro _ _; rotate_left; unfold z; clear z; rotate_left) | (extract_lets +onlyGivenNames z; refine (fun (hz : Keeps bb z) => ?_) ?_; revert z; intro _ _; rotate_left; unfold z; clear z; rotate_left) | (extract_lets +onlyGivenNames z; revert z; intro _) | (simp only [Keeps.mk_iff]; with_reducible apply Keeps.upd) | with_reducible apply fmCommand_keeps | with_reducible apply fmDone_keeps | with_reducible apply run_keeps

theorem execGetTimestamp_moves {qm qf qr qp : Prop} (dt : Nat) (port : Nat) (s : State) : Moves ⟨qm, qf, qr, qp⟩ dt s (execGetTimestamp dt port s) := by
  unfold execGetTimestamp
  refine run_moves ?_
  intro bb s hb h_s
  repeat' first | with_reducible assumption | intro _ | with_reducible apply State.emit_keeps | with_reducible apply fmCommand_keeps | with_reducible apply run_keeps

theorem setTimeBase_keeps {bb : Base} (s : State) (v : Nat) (h_s : Keeps bb s)  : Keeps bb (setTimeBase s v) := by
  unfold setTimeBase
  repeat' first | with_reducible assumption | intro _ | (extract_lets +onlyGivenNames z; refine (fun (hz : Keeps bb z) => ?_) ?_; clear_value z; revert z; intro _ _; rotate_left; unfold z; clear z; rotate_left) | (extract_lets +onlyGivenNames z; refine (fun (hz : Keeps bb z.1) => ?_) ?_; clear_value z; revert z; intro _ _; rotate_left; unfold z; clear z; rotate_left) | (extract_lets +onlyGivenNames z; refine (fun (hz : Keeps bb z) => ?_) ?_; revert z; intro _ _; rotate_left; unfold z; clear z; rotate_left) | (extract_lets +onlyGivenNames z; revert z; intro _) | (simp only [Keeps.mk_iff]; with_reducible apply Keeps.upd)

theorem execSetTimestamp_moves {qm qf qp : Prop} (dt : Nat) (port : Nat) (ns : Nat) (s : State) : Moves ⟨qm, qf, False, qp⟩ dt s (execSetTimestamp dt port ns s) := by
  unfold execSetTimestamp
  refine run_moves ?_
  intro bb s hb h_s
  have hqr : ¬ bb.q.regs := by rw [hb]; exact id
  repeat' first | with_reducible assumption | intro _ | with_reducible apply fmCommand_keeps | with_reducible apply fmDone_keeps | with_reducible apply fmWrote_keeps | with_reducible apply run_keeps | with_reducible apply setTimeBase_keeps

theorem execIdentifySwitchDevice_moves {qm qf qr qp : Prop} (dt : Nat) (port : Nat) (s : State) : Moves ⟨qm, qf, qr, qp⟩ dt s (execIdentifySwitchDevice dt port s) := by
  unfold execIdentifySwitchDevice
  refine run_moves ?_
  intro bb s hb h_s
  repeat' first | with_reducible assumption | intro _ | with_reducible apply fmCommand_keeps | with_reducible apply fmPayload_keeps | with_reducible apply run_keeps

theorem execGetPhysicalPortState_moves {qm qf qr qp : Prop} (dt : Nat) (q : PortsQuery) (s : State) : Moves ⟨qm, qf, qr, qp⟩ dt s (execGetPhysicalPortState dt q s) := by
  unfold execGetPhysicalPortState
  refine run_moves ?_
  intro bb s hb h_s
  repeat' first | with_reducible assumption | intro _ | with_reducible apply fmCommand_keeps | with_reducible apply fmPayload_keeps | with_reducible apply run_keeps

theorem resetPpb_keeps {bb : Base} (s : State) (p : Nat) (h_s : Keeps bb s) (hqr : ¬ bb.q.regs := by assumption) : Keeps bb (resetPpb s p) := by
  unfold resetPpb
  repeat' first | with_reducible assumption | intro _ | with_reducible apply State.emit_keeps | with_reducible apply edgeLinkDown_keeps | with_reducible apply Keeps.ite | split

theorem portControl_keeps {bb : Base} (s : State) (target : Nat) (x1 : PortControl) (h_s : Keeps bb s) (hqr : ¬ bb.q.regs := by assumption) : Keeps bb (portControl s target x1) := by
  unfold portControl
  repeat' first | with_reducible assumption | intro _ | with_reducible apply assertPerst_keeps | with_reducible apply releasePerst_keeps | with_reducible apply resetPpb_keeps | split

theorem execPhysicalPortControl_moves {qm qf qp : Prop} (dt : Nat) (port : Nat) (target : Nat) (op : PortControl) (s : State) : Moves ⟨qm, qf, False, qp⟩ dt s (execPhysicalPortControl dt port target op s) := by
  unfold execPhysicalPortControl
  refine run_moves ?_
  intro bb s hb h_s
  have hqr : ¬ bb.q.regs := by rw [hb]; exact id
  repeat' first | with_reducible assumption | intro _ | with_reducible apply fmCommand_keeps | with_reducible apply fmDone_keeps | with_reducible apply portControl_keeps | with_reducible apply resetPpb_keeps | with_reducible apply run_keeps | with_reducible apply Keeps.ite | split

theorem execSendPpbCxlIoConfigurationRequest_moves {qm qf qr qp : Prop} (dt : Nat) (port : Nat) (ppb : Nat) (request : Nat) (s : State) : Moves ⟨qm, qf, qr, qp⟩ dt s (execSendPpbCxlIoConfigurationRequest dt port ppb request s) := by
  unfold execSendPpbCxlIoConfigurationRequest
  refine run_moves ?_
  intro bb s hb h_s
  repeat' first | with_reducible assumption | intro _ | with_reducible apply State.emit_keeps | with_reducible apply fmAnswered_keeps | with_reducible apply fmCommand_keeps | with_reducible apply fmDone_keeps | with_reducible apply run_keeps | with_reducible apply Keeps.ite | split

theorem execGetVirtualCxlSwitchInfo_moves {qm qf qr qp : Prop} (dt : Nat) (q : SwitchQuery) (s : State) : Moves ⟨qm, qf, qr, qp⟩ dt s (execGetVirtualCxlSwitchInfo dt q s) := by
  unfold execGetVirtualCxlSwitchInfo
  refine run_moves ?_
  intro bb s hb h_s
  repeat' first | with_reducible assumption | intro _ | with_reducible apply fmCommand_keeps | with_reducible apply fmDone_keeps | with_reducible apply fmPayload_keeps | with_reducible apply run_keeps | with_reducible apply Keeps.ite | split

theorem execBindVppb_moves {qm qf qp : Prop} (dt : Nat) (port : Nat) (host : Nat) (vppb : Nat) (dsp : Nat) (ldId : Nat) (s : State) : Moves ⟨qm, qf, False, qp⟩ dt s (execBindVppb dt port host vppb dsp ldId s) := by
  unfold execBindVppb
  refine run_moves ?_
  intro bb s hb h_s
  have hqr : ¬ bb.q.regs := by rw [hb]; exact id
  repeat' first | with_reducible assumption | intro _ | with_reducible apply bindNow_keeps | with_reducible apply fmCommand_keeps | with_reducible apply fmDone_keeps | with_reducible apply fmWrote_keeps | with_reducible apply run_keeps | with_reducible apply Keeps.ite | split

theorem execUnbindVppb_moves {qm qf qp : Prop} (dt : Nat) (port : Nat) (host : Nat) (vppb : Nat) (managed : Bool) (s : State) : Moves ⟨qm, qf, False, qp⟩ dt s (execUnbindVppb dt port host vppb managed s) := by
  unfold execUnbindVppb
  refine run_moves ?_
  intro bb s hb h_s
  have hqr : ¬ bb.q.regs := by rw [hb]; exact id
  repeat' first | with_reducible assumption | intro _ | with_reducible apply fmCommand_keeps | with_reducible apply fmDone_keeps | with_reducible apply fmWrote_keeps | with_reducible apply run_keeps | with_reducible apply unbindNow_keeps | with_reducible apply Keeps.ite | split

theorem execGenerateAerEvent_moves {qm qf qr qp : Prop} (dt : Nat) (port : Nat) (host : Nat) (vppb : Nat) (event : Nat) (s : State) : Moves ⟨qm, qf, qr, qp⟩ dt s (execGenerateAerEvent dt port host vppb event s) := by
  unfold execGenerateAerEvent
  refine run_moves ?_
  intro bb s hb h_s
  repeat' first | with_reducible assumption | intro _ | with_reducible apply aerError_keeps | with_reducible apply fmCommand_keeps | with_reducible apply fmDone_keeps | with_reducible apply run_keeps | with_reducible apply Keeps.ite | split

theorem execTunnelManagementCommand_moves {qm qf qr qp : Prop} (dt : Nat) (port : Nat) (dsp : Nat) (command : List Byte) (s : State) : Moves ⟨qm, qf, qr, qp⟩ dt s (execTunnelManagementCommand dt port dsp command s) := by
  unfold execTunnelManagementCommand
  refine run_moves ?_
  intro bb s hb h_s
  repeat' first | with_reducible assumption | intro _ | with_reducible apply State.emit_keeps | with_reducible apply fmAnswered_keeps | with_reducible apply fmCommand_keeps | with_reducible apply fmDone_keeps | with_reducible apply run_keeps | with_reducible apply Keeps.ite | split

theorem ldRequest_keeps {bb : Base} (port : Nat) (opcode : Nat) (dsp : Nat) (ldId : Nat) (request : Nat) (what : String) (t : State) (h_t : Keeps bb t)  : Keeps bb (ldRequest port opcode dsp ldId request what t) := by
  unfold ldRequest
  repeat' first | with_reducible assumption | intro _ | with_reducible apply State.emit_keeps | with_reducible apply fmAnswered_keeps | with_reducible apply fmDone_keeps | with_reducible apply Keeps.ite | split

theorem execSendLdCxlIoConfigurationRequest_moves {qm qf qr qp : Prop} (dt : Nat) (port : Nat) (dsp : Nat) (ldId : Nat) (request : Nat) (s : State) : Moves ⟨qm, qf, qr, qp⟩ dt s (execSendLdCxlIoConfigurationRequest dt port dsp ldId request s) := by
  unfold execSendLdCxlIoConfigurationRequest
  refine run_moves ?_
  intro bb s hb h_s
  repeat' first | with_reducible assumption | intro _ | with_reducible apply fmCommand_keeps | with_reducible apply ldRequest_keeps | with_reducible apply run_keeps

theorem execSendLdCxlIoMemoryRequest_moves {qm qf qr qp : Prop} (dt : Nat) (port : Nat) (dsp : Nat) (ldId : Nat) (request : Nat) (s : State) : Moves ⟨qm, qf, qr, qp⟩ dt s (execSendLdCxlIoMemoryRequest dt port dsp ldId request s) := by
  unfold execSendLdCxlIoMemoryRequest
  refine run_moves ?_
  intro bb s hb h_s
  repeat' first | with_reducible assumption | intro _ | with_reducible apply fmCommand_keeps | with_reducible apply ldRequest_keeps | with_reducible apply run_keeps

theorem execUnsupportedOpcode_moves {qm qf qr qp : Prop} (dt : Nat) (port : Nat) (opcode : Nat) (s : State) : Moves ⟨qm, qf, qr, qp⟩ dt s (execUnsupportedOpcode dt port opcode s) := by
  unfold execUnsupportedOpcode
  refine run_moves ?_
  intro bb s hb h_s
  repeat' first | with_reducible assumption | intro _ | with_reducible apply fmDone_keeps | with_reducible apply run_keeps | with_reducible apply Keeps.ite | split

end Sys2Proof.Machine
end

