-- ==== Sys2Proof/Laws/Keeps/Telemetry.lean ====
section
/-! SUPPORT. Every operation and meaning of Machine/Telemetry.lean keeps what `Keeps` says. -/
set_option linter.all false
set_option Elab.async false
namespace Sys2Proof.Machine

theorem latchSet_keeps {bb : Base} (s : State) (flags : Nat) (start : Nat) (stop : Nat) (entries : List (Nat × Nat)) (h_s : Keeps bb s) (hqr : ¬ bb.q.regs := by assumption) (hqp : ¬ bb.q.phase := by assumption) : Keeps bb (latchSet s flags start stop entries) := by
  unfold latchSet
  repeat' first | with_reducible assumption | intro _ | (extract_lets +onlyGivenNames z; refine (fun (hz : Keeps bb z) => ?_) ?_; clear_value z; revert z; intro _ _; rotate_left; unfold z; clear z; rotate_left) | (extract_lets +onlyGivenNames z; refine (fun (hz : Keeps bb z.1) => ?_) ?_; clear_value z; revert z; intro _ _; rotate_left; unfold z; clear z; rotate_left) | (extract_lets +onlyGivenNames z; refine (fun (hz : Keeps bb z) => ?_) ?_; revert z; intro _ _; rotate_left; unfold z; clear z; rotate_left) | (extract_lets +onlyGivenNames z; revert z; intro _) | (simp only [Keeps.mk_iff]; with_reducible apply Keeps.upd) | with_reducible apply State.count1_keeps | with_reducible apply raise_keeps | split

theorem engineLoads_keeps {bb : Base} (s : State) (h_s : Keeps bb s) (hqr : ¬ bb.q.regs := by assumption) : Keeps bb (engineLoads s) := by
  unfold engineLoads
  repeat' first | with_reducible assumption | intro _ | (extract_lets +onlyGivenNames z; refine (fun (hz : Keeps bb z) => ?_) ?_; clear_value z; revert z; intro _ _; rotate_left; unfold z; clear z; rotate_left) | (extract_lets +onlyGivenNames z; refine (fun (hz : Keeps bb z.1) => ?_) ?_; clear_value z; revert z; intro _ _; rotate_left; unfold z; clear z; rotate_left) | (extract_lets +onlyGivenNames z; refine (fun (hz : Keeps bb z) => ?_) ?_; revert z; intro _ _; rotate_left; unfold z; clear z; rotate_left) | (extract_lets +onlyGivenNames z; revert z; intro _) | (simp only [Keeps.mk_iff]; with_reducible apply Keeps.upd) | with_reducible apply State.setReg_keeps | with_reducible apply Keeps.forEach

theorem boundary_keeps {bb : Base} (s : State) (d : Nat) (bad : List Nat) (h_s : Keeps bb s) (hqr : ¬ bb.q.regs := by assumption) (hqp : ¬ bb.q.phase := by assumption) : Keeps bb (boundary s d bad) := by
  unfold boundary
  repeat' first | with_reducible assumption | intro _ | (extract_lets +onlyGivenNames z; refine (fun (hz : Keeps bb z) => ?_) ?_; clear_value z; revert z; intro _ _; rotate_left; unfold z; clear z; rotate_left) | (extract_lets +onlyGivenNames z; refine (fun (hz : Keeps bb z.1) => ?_) ?_; clear_value z; revert z; intro _ _; rotate_left; unfold z; clear z; rotate_left) | (extract_lets +onlyGivenNames z; refine (fun (hz : Keeps bb z) => ?_) ?_; revert z; intro _ _; rotate_left; unfold z; clear z; rotate_left) | (extract_lets +onlyGivenNames z; revert z; intro _) | (simp only [Keeps.mk_iff]; with_reducible apply Keeps.upd) | with_reducible apply State.setReg_keeps | with_reducible apply engineLoads_keeps | with_reducible apply latchSet_keeps | with_reducible apply raise_keeps | with_reducible apply Keeps.ite | split

theorem execIntervalBoundary_moves {qm qf : Prop} (dt : Nat) (bad : List CounterElem) (s : State) : Moves ⟨qm, qf, False, False⟩ dt s (execIntervalBoundary dt bad s) := by
  unfold execIntervalBoundary
  refine run_moves ?_
  intro bb s hb h_s
  have hqr : ¬ bb.q.regs := by rw [hb]; exact id
  have hqp : ¬ bb.q.phase := by rw [hb]; exact id
  try dsimp -zeta only
  repeat' first | with_reducible assumption | intro _ | with_reducible apply Keeps.withState | with_reducible apply Keeps.withSome | with_reducible apply boundary_keeps | with_reducible apply run_keeps | with_reducible apply settleAll_keeps | with_reducible apply Keeps.ite | split

theorem writeDump_keeps {base : Base} (s : State) (d : Dump) (h_s : Keeps base s) (hqm : ¬ base.q.mem := by assumption) (hqr : ¬ base.q.regs := by assumption) : Keeps base (writeDump s d) := by
  unfold writeDump
  extract_lets +onlyGivenNames slot d1 s1
  have h1 : Keeps base s1 := cleanLines_keeps _ _ _ h_s
  clear_value s1
  extract_lets +onlyGivenNames s2
  have h2 : Keeps base s2 := h1.filterMem _ rfl rfl rfl rfl rfl rfl rfl rfl rfl rfl rfl
  clear_value s2
  extract_lets +onlyGivenNames s3
  have h3 : Keeps base s3 := Keeps.forEach (State.setBytes_keeps _ _ _ h2) fun t a h => State.setBytes_keeps _ _ _ h
  exact pushItem_keeps _ _ _ (Keeps.mk_iff.mpr h3.upd)

theorem execDumpWrite_moves {qf qp : Prop} (dt : Nat) (s : State) : Moves ⟨False, qf, False, qp⟩ dt s (execDumpWrite dt s) := by
  unfold execDumpWrite
  refine run_moves ?_
  intro bb s hb h_s
  have hqm : ¬ bb.q.mem := by rw [hb]; exact id
  have hqr : ¬ bb.q.regs := by rw [hb]; exact id
  try dsimp -zeta only
  repeat' first | with_reducible assumption | intro _ | with_reducible apply run_keeps | with_reducible apply writeDump_keeps | with_reducible apply Keeps.ite | split

theorem formatDump_keeps {bb : Base} (s : State) (slot : Nat) (d : Dump) (h_s : Keeps bb s) (hqm : ¬ bb.q.mem := by assumption) (hqr : ¬ bb.q.regs := by assumption) (hqp : ¬ bb.q.phase := by assumption) : Keeps bb (formatDump s slot d) := by
  unfold formatDump
  repeat' first | with_reducible assumption | intro _ | (extract_lets +onlyGivenNames z; refine (fun (hz : Keeps bb z) => ?_) ?_; clear_value z; revert z; intro _ _; rotate_left; unfold z; clear z; rotate_left) | (extract_lets +onlyGivenNames z; refine (fun (hz : Keeps bb z.1) => ?_) ?_; clear_value z; revert z; intro _ _; rotate_left; unfold z; clear z; rotate_left) | (extract_lets +onlyGivenNames z; refine (fun (hz : Keeps bb z) => ?_) ?_; revert z; intro _ _; rotate_left; unfold z; clear z; rotate_left) | (extract_lets +onlyGivenNames z; revert z; intro _) | (simp only [Keeps.mk_iff]; with_reducible apply Keeps.upd) | with_reducible apply State.setReg_keeps | with_reducible apply State.sysRead_keeps | with_reducible apply State.sysWrite_keeps | with_reducible apply report_keeps | with_reducible apply Keeps.ite | split

theorem dumpAdvance_keeps {bb : Base} (s : State) (h_s : Keeps bb s) (hqm : ¬ bb.q.mem := by assumption) (hqr : ¬ bb.q.regs := by assumption) (hqp : ¬ bb.q.phase := by assumption) : Keeps bb (dumpAdvance s) := by
  unfold dumpAdvance
  repeat' first | with_reducible assumption | intro _ | with_reducible apply State.setReg_keeps | with_reducible apply State.sysRead_keeps

theorem execDumpDataRead_moves {qf : Prop} (dt : Nat) (path : Path) (s : State) : Moves ⟨False, qf, False, False⟩ dt s (execDumpDataRead dt path s) := by
  unfold execDumpDataRead
  refine run_moves ?_
  intro bb s hb h_s
  have hqm : ¬ bb.q.mem := by rw [hb]; exact id
  have hqr : ¬ bb.q.regs := by rw [hb]; exact id
  have hqp : ¬ bb.q.phase := by rw [hb]; exact id
  try dsimp -zeta only
  repeat' first | with_reducible assumption | intro _ | with_reducible apply dumpAdvance_keeps | with_reducible apply run_keeps | with_reducible apply serveRead_keeps

theorem progSelectEffect_keeps {bb : Base} (k : Nat) (value : Nat) (s : State) (h_s : Keeps bb s) (hqr : ¬ bb.q.regs := by assumption) : Keeps bb (progSelectEffect k value s) := by
  unfold progSelectEffect
  repeat' first | with_reducible assumption | intro _ | with_reducible apply State.setReg_keeps | with_reducible apply plainWrite_keeps

theorem execProgSelect_moves {qm qf : Prop} (dt : Nat) (path : Path) (k : Nat) (value : Nat) (s : State) : Moves ⟨qm, qf, False, False⟩ dt s (execProgSelect dt path k value s) := by
  unfold execProgSelect
  refine run_moves ?_
  intro bb s hb h_s
  have hqr : ¬ bb.q.regs := by rw [hb]; exact id
  have hqp : ¬ bb.q.phase := by rw [hb]; exact id
  try dsimp -zeta only
  repeat' first | with_reducible assumption | intro _ | with_reducible apply progSelectEffect_keeps | with_reducible apply run_keeps | with_reducible apply serveWrite_keeps

theorem tlmAdvance_keeps {bb : Base} (bad : List Nat) (s : State) (h_s : Keeps bb s) (hqr : ¬ bb.q.regs := by assumption) (hqp : ¬ bb.q.phase := by assumption) : Keeps bb (tlmAdvance bad s) := by
  unfold tlmAdvance
  repeat' first | with_reducible assumption | intro _ | (extract_lets +onlyGivenNames z; refine (fun (hz : Keeps bb z) => ?_) ?_; clear_value z; revert z; intro _ _; rotate_left; unfold z; clear z; rotate_left) | (extract_lets +onlyGivenNames z; refine (fun (hz : Keeps bb z.1) => ?_) ?_; clear_value z; revert z; intro _ _; rotate_left; unfold z; clear z; rotate_left) | (extract_lets +onlyGivenNames z; refine (fun (hz : Keeps bb z) => ?_) ?_; revert z; intro _ _; rotate_left; unfold z; clear z; rotate_left) | (extract_lets +onlyGivenNames z; revert z; intro _) | (simp only [Keeps.mk_iff]; with_reducible apply Keeps.upd) | with_reducible apply raise_keeps | with_reducible apply Keeps.ite | split

theorem execTlmRead_moves {qm qf : Prop} (dt : Nat) (path : Path) (bad : List Nat) (s : State) : Moves ⟨qm, qf, False, False⟩ dt s (execTlmRead dt path bad s) := by
  unfold execTlmRead
  refine run_moves ?_
  intro bb s hb h_s
  have hqr : ¬ bb.q.regs := by rw [hb]; exact id
  have hqp : ¬ bb.q.phase := by rw [hb]; exact id
  try dsimp -zeta only
  repeat' first | with_reducible assumption | intro _ | with_reducible apply run_keeps | with_reducible apply serveRead_keeps | with_reducible apply tlmAdvance_keeps

theorem releaseFifo_keeps {bb : Base} (s : State) (h_s : Keeps bb s)  : Keeps bb (releaseFifo s) := by
  unfold releaseFifo
  repeat' first | with_reducible assumption | intro _ | (extract_lets +onlyGivenNames z; refine (fun (hz : Keeps bb z) => ?_) ?_; clear_value z; revert z; intro _ _; rotate_left; unfold z; clear z; rotate_left) | (extract_lets +onlyGivenNames z; refine (fun (hz : Keeps bb z.1) => ?_) ?_; clear_value z; revert z; intro _ _; rotate_left; unfold z; clear z; rotate_left) | (extract_lets +onlyGivenNames z; refine (fun (hz : Keeps bb z) => ?_) ?_; revert z; intro _ _; rotate_left; unfold z; clear z; rotate_left) | (extract_lets +onlyGivenNames z; revert z; intro _) | (simp only [Keeps.mk_iff]; with_reducible apply Keeps.upd)

theorem tlmCtrlEffect_keeps {bb : Base} (v : Nat) (s : State) (h_s : Keeps bb s) (hqr : ¬ bb.q.regs := by assumption) (hqp : ¬ bb.q.phase := by assumption) : Keeps bb (tlmCtrlEffect v s) := by
  unfold tlmCtrlEffect
  repeat' first | with_reducible assumption | intro _ | (extract_lets +onlyGivenNames z; refine (fun (hz : Keeps bb z) => ?_) ?_; clear_value z; revert z; intro _ _; rotate_left; unfold z; clear z; rotate_left) | (extract_lets +onlyGivenNames z; refine (fun (hz : Keeps bb z.1) => ?_) ?_; clear_value z; revert z; intro _ _; rotate_left; unfold z; clear z; rotate_left) | (extract_lets +onlyGivenNames z; refine (fun (hz : Keeps bb z) => ?_) ?_; revert z; intro _ _; rotate_left; unfold z; clear z; rotate_left) | (extract_lets +onlyGivenNames z; revert z; intro _) | (simp only [Keeps.mk_iff]; with_reducible apply Keeps.upd) | with_reducible apply releaseFifo_keeps | with_reducible apply watermark_keeps | with_reducible apply work_keeps | split

theorem execTlmMark_moves {qm qf : Prop} (dt : Nat) (path : Path) (s : State) : Moves ⟨qm, qf, False, False⟩ dt s (execTlmMark dt path s) := by
  unfold execTlmMark
  refine run_moves ?_
  intro bb s hb h_s
  have hqr : ¬ bb.q.regs := by rw [hb]; exact id
  have hqp : ¬ bb.q.phase := by rw [hb]; exact id
  try dsimp -zeta only
  repeat' first | with_reducible assumption | intro _ | with_reducible apply run_keeps | with_reducible apply serveWrite_keeps | with_reducible apply tlmCtrlEffect_keeps

theorem execTlmRewind_moves {qm qf : Prop} (dt : Nat) (path : Path) (s : State) : Moves ⟨qm, qf, False, False⟩ dt s (execTlmRewind dt path s) := by
  unfold execTlmRewind
  refine run_moves ?_
  intro bb s hb h_s
  have hqr : ¬ bb.q.regs := by rw [hb]; exact id
  have hqp : ¬ bb.q.phase := by rw [hb]; exact id
  try dsimp -zeta only
  repeat' first | with_reducible assumption | intro _ | with_reducible apply run_keeps | with_reducible apply serveWrite_keeps | with_reducible apply tlmCtrlEffect_keeps

theorem execTlmRelease_moves {qm qf : Prop} (dt : Nat) (path : Path) (s : State) : Moves ⟨qm, qf, False, False⟩ dt s (execTlmRelease dt path s) := by
  unfold execTlmRelease
  refine run_moves ?_
  intro bb s hb h_s
  have hqr : ¬ bb.q.regs := by rw [hb]; exact id
  have hqp : ¬ bb.q.phase := by rw [hb]; exact id
  try dsimp -zeta only
  repeat' first | with_reducible assumption | intro _ | with_reducible apply run_keeps | with_reducible apply serveWrite_keeps | with_reducible apply tlmCtrlEffect_keeps

theorem execTlmRecordOffer_moves {qm qf : Prop} (dt : Nat) (type : Nat) (body : List Nat) (s : State) : Moves ⟨qm, qf, False, False⟩ dt s (execTlmRecordOffer dt type body s) := by
  unfold execTlmRecordOffer
  refine run_moves ?_
  intro bb s hb h_s
  have hqr : ¬ bb.q.regs := by rw [hb]; exact id
  have hqp : ¬ bb.q.phase := by rw [hb]; exact id
  try dsimp -zeta only
  repeat' first | with_reducible assumption | intro _ | with_reducible apply report_keeps | with_reducible apply run_keeps | with_reducible apply Keeps.ite | split

theorem execTimeSet_moves {qm qf : Prop} (dt : Nat) (path : Path) (value : Nat) (s : State) : Moves ⟨qm, qf, False, False⟩ dt s (execTimeSet dt path value s) := by
  unfold execTimeSet
  refine run_moves ?_
  intro bb s hb h_s
  have hqr : ¬ bb.q.regs := by rw [hb]; exact id
  have hqp : ¬ bb.q.phase := by rw [hb]; exact id
  try dsimp -zeta only
  repeat' first | with_reducible assumption | intro _ | with_reducible apply run_keeps | with_reducible apply serveWrite_keeps | with_reducible apply setTimeBase_keeps

theorem watermarkEffect_keeps {bb : Base} (a : Nat) (value : Nat) (s : State) (h_s : Keeps bb s) (hqr : ¬ bb.q.regs := by assumption) (hqp : ¬ bb.q.phase := by assumption) : Keeps bb (watermarkEffect a value s) := by
  unfold watermarkEffect
  repeat' first | with_reducible assumption | intro _ | (extract_lets +onlyGivenNames z; refine (fun (hz : Keeps bb z) => ?_) ?_; clear_value z; revert z; intro _ _; rotate_left; unfold z; clear z; rotate_left) | (extract_lets +onlyGivenNames z; refine (fun (hz : Keeps bb z.1) => ?_) ?_; clear_value z; revert z; intro _ _; rotate_left; unfold z; clear z; rotate_left) | (extract_lets +onlyGivenNames z; refine (fun (hz : Keeps bb z) => ?_) ?_; revert z; intro _ _; rotate_left; unfold z; clear z; rotate_left) | (extract_lets +onlyGivenNames z; revert z; intro _) | with_reducible apply plainWrite_keeps | with_reducible apply watermark_keeps | with_reducible apply work_keeps

theorem execWatermarkWrite_moves {qm qf : Prop} (dt : Nat) (path : Path) (high : Bool) (value : Nat) (s : State) : Moves ⟨qm, qf, False, False⟩ dt s (execWatermarkWrite dt path high value s) := by
  unfold execWatermarkWrite
  refine run_moves ?_
  intro bb s hb h_s
  have hqr : ¬ bb.q.regs := by rw [hb]; exact id
  have hqp : ¬ bb.q.phase := by rw [hb]; exact id
  try dsimp -zeta only
  repeat' first | with_reducible assumption | intro _ | with_reducible apply run_keeps | with_reducible apply serveWrite_keeps | with_reducible apply watermarkEffect_keeps | with_reducible apply Keeps.ite | split

end Sys2Proof.Machine
end

