-- ==== Sys2Proof/Laws/Keeps/Background.lean ====
section
/-! SUPPORT. Every operation and meaning of Machine/Background.lean keeps what `Keeps` says. -/
set_option linter.all false
namespace Sys2Proof.Machine

theorem popItem_keeps {bb : Base} (s : State) (n : Nat) (h_s : Keeps bb s) (hqr : ¬ bb.q.regs := by assumption) : Keeps bb (popItem s n) := by
  unfold popItem
  repeat' first | with_reducible assumption | intro _ | with_reducible apply setDeque_keeps

theorem clearLine_keeps {bb : Base} (s : State) (n : Nat) (k : Nat) (holders : List Requester) (h_s : Keeps bb s) (hqm : ¬ bb.q.mem := by assumption) (hqr : ¬ bb.q.regs := by assumption) (hqp : ¬ bb.q.phase := by assumption) : Keeps bb (clearLine s n k holders) := by
  unfold clearLine
  repeat' first | with_reducible assumption | intro _ | (simp only [Keeps.mk_iff]; with_reducible apply Keeps.upd) | with_reducible apply markReconciled_keeps | with_reducible apply openCtx_keeps | with_reducible apply setEnt_keeps | with_reducible apply Keeps.ite | split

theorem releaseLine_keeps {bb : Base} (n : Nat) (s : State) (k : Nat) (h_s : Keeps bb s) (hqm : ¬ bb.q.mem := by assumption) (hqr : ¬ bb.q.regs := by assumption) (hqp : ¬ bb.q.phase := by assumption) : Keeps bb (releaseLine n s k) := by
  unfold releaseLine
  repeat' first | with_reducible assumption | intro _ | (extract_lets +onlyGivenNames z; refine (fun (hz : Keeps bb z) => ?_) ?_; clear_value z; revert z; intro _ _; rotate_left; unfold z; clear z; rotate_left) | (extract_lets +onlyGivenNames z; refine (fun (hz : Keeps bb z.1) => ?_) ?_; clear_value z; revert z; intro _ _; rotate_left; unfold z; clear z; rotate_left) | (extract_lets +onlyGivenNames z; refine (fun (hz : Keeps bb z) => ?_) ?_; revert z; intro _ _; rotate_left; unfold z; clear z; rotate_left) | (extract_lets +onlyGivenNames z; revert z; intro _) | with_reducible apply clearLine_keeps | with_reducible apply settleDead_keeps | with_reducible apply Keeps.ite | split

theorem runRelease_keeps {bb : Base} (s : State) (n : Nat) (slice : Nat) (h_s : Keeps bb s) (hqm : ¬ bb.q.mem := by assumption) (hqr : ¬ bb.q.regs := by assumption) (hqp : ¬ bb.q.phase := by assumption) : Keeps bb (runRelease s n slice) := by
  unfold runRelease
  repeat' first | with_reducible assumption | intro _ | (extract_lets +onlyGivenNames z; refine (fun (hz : Keeps bb z) => ?_) ?_; clear_value z; revert z; intro _ _; rotate_left; unfold z; clear z; rotate_left) | (extract_lets +onlyGivenNames z; refine (fun (hz : Keeps bb z.1) => ?_) ?_; clear_value z; revert z; intro _ _; rotate_left; unfold z; clear z; rotate_left) | (extract_lets +onlyGivenNames z; refine (fun (hz : Keeps bb z) => ?_) ?_; revert z; intro _ _; rotate_left; unfold z; clear z; rotate_left) | (extract_lets +onlyGivenNames z; revert z; intro _) | with_reducible apply Keeps.forEach | with_reducible apply popItem_keeps | with_reducible apply releaseLine_keeps | with_reducible apply settle_keeps | with_reducible apply Keeps.ite | split

theorem mergeClean_keeps {bb : Base} (n : Nat) (s : State) (l : Bool × Nat) (h_s : Keeps bb s) (hqm : ¬ bb.q.mem := by assumption) (hqr : ¬ bb.q.regs := by assumption) (hqp : ¬ bb.q.phase := by assumption) : Keeps bb (mergeClean n s l) := by
  unfold mergeClean
  repeat' first | with_reducible assumption | intro _ | with_reducible apply mergeLine_keeps | with_reducible apply Keeps.ite | split

theorem reconcileLine_keeps {bb : Base} (n : Nat) (s : State) (k : Nat) (h_s : Keeps bb s) (hqm : ¬ bb.q.mem := by assumption) (hqr : ¬ bb.q.regs := by assumption) (hqp : ¬ bb.q.phase := by assumption) : Keeps bb (reconcileLine n s k) := by
  unfold reconcileLine
  repeat' first | with_reducible assumption | intro _ | with_reducible apply clearLine_keeps | with_reducible apply setEnt_keeps | with_reducible apply Keeps.ite | split

theorem runReconcile_keeps {bb : Base} (s : State) (n : Nat) (slice : Nat) (h_s : Keeps bb s) (hqm : ¬ bb.q.mem := by assumption) (hqr : ¬ bb.q.regs := by assumption) (hqp : ¬ bb.q.phase := by assumption) : Keeps bb (runReconcile s n slice) := by
  unfold runReconcile
  repeat' first | with_reducible assumption | intro _ | (extract_lets +onlyGivenNames z; refine (fun (hz : Keeps bb z) => ?_) ?_; clear_value z; revert z; intro _ _; rotate_left; unfold z; clear z; rotate_left) | (extract_lets +onlyGivenNames z; refine (fun (hz : Keeps bb z.1) => ?_) ?_; clear_value z; revert z; intro _ _; rotate_left; unfold z; clear z; rotate_left) | (extract_lets +onlyGivenNames z; refine (fun (hz : Keeps bb z) => ?_) ?_; revert z; intro _ _; rotate_left; unfold z; clear z; rotate_left) | (extract_lets +onlyGivenNames z; revert z; intro _) | with_reducible apply Keeps.forEach | with_reducible apply mergeClean_keeps | with_reducible apply popItem_keeps | with_reducible apply reconcileLine_keeps | with_reducible apply settle_keeps | with_reducible apply sliceReconciled_keeps | with_reducible apply Keeps.ite | split

theorem runFollowUp_keeps {bb : Base} (s : State) (n : Nat) (k : Nat) (h_s : Keeps bb s) (hqm : ¬ bb.q.mem := by assumption) (hqr : ¬ bb.q.regs := by assumption) (hqp : ¬ bb.q.phase := by assumption) : Keeps bb (runFollowUp s n k) := by
  unfold runFollowUp
  repeat' first | with_reducible assumption | intro _ | (extract_lets +onlyGivenNames z; refine (fun (hz : Keeps bb z) => ?_) ?_; clear_value z; revert z; intro _ _; rotate_left; unfold z; clear z; rotate_left) | (extract_lets +onlyGivenNames z; refine (fun (hz : Keeps bb z.1) => ?_) ?_; clear_value z; revert z; intro _ _; rotate_left; unfold z; clear z; rotate_left) | (extract_lets +onlyGivenNames z; refine (fun (hz : Keeps bb z) => ?_) ?_; revert z; intro _ _; rotate_left; unfold z; clear z; rotate_left) | (extract_lets +onlyGivenNames z; revert z; intro _) | with_reducible apply State.useFree_keeps | with_reducible apply lookupEnt_keeps | with_reducible apply pushLog_keeps | with_reducible apply Keeps.ite | split

theorem runFormat_keeps {bb : Base} (s : State) (slot : Nat) (h_s : Keeps bb s) (hqm : ¬ bb.q.mem := by assumption) (hqr : ¬ bb.q.regs := by assumption) (hqp : ¬ bb.q.phase := by assumption) : Keeps bb (runFormat s slot) := by
  unfold runFormat
  repeat' first | with_reducible assumption | intro _ | with_reducible apply formatDump_keeps | with_reducible apply Keeps.ite | split

theorem runItem_keeps {bb : Base} (s : State) (n : Nat) (i : BgItem) (h_s : Keeps bb s) (hqm : ¬ bb.q.mem := by assumption) (hqr : ¬ bb.q.regs := by assumption) (hqp : ¬ bb.q.phase := by assumption) : Keeps bb (runItem s n i) := by
  unfold runItem
  repeat' first | with_reducible assumption | intro _ | with_reducible apply foldDirty_keeps | with_reducible apply popItem_keeps | with_reducible apply runFollowUp_keeps | with_reducible apply runFormat_keeps | with_reducible apply runReconcile_keeps | with_reducible apply runRelease_keeps | with_reducible apply showSweep_keeps | with_reducible apply sweepSlice_keeps | split

theorem execBackgroundItem_moves {qf : Prop} (dt : Nat) (col : Nat) (s : State) : Moves ⟨False, qf, False, False⟩ dt s (execBackgroundItem dt col s) := by
  unfold execBackgroundItem
  refine run_moves ?_
  intro bb s hb h_s
  have hqm : ¬ bb.q.mem := by rw [hb]; exact id
  have hqr : ¬ bb.q.regs := by rw [hb]; exact id
  have hqp : ¬ bb.q.phase := by rw [hb]; exact id
  try dsimp -zeta only
  repeat' first | with_reducible assumption | intro _ | with_reducible apply run_keeps | with_reducible apply runItem_keeps | with_reducible apply Keeps.ite | split

theorem takeItem_keeps {bb : Base} (s : State) (n : Nat) (from_ : Nat) (h_s : Keeps bb s) (hqr : ¬ bb.q.regs := by assumption) : Keeps bb (takeItem s n from_) := by
  unfold takeItem
  repeat' first | with_reducible assumption | intro _ | (extract_lets +onlyGivenNames z; refine (fun (hz : Keeps bb z) => ?_) ?_; clear_value z; revert z; intro _ _; rotate_left; unfold z; clear z; rotate_left) | (extract_lets +onlyGivenNames z; refine (fun (hz : Keeps bb z.1) => ?_) ?_; clear_value z; revert z; intro _ _; rotate_left; unfold z; clear z; rotate_left) | (extract_lets +onlyGivenNames z; refine (fun (hz : Keeps bb z) => ?_) ?_; revert z; intro _ _; rotate_left; unfold z; clear z; rotate_left) | (extract_lets +onlyGivenNames z; revert z; intro _) | with_reducible apply Keeps.withState | with_reducible apply State.count1_keeps | with_reducible apply Keeps.withSome | with_reducible apply pushItem_keeps | with_reducible apply setDeque_keeps

theorem execItemSteal_moves {qm qf qp : Prop} (dt : Nat) (col : Nat) (s : State) : Moves ⟨qm, qf, False, qp⟩ dt s (execItemSteal dt col s) := by
  unfold execItemSteal
  refine run_moves ?_
  intro bb s hb h_s
  have hqr : ¬ bb.q.regs := by rw [hb]; exact id
  try dsimp -zeta only
  repeat' first | with_reducible assumption | intro _ | with_reducible apply Keeps.withState | with_reducible apply Keeps.withSome | with_reducible apply run_keeps | with_reducible apply takeItem_keeps | with_reducible apply Keeps.ite | split

end Sys2Proof.Machine
end

