-- ==== Sys2Proof/Laws/Keeps/Col.lean ====
section
/-! SUPPORT. Every operation and meaning of Machine/Col.lean keeps what `Keeps` says. -/
set_option linter.all false
namespace Sys2Proof.Machine

theorem followIdle_keeps {bb : Base} (s : State) (h_s : Keeps bb s)  : Keeps bb (followIdle s) := by
  unfold followIdle
  repeat' first | with_reducible assumption | intro _ | (extract_lets +onlyGivenNames z; refine (fun (hz : Keeps bb z) => ?_) ?_; clear_value z; revert z; intro _ _; rotate_left; unfold z; clear z; rotate_left) | (extract_lets +onlyGivenNames z; refine (fun (hz : Keeps bb z.1) => ?_) ?_; clear_value z; revert z; intro _ _; rotate_left; unfold z; clear z; rotate_left) | (extract_lets +onlyGivenNames z; refine (fun (hz : Keeps bb z) => ?_) ?_; revert z; intro _ _; rotate_left; unfold z; clear z; rotate_left) | (extract_lets +onlyGivenNames z; revert z; intro _) | (simp only [Keeps.mk_iff]; with_reducible apply Keeps.upd) | with_reducible apply KeepsO.getD

theorem readWindow_keeps {bb : Base} (s : State) (loads : List EngineLoad) (h_s : Keeps bb s) (hqr : ¬ bb.q.regs := by assumption) : Keeps bb (readWindow s loads) := by
  unfold readWindow
  repeat' first | with_reducible assumption | intro _ | (extract_lets +onlyGivenNames z; refine (fun (hz : Keeps bb z) => ?_) ?_; clear_value z; revert z; intro _ _; rotate_left; unfold z; clear z; rotate_left) | (extract_lets +onlyGivenNames z; refine (fun (hz : Keeps bb z.1) => ?_) ?_; clear_value z; revert z; intro _ _; rotate_left; unfold z; clear z; rotate_left) | (extract_lets +onlyGivenNames z; refine (fun (hz : Keeps bb z) => ?_) ?_; revert z; intro _ _; rotate_left; unfold z; clear z; rotate_left) | (extract_lets +onlyGivenNames z; revert z; intro _) | (simp only [Keeps.mk_iff]; with_reducible apply Keeps.upd) | with_reducible apply State.setReg_keeps | with_reducible apply followIdle_keeps | with_reducible apply Keeps.forEach

theorem execLoadWindowEnd_moves {qm qf qp : Prop} (dt : Nat) (loads : List EngineLoad) (s : State) : Moves ⟨qm, qf, False, qp⟩ dt s (execLoadWindowEnd dt loads s) := by
  unfold execLoadWindowEnd
  refine run_moves ?_
  intro bb s hb h_s
  have hqr : ¬ bb.q.regs := by rw [hb]; exact id
  try dsimp -zeta only
  repeat' first | with_reducible assumption | intro _ | (simp only [Keeps.mk_iff]; with_reducible apply Keeps.upd) | with_reducible apply State.arm_keeps | with_reducible apply coordinate_keeps | with_reducible apply readWindow_keeps | with_reducible apply run_keeps | with_reducible apply Keeps.ite | split

theorem execSliceQuiescent_moves {qf : Prop} (dt : Nat) (slice : Nat) (s : State) : Moves ⟨False, qf, False, False⟩ dt s (execSliceQuiescent dt slice s) := by
  unfold execSliceQuiescent
  refine run_moves ?_
  intro bb s hb h_s
  have hqm : ¬ bb.q.mem := by rw [hb]; exact id
  have hqr : ¬ bb.q.regs := by rw [hb]; exact id
  have hqp : ¬ bb.q.phase := by rw [hb]; exact id
  try dsimp -zeta only
  repeat' first | with_reducible assumption | intro _ | (extract_lets +onlyGivenNames z; refine (fun (hz : Keeps bb z) => ?_) ?_; clear_value z; revert z; intro _ _; rotate_left; unfold z; clear z; rotate_left) | (extract_lets +onlyGivenNames z; refine (fun (hz : Keeps bb z.1) => ?_) ?_; clear_value z; revert z; intro _ _; rotate_left; unfold z; clear z; rotate_left) | (extract_lets +onlyGivenNames z; refine (fun (hz : Keeps bb z) => ?_) ?_; revert z; intro _ _; rotate_left; unfold z; clear z; rotate_left) | (extract_lets +onlyGivenNames z; revert z; intro _) | (simp only [Keeps.mk_iff]; with_reducible apply Keeps.upd) | with_reducible apply Keeps.withState | with_reducible apply State.disarm_keeps | with_reducible apply Keeps.withSome | with_reducible apply handOver_keeps | with_reducible apply run_keeps | with_reducible apply Keeps.ite | split

theorem execEpochChange_moves {qf : Prop} (dt : Nat) (s : State) : Moves ⟨False, qf, False, False⟩ dt s (execEpochChange dt s) := by
  unfold execEpochChange
  refine run_moves ?_
  intro bb s hb h_s
  have hqm : ¬ bb.q.mem := by rw [hb]; exact id
  have hqr : ¬ bb.q.regs := by rw [hb]; exact id
  have hqp : ¬ bb.q.phase := by rw [hb]; exact id
  try dsimp -zeta only
  repeat' first | with_reducible assumption | intro _ | (extract_lets +onlyGivenNames z; refine (fun (hz : Keeps bb z) => ?_) ?_; clear_value z; revert z; intro _ _; rotate_left; unfold z; clear z; rotate_left) | (extract_lets +onlyGivenNames z; refine (fun (hz : Keeps bb z.1) => ?_) ?_; clear_value z; revert z; intro _ _; rotate_left; unfold z; clear z; rotate_left) | (extract_lets +onlyGivenNames z; refine (fun (hz : Keeps bb z) => ?_) ?_; revert z; intro _ _; rotate_left; unfold z; clear z; rotate_left) | (extract_lets +onlyGivenNames z; revert z; intro _) | (simp only [Keeps.mk_iff]; with_reducible apply Keeps.upd) | with_reducible apply State.arm_keeps | with_reducible apply State.setReg_keeps | with_reducible apply Keeps.forEach | with_reducible apply run_keeps | with_reducible apply switchSlice_keeps | with_reducible apply Keeps.ite | split

theorem execPortAgentMapUpdate_moves {qm qf qp : Prop} (dt : Nat) (s : State) : Moves ⟨qm, qf, False, qp⟩ dt s (execPortAgentMapUpdate dt s) := by
  unfold execPortAgentMapUpdate
  refine run_moves ?_
  intro bb s hb h_s
  have hqr : ¬ bb.q.regs := by rw [hb]; exact id
  try dsimp -zeta only
  repeat' first | with_reducible assumption | intro _ | (extract_lets +onlyGivenNames z; refine (fun (hz : Keeps bb z) => ?_) ?_; clear_value z; revert z; intro _ _; rotate_left; unfold z; clear z; rotate_left) | (extract_lets +onlyGivenNames z; refine (fun (hz : Keeps bb z.1) => ?_) ?_; clear_value z; revert z; intro _ _; rotate_left; unfold z; clear z; rotate_left) | (extract_lets +onlyGivenNames z; refine (fun (hz : Keeps bb z) => ?_) ?_; revert z; intro _ _; rotate_left; unfold z; clear z; rotate_left) | (extract_lets +onlyGivenNames z; revert z; intro _) | (simp only [Keeps.mk_iff]; with_reducible apply Keeps.upd) | with_reducible apply resendHome_keeps | with_reducible apply run_keeps

theorem execLeaseDrainExpiry_moves {qm qf qp : Prop} (dt : Nat) (slice : Nat) (s : State) : Moves ⟨qm, qf, False, qp⟩ dt s (execLeaseDrainExpiry dt slice s) := by
  unfold execLeaseDrainExpiry
  refine run_moves ?_
  intro bb s hb h_s
  have hqr : ¬ bb.q.regs := by rw [hb]; exact id
  try dsimp -zeta only
  repeat' first | with_reducible assumption | intro _ | (simp only [Keeps.mk_iff]; with_reducible apply Keeps.upd) | with_reducible apply State.onDue_keeps | with_reducible apply abandonMove_keeps | with_reducible apply run_keeps

theorem execForcedMoveRetry_moves {qf : Prop} (dt : Nat) (slice : Nat) (s : State) : Moves ⟨False, qf, False, False⟩ dt s (execForcedMoveRetry dt slice s) := by
  unfold execForcedMoveRetry
  refine run_moves ?_
  intro bb s hb h_s
  have hqm : ¬ bb.q.mem := by rw [hb]; exact id
  have hqr : ¬ bb.q.regs := by rw [hb]; exact id
  have hqp : ¬ bb.q.phase := by rw [hb]; exact id
  try dsimp -zeta only
  repeat' first | with_reducible assumption | intro _ | (simp only [Keeps.mk_iff]; with_reducible apply Keeps.upd) | with_reducible apply Keeps.withState | with_reducible apply State.onDue_keeps | with_reducible apply Keeps.withSome | with_reducible apply forceMove_keeps | with_reducible apply run_keeps | with_reducible apply Keeps.ite | split

theorem execLeaseHoldoffExpiry_moves {qm qf qr qp : Prop} (dt : Nat) (slice : Nat) (s : State) : Moves ⟨qm, qf, qr, qp⟩ dt s (execLeaseHoldoffExpiry dt slice s) := by
  unfold execLeaseHoldoffExpiry
  refine run_moves ?_
  intro bb s hb h_s
  try dsimp -zeta only
  repeat' first | with_reducible assumption | intro _ | (simp only [Keeps.mk_iff]; with_reducible apply Keeps.upd) | with_reducible apply Keeps.ofId | with_reducible apply State.onDue_keeps | with_reducible apply run_keeps

theorem execColSpareCmd_moves {qf : Prop} (dt : Nat) (path : Path) (value : Nat) (badSpares : List Nat) (s : State) : Moves ⟨False, qf, False, False⟩ dt s (execColSpareCmd dt path value badSpares s) := by
  unfold execColSpareCmd
  refine run_moves ?_
  intro bb s hb h_s
  have hqm : ¬ bb.q.mem := by rw [hb]; exact id
  have hqr : ¬ bb.q.regs := by rw [hb]; exact id
  have hqp : ¬ bb.q.phase := by rw [hb]; exact id
  try dsimp -zeta only
  repeat' first | with_reducible assumption | intro _ | with_reducible apply qualify_keeps | with_reducible apply run_keeps | with_reducible apply serveWrite_keeps

theorem execRoleEmptied_moves {qf : Prop} (dt : Nat) (role : Nat) (badSpares : List Nat) (s : State) : Moves ⟨False, qf, False, False⟩ dt s (execRoleEmptied dt role badSpares s) := by
  unfold execRoleEmptied
  refine run_moves ?_
  intro bb s hb h_s
  have hqm : ¬ bb.q.mem := by rw [hb]; exact id
  have hqr : ¬ bb.q.regs := by rw [hb]; exact id
  have hqp : ¬ bb.q.phase := by rw [hb]; exact id
  try dsimp -zeta only
  repeat' first | with_reducible assumption | intro _ | with_reducible apply Keeps.withState | with_reducible apply Keeps.withSome | with_reducible apply finishJob_keeps | with_reducible apply run_keeps | with_reducible apply Keeps.ite | split

theorem countCorrections_keeps {bb : Base} (s : State) (p : Nat) (n : Nat) (h_s : Keeps bb s) (hqr : ¬ bb.q.regs := by assumption) : Keeps bb (countCorrections s p n) := by
  unfold countCorrections
  repeat' first | with_reducible assumption | intro _ | (extract_lets +onlyGivenNames z; refine (fun (hz : Keeps bb z) => ?_) ?_; clear_value z; revert z; intro _ _; rotate_left; unfold z; clear z; rotate_left) | (extract_lets +onlyGivenNames z; refine (fun (hz : Keeps bb z.1) => ?_) ?_; clear_value z; revert z; intro _ _; rotate_left; unfold z; clear z; rotate_left) | (extract_lets +onlyGivenNames z; refine (fun (hz : Keeps bb z) => ?_) ?_; revert z; intro _ _; rotate_left; unfold z; clear z; rotate_left) | (extract_lets +onlyGivenNames z; revert z; intro _) | (simp only [Keeps.mk_iff]; with_reducible apply Keeps.upd) | with_reducible apply State.setRegBits_keeps | with_reducible apply Keeps.ite | split

theorem execImemScrub_moves {qf : Prop} (dt : Nat) (phys : Nat) (corrections : Nat) (badSpares : List Nat) (s : State) : Moves ⟨False, qf, False, False⟩ dt s (execImemScrub dt phys corrections badSpares s) := by
  unfold execImemScrub
  refine run_moves ?_
  intro bb s hb h_s
  have hqm : ¬ bb.q.mem := by rw [hb]; exact id
  have hqr : ¬ bb.q.regs := by rw [hb]; exact id
  have hqp : ¬ bb.q.phase := by rw [hb]; exact id
  try dsimp -zeta only
  repeat' first | with_reducible assumption | intro _ | (extract_lets +onlyGivenNames z; refine (fun (hz : Keeps bb z) => ?_) ?_; clear_value z; revert z; intro _ _; rotate_left; unfold z; clear z; rotate_left) | (extract_lets +onlyGivenNames z; refine (fun (hz : Keeps bb z.1) => ?_) ?_; clear_value z; revert z; intro _ _; rotate_left; unfold z; clear z; rotate_left) | (extract_lets +onlyGivenNames z; refine (fun (hz : Keeps bb z) => ?_) ?_; revert z; intro _ _; rotate_left; unfold z; clear z; rotate_left) | (extract_lets +onlyGivenNames z; revert z; intro _) | with_reducible apply countCorrections_keeps | with_reducible apply Keeps.forEach | with_reducible apply qualify_keeps | with_reducible apply raise_keeps | with_reducible apply run_keeps | with_reducible apply Keeps.ite | split

theorem execHashLookup_moves {qm qf : Prop} (dt : Nat) (path : Path) (value : Nat) (s : State) : Moves ⟨qm, qf, False, False⟩ dt s (execHashLookup dt path value s) := by
  unfold execHashLookup
  refine run_moves ?_
  intro bb s hb h_s
  have hqr : ¬ bb.q.regs := by rw [hb]; exact id
  have hqp : ¬ bb.q.phase := by rw [hb]; exact id
  try dsimp -zeta only
  repeat' first | with_reducible assumption | intro _ | with_reducible apply plainWrite_keeps | with_reducible apply run_keeps | with_reducible apply serveWrite_keeps

end Sys2Proof.Machine
end

