-- ==== Sys2Proof/Laws/Keeps/Lanes.lean ====
section
/-! SUPPORT. Every operation and meaning of Machine/Lanes.lean keeps what `Keeps` says. -/
set_option linter.all false
set_option Elab.async false
namespace Sys2Proof.Machine

theorem execSlackPosition_moves {qm qf qp : Prop} (dt : Nat) (port : Nat) (fill : Nat) (s : State) : Moves ⟨qm, qf, False, qp⟩ dt s (execSlackPosition dt port fill s) := by
  unfold execSlackPosition
  refine run_moves ?_
  intro bb s hb h_s
  have hqr : ¬ bb.q.regs := by rw [hb]; exact id
  try dsimp -zeta only
  repeat' first | with_reducible assumption | intro _ | (extract_lets +onlyGivenNames z; refine (fun (hz : Keeps bb z) => ?_) ?_; clear_value z; revert z; intro _ _; rotate_left; unfold z; clear z; rotate_left) | (extract_lets +onlyGivenNames z; refine (fun (hz : Keeps bb z.1) => ?_) ?_; clear_value z; revert z; intro _ _; rotate_left; unfold z; clear z; rotate_left) | (extract_lets +onlyGivenNames z; refine (fun (hz : Keeps bb z) => ?_) ?_; revert z; intro _ _; rotate_left; unfold z; clear z; rotate_left) | (extract_lets +onlyGivenNames z; revert z; intro _) | (simp only [Keeps.mk_iff]; with_reducible apply Keeps.upd) | with_reducible apply State.count1_keeps | with_reducible apply State.setPass_keeps | with_reducible apply run_keeps | with_reducible apply Keeps.ite | split

theorem execEbError_moves {qm qf : Prop} (dt : Nat) (lane : Nat) (s : State) : Moves ⟨qm, qf, False, False⟩ dt s (execEbError dt lane s) := by
  unfold execEbError
  refine run_moves ?_
  intro bb s hb h_s
  have hqr : ¬ bb.q.regs := by rw [hb]; exact id
  have hqp : ¬ bb.q.phase := by rw [hb]; exact id
  try dsimp -zeta only
  repeat' first | with_reducible assumption | intro _ | (extract_lets +onlyGivenNames z; refine (fun (hz : Keeps bb z) => ?_) ?_; clear_value z; revert z; intro _ _; rotate_left; unfold z; clear z; rotate_left) | (extract_lets +onlyGivenNames z; refine (fun (hz : Keeps bb z.1) => ?_) ?_; clear_value z; revert z; intro _ _; rotate_left; unfold z; clear z; rotate_left) | (extract_lets +onlyGivenNames z; refine (fun (hz : Keeps bb z) => ?_) ?_; revert z; intro _ _; rotate_left; unfold z; clear z; rotate_left) | (extract_lets +onlyGivenNames z; revert z; intro _) | (simp only [Keeps.mk_iff]; with_reducible apply Keeps.upd) | with_reducible apply Keeps.withState | with_reducible apply State.count1_keeps | with_reducible apply Keeps.withSome | with_reducible apply raise_keeps | with_reducible apply run_keeps | with_reducible apply Keeps.ite | split

theorem watchEnd_keeps {bb : Base} (lane : Nat) (idx : Nat) (atEnd : Bool) (s : State) (h_s : Keeps bb s)  : Keeps bb (watchEnd lane idx atEnd s) := by
  unfold watchEnd
  repeat' first | with_reducible assumption | intro _ | (extract_lets +onlyGivenNames z; refine (fun (hz : Keeps bb z) => ?_) ?_; clear_value z; revert z; intro _ _; rotate_left; unfold z; clear z; rotate_left) | (extract_lets +onlyGivenNames z; refine (fun (hz : Keeps bb z.1) => ?_) ?_; clear_value z; revert z; intro _ _; rotate_left; unfold z; clear z; rotate_left) | (extract_lets +onlyGivenNames z; refine (fun (hz : Keeps bb z) => ?_) ?_; revert z; intro _ _; rotate_left; unfold z; clear z; rotate_left) | (extract_lets +onlyGivenNames z; revert z; intro _) | (simp only [Keeps.mk_iff]; with_reducible apply Keeps.upd) | with_reducible apply State.arm_keeps | with_reducible apply State.disarm_keeps | with_reducible apply Keeps.ite | split

theorem stepTaps_keeps {bb : Base} (s : State) (lane : Nat) (moves : List Int) (h_s : Keeps bb s) (hqr : ¬ bb.q.regs := by assumption) : Keeps bb (stepTaps s lane moves) := by
  unfold stepTaps
  repeat' first | with_reducible assumption | intro _ | (extract_lets +onlyGivenNames z; refine (fun (hz : Keeps bb z) => ?_) ?_; clear_value z; revert z; intro _ _; rotate_left; unfold z; clear z; rotate_left) | (extract_lets +onlyGivenNames z; refine (fun (hz : Keeps bb z.1) => ?_) ?_; clear_value z; revert z; intro _ _; rotate_left; unfold z; clear z; rotate_left) | (extract_lets +onlyGivenNames z; refine (fun (hz : Keeps bb z) => ?_) ?_; revert z; intro _ _; rotate_left; unfold z; clear z; rotate_left) | (extract_lets +onlyGivenNames z; revert z; intro _) | (simp only [Keeps.mk_iff]; with_reducible apply Keeps.upd) | with_reducible apply State.arm_keeps | with_reducible apply State.setReg_keeps | with_reducible apply Keeps.forEach | with_reducible apply watchEnd_keeps | with_reducible apply Keeps.ite | split

theorem stepCtle_keeps {bb : Base} (s : State) (lane : Nat) (move : Int) (h_s : Keeps bb s) (hqr : ¬ bb.q.regs := by assumption) : Keeps bb (stepCtle s lane move) := by
  unfold stepCtle
  repeat' first | with_reducible assumption | intro _ | (extract_lets +onlyGivenNames z; refine (fun (hz : Keeps bb z) => ?_) ?_; clear_value z; revert z; intro _ _; rotate_left; unfold z; clear z; rotate_left) | (extract_lets +onlyGivenNames z; refine (fun (hz : Keeps bb z.1) => ?_) ?_; clear_value z; revert z; intro _ _; rotate_left; unfold z; clear z; rotate_left) | (extract_lets +onlyGivenNames z; refine (fun (hz : Keeps bb z) => ?_) ?_; revert z; intro _ _; rotate_left; unfold z; clear z; rotate_left) | (extract_lets +onlyGivenNames z; revert z; intro _) | (simp only [Keeps.mk_iff]; with_reducible apply Keeps.upd) | with_reducible apply State.arm_keeps | with_reducible apply State.setRegBits_keeps | with_reducible apply watchEnd_keeps | with_reducible apply Keeps.ite | split

theorem reload_keeps {bb : Base} (s : State) (lane : Nat) (h_s : Keeps bb s) (hqr : ¬ bb.q.regs := by assumption) : Keeps bb (reload s lane) := by
  unfold reload
  repeat' first | with_reducible assumption | intro _ | (simp only [Keeps.mk_iff]; with_reducible apply Keeps.upd) | with_reducible apply State.disarm_keeps | with_reducible apply armAdaptation_keeps | with_reducible apply Keeps.forEach | with_reducible apply loadTraining_keeps | split

theorem execAdaptationStep_moves {qm qf qp : Prop} (dt : Nat) (lane : Nat) (ctleMove : Int) (tapMoves : List Int) (s : State) : Moves ⟨qm, qf, False, qp⟩ dt s (execAdaptationStep dt lane ctleMove tapMoves s) := by
  unfold execAdaptationStep
  refine run_moves ?_
  intro bb s hb h_s
  have hqr : ¬ bb.q.regs := by rw [hb]; exact id
  try dsimp -zeta only
  repeat' first | with_reducible assumption | intro _ | (extract_lets +onlyGivenNames z; refine (fun (hz : Keeps bb z) => ?_) ?_; clear_value z; revert z; intro _ _; rotate_left; unfold z; clear z; rotate_left) | (extract_lets +onlyGivenNames z; refine (fun (hz : Keeps bb z.1) => ?_) ?_; clear_value z; revert z; intro _ _; rotate_left; unfold z; clear z; rotate_left) | (extract_lets +onlyGivenNames z; refine (fun (hz : Keeps bb z) => ?_) ?_; revert z; intro _ _; rotate_left; unfold z; clear z; rotate_left) | (extract_lets +onlyGivenNames z; revert z; intro _) | (simp only [Keeps.mk_iff]; with_reducible apply Keeps.upd) | with_reducible apply reload_keeps | with_reducible apply run_keeps | with_reducible apply stepCtle_keeps | with_reducible apply stepTaps_keeps | with_reducible apply Keeps.ite | split

theorem execSat_moves {qm qf : Prop} (dt : Nat) (lane : Nat) (s : State) : Moves ⟨qm, qf, False, False⟩ dt s (execSat dt lane s) := by
  unfold execSat
  refine run_moves ?_
  intro bb s hb h_s
  have hqr : ¬ bb.q.regs := by rw [hb]; exact id
  have hqp : ¬ bb.q.phase := by rw [hb]; exact id
  try dsimp -zeta only
  repeat' first | with_reducible assumption | intro _ | (simp only [Keeps.mk_iff]; with_reducible apply Keeps.upd) | with_reducible apply State.putRegBit_keeps | with_reducible apply raise_keeps | with_reducible apply reload_keeps | with_reducible apply run_keeps | with_reducible apply Keeps.ite | split

theorem adaptCtrlWrite_keeps {bb : Base} (s : State) (lane : Nat) (v : Nat) (h_s : Keeps bb s) (hqr : ¬ bb.q.regs := by assumption) : Keeps bb (adaptCtrlWrite s lane v) := by
  unfold adaptCtrlWrite
  repeat' first | with_reducible assumption | intro _ | (extract_lets +onlyGivenNames z; refine (fun (hz : Keeps bb z) => ?_) ?_; clear_value z; revert z; intro _ _; rotate_left; unfold z; clear z; rotate_left) | (extract_lets +onlyGivenNames z; refine (fun (hz : Keeps bb z.1) => ?_) ?_; clear_value z; revert z; intro _ _; rotate_left; unfold z; clear z; rotate_left) | (extract_lets +onlyGivenNames z; refine (fun (hz : Keeps bb z) => ?_) ?_; revert z; intro _ _; rotate_left; unfold z; clear z; rotate_left) | (extract_lets +onlyGivenNames z; revert z; intro _) | (simp only [Keeps.mk_iff]; with_reducible apply Keeps.upd) | with_reducible apply plainWrite_keeps | with_reducible apply Keeps.ite | split

theorem ffeWrite_keeps {bb : Base} (s : State) (lane : Nat) (v : Nat) (h_s : Keeps bb s) (hqr : ¬ bb.q.regs := by assumption) : Keeps bb (ffeWrite s lane v) := by
  unfold ffeWrite
  repeat' first | with_reducible assumption | intro _ | with_reducible apply State.setReg_keeps | with_reducible apply plainWrite_keeps | with_reducible apply Keeps.ite | split

theorem execRestore_moves {qm qf : Prop} (dt : Nat) (path : Path) (lane : Nat) (value : Nat) (s : State) : Moves ⟨qm, qf, False, False⟩ dt s (execRestore dt path lane value s) := by
  unfold execRestore
  refine run_moves ?_
  intro bb s hb h_s
  have hqr : ¬ bb.q.regs := by rw [hb]; exact id
  have hqp : ¬ bb.q.phase := by rw [hb]; exact id
  try dsimp -zeta only
  repeat' first | with_reducible assumption | intro _ | with_reducible apply adaptCtrlWrite_keeps | with_reducible apply run_keeps | with_reducible apply serveWrite_keeps

theorem powerDownLane_keeps {bb : Base} (s : State) (lane : Nat) (h_s : Keeps bb s)  : Keeps bb (powerDownLane s lane) := by
  unfold powerDownLane
  repeat' first | with_reducible assumption | intro _ | with_reducible apply stopLane_keeps

theorem swapDone_keeps {bb : Base} (s : State) (g : Nat) (j : SwapJob) (h_s : Keeps bb s) (hqr : ¬ bb.q.regs := by assumption) (hqp : ¬ bb.q.phase := by assumption) : Keeps bb (swapDone s g j) := by
  unfold swapDone
  repeat' first | with_reducible assumption | intro _ | (extract_lets +onlyGivenNames z; refine (fun (hz : Keeps bb z) => ?_) ?_; clear_value z; revert z; intro _ _; rotate_left; unfold z; clear z; rotate_left) | (extract_lets +onlyGivenNames z; refine (fun (hz : Keeps bb z.1) => ?_) ?_; clear_value z; revert z; intro _ _; rotate_left; unfold z; clear z; rotate_left) | (extract_lets +onlyGivenNames z; refine (fun (hz : Keeps bb z) => ?_) ?_; revert z; intro _ _; rotate_left; unfold z; clear z; rotate_left) | (extract_lets +onlyGivenNames z; revert z; intro _) | (simp only [Keeps.mk_iff]; with_reducible apply Keeps.upd) | with_reducible apply Keeps.withState | with_reducible apply State.disarm_keeps | with_reducible apply State.emit_keeps | with_reducible apply Keeps.withSome | with_reducible apply countReserves_keeps | with_reducible apply powerDownLane_keeps | with_reducible apply raise_keeps | with_reducible apply setReserve_keeps | with_reducible apply Keeps.ite | split

theorem beginSwap_keeps {bb : Base} (s : State) (g : Nat) (y : Nat) (revert : Bool) (margin : Nat) (h_s : Keeps bb s) (hqr : ¬ bb.q.regs := by assumption) (hqp : ¬ bb.q.phase := by assumption) : Keeps bb (beginSwap s g y revert margin) := by
  unfold beginSwap
  repeat' first | with_reducible assumption | intro _ | (extract_lets +onlyGivenNames z; refine (fun (hz : Keeps bb z) => ?_) ?_; clear_value z; revert z; intro _ _; rotate_left; unfold z; clear z; rotate_left) | (extract_lets +onlyGivenNames z; refine (fun (hz : Keeps bb z.1) => ?_) ?_; clear_value z; revert z; intro _ _; rotate_left; unfold z; clear z; rotate_left) | (extract_lets +onlyGivenNames z; refine (fun (hz : Keeps bb z) => ?_) ?_; revert z; intro _ _; rotate_left; unfold z; clear z; rotate_left) | (extract_lets +onlyGivenNames z; revert z; intro _) | (simp only [Keeps.mk_iff]; with_reducible apply Keeps.upd) | with_reducible apply State.arm_keeps | with_reducible apply State.disarm_keeps | with_reducible apply setReserve_keeps | with_reducible apply swapDone_keeps | with_reducible apply Keeps.ite | split

theorem swapCmdWrite_keeps {bb : Base} (s : State) (g : Nat) (v : Nat) (h_s : Keeps bb s) (hqr : ¬ bb.q.regs := by assumption) (hqp : ¬ bb.q.phase := by assumption) : Keeps bb (swapCmdWrite s g v) := by
  unfold swapCmdWrite
  repeat' first | with_reducible assumption | intro _ | with_reducible apply beginSwap_keeps | with_reducible apply Keeps.ite | split

theorem qualifySwap_keeps {bb : Base} (s : State) (lane : Nat) (margin : Nat) (h_s : Keeps bb s) (hqr : ¬ bb.q.regs := by assumption) (hqp : ¬ bb.q.phase := by assumption) : Keeps bb (qualifySwap s lane margin) := by
  unfold qualifySwap
  repeat' first | with_reducible assumption | intro _ | (extract_lets +onlyGivenNames z; refine (fun (hz : Keeps bb z) => ?_) ?_; clear_value z; revert z; intro _ _; rotate_left; unfold z; clear z; rotate_left) | (extract_lets +onlyGivenNames z; refine (fun (hz : Keeps bb z.1) => ?_) ?_; clear_value z; revert z; intro _ _; rotate_left; unfold z; clear z; rotate_left) | (extract_lets +onlyGivenNames z; refine (fun (hz : Keeps bb z) => ?_) ?_; revert z; intro _ _; rotate_left; unfold z; clear z; rotate_left) | (extract_lets +onlyGivenNames z; revert z; intro _) | with_reducible apply State.count1_keeps | with_reducible apply beginSwap_keeps | with_reducible apply Keeps.ite | split

theorem execSwap_moves {qm qf : Prop} (dt : Nat) (path : Path) (group : Nat) (lane : Nat) (s : State) : Moves ⟨qm, qf, False, False⟩ dt s (execSwap dt path group lane s) := by
  unfold execSwap
  refine run_moves ?_
  intro bb s hb h_s
  have hqr : ¬ bb.q.regs := by rw [hb]; exact id
  have hqp : ¬ bb.q.phase := by rw [hb]; exact id
  try dsimp -zeta only
  repeat' first | with_reducible assumption | intro _ | with_reducible apply run_keeps | with_reducible apply serveWrite_keeps | with_reducible apply swapCmdWrite_keeps

theorem execRevert_moves {qm qf : Prop} (dt : Nat) (path : Path) (group : Nat) (s : State) : Moves ⟨qm, qf, False, False⟩ dt s (execRevert dt path group s) := by
  unfold execRevert
  refine run_moves ?_
  intro bb s hb h_s
  have hqr : ¬ bb.q.regs := by rw [hb]; exact id
  have hqp : ¬ bb.q.phase := by rw [hb]; exact id
  try dsimp -zeta only
  repeat' first | with_reducible assumption | intro _ | with_reducible apply run_keeps | with_reducible apply serveWrite_keeps | with_reducible apply swapCmdWrite_keeps

theorem execTransceiverSelfCheckFail_moves {qm qf : Prop} (dt : Nat) (lane : Nat) (s : State) : Moves ⟨qm, qf, False, False⟩ dt s (execTransceiverSelfCheckFail dt lane s) := by
  unfold execTransceiverSelfCheckFail
  refine run_moves ?_
  intro bb s hb h_s
  have hqr : ¬ bb.q.regs := by rw [hb]; exact id
  have hqp : ¬ bb.q.phase := by rw [hb]; exact id
  try dsimp -zeta only
  repeat' first | with_reducible assumption | intro _ | with_reducible apply qualifySwap_keeps | with_reducible apply run_keeps | with_reducible apply Keeps.ite | split

theorem execSwapShadowTrained_moves {qm qf qp : Prop} (dt : Nat) (group : Nat) (ctle : Nat) (s : State) : Moves ⟨qm, qf, False, qp⟩ dt s (execSwapShadowTrained dt group ctle s) := by
  unfold execSwapShadowTrained
  refine run_moves ?_
  intro bb s hb h_s
  have hqr : ¬ bb.q.regs := by rw [hb]; exact id
  try dsimp -zeta only
  repeat' first | with_reducible assumption | intro _ | (extract_lets +onlyGivenNames z; refine (fun (hz : Keeps bb z) => ?_) ?_; clear_value z; revert z; intro _ _; rotate_left; unfold z; clear z; rotate_left) | (extract_lets +onlyGivenNames z; refine (fun (hz : Keeps bb z.1) => ?_) ?_; clear_value z; revert z; intro _ _; rotate_left; unfold z; clear z; rotate_left) | (extract_lets +onlyGivenNames z; refine (fun (hz : Keeps bb z) => ?_) ?_; revert z; intro _ _; rotate_left; unfold z; clear z; rotate_left) | (extract_lets +onlyGivenNames z; revert z; intro _) | (simp only [Keeps.mk_iff]; with_reducible apply Keeps.upd) | with_reducible apply Keeps.withState | with_reducible apply State.disarm_keeps | with_reducible apply State.setReg_keeps | with_reducible apply State.useFree_keeps | with_reducible apply Keeps.withSome | with_reducible apply captureTraining_keeps | with_reducible apply run_keeps | with_reducible apply Keeps.ite | split

theorem execSwapSwitch_moves {qm qf : Prop} (dt : Nat) (group : Nat) (s : State) : Moves ⟨qm, qf, False, False⟩ dt s (execSwapSwitch dt group s) := by
  unfold execSwapSwitch
  refine run_moves ?_
  intro bb s hb h_s
  have hqr : ¬ bb.q.regs := by rw [hb]; exact id
  have hqp : ¬ bb.q.phase := by rw [hb]; exact id
  try dsimp -zeta only
  repeat' first | with_reducible assumption | intro _ | with_reducible apply Keeps.withState | with_reducible apply Keeps.withSome | with_reducible apply run_keeps | with_reducible apply swapDone_keeps | with_reducible apply Keeps.ite | split

theorem setMargin_keeps {bb : Base} (s : State) (lane : Nat) (eye : Nat) (m : Margin) (h_s : Keeps bb s) (hqr : ¬ bb.q.regs := by assumption) : Keeps bb (setMargin s lane eye m) := by
  unfold setMargin
  repeat' first | with_reducible assumption | intro _ | with_reducible apply State.setReg_keeps

theorem setLowCount_keeps {bb : Base} (s : State) (lane : Nat) (n : Nat) (h_s : Keeps bb s)  : Keeps bb (setLowCount s lane n) := by
  unfold setLowCount
  repeat' first | with_reducible assumption | intro _ | (extract_lets +onlyGivenNames z; refine (fun (hz : Keeps bb z) => ?_) ?_; clear_value z; revert z; intro _ _; rotate_left; unfold z; clear z; rotate_left) | (extract_lets +onlyGivenNames z; refine (fun (hz : Keeps bb z.1) => ?_) ?_; clear_value z; revert z; intro _ _; rotate_left; unfold z; clear z; rotate_left) | (extract_lets +onlyGivenNames z; refine (fun (hz : Keeps bb z) => ?_) ?_; revert z; intro _ _; rotate_left; unfold z; clear z; rotate_left) | (extract_lets +onlyGivenNames z; revert z; intro _) | (simp only [Keeps.mk_iff]; with_reducible apply Keeps.upd)

theorem judgeMargin_keeps {bb : Base} (s : State) (lane : Nat) (m : Margin) (h_s : Keeps bb s) (hqr : ¬ bb.q.regs := by assumption) (hqp : ¬ bb.q.phase := by assumption) : Keeps bb (judgeMargin s lane m) := by
  unfold judgeMargin
  repeat' first | with_reducible assumption | intro _ | (extract_lets +onlyGivenNames z; refine (fun (hz : Keeps bb z) => ?_) ?_; clear_value z; revert z; intro _ _; rotate_left; unfold z; clear z; rotate_left) | (extract_lets +onlyGivenNames z; refine (fun (hz : Keeps bb z.1) => ?_) ?_; clear_value z; revert z; intro _ _; rotate_left; unfold z; clear z; rotate_left) | (extract_lets +onlyGivenNames z; refine (fun (hz : Keeps bb z) => ?_) ?_; revert z; intro _ _; rotate_left; unfold z; clear z; rotate_left) | (extract_lets +onlyGivenNames z; revert z; intro _) | with_reducible apply qualifySwap_keeps | with_reducible apply setLowCount_keeps | with_reducible apply Keeps.ite | split

theorem execMarginMeasurement_moves {qm qf : Prop} (dt : Nat) (lane : Nat) (m : EyeMargins) (s : State) : Moves ⟨qm, qf, False, False⟩ dt s (execMarginMeasurement dt lane m s) := by
  unfold execMarginMeasurement
  refine run_moves ?_
  intro bb s hb h_s
  have hqr : ¬ bb.q.regs := by rw [hb]; exact id
  have hqp : ¬ bb.q.phase := by rw [hb]; exact id
  try dsimp -zeta only
  repeat' first | with_reducible assumption | intro _ | (extract_lets +onlyGivenNames z; refine (fun (hz : Keeps bb z) => ?_) ?_; clear_value z; revert z; intro _ _; rotate_left; unfold z; clear z; rotate_left) | (extract_lets +onlyGivenNames z; refine (fun (hz : Keeps bb z.1) => ?_) ?_; clear_value z; revert z; intro _ _; rotate_left; unfold z; clear z; rotate_left) | (extract_lets +onlyGivenNames z; refine (fun (hz : Keeps bb z) => ?_) ?_; revert z; intro _ _; rotate_left; unfold z; clear z; rotate_left) | (extract_lets +onlyGivenNames z; revert z; intro _) | (simp only [Keeps.mk_iff]; with_reducible apply Keeps.upd) | with_reducible apply State.arm_keeps | with_reducible apply State.onDue_keeps | with_reducible apply judgeMargin_keeps | with_reducible apply run_keeps | with_reducible apply setMargin_keeps

theorem marginReqWrite_keeps {bb : Base} (s : State) (lane : Nat) (eye : Nat) (h_s : Keeps bb s)  : Keeps bb (marginReqWrite s lane eye) := by
  unfold marginReqWrite
  repeat' first | with_reducible assumption | intro _ | (extract_lets +onlyGivenNames z; refine (fun (hz : Keeps bb z) => ?_) ?_; clear_value z; revert z; intro _ _; rotate_left; unfold z; clear z; rotate_left) | (extract_lets +onlyGivenNames z; refine (fun (hz : Keeps bb z.1) => ?_) ?_; clear_value z; revert z; intro _ _; rotate_left; unfold z; clear z; rotate_left) | (extract_lets +onlyGivenNames z; refine (fun (hz : Keeps bb z) => ?_) ?_; revert z; intro _ _; rotate_left; unfold z; clear z; rotate_left) | (extract_lets +onlyGivenNames z; revert z; intro _) | (simp only [Keeps.mk_iff]; with_reducible apply Keeps.upd) | with_reducible apply State.arm_keeps

theorem execMarginReq_moves {qm qf : Prop} (dt : Nat) (path : Path) (lane : Nat) (eye : Nat) (s : State) : Moves ⟨qm, qf, False, False⟩ dt s (execMarginReq dt path lane eye s) := by
  unfold execMarginReq
  refine run_moves ?_
  intro bb s hb h_s
  have hqr : ¬ bb.q.regs := by rw [hb]; exact id
  have hqp : ¬ bb.q.phase := by rw [hb]; exact id
  try dsimp -zeta only
  repeat' first | with_reducible assumption | intro _ | with_reducible apply marginReqWrite_keeps | with_reducible apply run_keeps | with_reducible apply serveWrite_keeps

theorem execMarginReqDone_moves {qm qf qp : Prop} (dt : Nat) (lane : Nat) (m : Margin) (s : State) : Moves ⟨qm, qf, False, qp⟩ dt s (execMarginReqDone dt lane m s) := by
  unfold execMarginReqDone
  refine run_moves ?_
  intro bb s hb h_s
  have hqr : ¬ bb.q.regs := by rw [hb]; exact id
  try dsimp -zeta only
  repeat' first | with_reducible assumption | intro _ | (extract_lets +onlyGivenNames z; refine (fun (hz : Keeps bb z) => ?_) ?_; clear_value z; revert z; intro _ _; rotate_left; unfold z; clear z; rotate_left) | (extract_lets +onlyGivenNames z; refine (fun (hz : Keeps bb z.1) => ?_) ?_; clear_value z; revert z; intro _ _; rotate_left; unfold z; clear z; rotate_left) | (extract_lets +onlyGivenNames z; refine (fun (hz : Keeps bb z) => ?_) ?_; revert z; intro _ _; rotate_left; unfold z; clear z; rotate_left) | (extract_lets +onlyGivenNames z; revert z; intro _) | (simp only [Keeps.mk_iff]; with_reducible apply Keeps.upd) | with_reducible apply Keeps.withState | with_reducible apply State.disarm_keeps | with_reducible apply Keeps.withSome | with_reducible apply run_keeps | with_reducible apply setMargin_keeps

theorem clearPrbs_keeps {bb : Base} (s : State) (lane : Nat) (h_s : Keeps bb s) (hqr : ¬ bb.q.regs := by assumption) : Keeps bb (clearPrbs s lane) := by
  unfold clearPrbs
  repeat' first | with_reducible assumption | intro _ | with_reducible apply State.setReg_keeps | with_reducible apply settlePrbs_keeps

theorem prbsCtrlWrite_keeps {bb : Base} (s : State) (lane : Nat) (v : Nat) (h_s : Keeps bb s) (hqr : ¬ bb.q.regs := by assumption) : Keeps bb (prbsCtrlWrite s lane v) := by
  unfold prbsCtrlWrite
  repeat' first | with_reducible assumption | intro _ | (extract_lets +onlyGivenNames z; refine (fun (hz : Keeps bb z) => ?_) ?_; clear_value z; revert z; intro _ _; rotate_left; unfold z; clear z; rotate_left) | (extract_lets +onlyGivenNames z; refine (fun (hz : Keeps bb z.1) => ?_) ?_; clear_value z; revert z; intro _ _; rotate_left; unfold z; clear z; rotate_left) | (extract_lets +onlyGivenNames z; refine (fun (hz : Keeps bb z) => ?_) ?_; revert z; intro _ _; rotate_left; unfold z; clear z; rotate_left) | (extract_lets +onlyGivenNames z; revert z; intro _) | with_reducible apply State.putRegBit_keeps | with_reducible apply clearPrbs_keeps | with_reducible apply plainWrite_keeps | with_reducible apply showGenerator_keeps | with_reducible apply unlockPrbs_keeps | with_reducible apply Keeps.ite | split

theorem execPrbsStart_moves {qm qf : Prop} (dt : Nat) (path : Path) (lane : Nat) (value : Nat) (s : State) : Moves ⟨qm, qf, False, False⟩ dt s (execPrbsStart dt path lane value s) := by
  unfold execPrbsStart
  refine run_moves ?_
  intro bb s hb h_s
  have hqr : ¬ bb.q.regs := by rw [hb]; exact id
  have hqp : ¬ bb.q.phase := by rw [hb]; exact id
  try dsimp -zeta only
  repeat' first | with_reducible assumption | intro _ | with_reducible apply prbsCtrlWrite_keeps | with_reducible apply run_keeps | with_reducible apply serveWrite_keeps

theorem execPrbsClear_moves {qm qf : Prop} (dt : Nat) (path : Path) (lane : Nat) (value : Nat) (s : State) : Moves ⟨qm, qf, False, False⟩ dt s (execPrbsClear dt path lane value s) := by
  unfold execPrbsClear
  refine run_moves ?_
  intro bb s hb h_s
  have hqr : ¬ bb.q.regs := by rw [hb]; exact id
  have hqp : ¬ bb.q.phase := by rw [hb]; exact id
  try dsimp -zeta only
  repeat' first | with_reducible assumption | intro _ | with_reducible apply prbsCtrlWrite_keeps | with_reducible apply run_keeps | with_reducible apply serveWrite_keeps

theorem execPrbsLock_moves {qm qf qp : Prop} (dt : Nat) (r : ReceivedBits) (s : State) : Moves ⟨qm, qf, False, qp⟩ dt s (execPrbsLock dt r s) := by
  unfold execPrbsLock
  refine run_moves ?_
  intro bb s hb h_s
  have hqr : ¬ bb.q.regs := by rw [hb]; exact id
  try dsimp -zeta only
  repeat' first | with_reducible assumption | intro _ | (extract_lets +onlyGivenNames z; refine (fun (hz : Keeps bb z) => ?_) ?_; clear_value z; revert z; intro _ _; rotate_left; unfold z; clear z; rotate_left) | (extract_lets +onlyGivenNames z; refine (fun (hz : Keeps bb z.1) => ?_) ?_; clear_value z; revert z; intro _ _; rotate_left; unfold z; clear z; rotate_left) | (extract_lets +onlyGivenNames z; refine (fun (hz : Keeps bb z) => ?_) ?_; revert z; intro _ _; rotate_left; unfold z; clear z; rotate_left) | (extract_lets +onlyGivenNames z; revert z; intro _) | (simp only [Keeps.mk_iff]; with_reducible apply Keeps.upd) | with_reducible apply State.putRegBit_keeps | with_reducible apply State.setRegBits_keeps | with_reducible apply run_keeps | with_reducible apply Keeps.ite | split

theorem execPrbsLockLoss_moves {qm qf qp : Prop} (dt : Nat) (lane : Nat) (bits : Nat) (errors : Nat) (s : State) : Moves ⟨qm, qf, False, qp⟩ dt s (execPrbsLockLoss dt lane bits errors s) := by
  unfold execPrbsLockLoss
  refine run_moves ?_
  intro bb s hb h_s
  have hqr : ¬ bb.q.regs := by rw [hb]; exact id
  try dsimp -zeta only
  repeat' first | with_reducible assumption | intro _ | with_reducible apply run_keeps | with_reducible apply unlockPrbs_keeps | with_reducible apply Keeps.ite | split

theorem portTestWrite_keeps {bb : Base} (s : State) (p : Nat) (v : Nat) (h_s : Keeps bb s) (hqr : ¬ bb.q.regs := by assumption) : Keeps bb (portTestWrite s p v) := by
  unfold portTestWrite
  repeat' first | with_reducible assumption | intro _ | (extract_lets +onlyGivenNames z; refine (fun (hz : Keeps bb z) => ?_) ?_; clear_value z; revert z; intro _ _; rotate_left; unfold z; clear z; rotate_left) | (extract_lets +onlyGivenNames z; refine (fun (hz : Keeps bb z.1) => ?_) ?_; clear_value z; revert z; intro _ _; rotate_left; unfold z; clear z; rotate_left) | (extract_lets +onlyGivenNames z; refine (fun (hz : Keeps bb z) => ?_) ?_; revert z; intro _ _; rotate_left; unfold z; clear z; rotate_left) | (extract_lets +onlyGivenNames z; revert z; intro _) | with_reducible apply State.putRegBit_keeps | with_reducible apply State.setReg_keeps | with_reducible apply edgeLinkDown_keeps | with_reducible apply endTestHold_keeps | with_reducible apply passGoDown_keeps | with_reducible apply Keeps.ite | split

theorem execPortTest_moves {qm qf : Prop} (dt : Nat) (path : Path) (port : Nat) (value : Nat) (s : State) : Moves ⟨qm, qf, False, False⟩ dt s (execPortTest dt path port value s) := by
  unfold execPortTest
  refine run_moves ?_
  intro bb s hb h_s
  have hqr : ¬ bb.q.regs := by rw [hb]; exact id
  have hqp : ¬ bb.q.phase := by rw [hb]; exact id
  try dsimp -zeta only
  repeat' first | with_reducible assumption | intro _ | with_reducible apply portTestWrite_keeps | with_reducible apply run_keeps | with_reducible apply serveWrite_keeps

theorem setSelfTest_keeps {bb : Base} (s : State) (l : List Nat) (h_s : Keeps bb s)  : Keeps bb (setSelfTest s l) := by
  unfold setSelfTest
  repeat' first | with_reducible assumption | intro _ | (extract_lets +onlyGivenNames z; refine (fun (hz : Keeps bb z) => ?_) ?_; clear_value z; revert z; intro _ _; rotate_left; unfold z; clear z; rotate_left) | (extract_lets +onlyGivenNames z; refine (fun (hz : Keeps bb z.1) => ?_) ?_; clear_value z; revert z; intro _ _; rotate_left; unfold z; clear z; rotate_left) | (extract_lets +onlyGivenNames z; refine (fun (hz : Keeps bb z) => ?_) ?_; revert z; intro _ _; rotate_left; unfold z; clear z; rotate_left) | (extract_lets +onlyGivenNames z; revert z; intro _) | (simp only [Keeps.mk_iff]; with_reducible apply Keeps.upd)

theorem startSelfTest_keeps {bb : Base} (s : State) (group : Nat) (h_s : Keeps bb s)  : Keeps bb (startSelfTest s group) := by
  unfold startSelfTest
  repeat' first | with_reducible assumption | intro _ | (simp only [Keeps.mk_iff]; with_reducible apply Keeps.upd) | with_reducible apply State.arm_keeps | with_reducible apply setSelfTest_keeps | with_reducible apply Keeps.ite | split

theorem endSelfTest_keeps {bb : Base} (s : State) (group : Nat) (errors : Nat) (h_s : Keeps bb s) (hqr : ¬ bb.q.regs := by assumption) (hqp : ¬ bb.q.phase := by assumption) : Keeps bb (endSelfTest s group errors) := by
  unfold endSelfTest
  repeat' first | with_reducible assumption | intro _ | with_reducible apply countReserves_keeps | with_reducible apply raise_keeps | with_reducible apply setReserve_keeps | with_reducible apply Keeps.ite | split

theorem execReserveSelfTest_moves {qm qf qr qp : Prop} (dt : Nat) (group : Nat) (s : State) : Moves ⟨qm, qf, qr, qp⟩ dt s (execReserveSelfTest dt group s) := by
  unfold execReserveSelfTest
  refine run_moves ?_
  intro bb s hb h_s
  try dsimp -zeta only
  repeat' first | with_reducible assumption | intro _ | (simp only [Keeps.mk_iff]; with_reducible apply Keeps.upd) | with_reducible apply State.arm_keeps | with_reducible apply State.onDue_keeps | with_reducible apply run_keeps | with_reducible apply startSelfTest_keeps

theorem execReserveSelfTestEnd_moves {qm qf : Prop} (dt : Nat) (group : Nat) (errors : Nat) (s : State) : Moves ⟨qm, qf, False, False⟩ dt s (execReserveSelfTestEnd dt group errors s) := by
  unfold execReserveSelfTestEnd
  refine run_moves ?_
  intro bb s hb h_s
  have hqr : ¬ bb.q.regs := by rw [hb]; exact id
  have hqp : ¬ bb.q.phase := by rw [hb]; exact id
  try dsimp -zeta only
  repeat' first | with_reducible assumption | intro _ | (simp only [Keeps.mk_iff]; with_reducible apply Keeps.upd) | with_reducible apply State.onDue_keeps | with_reducible apply endSelfTest_keeps | with_reducible apply run_keeps | with_reducible apply setSelfTest_keeps

theorem abandonSwap_keeps {bb : Base} (s : State) (g : Nat) (h_s : Keeps bb s) (hqr : ¬ bb.q.regs := by assumption) : Keeps bb (abandonSwap s g) := by
  unfold abandonSwap
  repeat' first | with_reducible assumption | intro _ | (extract_lets +onlyGivenNames z; refine (fun (hz : Keeps bb z) => ?_) ?_; clear_value z; revert z; intro _ _; rotate_left; unfold z; clear z; rotate_left) | (extract_lets +onlyGivenNames z; refine (fun (hz : Keeps bb z.1) => ?_) ?_; clear_value z; revert z; intro _ _; rotate_left; unfold z; clear z; rotate_left) | (extract_lets +onlyGivenNames z; refine (fun (hz : Keeps bb z) => ?_) ?_; revert z; intro _ _; rotate_left; unfold z; clear z; rotate_left) | (extract_lets +onlyGivenNames z; revert z; intro _) | (simp only [Keeps.mk_iff]; with_reducible apply Keeps.upd) | with_reducible apply State.disarm_keeps | with_reducible apply setReserve_keeps | with_reducible apply Keeps.ite | split

theorem referenceDown_keeps {bb : Base} (s : State) (p : Nat) (h_s : Keeps bb s) (hqr : ¬ bb.q.regs := by assumption) (hqp : ¬ bb.q.phase := by assumption) : Keeps bb (referenceDown s p) := by
  unfold referenceDown
  repeat' first | with_reducible assumption | intro _ | with_reducible apply edgeLinkDown_keeps | with_reducible apply passLinkDown_keeps | with_reducible apply setPassReason_keeps | with_reducible apply Keeps.ite | split

theorem referenceLost_keeps {bb : Base} (s : State) (ref : Nat) (h_s : Keeps bb s) (hqr : ¬ bb.q.regs := by assumption) (hqp : ¬ bb.q.phase := by assumption) : Keeps bb (referenceLost s ref) := by
  unfold referenceLost
  repeat' first | with_reducible assumption | intro _ | (extract_lets +onlyGivenNames z; refine (fun (hz : Keeps bb z) => ?_) ?_; clear_value z; revert z; intro _ _; rotate_left; unfold z; clear z; rotate_left) | (extract_lets +onlyGivenNames z; refine (fun (hz : Keeps bb z.1) => ?_) ?_; clear_value z; revert z; intro _ _; rotate_left; unfold z; clear z; rotate_left) | (extract_lets +onlyGivenNames z; refine (fun (hz : Keeps bb z) => ?_) ?_; revert z; intro _ _; rotate_left; unfold z; clear z; rotate_left) | (extract_lets +onlyGivenNames z; revert z; intro _) | (simp only [Keeps.mk_iff]; with_reducible apply Keeps.upd) | with_reducible apply State.putRegBit_keeps | with_reducible apply abandonSwap_keeps | with_reducible apply Keeps.forEach | with_reducible apply raise_keeps | with_reducible apply referenceDown_keeps | with_reducible apply Keeps.ite | split

theorem referenceGood_keeps {bb : Base} (s : State) (ref : Nat) (h_s : Keeps bb s) (hqr : ¬ bb.q.regs := by assumption) : Keeps bb (referenceGood s ref) := by
  unfold referenceGood
  repeat' first | with_reducible assumption | intro _ | (extract_lets +onlyGivenNames z; refine (fun (hz : Keeps bb z) => ?_) ?_; clear_value z; revert z; intro _ _; rotate_left; unfold z; clear z; rotate_left) | (extract_lets +onlyGivenNames z; refine (fun (hz : Keeps bb z.1) => ?_) ?_; clear_value z; revert z; intro _ _; rotate_left; unfold z; clear z; rotate_left) | (extract_lets +onlyGivenNames z; refine (fun (hz : Keeps bb z) => ?_) ?_; revert z; intro _ _; rotate_left; unfold z; clear z; rotate_left) | (extract_lets +onlyGivenNames z; revert z; intro _) | (simp only [Keeps.mk_iff]; with_reducible apply Keeps.upd) | with_reducible apply State.putRegBit_keeps | with_reducible apply Keeps.ite | split

theorem execReferenceGate_moves {qm qf : Prop} (dt : Nat) (ref : Nat) (hz : Nat) (s : State) : Moves ⟨qm, qf, False, False⟩ dt s (execReferenceGate dt ref hz s) := by
  unfold execReferenceGate
  refine run_moves ?_
  intro bb s hb h_s
  have hqr : ¬ bb.q.regs := by rw [hb]; exact id
  have hqp : ¬ bb.q.phase := by rw [hb]; exact id
  try dsimp -zeta only
  repeat' first | with_reducible assumption | intro _ | with_reducible apply referenceGood_keeps | with_reducible apply referenceLost_keeps | with_reducible apply run_keeps | with_reducible apply Keeps.ite | split

theorem execReferenceStopped_moves {qm qf : Prop} (dt : Nat) (ref : Nat) (s : State) : Moves ⟨qm, qf, False, False⟩ dt s (execReferenceStopped dt ref s) := by
  unfold execReferenceStopped
  refine run_moves ?_
  intro bb s hb h_s
  have hqr : ¬ bb.q.regs := by rw [hb]; exact id
  have hqp : ¬ bb.q.phase := by rw [hb]; exact id
  try dsimp -zeta only
  repeat' first | with_reducible assumption | intro _ | with_reducible apply referenceLost_keeps | with_reducible apply run_keeps | with_reducible apply Keeps.ite | split

end Sys2Proof.Machine
end

