-- ==== Sys2Proof/Laws/Keeps/Wear.lean ====
section
/-! SUPPORT. Every operation and meaning of Machine/Wear.lean keeps what `Keeps` says. -/
set_option linter.all false
set_option Elab.async false
namespace Sys2Proof.Machine

theorem showRail_keeps {bb : Base} (s : State) (rail : Nat) (mv : Nat) (h_s : Keeps bb s) (hqr : ¬ bb.q.regs := by assumption) : Keeps bb (showRail s rail mv) := by
  unfold showRail
  repeat' first | with_reducible assumption | intro _ | (extract_lets +onlyGivenNames z; refine (fun (hz : Keeps bb z) => ?_) ?_; clear_value z; revert z; intro _ _; rotate_left; unfold z; clear z; rotate_left) | (extract_lets +onlyGivenNames z; refine (fun (hz : Keeps bb z.1) => ?_) ?_; clear_value z; revert z; intro _ _; rotate_left; unfold z; clear z; rotate_left) | (extract_lets +onlyGivenNames z; refine (fun (hz : Keeps bb z) => ?_) ?_; revert z; intro _ _; rotate_left; unfold z; clear z; rotate_left) | (extract_lets +onlyGivenNames z; revert z; intro _) | with_reducible apply State.putRegBit_keeps | with_reducible apply State.setReg_keeps | with_reducible apply Keeps.ite | split

theorem setRailOut_keeps {bb : Base} (s : State) (rail : Nat) (out : Bool) (h_s : Keeps bb s)  : Keeps bb (setRailOut s rail out) := by
  unfold setRailOut
  repeat' first | with_reducible assumption | intro _ | (extract_lets +onlyGivenNames z; refine (fun (hz : Keeps bb z) => ?_) ?_; clear_value z; revert z; intro _ _; rotate_left; unfold z; clear z; rotate_left) | (extract_lets +onlyGivenNames z; refine (fun (hz : Keeps bb z.1) => ?_) ?_; clear_value z; revert z; intro _ _; rotate_left; unfold z; clear z; rotate_left) | (extract_lets +onlyGivenNames z; refine (fun (hz : Keeps bb z) => ?_) ?_; revert z; intro _ _; rotate_left; unfold z; clear z; rotate_left) | (extract_lets +onlyGivenNames z; revert z; intro _) | (simp only [Keeps.mk_iff]; with_reducible apply Keeps.upd) | with_reducible apply Keeps.ite | split

theorem execRailOutOfWindow_moves {qm qf : Prop} (dt : Nat) (rail : Nat) (mv : Nat) (s : State) : Moves ⟨qm, qf, False, False⟩ dt s (execRailOutOfWindow dt rail mv s) := by
  unfold execRailOutOfWindow
  refine runPowered_moves ?_
  intro bb s hb h_s
  have hqr : ¬ bb.q.regs := by rw [hb]; exact id
  have hqp : ¬ bb.q.phase := by rw [hb]; exact id
  try dsimp -zeta only
  repeat' first | with_reducible assumption | intro _ | with_reducible apply raise_keeps | with_reducible apply runPowered_keeps | with_reducible apply setRailOut_keeps | with_reducible apply showRail_keeps | with_reducible apply Keeps.ite | split

theorem execRailInWindow_moves {qm qf qp : Prop} (dt : Nat) (rail : Nat) (mv : Nat) (s : State) : Moves ⟨qm, qf, False, qp⟩ dt s (execRailInWindow dt rail mv s) := by
  unfold execRailInWindow
  refine runPowered_moves ?_
  intro bb s hb h_s
  have hqr : ¬ bb.q.regs := by rw [hb]; exact id
  try dsimp -zeta only
  repeat' first | with_reducible assumption | intro _ | with_reducible apply runPowered_keeps | with_reducible apply setRailOut_keeps | with_reducible apply showRail_keeps | with_reducible apply Keeps.ite | split

theorem execRailCollapse_moves {qm qf : Prop} (dt : Nat) (rail : Nat) (mv : Nat) (s : State) : Moves ⟨qm, qf, False, False⟩ dt s (execRailCollapse dt rail mv s) := by
  unfold execRailCollapse
  refine runPowered_moves ?_
  intro bb s hb h_s
  have hqr : ¬ bb.q.regs := by rw [hb]; exact id
  have hqp : ¬ bb.q.phase := by rw [hb]; exact id
  try dsimp -zeta only
  repeat' first | with_reducible assumption | intro _ | with_reducible apply beginChipReset_keeps | with_reducible apply runPowered_keeps | with_reducible apply setRailOut_keeps | with_reducible apply showRail_keeps | with_reducible apply Keeps.ite | split

theorem junction_keeps {bb : Base} (s : State) (t : Int) (h_s : Keeps bb s) (hqr : ¬ bb.q.regs := by assumption) : Keeps bb (junction s t) := by
  unfold junction
  repeat' first | with_reducible assumption | intro _ | (extract_lets +onlyGivenNames z; refine (fun (hz : Keeps bb z) => ?_) ?_; clear_value z; revert z; intro _ _; rotate_left; unfold z; clear z; rotate_left) | (extract_lets +onlyGivenNames z; refine (fun (hz : Keeps bb z.1) => ?_) ?_; clear_value z; revert z; intro _ _; rotate_left; unfold z; clear z; rotate_left) | (extract_lets +onlyGivenNames z; refine (fun (hz : Keeps bb z) => ?_) ?_; revert z; intro _ _; rotate_left; unfold z; clear z; rotate_left) | (extract_lets +onlyGivenNames z; revert z; intro _) | (simp only [Keeps.mk_iff]; with_reducible apply Keeps.upd) | with_reducible apply State.setReg_keeps | with_reducible apply Keeps.ite | split

theorem execTjSensorRead_moves {qm qf qp : Prop} (dt : Nat) (celsius : List Int) (s : State) : Moves ⟨qm, qf, False, qp⟩ dt s (execTjSensorRead dt celsius s) := by
  unfold execTjSensorRead
  refine run_moves ?_
  intro bb s hb h_s
  have hqr : ¬ bb.q.regs := by rw [hb]; exact id
  try dsimp -zeta only
  repeat' first | with_reducible assumption | intro _ | with_reducible apply Keeps.withState | with_reducible apply State.setReg_keeps | with_reducible apply Keeps.withSome | with_reducible apply Keeps.forEach | with_reducible apply junction_keeps | with_reducible apply run_keeps | with_reducible apply Keeps.ite | split

theorem execTjWarn_moves {qm qf : Prop} (dt : Nat) (s : State) : Moves ⟨qm, qf, False, False⟩ dt s (execTjWarn dt s) := by
  unfold execTjWarn
  refine run_moves ?_
  intro bb s hb h_s
  have hqr : ¬ bb.q.regs := by rw [hb]; exact id
  have hqp : ¬ bb.q.phase := by rw [hb]; exact id
  try dsimp -zeta only
  repeat' first | with_reducible assumption | intro _ | with_reducible apply raise_keeps | with_reducible apply run_keeps | with_reducible apply Keeps.ite | split

theorem execTjCrit_moves {qm qf : Prop} (dt : Nat) (s : State) : Moves ⟨qm, qf, False, False⟩ dt s (execTjCrit dt s) := by
  unfold execTjCrit
  refine run_moves ?_
  intro bb s hb h_s
  have hqr : ¬ bb.q.regs := by rw [hb]; exact id
  have hqp : ¬ bb.q.phase := by rw [hb]; exact id
  try dsimp -zeta only
  repeat' first | with_reducible assumption | intro _ | with_reducible apply raise_keeps | with_reducible apply run_keeps | with_reducible apply Keeps.ite | split

theorem peakEffect_keeps {bb : Base} (s : State) (h_s : Keeps bb s) (hqr : ¬ bb.q.regs := by assumption) : Keeps bb (peakEffect s) := by
  unfold peakEffect
  repeat' first | with_reducible assumption | intro _ | with_reducible apply State.setReg_keeps

theorem showLow_keeps {bb : Base} (s : State) (h_s : Keeps bb s) (hqr : ¬ bb.q.regs := by assumption) : Keeps bb (showLow s) := by
  unfold showLow
  repeat' first | with_reducible assumption | intro _ | with_reducible apply State.putRegBit_keeps | with_reducible apply Keeps.forEach

theorem wearAction_keeps {bb : Base} (s : State) (kind : WearKind) (monitor : Nat) (badSpares : List Nat) (h_s : Keeps bb s) (hqm : ¬ bb.q.mem := by assumption) (hqr : ¬ bb.q.regs := by assumption) (hqp : ¬ bb.q.phase := by assumption) : Keeps bb (wearAction s kind monitor badSpares) := by
  unfold wearAction
  repeat' first | with_reducible assumption | intro _ | (extract_lets +onlyGivenNames z; refine (fun (hz : Keeps bb z) => ?_) ?_; clear_value z; revert z; intro _ _; rotate_left; unfold z; clear z; rotate_left) | (extract_lets +onlyGivenNames z; refine (fun (hz : Keeps bb z.1) => ?_) ?_; clear_value z; revert z; intro _ _; rotate_left; unfold z; clear z; rotate_left) | (extract_lets +onlyGivenNames z; refine (fun (hz : Keeps bb z) => ?_) ?_; revert z; intro _ _; rotate_left; unfold z; clear z; rotate_left) | (extract_lets +onlyGivenNames z; revert z; intro _) | (simp only [Keeps.mk_iff]; with_reducible apply Keeps.upd) | with_reducible apply failPhys_keeps | with_reducible apply qualify_keeps | with_reducible apply showSpares_keeps | with_reducible apply Keeps.ite | split

theorem measureWear_keeps {bb : Base} (s : State) (kind : WearKind) (monitor : Nat) (margin : Nat) (badSpares : List Nat) (h_s : Keeps bb s) (hqm : ¬ bb.q.mem := by assumption) (hqr : ¬ bb.q.regs := by assumption) (hqp : ¬ bb.q.phase := by assumption) : Keeps bb (measureWear s kind monitor margin badSpares) := by
  unfold measureWear
  repeat' first | with_reducible assumption | intro _ | (extract_lets +onlyGivenNames z; refine (fun (hz : Keeps bb z) => ?_) ?_; clear_value z; revert z; intro _ _; rotate_left; unfold z; clear z; rotate_left) | (extract_lets +onlyGivenNames z; refine (fun (hz : Keeps bb z.1) => ?_) ?_; clear_value z; revert z; intro _ _; rotate_left; unfold z; clear z; rotate_left) | (extract_lets +onlyGivenNames z; refine (fun (hz : Keeps bb z) => ?_) ?_; revert z; intro _ _; rotate_left; unfold z; clear z; rotate_left) | (extract_lets +onlyGivenNames z; revert z; intro _) | (simp only [Keeps.mk_iff]; with_reducible apply Keeps.upd) | with_reducible apply Keeps.ofId | with_reducible apply State.setReg_keeps | with_reducible apply raise_keeps | with_reducible apply showLow_keeps | with_reducible apply wearAction_keeps | with_reducible apply Keeps.ite | split

theorem execWearMeasurement_moves {qf : Prop} (dt : Nat) (kind : WearKind) (monitor : Nat) (margin : Nat) (badSpares : List Nat) (s : State) : Moves ⟨False, qf, False, False⟩ dt s (execWearMeasurement dt kind monitor margin badSpares s) := by
  unfold execWearMeasurement
  refine run_moves ?_
  intro bb s hb h_s
  have hqm : ¬ bb.q.mem := by rw [hb]; exact id
  have hqr : ¬ bb.q.regs := by rw [hb]; exact id
  have hqp : ¬ bb.q.phase := by rw [hb]; exact id
  try dsimp -zeta only
  repeat' first | with_reducible assumption | intro _ | with_reducible apply measureWear_keeps | with_reducible apply run_keeps | with_reducible apply Keeps.ite | split

theorem execVidStep_moves {qm qf qp : Prop} (dt : Nat) (s : State) : Moves ⟨qm, qf, False, qp⟩ dt s (execVidStep dt s) := by
  unfold execVidStep
  refine run_moves ?_
  intro bb s hb h_s
  have hqr : ¬ bb.q.regs := by rw [hb]; exact id
  try dsimp -zeta only
  repeat' first | with_reducible assumption | intro _ | (extract_lets +onlyGivenNames z; refine (fun (hz : Keeps bb z) => ?_) ?_; clear_value z; revert z; intro _ _; rotate_left; unfold z; clear z; rotate_left) | (extract_lets +onlyGivenNames z; refine (fun (hz : Keeps bb z.1) => ?_) ?_; clear_value z; revert z; intro _ _; rotate_left; unfold z; clear z; rotate_left) | (extract_lets +onlyGivenNames z; refine (fun (hz : Keeps bb z) => ?_) ?_; revert z; intro _ _; rotate_left; unfold z; clear z; rotate_left) | (extract_lets +onlyGivenNames z; revert z; intro _) | (simp only [Keeps.mk_iff]; with_reducible apply Keeps.upd) | with_reducible apply State.setReg_keeps | with_reducible apply run_keeps | with_reducible apply Keeps.ite | split

theorem showLife_keeps {bb : Base} (s : State) (h_s : Keeps bb s) (hqr : ¬ bb.q.regs := by assumption) : Keeps bb (showLife s) := by
  unfold showLife
  repeat' first | with_reducible assumption | intro _ | (extract_lets +onlyGivenNames z; refine (fun (hz : Keeps bb z) => ?_) ?_; clear_value z; revert z; intro _ _; rotate_left; unfold z; clear z; rotate_left) | (extract_lets +onlyGivenNames z; refine (fun (hz : Keeps bb z.1) => ?_) ?_; clear_value z; revert z; intro _ _; rotate_left; unfold z; clear z; rotate_left) | (extract_lets +onlyGivenNames z; refine (fun (hz : Keeps bb z) => ?_) ?_; revert z; intro _ _; rotate_left; unfold z; clear z; rotate_left) | (extract_lets +onlyGivenNames z; revert z; intro _) | with_reducible apply State.setReg_keeps | with_reducible apply Keeps.forEach

theorem execLifeAccounting_moves {qm qf qp : Prop} (dt : Nat) (s : State) : Moves ⟨qm, qf, False, qp⟩ dt s (execLifeAccounting dt s) := by
  unfold execLifeAccounting
  refine run_moves ?_
  intro bb s hb h_s
  have hqr : ¬ bb.q.regs := by rw [hb]; exact id
  try dsimp -zeta only
  repeat' first | with_reducible assumption | intro _ | (extract_lets +onlyGivenNames z; refine (fun (hz : Keeps bb z) => ?_) ?_; clear_value z; revert z; intro _ _; rotate_left; unfold z; clear z; rotate_left) | (extract_lets +onlyGivenNames z; refine (fun (hz : Keeps bb z.1) => ?_) ?_; clear_value z; revert z; intro _ _; rotate_left; unfold z; clear z; rotate_left) | (extract_lets +onlyGivenNames z; refine (fun (hz : Keeps bb z) => ?_) ?_; revert z; intro _ _; rotate_left; unfold z; clear z; rotate_left) | (extract_lets +onlyGivenNames z; revert z; intro _) | (simp only [Keeps.mk_iff]; with_reducible apply Keeps.upd) | with_reducible apply run_keeps | with_reducible apply showLife_keeps | with_reducible apply Keeps.ite | split

theorem mergeRemaps_keeps {bb : Base} (s : State) (h_s : Keeps bb s)  : Keeps bb (mergeRemaps s) := by
  unfold mergeRemaps
  repeat' first | with_reducible assumption | intro _ | (extract_lets +onlyGivenNames z; refine (fun (hz : Keeps bb z) => ?_) ?_; clear_value z; revert z; intro _ _; rotate_left; unfold z; clear z; rotate_left) | (extract_lets +onlyGivenNames z; refine (fun (hz : Keeps bb z.1) => ?_) ?_; clear_value z; revert z; intro _ _; rotate_left; unfold z; clear z; rotate_left) | (extract_lets +onlyGivenNames z; refine (fun (hz : Keeps bb z) => ?_) ?_; revert z; intro _ _; rotate_left; unfold z; clear z; rotate_left) | (extract_lets +onlyGivenNames z; revert z; intro _) | (simp only [Keeps.mk_iff]; with_reducible apply Keeps.upd)

theorem saveWear_keeps {bb : Base} (s : State) (h_s : Keeps bb s)  : Keeps bb (saveWear s) := by
  unfold saveWear
  repeat' first | with_reducible assumption | intro _ | (extract_lets +onlyGivenNames z; refine (fun (hz : Keeps bb z) => ?_) ?_; clear_value z; revert z; intro _ _; rotate_left; unfold z; clear z; rotate_left) | (extract_lets +onlyGivenNames z; refine (fun (hz : Keeps bb z.1) => ?_) ?_; clear_value z; revert z; intro _ _; rotate_left; unfold z; clear z; rotate_left) | (extract_lets +onlyGivenNames z; refine (fun (hz : Keeps bb z) => ?_) ?_; revert z; intro _ _; rotate_left; unfold z; clear z; rotate_left) | (extract_lets +onlyGivenNames z; revert z; intro _) | (simp only [Keeps.mk_iff]; with_reducible apply Keeps.upd) | with_reducible apply mergeRemaps_keeps

theorem execRemapSave_moves {qm qf qr qp : Prop} (dt : Nat) (s : State) : Moves ⟨qm, qf, qr, qp⟩ dt s (execRemapSave dt s) := by
  unfold execRemapSave
  refine run_moves ?_
  intro bb s hb h_s
  try dsimp -zeta only
  repeat' first | with_reducible assumption | intro _ | with_reducible apply run_keeps | with_reducible apply saveWear_keeps | with_reducible apply Keeps.ite | split

theorem execWearRecordSave_moves {qm qf qr qp : Prop} (dt : Nat) (s : State) : Moves ⟨qm, qf, qr, qp⟩ dt s (execWearRecordSave dt s) := by
  unfold execWearRecordSave
  refine run_moves ?_
  intro bb s hb h_s
  try dsimp -zeta only
  repeat' first | with_reducible assumption | intro _ | with_reducible apply run_keeps | with_reducible apply saveWear_keeps | with_reducible apply Keeps.ite | split

theorem reapplySwap_keeps {bb : Base} (s : State) (x : Nat × Nat) (h_s : Keeps bb s) (hqr : ¬ bb.q.regs := by assumption) : Keeps bb (reapplySwap s x) := by
  unfold reapplySwap
  repeat' first | with_reducible assumption | intro _ | with_reducible apply setReserve_keeps

theorem showMargins_keeps {bb : Base} (s : State) (h_s : Keeps bb s) (hqr : ¬ bb.q.regs := by assumption) : Keeps bb (showMargins s) := by
  unfold showMargins
  repeat' first | with_reducible assumption | intro _ | with_reducible apply State.setReg_keeps | with_reducible apply Keeps.forEach | split

theorem loadCopy_keeps {bb : Base} (s : State) (h_s : Keeps bb s) (hqr : ¬ bb.q.regs := by assumption) : Keeps bb (loadCopy s) := by
  unfold loadCopy
  repeat' first | with_reducible assumption | intro _ | (extract_lets +onlyGivenNames z; refine (fun (hz : Keeps bb z) => ?_) ?_; clear_value z; revert z; intro _ _; rotate_left; unfold z; clear z; rotate_left) | (extract_lets +onlyGivenNames z; refine (fun (hz : Keeps bb z.1) => ?_) ?_; clear_value z; revert z; intro _ _; rotate_left; unfold z; clear z; rotate_left) | (extract_lets +onlyGivenNames z; refine (fun (hz : Keeps bb z) => ?_) ?_; revert z; intro _ _; rotate_left; unfold z; clear z; rotate_left) | (extract_lets +onlyGivenNames z; revert z; intro _) | (simp only [Keeps.mk_iff]; with_reducible apply Keeps.upd) | with_reducible apply State.putRegBit_keeps | with_reducible apply showLife_keeps | with_reducible apply showMargins_keeps | split

theorem loadWear_keeps {bb : Base} (s : State) (h_s : Keeps bb s) (hqr : ¬ bb.q.regs := by assumption) (hqp : ¬ bb.q.phase := by assumption) : Keeps bb (loadWear s) := by
  unfold loadWear
  repeat' first | with_reducible assumption | intro _ | (extract_lets +onlyGivenNames z; refine (fun (hz : Keeps bb z) => ?_) ?_; clear_value z; revert z; intro _ _; rotate_left; unfold z; clear z; rotate_left) | (extract_lets +onlyGivenNames z; refine (fun (hz : Keeps bb z.1) => ?_) ?_; clear_value z; revert z; intro _ _; rotate_left; unfold z; clear z; rotate_left) | (extract_lets +onlyGivenNames z; refine (fun (hz : Keeps bb z) => ?_) ?_; revert z; intro _ _; rotate_left; unfold z; clear z; rotate_left) | (extract_lets +onlyGivenNames z; revert z; intro _) | (simp only [Keeps.mk_iff]; with_reducible apply Keeps.upd) | with_reducible apply countReserves_keeps | with_reducible apply Keeps.forEach | with_reducible apply loadCopy_keeps | with_reducible apply reapplySwap_keeps

end Sys2Proof.Machine
end

