-- ==== Sys2Proof/Laws/Keeps/BootOps.lean ====
section
/-! SUPPORT. Every operation and meaning of Machine/BootOps.lean keeps what `Keeps` says. -/
set_option linter.all false
namespace Sys2Proof.Machine

theorem writeHeader_keeps {bb : Base} (s : State) (active : Nat) (trial : Bool) (h_s : Keeps bb s) (hqf : ¬ bb.q.flash := by assumption) (hqr : ¬ bb.q.regs := by assumption) : Keeps bb (writeHeader s active trial) := by
  unfold writeHeader
  repeat' first | with_reducible assumption | intro _ | (extract_lets +onlyGivenNames z; refine (fun (hz : Keeps bb z) => ?_) ?_; clear_value z; revert z; intro _ _; rotate_left; unfold z; clear z; rotate_left) | (extract_lets +onlyGivenNames z; refine (fun (hz : Keeps bb z.1) => ?_) ?_; clear_value z; revert z; intro _ _; rotate_left; unfold z; clear z; rotate_left) | (extract_lets +onlyGivenNames z; refine (fun (hz : Keeps bb z) => ?_) ?_; revert z; intro _ _; rotate_left; unfold z; clear z; rotate_left) | (extract_lets +onlyGivenNames z; revert z; intro _) | with_reducible apply State.setFlash_keeps | with_reducible apply State.setReg_keeps

theorem eraseSlot_keeps {base : Base} (s : State) (slot : Nat) (h_s : Keeps base s) (hqf : ¬ base.q.flash := by assumption) : Keeps base (eraseSlot s slot) :=
  h_s.of_flash hqf (fun w => sparseWf_filter _ w) rfl rfl rfl rfl rfl rfl rfl rfl rfl rfl

theorem setUpdate_keeps {bb : Base} (s : State) (st : Nat) (code : Nat) (h_s : Keeps bb s) (hqr : ¬ bb.q.regs := by assumption) : Keeps bb (setUpdate s st code) := by
  unfold setUpdate
  repeat' first | with_reducible assumption | intro _ | with_reducible apply State.setRegBits_keeps

theorem showInactive_keeps {bb : Base} (s : State) (active : Nat) (h_s : Keeps bb s) (hqr : ¬ bb.q.regs := by assumption) : Keeps bb (showInactive s active) := by
  unfold showInactive
  repeat' first | with_reducible assumption | intro _ | with_reducible apply State.putRegBit_keeps

theorem sampleStraps_keeps {bb : Base} (s : State) (straps : Nat) (h_s : Keeps bb s) (hqr : ¬ bb.q.regs := by assumption) : Keeps bb (sampleStraps s straps) := by
  unfold sampleStraps
  repeat' first | with_reducible assumption | intro _ | (extract_lets +onlyGivenNames z; refine (fun (hz : Keeps bb z) => ?_) ?_; clear_value z; revert z; intro _ _; rotate_left; unfold z; clear z; rotate_left) | (extract_lets +onlyGivenNames z; refine (fun (hz : Keeps bb z.1) => ?_) ?_; clear_value z; revert z; intro _ _; rotate_left; unfold z; clear z; rotate_left) | (extract_lets +onlyGivenNames z; refine (fun (hz : Keeps bb z) => ?_) ?_; revert z; intro _ _; rotate_left; unfold z; clear z; rotate_left) | (extract_lets +onlyGivenNames z; revert z; intro _) | with_reducible apply State.setReg_keeps | with_reducible apply Keeps.ite | split

theorem coldState_keeps {base : Base} (s : State) (h_s : Keeps base s) (hqm : ¬ base.q.mem := by assumption) (hqf : ¬ base.q.flash := by assumption) (hqr : ¬ base.q.regs := by assumption) (hqp : ¬ base.q.phase := by assumption) : Keeps base (coldState s) :=
  ⟨fun w => ⟨sparseWf_filter _ (h_s.wf w).1, sparseWf_filter _ (h_s.wf w).2.1, sparseWf_filter _ (h_s.wf w).2.2.1, (h_s.wf w).2.2.2⟩,
   h_s.pending, h_s.now, h_s.out, h_s.free, fun _ => Nat.le_refl _, h_s.fuse, fun q => absurd q hqm, fun q => absurd q hqf, fun q => absurd q hqr, fun q => absurd q hqp⟩

theorem keepLevels_keeps {base : Base} (s t : State) (h_s : Keeps base s) (h_t : Keeps base t) (hqr : ¬ base.q.regs := by assumption) : Keeps base (keepLevels s t) :=
  ⟨fun w => ⟨sparseWf_filter _ (h_s.wf w).1, (h_t.wf w).2⟩, h_t.pending, h_t.now, h_t.out, h_t.free, h_t.reset, h_t.fuse, h_t.mem, h_t.flash, fun q => absurd q hqr, h_t.phase⟩

theorem keepPresence_keeps {bb : Base} (s : State) (t : State) (h_s : Keeps bb s) (h_t : Keeps bb t) (hqr : ¬ bb.q.regs := by assumption) : Keeps bb (keepPresence s t) := by
  unfold keepPresence
  repeat' first | with_reducible assumption | intro _ | with_reducible apply State.putRegBit_keeps | with_reducible apply Keeps.forEach

theorem keepFatal_keeps {bb : Base} (s : State) (t : State) (h_s : Keeps bb s) (h_t : Keeps bb t) (hqr : ¬ bb.q.regs := by assumption) : Keeps bb (keepFatal s t) := by
  unfold keepFatal
  repeat' first | with_reducible assumption | intro _ | (extract_lets +onlyGivenNames z; refine (fun (hz : Keeps bb z) => ?_) ?_; clear_value z; revert z; intro _ _; rotate_left; unfold z; clear z; rotate_left) | (extract_lets +onlyGivenNames z; refine (fun (hz : Keeps bb z.1) => ?_) ?_; clear_value z; revert z; intro _ _; rotate_left; unfold z; clear z; rotate_left) | (extract_lets +onlyGivenNames z; refine (fun (hz : Keeps bb z) => ?_) ?_; revert z; intro _ _; rotate_left; unfold z; clear z; rotate_left) | (extract_lets +onlyGivenNames z; revert z; intro _) | (simp only [Keeps.mk_iff]; with_reducible apply Keeps.upd) | with_reducible apply State.setReg_keeps | with_reducible apply Keeps.forEach | with_reducible apply Keeps.ite | split

theorem warmRelease_keeps {bb : Base} (s : State) (straps : Nat) (h_s : Keeps bb s) (hqm : ¬ bb.q.mem := by assumption) (hqf : ¬ bb.q.flash := by assumption) (hqr : ¬ bb.q.regs := by assumption) (hqp : ¬ bb.q.phase := by assumption) : Keeps bb (warmRelease s straps) := by
  unfold warmRelease
  repeat' first | with_reducible assumption | intro _ | (extract_lets +onlyGivenNames z; refine (fun (hz : Keeps bb z) => ?_) ?_; clear_value z; revert z; intro _ _; rotate_left; unfold z; clear z; rotate_left) | (extract_lets +onlyGivenNames z; refine (fun (hz : Keeps bb z.1) => ?_) ?_; clear_value z; revert z; intro _ _; rotate_left; unfold z; clear z; rotate_left) | (extract_lets +onlyGivenNames z; refine (fun (hz : Keeps bb z) => ?_) ?_; revert z; intro _ _; rotate_left; unfold z; clear z; rotate_left) | (extract_lets +onlyGivenNames z; revert z; intro _) | with_reducible apply State.setReg_keeps | with_reducible apply coldState_keeps | with_reducible apply eraseSlot_keeps | with_reducible apply keepFatal_keeps | with_reducible apply keepLevels_keeps | with_reducible apply keepPresence_keeps | with_reducible apply raise_keeps | with_reducible apply sampleStraps_keeps | with_reducible apply work_keeps | with_reducible apply Keeps.ite | split

theorem calibrateReserves_keeps {bb : Base} (s : State) (bad : List Nat) (h_s : Keeps bb s) (hqr : ¬ bb.q.regs := by assumption) (hqp : ¬ bb.q.phase := by assumption) : Keeps bb (calibrateReserves s bad) := by
  unfold calibrateReserves
  repeat' first | with_reducible assumption | intro _ | with_reducible apply countReserves_keeps | with_reducible apply Keeps.forEach | with_reducible apply raise_keeps | with_reducible apply setReserve_keeps | with_reducible apply Keeps.ite | split

theorem coldRelease_keeps {bb : Base} (s : State) (straps : Nat) (programmed : List FlashPatch) (badReserves : List Nat) (h_s : Keeps bb s) (hqm : ¬ bb.q.mem := by assumption) (hqf : ¬ bb.q.flash := by assumption) (hqr : ¬ bb.q.regs := by assumption) (hqp : ¬ bb.q.phase := by assumption) : Keeps bb (coldRelease s straps programmed badReserves) := by
  unfold coldRelease
  repeat' first | with_reducible assumption | intro _ | (extract_lets +onlyGivenNames z; refine (fun (hz : Keeps bb z) => ?_) ?_; clear_value z; revert z; intro _ _; rotate_left; unfold z; clear z; rotate_left) | (extract_lets +onlyGivenNames z; refine (fun (hz : Keeps bb z.1) => ?_) ?_; clear_value z; revert z; intro _ _; rotate_left; unfold z; clear z; rotate_left) | (extract_lets +onlyGivenNames z; refine (fun (hz : Keeps bb z) => ?_) ?_; revert z; intro _ _; rotate_left; unfold z; clear z; rotate_left) | (extract_lets +onlyGivenNames z; revert z; intro _) | with_reducible apply State.setFlash_keeps | with_reducible apply State.setReg_keeps | with_reducible apply calibrateReserves_keeps | with_reducible apply coldState_keeps | with_reducible apply Keeps.forEach | with_reducible apply sampleStraps_keeps

theorem startFirmware_keeps {bb : Base} (s : State) (k : Nat) (first : Nat) (code : Nat) (h_s : Keeps bb s) (hqf : ¬ bb.q.flash := by assumption) (hqr : ¬ bb.q.regs := by assumption) (hqp : ¬ bb.q.phase := by assumption) : Keeps bb (startFirmware s k first code) := by
  unfold startFirmware
  repeat' first | with_reducible assumption | intro _ | (extract_lets +onlyGivenNames z; refine (fun (hz : Keeps bb z) => ?_) ?_; clear_value z; revert z; intro _ _; rotate_left; unfold z; clear z; rotate_left) | (extract_lets +onlyGivenNames z; refine (fun (hz : Keeps bb z.1) => ?_) ?_; clear_value z; revert z; intro _ _; rotate_left; unfold z; clear z; rotate_left) | (extract_lets +onlyGivenNames z; refine (fun (hz : Keeps bb z) => ?_) ?_; revert z; intro _ _; rotate_left; unfold z; clear z; rotate_left) | (extract_lets +onlyGivenNames z; revert z; intro _) | (simp only [Keeps.mk_iff]; with_reducible apply Keeps.upd) | with_reducible apply State.arm_keeps | with_reducible apply State.setReg_keeps | with_reducible apply Keeps.forEach | with_reducible apply letTrain_keeps | with_reducible apply loadWear_keeps | with_reducible apply raise_keeps | with_reducible apply showInactive_keeps | with_reducible apply writeHeader_keeps | with_reducible apply Keeps.ite | split

theorem firstSlot_keeps {bb : Base} (s : State) (h_s : Keeps bb s)  : Keeps bb (firstSlot s).1 := by
  unfold firstSlot
  repeat' first | with_reducible assumption | intro _ | with_reducible apply State.useFree_keeps | with_reducible apply Keeps.ite | split

theorem chooseImage_keeps {base : Base} (s : State) (readErrors : List Nat) (h_s : Keeps base s) (hqf : ¬ base.q.flash := by assumption) (hqr : ¬ base.q.regs := by assumption) (hqp : ¬ base.q.phase := by assumption) : Keeps base (chooseImage s readErrors) := by
  have h1 : Keeps base (firstSlot s).1 := firstSlot_keeps _ h_s
  unfold chooseImage
  extract_lets +onlyGivenNames f code
  exact Keeps.ite (startFirmware_keeps _ _ _ _ h1) (Keeps.ite (startFirmware_keeps _ _ _ _ h1)
    (State.putRegBit_keeps _ _ _ _ _ (Keeps.mk_iff.mpr h1.upd)))

theorem giveAway_keeps {base : Base} (active : List Nat) (s : State) (h_s : Keeps base s) (hqr : ¬ base.q.regs := by assumption) : Keeps base (giveAway active s) := by
  have key : ∀ (l : List Nat) (a : State × List (Nat × Nat)), Keeps base a.1 →
      Keeps base (l.foldl (fun (acc : State × List (Nat × Nat)) x =>
        if active.contains (acc.1.reg Obj.COL_SLICE_BASE x) then acc
        else
          let n := fewestSlices acc.2
          let t := acc.1.setReg Obj.COL_SLICE_MAP x n
          ({ t with col := { t.col with replaced := assocPut t.col.replaced x n } }, acc.2.map (fun y => if y.1 = n then (n, y.2 + 1) else y))) a).1 := by
    intro l
    induction l with
    | nil => exact fun a h => h
    | cons i l ih =>
      intro a h
      refine ih _ ?_
      dsimp only
      split
      · exact h
      · exact Keeps.mk_iff.mpr (State.setReg_keeps _ _ _ _ h).upd
  exact key _ _ h_s

theorem physAtStart_keeps {bb : Base} (s : State) (badTests : List Nat) (badDigests : List Nat) (good : List Nat) (t : State) (p : Nat) (h_s : Keeps bb s) (h_t : Keeps bb t) (hqr : ¬ bb.q.regs := by assumption) (hqp : ¬ bb.q.phase := by assumption) : Keeps bb (physAtStart s badTests badDigests good t p) := by
  unfold physAtStart
  repeat' first | with_reducible assumption | intro _ | with_reducible apply State.setReg_keeps | with_reducible apply raise_keeps | with_reducible apply Keeps.ite | split

theorem roleAtStart_keeps {bb : Base} (good : List Nat) (t : State) (n : Nat) (h_t : Keeps bb t) (hqr : ¬ bb.q.regs := by assumption) : Keeps bb (roleAtStart good t n) := by
  unfold roleAtStart
  repeat' first | with_reducible assumption | intro _ | with_reducible apply State.setReg_keeps | split

theorem startCol_keeps {bb : Base} (s : State) (badTests : List Nat) (badDigests : List Nat) (h_s : Keeps bb s) (hqr : ¬ bb.q.regs := by assumption) (hqp : ¬ bb.q.phase := by assumption) : Keeps bb (startCol s badTests badDigests) := by
  unfold startCol
  repeat' first | with_reducible assumption | intro _ | (extract_lets +onlyGivenNames z; refine (fun (hz : Keeps bb z) => ?_) ?_; clear_value z; revert z; intro _ _; rotate_left; unfold z; clear z; rotate_left) | (extract_lets +onlyGivenNames z; refine (fun (hz : Keeps bb z.1) => ?_) ?_; clear_value z; revert z; intro _ _; rotate_left; unfold z; clear z; rotate_left) | (extract_lets +onlyGivenNames z; refine (fun (hz : Keeps bb z) => ?_) ?_; revert z; intro _ _; rotate_left; unfold z; clear z; rotate_left) | (extract_lets +onlyGivenNames z; revert z; intro _) | (simp only [Keeps.mk_iff]; with_reducible apply Keeps.upd) | with_reducible apply State.setReg_keeps | with_reducible apply Keeps.forEach | with_reducible apply giveAway_keeps | with_reducible apply physAtStart_keeps | with_reducible apply roleAtStart_keeps | with_reducible apply showSpares_keeps | with_reducible apply Keeps.ite | split

end Sys2Proof.Machine
end

