-- ==== Sys2Proof/Laws/Keeps/Boot.lean ====
section
/-! SUPPORT. Every operation and meaning of Machine/Boot.lean keeps what `Keeps` says. -/
set_option linter.all false
set_option Elab.async false
namespace Sys2Proof.Machine

theorem execPowerOnResetRelease_moves (dt : Nat) (straps : Nat) (on : PowerOn) (s : State) : Moves ⟨False, False, False, False⟩ dt s (execPowerOnResetRelease dt straps on s) := by
  unfold execPowerOnResetRelease
  refine runAon_moves ?_
  intro bb s hb h_s
  have hqm : ¬ bb.q.mem := by rw [hb]; exact id
  have hqf : ¬ bb.q.flash := by rw [hb]; exact id
  have hqr : ¬ bb.q.regs := by rw [hb]; exact id
  have hqp : ¬ bb.q.phase := by rw [hb]; exact id
  try dsimp -zeta only
  repeat' first | with_reducible assumption | intro _ | with_reducible apply coldRelease_keeps | with_reducible apply runAon_keeps | with_reducible apply warmRelease_keeps | with_reducible apply Keeps.ite | split

theorem execChipRstL_moves {qm qf : Prop} (dt : Nat) (s : State) : Moves ⟨qm, qf, False, False⟩ dt s (execChipRstL dt s) := by
  unfold execChipRstL
  refine runPowered_moves ?_
  intro bb s hb h_s
  have hqr : ¬ bb.q.regs := by rw [hb]; exact id
  have hqp : ¬ bb.q.phase := by rw [hb]; exact id
  try dsimp -zeta only
  repeat' first | with_reducible assumption | intro _ | with_reducible apply beginChipReset_keeps | with_reducible apply runPowered_keeps

theorem execChipReset_moves {qm qf : Prop} (dt : Nat) (path : Path) (s : State) : Moves ⟨qm, qf, False, False⟩ dt s (execChipReset dt path s) := by
  unfold execChipReset
  refine run_moves ?_
  intro bb s hb h_s
  have hqr : ¬ bb.q.regs := by rw [hb]; exact id
  have hqp : ¬ bb.q.phase := by rw [hb]; exact id
  try dsimp -zeta only
  repeat' first | with_reducible assumption | intro _ | with_reducible apply Keeps.ofId | with_reducible apply run_keeps | with_reducible apply serveReset_keeps

theorem execInternalResetRelease_moves (dt : Nat) (straps : Nat) (s : State) : Moves ⟨False, False, False, False⟩ dt s (execInternalResetRelease dt straps s) := by
  unfold execInternalResetRelease
  refine runAon_moves ?_
  intro bb s hb h_s
  have hqm : ¬ bb.q.mem := by rw [hb]; exact id
  have hqf : ¬ bb.q.flash := by rw [hb]; exact id
  have hqr : ¬ bb.q.regs := by rw [hb]; exact id
  have hqp : ¬ bb.q.phase := by rw [hb]; exact id
  try dsimp -zeta only
  repeat' first | with_reducible assumption | intro _ | with_reducible apply runAon_keeps | with_reducible apply warmRelease_keeps | with_reducible apply Keeps.ite | split

theorem execImageAuthenticate_moves {qm : Prop} (dt : Nat) (readErrors : List Nat) (s : State) : Moves ⟨qm, False, False, False⟩ dt s (execImageAuthenticate dt readErrors s) := by
  unfold execImageAuthenticate
  refine run_moves ?_
  intro bb s hb h_s
  have hqf : ¬ bb.q.flash := by rw [hb]; exact id
  have hqr : ¬ bb.q.regs := by rw [hb]; exact id
  have hqp : ¬ bb.q.phase := by rw [hb]; exact id
  try dsimp -zeta only
  repeat' first | with_reducible assumption | intro _ | with_reducible apply chooseImage_keeps | with_reducible apply run_keeps | with_reducible apply Keeps.ite | split

theorem execUcodeLoad_moves {qm qf : Prop} (dt : Nat) (badTests : List Nat) (badDigests : List Nat) (s : State) : Moves ⟨qm, qf, False, False⟩ dt s (execUcodeLoad dt badTests badDigests s) := by
  unfold execUcodeLoad
  refine run_moves ?_
  intro bb s hb h_s
  have hqr : ¬ bb.q.regs := by rw [hb]; exact id
  have hqp : ¬ bb.q.phase := by rw [hb]; exact id
  try dsimp -zeta only
  repeat' first | with_reducible assumption | intro _ | with_reducible apply run_keeps | with_reducible apply startCol_keeps | with_reducible apply Keeps.ite | split

theorem makePermanent_keeps {bb : Base} (s : State) (h_s : Keeps bb s) (hqf : ¬ bb.q.flash := by assumption) (hqr : ¬ bb.q.regs := by assumption) : Keeps bb (makePermanent s) := by
  unfold makePermanent
  repeat' first | with_reducible assumption | intro _ | (extract_lets +onlyGivenNames z; refine (fun (hz : Keeps bb z) => ?_) ?_; clear_value z; revert z; intro _ _; rotate_left; unfold z; clear z; rotate_left) | (extract_lets +onlyGivenNames z; refine (fun (hz : Keeps bb z.1) => ?_) ?_; clear_value z; revert z; intro _ _; rotate_left; unfold z; clear z; rotate_left) | (extract_lets +onlyGivenNames z; refine (fun (hz : Keeps bb z) => ?_) ?_; revert z; intro _ _; rotate_left; unfold z; clear z; rotate_left) | (extract_lets +onlyGivenNames z; revert z; intro _) | (simp only [Keeps.mk_iff]; with_reducible apply Keeps.upd) | with_reducible apply State.putRegBit_keeps | with_reducible apply writeHeader_keeps | with_reducible apply Keeps.ite | split

theorem execSteppeReady_moves {qm : Prop} (dt : Nat) (s : State) : Moves ⟨qm, False, False, False⟩ dt s (execSteppeReady dt s) := by
  unfold execSteppeReady
  refine run_moves ?_
  intro bb s hb h_s
  have hqf : ¬ bb.q.flash := by rw [hb]; exact id
  have hqr : ¬ bb.q.regs := by rw [hb]; exact id
  have hqp : ¬ bb.q.phase := by rw [hb]; exact id
  try dsimp -zeta only
  repeat' first | with_reducible assumption | intro _ | (extract_lets +onlyGivenNames z; refine (fun (hz : Keeps bb z) => ?_) ?_; clear_value z; revert z; intro _ _; rotate_left; unfold z; clear z; rotate_left) | (extract_lets +onlyGivenNames z; refine (fun (hz : Keeps bb z.1) => ?_) ?_; clear_value z; revert z; intro _ _; rotate_left; unfold z; clear z; rotate_left) | (extract_lets +onlyGivenNames z; refine (fun (hz : Keeps bb z) => ?_) ?_; revert z; intro _ _; rotate_left; unfold z; clear z; rotate_left) | (extract_lets +onlyGivenNames z; revert z; intro _) | (simp only [Keeps.mk_iff]; with_reducible apply Keeps.upd) | with_reducible apply State.disarm_keeps | with_reducible apply State.setReg_keeps | with_reducible apply makePermanent_keeps | with_reducible apply report_keeps | with_reducible apply run_keeps | with_reducible apply Keeps.ite | split

theorem execBootWatchdogExpiry_moves {qm qf : Prop} (dt : Nat) (s : State) : Moves ⟨qm, qf, False, False⟩ dt s (execBootWatchdogExpiry dt s) := by
  unfold execBootWatchdogExpiry
  refine run_moves ?_
  intro bb s hb h_s
  have hqr : ¬ bb.q.regs := by rw [hb]; exact id
  have hqp : ¬ bb.q.phase := by rw [hb]; exact id
  try dsimp -zeta only
  repeat' first | with_reducible assumption | intro _ | (extract_lets +onlyGivenNames z; refine (fun (hz : Keeps bb z) => ?_) ?_; clear_value z; revert z; intro _ _; rotate_left; unfold z; clear z; rotate_left) | (extract_lets +onlyGivenNames z; refine (fun (hz : Keeps bb z.1) => ?_) ?_; clear_value z; revert z; intro _ _; rotate_left; unfold z; clear z; rotate_left) | (extract_lets +onlyGivenNames z; refine (fun (hz : Keeps bb z) => ?_) ?_; revert z; intro _ _; rotate_left; unfold z; clear z; rotate_left) | (extract_lets +onlyGivenNames z; revert z; intro _) | (simp only [Keeps.mk_iff]; with_reducible apply Keeps.upd) | with_reducible apply State.onDue_keeps | with_reducible apply beginChipReset_keeps | with_reducible apply run_keeps

theorem updateEffect_keeps {bb : Base} (v : Nat) (s : State) (h_s : Keeps bb s) (hqm : ¬ bb.q.mem := by assumption) (hqf : ¬ bb.q.flash := by assumption) (hqr : ¬ bb.q.regs := by assumption) (hqp : ¬ bb.q.phase := by assumption) : Keeps bb (updateEffect v s) := by
  unfold updateEffect
  repeat' first | with_reducible assumption | intro _ | (extract_lets +onlyGivenNames z; refine (fun (hz : Keeps bb z) => ?_) ?_; clear_value z; revert z; intro _ _; rotate_left; unfold z; clear z; rotate_left) | (extract_lets +onlyGivenNames z; refine (fun (hz : Keeps bb z.1) => ?_) ?_; clear_value z; revert z; intro _ _; rotate_left; unfold z; clear z; rotate_left) | (extract_lets +onlyGivenNames z; refine (fun (hz : Keeps bb z) => ?_) ?_; revert z; intro _ _; rotate_left; unfold z; clear z; rotate_left) | (extract_lets +onlyGivenNames z; revert z; intro _) | (simp only [Keeps.mk_iff]; with_reducible apply Keeps.upd) | with_reducible apply State.putRegBit_keeps | with_reducible apply State.setReg_keeps | with_reducible apply Keeps.forEach | with_reducible apply nextJob_keeps | with_reducible apply setUpdate_keeps | with_reducible apply showInactive_keeps | with_reducible apply work_keeps | with_reducible apply writeHeader_keeps | split

theorem execErase_moves (dt : Nat) (path : Path) (s : State) : Moves ⟨False, False, False, False⟩ dt s (execErase dt path s) := by
  unfold execErase
  refine run_moves ?_
  intro bb s hb h_s
  have hqm : ¬ bb.q.mem := by rw [hb]; exact id
  have hqf : ¬ bb.q.flash := by rw [hb]; exact id
  have hqr : ¬ bb.q.regs := by rw [hb]; exact id
  have hqp : ¬ bb.q.phase := by rw [hb]; exact id
  try dsimp -zeta only
  repeat' first | with_reducible assumption | intro _ | with_reducible apply run_keeps | with_reducible apply serveWrite_keeps | with_reducible apply updateEffect_keeps

theorem execEraseDone_moves {qm : Prop} (dt : Nat) (s : State) : Moves ⟨qm, False, False, False⟩ dt s (execEraseDone dt s) := by
  unfold execEraseDone
  refine run_moves ?_
  intro bb s hb h_s
  have hqf : ¬ bb.q.flash := by rw [hb]; exact id
  have hqr : ¬ bb.q.regs := by rw [hb]; exact id
  have hqp : ¬ bb.q.phase := by rw [hb]; exact id
  try dsimp -zeta only
  repeat' first | with_reducible assumption | intro _ | (extract_lets +onlyGivenNames z; refine (fun (hz : Keeps bb z) => ?_) ?_; clear_value z; revert z; intro _ _; rotate_left; unfold z; clear z; rotate_left) | (extract_lets +onlyGivenNames z; refine (fun (hz : Keeps bb z.1) => ?_) ?_; clear_value z; revert z; intro _ _; rotate_left; unfold z; clear z; rotate_left) | (extract_lets +onlyGivenNames z; refine (fun (hz : Keeps bb z) => ?_) ?_; revert z; intro _ _; rotate_left; unfold z; clear z; rotate_left) | (extract_lets +onlyGivenNames z; revert z; intro _) | (simp only [Keeps.mk_iff]; with_reducible apply Keeps.upd) | with_reducible apply eraseSlot_keeps | with_reducible apply run_keeps | with_reducible apply setUpdate_keeps | with_reducible apply work_keeps | with_reducible apply Keeps.ite | split

theorem execVerify_moves (dt : Nat) (path : Path) (s : State) : Moves ⟨False, False, False, False⟩ dt s (execVerify dt path s) := by
  unfold execVerify
  refine run_moves ?_
  intro bb s hb h_s
  have hqm : ¬ bb.q.mem := by rw [hb]; exact id
  have hqf : ¬ bb.q.flash := by rw [hb]; exact id
  have hqr : ¬ bb.q.regs := by rw [hb]; exact id
  have hqp : ¬ bb.q.phase := by rw [hb]; exact id
  try dsimp -zeta only
  repeat' first | with_reducible assumption | intro _ | with_reducible apply run_keeps | with_reducible apply serveWrite_keeps | with_reducible apply updateEffect_keeps

theorem execVerifyDone_moves {qm qf : Prop} (dt : Nat) (readError : Bool) (s : State) : Moves ⟨qm, qf, False, False⟩ dt s (execVerifyDone dt readError s) := by
  unfold execVerifyDone
  refine run_moves ?_
  intro bb s hb h_s
  have hqr : ¬ bb.q.regs := by rw [hb]; exact id
  have hqp : ¬ bb.q.phase := by rw [hb]; exact id
  try dsimp -zeta only
  repeat' first | with_reducible assumption | intro _ | (extract_lets +onlyGivenNames z; refine (fun (hz : Keeps bb z) => ?_) ?_; clear_value z; revert z; intro _ _; rotate_left; unfold z; clear z; rotate_left) | (extract_lets +onlyGivenNames z; refine (fun (hz : Keeps bb z.1) => ?_) ?_; clear_value z; revert z; intro _ _; rotate_left; unfold z; clear z; rotate_left) | (extract_lets +onlyGivenNames z; refine (fun (hz : Keeps bb z) => ?_) ?_; revert z; intro _ _; rotate_left; unfold z; clear z; rotate_left) | (extract_lets +onlyGivenNames z; revert z; intro _) | (simp only [Keeps.mk_iff]; with_reducible apply Keeps.upd) | with_reducible apply readError_keeps | with_reducible apply run_keeps | with_reducible apply setUpdate_keeps | with_reducible apply work_keeps | with_reducible apply Keeps.ite | split

theorem execActivate_moves (dt : Nat) (path : Path) (s : State) : Moves ⟨False, False, False, False⟩ dt s (execActivate dt path s) := by
  unfold execActivate
  refine run_moves ?_
  intro bb s hb h_s
  have hqm : ¬ bb.q.mem := by rw [hb]; exact id
  have hqf : ¬ bb.q.flash := by rw [hb]; exact id
  have hqr : ¬ bb.q.regs := by rw [hb]; exact id
  have hqp : ¬ bb.q.phase := by rw [hb]; exact id
  try dsimp -zeta only
  repeat' first | with_reducible assumption | intro _ | with_reducible apply run_keeps | with_reducible apply serveWrite_keeps | with_reducible apply updateEffect_keeps

theorem execActivateAndLoadLive_moves (dt : Nat) (path : Path) (s : State) : Moves ⟨False, False, False, False⟩ dt s (execActivateAndLoadLive dt path s) := by
  unfold execActivateAndLoadLive
  refine run_moves ?_
  intro bb s hb h_s
  have hqm : ¬ bb.q.mem := by rw [hb]; exact id
  have hqf : ¬ bb.q.flash := by rw [hb]; exact id
  have hqr : ¬ bb.q.regs := by rw [hb]; exact id
  have hqp : ¬ bb.q.phase := by rw [hb]; exact id
  try dsimp -zeta only
  repeat' first | with_reducible assumption | intro _ | with_reducible apply run_keeps | with_reducible apply serveWrite_keeps | with_reducible apply updateEffect_keeps

theorem nextUpdateAddr_keeps {bb : Base} (s : State) (h_s : Keeps bb s) (hqr : ¬ bb.q.regs := by assumption) : Keeps bb (nextUpdateAddr s) := by
  unfold nextUpdateAddr
  repeat' first | with_reducible assumption | intro _ | (extract_lets +onlyGivenNames z; refine (fun (hz : Keeps bb z) => ?_) ?_; clear_value z; revert z; intro _ _; rotate_left; unfold z; clear z; rotate_left) | (extract_lets +onlyGivenNames z; refine (fun (hz : Keeps bb z.1) => ?_) ?_; clear_value z; revert z; intro _ _; rotate_left; unfold z; clear z; rotate_left) | (extract_lets +onlyGivenNames z; refine (fun (hz : Keeps bb z) => ?_) ?_; revert z; intro _ _; rotate_left; unfold z; clear z; rotate_left) | (extract_lets +onlyGivenNames z; revert z; intro _) | with_reducible apply State.setReg_keeps | with_reducible apply State.useFree_keeps | with_reducible apply Keeps.ite | split

theorem updateDataEffect_keeps {bb : Base} (data : List Byte) (s : State) (h_s : Keeps bb s) (hqf : ¬ bb.q.flash := by assumption) (hqr : ¬ bb.q.regs := by assumption) : Keeps bb (updateDataEffect data s) := by
  unfold updateDataEffect
  repeat' first | with_reducible assumption | intro _ | (extract_lets +onlyGivenNames z; refine (fun (hz : Keeps bb z) => ?_) ?_; clear_value z; revert z; intro _ _; rotate_left; unfold z; clear z; rotate_left) | (extract_lets +onlyGivenNames z; refine (fun (hz : Keeps bb z.1) => ?_) ?_; clear_value z; revert z; intro _ _; rotate_left; unfold z; clear z; rotate_left) | (extract_lets +onlyGivenNames z; refine (fun (hz : Keeps bb z) => ?_) ?_; revert z; intro _ _; rotate_left; unfold z; clear z; rotate_left) | (extract_lets +onlyGivenNames z; revert z; intro _) | with_reducible apply State.setFlash_keeps | with_reducible apply nextUpdateAddr_keeps | with_reducible apply setUpdate_keeps | with_reducible apply Keeps.ite | split

theorem execUpdateData_moves {qm : Prop} (dt : Nat) (path : Path) (data : List Byte) (s : State) : Moves ⟨qm, False, False, False⟩ dt s (execUpdateData dt path data s) := by
  unfold execUpdateData
  refine run_moves ?_
  intro bb s hb h_s
  have hqf : ¬ bb.q.flash := by rw [hb]; exact id
  have hqr : ¬ bb.q.regs := by rw [hb]; exact id
  have hqp : ¬ bb.q.phase := by rw [hb]; exact id
  try dsimp -zeta only
  repeat' first | with_reducible assumption | intro _ | (simp only [Keeps.mk_iff]; with_reducible apply Keeps.upd) | with_reducible apply run_keeps | with_reducible apply serveWrite_keeps | with_reducible apply updateDataEffect_keeps

theorem svnEffect_keeps {bb : Base} (s : State) (h_s : Keeps bb s) (hqr : ¬ bb.q.regs := by assumption) : Keeps bb (svnEffect s) := by
  unfold svnEffect
  repeat' first | with_reducible assumption | intro _ | with_reducible apply State.setReg_keeps

theorem execSvnAdvance_moves {qm qf : Prop} (dt : Nat) (path : Path) (s : State) : Moves ⟨qm, qf, False, False⟩ dt s (execSvnAdvance dt path s) := by
  unfold execSvnAdvance
  refine run_moves ?_
  intro bb s hb h_s
  have hqr : ¬ bb.q.regs := by rw [hb]; exact id
  have hqp : ¬ bb.q.phase := by rw [hb]; exact id
  try dsimp -zeta only
  repeat' first | with_reducible assumption | intro _ | with_reducible apply run_keeps | with_reducible apply serveWrite_keeps | with_reducible apply svnEffect_keeps

theorem execKeyRevoke_moves {qm qf : Prop} (dt : Nat) (path : Path) (k : Nat) (s : State) : Moves ⟨qm, qf, False, False⟩ dt s (execKeyRevoke dt path k s) := by
  unfold execKeyRevoke
  refine run_moves ?_
  intro bb s hb h_s
  have hqr : ¬ bb.q.regs := by rw [hb]; exact id
  have hqp : ¬ bb.q.phase := by rw [hb]; exact id
  try dsimp -zeta only
  repeat' first | with_reducible assumption | intro _ | with_reducible apply State.putRegBit_keeps | with_reducible apply run_keeps | with_reducible apply serveWrite_keeps

theorem stateReqEffect_keeps {bb : Base} (v : Nat) (s : State) (h_s : Keeps bb s) (hqr : ¬ bb.q.regs := by assumption) : Keeps bb (stateReqEffect v s) := by
  unfold stateReqEffect
  repeat' first | with_reducible assumption | intro _ | with_reducible apply enterState_keeps | with_reducible apply Keeps.ite | split

theorem execRequestService_moves {qm qf : Prop} (dt : Nat) (path : Path) (s : State) : Moves ⟨qm, qf, False, False⟩ dt s (execRequestService dt path s) := by
  unfold execRequestService
  refine run_moves ?_
  intro bb s hb h_s
  have hqr : ¬ bb.q.regs := by rw [hb]; exact id
  have hqp : ¬ bb.q.phase := by rw [hb]; exact id
  try dsimp -zeta only
  repeat' first | with_reducible assumption | intro _ | with_reducible apply run_keeps | with_reducible apply serveWrite_keeps | with_reducible apply stateReqEffect_keeps

theorem execRequestTest_moves {qm qf : Prop} (dt : Nat) (path : Path) (s : State) : Moves ⟨qm, qf, False, False⟩ dt s (execRequestTest dt path s) := by
  unfold execRequestTest
  refine run_moves ?_
  intro bb s hb h_s
  have hqr : ¬ bb.q.regs := by rw [hb]; exact id
  have hqp : ¬ bb.q.phase := by rw [hb]; exact id
  try dsimp -zeta only
  repeat' first | with_reducible assumption | intro _ | with_reducible apply run_keeps | with_reducible apply serveWrite_keeps | with_reducible apply stateReqEffect_keeps

theorem execRequestRecovery_moves {qm qf : Prop} (dt : Nat) (path : Path) (s : State) : Moves ⟨qm, qf, False, False⟩ dt s (execRequestRecovery dt path s) := by
  unfold execRequestRecovery
  refine run_moves ?_
  intro bb s hb h_s
  have hqr : ¬ bb.q.regs := by rw [hb]; exact id
  have hqp : ¬ bb.q.phase := by rw [hb]; exact id
  try dsimp -zeta only
  repeat' first | with_reducible assumption | intro _ | with_reducible apply run_keeps | with_reducible apply serveWrite_keeps | with_reducible apply stateReqEffect_keeps

theorem burnLife_keeps {base : Base} (st : Nat) (s : State) (h_s : Keeps base s)  : Keeps base (burnLife st s) :=
  ⟨h_s.wf, h_s.pending, h_s.now, h_s.out, h_s.free, h_s.reset, Nat.le_trans h_s.fuse (Nat.le_max_right _ _), h_s.mem, h_s.flash, h_s.regs, h_s.phase⟩

theorem execRequestDeployed_moves {qm qf : Prop} (dt : Nat) (path : Path) (serialCheck : Nat) (s : State) : Moves ⟨qm, qf, False, False⟩ dt s (execRequestDeployed dt path serialCheck s) := by
  unfold execRequestDeployed
  refine run_moves ?_
  intro bb s hb h_s
  have hqr : ¬ bb.q.regs := by rw [hb]; exact id
  have hqp : ¬ bb.q.phase := by rw [hb]; exact id
  try dsimp -zeta only
  repeat' first | with_reducible assumption | intro _ | with_reducible apply burnLife_keeps | with_reducible apply run_keeps | with_reducible apply serveWrite_keeps

theorem eraseKeys_keeps {base : Base} (s : State) (h_s : Keeps base s) (hqm : ¬ base.q.mem := by assumption) (hqr : ¬ base.q.regs := by assumption) : Keeps base (eraseKeys s) := by
  unfold eraseKeys
  extract_lets +onlyGivenNames s1
  have h1 : Keeps base s1 := Keeps.forEach h_s fun t k h => destroySlot_keeps _ _ _ h
  clear_value s1
  extract_lets +onlyGivenNames s2
  have h2 : Keeps base s2 := Keeps.forEach h1 fun t p h => State.setRegBits_keeps _ _ _ _ _ _ h
  clear_value s2
  exact h2.filterMem _ rfl rfl rfl rfl rfl rfl rfl rfl rfl rfl rfl

theorem fieldReturnEffect_keeps {bb : Base} (s : State) (h_s : Keeps bb s) (hqm : ¬ bb.q.mem := by assumption) (hqr : ¬ bb.q.regs := by assumption) : Keeps bb (fieldReturnEffect s) := by
  unfold fieldReturnEffect
  repeat' first | with_reducible assumption | intro _ | (simp only [Keeps.mk_iff]; with_reducible apply Keeps.upd) | with_reducible apply State.disarm_keeps | with_reducible apply allLinksDown_keeps | with_reducible apply burnLife_keeps | with_reducible apply eraseKeys_keeps

theorem execRequestFieldReturn_moves {qf : Prop} (dt : Nat) (path : Path) (serialCheck : Nat) (s : State) : Moves ⟨False, qf, False, False⟩ dt s (execRequestFieldReturn dt path serialCheck s) := by
  unfold execRequestFieldReturn
  refine run_moves ?_
  intro bb s hb h_s
  have hqm : ¬ bb.q.mem := by rw [hb]; exact id
  have hqr : ¬ bb.q.regs := by rw [hb]; exact id
  have hqp : ¬ bb.q.phase := by rw [hb]; exact id
  try dsimp -zeta only
  repeat' first | with_reducible assumption | intro _ | with_reducible apply fieldReturnEffect_keeps | with_reducible apply run_keeps | with_reducible apply serveReset_keeps

theorem giveNonce_keeps {bb : Base} (s : State) (h_s : Keeps bb s)  : Keeps bb (giveNonce s) := by
  unfold giveNonce
  repeat' first | with_reducible assumption | intro _ | (extract_lets +onlyGivenNames z; refine (fun (hz : Keeps bb z) => ?_) ?_; clear_value z; revert z; intro _ _; rotate_left; unfold z; clear z; rotate_left) | (extract_lets +onlyGivenNames z; refine (fun (hz : Keeps bb z.1) => ?_) ?_; clear_value z; revert z; intro _ _; rotate_left; unfold z; clear z; rotate_left) | (extract_lets +onlyGivenNames z; refine (fun (hz : Keeps bb z) => ?_) ?_; revert z; intro _ _; rotate_left; unfold z; clear z; rotate_left) | (extract_lets +onlyGivenNames z; revert z; intro _) | (simp only [Keeps.mk_iff]; with_reducible apply Keeps.upd) | with_reducible apply State.emit_keeps | with_reducible apply State.useFree_keeps

theorem execJtagInstruction_moves {qm qf qr qp : Prop} (dt : Nat) (ins : JtagIns) (s : State) : Moves ⟨qm, qf, qr, qp⟩ dt s (execJtagInstruction dt ins s) := by
  unfold execJtagInstruction
  refine run_moves ?_
  intro bb s hb h_s
  dsimp only
  have h1 : ∀ i, Keeps bb { s with boot := { s.boot with jtag := i } } := fun i => Keeps.mk_iff.mpr h_s.upd
  split
  · exact State.emit_keeps _ _ (h1 _)
  · exact Keeps.ite (giveNonce_keeps _ (h1 _)) (h1 _)
  · exact h1 _

theorem execDebugUnlock_moves {qm qf qp : Prop} (dt : Nat) (signature : List Byte) (s : State) : Moves ⟨qm, qf, False, qp⟩ dt s (execDebugUnlock dt signature s) := by
  unfold execDebugUnlock
  refine run_moves ?_
  intro bb s hb h_s
  have hqr : ¬ bb.q.regs := by rw [hb]; exact id
  try dsimp -zeta only
  repeat' first | with_reducible assumption | intro _ | with_reducible apply State.putRegBit_keeps | with_reducible apply giveNonce_keeps | with_reducible apply run_keeps | with_reducible apply Keeps.ite | split

theorem execDebugAccess_moves {qm qf : Prop} (dt : Nat) (region : Nat) (write : Bool) (s : State) : Moves ⟨qm, qf, False, False⟩ dt s (execDebugAccess dt region write s) := by
  unfold execDebugAccess
  refine run_moves ?_
  intro bb s hb h_s
  have hqr : ¬ bb.q.regs := by rw [hb]; exact id
  have hqp : ¬ bb.q.phase := by rw [hb]; exact id
  try dsimp -zeta only
  repeat' first | with_reducible assumption | intro _ | (extract_lets +onlyGivenNames z; refine (fun (hz : Keeps bb z) => ?_) ?_; clear_value z; revert z; intro _ _; rotate_left; unfold z; clear z; rotate_left) | (extract_lets +onlyGivenNames z; refine (fun (hz : Keeps bb z.1) => ?_) ?_; clear_value z; revert z; intro _ _; rotate_left; unfold z; clear z; rotate_left) | (extract_lets +onlyGivenNames z; refine (fun (hz : Keeps bb z) => ?_) ?_; revert z; intro _ _; rotate_left; unfold z; clear z; rotate_left) | (extract_lets +onlyGivenNames z; revert z; intro _) | with_reducible apply State.count1_keeps | with_reducible apply State.emit_keeps | with_reducible apply pushLog_keeps | with_reducible apply raise_keeps | with_reducible apply run_keeps | with_reducible apply Keeps.ite | split

theorem execEthLinkDown_moves {qm qf : Prop} (dt : Nat) (s : State) : Moves ⟨qm, qf, False, False⟩ dt s (execEthLinkDown dt s) := by
  unfold execEthLinkDown
  refine run_moves ?_
  intro bb s hb h_s
  have hqr : ¬ bb.q.regs := by rw [hb]; exact id
  have hqp : ¬ bb.q.phase := by rw [hb]; exact id
  try dsimp -zeta only
  repeat' first | with_reducible assumption | intro _ | with_reducible apply raise_keeps | with_reducible apply run_keeps | with_reducible apply Keeps.ite | split

theorem execMeadowPairRestarted_moves {qm qf qr qp : Prop} (dt : Nat) (s : State) : Moves ⟨qm, qf, qr, qp⟩ dt s (execMeadowPairRestarted dt s) := by
  unfold execMeadowPairRestarted
  refine run_moves ?_
  intro bb s hb h_s
  try dsimp -zeta only
  repeat' first | with_reducible assumption | intro _ | (extract_lets +onlyGivenNames z; refine (fun (hz : Keeps bb z) => ?_) ?_; clear_value z; revert z; intro _ _; rotate_left; unfold z; clear z; rotate_left) | (extract_lets +onlyGivenNames z; refine (fun (hz : Keeps bb z.1) => ?_) ?_; clear_value z; revert z; intro _ _; rotate_left; unfold z; clear z; rotate_left) | (extract_lets +onlyGivenNames z; refine (fun (hz : Keeps bb z) => ?_) ?_; revert z; intro _ _; rotate_left; unfold z; clear z; rotate_left) | (extract_lets +onlyGivenNames z; revert z; intro _) | (simp only [Keeps.mk_iff]; with_reducible apply Keeps.upd) | with_reducible apply run_keeps

end Sys2Proof.Machine
end

