-- ==== Sys2Proof/Laws/Keeps/Edge.lean ====
section
/-! SUPPORT. Every operation and meaning of Machine/Edge.lean keeps what `Keeps` says. -/
set_option linter.all false
set_option Elab.async false
namespace Sys2Proof.Machine

theorem askKeys_keeps {bb : Base} (s : State) (p : Nat) (what : String) (h_s : Keeps bb s)  : Keeps bb (askKeys s p what) := by
  unfold askKeys
  repeat' first | with_reducible assumption | intro _ | with_reducible apply State.emit_keeps

theorem startIde_keeps {bb : Base} (s : State) (p : Nat) (h_s : Keeps bb s) (hqr : ¬ bb.q.regs := by assumption) : Keeps bb (startIde s p) := by
  unfold startIde
  repeat' first | with_reducible assumption | intro _ | (extract_lets +onlyGivenNames z; refine (fun (hz : Keeps bb z) => ?_) ?_; clear_value z; revert z; intro _ _; rotate_left; unfold z; clear z; rotate_left) | (extract_lets +onlyGivenNames z; refine (fun (hz : Keeps bb z.1) => ?_) ?_; clear_value z; revert z; intro _ _; rotate_left; unfold z; clear z; rotate_left) | (extract_lets +onlyGivenNames z; refine (fun (hz : Keeps bb z) => ?_) ?_; revert z; intro _ _; rotate_left; unfold z; clear z; rotate_left) | (extract_lets +onlyGivenNames z; revert z; intro _) | with_reducible apply State.setRegBits_keeps | with_reducible apply askKeys_keeps | with_reducible apply Keeps.ite | split

theorem foundLd_keeps {bb : Base} (p : Nat) (s : State) (o : LdOffer) (h_s : Keeps bb s) (hqr : ¬ bb.q.regs := by assumption) : Keeps bb (foundLd p s o) := by
  unfold foundLd
  repeat' first | with_reducible assumption | intro _ | (extract_lets +onlyGivenNames z; refine (fun (hz : Keeps bb z) => ?_) ?_; clear_value z; revert z; intro _ _; rotate_left; unfold z; clear z; rotate_left) | (extract_lets +onlyGivenNames z; refine (fun (hz : Keeps bb z.1) => ?_) ?_; clear_value z; revert z; intro _ _; rotate_left; unfold z; clear z; rotate_left) | (extract_lets +onlyGivenNames z; refine (fun (hz : Keeps bb z) => ?_) ?_; revert z; intro _ _; rotate_left; unfold z; clear z; rotate_left) | (extract_lets +onlyGivenNames z; revert z; intro _) | (simp only [Keeps.mk_iff]; with_reducible apply Keeps.upd) | with_reducible apply State.setReg_keeps | with_reducible apply programDecoders_keeps | with_reducible apply Keeps.ite | split

theorem findLds_keeps {bb : Base} (s : State) (p : Nat) (l : List LdOffer) (h_s : Keeps bb s) (hqr : ¬ bb.q.regs := by assumption) : Keeps bb (findLds s p l) := by
  unfold findLds
  repeat' first | with_reducible assumption | intro _ | (extract_lets +onlyGivenNames z; refine (fun (hz : Keeps bb z) => ?_) ?_; clear_value z; revert z; intro _ _; rotate_left; unfold z; clear z; rotate_left) | (extract_lets +onlyGivenNames z; refine (fun (hz : Keeps bb z.1) => ?_) ?_; clear_value z; revert z; intro _ _; rotate_left; unfold z; clear z; rotate_left) | (extract_lets +onlyGivenNames z; refine (fun (hz : Keeps bb z) => ?_) ?_; revert z; intro _ _; rotate_left; unfold z; clear z; rotate_left) | (extract_lets +onlyGivenNames z; revert z; intro _) | (simp only [Keeps.mk_iff]; with_reducible apply Keeps.upd) | with_reducible apply State.setReg_keeps | with_reducible apply Keeps.forEach | with_reducible apply foundLd_keeps

theorem trainEdge_keeps {bb : Base} (s : State) (p : Nat) (width : Nat) (rate : Nat) (o : Offer) (h_s : Keeps bb s) (hqr : ¬ bb.q.regs := by assumption) : Keeps bb (trainEdge s p width rate o) := by
  unfold trainEdge
  repeat' first | with_reducible assumption | intro _ | (extract_lets +onlyGivenNames z; refine (fun (hz : Keeps bb z) => ?_) ?_; clear_value z; revert z; intro _ _; rotate_left; unfold z; clear z; rotate_left) | (extract_lets +onlyGivenNames z; refine (fun (hz : Keeps bb z.1) => ?_) ?_; clear_value z; revert z; intro _ _; rotate_left; unfold z; clear z; rotate_left) | (extract_lets +onlyGivenNames z; refine (fun (hz : Keeps bb z) => ?_) ?_; revert z; intro _ _; rotate_left; unfold z; clear z; rotate_left) | (extract_lets +onlyGivenNames z; revert z; intro _) | (simp only [Keeps.mk_iff]; with_reducible apply Keeps.upd) | with_reducible apply State.emit_keeps | with_reducible apply Keeps.forEach | with_reducible apply trainLane_keeps | with_reducible apply Keeps.ite | split

theorem resumeTraffic_keeps {bb : Base} (s : State) (p : Nat) (h_s : Keeps bb s) (hqr : ¬ bb.q.regs := by assumption) : Keeps bb (resumeTraffic s p) := by
  unfold resumeTraffic
  repeat' first | with_reducible assumption | intro _ | with_reducible apply Keeps.withState | with_reducible apply Keeps.withSome | with_reducible apply agentLinkUp_keeps | with_reducible apply releaseHeld_keeps | with_reducible apply Keeps.ite | split

theorem linkComesUp_keeps {bb : Base} (s : State) (p : Nat) (o : Offer) (n : Negotiated) (h_s : Keeps bb s) (hqr : ¬ bb.q.regs := by assumption) : Keeps bb (linkComesUp s p o n) := by
  unfold linkComesUp
  repeat' first | with_reducible assumption | intro _ | (extract_lets +onlyGivenNames z; refine (fun (hz : Keeps bb z) => ?_) ?_; clear_value z; revert z; intro _ _; rotate_left; unfold z; clear z; rotate_left) | (extract_lets +onlyGivenNames z; refine (fun (hz : Keeps bb z.1) => ?_) ?_; clear_value z; revert z; intro _ _; rotate_left; unfold z; clear z; rotate_left) | (extract_lets +onlyGivenNames z; refine (fun (hz : Keeps bb z) => ?_) ?_; revert z; intro _ _; rotate_left; unfold z; clear z; rotate_left) | (extract_lets +onlyGivenNames z; revert z; intro _) | (simp only [Keeps.mk_iff]; with_reducible apply Keeps.upd) | with_reducible apply State.putRegBit_keeps | with_reducible apply State.setReg_keeps | with_reducible apply State.setRegBits_keeps | with_reducible apply advertiseCredits_keeps | with_reducible apply findLds_keeps | with_reducible apply recordEvent_keeps | with_reducible apply resumeSwaps_keeps | with_reducible apply resumeTraffic_keeps | with_reducible apply startIde_keeps | with_reducible apply trainEdge_keeps | with_reducible apply Keeps.ite | split

theorem execEdgeLinkUp_moves {qm qf qp : Prop} (dt : Nat) (port : Nat) (offer : Offer) (s : State) : Moves ⟨qm, qf, False, qp⟩ dt s (execEdgeLinkUp dt port offer s) := by
  unfold execEdgeLinkUp
  refine run_moves ?_
  intro bb s hb h_s
  have hqr : ¬ bb.q.regs := by rw [hb]; exact id
  try dsimp -zeta only
  repeat' first | with_reducible assumption | intro _ | (extract_lets +onlyGivenNames z; refine (fun (hz : Keeps bb z) => ?_) ?_; clear_value z; revert z; intro _ _; rotate_left; unfold z; clear z; rotate_left) | (extract_lets +onlyGivenNames z; refine (fun (hz : Keeps bb z.1) => ?_) ?_; clear_value z; revert z; intro _ _; rotate_left; unfold z; clear z; rotate_left) | (extract_lets +onlyGivenNames z; refine (fun (hz : Keeps bb z) => ?_) ?_; revert z; intro _ _; rotate_left; unfold z; clear z; rotate_left) | (extract_lets +onlyGivenNames z; revert z; intro _) | (simp only [Keeps.mk_iff]; with_reducible apply Keeps.upd) | with_reducible apply State.arm_keeps | with_reducible apply linkComesUp_keeps | with_reducible apply run_keeps | with_reducible apply Keeps.ite | split

theorem execFabricRetrain_moves {qm qf qr qp : Prop} (dt : Nat) (port : Nat) (s : State) : Moves ⟨qm, qf, qr, qp⟩ dt s (execFabricRetrain dt port s) := by
  unfold execFabricRetrain
  refine run_moves ?_
  intro bb s hb h_s
  try dsimp -zeta only
  repeat' first | with_reducible assumption | intro _ | (simp only [Keeps.mk_iff]; with_reducible apply Keeps.upd) | with_reducible apply State.emit_keeps | with_reducible apply State.onDue_keeps | with_reducible apply run_keeps

theorem resetFunction_keeps {bb : Base} (s : State) (p : Nat) (h_s : Keeps bb s) (hqr : ¬ bb.q.regs := by assumption) : Keeps bb (resetFunction s p) := by
  unfold resetFunction
  repeat' first | with_reducible assumption | intro _ | (extract_lets +onlyGivenNames z; refine (fun (hz : Keeps bb z) => ?_) ?_; clear_value z; revert z; intro _ _; rotate_left; unfold z; clear z; rotate_left) | (extract_lets +onlyGivenNames z; refine (fun (hz : Keeps bb z.1) => ?_) ?_; clear_value z; revert z; intro _ _; rotate_left; unfold z; clear z; rotate_left) | (extract_lets +onlyGivenNames z; refine (fun (hz : Keeps bb z) => ?_) ?_; revert z; intro _ _; rotate_left; unfold z; clear z; rotate_left) | (extract_lets +onlyGivenNames z; revert z; intro _) | (simp only [Keeps.mk_iff]; with_reducible apply Keeps.upd) | with_reducible apply Keeps.withState | with_reducible apply State.setRegBits_keeps | with_reducible apply Keeps.withSome | with_reducible apply Keeps.forEach

theorem resetSwitch_keeps {bb : Base} (s : State) (p : Nat) (h_s : Keeps bb s) (hqr : ¬ bb.q.regs := by assumption) : Keeps bb (resetSwitch s p) := by
  unfold resetSwitch
  repeat' first | with_reducible assumption | intro _ | with_reducible apply Keeps.forEach | with_reducible apply hostOnAtBind_keeps | with_reducible apply resetFns_keeps

theorem propagateReset_keeps {bb : Base} (s : State) (p : Nat) (h_s : Keeps bb s)  : Keeps bb (propagateReset s p) := by
  unfold propagateReset
  repeat' first | with_reducible assumption | intro _ | (extract_lets +onlyGivenNames z; refine (fun (hz : Keeps bb z) => ?_) ?_; clear_value z; revert z; intro _ _; rotate_left; unfold z; clear z; rotate_left) | (extract_lets +onlyGivenNames z; refine (fun (hz : Keeps bb z.1) => ?_) ?_; clear_value z; revert z; intro _ _; rotate_left; unfold z; clear z; rotate_left) | (extract_lets +onlyGivenNames z; refine (fun (hz : Keeps bb z) => ?_) ?_; revert z; intro _ _; rotate_left; unfold z; clear z; rotate_left) | (extract_lets +onlyGivenNames z; revert z; intro _) | with_reducible apply State.emit_keeps | with_reducible apply Keeps.forEach | with_reducible apply Keeps.ite | split

theorem resetTenancyOf_keeps {bb : Base} (s : State) (p : Nat) (cause : Nat) (h_s : Keeps bb s) (hqr : ¬ bb.q.regs := by assumption) : Keeps bb (resetTenancyOf s p cause) := by
  unfold resetTenancyOf
  repeat' first | with_reducible assumption | intro _ | with_reducible apply Keeps.withState | with_reducible apply Keeps.withSome | with_reducible apply triggerReset_keeps

theorem execHostPerst_moves {qm qf qp : Prop} (dt : Nat) (port : Nat) (_hot : Bool) (s : State) : Moves ⟨qm, qf, False, qp⟩ dt s (execHostPerst dt port _hot s) := by
  unfold execHostPerst
  refine run_moves ?_
  intro bb s hb h_s
  have hqr : ¬ bb.q.regs := by rw [hb]; exact id
  try dsimp -zeta only
  repeat' first | with_reducible assumption | intro _ | (extract_lets +onlyGivenNames z; refine (fun (hz : Keeps bb z) => ?_) ?_; clear_value z; revert z; intro _ _; rotate_left; unfold z; clear z; rotate_left) | (extract_lets +onlyGivenNames z; refine (fun (hz : Keeps bb z.1) => ?_) ?_; clear_value z; revert z; intro _ _; rotate_left; unfold z; clear z; rotate_left) | (extract_lets +onlyGivenNames z; refine (fun (hz : Keeps bb z) => ?_) ?_; revert z; intro _ _; rotate_left; unfold z; clear z; rotate_left) | (extract_lets +onlyGivenNames z; revert z; intro _) | with_reducible apply State.count1_keeps | with_reducible apply edgeLinkDown_keeps | with_reducible apply propagateReset_keeps | with_reducible apply resetFunction_keeps | with_reducible apply resetSwitch_keeps | with_reducible apply resetTenancyOf_keeps | with_reducible apply run_keeps | with_reducible apply Keeps.ite | split

theorem execPerstDeassert_moves {qm qf qr qp : Prop} (dt : Nat) (port : Nat) (s : State) : Moves ⟨qm, qf, qr, qp⟩ dt s (execPerstDeassert dt port s) := by
  unfold execPerstDeassert
  refine run_moves ?_
  intro bb s hb h_s
  try dsimp -zeta only
  repeat' first | with_reducible assumption | intro _ | (extract_lets +onlyGivenNames z; refine (fun (hz : Keeps bb z) => ?_) ?_; clear_value z; revert z; intro _ _; rotate_left; unfold z; clear z; rotate_left) | (extract_lets +onlyGivenNames z; refine (fun (hz : Keeps bb z.1) => ?_) ?_; clear_value z; revert z; intro _ _; rotate_left; unfold z; clear z; rotate_left) | (extract_lets +onlyGivenNames z; refine (fun (hz : Keeps bb z) => ?_) ?_; revert z; intro _ _; rotate_left; unfold z; clear z; rotate_left) | (extract_lets +onlyGivenNames z; revert z; intro _) | (simp only [Keeps.mk_iff]; with_reducible apply Keeps.upd) | with_reducible apply State.onDue_keeps | with_reducible apply run_keeps | with_reducible apply Keeps.ite | split

theorem execFunctionLevelReset_moves {qm qf qp : Prop} (dt : Nat) (port : Nat) (s : State) : Moves ⟨qm, qf, False, qp⟩ dt s (execFunctionLevelReset dt port s) := by
  unfold execFunctionLevelReset
  refine run_moves ?_
  intro bb s hb h_s
  have hqr : ¬ bb.q.regs := by rw [hb]; exact id
  try dsimp -zeta only
  repeat' first | with_reducible assumption | intro _ | with_reducible apply resetTenancyOf_keeps | with_reducible apply run_keeps | with_reducible apply Keeps.ite | split

theorem execHostLinkDown_moves {qm qf : Prop} (dt : Nat) (port : Nat) (cause : LinkCause) (s : State) : Moves ⟨qm, qf, False, False⟩ dt s (execHostLinkDown dt port cause s) := by
  unfold execHostLinkDown
  refine run_moves ?_
  intro bb s hb h_s
  have hqr : ¬ bb.q.regs := by rw [hb]; exact id
  have hqp : ¬ bb.q.phase := by rw [hb]; exact id
  try dsimp -zeta only
  repeat' first | with_reducible assumption | intro _ | (extract_lets +onlyGivenNames z; refine (fun (hz : Keeps bb z) => ?_) ?_; clear_value z; revert z; intro _ _; rotate_left; unfold z; clear z; rotate_left) | (extract_lets +onlyGivenNames z; refine (fun (hz : Keeps bb z.1) => ?_) ?_; clear_value z; revert z; intro _ _; rotate_left; unfold z; clear z; rotate_left) | (extract_lets +onlyGivenNames z; refine (fun (hz : Keeps bb z) => ?_) ?_; revert z; intro _ _; rotate_left; unfold z; clear z; rotate_left) | (extract_lets +onlyGivenNames z; revert z; intro _) | with_reducible apply State.count1_keeps | with_reducible apply edgeLinkDown_keeps | with_reducible apply raise_keeps | with_reducible apply run_keeps | with_reducible apply Keeps.ite | split

theorem execGraceExpiry_moves {qf : Prop} (dt : Nat) (port : Nat) (s : State) : Moves ⟨False, qf, False, False⟩ dt s (execGraceExpiry dt port s) := by
  unfold execGraceExpiry
  refine run_moves ?_
  intro bb s hb h_s
  have hqm : ¬ bb.q.mem := by rw [hb]; exact id
  have hqr : ¬ bb.q.regs := by rw [hb]; exact id
  have hqp : ¬ bb.q.phase := by rw [hb]; exact id
  try dsimp -zeta only
  repeat' first | with_reducible assumption | intro _ | (simp only [Keeps.mk_iff]; with_reducible apply Keeps.upd) | with_reducible apply Keeps.withState | with_reducible apply State.onDue_keeps | with_reducible apply Keeps.withSome | with_reducible apply declareDead_keeps | with_reducible apply run_keeps | with_reducible apply Keeps.ite | split

theorem execDownstreamLinkDown_moves {qm qf qp : Prop} (dt : Nat) (port : Nat) (s : State) : Moves ⟨qm, qf, False, qp⟩ dt s (execDownstreamLinkDown dt port s) := by
  unfold execDownstreamLinkDown
  refine run_moves ?_
  intro bb s hb h_s
  have hqr : ¬ bb.q.regs := by rw [hb]; exact id
  try dsimp -zeta only
  repeat' first | with_reducible assumption | intro _ | with_reducible apply edgeLinkDown_keeps | with_reducible apply run_keeps | with_reducible apply Keeps.ite | split

theorem execFabricLinkDown_moves {qm qf qp : Prop} (dt : Nat) (port : Nat) (s : State) : Moves ⟨qm, qf, False, qp⟩ dt s (execFabricLinkDown dt port s) := by
  unfold execFabricLinkDown
  refine run_moves ?_
  intro bb s hb h_s
  have hqr : ¬ bb.q.regs := by rw [hb]; exact id
  try dsimp -zeta only
  repeat' first | with_reducible assumption | intro _ | with_reducible apply edgeLinkDown_keeps | with_reducible apply run_keeps | with_reducible apply Keeps.ite | split

theorem identityRead_keeps {bb : Base} (s : State) (e : Nat) (serial : Nat) (capacity : Nat) (d : Ld) (h_s : Keeps bb s) (hqr : ¬ bb.q.regs := by assumption) (hqp : ¬ bb.q.phase := by assumption) : Keeps bb (identityRead s e serial capacity d) := by
  unfold identityRead
  repeat' first | with_reducible assumption | intro _ | (extract_lets +onlyGivenNames z; refine (fun (hz : Keeps bb z) => ?_) ?_; clear_value z; revert z; intro _ _; rotate_left; unfold z; clear z; rotate_left) | (extract_lets +onlyGivenNames z; refine (fun (hz : Keeps bb z.1) => ?_) ?_; clear_value z; revert z; intro _ _; rotate_left; unfold z; clear z; rotate_left) | (extract_lets +onlyGivenNames z; refine (fun (hz : Keeps bb z) => ?_) ?_; revert z; intro _ _; rotate_left; unfold z; clear z; rotate_left) | (extract_lets +onlyGivenNames z; revert z; intro _) | (simp only [Keeps.mk_iff]; with_reducible apply Keeps.upd) | with_reducible apply State.setReg_keeps | with_reducible apply programDecoders_keeps | with_reducible apply raise_keeps | with_reducible apply Keeps.ite | split

theorem execLdIdentityRead_moves {qm qf : Prop} (dt : Nat) (port : Nat) (ldId : Nat) (serial : Nat) (capacity : Nat) (s : State) : Moves ⟨qm, qf, False, False⟩ dt s (execLdIdentityRead dt port ldId serial capacity s) := by
  unfold execLdIdentityRead
  refine run_moves ?_
  intro bb s hb h_s
  have hqr : ¬ bb.q.regs := by rw [hb]; exact id
  have hqp : ¬ bb.q.phase := by rw [hb]; exact id
  try dsimp -zeta only
  repeat' first | with_reducible assumption | intro _ | with_reducible apply Keeps.withState | with_reducible apply Keeps.withSome | with_reducible apply identityRead_keeps | with_reducible apply run_keeps | with_reducible apply Keeps.ite | split

theorem execBindComplete_moves {qm qf qp : Prop} (dt : Nat) (host : Nat) (vppb : Nat) (s : State) : Moves ⟨qm, qf, False, qp⟩ dt s (execBindComplete dt host vppb s) := by
  unfold execBindComplete
  refine run_moves ?_
  intro bb s hb h_s
  have hqr : ¬ bb.q.regs := by rw [hb]; exact id
  try dsimp -zeta only
  repeat' first | with_reducible assumption | intro _ | (extract_lets +onlyGivenNames z; refine (fun (hz : Keeps bb z) => ?_) ?_; clear_value z; revert z; intro _ _; rotate_left; unfold z; clear z; rotate_left) | (extract_lets +onlyGivenNames z; refine (fun (hz : Keeps bb z.1) => ?_) ?_; clear_value z; revert z; intro _ _; rotate_left; unfold z; clear z; rotate_left) | (extract_lets +onlyGivenNames z; refine (fun (hz : Keeps bb z) => ?_) ?_; revert z; intro _ _; rotate_left; unfold z; clear z; rotate_left) | (extract_lets +onlyGivenNames z; revert z; intro _) | with_reducible apply State.setRegBits_keeps | with_reducible apply run_keeps | with_reducible apply unbound_keeps | with_reducible apply Keeps.ite | split

theorem execAttentionButton_moves {qm qf qr qp : Prop} (dt : Nat) (port : Nat) (s : State) : Moves ⟨qm, qf, qr, qp⟩ dt s (execAttentionButton dt port s) := by
  unfold execAttentionButton
  refine run_moves ?_
  intro bb s hb h_s
  try dsimp -zeta only
  repeat' first | with_reducible assumption | intro _ | with_reducible apply State.emit_keeps | with_reducible apply Keeps.forEach | with_reducible apply run_keeps | with_reducible apply Keeps.ite | split

theorem countIdeFailure_keeps {bb : Base} (s : State) (p : Nat) (h_s : Keeps bb s) (hqr : ¬ bb.q.regs := by assumption) : Keeps bb (countIdeFailure s p) := by
  unfold countIdeFailure
  repeat' first | with_reducible assumption | intro _ | with_reducible apply State.setRegBits_keeps

theorem execIdeIntegrityFail_moves {qm qf : Prop} (dt : Nat) (port : Nat) (s : State) : Moves ⟨qm, qf, False, False⟩ dt s (execIdeIntegrityFail dt port s) := by
  unfold execIdeIntegrityFail
  refine run_moves ?_
  intro bb s hb h_s
  have hqr : ¬ bb.q.regs := by rw [hb]; exact id
  have hqp : ¬ bb.q.phase := by rw [hb]; exact id
  try dsimp -zeta only
  repeat' first | with_reducible assumption | intro _ | with_reducible apply State.setRegBits_keeps | with_reducible apply countIdeFailure_keeps | with_reducible apply edgeLinkDown_keeps | with_reducible apply raise_keeps | with_reducible apply run_keeps | with_reducible apply Keeps.ite | split

theorem drawKey_keeps {bb : Base} (s : State) (p : Nat) (h_s : Keeps bb s)  : Keeps bb (drawKey s p) := by
  unfold drawKey
  repeat' first | with_reducible assumption | intro _ | (extract_lets +onlyGivenNames z; refine (fun (hz : Keeps bb z) => ?_) ?_; clear_value z; revert z; intro _ _; rotate_left; unfold z; clear z; rotate_left) | (extract_lets +onlyGivenNames z; refine (fun (hz : Keeps bb z.1) => ?_) ?_; clear_value z; revert z; intro _ _; rotate_left; unfold z; clear z; rotate_left) | (extract_lets +onlyGivenNames z; refine (fun (hz : Keeps bb z) => ?_) ?_; revert z; intro _ _; rotate_left; unfold z; clear z; rotate_left) | (extract_lets +onlyGivenNames z; revert z; intro _) | (simp only [Keeps.mk_iff]; with_reducible apply Keeps.upd) | with_reducible apply State.useFree_keeps | with_reducible apply Keeps.ite | split

theorem linkSecure_keeps {bb : Base} (s : State) (p : Nat) (h_s : Keeps bb s) (hqr : ¬ bb.q.regs := by assumption) : Keeps bb (linkSecure s p) := by
  unfold linkSecure
  repeat' first | with_reducible assumption | intro _ | with_reducible apply State.putRegBit_keeps | with_reducible apply State.setRegBits_keeps | with_reducible apply drawKey_keeps | with_reducible apply resumeTraffic_keeps

theorem addStream_keeps {bb : Base} (s : State) (p : Nat) (k : Nat) (h_s : Keeps bb s) (hqr : ¬ bb.q.regs := by assumption) : Keeps bb (addStream s p k) := by
  unfold addStream
  repeat' first | with_reducible assumption | intro _ | (extract_lets +onlyGivenNames z; refine (fun (hz : Keeps bb z) => ?_) ?_; clear_value z; revert z; intro _ _; rotate_left; unfold z; clear z; rotate_left) | (extract_lets +onlyGivenNames z; refine (fun (hz : Keeps bb z.1) => ?_) ?_; clear_value z; revert z; intro _ _; rotate_left; unfold z; clear z; rotate_left) | (extract_lets +onlyGivenNames z; refine (fun (hz : Keeps bb z) => ?_) ?_; revert z; intro _ _; rotate_left; unfold z; clear z; rotate_left) | (extract_lets +onlyGivenNames z; revert z; intro _) | (simp only [Keeps.mk_iff]; with_reducible apply Keeps.upd) | with_reducible apply State.setRegBits_keeps | with_reducible apply Keeps.ite | split

theorem execIdeKeyExchangeDone_moves {qm qf qp : Prop} (dt : Nat) (x : KeyedStream) (s : State) : Moves ⟨qm, qf, False, qp⟩ dt s (execIdeKeyExchangeDone dt x s) := by
  unfold execIdeKeyExchangeDone
  refine run_moves ?_
  intro bb s hb h_s
  have hqr : ¬ bb.q.regs := by rw [hb]; exact id
  try dsimp -zeta only
  repeat' first | with_reducible assumption | intro _ | (extract_lets +onlyGivenNames z; refine (fun (hz : Keeps bb z) => ?_) ?_; clear_value z; revert z; intro _ _; rotate_left; unfold z; clear z; rotate_left) | (extract_lets +onlyGivenNames z; refine (fun (hz : Keeps bb z.1) => ?_) ?_; clear_value z; revert z; intro _ _; rotate_left; unfold z; clear z; rotate_left) | (extract_lets +onlyGivenNames z; refine (fun (hz : Keeps bb z) => ?_) ?_; revert z; intro _ _; rotate_left; unfold z; clear z; rotate_left) | (extract_lets +onlyGivenNames z; revert z; intro _) | with_reducible apply addStream_keeps | with_reducible apply linkSecure_keeps | with_reducible apply run_keeps | with_reducible apply Keeps.ite | split

theorem ideCtrlWrite_keeps {bb : Base} (s : State) (p : Nat) (v : Nat) (h_s : Keeps bb s) (hqr : ¬ bb.q.regs := by assumption) : Keeps bb (ideCtrlWrite s p v) := by
  unfold ideCtrlWrite
  repeat' first | with_reducible assumption | intro _ | (extract_lets +onlyGivenNames z; refine (fun (hz : Keeps bb z) => ?_) ?_; clear_value z; revert z; intro _ _; rotate_left; unfold z; clear z; rotate_left) | (extract_lets +onlyGivenNames z; refine (fun (hz : Keeps bb z.1) => ?_) ?_; clear_value z; revert z; intro _ _; rotate_left; unfold z; clear z; rotate_left) | (extract_lets +onlyGivenNames z; refine (fun (hz : Keeps bb z) => ?_) ?_; revert z; intro _ _; rotate_left; unfold z; clear z; rotate_left) | (extract_lets +onlyGivenNames z; revert z; intro _) | with_reducible apply State.putRegBit_keeps | with_reducible apply State.setRegBits_keeps | with_reducible apply askKeys_keeps | with_reducible apply drawKey_keeps | with_reducible apply plainWrite_keeps | with_reducible apply startIde_keeps | with_reducible apply Keeps.ite | split

theorem execIdeRefresh_moves {qm qf : Prop} (dt : Nat) (path : Path) (port : Nat) (value : Nat) (s : State) : Moves ⟨qm, qf, False, False⟩ dt s (execIdeRefresh dt path port value s) := by
  unfold execIdeRefresh
  refine run_moves ?_
  intro bb s hb h_s
  have hqr : ¬ bb.q.regs := by rw [hb]; exact id
  have hqp : ¬ bb.q.phase := by rw [hb]; exact id
  try dsimp -zeta only
  repeat' first | with_reducible assumption | intro _ | with_reducible apply ideCtrlWrite_keeps | with_reducible apply run_keeps | with_reducible apply serveWrite_keeps

theorem execDoeRequest_moves {qm qf qr qp : Prop} (dt : Nat) (port : Nat) (protocol : Nat) (request : List Byte) (s : State) : Moves ⟨qm, qf, qr, qp⟩ dt s (execDoeRequest dt port protocol request s) := by
  unfold execDoeRequest
  refine run_moves ?_
  intro bb s hb h_s
  try dsimp -zeta only
  repeat' first | with_reducible assumption | intro _ | with_reducible apply State.emit_keeps | with_reducible apply State.useFree_keeps | with_reducible apply run_keeps | with_reducible apply Keeps.ite | split

theorem execPbrFlit_moves {qm qf : Prop} (dt : Nat) (port : Nat) (spid : Nat) (dpid : Nat) (s : State) : Moves ⟨qm, qf, False, False⟩ dt s (execPbrFlit dt port spid dpid s) := by
  unfold execPbrFlit
  refine run_moves ?_
  intro bb s hb h_s
  have hqr : ¬ bb.q.regs := by rw [hb]; exact id
  have hqp : ¬ bb.q.phase := by rw [hb]; exact id
  try dsimp -zeta only
  repeat' first | with_reducible assumption | intro _ | with_reducible apply State.count1_keeps | with_reducible apply State.emit_keeps | with_reducible apply raise_keeps | with_reducible apply run_keeps | with_reducible apply Keeps.ite | split

theorem commitDecoder_keeps {bb : Base} (s : State) (p : Nat) (d : Nat) (base : Nat) (size : Nat) (lock : Bool) (h_s : Keeps bb s) (hqr : ¬ bb.q.regs := by assumption) : Keeps bb (commitDecoder s p d base size lock) := by
  unfold commitDecoder
  repeat' first | with_reducible assumption | intro _ | (extract_lets +onlyGivenNames z; refine (fun (hz : Keeps bb z) => ?_) ?_; clear_value z; revert z; intro _ _; rotate_left; unfold z; clear z; rotate_left) | (extract_lets +onlyGivenNames z; refine (fun (hz : Keeps bb z.1) => ?_) ?_; clear_value z; revert z; intro _ _; rotate_left; unfold z; clear z; rotate_left) | (extract_lets +onlyGivenNames z; refine (fun (hz : Keeps bb z) => ?_) ?_; revert z; intro _ _; rotate_left; unfold z; clear z; rotate_left) | (extract_lets +onlyGivenNames z; revert z; intro _) | (simp only [Keeps.mk_iff]; with_reducible apply Keeps.upd) | with_reducible apply Keeps.withState | with_reducible apply State.putRegBit_keeps | with_reducible apply Keeps.withSome

theorem execHdmDecoderCommit_moves {qm qf qp : Prop} (dt : Nat) (port : Nat) (decoder : Nat) (base : Nat) (size : DecoderSize) (s : State) : Moves ⟨qm, qf, False, qp⟩ dt s (execHdmDecoderCommit dt port decoder base size s) := by
  unfold execHdmDecoderCommit
  refine run_moves ?_
  intro bb s hb h_s
  have hqr : ¬ bb.q.regs := by rw [hb]; exact id
  try dsimp -zeta only
  repeat' first | with_reducible assumption | intro _ | with_reducible apply commitDecoder_keeps | with_reducible apply run_keeps | with_reducible apply Keeps.ite | split

end Sys2Proof.Machine
end

