-- ==== Sys2Proof/Laws/Keeps/PassRoute.lean ====
section
/-! SUPPORT. Every operation and meaning of Machine/PassRoute.lean keeps what `Keeps` says. -/
set_option linter.all false
set_option Elab.async false
namespace Sys2Proof.Machine

theorem passIngress_keeps {bb : Base} (s : State) (p : Nat) (m : List Byte) (egress : Nat) (ch : LinkChannel) (h_s : Keeps bb s)  : Keeps bb (passIngress s p m egress ch) := by
  unfold passIngress
  repeat' first | with_reducible assumption | intro _ | (simp only [Keeps.mk_iff]; with_reducible apply Keeps.upd) | with_reducible apply packMessage_keeps | with_reducible apply Keeps.ite | split

theorem passToCol_keeps {bb : Base} (s : State) (p : Nat) (m : List Byte) (h_s : Keeps bb s)  : Keeps bb (passToCol s p m) := by
  unfold passToCol
  repeat' first | with_reducible assumption | intro _ | (extract_lets +onlyGivenNames z; refine (fun (hz : Keeps bb z) => ?_) ?_; clear_value z; revert z; intro _ _; rotate_left; unfold z; clear z; rotate_left) | (extract_lets +onlyGivenNames z; refine (fun (hz : Keeps bb z.1) => ?_) ?_; clear_value z; revert z; intro _ _; rotate_left; unfold z; clear z; rotate_left) | (extract_lets +onlyGivenNames z; refine (fun (hz : Keeps bb z) => ?_) ?_; revert z; intro _ _; rotate_left; unfold z; clear z; rotate_left) | (extract_lets +onlyGivenNames z; revert z; intro _) | with_reducible apply passIngress_keeps | with_reducible apply Keeps.ite | split

theorem forwardPass_keeps {bb : Base} (s : State) (p : Nat) (m : List Byte) (h_s : Keeps bb s) (hqr : ¬ bb.q.regs := by assumption) : Keeps bb (forwardPass s p m) := by
  unfold forwardPass
  repeat' first | with_reducible assumption | intro _ | with_reducible apply State.count1_keeps | with_reducible apply passIngress_keeps | with_reducible apply Keeps.ite | split

theorem placeMessage_keeps {bb : Base} (s : State) (p : Nat) (m : PoolMsg) (h_s : Keeps bb s) (hqr : ¬ bb.q.regs := by assumption) : Keeps bb (placeMessage s p m) := by
  unfold placeMessage
  repeat' first | with_reducible assumption | intro _ | with_reducible apply State.count1_keeps | with_reducible apply forwardPass_keeps | with_reducible apply passToCol_keeps | with_reducible apply Keeps.ite | split

theorem poolToBasin_keeps {base : Base} (s : State) (p : Nat) (m : PoolMsg) (h_s : Keeps base s) (hqr : ¬ base.q.regs := by assumption) : Keeps base (poolToBasin s p m) := by
  unfold poolToBasin
  split
  · split
    · rename_i r hr
      refine placeMessage_keeps _ _ _ ((takePool_keeps s p m.bytes h_s).get r.1 ?_)
      rw [hr]; rfl
    · exact h_s
  · exact h_s

theorem execPassPoolToBasin_moves {qm qf qp : Prop} (dt : Nat) (port : Nat) (index : Nat) (s : State) : Moves ⟨qm, qf, False, qp⟩ dt s (execPassPoolToBasin dt port index s) := by
  unfold execPassPoolToBasin
  refine run_moves ?_
  intro bb s hb h_s
  have hqr : ¬ bb.q.regs := by rw [hb]; exact id
  try dsimp -zeta only
  repeat' first | with_reducible assumption | intro _ | with_reducible apply Keeps.withState | with_reducible apply Keeps.withSome | with_reducible apply poolToBasin_keeps | with_reducible apply run_keeps

theorem execPassMessage_moves {qm qf qp : Prop} (dt : Nat) (port : Nat) (msg : List Byte) (s : State) : Moves ⟨qm, qf, False, qp⟩ dt s (execPassMessage dt port msg s) := by
  unfold execPassMessage
  refine run_moves ?_
  intro bb s hb h_s
  have hqr : ¬ bb.q.regs := by rw [hb]; exact id
  try dsimp -zeta only
  repeat' first | with_reducible assumption | intro _ | with_reducible apply Keeps.withState | with_reducible apply Keeps.withSome | with_reducible apply poolToBasin_keeps | with_reducible apply run_keeps

theorem takeLink_keeps {bb : Base} (s : State) (p : Nat) (kind : Nat) (msg : List Byte) (h_s : Keeps bb s)  : KeepsO bb (takeLink s p kind msg) := by
  unfold takeLink
  repeat' first | with_reducible assumption | intro _ | with_reducible apply KeepsO.none | with_reducible apply KeepsO.some | with_reducible apply takePool_keeps | intro _ | with_reducible apply Keeps.ite | split

theorem learnHello_keeps {bb : Base} (s : State) (p : Nat) (h : List Byte) (h_s : Keeps bb s) (hqr : ¬ bb.q.regs := by assumption) : Keeps bb (learnHello s p h) := by
  unfold learnHello
  repeat' first | with_reducible assumption | intro _ | (extract_lets +onlyGivenNames z; refine (fun (hz : Keeps bb z) => ?_) ?_; clear_value z; revert z; intro _ _; rotate_left; unfold z; clear z; rotate_left) | (extract_lets +onlyGivenNames z; refine (fun (hz : Keeps bb z.1) => ?_) ?_; clear_value z; revert z; intro _ _; rotate_left; unfold z; clear z; rotate_left) | (extract_lets +onlyGivenNames z; refine (fun (hz : Keeps bb z) => ?_) ?_; revert z; intro _ _; rotate_left; unfold z; clear z; rotate_left) | (extract_lets +onlyGivenNames z; revert z; intro _) | (simp only [Keeps.mk_iff]; with_reducible apply Keeps.upd) | with_reducible apply State.putRegBit_keeps | with_reducible apply State.setPass_keeps | with_reducible apply State.setRegBits_keeps

theorem configDone_keeps {bb : Base} (s : State) (p : Nat) (h_s : Keeps bb s) (hqr : ¬ bb.q.regs := by assumption) : Keeps bb (configDone s p) := by
  unfold configDone
  repeat' first | with_reducible assumption | intro _ | (extract_lets +onlyGivenNames z; refine (fun (hz : Keeps bb z) => ?_) ?_; clear_value z; revert z; intro _ _; rotate_left; unfold z; clear z; rotate_left) | (extract_lets +onlyGivenNames z; refine (fun (hz : Keeps bb z.1) => ?_) ?_; clear_value z; revert z; intro _ _; rotate_left; unfold z; clear z; rotate_left) | (extract_lets +onlyGivenNames z; refine (fun (hz : Keeps bb z) => ?_) ?_; revert z; intro _ _; rotate_left; unfold z; clear z; rotate_left) | (extract_lets +onlyGivenNames z; revert z; intro _) | (simp only [Keeps.mk_iff]; with_reducible apply Keeps.upd) | with_reducible apply State.arm_keeps | with_reducible apply State.disarm_keeps | with_reducible apply recomputeRoutes_keeps | with_reducible apply saddleUp_keeps | with_reducible apply setPassState_keeps | with_reducible apply Keeps.ite | split

theorem helloEffect_keeps {bb : Base} (s : State) (p : Nat) (h : List Byte) (h_s : Keeps bb s) (hqr : ¬ bb.q.regs := by assumption) (hqp : ¬ bb.q.phase := by assumption) : Keeps bb (helloEffect s p h) := by
  unfold helloEffect
  repeat' first | with_reducible assumption | intro _ | (extract_lets +onlyGivenNames z; refine (fun (hz : Keeps bb z) => ?_) ?_; clear_value z; revert z; intro _ _; rotate_left; unfold z; clear z; rotate_left) | (extract_lets +onlyGivenNames z; refine (fun (hz : Keeps bb z.1) => ?_) ?_; clear_value z; revert z; intro _ _; rotate_left; unfold z; clear z; rotate_left) | (extract_lets +onlyGivenNames z; refine (fun (hz : Keeps bb z) => ?_) ?_; revert z; intro _ _; rotate_left; unfold z; clear z; rotate_left) | (extract_lets +onlyGivenNames z; revert z; intro _) | with_reducible apply State.setReg_keeps | with_reducible apply configDone_keeps | with_reducible apply holdPort_keeps | with_reducible apply learnHello_keeps | with_reducible apply recordConflict_keeps | with_reducible apply Keeps.ite | split

theorem execHello_moves {qm qf : Prop} (dt : Nat) (port : Nat) (msg : List Byte) (s : State) : Moves ⟨qm, qf, False, False⟩ dt s (execHello dt port msg s) := by
  unfold execHello
  refine run_moves ?_
  intro bb s hb h_s
  have hqr : ¬ bb.q.regs := by rw [hb]; exact id
  have hqp : ¬ bb.q.phase := by rw [hb]; exact id
  try dsimp -zeta only
  repeat' first | with_reducible assumption | intro _ | with_reducible apply Keeps.withState | with_reducible apply Keeps.withSome | with_reducible apply helloEffect_keeps | with_reducible apply run_keeps | with_reducible apply takeLink_keeps | with_reducible apply Keeps.ite | split

theorem learnSerials_keeps {bb : Base} (s : State) (m : List Byte) (h_s : Keeps bb s) (hqr : ¬ bb.q.regs := by assumption) : Keeps bb (learnSerials s m) := by
  unfold learnSerials
  repeat' first | with_reducible assumption | intro _ | with_reducible apply State.setReg_keeps | with_reducible apply evalRegime_keeps | with_reducible apply Keeps.forEach | with_reducible apply Keeps.ite | split

theorem learnRoute_keeps {bb : Base} (s : State) (p : Nat) (m : List Byte) (dead : List Nat) (h_s : Keeps bb s) (hqr : ¬ bb.q.regs := by assumption) : Keeps bb (learnRoute s p m dead) := by
  unfold learnRoute
  repeat' first | with_reducible assumption | intro _ | (extract_lets +onlyGivenNames z; refine (fun (hz : Keeps bb z) => ?_) ?_; clear_value z; revert z; intro _ _; rotate_left; unfold z; clear z; rotate_left) | (extract_lets +onlyGivenNames z; refine (fun (hz : Keeps bb z.1) => ?_) ?_; clear_value z; revert z; intro _ _; rotate_left; unfold z; clear z; rotate_left) | (extract_lets +onlyGivenNames z; refine (fun (hz : Keeps bb z) => ?_) ?_; revert z; intro _ _; rotate_left; unfold z; clear z; rotate_left) | (extract_lets +onlyGivenNames z; revert z; intro _) | (simp only [Keeps.mk_iff]; with_reducible apply Keeps.upd) | with_reducible apply State.setPass_keeps | with_reducible apply configDone_keeps | with_reducible apply Keeps.forEach | with_reducible apply learnSerials_keeps | with_reducible apply putRoute_keeps | with_reducible apply recomputeRoute_keeps | with_reducible apply sendRoutes_keeps | with_reducible apply Keeps.ite | split

theorem routeEffect_keeps {bb : Base} (s : State) (p : Nat) (m : List Byte) (h_s : Keeps bb s) (hqr : ¬ bb.q.regs := by assumption) (hqp : ¬ bb.q.phase := by assumption) : Keeps bb (routeEffect s p m) := by
  unfold routeEffect
  repeat' first | with_reducible assumption | intro _ | (extract_lets +onlyGivenNames z; refine (fun (hz : Keeps bb z) => ?_) ?_; clear_value z; revert z; intro _ _; rotate_left; unfold z; clear z; rotate_left) | (extract_lets +onlyGivenNames z; refine (fun (hz : Keeps bb z.1) => ?_) ?_; clear_value z; revert z; intro _ _; rotate_left; unfold z; clear z; rotate_left) | (extract_lets +onlyGivenNames z; refine (fun (hz : Keeps bb z) => ?_) ?_; revert z; intro _ _; rotate_left; unfold z; clear z; rotate_left) | (extract_lets +onlyGivenNames z; revert z; intro _) | with_reducible apply endConflict_keeps | with_reducible apply Keeps.forEach | with_reducible apply holdPort_keeps | with_reducible apply learnRoute_keeps | with_reducible apply recordConflict_keeps | with_reducible apply Keeps.ite | split

theorem execRoute_moves {qm qf : Prop} (dt : Nat) (port : Nat) (msg : List Byte) (s : State) : Moves ⟨qm, qf, False, False⟩ dt s (execRoute dt port msg s) := by
  unfold execRoute
  refine run_moves ?_
  intro bb s hb h_s
  have hqr : ¬ bb.q.regs := by rw [hb]; exact id
  have hqp : ¬ bb.q.phase := by rw [hb]; exact id
  try dsimp -zeta only
  repeat' first | with_reducible assumption | intro _ | with_reducible apply Keeps.withState | with_reducible apply Keeps.withSome | with_reducible apply routeEffect_keeps | with_reducible apply run_keeps | with_reducible apply takeLink_keeps

theorem execRouteSend_moves {qm qf qr qp : Prop} (dt : Nat) (s : State) : Moves ⟨qm, qf, qr, qp⟩ dt s (execRouteSend dt s) := by
  unfold execRouteSend
  refine run_moves ?_
  intro bb s hb h_s
  try dsimp -zeta only
  repeat' first | with_reducible assumption | intro _ | (simp only [Keeps.mk_iff]; with_reducible apply Keeps.upd) | with_reducible apply State.arm_keeps | with_reducible apply run_keeps | with_reducible apply sendRoutes_keeps | with_reducible apply Keeps.ite | split

theorem execRouteEntryClear_moves {qm qf qp : Prop} (dt : Nat) (switch : Nat) (s : State) : Moves ⟨qm, qf, False, qp⟩ dt s (execRouteEntryClear dt switch s) := by
  unfold execRouteEntryClear
  refine run_moves ?_
  intro bb s hb h_s
  have hqr : ¬ bb.q.regs := by rw [hb]; exact id
  try dsimp -zeta only
  repeat' first | with_reducible assumption | intro _ | (simp only [Keeps.mk_iff]; with_reducible apply Keeps.upd) | with_reducible apply State.onDue_keeps | with_reducible apply State.setReg_keeps | with_reducible apply evalRegime_keeps | with_reducible apply run_keeps | with_reducible apply sendRoutes_keeps | with_reducible apply Keeps.ite | split

theorem execRouteRecompute_moves {qm qf : Prop} (dt : Nat) (path : Path) (s : State) : Moves ⟨qm, qf, False, False⟩ dt s (execRouteRecompute dt path s) := by
  unfold execRouteRecompute
  refine run_moves ?_
  intro bb s hb h_s
  have hqr : ¬ bb.q.regs := by rw [hb]; exact id
  have hqp : ¬ bb.q.phase := by rw [hb]; exact id
  try dsimp -zeta only
  repeat' first | with_reducible assumption | intro _ | with_reducible apply recomputeRoutes_keeps | with_reducible apply run_keeps | with_reducible apply serveWrite_keeps

theorem execProbeSend_moves {qm qf qr qp : Prop} (dt : Nat) (port : Nat) (s : State) : Moves ⟨qm, qf, qr, qp⟩ dt s (execProbeSend dt port s) := by
  unfold execProbeSend
  refine run_moves ?_
  intro bb s hb h_s
  try dsimp -zeta only
  repeat' first | with_reducible assumption | intro _ | (extract_lets +onlyGivenNames z; refine (fun (hz : Keeps bb z) => ?_) ?_; clear_value z; revert z; intro _ _; rotate_left; unfold z; clear z; rotate_left) | (extract_lets +onlyGivenNames z; refine (fun (hz : Keeps bb z.1) => ?_) ?_; clear_value z; revert z; intro _ _; rotate_left; unfold z; clear z; rotate_left) | (extract_lets +onlyGivenNames z; refine (fun (hz : Keeps bb z) => ?_) ?_; revert z; intro _ _; rotate_left; unfold z; clear z; rotate_left) | (extract_lets +onlyGivenNames z; revert z; intro _) | (simp only [Keeps.mk_iff]; with_reducible apply Keeps.upd) | with_reducible apply State.arm_keeps | with_reducible apply State.onDue_keeps | with_reducible apply State.setPass_keeps | with_reducible apply run_keeps | with_reducible apply sendOwn_keeps | with_reducible apply Keeps.ite | split

theorem execProbe_moves {qm qf : Prop} (dt : Nat) (port : Nat) (msg : List Byte) (s : State) : Moves ⟨qm, qf, False, False⟩ dt s (execProbe dt port msg s) := by
  unfold execProbe
  refine run_moves ?_
  intro bb s hb h_s
  have hqr : ¬ bb.q.regs := by rw [hb]; exact id
  have hqp : ¬ bb.q.phase := by rw [hb]; exact id
  try dsimp -zeta only
  repeat' first | with_reducible assumption | intro _ | with_reducible apply Keeps.withState | with_reducible apply Keeps.withSome | with_reducible apply protocolError_keeps | with_reducible apply run_keeps | with_reducible apply sendOwn_keeps | with_reducible apply takeLink_keeps | with_reducible apply Keeps.ite | split

theorem execProbeReply_moves {qm qf : Prop} (dt : Nat) (port : Nat) (msg : List Byte) (s : State) : Moves ⟨qm, qf, False, False⟩ dt s (execProbeReply dt port msg s) := by
  unfold execProbeReply
  refine run_moves ?_
  intro bb s hb h_s
  have hqr : ¬ bb.q.regs := by rw [hb]; exact id
  have hqp : ¬ bb.q.phase := by rw [hb]; exact id
  try dsimp -zeta only
  repeat' first | with_reducible assumption | intro _ | (extract_lets +onlyGivenNames z; refine (fun (hz : Keeps bb z) => ?_) ?_; clear_value z; revert z; intro _ _; rotate_left; unfold z; clear z; rotate_left) | (extract_lets +onlyGivenNames z; refine (fun (hz : Keeps bb z.1) => ?_) ?_; clear_value z; revert z; intro _ _; rotate_left; unfold z; clear z; rotate_left) | (extract_lets +onlyGivenNames z; refine (fun (hz : Keeps bb z) => ?_) ?_; revert z; intro _ _; rotate_left; unfold z; clear z; rotate_left) | (extract_lets +onlyGivenNames z; revert z; intro _) | (simp only [Keeps.mk_iff]; with_reducible apply Keeps.upd) | with_reducible apply Keeps.withState | with_reducible apply State.setPass_keeps | with_reducible apply State.setReg_keeps | with_reducible apply Keeps.withSome | with_reducible apply protocolError_keeps | with_reducible apply run_keeps | with_reducible apply takeLink_keeps | with_reducible apply Keeps.ite | split

end Sys2Proof.Machine
end

