-- ==== Sys2Proof/Laws/Keeps/Slot.lean ====
section
/-! SUPPORT. Every operation and meaning of Machine/Slot.lean keeps what `Keeps` says. -/
set_option linter.all false
set_option Elab.async false
namespace Sys2Proof.Machine

theorem noteReinsertion_keeps {bb : Base} (s : State) (slot : Nat) (h_s : Keeps bb s) (hqr : ¬ bb.q.regs := by assumption) : Keeps bb (noteReinsertion s slot) := by
  unfold noteReinsertion
  repeat' first | with_reducible assumption | intro _ | (simp only [Keeps.mk_iff]; with_reducible apply Keeps.upd) | with_reducible apply State.count1_keeps | with_reducible apply State.putRegBit_keeps | with_reducible apply Keeps.ite | split

theorem setAsserted_keeps {bb : Base} (s : State) (l : List Nat) (h_s : Keeps bb s)  : Keeps bb (setAsserted s l) := by
  unfold setAsserted
  repeat' first | with_reducible assumption | intro _ | (extract_lets +onlyGivenNames z; refine (fun (hz : Keeps bb z) => ?_) ?_; clear_value z; revert z; intro _ _; rotate_left; unfold z; clear z; rotate_left) | (extract_lets +onlyGivenNames z; refine (fun (hz : Keeps bb z.1) => ?_) ?_; clear_value z; revert z; intro _ _; rotate_left; unfold z; clear z; rotate_left) | (extract_lets +onlyGivenNames z; refine (fun (hz : Keeps bb z) => ?_) ?_; revert z; intro _ _; rotate_left; unfold z; clear z; rotate_left) | (extract_lets +onlyGivenNames z; revert z; intro _) | (simp only [Keeps.mk_iff]; with_reducible apply Keeps.upd)

theorem startDebounce_keeps {bb : Base} (s : State) (slot : Nat) (h_s : Keeps bb s) (hqr : ¬ bb.q.regs := by assumption) : Keeps bb (startDebounce s slot) := by
  unfold startDebounce
  repeat' first | with_reducible assumption | intro _ | (extract_lets +onlyGivenNames z; refine (fun (hz : Keeps bb z) => ?_) ?_; clear_value z; revert z; intro _ _; rotate_left; unfold z; clear z; rotate_left) | (extract_lets +onlyGivenNames z; refine (fun (hz : Keeps bb z.1) => ?_) ?_; clear_value z; revert z; intro _ _; rotate_left; unfold z; clear z; rotate_left) | (extract_lets +onlyGivenNames z; refine (fun (hz : Keeps bb z) => ?_) ?_; revert z; intro _ _; rotate_left; unfold z; clear z; rotate_left) | (extract_lets +onlyGivenNames z; revert z; intro _) | (simp only [Keeps.mk_iff]; with_reducible apply Keeps.upd) | with_reducible apply State.arm_keeps | with_reducible apply setSlotState_keeps | with_reducible apply Keeps.ite | split

theorem presenceAsserted_keeps {bb : Base} (s : State) (slot : Nat) (h_s : Keeps bb s) (hqr : ¬ bb.q.regs := by assumption) : Keeps bb (presenceAsserted s slot) := by
  unfold presenceAsserted
  repeat' first | with_reducible assumption | intro _ | with_reducible apply noteReinsertion_keeps | with_reducible apply setAsserted_keeps | with_reducible apply startDebounce_keeps

theorem execPresenceAssert_moves {qm qf qp : Prop} (dt : Nat) (slot : Nat) (s : State) : Moves ⟨qm, qf, False, qp⟩ dt s (execPresenceAssert dt slot s) := by
  unfold execPresenceAssert
  refine runPowered_moves ?_
  intro bb s hb h_s
  have hqr : ¬ bb.q.regs := by rw [hb]; exact id
  try dsimp -zeta only
  repeat' first | with_reducible assumption | intro _ | with_reducible apply presenceAsserted_keeps | with_reducible apply runPowered_keeps | with_reducible apply Keeps.ite | split

theorem execSeated_moves {qm qf qp : Prop} (dt : Nat) (slot : Nat) (s : State) : Moves ⟨qm, qf, False, qp⟩ dt s (execSeated dt slot s) := by
  unfold execSeated
  refine runPowered_moves ?_
  intro bb s hb h_s
  have hqr : ¬ bb.q.regs := by rw [hb]; exact id
  try dsimp -zeta only
  repeat' first | with_reducible assumption | intro _ | (simp only [Keeps.mk_iff]; with_reducible apply Keeps.upd) | with_reducible apply State.onDue_keeps | with_reducible apply State.putRegBit_keeps | with_reducible apply runPowered_keeps | with_reducible apply tryRamp_keeps

theorem execPresenceBreak_moves {qm qf qp : Prop} (dt : Nat) (slot : Nat) (s : State) : Moves ⟨qm, qf, False, qp⟩ dt s (execPresenceBreak dt slot s) := by
  unfold execPresenceBreak
  refine runPowered_moves ?_
  intro bb s hb h_s
  have hqr : ¬ bb.q.regs := by rw [hb]; exact id
  try dsimp -zeta only
  repeat' first | with_reducible assumption | intro _ | (extract_lets +onlyGivenNames z; refine (fun (hz : Keeps bb z) => ?_) ?_; clear_value z; revert z; intro _ _; rotate_left; unfold z; clear z; rotate_left) | (extract_lets +onlyGivenNames z; refine (fun (hz : Keeps bb z.1) => ?_) ?_; clear_value z; revert z; intro _ _; rotate_left; unfold z; clear z; rotate_left) | (extract_lets +onlyGivenNames z; refine (fun (hz : Keeps bb z) => ?_) ?_; revert z; intro _ _; rotate_left; unfold z; clear z; rotate_left) | (extract_lets +onlyGivenNames z; revert z; intro _) | (simp only [Keeps.mk_iff]; with_reducible apply Keeps.upd) | with_reducible apply State.disarm_keeps | with_reducible apply State.putRegBit_keeps | with_reducible apply runPowered_keeps | with_reducible apply setSlotState_keeps | with_reducible apply Keeps.ite | split

theorem cardGone_keeps {bb : Base} (s : State) (slot : Nat) (st : Nat) (h_s : Keeps bb s) (hqr : ¬ bb.q.regs := by assumption) : Keeps bb (cardGone s slot st) := by
  unfold cardGone
  repeat' first | with_reducible assumption | intro _ | (extract_lets +onlyGivenNames z; refine (fun (hz : Keeps bb z) => ?_) ?_; clear_value z; revert z; intro _ _; rotate_left; unfold z; clear z; rotate_left) | (extract_lets +onlyGivenNames z; refine (fun (hz : Keeps bb z.1) => ?_) ?_; clear_value z; revert z; intro _ _; rotate_left; unfold z; clear z; rotate_left) | (extract_lets +onlyGivenNames z; refine (fun (hz : Keeps bb z) => ?_) ?_; revert z; intro _ _; rotate_left; unfold z; clear z; rotate_left) | (extract_lets +onlyGivenNames z; revert z; intro _) | (simp only [Keeps.mk_iff]; with_reducible apply Keeps.upd) | with_reducible apply State.arm_keeps | with_reducible apply State.disarm_keeps | with_reducible apply State.putRegBit_keeps | with_reducible apply setSlotState_keeps | with_reducible apply turnOff_keeps | with_reducible apply Keeps.ite | split

theorem execRemoved_moves {qm qf qp : Prop} (dt : Nat) (slot : Nat) (s : State) : Moves ⟨qm, qf, False, qp⟩ dt s (execRemoved dt slot s) := by
  unfold execRemoved
  refine runPowered_moves ?_
  intro bb s hb h_s
  have hqr : ¬ bb.q.regs := by rw [hb]; exact id
  try dsimp -zeta only
  repeat' first | with_reducible assumption | intro _ | with_reducible apply cardGone_keeps | with_reducible apply runPowered_keeps | with_reducible apply setAsserted_keeps | with_reducible apply Keeps.ite | split

theorem execCooldownEnd_moves {qm qf qp : Prop} (dt : Nat) (slot : Nat) (s : State) : Moves ⟨qm, qf, False, qp⟩ dt s (execCooldownEnd dt slot s) := by
  unfold execCooldownEnd
  refine runPowered_moves ?_
  intro bb s hb h_s
  have hqr : ¬ bb.q.regs := by rw [hb]; exact id
  try dsimp -zeta only
  repeat' first | with_reducible assumption | intro _ | (simp only [Keeps.mk_iff]; with_reducible apply Keeps.upd) | with_reducible apply State.onDue_keeps | with_reducible apply runPowered_keeps | with_reducible apply setSlotState_keeps | with_reducible apply tryRamp_keeps | with_reducible apply Keeps.ite | split

theorem sampleVin_keeps {bb : Base} (s : State) (vin : Nat) (h_s : Keeps bb s) (hqr : ¬ bb.q.regs := by assumption) : Keeps bb (sampleVin s vin) := by
  unfold sampleVin
  repeat' first | with_reducible assumption | intro _ | (extract_lets +onlyGivenNames z; refine (fun (hz : Keeps bb z) => ?_) ?_; clear_value z; revert z; intro _ _; rotate_left; unfold z; clear z; rotate_left) | (extract_lets +onlyGivenNames z; refine (fun (hz : Keeps bb z.1) => ?_) ?_; clear_value z; revert z; intro _ _; rotate_left; unfold z; clear z; rotate_left) | (extract_lets +onlyGivenNames z; refine (fun (hz : Keeps bb z) => ?_) ?_; revert z; intro _ _; rotate_left; unfold z; clear z; rotate_left) | (extract_lets +onlyGivenNames z; revert z; intro _) | with_reducible apply State.putRegBit_keeps | with_reducible apply State.setReg_keeps | with_reducible apply Keeps.forEach | with_reducible apply Keeps.ite | split

theorem execRampStart_moves {qm qf qp : Prop} (dt : Nat) (slot : Nat) (vin : Nat) (s : State) : Moves ⟨qm, qf, False, qp⟩ dt s (execRampStart dt slot vin s) := by
  unfold execRampStart
  refine runPowered_moves ?_
  intro bb s hb h_s
  have hqr : ¬ bb.q.regs := by rw [hb]; exact id
  try dsimp -zeta only
  repeat' first | with_reducible assumption | intro _ | with_reducible apply runPowered_keeps | with_reducible apply sampleVin_keeps | with_reducible apply tryRamp_keeps

theorem execSlotVinLow_moves {qm qf qp : Prop} (dt : Nat) (vin : Nat) (s : State) : Moves ⟨qm, qf, False, qp⟩ dt s (execSlotVinLow dt vin s) := by
  unfold execSlotVinLow
  refine runPowered_moves ?_
  intro bb s hb h_s
  have hqr : ¬ bb.q.regs := by rw [hb]; exact id
  try dsimp -zeta only
  repeat' first | with_reducible assumption | intro _ | with_reducible apply runPowered_keeps | with_reducible apply sampleVin_keeps | with_reducible apply Keeps.ite | split

theorem execGateOnComplete_moves {qm qf qp : Prop} (dt : Nat) (slot : Nat) (s : State) : Moves ⟨qm, qf, False, qp⟩ dt s (execGateOnComplete dt slot s) := by
  unfold execGateOnComplete
  refine runPowered_moves ?_
  intro bb s hb h_s
  have hqr : ¬ bb.q.regs := by rw [hb]; exact id
  try dsimp -zeta only
  repeat' first | with_reducible assumption | intro _ | (extract_lets +onlyGivenNames z; refine (fun (hz : Keeps bb z) => ?_) ?_; clear_value z; revert z; intro _ _; rotate_left; unfold z; clear z; rotate_left) | (extract_lets +onlyGivenNames z; refine (fun (hz : Keeps bb z.1) => ?_) ?_; clear_value z; revert z; intro _ _; rotate_left; unfold z; clear z; rotate_left) | (extract_lets +onlyGivenNames z; refine (fun (hz : Keeps bb z) => ?_) ?_; revert z; intro _ _; rotate_left; unfold z; clear z; rotate_left) | (extract_lets +onlyGivenNames z; revert z; intro _) | with_reducible apply Keeps.withState | with_reducible apply Keeps.withSome | with_reducible apply assertPwrgd_keeps | with_reducible apply runPowered_keeps | with_reducible apply setSlotState_keeps | with_reducible apply Keeps.ite | split

theorem execFaultTimerStart_moves {qm qf qp : Prop} (dt : Nat) (slot : Nat) (sense : Nat) (s : State) : Moves ⟨qm, qf, False, qp⟩ dt s (execFaultTimerStart dt slot sense s) := by
  unfold execFaultTimerStart
  refine runPowered_moves ?_
  intro bb s hb h_s
  have hqr : ¬ bb.q.regs := by rw [hb]; exact id
  try dsimp -zeta only
  repeat' first | with_reducible assumption | intro _ | (simp only [Keeps.mk_iff]; with_reducible apply Keeps.upd) | with_reducible apply State.arm_keeps | with_reducible apply State.putRegBit_keeps | with_reducible apply State.setReg_keeps | with_reducible apply runPowered_keeps | with_reducible apply Keeps.ite | split

theorem execFaultTimerEnd_moves {qm qf qp : Prop} (dt : Nat) (slot : Nat) (sense : Nat) (s : State) : Moves ⟨qm, qf, False, qp⟩ dt s (execFaultTimerEnd dt slot sense s) := by
  unfold execFaultTimerEnd
  refine runPowered_moves ?_
  intro bb s hb h_s
  have hqr : ¬ bb.q.regs := by rw [hb]; exact id
  try dsimp -zeta only
  repeat' first | with_reducible assumption | intro _ | (extract_lets +onlyGivenNames z; refine (fun (hz : Keeps bb z) => ?_) ?_; clear_value z; revert z; intro _ _; rotate_left; unfold z; clear z; rotate_left) | (extract_lets +onlyGivenNames z; refine (fun (hz : Keeps bb z.1) => ?_) ?_; clear_value z; revert z; intro _ _; rotate_left; unfold z; clear z; rotate_left) | (extract_lets +onlyGivenNames z; refine (fun (hz : Keeps bb z) => ?_) ?_; revert z; intro _ _; rotate_left; unfold z; clear z; rotate_left) | (extract_lets +onlyGivenNames z; revert z; intro _) | (simp only [Keeps.mk_iff]; with_reducible apply Keeps.upd) | with_reducible apply State.disarm_keeps | with_reducible apply State.putRegBit_keeps | with_reducible apply State.setReg_keeps | with_reducible apply assertPwrgd_keeps | with_reducible apply runPowered_keeps | with_reducible apply Keeps.ite | split

theorem execSlowTrip_moves {qm qf : Prop} (dt : Nat) (slot : Nat) (s : State) : Moves ⟨qm, qf, False, False⟩ dt s (execSlowTrip dt slot s) := by
  unfold execSlowTrip
  refine runPowered_moves ?_
  intro bb s hb h_s
  have hqr : ¬ bb.q.regs := by rw [hb]; exact id
  have hqp : ¬ bb.q.phase := by rw [hb]; exact id
  try dsimp -zeta only
  repeat' first | with_reducible assumption | intro _ | (simp only [Keeps.mk_iff]; with_reducible apply Keeps.upd) | with_reducible apply State.onDue_keeps | with_reducible apply runPowered_keeps | with_reducible apply slotTrip_keeps

theorem execFastTrip_moves {qm qf : Prop} (dt : Nat) (slot : Nat) (sense : Nat) (s : State) : Moves ⟨qm, qf, False, False⟩ dt s (execFastTrip dt slot sense s) := by
  unfold execFastTrip
  refine runPowered_moves ?_
  intro bb s hb h_s
  have hqr : ¬ bb.q.regs := by rw [hb]; exact id
  have hqp : ¬ bb.q.phase := by rw [hb]; exact id
  try dsimp -zeta only
  repeat' first | with_reducible assumption | intro _ | with_reducible apply State.setReg_keeps | with_reducible apply runPowered_keeps | with_reducible apply slotTrip_keeps | with_reducible apply Keeps.ite | split

theorem slotCtrlEffect_keeps {bb : Base} (slot : Nat) (value : Nat) (s : State) (h_s : Keeps bb s) (hqr : ¬ bb.q.regs := by assumption) : Keeps bb (slotCtrlEffect slot value s) := by
  unfold slotCtrlEffect
  repeat' first | with_reducible assumption | intro _ | with_reducible apply plainWrite_keeps | with_reducible apply slotFollow_keeps

theorem execSlotCtrlWrite_moves {qm qf : Prop} (dt : Nat) (path : Path) (slot : Nat) (value : Nat) (s : State) : Moves ⟨qm, qf, False, False⟩ dt s (execSlotCtrlWrite dt path slot value s) := by
  unfold execSlotCtrlWrite
  refine run_moves ?_
  intro bb s hb h_s
  have hqr : ¬ bb.q.regs := by rw [hb]; exact id
  have hqp : ¬ bb.q.phase := by rw [hb]; exact id
  try dsimp -zeta only
  repeat' first | with_reducible assumption | intro _ | with_reducible apply run_keeps | with_reducible apply serveWrite_keeps | with_reducible apply slotCtrlEffect_keeps

theorem execCommandedGateOff_moves {qm qf qr qp : Prop} (dt : Nat) (slot : Nat) (s : State) : Moves ⟨qm, qf, qr, qp⟩ dt s (execCommandedGateOff dt slot s) := by
  unfold execCommandedGateOff
  refine runPowered_moves ?_
  intro bb s hb h_s
  try dsimp -zeta only
  repeat' first | with_reducible assumption | intro _ | (simp only [Keeps.mk_iff]; with_reducible apply Keeps.upd) | with_reducible apply State.onDue_keeps | with_reducible apply gateOff_keeps | with_reducible apply runPowered_keeps

theorem execDamageDetect_moves {qm qf : Prop} (dt : Nat) (slot : Nat) (vout : Nat) (s : State) : Moves ⟨qm, qf, False, False⟩ dt s (execDamageDetect dt slot vout s) := by
  unfold execDamageDetect
  refine runPowered_moves ?_
  intro bb s hb h_s
  have hqr : ¬ bb.q.regs := by rw [hb]; exact id
  have hqp : ¬ bb.q.phase := by rw [hb]; exact id
  try dsimp -zeta only
  repeat' first | with_reducible assumption | intro _ | (extract_lets +onlyGivenNames z; refine (fun (hz : Keeps bb z) => ?_) ?_; clear_value z; revert z; intro _ _; rotate_left; unfold z; clear z; rotate_left) | (extract_lets +onlyGivenNames z; refine (fun (hz : Keeps bb z.1) => ?_) ?_; clear_value z; revert z; intro _ _; rotate_left; unfold z; clear z; rotate_left) | (extract_lets +onlyGivenNames z; refine (fun (hz : Keeps bb z) => ?_) ?_; revert z; intro _ _; rotate_left; unfold z; clear z; rotate_left) | (extract_lets +onlyGivenNames z; revert z; intro _) | with_reducible apply State.putRegBit_keeps | with_reducible apply State.setReg_keeps | with_reducible apply raise_keeps | with_reducible apply runPowered_keeps | with_reducible apply Keeps.ite | split

theorem execDamagedClear_moves {qm qf : Prop} (dt : Nat) (path : Path) (slot : Nat) (vout : Nat) (s : State) : Moves ⟨qm, qf, False, False⟩ dt s (execDamagedClear dt path slot vout s) := by
  unfold execDamagedClear
  refine run_moves ?_
  intro bb s hb h_s
  have hqr : ¬ bb.q.regs := by rw [hb]; exact id
  have hqp : ¬ bb.q.phase := by rw [hb]; exact id
  try dsimp -zeta only
  repeat' first | with_reducible assumption | intro _ | (extract_lets +onlyGivenNames z; refine (fun (hz : Keeps bb z) => ?_) ?_; clear_value z; revert z; intro _ _; rotate_left; unfold z; clear z; rotate_left) | (extract_lets +onlyGivenNames z; refine (fun (hz : Keeps bb z.1) => ?_) ?_; clear_value z; revert z; intro _ _; rotate_left; unfold z; clear z; rotate_left) | (extract_lets +onlyGivenNames z; refine (fun (hz : Keeps bb z) => ?_) ?_; revert z; intro _ _; rotate_left; unfold z; clear z; rotate_left) | (extract_lets +onlyGivenNames z; revert z; intro _) | with_reducible apply State.setReg_keeps | with_reducible apply plainWrite_keeps | with_reducible apply run_keeps | with_reducible apply serveWrite_keeps

theorem execResetSlotTurnoff_moves {qm qf qp : Prop} (dt : Nat) (s : State) : Moves ⟨qm, qf, False, qp⟩ dt s (execResetSlotTurnoff dt s) := by
  unfold execResetSlotTurnoff
  refine runAon_moves ?_
  intro bb s hb h_s
  have hqr : ¬ bb.q.regs := by rw [hb]; exact id
  try dsimp -zeta only
  repeat' first | with_reducible assumption | intro _ | (simp only [Keeps.mk_iff]; with_reducible apply Keeps.upd) | with_reducible apply State.arm_keeps | with_reducible apply State.onDue_keeps | with_reducible apply runAon_keeps | with_reducible apply setSlotState_keeps | with_reducible apply slotOff_keeps | with_reducible apply turnOff_keeps | with_reducible apply Keeps.ite | split

theorem execVddAuxLow_moves {qm qf qr : Prop} (dt : Nat) (s : State) : Moves ⟨qm, qf, qr, False⟩ dt s (execVddAuxLow dt s) := by
  unfold execVddAuxLow
  refine runAon_moves ?_
  intro bb s hb h_s
  have hqp : ¬ bb.q.phase := by rw [hb]; exact id
  try dsimp -zeta only
  repeat' first | with_reducible assumption | intro _ | (extract_lets +onlyGivenNames z; refine (fun (hz : Keeps bb z) => ?_) ?_; clear_value z; revert z; intro _ _; rotate_left; unfold z; clear z; rotate_left) | (extract_lets +onlyGivenNames z; refine (fun (hz : Keeps bb z.1) => ?_) ?_; clear_value z; revert z; intro _ _; rotate_left; unfold z; clear z; rotate_left) | (extract_lets +onlyGivenNames z; refine (fun (hz : Keeps bb z) => ?_) ?_; revert z; intro _ _; rotate_left; unfold z; clear z; rotate_left) | (extract_lets +onlyGivenNames z; revert z; intro _) | (simp only [Keeps.mk_iff]; with_reducible apply Keeps.upd) | (simp only [Keeps.mk_iff]; with_reducible apply Keeps.updPhase) | with_reducible apply runAon_keeps

theorem execPowerControllerControl_moves {qm qf qp : Prop} (dt : Nat) (host : Nat) (vppb : Nat) (on : Bool) (s : State) : Moves ⟨qm, qf, False, qp⟩ dt s (execPowerControllerControl dt host vppb on s) := by
  unfold execPowerControllerControl
  refine run_moves ?_
  intro bb s hb h_s
  have hqr : ¬ bb.q.regs := by rw [hb]; exact id
  try dsimp -zeta only
  repeat' first | with_reducible assumption | intro _ | (extract_lets +onlyGivenNames z; refine (fun (hz : Keeps bb z) => ?_) ?_; clear_value z; revert z; intro _ _; rotate_left; unfold z; clear z; rotate_left) | (extract_lets +onlyGivenNames z; refine (fun (hz : Keeps bb z.1) => ?_) ?_; clear_value z; revert z; intro _ _; rotate_left; unfold z; clear z; rotate_left) | (extract_lets +onlyGivenNames z; refine (fun (hz : Keeps bb z) => ?_) ?_; revert z; intro _ _; rotate_left; unfold z; clear z; rotate_left) | (extract_lets +onlyGivenNames z; revert z; intro _) | with_reducible apply Keeps.withState | with_reducible apply Keeps.withSome | with_reducible apply run_keeps | with_reducible apply setHostOn_keeps | with_reducible apply Keeps.ite | split

end Sys2Proof.Machine
end

