-- ==== Sys2Proof/Laws/Keeps/Management.lean ====
section
/-! SUPPORT. Every operation and meaning of Machine/Management.lean keeps what `Keeps` says. -/
set_option linter.all false
set_option Elab.async false
namespace Sys2Proof.Machine

theorem policeKdp_keeps {bb : Base} (s : State) (h_s : Keeps bb s)  : Keeps bb (policeKdp s).1 := by
  unfold policeKdp
  repeat' first | with_reducible assumption | intro _ | (extract_lets +onlyGivenNames z; refine (fun (hz : Keeps bb z) => ?_) ?_; clear_value z; revert z; intro _ _; rotate_left; unfold z; clear z; rotate_left) | (extract_lets +onlyGivenNames z; refine (fun (hz : Keeps bb z.1) => ?_) ?_; clear_value z; revert z; intro _ _; rotate_left; unfold z; clear z; rotate_left) | (extract_lets +onlyGivenNames z; refine (fun (hz : Keeps bb z) => ?_) ?_; revert z; intro _ _; rotate_left; unfold z; clear z; rotate_left) | (extract_lets +onlyGivenNames z; revert z; intro _) | (simp only [Keeps.mk_iff]; with_reducible apply Keeps.upd) | with_reducible apply Keeps.ite | split

theorem policeFrame_keeps {bb : Base} (s : State) (h_s : Keeps bb s)  : Keeps bb (policeFrame s).1 := by
  unfold policeFrame
  repeat' first | with_reducible assumption | intro _ | (extract_lets +onlyGivenNames z; refine (fun (hz : Keeps bb z) => ?_) ?_; clear_value z; revert z; intro _ _; rotate_left; unfold z; clear z; rotate_left) | (extract_lets +onlyGivenNames z; refine (fun (hz : Keeps bb z.1) => ?_) ?_; clear_value z; revert z; intro _ _; rotate_left; unfold z; clear z; rotate_left) | (extract_lets +onlyGivenNames z; refine (fun (hz : Keeps bb z) => ?_) ?_; revert z; intro _ _; rotate_left; unfold z; clear z; rotate_left) | (extract_lets +onlyGivenNames z; revert z; intro _) | (simp only [Keeps.mk_iff]; with_reducible apply Keeps.upd) | with_reducible apply Keeps.ite | split

theorem policedFrame_keeps {bb : Base} (s : State) (f : State → State) (h_s : Keeps bb s) (h_f : ∀ y0, Keeps bb y0 → Keeps bb (f y0)) (hqr : ¬ bb.q.regs := by assumption) : Keeps bb (policedFrame s f) := by
  unfold policedFrame
  repeat' first | with_reducible assumption | intro _ | (extract_lets +onlyGivenNames z; refine (fun (hz : Keeps bb z) => ?_) ?_; clear_value z; revert z; intro _ _; rotate_left; unfold z; clear z; rotate_left) | (extract_lets +onlyGivenNames z; refine (fun (hz : Keeps bb z.1) => ?_) ?_; clear_value z; revert z; intro _ _; rotate_left; unfold z; clear z; rotate_left) | (extract_lets +onlyGivenNames z; refine (fun (hz : Keeps bb z) => ?_) ?_; revert z; intro _ _; rotate_left; unfold z; clear z; rotate_left) | (extract_lets +onlyGivenNames z; revert z; intro _) | with_reducible apply State.count1_keeps | with_reducible apply policeFrame_keeps | with_reducible apply h_f | with_reducible apply Keeps.ite | split

theorem acceptKdp_keeps {bb : Base} (s : State) (ip : Nat) (port : Nat) (bs : List Byte) (h_s : Keeps bb s)  : Keeps bb (acceptKdp s ip port bs) := by
  unfold acceptKdp
  repeat' first | with_reducible assumption | intro _ | (extract_lets +onlyGivenNames z; refine (fun (hz : Keeps bb z) => ?_) ?_; clear_value z; revert z; intro _ _; rotate_left; unfold z; clear z; rotate_left) | (extract_lets +onlyGivenNames z; refine (fun (hz : Keeps bb z.1) => ?_) ?_; clear_value z; revert z; intro _ _; rotate_left; unfold z; clear z; rotate_left) | (extract_lets +onlyGivenNames z; refine (fun (hz : Keeps bb z) => ?_) ?_; revert z; intro _ _; rotate_left; unfold z; clear z; rotate_left) | (extract_lets +onlyGivenNames z; revert z; intro _) | (simp only [Keeps.mk_iff]; with_reducible apply Keeps.upd) | with_reducible apply Keeps.ite | split

theorem kdpChecked_keeps {bb : Base} (s : State) (ip : Nat) (port : Nat) (bs : List Byte) (h_s : Keeps bb s) (hqr : ¬ bb.q.regs := by assumption) : Keeps bb (kdpChecked s ip port bs) := by
  unfold kdpChecked
  repeat' first | with_reducible assumption | intro _ | (extract_lets +onlyGivenNames z; refine (fun (hz : Keeps bb z) => ?_) ?_; clear_value z; revert z; intro _ _; rotate_left; unfold z; clear z; rotate_left) | (extract_lets +onlyGivenNames z; refine (fun (hz : Keeps bb z.1) => ?_) ?_; clear_value z; revert z; intro _ _; rotate_left; unfold z; clear z; rotate_left) | (extract_lets +onlyGivenNames z; refine (fun (hz : Keeps bb z) => ?_) ?_; revert z; intro _ _; rotate_left; unfold z; clear z; rotate_left) | (extract_lets +onlyGivenNames z; revert z; intro _) | with_reducible apply Keeps.withState | with_reducible apply State.count1_keeps | with_reducible apply State.emit_keeps | with_reducible apply Keeps.withSome | with_reducible apply acceptKdp_keeps | with_reducible apply Keeps.ite | split

theorem kdpPoliced_keeps {bb : Base} (r : State × Bool) (ip : Nat) (port : Nat) (bs : List Byte) (h_r : Keeps bb r.1) (hqr : ¬ bb.q.regs := by assumption) : Keeps bb (kdpPoliced r ip port bs) := by
  unfold kdpPoliced
  repeat' first | with_reducible assumption | intro _ | with_reducible apply State.count1_keeps | with_reducible apply kdpChecked_keeps | with_reducible apply Keeps.ite | split

theorem kdpEffect_keeps {bb : Base} (ip : Nat) (port : Nat) (bs : List Byte) (s : State) (h_s : Keeps bb s) (hqr : ¬ bb.q.regs := by assumption) : Keeps bb (kdpEffect ip port bs s) := by
  unfold kdpEffect
  repeat' first | with_reducible assumption | intro _ | with_reducible apply State.count1_keeps | with_reducible apply kdpPoliced_keeps | with_reducible apply policeKdp_keeps | with_reducible apply Keeps.ite | split

theorem execKdpDatagram_moves {qm qf qp : Prop} (dt : Nat) (srcIp : Nat) (srcPort : Nat) (payload : List Byte) (s : State) : Moves ⟨qm, qf, False, qp⟩ dt s (execKdpDatagram dt srcIp srcPort payload s) := by
  unfold execKdpDatagram
  refine run_moves ?_
  intro bb s hb h_s
  have hqr : ¬ bb.q.regs := by rw [hb]; exact id
  repeat' first | with_reducible assumption | intro _ | with_reducible apply kdpEffect_keeps | with_reducible apply run_keeps

theorem execArpFrame_moves {qm qf qp : Prop} (dt : Nat) (senderIp : Nat) (targetIp : Nat) (s : State) : Moves ⟨qm, qf, False, qp⟩ dt s (execArpFrame dt senderIp targetIp s) := by
  unfold execArpFrame
  refine run_moves ?_
  intro bb s hb h_s
  have hqr : ¬ bb.q.regs := by rw [hb]; exact id
  try dsimp -zeta only
  repeat' first | with_reducible assumption | intro _ | with_reducible apply State.emit_keeps | with_reducible apply policedFrame_keeps | with_reducible apply run_keeps | with_reducible apply Keeps.ite | split

theorem execIcmpEcho_moves {qm qf qp : Prop} (dt : Nat) (srcIp : Nat) (dstIp : Nat) (payload : List Byte) (s : State) : Moves ⟨qm, qf, False, qp⟩ dt s (execIcmpEcho dt srcIp dstIp payload s) := by
  unfold execIcmpEcho
  refine run_moves ?_
  intro bb s hb h_s
  have hqr : ¬ bb.q.regs := by rw [hb]; exact id
  try dsimp -zeta only
  repeat' first | with_reducible assumption | intro _ | with_reducible apply State.emit_keeps | with_reducible apply policedFrame_keeps | with_reducible apply run_keeps | with_reducible apply Keeps.ite | split

theorem execEthFrameDrop_moves {qm qf qp : Prop} (dt : Nat) (s : State) : Moves ⟨qm, qf, False, qp⟩ dt s (execEthFrameDrop dt s) := by
  unfold execEthFrameDrop
  refine run_moves ?_
  intro bb s hb h_s
  have hqr : ¬ bb.q.regs := by rw [hb]; exact id
  try dsimp -zeta only
  repeat' first | with_reducible assumption | intro _ | with_reducible apply State.count1_keeps | with_reducible apply run_keeps | with_reducible apply Keeps.ite | split

theorem execLinkLocalAnnounce_moves {qm qf qr qp : Prop} (dt : Nat) (s : State) : Moves ⟨qm, qf, qr, qp⟩ dt s (execLinkLocalAnnounce dt s) := by
  unfold execLinkLocalAnnounce
  refine run_moves ?_
  intro bb s hb h_s
  try dsimp -zeta only
  repeat' first | with_reducible assumption | intro _ | (simp only [Keeps.mk_iff]; with_reducible apply Keeps.upd) | with_reducible apply State.arm_keeps | with_reducible apply State.emit_keeps | with_reducible apply run_keeps | with_reducible apply Keeps.ite | split

theorem execMctpMessage_moves {qm qf qp : Prop} (dt : Nat) (body : List Byte) (s : State) : Moves ⟨qm, qf, False, qp⟩ dt s (execMctpMessage dt body s) := by
  unfold execMctpMessage
  refine run_moves ?_
  intro bb s hb h_s
  have hqr : ¬ bb.q.regs := by rw [hb]; exact id
  try dsimp -zeta only
  repeat' first | with_reducible assumption | intro _ | (extract_lets +onlyGivenNames z; refine (fun (hz : Keeps bb z) => ?_) ?_; clear_value z; revert z; intro _ _; rotate_left; unfold z; clear z; rotate_left) | (extract_lets +onlyGivenNames z; refine (fun (hz : Keeps bb z.1) => ?_) ?_; clear_value z; revert z; intro _ _; rotate_left; unfold z; clear z; rotate_left) | (extract_lets +onlyGivenNames z; refine (fun (hz : Keeps bb z) => ?_) ?_; revert z; intro _ _; rotate_left; unfold z; clear z; rotate_left) | (extract_lets +onlyGivenNames z; revert z; intro _) | (simp only [Keeps.mk_iff]; with_reducible apply Keeps.upd) | with_reducible apply State.count1_keeps | with_reducible apply run_keeps | with_reducible apply Keeps.ite | split

theorem execI3cAddressAssign_moves {qm qf qr qp : Prop} (dt : Nat) (addr : Nat) (s : State) : Moves ⟨qm, qf, qr, qp⟩ dt s (execI3cAddressAssign dt addr s) := by
  unfold execI3cAddressAssign
  refine run_moves ?_
  intro bb s hb h_s
  try dsimp -zeta only
  repeat' first | with_reducible assumption | intro _ | (extract_lets +onlyGivenNames z; refine (fun (hz : Keeps bb z) => ?_) ?_; clear_value z; revert z; intro _ _; rotate_left; unfold z; clear z; rotate_left) | (extract_lets +onlyGivenNames z; refine (fun (hz : Keeps bb z.1) => ?_) ?_; clear_value z; revert z; intro _ _; rotate_left; unfold z; clear z; rotate_left) | (extract_lets +onlyGivenNames z; refine (fun (hz : Keeps bb z) => ?_) ?_; revert z; intro _ _; rotate_left; unfold z; clear z; rotate_left) | (extract_lets +onlyGivenNames z; revert z; intro _) | (simp only [Keeps.mk_iff]; with_reducible apply Keeps.upd) | with_reducible apply run_keeps

theorem execSetEndpointId_moves {qm qf qr qp : Prop} (dt : Nat) (eid : Nat) (s : State) : Moves ⟨qm, qf, qr, qp⟩ dt s (execSetEndpointId dt eid s) := by
  unfold execSetEndpointId
  refine run_moves ?_
  intro bb s hb h_s
  try dsimp -zeta only
  repeat' first | with_reducible assumption | intro _ | (extract_lets +onlyGivenNames z; refine (fun (hz : Keeps bb z) => ?_) ?_; clear_value z; revert z; intro _ _; rotate_left; unfold z; clear z; rotate_left) | (extract_lets +onlyGivenNames z; refine (fun (hz : Keeps bb z.1) => ?_) ?_; clear_value z; revert z; intro _ _; rotate_left; unfold z; clear z; rotate_left) | (extract_lets +onlyGivenNames z; refine (fun (hz : Keeps bb z) => ?_) ?_; revert z; intro _ _; rotate_left; unfold z; clear z; rotate_left) | (extract_lets +onlyGivenNames z; revert z; intro _) | (simp only [Keeps.mk_iff]; with_reducible apply Keeps.upd) | with_reducible apply State.emit_keeps | with_reducible apply run_keeps | with_reducible apply Keeps.ite | split

theorem execGetEndpointId_moves {qm qf qr qp : Prop} (dt : Nat) (s : State) : Moves ⟨qm, qf, qr, qp⟩ dt s (execGetEndpointId dt s) := by
  unfold execGetEndpointId
  refine run_moves ?_
  intro bb s hb h_s
  try dsimp -zeta only
  repeat' first | with_reducible assumption | intro _ | with_reducible apply State.emit_keeps | with_reducible apply run_keeps | with_reducible apply Keeps.ite | split

theorem execGetMctpVersionSupport_moves {qm qf qr qp : Prop} (dt : Nat) (msgType : Nat) (s : State) : Moves ⟨qm, qf, qr, qp⟩ dt s (execGetMctpVersionSupport dt msgType s) := by
  unfold execGetMctpVersionSupport
  refine run_moves ?_
  intro bb s hb h_s
  try dsimp -zeta only
  repeat' first | with_reducible assumption | intro _ | with_reducible apply State.emit_keeps | with_reducible apply State.useFree_keeps | with_reducible apply run_keeps | with_reducible apply Keeps.ite | split

theorem execGetMessageTypeSupport_moves {qm qf qr qp : Prop} (dt : Nat) (s : State) : Moves ⟨qm, qf, qr, qp⟩ dt s (execGetMessageTypeSupport dt s) := by
  unfold execGetMessageTypeSupport
  refine run_moves ?_
  intro bb s hb h_s
  try dsimp -zeta only
  repeat' first | with_reducible assumption | intro _ | with_reducible apply State.emit_keeps | with_reducible apply run_keeps | with_reducible apply Keeps.ite | split

theorem execGetVendorDefinedMessageSupport_moves {qm qf qr qp : Prop} (dt : Nat) (selector : Nat) (s : State) : Moves ⟨qm, qf, qr, qp⟩ dt s (execGetVendorDefinedMessageSupport dt selector s) := by
  unfold execGetVendorDefinedMessageSupport
  refine run_moves ?_
  intro bb s hb h_s
  try dsimp -zeta only
  repeat' first | with_reducible assumption | intro _ | with_reducible apply State.emit_keeps | with_reducible apply State.useFree_keeps | with_reducible apply run_keeps | with_reducible apply Keeps.ite | split

theorem execDictionaryAccess_moves {qm qf qp : Prop} (dt : Nat) (port : Nat) (payload : List Byte) (s : State) : Moves ⟨qm, qf, False, qp⟩ dt s (execDictionaryAccess dt port payload s) := by
  unfold execDictionaryAccess
  refine run_moves ?_
  intro bb s hb h_s
  have hqr : ¬ bb.q.regs := by rw [hb]; exact id
  try dsimp -zeta only
  repeat' first | with_reducible assumption | intro _ | (extract_lets +onlyGivenNames z; refine (fun (hz : Keeps bb z) => ?_) ?_; clear_value z; revert z; intro _ _; rotate_left; unfold z; clear z; rotate_left) | (extract_lets +onlyGivenNames z; refine (fun (hz : Keeps bb z.1) => ?_) ?_; clear_value z; revert z; intro _ _; rotate_left; unfold z; clear z; rotate_left) | (extract_lets +onlyGivenNames z; refine (fun (hz : Keeps bb z) => ?_) ?_; revert z; intro _ _; rotate_left; unfold z; clear z; rotate_left) | (extract_lets +onlyGivenNames z; revert z; intro _) | (simp only [Keeps.mk_iff]; with_reducible apply Keeps.upd) | with_reducible apply State.count1_keeps | with_reducible apply State.emit_keeps | with_reducible apply run_keeps | with_reducible apply Keeps.ite | split

theorem dropHead_keeps {bb : Base} (s : State) (n : Nat) (h_s : Keeps bb s)  : Keeps bb (dropHead s n) := by
  unfold dropHead
  repeat' first | with_reducible assumption | intro _ | (extract_lets +onlyGivenNames z; refine (fun (hz : Keeps bb z) => ?_) ?_; clear_value z; revert z; intro _ _; rotate_left; unfold z; clear z; rotate_left) | (extract_lets +onlyGivenNames z; refine (fun (hz : Keeps bb z.1) => ?_) ?_; clear_value z; revert z; intro _ _; rotate_left; unfold z; clear z; rotate_left) | (extract_lets +onlyGivenNames z; refine (fun (hz : Keeps bb z) => ?_) ?_; revert z; intro _ _; rotate_left; unfold z; clear z; rotate_left) | (extract_lets +onlyGivenNames z; revert z; intro _) | (simp only [Keeps.mk_iff]; with_reducible apply Keeps.upd) | split

theorem dropMisdirected_keeps {bb : Base} (s : State) (path : Path) (h_s : Keeps bb s) (hqr : ¬ bb.q.regs := by assumption) : Keeps bb (dropMisdirected s path) := by
  unfold dropMisdirected
  repeat' first | with_reducible assumption | intro _ | (extract_lets +onlyGivenNames z; refine (fun (hz : Keeps bb z) => ?_) ?_; clear_value z; revert z; intro _ _; rotate_left; unfold z; clear z; rotate_left) | (extract_lets +onlyGivenNames z; refine (fun (hz : Keeps bb z.1) => ?_) ?_; clear_value z; revert z; intro _ _; rotate_left; unfold z; clear z; rotate_left) | (extract_lets +onlyGivenNames z; refine (fun (hz : Keeps bb z) => ?_) ?_; revert z; intro _ _; rotate_left; unfold z; clear z; rotate_left) | (extract_lets +onlyGivenNames z; revert z; intro _) | with_reducible apply State.count1_keeps | with_reducible apply State.emit_keeps | split

theorem serveMessage_keeps {bb : Base} (s : State) (m : QMsg) (h_s : Keeps bb s) (hqr : ¬ bb.q.regs := by assumption) (hqp : ¬ bb.q.phase := by assumption) : Keeps bb (serveMessage s m) := by
  unfold serveMessage
  repeat' first | with_reducible assumption | intro _ | (extract_lets +onlyGivenNames z; refine (fun (hz : Keeps bb z) => ?_) ?_; clear_value z; revert z; intro _ _; rotate_left; unfold z; clear z; rotate_left) | (extract_lets +onlyGivenNames z; refine (fun (hz : Keeps bb z.1) => ?_) ?_; clear_value z; revert z; intro _ _; rotate_left; unfold z; clear z; rotate_left) | (extract_lets +onlyGivenNames z; refine (fun (hz : Keeps bb z) => ?_) ?_; revert z; intro _ _; rotate_left; unfold z; clear z; rotate_left) | (extract_lets +onlyGivenNames z; revert z; intro _) | (simp only [Keeps.mk_iff]; with_reducible apply Keeps.upd) | with_reducible apply State.count_keeps | with_reducible apply continueSvc_keeps | with_reducible apply dropMisdirected_keeps | with_reducible apply Keeps.ite | split

theorem execTakeMessage_moves {qm qf : Prop} (dt : Nat) (s : State) : Moves ⟨qm, qf, False, False⟩ dt s (execTakeMessage dt s) := by
  unfold execTakeMessage
  refine run_moves ?_
  intro bb s hb h_s
  have hqr : ¬ bb.q.regs := by rw [hb]; exact id
  have hqp : ¬ bb.q.phase := by rw [hb]; exact id
  try dsimp -zeta only
  repeat' first | with_reducible assumption | intro _ | with_reducible apply Keeps.withState | with_reducible apply Keeps.withSome | with_reducible apply dropHead_keeps | with_reducible apply run_keeps | with_reducible apply serveMessage_keeps | with_reducible apply Keeps.ite | split

theorem execDescribe_moves {qm qf : Prop} (dt : Nat) (path : Path) (r : Rec) (s : State) : Moves ⟨qm, qf, False, False⟩ dt s (execDescribe dt path r s) := by
  unfold execDescribe
  refine run_moves ?_
  intro bb s hb h_s
  have hqr : ¬ bb.q.regs := by rw [hb]; exact id
  have hqp : ¬ bb.q.phase := by rw [hb]; exact id
  try dsimp -zeta only
  repeat' first | with_reducible assumption | intro _ | (extract_lets +onlyGivenNames z; refine (fun (hz : Keeps bb z) => ?_) ?_; clear_value z; revert z; intro _ _; rotate_left; unfold z; clear z; rotate_left) | (extract_lets +onlyGivenNames z; refine (fun (hz : Keeps bb z.1) => ?_) ?_; clear_value z; revert z; intro _ _; rotate_left; unfold z; clear z; rotate_left) | (extract_lets +onlyGivenNames z; refine (fun (hz : Keeps bb z) => ?_) ?_; revert z; intro _ _; rotate_left; unfold z; clear z; rotate_left) | (extract_lets +onlyGivenNames z; revert z; intro _) | with_reducible apply answer_keeps | with_reducible apply run_keeps | with_reducible apply Keeps.ite | split

theorem discardStaged_keeps {bb : Base} (s : State) (h_s : Keeps bb s) (hqr : ¬ bb.q.regs := by assumption) : Keeps bb (discardStaged s) := by
  unfold discardStaged
  repeat' first | with_reducible assumption | intro _ | (extract_lets +onlyGivenNames z; refine (fun (hz : Keeps bb z) => ?_) ?_; clear_value z; revert z; intro _ _; rotate_left; unfold z; clear z; rotate_left) | (extract_lets +onlyGivenNames z; refine (fun (hz : Keeps bb z.1) => ?_) ?_; clear_value z; revert z; intro _ _; rotate_left; unfold z; clear z; rotate_left) | (extract_lets +onlyGivenNames z; refine (fun (hz : Keeps bb z) => ?_) ?_; revert z; intro _ _; rotate_left; unfold z; clear z; rotate_left) | (extract_lets +onlyGivenNames z; revert z; intro _) | (simp only [Keeps.mk_iff]; with_reducible apply Keeps.upd) | with_reducible apply State.setReg_keeps

theorem execDiscard_moves {qm qf : Prop} (dt : Nat) (path : Path) (s : State) : Moves ⟨qm, qf, False, False⟩ dt s (execDiscard dt path s) := by
  unfold execDiscard
  refine run_moves ?_
  intro bb s hb h_s
  have hqr : ¬ bb.q.regs := by rw [hb]; exact id
  have hqp : ¬ bb.q.phase := by rw [hb]; exact id
  try dsimp -zeta only
  repeat' first | with_reducible assumption | intro _ | with_reducible apply discardStaged_keeps | with_reducible apply run_keeps | with_reducible apply serveWrite_keeps

theorem recoveryEffect_keeps {bb : Base} (s : State) (a : Nat) (v : Nat) (h_s : Keeps bb s) (hqr : ¬ bb.q.regs := by assumption) : Keeps bb (recoveryEffect s a v) := by
  unfold recoveryEffect
  repeat' first | with_reducible assumption | intro _ | with_reducible apply plainWrite_keeps | with_reducible apply unstage_keeps | with_reducible apply Keeps.ite | split

theorem execRecoveryWriteResume_moves {qm qf : Prop} (dt : Nat) (s : State) : Moves ⟨qm, qf, False, False⟩ dt s (execRecoveryWriteResume dt s) := by
  unfold execRecoveryWriteResume
  refine run_moves ?_
  intro bb s hb h_s
  have hqr : ¬ bb.q.regs := by rw [hb]; exact id
  have hqp : ¬ bb.q.phase := by rw [hb]; exact id
  try dsimp -zeta only
  repeat' first | with_reducible assumption | intro _ | (extract_lets +onlyGivenNames z; refine (fun (hz : Keeps bb z) => ?_) ?_; clear_value z; revert z; intro _ _; rotate_left; unfold z; clear z; rotate_left) | (extract_lets +onlyGivenNames z; refine (fun (hz : Keeps bb z.1) => ?_) ?_; clear_value z; revert z; intro _ _; rotate_left; unfold z; clear z; rotate_left) | (extract_lets +onlyGivenNames z; refine (fun (hz : Keeps bb z) => ?_) ?_; revert z; intro _ _; rotate_left; unfold z; clear z; rotate_left) | (extract_lets +onlyGivenNames z; revert z; intro _) | (simp only [Keeps.mk_iff]; with_reducible apply Keeps.upd) | with_reducible apply State.emit_keeps | with_reducible apply beginChipReset_keeps | with_reducible apply recordWriter_keeps | with_reducible apply recoveryEffect_keeps | with_reducible apply resumeSvc_keeps | with_reducible apply run_keeps | with_reducible apply Keeps.ite | split

end Sys2Proof.Machine
end

