-- ==== Sys2Proof/Laws/Keeps/Tenancy.lean ====
section
/-! SUPPORT. Every operation and meaning of Machine/Tenancy.lean keeps what `Keeps` says. -/
set_option linter.all false
set_option Elab.async false
namespace Sys2Proof.Machine

theorem execTenancyReset_moves {qm qf : Prop} (dt : Nat) (path : Path) (value : Nat) (s : State) : Moves ⟨qm, qf, False, False⟩ dt s (execTenancyReset dt path value s) := by
  unfold execTenancyReset
  refine run_moves ?_
  intro bb s hb h_s
  have hqr : ¬ bb.q.regs := by rw [hb]; exact id
  have hqp : ¬ bb.q.phase := by rw [hb]; exact id
  try dsimp -zeta only
  repeat' first | with_reducible assumption | intro _ | with_reducible apply run_keeps | with_reducible apply serveWrite_keeps | with_reducible apply triggerReset_keeps

theorem endTransactions_keeps {bb : Base} (s : State) (t : Nat) (h_s : Keeps bb s) (hqr : ¬ bb.q.regs := by assumption) : Keeps bb (endTransactions s t) := by
  unfold endTransactions
  repeat' first | with_reducible assumption | intro _ | with_reducible apply State.count1_keeps | with_reducible apply abandonTxn_keeps | with_reducible apply Keeps.forEach

theorem countStale_keeps {bb : Base} (s : State) (t : Nat) (full : Bool) (h_s : Keeps bb s) (hqr : ¬ bb.q.regs := by assumption) : Keeps bb (countStale s t full) := by
  unfold countStale
  repeat' first | with_reducible assumption | intro _ | with_reducible apply State.count1_keeps | with_reducible apply Keeps.ite | split

theorem emptyBoxes_keeps {bb : Base} (s : State) (t : Nat) (h_s : Keeps bb s) (hqm : ¬ bb.q.mem := by assumption) (hqr : ¬ bb.q.regs := by assumption) (hqp : ¬ bb.q.phase := by assumption) : Keeps bb (emptyBoxes s t) := by
  unfold emptyBoxes
  repeat' first | with_reducible assumption | intro _ | (extract_lets +onlyGivenNames z; refine (fun (hz : Keeps bb z) => ?_) ?_; clear_value z; revert z; intro _ _; rotate_left; unfold z; clear z; rotate_left) | (extract_lets +onlyGivenNames z; refine (fun (hz : Keeps bb z.1) => ?_) ?_; clear_value z; revert z; intro _ _; rotate_left; unfold z; clear z; rotate_left) | (extract_lets +onlyGivenNames z; refine (fun (hz : Keeps bb z) => ?_) ?_; revert z; intro _ _; rotate_left; unfold z; clear z; rotate_left) | (extract_lets +onlyGivenNames z; revert z; intro _) | (simp only [Keeps.mk_iff]; with_reducible apply Keeps.upd) | with_reducible apply State.setPair_keeps | with_reducible apply State.setReg_keeps | with_reducible apply dropHeld_keeps | with_reducible apply setBoxWord_keeps | with_reducible apply zeroBox_keeps

theorem resetBoxes_keeps {bb : Base} (s : State) (t : Nat) (h_s : Keeps bb s) (hqm : ¬ bb.q.mem := by assumption) (hqr : ¬ bb.q.regs := by assumption) (hqp : ¬ bb.q.phase := by assumption) : Keeps bb (resetBoxes s t) := by
  unfold resetBoxes
  repeat' first | with_reducible assumption | intro _ | (extract_lets +onlyGivenNames z; refine (fun (hz : Keeps bb z) => ?_) ?_; clear_value z; revert z; intro _ _; rotate_left; unfold z; clear z; rotate_left) | (extract_lets +onlyGivenNames z; refine (fun (hz : Keeps bb z.1) => ?_) ?_; clear_value z; revert z; intro _ _; rotate_left; unfold z; clear z; rotate_left) | (extract_lets +onlyGivenNames z; refine (fun (hz : Keeps bb z) => ?_) ?_; revert z; intro _ _; rotate_left; unfold z; clear z; rotate_left) | (extract_lets +onlyGivenNames z; revert z; intro _) | with_reducible apply State.putRegBit_keeps | with_reducible apply countStale_keeps | with_reducible apply emptyBoxes_keeps

theorem resetSequence_keeps {bb : Base} (s : State) (t : Nat) (h_s : Keeps bb s) (hqm : ¬ bb.q.mem := by assumption) (hqr : ¬ bb.q.regs := by assumption) (hqp : ¬ bb.q.phase := by assumption) : Keeps bb (resetSequence s t) := by
  unfold resetSequence
  repeat' first | with_reducible assumption | intro _ | (extract_lets +onlyGivenNames z; refine (fun (hz : Keeps bb z) => ?_) ?_; clear_value z; revert z; intro _ _; rotate_left; unfold z; clear z; rotate_left) | (extract_lets +onlyGivenNames z; refine (fun (hz : Keeps bb z.1) => ?_) ?_; clear_value z; revert z; intro _ _; rotate_left; unfold z; clear z; rotate_left) | (extract_lets +onlyGivenNames z; refine (fun (hz : Keeps bb z) => ?_) ?_; revert z; intro _ _; rotate_left; unfold z; clear z; rotate_left) | (extract_lets +onlyGivenNames z; revert z; intro _) | (simp only [Keeps.mk_iff]; with_reducible apply Keeps.upd) | with_reducible apply bumpGen_keeps | with_reducible apply closeNotice_keeps | with_reducible apply endTransactions_keeps | with_reducible apply resetBoxes_keeps | with_reducible apply resetChannel_keeps

theorem execTenancyResetStart_moves {qf : Prop} (dt : Nat) (tenancy : Nat) (s : State) : Moves ⟨False, qf, False, False⟩ dt s (execTenancyResetStart dt tenancy s) := by
  unfold execTenancyResetStart
  refine run_moves ?_
  intro bb s hb h_s
  have hqm : ¬ bb.q.mem := by rw [hb]; exact id
  have hqr : ¬ bb.q.regs := by rw [hb]; exact id
  have hqp : ¬ bb.q.phase := by rw [hb]; exact id
  try dsimp -zeta only
  repeat' first | with_reducible assumption | intro _ | (simp only [Keeps.mk_iff]; with_reducible apply Keeps.upd) | with_reducible apply State.onDue_keeps | with_reducible apply resetSequence_keeps | with_reducible apply run_keeps | with_reducible apply Keeps.ite | split

theorem dropRanges_keeps {bb : Base} (s : State) (t : Nat) (h_s : Keeps bb s) (hqr : ¬ bb.q.regs := by assumption) : Keeps bb (dropRanges s t) := by
  unfold dropRanges
  repeat' first | with_reducible assumption | intro _ | with_reducible apply State.putRegBit_keeps | with_reducible apply Keeps.forEach

theorem createTenancy_keeps {bb : Base} (s : State) (t : Nat) (h_s : Keeps bb s) (hqm : ¬ bb.q.mem := by assumption) (hqr : ¬ bb.q.regs := by assumption) (hqp : ¬ bb.q.phase := by assumption) : Keeps bb (createTenancy s t) := by
  unfold createTenancy
  repeat' first | with_reducible assumption | intro _ | (extract_lets +onlyGivenNames z; refine (fun (hz : Keeps bb z) => ?_) ?_; clear_value z; revert z; intro _ _; rotate_left; unfold z; clear z; rotate_left) | (extract_lets +onlyGivenNames z; refine (fun (hz : Keeps bb z.1) => ?_) ?_; clear_value z; revert z; intro _ _; rotate_left; unfold z; clear z; rotate_left) | (extract_lets +onlyGivenNames z; refine (fun (hz : Keeps bb z) => ?_) ?_; revert z; intro _ _; rotate_left; unfold z; clear z; rotate_left) | (extract_lets +onlyGivenNames z; revert z; intro _) | with_reducible apply State.setPair_keeps | with_reducible apply bumpGen_keeps | with_reducible apply dropHeld_keeps | with_reducible apply emptyBoxes_keeps | with_reducible apply setTenState_keeps

theorem execTenancyResetEnd_moves {qf : Prop} (dt : Nat) (tenancy : Nat) (s : State) : Moves ⟨False, qf, False, False⟩ dt s (execTenancyResetEnd dt tenancy s) := by
  unfold execTenancyResetEnd
  refine run_moves ?_
  intro bb s hb h_s
  have hqm : ¬ bb.q.mem := by rw [hb]; exact id
  have hqr : ¬ bb.q.regs := by rw [hb]; exact id
  have hqp : ¬ bb.q.phase := by rw [hb]; exact id
  try dsimp -zeta only
  repeat' first | with_reducible assumption | intro _ | (extract_lets +onlyGivenNames z; refine (fun (hz : Keeps bb z) => ?_) ?_; clear_value z; revert z; intro _ _; rotate_left; unfold z; clear z; rotate_left) | (extract_lets +onlyGivenNames z; refine (fun (hz : Keeps bb z.1) => ?_) ?_; clear_value z; revert z; intro _ _; rotate_left; unfold z; clear z; rotate_left) | (extract_lets +onlyGivenNames z; refine (fun (hz : Keeps bb z) => ?_) ?_; revert z; intro _ _; rotate_left; unfold z; clear z; rotate_left) | (extract_lets +onlyGivenNames z; revert z; intro _) | (simp only [Keeps.mk_iff]; with_reducible apply Keeps.upd) | with_reducible apply createTenancy_keeps | with_reducible apply dropRanges_keeps | with_reducible apply run_keeps | with_reducible apply setIrq_keeps | with_reducible apply setTenState_keeps | with_reducible apply Keeps.ite | split

theorem zeroRange_keeps {base : Base} (s : State) (a n : Nat) (h_s : Keeps base s) (hqm : ¬ base.q.mem := by assumption) : Keeps base (zeroRange s a n) :=
  (cleanLines_keeps s (a / 64) (linesOf a n) h_s).filterMem _ rfl rfl rfl rfl rfl rfl rfl rfl rfl rfl rfl

theorem execDlogClearDone_moves {qf : Prop} (dt : Nat) (range : Nat) (s : State) : Moves ⟨False, qf, False, False⟩ dt s (execDlogClearDone dt range s) := by
  unfold execDlogClearDone
  refine run_moves ?_
  intro bb s hb h_s
  have hqm : ¬ bb.q.mem := by rw [hb]; exact id
  have hqr : ¬ bb.q.regs := by rw [hb]; exact id
  have hqp : ¬ bb.q.phase := by rw [hb]; exact id
  try dsimp -zeta only
  repeat' first | with_reducible assumption | intro _ | (extract_lets +onlyGivenNames z; refine (fun (hz : Keeps bb z) => ?_) ?_; clear_value z; revert z; intro _ _; rotate_left; unfold z; clear z; rotate_left) | (extract_lets +onlyGivenNames z; refine (fun (hz : Keeps bb z.1) => ?_) ?_; clear_value z; revert z; intro _ _; rotate_left; unfold z; clear z; rotate_left) | (extract_lets +onlyGivenNames z; refine (fun (hz : Keeps bb z) => ?_) ?_; revert z; intro _ _; rotate_left; unfold z; clear z; rotate_left) | (extract_lets +onlyGivenNames z; revert z; intro _) | with_reducible apply State.putRegBit_keeps | with_reducible apply foldDirty_keeps | with_reducible apply run_keeps | with_reducible apply zeroRange_keeps | with_reducible apply Keeps.ite | split

theorem takeEffect_keeps {bb : Base} (s : State) (h_s : Keeps bb s) (hqm : ¬ bb.q.mem := by assumption) (hqr : ¬ bb.q.regs := by assumption) (hqp : ¬ bb.q.phase := by assumption) : Keeps bb (takeEffect s) := by
  unfold takeEffect
  repeat' first | with_reducible assumption | intro _ | (extract_lets +onlyGivenNames z; refine (fun (hz : Keeps bb z) => ?_) ?_; clear_value z; revert z; intro _ _; rotate_left; unfold z; clear z; rotate_left) | (extract_lets +onlyGivenNames z; refine (fun (hz : Keeps bb z.1) => ?_) ?_; clear_value z; revert z; intro _ _; rotate_left; unfold z; clear z; rotate_left) | (extract_lets +onlyGivenNames z; refine (fun (hz : Keeps bb z) => ?_) ?_; revert z; intro _ _; rotate_left; unfold z; clear z; rotate_left) | (extract_lets +onlyGivenNames z; revert z; intro _) | with_reducible apply State.putRegBit_keeps | with_reducible apply State.setRegBits_keeps | with_reducible apply State.sysRead_keeps | with_reducible apply State.sysWrite_keeps | with_reducible apply Keeps.ite | split

theorem serveTake_keeps {bb : Base} (s : State) (path : Path) (op : RecOp) (r : Rec) (h_s : Keeps bb s) (hqm : ¬ bb.q.mem := by assumption) (hqr : ¬ bb.q.regs := by assumption) (hqp : ¬ bb.q.phase := by assumption) : Keeps bb (serveTake s path op r) := by
  unfold serveTake
  repeat' first | with_reducible assumption | intro _ | with_reducible apply Keeps.ofId | with_reducible apply foldDirty_keeps | with_reducible apply serveRead_keeps | with_reducible apply takeEffect_keeps | with_reducible apply Keeps.ite | split

theorem execDlogTake_moves {qf : Prop} (dt : Nat) (path : Path) (s : State) : Moves ⟨False, qf, False, False⟩ dt s (execDlogTake dt path s) := by
  unfold execDlogTake
  refine run_moves ?_
  intro bb s hb h_s
  have hqm : ¬ bb.q.mem := by rw [hb]; exact id
  have hqr : ¬ bb.q.regs := by rw [hb]; exact id
  have hqp : ¬ bb.q.phase := by rw [hb]; exact id
  try dsimp -zeta only
  repeat' first | with_reducible assumption | intro _ | with_reducible apply run_keeps | with_reducible apply serveTake_keeps

theorem mailboxWindow_keeps {bb : Base} (s : State) (port : Nat) (f : Nat → State) (h_s : Keeps bb s) (h_f : ∀ y0, Keeps bb (f y0))  : Keeps bb (mailboxWindow s port f) := by
  unfold mailboxWindow
  repeat' first | with_reducible assumption | intro _ | with_reducible apply State.emit_keeps | with_reducible apply h_f | with_reducible apply Keeps.ite | split

theorem countRejected_keeps {bb : Base} (s : State) (t : Nat) (h_s : Keeps bb s) (hqr : ¬ bb.q.regs := by assumption) : Keeps bb (countRejected s t) := by
  unfold countRejected
  repeat' first | with_reducible assumption | intro _ | with_reducible apply State.count1_keeps | with_reducible apply Keeps.ite | split

theorem writeOut_keeps {bb : Base} (s : State) (a : WindowWrite) (t : Nat) (h_s : Keeps bb s) (hqm : ¬ bb.q.mem := by assumption) (hqr : ¬ bb.q.regs := by assumption) (hqp : ¬ bb.q.phase := by assumption) : Keeps bb (writeOut s a t) := by
  unfold writeOut
  repeat' first | with_reducible assumption | intro _ | with_reducible apply State.emit_keeps | with_reducible apply State.sysWrite_keeps | with_reducible apply countRejected_keeps | with_reducible apply Keeps.ite | split

theorem execOutDataWrite_moves {qf : Prop} (dt : Nat) (a : WindowWrite) (s : State) : Moves ⟨False, qf, False, False⟩ dt s (execOutDataWrite dt a s) := by
  unfold execOutDataWrite
  refine run_moves ?_
  intro bb s hb h_s
  have hqm : ¬ bb.q.mem := by rw [hb]; exact id
  have hqr : ¬ bb.q.regs := by rw [hb]; exact id
  have hqp : ¬ bb.q.phase := by rw [hb]; exact id
  try dsimp -zeta only
  repeat' first | with_reducible assumption | intro _ | with_reducible apply mailboxWindow_keeps | with_reducible apply run_keeps | with_reducible apply writeOut_keeps | with_reducible apply Keeps.ite | split

theorem ringOut_keeps {bb : Base} (s : State) (t : Nat) (port : Nat) (v : Nat) (h_s : Keeps bb s) (hqr : ¬ bb.q.regs := by assumption) (hqp : ¬ bb.q.phase := by assumption) : Keeps bb (ringOut s t port v) := by
  unfold ringOut
  repeat' first | with_reducible assumption | intro _ | (extract_lets +onlyGivenNames z; refine (fun (hz : Keeps bb z) => ?_) ?_; clear_value z; revert z; intro _ _; rotate_left; unfold z; clear z; rotate_left) | (extract_lets +onlyGivenNames z; refine (fun (hz : Keeps bb z.1) => ?_) ?_; clear_value z; revert z; intro _ _; rotate_left; unfold z; clear z; rotate_left) | (extract_lets +onlyGivenNames z; refine (fun (hz : Keeps bb z) => ?_) ?_; revert z; intro _ _; rotate_left; unfold z; clear z; rotate_left) | (extract_lets +onlyGivenNames z; revert z; intro _) | (simp only [Keeps.mk_iff]; with_reducible apply Keeps.upd) | with_reducible apply setBoxWord_keeps | with_reducible apply summarySet_keeps | with_reducible apply Keeps.ite | split

theorem writeDoorbell_keeps {bb : Base} (s : State) (a : WindowWrite) (t : Nat) (h_s : Keeps bb s) (hqr : ¬ bb.q.regs := by assumption) (hqp : ¬ bb.q.phase := by assumption) : Keeps bb (writeDoorbell s a t) := by
  unfold writeDoorbell
  repeat' first | with_reducible assumption | intro _ | with_reducible apply State.emit_keeps | with_reducible apply countRejected_keeps | with_reducible apply ringOut_keeps | with_reducible apply Keeps.ite | split

theorem execOutDoorbell_moves {qm qf : Prop} (dt : Nat) (a : WindowWrite) (s : State) : Moves ⟨qm, qf, False, False⟩ dt s (execOutDoorbell dt a s) := by
  unfold execOutDoorbell
  refine run_moves ?_
  intro bb s hb h_s
  have hqr : ¬ bb.q.regs := by rw [hb]; exact id
  have hqp : ¬ bb.q.phase := by rw [hb]; exact id
  try dsimp -zeta only
  repeat' first | with_reducible assumption | intro _ | with_reducible apply mailboxWindow_keeps | with_reducible apply run_keeps | with_reducible apply writeDoorbell_keeps | with_reducible apply Keeps.ite | split

theorem takeIn_keeps {bb : Base} (s : State) (t : Nat) (h_s : Keeps bb s) (hqm : ¬ bb.q.mem := by assumption) (hqr : ¬ bb.q.regs := by assumption) (hqp : ¬ bb.q.phase := by assumption) : Keeps bb (takeIn s t) := by
  unfold takeIn
  repeat' first | with_reducible assumption | intro _ | (extract_lets +onlyGivenNames z; refine (fun (hz : Keeps bb z) => ?_) ?_; clear_value z; revert z; intro _ _; rotate_left; unfold z; clear z; rotate_left) | (extract_lets +onlyGivenNames z; refine (fun (hz : Keeps bb z.1) => ?_) ?_; clear_value z; revert z; intro _ _; rotate_left; unfold z; clear z; rotate_left) | (extract_lets +onlyGivenNames z; refine (fun (hz : Keeps bb z) => ?_) ?_; revert z; intro _ _; rotate_left; unfold z; clear z; rotate_left) | (extract_lets +onlyGivenNames z; revert z; intro _) | (simp only [Keeps.mk_iff]; with_reducible apply Keeps.upd) | with_reducible apply State.setPair_keeps | with_reducible apply setBoxWord_keeps | with_reducible apply summarySet_keeps | with_reducible apply zeroBox_keeps | with_reducible apply Keeps.ite | split

theorem writeTakeReg_keeps {bb : Base} (s : State) (a : WindowWrite) (t : Nat) (h_s : Keeps bb s) (hqm : ¬ bb.q.mem := by assumption) (hqr : ¬ bb.q.regs := by assumption) (hqp : ¬ bb.q.phase := by assumption) : Keeps bb (writeTakeReg s a t) := by
  unfold writeTakeReg
  repeat' first | with_reducible assumption | intro _ | with_reducible apply State.emit_keeps | with_reducible apply takeIn_keeps | with_reducible apply Keeps.ite | split

theorem execInTake_moves {qf : Prop} (dt : Nat) (a : WindowWrite) (s : State) : Moves ⟨False, qf, False, False⟩ dt s (execInTake dt a s) := by
  unfold execInTake
  refine run_moves ?_
  intro bb s hb h_s
  have hqm : ¬ bb.q.mem := by rw [hb]; exact id
  have hqr : ¬ bb.q.regs := by rw [hb]; exact id
  have hqp : ¬ bb.q.phase := by rw [hb]; exact id
  try dsimp -zeta only
  repeat' first | with_reducible assumption | intro _ | with_reducible apply mailboxWindow_keeps | with_reducible apply run_keeps | with_reducible apply writeTakeReg_keeps | with_reducible apply Keeps.ite | split

theorem serveBox_keeps {bb : Base} (s : State) (path : Path) (r : Rec) (t : Nat) (full : Bool) (eff : State → State) (h_s : Keeps bb s) (h_eff : ∀ y0, Keeps bb y0 → Keeps bb (eff y0)) (hqr : ¬ bb.q.regs := by assumption) (hqp : ¬ bb.q.phase := by assumption) : Keeps bb (serveBox s path r t full eff) := by
  unfold serveBox
  repeat' first | with_reducible assumption | intro _ | with_reducible apply State.count1_keeps | with_reducible apply answer_keeps | with_reducible apply serveWrite_keeps | with_reducible apply h_eff | with_reducible apply Keeps.ite | split

theorem serveInData_keeps {bb : Base} (s : State) (path : Path) (r : Rec) (h_s : Keeps bb s) (hqm : ¬ bb.q.mem := by assumption) (hqr : ¬ bb.q.regs := by assumption) (hqp : ¬ bb.q.phase := by assumption) : Keeps bb (serveInData s path r) := by
  unfold serveInData
  repeat' first | with_reducible assumption | intro _ | (extract_lets +onlyGivenNames z; refine (fun (hz : Keeps bb z) => ?_) ?_; clear_value z; revert z; intro _ _; rotate_left; unfold z; clear z; rotate_left) | (extract_lets +onlyGivenNames z; refine (fun (hz : Keeps bb z.1) => ?_) ?_; clear_value z; revert z; intro _ _; rotate_left; unfold z; clear z; rotate_left) | (extract_lets +onlyGivenNames z; refine (fun (hz : Keeps bb z) => ?_) ?_; revert z; intro _ _; rotate_left; unfold z; clear z; rotate_left) | (extract_lets +onlyGivenNames z; revert z; intro _) | with_reducible apply State.sysWrite_keeps | with_reducible apply answer_keeps | with_reducible apply serveBox_keeps | with_reducible apply Keeps.ite | split

theorem execInDataWrite_moves {qf : Prop} (dt : Nat) (path : Path) (tenancy : Nat) (value : Nat) (s : State) : Moves ⟨False, qf, False, False⟩ dt s (execInDataWrite dt path tenancy value s) := by
  unfold execInDataWrite
  refine run_moves ?_
  intro bb s hb h_s
  have hqm : ¬ bb.q.mem := by rw [hb]; exact id
  have hqr : ¬ bb.q.regs := by rw [hb]; exact id
  have hqp : ¬ bb.q.phase := by rw [hb]; exact id
  try dsimp -zeta only
  repeat' first | with_reducible assumption | intro _ | with_reducible apply run_keeps | with_reducible apply serveInData_keeps

theorem ringIn_keeps {bb : Base} (s : State) (t : Nat) (v : Nat) (h_s : Keeps bb s) (hqr : ¬ bb.q.regs := by assumption) : Keeps bb (ringIn s t v) := by
  unfold ringIn
  repeat' first | with_reducible assumption | intro _ | (extract_lets +onlyGivenNames z; refine (fun (hz : Keeps bb z) => ?_) ?_; clear_value z; revert z; intro _ _; rotate_left; unfold z; clear z; rotate_left) | (extract_lets +onlyGivenNames z; refine (fun (hz : Keeps bb z.1) => ?_) ?_; clear_value z; revert z; intro _ _; rotate_left; unfold z; clear z; rotate_left) | (extract_lets +onlyGivenNames z; refine (fun (hz : Keeps bb z) => ?_) ?_; revert z; intro _ _; rotate_left; unfold z; clear z; rotate_left) | (extract_lets +onlyGivenNames z; revert z; intro _) | (simp only [Keeps.mk_iff]; with_reducible apply Keeps.upd) | with_reducible apply State.setPair_keeps | with_reducible apply setBoxWord_keeps | with_reducible apply setIrq_keeps | with_reducible apply Keeps.ite | split

theorem serveInSend_keeps {bb : Base} (s : State) (path : Path) (r : Rec) (h_s : Keeps bb s) (hqr : ¬ bb.q.regs := by assumption) (hqp : ¬ bb.q.phase := by assumption) : Keeps bb (serveInSend s path r) := by
  unfold serveInSend
  repeat' first | with_reducible assumption | intro _ | (extract_lets +onlyGivenNames z; refine (fun (hz : Keeps bb z) => ?_) ?_; clear_value z; revert z; intro _ _; rotate_left; unfold z; clear z; rotate_left) | (extract_lets +onlyGivenNames z; refine (fun (hz : Keeps bb z.1) => ?_) ?_; clear_value z; revert z; intro _ _; rotate_left; unfold z; clear z; rotate_left) | (extract_lets +onlyGivenNames z; refine (fun (hz : Keeps bb z) => ?_) ?_; revert z; intro _ _; rotate_left; unfold z; clear z; rotate_left) | (extract_lets +onlyGivenNames z; revert z; intro _) | with_reducible apply State.count1_keeps | with_reducible apply ringIn_keeps | with_reducible apply serveBox_keeps | with_reducible apply Keeps.ite | split

theorem execInSend_moves {qm qf : Prop} (dt : Nat) (path : Path) (tenancy : Nat) (value : Nat) (s : State) : Moves ⟨qm, qf, False, False⟩ dt s (execInSend dt path tenancy value s) := by
  unfold execInSend
  refine run_moves ?_
  intro bb s hb h_s
  have hqr : ¬ bb.q.regs := by rw [hb]; exact id
  have hqp : ¬ bb.q.phase := by rw [hb]; exact id
  try dsimp -zeta only
  repeat' first | with_reducible assumption | intro _ | with_reducible apply run_keeps | with_reducible apply serveInSend_keeps

theorem takeOut_keeps {bb : Base} (s : State) (t : Nat) (h_s : Keeps bb s) (hqm : ¬ bb.q.mem := by assumption) (hqr : ¬ bb.q.regs := by assumption) (hqp : ¬ bb.q.phase := by assumption) : Keeps bb (takeOut s t) := by
  unfold takeOut
  repeat' first | with_reducible assumption | intro _ | (extract_lets +onlyGivenNames z; refine (fun (hz : Keeps bb z) => ?_) ?_; clear_value z; revert z; intro _ _; rotate_left; unfold z; clear z; rotate_left) | (extract_lets +onlyGivenNames z; refine (fun (hz : Keeps bb z.1) => ?_) ?_; clear_value z; revert z; intro _ _; rotate_left; unfold z; clear z; rotate_left) | (extract_lets +onlyGivenNames z; refine (fun (hz : Keeps bb z) => ?_) ?_; revert z; intro _ _; rotate_left; unfold z; clear z; rotate_left) | (extract_lets +onlyGivenNames z; revert z; intro _) | with_reducible apply setBoxWord_keeps | with_reducible apply setIrq_keeps | with_reducible apply summaryClear_keeps | with_reducible apply zeroBox_keeps | with_reducible apply Keeps.ite | split

theorem execOutTake_moves {qf : Prop} (dt : Nat) (path : Path) (tenancy : Nat) (s : State) : Moves ⟨False, qf, False, False⟩ dt s (execOutTake dt path tenancy s) := by
  unfold execOutTake
  refine run_moves ?_
  intro bb s hb h_s
  have hqm : ¬ bb.q.mem := by rw [hb]; exact id
  have hqr : ¬ bb.q.regs := by rw [hb]; exact id
  have hqp : ¬ bb.q.phase := by rw [hb]; exact id
  try dsimp -zeta only
  repeat' first | with_reducible assumption | intro _ | with_reducible apply run_keeps | with_reducible apply serveWrite_keeps | with_reducible apply takeOut_keeps

theorem execSummaryEvent_moves {qm qf : Prop} (dt : Nat) (element : Nat) (s : State) : Moves ⟨qm, qf, False, False⟩ dt s (execSummaryEvent dt element s) := by
  unfold execSummaryEvent
  refine run_moves ?_
  intro bb s hb h_s
  have hqr : ¬ bb.q.regs := by rw [hb]; exact id
  have hqp : ¬ bb.q.phase := by rw [hb]; exact id
  try dsimp -zeta only
  repeat' first | with_reducible assumption | intro _ | (extract_lets +onlyGivenNames z; refine (fun (hz : Keeps bb z) => ?_) ?_; clear_value z; revert z; intro _ _; rotate_left; unfold z; clear z; rotate_left) | (extract_lets +onlyGivenNames z; refine (fun (hz : Keeps bb z.1) => ?_) ?_; clear_value z; revert z; intro _ _; rotate_left; unfold z; clear z; rotate_left) | (extract_lets +onlyGivenNames z; refine (fun (hz : Keeps bb z) => ?_) ?_; revert z; intro _ _; rotate_left; unfold z; clear z; rotate_left) | (extract_lets +onlyGivenNames z; revert z; intro _) | (simp only [Keeps.mk_iff]; with_reducible apply Keeps.upd) | with_reducible apply State.onDue_keeps | with_reducible apply run_keeps | with_reducible apply summaryEvent_keeps | with_reducible apply Keeps.ite | split

theorem execFmPairRequest_moves {qf : Prop} (dt : Nat) (s : State) : Moves ⟨False, qf, False, False⟩ dt s (execFmPairRequest dt s) := by
  unfold execFmPairRequest
  refine run_moves ?_
  intro bb s hb h_s
  have hqm : ¬ bb.q.mem := by rw [hb]; exact id
  have hqr : ¬ bb.q.regs := by rw [hb]; exact id
  have hqp : ¬ bb.q.phase := by rw [hb]; exact id
  try dsimp -zeta only
  repeat' first | with_reducible assumption | intro _ | (extract_lets +onlyGivenNames z; refine (fun (hz : Keeps bb z) => ?_) ?_; clear_value z; revert z; intro _ _; rotate_left; unfold z; clear z; rotate_left) | (extract_lets +onlyGivenNames z; refine (fun (hz : Keeps bb z.1) => ?_) ?_; clear_value z; revert z; intro _ _; rotate_left; unfold z; clear z; rotate_left) | (extract_lets +onlyGivenNames z; refine (fun (hz : Keeps bb z) => ?_) ?_; revert z; intro _ _; rotate_left; unfold z; clear z; rotate_left) | (extract_lets +onlyGivenNames z; revert z; intro _) | (simp only [Keeps.mk_iff]; with_reducible apply Keeps.upd) | with_reducible apply State.count1_keeps | with_reducible apply State.sysRead_keeps | with_reducible apply run_keeps | with_reducible apply sendOn_keeps | with_reducible apply takeOut_keeps | with_reducible apply Keeps.ite | split

theorem postFm_keeps {bb : Base} (s : State) (bs : List Byte) (v : Nat) (h_s : Keeps bb s) (hqm : ¬ bb.q.mem := by assumption) (hqr : ¬ bb.q.regs := by assumption) (hqp : ¬ bb.q.phase := by assumption) : Keeps bb (postFm s bs v) := by
  unfold postFm
  repeat' first | with_reducible assumption | intro _ | with_reducible apply State.sysWrite_keeps | with_reducible apply ringIn_keeps

theorem execFmPairPost_moves {qf : Prop} (dt : Nat) (s : State) : Moves ⟨False, qf, False, False⟩ dt s (execFmPairPost dt s) := by
  unfold execFmPairPost
  refine run_moves ?_
  intro bb s hb h_s
  have hqm : ¬ bb.q.mem := by rw [hb]; exact id
  have hqr : ¬ bb.q.regs := by rw [hb]; exact id
  have hqp : ¬ bb.q.phase := by rw [hb]; exact id
  try dsimp -zeta only
  repeat' first | with_reducible assumption | intro _ | (extract_lets +onlyGivenNames z; refine (fun (hz : Keeps bb z) => ?_) ?_; clear_value z; revert z; intro _ _; rotate_left; unfold z; clear z; rotate_left) | (extract_lets +onlyGivenNames z; refine (fun (hz : Keeps bb z.1) => ?_) ?_; clear_value z; revert z; intro _ _; rotate_left; unfold z; clear z; rotate_left) | (extract_lets +onlyGivenNames z; refine (fun (hz : Keeps bb z) => ?_) ?_; revert z; intro _ _; rotate_left; unfold z; clear z; rotate_left) | (extract_lets +onlyGivenNames z; revert z; intro _) | (simp only [Keeps.mk_iff]; with_reducible apply Keeps.upd) | with_reducible apply postFm_keeps | with_reducible apply run_keeps | with_reducible apply Keeps.ite | split

end Sys2Proof.Machine
end

