-- ==== Sys2Proof/Laws/Keeps/Twin.lean ====
section
/-! SUPPORT. Every operation and meaning of Machine/Twin.lean keeps what `Keeps` says. -/
set_option linter.all false
set_option Elab.async false
namespace Sys2Proof.Machine

theorem execPairInfo_moves {qm qf : Prop} (dt : Nat) (port : Nat) (msg : List Byte) (s : State) : Moves ⟨qm, qf, False, False⟩ dt s (execPairInfo dt port msg s) := by
  unfold execPairInfo
  refine run_moves ?_
  intro bb s hb h_s
  have hqr : ¬ bb.q.regs := by rw [hb]; exact id
  have hqp : ¬ bb.q.phase := by rw [hb]; exact id
  try dsimp -zeta only
  repeat' first | with_reducible assumption | intro _ | (extract_lets +onlyGivenNames z; refine (fun (hz : Keeps bb z) => ?_) ?_; clear_value z; revert z; intro _ _; rotate_left; unfold z; clear z; rotate_left) | (extract_lets +onlyGivenNames z; refine (fun (hz : Keeps bb z.1) => ?_) ?_; clear_value z; revert z; intro _ _; rotate_left; unfold z; clear z; rotate_left) | (extract_lets +onlyGivenNames z; refine (fun (hz : Keeps bb z) => ?_) ?_; revert z; intro _ _; rotate_left; unfold z; clear z; rotate_left) | (extract_lets +onlyGivenNames z; revert z; intro _) | with_reducible apply Keeps.withState | with_reducible apply Keeps.withSome | with_reducible apply compareListed_keeps | with_reducible apply endPairInfo_keeps | with_reducible apply Keeps.forEach | with_reducible apply run_keeps | with_reducible apply takeTwin_keeps | with_reducible apply Keeps.ite | split

theorem execMirrorWr_moves {qf : Prop} (dt : Nat) (port : Nat) (msg : List Byte) (s : State) : Moves ⟨False, qf, False, False⟩ dt s (execMirrorWr dt port msg s) := by
  unfold execMirrorWr
  refine run_moves ?_
  intro bb s hb h_s
  have hqm : ¬ bb.q.mem := by rw [hb]; exact id
  have hqr : ¬ bb.q.regs := by rw [hb]; exact id
  have hqp : ¬ bb.q.phase := by rw [hb]; exact id
  try dsimp -zeta only
  repeat' first | with_reducible assumption | intro _ | with_reducible apply Keeps.withState | with_reducible apply State.count1_keeps | with_reducible apply Keeps.withSome | with_reducible apply raise_keeps | with_reducible apply run_keeps | with_reducible apply takeTwin_keeps | with_reducible apply writeMirror_keeps | split

theorem execResyncData_moves {qf qr qp : Prop} (dt : Nat) (port : Nat) (msg : List Byte) (s : State) : Moves ⟨False, qf, qr, qp⟩ dt s (execResyncData dt port msg s) := by
  unfold execResyncData
  refine run_moves ?_
  intro bb s hb h_s
  have hqm : ¬ bb.q.mem := by rw [hb]; exact id
  try dsimp -zeta only
  repeat' first | with_reducible assumption | intro _ | with_reducible apply Keeps.withState | with_reducible apply Keeps.withSome | with_reducible apply run_keeps | with_reducible apply takeTwin_keeps | with_reducible apply writeMirror_keeps | split

theorem execLog_moves {qf : Prop} (dt : Nat) (port : Nat) (msg : List Byte) (s : State) : Moves ⟨False, qf, False, False⟩ dt s (execLog dt port msg s) := by
  unfold execLog
  refine run_moves ?_
  intro bb s hb h_s
  have hqm : ¬ bb.q.mem := by rw [hb]; exact id
  have hqr : ¬ bb.q.regs := by rw [hb]; exact id
  have hqp : ¬ bb.q.phase := by rw [hb]; exact id
  try dsimp -zeta only
  repeat' first | with_reducible assumption | intro _ | with_reducible apply Keeps.withState | with_reducible apply Keeps.withSome | with_reducible apply applyRecord_keeps | with_reducible apply Keeps.forEach | with_reducible apply run_keeps | with_reducible apply takeTwin_keeps

theorem execLogFlush_moves {qm qf qp : Prop} (dt : Nat) (s : State) : Moves ⟨qm, qf, False, qp⟩ dt s (execLogFlush dt s) := by
  unfold execLogFlush
  refine run_moves ?_
  intro bb s hb h_s
  have hqr : ¬ bb.q.regs := by rw [hb]; exact id
  try dsimp -zeta only
  repeat' first | with_reducible assumption | intro _ | (simp only [Keeps.mk_iff]; with_reducible apply Keeps.upd) | with_reducible apply State.onDue_keeps | with_reducible apply flushLog_keeps | with_reducible apply Keeps.forEach | with_reducible apply run_keeps

theorem takeKey_keeps {bb : Base} (s : State) (i : Nat) (wrapped : List Byte) (h_s : Keeps bb s) (hqr : ¬ bb.q.regs := by assumption) : Keeps bb (takeKey s i wrapped) := by
  unfold takeKey
  repeat' first | with_reducible assumption | intro _ | (extract_lets +onlyGivenNames z; refine (fun (hz : Keeps bb z) => ?_) ?_; clear_value z; revert z; intro _ _; rotate_left; unfold z; clear z; rotate_left) | (extract_lets +onlyGivenNames z; refine (fun (hz : Keeps bb z.1) => ?_) ?_; clear_value z; revert z; intro _ _; rotate_left; unfold z; clear z; rotate_left) | (extract_lets +onlyGivenNames z; refine (fun (hz : Keeps bb z) => ?_) ?_; revert z; intro _ _; rotate_left; unfold z; clear z; rotate_left) | (extract_lets +onlyGivenNames z; revert z; intro _) | with_reducible apply Keeps.withState | with_reducible apply State.setRegBits_keeps | with_reducible apply Keeps.withSome | with_reducible apply destroySlot_keeps | with_reducible apply takeSlot_keeps | with_reducible apply Keeps.ite | split

theorem execKeyXfer_moves {qm qf qp : Prop} (dt : Nat) (port : Nat) (msg : List Byte) (s : State) : Moves ⟨qm, qf, False, qp⟩ dt s (execKeyXfer dt port msg s) := by
  unfold execKeyXfer
  refine run_moves ?_
  intro bb s hb h_s
  have hqr : ¬ bb.q.regs := by rw [hb]; exact id
  try dsimp -zeta only
  repeat' first | with_reducible assumption | intro _ | with_reducible apply Keeps.withState | with_reducible apply Keeps.withSome | with_reducible apply run_keeps | with_reducible apply takeKey_keeps | with_reducible apply takeTwin_keeps | with_reducible apply Keeps.ite | split

theorem execHeartbeatSend_moves {qm qf qr qp : Prop} (dt : Nat) (s : State) : Moves ⟨qm, qf, qr, qp⟩ dt s (execHeartbeatSend dt s) := by
  unfold execHeartbeatSend
  refine run_moves ?_
  intro bb s hb h_s
  try dsimp -zeta only
  repeat' first | with_reducible assumption | intro _ | (extract_lets +onlyGivenNames z; refine (fun (hz : Keeps bb z) => ?_) ?_; clear_value z; revert z; intro _ _; rotate_left; unfold z; clear z; rotate_left) | (extract_lets +onlyGivenNames z; refine (fun (hz : Keeps bb z.1) => ?_) ?_; clear_value z; revert z; intro _ _; rotate_left; unfold z; clear z; rotate_left) | (extract_lets +onlyGivenNames z; refine (fun (hz : Keeps bb z) => ?_) ?_; revert z; intro _ _; rotate_left; unfold z; clear z; rotate_left) | (extract_lets +onlyGivenNames z; revert z; intro _) | (simp only [Keeps.mk_iff]; with_reducible apply Keeps.upd) | with_reducible apply State.arm_keeps | with_reducible apply State.onDue_keeps | with_reducible apply Keeps.forEach | with_reducible apply run_keeps | with_reducible apply sendOwn_keeps

theorem countMissed_keeps {bb : Base} (s : State) (h_s : Keeps bb s) (hqr : ¬ bb.q.regs := by assumption) : Keeps bb (countMissed s) := by
  unfold countMissed
  repeat' first | with_reducible assumption | intro _ | with_reducible apply State.count_keeps | with_reducible apply Keeps.ite | split

theorem execHeartbeat_moves {qm qf qp : Prop} (dt : Nat) (port : Nat) (msg : List Byte) (s : State) : Moves ⟨qm, qf, False, qp⟩ dt s (execHeartbeat dt port msg s) := by
  unfold execHeartbeat
  refine run_moves ?_
  intro bb s hb h_s
  have hqr : ¬ bb.q.regs := by rw [hb]; exact id
  try dsimp -zeta only
  repeat' first | with_reducible assumption | intro _ | (extract_lets +onlyGivenNames z; refine (fun (hz : Keeps bb z) => ?_) ?_; clear_value z; revert z; intro _ _; rotate_left; unfold z; clear z; rotate_left) | (extract_lets +onlyGivenNames z; refine (fun (hz : Keeps bb z.1) => ?_) ?_; clear_value z; revert z; intro _ _; rotate_left; unfold z; clear z; rotate_left) | (extract_lets +onlyGivenNames z; refine (fun (hz : Keeps bb z) => ?_) ?_; revert z; intro _ _; rotate_left; unfold z; clear z; rotate_left) | (extract_lets +onlyGivenNames z; revert z; intro _) | (simp only [Keeps.mk_iff]; with_reducible apply Keeps.upd) | with_reducible apply Keeps.withState | with_reducible apply State.setRegBits_keeps | with_reducible apply Keeps.withSome | with_reducible apply countMissed_keeps | with_reducible apply evalPair_keeps | with_reducible apply evalRegime_keeps | with_reducible apply heardPartner_keeps | with_reducible apply run_keeps | with_reducible apply takeTwin_keeps

theorem execTwinHbInEdge_moves {qm qf qp : Prop} (dt : Nat) (s : State) : Moves ⟨qm, qf, False, qp⟩ dt s (execTwinHbInEdge dt s) := by
  unfold execTwinHbInEdge
  refine run_moves ?_
  intro bb s hb h_s
  have hqr : ¬ bb.q.regs := by rw [hb]; exact id
  try dsimp -zeta only
  repeat' first | with_reducible assumption | intro _ | (simp only [Keeps.mk_iff]; with_reducible apply Keeps.upd) | with_reducible apply State.arm_keeps | with_reducible apply State.putRegBit_keeps | with_reducible apply evalPair_keeps | with_reducible apply run_keeps

theorem execMessageSignalSilent_moves {qf : Prop} (dt : Nat) (s : State) : Moves ⟨False, qf, False, False⟩ dt s (execMessageSignalSilent dt s) := by
  unfold execMessageSignalSilent
  refine run_moves ?_
  intro bb s hb h_s
  have hqm : ¬ bb.q.mem := by rw [hb]; exact id
  have hqr : ¬ bb.q.regs := by rw [hb]; exact id
  have hqp : ¬ bb.q.phase := by rw [hb]; exact id
  try dsimp -zeta only
  repeat' first | with_reducible assumption | intro _ | (extract_lets +onlyGivenNames z; refine (fun (hz : Keeps bb z) => ?_) ?_; clear_value z; revert z; intro _ _; rotate_left; unfold z; clear z; rotate_left) | (extract_lets +onlyGivenNames z; refine (fun (hz : Keeps bb z.1) => ?_) ?_; clear_value z; revert z; intro _ _; rotate_left; unfold z; clear z; rotate_left) | (extract_lets +onlyGivenNames z; refine (fun (hz : Keeps bb z) => ?_) ?_; revert z; intro _ _; rotate_left; unfold z; clear z; rotate_left) | (extract_lets +onlyGivenNames z; revert z; intro _) | (simp only [Keeps.mk_iff]; with_reducible apply Keeps.upd) | with_reducible apply State.onDue_keeps | with_reducible apply State.putRegBit_keeps | with_reducible apply enterSplit_keeps | with_reducible apply partnerLost_keeps | with_reducible apply run_keeps | with_reducible apply settle_keeps | with_reducible apply Keeps.ite | split

theorem execPinSignalSilent_moves {qf : Prop} (dt : Nat) (s : State) : Moves ⟨False, qf, False, False⟩ dt s (execPinSignalSilent dt s) := by
  unfold execPinSignalSilent
  refine run_moves ?_
  intro bb s hb h_s
  have hqm : ¬ bb.q.mem := by rw [hb]; exact id
  have hqr : ¬ bb.q.regs := by rw [hb]; exact id
  have hqp : ¬ bb.q.phase := by rw [hb]; exact id
  try dsimp -zeta only
  repeat' first | with_reducible assumption | intro _ | (extract_lets +onlyGivenNames z; refine (fun (hz : Keeps bb z) => ?_) ?_; clear_value z; revert z; intro _ _; rotate_left; unfold z; clear z; rotate_left) | (extract_lets +onlyGivenNames z; refine (fun (hz : Keeps bb z.1) => ?_) ?_; clear_value z; revert z; intro _ _; rotate_left; unfold z; clear z; rotate_left) | (extract_lets +onlyGivenNames z; refine (fun (hz : Keeps bb z) => ?_) ?_; revert z; intro _ _; rotate_left; unfold z; clear z; rotate_left) | (extract_lets +onlyGivenNames z; revert z; intro _) | (simp only [Keeps.mk_iff]; with_reducible apply Keeps.upd) | with_reducible apply State.onDue_keeps | with_reducible apply State.putRegBit_keeps | with_reducible apply partnerLost_keeps | with_reducible apply raise_keeps | with_reducible apply run_keeps | with_reducible apply Keeps.ite | split

theorem execTakeoverServe_moves {qf : Prop} (dt : Nat) (s : State) : Moves ⟨False, qf, False, False⟩ dt s (execTakeoverServe dt s) := by
  unfold execTakeoverServe
  refine run_moves ?_
  intro bb s hb h_s
  have hqm : ¬ bb.q.mem := by rw [hb]; exact id
  have hqr : ¬ bb.q.regs := by rw [hb]; exact id
  have hqp : ¬ bb.q.phase := by rw [hb]; exact id
  try dsimp -zeta only
  repeat' first | with_reducible assumption | intro _ | with_reducible apply run_keeps | with_reducible apply serveTakeover_keeps | with_reducible apply Keeps.ite | split

theorem execDeclareLost_moves {qf : Prop} (dt : Nat) (path : Path) (s : State) : Moves ⟨False, qf, False, False⟩ dt s (execDeclareLost dt path s) := by
  unfold execDeclareLost
  refine run_moves ?_
  intro bb s hb h_s
  have hqm : ¬ bb.q.mem := by rw [hb]; exact id
  have hqr : ¬ bb.q.regs := by rw [hb]; exact id
  have hqp : ¬ bb.q.phase := by rw [hb]; exact id
  try dsimp -zeta only
  repeat' first | with_reducible assumption | intro _ | with_reducible apply beginTakeover_keeps | with_reducible apply run_keeps | with_reducible apply serveWrite_keeps

theorem execAliasEnd_moves {qm qf : Prop} (dt : Nat) (path : Path) (s : State) : Moves ⟨qm, qf, False, False⟩ dt s (execAliasEnd dt path s) := by
  unfold execAliasEnd
  refine run_moves ?_
  intro bb s hb h_s
  have hqr : ¬ bb.q.regs := by rw [hb]; exact id
  have hqp : ¬ bb.q.phase := by rw [hb]; exact id
  try dsimp -zeta only
  repeat' first | with_reducible assumption | intro _ | with_reducible apply endAlias_keeps | with_reducible apply run_keeps | with_reducible apply serveWrite_keeps

theorem execResyncCopyDone_moves {qf : Prop} (dt : Nat) (s : State) : Moves ⟨False, qf, False, False⟩ dt s (execResyncCopyDone dt s) := by
  unfold execResyncCopyDone
  refine run_moves ?_
  intro bb s hb h_s
  have hqm : ¬ bb.q.mem := by rw [hb]; exact id
  have hqr : ¬ bb.q.regs := by rw [hb]; exact id
  have hqp : ¬ bb.q.phase := by rw [hb]; exact id
  try dsimp -zeta only
  repeat' first | with_reducible assumption | intro _ | with_reducible apply resyncDone_keeps | with_reducible apply run_keeps | with_reducible apply Keeps.ite | split

theorem execUnitClean_moves {qm qf : Prop} (dt : Nat) (unit : Nat) (s : State) : Moves ⟨qm, qf, False, False⟩ dt s (execUnitClean dt unit s) := by
  unfold execUnitClean
  refine run_moves ?_
  intro bb s hb h_s
  have hqr : ¬ bb.q.regs := by rw [hb]; exact id
  have hqp : ¬ bb.q.phase := by rw [hb]; exact id
  try dsimp -zeta only
  repeat' first | with_reducible assumption | intro _ | (extract_lets +onlyGivenNames z; refine (fun (hz : Keeps bb z) => ?_) ?_; clear_value z; revert z; intro _ _; rotate_left; unfold z; clear z; rotate_left) | (extract_lets +onlyGivenNames z; refine (fun (hz : Keeps bb z.1) => ?_) ?_; clear_value z; revert z; intro _ _; rotate_left; unfold z; clear z; rotate_left) | (extract_lets +onlyGivenNames z; refine (fun (hz : Keeps bb z) => ?_) ?_; revert z; intro _ _; rotate_left; unfold z; clear z; rotate_left) | (extract_lets +onlyGivenNames z; revert z; intro _) | (simp only [Keeps.mk_iff]; with_reducible apply Keeps.upd) | with_reducible apply addRecord_keeps | with_reducible apply run_keeps | with_reducible apply Keeps.ite | split

end Sys2Proof.Machine
end

