-- ==== Sys2Proof/Laws/Keeps/CommitCheck.lean ====
section
/-! SUPPORT. Every operation and meaning of Machine/CommitCheck.lean keeps what `Keeps` says. -/
set_option linter.all false
namespace Sys2Proof.Machine

theorem candidate_keeps {bb : Base} (s : State) (h_s : Keeps bb s) (hqr : ¬ bb.q.regs := by assumption) : Keeps bb (candidate s) := by
  unfold candidate
  repeat' first | with_reducible assumption | intro _ | with_reducible apply Keeps.forEach | with_reducible apply plainWrite_keeps

end Sys2Proof.Machine
end

