-- ==== Sys2Proof/Laws/Keeps/Commit.lean ====
section
/-! SUPPORT. Every operation and meaning of Machine/Commit.lean keeps what `Keeps` says. -/
set_option linter.all false
set_option Elab.async false
namespace Sys2Proof.Machine

theorem passDown_keeps {bb : Base} (t : State) (p : Nat) (h_t : Keeps bb t) (hqr : ¬ bb.q.regs := by assumption) (hqp : ¬ bb.q.phase := by assumption) : Keeps bb (passDown t p) := by
  unfold passDown
  repeat' first | with_reducible assumption | intro _ | with_reducible apply passLinkDown_keeps | with_reducible apply setPassReason_keeps | with_reducible apply Keeps.ite | split

theorem portDown_keeps {bb : Base} (t : State) (p : Nat) (h_t : Keeps bb t) (hqr : ¬ bb.q.regs := by assumption) (hqp : ¬ bb.q.phase := by assumption) : Keeps bb (portDown t p) := by
  unfold portDown
  repeat' first | with_reducible assumption | intro _ | (simp only [Keeps.mk_iff]; with_reducible apply Keeps.upd) | with_reducible apply State.disarm_keeps | with_reducible apply edgeLinkDown_keeps | with_reducible apply passDown_keeps | with_reducible apply Keeps.ite | split

theorem portTrains_keeps {bb : Base} (t : State) (p : Nat) (h_t : Keeps bb t) (hqr : ¬ bb.q.regs := by assumption) : Keeps bb (portTrains t p) := by
  unfold portTrains
  repeat' first | with_reducible assumption | intro _ | with_reducible apply letTrain_keeps | with_reducible apply Keeps.ite | split

theorem leaveHeld_keeps {bb : Base} (t : State) (p : Nat) (h_t : Keeps bb t) (hqr : ¬ bb.q.regs := by assumption) : Keeps bb (leaveHeld t p) := by
  unfold leaveHeld
  repeat' first | with_reducible assumption | intro _ | (extract_lets +onlyGivenNames z; refine (fun (hz : Keeps bb z) => ?_) ?_; clear_value z; revert z; intro _ _; rotate_left; unfold z; clear z; rotate_left) | (extract_lets +onlyGivenNames z; refine (fun (hz : Keeps bb z.1) => ?_) ?_; clear_value z; revert z; intro _ _; rotate_left; unfold z; clear z; rotate_left) | (extract_lets +onlyGivenNames z; refine (fun (hz : Keeps bb z) => ?_) ?_; revert z; intro _ _; rotate_left; unfold z; clear z; rotate_left) | (extract_lets +onlyGivenNames z; revert z; intro _) | (simp only [Keeps.mk_iff]; with_reducible apply Keeps.upd) | with_reducible apply State.arm_keeps | with_reducible apply endConflict_keeps | with_reducible apply setPassState_keeps | with_reducible apply Keeps.ite | split

theorem speedChange_keeps {bb : Base} (t : State) (p : Nat) (h_t : Keeps bb t) (hqr : ¬ bb.q.regs := by assumption) : Keeps bb (speedChange t p) := by
  unfold speedChange
  repeat' first | with_reducible assumption | intro _ | with_reducible apply State.emit_keeps | with_reducible apply State.setRegBits_keeps | with_reducible apply Keeps.ite | split

theorem agentLeaves_keeps {bb : Base} (s : State) (t : State) (a : Nat) (h_s : Keeps bb s) (h_t : Keeps bb t) (hqm : ¬ bb.q.mem := by assumption) (hqr : ¬ bb.q.regs := by assumption) (hqp : ¬ bb.q.phase := by assumption) : Keeps bb (agentLeaves s t a) := by
  unfold agentLeaves
  repeat' first | with_reducible assumption | intro _ | with_reducible apply declareDead_keeps | with_reducible apply Keeps.ite | split

theorem agentRetires_keeps {bb : Base} (t : State) (a : Nat) (h_t : Keeps bb t) (hqr : ¬ bb.q.regs := by assumption) : Keeps bb (agentRetires t a) := by
  unfold agentRetires
  repeat' first | with_reducible assumption | intro _ | (extract_lets +onlyGivenNames z; refine (fun (hz : Keeps bb z) => ?_) ?_; clear_value z; revert z; intro _ _; rotate_left; unfold z; clear z; rotate_left) | (extract_lets +onlyGivenNames z; refine (fun (hz : Keeps bb z.1) => ?_) ?_; clear_value z; revert z; intro _ _; rotate_left; unfold z; clear z; rotate_left) | (extract_lets +onlyGivenNames z; refine (fun (hz : Keeps bb z) => ?_) ?_; revert z; intro _ _; rotate_left; unfold z; clear z; rotate_left) | (extract_lets +onlyGivenNames z; revert z; intro _) | (simp only [Keeps.mk_iff]; with_reducible apply Keeps.upd) | with_reducible apply State.setReg_keeps | with_reducible apply Keeps.ite | split

theorem agentArrives_keeps {bb : Base} (s : State) (t : State) (a : Nat) (h_s : Keeps bb s) (h_t : Keeps bb t) (hqr : ¬ bb.q.regs := by assumption) : Keeps bb (agentArrives s t a) := by
  unfold agentArrives
  repeat' first | with_reducible assumption | intro _ | (extract_lets +onlyGivenNames z; refine (fun (hz : Keeps bb z) => ?_) ?_; clear_value z; revert z; intro _ _; rotate_left; unfold z; clear z; rotate_left) | (extract_lets +onlyGivenNames z; refine (fun (hz : Keeps bb z.1) => ?_) ?_; clear_value z; revert z; intro _ _; rotate_left; unfold z; clear z; rotate_left) | (extract_lets +onlyGivenNames z; refine (fun (hz : Keeps bb z) => ?_) ?_; revert z; intro _ _; rotate_left; unfold z; clear z; rotate_left) | (extract_lets +onlyGivenNames z; revert z; intro _) | (simp only [Keeps.mk_iff]; with_reducible apply Keeps.upd) | with_reducible apply State.setReg_keeps | with_reducible apply agentRetires_keeps | with_reducible apply reviveAgent_keeps | with_reducible apply Keeps.ite | split

theorem unbindLd_keeps {bb : Base} (t : State) (e : Nat) (h_t : Keeps bb t) (hqr : ¬ bb.q.regs := by assumption) : Keeps bb (unbindLd t e) := by
  unfold unbindLd
  repeat' first | with_reducible assumption | intro _ | with_reducible apply Keeps.withState | with_reducible apply Keeps.withSome | with_reducible apply unbindNow_keeps

theorem vppbApply_keeps {bb : Base} (c : State) (t : State) (e : Nat) (h_c : Keeps bb c) (h_t : Keeps bb t) (hqr : ¬ bb.q.regs := by assumption) : Keeps bb (vppbApply c t e) := by
  unfold vppbApply
  repeat' first | with_reducible assumption | intro _ | (extract_lets +onlyGivenNames z; refine (fun (hz : Keeps bb z) => ?_) ?_; clear_value z; revert z; intro _ _; rotate_left; unfold z; clear z; rotate_left) | (extract_lets +onlyGivenNames z; refine (fun (hz : Keeps bb z.1) => ?_) ?_; clear_value z; revert z; intro _ _; rotate_left; unfold z; clear z; rotate_left) | (extract_lets +onlyGivenNames z; refine (fun (hz : Keeps bb z) => ?_) ?_; revert z; intro _ _; rotate_left; unfold z; clear z; rotate_left) | (extract_lets +onlyGivenNames z; revert z; intro _) | with_reducible apply State.putRegBit_keeps | with_reducible apply State.setReg_keeps | with_reducible apply State.setRegBits_keeps | with_reducible apply bindNow_keeps | with_reducible apply unbindNow_keeps | with_reducible apply unbound_keeps | with_reducible apply Keeps.ite | split

theorem perstFollow_keeps {bb : Base} (t : State) (p : Nat) (h_t : Keeps bb t)  : Keeps bb (perstFollow t p) := by
  unfold perstFollow
  repeat' first | with_reducible assumption | intro _ | (extract_lets +onlyGivenNames z; refine (fun (hz : Keeps bb z) => ?_) ?_; clear_value z; revert z; intro _ _; rotate_left; unfold z; clear z; rotate_left) | (extract_lets +onlyGivenNames z; refine (fun (hz : Keeps bb z.1) => ?_) ?_; clear_value z; revert z; intro _ _; rotate_left; unfold z; clear z; rotate_left) | (extract_lets +onlyGivenNames z; refine (fun (hz : Keeps bb z) => ?_) ?_; revert z; intro _ _; rotate_left; unfold z; clear z; rotate_left) | (extract_lets +onlyGivenNames z; revert z; intro _) | (simp only [Keeps.mk_iff]; with_reducible apply Keeps.upd) | with_reducible apply State.arm_keeps | with_reducible apply State.disarm_keeps | with_reducible apply assertPerst_keeps | with_reducible apply Keeps.ite | split

theorem slotApply_keeps {bb : Base} (t : State) (n : Nat) (h_t : Keeps bb t) (hqr : ¬ bb.q.regs := by assumption) : Keeps bb (slotApply t n) := by
  unfold slotApply
  repeat' first | with_reducible assumption | intro _ | with_reducible apply Keeps.withState | with_reducible apply Keeps.withSome | with_reducible apply setHostOn_keeps | with_reducible apply Keeps.ite | split

theorem resizeShared_keeps {bb : Base} (t : State) (h_t : Keeps bb t) (hqr : ¬ bb.q.regs := by assumption) : Keeps bb (resizeShared t) := by
  unfold resizeShared
  repeat' first | with_reducible assumption | intro _ | (extract_lets +onlyGivenNames z; refine (fun (hz : Keeps bb z) => ?_) ?_; clear_value z; revert z; intro _ _; rotate_left; unfold z; clear z; rotate_left) | (extract_lets +onlyGivenNames z; refine (fun (hz : Keeps bb z.1) => ?_) ?_; clear_value z; revert z; intro _ _; rotate_left; unfold z; clear z; rotate_left) | (extract_lets +onlyGivenNames z; refine (fun (hz : Keeps bb z) => ?_) ?_; revert z; intro _ _; rotate_left; unfold z; clear z; rotate_left) | (extract_lets +onlyGivenNames z; revert z; intro _) | with_reducible apply State.setReg_keeps | with_reducible apply Keeps.foldl

theorem rebindApply_keeps {bb : Base} (c : State) (t : State) (g : Nat) (h_c : Keeps bb c) (h_t : Keeps bb t) (hqr : ¬ bb.q.regs := by assumption) : Keeps bb (rebindApply c t g) := by
  unfold rebindApply
  repeat' first | with_reducible assumption | intro _ | (extract_lets +onlyGivenNames z; refine (fun (hz : Keeps bb z) => ?_) ?_; clear_value z; revert z; intro _ _; rotate_left; unfold z; clear z; rotate_left) | (extract_lets +onlyGivenNames z; refine (fun (hz : Keeps bb z.1) => ?_) ?_; clear_value z; revert z; intro _ _; rotate_left; unfold z; clear z; rotate_left) | (extract_lets +onlyGivenNames z; refine (fun (hz : Keeps bb z) => ?_) ?_; revert z; intro _ _; rotate_left; unfold z; clear z; rotate_left) | (extract_lets +onlyGivenNames z; revert z; intro _) | with_reducible apply State.setReg_keeps | with_reducible apply Keeps.ite | split

theorem pinsApply_keeps {bb : Base} (t : State) (l : List Nat) (h_t : Keeps bb t) (hqr : ¬ bb.q.regs := by assumption) : Keeps bb (pinsApply t l) := by
  unfold pinsApply
  repeat' first | with_reducible assumption | intro _ | (extract_lets +onlyGivenNames z; refine (fun (hz : Keeps bb z) => ?_) ?_; clear_value z; revert z; intro _ _; rotate_left; unfold z; clear z; rotate_left) | (extract_lets +onlyGivenNames z; refine (fun (hz : Keeps bb z.1) => ?_) ?_; clear_value z; revert z; intro _ _; rotate_left; unfold z; clear z; rotate_left) | (extract_lets +onlyGivenNames z; refine (fun (hz : Keeps bb z) => ?_) ?_; revert z; intro _ _; rotate_left; unfold z; clear z; rotate_left) | (extract_lets +onlyGivenNames z; revert z; intro _) | with_reducible apply Keeps.forEach | with_reducible apply recomputeRoute_keeps | with_reducible apply sendRoutes_keeps | with_reducible apply Keeps.ite | split

theorem destroyKey_keeps {bb : Base} (s : State) (t : State) (i : Nat) (h_s : Keeps bb s) (h_t : Keeps bb t) (hqr : ¬ bb.q.regs := by assumption) (hqp : ¬ bb.q.phase := by assumption) : Keeps bb (destroyKey s t i) := by
  unfold destroyKey
  repeat' first | with_reducible assumption | intro _ | (extract_lets +onlyGivenNames z; refine (fun (hz : Keeps bb z) => ?_) ?_; clear_value z; revert z; intro _ _; rotate_left; unfold z; clear z; rotate_left) | (extract_lets +onlyGivenNames z; refine (fun (hz : Keeps bb z.1) => ?_) ?_; clear_value z; revert z; intro _ _; rotate_left; unfold z; clear z; rotate_left) | (extract_lets +onlyGivenNames z; refine (fun (hz : Keeps bb z) => ?_) ?_; revert z; intro _ _; rotate_left; unfold z; clear z; rotate_left) | (extract_lets +onlyGivenNames z; revert z; intro _) | with_reducible apply State.setRegBits_keeps | with_reducible apply addRecord_keeps | with_reducible apply destroySlot_keeps | with_reducible apply Keeps.ite | split

theorem giveKey_keeps {bb : Base} (t : State) (i : Nat) (h_t : Keeps bb t) (hqr : ¬ bb.q.regs := by assumption) : Keeps bb (giveKey t i) := by
  unfold giveKey
  repeat' first | with_reducible assumption | intro _ | (extract_lets +onlyGivenNames z; refine (fun (hz : Keeps bb z) => ?_) ?_; clear_value z; revert z; intro _ _; rotate_left; unfold z; clear z; rotate_left) | (extract_lets +onlyGivenNames z; refine (fun (hz : Keeps bb z.1) => ?_) ?_; clear_value z; revert z; intro _ _; rotate_left; unfold z; clear z; rotate_left) | (extract_lets +onlyGivenNames z; refine (fun (hz : Keeps bb z) => ?_) ?_; revert z; intro _ _; rotate_left; unfold z; clear z; rotate_left) | (extract_lets +onlyGivenNames z; revert z; intro _) | with_reducible apply State.setRegBits_keeps | with_reducible apply newKey_keeps | with_reducible apply sendKey_keeps | with_reducible apply Keeps.ite | split

theorem releaseAlloc_keeps {bb : Base} (s : State) (t : State) (i : Nat) (toFree : Bool) (h_s : Keeps bb s) (h_t : Keeps bb t) (hqr : ¬ bb.q.regs := by assumption) : Keeps bb (releaseAlloc s t i toFree) := by
  unfold releaseAlloc
  repeat' first | with_reducible assumption | intro _ | (extract_lets +onlyGivenNames z; refine (fun (hz : Keeps bb z) => ?_) ?_; clear_value z; revert z; intro _ _; rotate_left; unfold z; clear z; rotate_left) | (extract_lets +onlyGivenNames z; refine (fun (hz : Keeps bb z.1) => ?_) ?_; clear_value z; revert z; intro _ _; rotate_left; unfold z; clear z; rotate_left) | (extract_lets +onlyGivenNames z; refine (fun (hz : Keeps bb z) => ?_) ?_; revert z; intro _ _; rotate_left; unfold z; clear z; rotate_left) | (extract_lets +onlyGivenNames z; revert z; intro _) | (simp only [Keeps.mk_iff]; with_reducible apply Keeps.upd) | with_reducible apply State.setRegBits_keeps | with_reducible apply Keeps.ite | split

theorem dropAlloc_keeps {bb : Base} (s : State) (t : State) (i : Nat) (h_s : Keeps bb s) (h_t : Keeps bb t) (hqr : ¬ bb.q.regs := by assumption) (hqp : ¬ bb.q.phase := by assumption) : Keeps bb (dropAlloc s t i) := by
  unfold dropAlloc
  repeat' first | with_reducible assumption | intro _ | (extract_lets +onlyGivenNames z; refine (fun (hz : Keeps bb z) => ?_) ?_; clear_value z; revert z; intro _ _; rotate_left; unfold z; clear z; rotate_left) | (extract_lets +onlyGivenNames z; refine (fun (hz : Keeps bb z.1) => ?_) ?_; clear_value z; revert z; intro _ _; rotate_left; unfold z; clear z; rotate_left) | (extract_lets +onlyGivenNames z; refine (fun (hz : Keeps bb z) => ?_) ?_; revert z; intro _ _; rotate_left; unfold z; clear z; rotate_left) | (extract_lets +onlyGivenNames z; revert z; intro _) | (simp only [Keeps.mk_iff]; with_reducible apply Keeps.upd) | with_reducible apply destroyKey_keeps | with_reducible apply releaseAlloc_keeps

theorem allocApply_keeps {bb : Base} (s : State) (c : State) (t : State) (i : Nat) (h_s : Keeps bb s) (h_c : Keeps bb c) (h_t : Keeps bb t) (hqr : ¬ bb.q.regs := by assumption) (hqp : ¬ bb.q.phase := by assumption) : Keeps bb (allocApply s c t i) := by
  unfold allocApply
  repeat' first | with_reducible assumption | intro _ | with_reducible apply State.setRegBits_keeps | with_reducible apply destroyKey_keeps | with_reducible apply dropAlloc_keeps | with_reducible apply giveKey_keeps | with_reducible apply releaseAlloc_keeps | with_reducible apply Keeps.ite | split

theorem allocsApply_keeps {bb : Base} (s : State) (c : State) (t : State) (h_s : Keeps bb s) (h_c : Keeps bb c) (h_t : Keeps bb t) (hqr : ¬ bb.q.regs := by assumption) (hqp : ¬ bb.q.phase := by assumption) : Keeps bb (allocsApply s c t) := by
  unfold allocsApply
  repeat' first | with_reducible assumption | intro _ | (extract_lets +onlyGivenNames z; refine (fun (hz : Keeps bb z) => ?_) ?_; clear_value z; revert z; intro _ _; rotate_left; unfold z; clear z; rotate_left) | (extract_lets +onlyGivenNames z; refine (fun (hz : Keeps bb z.1) => ?_) ?_; clear_value z; revert z; intro _ _; rotate_left; unfold z; clear z; rotate_left) | (extract_lets +onlyGivenNames z; refine (fun (hz : Keeps bb z) => ?_) ?_; revert z; intro _ _; rotate_left; unfold z; clear z; rotate_left) | (extract_lets +onlyGivenNames z; revert z; intro _) | with_reducible apply allocApply_keeps | with_reducible apply Keeps.forEach | with_reducible apply pushAllSlices_keeps | with_reducible apply sendPairInfo_keeps | with_reducible apply Keeps.ite | split

theorem decoderApply_keeps {bb : Base} (s : State) (t : State) (e : Nat) (h_s : Keeps bb s) (h_t : Keeps bb t) (hqr : ¬ bb.q.regs := by assumption) : Keeps bb (decoderApply s t e) := by
  unfold decoderApply
  repeat' first | with_reducible assumption | intro _ | (extract_lets +onlyGivenNames z; refine (fun (hz : Keeps bb z) => ?_) ?_; clear_value z; revert z; intro _ _; rotate_left; unfold z; clear z; rotate_left) | (extract_lets +onlyGivenNames z; refine (fun (hz : Keeps bb z.1) => ?_) ?_; clear_value z; revert z; intro _ _; rotate_left; unfold z; clear z; rotate_left) | (extract_lets +onlyGivenNames z; refine (fun (hz : Keeps bb z) => ?_) ?_; revert z; intro _ _; rotate_left; unfold z; clear z; rotate_left) | (extract_lets +onlyGivenNames z; revert z; intro _) | (simp only [Keeps.mk_iff]; with_reducible apply Keeps.upd) | with_reducible apply State.putRegBit_keeps | with_reducible apply Keeps.ite | split

theorem regionApply_keeps {bb : Base} (t : State) (n : Nat) (h_t : Keeps bb t) (hqr : ¬ bb.q.regs := by assumption) (hqp : ¬ bb.q.phase := by assumption) : Keeps bb (regionApply t n) := by
  unfold regionApply
  repeat' first | with_reducible assumption | intro _ | (extract_lets +onlyGivenNames z; refine (fun (hz : Keeps bb z) => ?_) ?_; clear_value z; revert z; intro _ _; rotate_left; unfold z; clear z; rotate_left) | (extract_lets +onlyGivenNames z; refine (fun (hz : Keeps bb z.1) => ?_) ?_; clear_value z; revert z; intro _ _; rotate_left; unfold z; clear z; rotate_left) | (extract_lets +onlyGivenNames z; refine (fun (hz : Keeps bb z) => ?_) ?_; revert z; intro _ _; rotate_left; unfold z; clear z; rotate_left) | (extract_lets +onlyGivenNames z; revert z; intro _) | with_reducible apply State.setReg_keeps | with_reducible apply closeNotice_keeps

theorem countOverlaps_keeps {bb : Base} (t : State) (h_t : Keeps bb t) (hqr : ¬ bb.q.regs := by assumption) (hqp : ¬ bb.q.phase := by assumption) : Keeps bb (countOverlaps t) := by
  unfold countOverlaps
  repeat' first | with_reducible assumption | intro _ | (extract_lets +onlyGivenNames z; refine (fun (hz : Keeps bb z) => ?_) ?_; clear_value z; revert z; intro _ _; rotate_left; unfold z; clear z; rotate_left) | (extract_lets +onlyGivenNames z; refine (fun (hz : Keeps bb z.1) => ?_) ?_; clear_value z; revert z; intro _ _; rotate_left; unfold z; clear z; rotate_left) | (extract_lets +onlyGivenNames z; refine (fun (hz : Keeps bb z) => ?_) ?_; revert z; intro _ _; rotate_left; unfold z; clear z; rotate_left) | (extract_lets +onlyGivenNames z; revert z; intro _) | with_reducible apply State.setReg_keeps | with_reducible apply Keeps.forEach | with_reducible apply raise_keeps | with_reducible apply Keeps.ite | split

theorem regionsApply_keeps {bb : Base} (s : State) (c : State) (t : State) (h_s : Keeps bb s) (h_c : Keeps bb c) (h_t : Keeps bb t) (hqr : ¬ bb.q.regs := by assumption) (hqp : ¬ bb.q.phase := by assumption) : Keeps bb (regionsApply s c t) := by
  unfold regionsApply
  repeat' first | with_reducible assumption | intro _ | (extract_lets +onlyGivenNames z; refine (fun (hz : Keeps bb z) => ?_) ?_; clear_value z; revert z; intro _ _; rotate_left; unfold z; clear z; rotate_left) | (extract_lets +onlyGivenNames z; refine (fun (hz : Keeps bb z.1) => ?_) ?_; clear_value z; revert z; intro _ _; rotate_left; unfold z; clear z; rotate_left) | (extract_lets +onlyGivenNames z; refine (fun (hz : Keeps bb z) => ?_) ?_; revert z; intro _ _; rotate_left; unfold z; clear z; rotate_left) | (extract_lets +onlyGivenNames z; revert z; intro _) | with_reducible apply countOverlaps_keeps | with_reducible apply Keeps.forEach | with_reducible apply regionApply_keeps | with_reducible apply Keeps.ite | split

theorem baseApply_keeps {bb : Base} (t : State) (x : Nat) (h_t : Keeps bb t) (hqm : ¬ bb.q.mem := by assumption) (hqr : ¬ bb.q.regs := by assumption) (hqp : ¬ bb.q.phase := by assumption) : Keeps bb (baseApply t x) := by
  unfold baseApply
  repeat' first | with_reducible assumption | intro _ | (extract_lets +onlyGivenNames z; refine (fun (hz : Keeps bb z) => ?_) ?_; clear_value z; revert z; intro _ _; rotate_left; unfold z; clear z; rotate_left) | (extract_lets +onlyGivenNames z; refine (fun (hz : Keeps bb z.1) => ?_) ?_; clear_value z; revert z; intro _ _; rotate_left; unfold z; clear z; rotate_left) | (extract_lets +onlyGivenNames z; refine (fun (hz : Keeps bb z) => ?_) ?_; revert z; intro _ _; rotate_left; unfold z; clear z; rotate_left) | (extract_lets +onlyGivenNames z; revert z; intro _) | (simp only [Keeps.mk_iff]; with_reducible apply Keeps.upd) | with_reducible apply forceMove_keeps | with_reducible apply Keeps.ite | split

theorem enableApply_keeps {bb : Base} (s : State) (t : State) (h_s : Keeps bb s) (h_t : Keeps bb t) (hqr : ¬ bb.q.regs := by assumption) : Keeps bb (enableApply s t) := by
  unfold enableApply
  repeat' first | with_reducible assumption | intro _ | with_reducible apply setPairState_keeps | with_reducible apply Keeps.ite | split

theorem beginHeartbeat_keeps {bb : Base} (t : State) (h_t : Keeps bb t)  : Keeps bb (beginHeartbeat t) := by
  unfold beginHeartbeat
  repeat' first | with_reducible assumption | intro _ | (simp only [Keeps.mk_iff]; with_reducible apply Keeps.upd) | with_reducible apply State.arm_keeps | with_reducible apply State.disarm_keeps | with_reducible apply Keeps.ite | split

theorem tenancyApply_keeps {bb : Base} (s : State) (c : State) (t : State) (n : Nat) (h_s : Keeps bb s) (h_c : Keeps bb c) (h_t : Keeps bb t) (hqm : ¬ bb.q.mem := by assumption) (hqr : ¬ bb.q.regs := by assumption) (hqp : ¬ bb.q.phase := by assumption) : Keeps bb (tenancyApply s c t n) := by
  unfold tenancyApply
  repeat' first | with_reducible assumption | intro _ | with_reducible apply createTenancy_keeps | with_reducible apply triggerReset_keeps | with_reducible apply Keeps.ite | split

theorem rangeApply_keeps {bb : Base} (s : State) (t : State) (e : Nat) (h_s : Keeps bb s) (h_t : Keeps bb t) (hqr : ¬ bb.q.regs := by assumption) : Keeps bb (rangeApply s t e) := by
  unfold rangeApply
  repeat' first | with_reducible assumption | intro _ | with_reducible apply State.putRegBit_keeps | with_reducible apply Keeps.ite | split

theorem writeStaged_keeps {bb : Base} (s : State) (pick : Nat → Bool) (t : State) (h_s : Keeps bb s) (h_t : Keeps bb t) (hqr : ¬ bb.q.regs := by assumption) : Keeps bb (writeStaged s pick t) := by
  unfold writeStaged
  repeat' first | with_reducible assumption | intro _ | with_reducible apply Keeps.forEach | with_reducible apply plainWrite_keeps

theorem applyBefore_keeps {bb : Base} (s : State) (c : State) (h_s : Keeps bb s) (h_c : Keeps bb c) (hqm : ¬ bb.q.mem := by assumption) (hqr : ¬ bb.q.regs := by assumption) (hqp : ¬ bb.q.phase := by assumption) : Keeps bb (applyBefore s c) := by
  unfold applyBefore
  repeat' first | with_reducible assumption | intro _ | (extract_lets +onlyGivenNames z; refine (fun (hz : Keeps bb z) => ?_) ?_; clear_value z; revert z; intro _ _; rotate_left; unfold z; clear z; rotate_left) | (extract_lets +onlyGivenNames z; refine (fun (hz : Keeps bb z.1) => ?_) ?_; clear_value z; revert z; intro _ _; rotate_left; unfold z; clear z; rotate_left) | (extract_lets +onlyGivenNames z; refine (fun (hz : Keeps bb z) => ?_) ?_; revert z; intro _ _; rotate_left; unfold z; clear z; rotate_left) | (extract_lets +onlyGivenNames z; revert z; intro _) | with_reducible apply agentLeaves_keeps | with_reducible apply Keeps.forEach | with_reducible apply portDown_keeps | with_reducible apply unbindLd_keeps

theorem applyLinks_keeps {bb : Base} (s : State) (c : State) (t : State) (h_s : Keeps bb s) (h_c : Keeps bb c) (h_t : Keeps bb t) (hqr : ¬ bb.q.regs := by assumption) : Keeps bb (applyLinks s c t) := by
  unfold applyLinks
  repeat' first | with_reducible assumption | intro _ | (extract_lets +onlyGivenNames z; refine (fun (hz : Keeps bb z) => ?_) ?_; clear_value z; revert z; intro _ _; rotate_left; unfold z; clear z; rotate_left) | (extract_lets +onlyGivenNames z; refine (fun (hz : Keeps bb z.1) => ?_) ?_; clear_value z; revert z; intro _ _; rotate_left; unfold z; clear z; rotate_left) | (extract_lets +onlyGivenNames z; refine (fun (hz : Keeps bb z) => ?_) ?_; revert z; intro _ _; rotate_left; unfold z; clear z; rotate_left) | (extract_lets +onlyGivenNames z; revert z; intro _) | with_reducible apply agentArrives_keeps | with_reducible apply enableApply_keeps | with_reducible apply evalRegime_keeps | with_reducible apply Keeps.forEach | with_reducible apply leaveHeld_keeps | with_reducible apply perstFollow_keeps | with_reducible apply pinsApply_keeps | with_reducible apply portTrains_keeps | with_reducible apply programDecoders_keeps | with_reducible apply rebindApply_keeps | with_reducible apply recomputeRoutes_keeps | with_reducible apply resizeShared_keeps | with_reducible apply slotApply_keeps | with_reducible apply speedChange_keeps | with_reducible apply vppbApply_keeps | with_reducible apply Keeps.ite | split

theorem applyRest_keeps {bb : Base} (s : State) (c : State) (t : State) (h_s : Keeps bb s) (h_c : Keeps bb c) (h_t : Keeps bb t) (hqm : ¬ bb.q.mem := by assumption) (hqr : ¬ bb.q.regs := by assumption) (hqp : ¬ bb.q.phase := by assumption) : Keeps bb (applyRest s c t) := by
  unfold applyRest
  repeat' first | with_reducible assumption | intro _ | (extract_lets +onlyGivenNames z; refine (fun (hz : Keeps bb z) => ?_) ?_; clear_value z; revert z; intro _ _; rotate_left; unfold z; clear z; rotate_left) | (extract_lets +onlyGivenNames z; refine (fun (hz : Keeps bb z.1) => ?_) ?_; clear_value z; revert z; intro _ _; rotate_left; unfold z; clear z; rotate_left) | (extract_lets +onlyGivenNames z; refine (fun (hz : Keeps bb z) => ?_) ?_; revert z; intro _ _; rotate_left; unfold z; clear z; rotate_left) | (extract_lets +onlyGivenNames z; revert z; intro _) | with_reducible apply allocsApply_keeps | with_reducible apply baseApply_keeps | with_reducible apply beginHeartbeat_keeps | with_reducible apply decoderApply_keeps | with_reducible apply Keeps.forEach | with_reducible apply rangeApply_keeps | with_reducible apply regionsApply_keeps | with_reducible apply releaseHeld_keeps | with_reducible apply tenancyApply_keeps

theorem commitWriter_keeps {bb : Base} (s : State) (t : State) (h_s : Keeps bb s) (h_t : Keeps bb t) (hqr : ¬ bb.q.regs := by assumption) : Keeps bb (commitWriter s t) := by
  unfold commitWriter
  repeat' first | with_reducible assumption | intro _ | with_reducible apply Keeps.withState | with_reducible apply Keeps.withSome | with_reducible apply recordWriter_keeps

theorem applyStaged_keeps {bb : Base} (s : State) (h_s : Keeps bb s) (hqm : ¬ bb.q.mem := by assumption) (hqr : ¬ bb.q.regs := by assumption) (hqp : ¬ bb.q.phase := by assumption) : Keeps bb (applyStaged s) := by
  unfold applyStaged
  repeat' first | with_reducible assumption | intro _ | (extract_lets +onlyGivenNames z; refine (fun (hz : Keeps bb z) => ?_) ?_; clear_value z; revert z; intro _ _; rotate_left; unfold z; clear z; rotate_left) | (extract_lets +onlyGivenNames z; refine (fun (hz : Keeps bb z.1) => ?_) ?_; clear_value z; revert z; intro _ _; rotate_left; unfold z; clear z; rotate_left) | (extract_lets +onlyGivenNames z; refine (fun (hz : Keeps bb z) => ?_) ?_; revert z; intro _ _; rotate_left; unfold z; clear z; rotate_left) | (extract_lets +onlyGivenNames z; revert z; intro _) | with_reducible apply applyBefore_keeps | with_reducible apply applyLinks_keeps | with_reducible apply applyRest_keeps | with_reducible apply candidate_keeps | with_reducible apply commitWriter_keeps | with_reducible apply discardStaged_keeps | with_reducible apply writeStaged_keeps

theorem answerCommit_keeps {bb : Base} (t : State) (path : Path) (svc : Option Svc) (l : List (Nat × Nat)) (h_t : Keeps bb t) (hqr : ¬ bb.q.regs := by assumption) (hqp : ¬ bb.q.phase := by assumption) : Keeps bb (answerCommit t path svc l) := by
  unfold answerCommit
  repeat' first | with_reducible assumption | intro _ | (extract_lets +onlyGivenNames z; refine (fun (hz : Keeps bb z) => ?_) ?_; clear_value z; revert z; intro _ _; rotate_left; unfold z; clear z; rotate_left) | (extract_lets +onlyGivenNames z; refine (fun (hz : Keeps bb z.1) => ?_) ?_; clear_value z; revert z; intro _ _; rotate_left; unfold z; clear z; rotate_left) | (extract_lets +onlyGivenNames z; refine (fun (hz : Keeps bb z) => ?_) ?_; revert z; intro _ _; rotate_left; unfold z; clear z; rotate_left) | (extract_lets +onlyGivenNames z; revert z; intro _) | (simp only [Keeps.mk_iff]; with_reducible apply Keeps.upd) | with_reducible apply State.emit_keeps | with_reducible apply readdress_keeps | with_reducible apply resumeSvc_keeps | split

theorem execCommitApplied_moves {qf : Prop} (dt : Nat) (s : State) : Moves ⟨False, qf, False, False⟩ dt s (execCommitApplied dt s) := by
  unfold execCommitApplied
  refine run_moves ?_
  intro bb s hb h_s
  have hqm : ¬ bb.q.mem := by rw [hb]; exact id
  have hqr : ¬ bb.q.regs := by rw [hb]; exact id
  have hqp : ¬ bb.q.phase := by rw [hb]; exact id
  try dsimp -zeta only
  repeat' first | with_reducible assumption | intro _ | (extract_lets +onlyGivenNames z; refine (fun (hz : Keeps bb z) => ?_) ?_; clear_value z; revert z; intro _ _; rotate_left; unfold z; clear z; rotate_left) | (extract_lets +onlyGivenNames z; refine (fun (hz : Keeps bb z.1) => ?_) ?_; clear_value z; revert z; intro _ _; rotate_left; unfold z; clear z; rotate_left) | (extract_lets +onlyGivenNames z; refine (fun (hz : Keeps bb z) => ?_) ?_; revert z; intro _ _; rotate_left; unfold z; clear z; rotate_left) | (extract_lets +onlyGivenNames z; revert z; intro _) | (simp only [Keeps.mk_iff]; with_reducible apply Keeps.upd) | with_reducible apply answerCommit_keeps | with_reducible apply applyStaged_keeps | with_reducible apply run_keeps | split

theorem commitFails_keeps {bb : Base} (s : State) (f : Finding) (h_s : Keeps bb s) (hqr : ¬ bb.q.regs := by assumption) : Keeps bb (commitFails s f) := by
  unfold commitFails
  repeat' first | with_reducible assumption | intro _ | with_reducible apply State.setReg_keeps

theorem announceDown_keeps {bb : Base} (s : State) (h_s : Keeps bb s) (hqr : ¬ bb.q.regs := by assumption) : Keeps bb (announceDown s) := by
  unfold announceDown
  repeat' first | with_reducible assumption | intro _ | (extract_lets +onlyGivenNames z; refine (fun (hz : Keeps bb z) => ?_) ?_; clear_value z; revert z; intro _ _; rotate_left; unfold z; clear z; rotate_left) | (extract_lets +onlyGivenNames z; refine (fun (hz : Keeps bb z.1) => ?_) ?_; clear_value z; revert z; intro _ _; rotate_left; unfold z; clear z; rotate_left) | (extract_lets +onlyGivenNames z; refine (fun (hz : Keeps bb z) => ?_) ?_; revert z; intro _ _; rotate_left; unfold z; clear z; rotate_left) | (extract_lets +onlyGivenNames z; revert z; intro _) | with_reducible apply candidate_keeps | with_reducible apply Keeps.forEach | with_reducible apply passGoDown_keeps | split

theorem commitBegins_keeps {bb : Base} (s : State) (path : Path) (h_s : Keeps bb s) (hqr : ¬ bb.q.regs := by assumption) : Keeps bb (commitBegins s path) := by
  unfold commitBegins
  repeat' first | with_reducible assumption | intro _ | (extract_lets +onlyGivenNames z; refine (fun (hz : Keeps bb z) => ?_) ?_; clear_value z; revert z; intro _ _; rotate_left; unfold z; clear z; rotate_left) | (extract_lets +onlyGivenNames z; refine (fun (hz : Keeps bb z.1) => ?_) ?_; clear_value z; revert z; intro _ _; rotate_left; unfold z; clear z; rotate_left) | (extract_lets +onlyGivenNames z; refine (fun (hz : Keeps bb z) => ?_) ?_; revert z; intro _ _; rotate_left; unfold z; clear z; rotate_left) | (extract_lets +onlyGivenNames z; revert z; intro _) | (simp only [Keeps.mk_iff]; with_reducible apply Keeps.upd) | with_reducible apply State.setReg_keeps | with_reducible apply announceDown_keeps

theorem serveCommit_keeps {bb : Base} (s : State) (path : Path) (r : Rec) (h_s : Keeps bb s) (hqr : ¬ bb.q.regs := by assumption) (hqp : ¬ bb.q.phase := by assumption) : Keeps bb (serveCommit s path r) := by
  unfold serveCommit
  repeat' first | with_reducible assumption | intro _ | (extract_lets +onlyGivenNames z; refine (fun (hz : Keeps bb z) => ?_) ?_; clear_value z; revert z; intro _ _; rotate_left; unfold z; clear z; rotate_left) | (extract_lets +onlyGivenNames z; refine (fun (hz : Keeps bb z.1) => ?_) ?_; clear_value z; revert z; intro _ _; rotate_left; unfold z; clear z; rotate_left) | (extract_lets +onlyGivenNames z; refine (fun (hz : Keeps bb z) => ?_) ?_; revert z; intro _ _; rotate_left; unfold z; clear z; rotate_left) | (extract_lets +onlyGivenNames z; revert z; intro _) | with_reducible apply answer_keeps | with_reducible apply commitBegins_keeps | with_reducible apply commitFails_keeps | with_reducible apply Keeps.ite | split

theorem execCommit_moves {qm qf : Prop} (dt : Nat) (path : Path) (s : State) : Moves ⟨qm, qf, False, False⟩ dt s (execCommit dt path s) := by
  unfold execCommit
  refine run_moves ?_
  intro bb s hb h_s
  have hqr : ¬ bb.q.regs := by rw [hb]; exact id
  have hqp : ¬ bb.q.phase := by rw [hb]; exact id
  try dsimp -zeta only
  repeat' first | with_reducible assumption | intro _ | with_reducible apply run_keeps | with_reducible apply serveCommit_keeps

end Sys2Proof.Machine
end

