-- ==== Sys2Proof/Laws/Keeps/GuardMem.lean ====
section
/-! SUPPORT. Every operation and meaning of Machine/GuardMem.lean keeps what `Keeps` says. -/
set_option linter.all false
namespace Sys2Proof.Machine

theorem setMemAddr_keeps {bb : Base} (s : State) (v : Nat) (h_s : Keeps bb s) (hqm : ¬ bb.q.mem := by assumption) (hqr : ¬ bb.q.regs := by assumption) (hqp : ¬ bb.q.phase := by assumption) : Keeps bb (setMemAddr s v) := by
  unfold setMemAddr
  repeat' first | with_reducible assumption | intro _ | (extract_lets +onlyGivenNames z; refine (fun (hz : Keeps bb z) => ?_) ?_; clear_value z; revert z; intro _ _; rotate_left; unfold z; clear z; rotate_left) | (extract_lets +onlyGivenNames z; refine (fun (hz : Keeps bb z.1) => ?_) ?_; clear_value z; revert z; intro _ _; rotate_left; unfold z; clear z; rotate_left) | (extract_lets +onlyGivenNames z; refine (fun (hz : Keeps bb z) => ?_) ?_; revert z; intro _ _; rotate_left; unfold z; clear z; rotate_left) | (extract_lets +onlyGivenNames z; revert z; intro _) | (simp only [Keeps.mk_iff]; with_reducible apply Keeps.upd) | with_reducible apply abandonDevice_keeps | with_reducible apply plainWrite_keeps

theorem execMemAddrWrite_moves {qf : Prop} (dt : Nat) (path : Path) (value : Nat) (s : State) : Moves ⟨False, qf, False, False⟩ dt s (execMemAddrWrite dt path value s) := by
  unfold execMemAddrWrite
  refine run_moves ?_
  intro bb s hb h_s
  have hqm : ¬ bb.q.mem := by rw [hb]; exact id
  have hqr : ¬ bb.q.regs := by rw [hb]; exact id
  have hqp : ¬ bb.q.phase := by rw [hb]; exact id
  try dsimp -zeta only
  repeat' first | with_reducible assumption | intro _ | with_reducible apply run_keeps | with_reducible apply serveWrite_keeps | with_reducible apply setMemAddr_keeps

theorem memReadFails_keeps {bb : Base} (s : State) (reason : Nat) (h_s : Keeps bb s) (hqr : ¬ bb.q.regs := by assumption) : Keeps bb (memReadFails s reason) := by
  unfold memReadFails
  repeat' first | with_reducible assumption | intro _ | with_reducible apply State.putRegBit_keeps | with_reducible apply guardFail_keeps

theorem memReadDone_keeps {bb : Base} (s : State) (poison : Bool) (h_s : Keeps bb s) (hqr : ¬ bb.q.regs := by assumption) : Keeps bb (memReadDone s poison) := by
  unfold memReadDone
  repeat' first | with_reducible assumption | intro _ | with_reducible apply State.putRegBit_keeps

theorem memDataOpened_keeps {bb : Base} (o : State × Option Bool) (path : Path) (op : RecOp) (r : Rec) (k : Nat) (h_o : Keeps bb o.1) (hqm : ¬ bb.q.mem := by assumption) (hqr : ¬ bb.q.regs := by assumption) (hqp : ¬ bb.q.phase := by assumption) : Keeps bb (memDataOpened o path op r k) := by
  unfold memDataOpened
  repeat' first | with_reducible assumption | intro _ | with_reducible apply memReadDone_keeps | with_reducible apply readKey_keeps | with_reducible apply serveRead_keeps | with_reducible apply Keeps.ite | split

theorem memDataGuarded_keeps {bb : Base} (verdict : Option Nat) (s : State) (path : Path) (op : RecOp) (r : Rec) (k : Nat) (h_s : Keeps bb s) (hqm : ¬ bb.q.mem := by assumption) (hqr : ¬ bb.q.regs := by assumption) (hqp : ¬ bb.q.phase := by assumption) : Keeps bb (memDataGuarded verdict s path op r k) := by
  unfold memDataGuarded
  repeat' first | with_reducible assumption | intro _ | with_reducible apply deviceOpen_keeps | with_reducible apply memDataOpened_keeps | with_reducible apply memReadFails_keeps | with_reducible apply serveRead_keeps | split

theorem memDataServe_keeps {bb : Base} (s : State) (path : Path) (op : RecOp) (r : Rec) (h_s : Keeps bb s) (hqm : ¬ bb.q.mem := by assumption) (hqr : ¬ bb.q.regs := by assumption) (hqp : ¬ bb.q.phase := by assumption) : Keeps bb (memDataServe s path op r) := by
  unfold memDataServe
  repeat' first | with_reducible assumption | intro _ | with_reducible apply memDataGuarded_keeps

theorem memDataRead_keeps {bb : Base} (s : State) (path : Path) (op : RecOp) (r : Rec) (h_s : Keeps bb s) (hqm : ¬ bb.q.mem := by assumption) (hqr : ¬ bb.q.regs := by assumption) (hqp : ¬ bb.q.phase := by assumption) : Keeps bb (memDataRead s path op r) := by
  unfold memDataRead
  repeat' first | with_reducible assumption | intro _ | with_reducible apply Keeps.ofId | with_reducible apply memDataServe_keeps | with_reducible apply serveRead_keeps | with_reducible apply Keeps.ite | split

theorem execMemDataRead_moves {qf : Prop} (dt : Nat) (path : Path) (s : State) : Moves ⟨False, qf, False, False⟩ dt s (execMemDataRead dt path s) := by
  unfold execMemDataRead
  refine run_moves ?_
  intro bb s hb h_s
  have hqm : ¬ bb.q.mem := by rw [hb]; exact id
  have hqr : ¬ bb.q.regs := by rw [hb]; exact id
  have hqp : ¬ bb.q.phase := by rw [hb]; exact id
  try dsimp -zeta only
  repeat' first | with_reducible assumption | intro _ | with_reducible apply memDataRead_keeps | with_reducible apply run_keeps

theorem memPutDone_keeps {bb : Base} (s : State) (path : Path) (r : Rec) (eff : State → State) (h_s : Keeps bb s) (h_eff : ∀ y0, Keeps bb y0 → Keeps bb (eff y0)) (hqr : ¬ bb.q.regs := by assumption) (hqp : ¬ bb.q.phase := by assumption) : Keeps bb (memPutDone s path r eff) := by
  unfold memPutDone
  repeat' first | with_reducible assumption | intro _ | with_reducible apply State.putRegBit_keeps | with_reducible apply serveWrite_keeps | with_reducible apply h_eff

theorem memPutOpened_keeps {bb : Base} (o : State × Option Bool) (path : Path) (r : Rec) (m : CohMsg) (h_o : Keeps bb o.1) (hqm : ¬ bb.q.mem := by assumption) (hqr : ¬ bb.q.regs := by assumption) (hqp : ¬ bb.q.phase := by assumption) : Keeps bb (memPutOpened o path r m) := by
  unfold memPutOpened
  repeat' first | with_reducible assumption | intro _ | (extract_lets +onlyGivenNames z; refine (fun (hz : Keeps bb z) => ?_) ?_; clear_value z; revert z; intro _ _; rotate_left; unfold z; clear z; rotate_left) | (extract_lets +onlyGivenNames z; refine (fun (hz : Keeps bb z.1) => ?_) ?_; clear_value z; revert z; intro _ _; rotate_left; unfold z; clear z; rotate_left) | (extract_lets +onlyGivenNames z; refine (fun (hz : Keeps bb z) => ?_) ?_; revert z; intro _ _; rotate_left; unfold z; clear z; rotate_left) | (extract_lets +onlyGivenNames z; revert z; intro _) | (simp only [Keeps.mk_iff]; with_reducible apply Keeps.upd) | with_reducible apply deviceWrite_keeps | with_reducible apply memPutDone_keeps | with_reducible apply Keeps.ite | split

theorem memPutGuarded_keeps {bb : Base} (verdict : Option Nat) (s : State) (path : Path) (r : Rec) (m : CohMsg) (h_s : Keeps bb s) (hqm : ¬ bb.q.mem := by assumption) (hqr : ¬ bb.q.regs := by assumption) (hqp : ¬ bb.q.phase := by assumption) : Keeps bb (memPutGuarded verdict s path r m) := by
  unfold memPutGuarded
  repeat' first | with_reducible assumption | intro _ | (extract_lets +onlyGivenNames z; refine (fun (hz : Keeps bb z) => ?_) ?_; clear_value z; revert z; intro _ _; rotate_left; unfold z; clear z; rotate_left) | (extract_lets +onlyGivenNames z; refine (fun (hz : Keeps bb z.1) => ?_) ?_; clear_value z; revert z; intro _ _; rotate_left; unfold z; clear z; rotate_left) | (extract_lets +onlyGivenNames z; refine (fun (hz : Keeps bb z) => ?_) ?_; revert z; intro _ _; rotate_left; unfold z; clear z; rotate_left) | (extract_lets +onlyGivenNames z; revert z; intro _) | (simp only [Keeps.mk_iff]; with_reducible apply Keeps.upd) | with_reducible apply Keeps.ofId | with_reducible apply State.putRegBit_keeps | with_reducible apply deviceOpen_keeps | with_reducible apply guardFail_keeps | with_reducible apply memPutDone_keeps | with_reducible apply memPutOpened_keeps | with_reducible apply serveWrite_keeps | with_reducible apply Keeps.ite | split

theorem memDataPut_keeps {bb : Base} (s : State) (path : Path) (r : Rec) (h_s : Keeps bb s) (hqm : ¬ bb.q.mem := by assumption) (hqr : ¬ bb.q.regs := by assumption) (hqp : ¬ bb.q.phase := by assumption) : Keeps bb (memDataPut s path r) := by
  unfold memDataPut
  repeat' first | with_reducible assumption | intro _ | with_reducible apply memPutGuarded_keeps

theorem memDataWrite_keeps {bb : Base} (s : State) (path : Path) (r : Rec) (h_s : Keeps bb s) (hqm : ¬ bb.q.mem := by assumption) (hqr : ¬ bb.q.regs := by assumption) (hqp : ¬ bb.q.phase := by assumption) : Keeps bb (memDataWrite s path r) := by
  unfold memDataWrite
  repeat' first | with_reducible assumption | intro _ | with_reducible apply Keeps.ofId | with_reducible apply memDataPut_keeps | with_reducible apply serveWrite_keeps | with_reducible apply Keeps.ite | split

theorem execMemDataWrite_moves {qf : Prop} (dt : Nat) (path : Path) (value : Nat) (s : State) : Moves ⟨False, qf, False, False⟩ dt s (execMemDataWrite dt path value s) := by
  unfold execMemDataWrite
  refine run_moves ?_
  intro bb s hb h_s
  have hqm : ¬ bb.q.mem := by rw [hb]; exact id
  have hqr : ¬ bb.q.regs := by rw [hb]; exact id
  have hqp : ¬ bb.q.phase := by rw [hb]; exact id
  try dsimp -zeta only
  repeat' first | with_reducible assumption | intro _ | with_reducible apply memDataWrite_keeps | with_reducible apply run_keeps

theorem releaseEnds_keeps {bb : Base} (s : State) (r : Release) (h_s : Keeps bb s) (hqr : ¬ bb.q.regs := by assumption) : Keeps bb (releaseEnds s r) := by
  unfold releaseEnds
  repeat' first | with_reducible assumption | intro _ | with_reducible apply State.setRegBits_keeps | with_reducible apply Keeps.ite | split

theorem execReleaseSweepDone_moves {qm qf : Prop} (dt : Nat) (s : State) : Moves ⟨qm, qf, False, False⟩ dt s (execReleaseSweepDone dt s) := by
  unfold execReleaseSweepDone
  refine run_moves ?_
  intro bb s hb h_s
  have hqr : ¬ bb.q.regs := by rw [hb]; exact id
  have hqp : ¬ bb.q.phase := by rw [hb]; exact id
  try dsimp -zeta only
  repeat' first | with_reducible assumption | intro _ | (extract_lets +onlyGivenNames z; refine (fun (hz : Keeps bb z) => ?_) ?_; clear_value z; revert z; intro _ _; rotate_left; unfold z; clear z; rotate_left) | (extract_lets +onlyGivenNames z; refine (fun (hz : Keeps bb z.1) => ?_) ?_; clear_value z; revert z; intro _ _; rotate_left; unfold z; clear z; rotate_left) | (extract_lets +onlyGivenNames z; refine (fun (hz : Keeps bb z) => ?_) ?_; revert z; intro _ _; rotate_left; unfold z; clear z; rotate_left) | (extract_lets +onlyGivenNames z; revert z; intro _) | (simp only [Keeps.mk_iff]; with_reducible apply Keeps.upd) | with_reducible apply Keeps.forEach | with_reducible apply releaseEnds_keeps | with_reducible apply run_keeps | with_reducible apply work_keeps | with_reducible apply Keeps.ite | split

end Sys2Proof.Machine
end

