-- ==== Sys2Proof/Laws/Keeps/Windows.lean ====
section
/-! SUPPORT. Every operation and meaning of Machine/Windows.lean keeps what `Keeps` says. -/
set_option linter.all false
namespace Sys2Proof.Machine

theorem writeControl_keeps {bb : Base} (s : State) (port : Nat) (t : Nat) (v : Nat) (h_s : Keeps bb s) (hqr : ¬ bb.q.regs := by assumption) : Keeps bb (writeControl s port t v) := by
  unfold writeControl
  repeat' first | with_reducible assumption | intro _ | with_reducible apply State.emit_keeps | with_reducible apply ringChannel_keeps | with_reducible apply startChannel_keeps | with_reducible apply stopChannel_keeps | split

theorem setChanIrq_keeps {bb : Base} (s : State) (t : Nat) (status : Nat) (enable : Nat) (h_s : Keeps bb s)  : Keeps bb (setChanIrq s t status enable) := by
  unfold setChanIrq
  repeat' first | with_reducible assumption | intro _ | (extract_lets +onlyGivenNames z; refine (fun (hz : Keeps bb z) => ?_) ?_; clear_value z; revert z; intro _ _; rotate_left; unfold z; clear z; rotate_left) | (extract_lets +onlyGivenNames z; refine (fun (hz : Keeps bb z.1) => ?_) ?_; clear_value z; revert z; intro _ _; rotate_left; unfold z; clear z; rotate_left) | (extract_lets +onlyGivenNames z; refine (fun (hz : Keeps bb z) => ?_) ?_; revert z; intro _ _; rotate_left; unfold z; clear z; rotate_left) | (extract_lets +onlyGivenNames z; revert z; intro _) | (simp only [Keeps.mk_iff]; with_reducible apply Keeps.upd) | with_reducible apply State.setChan_keeps | with_reducible apply dropHeld_keeps

theorem glenWrite_keeps {bb : Base} (s : State) (a : WindowWrite) (t : Nat) (h_s : Keeps bb s) (hqm : ¬ bb.q.mem := by assumption) (hqr : ¬ bb.q.regs := by assumption) (hqp : ¬ bb.q.phase := by assumption) : Keeps bb (glenWrite s a t) := by
  unfold glenWrite
  repeat' first | with_reducible assumption | intro _ | (extract_lets +onlyGivenNames z; refine (fun (hz : Keeps bb z) => ?_) ?_; clear_value z; revert z; intro _ _; rotate_left; unfold z; clear z; rotate_left) | (extract_lets +onlyGivenNames z; refine (fun (hz : Keeps bb z.1) => ?_) ?_; clear_value z; revert z; intro _ _; rotate_left; unfold z; clear z; rotate_left) | (extract_lets +onlyGivenNames z; refine (fun (hz : Keeps bb z) => ?_) ?_; revert z; intro _ _; rotate_left; unfold z; clear z; rotate_left) | (extract_lets +onlyGivenNames z; revert z; intro _) | with_reducible apply State.emit_keeps | with_reducible apply setChanIrq_keeps | with_reducible apply writeControl_keeps | with_reducible apply writeDescArea_keeps | with_reducible apply writePointer_keeps | with_reducible apply Keeps.ite | split

theorem setInMask_keeps {bb : Base} (s : State) (t : Nat) (v : Nat) (h_s : Keeps bb s)  : Keeps bb (setInMask s t v) := by
  unfold setInMask
  repeat' first | with_reducible assumption | intro _ | (extract_lets +onlyGivenNames z; refine (fun (hz : Keeps bb z) => ?_) ?_; clear_value z; revert z; intro _ _; rotate_left; unfold z; clear z; rotate_left) | (extract_lets +onlyGivenNames z; refine (fun (hz : Keeps bb z.1) => ?_) ?_; clear_value z; revert z; intro _ _; rotate_left; unfold z; clear z; rotate_left) | (extract_lets +onlyGivenNames z; refine (fun (hz : Keeps bb z) => ?_) ?_; revert z; intro _ _; rotate_left; unfold z; clear z; rotate_left) | (extract_lets +onlyGivenNames z; revert z; intro _) | (simp only [Keeps.mk_iff]; with_reducible apply Keeps.upd) | with_reducible apply State.setPair_keeps

theorem setPairIrq_keeps {bb : Base} (s : State) (t : Nat) (status : Nat) (enable : Nat) (h_s : Keeps bb s)  : Keeps bb (setPairIrq s t status enable) := by
  unfold setPairIrq
  repeat' first | with_reducible assumption | intro _ | (extract_lets +onlyGivenNames z; refine (fun (hz : Keeps bb z) => ?_) ?_; clear_value z; revert z; intro _ _; rotate_left; unfold z; clear z; rotate_left) | (extract_lets +onlyGivenNames z; refine (fun (hz : Keeps bb z.1) => ?_) ?_; clear_value z; revert z; intro _ _; rotate_left; unfold z; clear z; rotate_left) | (extract_lets +onlyGivenNames z; refine (fun (hz : Keeps bb z) => ?_) ?_; revert z; intro _ _; rotate_left; unfold z; clear z; rotate_left) | (extract_lets +onlyGivenNames z; revert z; intro _) | (simp only [Keeps.mk_iff]; with_reducible apply Keeps.upd) | with_reducible apply State.setPair_keeps | with_reducible apply dropHeld_keeps

theorem boxWrite_keeps {bb : Base} (s : State) (a : WindowWrite) (t : Nat) (h_s : Keeps bb s) (hqm : ¬ bb.q.mem := by assumption) (hqr : ¬ bb.q.regs := by assumption) (hqp : ¬ bb.q.phase := by assumption) : Keeps bb (boxWrite s a t) := by
  unfold boxWrite
  repeat' first | with_reducible assumption | intro _ | (extract_lets +onlyGivenNames z; refine (fun (hz : Keeps bb z) => ?_) ?_; clear_value z; revert z; intro _ _; rotate_left; unfold z; clear z; rotate_left) | (extract_lets +onlyGivenNames z; refine (fun (hz : Keeps bb z.1) => ?_) ?_; clear_value z; revert z; intro _ _; rotate_left; unfold z; clear z; rotate_left) | (extract_lets +onlyGivenNames z; refine (fun (hz : Keeps bb z) => ?_) ?_; revert z; intro _ _; rotate_left; unfold z; clear z; rotate_left) | (extract_lets +onlyGivenNames z; revert z; intro _) | with_reducible apply State.emit_keeps | with_reducible apply setInMask_keeps | with_reducible apply setPairIrq_keeps | with_reducible apply writeDoorbell_keeps | with_reducible apply writeOut_keeps | with_reducible apply writeTakeReg_keeps | with_reducible apply Keeps.ite | split

theorem msixWrite_keeps {bb : Base} (s : State) (a : WindowWrite) (h_s : Keeps bb s)  : Keeps bb (msixWrite s a) := by
  unfold msixWrite
  repeat' first | with_reducible assumption | intro _ | (extract_lets +onlyGivenNames z; refine (fun (hz : Keeps bb z) => ?_) ?_; clear_value z; revert z; intro _ _; rotate_left; unfold z; clear z; rotate_left) | (extract_lets +onlyGivenNames z; refine (fun (hz : Keeps bb z.1) => ?_) ?_; clear_value z; revert z; intro _ _; rotate_left; unfold z; clear z; rotate_left) | (extract_lets +onlyGivenNames z; refine (fun (hz : Keeps bb z) => ?_) ?_; revert z; intro _ _; rotate_left; unfold z; clear z; rotate_left) | (extract_lets +onlyGivenNames z; revert z; intro _) | (simp only [Keeps.mk_iff]; with_reducible apply Keeps.upd) | with_reducible apply State.emit_keeps

theorem windowWrite_keeps {bb : Base} (s : State) (a : WindowWrite) (h_s : Keeps bb s) (hqm : ¬ bb.q.mem := by assumption) (hqr : ¬ bb.q.regs := by assumption) (hqp : ¬ bb.q.phase := by assumption) : Keeps bb (windowWrite s a) := by
  unfold windowWrite
  repeat' first | with_reducible assumption | intro _ | with_reducible apply State.emit_keeps | with_reducible apply boxWrite_keeps | with_reducible apply glenWindow_keeps | with_reducible apply glenWrite_keeps | with_reducible apply mailboxWindow_keeps | with_reducible apply msixWrite_keeps | with_reducible apply Keeps.ite | split

theorem completeRead_keeps {bb : Base} (s : State) (port : Nat) (data : Nat) (o : Out) (h_s : Keeps bb s)  : Keeps bb (completeRead s port data o) := by
  unfold completeRead
  repeat' first | with_reducible assumption | intro _ | with_reducible apply sendHost_keeps

theorem windowTouch_keeps {bb : Base} (s : State) (port : Nat) (offset : Nat) (width : Nat) (h_s : Keeps bb s) (hqm : ¬ bb.q.mem := by assumption) (hqr : ¬ bb.q.regs := by assumption) (hqp : ¬ bb.q.phase := by assumption) : Keeps bb (windowTouch s port offset width) := by
  unfold windowTouch
  repeat' first | with_reducible assumption | intro _ | with_reducible apply Keeps.withState | with_reducible apply State.sysRead_keeps | with_reducible apply Keeps.withSome

theorem windowRead_keeps {bb : Base} (s : State) (port : Nat) (offset : Nat) (width : Nat) (h_s : Keeps bb s) (hqm : ¬ bb.q.mem := by assumption) (hqr : ¬ bb.q.regs := by assumption) (hqp : ¬ bb.q.phase := by assumption) : Keeps bb (windowRead s port offset width) := by
  unfold windowRead
  repeat' first | with_reducible assumption | intro _ | with_reducible apply completeRead_keeps | with_reducible apply windowTouch_keeps | with_reducible apply Keeps.ite | split

end Sys2Proof.Machine
end

