-- ==== Sys2Proof/Laws/Keeps/Access.lean ====
section
/-! SUPPORT. Every operation and meaning of Machine/Access.lean keeps what `Keeps` says. -/
set_option linter.all false
set_option Elab.async false
namespace Sys2Proof.Machine

theorem policerEffect_keeps {bb : Base} (a : Nat) (v : Nat) (s : State) (h_s : Keeps bb s) (hqr : ¬ bb.q.regs := by assumption) : Keeps bb (policerEffect a v s) := by
  unfold policerEffect
  repeat' first | with_reducible assumption | intro _ | (extract_lets +onlyGivenNames z; refine (fun (hz : Keeps bb z) => ?_) ?_; clear_value z; revert z; intro _ _; rotate_left; unfold z; clear z; rotate_left) | (extract_lets +onlyGivenNames z; refine (fun (hz : Keeps bb z.1) => ?_) ?_; clear_value z; revert z; intro _ _; rotate_left; unfold z; clear z; rotate_left) | (extract_lets +onlyGivenNames z; refine (fun (hz : Keeps bb z) => ?_) ?_; revert z; intro _ _; rotate_left; unfold z; clear z; rotate_left) | (extract_lets +onlyGivenNames z; revert z; intro _) | (simp only [Keeps.mk_iff]; with_reducible apply Keeps.upd) | with_reducible apply plainWrite_keeps | with_reducible apply Keeps.ite | split

theorem linkObjEffect_keeps {bb : Base} (a : Nat) (e : Nat) (v : Nat) (hqr : ¬ bb.q.regs := by assumption) (hqp : ¬ bb.q.phase := by assumption) : KeepsF bb (linkObjEffect a e v) := by
  unfold linkObjEffect
  repeat' first | with_reducible assumption | intro _ | with_reducible apply KeepsF.none | with_reducible apply KeepsF.some | with_reducible apply KeepsF.map | with_reducible apply adaptCtrlWrite_keeps | with_reducible apply discardStaged_keeps | with_reducible apply ffeWrite_keeps | with_reducible apply ideCtrlWrite_keeps | with_reducible apply marginReqWrite_keeps | with_reducible apply policerEffect_keeps | with_reducible apply portTestWrite_keeps | with_reducible apply prbsCtrlWrite_keeps | with_reducible apply swapCmdWrite_keeps | with_reducible apply Keeps.ite | split

theorem sampleNEffect_keeps {bb : Base} (e : Nat) (v : Nat) (s : State) (h_s : Keeps bb s) (hqr : ¬ bb.q.regs := by assumption) : Keeps bb (sampleNEffect e v s) := by
  unfold sampleNEffect
  repeat' first | with_reducible assumption | intro _ | (extract_lets +onlyGivenNames z; refine (fun (hz : Keeps bb z) => ?_) ?_; clear_value z; revert z; intro _ _; rotate_left; unfold z; clear z; rotate_left) | (extract_lets +onlyGivenNames z; refine (fun (hz : Keeps bb z.1) => ?_) ?_; clear_value z; revert z; intro _ _; rotate_left; unfold z; clear z; rotate_left) | (extract_lets +onlyGivenNames z; refine (fun (hz : Keeps bb z) => ?_) ?_; revert z; intro _ _; rotate_left; unfold z; clear z; rotate_left) | (extract_lets +onlyGivenNames z; revert z; intro _) | (simp only [Keeps.mk_iff]; with_reducible apply Keeps.upd) | with_reducible apply plainWrite_keeps

theorem switchObjEffect_keeps {bb : Base} (a : Nat) (e : Nat) (v : Nat) (hqr : ¬ bb.q.regs := by assumption) (hqp : ¬ bb.q.phase := by assumption) : KeepsF bb (switchObjEffect a e v) := by
  unfold switchObjEffect
  repeat' first | with_reducible assumption | intro _ | with_reducible apply KeepsF.none | with_reducible apply KeepsF.some | with_reducible apply KeepsF.map | with_reducible apply State.setReg_keeps | with_reducible apply passErrorsEffect_keeps | with_reducible apply policerEffect_keeps | with_reducible apply recomputeRoutes_keeps | with_reducible apply sampleNEffect_keeps | with_reducible apply shaperEffect_keeps | with_reducible apply Keeps.ite | split

theorem pinEffect_keeps {bb : Base} (x : Nat) (v : Nat) (s : State) (h_s : Keeps bb s) (hqr : ¬ bb.q.regs := by assumption) : Keeps bb (pinEffect x v s) := by
  unfold pinEffect
  repeat' first | with_reducible assumption | intro _ | (extract_lets +onlyGivenNames z; refine (fun (hz : Keeps bb z) => ?_) ?_; clear_value z; revert z; intro _ _; rotate_left; unfold z; clear z; rotate_left) | (extract_lets +onlyGivenNames z; refine (fun (hz : Keeps bb z.1) => ?_) ?_; clear_value z; revert z; intro _ _; rotate_left; unfold z; clear z; rotate_left) | (extract_lets +onlyGivenNames z; refine (fun (hz : Keeps bb z) => ?_) ?_; revert z; intro _ _; rotate_left; unfold z; clear z; rotate_left) | (extract_lets +onlyGivenNames z; revert z; intro _) | with_reducible apply abandonMove_keeps | with_reducible apply plainWrite_keeps | with_reducible apply Keeps.ite | split

theorem memoryObjEffect_keeps {bb : Base} (a : Nat) (e : Nat) (v : Nat) (hqm : ¬ bb.q.mem := by assumption) (hqr : ¬ bb.q.regs := by assumption) (hqp : ¬ bb.q.phase := by assumption) : KeepsF bb (memoryObjEffect a e v) := by
  unfold memoryObjEffect
  repeat' first | with_reducible assumption | intro _ | with_reducible apply KeepsF.none | with_reducible apply KeepsF.some | with_reducible apply KeepsF.map | with_reducible apply State.setReg_keeps | with_reducible apply beginTakeover_keeps | with_reducible apply declareDead_keeps | with_reducible apply destroySlot_keeps | with_reducible apply endAlias_keeps | with_reducible apply Keeps.forEach | with_reducible apply pinEffect_keeps | with_reducible apply qualify_keeps | with_reducible apply queueRow_keeps | with_reducible apply setMemAddr_keeps | with_reducible apply Keeps.ite | split

theorem outMaskEffect_keeps {bb : Base} (t : Nat) (v : Nat) (s : State) (h_s : Keeps bb s) (hqr : ¬ bb.q.regs := by assumption) (hqp : ¬ bb.q.phase := by assumption) : Keeps bb (outMaskEffect t v s) := by
  unfold outMaskEffect
  repeat' first | with_reducible assumption | intro _ | (extract_lets +onlyGivenNames z; refine (fun (hz : Keeps bb z) => ?_) ?_; clear_value z; revert z; intro _ _; rotate_left; unfold z; clear z; rotate_left) | (extract_lets +onlyGivenNames z; refine (fun (hz : Keeps bb z.1) => ?_) ?_; clear_value z; revert z; intro _ _; rotate_left; unfold z; clear z; rotate_left) | (extract_lets +onlyGivenNames z; refine (fun (hz : Keeps bb z) => ?_) ?_; revert z; intro _ _; rotate_left; unfold z; clear z; rotate_left) | (extract_lets +onlyGivenNames z; revert z; intro _) | with_reducible apply plainWrite_keeps | with_reducible apply summaryClear_keeps | with_reducible apply summarySet_keeps | with_reducible apply Keeps.ite | split

theorem summaryEffect_keeps {bb : Base} (w : Nat) (v : Nat) (s : State) (h_s : Keeps bb s) (hqr : ¬ bb.q.regs := by assumption) : Keeps bb (summaryEffect w v s) := by
  unfold summaryEffect
  repeat' first | with_reducible assumption | intro _ | with_reducible apply State.setReg_keeps | with_reducible apply Keeps.ite | split

theorem tenantObjEffect_keeps {bb : Base} (a : Nat) (e : Nat) (v : Nat) (hqm : ¬ bb.q.mem := by assumption) (hqr : ¬ bb.q.regs := by assumption) (hqp : ¬ bb.q.phase := by assumption) : KeepsF bb (tenantObjEffect a e v) := by
  unfold tenantObjEffect
  repeat' first | with_reducible assumption | intro _ | with_reducible apply KeepsF.none | with_reducible apply KeepsF.some | with_reducible apply KeepsF.map | with_reducible apply chanRateEffect_keeps | with_reducible apply outMaskEffect_keeps | with_reducible apply stopChannel_keeps | with_reducible apply summaryEffect_keeps | with_reducible apply takeOut_keeps | with_reducible apply triggerReset_keeps | with_reducible apply Keeps.ite | split

theorem watchObjEffect_keeps {bb : Base} (a : Nat) (e : Nat) (v : Nat) (hqr : ¬ bb.q.regs := by assumption) (hqp : ¬ bb.q.phase := by assumption) : KeepsF bb (watchObjEffect a e v) := by
  unfold watchObjEffect
  repeat' first | with_reducible assumption | intro _ | with_reducible apply KeepsF.none | with_reducible apply KeepsF.some | with_reducible apply KeepsF.map | with_reducible apply forceEffect_keeps | with_reducible apply holdEffect_keeps | with_reducible apply progSelectEffect_keeps | with_reducible apply recoveriesEffect_keeps | with_reducible apply setTimeBase_keeps | with_reducible apply sourceClearEffect_keeps | with_reducible apply tlmCtrlEffect_keeps | with_reducible apply watermarkEffect_keeps | with_reducible apply Keeps.ite | split

theorem packageObjEffect_keeps {bb : Base} (a : Nat) (e : Nat) (v : Nat) (data : List Byte) (hqm : ¬ bb.q.mem := by assumption) (hqf : ¬ bb.q.flash := by assumption) (hqr : ¬ bb.q.regs := by assumption) (hqp : ¬ bb.q.phase := by assumption) : KeepsF bb (packageObjEffect a e v data) := by
  unfold packageObjEffect
  repeat' first | with_reducible assumption | intro _ | with_reducible apply KeepsF.none | with_reducible apply KeepsF.some | with_reducible apply KeepsF.map | with_reducible apply State.putRegBit_keeps | with_reducible apply burnLife_keeps | with_reducible apply peakEffect_keeps | with_reducible apply slotCtrlEffect_keeps | with_reducible apply stateReqEffect_keeps | with_reducible apply svnEffect_keeps | with_reducible apply updateDataEffect_keeps | with_reducible apply updateEffect_keeps | with_reducible apply Keeps.ite | split

theorem objEffect_keeps {base : Base} (a e v : Nat) (data : List Byte) (s : State) (h_s : Keeps base s) (hqm : ¬ base.q.mem := by assumption) (hqf : ¬ base.q.flash := by assumption) (hqr : ¬ base.q.regs := by assumption) (hqp : ¬ base.q.phase := by assumption) :
    Keeps base (objEffect a e v data s) := by
  unfold objEffect
  exact KeepsF.getD (((((linkObjEffect_keeps a e v).or (switchObjEffect_keeps a e v)).or (memoryObjEffect_keeps a e v)).or
    (tenantObjEffect_keeps a e v)).or ((watchObjEffect_keeps a e v).or (packageObjEffect_keeps a e v data)))
    (fun t h => plainWrite_keeps t a e v h) h_s

theorem serveAnyWrite_keeps {bb : Base} (s0 : State) (path : Path) (r : Rec) (h_s0 : Keeps bb s0) (hqm : ¬ bb.q.mem := by assumption) (hqf : ¬ bb.q.flash := by assumption) (hqr : ¬ bb.q.regs := by assumption) (hqp : ¬ bb.q.phase := by assumption) : Keeps bb (serveAnyWrite s0 path r) := by
  unfold serveAnyWrite
  repeat' first | with_reducible assumption | intro _ | (extract_lets +onlyGivenNames z; refine (fun (hz : Keeps bb z) => ?_) ?_; clear_value z; revert z; intro _ _; rotate_left; unfold z; clear z; rotate_left) | (extract_lets +onlyGivenNames z; refine (fun (hz : Keeps bb z.1) => ?_) ?_; clear_value z; revert z; intro _ _; rotate_left; unfold z; clear z; rotate_left) | (extract_lets +onlyGivenNames z; refine (fun (hz : Keeps bb z) => ?_) ?_; revert z; intro _ _; rotate_left; unfold z; clear z; rotate_left) | (extract_lets +onlyGivenNames z; revert z; intro _) | with_reducible apply Keeps.ofId | with_reducible apply fieldReturnEffect_keeps | with_reducible apply memDataWrite_keeps | with_reducible apply objEffect_keeps | with_reducible apply serveCommit_keeps | with_reducible apply serveInData_keeps | with_reducible apply serveInSend_keeps | with_reducible apply serveReset_keeps | with_reducible apply serveWrite_keeps | with_reducible apply settleFor_keeps | with_reducible apply Keeps.ite | split

theorem configWrite_keeps {bb : Base} (s : State) (port : Nat) (vppb : Nat) (reg : FnReg) (value : Nat) (h_s : Keeps bb s)  : Keeps bb (configWrite s port vppb reg value) := by
  unfold configWrite
  repeat' first | with_reducible assumption | intro _ | with_reducible apply completeRead_keeps | with_reducible apply fnWrite_keeps | with_reducible apply Keeps.ite | split

theorem execWrite_moves (dt : Nat) (src : WriteSource) (s : State) : Moves ⟨False, False, False, False⟩ dt s (execWrite dt src s) := by
  unfold execWrite
  refine run_moves ?_
  intro bb s hb h_s
  have hqm : ¬ bb.q.mem := by rw [hb]; exact id
  have hqf : ¬ bb.q.flash := by rw [hb]; exact id
  have hqr : ¬ bb.q.regs := by rw [hb]; exact id
  have hqp : ¬ bb.q.phase := by rw [hb]; exact id
  try dsimp -zeta only
  repeat' first | with_reducible assumption | intro _ | with_reducible apply configWrite_keeps | with_reducible apply run_keeps | with_reducible apply serveAnyWrite_keeps | with_reducible apply windowWrite_keeps | split

theorem readEffect_keeps {bb : Base} (a : Nat) (e : Nat) (s : State) (h_s : Keeps bb s) (hqm : ¬ bb.q.mem := by assumption) (hqr : ¬ bb.q.regs := by assumption) (hqp : ¬ bb.q.phase := by assumption) : Keeps bb (readEffect a e s) := by
  unfold readEffect
  repeat' first | with_reducible assumption | intro _ | with_reducible apply State.sysRead_keeps | with_reducible apply State.useFree_keeps | with_reducible apply Keeps.ite | split

theorem serveAnyRead_keeps {bb : Base} (s0 : State) (path : Path) (op : RecOp) (r : Rec) (h_s0 : Keeps bb s0) (hqm : ¬ bb.q.mem := by assumption) (hqr : ¬ bb.q.regs := by assumption) (hqp : ¬ bb.q.phase := by assumption) : Keeps bb (serveAnyRead s0 path op r) := by
  unfold serveAnyRead
  repeat' first | with_reducible assumption | intro _ | (extract_lets +onlyGivenNames z; refine (fun (hz : Keeps bb z) => ?_) ?_; clear_value z; revert z; intro _ _; rotate_left; unfold z; clear z; rotate_left) | (extract_lets +onlyGivenNames z; refine (fun (hz : Keeps bb z.1) => ?_) ?_; clear_value z; revert z; intro _ _; rotate_left; unfold z; clear z; rotate_left) | (extract_lets +onlyGivenNames z; refine (fun (hz : Keeps bb z) => ?_) ?_; revert z; intro _ _; rotate_left; unfold z; clear z; rotate_left) | (extract_lets +onlyGivenNames z; revert z; intro _) | with_reducible apply dumpAdvance_keeps | with_reducible apply memDataRead_keeps | with_reducible apply readEffect_keeps | with_reducible apply serveRead_keeps | with_reducible apply serveTake_keeps | with_reducible apply settleFor_keeps | with_reducible apply tlmAdvance_keeps | with_reducible apply Keeps.ite | split

theorem configRead_keeps {bb : Base} (s : State) (port : Nat) (vppb : Nat) (reg : FnReg) (h_s : Keeps bb s)  : Keeps bb (configRead s port vppb reg) := by
  unfold configRead
  repeat' first | with_reducible assumption | intro _ | with_reducible apply completeRead_keeps | with_reducible apply Keeps.ite | split

theorem execRead_moves {qf : Prop} (dt : Nat) (src : ReadSource) (s : State) : Moves ⟨False, qf, False, False⟩ dt s (execRead dt src s) := by
  unfold execRead
  refine run_moves ?_
  intro bb s hb h_s
  have hqm : ¬ bb.q.mem := by rw [hb]; exact id
  have hqr : ¬ bb.q.regs := by rw [hb]; exact id
  have hqp : ¬ bb.q.phase := by rw [hb]; exact id
  try dsimp -zeta only
  repeat' first | with_reducible assumption | intro _ | with_reducible apply configRead_keeps | with_reducible apply run_keeps | with_reducible apply serveAnyRead_keeps | with_reducible apply windowRead_keeps | split

theorem execReadStaged_moves {qf : Prop} (dt : Nat) (path : Path) (r : Rec) (s : State) : Moves ⟨False, qf, False, False⟩ dt s (execReadStaged dt path r s) := by
  unfold execReadStaged
  refine run_moves ?_
  intro bb s hb h_s
  have hqm : ¬ bb.q.mem := by rw [hb]; exact id
  have hqr : ¬ bb.q.regs := by rw [hb]; exact id
  have hqp : ¬ bb.q.phase := by rw [hb]; exact id
  try dsimp -zeta only
  repeat' first | with_reducible assumption | intro _ | with_reducible apply Keeps.ofId | with_reducible apply run_keeps | with_reducible apply serveAnyRead_keeps | with_reducible apply serveRead_keeps | split

end Sys2Proof.Machine
end

