-- ==== Sys2Proof/Laws/Records.lean ====
section
/-! SUPPORT. What the frames of meanings and the records that pass their checks come to. -/
namespace Sys2Proof.Machine

theorem run_next {dt : Nat} {s : State} (f : State → State) (h : s.phase = .running) : run dt s f = .next (f (s.advance dt)) := by
  unfold run whenRunning
  rw [if_pos (show (s.advance dt).phase = .running from h)]

theorem runPowered_next {dt : Nat} {s : State} (f : State → State) (h : s.phase ≠ .unpowered) : runPowered dt s f = .next (f (s.advance dt)) := by
  show Host.Outcome.next (if (s.advance dt).phase = .unpowered then _ else _) = _
  rw [if_neg (show (s.advance dt).phase ≠ .unpowered from h)]

theorem run_idle {dt : Nat} {s : State} (f : State → State) (h : s.phase ≠ .running) : run dt s f = .next (s.advance dt) := by
  unfold run whenRunning
  rw [if_neg (show (s.advance dt).phase ≠ .running from h)]

theorem onDue_due {s : State} {t : Timer} (f : State → State) (h : s.due t = true) : s.onDue t f = f (s.disarm t) := by
  unfold State.onDue; rw [if_pos h]

theorem onDue_early {s : State} {t : Timer} (f : State → State) (h : s.due t = false) : s.onDue t f = s := by
  unfold State.onDue; rw [if_neg (by simp [h])]

theorem withSome_some {α : Type} {s : State} {o : Option α} {x : α} (f : α → State) (h : o = some x) : s.withSome o f = f x := by
  subst h; rfl

theorem withSome_none {α : Type} {s : State} {o : Option α} (f : α → State) (h : o = none) : s.withSome o f = s := by
  subst h; rfl

theorem recAddr (a : Nat) : a / 256 * 256 + a % 256 = a := by omega

theorem serveWriteThen_takes {s : State} {path : Path} {a : Nat} {e : Option Nat} {v : Nat} (eff after : State → State)
    (h : takesWrite s path a e v = true) : serveWriteThen s path (writeRec a e v) eff after = after (wrote s path a e v eff) := by
  unfold takesWrite at h
  simp only [Bool.and_eq_true, Bool.or_eq_true, bne_iff_ne, beq_iff_eq, ne_eq] at h
  obtain ⟨⟨⟨h1, h2⟩, h3⟩, hf⟩ := h
  obtain ⟨o, h4⟩ : ∃ o, findObj a = some o := by
    cases ho : findObj a with
    | none => rw [ho] at hf; cases hf
    | some o => exact ⟨o, rfl⟩
  rw [h4] at hf
  have h5 : o.onCommit = false ∨ pathClass path = .o := by simpa using hf
  have ha : (writeRec a e v).index * 256 + (writeRec a e v).sub = a := recAddr a
  unfold serveWriteThen wrote
  simp only [h1, h2, ha, h4, Bool.not_true, Bool.false_eq_true, if_false, ne_eq, not_true_eq_false]
  rw [if_neg (fun x => h3.elim (fun y => y x.1) (fun y => y x.2)), if_neg]
  · rfl
  · rintro ⟨x, y⟩
    cases h5 with
    | inl h => rw [h] at x; cases x
    | inr h => exact y h

theorem serveWrite_takes {s : State} {path : Path} {a : Nat} {e : Option Nat} {v : Nat} (eff : State → State)
    (h : takesWrite s path a e v = true) : serveWrite s path (writeRec a e v) eff = wrote s path a e v eff :=
  serveWriteThen_takes eff id h

theorem serveRead_takes {s : State} {path : Path} {a : Nat} {e : Option Nat} (data : State → Nat → Nat → List Byte) (eff : State → State)
    (h : takesRead s path a e = true) : serveRead s path .read (readRec a e) data eff = answer (eff s) path .read (readRec a e) .ok (data s a (e.getD 0)) := by
  unfold takesRead at h
  simp only [Bool.and_eq_true, beq_iff_eq] at h
  obtain ⟨⟨h1, h2⟩, hf⟩ := h
  obtain ⟨o, h3⟩ : ∃ o, lookupObj (a / 256) (a % 256) = .ok o := by
    cases ho : lookupObj (a / 256) (a % 256) with
    | error c => rw [ho] at hf; cases hf
    | ok o => exact ⟨o, rfl⟩
  have h7 : lookupObj (readRec a e).index (readRec a e).sub = .ok o := h3
  rw [h3] at hf
  simp only [Bool.and_eq_true, Bool.or_eq_true, bne_iff_ne, beq_iff_eq, ne_eq] at hf
  obtain ⟨⟨h4, h5⟩, h6⟩ := hf
  unfold serveRead
  simp only [h1, h2, h7, h6, h4, Bool.not_true, Bool.false_eq_true, if_false, ne_eq, not_true_eq_false]
  rw [if_neg]
  · rfl
  · rintro ⟨x, y⟩
    cases h5 with
    | inl h => exact x h
    | inr h => exact h y

/-- The manager's read of memory past the guard: the directory is asked. -/
theorem memDataServe_open {s : State} (path : Path) (op : RecOp) (r : Rec) (h : privGuard s (memKey s) false = none) :
    memDataServe s path op r = memDataOpened (deviceOpen s (deviceMsg s 3 (memKey s) memId 0 [] false)) path op r (memKey s) := by
  unfold memDataServe; rw [h]; rfl

/-- The manager's write of memory past the guard, where it has not been accepted before: the directory is asked. -/
theorem memPutGuarded_open {s : State} {path : Path} {r : Rec} {m : CohMsg} (h : s.guard.memWait ≠ some (m.key, m.data)) :
    memPutGuarded none s path r m = memPutOpened (deviceOpen s m) path r m := by
  unfold memPutGuarded; dsimp only; rw [if_neg h]

end Sys2Proof.Machine
end

