-- ==== Sys2Proof/Laws/State.lean ====
section
/-! SUPPORT. One lemma per field per named update of State, and the reads of a register and of memory after them. -/
set_option linter.all false
namespace Sys2Proof.Machine

/-! ### `State.advance` -/

@[simp] theorem State.advance_now (s : State) (dt : Nat) : (s.advance dt).now = s.now + dt := rfl
@[simp] theorem State.advance_resetAt (s : State) (dt : Nat) : (s.advance dt).resetAt = s.resetAt := rfl
@[simp] theorem State.advance_phase (s : State) (dt : Nat) : (s.advance dt).phase = s.phase := rfl
@[simp] theorem State.advance_regs (s : State) (dt : Nat) : (s.advance dt).regs = s.regs := rfl
@[simp] theorem State.advance_mem (s : State) (dt : Nat) : (s.advance dt).mem = s.mem := rfl
@[simp] theorem State.advance_lineMeta (s : State) (dt : Nat) : (s.advance dt).lineMeta = s.lineMeta := rfl
@[simp] theorem State.advance_flash (s : State) (dt : Nat) : (s.advance dt).flash = s.flash := rfl
@[simp] theorem State.advance_timers (s : State) (dt : Nat) : (s.advance dt).timers = s.timers := rfl
@[simp] theorem State.advance_free (s : State) (dt : Nat) : (s.advance dt).free = s.free := rfl
@[simp] theorem State.advance_out (s : State) (dt : Nat) : (s.advance dt).out = s.out := rfl
@[simp] theorem State.advance_mgmt (s : State) (dt : Nat) : (s.advance dt).mgmt = s.mgmt := rfl
@[simp] theorem State.advance_lane (s : State) (dt : Nat) : (s.advance dt).lane = s.lane := rfl
@[simp] theorem State.advance_edge (s : State) (dt : Nat) : (s.advance dt).edge = s.edge := rfl
@[simp] theorem State.advance_flt (s : State) (dt : Nat) : (s.advance dt).flt = s.flt := rfl
@[simp] theorem State.advance_tlm (s : State) (dt : Nat) : (s.advance dt).tlm = s.tlm := rfl
@[simp] theorem State.advance_boot (s : State) (dt : Nat) : (s.advance dt).boot = s.boot := rfl
@[simp] theorem State.advance_basin (s : State) (dt : Nat) : (s.advance dt).basin = s.basin := rfl
@[simp] theorem State.advance_sched (s : State) (dt : Nat) : (s.advance dt).sched = s.sched := rfl
@[simp] theorem State.advance_pass (s : State) (dt : Nat) : (s.advance dt).pass = s.pass := rfl
@[simp] theorem State.advance_slot (s : State) (dt : Nat) : (s.advance dt).slot = s.slot := rfl
@[simp] theorem State.advance_ten (s : State) (dt : Nat) : (s.advance dt).ten = s.ten := rfl
@[simp] theorem State.advance_twin (s : State) (dt : Nat) : (s.advance dt).twin = s.twin := rfl
@[simp] theorem State.advance_coh (s : State) (dt : Nat) : (s.advance dt).coh = s.coh := rfl
@[simp] theorem State.advance_stp (s : State) (dt : Nat) : (s.advance dt).stp = s.stp := rfl
@[simp] theorem State.advance_guard (s : State) (dt : Nat) : (s.advance dt).guard = s.guard := rfl
@[simp] theorem State.advance_col (s : State) (dt : Nat) : (s.advance dt).col = s.col := rfl
@[simp] theorem State.advance_glen (s : State) (dt : Nat) : (s.advance dt).glen = s.glen := rfl
@[simp] theorem State.advance_wear (s : State) (dt : Nat) : (s.advance dt).wear = s.wear := rfl
@[simp] theorem State.advance_pending (s : State) (dt : Nat) : (s.advance dt).pending = s.pending := rfl

/-! ### `State.setReg` -/

@[simp] theorem State.setReg_now (s : State) (a e v : Nat) : (s.setReg a e v).now = s.now := rfl
@[simp] theorem State.setReg_resetAt (s : State) (a e v : Nat) : (s.setReg a e v).resetAt = s.resetAt := rfl
@[simp] theorem State.setReg_phase (s : State) (a e v : Nat) : (s.setReg a e v).phase = s.phase := rfl
@[simp] theorem State.setReg_regs (s : State) (a e v : Nat) : (s.setReg a e v).regs = sparsePut defaultOf s.regs (regKey a e) v := rfl
@[simp] theorem State.setReg_mem (s : State) (a e v : Nat) : (s.setReg a e v).mem = s.mem := rfl
@[simp] theorem State.setReg_lineMeta (s : State) (a e v : Nat) : (s.setReg a e v).lineMeta = s.lineMeta := rfl
@[simp] theorem State.setReg_flash (s : State) (a e v : Nat) : (s.setReg a e v).flash = s.flash := rfl
@[simp] theorem State.setReg_timers (s : State) (a e v : Nat) : (s.setReg a e v).timers = s.timers := rfl
@[simp] theorem State.setReg_free (s : State) (a e v : Nat) : (s.setReg a e v).free = s.free := rfl
@[simp] theorem State.setReg_out (s : State) (a e v : Nat) : (s.setReg a e v).out = s.out := rfl
@[simp] theorem State.setReg_mgmt (s : State) (a e v : Nat) : (s.setReg a e v).mgmt = s.mgmt := rfl
@[simp] theorem State.setReg_lane (s : State) (a e v : Nat) : (s.setReg a e v).lane = s.lane := rfl
@[simp] theorem State.setReg_edge (s : State) (a e v : Nat) : (s.setReg a e v).edge = s.edge := rfl
@[simp] theorem State.setReg_flt (s : State) (a e v : Nat) : (s.setReg a e v).flt = s.flt := rfl
@[simp] theorem State.setReg_tlm (s : State) (a e v : Nat) : (s.setReg a e v).tlm = s.tlm := rfl
@[simp] theorem State.setReg_boot (s : State) (a e v : Nat) : (s.setReg a e v).boot = s.boot := rfl
@[simp] theorem State.setReg_basin (s : State) (a e v : Nat) : (s.setReg a e v).basin = s.basin := rfl
@[simp] theorem State.setReg_sched (s : State) (a e v : Nat) : (s.setReg a e v).sched = s.sched := rfl
@[simp] theorem State.setReg_pass (s : State) (a e v : Nat) : (s.setReg a e v).pass = s.pass := rfl
@[simp] theorem State.setReg_slot (s : State) (a e v : Nat) : (s.setReg a e v).slot = s.slot := rfl
@[simp] theorem State.setReg_ten (s : State) (a e v : Nat) : (s.setReg a e v).ten = s.ten := rfl
@[simp] theorem State.setReg_twin (s : State) (a e v : Nat) : (s.setReg a e v).twin = s.twin := rfl
@[simp] theorem State.setReg_coh (s : State) (a e v : Nat) : (s.setReg a e v).coh = s.coh := rfl
@[simp] theorem State.setReg_stp (s : State) (a e v : Nat) : (s.setReg a e v).stp = s.stp := rfl
@[simp] theorem State.setReg_guard (s : State) (a e v : Nat) : (s.setReg a e v).guard = s.guard := rfl
@[simp] theorem State.setReg_col (s : State) (a e v : Nat) : (s.setReg a e v).col = s.col := rfl
@[simp] theorem State.setReg_glen (s : State) (a e v : Nat) : (s.setReg a e v).glen = s.glen := rfl
@[simp] theorem State.setReg_wear (s : State) (a e v : Nat) : (s.setReg a e v).wear = s.wear := rfl
@[simp] theorem State.setReg_pending (s : State) (a e v : Nat) : (s.setReg a e v).pending = s.pending := rfl

/-! ### `State.arm` -/

@[simp] theorem State.arm_now (s : State) (t : Timer) (n : Nat) : (s.arm t n).now = s.now := rfl
@[simp] theorem State.arm_resetAt (s : State) (t : Timer) (n : Nat) : (s.arm t n).resetAt = s.resetAt := rfl
@[simp] theorem State.arm_phase (s : State) (t : Timer) (n : Nat) : (s.arm t n).phase = s.phase := rfl
@[simp] theorem State.arm_regs (s : State) (t : Timer) (n : Nat) : (s.arm t n).regs = s.regs := rfl
@[simp] theorem State.arm_mem (s : State) (t : Timer) (n : Nat) : (s.arm t n).mem = s.mem := rfl
@[simp] theorem State.arm_lineMeta (s : State) (t : Timer) (n : Nat) : (s.arm t n).lineMeta = s.lineMeta := rfl
@[simp] theorem State.arm_flash (s : State) (t : Timer) (n : Nat) : (s.arm t n).flash = s.flash := rfl
@[simp] theorem State.arm_timers (s : State) (t : Timer) (n : Nat) : (s.arm t n).timers = (t, s.now + n) :: s.timers.filter (fun e => e.1 != t) := rfl
@[simp] theorem State.arm_free (s : State) (t : Timer) (n : Nat) : (s.arm t n).free = s.free := rfl
@[simp] theorem State.arm_out (s : State) (t : Timer) (n : Nat) : (s.arm t n).out = s.out := rfl
@[simp] theorem State.arm_mgmt (s : State) (t : Timer) (n : Nat) : (s.arm t n).mgmt = s.mgmt := rfl
@[simp] theorem State.arm_lane (s : State) (t : Timer) (n : Nat) : (s.arm t n).lane = s.lane := rfl
@[simp] theorem State.arm_edge (s : State) (t : Timer) (n : Nat) : (s.arm t n).edge = s.edge := rfl
@[simp] theorem State.arm_flt (s : State) (t : Timer) (n : Nat) : (s.arm t n).flt = s.flt := rfl
@[simp] theorem State.arm_tlm (s : State) (t : Timer) (n : Nat) : (s.arm t n).tlm = s.tlm := rfl
@[simp] theorem State.arm_boot (s : State) (t : Timer) (n : Nat) : (s.arm t n).boot = s.boot := rfl
@[simp] theorem State.arm_basin (s : State) (t : Timer) (n : Nat) : (s.arm t n).basin = s.basin := rfl
@[simp] theorem State.arm_sched (s : State) (t : Timer) (n : Nat) : (s.arm t n).sched = s.sched := rfl
@[simp] theorem State.arm_pass (s : State) (t : Timer) (n : Nat) : (s.arm t n).pass = s.pass := rfl
@[simp] theorem State.arm_slot (s : State) (t : Timer) (n : Nat) : (s.arm t n).slot = s.slot := rfl
@[simp] theorem State.arm_ten (s : State) (t : Timer) (n : Nat) : (s.arm t n).ten = s.ten := rfl
@[simp] theorem State.arm_twin (s : State) (t : Timer) (n : Nat) : (s.arm t n).twin = s.twin := rfl
@[simp] theorem State.arm_coh (s : State) (t : Timer) (n : Nat) : (s.arm t n).coh = s.coh := rfl
@[simp] theorem State.arm_stp (s : State) (t : Timer) (n : Nat) : (s.arm t n).stp = s.stp := rfl
@[simp] theorem State.arm_guard (s : State) (t : Timer) (n : Nat) : (s.arm t n).guard = s.guard := rfl
@[simp] theorem State.arm_col (s : State) (t : Timer) (n : Nat) : (s.arm t n).col = s.col := rfl
@[simp] theorem State.arm_glen (s : State) (t : Timer) (n : Nat) : (s.arm t n).glen = s.glen := rfl
@[simp] theorem State.arm_wear (s : State) (t : Timer) (n : Nat) : (s.arm t n).wear = s.wear := rfl
@[simp] theorem State.arm_pending (s : State) (t : Timer) (n : Nat) : (s.arm t n).pending = s.pending := rfl

/-! ### `State.disarm` -/

@[simp] theorem State.disarm_now (s : State) (t : Timer) : (s.disarm t).now = s.now := rfl
@[simp] theorem State.disarm_resetAt (s : State) (t : Timer) : (s.disarm t).resetAt = s.resetAt := rfl
@[simp] theorem State.disarm_phase (s : State) (t : Timer) : (s.disarm t).phase = s.phase := rfl
@[simp] theorem State.disarm_regs (s : State) (t : Timer) : (s.disarm t).regs = s.regs := rfl
@[simp] theorem State.disarm_mem (s : State) (t : Timer) : (s.disarm t).mem = s.mem := rfl
@[simp] theorem State.disarm_lineMeta (s : State) (t : Timer) : (s.disarm t).lineMeta = s.lineMeta := rfl
@[simp] theorem State.disarm_flash (s : State) (t : Timer) : (s.disarm t).flash = s.flash := rfl
@[simp] theorem State.disarm_timers (s : State) (t : Timer) : (s.disarm t).timers = s.timers.filter (fun e => e.1 != t) := rfl
@[simp] theorem State.disarm_free (s : State) (t : Timer) : (s.disarm t).free = s.free := rfl
@[simp] theorem State.disarm_out (s : State) (t : Timer) : (s.disarm t).out = s.out := rfl
@[simp] theorem State.disarm_mgmt (s : State) (t : Timer) : (s.disarm t).mgmt = s.mgmt := rfl
@[simp] theorem State.disarm_lane (s : State) (t : Timer) : (s.disarm t).lane = s.lane := rfl
@[simp] theorem State.disarm_edge (s : State) (t : Timer) : (s.disarm t).edge = s.edge := rfl
@[simp] theorem State.disarm_flt (s : State) (t : Timer) : (s.disarm t).flt = s.flt := rfl
@[simp] theorem State.disarm_tlm (s : State) (t : Timer) : (s.disarm t).tlm = s.tlm := rfl
@[simp] theorem State.disarm_boot (s : State) (t : Timer) : (s.disarm t).boot = s.boot := rfl
@[simp] theorem State.disarm_basin (s : State) (t : Timer) : (s.disarm t).basin = s.basin := rfl
@[simp] theorem State.disarm_sched (s : State) (t : Timer) : (s.disarm t).sched = s.sched := rfl
@[simp] theorem State.disarm_pass (s : State) (t : Timer) : (s.disarm t).pass = s.pass := rfl
@[simp] theorem State.disarm_slot (s : State) (t : Timer) : (s.disarm t).slot = s.slot := rfl
@[simp] theorem State.disarm_ten (s : State) (t : Timer) : (s.disarm t).ten = s.ten := rfl
@[simp] theorem State.disarm_twin (s : State) (t : Timer) : (s.disarm t).twin = s.twin := rfl
@[simp] theorem State.disarm_coh (s : State) (t : Timer) : (s.disarm t).coh = s.coh := rfl
@[simp] theorem State.disarm_stp (s : State) (t : Timer) : (s.disarm t).stp = s.stp := rfl
@[simp] theorem State.disarm_guard (s : State) (t : Timer) : (s.disarm t).guard = s.guard := rfl
@[simp] theorem State.disarm_col (s : State) (t : Timer) : (s.disarm t).col = s.col := rfl
@[simp] theorem State.disarm_glen (s : State) (t : Timer) : (s.disarm t).glen = s.glen := rfl
@[simp] theorem State.disarm_wear (s : State) (t : Timer) : (s.disarm t).wear = s.wear := rfl
@[simp] theorem State.disarm_pending (s : State) (t : Timer) : (s.disarm t).pending = s.pending := rfl

/-! ### `State.emit` -/

@[simp] theorem State.emit_now (s : State) (o : Out) : (s.emit o).now = s.now := rfl
@[simp] theorem State.emit_resetAt (s : State) (o : Out) : (s.emit o).resetAt = s.resetAt := rfl
@[simp] theorem State.emit_phase (s : State) (o : Out) : (s.emit o).phase = s.phase := rfl
@[simp] theorem State.emit_regs (s : State) (o : Out) : (s.emit o).regs = s.regs := rfl
@[simp] theorem State.emit_mem (s : State) (o : Out) : (s.emit o).mem = s.mem := rfl
@[simp] theorem State.emit_lineMeta (s : State) (o : Out) : (s.emit o).lineMeta = s.lineMeta := rfl
@[simp] theorem State.emit_flash (s : State) (o : Out) : (s.emit o).flash = s.flash := rfl
@[simp] theorem State.emit_timers (s : State) (o : Out) : (s.emit o).timers = s.timers := rfl
@[simp] theorem State.emit_free (s : State) (o : Out) : (s.emit o).free = s.free := rfl
@[simp] theorem State.emit_out (s : State) (o : Out) : (s.emit o).out = s.out ++ [o] := rfl
@[simp] theorem State.emit_mgmt (s : State) (o : Out) : (s.emit o).mgmt = s.mgmt := rfl
@[simp] theorem State.emit_lane (s : State) (o : Out) : (s.emit o).lane = s.lane := rfl
@[simp] theorem State.emit_edge (s : State) (o : Out) : (s.emit o).edge = s.edge := rfl
@[simp] theorem State.emit_flt (s : State) (o : Out) : (s.emit o).flt = s.flt := rfl
@[simp] theorem State.emit_tlm (s : State) (o : Out) : (s.emit o).tlm = s.tlm := rfl
@[simp] theorem State.emit_boot (s : State) (o : Out) : (s.emit o).boot = s.boot := rfl
@[simp] theorem State.emit_basin (s : State) (o : Out) : (s.emit o).basin = s.basin := rfl
@[simp] theorem State.emit_sched (s : State) (o : Out) : (s.emit o).sched = s.sched := rfl
@[simp] theorem State.emit_pass (s : State) (o : Out) : (s.emit o).pass = s.pass := rfl
@[simp] theorem State.emit_slot (s : State) (o : Out) : (s.emit o).slot = s.slot := rfl
@[simp] theorem State.emit_ten (s : State) (o : Out) : (s.emit o).ten = s.ten := rfl
@[simp] theorem State.emit_twin (s : State) (o : Out) : (s.emit o).twin = s.twin := rfl
@[simp] theorem State.emit_coh (s : State) (o : Out) : (s.emit o).coh = s.coh := rfl
@[simp] theorem State.emit_stp (s : State) (o : Out) : (s.emit o).stp = s.stp := rfl
@[simp] theorem State.emit_guard (s : State) (o : Out) : (s.emit o).guard = s.guard := rfl
@[simp] theorem State.emit_col (s : State) (o : Out) : (s.emit o).col = s.col := rfl
@[simp] theorem State.emit_glen (s : State) (o : Out) : (s.emit o).glen = s.glen := rfl
@[simp] theorem State.emit_wear (s : State) (o : Out) : (s.emit o).wear = s.wear := rfl
@[simp] theorem State.emit_pending (s : State) (o : Out) : (s.emit o).pending = s.pending := rfl

/-! ### `State.useFree` -/

@[simp] theorem State.useFree_now (s : State)  : (s.useFree).now = s.now := rfl
@[simp] theorem State.useFree_resetAt (s : State)  : (s.useFree).resetAt = s.resetAt := rfl
@[simp] theorem State.useFree_phase (s : State)  : (s.useFree).phase = s.phase := rfl
@[simp] theorem State.useFree_regs (s : State)  : (s.useFree).regs = s.regs := rfl
@[simp] theorem State.useFree_mem (s : State)  : (s.useFree).mem = s.mem := rfl
@[simp] theorem State.useFree_lineMeta (s : State)  : (s.useFree).lineMeta = s.lineMeta := rfl
@[simp] theorem State.useFree_flash (s : State)  : (s.useFree).flash = s.flash := rfl
@[simp] theorem State.useFree_timers (s : State)  : (s.useFree).timers = s.timers := rfl
@[simp] theorem State.useFree_free (s : State)  : (s.useFree).free = s.free + 1 := rfl
@[simp] theorem State.useFree_out (s : State)  : (s.useFree).out = s.out := rfl
@[simp] theorem State.useFree_mgmt (s : State)  : (s.useFree).mgmt = s.mgmt := rfl
@[simp] theorem State.useFree_lane (s : State)  : (s.useFree).lane = s.lane := rfl
@[simp] theorem State.useFree_edge (s : State)  : (s.useFree).edge = s.edge := rfl
@[simp] theorem State.useFree_flt (s : State)  : (s.useFree).flt = s.flt := rfl
@[simp] theorem State.useFree_tlm (s : State)  : (s.useFree).tlm = s.tlm := rfl
@[simp] theorem State.useFree_boot (s : State)  : (s.useFree).boot = s.boot := rfl
@[simp] theorem State.useFree_basin (s : State)  : (s.useFree).basin = s.basin := rfl
@[simp] theorem State.useFree_sched (s : State)  : (s.useFree).sched = s.sched := rfl
@[simp] theorem State.useFree_pass (s : State)  : (s.useFree).pass = s.pass := rfl
@[simp] theorem State.useFree_slot (s : State)  : (s.useFree).slot = s.slot := rfl
@[simp] theorem State.useFree_ten (s : State)  : (s.useFree).ten = s.ten := rfl
@[simp] theorem State.useFree_twin (s : State)  : (s.useFree).twin = s.twin := rfl
@[simp] theorem State.useFree_coh (s : State)  : (s.useFree).coh = s.coh := rfl
@[simp] theorem State.useFree_stp (s : State)  : (s.useFree).stp = s.stp := rfl
@[simp] theorem State.useFree_guard (s : State)  : (s.useFree).guard = s.guard := rfl
@[simp] theorem State.useFree_col (s : State)  : (s.useFree).col = s.col := rfl
@[simp] theorem State.useFree_glen (s : State)  : (s.useFree).glen = s.glen := rfl
@[simp] theorem State.useFree_wear (s : State)  : (s.useFree).wear = s.wear := rfl
@[simp] theorem State.useFree_pending (s : State)  : (s.useFree).pending = s.pending := rfl

/-! ### `State.setByte` -/

@[simp] theorem State.setByte_now (s : State) (a : Nat) (b : Byte) : (s.setByte a b).now = s.now := rfl
@[simp] theorem State.setByte_resetAt (s : State) (a : Nat) (b : Byte) : (s.setByte a b).resetAt = s.resetAt := rfl
@[simp] theorem State.setByte_phase (s : State) (a : Nat) (b : Byte) : (s.setByte a b).phase = s.phase := rfl
@[simp] theorem State.setByte_regs (s : State) (a : Nat) (b : Byte) : (s.setByte a b).regs = s.regs := rfl
@[simp] theorem State.setByte_mem (s : State) (a : Nat) (b : Byte) : (s.setByte a b).mem = sparsePut memDefault s.mem a b := rfl
@[simp] theorem State.setByte_lineMeta (s : State) (a : Nat) (b : Byte) : (s.setByte a b).lineMeta = s.lineMeta := rfl
@[simp] theorem State.setByte_flash (s : State) (a : Nat) (b : Byte) : (s.setByte a b).flash = s.flash := rfl
@[simp] theorem State.setByte_timers (s : State) (a : Nat) (b : Byte) : (s.setByte a b).timers = s.timers := rfl
@[simp] theorem State.setByte_free (s : State) (a : Nat) (b : Byte) : (s.setByte a b).free = s.free := rfl
@[simp] theorem State.setByte_out (s : State) (a : Nat) (b : Byte) : (s.setByte a b).out = s.out := rfl
@[simp] theorem State.setByte_mgmt (s : State) (a : Nat) (b : Byte) : (s.setByte a b).mgmt = s.mgmt := rfl
@[simp] theorem State.setByte_lane (s : State) (a : Nat) (b : Byte) : (s.setByte a b).lane = s.lane := rfl
@[simp] theorem State.setByte_edge (s : State) (a : Nat) (b : Byte) : (s.setByte a b).edge = s.edge := rfl
@[simp] theorem State.setByte_flt (s : State) (a : Nat) (b : Byte) : (s.setByte a b).flt = s.flt := rfl
@[simp] theorem State.setByte_tlm (s : State) (a : Nat) (b : Byte) : (s.setByte a b).tlm = s.tlm := rfl
@[simp] theorem State.setByte_boot (s : State) (a : Nat) (b : Byte) : (s.setByte a b).boot = s.boot := rfl
@[simp] theorem State.setByte_basin (s : State) (a : Nat) (b : Byte) : (s.setByte a b).basin = s.basin := rfl
@[simp] theorem State.setByte_sched (s : State) (a : Nat) (b : Byte) : (s.setByte a b).sched = s.sched := rfl
@[simp] theorem State.setByte_pass (s : State) (a : Nat) (b : Byte) : (s.setByte a b).pass = s.pass := rfl
@[simp] theorem State.setByte_slot (s : State) (a : Nat) (b : Byte) : (s.setByte a b).slot = s.slot := rfl
@[simp] theorem State.setByte_ten (s : State) (a : Nat) (b : Byte) : (s.setByte a b).ten = s.ten := rfl
@[simp] theorem State.setByte_twin (s : State) (a : Nat) (b : Byte) : (s.setByte a b).twin = s.twin := rfl
@[simp] theorem State.setByte_coh (s : State) (a : Nat) (b : Byte) : (s.setByte a b).coh = s.coh := rfl
@[simp] theorem State.setByte_stp (s : State) (a : Nat) (b : Byte) : (s.setByte a b).stp = s.stp := rfl
@[simp] theorem State.setByte_guard (s : State) (a : Nat) (b : Byte) : (s.setByte a b).guard = s.guard := rfl
@[simp] theorem State.setByte_col (s : State) (a : Nat) (b : Byte) : (s.setByte a b).col = s.col := rfl
@[simp] theorem State.setByte_glen (s : State) (a : Nat) (b : Byte) : (s.setByte a b).glen = s.glen := rfl
@[simp] theorem State.setByte_wear (s : State) (a : Nat) (b : Byte) : (s.setByte a b).wear = s.wear := rfl
@[simp] theorem State.setByte_pending (s : State) (a : Nat) (b : Byte) : (s.setByte a b).pending = s.pending := rfl

/-! ### `State.setBytes` -/

@[simp] theorem State.setBytes_now (s : State) (a : Nat) (bs : List Byte) : (s.setBytes a bs).now = s.now := rfl
@[simp] theorem State.setBytes_resetAt (s : State) (a : Nat) (bs : List Byte) : (s.setBytes a bs).resetAt = s.resetAt := rfl
@[simp] theorem State.setBytes_phase (s : State) (a : Nat) (bs : List Byte) : (s.setBytes a bs).phase = s.phase := rfl
@[simp] theorem State.setBytes_regs (s : State) (a : Nat) (bs : List Byte) : (s.setBytes a bs).regs = s.regs := rfl
@[simp] theorem State.setBytes_mem (s : State) (a : Nat) (bs : List Byte) : (s.setBytes a bs).mem = sparsePutBytes memDefault s.mem a bs := rfl
@[simp] theorem State.setBytes_lineMeta (s : State) (a : Nat) (bs : List Byte) : (s.setBytes a bs).lineMeta = s.lineMeta := rfl
@[simp] theorem State.setBytes_flash (s : State) (a : Nat) (bs : List Byte) : (s.setBytes a bs).flash = s.flash := rfl
@[simp] theorem State.setBytes_timers (s : State) (a : Nat) (bs : List Byte) : (s.setBytes a bs).timers = s.timers := rfl
@[simp] theorem State.setBytes_free (s : State) (a : Nat) (bs : List Byte) : (s.setBytes a bs).free = s.free := rfl
@[simp] theorem State.setBytes_out (s : State) (a : Nat) (bs : List Byte) : (s.setBytes a bs).out = s.out := rfl
@[simp] theorem State.setBytes_mgmt (s : State) (a : Nat) (bs : List Byte) : (s.setBytes a bs).mgmt = s.mgmt := rfl
@[simp] theorem State.setBytes_lane (s : State) (a : Nat) (bs : List Byte) : (s.setBytes a bs).lane = s.lane := rfl
@[simp] theorem State.setBytes_edge (s : State) (a : Nat) (bs : List Byte) : (s.setBytes a bs).edge = s.edge := rfl
@[simp] theorem State.setBytes_flt (s : State) (a : Nat) (bs : List Byte) : (s.setBytes a bs).flt = s.flt := rfl
@[simp] theorem State.setBytes_tlm (s : State) (a : Nat) (bs : List Byte) : (s.setBytes a bs).tlm = s.tlm := rfl
@[simp] theorem State.setBytes_boot (s : State) (a : Nat) (bs : List Byte) : (s.setBytes a bs).boot = s.boot := rfl
@[simp] theorem State.setBytes_basin (s : State) (a : Nat) (bs : List Byte) : (s.setBytes a bs).basin = s.basin := rfl
@[simp] theorem State.setBytes_sched (s : State) (a : Nat) (bs : List Byte) : (s.setBytes a bs).sched = s.sched := rfl
@[simp] theorem State.setBytes_pass (s : State) (a : Nat) (bs : List Byte) : (s.setBytes a bs).pass = s.pass := rfl
@[simp] theorem State.setBytes_slot (s : State) (a : Nat) (bs : List Byte) : (s.setBytes a bs).slot = s.slot := rfl
@[simp] theorem State.setBytes_ten (s : State) (a : Nat) (bs : List Byte) : (s.setBytes a bs).ten = s.ten := rfl
@[simp] theorem State.setBytes_twin (s : State) (a : Nat) (bs : List Byte) : (s.setBytes a bs).twin = s.twin := rfl
@[simp] theorem State.setBytes_coh (s : State) (a : Nat) (bs : List Byte) : (s.setBytes a bs).coh = s.coh := rfl
@[simp] theorem State.setBytes_stp (s : State) (a : Nat) (bs : List Byte) : (s.setBytes a bs).stp = s.stp := rfl
@[simp] theorem State.setBytes_guard (s : State) (a : Nat) (bs : List Byte) : (s.setBytes a bs).guard = s.guard := rfl
@[simp] theorem State.setBytes_col (s : State) (a : Nat) (bs : List Byte) : (s.setBytes a bs).col = s.col := rfl
@[simp] theorem State.setBytes_glen (s : State) (a : Nat) (bs : List Byte) : (s.setBytes a bs).glen = s.glen := rfl
@[simp] theorem State.setBytes_wear (s : State) (a : Nat) (bs : List Byte) : (s.setBytes a bs).wear = s.wear := rfl
@[simp] theorem State.setBytes_pending (s : State) (a : Nat) (bs : List Byte) : (s.setBytes a bs).pending = s.pending := rfl

/-! ### `State.setLineWord` -/

@[simp] theorem State.setLineWord_now (s : State) (n v : Nat) : (s.setLineWord n v).now = s.now := rfl
@[simp] theorem State.setLineWord_resetAt (s : State) (n v : Nat) : (s.setLineWord n v).resetAt = s.resetAt := rfl
@[simp] theorem State.setLineWord_phase (s : State) (n v : Nat) : (s.setLineWord n v).phase = s.phase := rfl
@[simp] theorem State.setLineWord_regs (s : State) (n v : Nat) : (s.setLineWord n v).regs = s.regs := rfl
@[simp] theorem State.setLineWord_mem (s : State) (n v : Nat) : (s.setLineWord n v).mem = s.mem := rfl
@[simp] theorem State.setLineWord_lineMeta (s : State) (n v : Nat) : (s.setLineWord n v).lineMeta = sparsePut lineDefault s.lineMeta n v := rfl
@[simp] theorem State.setLineWord_flash (s : State) (n v : Nat) : (s.setLineWord n v).flash = s.flash := rfl
@[simp] theorem State.setLineWord_timers (s : State) (n v : Nat) : (s.setLineWord n v).timers = s.timers := rfl
@[simp] theorem State.setLineWord_free (s : State) (n v : Nat) : (s.setLineWord n v).free = s.free := rfl
@[simp] theorem State.setLineWord_out (s : State) (n v : Nat) : (s.setLineWord n v).out = s.out := rfl
@[simp] theorem State.setLineWord_mgmt (s : State) (n v : Nat) : (s.setLineWord n v).mgmt = s.mgmt := rfl
@[simp] theorem State.setLineWord_lane (s : State) (n v : Nat) : (s.setLineWord n v).lane = s.lane := rfl
@[simp] theorem State.setLineWord_edge (s : State) (n v : Nat) : (s.setLineWord n v).edge = s.edge := rfl
@[simp] theorem State.setLineWord_flt (s : State) (n v : Nat) : (s.setLineWord n v).flt = s.flt := rfl
@[simp] theorem State.setLineWord_tlm (s : State) (n v : Nat) : (s.setLineWord n v).tlm = s.tlm := rfl
@[simp] theorem State.setLineWord_boot (s : State) (n v : Nat) : (s.setLineWord n v).boot = s.boot := rfl
@[simp] theorem State.setLineWord_basin (s : State) (n v : Nat) : (s.setLineWord n v).basin = s.basin := rfl
@[simp] theorem State.setLineWord_sched (s : State) (n v : Nat) : (s.setLineWord n v).sched = s.sched := rfl
@[simp] theorem State.setLineWord_pass (s : State) (n v : Nat) : (s.setLineWord n v).pass = s.pass := rfl
@[simp] theorem State.setLineWord_slot (s : State) (n v : Nat) : (s.setLineWord n v).slot = s.slot := rfl
@[simp] theorem State.setLineWord_ten (s : State) (n v : Nat) : (s.setLineWord n v).ten = s.ten := rfl
@[simp] theorem State.setLineWord_twin (s : State) (n v : Nat) : (s.setLineWord n v).twin = s.twin := rfl
@[simp] theorem State.setLineWord_coh (s : State) (n v : Nat) : (s.setLineWord n v).coh = s.coh := rfl
@[simp] theorem State.setLineWord_stp (s : State) (n v : Nat) : (s.setLineWord n v).stp = s.stp := rfl
@[simp] theorem State.setLineWord_guard (s : State) (n v : Nat) : (s.setLineWord n v).guard = s.guard := rfl
@[simp] theorem State.setLineWord_col (s : State) (n v : Nat) : (s.setLineWord n v).col = s.col := rfl
@[simp] theorem State.setLineWord_glen (s : State) (n v : Nat) : (s.setLineWord n v).glen = s.glen := rfl
@[simp] theorem State.setLineWord_wear (s : State) (n v : Nat) : (s.setLineWord n v).wear = s.wear := rfl
@[simp] theorem State.setLineWord_pending (s : State) (n v : Nat) : (s.setLineWord n v).pending = s.pending := rfl

/-! ### `State.setFlash` -/

@[simp] theorem State.setFlash_now (s : State) (a : Nat) (bs : List Byte) : (s.setFlash a bs).now = s.now := rfl
@[simp] theorem State.setFlash_resetAt (s : State) (a : Nat) (bs : List Byte) : (s.setFlash a bs).resetAt = s.resetAt := rfl
@[simp] theorem State.setFlash_phase (s : State) (a : Nat) (bs : List Byte) : (s.setFlash a bs).phase = s.phase := rfl
@[simp] theorem State.setFlash_regs (s : State) (a : Nat) (bs : List Byte) : (s.setFlash a bs).regs = s.regs := rfl
@[simp] theorem State.setFlash_mem (s : State) (a : Nat) (bs : List Byte) : (s.setFlash a bs).mem = s.mem := rfl
@[simp] theorem State.setFlash_lineMeta (s : State) (a : Nat) (bs : List Byte) : (s.setFlash a bs).lineMeta = s.lineMeta := rfl
@[simp] theorem State.setFlash_flash (s : State) (a : Nat) (bs : List Byte) : (s.setFlash a bs).flash = sparsePutBytes flashDefault s.flash a bs := rfl
@[simp] theorem State.setFlash_timers (s : State) (a : Nat) (bs : List Byte) : (s.setFlash a bs).timers = s.timers := rfl
@[simp] theorem State.setFlash_free (s : State) (a : Nat) (bs : List Byte) : (s.setFlash a bs).free = s.free := rfl
@[simp] theorem State.setFlash_out (s : State) (a : Nat) (bs : List Byte) : (s.setFlash a bs).out = s.out := rfl
@[simp] theorem State.setFlash_mgmt (s : State) (a : Nat) (bs : List Byte) : (s.setFlash a bs).mgmt = s.mgmt := rfl
@[simp] theorem State.setFlash_lane (s : State) (a : Nat) (bs : List Byte) : (s.setFlash a bs).lane = s.lane := rfl
@[simp] theorem State.setFlash_edge (s : State) (a : Nat) (bs : List Byte) : (s.setFlash a bs).edge = s.edge := rfl
@[simp] theorem State.setFlash_flt (s : State) (a : Nat) (bs : List Byte) : (s.setFlash a bs).flt = s.flt := rfl
@[simp] theorem State.setFlash_tlm (s : State) (a : Nat) (bs : List Byte) : (s.setFlash a bs).tlm = s.tlm := rfl
@[simp] theorem State.setFlash_boot (s : State) (a : Nat) (bs : List Byte) : (s.setFlash a bs).boot = s.boot := rfl
@[simp] theorem State.setFlash_basin (s : State) (a : Nat) (bs : List Byte) : (s.setFlash a bs).basin = s.basin := rfl
@[simp] theorem State.setFlash_sched (s : State) (a : Nat) (bs : List Byte) : (s.setFlash a bs).sched = s.sched := rfl
@[simp] theorem State.setFlash_pass (s : State) (a : Nat) (bs : List Byte) : (s.setFlash a bs).pass = s.pass := rfl
@[simp] theorem State.setFlash_slot (s : State) (a : Nat) (bs : List Byte) : (s.setFlash a bs).slot = s.slot := rfl
@[simp] theorem State.setFlash_ten (s : State) (a : Nat) (bs : List Byte) : (s.setFlash a bs).ten = s.ten := rfl
@[simp] theorem State.setFlash_twin (s : State) (a : Nat) (bs : List Byte) : (s.setFlash a bs).twin = s.twin := rfl
@[simp] theorem State.setFlash_coh (s : State) (a : Nat) (bs : List Byte) : (s.setFlash a bs).coh = s.coh := rfl
@[simp] theorem State.setFlash_stp (s : State) (a : Nat) (bs : List Byte) : (s.setFlash a bs).stp = s.stp := rfl
@[simp] theorem State.setFlash_guard (s : State) (a : Nat) (bs : List Byte) : (s.setFlash a bs).guard = s.guard := rfl
@[simp] theorem State.setFlash_col (s : State) (a : Nat) (bs : List Byte) : (s.setFlash a bs).col = s.col := rfl
@[simp] theorem State.setFlash_glen (s : State) (a : Nat) (bs : List Byte) : (s.setFlash a bs).glen = s.glen := rfl
@[simp] theorem State.setFlash_wear (s : State) (a : Nat) (bs : List Byte) : (s.setFlash a bs).wear = s.wear := rfl
@[simp] theorem State.setFlash_pending (s : State) (a : Nat) (bs : List Byte) : (s.setFlash a bs).pending = s.pending := rfl

/-! ### Reads after the updates that leave them alone -/

@[simp] theorem State.advance_reg (s : State) (dt : Nat) (ob i : Nat) : (s.advance dt).reg ob i = s.reg ob i := rfl
@[simp] theorem State.advance_regBits (s : State) (dt : Nat) (ob i l w : Nat) : (s.advance dt).regBits ob i l w = s.regBits ob i l w := rfl
@[simp] theorem State.advance_regBit (s : State) (dt : Nat) (ob i n : Nat) : (s.advance dt).regBit ob i n = s.regBit ob i n := rfl
@[simp] theorem State.advance_byte (s : State) (dt : Nat) (x : Nat) : (s.advance dt).byte x = s.byte x := rfl
@[simp] theorem State.advance_lineWord (s : State) (dt : Nat) (x : Nat) : (s.advance dt).lineWord x = s.lineWord x := rfl
@[simp] theorem State.setReg_byte (s : State) (a e v : Nat) (x : Nat) : (s.setReg a e v).byte x = s.byte x := rfl
@[simp] theorem State.setReg_lineWord (s : State) (a e v : Nat) (x : Nat) : (s.setReg a e v).lineWord x = s.lineWord x := rfl
@[simp] theorem State.arm_reg (s : State) (t : Timer) (n : Nat) (ob i : Nat) : (s.arm t n).reg ob i = s.reg ob i := rfl
@[simp] theorem State.arm_regBits (s : State) (t : Timer) (n : Nat) (ob i l w : Nat) : (s.arm t n).regBits ob i l w = s.regBits ob i l w := rfl
@[simp] theorem State.arm_regBit (s : State) (t : Timer) (n : Nat) (ob i n : Nat) : (s.arm t n).regBit ob i n = s.regBit ob i n := rfl
@[simp] theorem State.arm_byte (s : State) (t : Timer) (n : Nat) (x : Nat) : (s.arm t n).byte x = s.byte x := rfl
@[simp] theorem State.arm_lineWord (s : State) (t : Timer) (n : Nat) (x : Nat) : (s.arm t n).lineWord x = s.lineWord x := rfl
@[simp] theorem State.disarm_reg (s : State) (t : Timer) (ob i : Nat) : (s.disarm t).reg ob i = s.reg ob i := rfl
@[simp] theorem State.disarm_regBits (s : State) (t : Timer) (ob i l w : Nat) : (s.disarm t).regBits ob i l w = s.regBits ob i l w := rfl
@[simp] theorem State.disarm_regBit (s : State) (t : Timer) (ob i n : Nat) : (s.disarm t).regBit ob i n = s.regBit ob i n := rfl
@[simp] theorem State.disarm_byte (s : State) (t : Timer) (x : Nat) : (s.disarm t).byte x = s.byte x := rfl
@[simp] theorem State.disarm_lineWord (s : State) (t : Timer) (x : Nat) : (s.disarm t).lineWord x = s.lineWord x := rfl
@[simp] theorem State.emit_reg (s : State) (o : Out) (ob i : Nat) : (s.emit o).reg ob i = s.reg ob i := rfl
@[simp] theorem State.emit_regBits (s : State) (o : Out) (ob i l w : Nat) : (s.emit o).regBits ob i l w = s.regBits ob i l w := rfl
@[simp] theorem State.emit_regBit (s : State) (o : Out) (ob i n : Nat) : (s.emit o).regBit ob i n = s.regBit ob i n := rfl
@[simp] theorem State.emit_byte (s : State) (o : Out) (x : Nat) : (s.emit o).byte x = s.byte x := rfl
@[simp] theorem State.emit_lineWord (s : State) (o : Out) (x : Nat) : (s.emit o).lineWord x = s.lineWord x := rfl
@[simp] theorem State.useFree_reg (s : State)  (ob i : Nat) : (s.useFree).reg ob i = s.reg ob i := rfl
@[simp] theorem State.useFree_regBits (s : State)  (ob i l w : Nat) : (s.useFree).regBits ob i l w = s.regBits ob i l w := rfl
@[simp] theorem State.useFree_regBit (s : State)  (ob i n : Nat) : (s.useFree).regBit ob i n = s.regBit ob i n := rfl
@[simp] theorem State.useFree_byte (s : State)  (x : Nat) : (s.useFree).byte x = s.byte x := rfl
@[simp] theorem State.useFree_lineWord (s : State)  (x : Nat) : (s.useFree).lineWord x = s.lineWord x := rfl
@[simp] theorem State.setByte_reg (s : State) (a : Nat) (b : Byte) (ob i : Nat) : (s.setByte a b).reg ob i = s.reg ob i := rfl
@[simp] theorem State.setByte_regBits (s : State) (a : Nat) (b : Byte) (ob i l w : Nat) : (s.setByte a b).regBits ob i l w = s.regBits ob i l w := rfl
@[simp] theorem State.setByte_regBit (s : State) (a : Nat) (b : Byte) (ob i n : Nat) : (s.setByte a b).regBit ob i n = s.regBit ob i n := rfl
@[simp] theorem State.setByte_lineWord (s : State) (a : Nat) (b : Byte) (x : Nat) : (s.setByte a b).lineWord x = s.lineWord x := rfl
@[simp] theorem State.setBytes_reg (s : State) (a : Nat) (bs : List Byte) (ob i : Nat) : (s.setBytes a bs).reg ob i = s.reg ob i := rfl
@[simp] theorem State.setBytes_regBits (s : State) (a : Nat) (bs : List Byte) (ob i l w : Nat) : (s.setBytes a bs).regBits ob i l w = s.regBits ob i l w := rfl
@[simp] theorem State.setBytes_regBit (s : State) (a : Nat) (bs : List Byte) (ob i n : Nat) : (s.setBytes a bs).regBit ob i n = s.regBit ob i n := rfl
@[simp] theorem State.setBytes_lineWord (s : State) (a : Nat) (bs : List Byte) (x : Nat) : (s.setBytes a bs).lineWord x = s.lineWord x := rfl
@[simp] theorem State.setLineWord_reg (s : State) (n v : Nat) (ob i : Nat) : (s.setLineWord n v).reg ob i = s.reg ob i := rfl
@[simp] theorem State.setLineWord_regBits (s : State) (n v : Nat) (ob i l w : Nat) : (s.setLineWord n v).regBits ob i l w = s.regBits ob i l w := rfl
@[simp] theorem State.setLineWord_regBit (s : State) (n v : Nat) (ob i n : Nat) : (s.setLineWord n v).regBit ob i n = s.regBit ob i n := rfl
@[simp] theorem State.setLineWord_byte (s : State) (n v : Nat) (x : Nat) : (s.setLineWord n v).byte x = s.byte x := rfl
@[simp] theorem State.setFlash_reg (s : State) (a : Nat) (bs : List Byte) (ob i : Nat) : (s.setFlash a bs).reg ob i = s.reg ob i := rfl
@[simp] theorem State.setFlash_regBits (s : State) (a : Nat) (bs : List Byte) (ob i l w : Nat) : (s.setFlash a bs).regBits ob i l w = s.regBits ob i l w := rfl
@[simp] theorem State.setFlash_regBit (s : State) (a : Nat) (bs : List Byte) (ob i n : Nat) : (s.setFlash a bs).regBit ob i n = s.regBit ob i n := rfl
@[simp] theorem State.setFlash_byte (s : State) (a : Nat) (bs : List Byte) (x : Nat) : (s.setFlash a bs).byte x = s.byte x := rfl
@[simp] theorem State.setFlash_lineWord (s : State) (a : Nat) (bs : List Byte) (x : Nat) : (s.setFlash a bs).lineWord x = s.lineWord x := rfl

end Sys2Proof.Machine
end

