-- ==== Sys2Proof/Laws/Registers.lean ====
section
/-! SUPPORT. What a register, a byte of memory and a byte of flash read as after the named updates, in a state whose stores
are canonical, and that the updates keep them so. -/
namespace Sys2Proof.Machine

theorem State.setReg_wf {s : State} (h : s.wf) (a e v : Nat) : (s.setReg a e v).wf := ⟨sparseWf_put h.1 _ _, h.2⟩

theorem State.setBytes_wf {s : State} (h : s.wf) (a : Nat) (bs : List Byte) : (s.setBytes a bs).wf :=
  ⟨h.1, sparseWf_putBytes h.2.1 _ _, h.2.2⟩

theorem State.advance_wf {s : State} (h : s.wf) (dt : Nat) : (s.advance dt).wf := h

/-- Elements of one object, or of two, have keys of their own. -/
theorem regKey_ne {a b e i : Nat} (h : a ≠ b ∨ e % 65536 ≠ i % 65536) : regKey b i ≠ regKey a e := by
  unfold regKey; omega

theorem State.setReg_reg_same {s : State} (h : s.wf) (a e v : Nat) : (s.setReg a e v).reg a e = v := sparseGet_put_same h.1 _ _

theorem State.setReg_reg_ne {s : State} (h : s.wf) {a e v b i : Nat} (hk : a ≠ b ∨ e % 65536 ≠ i % 65536) :
    (s.setReg a e v).reg b i = s.reg b i := sparseGet_put_ne h.1 _ _ _ (regKey_ne hk)

theorem State.setBytes_byte_out {s : State} (h : s.wf) (a : Nat) (bs : List Byte) (x : Nat) (hx : x < a ∨ a + bs.length ≤ x) :
    (s.setBytes a bs).byte x = s.byte x := sparseGet_putBytes_out h.2.1 a bs x hx

end Sys2Proof.Machine
end

