-- ==== Sys2Proof/Laws/Steppe.lean ====
section
/-! SUPPORT. What the memory reads as after the operations that store to it, and what a meaning's frame answers. -/
namespace Sys2Proof.Machine

theorem run_cases {dt : Nat} {s t : State} {f : State → State} (h : run dt s f = .next t) :
    t = s.advance dt ∨ (s.phase = .running ∧ t = f (s.advance dt)) := by
  by_cases hp : s.phase = .running
  · rw [run_next f hp] at h; injection h with h; exact .inr ⟨hp, h.symm⟩
  · rw [run_idle f hp] at h; injection h with h; exact .inl h.symm

theorem atSteppe_cases {dt a : Nat} {s t : State} {f : State → State} (h : atSteppe dt a s f = .next t) :
    t = s.advance dt ∨ (s.phase = .running ∧ t = f (s.advance dt)) := by
  unfold atSteppe at h
  split at h
  · exact run_cases h
  · cases h

theorem slice_length (bs : List Byte) (off n : Nat) : (slice bs off n).length = n := by
  unfold slice; simp only [List.length_append, List.length_take, List.length_drop, List.length_replicate]; omega

theorem padTo_length (bs : List Byte) (n : Nat) : (padTo bs n).length = n := slice_length bs 0 n

theorem padTo_of_length {bs : List Byte} {n : Nat} (h : bs.length = n) : padTo bs n = bs := by
  subst h; simp [padTo, slice]

theorem leBytes_length (v n : Nat) : (leBytes v n).length = n := by
  induction n generalizing v with
  | zero => rfl
  | succ n ih => unfold leBytes; rw [List.length_cons, ih]

theorem setLineWords_mem (s : State) (n v k : Nat) : (setLineWords s n v k).mem = s.mem := by
  induction k with
  | zero => rfl
  | succ k ih => unfold setLineWords; exact ih

theorem State.byte_of_mem {s t : State} (h : t.mem = s.mem) (a : Nat) : t.byte a = s.byte a := by unfold State.byte; rw [h]

/-- The range read back is what was written. -/
theorem getRange_putBytes {d : Nat → Byte} {l : List (Nat × Byte)} (h : sparseWf d l = true) (k : Nat) (bs : List Byte) :
    sparseGetRange d (sparsePutBytes d l k bs) k bs.length = bs := by
  induction bs generalizing k l with
  | nil => rfl
  | cons b bs ih =>
    have h1 := sparseGet_putBytes_in h k (b :: bs) 0 (Nat.zero_lt_succ _)
    have h2 := ih (sparseWf_put h k b) (k + 1)
    rw [List.length_cons]
    unfold sparseGetRange
    rw [show sparseGetRange d (sparsePutBytes d l k (b :: bs)) (k + 1) bs.length = bs from h2]
    exact congrArg (· :: bs) h1

theorem cipher_length {s : State} {slot l : Nat} {data : List Byte} (h : data.length = 64) : (cipher s slot l data).length = 64 := by
  unfold cipher
  split
  · exact leBytes_length _ _
  · exact h

/-- A write is accepted into a queue without any change of the memory, the line words or the registers. -/
theorem acceptWrite_frame (s : State) (n : Nat) :
    (acceptWrite s n).mem = s.mem ∧ (acceptWrite s n).lineMeta = s.lineMeta ∧ (acceptWrite s n).regs = s.regs := ⟨rfl, rfl, rfl⟩

theorem putLine_mem (s : State) (n : Nat) (l : StoredLine) :
    (putLine s n l).mem = sparsePutBytes memDefault s.mem (64 * n) (cipher s l.tag n (padTo l.data 64)) := rfl

theorem putLine_lineMeta (s : State) (n : Nat) (l : StoredLine) :
    (putLine s n l).lineMeta = sparsePut lineDefault s.lineMeta n (metaWord l.poison l.tracked l.tag) := rfl

theorem putLine_regs (s : State) (n : Nat) (l : StoredLine) : (putLine s n l).regs = s.regs := rfl

theorem putLine_byte_out {s : State} (w : s.wf) (n : Nat) (l : StoredLine) (x : Nat) (h : x < 64 * n ∨ 64 * n + 64 ≤ x) :
    (putLine s n l).byte x = s.byte x := by
  unfold State.byte
  rw [putLine_mem]
  exact sparseGet_putBytes_out w.2.1 _ _ _ (by rw [cipher_length (padTo_length _ _)]; exact h)

/-- What a line that has been written holds. -/
theorem putLine_bytes {s : State} (w : s.wf) (n : Nat) (l : StoredLine) :
    (putLine s n l).bytes (64 * n) 64 = cipher s l.tag n (padTo l.data 64) := by
  unfold State.bytes
  rw [putLine_mem]
  have := getRange_putBytes w.2.1 (64 * n) (cipher s l.tag n (padTo l.data 64))
  rwa [cipher_length (padTo_length _ _)] at this

theorem putLine_lineWord_ne {s : State} (w : s.wf) (n : Nat) (l : StoredLine) (x : Nat) (h : x ≠ n) : (putLine s n l).lineWord x = s.lineWord x := by
  unfold State.lineWord
  rw [putLine_lineMeta]
  exact sparseGet_put_ne w.2.2.1 _ _ _ h

theorem putLine_lineWord {s : State} (w : s.wf) (n : Nat) (l : StoredLine) : (putLine s n l).lineWord n = metaWord l.poison l.tracked l.tag := by
  unfold State.lineWord
  rw [putLine_lineMeta]
  exact sparseGet_put_same w.2.2.1 _ _

/-! ### Little-endian bytes -/

theorem ofLe_leBytes (v n : Nat) : ofLe (leBytes v n) = v % 256 ^ n := by
  induction n generalizing v with
  | zero => simp [leBytes, ofLe, Nat.mod_one]
  | succ n ih =>
    unfold leBytes ofLe
    rw [ih, BitVec.toNat_ofNat, show 256 ^ (n + 1) = 256 * 256 ^ n from Nat.pow_succ', Nat.mod_mul]

theorem ofLe_lt (bs : List Byte) : ofLe bs < 256 ^ bs.length := by
  induction bs with
  | nil => exact Nat.one_pos
  | cons b bs ih =>
    have := b.isLt
    unfold ofLe
    rw [List.length_cons, Nat.pow_succ']
    omega

theorem leBytes_ofLe (bs : List Byte) : leBytes (ofLe bs) bs.length = bs := by
  induction bs with
  | nil => rfl
  | cons b bs ih =>
    have hb := b.isLt
    have h1 : (b.toNat + 256 * ofLe bs) / 256 = ofLe bs := by omega
    unfold ofLe
    rw [List.length_cons]
    unfold leBytes
    rw [h1, ih]
    congr 1
    apply BitVec.eq_of_toNat_eq
    rw [BitVec.toNat_ofNat]
    omega

end Sys2Proof.Machine
end

