-- ==== Sys2Proof/WellFormed.lean ====
section
/-! DEFINITION. Well-formed commands: the ranges of their operands. The meanings are total and do not rest on these
checks; they say which operands the outside can bring at all. -/
namespace Sys2Proof

/-- A value of at most `n` bits. -/
def fits (n v : Nat) : Bool := decide (v < 2 ^ n)

/-- At most `n` bytes. -/
def byteLimit (n : Nat) (bs : List Byte) : Bool := decide (bs.length ≤ n)

/-- A port. -/
def portOk (p : Nat) : Bool := decide (p < 64)
/-- A Basin port: the 64 ports and the 8 internal ones (R124). -/
def egressOk (p : Nat) : Bool := decide (p < 72)
/-- A vPPB of a host port. -/
def vppbOk (v : Nat) : Bool := decide (v < 64)
/-- An LD-ID. -/
def ldOk (l : Nat) : Bool := decide (l < 16)
/-- A lane, reserve lanes among them. -/
def laneOk (l : Nat) : Bool := decide (l < 272)
/-- A lane group. -/
def groupOk (g : Nat) : Bool := decide (g < 16)
/-- A reference clock input. -/
def refOk (r : Nat) : Bool := decide (r < 18)
/-- A Col engine role. -/
def engineOk (n : Nat) : Bool := decide (n < 256)
/-- A physical Col engine. -/
def physOk (n : Nat) : Bool := decide (n < 272)
/-- A home slice. -/
def sliceOk (x : Nat) : Bool := decide (x < 4096)
/-- A tenancy, and the Glen channel of the same number (R364, R384). -/
def tenancyOk (t : Nat) : Bool := decide (t < 4096)
/-- An agent entry. -/
def agentOk (a : Nat) : Bool := decide (a < 64)
/-- A line key. -/
def keyOk (k : Nat) : Bool := decide (k < 2 ^ 45)
/-- A slot. -/
def slotOk (n : Nat) : Bool := decide (n < 32)
/-- A memory stack. -/
def stackOk (n : Nat) : Bool := decide (n < 4)
/-- A memory channel. -/
def dramOk (c : Nat) : Bool := decide (c < 128)
/-- A fault group (R404). -/
def fltGroupOk (g : Nat) : Bool := decide (g < 64)
/-- A bit of a fault group (R404). -/
def bitOk (b : Nat) : Bool := decide (b < 32)
/-- A fault source, 32 * group + bit (R404). -/
def sourceOk (n : Nat) : Bool := decide (n < 2048)
/-- A rail (R486). -/
def railOk (r : Nat) : Bool := decide (r < 9)
/-- An HDM decoder of a function. -/
def decoderOk (d : Nat) : Bool := decide (d < 8)
/-- A switch number. -/
def switchOk (n : Nat) : Bool := decide (n < 16)
/-- A PBR ID. -/
def pbrOk (n : Nat) : Bool := decide (n < 4096)
/-- An element number of a record (R45). -/
def elemOk (e : Nat) : Bool := decide (e < 65536)
/-- A cell of the Basin. -/
def cellOk (c : Nat) : Bool := decide (c < 262144)
/-- A queue of the scheduler. -/
def queueOk (q : Nat) : Bool := decide (q < 32768)
/-- A dirty-log range element, 8 * tenancy + range (R371). -/
def rangeOk (r : Nat) : Bool := decide (r < 32768)
/-- A Glen engine (R384). -/
def gearOk (e : Nat) : Bool := decide (e < 64)
/-- An element of `MBX.SUMMARY` (R380). -/
def summaryOk (e : Nat) : Bool := decide (e < 128)
/-- A margin in per cent (R495). -/
def percentOk (p : Nat) : Bool := decide (p ≤ 100)
/-- A wear monitor of a kind (R495). -/
def monitorOk (m : Nat) : Bool := decide (m < 272)
/-- An image slot. -/
def imageOk (n : Nat) : Bool := n == 1 || n == 2

/-- A path: the port it names. -/
def Path.wf : Path → Bool
  | .kdp ip port => fits 32 ip && fits 16 port
  | .i3c => true
  | .fm p _ => portOk p
  | .tenant p => portOk p

/-- A record's fields (R45). -/
def Rec.wf (r : Rec) : Bool :=
  fits 16 r.index && fits 8 r.sub && r.elem.all elemOk && byteLimit 1024 r.data

/-- A write to BAR 2/3, which is 1 MiB (R114): 1 to 8 bytes. -/
def WindowWrite.wf (a : WindowWrite) : Bool :=
  portOk a.port && fits 20 a.offset && decide (1 ≤ a.width ∧ a.width ≤ 8) && fits (8 * a.width) a.value

/-- A read's source. -/
def ReadSource.wf : ReadSource → Bool
  | .record p r => p.wf && r.wf
  | .window port offset width => portOk port && fits 20 offset && decide (1 ≤ width ∧ width ≤ 8)
  | .config port vppb _ => portOk port && decide (vppb < 64)

/-- A write's source. -/
def WriteSource.wf : WriteSource → Bool
  | .record p r => p.wf && r.wf
  | .window a => a.wf
  | .config port vppb _ value => portOk port && decide (vppb < 64) && fits 32 value

/-- A margin measurement: its steps fit the fields of `LANE.MARGIN` (R85). -/
def Margin.wf (m : Margin) : Bool := fits 8 m.vTop && fits 8 m.vBot && fits 8 m.hLeft && fits 8 m.hRight

/-- A logical device's offer. -/
def LdOffer.wf (l : LdOffer) : Bool := ldOk l.ldId && fits 64 l.serial && fits 64 l.capacity

/-- A transmitter request: the presets are P0 to P10, a coefficient has 6 bits (R81, log entry 84). -/
def FfeRequest.wf : FfeRequest → Bool
  | .preset n => decide (n ≤ 10)
  | .coefficients pre main post => fits 6 pre && fits 6 main && fits 6 post

/-- A link partner's offer: rate codes 0 to 5, at most 16 lanes. -/
def Offer.wf (o : Offer) : Bool := decide (o.version ≤ 3) && decide (o.rate ≤ 5) && decide (o.width ≤ 16) && decide (o.ffe.length ≤ 16)
  && o.ffe.all FfeRequest.wf
  && o.inverted.all (fun l => decide (l < 16)) && o.lds.all LdOffer.wf

/-- A host's port. -/
def HostSource.wf : HostSource → Bool
  | .port p => portOk p
  | .pbr p spid => portOk p && pbrOk spid

/-- An M2S request. -/
def HostReq.wf (m : HostReq) : Bool := fits 16 m.tag && fits 64 m.addr

/-- An M2S request with data: one line and its byte mask. -/
def HostRwd.wf (m : HostRwd) : Bool := fits 16 m.tag && fits 64 m.addr && decide (m.data.length = 64) && fits 64 m.mask

/-- An M2S back-invalidate response: the state kept is I, S or E. -/
def HostBirsp.wf (m : HostBirsp) : Bool := m.state.all (fun n => decide (n ≤ 2)) && fits 64 m.addr

/-- A fabric message: at least one target, and its header within its length. -/
def FabricMsg.wf (m : FabricMsg) : Bool :=
  !m.targets.isEmpty && m.targets.all (fun t => egressOk t.egress) && decide (0 < m.len) && decide (m.headerBytes ≤ m.len) && fits 16 m.requester
    && ldOk m.ld && m.dpid.elim true (fits 12)

/-- A whole line. -/
def StoredLine.wf (l : StoredLine) : Bool := decide (l.data.length = 64) && fits 12 l.tag

/-- Symbol errors of an 80-byte codeword (R198). -/
def DramErrors.wf (e : DramErrors) : Bool :=
  e.flips.all (fun f => decide (f.1 < 80)) && e.place.all (fits 32) && e.settles.all (fun w => decide (w.length = 80))

/-- A row of a bank. -/
def SpareRow.wf (r : SpareRow) : Bool := dramOk r.channel && fits 6 r.bank && fits 16 r.row

/-- The window of a tenancy. -/
def WindowId.wf : WindowId → Bool
  | .ten t => tenancyOk t
  | _ => true

/-- A coherence message: its fields fit the words of R170, its data is one line or nothing. -/
def CohMsg.wf (m : CohMsg) : Bool :=
  fits 6 m.kind && fits 3 m.tc && keyOk m.key && fits 16 m.tag && fits 16 m.epoch && fits 64 m.mask && (m.data.isEmpty || decide (m.data.length = 64))

/-- A snoop's target. -/
def SnoopTarget.wf : SnoopTarget → Bool
  | .proxy n => engineOk n
  | .agent a => agentOk a

/-- Who asks for a line. -/
def Requester.wf : Requester → Bool
  | .agent a => agentOk a
  | .switch n => switchOk n
  | .device => true

/-- A Col engine's load. -/
def EngineLoad.wf (l : EngineLoad) : Bool := engineOk l.engine && percentOk l.percent

/-- A lane's report: requests 0 to 2 (R182). -/
def LaneReport.wf (r : LaneReport) : Bool := decide (r.reqPre ≤ 2) && decide (r.reqPost ≤ 2)

/-- What a host read brings: at most 4 KiB. -/
def HostReadResult.wf : HostReadResult → Bool
  | .data bs => byteLimit 4096 bs
  | _ => true

/-- What a source access brings. -/
def SourceResult.wf (r : SourceResult) : Bool := r.host.wf

/-- A counter element. -/
def CounterElem.wf (e : CounterElem) : Bool := fits 24 e.object && elemOk e.element

/-- Bytes of the 64 MiB boot flash. -/
def FlashPatch.wf (p : FlashPatch) : Bool := decide (p.offset + p.bytes.length ≤ 2 ^ 26)

/-- A command is well formed: each of its operands lies in the range the spec's numbering gives it. The time `dt` may be any. -/
def Instr.wf : Instr → Bool
  | .kdpDatagram _ srcIp srcPort payload => fits 32 srcIp && fits 16 srcPort && byteLimit 1024 payload
  | .arpFrame _ senderIp targetIp => fits 32 senderIp && fits 32 targetIp
  | .icmpEcho _ srcIp dstIp payload => fits 32 srcIp && fits 32 dstIp && byteLimit 1024 payload
  | .ethFrameDrop _ => true
  | .linkLocalAnnounce _ => true
  | .mctpMessage _ body => byteLimit 1029 body
  | .i3cAddressAssign _ addr => fits 7 addr
  | .setEndpointId _ eid => fits 8 eid
  | .getEndpointId _ => true
  | .getMctpVersionSupport _ msgType => fits 8 msgType
  | .getMessageTypeSupport _ => true
  | .getVendorDefinedMessageSupport _ selector => fits 8 selector
  | .dictionaryAccess _ port payload => portOk port && byteLimit 1024 payload
  | .takeMessage _ => true
  | .read _ src => src.wf
  | .write _ src => src.wf
  | .readStaged _ path r => path.wf && r.wf
  | .describe _ path r => path.wf && r.wf
  | .commit _ path => path.wf
  | .commitApplied _ => true
  | .discard _ path => path.wf
  | .recoveryWriteResume _ => true
  | .identify _ port => portOk port
  | .backgroundOperationStatus _ port => portOk port
  | .getResponseMessageLimit _ port => portOk port
  | .setResponseMessageLimit _ port limit => portOk port && fits 8 limit
  | .getEventRecords _ port => portOk port
  | .clearEventRecords _ port => portOk port
  | .getTimestamp _ port => portOk port
  | .setTimestamp _ port ns => portOk port && fits 64 ns
  | .identifySwitchDevice _ port => portOk port
  | .getPhysicalPortState _ q => portOk q.port && decide (q.ports.length ≤ 64) && q.ports.all portOk
  | .physicalPortControl _ port target _ => portOk port && portOk target
  | .sendPpbCxlIoConfigurationRequest _ port ppb request => portOk port && portOk ppb && fits 64 request
  | .getVirtualCxlSwitchInfo _ q => portOk q.port && portOk q.host
  | .bindVppb _ port host vppb dsp ldId => portOk port && portOk host && vppbOk vppb && portOk dsp && ldOk ldId
  | .unbindVppb _ port host vppb _ => portOk port && portOk host && vppbOk vppb
  | .generateAerEvent _ port host vppb event => portOk port && portOk host && vppbOk vppb && fits 32 event
  | .tunnelManagementCommand _ port dsp command => portOk port && portOk dsp && byteLimit 1024 command
  | .sendLdCxlIoConfigurationRequest _ port dsp ldId request => portOk port && portOk dsp && ldOk ldId && fits 64 request
  | .sendLdCxlIoMemoryRequest _ port dsp ldId request => portOk port && portOk dsp && ldOk ldId && fits 64 request
  | .unsupportedOpcode _ port opcode => portOk port && fits 16 opcode
  | .slackPosition _ port fill => portOk port && fits 16 fill
  | .ebError _ lane => laneOk lane
  | .adaptationStep _ lane _ tapMoves => laneOk lane && decide (tapMoves.length = 12)
  | .sat _ lane => laneOk lane
  | .restore _ path lane value => path.wf && laneOk lane && fits 64 value
  | .marginMeasurement _ lane m => laneOk lane && m.middle.wf && m.upper.wf && m.lower.wf
  | .marginReq _ path lane eye => path.wf && laneOk lane && fits 8 eye
  | .marginReqDone _ lane m => laneOk lane && m.wf
  | .prbsStart _ path lane value => path.wf && laneOk lane && fits 64 value
  | .prbsClear _ path lane value => path.wf && laneOk lane && fits 64 value
  | .prbsLock _ r => laneOk r.lane && decide (r.bits.length ≤ 128)
  | .prbsLockLoss _ lane bits errors => laneOk lane && decide (bits ≤ 1024) && decide (errors ≤ bits)
  | .portTest _ path port value => path.wf && portOk port && fits 64 value
  | .reserveSelfTest _ group => groupOk group
  | .reserveSelfTestEnd _ group errors => groupOk group && fits 64 errors
  | .swap _ path group lane => path.wf && groupOk group && fits 4 lane
  | .revert _ path group => path.wf && groupOk group
  | .transceiverSelfCheckFail _ lane => laneOk lane
  | .swapShadowTrained _ group ctle => groupOk group && fits 5 ctle
  | .swapSwitch _ group => groupOk group
  | .referenceGate _ ref hz => refOk ref && fits 40 hz
  | .referenceStopped _ ref => refOk ref
  | .hostPerst _ port _ => portOk port
  | .perstDeassert _ port => portOk port
  | .functionLevelReset _ port => portOk port
  | .edgeLinkUp _ port offer => portOk port && offer.wf
  | .fabricRetrain _ port => portOk port
  | .hostLinkDown _ port _ => portOk port
  | .graceExpiry _ port => portOk port
  | .downstreamLinkDown _ port => portOk port
  | .ldIdentityRead _ port ldId serial capacity => portOk port && ldOk ldId && fits 64 serial && fits 64 capacity
  | .bindComplete _ host vppb => portOk host && vppbOk vppb
  | .ideIntegrityFail _ port => portOk port
  | .ideKeyExchangeDone _ k => portOk k.port && k.stream.elim true (fits 8)
  | .ideRefresh _ path port value => path.wf && portOk port && fits 64 value
  | .pbrFlit _ port spid dpid => portOk port && pbrOk spid && pbrOk dpid
  | .hdmDecoderCommit _ port decoder base size => portOk port && decoderOk decoder && fits 64 base && fits 64 size.size
  | .hostM2sReq _ src m => src.wf && m.wf
  | .hostM2sRwd _ src m => src.wf && m.wf
  | .hostBirsp _ src m => src.wf && m.wf
  | .birspForward _ agent key => agentOk agent && keyOk key
  | .biconflict _ src addr => src.wf && fits 64 addr
  | .biconflictAck _ agent key => agentOk agent && keyOk key
  | .powerControllerControl _ host vppb _ => portOk host && vppbOk vppb
  | .messageIngress _ ingress m => egressOk ingress && m.wf
  | .openCellClose _ ingress _ => egressOk ingress
  | .cellAdmit _ ingress _ => egressOk ingress
  | .cellWrite _ ingress _ _ => egressOk ingress
  | .cellRead _ egress ptr _ => egressOk egress && cellOk ptr
  | .stall _ egress => egressOk egress
  | .lowFreeWrite _ path value => path.wf && fits 64 value
  | .passPoolToBasin _ port index => portOk port && fits 16 index
  | .egressSelect _ egress _ => egressOk egress
  | .queueEligible _ queue => queueOk queue
  | .shaperWrite _ path _ elem value => path.wf && elemOk elem && fits 64 value
  | .groupRebindDone _ group => tenancyOk group
  | .flitTx _ port => portOk port
  | .flitRx _ port lanes => portOk port && decide (lanes.length ≤ 16) && lanes.all (fun l => decide (l.length ≤ 512))
  | .ackTimer _ port => portOk port
  | .replayTimer _ port => portOk port
  | .receiverDetect _ port => portOk port
  | .detectTimeout _ port => portOk port
  | .trainingFrame _ port lane word _ own => portOk port && laneOk lane && fits 256 word && own.wf
  | .trainingPhaseTimeout _ port => portOk port
  | .trainingIdleEnd _ port => portOk port
  | .configTimeout _ port => portOk port
  | .recoveryTimeout _ port => portOk port
  | .laneLockLoss _ port lane => portOk port && laneOk lane
  | .goingDown _ port => portOk port
  | .passMessage _ port msg => portOk port && byteLimit 2048 msg
  | .hello _ port msg => portOk port && byteLimit 2048 msg
  | .route _ port msg => portOk port && byteLimit 2048 msg
  | .routeSend _ => true
  | .routeEntryClear _ switch => switchOk switch
  | .routeRecompute _ path => path.wf
  | .probeSend _ port => portOk port
  | .probe _ port msg => portOk port && byteLimit 2048 msg
  | .probeReply _ port msg => portOk port && byteLimit 2048 msg
  | .replayBufferUe _ port => portOk port
  | .steppeRead _ addr expected errors => fits 64 addr && fits 64 expected && errors.wf
  | .steppeWrite _ addr line => fits 64 addr && line.wf
  | .steppeInit _ badSpares failedStacks => badSpares.all SpareRow.wf && failedStacks.all stackOk
  | .steppeReady _ => true
  | .scrubLine _ line errors => fits 32 line && errors.wf
  | .scrubPassStart _ badSpares => badSpares.all SpareRow.wf
  | .scrubPassEnd _ => true
  | .scrubLate _ channel => dramOk channel
  | .spareRowStart _ channel => dramOk channel
  | .spareRowDone _ channel _ errors => dramOk channel && errors.all (fun e => fits 32 e.1 && e.2.wf)
  | .steppeSpareCmd _ path value => path.wf && fits 64 value
  | .remapSave _ => true
  | .sanitize _ path => path.wf
  | .stackTemp _ stack _ => stackOk stack
  | .innerCorrectionReport _ stack counts => stackOk stack && decide (counts.length = 512)
  | .xlate _ path value => path.wf && fits 64 value
  | .noticeWindowClose _ window => window.wf
  | .memAddrWrite _ path value => path.wf && fits 64 value
  | .memDataRead _ path => path.wf
  | .memDataWrite _ path value => path.wf && fits 512 value
  | .releaseSweepDone _ => true
  | .rdShared _ col m => engineOk col && m.wf
  | .rdOwn _ col m => engineOk col && m.wf
  | .rdCur _ col m => engineOk col && m.wf
  | .upgrade _ col m => engineOk col && m.wf
  | .wrFull _ col m => engineOk col && m.wf
  | .wrPtl _ col m => engineOk col && m.wf
  | .writeback _ col m => engineOk col && m.wf
  | .writebackPtl _ col m => engineOk col && m.wf
  | .evictClean _ col m => engineOk col && m.wf
  | .snpInv _ target m => target.wf && m.wf
  | .snpData _ target m => target.wf && m.wf
  | .snpCur _ target m => target.wf && m.wf
  | .data _ m => m.wf
  | .cmp _ m => m.wf
  | .nack _ m => m.wf
  | .snpRsp _ col m => engineOk col && m.wf
  | .retry _ _ => true
  | .movedRetry _ _ => true
  | .holdWindowExpiry _ col key => engineOk col && keyOk key
  | .agedServe _ col key => engineOk col && keyOk key
  | .agedEntryDrop _ col key requester tag => engineOk col && keyOk key && requester.wf && fits 16 tag
  | .snoopTimeout _ col key holder => engineOk col && keyOk key && holder.wf
  | .suspectLimit _ agent => agentOk agent
  | .declareDead _ path value => path.wf && fits 64 value
  | .sweepPassStart _ => true
  | .sweepPassEnd _ => true
  | .transactionTimeout _ _ => true
  | .tagHoldExpiry _ _ => true
  | .loadWindowEnd _ loads => loads.all EngineLoad.wf
  | .sliceQuiescent _ slice => sliceOk slice
  | .epochChange _ => true
  | .portAgentMapUpdate _ => true
  | .leaseDrainExpiry _ slice => sliceOk slice
  | .forcedMoveRetry _ slice => sliceOk slice
  | .leaseHoldoffExpiry _ slice => sliceOk slice
  | .backgroundItem _ col => engineOk col
  | .itemSteal _ col => engineOk col
  | .colSpareCmd _ path value badSpares => path.wf && fits 64 value && badSpares.all physOk
  | .roleEmptied _ role badSpares => engineOk role && badSpares.all physOk
  | .ucodeLoad _ badTests badDigests => badTests.all physOk && badDigests.all physOk
  | .imemScrub _ phys corrections badSpares => physOk phys && fits 32 corrections && badSpares.all physOk
  | .hashLookup _ path value => path.wf && fits 64 value
  | .pairInfo _ port msg => portOk port && byteLimit 2048 msg
  | .mirrorWr _ port msg => portOk port && byteLimit 2048 msg
  | .log _ port msg => portOk port && byteLimit 2048 msg
  | .heartbeat _ port msg => portOk port && byteLimit 2048 msg
  | .heartbeatSend _ => true
  | .keyXfer _ port msg => portOk port && byteLimit 2048 msg
  | .resyncData _ port msg => portOk port && byteLimit 2048 msg
  | .mirroredWriteComplete _ key => keyOk key
  | .logFlush _ => true
  | .unitClean _ unit => fits 48 unit
  | .unitDirtyAcked _ unit => fits 48 unit
  | .messageSignalSilent _ => true
  | .pinSignalSilent _ => true
  | .takeoverServe _ => true
  | .declareLost _ path => path.wf
  | .aliasEnd _ path => path.wf
  | .resyncCopyDone _ => true
  | .tenancyReset _ path value => path.wf && fits 64 value
  | .tenancyResetStart _ tenancy => tenancyOk tenancy
  | .tenancyResetEnd _ tenancy => tenancyOk tenancy
  | .dlogClearDone _ range => rangeOk range
  | .dlogTake _ path => path.wf
  | .outDataWrite _ a => a.wf
  | .outDoorbell _ a => a.wf
  | .inTake _ a => a.wf
  | .inDataWrite _ path tenancy value => path.wf && tenancyOk tenancy && fits 2048 value
  | .inSend _ path tenancy value => path.wf && tenancyOk tenancy && fits 64 value
  | .outTake _ path tenancy => path.wf && tenancyOk tenancy
  | .summaryEvent _ element => summaryOk element
  | .fmPairRequest _ => true
  | .fmPairPost _ => true
  | .glenStart _ port => portOk port
  | .glenStop _ port => portOk port
  | .glenRing _ port => portOk port
  | .chPointerWrite _ a => a.wf
  | .descAreaWrite _ a => a.wf
  | .chanCmdStop _ path channel => path.wf && tenancyOk channel
  | .descriptorFetch _ channel host => tenancyOk channel && host.wf
  | .glenTurn _ engine _ => gearOk engine
  | .sourceData _ channel source _ => tenancyOk channel && source.wf
  | .descriptorWriteBack _ channel _ => tenancyOk channel
  | .sourceEvent _ group bit element => fltGroupOk group && bitOk bit && elemOk element
  | .quietTimerExpiry _ source => sourceOk source
  | .faultOutPulseEnd _ => true
  | .faultEventTimer _ group => fltGroupOk group
  | .trapSaveDone _ => true
  | .force _ path group value => path.wf && fltGroupOk group && fits 64 value
  | .sourceClear _ path group value => path.wf && fltGroupOk group && fits 64 value
  | .recoveriesClear _ path source => path.wf && sourceOk source
  | .holdWrite _ path value => path.wf && fits 64 value
  | .intervalBoundary _ bad => bad.all CounterElem.wf
  | .dumpWrite _ => true
  | .dumpDataRead _ path => path.wf
  | .progSelect _ path k value => path.wf && fits 8 k && fits 64 value
  | .tlmRead _ path _ => path.wf
  | .tlmMark _ path => path.wf
  | .tlmRewind _ path => path.wf
  | .tlmRelease _ path => path.wf
  | .tlmRecordOffer _ type body => fits 8 type && body.all (fits 64)
  | .timeSet _ path value => path.wf && fits 64 value
  | .watermarkWrite _ path _ value => path.wf && fits 64 value
  | .presenceAssert _ slot => slotOk slot
  | .seated _ slot => slotOk slot
  | .removed _ slot => slotOk slot
  | .cooldownEnd _ slot => slotOk slot
  | .rampStart _ slot vin => slotOk slot && fits 16 vin
  | .gateOnComplete _ slot => slotOk slot
  | .faultTimerStart _ slot sense => slotOk slot && fits 16 sense
  | .faultTimerEnd _ slot sense => slotOk slot && fits 16 sense
  | .slowTrip _ slot => slotOk slot
  | .fastTrip _ slot sense => slotOk slot && fits 16 sense
  | .slotCtrlWrite _ path slot value => path.wf && slotOk slot && fits 64 value
  | .commandedGateOff _ slot => slotOk slot
  | .damageDetect _ slot vout => slotOk slot && fits 16 vout
  | .damagedClear _ path slot vout => path.wf && slotOk slot && fits 16 vout
  | .resetSlotTurnoff _ => true
  | .vddAuxLow _ => true
  | .powerOnResetRelease _ straps on =>
    fits 32 straps && on.programmed.all FlashPatch.wf && on.badReserves.all (fun g => decide (g < 16))
  | .chipRstL _ => true
  | .chipReset _ path => path.wf
  | .internalResetRelease _ straps => fits 32 straps
  | .imageAuthenticate _ readErrors => readErrors.all imageOk
  | .bootWatchdogExpiry _ => true
  | .erase _ path => path.wf
  | .eraseDone _ => true
  | .verify _ path => path.wf
  | .verifyDone _ _ => true
  | .activate _ path => path.wf
  | .activateAndLoadLive _ path => path.wf
  | .updateData _ path bs => path.wf && byteLimit 512 bs
  | .svnAdvance _ path => path.wf
  | .keyRevoke _ path k => path.wf && fits 8 k
  | .requestService _ path => path.wf
  | .requestTest _ path => path.wf
  | .requestRecovery _ path => path.wf
  | .requestDeployed _ path serialCheck => path.wf && fits 32 serialCheck
  | .requestFieldReturn _ path serialCheck => path.wf && fits 32 serialCheck
  | .debugUnlock _ signature => byteLimit 96 signature
  | .debugAccess _ region _ => fits 8 region
  | .jtagInstruction _ _ => true
  | .railOutOfWindow _ rail mv => railOk rail && fits 16 mv
  | .railCollapse _ rail mv => railOk rail && fits 16 mv
  | .tjSensorRead _ celsius => decide (celsius.length = 24)
  | .tjWarn _ => true
  | .tjCrit _ => true
  | .wearMeasurement _ _ monitor margin badSpares => monitorOk monitor && percentOk margin && badSpares.all physOk
  | .vidStep _ => true
  | .wearRecordSave _ => true
  | .lifeAccounting _ => true
  | .fabricLinkDown _ port => portOk port
  | .attentionButton _ port => portOk port
  | .doeRequest _ port protocol request => portOk port && fits 16 protocol && byteLimit 1024 request
  | .completionTimeout _ channel => tenancyOk channel
  | .presenceBreak _ slot => slotOk slot
  | .slotVinLow _ vin => fits 16 vin
  | .twinHbInEdge _ => true
  | .ethLinkDown _ => true
  | .railInWindow _ rail mv => railOk rail && fits 16 mv
  | .meadowPairRestarted _ => true

end Sys2Proof
end

