-- ==== Sys2Proof/Tests/Slice0.lean ====
section
/-! SUPPORT. The model's own tests: ill-formed commands are refused, values the spec works out, and for every hypothesis of
a statement a state and operands that meet it. -/
set_option Elab.async false
namespace Sys2Proof.Tests
open Sys2Proof Sys2Proof.Machine

/-! ### Small states and messages -/

/-- A state that runs its firmware in Service. -/
def ready : State :=
  (({ State.reset with boot := { State.reset.boot with stage := .ready, ucodeOk := true } }).setReg Obj.STP_STATE 0 2).setReg Obj.DEV_STATE 0 1
/-- The same in Test. -/
def testing : State := ready.setReg Obj.DEV_STATE 0 2
/-- The same in Recovery. -/
def recovering : State := ready.setReg Obj.DEV_STATE 0 3
/-- A dictionary message that holds no record. -/
def emptyMsg : List Byte := 1 :: 1 :: List.replicate 14 0
/-- Port 0 serves a fabric manager. -/
def fmReady : State := ready.setReg Obj.MGP_FM_PORTS 0 1
/-- Port 0 is a host port whose CXL.mem link is up. -/
def hostUp : State := ready.setReg Obj.EDGE_PORT_STATE 0 0x81
/-- Port 4 is a downstream port whose link is up. -/
def deviceUp : State := (fmReady.setReg Obj.EDGE_PORT_ROLE 4 1).setReg Obj.EDGE_PORT_STATE 4 0x81
/-- Port 8 is a fabric port whose link is up. -/
def fabricUp : State := (fmReady.setReg Obj.EDGE_PORT_ROLE 8 2).setReg Obj.EDGE_PORT_STATE 8 0x81
/-- The Pass port 56 in a link state. -/
def passAt (st : Nat) : State := (ready.setReg Obj.PASS_SWITCH_NUMBER 0 3).setReg Obj.PASS_LINK_STATE 56 (at_ 28 st)
/-- Port 0 belongs to tenancy 5, which is Live. -/
def rented : State := (ready.setReg Obj.TEN_PORT_BIND 0 5).setReg Obj.TEN_STATE 5 (at_ 30 1)
/-- What a CXL link partner offers. -/
def anOffer : Offer := ⟨2, true, false, true, true, false, false, 5, 16, false, [], [], false, []⟩
/-- A cell message of 64 bytes for a management target. -/
def aMsg : BMsg := ⟨.management, none, 6, 64, List.replicate 64 0, 16, false, false, 0, .posted, 0, .bytes⟩
/-- The target of it: egress port 4. -/
def aTarget : Target := ⟨4, .posted, 0⟩
/-- A fabric message of 64 bytes, all of them header, for that target. -/
def aPacket : FabricMsg := ⟨.management, .posted, [aTarget], 64, List.replicate 64 0, 64, false, false, 0, 0, none, false⟩
/-- Port 0 is a host port whose agent 0 is valid and whose decoder 0 maps tract 0 at host address 0. -/
def agentUp : State :=
  let s := ((hostUp.putRegBit Obj.EDGE_AGENT_MAP 0 31 true).putRegBit Obj.TRACT_DECODER 0 63 true).setRegBits Obj.TRACT_DECODER 0 32 19 1
  { s with edge := { s.edge with decoders := [(0, ⟨0, 2 ^ 28, true, false, false⟩)] } }
/-- A coherence message of one kind about line 0, from agent 0 of switch 0. -/
def cohMsg (kind : Nat) : CohMsg := ⟨kind, 3, some (0, 0), 3, 3, 0, 0, 0, 0, 3, 0, 0, 0, []⟩
/-- Ports 0 and 4 up, and a cell of port 0 stored for port 4 under queue q, with one entry. -/
def storedAt (q : Nat) : State :=
  { deviceUp with basin := { deviceUp.basin with
    stored := [⟨1, 0, .req, [aMsg], [], 1, [0], 1, false, 1⟩], entries := [⟨1, 4, q, .posted, 0, 0⟩] } }
/-- Port 56 in a link state with one message in its receive pool. -/
def pooled (st : Nat) (bytes : List Byte) : State :=
  let s := passAt st
  s.setPass 56 { s.passPort 56 with rxPool := [⟨passChannel bytes, bytes⟩] }
/-- A link message of a kind, of n bytes, on the response channel. -/
def linkMsg (kind : Byte) (n : Nat) : List Byte := kind :: 1 :: List.replicate (n - 2) 0
/-- A coherence message on its way to a hop, in a switch numbered 0 whose agent 0 is Live. -/
def flying (hop : Hop) (m : CohMsg) : State :=
  let s := (agentUp.setReg Obj.PASS_SWITCH_NUMBER 0 0).setReg Obj.EDGE_AGENT_STATE 0 1
  { s with coh := { s.coh with flight := [⟨hop, m⟩] } }
/-- The same message while its transaction stands. -/
def openTxn (st : TxnStatus) : State :=
  let s := flying .reply (cohMsg 0x22)
  { s with coh := { s.coh with txns := [⟨0, 0, 0, .port 0, 0, cohMsg 1, 0, st⟩] } }
/-- A context of engine 0 about line 0 with one snoop of agent 0, sent at once, in a state that has run for a minute. -/
def snooping : State :=
  { flying .reply (cohMsg 0x22) with now := 60000000000, coh := { agentUp.coh with ctxs := [⟨0, 0, false, .serve, cohMsg 1, [⟨.agent 0, 0x10, 0, true, false⟩], .none, 0, true⟩] } }
/-- A slice move from role 0 to role 1. -/
def moving (r : Bool) : State := { ready with col := { ready.col with moves := [⟨0, 0, 1, .steal, r⟩] } }
/-- A Col queue with one item. -/
def queued (slice : Option Nat) : State := { ready with col := { ready.col with deques := [(1, [⟨3, slice, 0⟩])] } }
/-- A device whose port 56 is a Saddle link that is up, and one message from the twin in its pool. -/
def twinMsg (kind : Byte) : State :=
  let s := (passAt 4).setReg Obj.TWIN_ENABLE 0 1
  s.setPass 56 { s.passPort 56 with rxPool := [⟨2, linkMsg kind 128⟩] }
/-- The same with a Live allocation 1 of tract 0 in a role, that holds a key and is tracked. -/
def twinAlloc (kind : Byte) (role : Nat) : State :=
  let s := ((twinMsg kind).setReg Obj.TRACT_ALLOC_STATE 1 (at_ 30 1)).setReg Obj.TRACT_ALLOC_EXTENT 1 (at_ 40 1)
  let t := (s.setReg Obj.TRACT_ALLOC_ATTR 1 (at_ 59 1 + at_ 60 1 + at_ 61 1 + at_ 62 role)).setReg Obj.TWIN_PARTNER_SWITCH 0 0
  { t with twin := { t.twin with paired := [0] } }
/-- A channel of tenancy 5 that runs. -/
def chanWith (c : GlenCh) : State := { rented with glen := { rented.glen with chans := [(5, c)] } }
/-- A write into the window of port 0. -/
def winAt (offset : Nat) : WindowWrite := ⟨0, offset, 4, 0⟩
/-- The state after a command's time of 0 ns: `u` of the statements, for `dt = 0`. -/
def at0 (s : State) : State := s.advance 0
/-- A codeword of R165. -/
def aWord : List Nat := [255, 255] ++ List.replicate 116 0 ++ [255, 255, 0xF7, 0x94, 0x59, 0xBC, 0xCD, 0x46, 0x49, 0x44]
/-- A flit of four such codewords: eight bytes that bring the CRC register to 0, zeros, the CRC and the parity. -/
def aFlit : List Byte :=
  List.replicate 8 0xFF ++ List.replicate 464 0 ++ List.replicate 8 0xFF
    ++ [0xF7, 0x94, 0x59, 0xBC, 0xCD, 0x46, 0x49, 0x44].flatMap (List.replicate 4)
/-- Its bytes as numbers. -/
def aNums : List Nat :=
  List.replicate 8 0xFF ++ List.replicate 464 0 ++ List.replicate 8 0xFF
    ++ [0xF7, 0x94, 0x59, 0xBC, 0xCD, 0x46, 0x49, 0x44].flatMap (List.replicate 4)
/-- 512 bytes with an uncorrectable codeword. -/
def badFlitBytes : List Byte := List.replicate 480 0 ++ [1, 127, 122, 154, 164, 11, 68, 117].flatMap (fun b => b :: List.replicate 3 0)
/-- Bits of the PRBS7 pattern that follow others, the latest of which come first. -/
def prbsRun : Nat → List Bool → List Bool
  | 0, _ => []
  | n + 1, past => prbsNext 0 past :: prbsRun n (prbsNext 0 past :: past.take 6)
/-- A seed of seven bits and the 64 bits of PRBS7 after it. -/
def prbs7Bits : List Bool := List.replicate 7 true ++ prbsRun 64 (List.replicate 7 true)

/-! ### Ill-formed commands -/

/-- A number past its range is refused: ports, egress ports, vPPBs, LD-IDs, lanes, groups, references, engines. -/
theorem test_wf_ports_and_lanes :
    ((Instr.identify 0 64).wf || (Instr.stall 0 72).wf || (Instr.bindComplete 0 0 64).wf || (Instr.ldIdentityRead 0 0 16 0 0).wf
      || (Instr.ebError 0 272).wf || (Instr.swapSwitch 0 16).wf || (Instr.referenceStopped 0 18).wf || (Instr.backgroundItem 0 256).wf
      || (Instr.imemScrub 0 272 0 []).wf || (Instr.sliceQuiescent 0 4096).wf) = false := by decide
/-- The same for tenancies, agents, lines, slots, stacks, channels and faults. -/
theorem test_wf_units :
    ((Instr.tenancyResetEnd 0 4096).wf || (Instr.suspectLimit 0 64).wf || (Instr.mirroredWriteComplete 0 (2 ^ 45)).wf || (Instr.seated 0 32).wf
      || (Instr.stackTemp 0 4 0).wf || (Instr.scrubLate 0 128).wf || (Instr.faultEventTimer 0 64).wf || (Instr.sourceEvent 0 0 32 0).wf
      || (Instr.quietTimerExpiry 0 2048).wf || (Instr.railInWindow 0 9 0).wf || (Instr.hdmDecoderCommit 0 0 8 0 ⟨0, false⟩).wf
      || (Instr.routeEntryClear 0 16).wf || (Instr.pbrFlit 0 0 4096 0).wf || (Instr.sourceEvent 0 0 0 65536).wf) = false := by decide
/-- The same for cells, queues, ranges, engines of the movers, summary elements, per cent, monitors and image slots. -/
theorem test_wf_elements :
    ((Instr.cellRead 0 0 262144 .none).wf || (Instr.queueEligible 0 32768).wf || (Instr.dlogClearDone 0 32768).wf || (Instr.glenTurn 0 64 false).wf
      || (Instr.summaryEvent 0 128).wf || (Instr.wearMeasurement 0 .lane 0 101 []).wf || (Instr.wearMeasurement 0 .lane 272 0 []).wf
      || (Instr.imageAuthenticate 0 [0]).wf) = false := by decide
/-- A value wider than its field and a payload longer than its limit are refused. -/
theorem test_wf_widths :
    ((Instr.kdpDatagram 0 (2 ^ 32) 0 []).wf || (Instr.kdpDatagram 0 0 0 (List.replicate 1025 0)).wf || (Instr.setEndpointId 0 256).wf
      || (Instr.flitRx 0 0 (List.replicate 17 [])).wf || (Instr.flitRx 0 0 [List.replicate 513 0]).wf
      || (Instr.innerCorrectionReport 0 0 [0]).wf || (Instr.prbsLock 0 ⟨0, List.replicate 129 true⟩).wf || (Instr.prbsLockLoss 0 0 1025 1025).wf) = false := by decide +kernel
/-- The paths, records and window accesses. -/
theorem test_wf_records :
    ((Path.kdp (2 ^ 32) 0).wf || (Path.fm 64 false).wf || (Path.tenant 64).wf || (readRec (2 ^ 24) none).wf || (readRec 0 (some 65536)).wf
      || (⟨0, 2 ^ 20, 4, 0⟩ : WindowWrite).wf || (⟨0, 0, 9, 0⟩ : WindowWrite).wf || (⟨0, 0, 4, 2 ^ 32⟩ : WindowWrite).wf
      || (ReadSource.window 64 0 4).wf || (ReadSource.config 0 64 .classCode).wf || (WriteSource.config 0 0 .dpcControl (2 ^ 32)).wf || (WriteSource.window ⟨64, 0, 4, 0⟩).wf) = false := by decide
/-- What hosts, links and lanes bring. -/
theorem test_wf_messages :
    ((⟨256, 0, 0, 0⟩ : Margin).wf || (⟨16, 0, 0, false, false, false⟩ : LdOffer).wf || ({ anOffer with version := 4 }).wf || ({ anOffer with rate := 6 }).wf
      || ({ anOffer with width := 17 }).wf || ({ anOffer with inverted := [16] }).wf
      || ({ anOffer with ffe := [.preset 11] }).wf || ({ anOffer with ffe := [.coefficients 0 64 0] }).wf || (HostSource.pbr 0 4096).wf || (⟨.memRd, .any, .noOp, 65536, 0⟩ : HostReq).wf
      || (⟨.memWr, .any, .noOp, 0, 0, [], 0, false⟩ : HostRwd).wf || (⟨some 3, 0⟩ : HostBirsp).wf
      || ({ aPacket with targets := [] }).wf || ({ aPacket with headerBytes := 65 }).wf || ({ aPacket with ld := 16 }).wf
      || ({ aPacket with dpid := some 4096 }).wf || ({ aPacket with requester := 65536 }).wf
      || (⟨true, true, true, 3, 0⟩ : LaneReport).wf) = false := by decide
/-- Memory lines, coherence messages and the rest. -/
theorem test_wf_lines :
    ((⟨[], false, false, 0⟩ : StoredLine).wf || (⟨List.replicate 64 0, false, false, 4096⟩ : StoredLine).wf || (⟨[(80, 1)], none, none⟩ : DramErrors).wf || (⟨[], some (2 ^ 32), none⟩ : DramErrors).wf
      || (⟨[], none, some []⟩ : DramErrors).wf
      || (⟨0, 64, 0⟩ : SpareRow).wf || (WindowId.ten 4096).wf || (cohMsg 64).wf || ({ cohMsg 1 with data := [0] }).wf || (SnoopTarget.proxy 256).wf
      || (SnoopTarget.agent 64).wf || (Requester.switch 16).wf || (⟨0, 101⟩ : EngineLoad).wf || (HostReadResult.data (List.replicate 4097 0)).wf
      || (⟨.data (List.replicate 4097 0), false⟩ : SourceResult).wf || (⟨2 ^ 24, 0⟩ : CounterElem).wf || (⟨2 ^ 26, [0]⟩ : FlashPatch).wf) = false := by
  decide +kernel
/-- No word spells a command, and so a word put in front of the queue changes nothing. -/
theorem test_decode_none : decodeTableWord 32 0 = none ∧ State.reset.withFetchWord 32 0 = State.reset := ⟨rfl, rfl⟩

/-! ### Values the spec works out -/

/-- `exec` answers a next state. -/
def completes (c : Instr) (s : State) : Bool := match exec c s with | .next _ => true | _ => false
/-- The next state that `exec` answers. -/
def after (c : Instr) (s : State) : State := match exec c s with | .next t => t | _ => s
/-- The worked example of `02_object_dictionary.md` (a KDP read of `ID.PART`): the request it writes out is answered with
the response it describes. -/
theorem test_kdp_read_of_id_part :
    (let request : List Byte := [1, 1, 0x42, 0, 1, 0, 0x0C, 0, 0, 0xFF, 0, 0, 0, 0, 0, 0, 1, 0, 0, 0x10, 2, 0, 0, 0, 0, 0, 0, 0];
      let response : List Byte := [1, 2, 0x42, 0, 1, 0, 0x1C, 0, 0, BitVec.ofNat 8 ready.switchField, 0, 0, 0, 0, 0, 0, 1, 0, 0, 0x10, 2, 0, 0, 0, 0x10, 0, 0, 0]
        ++ "VB6400-192".toList.map (fun c => BitVec.ofNat 8 c.toNat) ++ List.replicate 6 0;
      decide ((after (.read 0 (.record (.kdp 1 2) (readRec Obj.ID_PART none))) (after (.takeMessage 0) { ready with mgmt := { ready.mgmt with qEth := [⟨.kdp 1 2, request⟩] } })).out = [.udp 1 2 response])) = true := by
  decide +kernel
/-- The worked example of `08_steppe_memory.md` (the placement of an address, R196). -/
theorem test_xlate_result :
    (after (.xlate 0 (.kdp 0 0) 0x0001234580) ready).reg Obj.STP_XLATE_RESULT = 0x807000048D000000 := by
  decide +kernel
/-- The worked example of `12_col_engines.md` (R308): the slice of a line and its base engine. -/
theorem test_slice_of_line : sliceOf 0x40003001234 = 630 ∧ State.reset.engineOf 630 = 118 := by decide +kernel
/-- The worked example of `06_egress_scheduling.md` (a queue's shaper): the rate and the burst of the word it writes, and
the write in Recovery. -/
theorem test_queue_shaper :
    (let w := 0xC000305800012EE7;
      shaperRate w == 1000079360 && shaperBurst w == 4096
        && readObj (after (.shaperWrite 0 (.kdp 0 0) false 2402 w) recovering) Obj.SCHED_QUEUE_TOKENS 2402 == 4096) = true := by
  decide +kernel
/-- The published check value of the CRC that R166 names by its polynomial, register and final XOR: that of the nine
ASCII digits 1 to 9. -/
theorem test_crc64_check : crc64 ("123456789".toList.map (fun c => BitVec.ofNat 8 c.toNat)) = 0x62EC59E3F1A4F00A := by decide +kernel
/-- R420: a counter that passes 2^48 - 1 wraps to 0 and sets OVF. -/
theorem test_counter_wraps : bumpWord (2 ^ 48 - 1) 1 = 2 ^ 63 := by decide
/-- R51: the link-local address takes its last two bytes from the MAC, 0 and 255 replaced by 1 in the last. -/
theorem test_link_local_address :
    ((ready.setReg Obj.MGP_IP_MODE 0 1).setReg Obj.MGP_MAC 0 0xFF0500000000).ipv4 = 0xA9FE0601 := by decide +kernel
/-- R167: the symbols of the byte 0x1B, bits 1..0 first: 11 is level 2, 10 level 3, 01 level 1, 00 level 0. -/
theorem test_gray_levels : levelsOf [0x1B] = [2, 3, 1, 0] := by decide

/-! ### The hypotheses of the statements are met

A theorem evaluates all hypotheses of a clause together, as tests, in the state that `let u` names; the clauses of one
statement stand one after the other, and the command of each is well formed. -/

/-- `State.wf`, evaluated. -/
def canonical (s : State) : Bool :=
  sparseWf defaultOf s.regs && Memory.wf s.mem && sparseWf lineDefault s.lineMeta && sparseWf flashDefault s.flash
theorem canonical_wf (s : State) (h : canonical s = true) : s.wf := by
  simp only [canonical, Bool.and_eq_true] at h
  exact ⟨h.1.1.1, h.1.1.2, h.1.2, h.2⟩
/-- A step that completes, for the statements about a step or a command from every state. -/
theorem witness_AnyStep :
    (let s : State := { ready with pending := [.identify 0 0] };
      canonical s && decide (s.resetAt ≤ s.now) && match step s with | .next t => t.pending.isEmpty | _ => false) = true := by
  decide +kernel
/-- `QueueIsFirstInFirstOut` with an event message that waits. -/
theorem witness_IdleStep :
    (let s : State := { ready with mgmt := { ready.mgmt with i3cEvents := [[1, 2]] } };
      s.pending.isEmpty && decide (s.mgmt.i3cEvents = [[1, 2]]) && decide (s.phase = .running) && decide (s.serving = true)
      && match step s with | .next t => t.mgmt.i3cEvents.isEmpty | _ => false) = true := by
  decide +kernel
/-- The two clauses of `EveryCommandCompletes` at the last address of the memory and at the first past it. -/
theorem witness_EveryCommandCompletes :
    offSteppe (.steppeRead 0 (steppeEnd - 1) 0 ⟨[], none, none⟩) = false ∧ offSteppe (.steppeRead 0 steppeEnd 0 ⟨[], none, none⟩) = true := by
  decide
/-- `UnpoweredBlockOnlyTellsTime` and `ChipResetHoldsTheBlock`. -/
theorem witness_PowerStates :
    ({ State.reset with phase := .unpowered } : State).phase = .unpowered ∧ ({ State.reset with phase := .chipReset } : State).phase = .chipReset
      ∧ alwaysOn (.identify 0 0) = false ∧ withPower (.identify 0 0) = false ∧ offSteppe (.identify 0 0) = false :=
  ⟨rfl, rfl, rfl, rfl, rfl⟩
/-- The four frames over all commands, each with a command that completes and is not exempt. -/
theorem witness_Frames :
    (!mayStore (.lowFreeWrite 0 (.kdp 0 0) 5) && completes (.lowFreeWrite 0 (.kdp 0 0) 5) ready
      && !mayFlash (.steppeWrite 0 0 ⟨List.replicate 64 1, false, false, 0⟩) && completes (.steppeWrite 0 0 ⟨List.replicate 64 1, false, false, 0⟩) ready
      && sparesRegs (.linkLocalAnnounce 0) && completes (.linkLocalAnnounce 0) ready
      && !mayEndRun (.identify 0 0) && completes (.identify 0 0) fmReady) = true := by
  decide +kernel
/-- `ready` with a channel's write queue full. -/
def queueFull : State := { ready with stp := { ready.stp with writes := [(lineChannel 0, ⟨List.replicate 128 0, ready.now⟩)] } }
/-- `SteppeWriteFrame` at the first and the last line of the memory, and with a full queue. -/
theorem witness_SteppeWriteFrame :
    (canonical ready && completes (.steppeWrite 0 0 ⟨List.replicate 64 1, false, false, 0⟩) ready
      && completes (.steppeWrite 0 (steppeEnd - 1) ⟨List.replicate 64 1, true, false, 5⟩) ready
      && !(queueFull.advance 0).writeRoom (0 / 64) && decide ((queueFull.writeQueue (lineChannel 0)).lines.length ≤ 128)) = true := by
  decide +kernel
/-- `SteppeLineReadsBack` with the first and the last address and the first and the last tag. -/
theorem witness_SteppeLineReadsBack :
    (canonical ready && decide (ready.phase = .running) && ready.steppeReady && !isSlot 0 && isSlot 1
      && (ready.advance 0).writeRoom (0 / 64) && (ready.advance 0).writeRoom ((steppeEnd - 1) / 64) && decide (0 < steppeEnd) && decide (steppeEnd - 1 < steppeEnd)
      && decide ((List.replicate 64 (1 : Byte)).length = 64) && decide (0xFFE < 4096) && decide (ready.keyState 0 ≠ 2) && decide (ready.keyState 0xFFE ≠ 2)) = true := by
  decide +kernel
/-- A line that is plaintext and stands without an error. -/
def plainLine (s : State) (n : Nat) : Bool := assocGet s.stp.faults n == none && decide (s.lineTag n = 0)
/-- `OutboundDataFrame`: the fabric manager's pair, a tenancy's pair, and none; a line that is plaintext and one that is erased. -/
theorem witness_OutboundDataFrame :
    (plainLine (fmReady.sysWrite (outboxAddr fmPair) [1]) (outboxAddr fmPair / 64) && !plainLine fmReady (outboxAddr fmPair / 64)
      && canonical fmReady && mailboxPair fmReady 0 == some fmPair && completes (.outDataWrite 0 (winAt 0x40100)) fmReady
      && canonical rented && mailboxPair rented 0 == some 5 && completes (.outDataWrite 0 (winAt 0x401FC)) rented
      && mailboxPair ready 0 == none && completes (.outDataWrite 0 (winAt 0x40100)) ready) = true := by
  decide +kernel
/-- `DescriptorAreaFrame`: a tenancy's area at both ends, and none; a line that is plaintext. -/
theorem witness_DescriptorAreaFrame :
    (plainLine (rented.sysWrite (descArea 5 + 0x1000) [1]) ((descArea 5 + 0x1000) / 64) && canonical rented && rented.portTenancy 0 == some 5 && completes (.descAreaWrite 0 (winAt 0x1000)) rented
      && completes (.descAreaWrite 0 (winAt 0x3FFFC)) rented && ready.portTenancy 0 == none && completes (.descAreaWrite 0 (winAt 0x1000)) ready) = true := by
  decide +kernel
/-- `EraseFrame`. -/
theorem witness_EraseFrame :
    (let s : State := { ready with boot := { ready.boot with work := 1 } }; canonical s && completes (.eraseDone 0) s) = true := by
  decide +kernel
/-- `SubindexZero`: an index that is defined, with a subindex that is found, and one that is not. -/
theorem witness_SubindexZero :
    (indexDefined 0x1000 && !indexDefined 0x0FFF && match lookupObj 0x1000 (highestSub 0x1000) with | .ok _ => true | _ => false) = true := by
  decide +kernel
/-- `CountersNeedPermission`: a counter of the tenancy's own with COUNTERS clear and set, and an object that is none. -/
theorem witness_CountersNeedPermission :
    (let s1 := rented.putRegBit Obj.TEN_CTRL 5 30 true;
      let s0 := rented.putRegBit Obj.TEN_CTRL 5 30 false;
      let r := readRec Obj.TEN_RESETS (some 5);
      canonical s0 && canonical s1 && s0.portTenancy 0 == some 5 && s1.portTenancy 0 == some 5
      && (match lookupObj r.index r.sub with
        | .ok o => isCounterObj o.addr && canRead .t o && elementOk o r.elem && decide (o.count = 4096 → r.elem = none ∨ r.elem = some 5) && r.data.isEmpty
        | _ => false)
      && !s0.regBit Obj.TEN_CTRL 5 30 && s1.regBit Obj.TEN_CTRL 5 30
      && match lookupObj (readRec Obj.DEV_STATE none).index (readRec Obj.DEV_STATE none).sub with | .ok o => !isCounterObj o.addr | _ => false) = true := by
  decide +kernel
/-- `WritesWaitForTheCommit`: a write over KDP, and a recovery write over I3C. -/
theorem witness_WritesWaitForTheCommit :
    (let s := ready.setReg Obj.STG_STATUS 0 2;
      let r := writeRec Obj.SLOT_COOLDOWN none 7;
      let w := writeRec Obj.MGP_IP_MODE none 0;
      decide (s.reg Obj.STG_STATUS = 2)
      && (match lookupObj r.index r.sub with | .ok o => accessOk s (.kdp 0 0) .write o r.elem && elementOk o r.elem | _ => false)
      && (match lookupObj w.index w.sub with | .ok o => accessOk s .i3c .write o w.elem && elementOk o w.elem | _ => false)
      && mayServe s .i3c .write w && checkRecord s .i3c .write w == .ok) = true := by
  decide +kernel
/-- `StagingHoldsOneValue`: a staged value of another object, and one of the same object. -/
theorem witness_StagingHoldsOneValue :
    (let s := stageRecord (stageRecord ready (.kdp 0 0) Obj.SLOT_COOLDOWN none 7) .i3c Obj.SLOT_PORT (some 0) 2;
      canonical s && s.mgmt.staged.any (fun x => x.addr != Obj.SLOT_COOLDOWN) && s.mgmt.staged.any (fun x => x.addr == Obj.SLOT_COOLDOWN)) = true := by
  decide +kernel
/-- `LinkLocalAddress`: link-local mode, an ARP probe that passes the policer, and an announcement that is sent. -/
theorem witness_LinkLocalAddress :
    (let s := ready.setReg Obj.MGP_IP_MODE 0 1;
      decide (s.reg Obj.MGP_IP_MODE = 1) && decide (s.phase = .running) && s.ethServed && (policeFrame s).2
      && (match exec (.linkLocalAnnounce 0) s with | .next t => decide (t.out ≠ s.out) | _ => false)) = true := by
  decide +kernel
/-- `ChannelRuns`: a channel that runs, one that does not, and the window in Start-up and of a Free tenancy. -/
theorem witness_ChannelRuns :
    (rented.chanRuns 5 && !ready.chanRuns 5 && decide (ready.phase = .running)
      && (let s := rented.setReg Obj.DEV_STATE 0 0; s.isHost 0 && s.portTenancy 0 == some 5 && decide (s.devState = 0))
      && (let s := rented.setReg Obj.TEN_STATE 5 0; s.isHost 0 && s.portTenancy 0 == some 5 && decide (s.tenState 5 = 0))) = true := by
  decide +kernel
/-- `RampNeedsVin`. -/
theorem witness_RampNeedsVin :
    ((ready.putRegBit Obj.SLOT_STATUS 31 19 true).regBit Obj.SLOT_STATUS 31 19 && canonical ready && completes (.slotVinLow 0 9999) ready) = true := by
  decide +kernel
/-- `LifecycleRequest`: a wrong check, a wrong target, and a right one outside Start-up and Test. -/
theorem witness_LifecycleRequest :
    (decide (ready.reg Obj.STG_STATUS ≠ 2) && pathClass (.kdp 0 0) == .m
      && (let v := (ready.reg Obj.ID_SERIAL % 2 ^ 32 + 1) * 2 ^ 32 + 1; decide (v < 2 ^ 64) && decide (v / 2 ^ 32 ≠ ready.reg Obj.ID_SERIAL % 2 ^ 32))
      && (let v := ready.reg Obj.ID_SERIAL % 2 ^ 32 * 2 ^ 32 + (ready.reg Obj.LIFE_STATE + 2); decide (v % 256 ≠ ready.reg Obj.LIFE_STATE + 1))
      && (let v := ready.reg Obj.ID_SERIAL % 2 ^ 32 * 2 ^ 32 + (ready.reg Obj.LIFE_STATE + 1);
        decide (v < 2 ^ 64) && decide (v / 2 ^ 32 = ready.reg Obj.ID_SERIAL % 2 ^ 32) && decide (v % 256 = ready.reg Obj.LIFE_STATE + 1)
        && decide (v % 256 ≤ 2) && decide (ready.devState ≠ 0) && decide (ready.devState ≠ 2))) = true := by
  decide +kernel
/-- `EpochInterval`: an interval that runs, and an epoch change that happens. -/
theorem witness_EpochInterval :
    ((let u := (moving true).arm ⟨.epoch, 0, 0⟩ 1; u.armed ⟨.epoch, 0, 0⟩ && !u.due ⟨.epoch, 0, 0⟩)
      && canonical (moving true) && match exec (.epochChange 0) (moving true) with
        | .next t => decide (t.reg Obj.COL_EPOCH ≠ (moving true).reg Obj.COL_EPOCH)
        | _ => false) = true := by
  decide +kernel
/-- `SanitizeDestroysEverySlot`: Service, and Test with a Live key slot. -/
theorem witness_SanitizeDestroysEverySlot :
    (decide (ready.reg Obj.STG_STATUS ≠ 2) && decide (ready.devState ≠ 2) && decide (ready.devState ≠ 3)
      && (let s := { testing.setReg Obj.STP_KEY_STATE 7 1 with stp := { testing.stp with keys := [(7, 1)] } };
        canonical s && decide (s.phase = .running) && takesWrite s (.kdp 0 0) Obj.STP_SANITIZE none 1 && s.liveSlots.contains 7 && decide (s.keyState 7 = 1))) = true := by
  decide +kernel
/-- `FaultStatusWord`: the first and the last group, and a record that names the word. -/
theorem witness_FaultStatusWord :
    0 < 64 ∧ 63 < 64 ∧ (writeRec Obj.FLT_STATUS none 0).index = 0x5000 ∧ (writeRec Obj.FLT_STATUS none 0).sub = 1 := by decide
/-- `FlitsCrossTheLanes`: the narrowest and the widest port, and a flit. -/
theorem witness_FlitsCrossTheLanes : 0 < 1 ∧ 128 % 1 = 0 ∧ 0 < 16 ∧ 128 % 16 = 0 ∧ aFlit.length = 512 := by
  exact ⟨by decide, by decide, by decide, by decide, by decide +kernel⟩

theorem aWord_decodes : rsDecode aWord = some (aWord, 0) := by decide +kernel
theorem aFlit_nums : aFlit.map (·.toNat) = aNums := by decide +kernel
theorem aFlit_words : ∀ k < 4, codeword (aFlit.map (·.toNat)) k = aWord := by rw [aFlit_nums]; decide +kernel
theorem fecDecode_of (flit : List Byte) (w : List Nat) (h : ∀ k < 4, codeword (flit.map (·.toNat)) k = w) (hw : rsDecode w = some (w, 0)) :
    fecDecode flit = some ((List.range 512).map (fun i => BitVec.ofNat 8 (([w, w, w, w].getD (i % 4) []).getD (i / 4) 0)), [0, 0, 0, 0]) := by
  simp only [fecDecode, h 0 (by decide), h 1 (by decide), h 2 (by decide), h 3 (by decide), hw]
theorem aFlit_back : (List.range 512).map (fun i => BitVec.ofNat 8 (([aWord, aWord, aWord, aWord].getD (i % 4) []).getD (i / 4) 0)) = aFlit := by
  decide +kernel
theorem aFlit_decodes : fecDecode aFlit = some (aFlit, [0, 0, 0, 0]) :=
  (fecDecode_of _ _ aFlit_words aWord_decodes).trans (congrArg (fun l => some (l, [0, 0, 0, 0])) aFlit_back)
theorem crcBytes_zeros (n : Nat) : crcBytes 64 0x42F0E1EBA9EA3693 0 (List.replicate n 0) = 0 := by
  induction n with
  | zero => rfl
  | succ n ih => rw [List.replicate_succ]; exact ih
theorem crc64_lead (a : List Byte) (n : Nat) (h : crcBytes 64 0x42F0E1EBA9EA3693 (2 ^ 64 - 1) a = 0) :
    crc64 (a ++ List.replicate n 0) = Nat.xor 0 (2 ^ 64 - 1) := by
  have h3 : crcBytes 64 0x42F0E1EBA9EA3693 (2 ^ 64 - 1) (a ++ List.replicate n 0) = 0 :=
    (List.foldl_append ..).trans ((congrArg (fun c => crcBytes 64 0x42F0E1EBA9EA3693 c (List.replicate n 0)) h).trans (crcBytes_zeros n))
  exact congrArg (fun c => Nat.xor c (2 ^ 64 - 1)) h3
theorem aFlit_crc : leField aFlit 472 8 = crc64 (aFlit.take 472) := by
  have h : aFlit.take 472 = List.replicate 8 0xFF ++ List.replicate 464 0 := by decide +kernel
  have h2 : leField aFlit 472 8 = Nat.xor 0 (2 ^ 64 - 1) := by decide +kernel
  rw [h2, h]
  exact (crc64_lead _ _ (by decide +kernel)).symm
theorem aFlit_lanes : flitOfLanes 16 (flitLanes 16 aFlit) = aFlit := by decide +kernel
theorem badFlit_lanes : flitOfLanes 16 (flitLanes 16 badFlitBytes) = badFlitBytes := by decide +kernel
/-- A word with the syndromes 0 but for the last, which no codeword lies near. -/
def badWord : List Nat := List.replicate 120 0 ++ [1, 127, 122, 154, 164, 11, 68, 117]
theorem badWord_syndromes : syndromes badWord = [0, 0, 0, 0, 0, 0, 0, 226] := by decide +kernel
theorem badWord_locator : (locator [0, 0, 0, 0, 0, 0, 0, 226]).l = 8 := by decide +kernel
theorem badWord_decodes : rsDecode badWord = none := by
  simp only [rsDecode, badWord_syndromes, badWord_locator]
  rfl
theorem badFlit_word : codeword (badFlitBytes.map (·.toNat)) 0 = badWord := by decide +kernel
theorem badFlit_decodes : fecDecode badFlitBytes = none := by
  simp only [fecDecode, badFlit_word, badWord_decodes]
/-- The clauses of `PassComplete` about a flit that is received good, and about one that no codeword lies near. -/
theorem witness_Pass_flitRx :
    (let u : State := at0 (passAt 4); decide (u.phase = .running) && u.isPass 56 && decide (u.passState 56 = 4)
        && decide (max 1 (u.portWidth 56) = 16)) = true
      ∧ fecDecode (flitOfLanes 16 (flitLanes 16 aFlit)) = some (aFlit, [0, 0, 0, 0]) ∧ leField aFlit 472 8 = crc64 (aFlit.take 472)
      ∧ fecDecode (flitOfLanes 16 (flitLanes 16 badFlitBytes)) = none
      ∧ (Instr.flitRx 0 56 (flitLanes 16 aFlit)).wf = true ∧ (Instr.flitRx 0 56 (flitLanes 16 badFlitBytes)).wf = true := by
  refine ⟨by decide +kernel, ?_, aFlit_crc, ?_, by decide +kernel, by decide +kernel⟩
  · rw [aFlit_lanes]; exact aFlit_decodes
  · rw [badFlit_lanes]; exact badFlit_decodes
/-- The hypotheses of every clause of `ManagementMessagesComplete` are met together somewhere. -/
theorem witness_ManagementMessages : ((let payload : List Byte := emptyMsg; let srcIp : Nat := 0; let srcPort : Nat := 0; let u : State := at0 <| (ready);
    decide (u.phase = .running) && decide (u.ethServed = true) &&
    decide ((policeKdp (u.count1 Obj.MGP_KDP_RX 0)).2 = true) && decide (headerMalformed payload = false) &&
    decide (keptRequest (policeKdp (u.count1 Obj.MGP_KDP_RX 0)).1 srcIp srcPort (leField payload 2 2) = none) &&
    (Instr.kdpDatagram 0 srcIp srcPort payload).wf)
  && (let targetIp : Nat := ready.ipv4; let senderIp : Nat := 0; let u : State := at0 <| (ready);
    decide (u.phase = .running) && decide (u.ethServed = true) && decide ((policeFrame u).2 = true) &&
    decide (targetIp = (policeFrame u).1.ipv4) && (Instr.arpFrame 0 senderIp targetIp).wf)
  && (let dstIp : Nat := ready.ipv4; let srcIp : Nat := 0; let payload : List Byte := []; let u : State := at0 <| (ready);
    decide (u.phase = .running) && decide (u.ethServed = true) && decide ((policeFrame u).2 = true) &&
    decide (dstIp = (policeFrame u).1.ipv4) && (Instr.icmpEcho 0 srcIp dstIp payload).wf)
  && (let u : State := at0 <| (ready); decide (u.phase = .running) && decide (u.ethServed = true) &&
    (Instr.ethFrameDrop 0).wf)
  && (let u : State := at0 <| (ready).setReg Obj.MGP_IP_MODE 0 1; decide (u.phase = .running) &&
    decide (u.ethServed = true) && decide (u.reg Obj.MGP_IP_MODE = 1) && decide (u.armed ⟨.linkLocal, 0, 0⟩ = false) &&
    (Instr.linkLocalAnnounce 0).wf)
  && (let body : List Byte := beBytes (ready.reg Obj.ID_VENDOR_PEN) 4 ++ [1] ++ emptyMsg; let u : State := at0 <| (ready);
    decide (u.phase = .running) && decide (u.firmware = true) && decide (5 ≤ body.length) &&
    decide (body.take 4 = beBytes (u.reg Obj.ID_VENDOR_PEN) 4) && decide (leField body 4 1 = 1) &&
    decide (headerMalformed (body.drop 5) = false) && (Instr.mctpMessage 0 body).wf)
  && (let eid : Nat := 9; let u : State := at0 <| (ready); decide (u.phase = .running) && decide (u.firmware = true) &&
    decide (1 ≤ eid) && decide (eid ≤ 254) && (Instr.setEndpointId 0 eid).wf)
  && (let u : State := at0 <| (ready); decide (u.phase = .running) && decide (u.firmware = true) &&
    (Instr.getEndpointId 0).wf)
  && (let msgType : Nat := 0; let u : State := at0 <| (ready); decide (u.phase = .running) && decide (u.firmware = true) &&
    decide (msgType = 0xFF ∨ msgType = 0 ∨ msgType = 0x7F) && (Instr.getMctpVersionSupport 0 msgType).wf)
  && (let u : State := at0 <| (ready); decide (u.phase = .running) && decide (u.firmware = true) &&
    (Instr.getMessageTypeSupport 0).wf)
  && (let u : State := at0 <| (ready); decide (u.phase = .running) && decide (u.firmware = true) &&
    (Instr.getVendorDefinedMessageSupport 0 0).wf)
  && (let payload : List Byte := emptyMsg; let port : Nat := 0; let u : State := at0 <| (fmReady);
    decide (u.phase = .running) && decide (u.firmware = true) && decide (u.isHost port = true) &&
    decide (headerMalformed payload = false) && decide (u.isFmPort port = true) &&
    (Instr.dictionaryAccess 0 port payload).wf)
  && (let payload : List Byte := emptyMsg; let port : Nat := 0; let u : State := at0 <| (ready);
    decide (u.phase = .running) && decide (u.firmware = true) && decide (u.isHost port = true) &&
    decide (headerMalformed payload = false) && decide (u.isFmPort port = false) &&
    (Instr.dictionaryAccess 0 port payload).wf)
  && (let u : State := at0 <| ({ ready with mgmt := { ready.mgmt with qEth := [⟨.kdp 0 0, emptyMsg⟩] } });
    decide (u.phase = .running) && decide (u.serving = true) && decide (u.mgmt.svc = none) &&
    (match nextQueue u with | some n => (match u.pathQueue n with | _ :: _ => (Instr.takeMessage 0).wf | _ => false) | _ => false))) = true := by
  decide +kernel
/-- The hypotheses of every clause of `RecordsComplete` are met together somewhere. -/
theorem witness_Records : ((let r := readRec Obj.DEV_STATE none; let path := (.kdp 0 0 : Path); let u : State := at0 <| (ready);
    decide (u.phase = .running) &&
    (let w := settleFor u (r.index * 256 + r.sub) (r.elem.getD 0); decide (mayServe w path .read r = true) && decide (checkRecord w path .read r = .ok) && (match lookupObj r.index r.sub with | .ok o => decide (o.count = 0) && decide (canRead (pathClass path) o = true) && decide (r.index * 256 + r.sub ∉ [Obj.TRACT_MEM_DATA, Obj.TEN_DLOG_TAKE, Obj.TLM_READ, Obj.STAT_DUMP_DATA]) && (Instr.read 0 (.record path r)).wf | _ => false)))
  && (let q := FnReg.biDecoder; let port := 0; let vppb := 0; let u : State := at0 <| (hostUp);
    decide (u.phase = .running) && decide (u.isHost port = true) && decide (u.edgeUp port = true) &&
    decide (vppb < 64) && (Instr.read 0 (.config port vppb q)).wf)
  && (let r := writeRec Obj.MGP_IPV4_ADDR none 7; let path := (.kdp 0 0 : Path); let u : State := at0 <| (ready);
    decide (u.phase = .running) &&
    (let w := settleFor u (r.index * 256 + r.sub) (r.elem.getD 0); decide (mayServe w path .write r = true) && decide (checkRecord w path .write r = .ok) && decide ((path = .i3c → w.reg Obj.STG_STATUS ≠ 2)) && (match findObj (r.index * 256 + r.sub) with | some o => decide (o.onCommit = true) && decide (pathClass path ≠ .o) && decide (r.index * 256 + r.sub ∉ [Obj.STG_COMMIT, Obj.TRACT_MEM_DATA, Obj.MBX_IN_DATA, Obj.MBX_IN_SEND, Obj.RST_CHIP_RESET, Obj.LIFE_REQUEST]) && (Instr.write 0 (.record path r)).wf | _ => false)))
  && (let r := writeRec Obj.SLOT_COOLDOWN none 7; let path := (.kdp 0 0 : Path); let u : State := at0 <| (ready);
    decide (u.phase = .running) &&
    (let w := settleFor u (r.index * 256 + r.sub) (r.elem.getD 0); decide (mayServe w path .write r = true) && decide (checkRecord w path .write r = .ok) && decide ((path = .i3c → w.reg Obj.STG_STATUS ≠ 2)) && (match findObj (r.index * 256 + r.sub) with | some o => decide (o.onCommit = false) && decide (pathClass path ≠ .o) && decide (r.index * 256 + r.sub ∉ [Obj.STG_COMMIT, Obj.TRACT_MEM_DATA, Obj.MBX_IN_DATA, Obj.MBX_IN_SEND, Obj.RST_CHIP_RESET, Obj.LIFE_REQUEST]) && (Instr.write 0 (.record path r)).wf | _ => false)))
  && (let q := FnReg.biDecoder; let port := 0; let vppb := 0; let value := 0; let u : State := at0 <| (hostUp);
    decide (u.phase = .running) && decide (u.isHost port = true) && decide (u.edgeUp port = true) &&
    decide (vppb < 64) && (Instr.write 0 (.config port vppb q value)).wf)
  && (let r : Rec := readRec Obj.MGP_IPV4_ADDR none; let path : Path := (.kdp 0 0);
    let u : State := at0 <| (stageRecord ready (.kdp 0 0) Obj.MGP_IPV4_ADDR none 7); decide (u.phase = .running) &&
    decide (pathClass path ≠ .t) &&
    (match stagedValue u (r.index * 256 + r.sub) r.elem with | some _ => decide (mayServe u path .staged r = true) && decide (checkRecord u path .staged r = .ok) && (match lookupObj r.index r.sub with | .ok o => decide (o.count = 0) && decide (canRead (pathClass path) o = true) && (Instr.readStaged 0 path r).wf | _ => false) | _ => false))
  && (let r : Rec := readRec Obj.DEV_STATE none; let path : Path := (.kdp 0 0); let u : State := at0 <| (ready);
    decide (u.phase = .running) && decide (mayServe u path .describe r = true) &&
    decide (checkRecord u path .describe r = .ok) &&
    (match lookupObj r.index r.sub with | .ok _ => (Instr.describe 0 path r).wf | _ => false))
  && (let path : Path := (.kdp 0 0); let u : State := at0 <| (stageRecord ready (.kdp 0 0) Obj.MGP_IPV4_ADDR none 7);
    decide (u.phase = .running) && decide (mayServe u path .write (writeRec Obj.STG_COMMIT none 1) = true) &&
    decide (checkRecord u path .write (writeRec Obj.STG_COMMIT none 1) = .ok) && decide (u.mgmt.staged ≠ []) &&
    decide (commitFindings u = []) && (Instr.commit 0 path).wf)
  && (let path : Path := (.kdp 0 0); let u : State := at0 <| (stageRecord ready (.kdp 0 0) Obj.SLOT_PORT (some 0) 2);
    decide (u.phase = .running) && decide (mayServe u path .write (writeRec Obj.STG_COMMIT none 1) = true) &&
    decide (checkRecord u path .write (writeRec Obj.STG_COMMIT none 1) = .ok) && decide (u.mgmt.staged ≠ []) &&
    (match commitFindings u with | _ :: _ => (Instr.commit 0 path).wf | _ => false))
  && (let u : State := at0 <| ({ ready with mgmt := { ready.mgmt with commit := some (.kdp 0 0, none) } });
    decide (u.phase = .running) && (match u.mgmt.commit with | some (_, _) => (Instr.commitApplied 0).wf | _ => false))
  && (let path : Path := (.kdp 0 0); let u : State := at0 <| (ready); decide (u.phase = .running) &&
    decide (takesWrite u path Obj.STG_DISCARD none 1 = true) && (Instr.discard 0 path).wf)
  && (let u : State := at0 <| ({ ready with mgmt := { ready.mgmt with recWait := [⟨.i3c, writeRec Obj.MGP_IP_MODE none 0, none⟩] } });
    decide (u.phase = .running) && decide (u.reg Obj.STG_STATUS ≠ 2) && decide (u.serving = true) &&
    (match u.mgmt.recWait with | w :: _ => decide (w.svc = none) && decide (w.r.index * 256 + w.r.sub ≠ Obj.RST_CHIP_RESET) && (Instr.recoveryWriteResume 0).wf | _ => false))) = true := by
  decide +kernel
/-- The hypotheses of every clause of `FabricManagerComplete` are met together somewhere. -/
theorem witness_FabricManager : ((let port : Nat := 0; let u : State := at0 <| (fmReady); decide (u.phase = .running) &&
    decide (fmServes u port = true) && (Instr.identify 0 port).wf)
  && (let port : Nat := 0; let u : State := at0 <| (fmReady); decide (u.phase = .running) &&
    decide (fmServes u port = true) && (Instr.backgroundOperationStatus 0 port).wf)
  && (let port : Nat := 0; let u : State := at0 <| (fmReady); decide (u.phase = .running) &&
    decide (fmServes u port = true) && (Instr.getResponseMessageLimit 0 port).wf)
  && (let port : Nat := 0; let limit : Nat := 0; let u : State := at0 <| (fmReady); decide (u.phase = .running) &&
    decide (fmServes u port = true) && (Instr.setResponseMessageLimit 0 port limit).wf)
  && (let port : Nat := 0; let u : State := at0 <| (fmReady); decide (u.phase = .running) &&
    decide (fmServes u port = true) && (Instr.getEventRecords 0 port).wf)
  && (let port : Nat := 0; let u : State := at0 <| (fmReady); decide (u.phase = .running) &&
    decide (fmServes u port = true) && (Instr.clearEventRecords 0 port).wf)
  && (let port : Nat := 0; let u : State := at0 <| (fmReady); decide (u.phase = .running) &&
    decide (fmServes u port = true) && (Instr.getTimestamp 0 port).wf)
  && (let port : Nat := 0; let ns : Nat := 0; let u : State := at0 <| (fmReady); decide (u.phase = .running) &&
    decide (fmServes u port = true) && (Instr.setTimestamp 0 port ns).wf)
  && (let port : Nat := 0; let u : State := at0 <| (fmReady); decide (u.phase = .running) &&
    decide (fmServes u port = true) && (Instr.identifySwitchDevice 0 port).wf)
  && (let ports := [0, 1]; let port := 0; let u : State := at0 <| (fmReady); decide (u.phase = .running) &&
    decide (fmServes u port = true) && (Instr.getPhysicalPortState 0 ⟨port, ports⟩).wf)
  && (let target : Nat := 4; let op : PortControl := PortControl.resetPpb; let port : Nat := 0;
    let u : State := at0 <| (deviceUp); decide (u.phase = .running) && decide (fmServes u port = true) &&
    decide (u.isDownstream target = true) && (Instr.physicalPortControl 0 port target op).wf)
  && (let port : Nat := 0; let ppb : Nat := 0; let request : Nat := 0; let u : State := at0 <| (fmReady);
    decide (u.phase = .running) && decide (fmServes u port = true) && decide (u.isEdge ppb = true) &&
    (Instr.sendPpbCxlIoConfigurationRequest 0 port ppb request).wf)
  && (let port := 0; let host := 0; let u : State := at0 <| (fmReady); decide (u.phase = .running) &&
    decide (fmServes u port = true) && decide (u.isHost host = true) &&
    (Instr.getVirtualCxlSwitchInfo 0 ⟨port, host⟩).wf)
  && (let vppb : Nat := 1; let dsp : Nat := 4; let port : Nat := 0; let host : Nat := 0; let ldId : Nat := 0;
    let u : State := at0 <| (deviceUp.setReg Obj.EDGE_LD_USE 64 1); decide (u.phase = .running) &&
    decide (fmServes u port = true) && decide (mayBind u host vppb dsp ldId = true) &&
    (Instr.bindVppb 0 port host vppb dsp ldId).wf)
  && (let vppb : Nat := 1; let port : Nat := 0; let host : Nat := 0; let managed : Bool := false;
    let u : State := at0 <| (fmReady.putRegBit Obj.EDGE_VPPB 1 29 true); decide (u.phase = .running) &&
    decide (fmServes u port = true) && decide (1 ≤ vppb) && decide (vppb < 64) && decide (host < 64) &&
    decide (u.regBit Obj.EDGE_VPPB (64 * host + vppb) 29 = true) && (Instr.unbindVppb 0 port host vppb managed).wf)
  && (let port : Nat := 0; let host : Nat := 0; let vppb : Nat := 0; let event : Nat := 0;
    let u : State := at0 <| (fmReady); decide (u.phase = .running) && decide (fmServes u port = true) &&
    decide (u.isHost host = true) && decide (vppb < 64) && decide (event < 32) &&
    (Instr.generateAerEvent 0 port host vppb event).wf)
  && (let dsp : Nat := 4; let port : Nat := 0; let command : List Byte := []; let u : State := at0 <| (deviceUp);
    decide (u.phase = .running) && decide (fmServes u port = true) && decide (u.isDownstream dsp = true) &&
    decide (u.edgeUp dsp = true) && (Instr.tunnelManagementCommand 0 port dsp command).wf)
  && (let port : Nat := 0; let dsp : Nat := 0; let ldId : Nat := 0; let request : Nat := 0;
    let u : State := at0 <| (fmReady); decide (u.phase = .running) && decide (fmServes u port = true) &&
    (Instr.sendLdCxlIoConfigurationRequest 0 port dsp ldId request).wf)
  && (let port : Nat := 0; let dsp : Nat := 0; let ldId : Nat := 0; let request : Nat := 0;
    let u : State := at0 <| (fmReady); decide (u.phase = .running) && decide (fmServes u port = true) &&
    (Instr.sendLdCxlIoMemoryRequest 0 port dsp ldId request).wf)
  && (let opcode : Nat := 0xFFFF; let port : Nat := 0; let u : State := at0 <| (fmReady); decide (u.phase = .running) &&
    decide (u.firmware = true) && decide (u.isHost port = true) && decide (servedOpcodes.contains opcode = false) &&
    (Instr.unsupportedOpcode 0 port opcode).wf)) = true := by
  decide +kernel
/-- The hypotheses of every clause of `LanesAndReferencesComplete` are met together somewhere. -/
theorem witness_LanesAndReferences : ((let port : Nat := 56; let fill : Nat := 321;
    let u : State := at0 <| ((passAt 4).setPass 56 { (passAt 4).passPort 56 with rxSlack := true });
    decide (u.phase = .running) && decide (u.isPass port = true) && decide (u.portUp port = true) &&
    decide ((u.passPort port).rxSlack = true) && decide (320 < fill) && (Instr.slackPosition 0 port fill).wf)
  && (let port : Nat := 56; let fill : Nat := 191;
    let u : State := at0 <| ((passAt 4).setPass 56 { (passAt 4).passPort 56 with rxSlack := true });
    decide (u.phase = .running) && decide (u.isPass port = true) && decide (u.portUp port = true) &&
    decide ((u.passPort port).rxSlack = true) && decide (fill < 192) && (Instr.slackPosition 0 port fill).wf)
  && (let port : Nat := 56; let fill : Nat := 256;
    let u : State := at0 <| ((passAt 4).setPass 56 { (passAt 4).passPort 56 with rxSlack := true });
    decide (u.phase = .running) && decide (u.isPass port = true) && decide (u.portUp port = true) &&
    decide ((u.passPort port).rxSlack = true) && decide (192 ≤ fill) && decide (fill ≤ 320) &&
    (Instr.slackPosition 0 port fill).wf)
  && (let lane : Nat := 0; let u : State := at0 <| (ready); decide (u.phase = .running) &&
    (match u.servedPort lane with | some p => decide (assocGet u.lane.ebErrors p = none) && (Instr.ebError 0 lane).wf | _ => false))
  && (let tapMoves : List Int := List.replicate 12 0; let lane : Nat := 0; let ctleMove : Int := 0;
    let u : State := at0 <| (ready.arm ⟨.adaptTap, 0, 0⟩ 0); decide (u.phase = .running) &&
    decide (adaptDue u lane = true) && decide (u.lane.restore.contains lane = false) &&
    (Instr.adaptationStep 0 lane ctleMove tapMoves).wf)
  && (let i := 0; let lane : Nat := 0; let u : State := at0 <| (ready).arm ⟨.sat, lane, i⟩ 0; decide (u.phase = .running) &&
    decide (i < 13) && decide (u.due ⟨.sat, lane, i⟩ = true) && (Instr.sat 0 lane).wf)
  && (let path : Path := (.kdp 0 0); let lane : Nat := 0; let value : Nat := 0; let u : State := at0 <| (ready);
    decide (u.phase = .running) && decide (takesWrite u path Obj.LANE_ADAPT_CTRL (some lane) value = true) &&
    (Instr.restore 0 path lane value).wf)
  && (let middle := (⟨0, 0, 0, 0⟩ : Margin); let upper := (⟨0, 0, 0, 0⟩ : Margin); let lower := (⟨0, 0, 0, 0⟩ : Margin);
    let lane : Nat := 0; let u : State := at0 <| (ready.arm ⟨.margin, 0, 0⟩ 0); decide (u.phase = .running) &&
    decide (u.due ⟨.margin, lane, 0⟩ = true) && (Instr.marginMeasurement 0 lane ⟨middle, upper, lower⟩).wf)
  && (let path : Path := (.kdp 0 0); let lane : Nat := 0; let eye : Nat := 0; let u : State := at0 <| (ready);
    decide (u.phase = .running) && decide (takesWrite u path Obj.LANE_MARGIN_REQ (some lane) eye = true) &&
    (Instr.marginReq 0 path lane eye).wf)
  && (let m : Margin := (⟨0, 0, 0, 0⟩ : Margin); let lane : Nat := 0;
    let u : State := at0 <| ({ ready with lane := { ready.lane with marginReq := [(0, 0)] } });
    decide (u.phase = .running) &&
    (match assocGet u.lane.marginReq lane with | some _ => (Instr.marginReqDone 0 lane m).wf | _ => false))
  && (let path : Path := (.kdp 0 0); let lane : Nat := 0; let value : Nat := 0; let u : State := at0 <| (ready);
    decide (u.phase = .running) && decide (takesWrite u path Obj.LANE_PRBS_CTRL (some lane) value = true) &&
    (Instr.prbsStart 0 path lane value).wf)
  && (let path : Path := (.kdp 0 0); let lane : Nat := 0; let value : Nat := 0; let u : State := at0 <| (ready);
    decide (u.phase = .running) && decide (takesWrite u path Obj.LANE_PRBS_CTRL (some lane) value = true) &&
    (Instr.prbsClear 0 path lane value).wf)
  && (let window := prbs7Bits; let lane := 0; let u : State := at0 <| (ready.putRegBit Obj.LANE_PRBS_CTRL 0 1 true);
    decide (u.phase = .running) && decide (u.regBit Obj.LANE_PRBS_CTRL lane 1 = true) &&
    decide (u.regBit Obj.LANE_PRBS_CTRL lane 15 = false) &&
    decide (prbsLocks (u.regBits Obj.LANE_PRBS_CTRL lane 4 3) (u.regBit Obj.LANE_PRBS_CTRL lane 7) window = true) &&
    (Instr.prbsLock 0 ⟨lane, window⟩).wf)
  && (let errors : Nat := 513; let lane : Nat := 0; let u : State := at0 <| (ready.putRegBit Obj.LANE_PRBS_CTRL 0 15 true);
    decide (u.phase = .running) && decide (u.regBit Obj.LANE_PRBS_CTRL lane 15 = true) && decide (512 < errors) &&
    (Instr.prbsLockLoss 0 lane 1024 errors).wf)
  && (let path : Path := (.kdp 0 0); let port : Nat := 0; let value : Nat := 0; let u : State := at0 <| (testing);
    decide (u.phase = .running) && decide (takesWrite u path Obj.LANE_PORT_TEST (some port) value = true) &&
    (Instr.portTest 0 path port value).wf)
  && (let group : Nat := 0; let u : State := at0 <| (ready).arm ⟨.selfTestHour, group, 0⟩ 0; decide (u.phase = .running) &&
    decide (u.due ⟨.selfTestHour, group, 0⟩ = true) &&
    (let t := (u.disarm ⟨.selfTestHour, group, 0⟩).arm ⟨.selfTestHour, group, 0⟩ 3600000000000; decide (t.reserveState group = 0) && decide (assocGet t.lane.swaps group = none) && (Instr.reserveSelfTest 0 group).wf))
  && (let group : Nat := 0; let u : State := at0 <| (ready).arm ⟨.selfTest, group, 0⟩ 0; decide (u.phase = .running) &&
    decide (u.due ⟨.selfTest, group, 0⟩ = true) && (Instr.reserveSelfTestEnd 0 group 0).wf)
  && (let errors : Nat := 1; let group : Nat := 0; let u : State := at0 <| (ready.arm ⟨.selfTest, 0, 0⟩ 0);
    decide (u.phase = .running) && decide (u.due ⟨.selfTest, group, 0⟩ = true) && decide (0 < errors) &&
    (Instr.reserveSelfTestEnd 0 group errors).wf)
  && (let path : Path := (.kdp 0 0); let group : Nat := 0; let lane : Nat := 0; let u : State := at0 <| (ready);
    decide (u.phase = .running) && decide (takesWrite u path Obj.LANE_SWAP_CMD (some group) (lane % 16) = true) &&
    (Instr.swap 0 path group lane).wf)
  && (let path : Path := (.kdp 0 0); let group : Nat := 0;
    let u : State := at0 <| (testing.setRegBits Obj.LANE_GROUP_STATUS 0 12 2 2); decide (u.phase = .running) &&
    decide (takesWrite u path Obj.LANE_SWAP_CMD (some group) 256 = true) && (Instr.revert 0 path group).wf)
  && (let lane : Nat := 0; let u : State := at0 <| (ready); decide (u.phase = .running) && decide (lane < 256) &&
    decide (u.transceiver lane = lane) && (Instr.transceiverSelfCheckFail 0 lane).wf)
  && (let group : Nat := 0; let ctle : Nat := 0;
    let u : State := at0 <| ({ ready with lane := { ready.lane with swaps := [(0, ⟨0, false, .shadowing, 0, 0⟩)] } });
    decide (u.phase = .running) &&
    (match assocGet u.lane.swaps group with | some j => decide (j.step = .shadowing) && decide (j.revert = false) && (Instr.swapShadowTrained 0 group ctle).wf | _ => false))
  && (let group : Nat := 0;
    let u : State := at0 <| ({ ready with lane := { ready.lane with swaps := [(0, ⟨0, false, .ready, 0, 0⟩)] } });
    decide (u.phase = .running) &&
    (match assocGet u.lane.swaps group with | some j => decide (j.step = .ready) && (Instr.swapSwitch 0 group).wf | _ => false))
  && (let hz : Nat := 100000000; let ref : Nat := 0; let u : State := at0 <| (ready); decide (u.phase = .running) &&
    decide (ref < 18) && decide (inWindow u ref hz = true) && (Instr.referenceGate 0 ref hz).wf)
  && (let ref : Nat := 0; let hz : Nat := 0; let u : State := at0 <| (ready); decide (u.phase = .running) &&
    decide (ref < 18) && decide (inWindow u ref hz = false) && (Instr.referenceGate 0 ref hz).wf)
  && (let ref : Nat := 0; let u : State := at0 <| (ready); decide (u.phase = .running) && decide (ref < 18) &&
    (Instr.referenceStopped 0 ref).wf)) = true := by
  decide +kernel
/-- The hypotheses of every clause of `EdgeLinksComplete` are met together somewhere. -/
theorem witness_EdgeLinks : ((let port : Nat := 0; let hot : Bool := false; let u : State := at0 <| (ready); decide (u.phase = .running) &&
    decide (u.isHost port = true) && (Instr.hostPerst 0 port hot).wf)
  && (let port : Nat := 4; let u : State := at0 <| (deviceUp.arm ⟨.perst, 4, 0⟩ 0); decide (u.phase = .running) &&
    decide (u.due ⟨.perst, port, 0⟩ = true) && decide ((u.disarm ⟨.perst, port, 0⟩).isDownstream port = true) &&
    decide (powerGood (u.disarm ⟨.perst, port, 0⟩) port = true) && (Instr.perstDeassert 0 port).wf)
  && (let port : Nat := 0; let u : State := at0 <| (hostUp); decide (u.phase = .running) && decide (u.isHost port = true) &&
    decide (u.edgeUp port = true) && (Instr.functionLevelReset 0 port).wf)
  && (let offer : Offer := anOffer; let port : Nat := 0; let u : State := at0 <| (ready); decide (u.phase = .running) &&
    decide (mayTrainEdge u port = true) && decide (0 < offer.width) && decide (u.isFabric port = false) &&
    (Instr.edgeLinkUp 0 port offer).wf)
  && (let port : Nat := 8; let offer : Offer := { anOffer with version := 3, flit256 := true };
    let u : State := at0 <| ((ready.setReg Obj.EDGE_PORT_ROLE 8 2).setReg Obj.EDGE_PROTOCOLS 8 0x3F);
    decide (u.phase = .running) && decide (mayTrainEdge u port = true) && decide (0 < offer.width) &&
    decide (u.isFabric port = true) &&
    (let n := negotiate (u.reg Obj.EDGE_PROTOCOLS port) (u.isHost port) (u.isDownstream port) offer; decide (n.version = 3) && decide (2 ≤ n.flit) && (Instr.edgeLinkUp 0 port offer).wf))
  && (let port : Nat := 8; let offer : Offer := anOffer; let u : State := at0 <| (ready.setReg Obj.EDGE_PORT_ROLE 8 2);
    decide (u.phase = .running) && decide (mayTrainEdge u port = true) && decide (0 < offer.width) &&
    decide (u.isFabric port = true) &&
    (let n := negotiate (u.reg Obj.EDGE_PROTOCOLS port) (u.isHost port) (u.isDownstream port) offer; decide (n.version ≠ 3 ∨ n.flit < 2) && (Instr.edgeLinkUp 0 port offer).wf))
  && (let port : Nat := 0; let u : State := at0 <| (ready).arm ⟨.fabricIdle, port, 0⟩ 0; decide (u.phase = .running) &&
    decide (u.due ⟨.fabricIdle, port, 0⟩ = true) && (Instr.fabricRetrain 0 port).wf)
  && (let cause : LinkCause := LinkCause.perst; let port : Nat := 0; let u : State := at0 <| (hostUp);
    decide (u.phase = .running) && decide (u.isHost port = true) && decide (u.edgeUp port = true) &&
    decide (cause ≠ .surprise) && (Instr.hostLinkDown 0 port cause).wf)
  && (let port : Nat := 0; let u : State := at0 <| (hostUp); decide (u.phase = .running) && decide (u.isHost port = true) &&
    decide (u.edgeUp port = true) && (Instr.hostLinkDown 0 port .surprise).wf)
  && (let port : Nat := 0; let u : State := at0 <| ((hostUp.arm ⟨.grace, 0, 0⟩ 0).setReg Obj.EDGE_AGENT_STATE 0 2);
    decide (u.phase = .running) && decide (u.due ⟨.grace, port, 0⟩ = true) &&
    (match u.portAgent port with | some a => decide (u.agentState a = 2) && (Instr.graceExpiry 0 port).wf | _ => false))
  && (let port : Nat := 4; let u : State := at0 <| (deviceUp); decide (u.phase = .running) &&
    decide (u.isDownstream port = true) && decide (u.edgeUp port = true) && (Instr.downstreamLinkDown 0 port).wf)
  && (let port : Nat := 4; let ldId : Nat := 0; let serial : Nat := 0; let capacity : Nat := 0;
    let u : State := at0 <| ({ deviceUp with edge := { deviceUp.edge with lds := [(64, ⟨1, 2, true, false, false, true⟩)] } });
    decide (u.phase = .running) && decide (u.isDownstream port = true) && decide (u.edgeUp port = true) &&
    decide (ldId < 16) &&
    (match assocGet u.edge.lds (16 * port + ldId) with | some _ => (Instr.ldIdentityRead 0 port ldId serial capacity).wf | _ => false))
  && (let vppb : Nat := 1; let host : Nat := 0; let u : State := at0 <| (ready.setRegBits Obj.EDGE_VPPB 1 30 2 1);
    decide (u.phase = .running) && decide (host < 64) && decide (1 ≤ vppb) && decide (vppb < 64) &&
    decide (u.regBits Obj.EDGE_VPPB (64 * host + vppb) 30 2 = 1) && (Instr.bindComplete 0 host vppb).wf)
  && (let vppb : Nat := 1; let host : Nat := 0; let u : State := at0 <| (ready.setRegBits Obj.EDGE_VPPB 1 30 2 3);
    decide (u.phase = .running) && decide (host < 64) && decide (1 ≤ vppb) && decide (vppb < 64) &&
    decide (u.regBits Obj.EDGE_VPPB (64 * host + vppb) 30 2 = 3) && (Instr.bindComplete 0 host vppb).wf)
  && (let port : Nat := 0; let u : State := at0 <| (hostUp.setRegBits Obj.EDGE_IDE_STATUS 0 0 2 2);
    decide (u.phase = .running) && decide (u.isEdge port = true) && decide (u.edgeUp port = true) &&
    decide (u.regBits Obj.EDGE_IDE_STATUS port 0 2 = 2) && (Instr.ideIntegrityFail 0 port).wf)
  && (let port := 0; let u : State := at0 <| (hostUp.setRegBits Obj.EDGE_IDE_STATUS 0 0 2 1); decide (u.phase = .running) &&
    decide (u.isEdge port = true) && decide (u.edgeUp port = true) &&
    decide (u.regBits Obj.EDGE_IDE_STATUS port 0 2 = 1 ∨ u.regBits Obj.EDGE_IDE_STATUS port 0 2 = 3) &&
    (Instr.ideKeyExchangeDone 0 ⟨port, none⟩).wf)
  && (let port := 0; let k := 0; let u : State := at0 <| (hostUp); decide (u.phase = .running) &&
    decide (u.isEdge port = true) && decide (u.edgeUp port = true) && (Instr.ideKeyExchangeDone 0 ⟨port, some k⟩).wf)
  && (let path : Path := (.kdp 0 0); let port : Nat := 0; let value : Nat := 0; let u : State := at0 <| (ready);
    decide (u.phase = .running) && decide (takesWrite u path Obj.EDGE_IDE_CTRL (some port) value = true) &&
    (Instr.ideRefresh 0 path port value).wf)
  && (let port : Nat := 8; let dpid : Nat := 7; let spid : Nat := 0;
    let u : State := at0 <| (fabricUp.setReg Obj.EDGE_POOL_PBR_ID 0 7); decide (u.phase = .running) &&
    decide (u.isFabric port = true) && decide (u.carriesTraffic port = true) &&
    decide (u.reg Obj.EDGE_POOL_PBR_ID = dpid) && decide (dpid ≠ 0xFFFF) && (Instr.pbrFlit 0 port spid dpid).wf)
  && (let port : Nat := 8; let dpid : Nat := 3; let spid : Nat := 0;
    let u : State := at0 <| ((fabricUp.setReg Obj.EDGE_POOL_PBR_ID 0 7).setReg Obj.EDGE_PBR_ID 8 3);
    decide (u.phase = .running) && decide (u.isFabric port = true) && decide (u.carriesTraffic port = true) &&
    decide (u.reg Obj.EDGE_POOL_PBR_ID ≠ dpid) &&
    (match pbrFunction u dpid with | some _ => (Instr.pbrFlit 0 port spid dpid).wf | _ => false))
  && (let port : Nat := 8; let dpid : Nat := 3; let spid : Nat := 0;
    let u : State := at0 <| (fabricUp.setReg Obj.EDGE_POOL_PBR_ID 0 7); decide (u.phase = .running) &&
    decide (u.isFabric port = true) && decide (u.carriesTraffic port = true) &&
    decide (u.reg Obj.EDGE_POOL_PBR_ID ≠ dpid) && decide (pbrFunction u dpid = none) &&
    (Instr.pbrFlit 0 port spid dpid).wf)
  && (let lock := true; let port : Nat := 0; let decoder : Nat := 0; let base : Nat := 0; let size := 0;
    let u : State := at0 <| (hostUp); decide (u.phase = .running) && decide (u.isHost port = true) &&
    decide (u.edgeUp port = true) && decide (decoder < 8) && decide (decoderLocked u port decoder = false) &&
    (Instr.hdmDecoderCommit 0 port decoder base ⟨size, lock⟩).wf)
  && (let port : Nat := 8; let u : State := at0 <| (fabricUp); decide (u.phase = .running) &&
    decide (u.isFabric port = true) && decide (u.edgeUp port = true) && (Instr.fabricLinkDown 0 port).wf)
  && (let port : Nat := 4; let u : State := at0 <| (deviceUp); decide (u.phase = .running) &&
    decide (u.isDownstream port = true) && (Instr.attentionButton 0 port).wf)
  && (let protocol : Nat := doeProtocols.headD 0; let port : Nat := 0; let request : List Byte := [];
    let u : State := at0 <| (hostUp); decide (u.phase = .running) && decide (u.isHost port = true) &&
    decide (u.edgeUp port = true) && decide (doeProtocols.contains protocol = true) &&
    (Instr.doeRequest 0 port protocol request).wf)
  && (let u : State := at0 <| (ready); decide (u.phase = .running) && decide (u.firmware = true) &&
    decide (u.reg Obj.MGP_ETH_MODE ≠ 0) && (Instr.ethLinkDown 0).wf)) = true := by
  decide +kernel
/-- The hypotheses of every clause of `CoherencePortsComplete` are met together somewhere. -/
theorem witness_CoherencePorts : ((let src : HostSource := HostSource.port 0; let m : HostReq := (⟨.memRd, .any, .noOp, 0, 0⟩ : HostReq);
    let u : State := at0 <| (agentUp); decide (u.phase = .running) &&
    (match heard u src .m2sReq with | some _ => (Instr.hostM2sReq 0 src m).wf | _ => false))
  && (let src : HostSource := HostSource.port 0;
    let m : HostRwd := (⟨.memWr, .any, .noOp, 0, 0, List.replicate 64 1, 0, false⟩ : HostRwd);
    let u : State := at0 <| (agentUp); decide (u.phase = .running) &&
    (match heard u src .m2sRwd with | some _ => (Instr.hostM2sRwd 0 src m).wf | _ => false))
  && (let src : HostSource := HostSource.port 0; let m : HostBirsp := (⟨some 0, 0⟩ : HostBirsp);
    let u : State := at0 <| (agentUp); decide (u.phase = .running) &&
    (match heard u src .biRsp with | some _ => (Instr.hostBirsp 0 src m).wf | _ => false))
  && (let agent : Nat := 0; let key : Nat := 0;
    let u : State := at0 <| ({ agentUp with coh := { agentUp.coh with snoops := [⟨0, cohMsg 0x24, some (0, 0)⟩] } });
    decide (u.phase = .running) &&
    (match u.coh.snoops.find? (fun x => x.agent == agent && x.msg.key == key && x.rsp.isSome) with | some x => (match x.rsp with | some r => decide (u.coh.txns.any (keepsBack agent key r.2) = false) && (Instr.birspForward 0 agent key).wf | _ => false) | _ => false))
  && (let src : HostSource := HostSource.port 0; let addr : Nat := 0; let u : State := at0 <| (agentUp);
    decide (u.phase = .running) &&
    (match heard u src .m2sReq with | some a => (match u.resolve src a addr with | some _ => (Instr.biconflict 0 src addr).wf | _ => false) | _ => false))
  && (let agent : Nat := 0; let key : Nat := 0;
    let u : State := at0 <| ({ agentUp with coh := { agentUp.coh with conflicts := [(0, 0)] } });
    decide (u.phase = .running) && decide (u.coh.conflicts.contains (agent, key) = true) &&
    (Instr.biconflictAck 0 agent key).wf)) = true := by
  decide +kernel
/-- The hypotheses of every clause of `BasinComplete` are met together somewhere. -/
theorem witness_Basin : ((let m : FabricMsg := (⟨.management, .posted, [aTarget], 64, List.replicate 64 0, 16, false, false, 0, 0, none, false⟩ : FabricMsg);
    let ingress : Nat := 0; let u : State := at0 <| (agentUp); decide (u.phase = .running) &&
    decide (mayArrive u ingress m = true) && decide (pathOpen u ingress m = true) && decide (storable m = true) &&
    (Instr.messageIngress 0 ingress m).wf)
  && (let cls : BasinClass := BasinClass.req; let ingress : Nat := 0;
    let u : State := at0 <| ({ agentUp with now := 1, basin := { agentUp.basin with open_ := [(0, ⟨0, .req, [aMsg], 1, [aTarget], 0, none⟩)] } });
    decide (u.phase = .running) &&
    (match assocGet u.basin.open_ (openKey ingress cls) with | some c => decide (c.last < u.now) && (Instr.openCellClose 0 ingress cls).wf | _ => false))
  && (let cls : BasinClass := BasinClass.req; let ingress : Nat := 0;
    let u : State := at0 <| ({ agentUp with basin := { agentUp.basin with fifo := [⟨0, .req, [aMsg], 1, [aTarget], 0, none⟩] } });
    decide (u.phase = .running) &&
    (match takeFirst (fun (c : Offered) => c.ingress == ingress && c.cls == cls) u.basin.fifo with | some (c, _) => decide (u.basin.stopped = false) && decide (admits u c = true) && (Instr.cellAdmit 0 ingress cls).wf | _ => false))
  && (let cls : BasinClass := BasinClass.req; let ingress : Nat := 0; let busy : List Nat := [];
    let u : State := at0 <| ({ agentUp with basin := { agentUp.basin with stored := [⟨1, 0, .req, [aMsg], [aTarget], 1, [], 1, false, 1⟩] } });
    decide (u.phase = .running) &&
    (match u.basin.stored.find? (fun c => c.ingress == ingress && c.cls == cls && !c.targets.isEmpty && decide (c.ptrs.length < c.n)) with | some _ => (match bestBank u busy 64 with | some b => (match freeRow u b.1 with | some _ => (Instr.cellWrite 0 ingress cls busy).wf | _ => false) | _ => false) | _ => false))
  && (let egress : Nat := 4; let err : CellError := CellError.none;
    let u : State := at0 <| ({ storedAt 8 with basin := { (storedAt 8).basin with reading := [⟨4, 1, aMsg, 0, 1, true, false, false⟩] } });
    decide (u.phase = .running) && decide (u.basin.stopped = false) &&
    (match u.basin.reading.find? (fun r => r.egress == egress) with | some r => (match nextCell u r with | some ptr => decide ((readError u err).basin.stopped = false) && (Instr.cellRead 0 egress ptr err).wf | _ => false) | _ => false))
  && (let egress : Nat := 4;
    let u : State := at0 <| (let s := storedAt 8; { s with now := 10 ^ 12, basin := { s.basin with stallSince := [(4, 0)] } });
    decide (u.phase = .running) &&
    (match assocGet u.basin.stallSince egress with | some t => decide (t + u.reg Obj.BASIN_STALL_LIMIT * 1000 ≤ u.now) && decide (u.egressBusy egress = true) && (Instr.stall 0 egress).wf | _ => false))
  && (let path : Path := (.kdp 0 0); let value : Nat := 0; let u : State := at0 <| (ready); decide (u.phase = .running) &&
    decide (takesWrite u path Obj.BASIN_LOW_FREE none value = true) && (Instr.lowFreeWrite 0 path value).wf)
  && (let port : Nat := 56; let index : Nat := 0; let u : State := at0 <| (pooled 4 (linkMsg 0x20 64));
    decide (u.phase = .running) &&
    (match (u.passPort port).rxPool[index]? with | some m => decide (mayLeavePool u port m = true) && (match takePool u port m.bytes with | some _ => (Instr.passPoolToBasin 0 port index).wf | _ => false) | _ => false))) = true := by
  decide +kernel
/-- The hypotheses of every clause of `SchedulerComplete` are met together somewhere. -/
theorem witness_Scheduler : ((let egress : Nat := 4; let blocked : List LinkChannel := ([] : List LinkChannel);
    let u : State := at0 <| (storedAt 15); decide (u.phase = .running) && decide (selects u egress = true) &&
    (let t := refreshEligible u blocked egress; (match tc7Queue t blocked egress with | some _ => (Instr.egressSelect 0 egress blocked).wf | _ => false)))
  && (let egress : Nat := 4; let blocked : List LinkChannel := ([] : List LinkChannel);
    let u : State := at0 <| (storedAt 8); decide (u.phase = .running) && decide (selects u egress = true) &&
    (let t := refreshEligible u blocked egress; decide (tc7Queue t blocked egress = none) && (match fairQueue t egress with | some _ => decide (portHeld t egress = false) && (Instr.egressSelect 0 egress blocked).wf | _ => false)))
  && (let egress : Nat := 4; let blocked : List LinkChannel := ([] : List LinkChannel);
    let u : State := at0 <| ((storedAt 8).setReg Obj.SCHED_PORT_SHAPER 4 (2 ^ 63)); decide (u.phase = .running) &&
    decide (selects u egress = true) &&
    (let t := refreshEligible u blocked egress; decide (tc7Queue t blocked egress = none) && (match fairQueue t egress with | some _ => decide (portHeld t egress = true) && (Instr.egressSelect 0 egress blocked).wf | _ => false)))
  && (let queue : Nat := 8; let u : State := at0 <| (storedAt 8); decide (u.phase = .running) &&
    (match (u.basin.entries.find? (fun x => x.queue == queue)).map (fun x => x.egress) with | some e => decide (eligibleNow u [] e queue = true) && decide (u.sched.eligible.contains queue = false) && (Instr.queueEligible 0 queue).wf | _ => false))
  && (let path : Path := (.kdp 0 0); let elem : Nat := 0; let value : Nat := 0; let u : State := at0 <| (ready);
    decide (u.phase = .running) && decide (takesWrite u path Obj.SCHED_PORT_SHAPER (some elem) value = true) &&
    (Instr.shaperWrite 0 path true elem value).wf)
  && (let path : Path := (.kdp 0 0); let elem : Nat := 0; let value : Nat := 0; let u : State := at0 <| (testing);
    decide (u.phase = .running) && decide (takesWrite u path Obj.SCHED_QUEUE_SHAPER (some elem) value = true) &&
    (Instr.shaperWrite 0 path false elem value).wf)
  && (let group : Nat := 0; let u : State := at0 <| (ready); decide (u.phase = .running) &&
    decide (u.groupBusy group = false) && (Instr.groupRebindDone 0 group).wf)) = true := by
  decide +kernel
/-- The hypotheses of every clause of `PassComplete` are met together somewhere. -/
theorem witness_Pass : ((let port : Nat := 56;
    let u : State := at0 <| ((passAt 4).setPass 56 { (passAt 4).passPort 56 with staging := [⟨1, List.replicate 64 0, 1⟩] });
    decide (u.phase = .running) && decide (u.isPass port = true) &&
    decide (u.passState port = 3 ∨ u.passState port = 4) && decide ((u.passPort port).downTo = none) &&
    decide (u.txMode port ≠ 2) && decide (u.txOutstanding port ≠ 512) && decide ((u.passPort port).staging ≠ []) &&
    (Instr.flitTx 0 port).wf)
  && (let port : Nat := 56; let u : State := at0 <| ((passAt 4).setRegBits Obj.PASS_TX_STATE 56 62 2 2);
    decide (u.phase = .running) && decide (u.isPass port = true) &&
    decide (u.passState port = 3 ∨ u.passState port = 4) && decide ((u.passPort port).downTo = none) &&
    decide (u.txMode port = 2) && (Instr.flitTx 0 port).wf)
  && (let port : Nat := 56; let u : State := at0 <| (passAt 4); decide (u.phase = .running) &&
    decide (u.isPass port = true) && decide (u.passState port = 3 ∨ u.passState port = 4) &&
    decide ((u.passPort port).downTo = none) && decide (u.txMode port ≠ 2) &&
    decide (u.txOutstanding port = 512 ∨ (u.passPort port).staging = []) && (Instr.flitTx 0 port).wf)
  && (let port : Nat := 56; let u : State := at0 <| (passAt 2); decide (u.phase = .running) &&
    decide (u.isPass port = true) && decide (u.passState port = 2) && decide (u.armed ⟨.trainIdle, port, 0⟩ = false) &&
    (Instr.flitTx 0 port).wf)
  && (let port : Nat := 0; let u : State := at0 <| (ready).arm ⟨.ack, port, 0⟩ 0; decide (u.phase = .running) &&
    decide (u.due ⟨.ack, port, 0⟩ = true) && (Instr.ackTimer 0 port).wf)
  && (let port : Nat := 0; let u : State := at0 <| (ready).arm ⟨.replay, port, 0⟩ 0; decide (u.phase = .running) &&
    decide (u.due ⟨.replay, port, 0⟩ = true) && (Instr.replayTimer 0 port).wf)
  && (let port : Nat := 56; let u : State := at0 <| (passAt 1); decide (u.phase = .running) &&
    decide (u.passState port = 1) && decide (u.mayTrain port = true) && (Instr.receiverDetect 0 port).wf)
  && (let port : Nat := 56; let u : State := at0 <| ((passAt 1).arm ⟨.detect, 56, 0⟩ 0); decide (u.phase = .running) &&
    decide (u.due ⟨.detect, port, 0⟩ = true) && decide ((u.disarm ⟨.detect, port, 0⟩).passState port = 1) &&
    (Instr.detectTimeout 0 port).wf)
  && (let port : Nat := 56; let own : LaneReport := (⟨false, false, false, 0, 0⟩ : LaneReport); let lane : Nat := 0;
    let word : Nat := 0; let inverted : Bool := false; let u : State := at0 <| (passAt 5);
    decide (u.phase = .running) && decide (u.passState port = 5) &&
    (Instr.trainingFrame 0 port lane word inverted own).wf)
  && (let port : Nat := 56; let u : State := at0 <| ((passAt 2).arm ⟨.phase, 56, 0⟩ 0); decide (u.phase = .running) &&
    decide (u.due ⟨.phase, port, 0⟩ = true) && decide ((u.disarm ⟨.phase, port, 0⟩).passState port = 2) &&
    (Instr.trainingPhaseTimeout 0 port).wf)
  && (let port : Nat := 56; let u : State := at0 <| ((passAt 2).arm ⟨.trainIdle, 56, 0⟩ 0); decide (u.phase = .running) &&
    decide (u.due ⟨.trainIdle, port, 0⟩ = true) && decide ((u.disarm ⟨.trainIdle, port, 0⟩).passState port = 2) &&
    (Instr.trainingIdleEnd 0 port).wf)
  && (let port : Nat := 56; let u : State := at0 <| ((passAt 3).arm ⟨.config, 56, 0⟩ 0); decide (u.phase = .running) &&
    decide (u.due ⟨.config, port, 0⟩ = true) && decide ((u.disarm ⟨.config, port, 0⟩).passState port = 3) &&
    (Instr.configTimeout 0 port).wf)
  && (let port : Nat := 56; let u : State := at0 <| ((passAt 5).arm ⟨.recovery, 56, 0⟩ 0); decide (u.phase = .running) &&
    decide (u.due ⟨.recovery, port, 0⟩ = true) && decide ((u.disarm ⟨.recovery, port, 0⟩).passState port = 5) &&
    (Instr.recoveryTimeout 0 port).wf)
  && (let port : Nat := 56; let lane : Nat := 0; let u : State := at0 <| (passAt 4); decide (u.phase = .running) &&
    decide (u.isPass port = true) && decide (lane < u.portWidth port) && (Instr.laneLockLoss 0 port lane).wf)
  && (let port : Nat := 56;
    let u : State := at0 <| (((passAt 4).setPass 56 { (passAt 4).passPort 56 with downTo := some 1 }).arm ⟨.goingDown, 56, 0⟩ 0);
    decide (u.phase = .running) && decide (u.due ⟨.goingDown, port, 0⟩ = true) &&
    (match ((u.disarm ⟨.goingDown, port, 0⟩).passPort port).downTo with | some _ => (Instr.goingDown 0 port).wf | _ => false))
  && (let port : Nat := 56; let u : State := at0 <| (passAt 4); decide (u.phase = .running) &&
    decide (u.isPass port = true) && decide (u.passState port ≠ 0) && decide (u.passState port ≠ 6) &&
    (Instr.replayBufferUe 0 port).wf)) = true := by
  decide +kernel
/-- The hypotheses of every clause of `PassMessagesComplete` are met together somewhere. -/
theorem witness_PassMessages : ((let port : Nat := 56; let msg : List Byte := linkMsg 0x20 64; let u : State := at0 <| (pooled 4 (linkMsg 0x20 64));
    decide (u.phase = .running) &&
    (match (u.passPort port).rxPool.find? (fun m => m.bytes == msg) with | some m => decide (mayLeavePool u port m = true) && (match takePool u port m.bytes with | some _ => (Instr.passMessage 0 port msg).wf | _ => false) | _ => false))
  && (let port : Nat := 56; let msg : List Byte := linkMsg 0x60 48; let u : State := at0 <| (pooled 3 (linkMsg 0x60 48));
    decide (u.phase = .running) &&
    (match takeLink u port 0x60 msg with | some _ => decide (u.passState port = 3) && decide (msg.length = 48) && (Instr.hello 0 port msg).wf | _ => false))
  && (let port : Nat := 56; let msg : List Byte := linkMsg 0x61 64; let u : State := at0 <| (pooled 3 (linkMsg 0x61 64));
    decide (u.phase = .running) &&
    (match takeLink u port 0x61 msg with | some _ => (Instr.route 0 port msg).wf | _ => false))
  && (let u : State := at0 <| (ready); decide (u.phase = .running) && decide (u.armed ⟨.route, 0, 0⟩ = false) &&
    (Instr.routeSend 0).wf)
  && (let switch : Nat := 0; let u : State := at0 <| (ready).arm ⟨.unreachable, switch, 0⟩ 0; decide (u.phase = .running) &&
    decide (u.due ⟨.unreachable, switch, 0⟩ = true) &&
    decide ((u.disarm ⟨.unreachable, switch, 0⟩).routeValid switch = false) && (Instr.routeEntryClear 0 switch).wf)
  && (let path : Path := (.kdp 0 0); let u : State := at0 <| (testing); decide (u.phase = .running) &&
    decide (takesWrite u path Obj.PASS_ROUTE_RECOMPUTE none 1 = true) && (Instr.routeRecompute 0 path).wf)
  && (let port : Nat := 56; let u : State := at0 <| ((passAt 4).arm ⟨.probe, 56, 0⟩ 0); decide (u.phase = .running) &&
    decide (u.passState port = 3 ∨ u.passState port = 4) && decide (u.due ⟨.probe, port, 0⟩ = true) &&
    (Instr.probeSend 0 port).wf)
  && (let port : Nat := 56; let msg : List Byte := linkMsg 0x62 32; let u : State := at0 <| (pooled 4 (linkMsg 0x62 32));
    decide (u.phase = .running) &&
    (match takeLink u port 0x62 msg with | some _ => decide (msg.length = 32) && (Instr.probe 0 port msg).wf | _ => false))
  && (let port : Nat := 56; let msg : List Byte := linkMsg 0x63 32;
    let u : State := at0 <| ((pooled 4 (linkMsg 0x63 32)).setPass 56 { (pooled 4 (linkMsg 0x63 32)).passPort 56 with probes := [⟨0, 0⟩] });
    decide (u.phase = .running) &&
    (match takeLink u port 0x63 msg with | some t => decide (msg.length = 32) && (match (t.passPort port).probes.find? (fun x => x.tag == leField msg 12 4 && decide (t.now ≤ x.at_ + 1000000000)) with | some _ => (Instr.probeReply 0 port msg).wf | _ => false) | _ => false))) = true := by
  decide +kernel
/-- The hypotheses of every clause of `SteppeComplete` are met together somewhere. -/
theorem witness_Steppe : ((let errors : DramErrors := (⟨[], none, none⟩ : DramErrors); let addr : Nat := 0; let expected : Nat := 0;
    let u : State := at0 <| (ready); decide (u.phase = .running) && decide (addr < steppeEnd) &&
    decide (u.steppeReady = true) && (Instr.steppeRead 0 addr expected errors).wf)
  && (let line : StoredLine := (⟨List.replicate 64 1, false, false, 0⟩ : StoredLine); let addr : Nat := 0;
    let u : State := at0 <| (ready); decide (u.phase = .running) && decide (addr < steppeEnd) &&
    decide (u.steppeReady = true) && decide (u.writeRoom (addr / 64) = true) && (Instr.steppeWrite 0 addr line).wf)
  && (let badSpares : List SpareRow := ([] : List SpareRow); let failedStacks : List Nat := [];
    let u : State := at0 <| ((ready.setReg Obj.DEV_STATE 0 0).setReg Obj.STP_STATE 0 0); decide (u.phase = .running) &&
    decide (u.devState = 0) && decide (u.firmware = true) && decide (u.reg Obj.STP_STATE = 0) &&
    decide (failedStacks.filter (· < 4) = []) && (Instr.steppeInit 0 badSpares failedStacks).wf)
  && (let u : State := at0 <| (ready).setReg Obj.STP_STATE 0 1; decide (u.phase = .running) &&
    decide (u.reg Obj.STP_STATE = 1) && (Instr.steppeReady 0).wf)
  && (let errors : DramErrors := (⟨[], none, none⟩ : DramErrors); let line : Nat := 0;
    let u : State := at0 <| ({ ready with stp := { ready.stp with scrubbing := true } });
    decide (u.phase = .running) && decide (64 * line < steppeEnd) && decide (u.steppeReady = true) &&
    decide (u.stp.scrubbing = true) && decide (u.scrubDone (lineChannel line) = lineIndex line) &&
    decide (sparingHolds u line = false) && (Instr.scrubLine 0 line errors).wf)
  && (let badSpares : List SpareRow := ([] : List SpareRow); let u : State := at0 <| (ready); decide (u.phase = .running) &&
    decide (u.steppeReady = true) && decide (u.stp.scrubbing = false) && (Instr.scrubPassStart 0 badSpares).wf)
  && (let u : State := at0 <| ({ ready with stp := { ready.stp with scrubbing := true, done := (List.range 128).map (fun c => (c, channelLines)) } });
    decide (u.phase = .running) && decide (u.steppeReady = true) && decide (u.stp.scrubbing = true) &&
    decide ((List.range 128).all u.scrubbed = true) && (Instr.scrubPassEnd 0).wf)
  && (let channel : Nat := 0;
    let u : State := at0 <| ({ ready with now := 1, stp := { ready.stp with scrubbing := true, period := 0 } });
    decide (u.phase = .running) && decide (u.steppeReady = true) && decide (u.stp.scrubbing = true) &&
    decide (channel < 128) && decide (u.scrubbed channel = false) && decide (u.scrubOverrun = true) &&
    (Instr.scrubLate 0 channel).wf)
  && (let channel : Nat := 0; let u : State := at0 <| ({ ready with stp := { ready.stp with queue := [(0, [(0, 0)])] } });
    decide (u.phase = .running) && decide (u.steppeReady = true) && decide (assocGet u.stp.sparing channel = none) &&
    (match assocGet u.stp.queue channel with | some ((bank, row) :: rest) => (let t := { u with stp := { u.stp with queue := assocPut u.stp.queue channel rest } }; decide ((servedRow t channel bank row).isSome = true) && (Instr.spareRowStart 0 channel).wf) | _ => false))
  && (let errors : List (Nat × DramErrors) := ([] : List (Nat × DramErrors)); let channel : Nat := 0;
    let u : State := at0 <| ({ ready with stp := { ready.stp with sparing := [(0, ⟨0, 0, 61440, 0⟩)] } });
    decide (u.phase = .running) && decide (u.steppeReady = true) &&
    (match assocGet u.stp.sparing channel with | some _ => (Instr.spareRowDone 0 channel true errors).wf | _ => false))
  && (let errors : List (Nat × DramErrors) := ([] : List (Nat × DramErrors)); let channel : Nat := 0;
    let u : State := at0 <| ({ ready with stp := { ready.stp with sparing := [(0, ⟨0, 0, 61440, 0⟩)] } });
    decide (u.phase = .running) && decide (u.steppeReady = true) &&
    (match assocGet u.stp.sparing channel with | some _ => (Instr.spareRowDone 0 channel false errors).wf | _ => false))
  && (let path : Path := (.kdp 0 0); let value : Nat := 0; let u : State := at0 <| (testing); decide (u.phase = .running) &&
    decide (takesWrite u path Obj.STP_SPARE_CMD none value = true) && (Instr.steppeSpareCmd 0 path value).wf)
  && (let u : State := at0 <| ({ ready with stp := { ready.stp with unsaved := [⟨0, 0, 0, 61440⟩] } });
    decide (u.phase = .running) && decide (u.firmware = true) && decide (u.flt.traps = []) &&
    decide (u.stp.unsaved ≠ []) && (Instr.remapSave 0).wf)
  && (let path : Path := (.kdp 0 0); let u : State := at0 <| (testing); decide (u.phase = .running) &&
    decide (takesWrite u path Obj.STP_SANITIZE none 1 = true) && (Instr.sanitize 0 path).wf)
  && (let stack : Nat := 0; let celsius : Int := 0; let u : State := at0 <| (ready); decide (u.phase = .running) &&
    decide (stack < 4) && (Instr.stackTemp 0 stack celsius).wf)
  && (let counts : List Nat := List.replicate 512 0; let stack : Nat := 0; let u : State := at0 <| (ready);
    decide (u.phase = .running) && decide (stack < 4) && (Instr.innerCorrectionReport 0 stack counts).wf)
  && (let path : Path := (.kdp 0 0); let value : Nat := 0; let u : State := at0 <| (ready); decide (u.phase = .running) &&
    decide (takesWrite u path Obj.STP_XLATE_ADDR none value = true) && (Instr.xlate 0 path value).wf)) = true := by
  decide +kernel
/-- The hypotheses of every clause of `GuardAndMemoryComplete` are met together somewhere. -/
theorem witness_GuardAndMemory : ((let window : WindowId := WindowId.ten 5;
    let u : State := at0 <| (ready.arm ⟨.noticeWindow, windowCode (.ten 5), 0⟩ 0); decide (u.phase = .running) &&
    decide (u.due ⟨.noticeWindow, windowCode window, 0⟩ = true) && (Instr.noticeWindowClose 0 window).wf)
  && (let path : Path := (.kdp 0 0); let value : Nat := 0; let u : State := at0 <| (ready); decide (u.phase = .running) &&
    decide (takesWrite u path Obj.TRACT_MEM_ADDR none value = true) && (Instr.memAddrWrite 0 path value).wf)
  && (let path : Path := (.kdp 0 0); let u : State := at0 <| (ready); decide (u.phase = .running) &&
    decide (mayServe u path .read (readRec Obj.TRACT_MEM_DATA none) = true) &&
    decide (checkRecord u path .read (readRec Obj.TRACT_MEM_DATA none) = .ok) &&
    decide (privGuard u (memKey u) false = none) &&
    (let o := deviceOpen u (deviceMsg u 3 (memKey u) memId 0 [] false); decide (o.2.isSome = true) && (Instr.memDataRead 0 path).wf))
  && (let path : Path := (.kdp 0 0); let value : Nat := 0; let u : State := at0 <| (ready); decide (u.phase = .running) &&
    decide (mayServe u path .write (writeRec Obj.TRACT_MEM_DATA none value) = true) &&
    decide (checkRecord u path .write (writeRec Obj.TRACT_MEM_DATA none value) = .ok) &&
    decide (privGuard u (memKey u) true = none) &&
    (let m := deviceMsg u 5 (memKey u) memId 0 (padTo (writeRec Obj.TRACT_MEM_DATA none value).data 64) false; decide (u.guard.memWait ≠ some (m.key, m.data)) && (let o := deviceOpen u m; (match o.2 with | some _ => decide (o.1.mirroredLine m.key = false) && (Instr.memDataWrite 0 path value).wf | _ => false))))
  && (let path : Path := (.kdp 0 0); let value : Nat := 0;
    let u : State := at0 <| ({ ready with guard := { ready.guard with memWait := some (memKey ready, List.replicate 64 0) } });
    decide (u.phase = .running) && decide (mayServe u path .write (writeRec Obj.TRACT_MEM_DATA none value) = true) &&
    decide (checkRecord u path .write (writeRec Obj.TRACT_MEM_DATA none value) = .ok) &&
    decide (privGuard u (memKey u) true = none) &&
    (let m := deviceMsg u 5 (memKey u) memId 0 (padTo (writeRec Obj.TRACT_MEM_DATA none value).data 64) false; decide (u.guard.memWait = some (m.key, m.data)) && decide (u.mirrorPending m.key = false ∨ u.mirroring = false) && (Instr.memDataWrite 0 path value).wf))
  && (let u : State := at0 <| ({ ready with guard := { ready.guard with releases := [⟨1, 0, 4, none, true⟩] } });
    decide (u.phase = .running) && decide (u.guard.releases ≠ []) && decide (u.itemsLeft 1 = false) &&
    decide (u.coh.ctxs.any (fun c => c.work == .release && (u.releasingAlloc (keyTract c.key)).isSome) = false) &&
    (Instr.releaseSweepDone 0).wf)) = true := by
  decide +kernel
/-- The hypotheses of every clause of `CoherenceRequestsComplete` are met together somewhere. -/
theorem witness_CoherenceRequests : ((let m : CohMsg := cohMsg 1; let col : Nat := 0; let u : State := at0 <| (flying (.engine 0) (cohMsg 1));
    decide (u.phase = .running) && decide (m.kind = 1) && decide (takesRequest u col m = true) &&
    (match arrive u (.engine col) m with | some _ => (Instr.rdShared 0 col m).wf | _ => false))
  && (let m : CohMsg := cohMsg 2; let col : Nat := 0; let u : State := at0 <| (flying (.engine 0) (cohMsg 2));
    decide (u.phase = .running) && decide (m.kind = 2) && decide (takesRequest u col m = true) &&
    (match arrive u (.engine col) m with | some _ => (Instr.rdOwn 0 col m).wf | _ => false))
  && (let m : CohMsg := cohMsg 3; let col : Nat := 0; let u : State := at0 <| (flying (.engine 0) (cohMsg 3));
    decide (u.phase = .running) && decide (m.kind = 3) && decide (takesRequest u col m = true) &&
    (match arrive u (.engine col) m with | some _ => (Instr.rdCur 0 col m).wf | _ => false))
  && (let m : CohMsg := cohMsg 4; let col : Nat := 0; let u : State := at0 <| (flying (.engine 0) (cohMsg 4));
    decide (u.phase = .running) && decide (m.kind = 4) && decide (takesRequest u col m = true) &&
    (match arrive u (.engine col) m with | some _ => (Instr.upgrade 0 col m).wf | _ => false))
  && (let m : CohMsg := cohMsg 5; let col : Nat := 0; let u : State := at0 <| (flying (.engine 0) (cohMsg 5));
    decide (u.phase = .running) && decide (m.kind = 5) && decide (takesRequest u col m = true) &&
    (match arrive u (.engine col) m with | some _ => (Instr.wrFull 0 col m).wf | _ => false))
  && (let m : CohMsg := cohMsg 6; let col : Nat := 0; let u : State := at0 <| (flying (.engine 0) (cohMsg 6));
    decide (u.phase = .running) && decide (m.kind = 6) && decide (takesRequest u col m = true) &&
    (match arrive u (.engine col) m with | some _ => (Instr.wrPtl 0 col m).wf | _ => false))
  && (let m : CohMsg := cohMsg 7; let col : Nat := 0; let u : State := at0 <| (flying (.engine 0) (cohMsg 7));
    decide (u.phase = .running) && decide (m.kind = 7) && decide (takesRequest u col m = true) &&
    (match arrive u (.engine col) m with | some _ => (Instr.writeback 0 col m).wf | _ => false))
  && (let m : CohMsg := cohMsg 8; let col : Nat := 0; let u : State := at0 <| (flying (.engine 0) (cohMsg 8));
    decide (u.phase = .running) && decide (m.kind = 8) && decide (takesRequest u col m = true) &&
    (match arrive u (.engine col) m with | some _ => (Instr.writebackPtl 0 col m).wf | _ => false))
  && (let m : CohMsg := cohMsg 9; let col : Nat := 0; let u : State := at0 <| (flying (.engine 0) (cohMsg 9));
    decide (u.phase = .running) && decide (m.kind = 9) && decide (takesRequest u col m = true) &&
    (match arrive u (.engine col) m with | some _ => (Instr.evictClean 0 col m).wf | _ => false))
  && (let m : CohMsg := cohMsg 0x10; let n := 0; let u : State := at0 <| (flying (.engine 0) (cohMsg 0x10));
    decide (u.phase = .running) && decide (m.kind = 0x10) && decide (u.coh.flight.contains ⟨.engine n, m⟩ = true) &&
    decide (u.engineRuns n = true) && decide (u.engineOf (sliceOf m.key) = n) && (Instr.snpInv 0 (.proxy n) m).wf)
  && (let m : CohMsg := cohMsg 0x10; let a := 0; let u : State := at0 <| (flying (.agent 0) (cohMsg 0x10));
    decide (u.phase = .running) && decide (m.kind = 0x10) && decide (u.agentState a = 1) &&
    decide (u.carriesTraffic (u.agentPort a) = true) && decide (u.snoopsAt (u.agentPort a) < 128) &&
    (match arrive u (.agent a) m with | some _ => (Instr.snpInv 0 (.agent a) m).wf | _ => false))
  && (let m : CohMsg := cohMsg 0x11; let n := 0; let u : State := at0 <| (flying (.engine 0) (cohMsg 0x11));
    decide (u.phase = .running) && decide (m.kind = 0x11) && decide (u.coh.flight.contains ⟨.engine n, m⟩ = true) &&
    decide (u.engineRuns n = true) && decide (u.engineOf (sliceOf m.key) = n) && (Instr.snpData 0 (.proxy n) m).wf)
  && (let m : CohMsg := cohMsg 0x11; let a := 0; let u : State := at0 <| (flying (.agent 0) (cohMsg 0x11));
    decide (u.phase = .running) && decide (m.kind = 0x11) && decide (u.agentState a = 1) &&
    decide (u.carriesTraffic (u.agentPort a) = true) && decide (u.snoopsAt (u.agentPort a) < 128) &&
    (match arrive u (.agent a) m with | some _ => (Instr.snpData 0 (.agent a) m).wf | _ => false))
  && (let m : CohMsg := cohMsg 0x12; let n := 0; let u : State := at0 <| (flying (.engine 0) (cohMsg 0x12));
    decide (u.phase = .running) && decide (m.kind = 0x12) && decide (u.coh.flight.contains ⟨.engine n, m⟩ = true) &&
    decide (u.engineRuns n = true) && decide (u.engineOf (sliceOf m.key) = n) && (Instr.snpCur 0 (.proxy n) m).wf)
  && (let m : CohMsg := cohMsg 0x12; let a := 0; let u : State := at0 <| (flying (.agent 0) (cohMsg 0x12));
    decide (u.phase = .running) && decide (m.kind = 0x12) && decide (u.agentState a = 1) &&
    decide (u.carriesTraffic (u.agentPort a) = true) && decide (u.snoopsAt (u.agentPort a) < 128) &&
    (match arrive u (.agent a) m with | some _ => (Instr.snpCur 0 (.agent a) m).wf | _ => false))
  && (let m : CohMsg := cohMsg 0x20; let u : State := at0 <| (flying .reply (cohMsg 0x20)); decide (u.phase = .running) &&
    decide (m.kind = 0x20) && decide (u.cohRuns = true) && decide (u.answerAt m = none) &&
    (match arrive u .reply m with | some _ => (Instr.data 0 m).wf | _ => false))
  && (let m : CohMsg := cohMsg 0x20; let u : State := at0 <| (flying (.engine 0) (cohMsg 0x20));
    decide (u.phase = .running) && decide (m.kind = 0x20) && decide (u.cohRuns = true) &&
    (match u.answerAt m with | some _ => (Instr.data 0 m).wf | _ => false))
  && (let m : CohMsg := cohMsg 0x21; let u : State := at0 <| (flying .reply (cohMsg 0x21)); decide (u.phase = .running) &&
    decide (m.kind = 0x21) && decide (u.cohRuns = true) && decide (u.answerAt m = none) &&
    (match arrive u .reply m with | some _ => (Instr.cmp 0 m).wf | _ => false))
  && (let m : CohMsg := cohMsg 0x21; let u : State := at0 <| (flying (.engine 0) (cohMsg 0x21));
    decide (u.phase = .running) && decide (m.kind = 0x21) && decide (u.cohRuns = true) &&
    (match u.answerAt m with | some _ => (Instr.cmp 0 m).wf | _ => false))
  && (let m : CohMsg := cohMsg 0x22; let u : State := at0 <| (openTxn .sent); decide (u.phase = .running) &&
    decide (m.kind = 0x22) && decide (u.answerAt m = none) && decide (arrive u .home m = none) &&
    (match arrive u .reply m with | some t => decide (oldAnswer t m = false) && (match t.txn m.tag with | some x => decide (x.agent = m.agent) && decide (x.status = .sent) && (Instr.nack 0 m).wf | _ => false) | _ => false))
  && (let m : CohMsg := cohMsg 0x22; let u : State := at0 <| (flying .home (cohMsg 0x22)); decide (u.phase = .running) &&
    decide (m.kind = 0x22) && decide (u.answerAt m = none) &&
    (match arrive u .home m with | some _ => (Instr.nack 0 m).wf | _ => false))
  && (let m : CohMsg := cohMsg 0x22; let u : State := at0 <| (flying (.engine 0) (cohMsg 0x22));
    decide (u.phase = .running) && decide (m.kind = 0x22) &&
    (match u.answerAt m with | some _ => (Instr.nack 0 m).wf | _ => false))
  && (let m : CohMsg := cohMsg 0x23; let col : Nat := 0; let u : State := at0 <| (flying (.engine 0) (cohMsg 0x23));
    decide (u.phase = .running) && decide (m.kind = 0x23) && decide (u.engineRuns col = true) &&
    (match arrive u (.engine col) m with | some t => decide (t.engineOf (sliceOf m.key) = col) && (Instr.snpRsp 0 col m).wf | _ => false))
  && (let slot : Nat := 0; let u : State := at0 <| (openTxn (.retry 0)); decide (u.phase = .running) &&
    (match u.txn slot with | some t => (match t.status with | .retry d => decide (d ≤ u.now) && (Instr.retry 0 slot).wf | _ => false) | _ => false))
  && (let slot : Nat := 0; let u : State := at0 <| (openTxn (.moved 0)); decide (u.phase = .running) &&
    (match u.txn slot with | some t => (match t.status with | .moved e => decide (u.agentHas e = true) && (Instr.movedRetry 0 slot).wf | _ => false) | _ => false))) = true := by
  decide +kernel
/-- The hypotheses of every clause of `CoherenceProgressComplete` are met together somewhere. -/
theorem witness_CoherenceProgress : ((let col : Nat := 0; let key : Nat := 0;
    let u : State := at0 <| ({ flying (.engine 0) (cohMsg 1) with coh := { (flying (.engine 0) (cohMsg 1)).coh with aged := [⟨0, 0, (flying (.engine 0) (cohMsg 1)).requesterOf (cohMsg 1), 0, 0⟩] } });
    decide (u.phase = .running) &&
    (match (u.agedOf col key).head? with | some a => decide (u.ctxOn false key = false) && decide (u.holdOn col key = none) && (match agedFlight u a with | some _ => (Instr.agedServe 0 col key).wf | _ => false) | _ => false))
  && (let holder : Requester := Requester.agent 0; let col : Nat := 0; let key : Nat := 0;
    let u : State := at0 <| (snooping); decide (u.phase = .running) &&
    (match (u.coh.ctxs.find? (fun c => c.engine == col && c.key == key && c.snoops.any (fun x => x.holder == holder))) with | some c => (match c.snoops.find? (fun x => x.holder == holder) with | some x => decide (x.due + snoopLimit u holder ≤ u.now) && (Instr.snoopTimeout 0 col key holder).wf | _ => false) | _ => false))
  && (let agent : Nat := 0; let u : State := at0 <| (snooping); decide (u.phase = .running) &&
    decide (u.sweepRegime = true) && decide (u.agentState agent = 1) && decide (silentTooLong u agent = true) &&
    (Instr.suspectLimit 0 agent).wf)
  && (let path : Path := (.kdp 0 0); let value : Nat := 0; let u : State := at0 <| (ready); decide (u.phase = .running) &&
    decide (takesWrite u path Obj.COH_DECLARE_DEAD none value = true) && (Instr.declareDead 0 path value).wf)
  && (let requester : Requester := Requester.agent 0; let col : Nat := 0; let key : Nat := 0; let tag : Nat := 0;
    let u : State := at0 <| ({ agentUp with now := 20000, coh := { agentUp.coh with aged := [⟨0, 0, .agent 0, 0, 0⟩] } });
    decide (u.phase = .running) &&
    decide (u.coh.aged.any (fun a => a.engine == col && a.key == key && a.who == requester && a.tag == tag && decide (a.last + 20000 ≤ u.now)) = true) &&
    (Instr.agedEntryDrop 0 col key requester tag).wf)
  && (let u : State := at0 <| ({ ready with coh := { ready.coh with awaiting := [0] } }); decide (u.phase = .running) &&
    decide (u.coh.sweeping = []) && decide (u.coh.awaiting ≠ []) && (Instr.sweepPassStart 0).wf)
  && (let u : State := at0 <| ({ ready with coh := { ready.coh with sweeping := [0] } }); decide (u.phase = .running) &&
    decide (u.coh.sweeping ≠ []) && decide (u.itemsLeft 0 = false) && (Instr.sweepPassEnd 0).wf)
  && (let slot : Nat := 0; let u : State := at0 <| ({ openTxn .sent with now := 10000000000 });
    decide (u.phase = .running) &&
    (match u.txn slot with | some t => decide (t.ended = false) && decide (t.started + u.txnTimeout ≤ u.now) && (Instr.transactionTimeout 0 slot).wf | _ => false))
  && (let slot : Nat := 0; let u : State := at0 <| (openTxn (.ended 0)); decide (u.phase = .running) &&
    (match u.txn slot with | some t => (match t.status with | .ended d => decide (d ≤ u.now) && (Instr.tagHoldExpiry 0 slot).wf | _ => false) | _ => false))) = true := by
  decide +kernel
/-- The hypotheses of every clause of `ColComplete` are met together somewhere. -/
theorem witness_Col : ((let loads : List EngineLoad := ([] : List EngineLoad); let u : State := at0 <| (ready); decide (u.phase = .running) &&
    decide (u.cohRuns = true) && decide (u.armed ⟨.loadWindow, 0, 0⟩ = false ∨ u.due ⟨.loadWindow, 0, 0⟩ = true) &&
    (Instr.loadWindowEnd 0 loads).wf)
  && (let slice : Nat := 0; let u : State := at0 <| (moving false); decide (u.phase = .running) &&
    (match u.moveOf slice with | some m => decide (u.cohRuns = true) && decide (m.ready = false) && decide (u.sliceQuiet slice m.donor = true) && (Instr.sliceQuiescent 0 slice).wf | _ => false))
  && (let u : State := at0 <| (moving true); decide (u.phase = .running) && decide (u.cohRuns = true) &&
    decide (switchingNow u ≠ []) && decide (u.col.agentEpoch = u.reg Obj.COL_EPOCH) &&
    decide (u.armed ⟨.epoch, 0, 0⟩ = false) && (Instr.epochChange 0).wf)
  && (let slice : Nat := 0; let u : State := at0 <| (ready).arm ⟨.leaseDrain, slice, 0⟩ 0; decide (u.phase = .running) &&
    decide (u.due ⟨.leaseDrain, slice, 0⟩ = true) && (Instr.leaseDrainExpiry 0 slice).wf)
  && (let slice : Nat := 0;
    let u : State := at0 <| (let s := { ready with col := { ready.col with forcedTo := [(0, 1)] } }; s.arm ⟨.forcedRetry, 0, 0⟩ 0);
    decide (u.phase = .running) && decide (u.due ⟨.forcedRetry, slice, 0⟩ = true) &&
    (let t := u.disarm ⟨.forcedRetry, slice, 0⟩; (match assocGet t.col.forcedTo slice with | some n => decide (t.roleState n = 0) && (Instr.forcedMoveRetry 0 slice).wf | _ => false)))
  && (let slice : Nat := 0;
    let u : State := at0 <| (let s := { ready.setRegBits Obj.COL_ENGINE_STATE 1 30 2 1 with col := { ready.col with forcedTo := [(0, 1)] } }; s.arm ⟨.forcedRetry, 0, 0⟩ 0);
    decide (u.phase = .running) && decide (u.due ⟨.forcedRetry, slice, 0⟩ = true) &&
    (let t := u.disarm ⟨.forcedRetry, slice, 0⟩; (match assocGet t.col.forcedTo slice with | some n => decide (t.roleState n ≠ 0) && (match t.idlest (t.engineOf slice) with | some _ => (Instr.forcedMoveRetry 0 slice).wf | _ => false) | _ => false)))
  && (let slice : Nat := 0; let u : State := at0 <| (ready).arm ⟨.holdoff, slice, 0⟩ 0; decide (u.phase = .running) &&
    decide (u.due ⟨.holdoff, slice, 0⟩ = true) && (Instr.leaseHoldoffExpiry 0 slice).wf)
  && (let col : Nat := 1; let u : State := at0 <| (queued (some 0)); decide (u.phase = .running) &&
    (match u.deque col with | _ :: _ => decide (u.cohRuns = true) && decide (u.backgroundFree col = true) && (Instr.backgroundItem 0 col).wf | _ => false))
  && (let col : Nat := 2; let u : State := at0 <| (queued none); decide (u.phase = .running) && decide (u.cohRuns = true) &&
    decide (u.roleState col = 0) && decide (u.backgroundFree col = true) && decide (u.deque col = []) &&
    (match fullest u with | some _ => (Instr.itemSteal 0 col).wf | _ => false))
  && (let path : Path := (.kdp 0 0); let value : Nat := 0; let badSpares : List Nat := []; let u : State := at0 <| (ready);
    decide (u.phase = .running) && decide (takesWrite u path Obj.COL_SPARE_CMD none value = true) &&
    (Instr.colSpareCmd 0 path value badSpares).wf)
  && (let role : Nat := 1; let badSpares : List Nat := ([] : List Nat);
    let u : State := at0 <| (let s := forEach (List.range 16) ready (fun s i => s.setReg Obj.COL_SLICE_MAP (256 * i + 1) 0); { s with col := { s.col with job := some ⟨1, .retire, 0, []⟩ } });
    decide (u.phase = .running) &&
    (match u.col.job with | some j => decide (j.role = role) && decide (u.roleEmpty role = true) && (Instr.roleEmptied 0 role badSpares).wf | _ => false))
  && (let badTests : List Nat := []; let badDigests : List Nat := [];
    let u : State := at0 <| ({ ready with boot := { ready.boot with stage := .firmware, ucodeOk := false } });
    decide (u.phase = .running) && decide (u.boot.stage = .firmware) && decide (u.boot.ucodeOk = false) &&
    (Instr.ucodeLoad 0 badTests badDigests).wf)
  && (let corrections : Nat := 1; let phys : Nat := 0; let badSpares : List Nat := []; let u : State := at0 <| (ready);
    decide (u.phase = .running) && decide (u.boot.ucodeOk = true) && decide (phys < 272) &&
    decide (u.physState phys ≠ 2) && decide (0 < corrections) &&
    (let t := forEach (List.range corrections) (countCorrections u phys corrections) (fun t _ => raise t 10 7); decide (t.physState phys ≠ 1) && (Instr.imemScrub 0 phys corrections badSpares).wf))
  && (let corrections : Nat := 1; let phys : Nat := 0; let badSpares : List Nat := [];
    let u : State := at0 <| (((ready.setRegBits Obj.COL_PHYS_STATE 0 30 2 1).setReg Obj.COL_SPARE_CE_THRESHOLD 0 0));
    decide (u.phase = .running) && decide (u.boot.ucodeOk = true) && decide (phys < 272) &&
    decide (u.physState phys ≠ 2) && decide (0 < corrections) &&
    (let t := forEach (List.range corrections) (countCorrections u phys corrections) (fun t _ => raise t 10 7); decide (t.physState phys = 1) && decide (t.reg Obj.COL_SPARE_CE_THRESHOLD < t.regBits Obj.COL_PHYS_STATE phys 0 16) && (Instr.imemScrub 0 phys corrections badSpares).wf))
  && (let path : Path := (.kdp 0 0); let value : Nat := 0; let u : State := at0 <| (ready); decide (u.phase = .running) &&
    decide (takesWrite u path Obj.COL_HASH_KEY none value = true) && (Instr.hashLookup 0 path value).wf)) = true := by
  decide +kernel
/-- The hypotheses of every clause of `TwinMessagesComplete` are met together somewhere. -/
theorem witness_TwinMessages : ((let port : Nat := 56; let msg : List Byte := linkMsg 0x43 128; let u : State := at0 <| (twinMsg 0x43);
    decide (u.phase = .running) &&
    (match takeTwin u port 0x43 msg with | some _ => decide (leField msg 16 2 < 62) && (Instr.pairInfo 0 port msg).wf | _ => false))
  && (let port : Nat := 56; let msg : List Byte := (linkMsg 0x43 128).set 16 62;
    let u : State := at0 <| (let s := twinMsg 0x43; s.setPass 56 { s.passPort 56 with rxPool := [⟨2, (linkMsg 0x43 128).set 16 62⟩] });
    decide (u.phase = .running) &&
    (match takeTwin u port 0x43 msg with | some _ => decide (62 ≤ leField msg 16 2) && (Instr.pairInfo 0 port msg).wf | _ => false))
  && (let port : Nat := 56; let msg : List Byte := linkMsg 0x40 128; let u : State := at0 <| (twinAlloc 0x40 1);
    decide (u.phase = .running) &&
    (match takeTwin u port 0x40 msg with | some t => (match t.mirrorCopy (leField msg 16 8 % 2 ^ 45) with | some _ => (Instr.mirrorWr 0 port msg).wf | _ => false) | _ => false))
  && (let port : Nat := 56; let msg : List Byte := linkMsg 0x40 128; let u : State := at0 <| (twinMsg 0x40);
    decide (u.phase = .running) &&
    (match takeTwin u port 0x40 msg with | some t => decide (t.mirrorCopy (leField msg 16 8 % 2 ^ 45) = none) && (Instr.mirrorWr 0 port msg).wf | _ => false))
  && (let port : Nat := 56; let msg : List Byte := linkMsg 0x41 128; let u : State := at0 <| (twinMsg 0x41);
    decide (u.phase = .running) &&
    (match takeTwin u port 0x41 msg with | some _ => (Instr.log 0 port msg).wf | _ => false))
  && (let port : Nat := 56; let msg : List Byte := linkMsg 0x42 128; let u : State := at0 <| (twinMsg 0x42);
    decide (u.phase = .running) &&
    (match takeTwin u port 0x42 msg with | some _ => (Instr.heartbeat 0 port msg).wf | _ => false))
  && (let u : State := at0 <| (ready).arm ⟨.heartbeat, 0, 0⟩ 0; decide (u.phase = .running) &&
    decide (u.due ⟨.heartbeat, 0, 0⟩ = true) && (Instr.heartbeatSend 0).wf)
  && (let port : Nat := 56; let msg : List Byte := linkMsg 0x44 128; let u : State := at0 <| (twinAlloc 0x44 1);
    decide (u.phase = .running) &&
    (match takeTwin u port 0x44 msg with | some t => (match t.allocAt (leField msg 16 4) with | some i => decide (t.allocRole i ≠ 0) && decide (t.allocKeyed i = true) && (Instr.keyXfer 0 port msg).wf | _ => false) | _ => false))
  && (let port : Nat := 56; let msg : List Byte := linkMsg 0x45 128; let u : State := at0 <| (twinAlloc 0x45 1);
    decide (u.phase = .running) &&
    (match takeTwin u port 0x45 msg with | some t => (match t.mirrorCopy (leField msg 16 8 % 2 ^ 45) with | some _ => (Instr.resyncData 0 port msg).wf | _ => false) | _ => false))
  && (let key : Nat := 0; let u : State := at0 <| (ready); decide (u.phase = .running) &&
    decide (u.mirrorPending key = false ∨ u.mirroring = false) && (Instr.mirroredWriteComplete 0 key).wf)
  && (let unit : Nat := 0; let u : State := at0 <| ((twinAlloc 0x45 0).setRegBits Obj.TWIN_STATE 0 29 3 3);
    decide (u.phase = .running) && decide (mayClean u unit = true) && (Instr.unitClean 0 unit).wf)
  && (let unit : Nat := 0; let u : State := at0 <| (ready); decide (u.phase = .running) &&
    decide (u.dirtyPending unit = false) && (Instr.unitDirtyAcked 0 unit).wf)
  && (let u : State := at0 <| (ready).arm ⟨.msgSilent, 0, 0⟩ 0; decide (u.phase = .running) &&
    decide (u.due ⟨.msgSilent, 0, 0⟩ = true) &&
    (let t := (u.disarm ⟨.msgSilent, 0, 0⟩).putRegBit Obj.TWIN_STATE 0 26 false; decide (t.pinAlive = false) && (Instr.messageSignalSilent 0).wf))
  && (let u : State := at0 <| ((((ready.arm ⟨.msgSilent, 0, 0⟩ 0).putRegBit Obj.TWIN_STATE 0 25 true).setRegBits Obj.TWIN_STATE 0 29 3 3));
    decide (u.phase = .running) && decide (u.due ⟨.msgSilent, 0, 0⟩ = true) &&
    (let t := (u.disarm ⟨.msgSilent, 0, 0⟩).putRegBit Obj.TWIN_STATE 0 26 false; decide (t.pinAlive = true) && decide (t.pairState = 3) && (Instr.messageSignalSilent 0).wf))
  && (let u : State := at0 <| ((ready.arm ⟨.pinSilent, 0, 0⟩ 0).putRegBit Obj.TWIN_STATE 0 26 true);
    decide (u.phase = .running) && decide (u.due ⟨.pinSilent, 0, 0⟩ = true) &&
    (let t := (u.disarm ⟨.pinSilent, 0, 0⟩).putRegBit Obj.TWIN_STATE 0 25 false; decide (t.msgAlive = true) && (Instr.pinSignalSilent 0).wf))
  && (let u : State := at0 <| (ready).arm ⟨.pinSilent, 0, 0⟩ 0; decide (u.phase = .running) &&
    decide (u.due ⟨.pinSilent, 0, 0⟩ = true) &&
    (let t := (u.disarm ⟨.pinSilent, 0, 0⟩).putRegBit Obj.TWIN_STATE 0 25 false; decide (t.msgAlive = false) && (Instr.pinSignalSilent 0).wf))
  && (let u : State := at0 <| ({ ready.setRegBits Obj.TWIN_STATE 0 29 3 5 with twin := { ready.twin with takeover := true } });
    decide (u.phase = .running) && decide (u.twin.takeover = true) && decide (u.pairState = 5) &&
    decide (drainLeft u = false) && (Instr.takeoverServe 0).wf)
  && (let path : Path := (.kdp 0 0); let u : State := at0 <| (setPairState ready 4); decide (u.phase = .running) &&
    decide (takesWrite u path Obj.TWIN_DECLARE_LOST none 1 = true) && (Instr.declareLost 0 path).wf)
  && (let path : Path := (.kdp 0 0); let u : State := at0 <| (recovering); decide (u.phase = .running) &&
    decide (takesWrite u path Obj.TWIN_ALIAS_END none 1 = true) && (Instr.aliasEnd 0 path).wf)
  && (let u : State := at0 <| (ready.setRegBits Obj.TWIN_STATE 0 29 3 2); decide (u.phase = .running) &&
    decide (u.pairState = 2) && (Instr.resyncCopyDone 0).wf)) = true := by
  decide +kernel
/-- The hypotheses of every clause of `TenanciesComplete` are met together somewhere. -/
theorem witness_Tenancies : ((let value : Nat := 5; let path : Path := (.kdp 0 0); let u : State := at0 <| (rented); decide (u.phase = .running) &&
    decide (takesWrite u path Obj.TEN_RESET none value = true) && (Instr.tenancyReset 0 path value).wf)
  && (let tenancy : Nat := 5; let u : State := at0 <| ((ready.setReg Obj.TEN_STATE 5 (at_ 30 2)).arm ⟨.tenReset, 5, 0⟩ 0);
    decide (u.phase = .running) && decide (u.due ⟨.tenReset, tenancy, 0⟩ = true) &&
    decide ((u.disarm ⟨.tenReset, tenancy, 0⟩).tenState tenancy = 2) && (Instr.tenancyResetStart 0 tenancy).wf)
  && (let tenancy : Nat := 5;
    let u : State := at0 <| ({ ready.setReg Obj.TEN_STATE 5 (at_ 30 2) with ten := { ready.ten with started := [5] } });
    decide (u.phase = .running) && decide (u.tenState tenancy = 2) && decide (u.ten.started.contains tenancy = true) &&
    decide (u.ten.removal.contains tenancy = false) && (Instr.tenancyResetEnd 0 tenancy).wf)
  && (let range : Nat := 0; let u : State := at0 <| (ready.putRegBit Obj.TEN_DLOG_STATE 0 8 true);
    decide (u.phase = .running) && decide (u.regBit Obj.TEN_DLOG_STATE (range / 8) (8 + range % 8) = true) &&
    (Instr.dlogClearDone 0 range).wf)
  && (let path : Path := (.kdp 0 0); let u : State := at0 <| (ready); decide (u.phase = .running) &&
    decide (mayServe u path .read (readRec Obj.TEN_DLOG_TAKE none) = true) &&
    decide (checkRecord u path .read (readRec Obj.TEN_DLOG_TAKE none) = .ok) && (Instr.dlogTake 0 path).wf)
  && (let a : WindowWrite := winAt 0x40100; let u : State := at0 <| (rented); decide (u.phase = .running) &&
    decide (0x40100 ≤ a.offset) && decide (a.offset < 0x40200) && decide (u.isHost a.port = true) &&
    decide (u.isFmPort a.port = false) &&
    (match u.portTenancy a.port with | some t => decide (u.tenState t ≠ 2) && (Instr.outDataWrite 0 a).wf | _ => false))
  && (let a : WindowWrite := winAt 0x40214; let u : State := at0 <| (rented); decide (u.phase = .running) &&
    decide (0x40214 ≤ a.offset) && decide (a.offset < 0x40218) && decide (u.isHost a.port = true) &&
    decide (u.isFmPort a.port = false) &&
    (match u.portTenancy a.port with | some t => decide (u.tenState t ≠ 2) && (Instr.outDoorbell 0 a).wf | _ => false))
  && (let a : WindowWrite := winAt 0x4020C; let u : State := at0 <| (rented); decide (u.phase = .running) &&
    decide (0x4020C ≤ a.offset) && decide (a.offset < 0x40210) && decide (u.isHost a.port = true) &&
    decide (u.isFmPort a.port = false) &&
    (match u.portTenancy a.port with | some t => decide (u.tenState t ≠ 2) && (Instr.inTake 0 a).wf | _ => false))
  && (let path : Path := (.kdp 0 0); let tenancy : Nat := 0; let value : Nat := 0; let u : State := at0 <| (ready);
    decide (u.phase = .running) && decide (takesWrite u path Obj.MBX_IN_DATA (some tenancy) value = true) &&
    decide (u.steppeReady = true) && decide (u.inFull tenancy = false) && (Instr.inDataWrite 0 path tenancy value).wf)
  && (let tenancy : Nat := 5; let value : Nat := 1; let path : Path := (.kdp 0 0); let u : State := at0 <| (rented);
    decide (u.phase = .running) && decide (takesWrite u path Obj.MBX_IN_SEND (some tenancy) value = true) &&
    decide (u.inFull tenancy = false) &&
    decide (bits (ofLe (writeRec Obj.MBX_IN_SEND (some tenancy) value).data) 32 16 = u.tenGen tenancy) &&
    (Instr.inSend 0 path tenancy value).wf)
  && (let path : Path := (.kdp 0 0); let tenancy : Nat := 0; let u : State := at0 <| (ready); decide (u.phase = .running) &&
    decide (takesWrite u path Obj.MBX_OUT_TAKE (some tenancy) 1 = true) && (Instr.outTake 0 path tenancy).wf)
  && (let element : Nat := 3;
    let u : State := at0 <| ({ ready.arm ⟨.summary, 3, 0⟩ 0 with ten := { ready.ten with summaryOwed := [3] } });
    decide (u.phase = .running) && decide (u.due ⟨.summary, element, 0⟩ = true) &&
    decide ((u.disarm ⟨.summary, element, 0⟩).ten.summaryOwed.contains element = true) &&
    (Instr.summaryEvent 0 element).wf)
  && (let u : State := at0 <| ((ready.putRegBit Obj.MBX_FM_STATE 0 62 true).sysWrite (outboxAddr fmPair) [1, 1]);
    decide (u.phase = .running) && decide (u.firmware = true) && decide (u.outFull fmPair = true) &&
    decide (pairHeaderMalformed (fmMessage u) = false) && (Instr.fmPairRequest 0).wf)
  && (let u : State := at0 <| ({ ready with ten := { ready.ten with fmWaiting := [[1]] } }); decide (u.phase = .running) &&
    decide (u.firmware = true) && decide (u.inFull fmPair = false) &&
    (match u.ten.fmWaiting with | _ :: _ => (Instr.fmPairPost 0).wf | _ => false))) = true := by
  decide +kernel
/-- The hypotheses of every clause of `GlenComplete` are met together somewhere. -/
theorem witness_Glen : ((let port : Nat := 0; let u : State := at0 <| (rented); decide (u.phase = .running) && decide (u.isHost port = true) &&
    (match u.portTenancy port with | some t => decide (u.devState ≠ 0) && decide (u.tenState t ≠ 0) && (Instr.glenStart 0 port).wf | _ => false))
  && (let port : Nat := 0; let u : State := at0 <| (rented); decide (u.phase = .running) && decide (u.isHost port = true) &&
    (match u.portTenancy port with | some t => decide (u.devState ≠ 0) && decide (u.tenState t ≠ 0) && (Instr.glenStop 0 port).wf | _ => false))
  && (let port : Nat := 0; let u : State := at0 <| (rented); decide (u.phase = .running) && decide (u.isHost port = true) &&
    (match u.portTenancy port with | some t => decide (u.devState ≠ 0) && decide (u.tenState t ≠ 0) && (Instr.glenRing 0 port).wf | _ => false))
  && (let a : WindowWrite := winAt 8; let u : State := at0 <| (rented); decide (u.phase = .running) &&
    decide (8 ≤ a.offset) && decide (a.offset < 16) && decide (u.isHost a.port = true) &&
    (match u.portTenancy a.port with | some t => decide (u.devState ≠ 0) && decide (u.tenState t ≠ 0) && (Instr.chPointerWrite 0 a).wf | _ => false))
  && (let a : WindowWrite := winAt 0x1000; let u : State := at0 <| (rented); decide (u.phase = .running) &&
    decide (0x1000 ≤ a.offset) && decide (a.offset < 0x40000) && decide (u.isHost a.port = true) &&
    (match u.portTenancy a.port with | some t => decide (u.devState ≠ 0) && decide (u.tenState t ≠ 0) && (Instr.descAreaWrite 0 a).wf | _ => false))
  && (let path : Path := (.kdp 0 0); let channel : Nat := 0; let u : State := at0 <| (ready); decide (u.phase = .running) &&
    decide (takesWrite u path Obj.GLEN_CHAN_CMD (some channel) 1 = true) && (Instr.chanCmdStop 0 path channel).wf)
  && (let channel : Nat := 5; let host : HostReadResult := HostReadResult.failed;
    let u : State := at0 <| ((chanWith { freshChan with fetching := true }).setReg Obj.GLEN_CHAN_POINTER 5 0);
    decide (u.phase = .running) && decide (u.chanRuns channel = true) && decide ((u.chan channel).fetching = true) &&
    decide (u.reg Obj.GLEN_CHAN_POINTER channel % 4 = 0) && (Instr.descriptorFetch 0 channel host).wf)
  && (let channel : Nat := 5; let host : HostReadResult := HostReadResult.failed;
    let u : State := at0 <| ((chanWith { freshChan with fetching := true }).setReg Obj.GLEN_CHAN_POINTER 5 1);
    decide (u.phase = .running) && decide (u.chanRuns channel = true) && decide ((u.chan channel).fetching = true) &&
    decide (u.reg Obj.GLEN_CHAN_POINTER channel % 4 = 1) && (Instr.descriptorFetch 0 channel host).wf)
  && (let engine : Nat := 0; let busMaster : Bool := false;
    let u : State := at0 <| ((chanWith { freshChan with desc := some ⟨0, 64, 0, 0, 0, 0⟩ }).setReg Obj.GLEN_CHAN_STATUS 5 (at_ 29 1));
    decide (u.phase = .running) && decide (engine < 64) &&
    (match nextChannel u engine with | some _ => (Instr.glenTurn 0 engine busMaster).wf | _ => false))
  && (let channel : Nat := 5; let source : SourceResult := (⟨.failed, false⟩ : SourceResult); let busMaster : Bool := false;
    let u : State := at0 <| (chanWith { freshChan with reads := [⟨0, 64, none, none⟩] });
    decide (u.phase = .running) && decide (u.chanRuns channel = true) &&
    (match (u.chan channel).reads.head? with | some _ => (Instr.sourceData 0 channel source busMaster).wf | _ => false))
  && (let channel : Nat := 5; let busMaster : Bool := false;
    let u : State := at0 <| (chanWith { freshChan with desc := some ⟨0, 64, 0, 0, 0, 0⟩, issued := 64, written := 64 });
    decide (u.phase = .running) && decide (u.chanRuns channel = true) &&
    (match (u.chan channel).desc with | some d => decide ((u.chan channel).written = d.length) && decide ((u.chan channel).writes = []) && (Instr.descriptorWriteBack 0 channel busMaster).wf | _ => false))
  && (let channel : Nat := 5;
    let u : State := at0 <| ((chanWith { freshChan with fetching := true }).setReg Obj.GLEN_CHAN_POINTER 5 0);
    decide (u.phase = .running) && decide (u.chanRuns channel = true) && decide ((u.chan channel).fetching = true) &&
    decide (u.reg Obj.GLEN_CHAN_POINTER channel % 4 = 0) && (Instr.completionTimeout 0 channel).wf)
  && (let channel : Nat := 5; let u : State := at0 <| (chanWith freshChan); decide (u.phase = .running) &&
    decide (u.chanRuns channel = true) && decide ((u.chan channel).fetching = false) &&
    (Instr.completionTimeout 0 channel).wf)) = true := by
  decide +kernel
/-- The hypotheses of every clause of `FaultsComplete` are met together somewhere. -/
theorem witness_Faults : ((let group : Nat := 0; let bit : Nat := 0; let element : Nat := 0; let u : State := at0 <| (ready);
    decide (u.phase = .running) && decide (sourceNamed group bit = true) && (Instr.sourceEvent 0 group bit element).wf)
  && (let source : Nat := 0; let u : State := at0 <| (ready).arm ⟨.quiet, source, 0⟩ 0; decide (u.phase = .running) &&
    decide (u.due ⟨.quiet, source, 0⟩ = true) && (Instr.quietTimerExpiry 0 source).wf)
  && (let u : State := at0 <| (ready).arm ⟨.faultPulse, 0, 0⟩ 0; decide (u.phase = .running) &&
    decide (u.due ⟨.faultPulse, 0, 0⟩ = true) && (Instr.faultOutPulseEnd 0).wf)
  && (let group : Nat := 0; let u : State := at0 <| (ready).arm ⟨.faultEvent, group, 0⟩ 0; decide (u.phase = .running) &&
    decide (u.due ⟨.faultEvent, group, 0⟩ = true) && (Instr.faultEventTimer 0 group).wf)
  && (let u : State := at0 <| ({ ready with flt := { ready.flt with traps := [1] } }); decide (u.phase = .running) &&
    (match u.flt.traps with | w :: rest => (let t := saveLogRecord { u with flt := { u.flt with traps := rest } } w; decide (t.flt.resetDue = false) && (Instr.trapSaveDone 0).wf) | _ => false))
  && (let u : State := at0 <| ({ ready with flt := { ready.flt with traps := [1], resetDue := true } });
    decide (u.phase = .running) &&
    (match u.flt.traps with | [w] => (let t := saveLogRecord { u with flt := { u.flt with traps := [] } } w; decide (t.flt.resetDue = true) && (Instr.trapSaveDone 0).wf) | _ => false))
  && (let path : Path := (.kdp 0 0); let group : Nat := 0; let value : Nat := 0; let u : State := at0 <| (testing);
    decide (u.phase = .running) && decide (takesWrite u path Obj.FLT_FORCE (some group) value = true) &&
    (Instr.force 0 path group value).wf)
  && (let path : Path := (.kdp 0 0); let group : Nat := 0; let value : Nat := 0; let u : State := at0 <| (ready);
    decide (u.phase = .running) && decide (takesWrite u path Obj.FLT_SOURCE_STATUS (some group) value = true) &&
    (Instr.sourceClear 0 path group value).wf)
  && (let path : Path := (.kdp 0 0); let source : Nat := 0; let u : State := at0 <| (ready); decide (u.phase = .running) &&
    decide (takesWrite u path Obj.FLT_RECOVERIES (some source) 0 = true) && (Instr.recoveriesClear 0 path source).wf)
  && (let path : Path := (.kdp 0 0); let value : Nat := 0; let u : State := at0 <| (ready); decide (u.phase = .running) &&
    decide (takesWrite u path Obj.FLT_OUT_CTRL none value = true) && (Instr.holdWrite 0 path value).wf)) = true := by
  decide +kernel
/-- The hypotheses of every clause of `TelemetryComplete` are met together somewhere. -/
theorem witness_Telemetry : ((let bad : List CounterElem := ([] : List CounterElem); let u : State := at0 <| ({ ready with now := 1000000000 });
    decide (u.phase = .running) &&
    (match u.deadline intervalTimer with | some d => decide (d ≤ u.now) && (Instr.intervalBoundary 0 bad).wf | _ => false))
  && (let u : State := at0 <| ({ ready with tlm := { ready.tlm with waiting := some ⟨0, 1, 0, 0, 1000, []⟩ } });
    decide (u.phase = .running) &&
    (match u.tlm.waiting with | some _ => decide (u.tlm.formatting = none) && decide (u.steppeReady = true) && decide (u.reg Obj.STAT_DUMP_EN = 1) && (Instr.dumpWrite 0).wf | _ => false))
  && (let path : Path := (.kdp 0 0); let u : State := at0 <| (ready); decide (u.phase = .running) &&
    decide (takesRead u path Obj.STAT_DUMP_DATA none = true) && (Instr.dumpDataRead 0 path).wf)
  && (let path : Path := (.kdp 0 0); let k : Nat := 0; let value : Nat := 0; let u : State := at0 <| (ready);
    decide (u.phase = .running) && decide (takesWrite u path Obj.STAT_PROG_SELECT (some k) value = true) &&
    (Instr.progSelect 0 path k value).wf)
  && (let path : Path := (.kdp 0 0); let bad : List Nat := []; let u : State := at0 <| (ready);
    decide (u.phase = .running) && decide (takesRead u path Obj.TLM_READ none = true) && (Instr.tlmRead 0 path bad).wf)
  && (let path : Path := (.kdp 0 0); let u : State := at0 <| (ready); decide (u.phase = .running) &&
    decide (takesWrite u path Obj.TLM_CTRL none 1 = true) && (Instr.tlmMark 0 path).wf)
  && (let path : Path := (.kdp 0 0); let u : State := at0 <| (ready); decide (u.phase = .running) &&
    decide (takesWrite u path Obj.TLM_CTRL none 2 = true) && (Instr.tlmRewind 0 path).wf)
  && (let path : Path := (.kdp 0 0); let u : State := at0 <| (ready); decide (u.phase = .running) &&
    decide (takesWrite u path Obj.TLM_CTRL none 3 = true) && (Instr.tlmRelease 0 path).wf)
  && (let type : Nat := 2; let body : List Nat := [0, 0, 0, 0]; let u : State := at0 <| (ready);
    decide (u.phase = .running) && decide (bodyWords type = some body.length) && decide (typeEnters u type = true) &&
    (Instr.tlmRecordOffer 0 type body).wf)
  && (let path : Path := (.kdp 0 0); let value : Nat := 0; let u : State := at0 <| (ready); decide (u.phase = .running) &&
    decide (takesWrite u path Obj.TLM_TIME none value = true) && (Instr.timeSet 0 path value).wf)
  && (let value : Nat := 0x1001; let path : Path := (.kdp 0 0); let u : State := at0 <| (ready);
    decide (u.phase = .running) && decide (takesWrite u path Obj.TLM_HIGH_WM none value = true) &&
    (Instr.watermarkWrite 0 path true value).wf)
  && (let path : Path := (.kdp 0 0); let value : Nat := 0; let u : State := at0 <| (ready); decide (u.phase = .running) &&
    decide (takesWrite u path Obj.TLM_LOW_WM none value = true) && (Instr.watermarkWrite 0 path false value).wf)) = true := by
  decide +kernel
/-- The hypotheses of every clause of `SlotsComplete` are met together somewhere. -/
theorem witness_Slots : ((let slot : Nat := 0; let u : State := at0 <| (ready); decide (u.phase = .running) &&
    decide (u.slotSeated slot = false) && (Instr.presenceAssert 0 slot).wf)
  && (let slot : Nat := 0; let u : State := at0 <| (ready).arm ⟨.debounce, slot, 0⟩ 0; decide (u.phase = .running) &&
    decide (u.due ⟨.debounce, slot, 0⟩ = true) && (Instr.seated 0 slot).wf)
  && (let slot : Nat := 0; let u : State := at0 <| ({ ready with slot := { ready.slot with asserted := [0] } });
    decide (u.phase = .running) && decide (u.slot.asserted.contains slot = true) && (Instr.removed 0 slot).wf)
  && (let slot : Nat := 0; let u : State := at0 <| ((ready.arm ⟨.cooldown, 0, 0⟩ 0).putRegBit Obj.SLOT_STATUS 0 25 true);
    decide (u.phase = .running) && decide (u.due ⟨.cooldown, slot, 0⟩ = true) &&
    decide ((u.disarm ⟨.cooldown, slot, 0⟩).slotSeated slot = true) && (Instr.cooldownEnd 0 slot).wf)
  && (let slot : Nat := 0; let u : State := at0 <| ((ready.arm ⟨.cooldown, 0, 0⟩ 0).setRegBits Obj.SLOT_STATUS 0 28 4 3);
    decide (u.phase = .running) && decide (u.due ⟨.cooldown, slot, 0⟩ = true) &&
    decide ((u.disarm ⟨.cooldown, slot, 0⟩).slotSeated slot = false) &&
    decide ((u.disarm ⟨.cooldown, slot, 0⟩).slotState slot = 3) && (Instr.cooldownEnd 0 slot).wf)
  && (let slot : Nat := 0;
    let u : State := at0 <| ({ ready.setRegBits Obj.SLOT_STATUS 0 28 4 4 with now := 1000000000, slot := { ready.slot with ramp := [(0, (0, 10))] } });
    decide (u.phase = .running) &&
    (match gateOnAt u slot with | some t => decide (u.slotState slot = 4) && decide (t ≤ u.now) && decide ((setSlotState u slot 5).slotTimer slot = false) && (Instr.gateOnComplete 0 slot).wf | _ => false))
  && (let sense : Nat := 10000; let slot : Nat := 0; let u : State := at0 <| (ready.setRegBits Obj.SLOT_STATUS 0 28 4 5);
    decide (u.phase = .running) && decide (u.slotState slot = 5) && decide (u.slotTimer slot = false) &&
    decide (u.slotLimit slot ≤ sense) && (Instr.faultTimerStart 0 slot sense).wf)
  && (let slot : Nat := 0; let sense : Nat := 0; let u : State := at0 <| (ready.putRegBit Obj.SLOT_STATUS 0 26 true);
    decide (u.phase = .running) && decide (u.slotTimer slot = true) && decide (sense < u.slotLimit slot) &&
    (Instr.faultTimerEnd 0 slot sense).wf)
  && (let slot : Nat := 0; let u : State := at0 <| (ready).arm ⟨.slotFault, slot, 0⟩ 0; decide (u.phase = .running) &&
    decide (u.due ⟨.slotFault, slot, 0⟩ = true) && (Instr.slowTrip 0 slot).wf)
  && (let sense : Nat := 10000; let slot : Nat := 0;
    let u : State := at0 <| ({ ready with slot := { ready.slot with driven := [0] } }); decide (u.phase = .running) &&
    decide (u.gateDriven slot = true) && decide (2 * u.slotLimit slot ≤ sense) && (Instr.fastTrip 0 slot sense).wf)
  && (let path : Path := (.kdp 0 0); let slot : Nat := 0; let value : Nat := 0; let u : State := at0 <| (ready);
    decide (u.phase = .running) && decide (takesWrite u path Obj.SLOT_CTRL (some slot) value = true) &&
    (Instr.slotCtrlWrite 0 path slot value).wf)
  && (let slot : Nat := 0; let u : State := at0 <| (ready).arm ⟨.gateOff, slot, 0⟩ 0; decide (u.phase = .running) &&
    decide (u.due ⟨.gateOff, slot, 0⟩ = true) && (Instr.commandedGateOff 0 slot).wf)
  && (let vout : Nat := 1001; let slot : Nat := 0; let u : State := at0 <| (ready); decide (u.phase = .running) &&
    decide (u.gateDriven slot = false) && decide (1000 < vout) && (Instr.damageDetect 0 slot vout).wf)
  && (let slot : Nat := 0; let vout : Nat := 0; let path : Path := (.kdp 0 0); let u : State := at0 <| (ready);
    decide (u.phase = .running) &&
    decide (takesWrite (u.setReg Obj.SLOT_VOUT slot vout) path Obj.SLOT_STATUS (some slot) (2 ^ 22) = true) &&
    (Instr.damagedClear 0 path slot vout).wf)
  && (let host : Nat := 0; let vppb : Nat := 0; let on : Bool := false;
    let u : State := at0 <| ((ready.putRegBit Obj.EDGE_VPPB 0 29 true).setReg Obj.SLOT_PORT 3 0);
    decide (u.phase = .running) && decide (vppbHolds (u.reg Obj.EDGE_VPPB (64 * host + vppb)) = true) &&
    (match u.portSlot (u.regBits Obj.EDGE_VPPB (64 * host + vppb) 4 6) with | some _ => (Instr.powerControllerControl 0 host vppb on).wf | _ => false))
  && (let slot : Nat := 0; let u : State := at0 <| (ready); decide (u.phase = .running) && (Instr.presenceBreak 0 slot).wf)
  && (let vin : Nat := 0; let u : State := at0 <| (ready); decide (u.phase = .running) && decide (vin < 10000) &&
    (Instr.slotVinLow 0 vin).wf)) = true := by
  decide +kernel
/-- The hypotheses of every clause of `ResetAndPowerComplete` are met together somewhere. -/
theorem witness_ResetAndPower : ((let u : State := at0 <| (let s := { ready with phase := .chipReset, slot := { ready.slot with driven := [3] } }; s.arm ⟨.slotOff, 0, 0⟩ 0);
    decide (u.phase = .chipReset) && decide (u.due ⟨.slotOff, 0, 0⟩ = true) &&
    (let t := u.disarm ⟨.slotOff, 0, 0⟩; (match t.lowestDriven with | some _ => (Instr.resetSlotTurnoff 0).wf | _ => false)))
  && (let programmed := ([] : List FlashPatch); let badReserves := [3]; let straps : Nat := 0;
    let u : State := at0 <| ({ State.reset with phase := .unpowered }); decide (u.phase = .unpowered) &&
    (Instr.powerOnResetRelease 0 straps ⟨programmed, badReserves⟩).wf)
  && (let programmed := ([] : List FlashPatch); let badReserves := [3]; let straps : Nat := 0;
    let u : State := at0 <| ({ ready with now := 1000000, phase := .chipReset }); decide (u.phase = .chipReset) &&
    decide (releaseDue u = true) && decide (u.reg Obj.RST_CAUSE = 0) &&
    (Instr.powerOnResetRelease 0 straps ⟨programmed, badReserves⟩).wf)
  && (let straps : Nat := 0;
    let u : State := at0 <| ({ ready.setReg Obj.RST_CAUSE 0 1 with now := 1000000, phase := .chipReset });
    decide (u.phase = .chipReset) && decide (releaseDue u = true) && (Instr.internalResetRelease 0 straps).wf)
  && (let u : State := at0 <| (ready); decide (u.phase = .running) && (Instr.chipRstL 0).wf)
  && (let rail : Nat := 0; let mv : Nat := 0; let u : State := at0 <| (ready); decide (u.phase = .running) &&
    decide (rail < 9) && decide (u.railInside rail mv = false) && (Instr.railOutOfWindow 0 rail mv).wf)
  && (let mv : Nat := 750; let rail : Nat := 0; let u : State := at0 <| (ready); decide (u.phase = .running) &&
    decide (rail < 9) && decide (u.railInside rail mv = true) && (Instr.railInWindow 0 rail mv).wf)
  && (let rail : Nat := 0; let mv : Nat := 0; let u : State := at0 <| (ready); decide (u.phase = .running) &&
    decide (rail < 7) && decide (100 * mv < 85 * u.railNominal rail) && (Instr.railCollapse 0 rail mv).wf)) = true := by
  decide +kernel
/-- The hypotheses of every clause of `BootAndUpdateComplete` are met together somewhere. -/
theorem witness_BootAndUpdate : ((let path : Path := (.kdp 0 0); let u : State := at0 <| (ready); decide (u.phase = .running) &&
    decide (takesWrite u path Obj.RST_CHIP_RESET none 1 = true) && decide (u.mgmt.svc = none) &&
    (Instr.chipReset 0 path).wf)
  && (let readErrors : List Nat := []; let u : State := at0 <| ({ ready with boot := { ready.boot with stage := .rom } });
    decide (u.phase = .running) && decide (u.boot.stage = .rom) && (Instr.imageAuthenticate 0 readErrors).wf)
  && (let u : State := at0 <| (ready).arm ⟨.watchdog, 0, 0⟩ 0; decide (u.phase = .running) &&
    decide (u.due ⟨.watchdog, 0, 0⟩ = true) && (Instr.bootWatchdogExpiry 0).wf)
  && (let path : Path := (.kdp 0 0); let u : State := at0 <| (ready); decide (u.phase = .running) &&
    decide (takesWrite u path Obj.BOOT_UPDATE_CMD none 1 = true) && (Instr.erase 0 path).wf)
  && (let u : State := at0 <| ({ ready with boot := { ready.boot with work := 1 } }); decide (u.phase = .running) &&
    decide (u.boot.work = 1) && decide (updateTurn u = true) && (Instr.eraseDone 0).wf)
  && (let path : Path := (.kdp 0 0); let u : State := at0 <| (ready); decide (u.phase = .running) &&
    decide (takesWrite u path Obj.BOOT_UPDATE_CMD none 2 = true) && (Instr.verify 0 path).wf)
  && (let readError : Bool := false; let u : State := at0 <| ({ ready with boot := { ready.boot with work := 2 } });
    decide (u.phase = .running) && decide (u.boot.work = 2) && decide (updateTurn u = true) &&
    (Instr.verifyDone 0 readError).wf)
  && (let path : Path := (.kdp 0 0); let u : State := at0 <| (ready.setRegBits Obj.BOOT_UPDATE_STATUS 0 29 3 2);
    decide (u.phase = .running) && decide (takesWrite u path Obj.BOOT_UPDATE_CMD none 3 = true) &&
    (Instr.activate 0 path).wf)
  && (let path : Path := (.kdp 0 0);
    let u : State := at0 <| (let s := ready.setRegBits Obj.BOOT_UPDATE_STATUS 0 29 3 2; (s.setFlash (0x00100000 + 11) [BitVec.ofNat 8 (bits (s.reg Obj.ID_FW_VERSION) 24 8)]).setFlash (0x01100000 + 11) [BitVec.ofNat 8 (bits (s.reg Obj.ID_FW_VERSION) 24 8)]);
    decide (u.phase = .running) && decide (takesWrite u path Obj.BOOT_UPDATE_CMD none 4 = true) &&
    (Instr.activateAndLoadLive 0 path).wf)
  && (let data : List Byte := List.replicate 512 0; let path : Path := (.kdp 0 0); let u : State := at0 <| (ready);
    decide (u.phase = .running) &&
    decide (mayServe u path .write ⟨Obj.BOOT_UPDATE_DATA / 256, Obj.BOOT_UPDATE_DATA % 256, none, data⟩ = true) &&
    decide (checkRecord u path .write ⟨Obj.BOOT_UPDATE_DATA / 256, Obj.BOOT_UPDATE_DATA % 256, none, data⟩ = .ok) &&
    decide ((path = .i3c → u.reg Obj.STG_STATUS ≠ 2)) && decide (pathClass path ≠ .o) &&
    (Instr.updateData 0 path data).wf)
  && (let path : Path := (.kdp 0 0); let u : State := at0 <| (ready); decide (u.phase = .running) &&
    decide (takesWrite u path Obj.BOOT_SVN_ADVANCE none 1 = true) && (Instr.svnAdvance 0 path).wf)
  && (let path : Path := (.kdp 0 0); let k : Nat := 0;
    let u : State := at0 <| ({ ready with boot := { ready.boot with keyIndex := 1 } }); decide (u.phase = .running) &&
    decide (takesWrite u path Obj.BOOT_KEY_REVOKE none k = true) && (Instr.keyRevoke 0 path k).wf)) = true := by
  decide +kernel
/-- The hypotheses of every clause of `LifecycleAndDebugComplete` are met together somewhere. -/
theorem witness_LifecycleAndDebug : ((let path : Path := (.kdp 0 0); let u : State := at0 <| (ready); decide (u.phase = .running) &&
    decide (takesWrite u path Obj.DEV_STATE_REQ none 1 = true) && (Instr.requestService 0 path).wf)
  && (let path : Path := (.kdp 0 0); let u : State := at0 <| (ready); decide (u.phase = .running) &&
    decide (takesWrite u path Obj.DEV_STATE_REQ none 2 = true) && (Instr.requestTest 0 path).wf)
  && (let path : Path := (.kdp 0 0); let u : State := at0 <| (ready); decide (u.phase = .running) &&
    decide (takesWrite u path Obj.DEV_STATE_REQ none 3 = true) && (Instr.requestRecovery 0 path).wf)
  && (let path : Path := (.kdp 0 0); let serialCheck : Nat := 0; let u : State := at0 <| (testing);
    decide (u.phase = .running) && decide (takesWrite u path Obj.LIFE_REQUEST none (lifeWord serialCheck 1) = true) &&
    (Instr.requestDeployed 0 path serialCheck).wf)
  && (let path : Path := (.kdp 0 0); let serialCheck : Nat := 0;
    let u : State := at0 <| (testing.setReg Obj.LIFE_STATE 0 1); decide (u.phase = .running) &&
    decide (takesWrite u path Obj.LIFE_REQUEST none (lifeWord serialCheck 2) = true) && decide (u.mgmt.svc = none) &&
    (Instr.requestFieldReturn 0 path serialCheck).wf)
  && (let signature : List Byte := [];
    let u : State := at0 <| ({ (ready.setReg Obj.LIFE_STATE 0 1).setReg Obj.DBG_UNLOCK_EN 0 1 with boot := { ready.boot with jtag := .debugPort } });
    decide (u.phase = .running) && decide (u.debugLocked = true) && decide (u.reg Obj.DBG_UNLOCK_EN = 1) &&
    decide (u.boot.jtag = .debugPort) && (Instr.debugUnlock 0 signature).wf)
  && (let region : Nat := 1; let u : State := at0 <| (ready); decide (u.phase = .running) && decide (1 ≤ region) &&
    decide (region ≤ 5) && (Instr.debugAccess 0 region true).wf)
  && (let region : Nat := 1; let u : State := at0 <| (ready); decide (u.phase = .running) && decide (1 ≤ region) &&
    decide (region ≤ 5) && (Instr.debugAccess 0 region false).wf)
  && (let ins : JtagIns := JtagIns.idcode; let u : State := at0 <| (ready); decide (u.phase = .running) &&
    decide (loadedIns u ins = .idcode) && (Instr.jtagInstruction 0 ins).wf)) = true := by
  decide +kernel
/-- The hypotheses of every clause of `PackageAndWearComplete` are met together somewhere. -/
theorem witness_PackageAndWear : ((let celsius : List Int := List.replicate 24 40; let u : State := at0 <| (ready); decide (u.phase = .running) &&
    decide (celsius.length = 24) &&
    (match highest celsius with | some _ => (Instr.tjSensorRead 0 celsius).wf | _ => false))
  && (let u : State := at0 <| ({ ready with now := 1000000, wear := { ready.wear with warnSince := some 0 } });
    decide (u.phase = .running) && decide (heldMs u.wear.warnSince u.now = true) &&
    decide (bitAt (groupWord u 18) 0 = false) && (Instr.tjWarn 0).wf)
  && (let u : State := at0 <| ({ ready with now := 1000000, wear := { ready.wear with critSince := some 0 } });
    decide (u.phase = .running) && decide (heldMs u.wear.critSince u.now = true) &&
    decide (bitAt (groupWord u 18) 1 = false) && (Instr.tjCrit 0).wf)
  && (let kind : WearKind := WearKind.lane; let margin : Nat := 100; let monitor : Nat := 0; let badSpares : List Nat := [];
    let u : State := at0 <| (ready); decide (u.phase = .running) && decide (u.firmware = true) &&
    decide (monitor < wearCount kind) && decide (margin ≤ 100) &&
    (Instr.wearMeasurement 0 kind monitor margin badSpares).wf)
  && (let u : State := at0 <| ({ ((ready.setRegBits Obj.COL_PHYS_STATE 0 30 2 1).setReg Obj.WEAR_MARGIN_COL 0 39).setReg Obj.PKG_COL_VID 0 5 with now := 86400000000000 });
    decide (u.phase = .running) && decide (u.firmware = true) && decide (u.boot.ucodeOk = true) &&
    decide (lowestColMargin u < 40) && decide (0 < u.reg Obj.PKG_COL_VID) &&
    decide (u.wear.vidAt + 86400000000000 ≤ u.now) && (Instr.vidStep 0).wf)
  && (let u : State := at0 <| (ready); decide (u.phase = .running) && decide (u.firmware = true) &&
    decide (u.flt.traps = []) && (Instr.wearRecordSave 0).wf)
  && (let u : State := at0 <| (ready); decide (u.phase = .running) && decide (u.firmware = true) &&
    (Instr.lifeAccounting 0).wf)) = true := by
  decide +kernel

end Sys2Proof.Tests
end

section
/-! The reset state (O7), and what the commands of the shared buffer, the Basin, answer while the block runs (O42). -/
namespace Sys2Proof.Machine

/-! ### The reset state -/

/-- Every store of the reset state is empty, and an empty store is canonical. -/
theorem State.reset_wf : State.reset.wf := ⟨rfl, rfl, rfl, rfl⟩

/-- No register is listed at reset, so each reads as its default (R9, R12). -/
@[simp] theorem State.reset_reg (a e : Nat) : State.reset.reg a e = defaultOf (regKey a e) := rfl

/-! ### The commands of the Basin in a running block -/

section Running
variable {dt : Nat} {s : State} (hrun : s.phase = .running)
include hrun

/-- A message whose port, path and size admit it arrives (R17, R124, R134). -/
theorem exec_messageIngress_arrives {ingress : Nat} {m : FabricMsg} (hport : mayArrive (s.advance dt) ingress m = true)
    (hpath : pathOpen (s.advance dt) ingress m = true) (hsize : storable m = true) :
    exec (.messageIngress dt ingress m) s = .next (messageArrives (s.advance dt) ingress m) := by
  show execMessageIngress dt ingress m s = _
  rw [execMessageIngress, run_next _ hrun, if_pos (by rw [hport, hpath, hsize]; rfl)]

/-- An open cell whose last message is older than this moment is closed (R124). -/
theorem exec_openCellClose_closes {ingress : Nat} {cls : BasinClass} {c : Offered}
    (hopen : assocGet (s.advance dt).basin.open_ (openKey ingress cls) = some c) (hlast : c.last < (s.advance dt).now) :
    exec (.openCellClose dt ingress cls) s = .next (closeOpen (s.advance dt) (openKey ingress cls)) := by
  show execOpenCellClose dt ingress cls s = _
  rw [execOpenCellClose, run_next _ hrun]
  simp only [hopen, if_pos hlast]

/-- The oldest offered cell of a port and class that the rule of R131 lets in leaves the FIFO and is admitted. -/
theorem exec_cellAdmit_admits {ingress : Nat} {cls : BasinClass} {c : Offered} {rest : List Offered}
    (hoffered : takeFirst (fun c : Offered => c.ingress == ingress && c.cls == cls) (s.advance dt).basin.fifo = some (c, rest))
    (hgoes : (s.advance dt).basin.stopped = false) (hroom : admits (s.advance dt) c = true) :
    exec (.cellAdmit dt ingress cls) s
      = .next (admitCell { s.advance dt with basin := { (s.advance dt).basin with fifo := rest } } c) := by
  show execCellAdmit dt ingress cls s = _
  rw [execCellAdmit, run_next _ hrun]
  simp only [hoffered, hgoes, hroom, Bool.false_eq_true, if_false, if_true]

/-- The oldest cell that waits to be written goes to a free row of the bank with the most free cells (R126). -/
theorem exec_cellWrite_writes {ingress : Nat} {cls : BasinClass} {busy : List Nat} {c : Stored} {b : Nat × Nat} {r : Nat}
    (hwaits : (s.advance dt).basin.stored.find?
      (fun c => c.ingress == ingress && c.cls == cls && !c.targets.isEmpty && decide (c.ptrs.length < c.n)) = some c)
    (hbank : bestBank (s.advance dt) busy 64 = some b) (hrow : freeRow (s.advance dt) b.1 = some r) :
    exec (.cellWrite dt ingress cls busy) s = .next (writeCell (s.advance dt) c (64 * r + b.1)) := by
  show execCellWrite dt ingress cls busy s = _
  rw [execCellWrite, run_next _ hrun, withSome_some _ hwaits, withSome_some _ hbank, withSome_some _ hrow]

/-- An egress port reads the next cell of its message; what the read finds is counted first (R138, R146), and as long as
that does not stop the Basin the read goes on with the mark it leaves on the message. -/
theorem exec_cellRead_reads {egress ptr : Nat} {err : CellError} {r : Reading} (hgoes : (s.advance dt).basin.stopped = false)
    (hreads : (s.advance dt).basin.reading.find? (fun r => r.egress == egress) = some r)
    (hnext : nextCell (s.advance dt) r = some ptr) (hon : (readError (s.advance dt) err).basin.stopped = false) :
    exec (.cellRead dt egress ptr err) s
      = .next (stallAgain (readStep (readError (s.advance dt) err)
          { r with dropped := r.dropped || err == .unitHeader, poison := r.poison || err == .unitData }) egress) := by
  show execCellRead dt egress ptr err s = _
  rw [execCellRead, run_next _ hrun, if_neg (by simp only [hgoes, Bool.false_eq_true, not_false_eq_true]), withSome_some _ hreads,
    if_neg (not_not_intro hnext)]
  simp only [hon, Bool.false_eq_true, if_false]

/-- A stall episode of a busy egress port that has lasted `BASIN.STALL_LIMIT` is counted and raised (R142). -/
theorem exec_stall_raises {egress t : Nat} (hsince : assocGet (s.advance dt).basin.stallSince egress = some t)
    (hlong : t + (s.advance dt).reg Obj.BASIN_STALL_LIMIT * 1000 ≤ (s.advance dt).now)
    (hbusy : (s.advance dt).egressBusy egress = true) :
    exec (.stall dt egress) s = .next (raise ((setStall (s.advance dt) egress false).count1 Obj.BASIN_STALLS egress) 5 8) := by
  show execStall dt egress s = _
  rw [execStall, run_next _ hrun, withSome_some _ hsince, if_pos ⟨hlong, hbusy⟩]

/-- A write of `BASIN.LOW_FREE` that is served sets it to the present free count, whatever the value written (R148). -/
theorem exec_lowFreeWrite_wrote {path : Path} {value : Nat}
    (htakes : takesWrite (s.advance dt) path Obj.BASIN_LOW_FREE none value = true) :
    exec (.lowFreeWrite dt path value) s
      = .next (wrote (s.advance dt) path Obj.BASIN_LOW_FREE none value
          fun t => t.setReg Obj.BASIN_LOW_FREE 0 (t.reg Obj.BASIN_FREE_CELLS)) := by
  show execLowFreeWrite dt path value s = _
  rw [execLowFreeWrite, run_next _ hrun, serveWrite_takes _ htakes]

/-- A message that may leave the receive pool of a Pass port is taken out of it and placed (R135, R190). -/
theorem exec_passPoolToBasin_places {port index : Nat} {m : PoolMsg} {r : State × PoolMsg}
    (hpool : ((s.advance dt).passPort port).rxPool[index]? = some m) (hmay : mayLeavePool (s.advance dt) port m = true)
    (htake : takePool (s.advance dt) port m.bytes = some r) :
    exec (.passPoolToBasin dt port index) s = .next (placeMessage r.1 port r.2) := by
  show execPassPoolToBasin dt port index s = _
  rw [execPassPoolToBasin, run_next _ hrun, withSome_some _ hpool, poolToBasin, if_pos hmay]
  simp only [htake]

end Running

/-- Settles O7: every store of the reset state is empty, hence canonical and read as its defaults, and the other clauses
are fields of the reset state. -/
theorem resetMeetsTheInvariant : Obligations.ResetMeetsTheInvariant :=
  ⟨State.reset_wf, Nat.le_refl 0, rfl, rfl, rfl, rfl, State.reset_reg⟩

/-- Settles O42: the clause of each command is its lemma above, with `u` the state after the time passed. -/
theorem basinComplete : Obligations.BasinComplete := by
  rintro dt s _ rfl hrun
  exact ⟨fun _ _ => exec_messageIngress_arrives hrun,
    fun _ _ _ => exec_openCellClose_closes hrun,
    fun _ _ _ _ => exec_cellAdmit_admits hrun,
    fun _ _ _ _ _ _ => exec_cellWrite_writes hrun,
    fun _ _ _ _ => exec_cellRead_reads hrun,
    fun _ _ => exec_stall_raises hrun,
    fun _ _ => exec_lowFreeWrite_wrote hrun,
    fun _ _ _ _ => exec_passPoolToBasin_places hrun⟩

end Sys2Proof.Machine
end

section
/-! Which units act in which power phase, and the block without power (O9). -/
namespace Sys2Proof.Machine

/-! ### The frames of R18 in a phase in which they do nothing -/

/-- A unit that works as long as there is power only lets time pass without it (R18). -/
theorem runPowered_idle {dt : Nat} {s : State} (f : State → State) (h : s.phase = .unpowered) :
    runPowered dt s f = .next (s.advance dt) := by
  show Host.Outcome.next (if (s.advance dt).phase = .unpowered then _ else _) = _
  rw [if_pos (show (s.advance dt).phase = .unpowered from h)]

/-- At an address that exists a Steppe command has the frame of every other (R195). -/
theorem atSteppe_inside {dt a : Nat} {s : State} (f : State → State) (h : a < steppeEnd) : atSteppe dt a s f = run dt s f :=
  if_pos h

theorem lt_steppeEnd_of_inside {a : Nat} (h : decide (steppeEnd ≤ a) = false) : a < steppeEnd :=
  Nat.lt_of_not_le (of_decide_eq_false h)

/-! ### The frame of every command -/

/-- Outside the always-on block and the supply there are two kinds of command: those of the units that work as long as there
is power, and those that act only while the block runs (R18, R443). -/
theorem exec_frame {c : Instr} (haon : alwaysOn c = false) (hinside : offSteppe c = false) :
    (withPower c = true ∧ ∃ f, ∀ s, exec c s = runPowered (cmdTime c) s f)
      ∨ (withPower c = false ∧ ∃ f, ∀ s, exec c s = run (cmdTime c) s f) := by
  cases c with
  | resetSlotTurnoff | vddAuxLow | powerOnResetRelease | internalResetRelease => cases haon
  | flitTx | sourceEvent | quietTimerExpiry | faultOutPulseEnd | presenceAssert | seated | removed | cooldownEnd | rampStart
  | gateOnComplete | faultTimerStart | faultTimerEnd | slowTrip | fastTrip | commandedGateOff | damageDetect | chipRstL
  | railOutOfWindow | railCollapse | presenceBreak | slotVinLow | railInWindow =>
    exact .inl ⟨rfl, _, fun _ => by unfold exec; rfl⟩
  | steppeRead | steppeWrite | scrubLine =>
    exact .inr ⟨rfl, _, fun _ => atSteppe_inside _ (lt_steppeEnd_of_inside hinside)⟩
  | _ => exact .inr ⟨rfl, _, fun _ => rfl⟩

/-- Settles O9: by its frame every command outside the always-on block and the supply only lets time pass without power. -/
theorem unpoweredBlockOnlyTellsTime : Obligations.UnpoweredBlockOnlyTellsTime := by
  intro c s hoff haon hinside
  obtain ⟨-, f, hf⟩ | ⟨-, f, hf⟩ := exec_frame haon hinside
  · rw [hf, runPowered_idle f hoff]
  · rw [hf, run_idle f (by rw [hoff]; decide)]

end Sys2Proof.Machine
end

section
/-! What the commands of the twin pair answer while the block runs (O51). -/
namespace Sys2Proof.Machine

section Running
variable {dt : Nat} {s : State} (hrun : s.phase = .running)
include hrun

/-! ### The messages on the Saddle links -/

/-- A `PAIR_INFO` of fewer than 62 entries has them compared and ends its series (R336; the end of a series: log entry 44). -/
theorem exec_pairInfo_ends {port : Nat} {msg : List Byte} {t : State} (htaken : takeTwin (s.advance dt) port 0x43 msg = some t)
    (hfew : leField msg 16 2 < 62) :
    exec (.pairInfo dt port msg) s = .next (endPairInfo (forEach (List.range (leField msg 16 2)) t (compareListed msg))) := by
  show execPairInfo dt port msg s = _
  rw [execPairInfo, run_next _ hrun, withSome_some _ htaken]
  simp only [Nat.min_eq_left hfew.le, if_pos hfew]

/-- A full `PAIR_INFO` has its 62 entries compared and is followed by another (R336; log entry 44). -/
theorem exec_pairInfo_full {port : Nat} {msg : List Byte} {t : State} (htaken : takeTwin (s.advance dt) port 0x43 msg = some t)
    (hfull : 62 ≤ leField msg 16 2) :
    exec (.pairInfo dt port msg) s = .next (forEach (List.range 62) t (compareListed msg)) := by
  show execPairInfo dt port msg s = _
  rw [execPairInfo, run_next _ hrun, withSome_some _ htaken]
  simp only [Nat.min_eq_right hfull, if_neg (Nat.lt_irrefl 62)]

/-- A mirrored write of a line this device holds a mirror copy of is stored (R340). -/
theorem exec_mirrorWr_writes {port i : Nat} {msg : List Byte} {t : State}
    (htaken : takeTwin (s.advance dt) port 0x40 msg = some t) (hcopy : t.mirrorCopy (leField msg 16 8 % 2 ^ 45) = some i) :
    exec (.mirrorWr dt port msg) s = .next (writeMirror t i msg) := by
  show execMirrorWr dt port msg s = _
  rw [execMirrorWr, run_next _ hrun, withSome_some _ htaken, hcopy]

/-- A mirrored write of any other line is discarded, counted and raised (R340). -/
theorem exec_mirrorWr_discards {port : Nat} {msg : List Byte} {t : State}
    (htaken : takeTwin (s.advance dt) port 0x40 msg = some t) (hcopy : t.mirrorCopy (leField msg 16 8 % 2 ^ 45) = none) :
    exec (.mirrorWr dt port msg) s = .next (raise (t.count1 Obj.TWIN_MIRROR_DISCARDS 0) 11 5) := by
  show execMirrorWr dt port msg s = _
  rw [execMirrorWr, run_next _ hrun, withSome_some _ htaken, hcopy]

/-- The records of a `LOG` message are applied in their order (R345). -/
theorem exec_log_applies {port : Nat} {msg : List Byte} {t : State} (htaken : takeTwin (s.advance dt) port 0x41 msg = some t) :
    exec (.log dt port msg) s = .next (forEach (logRecords msg) t applyRecord) := by
  show execLog dt port msg s = _
  rw [execLog, run_next _ hrun, withSome_some _ htaken]

/-- A `HEARTBEAT` is heard; its pair state and its count of agents are kept, and the regime and the pair are judged by them
(R293, R347, R348). -/
theorem exec_heartbeat_heard {port : Nat} {msg : List Byte} {t t1 : State}
    (htaken : takeTwin (s.advance dt) port 0x42 msg = some t) (hheard : t1 = heardPartner (countMissed t)) :
    exec (.heartbeat dt port msg) s
      = .next (evalPair (evalRegime ({ t1 with twin := { t1.twin with partnerState := leField msg 20 1 } }.setRegBits
          Obj.TWIN_STATE 0 0 8 (leField msg 21 1))) t.twin.partnerState) := by
  show execHeartbeat dt port msg s = _
  rw [execHeartbeat, run_next _ hrun, withSome_some _ htaken, hheard]

/-- A key for a keyed allocation that stands for one of the partner's is taken (R339). -/
theorem exec_keyXfer_takes {port i : Nat} {msg : List Byte} {t : State} (htaken : takeTwin (s.advance dt) port 0x44 msg = some t)
    (halloc : t.allocAt (leField msg 16 4) = some i) (hrole : t.allocRole i ≠ 0) (hkeyed : t.allocKeyed i = true) :
    exec (.keyXfer dt port msg) s = .next (takeKey t i (slice msg 32 72)) := by
  show execKeyXfer dt port msg s = _
  rw [execKeyXfer, run_next _ hrun, withSome_some _ htaken, withSome_some _ halloc, if_pos ⟨hrole, hkeyed⟩]

/-- A line copied in a resynchronisation is stored in the mirror copy (R360). -/
theorem exec_resyncData_writes {port i : Nat} {msg : List Byte} {t : State}
    (htaken : takeTwin (s.advance dt) port 0x45 msg = some t) (hcopy : t.mirrorCopy (leField msg 16 8 % 2 ^ 45) = some i) :
    exec (.resyncData dt port msg) s = .next (writeMirror t i msg) := by
  show execResyncData dt port msg s = _
  rw [execResyncData, run_next _ hrun, withSome_some _ htaken, hcopy]

/-! ### The own heartbeat and the own log -/

/-- A heartbeat that is due leaves on every Saddle port that is Up, the pin turns, and the next is due in 10 µs (R346). -/
theorem exec_heartbeatSend_sends {d t : State} (hdue : (s.advance dt).due ⟨.heartbeat, 0, 0⟩ = true)
    (hd : d = (s.advance dt).disarm ⟨.heartbeat, 0, 0⟩)
    (ht : t = forEach ([56, 60].filter (fun p => d.isSaddle p && d.passUp p)) d (fun t p => sendOwn t p (heartbeatBytes d))) :
    exec (.heartbeatSend dt) s
      = .next ({ t with twin := { t.twin with hbSeq := (t.twin.hbSeq + 1) % 2 ^ 32, hbOut := !t.twin.hbOut } }.arm
          ⟨.heartbeat, 0, 0⟩ 10000) := by
  subst hd ht
  show execHeartbeatSend dt s = _
  rw [execHeartbeatSend, run_next _ hrun, onDue_due _ hdue]

/-- The records gathered for a Saddle port leave once its flush is due (R342). -/
theorem exec_logFlush_flushes :
    exec (.logFlush dt) s
      = .next (((s.advance dt).onDue ⟨.logFlush, 56, 0⟩ (fun t => flushLog t 56)).onDue ⟨.logFlush, 60, 0⟩
          (fun t => flushLog t 60)) := by
  show execLogFlush dt s = _
  rw [execLogFlush, run_next _ hrun]
  rfl

/-- A unit that may be marked Clean is marked so, and the log says it (R344). -/
theorem exec_unitClean_logs {unit : Nat} (hmay : mayClean (s.advance dt) unit = true) :
    exec (.unitClean dt unit) s
      = .next (addRecord { s.advance dt with twin := { (s.advance dt).twin with clean := unit :: (s.advance dt).twin.clean } }
          4 unit [] (unit % 2 == 1)) := by
  show execUnitClean dt unit s = _
  rw [execUnitClean, run_next _ hrun, if_pos hmay]

/-! ### Requests that wait for the twin -/

/-- With the line's mirror write acknowledged, or no mirroring, the answers that waited for it leave (R22, R24). -/
theorem exec_mirroredWriteComplete_answers {key : Nat}
    (hdone : (s.advance dt).mirrorPending key = false ∨ (s.advance dt).mirroring = false) :
    exec (.mirroredWriteComplete dt key) s
      = .next (settle (forEach (((s.advance dt).coh.mirrorWait.filter (fun w => w.msg.key == key)).map (fun w => w.msg))
          { s.advance dt with coh := { (s.advance dt).coh with
              mirrorWait := (s.advance dt).coh.mirrorWait.filter (fun w => w.msg.key != key) } } sendAnswer)) := by
  have hdone : ((s.advance dt).mirrorPending key && (s.advance dt).mirroring) = false := Bool.and_eq_false_iff.mpr hdone
  show execMirroredWriteComplete dt key s = _
  rw [execMirroredWriteComplete, run_next _ hrun, if_neg (ne_true_of_eq_false hdone)]

/-- With the announcement of a unit acknowledged, the requests that waited for it go on (R344). -/
theorem exec_unitDirtyAcked_goesOn {unit : Nat} (hacked : (s.advance dt).dirtyPending unit = false) :
    exec (.unitDirtyAcked dt unit) s = .next (settle (s.advance dt)) := by
  show execUnitDirtyAcked dt unit s = _
  rw [execUnitDirtyAcked, run_next _ hrun, if_neg (ne_true_of_eq_false hacked)]

/-! ### The judgement of the partner -/

/-- No heartbeat by message and none by pin: the partner is lost (R347). -/
theorem exec_messageSignalSilent_lost {t : State} (hdue : (s.advance dt).due ⟨.msgSilent, 0, 0⟩ = true)
    (ht : t = ((s.advance dt).disarm ⟨.msgSilent, 0, 0⟩).putRegBit Obj.TWIN_STATE 0 26 false) (hpin : t.pinAlive = false) :
    exec (.messageSignalSilent dt) s = .next (partnerLost t) := by
  subst ht
  show execMessageSignalSilent dt s = _
  rw [execMessageSignalSilent, run_next _ hrun, onDue_due _ hdue]
  exact congrArg _ (if_neg (ne_true_of_eq_false hpin))

/-- No heartbeat by message in a mirrored pair whose pin lives: the Saddle link is lost, and the pair is split (R347). -/
theorem exec_messageSignalSilent_splits {t : State} (hdue : (s.advance dt).due ⟨.msgSilent, 0, 0⟩ = true)
    (ht : t = ((s.advance dt).disarm ⟨.msgSilent, 0, 0⟩).putRegBit Obj.TWIN_STATE 0 26 false) (hpin : t.pinAlive = true)
    (hpair : t.pairState = 3) :
    exec (.messageSignalSilent dt) s = .next (settle (enterSplit t)) := by
  subst ht
  show execMessageSignalSilent dt s = _
  rw [execMessageSignalSilent, run_next _ hrun, onDue_due _ hdue]
  exact congrArg _ ((if_pos hpin).trans (if_pos (.inr hpair)))

/-- A silent pin beside messages that arrive is a fault of the pin alone (R347). -/
theorem exec_pinSignalSilent_raises {t : State} (hdue : (s.advance dt).due ⟨.pinSilent, 0, 0⟩ = true)
    (ht : t = ((s.advance dt).disarm ⟨.pinSilent, 0, 0⟩).putRegBit Obj.TWIN_STATE 0 25 false) (hmsg : t.msgAlive = true) :
    exec (.pinSignalSilent dt) s = .next (raise t 11 4) := by
  subst ht
  show execPinSignalSilent dt s = _
  rw [execPinSignalSilent, run_next _ hrun, onDue_due _ hdue]
  exact congrArg _ (if_pos hmsg)

/-- A silent pin with no messages: the partner is lost (R347). -/
theorem exec_pinSignalSilent_lost {t : State} (hdue : (s.advance dt).due ⟨.pinSilent, 0, 0⟩ = true)
    (ht : t = ((s.advance dt).disarm ⟨.pinSilent, 0, 0⟩).putRegBit Obj.TWIN_STATE 0 25 false) (hmsg : t.msgAlive = false) :
    exec (.pinSignalSilent dt) s = .next (partnerLost t) := by
  subst ht
  show execPinSignalSilent dt s = _
  rw [execPinSignalSilent, run_next _ hrun, onDue_due _ hdue]
  exact congrArg _ (if_neg (ne_true_of_eq_false hmsg))

/-- An edge of the partner's heartbeat pin keeps the pin alive for 30 µs, and the pair is judged again (R347). -/
theorem exec_twinHbInEdge_judges :
    exec (.twinHbInEdge dt) s
      = .next (evalPair (((s.advance dt).putRegBit Obj.TWIN_STATE 0 25 true).arm ⟨.pinSilent, 0, 0⟩ 30000)
          (s.advance dt).twin.partnerState) := by
  show execTwinHbInEdge dt s = _
  rw [execTwinHbInEdge, run_next _ hrun]

/-! ### Takeover and the end of a resynchronisation -/

/-- A takeover with nothing left of the lost twin to apply serves its memory (R350). -/
theorem exec_takeoverServe_serves (htakeover : (s.advance dt).twin.takeover = true) (hpair : (s.advance dt).pairState = 5)
    (hdrained : drainLeft (s.advance dt) = false) :
    exec (.takeoverServe dt) s = .next (serveTakeover (s.advance dt)) := by
  show execTakeoverServe dt s = _
  rw [execTakeoverServe, run_next _ hrun, if_pos (by rw [htakeover, hpair, hdrained]; rfl)]

/-- A write of `TWIN.DECLARE_LOST` that is served begins a takeover (R357). -/
theorem exec_declareLost_wrote {path : Path} (htakes : takesWrite (s.advance dt) path Obj.TWIN_DECLARE_LOST none 1 = true) :
    exec (.declareLost dt path) s
      = .next (wrote (s.advance dt) path Obj.TWIN_DECLARE_LOST none 1 (fun t => beginTakeover t true)) := by
  show execDeclareLost dt path s = _
  rw [execDeclareLost, run_next _ hrun, serveWrite_takes _ htakes]

/-- A write of `TWIN.ALIAS_END` that is served ends the alias (R354). -/
theorem exec_aliasEnd_wrote {path : Path} (htakes : takesWrite (s.advance dt) path Obj.TWIN_ALIAS_END none 1 = true) :
    exec (.aliasEnd dt path) s = .next (wrote (s.advance dt) path Obj.TWIN_ALIAS_END none 1 endAlias) := by
  show execAliasEnd dt path s = _
  rw [execAliasEnd, run_next _ hrun, serveWrite_takes _ htakes]

/-- The last line of a resynchronisation has been copied (R360; the copy walk: log entry 45). -/
theorem exec_resyncCopyDone_ends (hpair : (s.advance dt).pairState = 2) :
    exec (.resyncCopyDone dt) s = .next (resyncDone (s.advance dt)) := by
  show execResyncCopyDone dt s = _
  rw [execResyncCopyDone, run_next _ hrun, if_pos hpair]

end Running

/-- Settles O51: the clause of each command is its lemma above, with `u` the state after the time passed. -/
theorem twinMessagesComplete : Obligations.TwinMessagesComplete := by
  rintro dt s _ rfl hrun
  exact ⟨fun _ _ _ => exec_pairInfo_ends hrun,
    fun _ _ _ => exec_pairInfo_full hrun,
    fun _ _ _ _ => exec_mirrorWr_writes hrun,
    fun _ _ _ => exec_mirrorWr_discards hrun,
    fun _ _ _ => exec_log_applies hrun,
    fun _ _ _ _ => exec_heartbeat_heard hrun,
    fun _ _ => exec_heartbeatSend_sends hrun,
    fun _ _ _ _ => exec_keyXfer_takes hrun,
    fun _ _ _ _ => exec_resyncData_writes hrun,
    fun _ => exec_mirroredWriteComplete_answers hrun,
    exec_logFlush_flushes hrun,
    fun _ => exec_unitClean_logs hrun,
    fun _ => exec_unitDirtyAcked_goesOn hrun,
    fun _ => exec_messageSignalSilent_lost hrun,
    fun _ => exec_messageSignalSilent_splits hrun,
    fun _ => exec_pinSignalSilent_raises hrun,
    fun _ => exec_pinSignalSilent_lost hrun,
    exec_takeoverServe_serves hrun,
    fun _ => exec_declareLost_wrote hrun,
    fun _ => exec_aliasEnd_wrote hrun,
    exec_resyncCopyDone_ends hrun,
    exec_twinHbInEdge_judges hrun⟩

end Sys2Proof.Machine
end

section
/-! What every command leaves as it is (O5, O14), and the queue it stands in (O1, O2). -/
namespace Sys2Proof.Machine

/-! ### The frame of every command -/

/-- What the lists of Safety.lean say a command leaves as it is. -/
def leftAlone (c : Instr) : Stands :=
  ⟨bif mayStore c then False else True, bif mayFlash c then False else True, bif sparesRegs c then True else False,
    bif mayEndRun c then False else True⟩

/-- Every command lets its time pass, keeps what `Keeps` says, and leaves as it is what the lists of Safety.lean say: the
case of each command is the lemma about its meaning. -/
theorem exec_moves (c : Instr) (s : State) : Moves (leftAlone c) (cmdTime c) s (exec c s) := by
  cases c with
  | kdpDatagram => apply execKdpDatagram_moves
  | arpFrame => apply execArpFrame_moves
  | icmpEcho => apply execIcmpEcho_moves
  | ethFrameDrop => apply execEthFrameDrop_moves
  | linkLocalAnnounce => apply execLinkLocalAnnounce_moves
  | mctpMessage => apply execMctpMessage_moves
  | i3cAddressAssign => apply execI3cAddressAssign_moves
  | setEndpointId => apply execSetEndpointId_moves
  | getEndpointId => apply execGetEndpointId_moves
  | getMctpVersionSupport => apply execGetMctpVersionSupport_moves
  | getMessageTypeSupport => apply execGetMessageTypeSupport_moves
  | getVendorDefinedMessageSupport => apply execGetVendorDefinedMessageSupport_moves
  | dictionaryAccess => apply execDictionaryAccess_moves
  | takeMessage => apply execTakeMessage_moves
  | read => apply execRead_moves
  | write => apply execWrite_moves
  | readStaged => apply execReadStaged_moves
  | describe => apply execDescribe_moves
  | commit => apply execCommit_moves
  | commitApplied => apply execCommitApplied_moves
  | discard => apply execDiscard_moves
  | recoveryWriteResume => apply execRecoveryWriteResume_moves
  | identify => apply execIdentify_moves
  | backgroundOperationStatus => apply execBackgroundOperationStatus_moves
  | getResponseMessageLimit => apply execGetResponseMessageLimit_moves
  | setResponseMessageLimit => apply execSetResponseMessageLimit_moves
  | getEventRecords => apply execGetEventRecords_moves
  | clearEventRecords => apply execClearEventRecords_moves
  | getTimestamp => apply execGetTimestamp_moves
  | setTimestamp => apply execSetTimestamp_moves
  | identifySwitchDevice => apply execIdentifySwitchDevice_moves
  | getPhysicalPortState => apply execGetPhysicalPortState_moves
  | physicalPortControl => apply execPhysicalPortControl_moves
  | sendPpbCxlIoConfigurationRequest => apply execSendPpbCxlIoConfigurationRequest_moves
  | getVirtualCxlSwitchInfo => apply execGetVirtualCxlSwitchInfo_moves
  | bindVppb => apply execBindVppb_moves
  | unbindVppb => apply execUnbindVppb_moves
  | generateAerEvent => apply execGenerateAerEvent_moves
  | tunnelManagementCommand => apply execTunnelManagementCommand_moves
  | sendLdCxlIoConfigurationRequest => apply execSendLdCxlIoConfigurationRequest_moves
  | sendLdCxlIoMemoryRequest => apply execSendLdCxlIoMemoryRequest_moves
  | unsupportedOpcode => apply execUnsupportedOpcode_moves
  | slackPosition => apply execSlackPosition_moves
  | ebError => apply execEbError_moves
  | adaptationStep => apply execAdaptationStep_moves
  | sat => apply execSat_moves
  | restore => apply execRestore_moves
  | marginMeasurement => apply execMarginMeasurement_moves
  | marginReq => apply execMarginReq_moves
  | marginReqDone => apply execMarginReqDone_moves
  | prbsStart => apply execPrbsStart_moves
  | prbsClear => apply execPrbsClear_moves
  | prbsLock => apply execPrbsLock_moves
  | prbsLockLoss => apply execPrbsLockLoss_moves
  | portTest => apply execPortTest_moves
  | reserveSelfTest => apply execReserveSelfTest_moves
  | reserveSelfTestEnd => apply execReserveSelfTestEnd_moves
  | swap => apply execSwap_moves
  | revert => apply execRevert_moves
  | transceiverSelfCheckFail => apply execTransceiverSelfCheckFail_moves
  | swapShadowTrained => apply execSwapShadowTrained_moves
  | swapSwitch => apply execSwapSwitch_moves
  | referenceGate => apply execReferenceGate_moves
  | referenceStopped => apply execReferenceStopped_moves
  | hostPerst _ _ hot => exact execHostPerst_moves _ _ hot _
  | perstDeassert => apply execPerstDeassert_moves
  | functionLevelReset => apply execFunctionLevelReset_moves
  | edgeLinkUp => apply execEdgeLinkUp_moves
  | fabricRetrain => apply execFabricRetrain_moves
  | hostLinkDown => apply execHostLinkDown_moves
  | graceExpiry => apply execGraceExpiry_moves
  | downstreamLinkDown => apply execDownstreamLinkDown_moves
  | ldIdentityRead => apply execLdIdentityRead_moves
  | bindComplete => apply execBindComplete_moves
  | ideIntegrityFail => apply execIdeIntegrityFail_moves
  | ideKeyExchangeDone => apply execIdeKeyExchangeDone_moves
  | ideRefresh => apply execIdeRefresh_moves
  | pbrFlit => apply execPbrFlit_moves
  | hdmDecoderCommit => apply execHdmDecoderCommit_moves
  | hostM2sReq => apply execHostM2sReq_moves
  | hostM2sRwd => apply execHostM2sRwd_moves
  | hostBirsp => apply execHostBirsp_moves
  | birspForward => apply execBirspForward_moves
  | biconflict => apply execBiconflict_moves
  | biconflictAck => apply execBiconflictAck_moves
  | powerControllerControl => apply execPowerControllerControl_moves
  | messageIngress => apply execMessageIngress_moves
  | openCellClose => apply execOpenCellClose_moves
  | cellAdmit => apply execCellAdmit_moves
  | cellWrite => apply execCellWrite_moves
  | cellRead => apply execCellRead_moves
  | stall => apply execStall_moves
  | lowFreeWrite => apply execLowFreeWrite_moves
  | passPoolToBasin => apply execPassPoolToBasin_moves
  | egressSelect => apply execEgressSelect_moves
  | queueEligible => apply execQueueEligible_moves
  | shaperWrite => apply execShaperWrite_moves
  | groupRebindDone => apply execGroupRebindDone_moves
  | flitTx => apply execFlitTx_moves
  | flitRx => apply execFlitRx_moves
  | ackTimer => apply execAckTimer_moves
  | replayTimer => apply execReplayTimer_moves
  | receiverDetect => apply execReceiverDetect_moves
  | detectTimeout => apply execDetectTimeout_moves
  | trainingFrame => apply execTrainingFrame_moves
  | trainingPhaseTimeout => apply execTrainingPhaseTimeout_moves
  | trainingIdleEnd => apply execTrainingIdleEnd_moves
  | configTimeout => apply execConfigTimeout_moves
  | recoveryTimeout => apply execRecoveryTimeout_moves
  | laneLockLoss => apply execLaneLockLoss_moves
  | goingDown => apply execGoingDown_moves
  | passMessage => apply execPassMessage_moves
  | hello => apply execHello_moves
  | route => apply execRoute_moves
  | routeSend => apply execRouteSend_moves
  | routeEntryClear => apply execRouteEntryClear_moves
  | routeRecompute => apply execRouteRecompute_moves
  | probeSend => apply execProbeSend_moves
  | probe => apply execProbe_moves
  | probeReply => apply execProbeReply_moves
  | replayBufferUe => apply execReplayBufferUe_moves
  | steppeRead => apply execSteppeRead_moves
  | steppeWrite => apply execSteppeWrite_moves
  | steppeInit => apply execSteppeInit_moves
  | steppeReady => apply execSteppeReady_moves
  | scrubLine => apply execScrubLine_moves
  | scrubPassStart => apply execScrubPassStart_moves
  | scrubPassEnd => apply execScrubPassEnd_moves
  | scrubLate => apply execScrubLate_moves
  | spareRowStart => apply execSpareRowStart_moves
  | spareRowDone => apply execSpareRowDone_moves
  | steppeSpareCmd => apply execSteppeSpareCmd_moves
  | remapSave => apply execRemapSave_moves
  | sanitize => apply execSanitize_moves
  | stackTemp => apply execStackTemp_moves
  | innerCorrectionReport => apply execInnerCorrectionReport_moves
  | xlate => apply execXlate_moves
  | noticeWindowClose => apply execNoticeWindowClose_moves
  | memAddrWrite => apply execMemAddrWrite_moves
  | memDataRead => apply execMemDataRead_moves
  | memDataWrite => apply execMemDataWrite_moves
  | releaseSweepDone => apply execReleaseSweepDone_moves
  | rdShared => apply execRdShared_moves
  | rdOwn => apply execRdOwn_moves
  | rdCur => apply execRdCur_moves
  | upgrade => apply execUpgrade_moves
  | wrFull => apply execWrFull_moves
  | wrPtl => apply execWrPtl_moves
  | writeback => apply execWriteback_moves
  | writebackPtl => apply execWritebackPtl_moves
  | evictClean => apply execEvictClean_moves
  | snpInv => apply execSnpInv_moves
  | snpData => apply execSnpData_moves
  | snpCur => apply execSnpCur_moves
  | data => apply execData_moves
  | cmp => apply execCmp_moves
  | nack => apply execNack_moves
  | snpRsp => apply execSnpRsp_moves
  | retry => apply execRetry_moves
  | movedRetry => apply execMovedRetry_moves
  | holdWindowExpiry => apply execHoldWindowExpiry_moves
  | agedServe => apply execAgedServe_moves
  | agedEntryDrop => apply execAgedEntryDrop_moves
  | snoopTimeout => apply execSnoopTimeout_moves
  | suspectLimit => apply execSuspectLimit_moves
  | declareDead => apply execDeclareDead_moves
  | sweepPassStart => apply execSweepPassStart_moves
  | sweepPassEnd => apply execSweepPassEnd_moves
  | transactionTimeout => apply execTransactionTimeout_moves
  | tagHoldExpiry => apply execTagHoldExpiry_moves
  | loadWindowEnd => apply execLoadWindowEnd_moves
  | sliceQuiescent => apply execSliceQuiescent_moves
  | epochChange => apply execEpochChange_moves
  | portAgentMapUpdate => apply execPortAgentMapUpdate_moves
  | leaseDrainExpiry => apply execLeaseDrainExpiry_moves
  | forcedMoveRetry => apply execForcedMoveRetry_moves
  | leaseHoldoffExpiry => apply execLeaseHoldoffExpiry_moves
  | backgroundItem => apply execBackgroundItem_moves
  | itemSteal => apply execItemSteal_moves
  | colSpareCmd => apply execColSpareCmd_moves
  | roleEmptied => apply execRoleEmptied_moves
  | ucodeLoad => apply execUcodeLoad_moves
  | imemScrub => apply execImemScrub_moves
  | hashLookup => apply execHashLookup_moves
  | pairInfo => apply execPairInfo_moves
  | mirrorWr => apply execMirrorWr_moves
  | log => apply execLog_moves
  | heartbeat => apply execHeartbeat_moves
  | heartbeatSend => apply execHeartbeatSend_moves
  | keyXfer => apply execKeyXfer_moves
  | resyncData => apply execResyncData_moves
  | mirroredWriteComplete => apply execMirroredWriteComplete_moves
  | logFlush => apply execLogFlush_moves
  | unitClean => apply execUnitClean_moves
  | unitDirtyAcked => apply execUnitDirtyAcked_moves
  | messageSignalSilent => apply execMessageSignalSilent_moves
  | pinSignalSilent => apply execPinSignalSilent_moves
  | takeoverServe => apply execTakeoverServe_moves
  | declareLost => apply execDeclareLost_moves
  | aliasEnd => apply execAliasEnd_moves
  | resyncCopyDone => apply execResyncCopyDone_moves
  | tenancyReset => apply execTenancyReset_moves
  | tenancyResetStart => apply execTenancyResetStart_moves
  | tenancyResetEnd => apply execTenancyResetEnd_moves
  | dlogClearDone => apply execDlogClearDone_moves
  | dlogTake => apply execDlogTake_moves
  | outDataWrite => apply execOutDataWrite_moves
  | outDoorbell => apply execOutDoorbell_moves
  | inTake => apply execInTake_moves
  | inDataWrite => apply execInDataWrite_moves
  | inSend => apply execInSend_moves
  | outTake => apply execOutTake_moves
  | summaryEvent => apply execSummaryEvent_moves
  | fmPairRequest => apply execFmPairRequest_moves
  | fmPairPost => apply execFmPairPost_moves
  | glenStart => apply execGlenStart_moves
  | glenStop => apply execGlenStop_moves
  | glenRing => apply execGlenRing_moves
  | chPointerWrite => apply execChPointerWrite_moves
  | descAreaWrite => apply execDescAreaWrite_moves
  | chanCmdStop => apply execChanCmdStop_moves
  | descriptorFetch => apply execDescriptorFetch_moves
  | glenTurn => apply execGlenTurn_moves
  | sourceData => apply execSourceData_moves
  | descriptorWriteBack => apply execDescriptorWriteBack_moves
  | sourceEvent => apply execSourceEvent_moves
  | quietTimerExpiry => apply execQuietTimerExpiry_moves
  | faultOutPulseEnd => apply execFaultOutPulseEnd_moves
  | faultEventTimer => apply execFaultEventTimer_moves
  | trapSaveDone => apply execTrapSaveDone_moves
  | force => apply execForce_moves
  | sourceClear => apply execSourceClear_moves
  | recoveriesClear => apply execRecoveriesClear_moves
  | holdWrite => apply execHoldWrite_moves
  | intervalBoundary => apply execIntervalBoundary_moves
  | dumpWrite => apply execDumpWrite_moves
  | dumpDataRead => apply execDumpDataRead_moves
  | progSelect => apply execProgSelect_moves
  | tlmRead => apply execTlmRead_moves
  | tlmMark => apply execTlmMark_moves
  | tlmRewind => apply execTlmRewind_moves
  | tlmRelease => apply execTlmRelease_moves
  | tlmRecordOffer => apply execTlmRecordOffer_moves
  | timeSet => apply execTimeSet_moves
  | watermarkWrite => apply execWatermarkWrite_moves
  | presenceAssert => apply execPresenceAssert_moves
  | seated => apply execSeated_moves
  | removed => apply execRemoved_moves
  | cooldownEnd => apply execCooldownEnd_moves
  | rampStart => apply execRampStart_moves
  | gateOnComplete => apply execGateOnComplete_moves
  | faultTimerStart => apply execFaultTimerStart_moves
  | faultTimerEnd => apply execFaultTimerEnd_moves
  | slowTrip => apply execSlowTrip_moves
  | fastTrip => apply execFastTrip_moves
  | slotCtrlWrite => apply execSlotCtrlWrite_moves
  | commandedGateOff => apply execCommandedGateOff_moves
  | damageDetect => apply execDamageDetect_moves
  | damagedClear => apply execDamagedClear_moves
  | resetSlotTurnoff => apply execResetSlotTurnoff_moves
  | vddAuxLow => apply execVddAuxLow_moves
  | powerOnResetRelease => apply execPowerOnResetRelease_moves
  | chipRstL => apply execChipRstL_moves
  | chipReset => apply execChipReset_moves
  | internalResetRelease => apply execInternalResetRelease_moves
  | imageAuthenticate => apply execImageAuthenticate_moves
  | bootWatchdogExpiry => apply execBootWatchdogExpiry_moves
  | erase => apply execErase_moves
  | eraseDone => apply execEraseDone_moves
  | verify => apply execVerify_moves
  | verifyDone => apply execVerifyDone_moves
  | activate => apply execActivate_moves
  | activateAndLoadLive => apply execActivateAndLoadLive_moves
  | updateData => apply execUpdateData_moves
  | svnAdvance => apply execSvnAdvance_moves
  | keyRevoke => apply execKeyRevoke_moves
  | requestService => apply execRequestService_moves
  | requestTest => apply execRequestTest_moves
  | requestRecovery => apply execRequestRecovery_moves
  | requestDeployed => apply execRequestDeployed_moves
  | requestFieldReturn => apply execRequestFieldReturn_moves
  | debugUnlock => apply execDebugUnlock_moves
  | debugAccess => apply execDebugAccess_moves
  | jtagInstruction => apply execJtagInstruction_moves
  | railOutOfWindow => apply execRailOutOfWindow_moves
  | railCollapse => apply execRailCollapse_moves
  | tjSensorRead => apply execTjSensorRead_moves
  | tjWarn => apply execTjWarn_moves
  | tjCrit => apply execTjCrit_moves
  | wearMeasurement => apply execWearMeasurement_moves
  | vidStep => apply execVidStep_moves
  | wearRecordSave => apply execWearRecordSave_moves
  | lifeAccounting => apply execLifeAccounting_moves
  | fabricLinkDown => apply execFabricLinkDown_moves
  | attentionButton => apply execAttentionButton_moves
  | doeRequest => apply execDoeRequest_moves
  | completionTimeout => apply execCompletionTimeout_moves
  | presenceBreak => apply execPresenceBreak_moves
  | slotVinLow => apply execSlotVinLow_moves
  | twinHbInEdge => apply execTwinHbInEdge_moves
  | ethLinkDown => apply execEthLinkDown_moves
  | railInWindow => apply execRailInWindow_moves
  | meadowPairRestarted => apply execMeadowPairRestarted_moves

/-- Settles O5: both are kept by every command. -/
theorem outputsOnlyGrow : Obligations.OutputsOnlyGrow := fun c s t h =>
  have hkeeps := exec_moves c s t h
  ⟨hkeeps.out, hkeeps.free⟩

/-- Settles O14: a command of the list leaves the whole register store as it is. -/
theorem registerFrame : Obligations.RegisterFrame := by
  intro c s t hspares h a e
  have hlisted : (leftAlone c).regs := by simp only [leftAlone, hspares, cond_true]
  have hregs : t.regs = s.regs := (exec_moves c s t h).regs hlisted
  rw [State.reg, hregs, State.reg]

/-! ### The queue -/

/-- A step with a command at the front runs it on the state with the queue's rest. -/
theorem step_cons {s : State} {c : Instr} {rest : List Instr} (hfront : s.pending = c :: rest) :
    step s = exec c { s with pending := rest } := by
  rw [step, hfront]

/-- A step on an empty queue is what the block does by itself. -/
theorem step_nil {s : State} (hempty : s.pending = []) : step s = .next (idleTick s) := by
  rw [step, hempty]

/-- With no event message that waits the block idles. -/
theorem idleTick_none {s : State} (hnone : s.mgmt.i3cEvents = []) : idleTick s = s := by
  rw [idleTick, hnone]

/-- Firmware that serves sends the oldest event message that waits (R57, log entry 1). -/
theorem idleTick_sends {s : State} {m : List Byte} {rest : List (List Byte)} (hwaits : s.mgmt.i3cEvents = m :: rest)
    (hrun : s.phase = .running) (hserves : s.serving = true) :
    idleTick s = sendMctp { s with mgmt := { s.mgmt with i3cEvents := rest } } (mctpBody s m) := by
  rw [idleTick, hwaits]
  exact if_pos ⟨hrun, hserves⟩

/-- What the block does by itself puts no command into the queue. -/
theorem idleTick_pending (s : State) : (idleTick s).pending = s.pending :=
  (idleTick_keeps s (Keeps.refl s ⟨False, False, False, False⟩)).pending

/-- A step takes exactly one command off the queue: neither a command nor the idle block changes what is left. -/
theorem step_pending {s t : State} (h : step s = .next t) : t.pending = s.pending.tail := by
  cases hq : s.pending with
  | nil =>
    rw [step_nil hq] at h
    cases h
    rw [idleTick_pending, hq, List.tail_nil]
  | cons c rest =>
    rw [step_cons hq] at h
    exact (exec_moves c _ t h).pending

/-- Settles O1: it is the step's own case of a queue that is not empty. -/
theorem stepRunsTheFrontCommand : Obligations.StepRunsTheFrontCommand := fun _ _ _ => step_cons

/-- Settles O2: the two cases of the idle block, and what a step leaves of the queue. -/
theorem queueIsFirstInFirstOut : Obligations.QueueIsFirstInFirstOut :=
  ⟨fun _ hempty hnone => by rw [step_nil hempty, idleTick_none hnone],
    fun _ _ _ hempty hwaits hrun hserves => by rw [step_nil hempty, idleTick_sends hwaits hrun hserves],
    fun _ _ => step_pending⟩

end Sys2Proof.Machine
end

section
/-! Subindex 0 and the staging area of the object dictionary (O22, O25). -/
namespace Sys2Proof.Machine

/-! ### Subindex 0 -/

/-- The highest subindex at an index among the rows `l`, or `m` where none is above it: the fold behind `highestSub`. -/
def highestSubOf (index : Nat) (l : List ObjDef) (m : Nat) : Nat :=
  l.foldl (fun m o => if o.addr / 256 = index then max m (o.addr % 256) else m) m

theorem highestSub_eq (index : Nat) : highestSub index = highestSubOf index (objsOf (index / 256)) 0 := rfl

theorem highestSubOf_cons (index : Nat) (o : ObjDef) (l : List ObjDef) (m : Nat) :
    highestSubOf index (o :: l) m = highestSubOf index l (if o.addr / 256 = index then max m (o.addr % 256) else m) := rfl

/-- The fold never falls below the value it begins with. -/
theorem le_highestSubOf (index : Nat) (l : List ObjDef) (m : Nat) : m ≤ highestSubOf index l m := by
  induction l generalizing m with
  | nil => exact Nat.le_refl m
  | cons o l ih =>
    rw [highestSubOf_cons]
    refine Nat.le_trans ?_ (ih _)
    split
    · exact Nat.le_max_left ..
    · exact Nat.le_refl m

/-- No row of the index has a higher subindex. -/
theorem sub_le_highestSubOf {index : Nat} {l : List ObjDef} {o : ObjDef} (ho : o ∈ l) (hindex : o.addr / 256 = index) (m : Nat) :
    o.addr % 256 ≤ highestSubOf index l m := by
  induction l generalizing m with
  | nil => cases ho
  | cons x l ih =>
    rw [highestSubOf_cons]
    cases ho with
    | head =>
      rw [if_pos hindex]
      exact Nat.le_trans (Nat.le_max_right ..) (le_highestSubOf index l _)
    | tail _ ho => exact ih ho _

/-- The fold ends at the value it begins with or at the subindex of a row of the index. -/
theorem highestSubOf_attained (index : Nat) (l : List ObjDef) (m : Nat) :
    highestSubOf index l m = m ∨ ∃ o ∈ l, o.addr / 256 = index ∧ o.addr % 256 = highestSubOf index l m := by
  induction l generalizing m with
  | nil => exact .inl rfl
  | cons x l ih =>
    rw [highestSubOf_cons]
    obtain hstart | ⟨o, ho, hindex, hsub⟩ := ih (if x.addr / 256 = index then max m (x.addr % 256) else m)
    · rw [hstart]
      split
      next hx =>
        obtain hm | hm := Nat.le_total m (x.addr % 256)
        · exact .inr ⟨x, List.mem_cons_self, hx, (Nat.max_eq_right hm).symm⟩
        · exact .inl (Nat.max_eq_left hm)
      next => exact .inl rfl
    · exact .inr ⟨o, List.mem_cons_of_mem _ ho, hindex, hsub⟩

/-- The rows of an address are those of its index's first byte. -/
theorem objsOf_addr {index sub : Nat} (hsub : sub < 256) : objsOf ((index * 256 + sub) / 65536) = objsOf (index / 256) :=
  congrArg objsOf (by omega)

/-- A row found at an address is one of its index, with the subindex asked for. -/
theorem mem_of_findObj {index sub : Nat} {o : ObjDef} (hsub : sub < 256) (h : findObj (index * 256 + sub) = some o) :
    o ∈ objsOf (index / 256) ∧ o.addr / 256 = index ∧ o.addr % 256 = sub := by
  rw [findObj, objsOf_addr hsub] at h
  have haddr : o.addr = index * 256 + sub := by simpa using List.find?_some h
  exact ⟨List.mem_of_find?_eq_some h, by omega, by omega⟩

/-- A row of an index is found at its address. -/
theorem findObj_of_mem {index : Nat} {o : ObjDef} (ho : o ∈ objsOf (index / 256)) (hindex : o.addr / 256 = index) :
    ∃ x, findObj (index * 256 + o.addr % 256) = some x := by
  rw [findObj, objsOf_addr (Nat.mod_lt _ (by decide))]
  exact Option.isSome_iff_exists.mp (List.find?_isSome.mpr ⟨o, ho, by rw [beq_iff_eq]; omega⟩)

/-- At an index not defined nothing is found (R36). -/
theorem lookupObj_undefined {index : Nat} (h : indexDefined index = false) (sub : Nat) : lookupObj index sub = .error .noObject := by
  simp only [lookupObj, h, Bool.not_false, if_true]

/-- Subindex 0 of a defined index is found (R34). -/
theorem lookupObj_zero {index : Nat} (h : indexDefined index = true) : lookupObj index 0 = .ok (subZero index) := by
  simp only [lookupObj, h, Bool.not_true, Bool.false_eq_true, if_false, if_true]

/-- A row at another subindex of a defined index is found. -/
theorem lookupObj_of_row {index sub : Nat} {o : ObjDef} (h : indexDefined index = true) (hsub : sub ≠ 0)
    (hrow : findObj (index * 256 + sub) = some o) : lookupObj index sub = .ok o := by
  simp only [lookupObj, h, Bool.not_true, Bool.false_eq_true, if_false, if_neg hsub, hrow]

/-- What is found at another subindex is a row of its address. -/
theorem row_of_lookupObj {index sub : Nat} {o : ObjDef} (h : indexDefined index = true) (hsub : sub ≠ 0)
    (hfound : lookupObj index sub = .ok o) : findObj (index * 256 + sub) = some o := by
  cases hrow : findObj (index * 256 + sub) with
  | none => simp [lookupObj, h, hsub, hrow] at hfound
  | some x => rw [lookupObj_of_row h hsub hrow] at hfound; cases hfound; rfl

/-- Every class reads the row of subindex 0 and none writes it. -/
theorem subZero_access (index : Nat) (c : Cls) : canRead c (subZero index) = true ∧ canWrite c (subZero index) = false := by
  cases c with
  | m => show bitAt 21 0 = true ∧ bitAt 21 1 = false; decide
  | o => show (bitAt 21 2 || bitAt 21 3) = true ∧ bitAt 21 3 = false; decide
  | t => show bitAt 21 4 = true ∧ bitAt 21 5 = false; decide

/-- Subindex 0 reads as the highest subindex of its index (R34). -/
theorem readObj_subZero (s : State) (index : Nat) : readObj s (subZero index).addr 0 = highestSub index := by
  have hindex : index * 256 / 256 = index := Nat.mul_div_cancel _ (by decide)
  show (if index * 256 % 256 = 0 then highestSub (index * 256 / 256) else _) = _
  rw [if_pos (Nat.mul_mod_left ..), hindex]

/-- The highest subindex of a defined index is found. -/
theorem lookupObj_highestSub {index : Nat} (h : indexDefined index = true) : ∃ o, lookupObj index (highestSub index) = .ok o := by
  obtain hzero | ⟨o, ho, hindex, hsub⟩ := highestSubOf_attained index (objsOf (index / 256)) 0
  · rw [highestSub_eq, hzero]
    exact ⟨_, lookupObj_zero h⟩
  · by_cases hzero : highestSub index = 0
    · rw [hzero]
      exact ⟨_, lookupObj_zero h⟩
    · obtain ⟨x, hx⟩ := findObj_of_mem ho hindex
      rw [hsub, ← highestSub_eq] at hx
      exact ⟨x, lookupObj_of_row h hzero hx⟩

/-- Nothing is found above the highest subindex. -/
theorem sub_le_highestSub {index sub : Nat} {o : ObjDef} (h : indexDefined index = true) (hsub : sub < 256)
    (hfound : lookupObj index sub = .ok o) : sub ≤ highestSub index := by
  by_cases hzero : sub = 0
  · exact hzero ▸ Nat.zero_le _
  · obtain ⟨ho, hindex, rfl⟩ := mem_of_findObj hsub (row_of_lookupObj h hzero hfound)
    rw [highestSub_eq]
    exact sub_le_highestSubOf ho hindex 0

/-- Settles O22: `highestSub` is attained by a row of the index and bounds all of them. -/
theorem subindexZero : Obligations.SubindexZero := fun s index =>
  ⟨fun h => ⟨subZero index, lookupObj_zero h, rfl, rfl, rfl, subZero_access index, readObj_subZero s index⟩,
    fun h => ⟨lookupObj_highestSub h, fun _ _ => sub_le_highestSub h⟩,
    lookupObj_undefined⟩

/-! ### The staging area -/

/-- The staging area once a value is staged: the other entries in their order, the new one last (R61). -/
theorem stageRecord_staged (s : State) (path : Path) (a : Nat) (e : Option Nat) (v : Nat) :
    (stageRecord s path a e v).mgmt.staged
      = s.mgmt.staged.filter (fun x => !(x.addr == a && x.elem == e)) ++ [⟨a, e, v, pathCode path, pathPort path⟩] := by
  rw [stageRecord, noteStaged]
  split <;> rfl

/-- Staging stores nothing in the memory or the flash. -/
theorem stageRecord_stores (s : State) (path : Path) (a : Nat) (e : Option Nat) (v : Nat) :
    (stageRecord s path a e v).mem = s.mem ∧ (stageRecord s path a e v).flash = s.flash := by
  rw [stageRecord, noteStaged]
  split <;> exact ⟨rfl, rfl⟩

/-- Staging writes no register but `STG.STATUS`. -/
theorem stageRecord_reg {s : State} (hwf : s.wf) (path : Path) (a : Nat) (e : Option Nat) (v : Nat) {b : Nat}
    (hb : b ≠ Obj.STG_STATUS) (i : Nat) : (stageRecord s path a e v).reg b i = s.reg b i := by
  rw [stageRecord, noteStaged]
  split
  · exact State.setReg_reg_ne (s := { s with mgmt := _ }) hwf (.inl hb.symm)
  · rfl

/-- What is staged at an address is the value staged last alone. -/
theorem stageRecord_only (s : State) (path : Path) (a : Nat) (e : Option Nat) (v : Nat) :
    (stageRecord s path a e v).mgmt.staged.filter (fun x => x.addr == a && x.elem == e)
      = [⟨a, e, v, pathCode path, pathPort path⟩] := by
  have hothers : (s.mgmt.staged.filter (fun x => !(x.addr == a && x.elem == e))).filter (fun x => x.addr == a && x.elem == e) = [] := by
    rw [List.filter_filter, List.filter_eq_nil_iff]
    intro x _
    rw [Bool.and_not_self]
    exact Bool.false_ne_true
  rw [stageRecord_staged, List.filter_append, hothers, List.nil_append]
  simp only [List.filter_cons, BEq.rfl, Bool.and_true, if_true, List.filter_nil]

/-- What is staged at other addresses stays staged. -/
theorem mem_stageRecord {s : State} {x : Staged} (hx : x ∈ s.mgmt.staged) (path : Path) {a : Nat} {e : Option Nat} (v : Nat)
    (hother : x.addr ≠ a ∨ x.elem ≠ e) : x ∈ (stageRecord s path a e v).mgmt.staged := by
  rw [stageRecord_staged]
  refine List.mem_append_left _ (List.mem_filter.mpr ⟨hx, ?_⟩)
  rw [Bool.not_eq_true', Bool.and_eq_false_iff, beq_eq_false_iff_ne, beq_eq_false_iff_ne]
  exact hother

/-- Settles O25: staging filters the object and element out of the area before the new value joins it. -/
theorem stagingHoldsOneValue : Obligations.StagingHoldsOneValue := by
  refine ⟨fun s path a e v => ?_, fun _ => rfl⟩
  obtain ⟨hmem, hflash⟩ := stageRecord_stores s path a e v
  exact ⟨stageRecord_only s path a e v, fun _ hx => mem_stageRecord hx path v, hmem, hflash,
    fun hwf _ i hb => stageRecord_reg hwf path a e v hb i⟩

end Sys2Proof.Machine
end

section
/-! The link-local address (O26), and what the frames of the management lane, I3C, MCTP and the mailbox accesses to the
dictionary answer while the block runs (O36). -/
namespace Sys2Proof.Machine

/-! ### The link-local address and its announcements (R51) -/

/-- In link-local mode the address is 169.254.a.b, its last bytes from the MAC address. -/
theorem State.ipv4_linkLocal {s : State} (hmode : s.reg Obj.MGP_IP_MODE = 1) :
    s.ipv4 = 0xA9FE0000 + (1 + s.regBits Obj.MGP_MAC 0 32 8 % 254) * 256 + linkLocalLast (s.regBits Obj.MGP_MAC 0 40 8) :=
  if_pos hmode

/-- The policer of ARP and ICMP frames touches its own bucket alone (R52). -/
theorem policeFrame_bucket (s : State) : ∃ b, (policeFrame s).1 = { s with mgmt := { s.mgmt with ethBucket := b } } := by
  unfold policeFrame
  extract_lets b
  by_cases hhas : b.has = true
  · exact ⟨_, congrArg Prod.fst (if_pos hhas)⟩
  · exact ⟨_, congrArg Prod.fst (if_neg hhas)⟩

/-- The device's address is the one its registers give. -/
theorem State.ipv4_of_regs {s t : State} (h : t.regs = s.regs) : t.ipv4 = s.ipv4 := by
  have hreg (a e : Nat) : t.reg a e = s.reg a e := by rw [State.reg, h, State.reg]
  unfold State.ipv4 State.regBits
  rw [hreg, hreg, hreg]

/-- A frame that passes the policer is answered (R52). -/
theorem policedFrame_passes {s : State} (f : State → State) (hpass : (policeFrame s).2 = true) :
    policedFrame s f = f (policeFrame s).1 :=
  if_pos hpass

/-- A timer just started runs. -/
theorem State.arm_deadline (s : State) (t : Timer) (n : Nat) : (s.arm t n).deadline t = some (s.now + n) := by
  simp only [State.deadline, State.arm_timers, List.find?_cons, BEq.rfl, Option.map_some]

/-- The gap between two announcements: the timer runs and has not ended. -/
def announceWaits (s : State) : Bool := s.armed ⟨.linkLocal, 0, 0⟩ && !s.due ⟨.linkLocal, 0, 0⟩

/-- An announcement that is asked for in the gap is not sent. -/
theorem exec_linkLocalAnnounce_waits {dt : Nat} {s : State} (hwaits : announceWaits (s.advance dt) = true) :
    exec (.linkLocalAnnounce dt) s = .next (s.advance dt) := by
  rw [announceWaits, Bool.and_eq_true, Bool.not_eq_true'] at hwaits
  obtain ⟨harmed, hearly⟩ := hwaits
  show execLinkLocalAnnounce dt s = _
  by_cases hrun : s.phase = .running
  · rw [execLinkLocalAnnounce, run_next _ hrun, if_neg]
    rw [harmed, hearly, Bool.not_true, Bool.or_false, Bool.and_false]
    exact Bool.false_ne_true
  · exact run_idle _ hrun

/-- What an announcement answers: it is sent and the gap begins, or only the time passes. -/
theorem exec_linkLocalAnnounce_cases {dt : Nat} {s t : State} (hrun : s.phase = .running)
    (h : exec (.linkLocalAnnounce dt) s = .next t) :
    t = ((s.advance dt).emit (.arpAnnounce (s.advance dt).ipv4)).arm ⟨.linkLocal, 0, 0⟩ 1000000000 ∨ t = s.advance dt := by
  change execLinkLocalAnnounce dt s = _ at h
  rw [execLinkLocalAnnounce, run_next _ hrun] at h
  split at h
  · cases h; exact .inl rfl
  · cases h; exact .inr rfl

/-- For less than one second after an announcement the gap lasts. -/
theorem announceWaits_after {s : State} {later : Nat} (hsoon : later < 1000000000) :
    announceWaits ((s.arm ⟨.linkLocal, 0, 0⟩ 1000000000).advance later) = true := by
  have hdeadline : ((s.arm ⟨.linkLocal, 0, 0⟩ 1000000000).advance later).deadline ⟨.linkLocal, 0, 0⟩ = some (s.now + 1000000000) :=
    State.arm_deadline s _ _
  simp only [announceWaits, State.armed, State.due, hdeadline, Option.isSome_some, State.advance_now, State.arm_now,
    Bool.true_and, Bool.not_eq_true']
  exact decide_eq_false (by omega)

/-- A condition that is met does not turn a command away. -/
theorem if_not_served {b : Bool} {turnedAway served : State} (h : b = true) : (if !b then turnedAway else served) = served := by
  rw [h, Bool.not_true, if_neg Bool.false_ne_true]

section Running
variable {dt : Nat} {s : State} (hrun : s.phase = .running)
include hrun

/-! ### The Ethernet lane -/

/-- A good datagram that draws its token and repeats no kept request is accepted (R52, R53, R502). -/
theorem exec_kdpDatagram_accepts {srcIp srcPort : Nat} {payload : List Byte} (hserved : (s.advance dt).ethServed = true)
    (hpass : (policeKdp ((s.advance dt).count1 Obj.MGP_KDP_RX 0)).2 = true) (hgood : headerMalformed payload = false)
    (hnew : keptRequest (policeKdp ((s.advance dt).count1 Obj.MGP_KDP_RX 0)).1 srcIp srcPort (leField payload 2 2) = none) :
    exec (.kdpDatagram dt srcIp srcPort payload) s
      = .next (acceptKdp (policeKdp ((s.advance dt).count1 Obj.MGP_KDP_RX 0)).1 srcIp srcPort payload) := by
  show execKdpDatagram dt srcIp srcPort payload s = _
  rw [execKdpDatagram, run_next _ hrun, kdpEffect, if_pos hserved, kdpPoliced, if_pos hpass, kdpChecked, hgood, hnew]
  rfl

/-- An ARP request or probe for the device's address is answered (R50, R51). -/
theorem exec_arpFrame_answers {senderIp targetIp : Nat} (hserved : (s.advance dt).ethServed = true)
    (hpass : (policeFrame (s.advance dt)).2 = true) (hours : targetIp = (policeFrame (s.advance dt)).1.ipv4) :
    exec (.arpFrame dt senderIp targetIp) s = .next ((policeFrame (s.advance dt)).1.emit (.arpReply senderIp targetIp)) := by
  show execArpFrame dt senderIp targetIp s = _
  rw [execArpFrame, run_next _ hrun, if_not_served hserved, policedFrame_passes _ hpass, if_pos hours]

/-- An echo request to the device's address is answered (R50). -/
theorem exec_icmpEcho_answers {srcIp dstIp : Nat} {payload : List Byte} (hserved : (s.advance dt).ethServed = true)
    (hpass : (policeFrame (s.advance dt)).2 = true) (hours : dstIp = (policeFrame (s.advance dt)).1.ipv4) :
    exec (.icmpEcho dt srcIp dstIp payload) s = .next ((policeFrame (s.advance dt)).1.emit (.echoReply srcIp payload)) := by
  show execIcmpEcho dt srcIp dstIp payload s = _
  rw [execIcmpEcho, run_next _ hrun, if_not_served hserved, policedFrame_passes _ hpass, if_pos hours]

/-- A frame of any other kind is counted as dropped (R50). -/
theorem exec_ethFrameDrop_counts (hserved : (s.advance dt).ethServed = true) :
    exec (.ethFrameDrop dt) s = .next ((s.advance dt).count1 Obj.MGP_ETH_DROPPED 0) := by
  show execEthFrameDrop dt s = _
  rw [execEthFrameDrop, run_next _ hrun, if_not_served hserved]

/-- With no gap running, an announcement is sent in link-local mode and the gap begins (R51). -/
theorem exec_linkLocalAnnounce_sends (hserved : (s.advance dt).ethServed = true) (hmode : (s.advance dt).reg Obj.MGP_IP_MODE = 1)
    (hfirst : (s.advance dt).armed ⟨.linkLocal, 0, 0⟩ = false) :
    exec (.linkLocalAnnounce dt) s
      = .next (((s.advance dt).emit (.arpAnnounce (s.advance dt).ipv4)).arm ⟨.linkLocal, 0, 0⟩ 1000000000) := by
  show execLinkLocalAnnounce dt s = _
  rw [execLinkLocalAnnounce, run_next _ hrun, if_pos]
  rw [hserved, hmode, hfirst]
  rfl

/-! ### MCTP over I3C -/

/-- A good dictionary message in an MCTP body joins the I3C queue (R47, R57, R502). -/
theorem exec_mctpMessage_queues {body : List Byte} (hfirmware : (s.advance dt).firmware = true) (hlong : 5 ≤ body.length)
    (hpen : body.take 4 = beBytes ((s.advance dt).reg Obj.ID_VENDOR_PEN) 4) (hkind : leField body 4 1 = 1)
    (hgood : headerMalformed (body.drop 5) = false) :
    exec (.mctpMessage dt body) s
      = .next { s.advance dt with mgmt := { (s.advance dt).mgmt with qI3c := (s.advance dt).mgmt.qI3c ++ [⟨.i3c, body.drop 5⟩] } } := by
  show execMctpMessage dt body s = _
  rw [execMctpMessage, run_next _ hrun, if_not_served hfirmware, if_neg]
  rintro (hshort | hpen' | hkind' | hbad)
  · omega
  · exact hpen' hpen
  · exact hkind' hkind
  · rw [hgood] at hbad; cases hbad

/-- An endpoint ID that an endpoint may hold is taken (R56; its range: log entry 6). -/
theorem exec_setEndpointId_takes {eid : Nat} (hfirmware : (s.advance dt).firmware = true) (hlow : 1 ≤ eid) (hhigh : eid ≤ 254) :
    exec (.setEndpointId dt eid) s
      = .next (({ s.advance dt with mgmt := { (s.advance dt).mgmt with eid := eid } }).emit (.mctpControl 1 [0, 0, eid, 0])) := by
  show execSetEndpointId dt eid s = _
  rw [execSetEndpointId, run_next _ hrun, if_not_served hfirmware, if_neg (by omega)]

/-- The endpoint ID is told (R56). -/
theorem exec_getEndpointId_tells (hfirmware : (s.advance dt).firmware = true) :
    exec (.getEndpointId dt) s = .next ((s.advance dt).emit (.mctpControl 2 [0, (s.advance dt).mgmt.eid, 0, 0])) := by
  show execGetEndpointId dt s = _
  rw [execGetEndpointId, run_next _ hrun, if_not_served hfirmware]

/-- The versions of a message type the device takes are told (R56; the numbers: log entry 6). -/
theorem exec_getMctpVersionSupport_tells {msgType : Nat} (hfirmware : (s.advance dt).firmware = true)
    (htype : msgType = 0xFF ∨ msgType = 0 ∨ msgType = 0x7F) :
    exec (.getMctpVersionSupport dt msgType) s
      = .next (((s.advance dt).emit (.mctpControl 4 (0 :: (Config.standardPayload 4 (s.advance dt).free).map (·.toNat)))).useFree) := by
  show execGetMctpVersionSupport dt msgType s = _
  rw [execGetMctpVersionSupport, run_next _ hrun, if_not_served hfirmware, if_pos htype]

/-- The one message type beside control is told (R56, R57). -/
theorem exec_getMessageTypeSupport_tells (hfirmware : (s.advance dt).firmware = true) :
    exec (.getMessageTypeSupport dt) s = .next ((s.advance dt).emit (.mctpControl 5 [0, 1, 0x7F])) := by
  show execGetMessageTypeSupport dt s = _
  rw [execGetMessageTypeSupport, run_next _ hrun, if_not_served hfirmware]

/-- Selector 0 names the enterprise number (R56, R57). -/
theorem exec_getVendorDefinedMessageSupport_tells (hfirmware : (s.advance dt).firmware = true) :
    exec (.getVendorDefinedMessageSupport dt 0) s
      = .next (((s.advance dt).emit (.mctpControl 6 [0, 0xFF, 1, (s.advance dt).reg Obj.ID_VENDOR_PEN, (s.advance dt).freeNow])).useFree) := by
  show execGetVendorDefinedMessageSupport dt 0 s = _
  rw [execGetVendorDefinedMessageSupport, run_next _ hrun, if_not_served hfirmware, if_pos rfl]

/-! ### The mailboxes and the queues -/

/-- A mailbox access on a fabric-manager port joins the queue of the fabric managers (R47, R58). -/
theorem exec_dictionaryAccess_fm {port : Nat} {payload : List Byte} (hfirmware : (s.advance dt).firmware = true)
    (hhost : (s.advance dt).isHost port = true) (hgood : headerMalformed payload = false) (hfm : (s.advance dt).isFmPort port = true) :
    exec (.dictionaryAccess dt port payload) s
      = .next { s.advance dt with mgmt := { (s.advance dt).mgmt with qFm := (s.advance dt).mgmt.qFm ++ [⟨.fm port false, payload⟩] } } := by
  show execDictionaryAccess dt port payload s = _
  rw [execDictionaryAccess, run_next _ hrun, hfirmware, hhost, hgood, hfm]
  rfl

/-- A mailbox access on another host port joins the queue of the tenants (R47, R58). -/
theorem exec_dictionaryAccess_tenant {port : Nat} {payload : List Byte} (hfirmware : (s.advance dt).firmware = true)
    (hhost : (s.advance dt).isHost port = true) (hgood : headerMalformed payload = false) (hfm : (s.advance dt).isFmPort port = false) :
    exec (.dictionaryAccess dt port payload) s
      = .next { s.advance dt with mgmt := { (s.advance dt).mgmt with qTenant := (s.advance dt).mgmt.qTenant ++ [⟨.tenant port, payload⟩] } } := by
  show execDictionaryAccess dt port payload s = _
  rw [execDictionaryAccess, run_next _ hrun, hfirmware, hhost, hgood, hfm]
  rfl

/-- The service, when it is free, takes the message at the head of the next queue with one (R47). -/
theorem exec_takeMessage_serves {n : Nat} {m : QMsg} {rest : List QMsg} (hserving : (s.advance dt).serving = true)
    (hfree : (s.advance dt).mgmt.svc = none) (hnext : nextQueue (s.advance dt) = some n)
    (hhead : (s.advance dt).pathQueue n = m :: rest) :
    exec (.takeMessage dt) s = .next (serveMessage (dropHead (s.advance dt) n) m) := by
  show execTakeMessage dt s = _
  rw [execTakeMessage, run_next _ hrun, hserving, hfree, if_neg (by decide), withSome_some _ hnext, hhead]

end Running

/-- Settles O26: the policer keeps the registers the address is read from, and an announcement leaves the gap's timer. -/
theorem linkLocalAddress : Obligations.LinkLocalAddress := by
  refine ⟨fun s hmode => ?_, ?_, ?_⟩
  · rw [State.ipv4_linkLocal hmode, linkLocalLast]
    simp only [Nat.reducePow, Nat.reduceMul, Nat.reduceAdd]
  · rintro dt sender s _ rfl hrun hserved _ hpass
    obtain ⟨b, hpoliced⟩ := policeFrame_bucket (s.advance dt)
    have hregs : (policeFrame (s.advance dt)).1.regs = s.regs := by rw [hpoliced, State.advance_regs]
    refine ⟨_, exec_arpFrame_answers hrun hserved hpass (State.ipv4_of_regs hregs).symm, ?_, hregs⟩
    rw [State.emit_out, hpoliced, State.advance_out]
  · intro dt later s t hrun h hsent hsoon
    obtain rfl | rfl := exec_linkLocalAnnounce_cases hrun h
    · exact exec_linkLocalAnnounce_waits (announceWaits_after hsoon)
    · exact absurd rfl hsent

/-- Settles O36: the clause of each command is its lemma above, with `u` the state after the time passed. -/
theorem managementMessagesComplete : Obligations.ManagementMessagesComplete := by
  rintro dt s _ rfl hrun
  exact ⟨fun _ _ _ => exec_kdpDatagram_accepts hrun,
    fun _ _ => exec_arpFrame_answers hrun,
    fun _ _ _ => exec_icmpEcho_answers hrun,
    exec_ethFrameDrop_counts hrun,
    exec_linkLocalAnnounce_sends hrun,
    fun _ => exec_mctpMessage_queues hrun,
    fun _ => run_next _ hrun,
    fun _ => exec_setEndpointId_takes hrun,
    exec_getEndpointId_tells hrun,
    fun _ => exec_getMctpVersionSupport_tells hrun,
    exec_getMessageTypeSupport_tells hrun,
    exec_getVendorDefinedMessageSupport_tells hrun,
    fun _ _ => exec_dictionaryAccess_fm hrun,
    fun _ _ => exec_dictionaryAccess_tenant hrun,
    fun _ _ _ => exec_takeMessage_serves hrun⟩

end Sys2Proof.Machine
end

section
/-! What the dictionary records answer while the block runs: read, write, staged read, describe, commit, discard and the
recovery writes (O37). -/
namespace Sys2Proof.Machine

/-! ### Records that pass their checks -/

/-- A read record that is served and passes its checks, of an object that is no TABLE and that its path may read, is
answered with the object's data (R35, R45). -/
theorem serveRead_reads {s : State} {path : Path} {op : RecOp} {r : Rec} {o : ObjDef} (data : State → Nat → Nat → List Byte)
    (eff : State → State) (hserve : mayServe s path op r = true) (hok : checkRecord s path op r = .ok)
    (hfound : lookupObj r.index r.sub = .ok o) (hplain : o.count = 0) (hread : canRead (pathClass path) o = true) :
    serveRead s path op r data eff = answer (eff s) path op r .ok (data s o.addr (r.elem.getD 0)) := by
  simp only [serveRead, hserve, hok, hfound, hread, Bool.not_true, Bool.false_eq_true, if_false, ne_eq, not_true_eq_false,
    hplain, false_and]

/-- A write record of an on-commit object that passes its checks is staged and answered (R61). -/
theorem serveWrite_stages {s : State} {path : Path} {r : Rec} {o : ObjDef} (eff : State → State)
    (hserve : mayServe s path .write r = true) (hok : checkRecord s path .write r = .ok)
    (hnow : path = .i3c → s.reg Obj.STG_STATUS ≠ 2) (hfound : findObj (r.index * 256 + r.sub) = some o)
    (hcommit : o.onCommit = true) (hclass : pathClass path ≠ .o) :
    serveWrite s path r eff
      = answer (stageRecord s path (r.index * 256 + r.sub) r.elem (writtenValue o (ofLe r.data))) path .write r .ok [] := by
  simp only [serveWrite, serveWriteThen, hserve, hok, Bool.not_true, Bool.false_eq_true, if_false, ne_eq, not_true_eq_false,
    if_neg (not_and.mpr hnow), hfound]
  exact if_pos ⟨hcommit, hclass⟩

/-- A write record of any other object that passes its checks acts at once; its path becomes the last writer (R61, R65). -/
theorem serveWrite_acts {s : State} {path : Path} {r : Rec} {o : ObjDef} (eff : State → State)
    (hserve : mayServe s path .write r = true) (hok : checkRecord s path .write r = .ok)
    (hnow : path = .i3c → s.reg Obj.STG_STATUS ≠ 2) (hfound : findObj (r.index * 256 + r.sub) = some o)
    (hatOnce : o.onCommit = false) (hclass : pathClass path ≠ .o) :
    serveWrite s path r eff
      = answer (recordWriter (eff s) (pathCode path) (pathPort path) (r.index * 256 + r.sub) r.elem) path .write r .ok [] := by
  simp only [serveWrite, serveWriteThen, hserve, hok, Bool.not_true, Bool.false_eq_true, if_false, ne_eq, not_true_eq_false,
    if_neg (not_and.mpr hnow), hfound, hatOnce, false_and, if_neg hclass, id]

/-- A read of an object that has no read of its own goes the common way. -/
theorem serveAnyRead_plain {u : State} {path : Path} {op : RecOp} {r : Rec}
    (hown : r.index * 256 + r.sub ∉ [Obj.TRACT_MEM_DATA, Obj.TEN_DLOG_TAKE, Obj.TLM_READ, Obj.STAT_DUMP_DATA]) :
    serveAnyRead u path op r
      = serveRead (settleFor u (r.index * 256 + r.sub) (r.elem.getD 0)) path op r objBytes
          (readEffect (r.index * 256 + r.sub) (r.elem.getD 0)) := by
  simp only [List.mem_cons, List.not_mem_nil, or_false, not_or] at hown
  obtain ⟨hmem, htake, htlm, hdump⟩ := hown
  simp only [serveAnyRead, if_neg hmem, if_neg htake, if_neg htlm, if_neg hdump]

/-- A write of an object that has no service of its own goes the common way. -/
theorem serveAnyWrite_plain {u : State} {path : Path} {r : Rec} {o : ObjDef} (hfound : findObj (r.index * 256 + r.sub) = some o)
    (hown : r.index * 256 + r.sub
      ∉ [Obj.STG_COMMIT, Obj.TRACT_MEM_DATA, Obj.MBX_IN_DATA, Obj.MBX_IN_SEND, Obj.RST_CHIP_RESET, Obj.LIFE_REQUEST]) :
    serveAnyWrite u path r
      = serveWrite (settleFor u (r.index * 256 + r.sub) (r.elem.getD 0)) path r
          (objEffect (r.index * 256 + r.sub) (r.elem.getD 0) (writtenValue o (ofLe r.data)) r.data) := by
  simp only [List.mem_cons, List.not_mem_nil, or_false, not_or] at hown
  obtain ⟨hcommit, hmem, hinData, hinSend, hreset, hlife⟩ := hown
  simp only [serveAnyWrite, if_neg hcommit, if_neg hmem, if_neg hinData, if_neg hinSend, if_neg hreset,
    if_neg (not_and_of_not_left _ hlife), hfound, Option.elim_some]

/-- A register of a function of a host's virtual switch may be reached over its port (R100). -/
theorem configAccess_open {u : State} {port vppb : Nat} (hhost : u.isHost port = true) (hup : u.edgeUp port = true) (hvppb : vppb < 64) :
    (u.isHost port && u.edgeUp port && decide (vppb < 64)) = true := by
  rw [hhost, hup, decide_eq_true hvppb]
  rfl

section Running
variable {dt : Nat} {s : State} (hrun : s.phase = .running)
include hrun

/-! ### Reads -/

/-- A read record is served by the dictionary. -/
theorem exec_read_record {path : Path} {r : Rec} :
    exec (.read dt (.record path r)) s = .next (serveAnyRead (s.advance dt) path .read r) :=
  run_next _ hrun

/-- A read record is answered with the object's data, and the read does what a read of the object does. -/
theorem exec_read_answers {path : Path} {r : Rec} {w : State} {o : ObjDef}
    (hw : w = settleFor (s.advance dt) (r.index * 256 + r.sub) (r.elem.getD 0)) (hserve : mayServe w path .read r = true)
    (hok : checkRecord w path .read r = .ok) (hfound : lookupObj r.index r.sub = .ok o) (hplain : o.count = 0)
    (hread : canRead (pathClass path) o = true)
    (hown : r.index * 256 + r.sub ∉ [Obj.TRACT_MEM_DATA, Obj.TEN_DLOG_TAKE, Obj.TLM_READ, Obj.STAT_DUMP_DATA]) :
    exec (.read dt (.record path r)) s
      = .next (answer (readEffect (r.index * 256 + r.sub) (r.elem.getD 0) w) path .read r .ok (objBytes w o.addr (r.elem.getD 0))) := by
  subst hw
  rw [exec_read_record hrun, serveAnyRead_plain hown, serveRead_reads _ _ hserve hok hfound hplain hread]

/-- A host's configuration read is completed with the register's value (R100, R114; the registers: log entry 85). -/
theorem exec_read_config {port vppb : Nat} {q : FnReg} (hhost : (s.advance dt).isHost port = true)
    (hup : (s.advance dt).edgeUp port = true) (hvppb : vppb < 64) :
    exec (.read dt (.config port vppb q)) s
      = .next (completeRead (s.advance dt) port 4 (.toPort port "configuration read" [vppb, fnCode q, fnRead (s.advance dt) port vppb q])) := by
  have hexec : exec (.read dt (.config port vppb q)) s = .next (configRead (s.advance dt) port vppb q) := run_next _ hrun
  rw [hexec, configRead, if_pos (configAccess_open hhost hup hvppb)]

/-- A staged read of a class that sees the staging area is answered with the staged value (R42, R45). -/
theorem exec_readStaged_staged {path : Path} {r : Rec} {v : Nat} {o : ObjDef} (hclass : pathClass path ≠ .t)
    (hstaged : stagedValue (s.advance dt) (r.index * 256 + r.sub) r.elem = some v)
    (hserve : mayServe (s.advance dt) path .staged r = true) (hok : checkRecord (s.advance dt) path .staged r = .ok)
    (hfound : lookupObj r.index r.sub = .ok o) (hplain : o.count = 0) (hread : canRead (pathClass path) o = true) :
    exec (.readStaged dt path r) s = .next (answer (s.advance dt) path .staged r .ok (leBytes v (objSize o.addr))) := by
  show execReadStaged dt path r s = _
  rw [execReadStaged, run_next _ hrun, hstaged]
  cases hc : pathClass path with
  | t => exact absurd hc hclass
  | m | o => exact congrArg _ (serveRead_reads _ _ hserve hok hfound hplain hread)

/-- A describe record is answered with the object's description (R45, R68). -/
theorem exec_describe_describes {path : Path} {r : Rec} {o : ObjDef} (hserve : mayServe (s.advance dt) path .describe r = true)
    (hok : checkRecord (s.advance dt) path .describe r = .ok) (hfound : lookupObj r.index r.sub = .ok o) :
    exec (.describe dt path r) s = .next (answer (s.advance dt) path .describe r .ok (describeData o)) := by
  show execDescribe dt path r s = _
  rw [execDescribe, run_next _ hrun]
  simp only [hserve, hok, hfound, Bool.not_true, Bool.false_eq_true, if_false, if_true]

/-! ### Writes -/

/-- A write record is served by the dictionary. -/
theorem exec_write_record {path : Path} {r : Rec} : exec (.write dt (.record path r)) s = .next (serveAnyWrite (s.advance dt) path r) :=
  run_next _ hrun

/-- A write record of an on-commit object is staged (R61). -/
theorem exec_write_stages {path : Path} {r : Rec} {w : State} {o : ObjDef}
    (hw : w = settleFor (s.advance dt) (r.index * 256 + r.sub) (r.elem.getD 0)) (hserve : mayServe w path .write r = true)
    (hok : checkRecord w path .write r = .ok) (hnow : path = .i3c → w.reg Obj.STG_STATUS ≠ 2)
    (hfound : findObj (r.index * 256 + r.sub) = some o) (hcommit : o.onCommit = true) (hclass : pathClass path ≠ .o)
    (hown : r.index * 256 + r.sub
      ∉ [Obj.STG_COMMIT, Obj.TRACT_MEM_DATA, Obj.MBX_IN_DATA, Obj.MBX_IN_SEND, Obj.RST_CHIP_RESET, Obj.LIFE_REQUEST]) :
    exec (.write dt (.record path r)) s
      = .next (answer (stageRecord w path (r.index * 256 + r.sub) r.elem (writtenValue o (ofLe r.data))) path .write r .ok []) := by
  subst hw
  rw [exec_write_record hrun, serveAnyWrite_plain hfound hown, serveWrite_stages _ hserve hok hnow hfound hcommit hclass]

/-- A write record of any other object has the object's own effect at once (R61). -/
theorem exec_write_acts {path : Path} {r : Rec} {w : State} {o : ObjDef}
    (hw : w = settleFor (s.advance dt) (r.index * 256 + r.sub) (r.elem.getD 0)) (hserve : mayServe w path .write r = true)
    (hok : checkRecord w path .write r = .ok) (hnow : path = .i3c → w.reg Obj.STG_STATUS ≠ 2)
    (hfound : findObj (r.index * 256 + r.sub) = some o) (hatOnce : o.onCommit = false) (hclass : pathClass path ≠ .o)
    (hown : r.index * 256 + r.sub
      ∉ [Obj.STG_COMMIT, Obj.TRACT_MEM_DATA, Obj.MBX_IN_DATA, Obj.MBX_IN_SEND, Obj.RST_CHIP_RESET, Obj.LIFE_REQUEST]) :
    exec (.write dt (.record path r)) s
      = .next (answer (recordWriter (objEffect (r.index * 256 + r.sub) (r.elem.getD 0) (writtenValue o (ofLe r.data)) r.data w)
          (pathCode path) (pathPort path) (r.index * 256 + r.sub) r.elem) path .write r .ok []) := by
  subst hw
  rw [exec_write_record hrun, serveAnyWrite_plain hfound hown, serveWrite_acts _ hserve hok hnow hfound hatOnce hclass]

/-- A host's configuration write reaches the register and is completed (R100, R114; the registers: log entry 85). -/
theorem exec_write_config {port vppb value : Nat} {q : FnReg} (hhost : (s.advance dt).isHost port = true)
    (hup : (s.advance dt).edgeUp port = true) (hvppb : vppb < 64) :
    exec (.write dt (.config port vppb q value)) s
      = .next (completeRead (fnWrite (s.advance dt) port vppb q value) port 0
          (.toPort port "configuration write done" [vppb, fnCode q])) := by
  have hexec : exec (.write dt (.config port vppb q value)) s = .next (configWrite (s.advance dt) port vppb q value) :=
    run_next _ hrun
  rw [hexec, configWrite, if_pos (configAccess_open hhost hup hvppb)]

/-! ### Commit, discard and the recovery writes -/

/-- A commit of a staging area in which nothing is found wrong begins (R62). -/
theorem exec_commit_begins {path : Path} (hserve : mayServe (s.advance dt) path .write (writeRec Obj.STG_COMMIT none 1) = true)
    (hok : checkRecord (s.advance dt) path .write (writeRec Obj.STG_COMMIT none 1) = .ok)
    (hstaged : (s.advance dt).mgmt.staged ≠ []) (hgood : commitFindings (s.advance dt) = []) :
    exec (.commit dt path) s = .next (commitBegins (s.advance dt) path) := by
  show execCommit dt path s = _
  rw [execCommit, run_next _ hrun, serveCommit]
  simp only [hserve, hok, hgood, List.isEmpty_iff, hstaged, Bool.not_true, Bool.false_eq_true, if_false, ne_eq, not_true_eq_false]

/-- A commit in which something is found wrong is refused with the first finding (R62; the order: log entries 8 and 32). -/
theorem exec_commit_fails {path : Path} {f : Finding} {rest : List Finding}
    (hserve : mayServe (s.advance dt) path .write (writeRec Obj.STG_COMMIT none 1) = true)
    (hok : checkRecord (s.advance dt) path .write (writeRec Obj.STG_COMMIT none 1) = .ok)
    (hstaged : (s.advance dt).mgmt.staged ≠ []) (hbad : commitFindings (s.advance dt) = f :: rest) :
    exec (.commit dt path) s
      = .next (answer (commitFails (s.advance dt) f) path .write (writeRec Obj.STG_COMMIT none 1) .commitFailed []) := by
  show execCommit dt path s = _
  rw [execCommit, run_next _ hrun, serveCommit]
  simp only [hserve, hok, hbad, List.isEmpty_iff, hstaged, Bool.not_true, Bool.false_eq_true, if_false, ne_eq, not_true_eq_false]

/-- A commit that is being applied ends: what was staged stands and its record is answered (R62, R67). -/
theorem exec_commitApplied_answers {path : Path} {svc : Option Svc} {t : State}
    (hcommit : (s.advance dt).mgmt.commit = some (path, svc)) (ht : t = applyStaged (s.advance dt)) :
    exec (.commitApplied dt) s
      = .next (answerCommit { t with mgmt := { t.mgmt with commit := none } } path svc (newAddresses (s.advance dt))) := by
  subst ht
  show execCommitApplied dt s = _
  rw [execCommitApplied, run_next _ hrun, hcommit]

/-- A write of `STG.DISCARD` that is served empties the staging area (R61). -/
theorem exec_discard_wrote {path : Path} (htakes : takesWrite (s.advance dt) path Obj.STG_DISCARD none 1 = true) :
    exec (.discard dt path) s = .next (wrote (s.advance dt) path Obj.STG_DISCARD none 1 discardStaged) := by
  show execDiscard dt path s = _
  rw [execDiscard, run_next _ hrun, serveWrite_takes _ htakes]

/-- Once no commit is applied, the oldest waiting recovery write that came alone acts and is answered (R63). -/
theorem exec_recoveryWriteResume_acts {w : RecWait} {rest : List RecWait} (hdone : (s.advance dt).reg Obj.STG_STATUS ≠ 2)
    (hserving : (s.advance dt).serving = true) (hwaits : (s.advance dt).mgmt.recWait = w :: rest) (halone : w.svc = none)
    (hreset : w.r.index * 256 + w.r.sub ≠ Obj.RST_CHIP_RESET) :
    exec (.recoveryWriteResume dt) s
      = .next ((recordWriter (recoveryEffect { s.advance dt with mgmt := { (s.advance dt).mgmt with recWait := rest } }
          (w.r.index * 256 + w.r.sub) (ofLe w.r.data)) (pathCode w.path) (pathPort w.path) (w.r.index * 256 + w.r.sub) w.r.elem).emit
            (.record w.path (recordBytes 2 0 (w.r.index * 256 + w.r.sub) w.r.elem []))) := by
  show execRecoveryWriteResume dt s = _
  rw [execRecoveryWriteResume, run_next _ hrun, hserving, decide_eq_false hdone, if_neg (by decide), hwaits]
  simp only [halone, if_neg (not_and_of_not_left _ hreset)]

end Running

/-- Settles O37: the clause of each command is its lemma above, with `u` the state after the time passed; an access to a
window register is the access itself. -/
theorem recordsComplete : Obligations.RecordsComplete := by
  rintro dt s _ rfl hrun
  exact ⟨fun _ _ _ _ => exec_read_answers hrun,
    fun _ _ _ => run_next _ hrun,
    fun _ _ _ => exec_read_config hrun,
    fun _ _ _ _ => exec_write_stages hrun,
    fun _ _ _ _ => exec_write_acts hrun,
    fun _ => run_next _ hrun,
    fun _ _ _ _ => exec_write_config hrun,
    fun _ _ _ _ => exec_readStaged_staged hrun,
    fun _ _ _ => exec_describe_describes hrun,
    fun _ => exec_commit_begins hrun,
    fun _ _ _ => exec_commit_fails hrun,
    fun _ _ _ => exec_commitApplied_answers hrun,
    fun _ => exec_discard_wrote hrun,
    fun _ _ => exec_recoveryWriteResume_acts hrun⟩

end Sys2Proof.Machine
end

section
/-! What the fabric-manager commands of the switch mailbox answer while the block runs (O38). -/
namespace Sys2Proof.Machine

section Running
variable {dt port : Nat} {s : State} (hrun : s.phase = .running) (hserves : fmServes (s.advance dt) port = true)
include hrun hserves

/-- A command on a fabric-manager port has its own effect (R58, R121). -/
theorem run_fmCommand (f : State → State) : run dt s (fmCommand port f) = .next (f (s.advance dt)) := by
  simp only [fmServes, Bool.and_eq_true] at hserves
  obtain ⟨⟨hfirmware, hhost⟩, hfm⟩ := hserves
  rw [run_next _ hrun, fmCommand, hfirmware, hhost, if_neg (by decide), if_pos hfm]

/-- Physical Port Control acts on a downstream port (R97). -/
theorem exec_physicalPortControl_acts {target : Nat} {op : PortControl} (hdown : (s.advance dt).isDownstream target = true) :
    exec (.physicalPortControl dt port target op) s
      = .next ((portControl (s.advance dt) target op).emit (.mailbox port rcSuccess [])) := by
  show execPhysicalPortControl dt port target op s = _
  rw [execPhysicalPortControl, run_fmCommand hrun hserves, hdown, Bool.true_or, if_pos rfl, fmDone]

/-- A configuration request goes out of an edge port, and what came back is passed on (the answer: log entry 6). -/
theorem exec_sendPpbCxlIoConfigurationRequest_answers {ppb request : Nat} (hedge : (s.advance dt).isEdge ppb = true) :
    exec (.sendPpbCxlIoConfigurationRequest dt port ppb request) s
      = .next (fmAnswered port 0x5103 ((s.advance dt).emit (.toPort ppb "PPB CXL.io configuration request" [request]))) := by
  show execSendPpbCxlIoConfigurationRequest dt port ppb request s = _
  rw [execSendPpbCxlIoConfigurationRequest, run_fmCommand hrun hserves, if_pos hedge]

/-- The virtual switch of a host port is told with its state and bindings (the payload's layout: log entry 6). -/
theorem exec_getVirtualCxlSwitchInfo_tells {host : Nat} (hhost : (s.advance dt).isHost host = true) :
    exec (.getVirtualCxlSwitchInfo dt ⟨port, host⟩) s
      = .next (fmPayload port 0x5200 (host :: (s.advance dt).reg Obj.EDGE_PORT_STATE host
          :: (List.range 64).map (fun v => (s.advance dt).reg Obj.EDGE_VPPB (64 * host + v))) (s.advance dt)) := by
  show execGetVirtualCxlSwitchInfo dt ⟨port, host⟩ s = _
  rw [execGetVirtualCxlSwitchInfo, run_fmCommand hrun hserves, if_pos hhost]

/-- A binding that may be made is made at once and counts as a write of the port (R59, R113; during a commit too: log
entry 72). -/
theorem exec_bindVppb_binds {host vppb dsp ldId : Nat} (hmay : mayBind (s.advance dt) host vppb dsp ldId = true) :
    exec (.bindVppb dt port host vppb dsp ldId) s
      = .next ((fmWrote (bindNow (s.advance dt) host vppb dsp ldId) port Obj.EDGE_VPPB (some (64 * host + vppb))).emit
          (.mailbox port rcSuccess [])) := by
  show execBindVppb dt port host vppb dsp ldId s = _
  rw [execBindVppb, run_fmCommand hrun hserves, if_pos hmay, fmDone]

/-- A vPPB that is bound is unbound at once (R59, R113; during a commit too: log entry 72). -/
theorem exec_unbindVppb_unbinds {vppb host : Nat} {managed : Bool} (hfirst : 1 ≤ vppb) (hvppb : vppb < 64) (hhost : host < 64)
    (hbound : (s.advance dt).regBit Obj.EDGE_VPPB (64 * host + vppb) 29 = true) :
    exec (.unbindVppb dt port host vppb managed) s
      = .next ((fmWrote (unbindNow (s.advance dt) host vppb managed) port Obj.EDGE_VPPB (some (64 * host + vppb))).emit
          (.mailbox port rcSuccess [])) := by
  show execUnbindVppb dt port host vppb managed s = _
  rw [execUnbindVppb, run_fmCommand hrun hserves, if_pos ⟨hfirst, hvppb, hhost, hbound⟩, fmDone]

/-- An AER event is generated at a vPPB of a host port (R121). -/
theorem exec_generateAerEvent_generates {host vppb event : Nat} (hhost : (s.advance dt).isHost host = true) (hvppb : vppb < 64)
    (hevent : event < 32) :
    exec (.generateAerEvent dt port host vppb event) s
      = .next ((aerError (s.advance dt) host vppb event).emit (.mailbox port rcSuccess [])) := by
  show execGenerateAerEvent dt port host vppb event s = _
  rw [execGenerateAerEvent, run_fmCommand hrun hserves, hhost, decide_eq_true hvppb, decide_eq_true hevent, if_pos (by decide), fmDone]

/-- A management command is tunnelled to a device behind a downstream port, and what came back is passed on (the answer: log
entry 6). -/
theorem exec_tunnelManagementCommand_answers {dsp : Nat} {command : List Byte} (hdown : (s.advance dt).isDownstream dsp = true)
    (hup : (s.advance dt).edgeUp dsp = true) :
    exec (.tunnelManagementCommand dt port dsp command) s
      = .next (fmAnswered port 0x5300 ((s.advance dt).emit
          (.toPort dsp "tunnelled management command" (command.map (·.toNat))))) := by
  show execTunnelManagementCommand dt port dsp command s = _
  rw [execTunnelManagementCommand, run_fmCommand hrun hserves, hdown, hup, Bool.true_and, if_pos rfl]

end Running

/-- An opcode without a meaning of its own completes with Unsupported, on every host port (R58). -/
theorem exec_unsupportedOpcode_completes {dt port opcode : Nat} {s : State} (hrun : s.phase = .running)
    (hfirmware : (s.advance dt).firmware = true) (hhost : (s.advance dt).isHost port = true)
    (hopcode : servedOpcodes.contains opcode = false) :
    exec (.unsupportedOpcode dt port opcode) s = .next ((s.advance dt).emit (.mailbox port rcUnsupported [])) := by
  show execUnsupportedOpcode dt port opcode s = _
  rw [execUnsupportedOpcode, run_next _ hrun, hfirmware, hhost, hopcode, if_neg (by decide), fmDone]

/-- Settles O38: a query's clause is the effect of its command on a fabric-manager port, that of a command with operands to
check is its lemma above, with `u` the state after the time passed. -/
theorem fabricManagerComplete : Obligations.FabricManagerComplete := by
  rintro dt s _ rfl hrun
  exact ⟨fun _ hserves => run_fmCommand hrun hserves _,
    fun _ hserves => run_fmCommand hrun hserves _,
    fun _ hserves => run_fmCommand hrun hserves _,
    fun _ _ hserves => run_fmCommand hrun hserves _,
    fun _ hserves => run_fmCommand hrun hserves _,
    fun _ hserves => run_fmCommand hrun hserves _,
    fun _ hserves => run_fmCommand hrun hserves _,
    fun _ _ hserves => run_fmCommand hrun hserves _,
    fun _ hserves => run_fmCommand hrun hserves _,
    fun _ _ hserves => run_fmCommand hrun hserves _,
    fun _ _ _ hserves => exec_physicalPortControl_acts hrun hserves,
    fun _ _ _ hserves => exec_sendPpbCxlIoConfigurationRequest_answers hrun hserves,
    fun _ _ hserves => exec_getVirtualCxlSwitchInfo_tells hrun hserves,
    fun _ _ _ _ _ hserves => exec_bindVppb_binds hrun hserves,
    fun _ _ _ _ hserves => exec_unbindVppb_unbinds hrun hserves,
    fun _ _ _ _ hserves => exec_generateAerEvent_generates hrun hserves,
    fun _ _ _ hserves => exec_tunnelManagementCommand_answers hrun hserves,
    fun _ _ _ _ hserves => run_fmCommand hrun hserves _,
    fun _ _ _ _ hserves => run_fmCommand hrun hserves _,
    fun _ _ => exec_unsupportedOpcode_completes hrun⟩

end Sys2Proof.Machine
end

section
/-! What the commands of the lanes and of the reference clocks answer while the block runs (O39). -/
namespace Sys2Proof.Machine

section Running
variable {dt : Nat} {s : State} (hrun : s.phase = .running)
include hrun

/-- A command that is one write of an object, served, has the object's own effect and its answer (R61). -/
theorem run_serveWrite_wrote {path : Path} {a v : Nat} {e : Option Nat} {eff : State → State}
    (htakes : takesWrite (s.advance dt) path a e v = true) :
    run dt s (fun t => serveWrite t path (writeRec a e v) eff) = .next (wrote (s.advance dt) path a e v eff) := by
  rw [run_next _ hrun, serveWrite_takes _ htakes]

/-! ### The elastic buffer -/

/-- At a slack position of a Pass port that is up, the slack block is deleted above a fill of 320, doubled below a fill of
192, and is passed on otherwise (R80). -/
theorem exec_slackPosition_judges {port fill : Nat} {t filled : State} (hpass : (s.advance dt).isPass port = true)
    (hup : (s.advance dt).portUp port = true) (hslack : ((s.advance dt).passPort port).rxSlack = true)
    (ht : t = (s.advance dt).setPass port { (s.advance dt).passPort port with rxSlack := false })
    (hfilled : filled = { t with lane := { (s.advance dt).lane with fill := assocPut t.lane.fill port fill } }) :
    exec (.slackPosition dt port fill) s
      = .next (if 320 < fill then filled.count1 Obj.PASS_SLACK_DELETED port
          else if fill < 192 then filled.count1 Obj.PASS_SLACK_INSERTED port
          else filled) := by
  subst hfilled ht
  show execSlackPosition dt port fill s = _
  rw [execSlackPosition, run_next _ hrun, if_pos (by rw [hpass, hup, hslack]; rfl)]

/-- The first elastic-buffer error of a port is counted at its lane and its time is kept (R80). -/
theorem exec_ebError_counts {lane p : Nat} {t : State} (hport : (s.advance dt).servedPort lane = some p)
    (hfirst : assocGet (s.advance dt).lane.ebErrors p = none) (ht : t = (s.advance dt).count1 Obj.LANE_EB_ERRORS lane) :
    exec (.ebError dt lane) s
      = .next { t with lane := { t.lane with ebErrors := assocPut t.lane.ebErrors p [(s.advance dt).now] } } := by
  subst ht
  show execEbError dt lane s = _
  rw [execEbError, run_next _ hrun, withSome_some _ hport, hfirst]
  rfl

/-! ### Adaptation -/

/-- A step of adaptation that is due moves the taps and the CTLE of a lane for which no `RESTORE` waits (R82, R84). -/
theorem exec_adaptationStep_steps {lane : Nat} {ctleMove : Int} {tapMoves : List Int}
    (hdue : adaptDue (s.advance dt) lane = true) (hfree : (s.advance dt).lane.restore.contains lane = false) :
    exec (.adaptationStep dt lane ctleMove tapMoves) s
      = .next (stepCtle (stepTaps (s.advance dt) lane tapMoves) lane ctleMove) := by
  show execAdaptationStep dt lane ctleMove tapMoves s = _
  rw [execAdaptationStep, run_next _ hrun, hdue, hfree, if_neg (by decide), if_neg (by decide)]

/-- Once one of the 13 adapted values has stayed at the end of its range for 100 ms, the lane reloads its training values,
sets SAT and raises its source (R83). -/
theorem exec_sat_reloads {i lane : Nat} (hi : i < 13) (hdue : (s.advance dt).due ⟨.sat, lane, i⟩ = true) :
    exec (.sat dt lane) s
      = .next (raise ((reload (s.advance dt) lane).putRegBit Obj.LANE_RX_STATE lane 15 true) 3 0) := by
  show execSat dt lane s = _
  rw [execSat, run_next _ hrun, if_pos (List.any_eq_true.mpr ⟨i, List.mem_range.mpr hi, hdue⟩)]

/-! ### Eye margins -/

/-- A margin measurement that is due is reported for the eye with the smallest vertical margin, judged, and repeated in a second
(R85, R90; the tie of the eyes: log entry 83). -/
theorem exec_marginMeasurement_judges {lane : Nat} {t : State} {e : Nat × Margin} {middle upper lower : Margin}
    (hdue : (s.advance dt).due ⟨.margin, lane, 0⟩ = true) (ht : t = (s.advance dt).disarm ⟨.margin, lane, 0⟩)
    (he : e = reportedEye t lane middle upper lower) :
    exec (.marginMeasurement dt lane ⟨middle, upper, lower⟩) s
      = .next (judgeMargin ((setMargin t lane e.1 e.2).arm ⟨.margin, lane, 0⟩ 1000000000) lane e.2) := by
  subst he ht
  show execMarginMeasurement dt lane ⟨middle, upper, lower⟩ s = _
  rw [execMarginMeasurement, run_next _ hrun, onDue_due _ hdue]

/-- A requested margin is reported for the eye that was asked for, and the request is over (R85). -/
theorem exec_marginReqDone_reports {lane eye : Nat} {m : Margin}
    (hasked : assocGet (s.advance dt).lane.marginReq lane = some eye) :
    exec (.marginReqDone dt lane m) s
      = .next ((setMargin { s.advance dt with lane := { (s.advance dt).lane with
          marginReq := assocDrop (s.advance dt).lane.marginReq lane } } lane eye m).disarm ⟨.marginReq, lane, 0⟩) := by
  show execMarginReqDone dt lane m s = _
  rw [execMarginReqDone, run_next _ hrun, withSome_some _ hasked]

/-! ### PRBS -/

/-- An enabled checker that is not locked locks on bits of its pattern, and its errors count from 0 (R88; that the lock clears
them: log entry 43). -/
theorem exec_prbsLock_locks {lane : Nat} {window : List Bool} (hon : (s.advance dt).regBit Obj.LANE_PRBS_CTRL lane 1 = true)
    (hopen : (s.advance dt).regBit Obj.LANE_PRBS_CTRL lane 15 = false)
    (hmatch : prbsLocks ((s.advance dt).regBits Obj.LANE_PRBS_CTRL lane 4 3)
      ((s.advance dt).regBit Obj.LANE_PRBS_CTRL lane 7) window = true) :
    exec (.prbsLock dt ⟨lane, window⟩) s
      = .next ((({ s.advance dt with lane := { (s.advance dt).lane with
            prbsSince := assocPut (s.advance dt).lane.prbsSince lane (s.advance dt).now } }).putRegBit
          Obj.LANE_PRBS_CTRL lane 15 true).setRegBits Obj.LANE_PRBS_ERRORS lane 0 32 0) := by
  have hlocks : ((s.advance dt).regBit Obj.LANE_PRBS_CTRL lane 1 && !(s.advance dt).regBit Obj.LANE_PRBS_CTRL lane 15
      && prbsLocks ((s.advance dt).regBits Obj.LANE_PRBS_CTRL lane 4 3)
        ((s.advance dt).regBit Obj.LANE_PRBS_CTRL lane 7) window) = true := by
    rw [hon, hopen, hmatch]; rfl
  show execPrbsLock dt ⟨lane, window⟩ s = _
  rw [execPrbsLock, run_next _ hrun]
  exact congrArg _ (if_pos hlocks)

/-- A locked checker that finds more than 512 errors in 1,024 bits loses its lock (R88). -/
theorem exec_prbsLockLoss_unlocks {lane errors : Nat} (hlocked : (s.advance dt).regBit Obj.LANE_PRBS_CTRL lane 15 = true)
    (hmany : 512 < errors) :
    exec (.prbsLockLoss dt lane 1024 errors) s = .next (unlockPrbs (s.advance dt) lane) := by
  show execPrbsLockLoss dt lane 1024 errors s = _
  rw [execPrbsLockLoss, run_next _ hrun, if_pos (by rw [hlocked, decide_eq_true hmany]; rfl)]

/-! ### Reserve lanes -/

/-- Once an hour the self-test of a group's reserve lane starts, if the lane is Idle and no swap of it is in progress (R89). -/
theorem exec_reserveSelfTest_starts {group : Nat} {t : State} (hdue : (s.advance dt).due ⟨.selfTestHour, group, 0⟩ = true)
    (ht : t = ((s.advance dt).disarm ⟨.selfTestHour, group, 0⟩).arm ⟨.selfTestHour, group, 0⟩ 3600000000000)
    (hunused : t.reserveState group = 0) (hnone : assocGet t.lane.swaps group = none) :
    exec (.reserveSelfTest dt group) s
      = .next ((setSelfTest t (t.lane.selfTest ++ [group])).arm ⟨.selfTest, group, 0⟩ 1000000000) := by
  subst ht
  show execReserveSelfTest dt group s = _
  rw [execReserveSelfTest, run_next _ hrun, onDue_due _ hdue, startSelfTest,
    if_pos ⟨hunused, Option.isNone_iff_eq_none.mpr hnone⟩]

/-- The self-test of a reserve lane is over, and its errors are judged (R89). -/
theorem exec_reserveSelfTestEnd_judges {group errors : Nat} (hdue : (s.advance dt).due ⟨.selfTest, group, 0⟩ = true) :
    exec (.reserveSelfTestEnd dt group errors) s
      = .next (endSelfTest (setSelfTest ((s.advance dt).disarm ⟨.selfTest, group, 0⟩)
          ((s.advance dt).lane.selfTest.filter (· != group))) group errors) := by
  show execReserveSelfTestEnd dt group errors s = _
  rw [execReserveSelfTestEnd, run_next _ hrun, onDue_due _ hdue, State.disarm_lane]

/-- A lane on its own transceiver that fails its self-check qualifies for a swap with margin 0 (R90; the margin: log
entry 42). -/
theorem exec_transceiverSelfCheckFail_qualifies {lane : Nat} (hlane : lane < 256)
    (hused : (s.advance dt).transceiver lane = lane) :
    exec (.transceiverSelfCheckFail dt lane) s = .next (qualifySwap (s.advance dt) lane 0) := by
  show execTransceiverSelfCheckFail dt lane s = _
  rw [execTransceiverSelfCheckFail, run_next _ hrun, if_pos ⟨hlane, hused⟩]

/-- The reserve lane that shadows a lane takes over what it trained to and the lane's FFE coefficients, and the swap is
ready to switch (R91). -/
theorem exec_swapShadowTrained_readies {group ctle ffe : Nat} {j : SwapJob} {t : State}
    (hjob : assocGet (s.advance dt).lane.swaps group = some j) (hshadow : j.step = .shadowing) (hswap : j.revert = false)
    (hffe : ffe = (s.advance dt).reg Obj.LANE_TX_FFE (16 * group + j.lane))
    (ht : t = (captureTraining (s.advance dt) (reserveLane group)
      { foundTraining (s.advance dt).freeNow ffe with ctle := ctle % 32 }).useFree.setReg Obj.LANE_TX_FFE (reserveLane group) ffe) :
    exec (.swapShadowTrained dt group ctle) s
      = .next ({ t with lane := { t.lane with swaps := assocPut t.lane.swaps group { j with step := .ready } } }.disarm
          ⟨.shadow, group, 0⟩) := by
  subst ht hffe
  show execSwapShadowTrained dt group ctle s = _
  rw [execSwapShadowTrained, run_next _ hrun, withSome_some _ hjob, if_pos hshadow]
  simp only [hswap, Bool.false_eq_true, if_false]

/-- A swap whose shadow is trained is switched (R91). -/
theorem exec_swapSwitch_switches {group : Nat} {j : SwapJob} (hjob : assocGet (s.advance dt).lane.swaps group = some j)
    (hready : j.step = .ready) :
    exec (.swapSwitch dt group) s = .next (swapDone (s.advance dt) group j) := by
  show execSwapSwitch dt group s = _
  rw [execSwapSwitch, run_next _ hrun, withSome_some _ hjob, if_pos hready]

/-! ### Reference clocks -/

/-- A gate of a reference clock counted inside its window is a good one, any other loses the reference (R417). -/
theorem exec_referenceGate_judges {ref hz : Nat} (href : ref < 18) :
    exec (.referenceGate dt ref hz) s
      = .next (if inWindow (s.advance dt) ref hz then referenceGood (s.advance dt) ref else referenceLost (s.advance dt) ref) := by
  show execReferenceGate dt ref hz s = _
  rw [execReferenceGate, run_next _ hrun, if_neg href.not_ge]

/-- A reference clock that has stopped is lost (R417). -/
theorem exec_referenceStopped_loses {ref : Nat} (href : ref < 18) :
    exec (.referenceStopped dt ref) s = .next (referenceLost (s.advance dt) ref) := by
  show execReferenceStopped dt ref s = _
  rw [execReferenceStopped, run_next _ hrun, if_neg href.not_ge]

end Running

/-- Settles O39: the clause of each command is its lemma above, with `u` the state after the time passed; the commands that
are one write of an object share the lemma of such a write, and a command that judges takes the branch its operands name. -/
theorem lanesAndReferencesComplete : Obligations.LanesAndReferencesComplete := by
  rintro dt s _ rfl hrun
  exact ⟨fun _ _ _ hpass hup hslack hfull ht =>
      (exec_slackPosition_judges hrun hpass hup hslack ht rfl).trans (congrArg _ (if_pos hfull)),
    fun _ _ _ hpass hup hslack hempty ht => (exec_slackPosition_judges hrun hpass hup hslack ht rfl).trans
      (congrArg _ ((if_neg (by omega)).trans (if_pos hempty))),
    fun _ _ _ hpass hup hslack hlow hhigh ht => (exec_slackPosition_judges hrun hpass hup hslack ht rfl).trans
      (congrArg _ ((if_neg hhigh.not_gt).trans (if_neg hlow.not_gt))),
    fun _ _ hport hfirst => exec_ebError_counts hrun hport hfirst rfl,
    fun _ _ _ => exec_adaptationStep_steps hrun,
    fun _ _ => exec_sat_reloads hrun,
    fun _ _ _ => run_serveWrite_wrote hrun,
    fun _ _ _ _ _ _ => exec_marginMeasurement_judges hrun,
    fun _ _ _ => run_serveWrite_wrote hrun,
    fun _ _ _ => exec_marginReqDone_reports hrun,
    fun _ _ _ => run_serveWrite_wrote hrun,
    fun _ _ _ => run_serveWrite_wrote hrun,
    fun _ _ => exec_prbsLock_locks hrun,
    fun _ _ => exec_prbsLockLoss_unlocks hrun,
    fun _ _ _ => run_serveWrite_wrote hrun,
    fun _ _ => exec_reserveSelfTest_starts hrun,
    fun _ => exec_reserveSelfTestEnd_judges hrun,
    fun _ _ hdue herrors => (exec_reserveSelfTestEnd_judges hrun hdue).trans (congrArg _ (if_pos herrors)),
    fun _ _ _ => run_serveWrite_wrote hrun,
    fun _ _ => run_serveWrite_wrote hrun,
    fun _ => exec_transceiverSelfCheckFail_qualifies hrun,
    fun _ _ _ hjob hshadow hswap => exec_swapShadowTrained_readies hrun hjob hshadow hswap rfl rfl,
    fun _ _ => exec_swapSwitch_switches hrun,
    fun _ _ href hin => (exec_referenceGate_judges hrun href).trans (congrArg _ (if_pos hin)),
    fun _ _ href hout => (exec_referenceGate_judges hrun href).trans (congrArg _ (if_neg (ne_true_of_eq_false hout))),
    fun _ => exec_referenceStopped_loses hrun⟩

end Sys2Proof.Machine
end

section
/-! What the commands of the resets and the rails answer in their phases (O57). -/
namespace Sys2Proof.Machine

section InReset
variable {dt : Nat} {s : State} (hreset : (s.advance dt).phase = .chipReset)
include hreset

/-- In a chip reset the lowest slot whose gate is driven is turned off when its turn comes, and the next follows after
`SLOT.RESET_GAP` (R458). -/
theorem exec_resetSlotTurnoff_turnsOff {t : State} {n : Nat} (hdue : (s.advance dt).due ⟨.slotOff, 0, 0⟩ = true)
    (ht : t = (s.advance dt).disarm ⟨.slotOff, 0, 0⟩) (hlowest : t.lowestDriven = some n) :
    exec (.resetSlotTurnoff dt) s
      = .next ((setSlotState (turnOff t n) n 0).arm ⟨.slotOff, 0, 0⟩ (t.reg Obj.SLOT_RESET_GAP * 1000000)) := by
  subst ht
  show execResetSlotTurnoff dt s = _
  rw [execResetSlotTurnoff, runAon, if_pos hreset, onDue_due _ hdue]
  simp only [hlowest]

/-- The release of the power-on reset ends a chip reset of cause 0 that is due to end (R461, R489). -/
theorem exec_powerOnResetRelease_warm {straps : Nat} {on : PowerOn} (hdue : releaseDue (s.advance dt) = true)
    (hcause : (s.advance dt).reg Obj.RST_CAUSE = 0) :
    exec (.powerOnResetRelease dt straps on) s = .next (warmRelease (s.advance dt) straps) := by
  have hpowered : (s.advance dt).phase ≠ .unpowered := by rw [hreset]; decide
  show execPowerOnResetRelease dt straps on s = _
  rw [execPowerOnResetRelease, runAon, if_neg hpowered, if_pos ⟨hdue, hcause⟩]

end InReset

/-- The release of the power-on reset of a block without power starts it cold: only fuses and flash are kept (R462, R489). -/
theorem exec_powerOnResetRelease_cold {dt straps : Nat} {s : State} {programmed : List FlashPatch} {badReserves : List Nat}
    (hoff : (s.advance dt).phase = .unpowered) :
    exec (.powerOnResetRelease dt straps ⟨programmed, badReserves⟩) s
      = .next (coldRelease (s.advance dt) straps programmed badReserves) := by
  show execPowerOnResetRelease dt straps ⟨programmed, badReserves⟩ s = _
  rw [execPowerOnResetRelease, runAon, if_pos hoff]

/-- A chip reset that is due to end is released (R463, R464); that the block is in one is part of `releaseDue`. -/
theorem exec_internalResetRelease_warm {dt straps : Nat} {s : State} (hdue : releaseDue (s.advance dt) = true) :
    exec (.internalResetRelease dt straps) s = .next (warmRelease (s.advance dt) straps) := by
  show execInternalResetRelease dt straps s = _
  rw [execInternalResetRelease, runAon, if_pos hdue]

section Running
variable {dt : Nat} {s : State} (hrun : (s.advance dt).phase = .running)
include hrun

/-- A unit that works as long as there is power works while the block runs (R18). -/
theorem runPowered_running (f : State → State) : runPowered dt s f = .next (f (s.advance dt)) :=
  runPowered_next f (ne_of_eq_of_ne hrun (by decide))

/-- The pin `CHIP_RST_L` begins a chip reset of cause 1 (R461). -/
theorem exec_chipRstL_resets : exec (.chipRstL dt) s = .next (beginChipReset (s.advance dt) 1) := by
  show execChipRstL dt s = _
  rw [execChipRstL, runPowered_running hrun]

/-- A rail measured outside its window is shown and noted as out, and raises RAIL (R486, R491). -/
theorem exec_railOutOfWindow_raises {rail mv : Nat} (hrail : rail < 9) (hout : (s.advance dt).railInside rail mv = false) :
    exec (.railOutOfWindow dt rail mv) s = .next (raise (setRailOut (showRail (s.advance dt) rail mv) rail true) 18 2) := by
  show execRailOutOfWindow dt rail mv s = _
  rw [execRailOutOfWindow, runPowered_running hrun, if_pos ⟨hrail, hout⟩]

/-- A rail measured inside its window is shown and no longer noted as out (R486, R491). -/
theorem exec_railInWindow_clears {rail mv : Nat} (hrail : rail < 9) (hin : (s.advance dt).railInside rail mv = true) :
    exec (.railInWindow dt rail mv) s = .next (setRailOut (showRail (s.advance dt) rail mv) rail false) := by
  show execRailInWindow dt rail mv s = _
  rw [execRailInWindow, runPowered_running hrun, if_pos ⟨hrail, hin⟩]

/-- A supply rail other than VDD_AUX that falls below 85 % of its nominal begins a chip reset of cause 0 (R491; SLOT_VIN, a
rail by log entry 60, is no supply). -/
theorem exec_railCollapse_resets {rail mv : Nat} (hrail : rail < 7) (hlow : 100 * mv < 85 * (s.advance dt).railNominal rail) :
    exec (.railCollapse dt rail mv) s
      = .next (beginChipReset (setRailOut (showRail (s.advance dt) rail mv) rail true) 0) := by
  show execRailCollapse dt rail mv s = _
  rw [execRailCollapse, runPowered_running hrun, if_pos ⟨hrail, hlow⟩]

end Running

/-- Settles O57: the clause of each command is its lemma above, with `u` the state after the time passed, whose phase
is a hypothesis of the clause. -/
theorem resetAndPowerComplete : Obligations.ResetAndPowerComplete := by
  rintro dt s _ rfl
  exact ⟨fun _ _ hreset => exec_resetSlotTurnoff_turnsOff hreset,
    fun _ _ _ => exec_powerOnResetRelease_cold,
    fun _ _ _ hreset => exec_powerOnResetRelease_warm hreset,
    fun _ _ => exec_internalResetRelease_warm,
    exec_chipRstL_resets,
    fun _ _ hrun => exec_railOutOfWindow_raises hrun,
    fun _ _ hrun => exec_railInWindow_clears hrun,
    fun _ _ hrun => exec_railCollapse_resets hrun⟩

end Sys2Proof.Machine
end

section
/-! What the commands of the edge ports answer while the block runs: links, PERST_L and resets, logical devices and bindings,
IDE, PBR flits and HDM decoders (O40). -/
namespace Sys2Proof.Machine

@[simp] theorem State.disarm_portAgent (s : State) (t : Timer) (p : Nat) : (s.disarm t).portAgent p = s.portAgent p := rfl

@[simp] theorem State.disarm_agentState (s : State) (t : Timer) (a : Nat) : (s.disarm t).agentState a = s.agentState a := rfl

section Running
variable {dt : Nat} {s : State} (hrun : s.phase = .running)
include hrun

/-- A command that acts under one test of the state has its effect when the test holds. -/
theorem run_tested {test : State → Bool} (f : State → State) (htest : test (s.advance dt) = true) :
    run dt s (fun t => if test t then f t else t) = .next (f (s.advance dt)) := by
  rw [run_next _ hrun, if_pos htest]

/-- A command of the edge ports of one role (R96) has its effect on a port of that role whose data link layer is up. -/
theorem run_upPort {role : State → Nat → Bool} {port : Nat} (f : State → State) (hrole : role (s.advance dt) port = true)
    (hup : (s.advance dt).edgeUp port = true) :
    run dt s (fun t => if role t port && t.edgeUp port then f t else t) = .next (f (s.advance dt)) :=
  run_tested hrun f (test := fun t => role t port && t.edgeUp port) (Bool.and_eq_true_iff.mpr ⟨hrole, hup⟩)

/-! ### PERST_L and resets -/

/-- PERST_L of a host port, or a hot reset, is counted, takes the link down and resets the function, the virtual switch, what
is bound to it and the tenancy, in this order (R98, R106). -/
theorem exec_hostPerst_resets {port : Nat} {hot : Bool} (hhost : (s.advance dt).isHost port = true) :
    exec (.hostPerst dt port hot) s
      = .next (resetTenancyOf (propagateReset (resetSwitch (resetFunction (edgeLinkDown
          ((s.advance dt).count1 Obj.EDGE_PERST_EVENTS port) port) port) port) port) port 1) :=
  run_tested hrun _ hhost

/-- PERST_L of a downstream port is deasserted when its time has come and its slot has power (R97). -/
theorem exec_perstDeassert_releases {port : Nat} (hdue : (s.advance dt).due ⟨.perst, port, 0⟩ = true)
    (hdown : ((s.advance dt).disarm ⟨.perst, port, 0⟩).isDownstream port = true)
    (hpower : powerGood ((s.advance dt).disarm ⟨.perst, port, 0⟩) port = true) :
    exec (.perstDeassert dt port) s
      = .next { (s.advance dt).disarm ⟨.perst, port, 0⟩ with
          edge := { (s.advance dt).edge with
            perstReleased := port :: (s.advance dt).edge.perstReleased.filter (· != port) } } := by
  show execPerstDeassert dt port s = _
  rw [execPerstDeassert, run_next _ hrun, onDue_due _ hdue, if_pos (by rw [hdown, hpower]; rfl), State.disarm_edge]

/-- A function-level reset resets the tenancy of the port (R367), and it alone (log entry 40). -/
theorem exec_functionLevelReset_resets {port : Nat} (hhost : (s.advance dt).isHost port = true)
    (hup : (s.advance dt).edgeUp port = true) :
    exec (.functionLevelReset dt port) s = .next (resetTenancyOf (s.advance dt) port 2) :=
  run_upPort hrun (role := State.isHost) (fun t => resetTenancyOf t port 2) hhost hup

/-! ### Training -/

/-- A port that may train comes up with what it negotiates, except that a fabric port without CXL 3.x in 256-byte flits is
idle for 100 ms (R99, R503). -/
theorem exec_edgeLinkUp_trains {port : Nat} {offer : Offer} {n : Negotiated} (hmay : mayTrainEdge (s.advance dt) port = true)
    (hwidth : 0 < offer.width)
    (hn : n = negotiate ((s.advance dt).reg Obj.EDGE_PROTOCOLS port) ((s.advance dt).isHost port)
      ((s.advance dt).isDownstream port) offer) :
    exec (.edgeLinkUp dt port offer) s
      = .next (if (s.advance dt).isFabric port && !(n.version == 3 && decide (2 ≤ n.flit))
          then (s.advance dt).arm ⟨.fabricIdle, port, 0⟩ 100000000
          else linkComesUp (s.advance dt) port offer n) := by
  subst hn
  show execEdgeLinkUp dt port offer s = _
  rw [execEdgeLinkUp, run_next _ hrun, if_pos (by rw [hmay, decide_eq_true hwidth]; rfl)]

/-- A port that does not have the fabric role comes up with whatever it negotiates (R99, R503). -/
theorem exec_edgeLinkUp_comesUp {port : Nat} {offer : Offer} (hmay : mayTrainEdge (s.advance dt) port = true)
    (hwidth : 0 < offer.width) (hrole : (s.advance dt).isFabric port = false) :
    exec (.edgeLinkUp dt port offer) s
      = .next (linkComesUp (s.advance dt) port offer (negotiate ((s.advance dt).reg Obj.EDGE_PROTOCOLS port)
          ((s.advance dt).isHost port) ((s.advance dt).isDownstream port) offer)) := by
  rw [exec_edgeLinkUp_trains hrun hmay hwidth rfl, hrole, Bool.false_and, if_neg Bool.false_ne_true]

/-- A fabric port that negotiates CXL 3.x with 256-byte flits comes up (R503). -/
theorem exec_edgeLinkUp_fabricComesUp {port : Nat} {offer : Offer} {n : Negotiated}
    (hmay : mayTrainEdge (s.advance dt) port = true) (hwidth : 0 < offer.width)
    (hn : n = negotiate ((s.advance dt).reg Obj.EDGE_PROTOCOLS port) ((s.advance dt).isHost port)
      ((s.advance dt).isDownstream port) offer)
    (hversion : n.version = 3) (hflit : 2 ≤ n.flit) :
    exec (.edgeLinkUp dt port offer) s = .next (linkComesUp (s.advance dt) port offer n) := by
  have hcxl3 : (n.version == 3 && decide (2 ≤ n.flit)) = true := by rw [hversion, decide_eq_true hflit]; rfl
  rw [exec_edgeLinkUp_trains hrun hmay hwidth hn, hcxl3, Bool.not_true, Bool.and_false, if_neg Bool.false_ne_true]

/-- A fabric port that cannot negotiate CXL 3.x with 256-byte flits ends training and is idle for 100 ms (R503). -/
theorem exec_edgeLinkUp_fabricIdles {port : Nat} {offer : Offer} {n : Negotiated}
    (hmay : mayTrainEdge (s.advance dt) port = true) (hwidth : 0 < offer.width)
    (hrole : (s.advance dt).isFabric port = true)
    (hn : n = negotiate ((s.advance dt).reg Obj.EDGE_PROTOCOLS port) ((s.advance dt).isHost port)
      ((s.advance dt).isDownstream port) offer)
    (hlacks : n.version ≠ 3 ∨ n.flit < 2) :
    exec (.edgeLinkUp dt port offer) s = .next ((s.advance dt).arm ⟨.fabricIdle, port, 0⟩ 100000000) := by
  have hcxl3 : (n.version == 3 && decide (2 ≤ n.flit)) = false := by
    rcases hlacks with hversion | hflit
    · rw [beq_false_of_ne hversion, Bool.false_and]
    · rw [decide_eq_false hflit.not_ge, Bool.and_false]
  rw [exec_edgeLinkUp_trains hrun hmay hwidth hn, hrole, hcxl3, Bool.not_false, Bool.and_true, if_pos rfl]

/-- A fabric port whose 100 ms of electrical idle have passed trains again (R503). -/
theorem exec_fabricRetrain_trains {port : Nat} (hdue : (s.advance dt).due ⟨.fabricIdle, port, 0⟩ = true) :
    exec (.fabricRetrain dt port) s
      = .next (((s.advance dt).disarm ⟨.fabricIdle, port, 0⟩).emit (.toPort port "train" [])) := by
  show execFabricRetrain dt port s = _
  rw [execFabricRetrain, run_next _ hrun, onDue_due _ hdue]

/-! ### Links that go down -/

/-- The link of a host port goes down; only a loss by surprise is counted and raised (R106). -/
theorem exec_hostLinkDown_goesDown {port : Nat} {cause : LinkCause} (hhost : (s.advance dt).isHost port = true)
    (hup : (s.advance dt).edgeUp port = true) :
    exec (.hostLinkDown dt port cause) s
      = .next (if cause = .surprise then raise ((edgeLinkDown (s.advance dt) port).count1 Obj.EDGE_SURPRISE_DOWN port) 4 1
          else edgeLinkDown (s.advance dt) port) :=
  run_upPort hrun (role := State.isHost)
    (fun t => if cause = .surprise then raise ((edgeLinkDown t port).count1 Obj.EDGE_SURPRISE_DOWN port) 4 1
      else edgeLinkDown t port) hhost hup

/-- An agent whose grace period has passed is declared dead (R108). -/
theorem exec_graceExpiry_declaresDead {port a : Nat} (hdue : (s.advance dt).due ⟨.grace, port, 0⟩ = true)
    (hagent : (s.advance dt).portAgent port = some a) (hgrace : (s.advance dt).agentState a = 2) :
    exec (.graceExpiry dt port) s = .next (declareDead ((s.advance dt).disarm ⟨.grace, port, 0⟩) a) := by
  show execGraceExpiry dt port s = _
  rw [execGraceExpiry, run_next _ hrun, onDue_due _ hdue, State.disarm_portAgent, withSome_some _ hagent,
    State.disarm_agentState, if_pos hgrace]

/-- The link of a downstream port goes down (R109). -/
theorem exec_downstreamLinkDown_goesDown {port : Nat} (hdown : (s.advance dt).isDownstream port = true)
    (hup : (s.advance dt).edgeUp port = true) :
    exec (.downstreamLinkDown dt port) s = .next (edgeLinkDown (s.advance dt) port) :=
  run_upPort hrun (role := State.isDownstream) (edgeLinkDown · port) hdown hup

/-- The link of a fabric port goes down (R141). -/
theorem exec_fabricLinkDown_goesDown {port : Nat} (hfabric : (s.advance dt).isFabric port = true)
    (hup : (s.advance dt).edgeUp port = true) :
    exec (.fabricLinkDown dt port) s = .next (edgeLinkDown (s.advance dt) port) :=
  run_upPort hrun (role := State.isFabric) (edgeLinkDown · port) hfabric hup

/-- The management lane goes down and the loss is raised (R418). -/
theorem exec_ethLinkDown_raises (hfirmware : (s.advance dt).firmware = true)
    (hmode : (s.advance dt).reg Obj.MGP_ETH_MODE ≠ 0) :
    exec (.ethLinkDown dt) s = .next (raise (s.advance dt) 1 0) := by
  show execEthLinkDown dt s = _
  rw [execEthLinkDown, run_next _ hrun, if_pos (by rw [hfirmware, bne_iff_ne.mpr hmode]; rfl)]

/-! ### Logical devices and bindings -/

/-- The identity of a known logical device behind a port that is up is judged (R109). -/
theorem exec_ldIdentityRead_judges {port ldId serial capacity : Nat} {d : Ld}
    (hdown : (s.advance dt).isDownstream port = true) (hup : (s.advance dt).edgeUp port = true) (hld : ldId < 16)
    (hknown : assocGet (s.advance dt).edge.lds (16 * port + ldId) = some d) :
    exec (.ldIdentityRead dt port ldId serial capacity) s
      = .next (identityRead (s.advance dt) (16 * port + ldId) serial capacity d) := by
  show execLdIdentityRead dt port ldId serial capacity s = _
  rw [execLdIdentityRead, run_next _ hrun, if_pos (by rw [hdown, hup, decide_eq_true hld]; rfl), withSome_some _ hknown]

/-- A binding that completes makes a Binding vPPB Bound and lets an Unbinding one go (R113). -/
theorem exec_bindComplete_completes {host vppb : Nat} (hhost : host < 64) (hfirst : 1 ≤ vppb) (hlast : vppb < 64) :
    exec (.bindComplete dt host vppb) s
      = .next (if (s.advance dt).regBits Obj.EDGE_VPPB (64 * host + vppb) 30 2 = 1
          then (s.advance dt).setRegBits Obj.EDGE_VPPB (64 * host + vppb) 30 2 2
          else if (s.advance dt).regBits Obj.EDGE_VPPB (64 * host + vppb) 30 2 = 3 then unbound (s.advance dt) host vppb
          else s.advance dt) := by
  show execBindComplete dt host vppb s = _
  rw [execBindComplete, run_next _ hrun, if_pos ⟨hhost, hfirst, hlast⟩]

/-! ### IDE -/

/-- A Secure stream whose integrity check fails is Insecure, and the failure is counted, takes the link down and is raised
(R120). -/
theorem exec_ideIntegrityFail_failsStream {port : Nat} (hedge : (s.advance dt).isEdge port = true)
    (hup : (s.advance dt).edgeUp port = true) (hsecure : (s.advance dt).regBits Obj.EDGE_IDE_STATUS port 0 2 = 2) :
    exec (.ideIntegrityFail dt port) s
      = .next (raise (edgeLinkDown ((countIdeFailure (s.advance dt) port).setRegBits Obj.EDGE_IDE_STATUS port 0 2 3) port)
          4 0) := by
  show execIdeIntegrityFail dt port s = _
  rw [execIdeIntegrityFail, run_next _ hrun, if_pos (by rw [hedge, hup, hsecure]; rfl)]

/-- The link stream that exchanges keys, or waits for new ones after a failure, is Secure once it has them (R119, R120). -/
theorem exec_ideKeyExchangeDone_securesLink {port : Nat} (hedge : (s.advance dt).isEdge port = true)
    (hup : (s.advance dt).edgeUp port = true)
    (hwaits : (s.advance dt).regBits Obj.EDGE_IDE_STATUS port 0 2 = 1
      ∨ (s.advance dt).regBits Obj.EDGE_IDE_STATUS port 0 2 = 3) :
    exec (.ideKeyExchangeDone dt ⟨port, none⟩) s = .next (linkSecure (s.advance dt) port) := by
  show execIdeKeyExchangeDone dt ⟨port, none⟩ s = _
  rw [execIdeKeyExchangeDone, run_next _ hrun, if_pos (by rw [hedge, hup]; rfl)]
  exact congrArg _ (if_pos hwaits)

/-- A selective stream that has its keys is added (R119). -/
theorem exec_ideKeyExchangeDone_addsStream {port k : Nat} (hedge : (s.advance dt).isEdge port = true)
    (hup : (s.advance dt).edgeUp port = true) :
    exec (.ideKeyExchangeDone dt ⟨port, some k⟩) s = .next (addStream (s.advance dt) port k) :=
  run_upPort hrun (role := State.isEdge) (addStream · port k) hedge hup

/-- The presented function answers a DOE request of a protocol it serves (R100, R119; the protocols and the payload: log
entry 6). -/
theorem exec_doeRequest_answers {port protocol : Nat} {request : List Byte} (hhost : (s.advance dt).isHost port = true)
    (hup : (s.advance dt).edgeUp port = true) (hserves : doeProtocols.contains protocol = true) :
    exec (.doeRequest dt port protocol request) s
      = .next (((s.advance dt).emit (.toPort port "DOE response"
          (protocol :: (Config.standardPayload (0x10000 + ofLe request) (s.advance dt).free).map (·.toNat)))).useFree) := by
  show execDoeRequest dt port protocol request s = _
  rw [execDoeRequest, run_next _ hrun, if_pos (by rw [hhost, hup]; rfl), if_pos hserves]

/-! ### PBR flits and HDM decoders -/

/-- A PBR flit for the memory device is delivered; its messages are commands of their own (R118). -/
theorem exec_pbrFlit_delivers {port spid dpid : Nat} (hfabric : (s.advance dt).isFabric port = true)
    (hcarries : (s.advance dt).carriesTraffic port = true) (hown : (s.advance dt).reg Obj.EDGE_POOL_PBR_ID = dpid)
    (hset : dpid ≠ 0xFFFF) :
    exec (.pbrFlit dt port spid dpid) s = .next (s.advance dt) := by
  show execPbrFlit dt port spid dpid s = _
  rw [execPbrFlit, run_next _ hrun, if_pos (by rw [hfabric, hcarries]; rfl), if_pos ⟨hown ▸ hset, hown⟩]

/-- A PBR flit for an edge function is converted there (R118). -/
theorem exec_pbrFlit_converts {port spid dpid q : Nat} (hfabric : (s.advance dt).isFabric port = true)
    (hcarries : (s.advance dt).carriesTraffic port = true) (hother : (s.advance dt).reg Obj.EDGE_POOL_PBR_ID ≠ dpid)
    (hfunction : pbrFunction (s.advance dt) dpid = some q) :
    exec (.pbrFlit dt port spid dpid) s = .next ((s.advance dt).emit (.toPort q "PBR flit" [spid, dpid])) := by
  show execPbrFlit dt port spid dpid s = _
  rw [execPbrFlit, run_next _ hrun, if_pos (by rw [hfabric, hcarries]; rfl), if_neg (hother ·.2), hfunction]

/-- A PBR flit that is not the device's own is dropped, counted and raised (log entry 23). -/
theorem exec_pbrFlit_drops {port spid dpid : Nat} (hfabric : (s.advance dt).isFabric port = true)
    (hcarries : (s.advance dt).carriesTraffic port = true) (hother : (s.advance dt).reg Obj.EDGE_POOL_PBR_ID ≠ dpid)
    (hnone : pbrFunction (s.advance dt) dpid = none) :
    exec (.pbrFlit dt port spid dpid) s = .next (raise ((s.advance dt).count1 Obj.EDGE_PBR_DROPPED port) 4 3) := by
  show execPbrFlit dt port spid dpid s = _
  rw [execPbrFlit, run_next _ hrun, if_pos (by rw [hfabric, hcarries]; rfl), if_neg (hother ·.2), hnone]

/-- A host's commit of a decoder that is not locked is judged (R115, R236; that it replaces the decoder: log entry 40). -/
theorem exec_hdmDecoderCommit_commits {port decoder base size : Nat} {lock : Bool}
    (hhost : (s.advance dt).isHost port = true) (hup : (s.advance dt).edgeUp port = true) (hdecoder : decoder < 8)
    (hopen : decoderLocked (s.advance dt) port decoder = false) :
    exec (.hdmDecoderCommit dt port decoder base ⟨size, lock⟩) s
      = .next (commitDecoder (s.advance dt) port decoder base size lock) := by
  show execHdmDecoderCommit dt port decoder base ⟨size, lock⟩ s = _
  rw [execHdmDecoderCommit, run_next _ hrun, if_pos (by rw [hhost, hup, decide_eq_true hdecoder, hopen]; rfl)]

end Running

/-- Settles O40: the clause of each command is its lemma above, with `u` the state after the time passed. A command that judges
takes the branch its operands name; the refresh of keys is one write of an object, and the attention button acts on every
downstream port (R96, R100). The clauses prove the model's readings in the assumption log: entry 6 (DOE), entry 23 (PBR flits
that are not the device's own) and entry 40 (FLR, decoders). -/
theorem edgeLinksComplete : Obligations.EdgeLinksComplete := by
  rintro dt s _ rfl hrun
  exact ⟨fun _ _ => exec_hostPerst_resets hrun,
    fun _ => exec_perstDeassert_releases hrun,
    fun _ => exec_functionLevelReset_resets hrun,
    fun _ _ => exec_edgeLinkUp_comesUp hrun,
    fun _ _ _ hmay hwidth _ => exec_edgeLinkUp_fabricComesUp hrun hmay hwidth,
    fun _ _ _ => exec_edgeLinkUp_fabricIdles hrun,
    fun _ => exec_fabricRetrain_trains hrun,
    fun _ _ hhost hup hknown => (exec_hostLinkDown_goesDown hrun hhost hup).trans (congrArg _ (if_neg hknown)),
    fun _ hhost hup => (exec_hostLinkDown_goesDown hrun hhost hup).trans (congrArg _ (if_pos rfl)),
    fun _ _ => exec_graceExpiry_declaresDead hrun,
    fun _ => exec_downstreamLinkDown_goesDown hrun,
    fun _ _ _ _ _ => exec_ldIdentityRead_judges hrun,
    fun _ _ hhost hfirst hlast hbinding =>
      (exec_bindComplete_completes hrun hhost hfirst hlast).trans (congrArg _ (if_pos hbinding)),
    fun _ _ hhost hfirst hlast hunbinding => (exec_bindComplete_completes hrun hhost hfirst hlast).trans
      (congrArg _ ((if_neg (by omega)).trans (if_pos hunbinding))),
    fun _ => exec_ideIntegrityFail_failsStream hrun,
    fun _ => exec_ideKeyExchangeDone_securesLink hrun,
    fun _ _ => exec_ideKeyExchangeDone_addsStream hrun,
    fun _ _ _ => run_serveWrite_wrote hrun,
    fun _ _ _ => exec_pbrFlit_delivers hrun,
    fun _ _ _ _ => exec_pbrFlit_converts hrun,
    fun _ _ _ => exec_pbrFlit_drops hrun,
    fun _ _ _ _ _ => exec_hdmDecoderCommit_commits hrun,
    fun _ => exec_fabricLinkDown_goesDown hrun,
    fun _ hdown => run_tested hrun _ hdown,
    fun _ _ _ => exec_doeRequest_answers hrun,
    exec_ethLinkDown_raises hrun⟩

end Sys2Proof.Machine
end

section
/-! What the commands of the egress scheduler answer while the block runs (O43). -/
namespace Sys2Proof.Machine

section Running
variable {dt : Nat} {s : State} (hrun : s.phase = .running)
include hrun

/-- An egress port that selects brings its eligible queues up to date and serves the TC7 queue whose turn it is, past the
shapers (R152). -/
theorem exec_egressSelect_sendsTc7 {egress q : Nat} {blocked : List LinkChannel} (hselects : selects (s.advance dt) egress = true)
    (htc7 : tc7Queue (refreshEligible (s.advance dt) blocked egress) blocked egress = some q) :
    exec (.egressSelect dt egress blocked) s
      = .next (sendFrom (refreshEligible (s.advance dt) blocked egress) blocked egress q false) := by
  show execEgressSelect dt egress blocked s = _
  rw [execEgressSelect, run_next _ hrun, if_neg (by rw [hselects]; decide)]
  simp only [htc7]

/-- Without a TC7 queue the port shaper decides on the queue that is served next by weighted fair queueing: its message is held
and the cycles of the hold are counted, or it goes out and the hold ends (R152, R153, R161). -/
theorem exec_egressSelect_shapes {egress q : Nat} {blocked : List LinkChannel} {t : State}
    (hselects : selects (s.advance dt) egress = true) (hfresh : t = refreshEligible (s.advance dt) blocked egress)
    (hnone : tc7Queue t blocked egress = none) (hfair : fairQueue t egress = some q) :
    exec (.egressSelect dt egress blocked) s
      = .next (if portHeld t egress then settleShaped t egress true
          else sendFrom (settleShaped t egress false) blocked egress q true) := by
  subst hfresh
  show execEgressSelect dt egress blocked s = _
  rw [execEgressSelect, run_next _ hrun, if_neg (by rw [hselects]; decide)]
  simp only [hnone, hfair]

/-- A queue that holds entries and becomes eligible at its port takes its tags (R153, R154). -/
theorem exec_queueEligible_takesTags {queue e : Nat}
    (hport : ((s.advance dt).basin.entries.find? (fun x => x.queue == queue)).map (fun x => x.egress) = some e)
    (hnow : eligibleNow (s.advance dt) [] e queue = true) (hnew : (s.advance dt).sched.eligible.contains queue = false) :
    exec (.queueEligible dt queue) s = .next (onEligible e (s.advance dt) queue) := by
  show execQueueEligible dt queue s = _
  rw [execQueueEligible, run_next _ hrun, withSome_some _ hport, if_pos (by rw [hnow, hnew]; rfl)]

/-- Once no queue of a group holds a cell, the rebind that waits for them takes effect (R151). -/
theorem exec_groupRebindDone_rebinds {group : Nat} (hidle : (s.advance dt).groupBusy group = false) :
    exec (.groupRebindDone dt group) s = .next (rebindNow (s.advance dt) group) := by
  show execGroupRebindDone dt group s = _
  rw [execGroupRebindDone, run_next _ hrun, if_neg (by rw [hidle]; decide)]

end Running

/-- Settles O43: the clause of each command is its lemma above, with `u` the state after the time passed. A selection without a
TC7 queue takes the branch of the port shaper; a shaper write is one write of an object (R157, R158). -/
theorem schedulerComplete : Obligations.SchedulerComplete := by
  rintro dt s _ rfl hrun
  exact ⟨fun _ _ _ _ hselects hfresh => hfresh ▸ exec_egressSelect_sendsTc7 hrun hselects,
    fun _ _ _ _ hselects hfresh hnone hfair hfree =>
      (exec_egressSelect_shapes hrun hselects hfresh hnone hfair).trans (congrArg _ (if_neg (ne_true_of_eq_false hfree))),
    fun _ _ _ _ hselects hfresh hnone hfair hheld =>
      (exec_egressSelect_shapes hrun hselects hfresh hnone hfair).trans (congrArg _ (if_pos hheld)),
    fun _ _ => exec_queueEligible_takesTags hrun,
    fun _ _ _ => run_serveWrite_wrote hrun,
    fun _ _ _ => run_serveWrite_wrote hrun,
    fun _ => exec_groupRebindDone_rebinds hrun⟩

end Sys2Proof.Machine
end

section
/-! The invariant of every step (O6), and which commands complete (O3). -/
namespace Sys2Proof.Machine

/-! ### The invariant of a step -/

/-- The invariant: every store is in canonical form, and the last reset does not lie in the future. -/
def State.sound (s : State) : Prop := s.wf ∧ s.resetAt ≤ s.now

/-- What keeps what `Keeps` says keeps the invariant. -/
theorem Keeps.sound {b : Base} {t : State} (hkeeps : Keeps b t) (hsound : b.st.sound) : t.sound :=
  ⟨hkeeps.wf hsound.1, hkeeps.reset hsound.2⟩

/-- The time that passes only moves the present further from the last reset. -/
theorem State.sound.advance {s : State} (hsound : s.sound) (dt : Nat) : (s.advance dt).sound :=
  ⟨State.advance_wf hsound.1 dt, Nat.le_add_right_of_le hsound.2⟩

/-- A command that completes keeps the invariant, for it keeps what `Keeps` says from the state after its time passed. -/
theorem exec_sound {c : Instr} {s t : State} (hsound : s.sound) (h : exec c s = .next t) : t.sound :=
  (exec_moves c s t h).sound (hsound.advance (cmdTime c))

/-- What the block does by itself keeps the invariant. -/
theorem idleTick_sound {s : State} (hsound : s.sound) : (idleTick s).sound :=
  (idleTick_keeps s (Keeps.refl s ⟨False, False, False, False⟩)).sound hsound

/-- Settles O6: on an empty queue the step is what the block does by itself, else it is the command at the front, from a
state whose queue alone differs. Canonical form and the moment of the last reset are the model's representation; the
memory is that of R195, the registers those of R34. -/
theorem stepKeepsTheInvariant : Obligations.StepKeepsTheInvariant := by
  intro s t hsound h
  cases hq : s.pending with
  | nil =>
    rw [step_nil hq] at h
    cases h
    exact idleTick_sound hsound
  | cons c rest =>
    rw [step_cons hq] at h
    exact exec_sound (s := { s with pending := rest }) hsound h

/-! ### Which commands complete -/

/-- At an address that does not exist a Steppe command faults, and no time passes (R195). -/
theorem atSteppe_outside {dt a : Nat} {s : State} (f : State → State) (h : steppeEnd ≤ a) :
    atSteppe dt a s f = .fault .noSuchAddress :=
  if_neg h.not_gt

/-- A command of the always-on block or of the supply completes in every phase (R18). -/
theorem exec_alwaysOn {c : Instr} (haon : alwaysOn c = true) : ∃ f, ∀ s, exec c s = runAon (cmdTime c) s f := by
  cases c with
  | resetSlotTurnoff | vddAuxLow | powerOnResetRelease | internalResetRelease => exact ⟨_, fun _ => by unfold exec; rfl⟩
  | _ => cases haon

/-- A command that names no Steppe address past the end completes: whichever block it belongs to, its frame answers a next
state. -/
theorem exec_completes {c : Instr} (s : State) (hinside : offSteppe c = false) : ∃ t, exec c s = .next t := by
  cases haon : alwaysOn c with
  | true =>
    obtain ⟨f, hf⟩ := exec_alwaysOn haon
    exact ⟨_, hf s⟩
  | false =>
    obtain ⟨-, f, hf⟩ | ⟨-, f, hf⟩ := exec_frame haon hinside
    · exact ⟨_, hf s⟩
    · exact ⟨_, hf s⟩

/-- A command that names a Steppe address past the end faults. -/
theorem exec_offSteppe {c : Instr} (s : State) (hoff : offSteppe c = true) : exec c s = .fault .noSuchAddress := by
  cases c with
  | steppeRead | steppeWrite | scrubLine => exact atSteppe_outside _ (of_decide_eq_true hoff)
  | _ => cases hoff

/-- Settles O3: the two cases are the two kinds of address. That no location exists at or above 192 GiB is R195; that such a
command faults is the model's own outcome. -/
theorem everyCommandCompletes : Obligations.EveryCommandCompletes := fun _ s => ⟨exec_completes s, exec_offSteppe s⟩

end Sys2Proof.Machine
end

section
/-! A flit on the lanes of a Pass port (O27). -/
namespace Sys2Proof.Machine

/-! ### Lists put together from pieces of one length -/

/-- In a list put together from pieces of length `n`, place `n * i + j` is place `j` of piece `i`. -/
theorem getElem?_flatMap_pieces {α β : Type} {f : α → List β} {n : Nat} (hpieces : ∀ a, (f a).length = n) (l : List α)
    (i : Nat) {j : Nat} (hj : j < n) : (l.flatMap f)[n * i + j]? = l[i]?.bind fun a => (f a)[j]? := by
  induction l generalizing i with
  | nil => simp
  | cons a rest ih =>
    rw [List.flatMap_cons]
    cases i with
    | zero => rw [Nat.mul_zero, Nat.zero_add, List.getElem?_append_left (by rw [hpieces]; exact hj)]; rfl
    | succ i =>
      have hpast : n * (i + 1) + j - n = n * i + j := by rw [Nat.mul_succ]; omega
      rw [List.getElem?_append_right (by rw [hpieces, Nat.mul_succ]; omega), hpieces, hpast, ih, List.getElem?_cons_succ]

/-- A list put together from pieces of length `n` is `n` times as long as the list of pieces. -/
theorem length_flatMap_pieces {α β : Type} {f : α → List β} {n : Nat} (hpieces : ∀ a, (f a).length = n) (l : List α) :
    (l.flatMap f).length = l.length * n := by
  simp [List.length_flatMap, hpieces]

/-! ### Symbols (R167) -/

/-- The level of two bits stands for these two bits. -/
@[simp] theorem grayBits_grayLevel {b : Nat} (hb : b < 4) : grayBits (grayLevel b) = b := by
  interval_cases b <;> rfl

@[simp] theorem byteLevels_length (b : Byte) : (byteLevels b).length = 4 := by rw [byteLevels, List.length_map, List.length_range]

@[simp] theorem levelsOf_length (bs : List Byte) : (levelsOf bs).length = bs.length * 4 :=
  length_flatMap_pieces byteLevels_length bs

/-- Symbol `4 * i + j` of a byte string stands for bits `2 * j + 1 .. 2 * j` of byte `i`. -/
theorem grayBits_levelsOf {bs : List Byte} {i j : Nat} {b : Byte} (hbyte : bs[i]? = some b) (hj : j < 4) :
    grayBits ((levelsOf bs)[4 * i + j]?.getD 0) = bits b.toNat (2 * j) 2 := by
  rw [levelsOf, getElem?_flatMap_pieces byteLevels_length bs i hj, hbyte, Option.bind_some, byteLevels, List.getElem?_map,
    List.getElem?_range hj]
  exact grayBits_grayLevel (Nat.mod_lt _ (by decide))

/-- The four pairs of bits of a byte make up the byte. -/
theorem byte_of_pairs (b : Byte) :
    BitVec.ofNat 8 (at_ 0 (bits b.toNat 0 2) + at_ 2 (bits b.toNat 2 2) + at_ 4 (bits b.toNat 4 2) + at_ 6 (bits b.toNat 6 2))
      = b := by
  have hb := b.isLt
  apply BitVec.eq_of_toNat_eq
  simp only [at_, bits, BitVec.toNat_ofNat]
  omega

/-- The byte of the four symbols that a byte is sent as is this byte. -/
theorem levelByte_levelsOf {bs : List Byte} {i : Nat} {b : Byte} (hbyte : bs[i]? = some b) : levelByte (levelsOf bs) i = b := by
  have hsum : (List.range 4).foldl (fun n j => n + at_ (2 * j) (grayBits ((levelsOf bs)[4 * i + j]?.getD 0))) 0
      = (List.range 4).foldl (fun n j => n + at_ (2 * j) (bits b.toNat (2 * j) 2)) 0 :=
    List.foldl_ext _ _ _ fun n j hj => by rw [grayBits_levelsOf hbyte (List.mem_range.mp hj)]
  rw [levelByte, hsum]
  simpa [List.range_succ] using byte_of_pairs b

/-! ### Transfer blocks (R79, R167) -/

/-- A slice that lies within the bytes shows them. -/
theorem getElem?_slice {bs : List Byte} {off n j : Nat} (hinside : off + n ≤ bs.length) (hj : j < n) :
    (slice bs off n)[j]? = bs[off + j]? := by
  have hlen : j < ((bs.drop off).take n).length := by rw [List.length_take, List.length_drop]; omega
  rw [slice, List.getElem?_append_left hlen, List.getElem?_take_of_lt hj, List.getElem?_drop]

/-- A lane carries 4 bytes of every one of its transfer blocks. -/
@[simp] theorem laneBytes_length (w l : Nat) (flit : List Byte) : (laneBytes w l flit).length = 128 / w * 4 := by
  rw [laneBytes, length_flatMap_pieces (fun _ => slice_length _ _ _), List.length_range]

/-- Transfer block `k` of lane `l` is block `l + w * k` of the flit. -/
theorem getElem?_laneBytes {w l k j : Nat} {flit : List Byte} (hk : k < 128 / w) (hj : j < 4)
    (hinside : 4 * (l + w * k) + 4 ≤ flit.length) : (laneBytes w l flit)[4 * k + j]? = flit[4 * (l + w * k) + j]? := by
  rw [laneBytes, getElem?_flatMap_pieces (fun _ => slice_length _ _ _) _ k hj, List.getElem?_range hk]
  exact getElem?_slice hinside hj

/-- The lanes of a port bring each byte of a flit: byte `i` lies in transfer block `i / 4`, which is block `i / 4 / w` of lane
`i / 4 % w`. -/
theorem levelByte_flitLanes {w i : Nat} {flit : List Byte} (hw : 0 < w) (hdvd : 128 % w = 0) (hlen : flit.length = 512)
    (hi : i < flit.length) : levelByte ((flitLanes w flit)[i / 4 % w]?.getD []) (4 * (i / 4 / w) + i % 4) = flit[i] := by
  have hblock : i / 4 % w + w * (i / 4 / w) = i / 4 := Nat.mod_add_div _ _
  have hk : i / 4 / w < 128 / w := Nat.div_lt_div_of_lt_of_dvd (Nat.dvd_of_mod_eq_zero hdvd) (by omega)
  have hbyte : (laneBytes w (i / 4 % w) flit)[4 * (i / 4 / w) + i % 4]? = some flit[i] := by
    rw [getElem?_laneBytes hk (Nat.mod_lt i (by decide)) (by omega), hblock, Nat.div_add_mod, List.getElem?_eq_getElem hi]
  rw [flitLanes, List.getElem?_map, List.getElem?_range (Nat.mod_lt _ hw)]
  exact levelByte_levelsOf hbyte

/-- A flit spread over the lanes is brought back whole. -/
theorem flitOfLanes_flitLanes {w : Nat} {flit : List Byte} (hw : 0 < w) (hdvd : 128 % w = 0) (hlen : flit.length = 512) :
    flitOfLanes w (flitLanes w flit) = flit := by
  apply List.ext_getElem
  · rw [flitOfLanes, List.length_map, List.length_range, hlen]
  · intro i _ hi
    simp only [flitOfLanes, List.getElem_map, List.getElem_range]
    exact levelByte_flitLanes hw hdvd hlen hi

/-- Each lane of a flit carries its share of the 2,048 symbols. -/
theorem length_of_mem_flitLanes {w : Nat} {flit : List Byte} {l : List Level} (hw : 0 < w) (hdvd : 128 % w = 0)
    (hl : l ∈ flitLanes w flit) : l.length = 2048 / w := by
  obtain ⟨n, -, rfl⟩ := List.mem_map.mp hl
  obtain ⟨k, hk⟩ := Nat.dvd_of_mod_eq_zero hdvd
  have hall : 2048 = w * (k * 16) := by rw [← Nat.mul_assoc, ← hk]
  rw [levelsOf_length, laneBytes_length, hk, hall, Nat.mul_div_cancel_left _ hw, Nat.mul_div_cancel_left _ hw, Nat.mul_assoc]

/-- Settles O27: byte for byte the lanes bring the flit back, there are `w` of them, and each carries its share. -/
theorem flitsCrossTheLanes : Obligations.FlitsCrossTheLanes := fun w flit hw hdvd hlen =>
  ⟨flitOfLanes_flitLanes hw hdvd hlen, by rw [flitLanes, List.length_map, List.length_range],
    fun _ => length_of_mem_flitLanes hw hdvd⟩

end Sys2Proof.Machine
end

section
/-! What the commands of the Pass links answer while the block runs: flits, replay, training and recovery (O44), messages,
routes and probes (O45). -/
namespace Sys2Proof.Machine

/-! ### What a port transmits (R169, R178, R181) -/

/-- A port in Config or Up is in flit mode (R169, R182). -/
theorem transmit_flitMode {s : State} {p : Nat} (hstate : s.passState p = 3 ∨ s.passState p = 4) :
    transmit s p = transmitFlit s p := by
  rw [transmit, if_neg (by omega), if_neg (by omega), if_neg (by omega), if_pos hstate]

/-- A port that trains, and is not in the electrical idle after a failure, sends its next training frame (R181, R182; log
entry 67). -/
theorem transmit_train {s : State} {p : Nat} (hstate : s.passState p = 2) (hidle : s.armed ⟨.trainIdle, p, 0⟩ = false) :
    transmit s p = sendFrames s p (s.passPort p).phase (s.passPort p).lanes := by
  rw [transmit, if_neg (by omega), if_pos hstate, hidle, if_neg Bool.false_ne_true]

/-- During a pass of replay the next kept flit is sent (R178). -/
theorem transmitFlit_replays {s : State} {p : Nat} (hstays : (s.passPort p).downTo = none) (hmode : s.txMode p = 2) :
    transmitFlit s p = resend s p := by
  rw [transmitFlit, hstays, if_neg (by decide), if_pos hmode]

/-- With 512 flits not acknowledged, or nothing staged, an idle flit is sent (R169, R178). -/
theorem transmitFlit_idles {s : State} {p : Nat} (hstays : (s.passPort p).downTo = none) (hmode : s.txMode p ≠ 2)
    (hnone : s.txOutstanding p = 512 ∨ (s.passPort p).staging = []) : transmitFlit s p = sendIdle s p := by
  rw [transmitFlit, hstays, if_neg (by decide), if_neg hmode, if_pos (hnone.imp_right List.isEmpty_iff.mpr)]

/-- Else a flit of what is staged is built and sent (R169). -/
theorem transmitFlit_builds {s : State} {p : Nat} (hstays : (s.passPort p).downTo = none) (hmode : s.txMode p ≠ 2)
    (hroom : s.txOutstanding p ≠ 512) (hstaged : (s.passPort p).staging ≠ []) : transmitFlit s p = buildData s p := by
  rw [transmitFlit, hstays, if_neg (by decide), if_neg hmode,
    if_neg (not_or_intro hroom fun hempty => hstaged (List.isEmpty_iff.mp hempty))]

/-! ### What becomes of the bytes of a flit (R174) -/

/-- A flit that the FEC cannot correct is counted and raised (R174, R192). -/
theorem takeFlit_uncorrectable {s : State} {p : Nat} {raw : List Byte} (hfec : fecDecode raw = none) :
    takeFlit s p raw = badFlit s Obj.PASS_FEC_UE p := by
  rw [takeFlit, hfec]

/-- A flit whose corrected bytes pass the CRC has its corrections counted and its fields taken (R174). -/
theorem takeFlit_good {s : State} {p : Nat} {raw bs : List Byte} {fixes : List Nat}
    (hfec : fecDecode raw = some (bs, fixes)) (hcrc : leField bs 472 8 = crc64 (bs.take 472)) :
    takeFlit s p raw
      = goodFlit ((s.count Obj.PASS_FEC_CORRECTED p fixes.sum).count1 Obj.PASS_FEC_HIST (5 * p + fixes.foldl max 0)) p bs := by
  rw [takeFlit, hfec]
  exact if_neg (not_not_intro hcrc)

section Running
variable {dt : Nat} {s : State} (hrun : s.phase = .running)
include hrun

/-- A command that ends a timer and then acts under one test of the state has its effect when the timer is due and the test
holds once it has been stopped. -/
theorem run_dueTested {timer : Timer} {test : State → Prop} [DecidablePred test] (f : State → State)
    (hdue : (s.advance dt).due timer = true) (htest : test ((s.advance dt).disarm timer)) :
    run dt s (fun t => t.onDue timer fun t => if test t then f t else t) = .next (f ((s.advance dt).disarm timer)) := by
  rw [run_next _ hrun, onDue_due _ hdue, if_pos htest]

/-! ### Flits (R169, R174) -/

/-- While the block runs a Pass port transmits what its state has it transmit (R169). -/
theorem exec_flitTx_transmits {port : Nat} (hpass : (s.advance dt).isPass port = true) :
    exec (.flitTx dt port) s = .next (transmit (s.advance dt) port) := by
  have hphase : (s.advance dt).phase ≠ .chipReset := by rw [State.advance_phase, hrun]; decide
  show execFlitTx dt port s = _
  rw [execFlitTx, runPowered_next _ (by rw [hrun]; decide), hpass, if_neg (by decide), if_neg hphase]

/-- A Pass port in flit mode sends a flit (R169). -/
theorem exec_flitTx_sendsFlit {port : Nat} (hpass : (s.advance dt).isPass port = true)
    (hstate : (s.advance dt).passState port = 3 ∨ (s.advance dt).passState port = 4) :
    exec (.flitTx dt port) s = .next (transmitFlit (s.advance dt) port) := by
  rw [exec_flitTx_transmits hrun hpass, transmit_flitMode hstate]

/-- A Pass port in flit mode takes the flit that its lanes bring (R167, R174). -/
theorem exec_flitRx_takes {port : Nat} {lanes : List (List Level)} (hpass : (s.advance dt).isPass port = true)
    (hstate : (s.advance dt).passState port = 3 ∨ (s.advance dt).passState port = 4) :
    exec (.flitRx dt port lanes) s
      = .next (takeFlit (receivedBlocks (s.advance dt) port ((s.advance dt).flitBlocks port)) port
          (flitOfLanes (max 1 ((s.advance dt).portWidth port)) lanes)) := by
  have hflit : ((s.advance dt).passState port == 3 || (s.advance dt).passState port == 4) = true := by
    simpa only [Bool.or_eq_true, beq_iff_eq] using hstate
  show execFlitRx dt port lanes s = _
  rw [execFlitRx, run_next _ hrun, hpass, hflit, if_neg (by decide)]

/-- When the ACK timer ends the ack point advances (R176). -/
theorem exec_ackTimer_advances {port : Nat} (hdue : (s.advance dt).due ⟨.ack, port, 0⟩ = true) :
    exec (.ackTimer dt port) s = .next (advanceAck ((s.advance dt).disarm ⟨.ack, port, 0⟩) port) := by
  show execAckTimer dt port s = _
  rw [execAckTimer, run_next _ hrun, onDue_due _ hdue]

/-- When the replay timer ends its expiry is judged (R178). -/
theorem exec_replayTimer_expires {port : Nat} (hdue : (s.advance dt).due ⟨.replay, port, 0⟩ = true) :
    exec (.replayTimer dt port) s = .next (replayExpired ((s.advance dt).disarm ⟨.replay, port, 0⟩) port) := by
  show execReplayTimer dt port s = _
  rw [execReplayTimer, run_next _ hrun, onDue_due _ hdue]

/-- An uncorrectable error of the replay buffer of a port that is neither Disabled nor Held is raised and takes the port down
(R184, R192). -/
theorem exec_replayBufferUe_goesDown {port : Nat} (hpass : (s.advance dt).isPass port = true)
    (hon : (s.advance dt).passState port ≠ 0) (hfree : (s.advance dt).passState port ≠ 6) :
    exec (.replayBufferUe dt port) s = .next (passGoDown (raise (s.advance dt) 6 7 port) port 9 1) := by
  show execReplayBufferUe dt port s = _
  rw [execReplayBufferUe, run_next _ hrun, hpass, beq_false_of_ne hon, beq_false_of_ne hfree, if_neg (by decide)]

/-! ### Training (R181 to R183) -/

/-- A port in Detect that may train and finds receivers begins training (R183). -/
theorem exec_receiverDetect_trains {port : Nat} (hdetect : (s.advance dt).passState port = 1)
    (hmay : (s.advance dt).mayTrain port = true) :
    exec (.receiverDetect dt port) s
      = .next ((holdSwaps ((setPassState (((s.advance dt).setPass port { (s.advance dt).passPort port with
            lanes := freshLanes (s.advance dt) port, phase := 0 }).disarm ⟨.detect, port, 0⟩) port 2).putRegBit
          Obj.PASS_LINK_STATE port 23 ((s.advance dt).portKind port == 3)) port).arm ⟨.phase, port, 0⟩ 10000000) := by
  show execReceiverDetect dt port s = _
  rw [execReceiverDetect, run_next _ hrun, if_pos ⟨hdetect, hmay⟩]

/-- A training frame acts on a port whose training phase runs, and on one in Recovery (R181, R183). -/
theorem exec_trainingFrame_acts {port lane word : Nat} {inverted : Bool} {own : LaneReport}
    (htrains : ((s.advance dt).passState port = 2 ∧ (s.advance dt).armed ⟨.phase, port, 0⟩ = true)
      ∨ (s.advance dt).passState port = 5) :
    exec (.trainingFrame dt port lane word inverted own) s = .next (frameEffect (s.advance dt) port lane word inverted own) := by
  show execTrainingFrame dt port lane word inverted own s = _
  rw [execTrainingFrame, run_next _ hrun, if_pos htrains]

/-! ### Timers of a port that trains, configures or recovers (R182, R183) -/

/-- A port that has found no receivers within 12 ms looks again (R183). -/
theorem exec_detectTimeout_repeats {port : Nat} (hdue : (s.advance dt).due ⟨.detect, port, 0⟩ = true)
    (hdetect : ((s.advance dt).disarm ⟨.detect, port, 0⟩).passState port = 1) :
    exec (.detectTimeout dt port) s
      = .next (((s.advance dt).disarm ⟨.detect, port, 0⟩).arm ⟨.detect, port, 0⟩ 12000000) :=
  run_dueTested hrun (test := fun t => t.passState port = 1) (·.arm ⟨.detect, port, 0⟩ 12000000) hdue hdetect

/-- A training phase that has not ended in its time is a failure, and 1 ms of electrical idle begins (R182). -/
theorem exec_trainingPhaseTimeout_fails {port : Nat} (hdue : (s.advance dt).due ⟨.phase, port, 0⟩ = true)
    (htrain : ((s.advance dt).disarm ⟨.phase, port, 0⟩).passState port = 2) :
    exec (.trainingPhaseTimeout dt port) s
      = .next (((setPassReason ((s.advance dt).disarm ⟨.phase, port, 0⟩) port 1).count1 Obj.PASS_TRAIN_FAILS port).arm
          ⟨.trainIdle, port, 0⟩ 1000000) :=
  run_dueTested hrun (test := fun t => t.passState port = 2)
    (fun t => ((setPassReason t port 1).count1 Obj.PASS_TRAIN_FAILS port).arm ⟨.trainIdle, port, 0⟩ 1000000) hdue htrain

/-- After the electrical idle the port returns to Detect (R182). -/
theorem exec_trainingIdleEnd_detects {port : Nat} (hdue : (s.advance dt).due ⟨.trainIdle, port, 0⟩ = true)
    (htrain : ((s.advance dt).disarm ⟨.trainIdle, port, 0⟩).passState port = 2) :
    exec (.trainingIdleEnd dt port) s
      = .next ((setPassState ((s.advance dt).disarm ⟨.trainIdle, port, 0⟩) port 1).arm ⟨.detect, port, 0⟩ 12000000) :=
  run_dueTested hrun (test := fun t => t.passState port = 2)
    (fun t => (setPassState t port 1).arm ⟨.detect, port, 0⟩ 12000000) hdue htrain

/-- A port whose Config does not end in its time goes down with reason 2 (R183). -/
theorem exec_configTimeout_goesDown {port : Nat} {t : State} (hdue : (s.advance dt).due ⟨.config, port, 0⟩ = true)
    (ht : t = (s.advance dt).disarm ⟨.config, port, 0⟩) (hconfig : t.passState port = 3) :
    exec (.configTimeout dt port) s = .next (passLinkDown (setPassReason t port 2) port (t.passAfterDown port)) :=
  ht ▸ run_dueTested hrun (test := fun t => t.passState port = 3)
    (fun t => passLinkDown (setPassReason t port 2) port (t.passAfterDown port)) hdue (ht ▸ hconfig)

/-- A port whose Recovery does not end in its time goes down with reason 6 (R183). -/
theorem exec_recoveryTimeout_goesDown {port : Nat} {t : State} (hdue : (s.advance dt).due ⟨.recovery, port, 0⟩ = true)
    (ht : t = (s.advance dt).disarm ⟨.recovery, port, 0⟩) (hrecovery : t.passState port = 5) :
    exec (.recoveryTimeout dt port) s = .next (passLinkDown (setPassReason t port 6) port (t.passAfterDown port)) :=
  ht ▸ run_dueTested hrun (test := fun t => t.passState port = 5)
    (fun t => passLinkDown (setPassReason t port 6) port (t.passAfterDown port)) hdue (ht ▸ hrecovery)

/-- A port that loses lock on one of its lanes enters Recovery, as far as its state lets it (R183). -/
theorem exec_laneLockLoss_recovers {port lane : Nat} (hpass : (s.advance dt).isPass port = true)
    (hlane : lane < (s.advance dt).portWidth port) :
    exec (.laneLockLoss dt port lane) s = .next (enterRecovery (s.advance dt) port) :=
  run_tested hrun (test := fun t => t.isPass port && decide (lane < t.portWidth port)) (enterRecovery · port)
    (Bool.and_eq_true_iff.mpr ⟨hpass, decide_eq_true hlane⟩)

/-- When the microsecond of LINK_CMD 2 has passed the link goes down, and the port enters the state it chose (R184). -/
theorem exec_goingDown_goesDown {port n : Nat} {t : State} (hdue : (s.advance dt).due ⟨.goingDown, port, 0⟩ = true)
    (ht : t = (s.advance dt).disarm ⟨.goingDown, port, 0⟩) (hdown : (t.passPort port).downTo = some n) :
    exec (.goingDown dt port) s = .next (passLinkDown t port (if n = 1 then t.passAfterDown port else n)) := by
  subst ht
  show execGoingDown dt port s = _
  rw [execGoingDown, run_next _ hrun, onDue_due _ hdue]
  simp only [hdown]

/-! ### Messages and HELLO (R171, R173, R187) -/

/-- A message that may leave the receive pool of its port is taken out of it and placed (R173, R190). -/
theorem exec_passMessage_places {port : Nat} {msg : List Byte} {m : PoolMsg} {r : State × PoolMsg}
    (hpool : ((s.advance dt).passPort port).rxPool.find? (fun m => m.bytes == msg) = some m)
    (hmay : mayLeavePool (s.advance dt) port m = true) (htake : takePool (s.advance dt) port m.bytes = some r) :
    exec (.passMessage dt port msg) s = .next (placeMessage r.1 port r.2) := by
  show execPassMessage dt port msg s = _
  rw [execPassMessage, run_next _ hrun, withSome_some _ hpool, poolToBasin, if_pos hmay, htake]

/-- A HELLO of full length that reaches a port in Config is checked (R187, R188, R334). -/
theorem exec_hello_checked {port : Nat} {msg : List Byte} {t : State} (htaken : takeLink (s.advance dt) port 0x60 msg = some t)
    (hconfig : (s.advance dt).passState port = 3) (hlen : msg.length = 48) :
    exec (.hello dt port msg) s = .next (helloEffect t port msg) := by
  show execHello dt port msg s = _
  rw [execHello, run_next _ hrun, withSome_some _ htaken, if_pos ⟨hconfig, hlen⟩]

/-! ### Routes (R188) -/

/-- A ROUTE taken from the receive pool acts (R188). -/
theorem exec_route_acts {port : Nat} {msg : List Byte} {t : State} (htaken : takeLink (s.advance dt) port 0x61 msg = some t) :
    exec (.route dt port msg) s = .next (routeEffect t port msg) := by
  show execRoute dt port msg s = _
  rw [execRoute, run_next _ hrun, withSome_some _ htaken]

/-- With no ROUTE timer running, ROUTE is sent and follows again after 100 ms (R188). -/
theorem exec_routeSend_sends (hidle : (s.advance dt).armed ⟨.route, 0, 0⟩ = false) :
    exec (.routeSend dt) s = .next ((sendRoutes (s.advance dt)).arm ⟨.route, 0, 0⟩ 100000000) := by
  show execRouteSend dt s = _
  rw [execRouteSend, run_next _ hrun, hidle, if_neg fun hruns => Bool.false_ne_true hruns.1]

/-- The entry of a switch that has stayed unreachable for its second is cleared, and ROUTE goes out (R188). -/
theorem exec_routeEntryClear_clears {switch : Nat} {t : State} (hdue : (s.advance dt).due ⟨.unreachable, switch, 0⟩ = true)
    (ht : t = (s.advance dt).disarm ⟨.unreachable, switch, 0⟩) (hlost : t.routeValid switch = false) :
    exec (.routeEntryClear dt switch) s = .next (sendRoutes (evalRegime (t.setReg Obj.PASS_DOMAIN_TABLE switch 0))) := by
  subst ht
  show execRouteEntryClear dt switch s = _
  rw [execRouteEntryClear, run_next _ hrun, onDue_due _ hdue, hlost, if_neg Bool.false_ne_true]

/-! ### Probes (R191) -/

/-- A port in flit mode whose PROBE is due sends it with its next tag, and the next in a second (R191). -/
theorem exec_probeSend_sends {port : Nat} {p t : State}
    (hstate : (s.advance dt).passState port = 3 ∨ (s.advance dt).passState port = 4)
    (hdue : (s.advance dt).due ⟨.probe, port, 0⟩ = true) (hp : p = (s.advance dt).disarm ⟨.probe, port, 0⟩)
    (ht : t = sendOwn p port (probeBytes p port 0x62 (p.passPort port).nextTag 0)) :
    exec (.probeSend dt port) s
      = .next ((t.setPass port { t.passPort port with nextTag := ((p.passPort port).nextTag + 1) % 2 ^ 32 }).arm
          ⟨.probe, port, 0⟩ 1000000000) := by
  subst ht hp
  show execProbeSend dt port s = _
  rw [execProbeSend, run_next _ hrun, if_pos hstate, onDue_due _ hdue]

/-- A PROBE is answered with its tag and its time (R191). -/
theorem exec_probe_replies {port : Nat} {msg : List Byte} {t : State} (htaken : takeLink (s.advance dt) port 0x62 msg = some t)
    (hlen : msg.length = 32) :
    exec (.probe dt port msg) s
      = .next (sendOwn t port (probeBytes t port 0x63 (leField msg 12 4) (leField msg 16 8))) := by
  show execProbe dt port msg s = _
  rw [execProbe, run_next _ hrun, withSome_some _ htaken, if_neg (not_not_intro hlen)]

/-- A reply to a PROBE of the last second gives the round-trip time of its port (R191). -/
theorem exec_probeReply_measures {port : Nat} {msg : List Byte} {t : State} {x : Probe}
    (htaken : takeLink (s.advance dt) port 0x63 msg = some t) (hlen : msg.length = 32)
    (hsent : (t.passPort port).probes.find?
      (fun x => x.tag == leField msg 12 4 && decide (t.now ≤ x.at_ + 1000000000)) = some x) :
    exec (.probeReply dt port msg) s
      = .next ((t.setPass port { t.passPort port with
            probes := (t.passPort port).probes.filter (fun y => y.tag != x.tag) }).setReg Obj.PASS_RTT port
          (t.timeBase - leField msg 16 8 - t.flitTime port)) := by
  show execProbeReply dt port msg s = _
  rw [execProbeReply, run_next _ hrun, withSome_some _ htaken, if_neg (not_not_intro hlen)]
  simp only [hsent]

end Running

/-- Settles O44: the clause of each command is its lemma above, with `u` the state after the time passed; a port transmits what
its state and its mode give, and a flit is judged by its bytes. That FLIT_TX stands for the next training frame of a port
that trains is log entry 67. -/
theorem passComplete : Obligations.PassComplete := by
  rintro dt s _ rfl hrun
  exact ⟨fun _ hpass hstate hstays hmode hroom hstaged => (exec_flitTx_sendsFlit hrun hpass hstate).trans
      (congrArg _ (transmitFlit_builds hstays hmode hroom hstaged)),
    fun _ hpass hstate hstays hmode => (exec_flitTx_sendsFlit hrun hpass hstate).trans
      (congrArg _ (transmitFlit_replays hstays hmode)),
    fun _ hpass hstate hstays hmode hnone => (exec_flitTx_sendsFlit hrun hpass hstate).trans
      (congrArg _ (transmitFlit_idles hstays hmode hnone)),
    fun _ hpass hstate hidle => (exec_flitTx_transmits hrun hpass).trans (congrArg _ (transmit_train hstate hidle)),
    fun _ _ _ _ _ hpass hstate ht hfec hcrc => ht ▸ (exec_flitRx_takes hrun hpass hstate).trans
      (congrArg _ (takeFlit_good hfec hcrc)),
    fun _ _ _ hpass hstate ht hfec => ht ▸ (exec_flitRx_takes hrun hpass hstate).trans
      (congrArg _ (takeFlit_uncorrectable hfec)),
    fun _ => exec_ackTimer_advances hrun,
    fun _ => exec_replayTimer_expires hrun,
    fun _ => exec_receiverDetect_trains hrun,
    fun _ => exec_detectTimeout_repeats hrun,
    fun _ _ _ _ _ hrecovery => exec_trainingFrame_acts hrun (.inr hrecovery),
    fun _ => exec_trainingPhaseTimeout_fails hrun,
    fun _ => exec_trainingIdleEnd_detects hrun,
    fun _ hdue => exec_configTimeout_goesDown hrun hdue rfl,
    fun _ hdue => exec_recoveryTimeout_goesDown hrun hdue rfl,
    fun _ _ => exec_laneLockLoss_recovers hrun,
    fun _ _ hdue => exec_goingDown_goesDown hrun hdue rfl,
    fun _ => exec_replayBufferUe_goesDown hrun⟩

/-- Settles O45: the clause of each command is its lemma above, with `u` the state after the time passed; a recomputation of the
routes is one write of an object. -/
theorem passMessagesComplete : Obligations.PassMessagesComplete := by
  rintro dt s _ rfl hrun
  exact ⟨fun _ _ _ _ => exec_passMessage_places hrun,
    fun _ _ _ => exec_hello_checked hrun,
    fun _ _ _ => exec_route_acts hrun,
    exec_routeSend_sends hrun,
    fun _ hdue => exec_routeEntryClear_clears hrun hdue rfl,
    fun _ => run_serveWrite_wrote hrun,
    fun _ _ _ => exec_probeSend_sends hrun,
    fun _ _ _ => exec_probe_replies hrun,
    fun _ _ _ _ => exec_probeReply_measures hrun⟩

end Sys2Proof.Machine
end

section
/-! What the commands of Steppe memory answer while the block runs (O46). -/
namespace Sys2Proof.Machine

section Running
variable {dt : Nat} {s : State} (hrun : s.phase = .running)
include hrun

/-! ### Reads, writes and initialisation (R197, R204, R205, R208, R215) -/

/-- A command at a Steppe address that exists runs as any other (R195). -/
theorem atSteppe_running {a : Nat} (hinside : a < steppeEnd) (f : State → State) :
    atSteppe dt a s f = .next (f (s.advance dt)) := by
  rw [atSteppe_inside _ hinside, run_next _ hrun]

/-- A read of a line of ready memory answers its data (R204). -/
theorem exec_steppeRead_answers {addr expected : Nat} {errors : DramErrors} {r : State × LineRead} (hinside : addr < steppeEnd)
    (hready : (s.advance dt).steppeReady = true)
    (hr : r = readLine (meetErrors (s.advance dt) (addr / 64) errors) (addr / 64) expected) :
    exec (.steppeRead dt addr expected errors) s = .next (r.1.emit (.steppeData (addr / 64 * 64) r.2.data r.2.poison)) := by
  subst hr
  show execSteppeRead dt addr expected errors s = _
  rw [execSteppeRead, atSteppe_running hrun hinside, hready, if_neg (by decide)]

/-- A write that finds room in its channel's queue is accepted (R197, R205; the drain of the queue: log entry 90). -/
theorem exec_steppeWrite_stores {addr : Nat} {line : StoredLine} (hinside : addr < steppeEnd)
    (hready : (s.advance dt).steppeReady = true) (hroom : (s.advance dt).writeRoom (addr / 64) = true) :
    exec (.steppeWrite dt addr line) s = .next (putLine (s.advance dt) (addr / 64) { line with tag := line.tag % 4096 }) := by
  show execSteppeWrite dt addr line s = _
  rw [execSteppeWrite, atSteppe_running hrun hinside, hready, hroom, if_neg (by decide)]

/-- In Start-up firmware initialises the memory, every stack of which calibrates (R208, R215). -/
theorem exec_steppeInit_initialises {badSpares : List SpareRow} {failedStacks : List Nat} (hstartUp : (s.advance dt).devState = 0)
    (hfirmware : (s.advance dt).firmware = true) (hoff : (s.advance dt).reg Obj.STP_STATE = 0)
    (hcalibrates : failedStacks.filter (· < 4) = []) :
    exec (.steppeInit dt badSpares failedStacks) s
      = .next (testSpares (eraseAll ((countAllSpares { hardRepairs (s.advance dt) with
          stp := { (hardRepairs (s.advance dt)).stp with remaps := (hardRepairs (s.advance dt)).stp.saved } }).setReg
            Obj.STP_STATE 0 1)) badSpares) := by
  show execSteppeInit dt badSpares failedStacks s = _
  rw [execSteppeInit, run_next _ hrun, if_pos ⟨hstartUp, hfirmware, hoff⟩, hcalibrates]
  rfl

/-- The end of the initialisation stops the boot watchdog and has the replace causes evaluated (R208, R416, R466). -/
theorem exec_steppeReady_reports {t : State} (hinit : (s.advance dt).reg Obj.STP_STATE = 1)
    (ht : t = makePermanent (((s.advance dt).setReg Obj.STP_STATE 0 2).disarm ⟨.watchdog, 0, 0⟩)) :
    exec (.steppeReady dt) s = .next (report { t with boot := { t.boot with stage := .ready } } .replace) := by
  subst ht
  show execSteppeReady dt s = _
  rw [execSteppeReady, run_next _ hrun, if_pos hinit]

/-! ### Scrub (R209 to R211) -/

/-- The next line of its channel in a running pass, no beat of which is being spared, is scrubbed (R209, R210, R214). -/
theorem exec_scrubLine_scrubs {line : Nat} {errors : DramErrors} {t : State} (hinside : 64 * line < steppeEnd)
    (hready : (s.advance dt).steppeReady = true) (hpass : (s.advance dt).stp.scrubbing = true)
    (hnext : (s.advance dt).scrubDone (lineChannel line) = lineIndex line) (hfree : sparingHolds (s.advance dt) line = false)
    (ht : t = followUp (s.advance dt) (scrubEffect (meetErrors (s.advance dt) line errors) line) line) :
    exec (.scrubLine dt line errors) s
      = .next (showScrub { t with stp := { t.stp with done := assocPut t.stp.done (lineChannel line) (lineIndex line + 1) } }
          (t.regBits Obj.STP_SCRUB_STATUS 0 32 32)) := by
  subst ht
  show execScrubLine dt line errors s = _
  rw [execScrubLine, atSteppe_running hrun hinside]
  exact congrArg _ (if_pos (by rw [hready, hpass, hnext, hfree, beq_self_eq_true]; rfl))

/-- With no pass running a pass starts (R209, R211, R212). -/
theorem exec_scrubPassStart_starts {badSpares : List SpareRow} {t : State} (hready : (s.advance dt).steppeReady = true)
    (hidle : (s.advance dt).stp.scrubbing = false)
    (ht : t = { s.advance dt with stp := { (s.advance dt).stp with
      scrubbing := true, passes := (s.advance dt).stp.passes + 1, done := [],
      tracker := (s.advance dt).stp.tracker.map (fun e => (e.1, e.2.map (fun (t : Track) => { t with count := t.count / 2 }))),
      passStart := (s.advance dt).now, period := (s.advance dt).reg Obj.STP_SCRUB_PERIOD } }) :
    exec (.scrubPassStart dt badSpares) s
      = .next (testSpares (showScrub t (t.regBits Obj.STP_SCRUB_STATUS 0 32 32)) badSpares) := by
  subst ht
  show execScrubPassStart dt badSpares s = _
  rw [execScrubPassStart, run_next _ hrun, if_pos (by rw [hready, hidle]; rfl)]

/-- A pass whose channels have all done their lines ends (R209, R219). -/
theorem exec_scrubPassEnd_ends {t : State} (hready : (s.advance dt).steppeReady = true)
    (hpass : (s.advance dt).stp.scrubbing = true) (hdone : (List.range 128).all (s.advance dt).scrubbed = true)
    (ht : t = forEach (((s.advance dt).stp.draining.filter (fun d => d.2 < (s.advance dt).stp.passes)).map (·.1))
      { s.advance dt with stp := { (s.advance dt).stp with scrubbing := false, done := [] } } freeSlotAgain) :
    exec (.scrubPassEnd dt) s = .next (showScrub t ((t.regBits Obj.STP_SCRUB_STATUS 0 32 32 + 1) % 2 ^ 32)) := by
  subst ht
  show execScrubPassEnd dt s = _
  rw [execScrubPassEnd, run_next _ hrun, if_pos (by rw [hready, hpass, hdone]; rfl)]

/-- A channel that overruns its period by more than 1 % is raised (R211). -/
theorem exec_scrubLate_raises {channel : Nat} (hready : (s.advance dt).steppeReady = true)
    (hpass : (s.advance dt).stp.scrubbing = true) (hchannel : channel < 128) (hleft : (s.advance dt).scrubbed channel = false)
    (hlate : (s.advance dt).scrubOverrun = true) : exec (.scrubLate dt channel) s = .next (raise (s.advance dt) 7 8) :=
  run_tested hrun (test := fun t =>
    t.steppeReady && t.stp.scrubbing && decide (channel < 128) && !t.scrubbed channel && t.scrubOverrun) (raise · 7 8)
    (by rw [hready, hpass, decide_eq_true hchannel, hleft, hlate]; rfl)

/-! ### Sparing (R212 to R215) -/

/-- A channel that spares no row takes the next queued one that serves a user row (R213, R214). -/
theorem exec_spareRowStart_begins {channel bank row : Nat} {rest : List (Nat × Nat)} {t : State}
    (hready : (s.advance dt).steppeReady = true) (hidle : assocGet (s.advance dt).stp.sparing channel = none)
    (hqueue : assocGet (s.advance dt).stp.queue channel = some ((bank, row) :: rest))
    (ht : t = { s.advance dt with stp := { (s.advance dt).stp with queue := assocPut (s.advance dt).stp.queue channel rest } })
    (hserves : (servedRow t channel bank row).isSome = true) :
    exec (.spareRowStart dt channel) s = .next (beginSpare t channel bank row 0) := by
  subst ht
  show execSpareRowStart dt channel s = _
  rw [execSpareRowStart, run_next _ hrun, hready, hidle, hqueue, if_neg (by decide)]
  exact congrArg _ (if_pos hserves)

/-- The copy of a row ends: a spare that reads back well is switched in, one that does not has failed (R213, R214). -/
theorem exec_spareRowDone_ends {channel : Nat} {j : SpareJob} {readBack : Bool} {errors : List (Nat × DramErrors)}
    (hready : (s.advance dt).steppeReady = true) (hjob : assocGet (s.advance dt).stp.sparing channel = some j) :
    exec (.spareRowDone dt channel readBack errors) s
      = .next (if readBack then switchRow (copyRow (s.advance dt) channel j errors) channel j
          else spareFails (copyRow (s.advance dt) channel j errors) channel j) := by
  show execSpareRowDone dt channel readBack errors s = _
  rw [execSpareRowDone, run_next _ hrun, hready, if_neg (by decide), withSome_some _ hjob]

/-- Remaps that are not saved go into the wear record (R215). -/
theorem exec_remapSave_saves (hfirmware : (s.advance dt).firmware = true) (htraps : (s.advance dt).flt.traps = [])
    (hunsaved : (s.advance dt).stp.unsaved ≠ []) : exec (.remapSave dt) s = .next (saveWear (s.advance dt)) :=
  run_tested hrun (test := fun t => t.firmware && t.flt.traps.isEmpty && !t.stp.unsaved.isEmpty) saveWear
    (by rw [hfirmware, htraps, List.isEmpty_eq_false_iff.mpr hunsaved]; rfl)

/-! ### Temperature and inner corrections (R202, R221) -/

/-- The reading of one of the four stacks is shown, and its refresh band follows (R221). -/
theorem exec_stackTemp_follows {stack : Nat} {celsius : Int} (hstack : stack < 4) :
    exec (.stackTemp dt stack celsius) s
      = .next (refreshBand ((s.advance dt).setReg Obj.STP_TEMP stack (unsigned celsius 16)) stack celsius) := by
  show execStackTemp dt stack celsius s = _
  rw [execStackTemp, run_next _ hrun, if_pos hstack]

/-- The inner corrections of one of the four stacks are counted per channel (R202). -/
theorem exec_innerCorrectionReport_counts {stack : Nat} {counts : List Nat} (hstack : stack < 4) :
    exec (.innerCorrectionReport dt stack counts) s
      = .next (forEach (List.range 32) (s.advance dt)
          fun t c => t.count Obj.STP_INNER_CORRECTED (32 * stack + c) (channelSum counts c)) := by
  show execInnerCorrectionReport dt stack counts s = _
  rw [execInnerCorrectionReport, run_next _ hrun, if_pos hstack]

end Running

/-- Settles O46: the clause of each command is its lemma above, with `u` the state after the time passed; a queued row, a
sanitisation and a placement are writes of an object. -/
theorem steppeComplete : Obligations.SteppeComplete := by
  rintro dt s _ rfl hrun
  exact ⟨fun _ _ _ _ => exec_steppeRead_answers hrun,
    fun _ _ => exec_steppeWrite_stores hrun,
    fun _ _ => exec_steppeInit_initialises hrun,
    fun _ => exec_steppeReady_reports hrun,
    fun _ _ _ => exec_scrubLine_scrubs hrun,
    fun _ _ => exec_scrubPassStart_starts hrun,
    fun _ => exec_scrubPassEnd_ends hrun,
    fun _ => exec_scrubLate_raises hrun,
    fun _ _ _ _ _ => exec_spareRowStart_begins hrun,
    fun _ _ _ hready hjob => (exec_spareRowDone_ends hrun hready hjob).trans (congrArg _ (if_pos rfl)),
    fun _ _ _ hready hjob => (exec_spareRowDone_ends hrun hready hjob).trans (congrArg _ (if_neg Bool.false_ne_true)),
    fun _ _ => run_serveWrite_wrote hrun,
    exec_remapSave_saves hrun,
    fun _ => run_serveWrite_wrote hrun,
    fun _ _ => exec_stackTemp_follows hrun,
    fun _ _ => exec_innerCorrectionReport_counts hrun,
    fun _ _ => run_serveWrite_wrote hrun⟩

end Sys2Proof.Machine
end

section
/-! What a write of a Steppe line stores and what its channel's queue holds (O17), that the line reads back (O18), and the
frame of memory (O12). -/
namespace Sys2Proof.Machine

/-! ### The frame of memory -/

/-- Settles O12: a command outside the list of the storing ones leaves the store of memory and that of the line words. -/
theorem memoryFrame : Obligations.MemoryFrame := by
  intro c s t hstores h
  have hlisted : (leftAlone c).mem := by simp only [leftAlone, hstores, cond_false]
  have hstands : t.mem = s.mem ∧ t.lineMeta = s.lineMeta := (exec_moves c s t h).mem hlisted
  exact ⟨State.byte_of_mem hstands.1, fun n => by rw [State.lineWord, hstands.2, State.lineWord]⟩

/-! ### The write queues (R197) -/

/-- A queue only drains: as it stands now it holds no more lines than when it was last written. -/
theorem writeQueue_length_le {s : State} {c k : Nat} (h : ∀ q, assocGet s.stp.writes c = some q → q.lines.length ≤ k) :
    (s.writeQueue c).lines.length ≤ k := by
  unfold State.writeQueue
  cases hq : assocGet s.stp.writes c with
  | none => exact Nat.zero_le k
  | some q =>
    show (q.lines.drop _).length ≤ k
    rw [List.length_drop]
    exact (Nat.sub_le _ _).trans (h q hq)

/-- A queue stands as it is where its own entry does. -/
theorem writeQueue_congr {s t : State} {c : Nat} (hown : assocGet t.stp.writes c = assocGet s.stp.writes c)
    (hhot : t.stp.hot = s.stp.hot) (hnow : t.now = s.now) : t.writeQueue c = s.writeQueue c := by
  rw [State.writeQueue, State.writeQueue, hown, hhot, hnow]

theorem assocGet_put_same {α : Type} (l : List (Nat × α)) (k : Nat) (x : α) : assocGet (assocPut l k x) k = some x := by
  simp [assocGet, assocPut]

theorem assocGet_put_ne {α : Type} (l : List (Nat × α)) {j k : Nat} (x : α) (h : j ≠ k) :
    assocGet (assocPut l k x) j = assocGet l j := by
  rw [assocGet, assocPut, List.find?_cons_of_neg (by simpa using Ne.symm h), List.find?_filter, assocGet]
  congr 2
  funext e
  by_cases he : e.1 = j <;> simp [he, h]

theorem assocGet_drop_same {α : Type} (l : List (Nat × α)) (k : Nat) : assocGet (assocDrop l k) k = none := by
  simp [assocGet, assocDrop, List.find?_filter]

/-- The write of a line is the newest of its channel's queue, which keeps its 127 newest before it. -/
theorem putLine_writes (s : State) (n : Nat) (l : StoredLine) :
    (putLine s n l).stp.writes = assocPut s.stp.writes (lineChannel n)
      ⟨(s.writeQueue (lineChannel n)).lines.drop ((s.writeQueue (lineChannel n)).lines.length + 1 - 128) ++ [n],
        (s.writeQueue (lineChannel n)).since⟩ := rfl

/-- A write of a line keeps every queue within its 128 lines. -/
theorem putLine_queue_le {s : State} {c : Nat} (n : Nat) (l : StoredLine) (h : (s.writeQueue c).lines.length ≤ 128) :
    ((putLine s n l).writeQueue c).lines.length ≤ 128 := by
  by_cases hc : c = lineChannel n
  · subst hc
    refine writeQueue_length_le fun q hq => ?_
    rw [putLine_writes, assocGet_put_same] at hq
    rw [← Option.some.inj hq, List.length_append, List.length_drop, List.length_singleton]
    omega
  · have hqueue : (putLine s n l).writeQueue c = s.writeQueue c :=
      writeQueue_congr (by rw [putLine_writes, assocGet_put_ne _ _ hc]) rfl rfl
    rw [hqueue]
    exact h

/-! ### The write of a Steppe line (R205) -/

/-- A write of a Steppe line that completes lets time pass alone, or stores the line. -/
theorem execSteppeWrite_cases {dt addr : Nat} {line : StoredLine} {s t : State} (h : execSteppeWrite dt addr line s = .next t) :
    t = s.advance dt ∨ ∃ l, t = putLine (s.advance dt) (addr / 64) l := by
  obtain h | ⟨-, h⟩ := atSteppe_cases h
  · exact .inl h
  · split at h
    · exact .inl h
    · exact .inr ⟨_, h⟩

/-- A write to a channel without room is not accepted: only time passes (R197). -/
theorem exec_steppeWrite_waits {dt addr : Nat} {line : StoredLine} {s : State} (hinside : addr < steppeEnd)
    (hfull : (s.advance dt).writeRoom (addr / 64) = false) :
    exec (.steppeWrite dt addr line) s = .next (s.advance dt) := by
  show execSteppeWrite dt addr line s = _
  rw [execSteppeWrite, atSteppe_inside _ hinside]
  by_cases hrun : s.phase = .running
  · rw [run_next _ hrun, if_pos (by rw [hfull]; exact Bool.or_true _)]
  · exact run_idle _ hrun

/-- Settles O17: a write stores its line or nothing, a full queue lets time pass alone, and an accepted write keeps 127 lines
before it. How a queue drains is log entry 90. -/
theorem steppeWriteFrame : Obligations.SteppeWriteFrame := by
  refine ⟨fun dt addr line s t hwf h => ?_, ?_, fun s n c line => putLine_queue_le n line⟩
  · obtain rfl | ⟨l, rfl⟩ := execSteppeWrite_cases h
    · exact ⟨fun _ _ => rfl, fun _ _ => rfl, rfl, rfl, rfl, rfl⟩
    · exact ⟨putLine_byte_out (s := s.advance dt) hwf _ _, putLine_lineWord_ne (s := s.advance dt) hwf _ _, rfl, rfl, rfl, rfl⟩
  · rintro dt addr line s _ rfl
    exact exec_steppeWrite_waits

/-! ### Encryption (R217) -/

/-- The bytes of a block stand for the block. -/
theorem ofNat_ofLe_leBytes {n : Nat} (x : BitVec (8 * n)) : BitVec.ofNat (8 * n) (ofLe (leBytes x.toNat n)) = x := by
  have hlt : x.toNat < 256 ^ n := lt_of_lt_of_eq x.isLt (Nat.pow_mul 2 8 n)
  rw [ofLe_leBytes, Nat.mod_eq_of_lt hlt, BitVec.ofNat_toNat, BitVec.setWidth_eq]

/-- Bytes are those of the block that they stand for. -/
theorem leBytes_ofNat_ofLe {n : Nat} {bs : List Byte} (hlen : bs.length = n) :
    leBytes (BitVec.ofNat (8 * n) (ofLe bs)).toNat n = bs := by
  subst hlen
  have hlt : ofLe bs < 2 ^ (8 * bs.length) := lt_of_lt_of_eq (ofLe_lt bs) (Nat.pow_mul 2 8 _).symm
  rw [BitVec.toNat_ofNat, Nat.mod_eq_of_lt hlt, leBytes_ofLe]

/-- A line with a tag that is no slot is stored as it is (R200). -/
theorem cipher_plaintext (s : State) {slot : Nat} (l : Nat) (data : List Byte) (h : isSlot slot = false) :
    cipher s slot l data = data := if_neg (by rw [h]; decide)

/-- A line with a tag that is no slot reads as it is stored (R200). -/
theorem plain_plaintext (s : State) {slot : Nat} (l : Nat) (data : List Byte) (h : isSlot slot = false) :
    plain s slot l data = data := if_neg (by rw [h]; decide)

/-- Decryption undoes encryption (R217; that XTS under a key and a tweak is a permutation is log entry 3). -/
theorem plain_cipher (s : State) (slot l : Nat) {data : List Byte} (hlen : data.length = 64) :
    plain s slot l (cipher s slot l data) = data := by
  cases hslot : isSlot slot with
  | false => rw [plain_plaintext _ _ _ hslot, cipher_plaintext _ _ _ hslot]
  | true =>
    rw [plain, cipher, if_pos hslot, if_pos hslot, padTo_of_length hlen, padTo_of_length (leBytes_length _ _),
      ofNat_ofLe_leBytes (n := 64), Equiv.symm_apply_apply, leBytes_ofNat_ofLe (n := 64) hlen]

/-! ### Reads of a line (R204) -/

/-- The interval parts are no output. -/
theorem intervals_out (s : State) (parts : List (Nat × Nat)) :
    ({ s with tlm := { s.tlm with intervals := parts } } : State).out = s.out := rfl

/-- An event of a counter sends nothing. -/
theorem bumpCounter_out (n : Nat) (s : State) (k : Nat × Nat) : (bumpCounter n s k).out = s.out :=
  (intervals_out (s.setReg k.1 k.2 (bumpWord (s.reg k.1 k.2) n)) _).trans (State.setReg_out _ _ _ _)

/-- What sends nothing for any element of a list sends nothing for all of them. -/
theorem forEach_out {α : Type} {f : State → α → State} (hf : ∀ t a, (f t a).out = t.out) (l : List α) (s : State) :
    (forEach l s f).out = s.out := by
  induction l generalizing s with
  | nil => rfl
  | cons a l ih => exact (ih _).trans (hf s a)

/-- A counter that counts sends nothing, nor do the programmable counters that select it. -/
@[simp] theorem State.count_out (s : State) (a e n : Nat) : (s.count a e n).out = s.out := by
  by_cases hn : n = 0
  · rw [State.count, if_pos hn]
  · rw [State.count, if_neg hn, forEach_out fun t k => bumpCounter_out n t _]
    exact bumpCounter_out n s (a, e)

@[simp] theorem State.count1_out (s : State) (a e : Nat) : (s.count1 a e).out = s.out := State.count_out s a e 1

/-- A line in which no error stands is read as it is held. -/
theorem readLine_clean {s : State} {n : Nat} (hclean : assocGet s.stp.faults n = none) (expected : Nat) :
    readLine s n expected = checkLine s n expected (s.view n) := by
  rw [readLine, decodeEffect, decodeLine, hclean]

/-- A line in which no error stands, read with its own tag, which is neither the erased one nor that of a Draining slot, gives
what it holds, decrypted, with its poison; a poisoned one is counted (R204 steps 3 to 6). -/
theorem readLine_ownTag {s : State} {n : Nat} (hclean : assocGet s.stp.faults n = none) (herased : s.lineTag n ≠ 0xFFF)
    (hdrain : s.keyState (s.lineTag n) ≠ 2) :
    readLine s n (s.lineTag n)
      = (if s.linePoison n then s.count1 Obj.STP_POISON_READS 0 else s,
          ⟨plain s (s.lineTag n) n (s.bytes (64 * n) 64), s.linePoison n⟩) := by
  rw [readLine_clean hclean]
  cases hpoison : s.linePoison n with
  | true => exact (if_neg (not_or_intro herased hdrain)).trans (if_pos hpoison)
  | false =>
    exact ((if_neg (not_or_intro herased hdrain)).trans (if_neg (ne_true_of_eq_false hpoison))).trans
      (if_neg fun hother => hother.1 rfl)

/-! ### The metadata word (R199) -/

theorem b2n_lt (b : Bool) : b2n b < 2 := by cases b <;> decide

theorem metaWord_tag {tag : Nat} (poison tracked : Bool) (htag : tag < 4096) : bits (metaWord poison tracked tag) 18 12 = tag := by
  have hpoison := b2n_lt poison
  have htracked := b2n_lt tracked
  unfold metaWord bits at_
  omega

theorem metaWord_poison {tag : Nat} (poison tracked : Bool) (htag : tag < 4096) :
    bitAt (metaWord poison tracked tag) 31 = poison := by
  have hpoison := b2n_lt poison
  have htracked := b2n_lt tracked
  have hbit : metaWord poison tracked tag / 2 ^ 31 % 2 = b2n poison := by unfold metaWord at_; omega
  rw [bitAt, hbit]
  cases poison <;> rfl

/-! ### A written line reads back -/

theorem State.advance_zero (s : State) : s.advance 0 = s := rfl

/-- An access that meets no errors leaves none in its line. -/
theorem meetErrors_none (s : State) (n : Nat) : meetErrors s n ⟨[], none, none⟩ = clearFaults s n := rfl

/-- A line that was written, read with its tag by a read that meets no errors, gives the data written. -/
theorem readLine_putLine {s : State} {n : Nat} {line : StoredLine} (hwf : s.wf) (hlen : line.data.length = 64)
    (htag : line.tag < 4096) (herased : line.tag ≠ 0xFFF) (hdrain : s.keyState line.tag ≠ 2) :
    readLine (clearFaults (putLine s n line) n) n line.tag
      = (if line.poison then (clearFaults (putLine s n line) n).count1 Obj.STP_POISON_READS 0 else clearFaults (putLine s n line) n,
          ⟨line.data, line.poison⟩) := by
  have hword : (clearFaults (putLine s n line) n).lineWord n = metaWord line.poison line.tracked line.tag :=
    putLine_lineWord hwf n line
  have hownTag : (clearFaults (putLine s n line) n).lineTag n = line.tag := by
    rw [State.lineTag, hword, metaWord_tag _ _ htag]
  have hpoison : (clearFaults (putLine s n line) n).linePoison n = line.poison := by
    rw [State.linePoison, hword, metaWord_poison _ _ htag]
  have hbytes : (clearFaults (putLine s n line) n).bytes (64 * n) 64 = cipher s line.tag n line.data :=
    (putLine_bytes hwf n line).trans (by rw [padTo_of_length hlen])
  have hdata : plain (clearFaults (putLine s n line) n) line.tag n (cipher s line.tag n line.data) = line.data :=
    plain_cipher s line.tag n hlen
  have hread := readLine_ownTag (s := clearFaults (putLine s n line) n) (n := n) (assocGet_drop_same _ _)
    (by rw [hownTag]; exact herased) (by rw [hownTag]; exact hdrain)
  rwa [hownTag, hpoison, hbytes, hdata] at hread

/-- Settles O18: decryption undoes encryption (log entry 3), and the read finds the line that the write has stored. -/
theorem steppeLineReadsBack : Obligations.SteppeLineReadsBack := by
  refine ⟨fun s slot l data hlen => ⟨plain_cipher s slot l hlen, cipher_plaintext s l data⟩, ?_⟩
  intro dt addr line s hwf hrun hready hinside hroom hlen htag herased hdrain
  have hwrite := exec_steppeWrite_stores (line := line) hrun hinside hready hroom
  rw [Nat.mod_eq_of_lt htag] at hwrite
  have hread := exec_steppeRead_answers (dt := 0) (expected := line.tag) (errors := ⟨[], none, none⟩)
    (s := putLine (s.advance dt) (addr / 64) line) hrun hinside hready rfl
  rw [State.advance_zero, meetErrors_none, readLine_putLine (s := s.advance dt) hwf hlen htag herased hdrain] at hread
  refine ⟨_, _, hwrite, hread, ?_⟩
  rw [State.emit_out]
  split
  · rw [State.count1_out]; rfl
  · rfl

end Sys2Proof.Machine
end

section
/-! What the host's writes into the system region store: outbound data of its pair (O19), its descriptor area (O20). -/
namespace Sys2Proof.Machine

/-! ### Operations that store to one line at most -/

/-- From `s` to `t` line `n` alone may have been stored to: every other byte and every other line's word stands, and the stores
stay canonical. -/
structure StoresLine (n : Nat) (s t : State) : Prop where
  wf   : s.wf → t.wf
  byte : s.wf → ∀ x, x / 64 ≠ n → t.byte x = s.byte x
  word : s.wf → ∀ m, m ≠ n → t.lineWord m = s.lineWord m

/-- What an operation leaves as it is that stores nothing in memory or flash, whatever becomes of registers and phase. -/
def storesNothing : Stands := ⟨True, True, False, False⟩

section
variable {n : Nat} {s t u : State}

theorem StoresLine.trans (h1 : StoresLine n s t) (h2 : StoresLine n t u) : StoresLine n s u :=
  ⟨fun hwf => h2.wf (h1.wf hwf), fun hwf x hx => (h2.byte (h1.wf hwf) x hx).trans (h1.byte hwf x hx),
    fun hwf m hm => (h2.word (h1.wf hwf) m hm).trans (h1.word hwf m hm)⟩

/-- An operation that leaves memory as it is stores to no line. -/
theorem StoresLine.of_keeps (h : Keeps ⟨s, storesNothing⟩ t) : StoresLine n s t :=
  ⟨h.wf, fun _ x _ => State.byte_of_mem (h.mem trivial).1 x,
    fun _ m _ => by rw [State.lineWord, (h.mem trivial).2, State.lineWord]⟩

theorem StoresLine.refl (n : Nat) (s : State) : StoresLine n s s := .of_keeps (Keeps.refl _ _)

end

/-- A byte outside line `n` lies before it or after it. -/
theorem outside_of_div_ne {n x : Nat} (h : x / 64 ≠ n) : x < 64 * n ∨ 64 * n + 64 ≤ x := by omega

theorem putLine_storesLine (s : State) (n : Nat) (l : StoredLine) : StoresLine n s (putLine s n l) :=
  ⟨(putLine_keeps s n l (Keeps.refl s ⟨False, False, False, False⟩) not_false).wf,
    fun hwf _ hx => putLine_byte_out hwf n l _ (outside_of_div_ne hx), fun hwf _ hm => putLine_lineWord_ne hwf n l _ hm⟩

/-- The rewriting of a corrected line stores its 64 bytes and its word (R204). -/
theorem rewriteLine_storesLine (s : State) (n : Nat) {v : LineView} (hlen : v.bytes.length ≤ 64) :
    StoresLine n s (rewriteLine s n v) :=
  ⟨(rewriteLine_keeps s n v (Keeps.refl s ⟨False, False, False, False⟩) not_false).wf,
    fun hwf x hx => State.setBytes_byte_out hwf _ _ _ ((outside_of_div_ne hx).imp_right (by omega)),
    fun hwf _ hm => sparseGet_put_ne hwf.2.2.1 _ _ _ hm⟩

/-! ### Reads of a line (R204) -/

theorem getRange_length {α : Type} (d : Nat → α) (l : List (Nat × α)) (a k : Nat) : (sparseGetRange d l a k).length = k := by
  induction k generalizing a with
  | zero => rfl
  | succ k ih => exact congrArg (· + 1) (ih (a + 1))

theorem getElem?_getRange {α : Type} (d : Nat → α) (l : List (Nat × α)) {a k i : Nat} (hi : i < k) :
    (sparseGetRange d l a k)[i]? = some (sparseGet d l (a + i)) := by
  induction k generalizing a i with
  | zero => exact absurd hi (Nat.not_lt_zero i)
  | succ k ih =>
    cases i with
    | zero => rfl
    | succ i =>
      rw [show a + (i + 1) = a + 1 + i by omega]
      exact ih (by omega)

theorem bytes_length (s : State) (a k : Nat) : (s.bytes a k).length = k := getRange_length _ _ _ _

theorem getElem?_bytes (s : State) {a k i : Nat} (hi : i < k) : (s.bytes a k)[i]? = some (s.byte (a + i)) :=
  getElem?_getRange _ _ hi

/-- A line of decoded bytes holds 64 of them at most. -/
theorem lineView_length_le (w : List Byte) : (lineView w).bytes.length ≤ 64 := List.length_take_le 64 w

/-- A codeword that the decoder settles on is corrected to the line of its own bytes. -/
theorem afterDecode_corrected {n k : Nat} {w : List Byte} {symbols beats : List Nat} {v : LineView}
    (h : afterDecode n w symbols = .corrected k beats v) : v = lineView w := by
  unfold afterDecode at h
  split at h
  · cases h
  · split at h <;> cases h
    rfl

/-- A line decoded with errors is corrected to 64 bytes at most. -/
theorem decodeWith_length_le {s : State} {n k : Nat} {e : DramErrors} {beats : List Nat} {v : LineView}
    (h : decodeWith s n e = .corrected k beats v) : v.bytes.length ≤ 64 := by
  unfold decodeWith at h
  extract_lets symbols stored at h
  split at h
  · split at h
    · split at h <;> cases h
      exact (bytes_length _ _ _).le
    · exact afterDecode_corrected h ▸ lineView_length_le _
  · split at h
    · cases h
    · unfold beyondLimit at h
      split at h
      · cases h
      · split at h
        · exact afterDecode_corrected h ▸ lineView_length_le _
        · cases h

/-- A line is corrected to 64 bytes at most. -/
theorem decodeLine_length_le {s : State} {n k : Nat} {beats : List Nat} {v : LineView}
    (h : decodeLine s n = .corrected k beats v) : v.bytes.length ≤ 64 := by
  unfold decodeLine at h
  split at h
  · cases h
  · exact decodeWith_length_le h

/-- What becomes of a line that cannot be corrected stores to that line alone (R207). -/
theorem badLine_storesLine (s : State) (n : Nat) (ue : Bool) : StoresLine n s (badLine s n ue) := by
  unfold badLine
  extract_lets c s1 s2
  have hcounted : StoresLine n s s1 := .of_keeps (Keeps.ite (State.count1_keeps _ _ _ (Keeps.refl _ _) not_false)
    (State.count1_keeps _ _ _ (Keeps.refl _ _) not_false))
  have htracked : StoresLine n s1 (trackBeats (s1.setReg Obj.STP_LAST_UE 0 n) n 4 (List.range 5)) :=
    .of_keeps (trackBeats_keeps _ _ _ _ (State.setReg_keeps _ _ _ _ (Keeps.refl _ _) not_false) not_false)
  have hpoisoned : StoresLine n s s2 := (hcounted.trans htracked).trans (putLine_storesLine _ n _)
  exact hpoisoned.trans (.of_keeps (raise_keeps _ _ _ _ (Keeps.refl _ _) not_false not_false))

/-- What becomes of a corrected line stores to that line alone (R204). -/
theorem correctedLine_storesLine (s : State) (n count : Nat) (beats : List Nat) {v : LineView} (rewrite : Bool)
    (hlen : v.bytes.length ≤ 64) : StoresLine n s (correctedLine s n count beats v rewrite) := by
  unfold correctedLine
  extract_lets c s2 s3
  have hreported : StoresLine n s s3 := .of_keeps (raise_keeps _ _ _ _ (trackBeats_keeps _ _ _ _
    (State.count_keeps _ _ _ _ (State.count1_keeps _ _ _ (Keeps.refl _ _) not_false) not_false) not_false) not_false not_false)
  split
  · exact hreported.trans (rewriteLine_storesLine _ n hlen)
  · exact hreported

/-- The decoding of a line stores to that line alone. -/
theorem decodeEffect_storesLine (s : State) (n : Nat) (scrub : Bool) : StoresLine n s (decodeEffect s n scrub).1 := by
  unfold decodeEffect
  split
  · exact .refl n s
  · exact correctedLine_storesLine _ _ _ _ _ (decodeLine_length_le (by assumption))
  · exact badLine_storesLine _ _ _
  · exact badLine_storesLine _ _ _

/-- A read of a line stores to that line alone. -/
theorem readLine_storesLine (s : State) (n expected : Nat) : StoresLine n s (readLine s n expected).1 := by
  have hdecoded := decodeEffect_storesLine s n false
  unfold readLine
  extract_lets r
  split
  · exact hdecoded
  · exact hdecoded.trans (.of_keeps (checkLine_keeps _ _ _ _ (Keeps.refl _ _) not_false not_false))

/-! ### Writes of a part of a line (R205; log entry 89) -/

/-- A write of a part of a line stores to that line alone. -/
theorem sysPart_storesLine (s : State) (a : Nat) (bs : List Byte) (n : Nat) : StoresLine n s (sysPart s a bs n) := by
  unfold sysPart
  extract_lets lo part r
  split
  · exact putLine_storesLine _ n _
  · exact (readLine_storesLine s n 0).trans (putLine_storesLine _ n _)

/-- Bytes that lie within one line are written into it. -/
theorem sysWrite_withinLine {s : State} {a : Nat} {bs : List Byte} (hready : s.steppeReady = true) (hsome : 0 < bs.length)
    (hwithin : a % 64 + bs.length ≤ 64) : s.sysWrite a bs = sysPart s a bs (a / 64) := by
  have hone : linesOf a bs.length = 1 := by unfold linesOf; omega
  rw [State.sysWrite, if_pos hready, hone]
  rfl

/-- Before the memory is ready a write is lost. -/
theorem sysWrite_lost {s : State} (a : Nat) (bs : List Byte) (hready : s.steppeReady = false) : s.sysWrite a bs = s :=
  if_neg (ne_true_of_eq_false hready)

theorem slice_whole (bs : List Byte) : slice bs 0 bs.length = bs := padTo_of_length rfl

/-- A part of a line is merged into the line as it reads, and that is written. -/
theorem sysPart_merges {s : State} {a : Nat} {bs : List Byte} (hpart : bs.length < 64) (hwithin : a % 64 + bs.length ≤ 64) :
    sysPart s a bs (a / 64)
      = putLine (readLine s (a / 64) 0).1 (a / 64)
          ⟨splice (readLine s (a / 64) 0).2.data (a % 64) bs, (readLine s (a / 64) 0).2.poison, false, 0⟩ := by
  have hlo : max a (64 * (a / 64)) = a := by omega
  have hend : min (a + bs.length) (64 * (a / 64) + 64) - a = bs.length := by omega
  have hat : a - 64 * (a / 64) = a % 64 := by omega
  unfold sysPart
  simp only [hlo, hend, hat, Nat.sub_self, slice_whole, if_neg hpart.ne]

/-- Bytes outside the part that is spliced in stand. -/
theorem getElem?_splice {bs new : List Byte} {off i : Nat} (hinside : off + new.length ≤ bs.length)
    (hi : i < off ∨ off + new.length ≤ i) : (splice bs off new)[i]? = bs[i]? := by
  unfold splice
  rw [List.getElem?_take]
  split
  · obtain hi | hi := hi
    · rw [List.append_assoc, List.getElem?_append_left (by rw [List.length_take]; omega), List.getElem?_take_of_lt hi]
    · rw [List.getElem?_append_right (by rw [List.length_append, List.length_take]; omega), List.getElem?_drop,
        List.length_append, List.length_take]
      congr 1
      omega
  · rw [List.getElem?_eq_none (by omega)]

theorem splice_length {bs new : List Byte} {off : Nat} (hinside : off + new.length ≤ bs.length) :
    (splice bs off new).length = bs.length := by
  unfold splice
  simp only [List.length_take, List.length_append, List.length_drop]
  omega

/-- A plaintext line in which no error stands is read as its bytes, and the read stores nothing. -/
theorem readLine_plaintext {s : State} {n : Nat} (hclean : assocGet s.stp.faults n = none) (htag : s.lineTag n = 0) :
    Keeps ⟨s, storesNothing⟩ (readLine s n 0).1 ∧ (readLine s n 0).2.data = s.bytes (64 * n) 64 := by
  have hkey : s.keyState 0 ≠ 2 := by rw [State.keyState, if_pos (.inl rfl)]; decide
  have hread := readLine_ownTag hclean (by rw [htag]; decide) (by rw [htag]; exact hkey)
  rw [htag] at hread
  rw [hread]
  refine ⟨Keeps.ite (State.count1_keeps _ _ _ (Keeps.refl _ _) not_false) (Keeps.refl _ _), ?_⟩
  show plain s 0 n (s.bytes (64 * n) 64) = _
  exact plain_plaintext s n _ rfl

/-- Of a plaintext line in which no error stands a write of a part leaves the bytes that are not written. -/
theorem sysPart_byte_out {s : State} {a x : Nat} {bs : List Byte} (hwf : s.wf) (hpart : bs.length < 64)
    (hwithin : a % 64 + bs.length ≤ 64) (hclean : assocGet s.stp.faults (a / 64) = none) (htag : s.lineTag (a / 64) = 0)
    (hx : x < a ∨ a + bs.length ≤ x) : (sysPart s a bs (a / 64)).byte x = s.byte x := by
  by_cases hline : x / 64 = a / 64
  · obtain ⟨hkeeps, hdata⟩ := readLine_plaintext hclean htag
    have hat : 64 * (a / 64) + x % 64 = x := by omega
    have hi : x % 64 < 64 := Nat.mod_lt _ (by decide)
    have hlen := bytes_length s (64 * (a / 64)) 64
    have hinside : a % 64 + bs.length ≤ (s.bytes (64 * (a / 64)) 64).length := by rw [hlen]; exact hwithin
    have hstored : (sysPart s a bs (a / 64)).bytes (64 * (a / 64)) 64 = splice (s.bytes (64 * (a / 64)) 64) (a % 64) bs := by
      rw [sysPart_merges hpart hwithin, putLine_bytes (hkeeps.wf hwf), cipher_plaintext _ _ _ rfl, hdata,
        padTo_of_length ((splice_length hinside).trans hlen)]
    have hsame := getElem?_splice hinside (i := x % 64) (by omega)
    rw [← hstored, getElem?_bytes _ hi, getElem?_bytes _ hi, hat] at hsame
    exact Option.some.inj hsame
  · exact (sysPart_storesLine s a bs _).byte hwf x hline

/-! ### What a write of the system region stores -/

/-- A write of `width` bytes at address `w` has stored to the line there alone, and of a plaintext line in which no error stood
to the bytes written alone. -/
structure StoresPart (w width : Nat) (s t : State) : Prop where
  line : StoresLine (w / 64) s t
  rest : s.wf → assocGet s.stp.faults (w / 64) = none → s.lineTag (w / 64) = 0 →
    ∀ x, x < w ∨ w + width ≤ x → t.byte x = s.byte x

section
variable {w width : Nat} {s t u : State}

/-- An operation that leaves memory as it is has stored no part of a line. -/
theorem StoresPart.of_keeps (h : Keeps ⟨s, storesNothing⟩ t) : StoresPart w width s t :=
  ⟨.of_keeps h, fun _ _ _ x _ => State.byte_of_mem (h.mem trivial).1 x⟩

/-- An answer that leaves the block stores nothing more. -/
theorem StoresPart.emit (h : StoresPart w width s t) (o : Out) : StoresPart w width s (t.emit o) :=
  ⟨⟨h.line.wf, h.line.byte, h.line.word⟩, h.rest⟩

end

/-- An aligned access has 4 or 8 bytes and stays within one line, at every address that lies in its line as the offset does. -/
theorem aligned48_width {offset width : Nat} (h : aligned48 offset width = true) :
    0 < width ∧ width < 64 ∧ ∀ a, a % 64 = offset % 64 → a % 64 + width ≤ 64 := by
  simp only [aligned48, Bool.and_eq_true, Bool.or_eq_true, beq_iff_eq] at h
  obtain ⟨rfl | rfl, h⟩ := h
  · exact ⟨by decide, by decide, fun a ha => by omega⟩
  · exact ⟨by decide, by decide, fun a ha => by omega⟩

/-- An aligned access of 4 or 8 bytes is written into one line. -/
theorem sysWrite_storesPart (s : State) {a offset width : Nat} (value : Nat) (haligned : aligned48 offset width = true)
    (ha : a % 64 = offset % 64) : StoresPart a width s (s.sysWrite a (leBytes value width)) := by
  obtain ⟨hsome, hpart, hline⟩ := aligned48_width haligned
  have hlen := leBytes_length value width
  have hwithin : a % 64 + (leBytes value width).length ≤ 64 := hlen.symm ▸ hline a ha
  cases hready : s.steppeReady with
  | false => rw [sysWrite_lost _ _ hready]; exact .of_keeps (Keeps.refl _ _)
  | true =>
    rw [sysWrite_withinLine hready (by rwa [hlen]) hwithin]
    exact ⟨sysPart_storesLine s a _ _, fun hwf hclean htag x hx =>
      sysPart_byte_out hwf (by rwa [hlen]) hwithin hclean htag (by rwa [hlen])⟩

/-! ### The host's windows (R375, R377, R385, R386) -/

/-- A write to a window changes nothing, is answered, or reaches what the window of its port shows. -/
inductive WindowOutcome (target : Option Nat) (s : State) (f : Nat → State) : State → Prop
  | ignored : WindowOutcome target s f s
  | answered (o : Out) : WindowOutcome target s f (s.emit o)
  | reached {p : Nat} (htarget : target = some p) : WindowOutcome target s f (f p)

/-- A write to the mailbox window reaches the pair of its port (R377). -/
theorem mailboxWindow_outcome (s : State) (port : Nat) (f : Nat → State) :
    WindowOutcome (mailboxPair s port) s f (mailboxWindow s port f) := by
  unfold mailboxWindow
  split
  · exact .ignored
  · split
    · next hfm => exact .reached (if_pos hfm)
    · next hfm =>
      rw [mailboxPair, if_neg hfm]
      cases s.portTenancy port with
      | none => exact .answered _
      | some p =>
        show WindowOutcome _ s f (if _ then _ else _)
        split
        · exact .answered _
        · exact .reached rfl

/-- A write to the Glen window reaches the tenancy of its port (R385, R386). -/
theorem glenWindow_outcome (s : State) (port : Nat) (f : Nat → State) :
    WindowOutcome (s.portTenancy port) s f (glenWindow s port f) := by
  unfold glenWindow
  split
  · exact .ignored
  · cases s.portTenancy port with
    | none => exact .answered _
    | some p =>
      show WindowOutcome _ s f (if _ then _ else _)
      split
      · exact .answered _
      · exact .reached rfl

/-- A window whose target's operation stores a part of a line at the target's place stores that part or nothing; with no
target it stores nothing. -/
theorem WindowOutcome.storesPart {target : Option Nat} {s t : State} {f : Nat → State} {place : Nat → Nat} {width : Nat}
    (h : WindowOutcome target s f t) (hstores : ∀ p, StoresPart (place p) width s (f p)) :
    (∀ p, target = some p → StoresPart (place p) width s t) ∧ (target = none → ∀ x, t.byte x = s.byte x) := by
  cases h with
  | ignored => exact ⟨fun _ _ => .of_keeps (Keeps.refl _ _), fun _ _ => rfl⟩
  | answered o => exact ⟨fun _ _ => .of_keeps (State.emit_keeps _ _ (Keeps.refl _ _)), fun _ _ => rfl⟩
  | reached htarget =>
    subst htarget
    exact ⟨fun p hp => Option.some.inj hp ▸ hstores _, fun hnone => nomatch hnone⟩

/-! ### Outbound data (R375, R376) -/

/-- A write of OUT_DATA stores a part of a line of the pair's outbound area. -/
theorem writeOut_storesPart (s : State) (a : WindowWrite) (p : Nat) (hoffset : 0x40100 ≤ a.offset) :
    StoresPart (outboxAddr p + (a.offset - 0x40100)) a.width s (writeOut s a p) := by
  unfold writeOut countRejected
  cases haligned : aligned48 a.offset a.width with
  | false => exact .of_keeps (State.emit_keeps _ _ (Keeps.refl _ _))
  | true =>
    split
    · contradiction
    · split
      · exact .of_keeps (State.emit_keeps _ _
          (Keeps.ite (State.count1_keeps _ _ _ (Keeps.refl _ _) not_false) (Keeps.refl _ _)))
      · exact (sysWrite_storesPart s a.value haligned (by unfold outboxAddr inboxAddr; omega)).emit _

/-- A host's write of outbound data that completes is one to its mailbox window, or nothing. -/
theorem execOutDataWrite_outcome {dt : Nat} {a : WindowWrite} {s t : State} (h : execOutDataWrite dt a s = .next t) :
    t = s.advance dt ∨ (0x40100 ≤ a.offset
      ∧ WindowOutcome (mailboxPair s a.port) (s.advance dt) (writeOut (s.advance dt) a) t) := by
  obtain rfl | ⟨-, rfl⟩ := run_cases h
  · exact .inl rfl
  · split
    · next hinside => exact .inr ⟨hinside.1, mailboxWindow_outcome (s.advance dt) _ _⟩
    · exact .inl rfl

/-- Settles O19: the window stores a part of a line of the pair it reaches. The merge of a part of a line is log entry 89. -/
theorem outboundDataFrame : Obligations.OutboundDataFrame := by
  intro dt a s t hwf h
  have hflash : t.flash = s.flash := (exec_moves (.outDataWrite dt a) s t h).flash trivial
  have hframe : (∀ p, mailboxPair s a.port = some p →
        StoresPart (outboxAddr p + (a.offset - 0x40100)) a.width (s.advance dt) t)
      ∧ (mailboxPair s a.port = none → ∀ x, t.byte x = s.byte x) := by
    obtain rfl | ⟨hoffset, houtcome⟩ := execOutDataWrite_outcome h
    · exact ⟨fun _ _ => .of_keeps (Keeps.refl _ _), fun _ _ => rfl⟩
    · exact houtcome.storesPart fun p => writeOut_storesPart _ a p hoffset
  refine ⟨fun p hpair => ?_, hframe.2, hflash⟩
  have hstores := hframe.1 p hpair
  exact ⟨hstores.line.byte hwf, hstores.line.word hwf, hstores.rest hwf⟩

/-! ### Descriptor areas (R387) -/

/-- A write of DESC_AREA stores a part of a line of the tenancy's area. -/
theorem writeDescArea_storesPart (s : State) (a : WindowWrite) (p : Nat) :
    StoresPart (descArea p + a.offset) a.width s (writeDescArea s a p) := by
  unfold writeDescArea
  split
  · next haligned => exact (sysWrite_storesPart s a.value haligned (by unfold descArea; omega)).emit _
  · exact .of_keeps (State.emit_keeps _ _ (Keeps.refl _ _))

/-- A host's write of its descriptor area that completes is one to its Glen window, or nothing. -/
theorem execDescAreaWrite_outcome {dt : Nat} {a : WindowWrite} {s t : State} (h : execDescAreaWrite dt a s = .next t) :
    t = s.advance dt ∨ WindowOutcome (s.portTenancy a.port) (s.advance dt) (writeDescArea (s.advance dt) a) t := by
  obtain rfl | ⟨-, rfl⟩ := run_cases h
  · exact .inl rfl
  · split
    · exact .inr (glenWindow_outcome (s.advance dt) _ _)
    · exact .inl rfl

/-- Settles O20: the window stores a part of a line of the tenancy it reaches. The merge of a part of a line is log entry 89. -/
theorem descriptorAreaFrame : Obligations.DescriptorAreaFrame := by
  intro dt a s t hwf h
  have hflash : t.flash = s.flash := (exec_moves (.descAreaWrite dt a) s t h).flash trivial
  have hframe : (∀ p, s.portTenancy a.port = some p → StoresPart (descArea p + a.offset) a.width (s.advance dt) t)
      ∧ (s.portTenancy a.port = none → ∀ x, t.byte x = s.byte x) := by
    obtain rfl | houtcome := execDescAreaWrite_outcome h
    · exact ⟨fun _ _ => .of_keeps (Keeps.refl _ _), fun _ _ => rfl⟩
    · exact houtcome.storesPart fun p => writeDescArea_storesPart _ a p
  refine ⟨fun p htenancy => ?_, hframe.2, hflash⟩
  have hstores := hframe.1 p htenancy
  exact ⟨hstores.line.byte hwf, hstores.line.word hwf, hstores.rest hwf⟩

end Sys2Proof.Machine
end

section
/-! At an interval boundary the counters that run with time are counted up to it first (O55). -/
namespace Sys2Proof.Machine

/-- A port whose shaper holds back a message since reset, at the first interval boundary, 1 s after it (R161, R424). -/
def heldAtBoundary : State :=
  { State.reset with
    now := 1000000000
    timers := [(intervalTimer, 1000000000)]
    sched := { State.reset.sched with heldSince := [(0, 0)] } }

/-- Before it latches the interval parts a boundary that is reached counts what runs with time up to it (R425). -/
theorem exec_intervalBoundary_settles {dt d : Nat} {s : State} (bad : List CounterElem) (hrun : s.phase = .running)
    (hdeadline : (s.advance dt).deadline intervalTimer = some d) (hreached : d ≤ (s.advance dt).now) :
    exec (.intervalBoundary dt bad) s
      = .next (boundary (settleAll (s.advance dt)) d ((bad.map (fun e => regKey e.object e.element)).filter counterKey)) := by
  show execIntervalBoundary dt bad s = _
  rw [execIntervalBoundary, run_next _ hrun, withSome_some _ hdeadline, if_pos hreached]

/-- Refutes O55: at the boundary of `heldAtBoundary` the block first counts the 1.5 * 10^9 core cycles of the hold in
`SCHED.SHAPED_CYCLES`, so that they fall into the interval that ends (R425); the clause of INTERVAL_BOUNDARY leaves them out. -/
theorem not_telemetryComplete : ¬ Obligations.TelemetryComplete := by
  intro h
  obtain ⟨hboundary, -⟩ := h 0 heldAtBoundary heldAtBoundary rfl rfl
  have hclaimed := hboundary 1000000000 [] rfl (Nat.le_refl _)
  rw [exec_intervalBoundary_settles [] rfl rfl (Nat.le_refl _)] at hclaimed
  injection hclaimed with hstates
  have hcounted : (boundary (settleAll heldAtBoundary) 1000000000 []).reg Obj.SCHED_SHAPED_CYCLES 0 = 1500000000 := by
    decide +kernel
  have hleftOut : (boundary heldAtBoundary 1000000000 []).reg Obj.SCHED_SHAPED_CYCLES 0 = 0 := by decide +kernel
  have hsame : (boundary (settleAll heldAtBoundary) 1000000000 []).reg Obj.SCHED_SHAPED_CYCLES 0
      = (boundary heldAtBoundary 1000000000 []).reg Obj.SCHED_SHAPED_CYCLES 0 :=
    congrArg (fun t : State => t.reg Obj.SCHED_SHAPED_CYCLES 0) hstates
  rw [hcounted, hleftOut] at hsame
  exact absurd hsame (by decide)

end Sys2Proof.Machine
end

section
/-! What the region guard's notices, the manager's window to memory and the release sweep answer while the block runs (O47). -/
namespace Sys2Proof.Machine

/-! ### The manager's window to memory past the checks of a record (R242, R248, R272) -/

/-- A read record of `TRACT.MEM_DATA` that is served, passes its checks and meets a free line answers what the line's home
holds (R248, R272). -/
theorem memDataRead_answers {s : State} {path : Path} {op : RecOp} {r : Rec} (hserved : mayServe s path op r = true)
    (hchecked : checkRecord s path op r = .ok) (hguard : privGuard s (memKey s) false = none) {o : State × Option Bool}
    (ho : o = deviceOpen s (deviceMsg s 3 (memKey s) memId 0 [] false)) (hfree : o.2.isSome = true)
    {line : State × LineRead} (hline : line = readKey o.1 (memKey s)) :
    memDataRead s path op r
      = serveRead line.1 path op r (fun _ _ _ => line.2.data) (fun t => memReadDone t line.2.poison) := by
  subst ho hline
  rw [memDataRead, if_pos (by rw [hserved, hchecked]; rfl), memDataServe_open _ _ _ hguard, memDataOpened, if_pos hfree]

/-- A write record of `TRACT.MEM_DATA` that is served, passes its checks and passes the guard is a device-side write of the
whole line (R242, R272). -/
theorem memDataWrite_guarded {s : State} {path : Path} {r : Rec} (hserved : mayServe s path .write r = true)
    (hchecked : checkRecord s path .write r = .ok) (hguard : privGuard s (memKey s) true = none) {m : CohMsg}
    (hm : m = deviceMsg s 5 (memKey s) memId 0 (padTo r.data 64) false) :
    memDataWrite s path r = memPutGuarded none s path r m := by
  subst hm
  rw [memDataWrite, if_pos (by rw [hserved, hchecked]; rfl), memDataPut, hguard]

/-- A write that meets a free line which is not mirrored writes the line and answers its record (R273). -/
theorem memPutOpened_writes {o : State × Option Bool} {path : Path} {r : Rec} {m : CohMsg} {had : Bool}
    (hfree : o.2 = some had) (hunmirrored : o.1.mirroredLine m.key = false) :
    memPutOpened o path r m = memPutDone o.1 path r (fun t => deviceWrite t m had) := by
  unfold memPutOpened
  simp only [hfree, hunmirrored, Bool.false_eq_true, if_false]

/-- A mirrored write that has been accepted is answered when its record comes again and no acknowledgement is outstanding
(R22, R273; log entry 29). -/
theorem memPutGuarded_acknowledged {s : State} {path : Path} {r : Rec} {m : CohMsg}
    (haccepted : s.guard.memWait = some (m.key, m.data)) (hvisible : s.mirrorPending m.key = false ∨ s.mirroring = false) :
    memPutGuarded none s path r m = memPutDone { s with guard := { s.guard with memWait := none } } path r id := by
  have hsettled : ¬ (s.mirrorPending m.key && s.mirroring) = true := by
    rcases hvisible with hnone | hoff
    · rw [hnone, Bool.false_and]
      exact Bool.false_ne_true
    · rw [hoff, Bool.and_false]
      exact Bool.false_ne_true
  unfold memPutGuarded
  dsimp only
  rw [if_pos haccepted, if_neg hsettled]

section Running
variable {dt : Nat} {s : State} (hrun : s.phase = .running)
include hrun

/-! ### The notices of the region guard (R246, R247) -/

/-- A notice window whose time is over closes. -/
theorem exec_noticeWindowClose_closes {window : WindowId} (hdue : (s.advance dt).due ⟨.noticeWindow, windowCode window, 0⟩ = true) :
    exec (.noticeWindowClose dt window) s
      = .next (closeNotice ((s.advance dt).disarm ⟨.noticeWindow, windowCode window, 0⟩) window) := by
  show execNoticeWindowClose dt window s = _
  rw [execNoticeWindowClose, run_next _ hrun, onDue_due _ hdue]

/-! ### The manager's window to memory (R242, R248, R272, R273) -/

/-- A read of `TRACT.MEM_DATA` past the guard whose line is free answers what the line's home holds (R248, R272). -/
theorem exec_memDataRead_answers {path : Path} {o : State × Option Bool} {line : State × LineRead}
    (hserved : mayServe (s.advance dt) path .read (readRec Obj.TRACT_MEM_DATA none) = true)
    (hchecked : checkRecord (s.advance dt) path .read (readRec Obj.TRACT_MEM_DATA none) = .ok)
    (hguard : privGuard (s.advance dt) (memKey (s.advance dt)) false = none)
    (ho : o = deviceOpen (s.advance dt) (deviceMsg (s.advance dt) 3 (memKey (s.advance dt)) memId 0 [] false))
    (hfree : o.2.isSome = true) (hline : line = readKey o.1 (memKey (s.advance dt))) :
    exec (.memDataRead dt path) s
      = .next (serveRead line.1 path .read (readRec Obj.TRACT_MEM_DATA none) (fun _ _ _ => line.2.data)
          (fun t => memReadDone t line.2.poison)) := by
  show execMemDataRead dt path s = _
  rw [execMemDataRead, run_next _ hrun, memDataRead_answers hserved hchecked hguard ho hfree hline]

section Write
variable {path : Path} {value : Nat} {m : CohMsg}
  (hserved : mayServe (s.advance dt) path .write (writeRec Obj.TRACT_MEM_DATA none value) = true)
  (hchecked : checkRecord (s.advance dt) path .write (writeRec Obj.TRACT_MEM_DATA none value) = .ok)
  (hguard : privGuard (s.advance dt) (memKey (s.advance dt)) true = none)
  (hm : m = deviceMsg (s.advance dt) 5 (memKey (s.advance dt)) memId 0
    (padTo (writeRec Obj.TRACT_MEM_DATA none value).data 64) false)
include hserved hchecked hguard hm

/-- A write of `TRACT.MEM_DATA` past the guard is a device-side write of the line (R242, R272). -/
theorem exec_memDataWrite_guarded :
    exec (.memDataWrite dt path value) s
      = .next (memPutGuarded none (s.advance dt) path (writeRec Obj.TRACT_MEM_DATA none value) m) := by
  show execMemDataWrite dt path value s = _
  rw [execMemDataWrite, run_next _ hrun, memDataWrite_guarded hserved hchecked hguard hm]

/-- A new write whose line is free and not mirrored writes the line and is answered (R272, R273). -/
theorem exec_memDataWrite_writes {o : State × Option Bool} {had : Bool} (hnew : (s.advance dt).guard.memWait ≠ some (m.key, m.data))
    (ho : o = deviceOpen (s.advance dt) m) (hfree : o.2 = some had) (hunmirrored : o.1.mirroredLine m.key = false) :
    exec (.memDataWrite dt path value) s
      = .next (memPutDone o.1 path (writeRec Obj.TRACT_MEM_DATA none value) (fun t => deviceWrite t m had)) := by
  subst ho
  rw [exec_memDataWrite_guarded hrun hserved hchecked hguard hm, memPutGuarded_open hnew,
    memPutOpened_writes hfree hunmirrored]

/-- A mirrored write that has been accepted is answered when the same record is sent again after its acknowledgement, or once
mirroring has stopped (R22, R273; log entry 29). -/
theorem exec_memDataWrite_acknowledged (haccepted : (s.advance dt).guard.memWait = some (m.key, m.data))
    (hvisible : (s.advance dt).mirrorPending m.key = false ∨ (s.advance dt).mirroring = false) :
    exec (.memDataWrite dt path value) s
      = .next (memPutDone { s.advance dt with guard := { (s.advance dt).guard with memWait := none } } path
          (writeRec Obj.TRACT_MEM_DATA none value) id) := by
  rw [exec_memDataWrite_guarded hrun hserved hchecked hguard hm, memPutGuarded_acknowledged haccepted hvisible]

end Write

/-! ### The release sweep (R234) -/

/-- A release sweep with no item left and no snoop open ends: its allocations are Free, or Live with their new owners. -/
theorem exec_releaseSweepDone_ends (hreleases : (s.advance dt).guard.releases ≠ []) (hitems : (s.advance dt).itemsLeft 1 = false)
    (hsnoops : (s.advance dt).coh.ctxs.any
      (fun c => c.work == .release && ((s.advance dt).releasingAlloc (keyTract c.key)).isSome) = false) :
    exec (.releaseSweepDone dt) s
      = .next (forEach (s.advance dt).guard.releases
          { s.advance dt with guard := { (s.advance dt).guard with releases := [] } } releaseEnds) := by
  show execReleaseSweepDone dt s = _
  rw [execReleaseSweepDone, run_next _ hrun, if_neg]
  rintro (hnone | hleft | hopen)
  · exact hreleases hnone
  · exact absurd hleft (by rw [hitems]; decide)
  · exact absurd hopen (by rw [hsnoops]; decide)

end Running

/-- Settles O47: the clause of each command is its lemma above, with `u` the state after the time passed; a write of
`TRACT.MEM_ADDR` is a write of an object. That an access of `TRACT.MEM_DATA` whose line is held, or a mirrored write of it,
is answered when the same record is sent again rests on log entry 29 (DEDUCED). -/
theorem guardAndMemoryComplete : Obligations.GuardAndMemoryComplete := by
  rintro dt s _ rfl hrun
  exact ⟨fun _ => exec_noticeWindowClose_closes hrun,
    fun _ _ => run_serveWrite_wrote hrun,
    fun _ _ _ => exec_memDataRead_answers hrun,
    fun _ _ _ _ _ hserved hchecked hguard hm => exec_memDataWrite_writes hrun hserved hchecked hguard hm,
    fun _ _ _ hserved hchecked hguard hm => exec_memDataWrite_acknowledged hrun hserved hchecked hguard hm,
    exec_releaseSweepDone_ends hrun⟩

end Sys2Proof.Machine
end

section
/-! What hosts and devices send at a coherence port, and what it sends back: what each command answers while the block runs
(O41). -/
namespace Sys2Proof.Machine

section Running
variable {dt : Nat} {s : State} (hrun : s.phase = .running)
include hrun

section Heard
variable {src : HostSource} {a : Nat}

/-- A message of a host on a channel has its effect for the agent that is heard there (R134, R260). -/
theorem run_heard {ch : LinkChannel} (f : State → Nat → State) (hheard : heard (s.advance dt) src ch = some a) :
    run dt s (fun t => t.withSome (heard t src ch) (f t)) = .next (f (s.advance dt) a) := by
  rw [run_next _ hrun, withSome_some _ hheard]

/-- An M2S Req of a host that is heard has its effect (R260, R262, R279). -/
theorem exec_hostM2sReq_answers {m : HostReq} (hheard : heard (s.advance dt) src .m2sReq = some a) :
    exec (.hostM2sReq dt src m) s = .next (reqEffect (s.advance dt) src m a) :=
  run_heard hrun (fun t => reqEffect t src m) hheard

/-- An M2S RwD of a host that is heard has its effect (R260, R262, R279). -/
theorem exec_hostM2sRwd_answers {m : HostRwd} (hheard : heard (s.advance dt) src .m2sRwd = some a) :
    exec (.hostM2sRwd dt src m) s = .next (rwdEffect (s.advance dt) src m a) :=
  run_heard hrun (fun t => rwdEffect t src m) hheard

/-- A BIRsp of a host that is heard has its effect (R260, R262). -/
theorem exec_hostBirsp_answers {m : HostBirsp} (hheard : heard (s.advance dt) src .biRsp = some a) :
    exec (.hostBirsp dt src m) s = .next (birspEffect (s.advance dt) src m a) :=
  run_heard hrun (fun t => birspEffect t src m) hheard

/-- A BIConflict of a host that is heard, for an address of a line, is counted, and its acknowledgement is due (R262). -/
theorem exec_biconflict_counts {addr k : Nat} {t : State} (hheard : heard (s.advance dt) src .m2sReq = some a)
    (hline : (s.advance dt).resolve src a addr = some k) (ht : t = (s.advance dt).count1 Obj.COH_BI_CONFLICTS 0) :
    exec (.biconflict dt src addr) s = .next { t with coh := { t.coh with conflicts := t.coh.conflicts ++ [(a, k)] } } := by
  subst ht
  show execBiconflict dt src addr s = _
  rw [execBiconflict, run_next _ hrun, withSome_some _ hheard]
  exact congrArg _ (withSome_some _ hline)

end Heard

/-- The BIRsp of a snoop leaves its slot and goes on as SNP_RSP when no earlier message of the agent to the line keeps it back
(R282, R289; the fields of the message: log entry 27). -/
theorem exec_birspForward_sends {agent key : Nat} {x : SnoopSlot} {r : Nat × Nat}
    (hanswered : (s.advance dt).coh.snoops.find? (fun x => x.agent == agent && x.msg.key == key && x.rsp.isSome) = some x)
    (hrsp : x.rsp = some r) (hgoes : (s.advance dt).coh.txns.any (keepsBack agent key r.2) = false) :
    exec (.birspForward dt agent key) s
      = .next (sendRequest { s.advance dt with coh := { (s.advance dt).coh with
            snoops := (s.advance dt).coh.snoops.filter (· != x) } } .biRsp
          { x.msg with
            kind := 0x23, tc := 7, dst := (s.advance dt).ownSwitch, src := (s.advance dt).ownSwitch, arg := r.1,
            agent := agent, switch := (s.advance dt).ownSwitch }) := by
  show execBirspForward dt agent key s = _
  rw [execBirspForward, run_next _ hrun, withSome_some _ hanswered, hrsp]
  exact congrArg _ (if_neg (ne_true_of_eq_false hgoes))

/-- A conflict whose acknowledgement is due is acknowledged to the host of its agent (R262). -/
theorem exec_biconflictAck_acknowledges {agent key : Nat} (hdue : (s.advance dt).coh.conflicts.contains (agent, key) = true) :
    exec (.biconflictAck dt agent key) s
      = .next (({ s.advance dt with coh := { (s.advance dt).coh with
            conflicts := (s.advance dt).coh.conflicts.erase (agent, key) } }).emit
          (.toPort ((s.advance dt).agentPort agent) "BIConflictAck" [agent, key])) := by
  show execBiconflictAck dt agent key s = _
  rw [execBiconflictAck, run_next _ hrun, if_pos hdue]

end Running

/-- Settles O41: the clause of each command is its lemma above, with `u` the state after the time passed. The fields of the
SNP_RSP that BIRSP_FORWARD sends rest on log entry 27. -/
theorem coherencePortsComplete : Obligations.CoherencePortsComplete := by
  rintro dt s _ rfl hrun
  exact ⟨fun _ _ _ => exec_hostM2sReq_answers hrun,
    fun _ _ _ => exec_hostM2sRwd_answers hrun,
    fun _ _ _ => exec_hostBirsp_answers hrun,
    fun _ _ _ _ => exec_birspForward_sends hrun,
    fun _ _ _ _ hheard hline => exec_biconflict_counts hrun hheard hline rfl,
    fun _ _ => exec_biconflictAck_acknowledges hrun⟩

end Sys2Proof.Machine
end

section
/-! What requests, snoops and answers come to at the home slices and the port agents while the block runs (O48). -/
namespace Sys2Proof.Machine

/-! ### A message where it arrives -/

/-- A request that is on its way to an engine which takes it is accepted there (R264, R288). -/
theorem requestArrives_accepts {s t : State} {kind col : Nat} {m : CohMsg} (hkind : m.kind = kind)
    (htakes : takesRequest s col m = true) (harrives : arrive s (.engine col) m = some t) :
    requestArrives kind col m s = acceptRequest t col (normalRequest m) := by
  rw [requestArrives, if_pos ⟨hkind, htakes⟩, withSome_some _ harrives]

/-- A snoop at the working engine that serves its slice is a snoop of that engine's proxy entry (R271, R315). -/
theorem snoopArrives_atProxy {s : State} {kind n : Nat} {m : CohMsg} (hkind : m.kind = kind)
    (hflies : s.coh.flight.contains ⟨.engine n, m⟩ = true) (hworks : s.engineRuns n = true)
    (hserves : s.engineOf (sliceOf m.key) = n) : snoopArrives kind (.proxy n) m s = proxySnoop s n m := by
  rw [snoopArrives, if_neg (not_not_intro hkind)]
  show snoopAtProxy s n m = _
  rw [snoopAtProxy, hflies, hworks, if_neg (not_not_intro hserves)]
  rfl

/-- A snoop at a Live agent whose port has a free snoop slot takes the slot and goes out as its BISnp (R261, R282). -/
theorem snoopArrives_atAgent {s t : State} {kind a : Nat} {m : CohMsg} (hkind : m.kind = kind) (hlive : s.agentState a = 1)
    (hlink : s.carriesTraffic (s.agentPort a) = true) (hslot : s.snoopsAt (s.agentPort a) < 128)
    (harrives : arrive s (.agent a) m = some t) :
    snoopArrives kind (.agent a) m s
      = emitBisnp { t with coh := { t.coh with snoops := t.coh.snoops ++ [⟨a, m, none⟩] } } a m := by
  rw [snoopArrives, if_neg (not_not_intro hkind)]
  show snoopAtAgent s a m = _
  rw [snoopAtAgent, if_pos ⟨hlive, hlink, hslot⟩, withSome_some _ harrives]

section Answer
variable {s : State} {kind : Nat} {m : CohMsg} (hkind : m.kind = kind) (hworks : s.cohRuns = true)
include hkind hworks

/-- DATA or CMP that no engine holds is taken by the port agent (R261, R302, R369). -/
theorem answerArrives_atAgent {t : State} (hpast : s.answerAt m = none) (harrives : arrive s .reply m = some t) :
    answerArrives kind m s = takeAnswer t m := by
  rw [answerArrives, if_neg (not_or.mpr ⟨not_not_intro hkind, ne_false_of_eq_true hworks⟩)]
  simp only [hpast, withSome_some _ harrives]

/-- DATA or CMP from a remote home is handled at the engine it has reached (R270, R315). -/
theorem answerArrives_atProxy {n : Nat} (hreached : s.answerAt m = some n) : answerArrives kind m s = answerAtProxy s n m := by
  rw [answerArrives, if_neg (not_or.mpr ⟨not_not_intro hkind, ne_false_of_eq_true hworks⟩)]
  simp only [hreached]

end Answer

/-- A NACK that is not of an older generation of its tenancy is taken by the transaction that it answers, which has been sent
and waits (R280, R314, R369). -/
theorem nackAtAgent_taken {s : State} {m : CohMsg} {x : Txn} (hpresent : oldAnswer s m = false) (htxn : s.txn m.tag = some x)
    (hagent : x.agent = m.agent) (hsent : x.status = .sent) : nackAtAgent s m = takeNack s m x := by
  rw [nackAtAgent, hpresent, if_neg Bool.false_ne_true, withSome_some _ htxn, if_pos ⟨hagent, hsent⟩]

section Running
variable {dt : Nat} {s : State} (hrun : s.phase = .running)
include hrun

/-! ### Requests (R264, R265) -/

/-- A request of any kind is accepted by the engine it has reached, which takes it (R264, R288). -/
theorem run_requestArrives {kind col : Nat} {m : CohMsg} {t : State} (hkind : m.kind = kind)
    (htakes : takesRequest (s.advance dt) col m = true) (harrives : arrive (s.advance dt) (.engine col) m = some t) :
    run dt s (requestArrives kind col m) = .next (acceptRequest t col (normalRequest m)) := by
  rw [run_next _ hrun, requestArrives_accepts hkind htakes harrives]

/-! ### Snoops (R271, R282) -/

/-- A snoop of any kind at the engine that serves its slice is one of the engine's proxy entry (R271). -/
theorem run_snoopAtProxy {kind n : Nat} {m : CohMsg} (hkind : m.kind = kind)
    (hflies : (s.advance dt).coh.flight.contains ⟨.engine n, m⟩ = true) (hworks : (s.advance dt).engineRuns n = true)
    (hserves : (s.advance dt).engineOf (sliceOf m.key) = n) :
    run dt s (snoopArrives kind (.proxy n) m) = .next (proxySnoop (s.advance dt) n m) := by
  rw [run_next _ hrun, snoopArrives_atProxy hkind hflies hworks hserves]

/-- A snoop of any kind at a Live agent with a free snoop slot goes out as its BISnp (R282). -/
theorem run_snoopAtAgent {kind a : Nat} {m : CohMsg} {t : State} (hkind : m.kind = kind)
    (hlive : (s.advance dt).agentState a = 1) (hlink : (s.advance dt).carriesTraffic ((s.advance dt).agentPort a) = true)
    (hslot : (s.advance dt).snoopsAt ((s.advance dt).agentPort a) < 128)
    (harrives : arrive (s.advance dt) (.agent a) m = some t) :
    run dt s (snoopArrives kind (.agent a) m)
      = .next (emitBisnp { t with coh := { t.coh with snoops := t.coh.snoops ++ [⟨a, m, none⟩] } } a m) := by
  rw [run_next _ hrun, snoopArrives_atAgent hkind hlive hlink hslot harrives]

/-- A snoop response at the working engine that serves its slice is one of the line's context (R266, R271). -/
theorem exec_snpRsp_answers {col : Nat} {m : CohMsg} {t : State} (hkind : m.kind = 0x23)
    (hworks : (s.advance dt).engineRuns col = true) (harrives : arrive (s.advance dt) (.engine col) m = some t)
    (hserves : t.engineOf (sliceOf m.key) = col) : exec (.snpRsp dt col m) s = .next (snoopResponse t col m) := by
  show execSnpRsp dt col m s = _
  rw [execSnpRsp, run_next _ hrun, if_pos ⟨hkind, hworks⟩, withSome_some _ harrives, if_neg (not_not_intro hserves)]

/-! ### Answers (R261, R270) -/

/-- DATA or CMP that no engine holds is taken by the port agent (R261). -/
theorem run_answerAtAgent {kind : Nat} {m : CohMsg} {t : State} (hkind : m.kind = kind)
    (hworks : (s.advance dt).cohRuns = true) (hpast : (s.advance dt).answerAt m = none)
    (harrives : arrive (s.advance dt) .reply m = some t) :
    run dt s (answerArrives kind m) = .next (takeAnswer t m) := by
  rw [run_next _ hrun, answerArrives_atAgent hkind hworks hpast harrives]

/-- DATA or CMP from a remote home is handled at the engine it has reached (R270). -/
theorem run_answerAtProxy {kind n : Nat} {m : CohMsg} (hkind : m.kind = kind) (hworks : (s.advance dt).cohRuns = true)
    (hreached : (s.advance dt).answerAt m = some n) :
    run dt s (answerArrives kind m) = .next (answerAtProxy (s.advance dt) n m) := by
  rw [run_next _ hrun, answerArrives_atProxy hkind hworks hreached]

/-! ### NACKs and what is sent again (R269, R280, R285, R314) -/

section Nack
variable {m : CohMsg} (hkind : m.kind = 0x22)
include hkind

/-- A NACK at the port agent is taken by the transaction that it answers (R280, R314). -/
theorem exec_nack_taken {t : State} {x : Txn} (hpast : (s.advance dt).answerAt m = none)
    (hnotHome : arrive (s.advance dt) .home m = none) (harrives : arrive (s.advance dt) .reply m = some t)
    (hpresent : oldAnswer t m = false) (htxn : t.txn m.tag = some x) (hagent : x.agent = m.agent) (hsent : x.status = .sent) :
    exec (.nack dt m) s = .next (takeNack t m x) := by
  show execNack dt m s = _
  rw [execNack, run_next _ hrun, if_neg (not_not_intro hkind), ← nackAtAgent_taken hpresent htxn hagent hsent]
  simp only [hpast, hnotHome, withSome_some _ harrives]

/-- A MOVED NACK of a remote switch's request reaches the port agent of its Pass port (R269, R314). -/
theorem exec_nack_atHome {t : State} (hpast : (s.advance dt).answerAt m = none)
    (harrives : arrive (s.advance dt) .home m = some t) : exec (.nack dt m) s = .next (nackAtHome t m) := by
  show execNack dt m s = _
  rw [execNack, run_next _ hrun, if_neg (not_not_intro hkind)]
  simp only [hpast, harrives]

/-- A NACK from a remote home is handled at the engine it has reached (R270, R315). -/
theorem exec_nack_atProxy {n : Nat} (hreached : (s.advance dt).answerAt m = some n) :
    exec (.nack dt m) s = .next (nackAtProxy (s.advance dt) n m) := by
  show execNack dt m s = _
  rw [execNack, run_next _ hrun, if_neg (not_not_intro hkind)]
  simp only [hreached]

end Nack

section Transaction
variable {slot : Nat} {t : Txn} (htxn : (s.advance dt).txn slot = some t)
include htxn

/-- A request whose retry delay is over is sent again (R280, R285), whatever the state of its agent (log entry 69). -/
theorem exec_retry_sends {d : Nat} (hstatus : t.status = .retry d) (hdelay : d ≤ (s.advance dt).now) :
    exec (.retry dt slot) s = .next (sendAgain (s.advance dt) t true) := by
  show execRetry dt slot s = _
  rw [execRetry, run_next _ hrun, withSome_some _ htxn]
  simp only [hstatus, if_pos hdelay]

/-- A moved request is sent again once the port agent's copy of the map holds the epoch of its NACK (R314). -/
theorem exec_movedRetry_sends {e : Nat} (hstatus : t.status = .moved e) (hepoch : (s.advance dt).agentHas e = true) :
    exec (.movedRetry dt slot) s = .next (sendAgain (s.advance dt) t false) := by
  show execMovedRetry dt slot s = _
  rw [execMovedRetry, run_next _ hrun, withSome_some _ htxn]
  simp only [hstatus, if_pos hepoch]

end Transaction

end Running

/-- Settles O48: the clause of each command is its lemma above, with `u` the state after the time passed; the nine requests, the
three snoops and the two answers each share the lemma of their kind. RETRY asks nothing of its agent's state (log entry 69). -/
theorem coherenceRequestsComplete : Obligations.CoherenceRequestsComplete := by
  rintro dt s _ rfl hrun
  exact ⟨fun _ _ _ => run_requestArrives hrun,
    fun _ _ _ => run_requestArrives hrun,
    fun _ _ _ => run_requestArrives hrun,
    fun _ _ _ => run_requestArrives hrun,
    fun _ _ _ => run_requestArrives hrun,
    fun _ _ _ => run_requestArrives hrun,
    fun _ _ _ => run_requestArrives hrun,
    fun _ _ _ => run_requestArrives hrun,
    fun _ _ _ => run_requestArrives hrun,
    fun _ _ => run_snoopAtProxy hrun,
    fun _ _ _ => run_snoopAtAgent hrun,
    fun _ _ => run_snoopAtProxy hrun,
    fun _ _ _ => run_snoopAtAgent hrun,
    fun _ _ => run_snoopAtProxy hrun,
    fun _ _ _ => run_snoopAtAgent hrun,
    fun _ _ => run_answerAtAgent hrun,
    fun _ _ => run_answerAtProxy hrun,
    fun _ _ => run_answerAtAgent hrun,
    fun _ _ => run_answerAtProxy hrun,
    fun _ _ _ hkind => exec_nack_taken hrun hkind,
    fun _ _ hkind => exec_nack_atHome hrun hkind,
    fun _ _ hkind => exec_nack_atProxy hrun hkind,
    fun _ _ _ => exec_snpRsp_answers hrun,
    fun _ _ _ htxn => exec_retry_sends hrun htxn,
    fun _ _ _ htxn => exec_movedRetry_sends hrun htxn⟩

end Sys2Proof.Machine
end

section
/-! What the commands of the Col array answer while the block runs: moves of slices, background work, sparing and the hash unit
(O50). -/
namespace Sys2Proof.Machine

section Running
variable {dt : Nat} {s : State} (hrun : s.phase = .running)
include hrun

/-! ### Load windows and moves of slices (R310, R311, R317, R318, R321) -/

/-- A load window that is over, or the first one, has its loads read and the moves that they ask for begun (R317 to R319). -/
theorem exec_loadWindowEnd_coordinates {loads : List EngineLoad} (hworks : (s.advance dt).cohRuns = true)
    (hover : (s.advance dt).armed ⟨.loadWindow, 0, 0⟩ = false ∨ (s.advance dt).due ⟨.loadWindow, 0, 0⟩ = true) :
    exec (.loadWindowEnd dt loads) s
      = .next (coordinate (readWindow ((s.advance dt).arm ⟨.loadWindow, 0, 0⟩
          ((s.advance dt).reg Obj.COL_LOAD_WINDOW * 1000)) loads)) := by
  have hends : ((s.advance dt).cohRuns
      && (!(s.advance dt).armed ⟨.loadWindow, 0, 0⟩ || (s.advance dt).due ⟨.loadWindow, 0, 0⟩)) = true := by
    simpa only [hworks, Bool.true_and, Bool.or_eq_true, Bool.not_eq_true'] using hover
  show execLoadWindowEnd dt loads s = _
  rw [execLoadWindowEnd, run_next _ hrun, if_pos hends]

/-- A draining slice that is quiescent is handed over to its taker, and its move is ready (R321 step 2). -/
theorem exec_sliceQuiescent_handsOver {slice : Nat} {m : Move} {t : State} (hmove : (s.advance dt).moveOf slice = some m)
    (hworks : (s.advance dt).cohRuns = true) (hdrains : m.ready = false)
    (hquiet : (s.advance dt).sliceQuiet slice m.donor = true) (ht : t = handOver (s.advance dt) slice m.donor m.taker) :
    exec (.sliceQuiescent dt slice) s
      = .next (({ t with col := { t.col with
            moves := t.col.moves.map (fun (y : Move) => if y.slice = slice then { y with ready := true } else y) } }).disarm
          ⟨.leaseDrain, slice, 0⟩) := by
  subst ht
  show execSliceQuiescent dt slice s = _
  rw [execSliceQuiescent, run_next _ hrun, withSome_some _ hmove, if_pos (by rw [hworks, hdrains, hquiet]; rfl)]

/-- The slices that are ready switch together in an epoch change, once the port agents hold the last epoch and no interval runs
(R310, R311, R321 step 3; that it waits for the port agents: log entry 25). -/
theorem exec_epochChange_switches {t : State} (hworks : (s.advance dt).cohRuns = true) (hready : switchingNow (s.advance dt) ≠ [])
    (hagents : (s.advance dt).col.agentEpoch = (s.advance dt).reg Obj.COL_EPOCH)
    (hinterval : (s.advance dt).armed ⟨.epoch, 0, 0⟩ = false)
    (ht : t = forEach (switchingNow (s.advance dt)) (s.advance dt) switchSlice) :
    exec (.epochChange dt) s
      = .next ((t.setReg Obj.COL_EPOCH 0 ((t.reg Obj.COL_EPOCH + 1) % 65536)).arm ⟨.epoch, 0, 0⟩
          (t.reg Obj.COL_LEASE_MIN_INTERVAL * 1000)) := by
  subst ht
  have hchanges : ((s.advance dt).cohRuns && !(switchingNow (s.advance dt)).isEmpty
      && (s.advance dt).col.agentEpoch == (s.advance dt).reg Obj.COL_EPOCH
      && (!(s.advance dt).armed ⟨.epoch, 0, 0⟩ || (s.advance dt).due ⟨.epoch, 0, 0⟩)) = true := by
    rw [hworks, List.isEmpty_eq_false_iff.mpr hready, hagents, hinterval, beq_self_eq_true]
    rfl
  show execEpochChange dt s = _
  rw [execEpochChange, run_next _ hrun, if_pos hchanges]

/-- The port agents' copies of the map follow the live map, and the requests that were NACKed for it go again (R269, R310). -/
theorem exec_portAgentMapUpdate_follows :
    exec (.portAgentMapUpdate dt) s
      = .next (resendHome { s.advance dt with col := { (s.advance dt).col with
          agentOld := [], agentEpoch := (s.advance dt).reg Obj.COL_EPOCH } }) :=
  run_next _ hrun

/-- A command that stands for the end of a timer has its effect when the timer is due. -/
theorem run_onDue_due {timer : Timer} (f : State → State) (hdue : (s.advance dt).due timer = true) :
    run dt s (fun t => t.onDue timer f) = .next (f ((s.advance dt).disarm timer)) := by
  rw [run_next _ hrun, onDue_due _ hdue]

/-- A move that has not drained in its time is abandoned (R321). -/
theorem exec_leaseDrainExpiry_abandons {slice : Nat} (hdue : (s.advance dt).due ⟨.leaseDrain, slice, 0⟩ = true) :
    exec (.leaseDrainExpiry dt slice) s = .next (abandonMove ((s.advance dt).disarm ⟨.leaseDrain, slice, 0⟩) slice) :=
  run_onDue_due hrun (fun t => abandonMove t slice) hdue

section ForcedMove
variable {slice n : Nat} {t : State} (hdue : (s.advance dt).due ⟨.forcedRetry, slice, 0⟩ = true)
  (ht : t = (s.advance dt).disarm ⟨.forcedRetry, slice, 0⟩) (hforced : assocGet t.col.forcedTo slice = some n)
include hdue ht hforced

/-- A forced move is tried again to its engine while that is Active, else to the idlest one, if there is one (R321). -/
theorem exec_forcedMoveRetry_retries :
    exec (.forcedMoveRetry dt slice) s
      = .next (if t.roleState n = 0 then forceMove t slice n
          else t.withSome (t.idlest (t.engineOf slice)) (forceMove t slice)) := by
  subst ht
  show execForcedMoveRetry dt slice s = _
  rw [execForcedMoveRetry, run_onDue_due hrun _ hdue, withSome_some _ hforced]

/-- A forced move is tried again to its engine, which is Active (R321). -/
theorem exec_forcedMoveRetry_toEngine (hactive : t.roleState n = 0) :
    exec (.forcedMoveRetry dt slice) s = .next (forceMove t slice n) := by
  rw [exec_forcedMoveRetry_retries hrun hdue ht hforced, if_pos hactive]

/-- A forced move whose engine is not Active any more is tried to the idlest one (R321). -/
theorem exec_forcedMoveRetry_toIdlest {x : Nat} (hinactive : t.roleState n ≠ 0)
    (hidlest : t.idlest (t.engineOf slice) = some x) : exec (.forcedMoveRetry dt slice) s = .next (forceMove t slice x) := by
  rw [exec_forcedMoveRetry_retries hrun hdue ht hforced, if_neg hinactive, withSome_some _ hidlest]

end ForcedMove

/-- A slice is free to be moved again when its holdoff is over (R318). -/
theorem exec_leaseHoldoffExpiry_frees {slice : Nat} (hdue : (s.advance dt).due ⟨.holdoff, slice, 0⟩ = true) :
    exec (.leaseHoldoffExpiry dt slice) s = .next ((s.advance dt).disarm ⟨.holdoff, slice, 0⟩) :=
  run_onDue_due hrun id hdue

/-! ### Background work (R323, R324) -/

/-- The item at the head of an engine's deque runs on a free background context (R323; log entry 52). -/
theorem exec_backgroundItem_runs {col : Nat} {i : BgItem} {rest : List BgItem} (hhead : (s.advance dt).deque col = i :: rest)
    (hworks : (s.advance dt).cohRuns = true) (hfree : (s.advance dt).backgroundFree col = true) :
    exec (.backgroundItem dt col) s = .next (runItem (s.advance dt) col i) := by
  show execBackgroundItem dt col s = _
  rw [execBackgroundItem, run_next _ hrun]
  simp only [hhead, hworks, hfree, Bool.true_or, Bool.true_and, if_true]

/-- An Active engine with an empty deque and a free background context takes a free item of the fullest deque (R324; log
entry 52). -/
theorem exec_itemSteal_takes {col d : Nat} (hworks : (s.advance dt).cohRuns = true) (hactive : (s.advance dt).roleState col = 0)
    (hfree : (s.advance dt).backgroundFree col = true) (hempty : (s.advance dt).deque col = [])
    (hfullest : fullest (s.advance dt) = some d) : exec (.itemSteal dt col) s = .next (takeItem (s.advance dt) col d) := by
  show execItemSteal dt col s = _
  rw [execItemSteal, run_next _ hrun, if_pos (by rw [hworks, hactive, hfree, hempty]; rfl), withSome_some _ hfullest]

/-! ### Sparing and the instruction memory (R325 to R330) -/

/-- The job of a role ends when the role is empty (R327, R328, R330). -/
theorem exec_roleEmptied_finishes {j : RoleJob} {role : Nat} {badSpares : List Nat} (hjob : (s.advance dt).col.job = some j)
    (hrole : j.role = role) (hempty : (s.advance dt).roleEmpty role = true) :
    exec (.roleEmptied dt role badSpares) s = .next (finishJob (s.advance dt) j badSpares) := by
  show execRoleEmptied dt role badSpares s = _
  rw [execRoleEmptied, run_next _ hrun, withSome_some _ hjob, if_pos ⟨hrole, hempty⟩]

/-- Firmware that has started tests the engines and loads the microprogram, if it has not yet (R325, R329). -/
theorem exec_ucodeLoad_starts {badTests badDigests : List Nat} (hfirmware : (s.advance dt).boot.stage = .firmware)
    (hunloaded : (s.advance dt).boot.ucodeOk = false) :
    exec (.ucodeLoad dt badTests badDigests) s = .next (startCol (s.advance dt) badTests badDigests) := by
  show execUcodeLoad dt badTests badDigests s = _
  rw [execUcodeLoad, run_next _ hrun, if_pos ⟨hfirmware, hunloaded⟩]

/-- The corrections of an engine that has not Failed are counted and each is raised; an Active engine that has passed its
threshold qualifies for sparing (R326). -/
theorem exec_imemScrub_judges {phys corrections : Nat} {t : State} {badSpares : List Nat}
    (hloaded : (s.advance dt).boot.ucodeOk = true) (hphys : phys < 272) (hworks : (s.advance dt).physState phys ≠ 2)
    (hcorrected : 0 < corrections)
    (ht : t = forEach (List.range corrections) (countCorrections (s.advance dt) phys corrections) (fun t _ => raise t 10 7)) :
    exec (.imemScrub dt phys corrections badSpares) s
      = .next (if t.physState phys = 1 ∧ t.reg Obj.COL_SPARE_CE_THRESHOLD < t.regBits Obj.COL_PHYS_STATE phys 0 16 then
          qualify t (t.regBits Obj.COL_PHYS_STATE phys 16 8) 2 badSpares
        else t) := by
  subst ht
  have hscrubs : ((s.advance dt).boot.ucodeOk && decide (phys < 272) && (s.advance dt).physState phys != 2
      && decide (0 < corrections)) = true := by
    rw [hloaded, decide_eq_true hphys, bne_iff_ne.mpr hworks, decide_eq_true hcorrected]
    rfl
  show execImemScrub dt phys corrections badSpares s = _
  rw [execImemScrub, run_next _ hrun, if_pos hscrubs]

end Running

/-- Settles O50: the clause of each command is its lemma above, with `u` the state after the time passed; a spare command and a
hash lookup are writes of an object. That the port agents hold the last epoch and that a background context is free are
hypotheses (log entries 25 and 52). -/
theorem colComplete : Obligations.ColComplete := by
  rintro dt s _ rfl hrun
  exact ⟨fun _ => exec_loadWindowEnd_coordinates hrun,
    fun _ _ _ => exec_sliceQuiescent_handsOver hrun,
    fun _ => exec_epochChange_switches hrun,
    exec_portAgentMapUpdate_follows hrun,
    fun _ => exec_leaseDrainExpiry_abandons hrun,
    fun _ _ _ hdue ht hforced => exec_forcedMoveRetry_toEngine hrun hdue ht hforced,
    fun _ _ _ _ hdue ht hforced => exec_forcedMoveRetry_toIdlest hrun hdue ht hforced,
    fun _ => exec_leaseHoldoffExpiry_frees hrun,
    fun _ _ _ => exec_backgroundItem_runs hrun,
    fun _ _ => exec_itemSteal_takes hrun,
    fun _ _ _ => run_serveWrite_wrote hrun,
    fun _ _ _ => exec_roleEmptied_finishes hrun,
    fun _ _ => exec_ucodeLoad_starts hrun,
    fun _ _ _ _ hloaded hphys hworks hcorrected ht hspare =>
      (exec_imemScrub_judges hrun hloaded hphys hworks hcorrected ht).trans
        (congrArg _ (if_neg fun hover => hspare hover.1)),
    fun _ _ _ _ hloaded hphys hworks hcorrected ht hactive hover =>
      (exec_imemScrub_judges hrun hloaded hphys hworks hcorrected ht).trans (congrArg _ (if_pos ⟨hactive, hover⟩)),
    fun _ _ => run_serveWrite_wrote hrun⟩

end Sys2Proof.Machine
end

section
/-! What forward progress at the homes comes to while the block runs: hold windows, aged requests, silent and dead holders, sweep
passes, and transactions that end without their answer (O49). -/
namespace Sys2Proof.Machine

section Running
variable {dt : Nat} {s : State} (hrun : s.phase = .running)
include hrun

/-! ### Hold windows and aged requests (R283, R286) -/

/-- The hold windows of a line that are over are forgotten, those still open stay (R283). -/
theorem exec_holdWindowExpiry_forgets {col key : Nat} :
    exec (.holdWindowExpiry dt col key) s
      = .next { s.advance dt with coh := { (s.advance dt).coh with
          holds := (s.advance dt).coh.holds.filter
            (fun h => !(h.engine == col && h.key == key && decide (h.until_ ≤ (s.advance dt).now))) } } :=
  run_next _ hrun

/-- The oldest aged request of a line is served as it comes again, once no context and no hold window is open on the line (R286;
that it is the entry of the aged table: log entry 28). -/
theorem exec_agedServe_serves {col key : Nat} {a : AgedEntry} {m : CohMsg}
    (holdest : ((s.advance dt).agedOf col key).head? = some a) (hidle : (s.advance dt).ctxOn false key = false)
    (hunheld : (s.advance dt).holdOn col key = none) (hagain : agedFlight (s.advance dt) a = some m) :
    exec (.agedServe dt col key) s = .next (requestArrives m.kind col m (s.advance dt)) := by
  have hfree : ((s.advance dt).ctxOn false key || ((s.advance dt).holdOn col key).isSome) = false := by
    rw [hidle, hunheld]
    rfl
  show execAgedServe dt col key s = _
  rw [execAgedServe, run_next _ hrun, withSome_some _ holdest, if_neg (ne_true_of_eq_false hfree), withSome_some _ hagain]

/-- An aged request that has not come again within 20 µs leaves the aged table and is counted (R286). -/
theorem exec_agedEntryDrop_drops {col key tag : Nat} {requester : Requester}
    (hstale : (s.advance dt).coh.aged.any (fun a => a.engine == col && a.key == key && a.who == requester && a.tag == tag
      && decide (a.last + 20000 ≤ (s.advance dt).now)) = true) :
    exec (.agedEntryDrop dt col key requester tag) s
      = .next (({ s.advance dt with coh := { (s.advance dt).coh with
          aged := (s.advance dt).coh.aged.filter (fun a => !(a.engine == col && a.key == key && a.who == requester
            && a.tag == tag && decide (a.last + 20000 ≤ (s.advance dt).now))) } }).count1 Obj.COH_AGED_DROPPED 0) := by
  show execAgedEntryDrop dt col key requester tag s = _
  rw [execAgedEntryDrop, run_next _ hrun, if_pos hstale]

/-! ### Silent holders (R294, R295) -/

/-- A snoop that is past the limit of its holder is late (R294). -/
theorem exec_snoopTimeout_late {col key : Nat} {holder : Requester} {c : Ctx} {x : Snoop}
    (hctx : (s.advance dt).coh.ctxs.find? (fun c => c.engine == col && c.key == key
      && c.snoops.any (fun x => x.holder == holder)) = some c)
    (hsnoop : c.snoops.find? (fun x => x.holder == holder) = some x)
    (hover : x.due + snoopLimit (s.advance dt) holder ≤ (s.advance dt).now) :
    exec (.snoopTimeout dt col key holder) s = .next (lateSnoop (s.advance dt) c x) := by
  show execSnoopTimeout dt col key holder s = _
  rw [execSnoopTimeout, run_next _ hrun, withSome_some _ hctx, withSome_some _ hsnoop, if_pos hover]

/-- In the sweep regime a Live agent that has been silent for `COH.SUSPECT_LIMIT` is declared dead (R294, R295). -/
theorem exec_suspectLimit_declaresDead {agent : Nat} (hregime : (s.advance dt).sweepRegime = true)
    (hlive : (s.advance dt).agentState agent = 1) (hsilent : silentTooLong (s.advance dt) agent = true) :
    exec (.suspectLimit dt agent) s = .next (declareDead (s.advance dt) agent) := by
  show execSuspectLimit dt agent s = _
  rw [execSuspectLimit, run_next _ hrun, if_pos (by rw [hregime, hlive, hsilent]; rfl)]

/-! ### Sweep passes (R296, R299) -/

/-- When no pass runs, one begins on all slices for the agents that await it, which show In pass at 0 percent (R296). -/
theorem exec_sweepPassStart_begins (hnone : (s.advance dt).coh.sweeping = []) (hawaited : (s.advance dt).coh.awaiting ≠ []) :
    exec (.sweepPassStart dt) s
      = .next (pushAllSlices
          (forEach (s.advance dt).coh.awaiting
            { s.advance dt with coh := { (s.advance dt).coh with sweeping := (s.advance dt).coh.awaiting, awaiting := [] } }
            fun t a => (t.setRegBits Obj.COH_SWEEP_STATE a 30 2 2).setRegBits Obj.COH_SWEEP_STATE a 0 7 0) 0) := by
  show execSweepPassStart dt s = _
  rw [execSweepPassStart, run_next _ hrun, if_neg (not_or.mpr ⟨not_not_intro hnone, hawaited⟩)]

/-- A pass ends for all its agents when every sweep item has run (R296, R299). -/
theorem exec_sweepPassEnd_ends (hpass : (s.advance dt).coh.sweeping ≠ []) (hdone : (s.advance dt).itemsLeft 0 = false) :
    exec (.sweepPassEnd dt) s
      = .next (forEach (s.advance dt).coh.sweeping
          { s.advance dt with coh := { (s.advance dt).coh with sweeping := [] } } passEnded) := by
  show execSweepPassEnd dt s = _
  rw [execSweepPassEnd, run_next _ hrun, if_neg (not_or.mpr ⟨hpass, ne_true_of_eq_false hdone⟩)]

/-! ### Transactions that end without their answer (R301, R302) -/

section Transaction
variable {slot : Nat} {t : Txn} (htxn : (s.advance dt).txn slot = some t)
include htxn

/-- A transaction that has not ended within its timeout is ended by it (R301). -/
theorem exec_transactionTimeout_ends (hopen : t.ended = false)
    (hover : t.started + (s.advance dt).txnTimeout ≤ (s.advance dt).now) :
    exec (.transactionTimeout dt slot) s = .next (timeoutTxn (s.advance dt) t) := by
  show execTransactionTimeout dt slot s = _
  rw [execTransactionTimeout, run_next _ hrun, withSome_some _ htxn, if_pos ⟨hopen, hover⟩]

/-- The tag of a transaction that ended without its answer is free again when its hold is over (R302). -/
theorem exec_tagHoldExpiry_drops {d : Nat} (hstatus : t.status = .ended d) (hover : d ≤ (s.advance dt).now) :
    exec (.tagHoldExpiry dt slot) s = .next (dropTxn (s.advance dt) t) := by
  show execTagHoldExpiry dt slot s = _
  rw [execTagHoldExpiry, run_next _ hrun, withSome_some _ htxn]
  simp only [hstatus, if_pos hover]

end Transaction

end Running

/-- Settles O49: the clause of each command is its lemma above, with `u` the state after the time passed; a declaration of death
by the manager is a write of an object. AGED_SERVE serves the entry of the aged table (log entry 28). -/
theorem coherenceProgressComplete : Obligations.CoherenceProgressComplete := by
  rintro dt s _ rfl hrun
  exact ⟨fun _ _ => exec_holdWindowExpiry_forgets hrun,
    fun _ _ _ _ => exec_agedServe_serves hrun,
    fun _ _ _ _ _ => exec_snoopTimeout_late hrun,
    fun _ => exec_suspectLimit_declaresDead hrun,
    fun _ _ => run_serveWrite_wrote hrun,
    fun _ _ _ _ => exec_agedEntryDrop_drops hrun,
    exec_sweepPassStart_begins hrun,
    exec_sweepPassEnd_ends hrun,
    fun _ _ htxn => exec_transactionTimeout_ends hrun htxn,
    fun _ _ _ htxn => exec_tagHoldExpiry_drops hrun htxn⟩

end Sys2Proof.Machine
end

section
/-! Time and queue of a command (O4), and what the commands outside the lists of Safety.lean do to the power phase (O15) and to
the lifecycle fuses (O16). -/
namespace Sys2Proof.Machine

/-- Settles O4: the time of the command is the only time `exec` lets pass, and no command touches the queue. That a command
carries a time and moves the clock on by it is log entry 1 (DESIGN CHOICE). -/
theorem timePassesAsCommanded : Obligations.TimePassesAsCommanded := fun c s t h =>
  have hkeeps := exec_moves c s t h
  ⟨hkeeps.now, hkeeps.pending⟩

/-- Settles O15: a command that is not in `mayEndRun` leaves the phase as it is. -/
theorem phaseFrame : Obligations.PhaseFrame := by
  intro c s t hstays h
  have hlisted : (leftAlone c).phase := by simp only [leftAlone, hstays, cond_false]
  exact (exec_moves c s t h).phase hlisted

/-- Settles O16: no operation of the model takes the fused state back. -/
theorem lifecycleOnlyAdvances : Obligations.LifecycleOnlyAdvances := fun c s t h => (exec_moves c s t h).fuse

end Sys2Proof.Machine
end

section
/-! What the commands of boot, update, security numbers and keys answer while the block runs (O58), and which bytes of the flash
the end of an erasure changes (O21). -/
namespace Sys2Proof.Machine

/-- A write record after whose response a chip reset begins: it came alone, so it is answered at once and the reset follows
(R461, R477). -/
theorem serveReset_takes {s : State} {path : Path} {a v : Nat} {e : Option Nat} {cause : Nat} (eff : State → State)
    (halone : s.mgmt.svc = none) (htakes : takesWrite s path a e v = true) :
    serveReset s path (writeRec a e v) cause eff
      = beginChipReset (wrote s path a e v fun t => keepReset cause (eff t)) cause := by
  rw [serveReset, serveWriteThen_takes _ _ htakes, halone]
  rfl

/-- `BOOT.UPDATE_DATA` acts at once: it is no object of a commit (R473). -/
theorem findObj_updateData : ∃ o, findObj Obj.BOOT_UPDATE_DATA = some o ∧ o.onCommit = false := by
  have hrow : (findObj Obj.BOOT_UPDATE_DATA).any (fun o => !o.onCommit) = true := by decide
  obtain ⟨o, hfound, hatOnce⟩ := (Option.any_eq_true _ _).mp hrow
  exact ⟨o, hfound, by simpa using hatOnce⟩

section Running
variable {dt : Nat} {s : State} (hrun : s.phase = .running)
include hrun

/-- A command under a condition that holds does what it does then. -/
theorem run_testedProp {p : State → Prop} [DecidablePred p] {f : State → State} (hcond : p (s.advance dt)) :
    run dt s (fun u => if p u then f u else u) = .next (f (s.advance dt)) := by
  rw [run_next _ hrun, if_pos hcond]

/-- A write of `RST.CHIP_RESET` that came alone is answered, and the reset begins (R461). -/
theorem exec_chipReset_resets {path : Path} (htakes : takesWrite (s.advance dt) path Obj.RST_CHIP_RESET none 1 = true)
    (halone : (s.advance dt).mgmt.svc = none) :
    exec (.chipReset dt path) s
      = .next (beginChipReset (wrote (s.advance dt) path Obj.RST_CHIP_RESET none 1 (keepReset 2)) 2) := by
  show execChipReset dt path s = _
  rw [execChipReset, run_next _ hrun, serveReset_takes _ halone htakes]
  rfl

/-- A write of `BOOT.UPDATE_DATA` stores its block in the inactive slot at once (R473). -/
theorem exec_updateData_stores {path : Path} {data : List Byte} {r : Rec}
    (hr : r = ⟨Obj.BOOT_UPDATE_DATA / 256, Obj.BOOT_UPDATE_DATA % 256, none, data⟩)
    (hserve : mayServe (s.advance dt) path .write r = true) (hok : checkRecord (s.advance dt) path .write r = .ok)
    (hnow : path = .i3c → (s.advance dt).reg Obj.STG_STATUS ≠ 2) (hclass : pathClass path ≠ .o) :
    exec (.updateData dt path data) s
      = .next (answer (recordWriter (updateDataEffect data (s.advance dt)) (pathCode path) (pathPort path)
          Obj.BOOT_UPDATE_DATA none) path .write r .ok []) := by
  obtain ⟨o, hfound, hatOnce⟩ := findObj_updateData
  have haddr : r.index * 256 + r.sub = Obj.BOOT_UPDATE_DATA := by rw [hr, recAddr]
  have helem : r.elem = none := by rw [hr]
  rw [← haddr] at hfound
  show execUpdateData dt path data s = _
  rw [execUpdateData, run_next _ hrun, ← hr, serveWrite_acts _ hserve hok hnow hfound hatOnce hclass, haddr, helem]

end Running

/-- Settles O58: the commands that write one object have the object's effect, the ends of the watchdog and of the flash work
act where they are due; the chip reset and the image block are the lemmas above. -/
theorem bootAndUpdateComplete : Obligations.BootAndUpdateComplete := by
  rintro dt s _ rfl hrun
  exact ⟨fun _ => exec_chipReset_resets hrun,
    fun _ hrom => run_testedProp hrun hrom,
    fun _ hdue ht => ht ▸ run_onDue_due hrun _ hdue,
    fun _ => run_serveWrite_wrote hrun,
    fun hwork hturn => run_testedProp hrun (p := fun u => u.boot.work = 1 ∧ updateTurn u = true) ⟨hwork, hturn⟩,
    fun _ => run_serveWrite_wrote hrun,
    fun _ hwork hturn => run_testedProp hrun (p := fun u => u.boot.work = 2 ∧ updateTurn u = true) ⟨hwork, hturn⟩,
    fun _ => run_serveWrite_wrote hrun,
    fun _ => run_serveWrite_wrote hrun,
    fun _ _ => exec_updateData_stores hrun rfl,
    fun _ => run_serveWrite_wrote hrun,
    fun _ _ => run_serveWrite_wrote hrun,
    run_next _ hrun⟩

/-! ### What an erasure leaves of the flash (R473) -/

/-- A filter that lets every value of a key through leaves what is read there: nothing before the key's place hides it, as
the keys rise. -/
theorem sparseGet_filter {α : Type} [DecidableEq α] {d : Nat → α} {lo : Nat} {l : List (Nat × α)} {p : Nat × α → Bool} {k : Nat}
    (hwf : sparseWfFrom d lo l = true) (hkeeps : ∀ v, p (k, v) = true) : sparseGet d (l.filter p) k = sparseGet d l k := by
  induction l generalizing lo with
  | nil => rfl
  | cons x l ih =>
    obtain ⟨j, v⟩ := x
    simp only [sparseWfFrom, Bool.and_eq_true] at hwf
    obtain ⟨-, hrest⟩ := hwf
    have hlater := ih hrest
    by_cases hp : p (j, v) = true
    · rw [List.filter_cons_of_pos hp, sparseGet, sparseGet, hlater]
    · have hne : k ≠ j := fun h => hp (h ▸ hkeeps v)
      rw [List.filter_cons_of_neg hp, hlater, sparseGet, if_neg hne]
      split
      · next hbelow => exact sparseGet_below hrest (by omega)
      · rfl

/-- An erased slot leaves every byte outside its 16 MiB (R467). -/
theorem eraseSlot_flashByte_out {s : State} (hwf : s.wf) (slot : Nat) {a : Nat}
    (hout : a < imageBase slot ∨ imageBase slot + 0x1000000 ≤ a) : (eraseSlot s slot).flashBytes a 1 = s.flashBytes a 1 := by
  have hbyte : sparseGet flashDefault (eraseSlot s slot).flash a = sparseGet flashDefault s.flash a :=
    sparseGet_filter hwf.2.2.2 fun _ => by simpa using hout
  exact congrArg (· :: []) hbyte

/-- The end of an erasure that is due erases the inactive slot; otherwise only time passes. -/
theorem execEraseDone_flash {dt : Nat} {s t : State} (h : execEraseDone dt s = .next t) :
    t.flash = s.flash ∨ t.flash = (eraseSlot s s.inactive).flash := by
  obtain rfl | ⟨-, rfl⟩ := run_cases h
  · exact .inl rfl
  · split
    · exact .inr rfl
    · exact .inl rfl

/-- Settles O21: the place and the 16 MiB of an image slot are those of R467 (the statement cites R466); that memory and queue
stand is the frame of the command. -/
theorem eraseFrame : Obligations.EraseFrame := by
  intro dt s t hwf h
  have hkeeps := exec_moves _ s t h
  obtain ⟨hmem, hlineMeta⟩ := hkeeps.mem trivial
  refine ⟨fun a hout => ?_, hmem, hlineMeta, hkeeps.pending⟩
  obtain hflash | hflash := execEraseDone_flash h
  · rw [State.flashBytes, hflash, State.flashBytes]
  · rw [State.flashBytes, hflash]
    exact eraseSlot_flashByte_out hwf s.inactive hout

end Sys2Proof.Machine
end

section
/-! What the commands of junction temperature, wear and life answer while the block runs (O60). -/
namespace Sys2Proof.Machine

section Running
variable {dt : Nat} {s : State} (hrun : s.phase = .running)
include hrun

/-- The readings of the 24 sensors are shown, and the highest is the junction temperature (R493). -/
theorem exec_tjSensorRead_shows {celsius : List Int} {t : Int} (hsensors : celsius.length = 24) (hhighest : highest celsius = some t) :
    exec (.tjSensorRead dt celsius) s
      = .next (junction (forEach (List.range 24) (s.advance dt)
          (fun v n => v.setReg Obj.PKG_TJ n (unsigned (celsius.getD n 0) 16))) t) := by
  show execTjSensorRead dt celsius s = _
  rw [execTjSensorRead, run_next _ hrun, if_pos hsensors, withSome_some _ hhighest]

/-- A junction that has been above its warning limit for 1 ms raises a source that is clear (R493). -/
theorem exec_tjWarn_raises (hheld : heldMs (s.advance dt).wear.warnSince (s.advance dt).now = true)
    (hclear : bitAt (groupWord (s.advance dt) 18) 0 = false) : exec (.tjWarn dt) s = .next (raise (s.advance dt) 18 0) := by
  show execTjWarn dt s = _
  rw [execTjWarn, run_next _ hrun, hheld, hclear]
  rfl

/-- So does one above its critical limit (R493). -/
theorem exec_tjCrit_raises (hheld : heldMs (s.advance dt).wear.critSince (s.advance dt).now = true)
    (hclear : bitAt (groupWord (s.advance dt) 18) 1 = false) : exec (.tjCrit dt) s = .next (raise (s.advance dt) 18 1) := by
  show execTjCrit dt s = _
  rw [execTjCrit, run_next _ hrun, hheld, hclear]
  rfl

/-- While the lowest margin of the Active Col engines is below 40 % firmware lowers the VID code, by one step a day (R490,
R495). -/
theorem exec_vidStep_steps (hfirmware : (s.advance dt).firmware = true) (hucode : (s.advance dt).boot.ucodeOk = true)
    (hlow : lowestColMargin (s.advance dt) < 40) (hroom : 0 < (s.advance dt).reg Obj.PKG_COL_VID)
    (hday : (s.advance dt).wear.vidAt + 86400000000000 ≤ (s.advance dt).now) :
    exec (.vidStep dt) s
      = .next (({ s.advance dt with wear := { (s.advance dt).wear with
          vidRise := (s.advance dt).wear.vidRise + 1, vidAt := (s.advance dt).now } }).setReg Obj.PKG_COL_VID 0
            ((s.advance dt).reg Obj.PKG_COL_VID - 1)) := by
  show execVidStep dt s = _
  rw [execVidStep, run_next _ hrun, if_pos ⟨hfirmware, hucode, hlow, hroom, .inr hday⟩]

/-- The wear record is saved once no trap waits for the flash (R496). -/
theorem exec_wearRecordSave_saves (hfirmware : (s.advance dt).firmware = true) (hidle : (s.advance dt).flt.traps = []) :
    exec (.wearRecordSave dt) s = .next (saveWear (s.advance dt)) := by
  show execWearRecordSave dt s = _
  rw [execWearRecordSave, run_next _ hrun, hfirmware, hidle]
  rfl

/-- An hour at the junction temperature is accounted (R497; the acceleration factor: log entry 4). -/
theorem exec_lifeAccounting_accounts {k : Nat} (hfirmware : (s.advance dt).firmware = true)
    (hk : k = tempBin (signed ((s.advance dt).reg Obj.PKG_TJ_MAX) 16)) :
    exec (.lifeAccounting dt) s
      = .next (showLife { s.advance dt with wear := { (s.advance dt).wear with
          powered := (s.advance dt).wear.powered + 1
          equiv := (s.advance dt).wear.equiv + Config.accelerationFactor (signed ((s.advance dt).reg Obj.PKG_TJ_MAX) 16)
          hist := assocPut (s.advance dt).wear.hist k ((assocGet (s.advance dt).wear.hist k).getD 0 + 1) } }) := by
  subst hk
  show execLifeAccounting dt s = _
  rw [execLifeAccounting, run_next _ hrun, if_pos hfirmware]

end Running

/-- Settles O60: the clause of each command is its lemma above, with `u` the state after the time passed; a wear measurement
acts under its conditions. The acceleration factor of R497 is log entry 4. -/
theorem packageAndWearComplete : Obligations.PackageAndWearComplete := by
  rintro dt s _ rfl hrun
  exact ⟨fun _ _ => exec_tjSensorRead_shows hrun,
    exec_tjWarn_raises hrun,
    exec_tjCrit_raises hrun,
    fun monitor kind margin _ hfirmware hmonitor hmargin =>
      run_testedProp hrun (p := fun u => u.firmware = true ∧ monitor < wearCount kind ∧ margin ≤ 100) ⟨hfirmware, hmonitor, hmargin⟩,
    exec_vidStep_steps hrun,
    exec_wearRecordSave_saves hrun,
    fun _ => exec_lifeAccounting_accounts hrun⟩

end Sys2Proof.Machine
end

section
/-! What the commands of tenancy resets, dirty logs and mailboxes answer while the block runs (O52). -/
namespace Sys2Proof.Machine

/-- A write of the mailbox window over a host port that is bound to a tenancy which is not Resetting reaches the tenancy's
pair (R377). -/
theorem mailboxWindow_bound {s : State} {port t : Nat} (f : Nat → State) (hhost : s.isHost port = true)
    (hfm : s.isFmPort port = false) (htenancy : s.portTenancy port = some t) (hready : s.tenState t ≠ 2) :
    mailboxWindow s port f = f t := by
  simp only [mailboxWindow, hhost, hfm, htenancy, if_neg hready, Bool.not_true, Bool.false_eq_true, if_false]

/-- A record of the manager side that takes meets no Full mailbox, and acts (R379). -/
theorem serveBox_takes {s : State} {path : Path} {a v t : Nat} {e : Option Nat} {full : Bool} (eff : State → State)
    (htakes : takesWrite s path a e v = true) (hroom : full = false) :
    serveBox s path (writeRec a e v) t full eff = wrote s path a e v eff := by
  rw [serveBox, hroom, Bool.and_false, if_neg Bool.false_ne_true, serveWrite_takes _ htakes]

section Running
variable {dt : Nat} {s : State} (hrun : s.phase = .running)
include hrun

/-! ### Resets and dirty logs (R366 to R368, R372, R374) -/

/-- The end of a reset that no removal was merged with: the tenancy is Live again, with RESET set (R366). -/
theorem exec_tenancyResetEnd_live {tenancy : Nat} (hresetting : (s.advance dt).tenState tenancy = 2)
    (hstarted : (s.advance dt).ten.started.contains tenancy = true) (hstays : (s.advance dt).ten.removal.contains tenancy = false) :
    exec (.tenancyResetEnd dt tenancy) s
      = .next (setIrq (setTenState { s.advance dt with ten := { (s.advance dt).ten with
          started := (s.advance dt).ten.started.filter (· != tenancy)
          removal := (s.advance dt).ten.removal.filter (· != tenancy) } } tenancy 1) tenancy 3) := by
  show execTenancyResetEnd dt tenancy s = _
  rw [execTenancyResetEnd, run_next _ hrun, if_pos ⟨hresetting, hstarted⟩]
  exact congrArg _ (if_neg (ne_true_of_eq_false hstays))

/-- A harvest read that passes the checks folds the tenancy's records first (R374). -/
theorem exec_dlogTake_folds {path : Path} (hserve : mayServe (s.advance dt) path .read (readRec Obj.TEN_DLOG_TAKE none) = true)
    (hok : checkRecord (s.advance dt) path .read (readRec Obj.TEN_DLOG_TAKE none) = .ok) :
    exec (.dlogTake dt path) s
      = .next (serveRead (foldDirty (s.advance dt) (fun d => d.tenancy == takeElem (s.advance dt) / 8)) path .read
          (readRec Obj.TEN_DLOG_TAKE none) (fun t _ _ => takeData t) takeEffect) := by
  show execDlogTake dt path s = _
  rw [execDlogTake, run_next _ hrun, serveTake, hserve, hok]
  rfl

/-! ### The mailbox window (R375 to R377) -/

/-- A command that is one write between two offsets of the mailbox window reaches the pair of its port's tenancy (R377). -/
theorem run_mailboxWindow {a : WindowWrite} {lo hi t : Nat} {f : State → WindowWrite → Nat → State} (hlo : lo ≤ a.offset)
    (hhi : a.offset < hi) (hhost : (s.advance dt).isHost a.port = true) (hfm : (s.advance dt).isFmPort a.port = false)
    (htenancy : (s.advance dt).portTenancy a.port = some t) (hready : (s.advance dt).tenState t ≠ 2) :
    run dt s (fun u => if lo ≤ a.offset ∧ a.offset < hi then mailboxWindow u a.port (f u a) else u)
      = .next (f (s.advance dt) a t) := by
  rw [run_next _ hrun, if_pos ⟨hlo, hhi⟩, mailboxWindow_bound _ hhost hfm htenancy hready]

/-! ### The manager side (R379) -/

/-- Inbound data is stored once the memory is Ready and the mailbox Empty (R375, R379). -/
theorem exec_inDataWrite_stores {path : Path} {tenancy value : Nat}
    (htakes : takesWrite (s.advance dt) path Obj.MBX_IN_DATA (some tenancy) value = true)
    (hsteppe : (s.advance dt).steppeReady = true) (hempty : (s.advance dt).inFull tenancy = false) :
    exec (.inDataWrite dt path tenancy value) s
      = .next (wrote (s.advance dt) path Obj.MBX_IN_DATA (some tenancy) value (fun t =>
          t.sysWrite (inboxAddr tenancy) (padTo (writeRec Obj.MBX_IN_DATA (some tenancy) value).data 256))) := by
  show execInDataWrite dt path tenancy value s = _
  rw [execInDataWrite, run_next _ hrun, serveInData, hsteppe]
  exact congrArg _ (serveBox_takes _ htakes hempty)

/-- A doorbell of the present generation rings the Empty inbound mailbox (R379). -/
theorem exec_inSend_rings {path : Path} {tenancy value : Nat}
    (htakes : takesWrite (s.advance dt) path Obj.MBX_IN_SEND (some tenancy) value = true)
    (hempty : (s.advance dt).inFull tenancy = false)
    (hgen : bits (ofLe (writeRec Obj.MBX_IN_SEND (some tenancy) value).data) 32 16 = (s.advance dt).tenGen tenancy) :
    exec (.inSend dt path tenancy value) s
      = .next (wrote (s.advance dt) path Obj.MBX_IN_SEND (some tenancy) value (fun t =>
          ringIn t tenancy (ofLe (writeRec Obj.MBX_IN_SEND (some tenancy) value).data % 2 ^ 32))) := by
  have hpresent : (bits (ofLe (writeRec Obj.MBX_IN_SEND (some tenancy) value).data) 32 16
      != (s.advance dt).tenGen ((writeRec Obj.MBX_IN_SEND (some tenancy) value).elem.getD 0)) = false := by
    rw [hgen]
    exact bne_self_eq_false _
  show execInSend dt path tenancy value s = _
  rw [execInSend, run_next _ hrun, serveInSend]
  simp only [hpresent, Bool.false_eq_true, if_false]
  exact congrArg _ (serveBox_takes _ htakes ((Bool.and_true _).trans hempty))

/-! ### The FM pair (R382) -/

/-- Firmware takes a well-formed message of the FM pair and queues it as a request of the port that rang (R382). -/
theorem exec_fmPairRequest_queues {t : State} (hfirmware : (s.advance dt).firmware = true)
    (hfull : (s.advance dt).outFull fmPair = true) (hheader : pairHeaderMalformed (fmMessage (s.advance dt)) = false)
    (ht : t = takeOut ((s.advance dt).sysRead (outboxAddr fmPair) 256).1 fmPair) :
    exec (.fmPairRequest dt) s
      = .next { t with mgmt := { t.mgmt with
          qFm := t.mgmt.qFm ++ [⟨.fm (s.advance dt).ten.fmPort true, fmMessage (s.advance dt)⟩] } } := by
  subst ht
  show execFmPairRequest dt s = _
  rw [execFmPairRequest, run_next _ hrun, hfirmware, hfull]
  simp only [hheader, Bool.not_true, Bool.or_self, Bool.false_eq_true, if_false]

/-- Firmware posts the oldest waiting response into the Empty inbound mailbox of the FM pair (R382). -/
theorem exec_fmPairPost_posts {bs : List Byte} {rest : List (List Byte)} (hfirmware : (s.advance dt).firmware = true)
    (hempty : (s.advance dt).inFull fmPair = false) (hwaits : (s.advance dt).ten.fmWaiting = bs :: rest) :
    exec (.fmPairPost dt) s
      = .next (postFm { s.advance dt with ten := { (s.advance dt).ten with fmWaiting := rest } } bs 1) := by
  show execFmPairPost dt s = _
  rw [execFmPairPost, run_next _ hrun, hfirmware, hempty]
  simp only [hwaits, Bool.not_true, Bool.or_false, Bool.false_eq_true, if_false]

end Running

/-- Settles O52: a write of one object has the object's effect, a write of the window that of its register, the ends of the
timers act where they are due; the other clauses are the lemmas above. -/
theorem tenanciesComplete : Obligations.TenanciesComplete := by
  rintro dt s _ rfl hrun
  exact ⟨fun _ _ => run_serveWrite_wrote hrun,
    fun tenancy hdue hstate => run_dueTested hrun (test := fun u => u.tenState tenancy = 2) _ hdue hstate,
    fun _ => exec_tenancyResetEnd_live hrun,
    fun range => run_tested hrun (test := fun u => u.regBit Obj.TEN_DLOG_STATE (range / 8) (8 + range % 8)) _,
    fun _ => exec_dlogTake_folds hrun,
    fun _ _ hlo hhi => run_mailboxWindow hrun (f := writeOut) hlo hhi,
    fun _ _ hlo hhi => run_mailboxWindow hrun (f := writeDoorbell) hlo hhi,
    fun _ _ hlo hhi => run_mailboxWindow hrun (f := writeTakeReg) hlo hhi,
    fun _ _ _ => exec_inDataWrite_stores hrun,
    fun _ _ _ => exec_inSend_rings hrun,
    fun _ _ => run_serveWrite_wrote hrun,
    fun element hdue howed => run_dueTested hrun (test := fun u => u.ten.summaryOwed.contains element = true) _ hdue howed,
    fun _ => exec_fmPairRequest_queues hrun,
    fun _ _ => exec_fmPairPost_posts hrun⟩

end Sys2Proof.Machine
end

section
/-! When a Glen channel runs (O31), and what the commands of the Glen movers answer while the block runs (O53). -/
namespace Sys2Proof.Machine

/-! ### The channel window (R385, R386) -/

/-- A write of the window over a host port reaches the channel of its tenancy once the device has left Start-up, and while the
tenancy is not Free. -/
theorem glenWindow_bound {s : State} {port t : Nat} (f : Nat → State) (hhost : s.isHost port = true)
    (htenancy : s.portTenancy port = some t) (hstarted : s.devState ≠ 0) (hbound : s.tenState t ≠ 0) :
    glenWindow s port f = f t := by
  simp only [glenWindow, hhost, htenancy, if_neg (not_or.mpr ⟨hstarted, hbound⟩), Bool.not_true, Bool.false_eq_true, if_false]

/-- In Start-up, and while the tenancy is Free, it ends in Completer Abort and does nothing else (R385). -/
theorem glenWindow_aborts {s : State} {port t : Nat} (f : Nat → State) (hhost : s.isHost port = true)
    (htenancy : s.portTenancy port = some t) (hclosed : s.devState = 0 ∨ s.tenState t = 0) :
    glenWindow s port f = s.emit (.barAbort port) := by
  simp only [glenWindow, hhost, htenancy, if_pos hclosed, Bool.not_true, Bool.false_eq_true, if_false]

/-- A host's write below the mailbox window is one of the Glen window (R114, R386). -/
theorem windowWrite_glen {s : State} {a : WindowWrite} (hhost : s.isHost a.port = true) (hoffset : a.offset < 0x40000) :
    windowWrite s a = glenWindow s a.port (glenWrite s a) := by
  simp only [windowWrite, hhost, if_pos hoffset, Bool.not_true, Bool.false_eq_true, if_false]

/-! ### Channels that do not run (R385) -/

/-- A channel that runs has a device past Start-up and a Live tenancy. -/
theorem chanRuns_live {s : State} {ch : Nat} (hruns : s.chanRuns ch = true) : s.devState ≠ 0 ∧ s.tenState ch = 1 := by
  simp only [State.chanRuns, Bool.and_eq_true, beq_iff_eq, bne_iff_ne] at hruns
  obtain ⟨⟨⟨-, hlive⟩, hstarted⟩, -⟩ := hruns
  exact ⟨hstarted, hlive⟩

/-- A meaning that does nothing to the state after the time passed lets time pass alone, in every phase. -/
theorem run_nothing {dt : Nat} {s : State} {f : State → State} (hnothing : f (s.advance dt) = s.advance dt) :
    run dt s f = .next (s.advance dt) := by
  by_cases hrun : s.phase = .running
  · rw [run_next _ hrun, hnothing]
  · exact run_idle _ hrun

section Stands
variable {dt ch : Nat} {s : State} (hstands : (s.advance dt).chanRuns ch = false)
include hstands

/-- A channel that does not run fetches no descriptor. -/
theorem exec_descriptorFetch_stands (host : HostReadResult) :
    exec (.descriptorFetch dt ch host) s = .next (s.advance dt) := run_nothing (if_pos (.inl hstands))

/-- It takes no source data. -/
theorem exec_sourceData_stands (source : SourceResult) (busMaster : Bool) :
    exec (.sourceData dt ch source busMaster) s = .next (s.advance dt) := run_nothing (if_neg (ne_true_of_eq_false hstands))

/-- It writes no descriptor back. -/
theorem exec_descriptorWriteBack_stands (busMaster : Bool) :
    exec (.descriptorWriteBack dt ch busMaster) s = .next (s.advance dt) := run_nothing (if_neg (ne_true_of_eq_false hstands))

end Stands

section Running
variable {dt : Nat} {s : State} (hrun : s.phase = .running)
include hrun

/-- A write of the Glen window in Start-up, or while its tenancy is Free, ends in Completer Abort (R385). -/
theorem exec_write_glenAborts {a : WindowWrite} {t : Nat} (hhost : (s.advance dt).isHost a.port = true)
    (htenancy : (s.advance dt).portTenancy a.port = some t)
    (hclosed : (s.advance dt).devState = 0 ∨ (s.advance dt).tenState t = 0) (hoffset : a.offset < 0x40000) :
    exec (.write dt (.window a)) s = .next ((s.advance dt).emit (.barAbort a.port)) := by
  have hexec : exec (.write dt (.window a)) s = .next (windowWrite (s.advance dt) a) := run_next _ hrun
  rw [hexec, windowWrite_glen hhost hoffset, glenWindow_aborts _ hhost htenancy hclosed]

/-- A command that is one write of the channel window has its effect on the channel of the port's tenancy (R385, R390). -/
theorem run_glenWindow {port t : Nat} {f : State → Nat → State} (hhost : (s.advance dt).isHost port = true)
    (htenancy : (s.advance dt).portTenancy port = some t) (hstarted : (s.advance dt).devState ≠ 0)
    (hbound : (s.advance dt).tenState t ≠ 0) : run dt s (fun u => glenWindow u port (f u)) = .next (f (s.advance dt) t) := by
  rw [run_next _ hrun, glenWindow_bound _ hhost htenancy hstarted hbound]

/-- So has one between two offsets of the window (R386). -/
theorem run_glenWindowAt {a : WindowWrite} {lo hi t : Nat} {f : State → WindowWrite → Nat → State} (hlo : lo ≤ a.offset)
    (hhi : a.offset < hi) (hhost : (s.advance dt).isHost a.port = true) (htenancy : (s.advance dt).portTenancy a.port = some t)
    (hstarted : (s.advance dt).devState ≠ 0) (hbound : (s.advance dt).tenState t ≠ 0) :
    run dt s (fun u => if lo ≤ a.offset ∧ a.offset < hi then glenWindow u a.port (f u a) else u)
      = .next (f (s.advance dt) a t) := by
  rw [run_next _ hrun, if_pos ⟨hlo, hhi⟩, glenWindow_bound _ hhost htenancy hstarted hbound]

/-! ### Descriptors (R390, R396, R397) -/

section Fetching
variable {channel : Nat} (hruns : (s.advance dt).chanRuns channel = true) (hfetching : ((s.advance dt).chan channel).fetching = true)
include hruns hfetching

/-- A fetch in progress asks the place that CH_POINTER names. -/
theorem exec_descriptorFetch_fetches (host : HostReadResult) :
    exec (.descriptorFetch dt channel host) s
      = .next (resetEngines (
          if (s.advance dt).reg Obj.GLEN_CHAN_POINTER channel % 4 = 0 then
            fetchHost (s.advance dt) channel
              ((s.advance dt).reg Obj.GLEN_CHAN_POINTER channel - (s.advance dt).reg Obj.GLEN_CHAN_POINTER channel % 64) host
          else if (s.advance dt).reg Obj.GLEN_CHAN_POINTER channel % 4 = 1 then
            fetchArea (s.advance dt) channel
              ((s.advance dt).reg Obj.GLEN_CHAN_POINTER channel - (s.advance dt).reg Obj.GLEN_CHAN_POINTER channel % 64)
          else fetchFails (s.advance dt) channel)) := by
  show execDescriptorFetch dt channel host s = _
  rw [execDescriptorFetch, run_next _ hrun]
  simp only [hruns, hfetching, Bool.true_eq_false, or_self, if_false]

/-- A descriptor in host memory is read over the host port (R394, R396). -/
theorem exec_descriptorFetch_host (host : HostReadResult) (hplace : (s.advance dt).reg Obj.GLEN_CHAN_POINTER channel % 4 = 0) :
    exec (.descriptorFetch dt channel host) s
      = .next (resetEngines (fetchHost (s.advance dt) channel
          ((s.advance dt).reg Obj.GLEN_CHAN_POINTER channel - (s.advance dt).reg Obj.GLEN_CHAN_POINTER channel % 64) host)) := by
  rw [exec_descriptorFetch_fetches hrun hruns hfetching, if_pos hplace]

/-- A descriptor in the descriptor area is read from Steppe memory (R387). -/
theorem exec_descriptorFetch_area (host : HostReadResult) (hplace : (s.advance dt).reg Obj.GLEN_CHAN_POINTER channel % 4 = 1) :
    exec (.descriptorFetch dt channel host) s
      = .next (resetEngines (fetchArea (s.advance dt) channel
          ((s.advance dt).reg Obj.GLEN_CHAN_POINTER channel - (s.advance dt).reg Obj.GLEN_CHAN_POINTER channel % 64))) := by
  rw [exec_descriptorFetch_fetches hrun hruns hfetching, if_neg (by rw [hplace]; decide), if_pos hplace]

/-- A fetch from host memory that gets no completion in time fails (R394, R396; when a fetch is in progress: log entry 47). -/
theorem exec_completionTimeout_fetch (hplace : (s.advance dt).reg Obj.GLEN_CHAN_POINTER channel % 4 = 0) :
    exec (.completionTimeout dt channel) s = .next (resetEngines (fetchFails (s.advance dt) channel)) := by
  show execCompletionTimeout dt channel s = _
  rw [execCompletionTimeout, run_next _ hrun, if_neg (ne_false_of_eq_true hruns), if_pos hfetching, if_pos hplace]

end Fetching

/-- With no fetch in progress the oldest host read of the channel times out (R394). -/
theorem exec_completionTimeout_read {channel : Nat} (hruns : (s.advance dt).chanRuns channel = true)
    (hidle : ((s.advance dt).chan channel).fetching = false) :
    exec (.completionTimeout dt channel) s = .next (timeoutRead (s.advance dt) channel) := by
  show execCompletionTimeout dt channel s = _
  rw [execCompletionTimeout, run_next _ hrun, if_neg (ne_false_of_eq_true hruns), if_neg (ne_true_of_eq_false hidle)]

/-- A descriptor whose last byte has reached its point completes (R397). -/
theorem exec_descriptorWriteBack_completes {channel : Nat} {d : GlenDesc} (busMaster : Bool)
    (hruns : (s.advance dt).chanRuns channel = true) (hdesc : ((s.advance dt).chan channel).desc = some d)
    (hwritten : ((s.advance dt).chan channel).written = d.length) (hreached : ((s.advance dt).chan channel).writes = []) :
    exec (.descriptorWriteBack dt channel busMaster) s
      = .next (resetEngines (completeDesc (s.advance dt) channel d busMaster)) := by
  show execDescriptorWriteBack dt channel busMaster s = _
  rw [execDescriptorWriteBack, run_next _ hrun, if_pos hruns, withSome_some _ hdesc, if_pos ⟨hwritten, hreached⟩]

/-! ### Moving data (R384, R391, R395) -/

/-- An engine serves the channel whose turn it is (R384). -/
theorem exec_glenTurn_issues {engine t : Nat} (busMaster : Bool) (hengine : engine < 64)
    (hnext : nextChannel (s.advance dt) engine = some t) :
    exec (.glenTurn dt engine busMaster) s
      = .next (issueTurn t busMaster 4096 (min 4096 (16384 - (s.advance dt).buffered engine))
          { s.advance dt with glen := { (s.advance dt).glen with turn := assocPut (s.advance dt).glen.turn engine (t % 64) } }) := by
  show execGlenTurn dt engine busMaster s = _
  rw [execGlenTurn, run_next _ hrun, if_pos hengine, withSome_some _ hnext]

/-- The data of the oldest source access is taken (R391, R395). -/
theorem exec_sourceData_takes {channel : Nat} {rd : GlenRead} (source : SourceResult) (busMaster : Bool)
    (hruns : (s.advance dt).chanRuns channel = true) (hread : ((s.advance dt).chan channel).reads.head? = some rd) :
    exec (.sourceData dt channel source busMaster) s = .next (takeSource (s.advance dt) channel rd source busMaster) := by
  show execSourceData dt channel source busMaster s = _
  rw [execSourceData, run_next _ hrun, if_pos hruns, withSome_some _ hread]

end Running

/-- Settles O31: the clauses are when a channel runs, what one that does not run does, and the abort of its window. -/
theorem channelRuns : Obligations.ChannelRuns := by
  refine ⟨fun _ _ => chanRuns_live, ?_, ?_⟩
  · rintro dt ch host source busMaster s _ rfl hstands
    exact ⟨exec_descriptorFetch_stands hstands host, exec_sourceData_stands hstands source busMaster,
      exec_descriptorWriteBack_stands hstands busMaster⟩
  · rintro dt ch a s _ rfl hrun
    exact exec_write_glenAborts hrun

/-- Settles O53: the commands of the window reach the channel of the port's tenancy, the others are the lemmas above. That the
window of a Resetting tenancy acts, and the span in which a fetch is in progress, are log entry 47 (DEDUCED). -/
theorem glenComplete : Obligations.GlenComplete := by
  rintro dt s _ rfl hrun
  exact ⟨fun port _ => run_glenWindow hrun (f := fun u => startChannel u port),
    fun port _ => run_glenWindow hrun (f := fun u t => (stopChannel u t).emit (.barDone port)),
    fun port _ => run_glenWindow hrun (f := fun u t => (ringChannel u t).emit (.barDone port)),
    fun _ _ hlo hhi => run_glenWindowAt hrun (f := writePointer) hlo hhi,
    fun _ _ hlo hhi => run_glenWindowAt hrun (f := writeDescArea) hlo hhi,
    fun _ _ => run_serveWrite_wrote hrun,
    fun _ host hruns hfetching => exec_descriptorFetch_host hrun hruns hfetching host,
    fun _ host hruns hfetching => exec_descriptorFetch_area hrun hruns hfetching host,
    fun _ _ busMaster => exec_glenTurn_issues hrun busMaster,
    fun _ _ source busMaster => exec_sourceData_takes hrun source busMaster,
    fun _ _ busMaster => exec_descriptorWriteBack_completes hrun busMaster,
    fun _ => exec_completionTimeout_fetch hrun,
    fun _ => exec_completionTimeout_read hrun⟩

end Sys2Proof.Machine
end

section
/-! What the commands of the fault collector answer while the block runs (O54), and the word `FLT.STATUS` (O28). -/
namespace Sys2Proof.Machine

section Running
variable {dt : Nat} {s : State} (hrun : s.phase = .running)
include hrun

/-- A command of a unit that works as long as there is power, standing for the end of a timer, has its effect when the timer
is due. -/
theorem runPowered_onDue_due {timer : Timer} (f : State → State) (hdue : (s.advance dt).due timer = true) :
    runPowered dt s (fun t => t.onDue timer f) = .next (f ((s.advance dt).disarm timer)) := by
  rw [runPowered_running hrun, onDue_due _ hdue]

/-- A command of such a unit that acts under a condition has its effect when the condition holds. -/
theorem runPowered_testedProp {p : State → Prop} [DecidablePred p] {f : State → State} (hcond : p (s.advance dt)) :
    runPowered dt s (fun u => if p u then f u else u) = .next (f (s.advance dt)) := by
  rw [runPowered_running hrun, if_pos hcond]

/-! ### Traps (R408) -/

/-- The oldest trapped record goes to flash. -/
theorem exec_trapSaveDone_saves {w : Nat} {rest : List Nat} {t : State} (htraps : (s.advance dt).flt.traps = w :: rest)
    (ht : t = saveLogRecord { s.advance dt with flt := { (s.advance dt).flt with traps := rest } } w)
    (hstays : t.flt.resetDue = false) : exec (.trapSaveDone dt) s = .next t := by
  subst ht
  show execTrapSaveDone dt s = _
  rw [execTrapSaveDone, run_next _ hrun]
  simp only [htraps, hstays, Bool.false_and, Bool.false_eq_true, if_false]

/-- With the last one the chip reset that waited for it begins. -/
theorem exec_trapSaveDone_resets {w : Nat} {t : State} (htraps : (s.advance dt).flt.traps = [w])
    (ht : t = saveLogRecord { s.advance dt with flt := { (s.advance dt).flt with traps := [] } } w)
    (hdue : t.flt.resetDue = true) :
    exec (.trapSaveDone dt) s = .next (beginChipReset { t with flt := { t.flt with resetDue := false } } 3) := by
  subst ht
  show execTrapSaveDone dt s = _
  rw [execTrapSaveDone, run_next _ hrun]
  simp only [htraps, hdue, List.isEmpty_nil, Bool.and_self, if_true]

end Running

/-- Settles O54: a write of one object has the object's effect, the ends of the timers act where they are due, a named source
is raised, and the traps are the two lemmas above. -/
theorem faultsComplete : Obligations.FaultsComplete := by
  rintro dt s _ rfl hrun
  exact ⟨fun group bit element hnamed =>
      runPowered_testedProp hrun (p := fun _ => sourceNamed group bit = true) (f := fun u => resetEngines (raise u group bit element)) hnamed,
    fun _ => runPowered_onDue_due hrun _,
    runPowered_onDue_due hrun _,
    fun _ => run_onDue_due hrun _,
    fun _ _ _ => exec_trapSaveDone_saves hrun,
    fun _ _ => exec_trapSaveDone_resets hrun,
    fun _ _ _ => run_serveWrite_wrote hrun,
    fun _ _ _ => run_serveWrite_wrote hrun,
    fun _ _ => run_serveWrite_wrote hrun,
    fun _ _ => run_serveWrite_wrote hrun⟩

/-! ### The word `FLT.STATUS` (R405) -/

/-- The bits of the model are those of the library. -/
theorem bitAt_eq_testBit (v n : Nat) : bitAt v n = v.testBit n := by
  rw [bitAt, Nat.testBit_eq_decide_div_mod_eq]
  rfl

/-- A bit written above the bits of a word leaves those below it. -/
theorem bitAt_add_at_below {v n g : Nat} (hv : v < 2 ^ n) (hg : g < n) (x : Nat) : bitAt (v + at_ n x) g = bitAt v g := by
  rw [at_, Nat.add_comm, Nat.mul_comm, bitAt_eq_testBit, Nat.testBit_two_pow_mul_add _ hv, if_pos hg, bitAt_eq_testBit]

/-- It is read back in its place. -/
theorem bitAt_add_at_same {v n : Nat} (hv : v < 2 ^ n) (b : Bool) : bitAt (v + at_ n (b2n b)) n = b := by
  rw [bitAt, at_, Nat.add_mul_div_right _ _ (Nat.two_pow_pos n), Nat.div_eq_of_lt hv]
  cases b <;> rfl

/-- The word of the groups below `n` has no bit above them. -/
theorem faultStatus_lt (s : State) (n : Nat) : faultStatus s n < 2 ^ n := by
  induction n with
  | zero => exact Nat.one_pos
  | succ n ih =>
    have hbit : at_ n (b2n (groupWord s n != 0)) ≤ 1 * 2 ^ n :=
      Nat.mul_le_mul_right _ (Nat.le_of_lt_succ (b2n_lt _))
    rw [faultStatus, Nat.pow_succ]
    omega

/-- The bit of a group below `n` is set exactly while a bit of the group is set. -/
theorem bitAt_faultStatus (s : State) {n g : Nat} (hg : g < n) : bitAt (faultStatus s n) g = (groupWord s g != 0) := by
  induction n with
  | zero => exact absurd hg (Nat.not_lt_zero g)
  | succ n ih =>
    obtain hbelow | rfl := Nat.lt_succ_iff_lt_or_eq.mp hg
    · rw [faultStatus, bitAt_add_at_below (faultStatus_lt s n) hbelow, ih hbelow]
    · rw [faultStatus, bitAt_add_at_same (faultStatus_lt s g)]

/-- A read of `FLT.STATUS` shows the groups as they stand. -/
theorem readObj_fltStatus (s : State) : readObj s Obj.FLT_STATUS 0 = faultStatus s 64 := rfl

/-- No class holds write access to `FLT.STATUS`. -/
theorem lookupObj_fltStatus : ∃ o, lookupObj 0x5000 1 = .ok o ∧ ∀ c, canWrite c o = false :=
  ⟨_, rfl, fun c => by cases c <;> rfl⟩

/-- A record without the access its operation needs is denied (check 3 of R500). -/
theorem checkRecord_denied {s : State} {path : Path} {op : RecOp} {r : Rec} {o : ObjDef} (hfound : lookupObj r.index r.sub = .ok o)
    (hnoAccess : accessOk s path op o r.elem = false) : checkRecord s path op r = .denied := by
  simp only [checkRecord, hfound, hnoAccess, Bool.not_false, if_true]

/-- A class without write access may not write. -/
theorem accessOk_unwritable {s : State} {path : Path} {o : ObjDef} (e : Option Nat) (hwrite : canWrite (pathClass path) o = false) :
    accessOk s path .write o e = false := by
  simp only [accessOk, hwrite, Bool.false_and]

/-- Settles O28: the word is gathered group by group, and its row grants no class write access. -/
theorem faultStatusWord : Obligations.FaultStatusWord := by
  refine ⟨fun s g hg => ?_, fun s path r hindex hsub => ?_⟩
  · rw [readObj_fltStatus, bitAt_faultStatus s hg, bne_iff_ne]
  · obtain ⟨o, hfound, hwrite⟩ := lookupObj_fltStatus
    rw [← hindex, ← hsub] at hfound
    exact checkRecord_denied hfound (accessOk_unwritable _ (hwrite _))

end Sys2Proof.Machine
end

section
/-! T-class reads of counters (O23), the counter word (O29) and the consumer's operations on the telemetry FIFO (O30). -/
namespace Sys2Proof.Machine

/-! ### The rows a record can name (R34, R36) -/

/-- No table has a row at subindex 0. -/
theorem objsOf_sub_ne_zero (hi : Nat) : ∀ o ∈ objsOf hi, o.addr % 256 ≠ 0 := by
  unfold objsOf
  split <;> decide

/-- A row is found at its own address. -/
theorem findObj_addr {a : Nat} {o : ObjDef} (h : findObj a = some o) : o.addr = a :=
  beq_iff_eq.mp (List.find?_some (p := fun o : ObjDef => o.addr == a) h)

/-- A record finds the row of subindex 0, or a row of the tables. -/
theorem lookupObj_cases {index sub : Nat} {o : ObjDef} (h : lookupObj index sub = .ok o) :
    o = subZero index ∨ findObj o.addr = some o := by
  have hdefined : indexDefined index = true := by
    cases hd : indexDefined index with
    | true => rfl
    | false => rw [lookupObj_undefined hd] at h; cases h
  by_cases hsub : sub = 0
  · subst hsub
    rw [lookupObj_zero hdefined] at h
    injection h with h
    exact .inl h.symm
  · have hrow := row_of_lookupObj hdefined hsub h
    exact .inr ((findObj_addr hrow).symm ▸ hrow)

/-- Subindex 0 of an index is no object with another subindex. -/
theorem subZero_addr_ne (index : Nat) {a : Nat} (ha : a % 256 ≠ 0) : (subZero index).addr ≠ a := by
  show index * 256 ≠ a
  omega

/-- Subindex 0 of an index is no counter. -/
theorem isCounterObj_subZero (index : Nat) : isCounterObj (subZero index).addr = false := by
  have hnone : findObj (index * 256) = none := by
    cases hrow : findObj (index * 256) with
    | none => rfl
    | some o =>
      have haddr := findObj_addr hrow
      exact absurd (by omega) (objsOf_sub_ne_zero _ o (List.mem_of_find?_eq_some hrow))
  have hother : index * 256 ≠ Obj.FLT_RECOVERIES := subZero_addr_ne index (by decide)
  show (index * 256 == Obj.FLT_RECOVERIES || (findObj (index * 256)).elim false isCounter) = false
  rw [hnone, beq_false_of_ne hother]
  rfl

/-- The T class gets no access to an object for a read (R40, R49). -/
def unreadByTenants (o : ObjDef) : Bool := !canRead .t o && !writeOnly o

/-- Tenants do not read `FLT.RECOVERIES`, the counter object that holds no counter words. -/
theorem recoveries_unread {o : ObjDef} (h : findObj Obj.FLT_RECOVERIES = some o) : unreadByTenants o = true := by
  have hrow : (findObj Obj.FLT_RECOVERIES).all unreadByTenants = true := by decide
  rwa [h] at hrow

/-- Nor do they read the manager's window to memory. -/
theorem memData_unread {o : ObjDef} (h : findObj Obj.TRACT_MEM_DATA = some o) : unreadByTenants o = true := by
  have hrow : (findObj Obj.TRACT_MEM_DATA).all unreadByTenants = true := by decide
  rwa [h] at hrow

/-- What is a counter holds counter words, or is nothing a tenant reads (R421). -/
theorem counter_cases {index sub : Nat} {o : ObjDef} (h : lookupObj index sub = .ok o) (hcounter : isCounterObj o.addr = true) :
    isCounter o = true ∨ unreadByTenants o = true := by
  obtain rfl | hrow := lookupObj_cases h
  · rw [isCounterObj_subZero] at hcounter
    cases hcounter
  · by_cases hrecoveries : o.addr = Obj.FLT_RECOVERIES
    · exact .inr (recoveries_unread (hrecoveries ▸ hrow))
    · rw [isCounterObj, beq_false_of_ne hrecoveries, Bool.false_or, hrow] at hcounter
      exact .inl hcounter

/-- What holds counter words is a counter. -/
theorem isCounter_eq_false {index sub : Nat} {o : ObjDef} (h : lookupObj index sub = .ok o)
    (hnone : isCounterObj o.addr = false) : isCounter o = false := by
  obtain rfl | hrow := lookupObj_cases h
  · rfl
  · rw [isCounterObj, hrow, Bool.or_eq_false_iff] at hnone
    exact hnone.2

/-! ### T-class reads (R41, R434) -/

/-- What tenants do not read is denied them. -/
theorem accessOk_unread {s : State} {port : Nat} {o : ObjDef} (e : Option Nat) (hunread : unreadByTenants o = true) :
    accessOk s (.tenant port) .read o e = false := by
  simp only [unreadByTenants, Bool.and_eq_true, Bool.not_eq_true'] at hunread
  obtain ⟨hread, hwriteOnly⟩ := hunread
  simp only [accessOk, pathClass, hread, hwriteOnly, Bool.false_and, Bool.or_self]

section Tenant
variable {s : State} {port t : Nat} {o : ObjDef} (htenancy : s.portTenancy port = some t)
include htenancy

/-- Words of counters are not a tenant's to read while its COUNTERS is clear. -/
theorem tenantOk_counter_clear (e : Option Nat) (hcounter : isCounter o = true) (hclear : s.regBit Obj.TEN_CTRL t 30 = false) :
    tenantOk s port .read o e = false := by
  simp only [tenantOk, htenancy, hcounter, hclear]
  exact Bool.and_false _

/-- While it is set the tenant's own element is. -/
theorem tenantOk_own_set {e : Option Nat} (hown : o.count = 4096 → e = none ∨ e = some t)
    (hset : s.regBit Obj.TEN_CTRL t 30 = true) : tenantOk s port .read o e = true := by
  simp only [tenantOk, htenancy, hset, Bool.or_true, Bool.true_or, Bool.and_true]
  cases e with
  | none => rfl
  | some n =>
    show (o.count != 4096 || n == t) = true
    rw [Bool.or_eq_true, bne_iff_ne, beq_iff_eq]
    exact Decidable.or_iff_not_imp_left.mpr fun hcount => by simpa using hown (not_not.mp hcount)

/-- What holds no counter words does not depend on COUNTERS: only the tenancy the port is bound to counts. -/
theorem tenantOk_plain {s' : State} (htenancy' : s'.portTenancy port = some t) (e : Option Nat) (hplain : isCounter o = false) :
    tenantOk s' port .read o e = tenantOk s port .read o e := by
  simp only [tenantOk, htenancy, htenancy', hplain, Bool.not_false, Bool.true_or]

end Tenant

section Read
variable {s : State} {port t : Nat} {r : Rec} {o : ObjDef} (htenancy : s.portTenancy port = some t)
  (hfound : lookupObj r.index r.sub = .ok o)
include hfound

/-- A read past checks 1 to 4 of R500 that carries no data succeeds; the window to memory asks for a tract beside. -/
theorem checkRecord_read_ok {path : Path} (haccess : accessOk s path .read o r.elem = true)
    (helement : elementOk o r.elem = true) (hdata : r.data = []) (hmem : o.addr ≠ Obj.TRACT_MEM_DATA) :
    checkRecord s path .read r = .ok := by
  simp only [checkRecord, hfound, haccess, helement, hdata, hmem, Bool.not_true, Bool.false_eq_true, if_false,
    List.length_nil, ne_eq, not_true_eq_false, false_and]

/-- But for the window to memory two states that grant the same access give a read the same result. -/
theorem checkRecord_read_congr {s' : State} {path : Path}
    (haccess : accessOk s' path .read o r.elem = accessOk s path .read o r.elem) (hmem : o.addr ≠ Obj.TRACT_MEM_DATA) :
    checkRecord s' path .read r = checkRecord s path .read r := by
  simp only [checkRecord, hfound, haccess, hmem, false_and, if_false]

include htenancy

/-- A counter is denied while COUNTERS is clear (R434). -/
theorem checkRecord_counter_clear (hcounter : isCounterObj o.addr = true) (hclear : s.regBit Obj.TEN_CTRL t 30 = false) :
    checkRecord s (.tenant port) .read r = .denied := by
  refine checkRecord_denied hfound ?_
  obtain hwords | hunread := counter_cases hfound hcounter
  · rw [accessOk, tenantOk_counter_clear htenancy _ hwords hclear, Bool.and_false]
  · exact accessOk_unread _ hunread

/-- While it is set the tenant's own element is read (R434). -/
theorem checkRecord_counter_set (hcounter : isCounterObj o.addr = true) (hset : s.regBit Obj.TEN_CTRL t 30 = true)
    (hread : canRead .t o = true) (helement : elementOk o r.elem = true)
    (hown : o.count = 4096 → r.elem = none ∨ r.elem = some t) (hdata : r.data = []) :
    checkRecord s (.tenant port) .read r = .ok := by
  have hmem : o.addr ≠ Obj.TRACT_MEM_DATA := fun haddr => absurd (haddr ▸ hcounter) (by decide)
  refine checkRecord_read_ok hfound ?_ helement hdata hmem
  simp only [accessOk, pathClass, hread, tenantOk_own_set htenancy hown hset, Bool.true_or, Bool.and_self]

/-- The result of a read of any other object does not change with COUNTERS (R434). -/
theorem checkRecord_plain_counters (hwf : s.wf) (hplain : isCounterObj o.addr = false) (b : Bool) :
    checkRecord (s.putRegBit Obj.TEN_CTRL t 30 b) (.tenant port) .read r = checkRecord s (.tenant port) .read r := by
  by_cases hmem : o.addr = Obj.TRACT_MEM_DATA
  · have hunread : unreadByTenants o = true := by
      obtain rfl | hrow := lookupObj_cases hfound
      · exact absurd hmem (subZero_addr_ne _ (by decide))
      · exact memData_unread (hmem ▸ hrow)
    rw [checkRecord_denied hfound (accessOk_unread _ hunread), checkRecord_denied hfound (accessOk_unread _ hunread)]
  · have hbind : (s.putRegBit Obj.TEN_CTRL t 30 b).reg Obj.TEN_PORT_BIND port = s.reg Obj.TEN_PORT_BIND port :=
      State.setReg_reg_ne hwf (.inl (by decide))
    have htenancy' : (s.putRegBit Obj.TEN_CTRL t 30 b).portTenancy port = some t := by
      rw [← htenancy, State.portTenancy, hbind, State.portTenancy]
    refine checkRecord_read_congr hfound ?_ hmem
    simp only [accessOk, tenantOk_plain htenancy htenancy' _ (isCounter_eq_false hfound hplain)]

end Read

/-- Settles O23: a counter object holds counter words, which COUNTERS governs, or is `FLT.RECOVERIES`, which no tenant reads. -/
theorem countersNeedPermission : Obligations.CountersNeedPermission := fun _ _ _ _ _ hwf htenancy _ hfound =>
  ⟨checkRecord_counter_clear htenancy hfound, checkRecord_counter_set htenancy hfound,
    checkRecord_plain_counters htenancy hfound hwf⟩

/-! ### The counter word (R420) -/

/-- The count of a counter word after `n` more events lies below its OVF bit and the reserved bits between. -/
theorem bumpWord_eq (w n : Nat) :
    bumpWord w n = (w % 2 ^ 48 + n) % 2 ^ 48 + at_ 63 (b2n (bitAt w 63 || decide (2 ^ 48 ≤ w % 2 ^ 48 + n))) := rfl

/-- OVF is kept, or set when the sum does not fit. -/
theorem bitAt_bumpWord (w n : Nat) : bitAt (bumpWord w n) 63 = (bitAt w 63 || decide (2 ^ 48 ≤ w % 2 ^ 48 + n)) :=
  bitAt_add_at_same (Nat.lt_of_lt_of_le (Nat.mod_lt _ (by decide)) (by decide)) _

/-- Settles O29: the word is the sum cut to 48 bits with OVF written at bit 63 above it. -/
theorem counterWordWraps : Obligations.CounterWordWraps := by
  intro w n
  have hcount : (w % 2 ^ 48 + n) % 2 ^ 48 < 2 ^ 48 := Nat.mod_lt _ (by decide)
  refine ⟨?_, ?_, ?_⟩
  · rw [bumpWord_eq, at_]
    omega
  · rw [bitAt_bumpWord, Bool.or_eq_true, decide_eq_true_iff]
  · rw [bumpWord_eq, at_]
    omega

/-! ### The telemetry FIFO (R437, R438) -/

/-- With no record to discard, a read takes the records it returns, as many words as fit. -/
theorem takeRecs_none (room n : Nat) (l : List (List Nat)) :
    (takeRecs [] room n l).2.1 = (takeRecs [] room n l).1.length ∧ (takeRecs [] room n l).1.length ≤ room
      ∧ (takeRecs [] room n l).2.2 = 0 := by
  induction l generalizing room n with
  | nil => exact ⟨rfl, Nat.zero_le _, rfl⟩
  | cons rec l ih =>
    rw [takeRecs, if_neg (by simp)]
    split
    · next hfits =>
      obtain ⟨hwords, hroom, hnone⟩ := ih (room - rec.length) (n + 1)
      refine ⟨?_, ?_, hnone⟩
      · show rec.length + _ = (rec ++ _).length
        rw [List.length_append, hwords]
      · show (rec ++ _).length ≤ room
        rw [List.length_append]
        omega
    · exact ⟨rfl, Nat.zero_le _, rfl⟩

/-- So a read moves R alone, and raises nothing (R438). -/
theorem tlmAdvance_none (s : State) :
    tlmAdvance [] s = { s with tlm := { s.tlm with
      r := s.tlm.r + (takeRecs [] 32 0 (unreadRecs s)).1.length } } := by
  obtain ⟨hwords, -, hnone⟩ := takeRecs_none 32 0 (unreadRecs s)
  simp only [tlmAdvance, hwords, hnone, if_true, Nat.add_zero]

/-- Settles O30: mark, rewind and release set the marks they name; a read moves R past the words it returns. -/
theorem fifoOperations : Obligations.FifoOperations := by
  intro s
  obtain ⟨-, hroom, -⟩ := takeRecs_none 32 0 (unreadRecs s)
  rw [tlmAdvance_none]
  exact ⟨⟨rfl, rfl, rfl, rfl⟩, ⟨rfl, rfl, rfl, rfl⟩, ⟨rfl, rfl, rfl, rfl⟩, ⟨rfl, hroom, rfl, rfl, rfl⟩⟩

end Sys2Proof.Machine
end

section
/-! What the slot controllers answer while the block runs (O56). -/
namespace Sys2Proof.Machine

section Running
variable {dt : Nat} {s : State} (hrun : s.phase = .running)
include hrun

/-! ### Presence and cooldown (R448, R457) -/

/-- A card that is found while none is seated begins its debounce. -/
theorem exec_presenceAssert_asserts {slot : Nat} (hempty : (s.advance dt).slotSeated slot = false) :
    exec (.presenceAssert dt slot) s = .next (presenceAsserted (s.advance dt) slot) := by
  show execPresenceAssert dt slot s = _
  rw [execPresenceAssert, runPowered_running hrun, if_neg (ne_true_of_eq_false hempty)]

section Cooldown
variable {slot : Nat} (hdue : (s.advance dt).due ⟨.cooldown, slot, 0⟩ = true)
include hdue

/-- After its cooldown a slot with a seated card tries to ramp. -/
theorem exec_cooldownEnd_ramps (hseated : ((s.advance dt).disarm ⟨.cooldown, slot, 0⟩).slotSeated slot = true) :
    exec (.cooldownEnd dt slot) s = .next (tryRamp ((s.advance dt).disarm ⟨.cooldown, slot, 0⟩) slot) := by
  show execCooldownEnd dt slot s = _
  rw [execCooldownEnd, runPowered_onDue_due hrun _ hdue, if_pos hseated]

/-- One without goes to Seating while the debounce of a card runs, and else is Empty again. -/
theorem exec_cooldownEnd_empties (hempty : ((s.advance dt).disarm ⟨.cooldown, slot, 0⟩).slotSeated slot = false)
    (hstate : ((s.advance dt).disarm ⟨.cooldown, slot, 0⟩).slotState slot = 3) :
    exec (.cooldownEnd dt slot) s
      = .next (setSlotState ((s.advance dt).disarm ⟨.cooldown, slot, 0⟩) slot
          (if ((s.advance dt).disarm ⟨.cooldown, slot, 0⟩).armed ⟨.debounce, slot, 0⟩ then 2 else 1)) := by
  show execCooldownEnd dt slot s = _
  rw [execCooldownEnd, runPowered_onDue_due hrun _ hdue, if_neg (ne_true_of_eq_false hempty), if_pos hstate]

end Cooldown

/-! ### Ramps and the fault timer (R448, R452, R454) -/

/-- A ramp that has come to its end turns the slot On, and with no fault timer running its PWRGD is asserted. -/
theorem exec_gateOnComplete_on {slot t : Nat} (hend : gateOnAt (s.advance dt) slot = some t)
    (hramping : (s.advance dt).slotState slot = 4) (hpassed : t ≤ (s.advance dt).now)
    (hsound : (setSlotState (s.advance dt) slot 5).slotTimer slot = false) :
    exec (.gateOnComplete dt slot) s = .next (assertPwrgd (setSlotState (s.advance dt) slot 5) slot) := by
  show execGateOnComplete dt slot s = _
  rw [execGateOnComplete, runPowered_running hrun, withSome_some _ hend, if_pos ⟨hramping, hpassed⟩]
  exact congrArg _ (if_neg (ne_true_of_eq_false hsound))

/-- A sense voltage at the limit of an On slot starts its fault timer. -/
theorem exec_faultTimerStart_starts {slot sense : Nat} (hon : (s.advance dt).slotState slot = 5)
    (hidle : (s.advance dt).slotTimer slot = false) (hlimit : (s.advance dt).slotLimit slot ≤ sense) :
    exec (.faultTimerStart dt slot sense) s
      = .next ((((s.advance dt).setReg Obj.SLOT_SENSE slot sense).putRegBit Obj.SLOT_STATUS slot 26 true).arm
          ⟨.slotFault, slot, 0⟩ ((s.advance dt).reg Obj.SLOT_FAULT_TIME slot * 1000000)) := by
  show execFaultTimerStart dt slot sense s = _
  rw [execFaultTimerStart, runPowered_running hrun, if_pos ⟨.inr hon, hidle, hlimit⟩]

/-- One below the limit stops it, and an On slot that waited for that gets its PWRGD. -/
theorem exec_faultTimerEnd_stops {slot sense : Nat} {t : State} (hruns : (s.advance dt).slotTimer slot = true)
    (hlimit : sense < (s.advance dt).slotLimit slot)
    (ht : t = (((s.advance dt).setReg Obj.SLOT_SENSE slot sense).putRegBit Obj.SLOT_STATUS slot 26 false).disarm
      ⟨.slotFault, slot, 0⟩) :
    exec (.faultTimerEnd dt slot sense) s
      = .next (if t.slotState slot = 5 ∧ t.slotPwrgd slot = false then assertPwrgd t slot else t) := by
  subst ht
  show execFaultTimerEnd dt slot sense s = _
  rw [execFaultTimerEnd, runPowered_running hrun, if_pos ⟨hruns, hlimit⟩]

/-! ### Damage, host commands and the presence pin (R446, R448, R456) -/

/-- A voltage behind a gate that is not driven is a damaged slot, and raises its source (R456). -/
theorem exec_damageDetect_raises {slot vout : Nat} (hopen : (s.advance dt).gateDriven slot = false) (hvolt : 1000 < vout) :
    exec (.damageDetect dt slot vout) s
      = .next (raise (((s.advance dt).setReg Obj.SLOT_VOUT slot vout).putRegBit Obj.SLOT_STATUS slot 22 true) 15 slot) := by
  show execDamageDetect dt slot vout s = _
  rw [execDamageDetect, runPowered_running hrun, if_pos ⟨hopen, hvolt⟩]
  exact congrArg _ (if_pos hrun)

/-- A write of DAMAGED is served against the voltage measured with it (R456). -/
theorem exec_damagedClear_wrote {slot vout : Nat} {path : Path}
    (htakes : takesWrite ((s.advance dt).setReg Obj.SLOT_VOUT slot vout) path Obj.SLOT_STATUS (some slot) (2 ^ 22) = true) :
    exec (.damagedClear dt path slot vout) s
      = .next (wrote ((s.advance dt).setReg Obj.SLOT_VOUT slot vout) path Obj.SLOT_STATUS (some slot) (2 ^ 22)
          (fun t => plainWrite t Obj.SLOT_STATUS slot (2 ^ 22))) := by
  show execDamagedClear dt path slot vout s = _
  rw [execDamagedClear, run_next _ hrun, serveWrite_takes _ htakes]

/-- A host's power control reaches the slot of the port that its vPPB holds (R446). -/
theorem exec_powerControllerControl_sets {host vppb n : Nat} (on : Bool)
    (hholds : vppbHolds ((s.advance dt).reg Obj.EDGE_VPPB (64 * host + vppb)) = true)
    (hslot : (s.advance dt).portSlot ((s.advance dt).regBits Obj.EDGE_VPPB (64 * host + vppb) 4 6) = some n) :
    exec (.powerControllerControl dt host vppb on) s = .next (setHostOn (s.advance dt) n on) := by
  show execPowerControllerControl dt host vppb on s = _
  rw [execPowerControllerControl, run_next _ hrun, if_pos hholds]
  exact congrArg _ (withSome_some _ hslot)

/-- A presence pin that breaks before the debounce ends stops it; a Seating slot is Empty again (R448). -/
theorem exec_presenceBreak_stops {slot : Nat} {t : State}
    (ht : t = ((s.advance dt).disarm ⟨.debounce, slot, 0⟩).putRegBit Obj.SLOT_STATUS slot 25 false) :
    exec (.presenceBreak dt slot) s = .next (if t.slotState slot = 2 then setSlotState t slot 1 else t) := by
  subst ht
  show execPresenceBreak dt slot s = _
  rw [execPresenceBreak, runPowered_running hrun]

end Running

/-- Settles O56: the ends of the timers act where they are due, a slot controller works as long as there is power, and the
other clauses are the lemmas above. VDD_AUX_LOW keeps the registers; the power-on release drops them (O57). -/
theorem slotsComplete : Obligations.SlotsComplete := by
  rintro dt s _ rfl hrun
  exact ⟨fun _ => exec_presenceAssert_asserts hrun,
    fun _ => runPowered_onDue_due hrun _,
    fun slot => runPowered_testedProp hrun (p := fun u => u.slot.asserted.contains slot = true)
      (f := fun u => cardGone (setAsserted u (u.slot.asserted.filter (· != slot))) slot (u.slotState slot)),
    fun _ => exec_cooldownEnd_ramps hrun,
    fun _ => exec_cooldownEnd_empties hrun,
    fun slot vin => runPowered_running hrun (fun u => tryRamp (sampleVin u vin) slot),
    fun _ _ => exec_gateOnComplete_on hrun,
    fun _ _ => exec_faultTimerStart_starts hrun,
    fun _ _ _ => exec_faultTimerEnd_stops hrun,
    fun _ => runPowered_onDue_due hrun _,
    fun slot sense hdriven hlimit => runPowered_testedProp hrun
      (p := fun u => u.gateDriven slot = true ∧ 2 * u.slotLimit slot ≤ sense)
      (f := fun u => slotTrip (u.setReg Obj.SLOT_SENSE slot sense) slot 1) ⟨hdriven, hlimit⟩,
    fun _ _ _ => run_serveWrite_wrote hrun,
    fun _ => runPowered_onDue_due hrun _,
    fun _ _ => exec_damageDetect_raises hrun,
    fun _ _ _ => exec_damagedClear_wrote hrun,
    fun _ _ _ on => exec_powerControllerControl_sets hrun on,
    fun _ _ => exec_presenceBreak_stops hrun,
    fun vin => runPowered_testedProp hrun (p := fun _ => vin < 10000) (f := fun u => sampleVin u vin),
    rfl⟩

end Sys2Proof.Machine
end

section
/-! What a write of `LIFE.REQUEST` is refused for and burns (O33), and what the commands of device states, lifecycle, debug access
and JTAG answer while the block runs (O59). -/
namespace Sys2Proof.Machine

/-! ### The value of `LIFE.REQUEST` (R476) -/

/-- The row of `LIFE.REQUEST`: 64 bits, written by the M class alone, immediate, of no plain range. -/
def lifeRequestRow : ObjDef := ⟨Obj.LIFE_REQUEST, 9, 8, 0, 2, false, [], 0, 0, 0xFFFFFFFFFFFFFFFF, 0⟩

/-- A record finds it under its index and subindex. -/
theorem lookupObj_lifeRequest : lookupObj 0x5830 2 = .ok lifeRequestRow := rfl

/-- A 64-bit value written to it is taken as it is. -/
theorem writtenValue_lifeRequest {v : Nat} (hv : v < 2 ^ 64) :
    writtenValue lifeRequestRow (ofLe (leBytes v 8)) = v := by
  have hwhole : ofLe (leBytes v 8) = v := by rw [ofLe_leBytes, Nat.mod_eq_of_lt (by omega)]
  rw [hwhole]
  show v &&& 0xFFFFFFFFFFFFFFFF = v
  exact (Nat.and_two_pow_sub_one_eq_mod v 64).trans (Nat.mod_eq_of_lt hv)

/-- SERIAL_CHECK and TARGET of a request name this device and its next state (R476). -/
def lifeRequestNext (s : State) (v : Nat) : Bool :=
  v / 2 ^ 32 == s.reg Obj.ID_SERIAL % 2 ^ 32 && v % 256 == s.reg Obj.LIFE_STATE + 1 && decide (v % 256 ≤ 2)

/-- That is its range. -/
theorem rangeOk_lifeRequest (s : State) {v : Nat} (hv : v < 2 ^ 64) : rangeOk s lifeRequestRow 0 v = lifeRequestNext s v := by
  have hserial : bits v 32 32 = v / 2 ^ 32 := Nat.mod_eq_of_lt (by omega)
  have htarget : bits v 0 8 = v % 256 := congrArg (· % 256) (Nat.div_one v)
  show (bits v 32 32 == s.reg Obj.ID_SERIAL % 2 ^ 32 && bits v 0 8 == s.reg Obj.LIFE_STATE + 1 && bits v 0 8 ≤ 2) = _
  rw [hserial, htarget, lifeRequestNext]

/-- It is taken in Start-up and in Test. -/
theorem stateOk_lifeRequest (s : State) (e v : Nat) : stateOk s Obj.LIFE_REQUEST e v = (s.devState == 0 || s.devState == 2) := rfl

/-- The M class may write it over each of its paths. -/
theorem accessOk_lifeRequest (s : State) {path : Path} (hclass : pathClass path = .m) :
    accessOk s path .write lifeRequestRow none = true := by
  cases path with
  | kdp | fm => rfl
  | i3c | tenant => cases hclass

/-- The checks of R500 on a write of an object that acts at once, from the length on. -/
theorem checkRecord_write_atOnce {s : State} {path : Path} {r : Rec} {o : ObjDef} (hfound : lookupObj r.index r.sub = .ok o)
    (haccess : accessOk s path .write o r.elem = true) (helement : elementOk o r.elem = true) (hidle : s.reg Obj.STG_STATUS ≠ 2)
    (hlength : r.data.length = o.size) (hatOnce : o.onCommit = false) :
    checkRecord s path .write r
      = if !rangeOk s o (r.elem.getD 0) (writtenValue o (ofLe r.data)) then .range
        else if !stateOk s o.addr (r.elem.getD 0) (writtenValue o (ofLe r.data)) then .state else .ok := by
  simp only [checkRecord, hfound, haccess, helement, hidle, hlength, hatOnce, Bool.not_true, Bool.false_eq_true, if_false,
    false_and, ne_eq, not_true_eq_false, Bool.false_and]

/-- What a write of `LIFE.REQUEST` over an M-class path is answered with while no commit is applied (R476). -/
theorem checkRecord_lifeRequest {s : State} {path : Path} {v : Nat} (hidle : s.reg Obj.STG_STATUS ≠ 2)
    (hclass : pathClass path = .m) (hv : v < 2 ^ 64) :
    checkRecord s path .write (writeRec Obj.LIFE_REQUEST none v)
      = if !lifeRequestNext s v then .range else if !(s.devState == 0 || s.devState == 2) then .state else .ok := by
  have hrec : writeRec Obj.LIFE_REQUEST none v = ⟨0x5830, 2, none, leBytes v 8⟩ := rfl
  rw [hrec, checkRecord_write_atOnce lookupObj_lifeRequest (accessOk_lifeRequest s hclass) rfl hidle (leBytes_length v 8) rfl,
    writtenValue_lifeRequest hv, Option.getD_none, rangeOk_lifeRequest s hv, lifeRequestRow, stateOk_lifeRequest]

/-- A request that does not name this device or its next state is out of range. -/
theorem lifeRequestNext_eq_false {s : State} {v : Nat}
    (hother : v / 2 ^ 32 ≠ s.reg Obj.ID_SERIAL % 2 ^ 32 ∨ v % 256 ≠ s.reg Obj.LIFE_STATE + 1) : lifeRequestNext s v = false := by
  rw [lifeRequestNext, Bool.and_eq_false_iff, Bool.and_eq_false_iff, beq_eq_false_iff_ne, beq_eq_false_iff_ne]
  exact .inl hother

/-- Settles O33: the range of a request, then the device states that take it; the fuse is burned beside the registers. -/
theorem lifecycleRequest : Obligations.LifecycleRequest := by
  refine ⟨fun s path v hidle hclass hv => ⟨fun hother => ?_, fun hserial htarget hlast hstarted htest => ?_⟩,
    fun s => ⟨Nat.le_max_left 1 _, rfl⟩⟩
  · rw [checkRecord_lifeRequest hidle hclass hv, lifeRequestNext_eq_false hother]
    rfl
  · have hnext : lifeRequestNext s v = true := by
      rw [lifeRequestNext, hserial, htarget, ← htarget, decide_eq_true hlast, beq_self_eq_true, beq_self_eq_true]
      rfl
    rw [checkRecord_lifeRequest hidle hclass hv, hnext, beq_false_of_ne hstarted, beq_false_of_ne htest]
    rfl

/-! ### Lifecycle, debug access and JTAG (R476 to R480) -/

section Running
variable {dt : Nat} {s : State} (hrun : s.phase = .running)
include hrun

/-- A request of Field Return that came alone is answered, and the reset begins (R476, R477). -/
theorem exec_requestFieldReturn_resets {path : Path} {serialCheck : Nat}
    (htakes : takesWrite (s.advance dt) path Obj.LIFE_REQUEST none (lifeWord serialCheck 2) = true)
    (halone : (s.advance dt).mgmt.svc = none) :
    exec (.requestFieldReturn dt path serialCheck) s
      = .next (beginChipReset (wrote (s.advance dt) path Obj.LIFE_REQUEST none (lifeWord serialCheck 2)
          (fun t => keepReset 4 (fieldReturnEffect t))) 4) := by
  show execRequestFieldReturn dt path serialCheck s = _
  rw [execRequestFieldReturn, run_next _ hrun, serveReset_takes _ halone htakes]

/-- A signature of the nonce by the debug key opens the debug access port, another gets a fresh nonce (R479). -/
theorem exec_debugUnlock_decides {signature : List Byte} (hlocked : (s.advance dt).debugLocked = true)
    (henabled : (s.advance dt).reg Obj.DBG_UNLOCK_EN = 1) (hport : (s.advance dt).boot.jtag = .debugPort) :
    exec (.debugUnlock dt signature) s
      = .next (if Config.ecdsaOk Config.debugKey (digest (unlockMessage (s.advance dt))) signature then
          (s.advance dt).putRegBit Obj.DBG_STATUS 0 31 true else giveNonce (s.advance dt)) := by
  show execDebugUnlock dt signature s = _
  rw [execDebugUnlock, run_next _ hrun, hlocked, henabled, hport]
  rfl

/-- A write to a locked region is dropped, counted, logged and raised (R480). -/
theorem exec_debugAccess_write {region : Nat} (hfirst : 1 ≤ region) (hlast : region ≤ 5) :
    exec (.debugAccess dt region true) s
      = .next (raise (pushLog ((s.advance dt).count1 Obj.DBG_REFUSED 0) Obj.DBG_REFUSED_LOG 16
          (at_ 24 ((s.advance dt).sinceReset / 1000 % 2 ^ 40) + at_ 23 1 + at_ 20 region)) 16 3) := by
  show execDebugAccess dt region true s = _
  rw [execDebugAccess, run_next _ hrun, if_neg (by omega)]
  simp only [b2n, if_true]

/-- A read of one is refused the same way, and reads zero (R480). -/
theorem exec_debugAccess_read {region : Nat} (hfirst : 1 ≤ region) (hlast : region ≤ 5) :
    exec (.debugAccess dt region false) s
      = .next ((raise (pushLog ((s.advance dt).count1 Obj.DBG_REFUSED 0) Obj.DBG_REFUSED_LOG 16
          (at_ 24 ((s.advance dt).sinceReset / 1000 % 2 ^ 40) + at_ 20 region)) 16 3).emit (.jtag "data" 0)) := by
  have hread : at_ 23 (b2n false) = 0 := rfl
  show execDebugAccess dt region false s = _
  rw [execDebugAccess, run_next _ hrun, if_neg (by omega)]
  simp only [hread, Nat.add_zero, Bool.false_eq_true, if_false]

/-- IDCODE is loaded and answers its code (R478). -/
theorem exec_jtagInstruction_idcode {ins : JtagIns} (hloaded : loadedIns (s.advance dt) ins = .idcode) :
    exec (.jtagInstruction dt ins) s
      = .next (({ s.advance dt with boot := { (s.advance dt).boot with jtag := .idcode } }).emit (.jtag "IDCODE" 0x364005CB)) := by
  show execJtagInstruction dt ins s = _
  rw [execJtagInstruction, run_next _ hrun]
  simp only [hloaded]

end Running

/-- Settles O59: a write of one object has the object's effect; the Field Return, the debug access port and the instruction are
the lemmas above. -/
theorem lifecycleAndDebugComplete : Obligations.LifecycleAndDebugComplete := by
  rintro dt s _ rfl hrun
  exact ⟨fun _ => run_serveWrite_wrote hrun,
    fun _ => run_serveWrite_wrote hrun,
    fun _ => run_serveWrite_wrote hrun,
    fun _ _ => run_serveWrite_wrote hrun,
    fun _ _ => exec_requestFieldReturn_resets hrun,
    fun _ => exec_debugUnlock_decides hrun,
    fun _ => exec_debugAccess_write hrun,
    fun _ => exec_debugAccess_read hrun,
    fun _ => exec_jtagInstruction_idcode hrun⟩

end Sys2Proof.Machine
end
